-- ==== Sys2Proof/Word.lean ====
section
/-! DEFINITION. The word types of the module: scalar registers and addresses are 64 bits (R65, R365), memory is bytes (R4). -/

namespace Sys2Proof

/-- A scalar register, a 64-bit register of a block, or a 64-bit address (R11, R65, R365). -/
abbrev Word := BitVec 64

/-- One byte of memory (R4). -/
abbrev Byte := BitVec 8

end Sys2Proof
end

