-- ==== Sys2Proof/Syntax.lean ====
section
/-! DEFINITION. The commands of the block: one constructor of Instr per row of spec/opcode_table.json, with its operands. -/

namespace Sys2Proof

/-! ### Names of registers and units -/

/-- A 5-bit register field (R72, R74, R173). -/
abbrev Reg := BitVec 5
abbrev Imm5 := BitVec 5
abbrev Imm10 := BitVec 10
abbrev Imm18 := BitVec 18
abbrev Imm20 := BitVec 20
abbrev Imm25 := BitVec 25
/-- Number of a special or system register (R66, R115). -/
abbrev SrNo := BitVec 10
/-- Number of a hardware loop (R85). -/
abbrev LoopNo := BitVec 2
/-- Number of a mask register in a vm or md field (R169, R281). -/
abbrev MaskNo := BitVec 3
/-- Number of a chain register (R248). -/
abbrev ChainNo := BitVec 2
/-- A logical tile T000 to T255 (R15). -/
abbrev TileId := Fin 256
/-- A service core, numbered as *The Module and Its Parts* numbers them. -/
abbrev SvcId := Fin 13
/-- A stack 00 to 19 (R464). -/
abbrev StackNo := Fin 20
/-- A command queue of the front end (R502). -/
abbrev QueueNo := Fin 64
/-- A host port P0 to P7 (R546). -/
abbrev PortNo := Fin 8
/-- A Gallery lane, and the port that begins at it (R422, R423). -/
abbrev LaneNo := Fin 144
/-- An Ezori session (R561). -/
abbrev SessNo := Fin 256
/-- A Gallery ID (R26). -/
abbrev Gid := BitVec 16
/-- A trip ID: bit 14 names the exchange die (R391). -/
abbrev TripId := BitVec 15
/-- A sequence slot (R382). -/
abbrev SlotNo := Fin 4096
abbrev InboxNo := Fin 16
abbrev GroupNo := Fin 256

/-- A core that executes Zaham instructions: a tile's Zaham-L core or a Zaham-S service core (R62). -/
inductive CoreId where
  | tile (n : TileId)
  | svc (n : SvcId)
  deriving DecidableEq, Repr

/-- A compute die (R14). -/
inductive Die where
  | c0
  | c1
  deriving DecidableEq, Repr

/-- A reference clock input (R50). -/
inductive RefClk where
  | ref0
  | ref1
  deriving DecidableEq, Repr

/-! ### Instruction formats (R72, R74, R173) -/

/-- Layout LR. -/
structure LR where
  rd : Reg
  rs1 : Reg
  rs2 : Reg
  f : Bool
  deriving DecidableEq, Repr

/-- Layout LI. -/
structure LI where
  rd : Reg
  rs1 : Reg
  f : Bool
  imm : BitVec 14
  deriving DecidableEq, Repr

/-- Layout LI of major 0x06: imm[13:12] names the shift, imm[11:6] must be 0, imm[5:0] is the amount (R75). -/
structure LISh where
  rd : Reg
  rs1 : Reg
  f : Bool
  mbz : BitVec 6
  amt : BitVec 6
  deriving DecidableEq, Repr

/-- Layout LC (R74). -/
structure LC where
  rd : Reg
  rs1 : Reg
  rs2 : Reg
  deriving DecidableEq, Repr

/-- A register ALU instruction: short SR form, with rd also the first source, or long LR form (R73, R77). -/
inductive AluForm where
  | short (rd rs : Reg)
  | long (f : LR)
  deriving DecidableEq, Repr

/-- `addi`: short SI form or long LI form. -/
inductive ImmForm where
  | short (rd : Reg) (imm : BitVec 5)
  | long (f : LI)
  deriving DecidableEq, Repr

/-- An immediate shift: short SI form (amount 0 to 31) or long LI form. -/
inductive ShiftForm where
  | short (rd : Reg) (imm : BitVec 5)
  | long (f : LISh)
  deriving DecidableEq, Repr

/-- Which part of rs1 `sext` extends (R77). -/
inductive SextWidth where
  | b
  | h
  | w
  deriving DecidableEq, Repr

/-- The widths of a load, majors 0x10 to 0x16 (R75). -/
inductive LdKind where
  | b | bu | h | hu | w | wu | d
  deriving DecidableEq, Repr

/-- The widths of a store, majors 0x18 to 0x1B (R75). -/
inductive StKind where
  | b | h | w | d
  deriving DecidableEq, Repr

/-- `ld`: the short forms through a register, and layout LM (R73, R79). -/
inductive LdForm where
  | shortD (rd rs : Reg)
  | shortW (rd rs : Reg)
  | long (k : LdKind) (rt base : Reg) (simm : BitVec 15)
  deriving DecidableEq, Repr

/-- `st`: the short forms through a register, and layout LM (R73, R79). -/
inductive StForm where
  | shortD (rt rs : Reg)
  | shortW (rt rs : Reg)
  | long (k : StKind) (rt base : Reg) (simm : BitVec 15)
  deriving DecidableEq, Repr

/-- `bcc`: short SB or long LB (R73, R75). -/
inductive BccForm where
  | short (cond : BitVec 4) (simm : BitVec 6)
  | long (cond : BitVec 4) (simm : BitVec 21)
  deriving DecidableEq, Repr

/-- `jalr`: short SX sub 4, or long LI (R73, R75). -/
inductive JalrForm where
  | short (rs : Reg)
  | long (f : LI)
  deriving DecidableEq, Repr

/-- `ifl`: short SX sub 5 (rs must be 0), or the range form of R82. -/
inductive IflForm where
  | short (rs : Reg)
  | long (f : LR)
  deriving DecidableEq, Repr

/-- A string instruction: with or without the rep prefix, element size field, the Reserved field [27:7] of layout LS, and
the number of element steps after which an entry point is taken (R93 to R96; none: it runs to its end). -/
structure StrForm where
  rep : Bool
  sz : BitVec 2
  mbz : BitVec 21
  upTo : Option Nat
  deriving DecidableEq, Repr

/-- Layout VR; s is func[6], the scalar bit of R175. -/
structure VR where
  vd : Reg
  vs1 : Reg
  vs2 : Reg
  vm : MaskNo
  s : Bool
  deriving DecidableEq, Repr

/-- Layout VF; s tells major 0x24, where vs2 names a scalar register, from major 0x23 (R174). -/
structure VF where
  vd : Reg
  vs1 : Reg
  vs2 : Reg
  vs3 : Reg
  vm : MaskNo
  s : Bool
  deriving DecidableEq, Repr

/-- Layout VM. -/
structure VM where
  vt : Reg
  base : Reg
  vm : MaskNo
  simm : BitVec 11
  deriving DecidableEq, Repr

/-! ### Operands of the events: what the surroundings decide -/

/-- What has struck a line since it was last written: bits of the pins of its lower and of its upper burst (R484), and whether
the copy that a stack-cache slice holds can no longer be read (R481). -/
structure LineErr where
  lo : List (Fin 18 × BitVec 32) := []
  hi : List (Fin 18 × BitVec 32) := []
  sram : Bool := false
  deriving DecidableEq, Repr

/-- A data fault of a started vector access (R208). -/
inductive DataFail where
  | uncorr (sub : BitVec 8)
  | thermal (stack : StackNo)
  deriving DecidableEq, Repr

/-- A failure of a read or a released write at its target (R301, R317, R359). -/
inductive ReadFail where
  | bus
  | uncorr
  | thermal
  deriving DecidableEq, Repr

/-- How a Gallery operation ended beyond this module (R374, R376). -/
inductive OpResult where
  | ok
  | failed (code : BitVec 8) (detail : BitVec 16)
  deriving DecidableEq, Repr

/-- The answer to a remote read (R323, R378). -/
inductive ReadResp where
  | data (bytes : List Byte)
  | failed (code : BitVec 8)
  deriving DecidableEq, Repr

/-- An inbox anywhere in the machine (R379). -/
structure InboxRef where
  gid : Gid
  tile : TileId
  inbox : InboxNo
  deriving DecidableEq, Repr

/-- The header a token row carries (R399); seq is filled in when the slot is filled. -/
structure RowHeader where
  origin : Gid
  trip : BitVec 16
  gen : BitVec 8
  efmt : BitVec 8
  nb : BitVec 16
  expert : BitVec 32
  deriving DecidableEq, Repr

/-- A neighbour in a group's tree (R411). -/
inductive TreeNbr where
  | parent
  | child (rank : Nat)
  deriving DecidableEq, Repr

/-- The five collectives (R413). -/
inductive CollOp where
  | allreduce
  | reducescatter
  | allgather
  | alltoall
  | barrier
  deriving DecidableEq, Repr

/-- What the members of a group must agree on (R415). -/
structure CollShape where
  op : CollOp
  dtype : BitVec 4
  rop : BitVec 4
  count : Nat
  num : Nat
  deriving DecidableEq, Repr

/-- What a remote write carries: bytes to store, or with `add` the value to add to what stands there (R343, R367). -/
structure WriteData where
  add : Bool := false
  bytes : List Byte
  deriving DecidableEq, Repr

/-- What follows a flit's header and payload: its CRC (R430), and by lane the symbol errors that its codewords had (R427). -/
structure FlitCheck where
  crc : BitVec 32
  fec : List (Fin 8 × Nat) := []
  deriving DecidableEq, Repr

/-- A flit as a port receives it (R430). -/
structure WireFlit where
  hdr : Word
  payload : List Byte
  chk : FlitCheck
  deriving DecidableEq, Repr

/-- A message of the peer in a link's key setup, as its key-exchange flits carried it (R434): the hello with nonce,
certificate, evidence, port and Gallery ID; the encapsulation key; the ciphertext; the signature. -/
inductive KeyMsg where
  | hello (nonce : BitVec 256) (cert evidence : List Byte) (pport : BitVec 8) (peer : Gid)
  | encapKey (ek : List Byte)
  | ciphertext (ct : List Byte)
  | signature (sig : List Byte)
  deriving DecidableEq, Repr

/-- A protocol carried by a received frame (R549 to R555). -/
inductive Proto where
  | ezori
  | ptp
  | nd
  | arp
  | echo
  | lldp
  | macControl
  | routerAdv
  | other
  deriving DecidableEq, Repr

/-- A received Ethernet frame, as far as its checks need it (R548 to R555). -/
structure Frame where
  fcsOk : Bool
  ipLen : Nat
  vid : Option (BitVec 12)
  stacked : Bool
  fragment : Bool
  extHdr : Bool
  v4 : Bool
  proto : Proto
  csumOk : Bool
  ce : Bool
  deriving DecidableEq, Repr

/-- The far end of a host port: the PHY types it offers, and whether training succeeds (R547). -/
structure NegPeer where
  offers : List (BitVec 4)
  trained : Bool
  deriving DecidableEq, Repr

/-- A neighbour message (R550). -/
inductive NdMsg where
  | solicit (target : BitVec 128) (src : BitVec 128) (srcMac : BitVec 48)
  | advert (addr : BitVec 128) (mac : BitVec 48)
  | arpRequest (target : BitVec 32) (src : BitVec 32) (srcMac : BitVec 48)
  | arpReply (addr : BitVec 32) (mac : BitVec 48)
  deriving DecidableEq, Repr

/-- A host endpoint named in HELLO_I (R560): network bit, address and UDP port. -/
structure HostEp where
  net : Bool
  addr : BitVec 128
  port : BitVec 16
  deriving DecidableEq, Repr

/-- The 24-byte header of an Ezori packet (R558). -/
structure EzHeader where
  ver : BitVec 4
  ptype : BitVec 4
  flags : Byte
  path : Byte
  rsv : Byte
  sid : BitVec 32
  pn : Word
  rsv2 : Word
  deriving DecidableEq, Repr

/-- An Ezori packet that a port receives: header, payload as it stands on the wire, tag, and its CE mark (R552, R558, R559). -/
structure EzPacket where
  port : PortNo
  hdr : EzHeader
  body : List Byte
  tag : List Byte
  ce : Bool
  deriving DecidableEq, Repr

/-- The contents of HELLO_I but for the session ID and the events flag, and where it came from (R560). -/
structure HostHello where
  nonce : BitVec 256
  ek : List Byte
  eps : List HostEp
  src : HostEp
  deriving DecidableEq, Repr

/-- A piece of a message behind the 24-byte message header of a DATA packet (R563). -/
structure MsgPiece where
  msn : BitVec 32
  op : BitVec 8
  response : Bool
  lastPiece : Bool
  cmpl : Bool
  xid : Word
  offset : Nat
  total : Nat
  bytes : List Byte
  deriving DecidableEq, Repr

/-- A mailbox: HMB0 to HMB15, or the mailbox of a tile (R575). -/
inductive MbId where
  | hmb (n : Fin 16)
  | tmb (t : TileId)
  deriving DecidableEq, Repr

/-- A doorbell set: a tile's or the host's (R578). -/
inductive DbId where
  | tile (t : TileId)
  | host
  deriving DecidableEq, Repr

/-- A structure that can be sounded (R663). -/
inductive Structure where
  | l1row (t : TileId) (bank : Fin 16) (row : Nat)
  | vlane (t : TileId) (lane : Fin 32)
  | krow (t : TileId) (row : Fin 32)
  | tile (t : TileId)
  | scway (k : StackNo) (ch : Fin 128) (way : Nat)
  | memrow (k : StackNo) (ch : Fin 128) (bank : Fin 32) (row : Nat)
  | glane (o : Fin 18) (lane : Fin 8)
  deriving DecidableEq, Repr

/-- The outcome of a sounding: of the live structure, and, after a patrol mismatch, of the patrolling spare (R666, R667). -/
structure SoundResult where
  pass : Bool
  patrol : Option Bool
  /-- The pace of the cluster's spare meets the bound of R39. -/
  pace : Bool := true
  deriving DecidableEq, Repr

/-- A spare (R663). Of the spare rows of an L1 bank and of a memory bank, and of the spare ways of a slice, the next in line is meant. -/
inductive Spare where
  | tile (c : Fin 32)
  | vlane (t : TileId)
  | krow (t : TileId) (i : Fin 2)
  | l1row (t : TileId) (bank : Fin 16)
  | scway (k : StackNo) (ch : Fin 128)
  | memrow (k : StackNo) (ch : Fin 128) (bank : Fin 32)
  | chan (k : StackNo) (j : Fin 4)
  deriving DecidableEq, Repr

/-- Readings of the input: the 1 ms average of its power in W, its voltage in 10 mV and its current in 10 mA (R650, R653). -/
structure InputReading where
  pin : Nat
  vin : BitVec 16
  iin : BitVec 16
  deriving DecidableEq, Repr

/-- What Ochre's checks find at a start, for the parts that the state does not decide: for image A and image B the first
check that fails, if any (a code of R596), and the failures that no other image can mend; and the time to ready in 10 ms. -/
structure StartResult where
  failA : Option (BitVec 8)
  failB : Option (BitVec 8)
  common : Option (BitVec 8)
  dur : BitVec 16
  /-- The first 512 bytes of the image on device 0 and on device 1, and the configuration region, where equipment outside has
  written them since the last start (R582, R584, R587). -/
  headA : Option (List Byte) := none
  headB : Option (List Byte) := none
  region : Option (List Byte) := none
  /-- The channels that fail training; the spares that fail sounding; and the structures that fail it, each with whether the spare
  that would take it meets R39 (R592, R594, R670). -/
  chans : List (StackNo × Fin 128) := []
  badSpares : List Spare := []
  found : List (Structure × Bool) := []
  /-- The write of the rollback counter fails (R591). -/
  fuseFail : Bool := false
  deriving DecidableEq, Repr

/-- A resource on which a lower level holds a command's clock (R523). -/
inductive HoldRes where
  | tile (t : TileId)
  | stack (k : StackNo)
  | port (p : LaneNo)
  deriving DecidableEq, Repr

/-! ### The commands -/

/-- One constructor per row of spec/opcode_table.json, in the table's order. -/
inductive Instr where
  /-- MOV (R73). Short-form move copies rs into rd and sets n and z. -/
  | mov (c : CoreId) (rd : Reg) (rs : Reg)
  /-- MOVI (R73). Writes the sign-extended 5-bit immediate to rd. -/
  | movi (c : CoreId) (rd : Reg) (imm : Imm5)
  /-- ADD (R77). Adds two registers, short or long form, with flags under R69. -/
  | add (c : CoreId) (f : AluForm)
  /-- SUB (R77). Subtracts rs2 from rs1, short or long form. -/
  | sub (c : CoreId) (f : AluForm)
  /-- ADC (R77). Adds two registers and the carry flag. -/
  | adc (c : CoreId) (f : LR)
  /-- SBC (R77). Subtracts with borrow taken from the carry flag. -/
  | sbc (c : CoreId) (f : LR)
  /-- AND (R77). Bitwise AND of two registers. -/
  | andR (c : CoreId) (f : AluForm)
  /-- OR (R77). Bitwise OR of two registers. -/
  | orR (c : CoreId) (f : AluForm)
  /-- XOR (R77). Bitwise XOR of two registers. -/
  | xorR (c : CoreId) (f : AluForm)
  /-- ANDN (R77). Computes rs1 AND NOT rs2. -/
  | andn (c : CoreId) (f : LR)
  /-- SHL (R77). Shifts left by the low six bits of rs2. -/
  | shl (c : CoreId) (f : AluForm)
  /-- SHR (R77). Shifts right logically by the low six bits of rs2. -/
  | shr (c : CoreId) (f : AluForm)
  /-- SAR (R77). Shifts right arithmetically by the low six bits of rs2. -/
  | sar (c : CoreId) (f : AluForm)
  /-- ROL (R77). Rotates left by the low six bits of rs2. -/
  | rol (c : CoreId) (f : LR)
  /-- CMP (R73). Sets the flags from rd minus rs and writes no register. -/
  | cmp (c : CoreId) (rd : Reg) (rs : Reg)
  /-- CMPI (R73). Sets the flags from rd minus a 5-bit immediate. -/
  | cmpi (c : CoreId) (rd : Reg) (imm : Imm5)
  /-- MUL (R77). Writes the low 64 bits of the product, with signed overflow in v when F is 1. -/
  | mul (c : CoreId) (f : AluForm)
  /-- MULH (R77). Writes the high 64 bits of the signed 128-bit product. -/
  | mulh (c : CoreId) (f : LR)
  /-- MULHU (R77). Writes the high 64 bits of the unsigned 128-bit product. -/
  | mulhu (c : CoreId) (f : LR)
  /-- DIV (R78). Signed division rounded toward zero, with the fixed results of R78 for the special cases. -/
  | div (c : CoreId) (f : LR)
  /-- DIVU (R78). Unsigned division that does not fault on a zero divisor. -/
  | divu (c : CoreId) (f : LR)
  /-- REM (R78). Signed remainder that takes the sign of rs1. -/
  | rem (c : CoreId) (f : LR)
  /-- REMU (R78). Unsigned remainder. -/
  | remu (c : CoreId) (f : LR)
  /-- SLT (R77). Writes 1 when rs1 is less than rs2 (signed), else 0. -/
  | slt (c : CoreId) (f : LR)
  /-- SLTU (R77). Writes 1 when rs1 is less than rs2 (unsigned), else 0. -/
  | sltu (c : CoreId) (f : LR)
  /-- MIN (R77). Writes the signed minimum of two registers. -/
  | minR (c : CoreId) (f : LR)
  /-- MAX (R77). Writes the signed maximum of two registers. -/
  | maxR (c : CoreId) (f : LR)
  /-- MINU (R77). Writes the unsigned minimum of two registers. -/
  | minu (c : CoreId) (f : LR)
  /-- MAXU (R77). Writes the unsigned maximum of two registers. -/
  | maxu (c : CoreId) (f : LR)
  /-- CLZ (R77). Counts the leading zeros of rs1. -/
  | clz (c : CoreId) (f : LR)
  /-- CTZ (R77). Counts the trailing zeros of rs1. -/
  | ctz (c : CoreId) (f : LR)
  /-- POPC (R77). Counts the set bits of rs1. -/
  | popc (c : CoreId) (f : LR)
  /-- BSWAP (R77). Reverses the byte order of rs1. -/
  | bswap (c : CoreId) (f : LR)
  /-- SEXT (R77). Sign-extends a byte, halfword or word of rs1 (sext.b, sext.h, sext.w). -/
  | sext (c : CoreId) (w : SextWidth) (f : LR)
  /-- ZEXT_W (R77). Zero-extends the low word of rs1. -/
  | zextW (c : CoreId) (f : LR)
  /-- ADDI (R75). Adds a sign-extended immediate, short or long form. -/
  | addi (c : CoreId) (f : ImmForm)
  /-- ANDI (R75). ANDs rs1 with a sign-extended 14-bit immediate. -/
  | andi (c : CoreId) (f : LI)
  /-- ORI (R75). ORs rs1 with a sign-extended 14-bit immediate. -/
  | ori (c : CoreId) (f : LI)
  /-- XORI (R75). XORs rs1 with a sign-extended 14-bit immediate. -/
  | xori (c : CoreId) (f : LI)
  /-- SHLI (R75). Shifts left by an immediate amount. -/
  | shli (c : CoreId) (f : ShiftForm)
  /-- SHRI (R75). Shifts right logically by an immediate amount. -/
  | shri (c : CoreId) (f : ShiftForm)
  /-- SARI (R75). Shifts right arithmetically by an immediate amount. -/
  | sari (c : CoreId) (f : ShiftForm)
  /-- ROLI (R75). Rotates left by an immediate amount. -/
  | roli (c : CoreId) (f : LISh)
  /-- SLTI (R75). Writes 1 when rs1 is below the immediate (signed). -/
  | slti (c : CoreId) (f : LI)
  /-- SLTIU (R75). Writes 1 when rs1 is below the sign-extended immediate (unsigned). -/
  | sltiu (c : CoreId) (f : LI)
  /-- LUI (R75). Writes the sign-extended imm20 times 2^14 to rd. -/
  | lui (c : CoreId) (rd : Reg) (imm : Imm20)
  /-- LSH (R75). Shifts rd left by 20 bits and ORs in imm20. -/
  | lsh (c : CoreId) (rd : Reg) (imm : Imm20)
  /-- LD (R79). Loads 1 to 8 bytes from base plus offset, sign- or zero-extending, through the target that R322 selects. -/
  | ld (c : CoreId) (f : LdForm)
  /-- ST (R79). Stores 1 to 8 bytes from rt at base plus offset through the store buffer. -/
  | st (c : CoreId) (f : StForm)
  /-- LDSP_D (R73). Loads a doubleword at s31 plus imm5 times 8. -/
  | ldspD (c : CoreId) (rd : Reg) (imm : Imm5)
  /-- STSP_D (R73). Stores a doubleword at s31 plus imm5 times 8. -/
  | stspD (c : CoreId) (rd : Reg) (imm : Imm5)
  /-- LINE_FILL (R329). A line in flight returns to a miss register, is installed after any victim write has been accepted, and serves the merged accesses. -/
  | lineFill (t : TileId) (mr : Fin 128) (err : LineErr)
  /-- PREFETCH (R337). A confirmed stream issues a prefetch fill once 16 miss registers are free, or drops it silently. -/
  | prefetch (t : TileId) (st : Fin 16)
  /-- LATE_STORE (R145). A buffered store or victim write that fails after acceptance writes nothing at its target, is recorded in TILE_LSE and TILE_LSECNT, and raises the LATE_STORE interrupt. -/
  | lateStore (c : CoreId) (victim : Option Nat)
  /-- BCC (R80). Branches when the condition holds on the flags. -/
  | bcc (c : CoreId) (f : BccForm)
  /-- BR (R73). Branches always, within about 1 KiB. -/
  | br (c : CoreId) (imm : Imm10)
  /-- JAL (R75). Writes the return address to s30 and jumps. -/
  | jal (c : CoreId) (imm : Imm25)
  /-- JALR (R75). Writes the return address and jumps to a register plus offset, short or long form. -/
  | jalr (c : CoreId) (f : JalrForm)
  /-- JR (R73). Jumps to the address in rs. -/
  | jr (c : CoreId) (rs : Reg)
  /-- RET (R73). Jumps to s30. -/
  | ret (c : CoreId) (rs : Reg)
  /-- NOP (R73). Does nothing beyond the loop-end test. -/
  | nop (c : CoreId) (rs : Reg)
  /-- ZLOOP (R86). Opens hardware loop i by writing LSi, LEi and LCi, and skips the body when the count is 0. -/
  | zloop (c : CoreId) (lp : LoopNo) (rs : Reg) (off : Imm18)
  /-- SMOV (R93). Copies elements from s2 to s1, once, or with rep until s3 is 0. -/
  | smov (c : CoreId) (f : StrForm)
  /-- SSET (R93). Fills elements at s1 with the low bytes of s2. -/
  | sset (c : CoreId) (f : StrForm)
  /-- SCMP (R94). Compares elements at s1 and s2 and stops with flags set at the first mismatch. -/
  | scmp (c : CoreId) (f : StrForm)
  /-- IFL (R107). Waits for older stores, then invalidates the instruction cache, or a range of it, and the fetch window. -/
  | ifl (c : CoreId) (f : IflForm)
  /-- MFSR (R82). Reads a special or system register into rd. -/
  | mfsr (c : CoreId) (rd : Reg) (sr : SrNo) (f : Bool)
  /-- MTSR (R82). Writes a special or system register, effective from the next instruction. -/
  | mtsr (c : CoreId) (sr : SrNo) (rs : Reg) (f : Bool)
  /-- MSET (R150). Changes lvl and ml of TILE_STATUS under a mask, returns the old mode and refetches. -/
  | mset (c : CoreId) (f : LR)
  /-- TRAP (R122). Enters the level-7 handler with the following instruction saved and rs1 in the frame. -/
  | trap (c : CoreId) (f : LR)
  /-- ERET (R129). Restores the state saved in the frame at s31 and continues at epc, or enters Backstop with ERET_FRAME. -/
  | eret (c : CoreId) (f : LR)
  /-- HALT (R130). Stops issue until the front end restarts the tile. -/
  | halt (c : CoreId) (f : LR)
  /-- WAITQ (R540). Completes at once when satisfied, or takes a timer 0 entry and parks the tile until an inbox arrival, a task-queue entry, a front-end request or a timeout. -/
  | waitq (c : CoreId) (f : LR)
  /-- INTERRUPT (R143). At an entry point the highest unmasked enabled pending source is taken, and a higher source may take over in steps 0 to 7. -/
  | interrupt (c : CoreId)
  /-- SYSTEM_REGISTER_MIRROR_WRITE (R116). A write through the register-block mirror takes effect only while the tile's issue is stopped, and is otherwise discarded. -/
  | systemRegisterMirrorWrite (t : TileId) (sr : SrNo) (v : Word)
  /-- TILE_T0ARM (R157). Arms the lowest free timer 0 entry as an alarm, or raises TIMER_BUSY. -/
  | tileT0arm (c : CoreId) (rs : Reg)
  /-- TILE_T0CAN (R157). Frees the timer 0 alarm entries named by the bits written. -/
  | tileT0can (c : CoreId) (rs : Reg)
  /-- TIMER_0_ENTRY_EXPIRY (R158). A timer 0 entry reaches its deadline, and an alarm sets its fired bit or a waitq ends by timeout. -/
  | timer0EntryExpiry (c : CoreId) (i : Fin 4)
  /-- PROF (R159). At the end of each sampler period a sample raises PROF, or missed counts up while timer 0 is busy. -/
  | prof (c : CoreId)
  /-- TILE_PROF (R159). Sets the sampler period and enable, and a write with en 0 clears missed. -/
  | tileProf (c : CoreId) (rs : Reg)
  /-- WDOG (R160). Timer 1 expiry sets TILE_IPEND.wdog, or halts the tile when wdog is still pending. -/
  | wdog (c : CoreId)
  /-- TILE_T1CTL (R160). Sets the watchdog period and enable, or kicks it, and discards en 1 with period 0. -/
  | tileT1ctl (c : CoreId) (rs : Reg)
  /-- TILE_LSECNT (R146). Any write clears the late-error count and kind and frees TILE_LSE. -/
  | tileLsecnt (c : CoreId) (rs : Reg)
  /-- PACE_WINDOW (R42). At the end of each 1,024 ns window the pace monitor loads cur, min and max, and MOD_PACESUM is updated. -/
  | paceWindow (counts : List (BitVec 16))
  /-- TILE_PACE_CLR (R42). Writing clr sets min to 0xFFFF and max to 0. -/
  | tilePaceClr (t : TileId) (v : Word)
  /-- TILE_TCORR_CTL (R60). Captures TILE_STEPS and MOD_TIME together as one pair. -/
  | tileTcorrCtl (t : TileId) (v : Word)
  /-- REFERENCE_CLOCK_LOSS (R50). REFCLK0 absent for 64 ns switches each generator to REFCLK1 within 2 us, or a loss of both is fatal. -/
  | referenceClockLoss (r : RefClk)
  /-- PPS_EDGE (R56). A rising 1PPS edge marks the second and is captured into MOD_PPSCAP. -/
  | ppsEdge
  /-- PPS_LOST (R56). 1PPS absent for 1.5 s, or off by more than 1 us for three edges, leaves the source selection. -/
  | ppsLost
  /-- PTP_EVENT_MESSAGE (R553). A timestamped PTP message updates master selection and the servo that steers MOD_TIME. -/
  | ptpEventMessage (p : PortNo) (err : Int)
  /-- HINIT (R101). Clears the hash state and selects SHAKE128 or SHAKE256. -/
  | hinit (c : CoreId) (f : LC)
  /-- HABS (R102). Absorbs the 8 bytes of rs1, permuting when the rate is reached. -/
  | habs (c : CoreId) (f : LC)
  /-- HABSM (R101). Absorbs rs2 bytes from memory. -/
  | habsm (c : CoreId) (f : LC)
  /-- HFIN (R101). Applies the SHAKE padding and permutes. -/
  | hfin (c : CoreId) (f : LC)
  /-- HSQZ (R102). Squeezes the next 8 bytes into rd. -/
  | hsqz (c : CoreId) (f : LC)
  /-- HSAVE (R101). Stores the 208-byte hash state to memory. -/
  | hsave (c : CoreId) (f : LC)
  /-- HREST (R101). Loads the 208-byte hash state from memory. -/
  | hrest (c : CoreId) (f : LC)
  /-- VCFG (R165). Sets element width, group, 16-bit float format and VL, and returns VL. -/
  | vcfg (t : TileId) (f : LI)
  /-- VECTOR_START (R194). A dispatched vector instruction starts in its unit once order, unit and operand conditions allow, and runs its beats. -/
  | vectorStart (t : TileId) (mismatch : Bool)
  /-- VECTOR_DATA_FAULT (R208). An uncorrectable read or THERMAL_STOP met by a started vld or vst fill stops it at element e and enters the handler after the started instructions complete. -/
  | vectorDataFault (t : TileId) (e : Nat) (addr : Word) (why : DataFail)
  /-- VLD (R201). Loads VL unit-stride elements after the check of R205. -/
  | vld (t : TileId) (f : VM)
  /-- VST (R201). Stores VL unit-stride elements after the check of R205. -/
  | vst (t : TileId) (f : VM)
  /-- VFADD (R175). Floating-point add per active element. -/
  | vfadd (t : TileId) (f : VR)
  /-- VFSUB (R175). Floating-point subtract per active element. -/
  | vfsub (t : TileId) (f : VR)
  /-- VFMUL (R175). Floating-point multiply per active element. -/
  | vfmul (t : TileId) (f : VR)
  /-- VFDIV (R175). Floating-point divide per active element. -/
  | vfdiv (t : TileId) (f : VR)
  /-- VFMIN (R177). Floating-point minimum with the NaN rules of R177. -/
  | vfmin (t : TileId) (f : VR)
  /-- VFMAX (R177). Floating-point maximum with the NaN rules of R177. -/
  | vfmax (t : TileId) (f : VR)
  /-- VFSQRT (R175). Floating-point square root per active element. -/
  | vfsqrt (t : TileId) (f : VR)
  /-- VFNEG (R175). Inverts the sign of each active element. -/
  | vfneg (t : TileId) (f : VR)
  /-- VFABS (R175). Clears the sign of each active element. -/
  | vfabs (t : TileId) (f : VR)
  /-- VCVT_F_I (R179). Converts signed integers to floats of the same width. -/
  | vcvtFI (t : TileId) (f : VR)
  /-- VCVT_I_F (R179). Converts floats to saturated signed integers of the same width. -/
  | vcvtIF (t : TileId) (f : VR)
  /-- VFWCVT (R180). Widens F16 or B16 to F32, or F32 to F64. -/
  | vfwcvt (t : TileId) (f : VR)
  /-- VFNCVT (R180). Narrows F64 to F32, or F32 to F16 or B16. -/
  | vfncvt (t : TileId) (f : VR)
  /-- VFMA (R175). Fused vs1 times b plus vs3, rounded once. -/
  | vfma (t : TileId) (f : VF)
  /-- VFMS (R175). Fused vs1 times b minus vs3. -/
  | vfms (t : TileId) (f : VF)
  /-- VFNMA (R175). Fused minus vs1 times b plus vs3. -/
  | vfnma (t : TileId) (f : VF)
  /-- VFNMS (R175). Fused minus vs1 times b minus vs3. -/
  | vfnms (t : TileId) (f : VF)
  /-- VADD (R175). Integer add modulo 2^ew. -/
  | vadd (t : TileId) (f : VR)
  /-- VSUB (R175). Integer subtract modulo 2^ew. -/
  | vsub (t : TileId) (f : VR)
  /-- VMUL (R175). Writes the low ew bits of the integer product. -/
  | vmul (t : TileId) (f : VR)
  /-- VMULH (R175). Writes the high ew bits of the signed product. -/
  | vmulh (t : TileId) (f : VR)
  /-- VMULHU (R175). Writes the high ew bits of the unsigned product. -/
  | vmulhu (t : TileId) (f : VR)
  /-- VAND (R175). Vector bitwise AND. -/
  | vand (t : TileId) (f : VR)
  /-- VOR (R175). Vector bitwise OR. -/
  | vor (t : TileId) (f : VR)
  /-- VXOR (R175). Vector bitwise XOR. -/
  | vxor (t : TileId) (f : VR)
  /-- VANDN (R175). Vector vs1 AND NOT b. -/
  | vandn (t : TileId) (f : VR)
  /-- VSHL (R175). Vector shift left. -/
  | vshl (t : TileId) (f : VR)
  /-- VSHR (R175). Vector logical shift right. -/
  | vshr (t : TileId) (f : VR)
  /-- VSAR (R175). Vector arithmetic shift right. -/
  | vsar (t : TileId) (f : VR)
  /-- VMIN (R175). Vector signed minimum. -/
  | vmin (t : TileId) (f : VR)
  /-- VMAX (R175). Vector signed maximum. -/
  | vmax (t : TileId) (f : VR)
  /-- VMINU (R175). Vector unsigned minimum. -/
  | vminu (t : TileId) (f : VR)
  /-- VMAXU (R175). Vector unsigned maximum. -/
  | vmaxu (t : TileId) (f : VR)
  /-- VFCMPEQ (R183). Sets a mask bit where the elements are equal as floats. -/
  | vfcmpeq (t : TileId) (f : VR)
  /-- VFCMPLT (R183). Sets a mask bit where vs1 is less than b as floats. -/
  | vfcmplt (t : TileId) (f : VR)
  /-- VFCMPLE (R183). Sets a mask bit where vs1 is at most b as floats. -/
  | vfcmple (t : TileId) (f : VR)
  /-- VFCMPUN (R183). Sets a mask bit where either operand is NaN. -/
  | vfcmpun (t : TileId) (f : VR)
  /-- VCMPEQ (R175). Integer equal compare into a mask. -/
  | vcmpeq (t : TileId) (f : VR)
  /-- VCMPNE (R175). Integer not-equal compare into a mask. -/
  | vcmpne (t : TileId) (f : VR)
  /-- VCMPLT (R175). Signed less-than compare into a mask. -/
  | vcmplt (t : TileId) (f : VR)
  /-- VCMPLTU (R175). Unsigned less-than compare into a mask. -/
  | vcmpltu (t : TileId) (f : VR)
  /-- VCMPLE (R175). Signed less-or-equal compare into a mask. -/
  | vcmple (t : TileId) (f : VR)
  /-- VCMPLEU (R175). Unsigned less-or-equal compare into a mask. -/
  | vcmpleu (t : TileId) (f : VR)
  /-- MAND (R175). ANDs two mask registers over bits VSTART to VL minus 1. -/
  | mand (t : TileId) (f : VR)
  /-- MOR (R175). ORs two mask registers. -/
  | mor (t : TileId) (f : VR)
  /-- MXOR (R175). XORs two mask registers. -/
  | mxor (t : TileId) (f : VR)
  /-- MANDN (R175). Computes mask vs1 AND NOT mask vs2. -/
  | mandn (t : TileId) (f : VR)
  /-- VPOPC (R175). Counts the set bits of a mask at active positions into rd. -/
  | vpopc (t : TileId) (f : VR)
  /-- VFIRST (R175). Writes the lowest active set position of a mask, or -1. -/
  | vfirst (t : TileId) (f : VR)
  /-- VREDSUM (R184). Integer sum reduction in the fixed tree order. -/
  | vredsum (t : TileId) (f : VR)
  /-- VREDMIN (R184). Signed minimum reduction. -/
  | vredmin (t : TileId) (f : VR)
  /-- VREDMAX (R184). Signed maximum reduction. -/
  | vredmax (t : TileId) (f : VR)
  /-- VREDMINU (R184). Unsigned minimum reduction. -/
  | vredminu (t : TileId) (f : VR)
  /-- VREDMAXU (R184). Unsigned maximum reduction. -/
  | vredmaxu (t : TileId) (f : VR)
  /-- VFREDSUM (R184). Floating-point sum reduction in the fixed tree order. -/
  | vfredsum (t : TileId) (f : VR)
  /-- VFREDMIN (R184). Floating-point minimum reduction. -/
  | vfredmin (t : TileId) (f : VR)
  /-- VFREDMAX (R184). Floating-point maximum reduction. -/
  | vfredmax (t : TileId) (f : VR)
  /-- VSLIDEUP (R187). Writes vd[i] = vs1[i - sN] for active i at or above sN. -/
  | vslideup (t : TileId) (f : VR)
  /-- VSLIDEDOWN (R187). Writes vd[i] = vs1[i + sN], or 0 beyond VL. -/
  | vslidedown (t : TileId) (f : VR)
  /-- VRGATHER (R188). Gathers vs1 elements by the indices in vs2. -/
  | vrgather (t : TileId) (f : VR)
  /-- VMERGE (R188). Selects vs1 or vs2 per mask bit for every element below VL. -/
  | vmerge (t : TileId) (f : VR)
  /-- VWMUL (R181). Writes the exact widened signed product. -/
  | vwmul (t : TileId) (f : VR)
  /-- VWMULU (R181). Writes the exact widened unsigned product. -/
  | vwmulu (t : TileId) (f : VR)
  /-- VFWMUL (R181). Writes the exact widened floating-point product. -/
  | vfwmul (t : TileId) (f : VR)
  /-- VDOT_I8 (R182). Accumulates four I8 products per I32 element. -/
  | vdotI8 (t : TileId) (f : VR)
  /-- VDOT_E4M3 (R182). Accumulates four E4M3 products per F32 element, rounded once. -/
  | vdotE4m3 (t : TileId) (f : VR)
  /-- VDOT_E4M3E5M2 (R182). Accumulates E4M3 by E5M2 products into F32. -/
  | vdotE4m3e5m2 (t : TileId) (f : VR)
  /-- VDOT_E5M2E4M3 (R182). Accumulates E5M2 by E4M3 products into F32. -/
  | vdotE5m2e4m3 (t : TileId) (f : VR)
  /-- VDOT_E5M2 (R182). Accumulates four E5M2 products into F32. -/
  | vdotE5m2 (t : TileId) (f : VR)
  /-- VDOT_B16 (R182). Accumulates two B16 products into F32. -/
  | vdotB16 (t : TileId) (f : VR)
  /-- VDOT_F16 (R182). Accumulates two F16 products into F32. -/
  | vdotF16 (t : TileId) (f : VR)
  /-- VMV_V_V (R175). Copies vector vs1 to vd. -/
  | vmvVV (t : TileId) (f : VR)
  /-- VMV_V_X (R175). Broadcasts the low ew bits of a scalar register. -/
  | vmvVX (t : TileId) (f : VR)
  /-- VMV_X_S (R175). Moves element 0, sign-extended, to a scalar register. -/
  | vmvXS (t : TileId) (f : VR)
  /-- VID (R175). Writes each element's index. -/
  | vid (t : TileId) (f : VR)
  /-- CLD (R264). Loads a 64-byte chain program into cN after the address and window checks. -/
  | cld (t : TileId) (f : VR)
  /-- CST (R264). Stores chain register cN to 64 aligned bytes. -/
  | cst (t : TileId) (f : VR)
  /-- CSEED (R262). Seeds the run and drain generator sets from sM. -/
  | cseed (t : TileId) (f : VR)
  /-- VCHAIN (R267). Runs a chain program over vector register elements into a vector group or mask. -/
  | vchain (t : TileId) (f : VF) (n : ChainNo)
  /-- CMEM (R270). Runs a chain program over memory from s2 to s1 for s3 elements, interruptible at beat boundaries. -/
  | cmem (t : TileId) (f : VF) (n : ChainNo) (upTo : Option Nat)
  /-- ROWNORM (R279). Computes the masked soft maximum of each row and writes row-status bits. -/
  | rownorm (t : TileId) (f : VR) (md : MaskNo)
  /-- MCFG (R285). Writes MTX_CFG with the operand pair, mpass and rampoff after the issue checks. -/
  | mcfg (t : TileId) (f : LC)
  /-- MWLD (R290). Loads a 32-row weight block from scratch into buffer b. -/
  | mwld (t : TileId) (f : LC)
  /-- MPASS (R295). Streams M staged activation rows against a weight buffer into the accumulators. -/
  | mpass (t : TileId) (f : LC)
  /-- MDRAIN (R299). Drains an accumulator through a chain epilogue to memory, vector registers, the Gallery or a skewed staging block. -/
  | mdrain (t : TileId) (f : LC)
  /-- MLDA (R297). Loads an accumulator bit for bit from 4 KiB of scratch. -/
  | mlda (t : TileId) (f : LC)
  /-- MSYNC (R302). Waits for every older cp0 instruction and returns MTX_STAT. -/
  | msync (t : TileId) (f : LC)
  /-- CP0_START (R289). The oldest queued cp0 instruction leaves the queue and starts once its conditions are met. -/
  | cp0Start (t : TileId)
  /-- PASS_FEED_START (R306). A pass begins feeding staging lines once ramp, buffer, drain and feeder conditions hold. -/
  | passFeedStart (t : TileId) (badLines : List Nat) (mismatch : Bool)
  /-- DRAIN_START (R300). A drain begins reading accumulator rows two per step into the epilogue. -/
  | drainStart (t : TileId)
  /-- RAMP_DOWN (R308). Thirty-two steps after active ends with no pass started, the array becomes idle and releases its grant. -/
  | rampDown (t : TileId)
  /-- DRAIN_WRITE_FAILURE (R301). A handed-over drain write or a feeder read fails and is recorded in MTX_ERR, failing the running command. -/
  | drainWriteFailure (t : TileId) (why : ReadFail) (addr : Word)
  /-- MTX_ERR (R317). Any write clears the matrix error record. -/
  | mtxErr (t : TileId) (v : Word)
  /-- HDUMP (R241). Starts a dump of the 64 histogram counters to TILE_HISTADDR, or sets hlost when a dump is in progress. -/
  | hdump (t : TileId) (hclr : Bool) (nclr : Bool) (task : Bool)
  /-- HCLR (R240). Sets all 64 histogram counters to 0. -/
  | hclr (t : TileId) (nclr : Bool)
  /-- NCLR (R240). Clears TILE_NANF and restarts drain numbering. -/
  | nclr (t : TileId)
  /-- HISTOGRAM_DUMP_END (R244). A dump finishes its writes, clears hbusy, and sets herr if it failed. -/
  | histogramDumpEnd (t : TileId) (failed : Bool)
  /-- TILE_L1CFG (R326). A write to the way split is discarded or accepted, and stalls the core until the change can run. -/
  | tileL1cfg (t : TileId) (v : Word) (task : Bool)
  /-- WAY_SPLIT_CHANGE (R326). Once the array and the mover are idle, ways are written back, zeroed or discarded to the new scratch size. -/
  | waySplitChange (t : TileId)
  /-- FENCE (R345). Holds later accesses until every older access of the core has been performed. -/
  | fence (c : CoreId) (f : LR)
  /-- FENCE_W (R345). Holds later writes until every older write has been performed. -/
  | fenceW (c : CoreId) (f : LR)
  /-- DCZ (R340). Zeroes the 128 B line that holds rs1. -/
  | dcz (c : CoreId) (f : LR)
  /-- DCWB (R341). Writes back the dirty L1 lines of a range. -/
  | dcwb (c : CoreId) (f : LR)
  /-- DCINV (R341). Writes back and invalidates the L1 lines of a range. -/
  | dcinv (c : CoreId) (f : LR)
  /-- AMOADD (R342). Atomic add of a word or doubleword at the near-memory unit. -/
  | amoadd (c : CoreId) (d : Bool) (f : LR)
  /-- AMOSWAP (R342). Atomic swap. -/
  | amoswap (c : CoreId) (d : Bool) (f : LR)
  /-- AMOCAS (R342). Atomic compare and swap against the old value of rd. -/
  | amocas (c : CoreId) (d : Bool) (f : LR)
  /-- AMOMIN (R342). Atomic signed minimum. -/
  | amomin (c : CoreId) (d : Bool) (f : LR)
  /-- AMOMAX (R342). Atomic signed maximum. -/
  | amomax (c : CoreId) (d : Bool) (f : LR)
  /-- AMOFADD_F32 (R342). Atomic F32 add, rounded nearest-even. -/
  | amofaddF32 (c : CoreId) (f : LR)
  /-- MERGING_BUFFER_DRAIN (R349). A Zaham-S merging-buffer entry drains as one masked write when it is full, 64 steps old, needed, fenced or forced by a register store. -/
  | mergingBufferDrain (n : SvcId)
  /-- MOV_QBASE (R351). Sets the mover ring and resets head and tail, unless the queue is running or halted. -/
  | movQbase (t : TileId) (q : Fin 4) (v : Word)
  /-- MOV_QTAIL (R351). The mover doorbell posts descriptors, or sets berr for a tail outside the ring. -/
  | movQtail (t : TileId) (q : Fin 4) (v : Word)
  /-- MOV_QCTL_RESET (R352). Abandons the active descriptor and empties the queue. -/
  | movQctlReset (t : TileId) (q : Fin 4)
  /-- MOV_QCTL_SKIP (R352). Marks a halted descriptor skipped and advances head. -/
  | movQctlSkip (t : TileId) (q : Fin 4)
  /-- MOV_QCTL_RESUME (R360). Rereads a halted descriptor and restarts it at unit idx. -/
  | movQctlResume (t : TileId) (q : Fin 4)
  /-- COPY (R357). Mover descriptor that copies rows with source and destination pitches. -/
  | copy (t : TileId) (q : Fin 4)
  /-- SKEW (R357). Mover descriptor that writes activation rows into a skewed staging block. -/
  | skew (t : TileId) (q : Fin 4)
  /-- GATHER (R357). Mover descriptor that gathers elements by an index list. -/
  | gather (t : TileId) (q : Fin 4)
  /-- SCATTER (R357). Mover descriptor that scatters elements by an index list in index order. -/
  | scatter (t : TileId) (q : Fin 4)
  /-- ZERO (R357). Mover descriptor that zero-fills bytes. -/
  | zero (t : TileId) (q : Fin 4)
  /-- I4X (R357). Mover descriptor that expands I4 rows to I8. -/
  | i4x (t : TileId) (q : Fin 4)
  /-- MOVER_UNIT_READ (R359). A unit's reads return, and its writes are released in unit order or the descriptor halts with a code. -/
  | moverUnitRead (t : TileId) (q : Fin 4) (fail : Option ReadFail)
  /-- DESCRIPTOR_COMPLETION (R363). Once all writes are performed, stat is written done, the signal is written and head advances. -/
  | descriptorCompletion (t : TileId) (q : Fin 4)
  /-- GPUT (R378). Copies local bytes to another module, with an optional remote signal. -/
  | gput (t : TileId) (f : LC)
  /-- GGET (R378). Copies another module's bytes into local memory. -/
  | gget (t : TileId) (f : LC)
  /-- GDISPATCH (R390). Checks the slots, reserves trip records, opens the slots and sends token rows to experts. -/
  | gdispatch (t : TileId) (f : LC)
  /-- GRETURN (R403). Opens a return batch over inbox headers, to be paired with GAL drains. -/
  | greturn (t : TileId) (f : LC)
  /-- GARM (R385). Arms a run of sequence slots with common settings and optionally clears their basins. -/
  | garm (t : TileId) (f : LC)
  /-- GIBGAT (R402). Gathers filled inbox rows into a ROW or SKEW matrix in scratch. -/
  | gibgat (t : TileId) (f : LC)
  /-- GALLREDUCE (R413). Reduces count elements over all ranks of the group. -/
  | gallreduce (t : TileId) (f : LC)
  /-- GREDUCESCATTER (R413). Delivers block r of the reduction to rank r. -/
  | greducescatter (t : TileId) (f : LC)
  /-- GALLGATHER (R413). Gathers every rank's block at every member. -/
  | gallgather (t : TileId) (f : LC)
  /-- GALLTOALL (R413). Exchanges blocks between all ranks. -/
  | galltoall (t : TileId) (f : LC)
  /-- GBARRIER (R413). Completes once every member has started the barrier. -/
  | gbarrier (t : TileId) (f : LC)
  /-- GJOIN (R410). Defines or dissolves a group from a member list, compared along the tree. -/
  | gjoin (t : TileId) (f : LC)
  /-- GBEACON (R419). Declares or withdraws a SLOW or FAIL state for a group. -/
  | gbeacon (t : TileId) (f : LC)
  /-- GSYNC (R372). Waits for older cp1 operations and returns GAL_PORT. -/
  | gsync (t : TileId) (f : LC)
  /-- CP1_START (R371). A queued cp1 instruction starts once older writes are performed and a block-operation place is free. -/
  | cp1Start (t : TileId)
  /-- OPERATION_END (R374). A Gallery operation writes its stat and then its signal once its writes have been acknowledged. -/
  | operationEnd (t : TileId) (op : Nat) (res : OpResult)
  /-- REMOTE_READ (R367). A remote read arrives and is admitted or refused by the remote windows. -/
  | remoteRead (src : Gid) (addr : Word) (len : Nat) (tag : Nat)
  /-- REMOTE_WRITE (R367). A remote write arrives, is checked against the remote windows and is acknowledged. -/
  | remoteWrite (src : Gid) (addr : Word) (data : WriteData) (tag : Nat)
  /-- REMOTE_STORE_ACKNOWLEDGEMENT (R368). The target's acknowledgement of a remote store arrives at the origin. -/
  | remoteStoreAcknowledgement (t : TileId) (ok : Bool)
  /-- INBOX_RESERVATION (R392). A reservation request at the destination is granted the lowest free slots, or its remainder joins the waiter queue. -/
  | inboxReservation (t : TileId) (i : InboxNo) (src : Gid) (req n : Nat) (hold : List Bool) (rowBytes : Nat)
  /-- INBOX_GRANT (R395). A grant at the origin sends the granted rows, and the ungranted remainder is held or diverted. -/
  | inboxGrant (t : TileId) (op : Nat) (dst : InboxRef) (slots : List Nat)
  /-- RESERVATION_REPEAT (R393). While the waiter queue is full, the origin repeats its request every 1 us. -/
  | reservationRepeat (t : TileId) (op : Nat) (dst : InboxRef)
  /-- TOKEN_ROW (R400). A token row and its header land in an inbox slot, and tail advances in slot order. -/
  | tokenRow (t : TileId) (i : InboxNo) (slot : Nat) (hdr : RowHeader) (row : List Byte)
  /-- HEADER_ACKNOWLEDGEMENT (R395). The destination's acknowledgement of a header makes the trip OPEN with its deadline. -/
  | headerAcknowledgement (trip : TripId)
  /-- VOID_SLOT (R400). A reserved slot without a header 100 us after its grant is written void. -/
  | voidSlot (t : TileId) (i : InboxNo) (slot : Nat)
  /-- DISPATCH_TIMEOUT (R396). At the dispatch's tmo, trips still waiting for a grant fail and the dispatch fails with TIMEOUT. -/
  | dispatchTimeout (t : TileId) (op : Nat)
  /-- FRAGMENT (R405). A return fragment is accepted and combined into the basin by the near-memory unit, or discarded as stale. -/
  | fragment (trip : TripId) (gen : BitVec 4) (d : Nat) (fmt : BitVec 4) (data : List Word) (err : LineErr)
  /-- FAILURE_NOTICE (R403). A failure notice fails a trip at its origin. -/
  | failureNotice (trip : TripId) (code : BitVec 8)
  /-- TRIP_TIMEOUT (R406). A trip's deadline passes, so it fails with TIMEOUT and counts its slot down. -/
  | tripTimeout (trip : TripId)
  /-- SLOT_COMPLETION (R408). At pending zero the slot converts, writes status, signals, rings the doorbell and becomes FREE. -/
  | slotCompletion (slot : SlotNo)
  /-- GAL_IBCFG (R397). Configures an inbox, and en 0 refuses new reservations and ends the waiters with NOEXPERT. -/
  | galIbcfg (t : TileId) (i : InboxNo) (v : Word)
  /-- GAL_IBPTR (R398). A head write frees filled slots and grants waiters. -/
  | galIbptr (t : TileId) (i : InboxNo) (v : Word)
  /-- GAL_DIRINV (R381). Invalidates one or all expert directory cache entries. -/
  | galDirinv (v : Word)
  /-- DIRECTORY_INVALIDATION_END (R381). An invalidation finishes on both exchange dies and busy clears. -/
  | directoryInvalidationEnd
  /-- COLLECTIVE_DATA (R414). Collective data from a tree neighbour is combined in the router in rank order and passed on. -/
  | collectiveData (g : GroupNo) (src : TreeNbr) (shape : CollShape) (block : Nat) (data : List Byte)
  /-- JOIN_HASH (R410). A member-list hash arrives along the tree and ends the join or fails it with MISMATCH. -/
  | joinHash (g : GroupNo) (src : TreeNbr) (hash : BitVec 512)
  /-- BEACON_PERIOD (R417). Every 50 us a member sends a beacon for each active collective to its tree neighbours. -/
  | beaconPeriod
  /-- BEACON (R418). A received beacon extends the deadline on SLOW or ends the collective with PEERFAIL on FAIL. -/
  | beacon (g : GroupNo) (num : Nat) (st : BitVec 2) (cause : BitVec 3) (src : Gid)
  /-- COLLECTIVE_TIMEOUT (R418). A collective's deadline expires and it fails, sending FAIL first. -/
  | collectiveTimeout (g : GroupNo)
  /-- FLIT (R438). A received flit is CRC-checked, accepted in sequence or NAKed, and returns credits and acknowledgements. -/
  | flit (p : LaneNo) (hdr : Word) (payload : List Byte) (chk : FlitCheck)
  /-- SEAL (R437). A seal flit verifies its group and releases it to the router, or causes a NAK or retrain. -/
  | seal (p : LaneNo) (f : WireFlit)
  /-- SEAL_GROUP_CLOSE (R436). After 128 ns the sender closes a sealed group and sends its seal flit. -/
  | sealGroupClose (p : LaneNo)
  /-- ACK_TIMER (R438). The receiver sends an acknowledgement at least every 100 ns while flits are unacknowledged. -/
  | ackTimer (p : LaneNo)
  /-- REPLAY (R439). After 5 us with no acknowledgement progress, the sender resends from the oldest flit. -/
  | replay (p : LaneNo)
  /-- KEY_EXCHANGE (R434). A key-exchange flit advances the ML-KEM and signature setup of a link's keys. -/
  | keyExchange (p : LaneNo) (m : KeyMsg)
  /-- LOSS_OF_SIGNAL (R441). A lane losing signal or lock starts a retrain. -/
  | lossOfSignal (p : LaneNo) (lane : Fin 8)
  /-- RETRAIN (R441). A port enters RETRAIN, holds its replay buffers and trains its lanes. -/
  | retrain (p : LaneNo)
  /-- RETRAIN_END (R443). At the lane decision the port replaces lanes by the spare, narrows, comes UP, or becomes FAILED. -/
  | retrainEnd (p : LaneNo) (good : BitVec 8) (spareGood : Bool)
  /-- FAILED_PORT_RETRY (R444). Every 10 s a FAILED port is trained and keyed again. -/
  | failedPortRetry (p : LaneNo)
  /-- ROUTE_TABLE_REBUILD (R444). The Gallery service core rebuilds the route tables without a failed port. -/
  | routeTableRebuild
  /-- REFRESH (R489). A due refresh occupies one bank for 120 ns. -/
  | refresh (k : StackNo) (ch : Fin 128) (bank : Fin 32)
  /-- SCRUB (R490). The daily scrub reads a line, rewrites it if correctable, or logs it if uncorrectable. -/
  | scrub (line : Nat) (err : LineErr)
  /-- THERMAL_READING (R491). A 10 us stack temperature reading changes the thermal band and may stop the stack. -/
  | thermalReading (k : StackNo) (temp : Nat)
  /-- STACK_RETRAIN (R493). A cooled stopped stack is retrained, writes back its dirty lines and resumes in Hot. -/
  | stackRetrain (k : StackNo)
  /-- CHANNEL_COPY (R496). A channel copy completes and the spare takes the logical channel's place. -/
  | channelCopy (k : StackNo)
  /-- FOLD (R497). A fold withdraws the top 384 MiB and moves the retiring channel's live lines. -/
  | fold (k : StackNo) (ch : Fin 128)
  /-- NOP_COMMAND (R511). Front-end NOP command that ends at its start. -/
  | nopCommand (q : QueueNo)
  /-- LAUNCH (R519). Waits for its tile set, relocates references, prepares each tile and starts the kernel. -/
  | launch (q : QueueNo)
  /-- PERSIST (R536). Launches a persistent task, prepares its inboxes and releases its queue once every tile waits. -/
  | persist (q : QueueNo)
  /-- PSTOP (R537). Drains the persistent tasks of a tile set. -/
  | pstop (q : QueueNo)
  /-- ENQ (R538). Appends a relocated entry to a cluster's task queue. -/
  | enq (q : QueueNo)
  /-- WAIT (R526). Reads a fence and ends, or watches the fence's line until its threshold. -/
  | wait (q : QueueNo)
  /-- FENCE_REREAD (R526). A write at a watched fence's slice makes the front end reread the fence within 1 us. -/
  | fenceReread (q : QueueNo)
  /-- WAIT_TIMEOUT (R527). At the deadline a final fence read decides between done and WAIT_TIMEOUT. -/
  | waitTimeout (q : QueueNo)
  /-- SIGNAL (R528). Stores or atomically adds a value at a fence. -/
  | signal (q : QueueNo)
  /-- GDEF (R542). Defines or deletes a stored graph in the graph region. -/
  | gdef (q : QueueNo)
  /-- GRAPH_LAUNCH (R543). Runs a graph's records in order as one command. -/
  | graphLaunch (q : QueueNo)
  /-- PATCH (R544). Waits for no running launch of its graph and replaces one record. -/
  | patch (q : QueueNo)
  /-- RESERVE (R532). Reserves, replaces or releases a real-time queue's tiles, with optional lending. -/
  | reserve (q : QueueNo)
  /-- TILE_END (R520). After trap 0 or 1, the firmware waits for the tile's writes and engines, writes back L1 and reports the end. -/
  | tileEnd (t : TileId)
  /-- COMMAND_TIMEOUT (R523). A command's time limit expires and recovery of its tiles begins. -/
  | commandTimeout (q : QueueNo)
  /-- KILL (R524). At 200 us the remaining tiles are killed, reset, invalidated and sounded. -/
  | kill (q : QueueNo)
  /-- COMMAND_REPLAY (R529). An idem command failed with UNCORR or ENGINE runs once more after repairs. -/
  | commandReplay (q : QueueNo)
  /-- HOLD_REPORT (R675). A lower level's hold report stops a command's clock. -/
  | holdReport (r : HoldRes)
  /-- OUTCOME_REPORT (R676). A recovery outcome fails the command with its code or resumes the clock. -/
  | outcomeReport (r : HoldRes) (fail : Option (BitVec 8))
  /-- FE_QTAIL (R504). The command-queue doorbell posts records, or sets berr for a tail outside the ring. -/
  | feQtail (q : QueueNo) (v : Word)
  /-- FE_QBASE (R504). Sets a command ring as MOV_QBASE does, also while the queue is halted. -/
  | feQbase (q : QueueNo) (v : Word)
  /-- FE_QCTL_ABORT (R507). Fails the active command with ABORTED and halts the queue. -/
  | feQctlAbort (q : QueueNo)
  /-- FE_QCTL_SKIP (R507). Advances past a failed command on a halted queue. -/
  | feQctlSkip (q : QueueNo)
  /-- FE_QCTL_RESUME (R507). Reruns a halted queue's failed command from its start. -/
  | feQctlResume (q : QueueNo)
  /-- FE_WAITSNAP (R531). A read returns the waiting queues and latches their fence addresses and thresholds. -/
  | feWaitsnap
  /-- FE_TQPUSH (R538). Appends a 32-byte entry to a cluster task queue, buffers it, or discards and counts it. -/
  | feTqpush (k : Fin 32) (v : Word)
  /-- ETHERNET_FRAME (R555). A received frame is checked and handed to its protocol, or discarded and counted. -/
  | ethernetFrame (p : PortNo) (f : Frame)
  /-- AUTO_NEGOTIATION (R547). A host port negotiates and trains to its PHY, and its state changes. -/
  | autoNegotiation (p : PortNo) (peer : NegPeer)
  /-- NEIGHBOR_DISCOVERY (R550). A Neighbor Discovery or ARP message is answered or updates the neighbour cache. -/
  | neighborDiscovery (p : PortNo) (m : NdMsg)
  /-- ECHO_REQUEST (R550). An ICMP echo request is answered within the rate limit. -/
  | echoRequest (p : PortNo) (v6 : Bool) (src : BitVec 128) (data : List Byte)
  /-- LLDP_TIMER (R554). Every 30 s each port sends an LLDP frame. -/
  | lldpTimer (p : PortNo)
  /-- HELLO_I (R561). A host hello opens a handshake and the module answers with HELLO_R, or refuses it with BUSY. -/
  | helloI (p : PortNo) (hsid : BitVec 32) (events : Bool) (h : HostHello)
  /-- FINISH_I (R561). The host's owner signature is verified, establishing the session or closing it with AUTH. -/
  | finishI (hs : Nat) (pkts : List EzPacket)
  /-- HANDSHAKE_TIMEOUT (R561). A handshake held for 10 s is dropped. -/
  | handshakeTimeout (hs : Nat)
  /-- DATA (R564). A sealed DATA packet is verified, placed in the reorder buffer and acknowledged. -/
  | data (s : SessNo) (p : PortNo) (hdr : EzHeader) (body : List Byte) (tag : List Byte) (ce : Bool)
  /-- ACK (R564). An Ezori acknowledgement marks packets delivered or lost and feeds rate control. -/
  | ack (s : SessNo) (p : PortNo) (hdr : EzHeader) (body : List Byte) (tag : List Byte) (ce : Bool)
  /-- CLOSE (R562). A CLOSE ends the session. -/
  | close (s : SessNo) (k : EzPacket)
  /-- PROBE (R568). A PROBE keeps a session alive or brings a down path back. -/
  | probe (s : SessNo) (k : EzPacket)
  /-- PROBE_TIMER (R562). Each 1 s of no other traffic, or 100 ms on a down path, a PROBE is sent. -/
  | probeTimer (s : SessNo)
  /-- SESSION_IDLE (R562). After 30 s with no accepted packet, the session ends. -/
  | sessionIdle (s : SessNo)
  /-- EZORI_ACK_DELAY (R564). Within 20 us of accepting DATA, the receiver sends an acknowledgement. -/
  | ezoriAckDelay (s : SessNo)
  /-- RETRANSMISSION_TIMEOUT (R564). An expired retransmission timer resends the content under a new pn and may take a path down. -/
  | retransmissionTimeout (s : SessNo) (pn : Nat)
  /-- RATE_UPDATE (R566). Once per srtt the path rate is adjusted from CE marks and RTT. -/
  | rateUpdate (s : SessNo) (p : PortNo) (minRtt : Nat)
  /-- WRITE (R571). Writes host data to memory, a register or scratch, with an optional completion response. -/
  | write (s : SessNo) (xid : Word) (addr : Word) (data : List Byte) (cmpl : Bool)
  /-- READ (R571). Reads up to 1 MiB and returns it in pieces. -/
  | read (s : SessNo) (xid : Word) (addr : Word) (len : Nat)
  /-- DOORBELL (R569). Writes a queue's FE_QTAIL. -/
  | doorbell (s : SessNo) (xid : Word) (q : BitVec 8) (tail : BitVec 16)
  /-- MAILBOX_SEND (R569). Fills and sends a host-to-module mailbox in one step. -/
  | mailboxSend (s : SessNo) (xid : Word) (m : BitVec 8) (data : List Word)
  /-- MAILBOX_ACK (R569). Writes the ACK code of a module-to-host mailbox. -/
  | mailboxAck (s : SessNo) (xid : Word) (m : BitVec 8) (code : BitVec 16)
  /-- EVENT (R572). The module sends a doorbell or module-status EVENT to subscribed sessions. -/
  | event (s : SessNo) (kind : Bool)
  /-- ATTEST (R621). Returns a signed attestation report with the certificate. -/
  | attest (s : SessNo) (xid : Word) (nonce : BitVec 256)
  /-- LOG_READ (R569). Returns drip log entries from a running index. -/
  | logRead (s : SessNo) (xid : Word) (first : BitVec 32) (count : Nat)
  /-- FEAT_QUERY (R604). Returns the offered and active feature sets. -/
  | featQuery (s : SessNo) (xid : Word)
  /-- FEAT_ACCEPT (R604). Sets the active feature set from the accepted bits and returns both sets. -/
  | featAccept (s : SessNo) (xid : Word) (vec : BitVec 256)
  /-- MB_DATA (R576). A content write to a mailbox, flagging collisions while full. -/
  | mbData (m : MbId) (i : Fin 8) (v : Word)
  /-- MB_SEND (R576). Sends a mailbox message, sets full and notifies the receiver. -/
  | mbSend (m : MbId) (v : Word)
  /-- MB_ACK (R576). Acknowledges a message, clears full, stores the code and notifies the sender. -/
  | mbAck (m : MbId) (v : Word)
  /-- DBSET (R578). Sets doorbell bits and notifies when they are unmasked. -/
  | dbset (d : DbId) (v : Word)
  /-- DB (R578). Clears doorbell bits written with 1. -/
  | db (d : DbId) (v : Word)
  /-- DB_MASK (R579). Sets the notification mask, and unmasking a set bit notifies. -/
  | dbMask (d : DbId) (v : Word)
  /-- POWER_GOOD (R592). Ochre runs the start sequence through image, configuration, journal, training and sounding to ready. -/
  | powerGood (r : StartResult)
  /-- RESTART (R595). After a fatal error, the whole start sequence runs again without removing power. -/
  | restart (r : StartResult)
  /-- RELEASE (R626). A write of SEC_RELCTL checks a release record and blows the next owner slot and the rel bit. -/
  | release (addr : Word) (sigOk : Bool)
  /-- ENTROPY_TEST_FAILURE (R610). A failed continuous health test discards samples and retests, and three failures within 1 s are fatal. -/
  | entropyTestFailure
  /-- DRBG_RESEED (R611). The DRBG reseeds each second or every 2^20 requests. -/
  | drbgReseed
  /-- BYPASS (R628). TAP instruction that selects the one-bit bypass register. -/
  | bypass
  /-- IDCODE (R628). TAP instruction that selects the 32-bit IDCODE. -/
  | idcode
  /-- SAMPLE_PRELOAD (R628). TAP instruction that samples or preloads the low-speed boundary register. -/
  | samplePreload (pins : BitVec 31) (preload : BitVec 31)
  /-- EXTEST (R629). Drives the low-speed pins from the boundary register only while reset is asserted. -/
  | extest
  /-- TAP_RESET (R629). TRST_N, or five TCK cycles with TMS high, resets the TAP to IDCODE. -/
  | tapReset
  /-- POWER_FAIL (R639). An input below 40 V for 10 us stops grants, issue and transmission and sheds load. -/
  | powerFail
  /-- RAIL_REMOVAL (R639). An input below 38 V during power-fail brings the rails down in reverse order. -/
  | railRemoval
  /-- OVERVOLTAGE (R634). An input above 64 V disconnects the module within 10 us. -/
  | overvoltage
  /-- LAMP_GRANT (R643). Lamp issues a waiting request once the budget, die current, window and throttle tests allow it. -/
  | lampGrant
  /-- LAMP_LINE_MOVE (R645). A normal request that has waited 50 us moves to the real-time line. -/
  | lampLineMove
  /-- LAMP_CFG (R648). Writes the module power limit in force within 2,000 W to plcfg. -/
  | lampCfg (v : Word)
  /-- LAMP_DIE (R636). Writes a die's VCORE target within 550 to 850 mV. -/
  | lampDie (d : Die) (v : Word)
  /-- JUNCTION_TEMPERATURE (R649). A 10 us die temperature reading starts or ends thermal throttling. -/
  | junctionTemperature (d : Die) (tj : Nat)
  /-- INPUT_POWER (R650). The 1 ms input-power average starts or ends the power cause. -/
  | inputPower (x : InputReading)
  /-- DIE_CURRENT (R650). The 20 us VCORE current average starts or ends the current cause. -/
  | dieCurrent (d : Die) (amps : Nat)
  /-- THROTTLE_STEP (R651). Each throttle interval moves VCORE by 10 mV toward the lowest value any cause asks for. -/
  | throttleStep (d : Die)
  /-- SOUNDING (R663). Once a structure is idle it is tested, and passes or fails within its bound. -/
  | sounding (x : Structure) (res : SoundResult)
  /-- FATAL (R660). A fatal cause logs FATAL, stops grants and queues, sends FAIL beacons and begins the restart. -/
  | fatal (cause : BitVec 8)
  /-- MODULE_RESET (R702). RESET_N asserted for at least 10 us holds every core and loses the volatile state. -/
  | moduleReset
  /-- RESET_RELEASE (R702). Release of RESET_N runs the start sequence afresh. -/
  | resetRelease (r : StartResult)
  /-- REGISTER_WRITE (R7). A write to a register without a row of its own applies its RW and W1C fields, or a clearing write. -/
  | registerWrite (addr : Word) (v : Word)
  /-- REMOTE_READ_RESPONSE (R323). The data of a remote scalar load or gget arrives back at the origin, or its failure arrives and raises LOAD_BUS or fails the operation. -/
  | remoteReadResponse (t : TileId) (op : Option Nat) (off : Nat) (res : ReadResp)
  /-- MOVER_WRITE_FAILURE (R359). A mover write that was released fails at its target, and the descriptor halts naming that unit with late set. -/
  | moverWriteFailure (t : TileId) (q : Fin 4) (unit : Nat) (why : ReadFail) (addr : Word)
  /-- FOLD_MOVE_COMPLETION (R497). The background move of a retiring channel's live lines ends: dual writes stop, each line is rewritten at its new place, and MEM_STAT.copy clears. -/
  | foldMoveCompletion (k : StackNo)
  /-- INPUT_RETURN (R639). During power-fail the input rises above 42 V before it falls below 38 V, so every rail is removed and the module starts afresh from power-good. -/
  | inputReturn (r : StartResult)
  /-- THERMTRIP_LATCH_RELEASE (R652). Once the input has been below 20 V for 1 s, the input-stage latch releases THERMTRIP_N and allows the rails to come up again. -/
  | thermtripLatchRelease
  /-- REFERENCE_CLOCK_RETURN (R53). An absent reference clock becomes present again and its ref0 or ref1 bit of MOD_REFSTAT returns to 1, without a switch back. -/
  | referenceClockReturn (r : RefClk)
  /-- PTP_SOURCE_LOSS (R56). The PTP master is no longer heard, so the time unit leaves PTP for free-running, MOD_TIME free-runs from its value, and src and locked change. -/
  | ptpSourceLoss
  /-- GALLERY_OPERATION_TIMEOUT (R375). The tmo limit of a gput, gget or gjoin expires, and the operation fails with TIMEOUT and writes its stat and signal. -/
  | galleryOperationTimeout (t : TileId) (op : Nat)
  /-- TRIP_ID_REUSE (R391). 2^(n+1) us after a trip ID was freed by expiry, it becomes available for reservation again, which may let a waiting dispatch proceed. -/
  | tripIdReuse (trip : TripId)
  /-- JOURNAL_DEVICE_WRITE_END (R598). The write of a journal entry to one NVM device finishes, and the write to device 1 may then start, unless power-fail forbids it. -/
  | journalDeviceWriteEnd
  deriving DecidableEq, Repr

end Sys2Proof
end

