-- ==== Sys2Proof/Machine/State.lean ====
section
/-! DEFINITION. The state of the module as plain data, its reset value, and the reasons a step can stop. A field's docstring gives its width, the rule of spec/ that names it, and its value at reset. -/

namespace Sys2Proof.Machine

open Sys2Proof

/-- A sparse table: keys strictly rising, and no entry equal to what an unlisted key reads as. -/
abbrev SMap (α : Type) := List (Nat × α)

/-! ### Stops -/

/-- Faults. The spec reports every error of the module inside the state (a trap, a status code, a log entry), so no command of
this model ends in a fault; the one constructor stands for a stop that no meaning raises, and is safe. -/
inductive Fault where
  /-- Raised by no meaning; safe. -/
  | unused
  deriving DecidableEq, Repr

/-- Refusals. -/
inductive Refusal where
  /-- A command that has no meaning yet, by its mnemonic in the opcode table; raised by Dispatch.lean only; safe. -/
  | notModelled (mnemonic : String)
  deriving DecidableEq, Repr

/-! ### One core -/

/-- FL (R67). -/
structure Flags where
  n : Bool := false
  z : Bool := false
  c : Bool := false
  v : Bool := false
  deriving DecidableEq, Repr

/-- TILE_STATUS (R117). -/
structure Status where
  bs : Bool := false
  ml : BitVec 3 := 7
  lvl : Bool := true
  deriving DecidableEq, Repr

/-- An entry of timer 0 (R157). -/
structure T0Entry where
  busy : Bool := false
  waitq : Bool := false
  fired : Bool := false
  deadline : Nat := 0
  deriving DecidableEq, Repr

/-- A core parked on `waitq` (R539, R540). -/
structure Park where
  rd : Reg
  sel : BitVec 16
  tq : Bool
  off : Nat
  timer : Option Nat
  deriving DecidableEq, Repr

/-- Whether a core's issue stage runs (R37, R116, R130). -/
inductive Run where
  | running
  | parked (p : Park)
  | halted
  | idle
  | held
  deriving DecidableEq, Repr

/-- A remote scalar load whose data has not arrived (R323). -/
structure PendLoad where
  rd : Reg
  size : Nat
  signed : Bool
  addr : Word
  len : Nat
  /-- The data is an element of a string instruction, which takes it when it issues again. -/
  str : Bool := false
  deriving DecidableEq, Repr

/-- The Keccak state of cp2 (R101): 25 lanes, position, rate in bytes, and whether `hfin` has closed the input. -/
structure Hash where
  lanes : SMap Word := []
  pos : Nat := 0
  rate : Nat := 168
  closed : Bool := false
  deriving DecidableEq, Repr

/-- The operations of the near-memory atomics (R342). -/
inductive AmoOp where
  | add | swap | cas | min | max | fadd
  deriving DecidableEq, Repr

/-- What a buffered write does when it is performed (R145, R340, R343). -/
inductive BufKind where
  | store
  /-- A store, or half of one, to another module that is not naturally aligned: it fails when it is performed (R149, R368). -/
  | misaligned
  | dcz
  | amo (op : AmoOp) (d : Bool) (v : Word)
  deriving DecidableEq, Repr

/-- An entry of the store buffer, or of a Zaham-S merging buffer, whose bytes need not be contiguous (R145, R348). -/
structure BufEntry where
  addr : Word
  bytes : List (Nat × Byte)
  kind : BufKind := .store
  deriving DecidableEq, Repr

/-- The state every core has (R65, R66, R85, R115). -/
structure Core where
  /-- 64 bits; address of the next instruction; R71, R88; reset 0 (log 4). -/
  pc : Word := 0
  /-- s1 to s31, 64 bits each; R65; reset 0 (log 4). -/
  regs : SMap Word := []
  /-- FL, 4 flags; R67; reset 0. -/
  fl : Flags := {}
  /-- LS0 to LS3, 64 bits; R85; reset 0. -/
  ls : SMap Word := []
  /-- LE0 to LE3, 64 bits; R85; reset 0. -/
  le : SMap Word := []
  /-- LC0 to LC3, 32 bits in a word; R85; reset 0. -/
  lc : SMap Word := []
  /-- TILE_STATUS; R117; reset lvl 1, ml 7, bs 0. -/
  status : Status := {}
  /-- TILE_EPC, 64 bits; R115; reset 0. -/
  epc : Word := 0
  /-- TILE_ECAUSE, 64 bits; R118; reset 0. -/
  ecause : Word := 0
  /-- TILE_EADDR, 64 bits; R115; reset 0. -/
  eaddr : Word := 0
  /-- TILE_EVEC, 64 bits, bits [8:0] read 0; R115; reset set by firmware (log 4). -/
  evec : Word := 0
  /-- TILE_KSP, 64 bits; R115; reset set by firmware (log 4). -/
  ksp : Word := 0
  /-- TILE_BSVEC, 64 bits, bits [5:0] read 0; R115; reset set by firmware (log 4). -/
  bsvec : Word := 0
  /-- TILE_IPEND.prof, 1 bit; R139; reset 0. -/
  ipProf : Bool := false
  /-- TILE_IPEND.fe, 1 bit; R139; reset 0. -/
  ipFe : Bool := false
  /-- TILE_IPEND.lst, 1 bit; R139; reset 0. -/
  ipLst : Bool := false
  /-- TILE_IPEND.wdog, 1 bit; R139; reset 0. -/
  ipWdog : Bool := false
  /-- TILE_IEN, bits [6:1]; R139; reset 0. -/
  ien : BitVec 7 := 0
  /-- TILE_LSE, 64 bits; R146; reset 0. -/
  lse : Word := 0
  /-- TILE_LSECNT.kind, 8 bits; R146; reset 0. -/
  lseKind : BitVec 8 := 0
  /-- TILE_LSECNT.more, 24 bits, saturating; R146; reset 0. -/
  lseMore : Nat := 0
  /-- TILE_PWIN0_LO to TILE_PWIN15_LO, 64 bits; R114; reset 0. -/
  pwinLo : SMap Word := []
  /-- TILE_PWIN0_HI to TILE_PWIN15_HI, 64 bits; R114; reset 0. -/
  pwinHi : SMap Word := []
  /-- Timer 0 entries 0 to 3, with TILE_T0STAT and TILE_T0DL0 to TILE_T0DL3; R157; reset 0. -/
  t0 : SMap T0Entry := []
  /-- TILE_T1CTL.en, 1 bit; R160; reset 0. -/
  t1en : Bool := false
  /-- TILE_T1CTL.period, 24 bits; R160; reset 0. -/
  t1period : BitVec 24 := 0
  /-- MOD_MONO ns at which timer 1 expires; R160; reset 0. -/
  t1due : Nat := 0
  /-- TILE_PROF.en, 1 bit; R159; reset 0. -/
  profEn : Bool := false
  /-- TILE_PROF.period, 24 bits; R159; reset 0. -/
  profPeriod : BitVec 24 := 0
  /-- TILE_PROF.missed, 32 bits, saturating; R159; reset 0. -/
  profMissed : Nat := 0
  /-- Whether the issue stage runs; R37, R116; reset idle on a tile, running on a service core. -/
  run : Run := .idle
  /-- A remote load that the core waits for; R323; reset none. -/
  waitLoad : Option PendLoad := none
  /-- Elements that have arrived from other modules for the string instruction that waits for them; R93, R323; reset none. -/
  strData : List (Word × List Byte) := []
  /-- Lines of the instruction cache, by line number of the local address: 512 on a tile, 256 on a service core; R62, R104; reset
  empty. -/
  icache : SMap (BitVec 1024) := []
  /-- The fetch window: the address of its first byte, and at most 36 bytes; R104; reset empty. -/
  fwin : Option (Word × List Byte) := none
  /-- TILE_STEPS from which a reader of a result may issue: registers s1 to s31 by number, 32 the flags, 33 the divider, 34 the
  hash engine; a key not listed is ready; R83, R84, R102; reset empty. -/
  ready : SMap Word := []
  /-- TILE_STEPS, 64 bits; R59; reset 0. -/
  steps : Word := 0
  /-- TILE_STALL, 64 bits; R59; reset 0. -/
  stall : Word := 0
  /-- BSTK, 4 KiB; R135; reset 0. -/
  bstk : SMap Byte := []
  /-- cp2 state; R101; reset as `hinit` with 0 (R719). -/
  hash : Hash := {}
  /-- Store buffer (8 entries) of a tile, or merging buffer of a service core, oldest first; R145, R348; reset empty. -/
  sbuf : List BufEntry := []
  /-- Remote stores sent and not yet acknowledged, oldest first; R368; reset empty. -/
  remote : List BufEntry := []
  deriving DecidableEq, Repr

/-! ### The long-vector unit and the chain engine -/

/-- TILE_VCFG (R164): ew and grp as encoded, f16, and vl. -/
structure VCfg where
  ew : BitVec 2 := 0
  grp : BitVec 2 := 0
  f16 : Bool := false
  vl : Nat := 0
  deriving DecidableEq, Repr

/-- TILE_VCSR (R178). -/
structure VCsr where
  rm : BitVec 2 := 0
  nv : Bool := false
  dz : Bool := false
  of : Bool := false
  uf : Bool := false
  nx : Bool := false
  deriving DecidableEq, Repr

/-- A dispatched vector instruction with the values it took (R168). -/
structure VEntry where
  instr : Instr
  pc : Word
  cfg : VCfg
  rm : BitVec 2
  vstart : Nat
  /-- The scalar register the instruction names, or its address. -/
  scal : Word
  /-- LC0 to LC3 as they stood before its loop-end test (R153, R210). -/
  lc : SMap Word := []
  /-- A younger scalar instruction has issued since it started (R208). -/
  passed : Bool := false
  deriving DecidableEq, Repr

/-- A `cmem` run that an interrupt stopped (R271): where it continues, the index of its next element in the run, the number
of its first output tile, and how many it has started. -/
structure CmemRun where
  pc : Word
  s1 : Word
  s2 : Word
  s3 : Word
  base : Nat
  drain : Nat
  /-- Its output tile started before the histogram dump that is in progress (R242). -/
  old : Bool := false
  deriving DecidableEq, Repr

/-- The vector unit of a tile. -/
structure Vec where
  /-- v0 to v31, 2,048 bytes each, byte b of register n at 2048n + b; R161; reset 0 (log 4). -/
  vregs : SMap Byte := []
  /-- m1 to m7, 16,384 bits each, bit i of register n at 16384n + i; R170; reset 0 (log 4). -/
  masks : SMap Bool := []
  /-- TILE_VCFG; R164; reset 0. -/
  cfg : VCfg := {}
  /-- TILE_VSTART, 15 bits; R167; reset 0. -/
  vstart : Nat := 0
  /-- TILE_VCSR; R178; reset 0. -/
  csr : VCsr := {}
  /-- TILE_VFLT.vt, 5 bits; R209; reset 0. -/
  fltVt : Reg := 0
  /-- TILE_VFLT.nr, 1 bit; R209; reset 0. -/
  fltNr : Bool := false
  /-- TILE_VFLT.kind, 2 bits; R209; reset 0. -/
  fltKind : BitVec 2 := 0
  /-- TILE_VLANE.shadow, logical lane p; R192; reset 0. -/
  shadow : Nat := 0
  /-- TILE_VLANE.patrol; R192; reset 1 (log 5). -/
  patrol : Bool := true
  /-- TILE_VLANE.spent; R192; reset 0 (log 5). -/
  spent : Bool := false
  /-- TILE_VLANE.spare, physical lane that holds no logical lane; R192; reset 32 (log 5). -/
  spare : Nat := 32
  /-- The spare lane failed a sounding and left the inventory; R667, R670; reset false (log 5). -/
  spareBad : Bool := false
  /-- Reservation stations: dispatched instructions that have not started, oldest first; R193; reset empty. -/
  vq : List VEntry := []
  /-- Instructions that have started and not yet completed, oldest first: memory accesses and what has started behind them; R194,
  R208; reset empty. -/
  run : List VEntry := []
  /-- c0 to c3, 64 bytes each; R248; reset 0. -/
  chains : SMap Byte := []
  /-- V0 to V31, 64 bits; R260; reset seeded by cseed 0 (an unlisted key reads so). -/
  genV : SMap Word := []
  /-- D0 to D31, 64 bits; R260; reset seeded by cseed 0. -/
  genD : SMap Word := []
  /-- Every `cmem` that an interrupt has stopped, which a later `cmem` at the same place resumes; R271; reset none (log 17). -/
  cmemRuns : List CmemRun := []
  deriving DecidableEq, Repr

/-- The instruments on tensor outputs (R234 to R244). -/
structure Numerics where
  /-- TILE_NANF.drain, 32 bits; R236; reset 0. -/
  drain : Nat := 0
  /-- TILE_NANF.src, 2 bits; R236; reset 0. -/
  src : BitVec 2 := 0
  /-- TILE_NANF.row, 5 bits; R236; reset 0. -/
  row : Nat := 0
  /-- TILE_NANF.col, 15 bits; R236; reset 0. -/
  col : Nat := 0
  /-- TILE_NANF.inf; R236; reset 0. -/
  inf : Bool := false
  /-- TILE_NANF.nan; R236; reset 0. -/
  nan : Bool := false
  /-- TILE_NANF.isinf; R236; reset 0. -/
  isinf : Bool := false
  /-- TILE_NANF.valid; R236; reset 0. -/
  valid : Bool := false
  /-- TILE_NDRAIN, 32 bits, saturating; R237; reset 0. -/
  ndrain : Nat := 0
  /-- TILE_HIST0 to TILE_HIST63, 32 bits, saturating; R239; reset 0. -/
  hist : SMap Nat := []
  /-- TILE_HISTADDR, bits [39:8]; R241; reset 0 (log 4). -/
  histaddr : Word := 0
  /-- TILE_NUMSTAT.hlost; R244; reset 0. -/
  hlost : Bool := false
  /-- TILE_NUMSTAT.herr; R244; reset 0. -/
  herr : Bool := false
  /-- The dump in progress (hbusy): address, counts as they stood, and whether the area is permitted; R241, R242; reset none. -/
  dump : Option (Word × List Nat × Bool) := none
  deriving DecidableEq, Repr

/-! ### The matrix array -/

/-- A cp0 instruction in the queue, with what it took at issue (R98, R265, R287). -/
structure Cp0Entry where
  instr : Instr
  r1 : Word
  r2 : Word
  cfg : Word
  prog : List Byte
  rd : Reg
  batch : Option Nat
  col : Nat
  deriving DecidableEq, Repr

/-- Ramp states (R307). -/
inductive Ramp where
  | idle | up | active | down
  deriving DecidableEq, Repr

/-- The matrix array of a tile. -/
structure Mtx where
  /-- MTX_CFG, 12 bits; R285; reset afmt 3, wfmt 3. -/
  cfg : Word := 0x33
  /-- MTX_CFG as the youngest issued `mcfg` leaves it (R287, R319); reset as MTX_CFG. -/
  cfgIssue : Word := 0x33
  /-- acc0 to acc3, 32 x 32 elements of 32 bits, element (r, c) of acci at 1024i + 32r + c; R320; reset +0. -/
  acc : SMap (BitVec 32) := []
  /-- MTX_STAT.acck, kind of each accumulator, true for I32; R316; reset F32. -/
  kind : SMap Bool := []
  /-- The kinds as the youngest issued instruction leaves them; R319; reset F32. -/
  kindIssue : SMap Bool := []
  /-- Formats held by the weight buffers (the code of wfmt, none when unloaded); R290; reset unloaded. -/
  wfmt : SMap (Option (BitVec 4)) := []
  /-- The formats as the youngest issued `mwld` leaves them; R319; reset unloaded. -/
  wfmtIssue : SMap (Option (BitVec 4)) := []
  /-- Weight buffers 0 and 1: element (k, n) of buffer b at 1024b + 32k + n, as stored; R290; reset 0. -/
  wbuf : SMap (BitVec 32) := []
  /-- Elements of wbuf whose read was uncorrectable, which leaves what depends on them undefined; R317; reset none. -/
  wbad : List Nat := []
  /-- Drain writes handed over and not yet performed: local address and bytes, oldest first; R301, R302; reset none. -/
  handed : List (Nat × List Byte) := []
  /-- The cp0 queue, at most 8, oldest first; R289; reset empty. -/
  queue : List Cp0Entry := []
  /-- Started passes that have not fed, oldest first; R306; reset empty. -/
  passes : List Cp0Entry := []
  /-- MTX_STAT.ramp; R307; reset idle. -/
  ramp : Ramp := .idle
  /-- MTX_STAT.grant; R310; reset 0. -/
  grant : Bool := false
  /-- MTX_STAT.gcls, true for the ramp-off class; R316; reset 0. -/
  gcls : Bool := false
  /-- A pass whose turn has come waits for a grant; R310; reset false. -/
  waiting : Bool := false
  /-- MTX_ERR.kind, 8 bits; R317; reset 0. -/
  errKind : BitVec 8 := 0
  /-- MTX_ERR.more, 24 bits, saturating; R317; reset 0. -/
  errMore : Nat := 0
  /-- MTX_ERRADDR, 64 bits; R317; reset 0. -/
  errAddr : Word := 0
  /-- MTX_ROWS.s0v, s0row: logical K-row that S0 serves; R318; reset none (log 5). -/
  s0 : Option Nat := none
  /-- MTX_ROWS.s1v, s1row; R318; reset none (log 5). -/
  s1 : Option Nat := none
  /-- Spares S0, S1 that failed a sounding and left the inventory; R670; reset none. -/
  s0bad : Bool := false
  s1bad : Bool := false
  /-- MTX_ROWS.shad0, shad1: K-row shadowed for buffers 0 and 1; R315, R318; reset 0. -/
  shad0 : Nat := 0
  shad1 : Nat := 0
  /-- The K-row p that the next `mwld` is shadowed at; R315; reset 0. -/
  nextShad : Nat := 0
  /-- REP_TRIM0 and REP_TRIM1: delay trim of each physical K-row, 2 bits; R313; reset 0 (log 5). -/
  trims : SMap Nat := []
  /-- MTX_STAT.feed: a pass feeds, or its rows are in flight; R316; reset 0. -/
  feed : Bool := false
  /-- MTX_STAT.wld: `mwld` or `mlda` runs; R316; reset 0. -/
  wld : Bool := false
  /-- Ramp-up steps R of the ramp-up in progress; R308; reset 0. -/
  rampUp : Nat := 0
  deriving DecidableEq, Repr

/-! ### Tile memory and the mover -/

/-- A line of the L1 data cache (R324): line number of its address, dirty bit, 128 bytes, time of last use, prefetched. -/
structure L1Line where
  line : Nat
  dirty : Bool
  data : BitVec 1024
  use : Nat
  /-- A prefetched line without a demand hit so far: the key of the stream that fetched it; R331, R336. -/
  pf : Option Word
  deriving DecidableEq, Repr

/-- A miss register: a line in flight for the prefetch stream with this key (R329, R336). A demand access takes and frees its
register within its own command (log 45). -/
structure MissReg where
  line : Nat
  key : Word
  deriving DecidableEq, Repr

/-- The streaming-store detector (R335). -/
structure Detector where
  count : Nat := 0
  next : Nat := 0
  deriving DecidableEq, Repr

/-- A prefetch stream (R336). -/
structure PfStream where
  key : Word
  last : Nat
  stride : Int
  confirmed : Bool
  depth : Nat
  ahead : Nat
  use : Nat
  deriving DecidableEq, Repr

/-- A Gallery write to a tile's scratch that waits for a change of the way split (R326): a token row, the header of a void slot,
a remote write or atomic, or the data of a `gget`. -/
inductive HeldWrite where
  | row (inbox slot : Nat) (hdr : RowHeader) (bytes : List Byte)
  | void (inbox slot : Nat)
  | remote (src : Gid) (addr : Word) (add : Bool) (bytes : List Byte) (tag : Nat)
  | response (op off : Nat) (res : ReadResp)
  deriving DecidableEq, Repr

/-- The L1 of a tile. -/
structure L1 where
  /-- TILE_L1CFG.sways, 4 bits; R325; reset 0. -/
  sways : Nat := 0
  /-- TILE_L1CFG.stren; R325; reset 1. -/
  stren : Bool := true
  /-- TILE_L1CFG.pfen; R325; reset 1. -/
  pfen : Bool := true
  /-- Cache lines, way w of set e at 16e + w; R324; reset empty. -/
  lines : SMap L1Line := []
  /-- Scratch bytes by scratch offset; R324; reset 0. -/
  scratch : SMap Byte := []
  /-- Count of accesses, from which the time of last use is taken; R331; reset 0. -/
  clock : Nat := 0
  /-- Miss registers in use (TILE_L1STAT.mrs); R329, R338; reset none. -/
  miss : SMap MissReg := []
  /-- The streaming-store detector; R335; reset not streaming. -/
  det : Detector := {}
  /-- Prefetch streams 0 to 15; R336; reset none. -/
  streams : SMap PfStream := []
  /-- TILE_L1STAT.ibx; R338; reset 0. -/
  ibx : Bool := false
  /-- A change of sways that waits or runs (TILE_L1STAT.busy): the new S; R326; reset none. -/
  change : Option Nat := none
  /-- The core that wrote it, which stalls meanwhile; R326; reset none. -/
  changeBy : Option CoreId := none
  /-- Gallery writes to the scratch that are held back meanwhile, oldest first; R326; reset none. -/
  held : List HeldWrite := []
  /-- Scratch bytes whose data is uncorrectable; R333, R658; reset none. -/
  bad : List Nat := []
  /-- L1 lines (line numbers) whose SRAM data is uncorrectable; R333; reset none. -/
  badLines : List Nat := []
  /-- Spare rows used, by bank; R663; reset 0 (log 5). -/
  rowSpares : SMap Nat := []
  deriving DecidableEq, Repr

/-- The active descriptor of a mover queue (R355 to R363). -/
structure MovActive where
  /-- The 64 bytes as read from the ring. -/
  desc : List Byte
  /-- Next unit. -/
  unit : Nat
  /-- A Lamp grant is held for it; R361. -/
  grant : Bool
  /-- Only the completion of R363 is left (a resume after a SIG halt). -/
  sigOnly : Bool
  /-- Writes released and not yet performed: unit, local address, bytes; R359. -/
  released : List (Nat × Nat × List Byte)
  /-- Transactions of the released unit, none larger than 4 KiB or across a 4 KiB boundary; R354, R358. -/
  xact : Nat := 0
  deriving DecidableEq, Repr

/-- States of a mover queue (R353). -/
inductive MovState where
  | idle | running | halted | waitGrant
  deriving DecidableEq, Repr

/-- A mover queue (R350 to R353). -/
structure MovQ where
  /-- MOV_QBASE.base and lsz; R351; reset 0. -/
  base : Nat := 0
  lsz : Nat := 0
  /-- MOV_QHEAD, 16 bits; R350; reset 0. -/
  head : Nat := 0
  /-- MOV_QTAIL, 16 bits; R350; reset 0. -/
  tail : Nat := 0
  /-- MOV_QSTAT.state; R353; reset idle. -/
  state : MovState := .idle
  /-- MOV_QSTAT.idx, code, sigf, late, berr; R353; reset 0. -/
  idx : Nat := 0
  code : Nat := 0
  sigf : Bool := false
  late : Bool := false
  berr : Bool := false
  /-- MOV_QFADDR, 64 bits; R350; reset 0. -/
  faddr : Word := 0
  /-- The descriptor in progress; R359; reset none. -/
  active : Option MovActive := none
  deriving DecidableEq, Repr

/-! ### The Gallery port of a tile -/

/-- A cp1 instruction in the queue (R371). -/
structure Cp1Entry where
  instr : Instr
  r1 : Word
  r2 : Word
  rd : Reg
  task : Bool
  deriving DecidableEq, Repr

/-- A group of trips of a dispatch that go to one inbox and still wait for a grant, in token order (R392). -/
structure DispGroup where
  dst : InboxRef
  trips : List TripId
  deriving DecidableEq, Repr

/-- An active Gallery operation (R371, R373). -/
structure GalOp where
  id : Nat
  instr : Instr
  addr : Word
  block : List Byte
  task : Bool
  start : Nat
  deadline : Nat
  needGrant : Bool
  grant : Bool
  /-- A dispatch waits for free trip records; R390. -/
  waitTrips : Bool
  /-- The routing matrix of a dispatch that waits for trip records, as its checks read it; R390. -/
  matrix : List Byte := []
  /-- Trips of a dispatch that wait for a grant, and those sent whose header is not acknowledged. -/
  groups : List DispGroup
  sent : List TripId
  /-- Trips of a dispatch that failed while sending (R396). -/
  failedTrips : Nat
  timedOut : Bool
  /-- Pieces of a `gget` that have been written: offset and bytes (R378). -/
  got : List (Nat × Nat)
  deriving DecidableEq, Repr

/-- An open return batch (R403, R404). -/
structure Batch where
  id : Nat
  rows : Nat
  nb : Nat
  headers : List RowHeader
  ok : Bool
  started : Bool
  /-- Drains paired at issue, and drains done. -/
  paired : Nat
  done : Nat
  deriving DecidableEq, Repr

/-- The Gallery port of a tile. -/
structure Port1 where
  /-- The cp1 queue, at most 8, oldest first; R371; reset empty. -/
  queue : List Cp1Entry := []
  /-- Active block operations, at most 16; R371; reset none. -/
  ops : List GalOp := []
  /-- Number the next operation takes; model's own; reset 0. -/
  nextOp : Nat := 0
  /-- Open return batches, oldest first (GAL_PORT.batches); R403; reset none. -/
  batches : List Batch := []
  /-- Number the next batch takes; model's own; reset 0. -/
  nextBatch : Nat := 0
  /-- GAL_PORT.rfail, 8 bits; R421; reset 0. -/
  rfail : BitVec 8 := 0
  deriving DecidableEq, Repr

/-- A Zaham-S data cache line needs no data of its own: it is write-through (R348). -/
structure Svc where
  core : Core := { run := .running }
  /-- Lines the 32 KiB data cache holds, set by set, most recently used first, each with its bytes; R348; reset empty. -/
  dcache : SMap (List (Nat × BitVec 1024)) := []
  deriving DecidableEq, Repr

/-- One logical tile. -/
structure Tile where
  core : Core := {}
  vec : Vec := {}
  num : Numerics := {}
  mtx : Mtx := {}
  l1 : L1 := {}
  /-- Mover queues 0 to 3; R350; reset 0. -/
  mov : SMap MovQ := []
  port : Port1 := {}
  /-- TILE_FEREQ.reclaim and drain; R525; reset 0. -/
  reclaim : Bool := false
  drain : Bool := false
  /-- TILE_PACE.cur, min, max, 16 bits each; R42; reset 0, 0xFFFF, 0 (log 4). -/
  paceCur : BitVec 16 := 0
  paceMin : BitVec 16 := 0xFFFF
  paceMax : BitVec 16 := 0
  /-- TILE_TCORR_STEPS, 64 bits; R60; reset 0. -/
  tcorrSteps : Word := 0
  /-- TILE_TCORR_TIME, 64 bits; R60; reset 0. -/
  tcorrTime : Word := 0
  /-- The task has executed `trap` 0 or 1 and the firmware ends the tile's part; R520, R521; reset none. -/
  ending : Option Word := none
  /-- Paused for sounding; R664; reset false. -/
  paused : Bool := false
  /-- REP_TMAP.phys, physical tile 0 to 287; R16, R686; reset identity within the cluster (log 5). -/
  phys : Option Nat := none
  /-- REP_TMAP.oos, out of service; R18; reset false (log 5). -/
  oos : Bool := false
  /-- MB_TDB, 32 bits; R578; reset 0. -/
  tdb : BitVec 32 := 0
  /-- MB_TDBM, 32 bits; R578; reset 0. -/
  tdbm : BitVec 32 := 0
  deriving DecidableEq, Repr

/-! ### Mailboxes -/

/-- A mailbox (R575). -/
structure Mailbox where
  /-- MB_DATA0 to MB_DATA7, 64 bits; R575; reset 0. -/
  data : SMap Word := []
  /-- MB_STAT.code, ackv, rcoll, scoll, full; R575; reset 0. -/
  code : BitVec 16 := 0
  ackv : Bool := false
  rcoll : Bool := false
  scoll : Bool := false
  full : Bool := false
  /-- MB_CFG.fw, tile, mdb, hdb (HMB only); R575; reset 0. -/
  fw : Bool := false
  tile : BitVec 8 := 0
  mdb : BitVec 5 := 0
  hdb : BitVec 5 := 0
  deriving DecidableEq, Repr

/-! ### Stacked memory -/

/-- Thermal bands (R491). -/
inductive Band where
  | normal | warm | hot | critical
  deriving DecidableEq, Repr

/-- What stored data of a line gives when it is read (R485, R658). -/
inductive Health where
  | clean | correctable | uncorrectable
  deriving DecidableEq, Repr

/-- The bits in which a stored burst differs from the code word of its data: pins 0 to 17, each with the 32 bits of its symbol
(R484). -/
abbrev PinErr := SMap (BitVec 32)

/-- A line held by a stack-cache slice, in a way of its set; its bytes are those of module memory, which reads as the slice
does (R478). `bad`: the slice's SRAM no longer gives it (R481). -/
structure SliceLine where
  line : Nat
  dirty : Bool
  way : Nat := 0
  bad : Bool := false
  deriving DecidableEq, Repr

/-- A slice of a stack cache (R478, R480, R498). -/
structure Slice where
  /-- Lines by set, most recently used first; R478; reset empty. -/
  sets : SMap (List SliceLine) := []
  /-- Its streaming-store detector; R480; reset not streaming. -/
  det : Detector := {}
  /-- Spare ways used, and ways out of service; R498; reset 0 (log 5). -/
  sparesUsed : Nat := 0
  lostWays : List Nat := []
  deriving DecidableEq, Repr

/-- A copy in progress on a stack (R496, R497). -/
inductive CopyJob where
  | channel (ch spare : Nat)
  | fold (ch : Nat)
  deriving DecidableEq, Repr

/-- One memory stack (R464). -/
structure Stack where
  /-- MEM_STAT.temp, 8 bits; R499; reset 0 (log 4). -/
  temp : Nat := 0
  /-- MEM_STAT.band; R499; reset Normal. -/
  band : Band := .normal
  /-- MEM_STAT.stopped; R499; reset 0. -/
  stopped : Bool := false
  /-- The memory service retrains a cooled stopped stack; R493; reset false. -/
  retraining : Bool := false
  /-- MEM_STAT.chan, logical channels in service; R499; reset 128 (log 5). -/
  chan : Nat := 128
  /-- REP_CHMAP: logical channel each spare channel 0 to 3 serves; R686; reset none (log 5). -/
  chmap : SMap Nat := []
  /-- Spare channels that have failed their sounding; R670; reset none (log 5). -/
  badChans : List Nat := []
  /-- MEM_STAT.copy: the copy that runs; R499; reset none. -/
  copy : Option CopyJob := none
  /-- MEM_STAT.ways; R499; reset 0 (log 5). -/
  ways : Bool := false
  /-- MEM_ECC.corr and uncorr, 32 bits, saturating; R500; reset 0. -/
  corr : Nat := 0
  uncorr : Nat := 0
  /-- MOD_MONO ns until which a bank is occupied by a refresh, bank b of channel c at 32c + b; R489; reset 0. -/
  busy : SMap Nat := []
  /-- Spare rows used per bank, 0 to 8; R494; reset 0 (log 5). -/
  rowSpares : SMap Nat := []
  /-- Rows remapped: (channel, bank, row) as 2^32 c + 2^16 b + row, to its spare row; R494; reset none (log 5). -/
  rowMap : SMap Nat := []
  /-- Slices of the stack cache, by logical channel; R478; reset empty. -/
  slices : SMap Slice := []
  deriving DecidableEq, Repr

/-- A memory-map region, MOD_MAPn (R467). -/
structure Region where
  mode : BitVec 2
  l1 : Bool
  rbase : Nat
  nrows : Nat
  deriving DecidableEq, Repr

/-! ### Gallery tables -/

/-- States of a sequence slot (R383). -/
inductive SlotState where
  | free | armed | opened
  deriving DecidableEq, Repr

/-- A sequence slot (R383 to R387). -/
structure Slot where
  state : SlotState := .free
  /-- H, 32 to 8,192; R384; reset 0 (log 4). -/
  h : Nat := 0
  cv : Bool := false
  db : BitVec 5 := 0
  sig : Bool := false
  sigadd : Bool := false
  /-- Position j in the run that armed it; R384. -/
  j : Nat := 0
  out : Word := 0
  opitch : Nat := 0
  staddr : Word := 0
  sigaddr : Word := 0
  sigval : Word := 0
  tile : Nat := 0
  prog : List Byte := []
  /-- Pending trips; R390; reset 0. -/
  pending : Nat := 0
  /-- Failed trips and code of the first; R387, R407; reset 0. -/
  failed : Nat := 0
  code : BitVec 8 := 0
  deriving DecidableEq, Repr

/-- States of a trip record (R391). -/
inductive TripState where
  | free | sending | opened
  deriving DecidableEq, Repr

/-- A trip record (R391), with the operation that sends it and where its row goes. -/
structure Trip where
  state : TripState := .free
  gen : BitVec 4 := 0
  expert : Nat := 0
  slot : Nat := 0
  weight : BitVec 32 := 0
  /-- Fragments accepted so far (left = nb - their number); R391, R405. -/
  got : List Nat := []
  nb : Nat := 0
  deadline : Nat := 0
  tmo : Nat := 0
  tile : Nat := 0
  op : Nat := 0
  tok : Word := 0
  dst : Option InboxRef := none
  inboxSlot : Nat := 0
  /-- Full-inbox policy of the entry that its last lookup found: 0 hold, 1 and 2 divert; R379, R394. -/
  alt : Nat := 0
  /-- The ID was freed by expiry: the time from which it may be reserved again; R391. -/
  cooling : Option Nat := none
  deriving DecidableEq, Repr

/-- A waiting reservation request (R393). -/
structure Waiter where
  src : Gid
  req : Nat
  n : Nat
  deriving DecidableEq, Repr

/-- An inbox of a tile (R397 to R400). -/
structure Inbox where
  /-- GAL_IBCFG fields; R397; reset 0. -/
  en : Bool := false
  nslots : Nat := 0
  pitch : Nat := 0
  hdr : Nat := 0
  rows : Nat := 0
  /-- GAL_IBPTR.head and tail, counted without wrapping; R398; reset 0. -/
  head : Nat := 0
  tail : Nat := 0
  /-- Slots reserved so far, counted without wrapping; R392; reset 0. -/
  resv : Nat := 0
  /-- Slots at or above tail whose header has been written; R400; reset none. -/
  filled : List Nat := []
  /-- Grant times of the reserved slots not yet filled; R400; reset none. -/
  granted : SMap Nat := []
  /-- Waiter queue, at most 64, oldest first; R393; reset empty. -/
  waiters : List Waiter := []
  deriving DecidableEq, Repr

/-- A collective in progress on this module (R412 to R418). -/
structure Coll where
  shape : CollShape
  src : Word
  dst : Word
  tile : Nat
  op : Nat
  start : Nat
  span : Nat
  deadline : Nat
  grant : Bool
  /-- Subtree values that have arrived: block b of child 16r + 1 + i at 16b + i. -/
  kids : SMap (List Byte)
  /-- Blocks whose own subtree is combined and passed up. -/
  sent : List Nat
  /-- Blocks that have been delivered here or passed on. -/
  got : List Nat
  deriving DecidableEq, Repr

/-- A beacon heard for a group (R417). -/
structure Heard where
  state : BitVec 2
  cause : BitVec 3
  src : Gid
  time : Nat
  deriving DecidableEq, Repr

/-- A group of modules (R410). -/
structure Group where
  members : List Gid := []
  rank : Nat := 0
  joined : Bool := false
  /-- A join in progress: tile and operation; R410; reset none. -/
  joining : Option (Nat × Nat) := none
  /-- Hashes that have arrived: of the parent at 0, of child rank r at r; R410; reset none. -/
  hashes : SMap (BitVec 512) := []
  hash : BitVec 512 := 0
  /-- Collectives started in this group; R415; reset 0. -/
  count : Nat := 0
  /-- State declared by `gbeacon`; R419; reset 0. -/
  declared : BitVec 2 := 0
  coll : Option Coll := none
  /-- Collectives of this module that wait for the one in progress, oldest first: tile, operation, and the code that its checks
  gave, 0 when they passed; R415, R418; reset none. -/
  collq : List (Nat × Nat × Nat) := []
  /-- Data that arrived for a collective that has not started here: neighbour (0 the parent, else the child's rank), shape,
  block and data; R415; reset none. -/
  early : List (Nat × CollShape × Nat × List Byte) := []
  heard : List Heard := []
  deriving DecidableEq, Repr

/-- A message handed to the Gallery for another module; what the fabric does with it is outside the module. -/
inductive GalMsg where
  | store (dst : Word) (bytes : List Byte) (tile : Nat)
  | load (addr : Word) (len : Nat) (tile : Nat)
  | put (dst : Word) (bytes : List Byte) (tile op : Nat)
  | get (src : Word) (len : Nat) (tile op : Nat)
  | signal (dst : Word) (add : Bool) (val : Word) (tile op : Nat)
  | readReply (dst : Gid) (tag : Nat) (res : ReadResp)
  | writeAck (dst : Gid) (tag : Nat) (ok : Bool)
  /-- Slots are asked for, one for each trip in order: whether it waits where no slot is free (R392 to R394). -/
  | reserve (dst : InboxRef) (hold : List Bool) (rowBytes : Nat) (tile op : Nat)
  | grant (dst : Gid) (req : Nat) (inbox : InboxRef) (slots : List Nat)
  | refuse (dst : Gid) (req : Nat) (inbox : InboxRef)
  | row (dst : InboxRef) (slot : Nat) (hdr : RowHeader) (row : List Byte)
  | fragment (dst : Gid) (trip : BitVec 16) (gen : BitVec 8) (d : Nat) (fmt : BitVec 4) (data : List Word)
  | failure (dst : Gid) (trip : BitVec 16) (code : BitVec 8)
  | headerAck (dst : Gid) (trip : BitVec 16)
  | coll (dst : Gid) (g : Nat) (shape : CollShape) (block : Nat) (data : List Byte)
  | joinHash (dst : Gid) (g : Nat) (hash : BitVec 512)
  | beacon (dst : Gid) (g : Nat) (num : Nat) (st : BitVec 2) (cause : BitVec 3) (src : Gid)
  /-- A packet in transit fails at its origin with UNREACH (R444, R450, R453): the operation fields of its header. -/
  | unreach (dst : Gid) (op : Word)
  deriving DecidableEq, Repr

/-- The route of a message that this module originates (R449 to R454): destination, first port (none when it is not
reachable), phase, and intermediate group. -/
structure Hop where
  dst : Gid
  port : Option Nat
  phase : Bool
  igrp : Nat
  deriving DecidableEq, Repr

/-- The Gallery block (R379 to R421). -/
structure Gallery where
  /-- GAL_DIRBASE.base, address; R381; reset 0. -/
  dirbase : Nat := 0
  /-- Cached directory entries of X0 and X1, entry e of die d at 2^20 d + e; R381; reset none. -/
  dircache : SMap (BitVec 32) := []
  /-- GAL_DIRINV.busy: the invalidation in progress, all or one ID; R381; reset none. -/
  dirinv : Option (Option Nat) := none
  /-- GAL_BASIN.base, address; R382; reset from configuration (log 3). -/
  basin : Nat := 0
  /-- GAL_DEFTMO.n, 5 bits; R420; reset 17 (log 3). -/
  deftmo : Nat := 17
  /-- GAL_STALE.count, 32 bits, saturating; R420; reset 0. -/
  stale : Nat := 0
  /-- GAL_RWIN0 to GAL_RWIN7, LO and HI; R367; reset 0. -/
  rwinLo : SMap Word := []
  rwinHi : SMap Word := []
  /-- Sequence slots 0 to 4,095; R383; reset FREE. -/
  slots : SMap Slot := []
  /-- Trip records by trip ID; R391; reset FREE. -/
  trips : SMap Trip := []
  /-- Dispatches that wait for free trip records, oldest first: tile and operation; R390; reset none. -/
  tripWait : List (Nat × Nat) := []
  /-- Inboxes, inbox i of tile t at 16t + i; R397; reset 0. -/
  inboxes : SMap Inbox := []
  /-- Groups 0 to 255; R410; reset not joined. -/
  groups : SMap Group := []
  /-- GAL_RTCFG.bias, nmin, mbits; R459; reset from configuration (log 3). -/
  bias : BitVec 16 := 0
  nmin : Bool := false
  mbits : Nat := 6
  /-- GAL_DETOUR, 64 bits; R459; reset from configuration (log 3). -/
  detour : Word := 0
  /-- GAL_RTERR, 32 bits, saturating; R459; reset 0. -/
  rterr : Nat := 0
  /-- Group table and member table, 64-bit route entries; R450; reset from configuration (log 3). -/
  grpTab : SMap Word := []
  memTab : SMap Word := []
  /-- The tables as the configuration gives them, from which the Gallery service core rebuilds; R444, R588; reset (log 3). -/
  grpCfg : SMap Word := []
  memCfg : SMap Word := []
  /-- Messages handed to the fabric, oldest first, and their routes; model's own record of what leaves the module. -/
  out : List GalMsg := []
  routes : List Hop := []
  deriving DecidableEq, Repr

/-! ### Gallery links -/

/-- A flit as it travels: link header and payload (R430, R431), with the header of the packet that it belongs to, and the
message when the packet is this module's own. -/
structure FlitRec where
  hdr : Word
  payload : List Byte
  pkt : Word × Word := (0, 0)
  own : Option GalMsg := none
  deriving DecidableEq, Repr

/-- A flit that waits to be sent: the port it came in by, its class there, and the flit. -/
structure TxFlit where
  inp : Nat
  icls : Nat
  flit : FlitRec
  deriving DecidableEq, Repr

/-- Where the packet that a port is receiving in a class goes (R449). -/
inductive RouteTo where
  | here
  | port (p : Nat) (set : Bool)
  | drop
  deriving DecidableEq, Repr

/-- States of a port (R460). -/
inductive PortState where
  | none | down | train | key | up | replay | retrain | failed
  deriving DecidableEq, Repr

/-- A Gallery port (R422 to R461). -/
structure Link where
  /-- GAL_LNK.cwid, glob; R460; reset from configuration (log 3). -/
  cwid : Nat := 0
  glob : Bool := false
  /-- GAL_LNK.wid, state, peer, pport; R460; reset from training (log 3). -/
  wid : Nat := 0
  state : PortState := .none
  peer : Gid := 0
  pport : BitVec 8 := 0
  /-- The peer the route tables expect; R435, R588; reset from configuration (log 3). -/
  expPeer : Gid := 0
  expPort : BitVec 8 := 0
  /-- GAL_LNK.epoch; R437; reset 0 (log 4). -/
  epoch : Bool := false
  /-- Next sequence number to send, oldest unacknowledged, next expected; R438; reset 0. -/
  txSeq : Nat := 0
  rxSeq : Nat := 0
  /-- Replay buffer, at most 512 flits, oldest first; R438; reset empty. -/
  replayBuf : List FlitRec := []
  /-- A NAK has been sent since the last accepted flit; R438; reset false. -/
  nakSent : Bool := false
  /-- Accepted flits not yet acknowledged; R438; reset 0. -/
  unacked : Nat := 0
  /-- NAKs of the oldest flit in a row; R440; reset 0. -/
  nakCount : Nat := 0
  /-- MOD_MONO at which the replay in progress started; R440; reset 0. -/
  replayStart : Nat := 0
  /-- Data flits received of the group not yet sealed; R437; reset none. -/
  rxGroup : List FlitRec := []
  /-- Seals of this group that failed; R437; reset 0. -/
  sealFails : Nat := 0
  /-- Data flits of the open group as sent, oldest first, and groups sealed under the key; R436; reset none, 0. -/
  txGroup : List FlitRec := []
  sealed : Nat := 0
  rxSealed : Nat := 0
  /-- Reserved credits of class 2 vc + set, and shared credits; R447; reset full (log 4). -/
  credits : SMap Nat := []
  shared : Nat := 0
  /-- Credits to return to the peer, reserved by class and shared; R447; reset 0. -/
  owed : SMap Nat := []
  owedShared : Nat := 0
  /-- Flits of each class that the input buffer holds, oldest first: true for one in a place reserved to its class; R447;
  reset none. -/
  occ : SMap (List Bool) := []
  /-- Flits that wait to be sent, oldest first; R448; reset empty. -/
  txq : List TxFlit := []
  /-- The packet that a class (2 vc + set) is sending, by the input port and class it came in by (port 144: this module), its
  header and message, and the place in the rotation of R448; R433; reset none, 0. -/
  txLock : SMap (Option (Nat × Nat)) := []
  txHead : SMap ((Word × Word) × Option GalMsg) := []
  turn : Nat := 0
  /-- Where the packet received in each class goes; R449; reset none. -/
  rxRoute : SMap RouteTo := []
  /-- Keys and salts of both directions; R434, R437; reset from key setup (log 3). -/
  txKey : BitVec 256 := 0
  rxKey : BitVec 256 := 0
  txSalt : BitVec 32 := 0
  rxSalt : BitVec 32 := 0
  /-- Epoch of the flits received, and the firmware security version that the peer's hello gave; R435, R436; reset 0 (log 4). -/
  rxEpoch : Bool := false
  peerSvn : Nat := 0
  /-- Flits put on the wire, oldest first; model's own record. -/
  wire : List FlitRec := []
  /-- GAL_LCNT0 and GAL_LCNT1 fields, saturating; R461; reset 0. -/
  retrains : Nat := 0
  replays : Nat := 0
  crc : Nat := 0
  fcorr : Nat := 0
  funcorr : Nat := 0
  /-- The key setup (R434): the peer's hello has come, the own nonce and KEM seed, the shared secret, the bytes of key-exchange
  flits in the direction of the lower and of the higher side, own bytes that still wait for the replay buffer; reset none. -/
  kxHello : Bool := false
  kxNonce : BitVec 256 := 0
  kxSeed : BitVec 512 := 0
  kxSecret : Option (BitVec 256) := none
  kxLow : List Byte := []
  kxHigh : List Byte := []
  kxWait : List Byte := []
  /-- What the peer's certificate and evidence give: identity key, owner digest, and whether the evidence answers the hello; R434, R435, R622; reset 0. -/
  peerPk : BitVec 512 := 0
  peerOwner : BitVec 256 := 0
  peerOk : Bool := false
  /-- A replay runs in KEY, or the retrain interrupted the key setup; R439, R440; reset no. -/
  kxReplay : Bool := false
  kxAgain : Bool := false
  /-- MOD_MONO of the uncorrectable codewords of each lane in the last 1 ms; R441; reset none. -/
  badCw : SMap (List Nat) := []
  /-- MOD_MONO at which the retrain started; R441; reset 0. -/
  retrainStart : Nat := 0
  /-- Working lanes after the last lane decision; R443; reset all. -/
  lanes : BitVec 8 := 0xFF
  deriving DecidableEq, Repr

/-- An octet (R462). -/
structure Octet where
  fail : BitVec 8 := 0
  starts : BitVec 8 := 0
  sused : Bool := false
  slane : BitVec 3 := 0
  /-- The spare lane is spent; R442; reset no (log 5). -/
  spent : Bool := false
  /-- Port whose peer the spare pair reaches; R442, R588; reset none (log 3). -/
  sparePort : Option Nat := none
  deriving DecidableEq, Repr

/-! ### Front end -/

/-- States of a command queue (R506). -/
inductive QState where
  | idle | running | inWait | waiting | halted | draining
  deriving DecidableEq, Repr

/-- How far an active command has come. -/
inductive Phase where
  /-- Waits for its tiles, a task queue, a graph or held tiles. -/
  | waiting
  /-- Holds its tiles and waits for reserved inbox slots (R519 step 2). -/
  | preparing
  /-- Its kernel runs, or the tiles it stops drain. -/
  | running
  /-- WAIT watches its fence. -/
  | watching
  /-- It fails and its tiles are recovered (R524). -/
  | failing
  deriving DecidableEq, Repr

/-- A kernel as its launch descriptor gives it, relocated (R515 to R518). -/
structure Kernel where
  persist : Bool
  first : Nat
  count : Nat
  entry : Word
  stack : Word
  stride : Nat
  sways : Nat
  args : List Byte
  /-- TILE_PWINi_LO and TILE_PWINi_HI. -/
  wins : List (Word × Word)
  /-- GAL_IBCFG of the 16 inboxes. -/
  inboxes : List Word
  deriving DecidableEq, Repr

/-- An active command of a queue (R503, R509). -/
structure Cmd where
  /-- The 64 bytes of the record. -/
  bytes : List Byte
  /-- Its address in module memory; R503. -/
  addr : Nat
  /-- Place in the order in which commands start; R522, R544. -/
  seq : Nat
  phase : Phase := .waiting
  /-- MOD_MONO at its start, and its limit in ns; R523. -/
  start : Nat
  limit : Nat
  /-- Resources on which its clock is held, the ns held before, and since when it is held now; R675, R677. -/
  holds : List HoldRes := []
  heldNs : Nat := 0
  heldAt : Nat := 0
  /-- A replay under R529. -/
  rep : Bool := false
  /-- FE_QCTL.abort asked the queue to halt; R507. -/
  halt : Bool := false
  /-- The replay of a persistent task, whose queue has passed its record; R529, R536. -/
  past : Bool := false
  /-- Relocated address of the fence of a WAIT. -/
  ref : Word := 0
  /-- The relocated kernel of a LAUNCH or PERSIST. -/
  kern : Option Kernel := none
  /-- The relocated entry of an ENQ, or the record of a PATCH. -/
  body : List Byte := []
  /-- Tiles of its set that it holds and that have not ended. -/
  tiles : List Nat := []
  /-- Killed tiles whose released writes have not all been performed; R524. -/
  writes : List Nat := []
  /-- Tiles that have issued their first waitq (R536). -/
  ready : List Nat := []
  failCode : BitVec 8 := 0
  failDetail : BitVec 16 := 0
  failAt : Nat := 0
  fa : Word := 0
  fr : Word := 0
  fv : Word := 0
  /-- A graph launch: the number and the bytes of the record in progress (empty before the first), its start, its limit, and
  the ns held before it; R543. -/
  recNo : Nat := 0
  sub : List Byte := []
  /-- The launch counts in its graph's running count; R544. -/
  counted : Bool := false
  subStart : Nat := 0
  subLimit : Nat := 0
  subHeld : Nat := 0
  /-- Feature set in force at its start; R605. -/
  feat : BitVec 256
  deriving DecidableEq, Repr

/-- A command queue (R504 to R507). -/
structure FeQueue where
  base : Nat := 0
  lsz : Nat := 0
  head : Nat := 0
  tail : Nat := 0
  /-- FE_QCFG.en, db, dtmo; R505; reset 0, 0, 100,000. -/
  en : Bool := false
  db : BitVec 5 := 0
  dtmo : BitVec 32 := 100000
  /-- FE_QSTAT.code, berr, fail, state; R506; reset 0. -/
  code : BitVec 8 := 0
  berr : Bool := false
  fail : Bool := false
  state : QState := .idle
  /-- FE_QFADDR, FE_QFARG, FE_QFVAL, 64 bits; R504; reset 0. -/
  faddr : Word := 0
  farg : Word := 0
  fval : Word := 0
  /-- FE_WSADDR and FE_WSTHR, 64 bits; R531; reset 0. -/
  wsaddr : Word := 0
  wsthr : Word := 0
  /-- The active command; R503; reset none. -/
  cmd : Option Cmd := none
  /-- A failed idem command that waits for its replay; R529; reset none. -/
  replay : Option Cmd := none
  deriving DecidableEq, Repr

/-- States of a tile as the front end sees it (R535). -/
inductive FeTileState where
  | idle | kernel | persistent | draining | killed | out
  deriving DecidableEq, Repr

/-- FE_TILE (R535). -/
structure FeTile where
  reclaim : Bool := false
  lent : Bool := false
  rsv : Option Nat := none
  own : Option Nat := none
  /-- The kernel is one of a real-time queue; R534. -/
  rt : Bool := false
  state : FeTileState := .idle
  deriving DecidableEq, Repr

/-- A stored graph (R541 to R545). -/
structure Graph where
  defined : Bool := false
  run : Nat := 0
  pend : List Nat := []
  cnt : Nat := 0
  off : Nat := 0
  deriving DecidableEq, Repr

/-- A task queue of a cluster (R538). -/
structure TaskQueue where
  entries : List (List Byte) := []
  pbuf : List (List Byte) := []
  lost : Nat := 0
  /-- Tiles parked on it, in the order in which they parked; R540. -/
  parked : List Nat := []
  deriving DecidableEq, Repr

/-- A persistent task (R536). -/
structure PTask where
  queue : Nat
  cmd : Cmd
  deriving DecidableEq, Repr

/-- A reservation of a real-time queue (R532, R535). -/
structure Rsv where
  valid : Bool := false
  lend : Bool := false
  first : Nat := 0
  count : Nat := 0
  deriving DecidableEq, Repr

/-- The front end. -/
structure FrontEnd where
  queues : SMap FeQueue := []
  /-- FE_HTBASE, address; R513; reset 0 (log 4). -/
  htbase : Nat := 0
  /-- FE_GRBASE base and size in MiB; R541; reset 0 (log 4). -/
  grbase : Nat := 0
  grsize : Nat := 0
  graphs : SMap Graph := []
  tiles : SMap FeTile := []
  taskq : SMap TaskQueue := []
  rsv : SMap Rsv := []
  ptasks : List PTask := []
  /-- Failed idem persistent tasks that wait for their replay; R529; reset none. -/
  replays : List PTask := []
  /-- Number the next command to start takes; model's own; reset 0. -/
  nextSeq : Nat := 0
  deriving DecidableEq, Repr

/-! ### Host ports and Ezori -/

/-- A host port (R546 to R557). -/
structure HostPort where
  pmd : BitVec 4 := 0
  mtu : Nat := 1280
  vid : Nat := 0
  v4 : Bool := false
  ptp : Bool := false
  /-- ETH_PORT.state: 0 disabled, 1 down, 2 training, 3 up; R556; reset from configuration (log 3). -/
  state : BitVec 3 := 0
  addr6 : BitVec 128 := 0
  addr4 : BitVec 32 := 0
  /-- ETH_PCNT fields, 16 bits, saturating; R557; reset 0. -/
  fcs : Nat := 0
  other : Nat := 0
  ce : Nat := 0
  csum : Nat := 0
  /-- Neighbour cache, at most 256 entries, newest first; R550; reset empty. -/
  nbrs : List (BitVec 128 × BitVec 48) := []
  /-- Echo replies sent in the current second; R550; reset 0. -/
  echoSec : Nat := 0
  echoes : Nat := 0
  /-- Next LLDP frame, MOD_MONO ns; R554; reset 0. -/
  lldpDue : Nat := 0
  deriving DecidableEq, Repr

/-- A path of a session (R564, R566 to R568). -/
structure Path where
  up : Bool := false
  /-- Sending rate in Gb/s, and alpha; R566; reset 25 and 0. -/
  rate : Rat := 25
  alpha : Rat := 0
  /-- Smoothed round-trip time in ns; R564; reset 0. -/
  srtt : Nat := 0
  /-- RTT samples, each with the MOD_MONO at which it was taken; R566; reset none. -/
  samples : List (Nat × Nat) := []
  /-- Retransmission timers that have expired in a row; R564, R568; reset 0. -/
  expiries : Nat := 0
  /-- Packets acknowledged, and CE-marked packets reported, since the last change of the rate; R566; reset 0. -/
  acked : Nat := 0
  marked : Nat := 0
  deriving DecidableEq, Repr

/-- States of a session (R573). -/
inductive SessState where
  | free | handshake | established | closing
  deriving DecidableEq, Repr

/-- A packet that is sent and not acknowledged: packet number, the plaintext of its payload, port, MOD_MONO of sending, whether it
carries content sent before, and whether it is a PROBE (R564, R568). -/
structure Sent where
  pn : Nat
  content : List Byte
  port : Nat
  at_ : Nat
  again : Bool
  probe : Bool
  deriving DecidableEq, Repr

/-- An Ezori session (R560 to R573). -/
structure Session where
  /-- EZ_SESS.state, hsid, ev, net; R573; reset 0. -/
  state : SessState := .free
  hsid : BitVec 32 := 0
  ev : Bool := false
  net : Bool := false
  /-- Generation of the index, bits [31:8] of msid; R561; reset 0. -/
  gen : Nat := 0
  /-- Keys and salts of the host-to-module and of the module-to-host direction; R559, R560; reset none. -/
  rxKey : List Byte := []
  rxSalt : List Byte := []
  txKey : List Byte := []
  txSalt : List Byte := []
  /-- Host endpoints named in HELLO_I; R560; reset none. -/
  eps : List HostEp := []
  /-- Paths by module port (EZ_SESS.upa and upb); R567, R573; reset none. -/
  paths : SMap Path := []
  /-- First packet number not accepted, highest accepted, and those accepted above the first; R559, R563; reset 0, none. -/
  rxCum : Nat := 0
  rxHigh : Nat := 0
  rxSeen : List Nat := []
  /-- DATA packets accepted since the last acknowledgement; R564; reset 0. -/
  sinceAck : Nat := 0
  /-- CE-marked packets accepted; R563; reset 0. -/
  ceCount : Nat := 0
  /-- Reorder buffer: pieces of messages that have not started, 2 MiB at most; R564; reset empty. -/
  pieces : List MsgPiece := []
  /-- Number of the next message to start; R565; reset 0. -/
  nextMsn : Nat := 0
  /-- Next packet number to send, packets sent and not acknowledged, and contents that wait for a path; R559, R564; reset 0, none. -/
  txPn : Nat := 0
  inFlight : List Sent := []
  waiting : List (List Byte) := []
  /-- Number of the next message to send; R563; reset 0. -/
  txMsn : Nat := 0
  /-- The window that the peer advertised, and its count of CE-marked packets; R563; reset 0. -/
  window : Nat := 0
  peerCe : Nat := 0
  /-- MOD_MONO of the last accepted packet, of the last packet sent, of the last PROBE timer, and of the last doorbell EVENT; R562,
  R568, R572; reset 0. -/
  lastRx : Nat := 0
  lastTx : Nat := 0
  lastProbe : Nat := 0
  lastEvent : Nat := 0
  /-- Doorbell bits, and MOD_STATUS[3:1], that EVENTs have reported; R572; reset 0. -/
  seenDb : BitVec 32 := 0
  seenSt : Nat := 0
  deriving DecidableEq, Repr

/-- A handshake held (R561). -/
structure Handshake where
  id : Nat
  sess : Nat
  hsid : BitVec 32
  events : Bool
  eps : List HostEp
  port : Nat
  start : Nat
  /-- The endpoint that HELLO_I came from, the hash H1, and the pieces of FINISH_I: total length, offset, bytes (R560). -/
  src : HostEp
  h1 : List Byte
  frags : List (Nat × Nat × List Byte)
  deriving DecidableEq, Repr

/-- Status values of a response (R570). -/
inductive HStatus where
  | ok | badop | addr | graph | align | uncorr | thermal | bus | busy
  deriving DecidableEq, Repr

/-- A drip log entry (R680). -/
structure LogEntry where
  time : Word
  steps : Word
  idx : BitVec 32
  src : BitVec 16
  code : BitVec 8
  cls : BitVec 8
  detail : Word
  deriving DecidableEq, Repr

/-- An Ezori packet as the module sends it: port, the host endpoint it goes to, UDP source port, ECN (ECT(0)), hop limit, VLAN ID and
PCP, header, payload, and the tag of a sealed one (R549 to R552, R558). -/
structure OutPacket where
  port : Nat
  dst : HostEp
  sport : BitVec 16
  ecn : BitVec 2
  hops : Nat
  vid : Nat
  pcp : BitVec 8
  hdr : EzHeader
  body : List Byte
  tag : List Byte
  deriving DecidableEq, Repr

/-- What the module hands to its host ports: Ezori packets, neighbour discovery, echo replies and LLDP (R549 to R554, R558). -/
inductive HostOut where
  | ez (k : OutPacket)
  | advert (p : Nat) (dst : BitVec 128)
  | arp (p : Nat) (dst : BitVec 32)
  | solicit (p : Nat) (target : BitVec 128)
  | arpAsk (p : Nat) (target : BitVec 32)
  | echo (p : Nat) (v6 : Bool) (dst : BitVec 128) (data : List Byte)
  | lldp (p : Nat) (serial : Word) (ttl : Nat) (name : BitVec 512) (addr : BitVec 128)
  deriving DecidableEq, Repr

/-- Host ports, Ezori and mailboxes. -/
structure HostSide where
  ports : SMap HostPort := []
  sessions : SMap Session := []
  handshakes : List Handshake := []
  nextHs : Nat := 0
  /-- EZ_CNT fields, 16 bits, saturating; R574; reset 0. -/
  auth : Nat := 0
  replay : Nat := 0
  hsref : Nat := 0
  idle : Nat := 0
  /-- HMB0 to HMB15; R575; reset 0. -/
  hmb : SMap Mailbox := []
  /-- TMB0 to TMB255; R575; reset 0. -/
  tmb : SMap Mailbox := []
  /-- MB_HDB and MB_HDBM, 32 bits; R578; reset 0. -/
  hdb : BitVec 32 := 0
  hdbm : BitVec 32 := 0
  /-- Messages sent to hosts, oldest first; model's own record. -/
  out : List HostOut := []
  deriving DecidableEq, Repr

/-! ### Start-up, security, power, repair, pins -/

/-- A journal entry (R597), without seq and crc, which follow from its place. -/
structure JEntry where
  kind : BitVec 8
  origin : BitVec 8
  unit : BitVec 16
  loc : Word
  repl : BitVec 32
  aux : BitVec 32
  time : BitVec 32
  deriving DecidableEq, Repr

/-- An image on an NVM device, as far as its header matters to the state (R584). -/
structure Image where
  seq : Nat
  svn : Nat
  fwver : BitVec 32
  commit : Bool
  /-- Bytes 0x000 to 0x1FF; none where they are not known (log 3). -/
  head : List Byte := []
  deriving DecidableEq, Repr

/-- An ETHPORT block (R588). -/
structure EthCfg where
  pmd : BitVec 4
  mtu : Nat
  vid : Nat
  v4 : Bool
  ptp : Bool
  addr6 : BitVec 128
  addr4 : BitVec 32
  /-- Priority code point, prefix and mask lengths, gateways; reset 0 (log 3). -/
  pcp : BitVec 8 := 0
  plen : Nat := 0
  gate6 : BitVec 128 := 0
  mlen : Nat := 0
  gate4 : BitVec 32 := 0
  deriving DecidableEq, Repr

/-- The configuration region, as far as the state depends on it (R588). -/
structure Config where
  gid : Gid
  plmod : Nat
  ilim0 : Nat
  ilim1 : Nat
  deftmo : Nat
  map : List Region
  basin : Nat
  /-- Start masks of the octets, the global ports, and the port that each octet's spare pair serves (GALPORT). -/
  starts : List (BitVec 8)
  globs : List Nat
  spares : List (Option Nat)
  minSvn : Nat
  /-- GAL_RTCFG, GAL_DETOUR, the route tables, and the expected peers by port (ROUTE). -/
  bias : BitVec 16
  nmin : Bool
  mbits : Nat
  detour : Word
  grp : SMap Word
  mem : SMap Word
  peers : SMap (Gid × BitVec 8)
  eth : SMap EthCfg
  udp : BitVec 16
  ptpDomain : BitVec 8
  withhold : BitVec 256
  owner : BitVec 256
  /-- The system name (HOST): 64 bytes of ASCII. -/
  name : BitVec 512 := 0
  /-- The owner key and its algorithm (OWNER); R616. -/
  ownerAlg : Nat := 2
  ownerKey : List Byte := []
  deriving DecidableEq, Repr

/-- NVM, fuses and the start (R581 to R606). -/
structure Start where
  /-- The images on devices 0 and 1; R583; reset log 3. -/
  imgA : Option Image := some { seq := 1, svn := 0, fwver := 0, commit := false }
  imgB : Option Image := none
  /-- The configuration; R587; reset log 3. -/
  cfg : Config
  /-- The bytes of the region; none where they are not known (log 3). -/
  region : List Byte := []
  /-- The region that is stored breaks a rule of R587 to R589; reset no (log 3). -/
  cfgBad : Bool := false
  /-- Journal entries on device 0 and device 1, oldest first; R598; reset empty (log 3). -/
  j0 : List JEntry := []
  j1 : List JEntry := []
  /-- Journal writes that have not reached both devices: entry, and whether device 0 is done; R598; reset none. -/
  jpend : List (JEntry × Bool) := []
  /-- REP_JSTAT.full; R600; reset 0. -/
  jfull : Bool := false
  /-- MOD_BOOT.restarts, ocode, dur, slot, attempts; R602; reset log 3. -/
  restarts : Nat := 0
  ocode : BitVec 8 := 0
  dur : BitVec 16 := 0
  slot : Bool := false
  attempts : BitVec 2 := 1
  /-- MOD_FWVER.svn and fwver; R601; reset from the image. -/
  svn : Nat := 0
  fwver : BitVec 32 := 0
  /-- Active FEAT set, 256 bits; R604; reset the offered set. -/
  featAct : BitVec 256
  deriving DecidableEq, Repr

/-- An owner slot of the fuses (R608). -/
structure OwnerSlot where
  digest : BitVec 256 := 0
  pin : Bool := false
  rel : Bool := false
  deriving DecidableEq, Repr

/-- Ochre (R607 to R633). -/
structure Sec where
  /-- Fuse fields; R608; reset log 3. -/
  serial : Word := 0
  rollback : Nat := 0
  owners : SMap OwnerSlot := [(0, { digest := 1, pin := true, rel := false })]
  closed : Bool := true
  imgkey : BitVec 2 := 0
  /-- ROMDIG and IMGKEY, 512 and 256 bits; R608; reset log 3. -/
  romdig : BitVec 512 := 0
  imgDigest : BitVec 256 := 0
  /-- MR0 to MR5, 512 bits, and their counts; R617, R618; reset from start (log 3): the start extends all but MR4 once. -/
  mr : SMap (BitVec 512) := []
  mrcnt : SMap Nat := [(0, 1), (1, 1), (2, 1), (3, 1), (5, 1)]
  /-- The identity seed that HELPER rebuilds at each start, 256 bits; R608, R612; reset log 3. -/
  seed : BitVec 256 := 0
  /-- SEC_STAT.entok; R632; reset 1. -/
  entok : Bool := true
  /-- MOD_MONO of the failures of the continuous test within the last second; R610; reset none. -/
  entFails : List Nat := []
  /-- SEC_RELSTAT.done, busy, code; R633; reset 0. -/
  relDone : Bool := false
  relBusy : Option Word := none
  relCode : BitVec 8 := 0
  /-- DRBG: reseeds since start, and MOD_MONO of the last; R611; reset 0. -/
  reseeds : Nat := 0
  seedAt : Nat := 0
  deriving DecidableEq, Repr

/-- TAP instructions (R628). -/
inductive TapInstr where
  | bypass | idcode | sample | extest
  deriving DecidableEq, Repr

/-- Low-speed pins and the TAP (R628, R695, R702, R706). -/
structure Pins where
  /-- RESET_N asserted; R702; reset no. -/
  reset : Bool := false
  /-- THERMTRIP_N latched; R652; reset no. -/
  thermtrip : Bool := false
  /-- BOOTFAIL_N asserted; R596; reset no. -/
  bootfail : Bool := false
  /-- READY_N asserted; R702; reset yes (ready). -/
  ready : Bool := true
  /-- TAP instruction register; R629; reset IDCODE. -/
  tap : TapInstr := .idcode
  /-- The selected data register of BYPASS and IDCODE: 1 or 32 bits; R628; reset IDCODE value. -/
  tapDr : BitVec 32 := 0x120409A3
  /-- Boundary register, 31 cells; R706; reset 0 (log 4). -/
  boundary : BitVec 31 := 0
  /-- What the last SAMPLE shifted out, 31 cells; R628; reset 0 (log 4). -/
  sampled : BitVec 31 := 0
  /-- EXTEST drives the pins; R629; reset no. -/
  extest : Bool := false
  deriving DecidableEq, Repr

/-- What the module's supply and sequencing do (R592, R638, R639, R652). -/
inductive PowerPhase where
  /-- Ready, and running. -/
  | run
  /-- Start failed; waits for RESET_N or power (R596). -/
  | startFailed
  /-- RESET_N is asserted (R702). -/
  | held
  /-- Power-fail (R639). -/
  | failing
  /-- A fatal error; the restart has not run yet (R660). -/
  | fatal
  /-- Rails are down. -/
  | off
  deriving DecidableEq, Repr

/-- Holders of grants and requests (R642). -/
inductive Holder where
  | matrix (t : Nat) (rampoff : Bool)
  | mover (t q : Nat)
  | op (t id : Nat)
  | coll (g : Nat)
  deriving DecidableEq, Repr

/-- A request that waits, with its watts, the die it is charged to, and when it arrived (R645). -/
structure Req where
  holder : Holder
  watts : Nat
  die : Option Die
  rt : Bool
  at_ : Nat
  deriving DecidableEq, Repr

/-- A grant held: its watts, and what it charges to a die in 0.1 A (R641). -/
structure Grant where
  holder : Holder
  watts : Nat
  die : Option Die
  tenths : Nat
  deriving DecidableEq, Repr

/-- A compute die's supply (R636, R649 to R653). -/
structure DiePower where
  /-- LAMP_DIE.ilim, A; reset from configuration (log 3). -/
  ilim : Nat := 1200
  /-- LAMP_DIE.imeas, A; reset 0 (log 4). -/
  imeas : Nat := 0
  /-- LAMP_DIE.vset, vcore, mV; R653; reset 750. -/
  vset : Nat := 750
  vcore : Nat := 750
  /-- VCORE that the thermal, current and power causes ask for, none when a cause asks for nothing; R651; reset none. -/
  askThm : Option Nat := none
  askCur : Option Nat := none
  askPwr : Option Nat := none
  /-- MOD_MONO at which each of these asks moves next; R649, R650; reset 0. -/
  dueThm : Nat := 0
  dueCur : Nat := 0
  duePwr : Nat := 0
  /-- LAMP_DIE.cur, pwr, thm: the cause is active; reset 0. -/
  thm : Bool := false
  cur : Bool := false
  pwr : Bool := false
  /-- LAMP_DTEMP.tj and tjmax; R653; reset 0 (log 4). -/
  tj : Nat := 0
  tjmax : Nat := 0
  deriving DecidableEq, Repr

/-- Lamp (R641 to R653). -/
structure Lamp where
  /-- LAMP_CFG.plcfg and plmod, W; reset from configuration (log 3). -/
  plcfg : Nat := 2900
  plmod : Nat := 2900
  /-- LAMP_MOD.pin, W; reset 0 (log 4). -/
  pin : Nat := 0
  /-- LAMP_MOD.pwr; reset 0. -/
  pwr : Bool := false
  /-- LAMP_IN.vin, iin; reset 0 (log 4). -/
  vin : Nat := 0
  iin : Nat := 0
  /-- LAMP_CNT.grants and waited, 32 bits, saturating; reset 0. -/
  grants : Nat := 0
  waited : Nat := 0
  /-- Grants held; R641; reset none. -/
  held : List Grant := []
  /-- Requests that wait: the real-time line and the normal line, oldest first; R645; reset empty. -/
  rtLine : List Req := []
  normLine : List Req := []
  /-- The 1 us window of MOD_MONO in which grants were last issued, and their watts; R644; reset 0. -/
  window : Nat := 0
  issued : Nat := 0
  /-- C0 and C1. -/
  die0 : DiePower := {}
  die1 : DiePower := {}
  /-- Lamp issues no further grant, after a fatal error or in power-fail; R639, R660; reset false. -/
  stopped : Bool := false
  deriving DecidableEq, Repr

/-- Record of a structure's soundings (R665, R666). -/
structure SoundRec where
  what : Structure
  passes : List Nat
  lastPass : Nat
  errors : Nat
  deriving DecidableEq, Repr

/-- Repair, sounding and the drip log (R654 to R686). -/
structure Repair where
  /-- Drip log slots 0 to 8,191; R679; reset empty. -/
  log : SMap LogEntry := []
  /-- REP_DLSTAT.next, 32 bits; R686; reset 0. -/
  next : BitVec 32 := 0
  /-- REP_DLSTAT.lost, 32 bits, saturating; R686; reset 0. -/
  lost : Nat := 0
  /-- MOD_MONO of the entries written in the last second, by src and code (2^8 src + code); R684; reset none. -/
  rate : SMap (List Nat) := []
  /-- REP_CNT.corr and cont, saturating; R686; reset 0. -/
  corr : Nat := 0
  cont : Nat := 0
  /-- Soundings asked for and not yet done; R662, R665; reset none. -/
  due : List Structure := []
  /-- Record of transients, at most 1,024; R666; reset empty. -/
  records : List SoundRec := []
  /-- Clusters whose spare tile is used, or failed its sounding; R16, R670; reset none (log 5). -/
  spareUsed : List Nat := []
  /-- Fold table: stack and channel of each fold; R497, R686; reset none (log 5). -/
  folds : List (Nat × Nat) := []
  /-- Channels (stack and channel) whose fold R494 asks for and which has not begun; R494, R496; reset none. -/
  foldDue : List (Nat × Nat) := []
  /-- Cause of the last fatal error, which the RESTART entry carries; R659, R661; reset 0. -/
  fatal : Nat := 0
  deriving DecidableEq, Repr

/-- The time unit and the references (R50 to R58). -/
structure TimeUnit where
  /-- MOD_PPSCAP, 64 bits; R57; reset 0. -/
  ppscap : Word := 0
  /-- MOD_TIMESTAT.offset, signed 32 bits; R58; reset 0. -/
  offset : Int := 0
  /-- MOD_TIMESTAT.stepped, ppslost, locked, src; R58; reset 0. -/
  stepped : Bool := false
  ppslost : Bool := false
  locked : Bool := false
  src : BitVec 2 := 0
  /-- 1PPS edges have been seen since the start; R56; reset false. -/
  ppsSeen : Bool := false
  /-- 1PPS has left the selection until the next start; R56; reset false. -/
  ppsOut : Bool := false
  /-- Error that the servo has still to correct, as MOD_TIME less its source, in ns, and the correction that elapsed time
  allows and has not used, in 10^-6 ns; R55; reset 0. -/
  steer : Int := 0
  slewAcc : Nat := 0
  /-- MOD_REFSTAT.ref0, ref1, sw; R53; reset 1, 1, 0. -/
  ref0 : Bool := true
  ref1 : Bool := true
  sw : Bool := false
  /-- Generators 0 to 4 that run on REFCLK1; R50; reset none. -/
  gens : BitVec 5 := 0
  deriving DecidableEq, Repr

/-- The state of the module, and the queue of commands that wait. -/
structure State where
  /-- Commands that wait, first in, first out; model's own; reset empty. -/
  pending : List Instr
  /-- Counter to which the free values are applied; model's own; reset 0 (log 1). -/
  free : Nat
  /-- MOD_MONO, ns; R57; reset 0 (log 4). -/
  mono : Nat
  /-- MOD_TIME, ns; R57; reset MOD_MONO. -/
  time : Nat
  /-- What the supply and the start sequence do; R592, R639; reset running. -/
  power : PowerPhase
  /-- MOD_ID.gid, 16 bits; R26; reset from configuration (log 3). -/
  gid : Gid
  /-- MOD_STATUS.degraded; R27; reset 0 (log 5). -/
  degraded : Bool
  /-- MOD_INV.mem_mib, 20 bits; R28; reset 983,040 (log 3). -/
  memMib : Nat
  /-- MOD_PACESUM, 64 bits; R44; reset 0 (log 4). -/
  pacesum : Word
  /-- MOD_MAP0 to MOD_MAP15; R467; reset from configuration (log 3). -/
  map : List Region
  /-- Module memory by local address, as every agent that reaches a line reads it; R464, R482; reset 0 (R592). -/
  mem : List Host.Cell
  /-- Bursts whose stored bits are not those of a code word, by local address / 64; R484, R485, R658; reset none. -/
  errs : SMap PinErr
  /-- The two keys of memory encryption, 256 bits each; R487; reset drawn at the start (log 3). -/
  memK1 : BitVec 256
  memK2 : BitVec 256
  /-- Logical tiles T000 to T255; R15. -/
  tiles : SMap Tile
  /-- Service cores 0 to 12; R19. -/
  svcs : SMap Svc
  /-- Stacks 00 to 19; R464. -/
  memStacks : SMap Stack
  gal : Gallery
  /-- Gallery ports by first lane; R423. -/
  links : SMap Link
  /-- Octets O00 to O17; R422. -/
  octets : SMap Octet
  fe : FrontEnd
  host : HostSide
  start : Start
  sec : Sec
  pins : Pins
  lamp : Lamp
  rep : Repair
  tu : TimeUnit
  deriving DecidableEq, Repr

/-- The memory map of the example under R469, which covers the whole module (log 3). -/
def exampleMap : List Region :=
  [⟨0, false, 0, 8⟩, ⟨0, true, 8, 6136⟩, ⟨1, true, 6144, 6144⟩, ⟨2, true, 6144, 6144⟩]

/-- The FEAT bits of R603: 0 to 7 fixed, 16 to 20 gated. -/
def featTable : BitVec 256 := 0x1F00FF

/-- The configuration the model starts from (log 3). -/
def resetConfig : Config :=
  { gid := 0, plmod := 2900, ilim0 := 1200, ilim1 := 1200, deftmo := 17, map := exampleMap, basin := 0,
    starts := List.replicate 18 1, globs := [], spares := (List.range 18).map fun o => some (8 * o), minSvn := 0,
    bias := 0, nmin := false, mbits := 6, detour := 0, grp := [], mem := [], peers := [],
    eth := [], udp := 17170, ptpDomain := 0, withhold := 0, owner := 1 }

/-- Lanes of the port that begins at lane `l` of an octet with start mask `m` (R423). -/
def portWidth (m : BitVec 8) (l : Nat) : Nat :=
  (((List.range 8).find? fun i => decide (l < i) && m.getLsbD i).getD 8) - l

/-- The ports of a configuration, each not yet trained (R423, R424, R588). -/
def galLinks (c : Config) : SMap Link :=
  (List.range 144).filterMap fun p =>
    let m := c.starts.getD (p / 8) 0
    if m.getLsbD (p % 8) then
      let e := (c.peers.find? fun q => q.1 = p).map fun q => q.2
      some (p, { cwid := portWidth m (p % 8), glob := c.globs.contains p, state := .down
                 expPeer := (e.map fun x => x.1).getD 0, expPort := (e.map fun x => x.2).getD 0 })
    else none

/-- The octets of a configuration (R422, R423, R588). -/
def galOctets (c : Config) : SMap Octet :=
  (List.range 18).map fun o => (o, { starts := c.starts.getD o 0, sparePort := c.spares.getD o none })

/-- The module when it reports ready at the end of start-up (R10, R592), with nothing in its queue. -/
def State.reset : State :=
  { pending := [], free := 0, mono := 0, time := 0, power := .run, gid := 0, degraded := false, memMib := 983040,
    pacesum := 0, map := exampleMap, mem := [], errs := [], memK1 := 0, memK2 := 1, tiles := [], svcs := [], memStacks := [], gal := {},
    links := galLinks resetConfig, octets := galOctets resetConfig, fe := {}, host := {}, start := { cfg := resetConfig, featAct := featTable }, sec := {},
    pins := {}, lamp := {}, rep := {}, tu := {} }

end Sys2Proof.Machine
end

