-- ==== Sys2Proof/Machine/Flags.lean ====
section
/-! DEFINITION. Every flag computation of R68, R69, R78, R80 and R94. -/

namespace Sys2Proof.Machine

open Sys2Proof

/-- x + y + cin with all four flags (R69): carry out, and signed overflow. -/
def addFlags (x y : Word) (cin : Bool) : Word × Flags :=
  let r := x + y + (if cin then 1 else 0)
  (r, { n := r.msb, z := r = 0, c := decide (2 ^ 64 ≤ x.toNat + y.toNat + (if cin then 1 else 0)),
        v := x.msb = y.msb && r.msb ≠ x.msb })

/-- x - y - (1 - c) with all four flags (R67, R69): c is 1 when no borrow occurred. -/
def subFlags (x y : Word) (c : Bool) : Word × Flags :=
  let r := x - y - (if c then 0 else 1)
  (r, { n := r.msb, z := r = 0, c := decide (y.toNat + (if c then 0 else 1) ≤ x.toNat),
        v := x.msb ≠ y.msb && r.msb ≠ x.msb })

/-- Any other result: n and z from it, c clear, v clear or as the instruction states (R69). -/
def logicFlags (r : Word) (v : Bool) : Word × Flags := (r, { n := r.msb, z := r = 0, c := false, v := v })

/-- The flags of a comparison of elements of `size` bytes (R94). -/
def elemFlags (size : Nat) (a b : Nat) : Flags :=
  let m := 2 ^ (8 * size)
  let d := (a + m - b % m) % m
  let sgn := fun x => decide (m / 2 ≤ x)
  { n := sgn d, z := d = 0, c := decide (b ≤ a), v := sgn a ≠ sgn b && sgn d ≠ sgn a }

/-- The flags of an `scmp` that stops without a mismatch (R94). -/
def matchFlags : Flags := { n := false, z := true, c := true, v := false }

/-- Whether a condition holds on the flags (R80); values 14 and 15 are no condition. -/
def condHolds (c : BitVec 4) (f : Flags) : Bool :=
  match c.toNat with
  | 0 => f.z
  | 1 => !f.z
  | 2 => f.c
  | 3 => !f.c
  | 4 => f.n
  | 5 => !f.n
  | 6 => f.v
  | 7 => !f.v
  | 8 => f.c && !f.z
  | 9 => !f.c || f.z
  | 10 => f.n = f.v
  | 11 => f.n ≠ f.v
  | 12 => !f.z && f.n = f.v
  | 13 => f.z || f.n ≠ f.v
  | _ => false

end Sys2Proof.Machine
end

