-- ==== Sys2Proof/Config.lean ====
section
/-! DEFINITION. The free values of the model: values that the spec leaves open. Each is a constant without a body, applied to the operands it depends on or to the counter State.free, so that nothing can be proved of it (log 1). -/

namespace Sys2Proof.Config

/-- A free value of 64 bits: a read of a register offset that no register has, and an undefined value of a data field (log 1). -/
opaque freeWord : Nat → Word

/-- Stall steps of an instruction: time that R36 counts and this model does not time (log 2). -/
opaque freeStall : Nat → Nat

/-- A free 32-bit value: an element of an accumulator that the spec leaves undefined after a failed feeder read (R317). -/
opaque freeElem : Nat → BitVec 32

/-- The estimates of `rcp` and `rsq` on patterns of F32 (code 0) and F64 (code 1), which R254 names and does not give (log 16). -/
opaque rcp : Nat → Nat → Nat
opaque rsq : Nat → Nat → Nat

/-- Which of the F32 numbers within its error bound the exponential of `rownorm` gives for a pattern (R280, log 16). -/
opaque expF32 : Nat → Nat

/-- The absolute value and the negative of the most negative integer of a width, which R255 does not state (log 16). -/
opaque absMin : Nat → Nat
opaque negMin : Nat → Nat

/-- The front-end core that serves a queue: half of the queues stand on each compute die, and the spec does not say which (log 101). -/
opaque feCore : Nat → Nat

/-- The physical address that s31 of a service core holds in a Backstop entry, in the core's own private space (R135). -/
opaque svcBstk : Nat → Word

/-- A free block of bytes: a key, a nonce, a signature or a certificate, which no party outside can predict (R610, R621). -/
opaque freeBytes : Nat → Nat → List Byte

/-- The key encapsulation of FIPS 203 with ML-KEM-1024, which the spec names and does not give: the encapsulation key of a seed,
ciphertext and shared secret of a key and 32 random bytes, and the shared secret of a seed and a ciphertext (log 87). -/
opaque mlkemKey : BitVec 512 → List Byte
opaque mlkemEncaps : List Byte → BitVec 256 → List Byte × BitVec 256
opaque mlkemDecaps : BitVec 512 → List Byte → BitVec 256

/-- The signatures of FIPS 205, SLH-DSA-SHAKE-256f, which the spec names and does not give: one by the identity key of a public key,
and whether one verifies under a public key (log 87). -/
opaque slhSign : BitVec 512 → List Byte → List Byte
opaque slhVerify : BitVec 512 → List Byte → List Byte → Bool

/-- The public key of the key pair that FIPS 205 generates from 96 bytes (R612, log 87). -/
opaque slhPublic : List Byte → BitVec 512

/-- Whether a signature by the owner key verifies, under the algorithm of R616 (log 87). -/
opaque ownerVerify : Nat → List Byte → List Byte → List Byte → Bool

/-- The UDP source port that the module picks for a path, by session and port (R551, log 102). -/
opaque udpSource : Nat → Nat → BitVec 16

/-- The bytes of the identity certificate that the factory sets: date of issue, CA index and signature (R613, log 64). -/
opaque certByte : Nat → Byte

/-- Whether a fused multiply-add of infinity and zero with a NaN addend signals invalid, which IEEE 754-2019 leaves to the
implementation and R177 does not settle (log 15). -/
opaque fmaNanInvalid : Bool

end Sys2Proof.Config
end

