-- ==== Sys2Proof/Machine/Bits.lean ====
section
/-! DEFINITION. Sparse tables, bit fields, bytes and saturating sums. -/

namespace Sys2Proof.Machine

open Sys2Proof

/-! ### Sparse tables -/

/-- What key `i` reads as; an unlisted key reads as `d`. -/
def aget {α : Type} (d : α) : SMap α → Nat → α
  | [], _ => d
  | (k, v) :: m, i => if k = i then v else aget d m i

/-- Whether key `i` is listed. -/
def ahas {α : Type} : SMap α → Nat → Bool
  | [], _ => false
  | (k, _) :: m, i => if k = i then true else ahas m i

/-- The table with key `i` at `v`, keys rising. -/
def aput {α : Type} : SMap α → Nat → α → SMap α
  | [], i, v => [(i, v)]
  | (k, w) :: m, i, v =>
    if i < k then (i, v) :: (k, w) :: m else if i = k then (i, v) :: m else (k, w) :: aput m i v

/-- The table with key `i` unlisted. -/
def adel {α : Type} : SMap α → Nat → SMap α
  | [], _ => []
  | (k, w) :: m, i => if k = i then adel m i else (k, w) :: adel m i

/-- The table with key `i` at `v` in canonical form: the value an unlisted key reads as is not listed. -/
def aset {α : Type} [DecidableEq α] (d : α) (m : SMap α) (i : Nat) (v : α) : SMap α :=
  if v = d then adel m i else aput m i v

/-- The canonical form: keys strictly rising, no entry equal to `d`. -/
def canon {α : Type} [DecidableEq α] (d : α) : SMap α → Bool
  | [] => true
  | [(_, v)] => v ≠ d
  | (k, v) :: (k', v') :: m => k < k' && v ≠ d && canon d ((k', v') :: m)

/-- Memory is in its one canonical form: an unlisted byte reads as 0 (log 4). -/
def Memory.wf (m : SMap Byte) : Bool := canon 0 m

/-- Bytes `a` to `a + n - 1` of a table of bytes. -/
def readBytes (m : SMap Byte) (a : Nat) : Nat → List Byte
  | 0 => []
  | n + 1 => aget 0 m a :: readBytes m (a + 1) n

/-- A table of bytes with the bytes `bs` from `a` on. -/
def writeBytes : SMap Byte → Nat → List Byte → SMap Byte
  | m, _, [] => m
  | m, a, b :: bs => writeBytes (aset 0 m a b) (a + 1) bs

/-! ### Bits and bytes -/

/-- 1 for true. -/
def b2n (b : Bool) : Nat := if b then 1 else 0

/-- Bits [lo + n - 1 : lo] of a number (R3). -/
def fld (w lo n : Nat) : Nat := (w / 2 ^ lo) % 2 ^ n

/-- Bits [lo + n - 1 : lo] of a word. -/
def wfld (w : Word) (lo n : Nat) : Nat := fld w.toNat lo n

/-- Bit `i` of a word. -/
def wbit (w : Word) (i : Nat) : Bool := w.getLsbD i

/-- A word from fields (value, lowest bit); fields do not overlap. -/
def pack (fs : List (Nat × Nat)) : Word :=
  BitVec.ofNat 64 (fs.foldl (fun a p => a + p.1 * 2 ^ p.2) 0)

/-- The low `n` bytes of a number, least significant first (R4). -/
def toBytes : Nat → Nat → List Byte
  | 0, _ => []
  | n + 1, x => BitVec.ofNat 8 x :: toBytes n (x / 256)

/-- The number of a list of bytes, least significant first (R4). -/
def ofBytes : List Byte → Nat
  | [] => 0
  | b :: bs => b.toNat + 256 * ofBytes bs

/-- A word from at most 8 bytes. -/
def wordOf (bs : List Byte) : Word := BitVec.ofNat 64 (ofBytes bs)

/-- A number as two's complement of `n` bits. -/
def toInt (n x : Nat) : Int := if x % 2 ^ n < 2 ^ (n - 1) then (x % 2 ^ n : Nat) else ((x % 2 ^ n : Nat) : Int) - (2 ^ n : Nat)

/-- Two's complement of `n` bits of an integer. -/
def ofInt (n : Nat) (x : Int) : Nat := (x % (2 ^ n : Nat)).toNat

/-- Sum that stays at `cap`. -/
def satAdd (cap a b : Nat) : Nat := if a + b ≤ cap then a + b else cap

def sat16 (a b : Nat) : Nat := satAdd 0xFFFF a b
def sat32 (a b : Nat) : Nat := satAdd 0xFFFFFFFF a b

end Sys2Proof.Machine
end

