-- ==== Sys2Proof/Machine/Cipher.lean ====
section
/-! DEFINITION. The ciphers of the module: AES-256, XTS-AES-256 of the memory controllers (R487), and AES-256-GCM, which seals links and sessions (R436, R559). -/

namespace Sys2Proof.Machine

open Sys2Proof

/-! ### AES-256 (FIPS 197) -/

/-- The substitution of a byte, all 256 of them as one number, that of byte x in bits [8x + 7 : 8x]. -/
def sboxes : Nat :=
  0x16bb54b00f2d99416842e6bf0d89a18cdf2855cee9871e9b948ed9691198f8e19e1dc186b95735610ef6034866b53e708a8bbd4b1f74dde8c6b4a61c2e2578ba08ae7a65eaf4566ca94ed58d6d37c8e779e4959162acd3c25c2406490a3a32e0db0b5ede14b8ee4688902a22dc4f816073195d643d7ea7c41744975fec130ccdd2f3ff1021dab6bcf5389d928f40a351a89f3c507f02f94585334d43fbaaefd0cf584c4a39becb6a5bb1fc20ed00d153842fe329b3d63b52a05a6e1b1a2c830975b227ebe28012079a059618c323c7041531d871f1e5a534ccf73f362693fdb7c072a49cafa2d4adf04759fa7dc982ca76abd7fe2b670130c56f6bf27b777c63

def subByte (b : Byte) : Byte := BitVec.ofNat 8 (sboxes >>> (8 * b.toNat))

/-- The byte that subByte takes to `b`. -/
def unsubByte (b : Byte) : Byte :=
  BitVec.ofNat 8 (((List.range 256).find? fun i => subByte (BitVec.ofNat 8 i) = b).getD 0)

/-- Multiplication by x in the field of AES. -/
def timesX (b : Byte) : Byte := (b <<< 1) ^^^ (if b.msb then 0x1B else 0)

/-- Multiplication of a byte by a constant below 16 in the field of AES. -/
def timesC (k : Nat) (b : Byte) : Byte :=
  let b2 := timesX b
  let b4 := timesX b2
  (if k % 2 = 1 then b else 0) ^^^ (if k / 2 % 2 = 1 then b2 else 0) ^^^ (if k / 4 % 2 = 1 then b4 else 0) ^^^
    (if k / 8 % 2 = 1 then timesX b4 else 0)

def xorBytes (xs ys : List Byte) : List Byte := List.zipWith (· ^^^ ·) xs ys

/-- Four bytes of the key schedule after word `i` (i at least 8), from the words before it, newest first. -/
def nextKeyWord (i : Nat) (ws : List (List Byte)) : List Byte :=
  let prev := ws.headD []
  let turned := prev.drop 1 ++ prev.take 1
  let t :=
    if i % 8 = 0 then
      match turned.map subByte with
      | [] => []
      | b :: bs => (b ^^^ BitVec.ofNat 8 (2 ^ (i / 8 - 1))) :: bs
    else if i % 8 = 4 then prev.map subByte
    else prev
  xorBytes (ws.getD 7 []) t

/-- The 60 words of the key schedule, newest first. -/
def keyWords (key : List Byte) : List (List Byte) :=
  ((List.range 52).map (· + 8)).foldl (fun ws i => nextKeyWord i ws :: ws)
    (((List.range 8).map fun i => (key.drop (4 * i)).take 4).reverse)

/-- The 15 round keys of 16 bytes. -/
def roundKeys (key : List Byte) : List (List Byte) :=
  let ws := (keyWords key).reverse
  (List.range 15).map fun r => ((ws.drop (4 * r)).take 4).flatten

/-- Row r of the block moves r places to the left (or to the right); byte (row r, column c) stands at 4c + r. -/
def shiftRows (back : Bool) (b : List Byte) : List Byte :=
  (List.range 16).map fun i => b.getD (4 * ((i / 4 + (if back then 4 - i % 4 else i % 4)) % 4) + i % 4) 0

/-- Each column times the fixed polynomial whose coefficients are `ks`. -/
def mixColumns (ks : List Nat) (b : List Byte) : List Byte :=
  (List.range 16).map fun i => (List.range 4).foldl
    (fun a j => a ^^^ timesC (ks.getD ((j + 4 - i % 4) % 4) 0) (b.getD (4 * (i / 4) + j) 0)) 0

/-- AES-256 on one block of 16 bytes, with its round keys. -/
def aesRun (ks : List (List Byte)) (block : List Byte) : List Byte :=
  let mid := ((ks.drop 1).take 13).foldl
    (fun b k => xorBytes (mixColumns [2, 3, 1, 1] (shiftRows false (b.map subByte))) k) (xorBytes block (ks.headD []))
  xorBytes (shiftRows false (mid.map subByte)) (ks.getD 14 [])

def aesEnc (key block : List Byte) : List Byte := aesRun (roundKeys key) block

/-- Its inverse. -/
def aesDec (key block : List Byte) : List Byte :=
  let ks := (roundKeys key).reverse
  let mid := ((ks.drop 1).take 13).foldl
    (fun b k => mixColumns [14, 11, 13, 9] (xorBytes ((shiftRows true b).map unsubByte) k)) (xorBytes block (ks.headD []))
  xorBytes ((shiftRows true mid).map unsubByte) (ks.getD 14 [])

/-! ### XTS (R487) -/

/-- Multiplication by x in GF(2^128) as IEEE 1619 orders the bytes: least significant first. -/
def tweakNext (t : Nat) : Nat := (2 * t) % 2 ^ 128 ^^^ (if 2 ^ 127 ≤ t then 0x87 else 0)

/-- The tweaks of four blocks of a data unit: that of the unit, encrypted, times x for each further block. -/
def unitTweaks (k2 : List Byte) (unit : Nat) : List (List Byte) :=
  let t0 := ofBytes (aesEnc k2 (toBytes 16 unit))
  let t1 := tweakNext t0
  let t2 := tweakNext t1
  [t0, t1, t2, tweakNext t2].map (toBytes 16)

/-- XTS-AES-256 of a data unit of 64 bytes, to or from ciphertext. -/
def xts (dec : Bool) (k1 k2 : BitVec 256) (unit : Nat) (bs : List Byte) : List Byte :=
  let key := toBytes 32 k1.toNat
  (unitTweaks (toBytes 32 k2.toNat) unit).zipIdx.flatMap fun p =>
    let b := xorBytes ((bs.drop (16 * p.2)).take 16) p.1
    xorBytes (if dec then aesDec key b else aesEnc key b) p.1

/-! ### GCM (NIST SP 800-38D) -/

/-- A block of 16 bytes as GCM reads it: bit 0 of the field's elements is the most significant bit of the first byte. -/
def gcmNum (b : List Byte) : BitVec 128 := b.foldl (fun a x => (a <<< 8) ||| x.zeroExtend 128) 0

def gcmBytes (x : BitVec 128) : List Byte := (toBytes 16 x.toNat).reverse

/-- Product in the field of GCM. -/
def gcmMul (x y : BitVec 128) : BitVec 128 :=
  ((List.range 128).foldl (fun (p : BitVec 128 × BitVec 128) i =>
    (if x.getMsbD i then p.1 ^^^ p.2 else p.1,
      (p.2 >>> 1) ^^^ (if p.2.getLsbD 0 then 0xE1#128 <<< 120 else 0))) (0, y)).1

/-- Bytes filled with zeros to whole blocks. -/
def padBlocks (bs : List Byte) : List (List Byte) :=
  (List.range ((bs.length + 15) / 16)).map fun i =>
    let b := (bs.drop (16 * i)).take 16
    b ++ List.replicate (16 - b.length) 0

/-- GHASH of additional data and ciphertext, with their lengths in bits. -/
def ghash (h : BitVec 128) (aad ct : List Byte) : BitVec 128 :=
  let lens := BitVec.ofNat 128 (aad.length * 8 * 2 ^ 64 + ct.length * 8)
  gcmMul (((padBlocks aad ++ padBlocks ct).foldl (fun y b => gcmMul (y ^^^ gcmNum b) h) 0) ^^^ lens) h

/-- The counter block `i` of a nonce of 12 bytes. -/
def gcmCounter (nonce : List Byte) (i : Nat) : List Byte := nonce ++ (toBytes 4 i).reverse

/-- The key stream from block `n` on applied to bytes, which encrypts and decrypts. -/
def gcmStreamAt (ks : List (List Byte)) (nonce : List Byte) (n : Nat) (bs : List Byte) : List Byte :=
  (List.range ((bs.length + 15) / 16)).flatMap fun i =>
    xorBytes ((bs.drop (16 * i)).take 16) (aesRun ks (gcmCounter nonce (n + i + 2)))

def gcmStream (key nonce bs : List Byte) : List Byte := gcmStreamAt (roundKeys key) nonce 0 bs

/-- The tag of 16 bytes over additional data and ciphertext. -/
def gcmTag (key nonce aad ct : List Byte) : List Byte :=
  xorBytes (aesEnc key (gcmCounter nonce 1)) (gcmBytes (ghash (gcmNum (aesEnc key (List.replicate 16 0))) aad ct))

end Sys2Proof.Machine
end

