-- ==== Sys2Proof/Machine/Ops.lean ====
section
/-! DEFINITION. The named operations every family uses: one home for each tile, core, stack and queue, the drip log, the address map, and module memory with its slices. -/

namespace Sys2Proof.Machine

open Sys2Proof

/-! ### The one home of each part -/

def State.tile (s : State) (n : Nat) : Tile := aget {} s.tiles n
def State.setTile (s : State) (n : Nat) (t : Tile) : State := { s with tiles := aput s.tiles n t }
def State.updTile (s : State) (n : Nat) (f : Tile → Tile) : State := s.setTile n (f (s.tile n))

def State.svc (s : State) (n : Nat) : Svc := aget {} s.svcs n
def State.setSvc (s : State) (n : Nat) (t : Svc) : State := { s with svcs := aput s.svcs n t }

/-- A core's state: a tile's Zaham-L core or a Zaham-S core (R62). -/
def State.core (s : State) : CoreId → Core
  | .tile n => (s.tile n.val).core
  | .svc n => (s.svc n.val).core

def State.setCore (s : State) (c : CoreId) (k : Core) : State :=
  match c with
  | .tile n => s.setTile n.val { s.tile n.val with core := k }
  | .svc n => s.setSvc n.val { s.svc n.val with core := k }

def State.updCore (s : State) (c : CoreId) (f : Core → Core) : State := s.setCore c (f (s.core c))

def State.stack (s : State) (n : Nat) : Stack := aget {} s.memStacks n
def State.updStack (s : State) (n : Nat) (f : Stack → Stack) : State :=
  { s with memStacks := aput s.memStacks n (f (s.stack n)) }

def State.link (s : State) (p : Nat) : Link := aget {} s.links p
def State.updLink (s : State) (p : Nat) (f : Link → Link) : State :=
  { s with links := aput s.links p (f (s.link p)) }

def State.octet (s : State) (o : Nat) : Octet := aget {} s.octets o
def State.updOctet (s : State) (o : Nat) (f : Octet → Octet) : State :=
  { s with octets := aput s.octets o (f (s.octet o)) }

def State.queue (s : State) (q : Nat) : FeQueue := aget {} s.fe.queues q
def State.updQueue (s : State) (q : Nat) (f : FeQueue → FeQueue) : State :=
  { s with fe := { s.fe with queues := aput s.fe.queues q (f (s.queue q)) } }

def State.feTile (s : State) (t : Nat) : FeTile := aget {} s.fe.tiles t
def State.updFeTile (s : State) (t : Nat) (f : FeTile → FeTile) : State :=
  { s with fe := { s.fe with tiles := aput s.fe.tiles t (f (s.feTile t)) } }

def Tile.movq (t : Tile) (q : Nat) : MovQ := aget {} t.mov q
def Tile.updMovq (t : Tile) (q : Nat) (f : MovQ → MovQ) : Tile := { t with mov := aput t.mov q (f (t.movq q)) }

/-- A scalar register; s0 reads as 0 (R65). -/
def Core.reg (k : Core) (r : Reg) : Word := if r = 0 then 0 else aget 0 k.regs r.toNat

/-- A write of a scalar register, which is forwarded at once; one of s0 is discarded (R65, R83). -/
def Core.setReg (k : Core) (r : Reg) (v : Word) : Core :=
  if r = 0 then k else { k with regs := aset 0 k.regs r.toNat v, ready := adel k.ready r.toNat }

/-- A reader of `key` issues no sooner than `n` steps from now (R83). -/
def Core.owe (k : Core) (key n : Nat) : Core :=
  if key = 0 then k else { k with ready := aput k.ready key (k.steps + BitVec.ofNat 64 n) }

/-- A write of the flags, which is forwarded at once (R67, R83). -/
def Core.setFl (k : Core) (f : Flags) : Core := { k with fl := f, ready := adel k.ready 32 }

def State.reg (s : State) (c : CoreId) (r : Reg) : Word := (s.core c).reg r
def State.setReg (s : State) (c : CoreId) (r : Reg) (v : Word) : State := s.updCore c (fun k => k.setReg r v)

/-- The next free value, and the counter moved on (log 1). -/
def State.tick (s : State) : State := { s with free := s.free + 1 }

/-- The tile of a core, if it has one. -/
def ownTile : CoreId → Option Nat
  | .tile n => some n.val
  | .svc _ => none

/-- The compute die of a logical tile (R15). -/
def dieOfTile (t : Nat) : Die := if t < 128 then .c0 else .c1

def State.die (s : State) : Die → DiePower
  | .c0 => s.lamp.die0
  | .c1 => s.lamp.die1

def State.updDie (s : State) (d : Die) (f : DiePower → DiePower) : State :=
  match d with
  | .c0 => { s with lamp := { s.lamp with die0 := f s.lamp.die0 } }
  | .c1 => { s with lamp := { s.lamp with die1 := f s.lamp.die1 } }

/-- Logical tiles in service (R18, R28). -/
def State.liveTiles (s : State) : List Nat := (List.range 256).filter fun t => !(s.tile t).oos

/-! ### The drip log -/

/-- A source of R681. -/
def logSrc (kind num : Nat) : BitVec 16 := BitVec.ofNat 16 (kind * 4096 + num)

def srcModule : BitVec 16 := logSrc 0 0
def srcTile (t : Nat) : BitVec 16 := logSrc 1 t
def srcStack (k : Nat) : BitVec 16 := logSrc 2 k
def srcPort (p : Nat) : BitVec 16 := logSrc 3 p
def srcOchre : BitVec 16 := logSrc 7 0
def srcTime : BitVec 16 := logSrc 10 0

/-- The step field of an entry (R61): TILE_STEPS of a tile, else the low 64 bits of MOD_MONO x 2. -/
def stepField (s : State) (src : BitVec 16) : Word :=
  if src.toNat / 4096 = 1 then (s.tile (src.toNat % 4096)).core.steps else BitVec.ofNat 64 (s.mono * 2)

/-- One drip log entry (R679, R680), with the limit of R684 on each pair of source and code in any 1 s. -/
def logEntry (s : State) (src : BitVec 16) (code cls : Nat) (detail : Nat) : State :=
  let key := src.toNat * 256 + code
  let recent := (aget [] s.rep.rate key).filter fun t => s.mono < t + 1000000000
  if 1000 ≤ recent.length then
    { s with rep := { s.rep with lost := sat32 s.rep.lost 1, rate := aput s.rep.rate key recent } }
  else
    let e : LogEntry :=
      { time := BitVec.ofNat 64 s.time, steps := stepField s src, idx := s.rep.next, src := src,
        code := BitVec.ofNat 8 code, cls := BitVec.ofNat 8 cls, detail := BitVec.ofNat 64 detail }
    { s with rep := { s.rep with
        log := aput s.rep.log (s.rep.next.toNat % 8192) e, next := s.rep.next + 1,
        rate := aput s.rep.rate key (s.mono :: recent) } }

/-- Physical tile of a logical tile (R16): what the repair state says, else its place in its cluster. -/
def physTile (s : State) (t : Nat) : Nat := (s.tile t).phys.getD (9 * (t / 8) + t % 8)

/-- Physical lane of a logical lane (R190): the spare when it holds that lane. -/
def physLane (s : State) (t l : Nat) : Nat :=
  if (s.tile t).vec.spent && (s.tile t).vec.spare = l then 32 else l

/-- Physical channel behind a logical channel of a stack (R466, R496): a spare that serves it, or its own. -/
def physChan (s : State) (k ch : Nat) : Nat :=
  match (s.stack k).chmap.find? fun p => p.2 = ch with
  | some p => 128 + p.1
  | none => ch

/-- Structure ID (R682) in the physical form of R597. -/
def structId (s : State) : Structure → Nat
  | .l1row t b r => 4 * 2 ^ 60 + physTile s t.val * 2 ^ 48 + b.val * 2 ^ 16 + r
  | .vlane t l => 2 * 2 ^ 60 + physTile s t.val * 2 ^ 48 + physLane s t.val l.val
  | .krow t r => 3 * 2 ^ 60 + physTile s t.val * 2 ^ 48 +
      (if (s.tile t.val).mtx.s0 = some r.val then 32 else if (s.tile t.val).mtx.s1 = some r.val then 33 else r.val)
  | .tile t => 2 ^ 60 + physTile s t.val * 2 ^ 48 + physTile s t.val
  | .scway k ch w => 5 * 2 ^ 60 + k.val * 2 ^ 48 + physChan s k.val ch.val * 2 ^ 8 + w
  | .memrow k ch b r => 6 * 2 ^ 60 + k.val * 2 ^ 48 + physChan s k.val ch.val * 2 ^ 32 + b.val * 2 ^ 16 + r
  | .glane o l => 9 * 2 ^ 60 + o.val * 2 ^ 48 + l.val

/-- The source under which a structure's errors are logged (R681). -/
def structSrc : Structure → BitVec 16
  | .l1row t _ _ => srcTile t.val
  | .vlane t _ => srcTile t.val
  | .krow t _ => srcTile t.val
  | .tile t => srcTile t.val
  | .scway k _ _ => srcStack k.val
  | .memrow k _ _ _ => srcStack k.val
  | .glane o l => srcPort (o.val * 8 + l.val)

/-- A request for sounding (R662), which joins one that is due, and within 10 ms of a pass is only counted (R665). -/
def requestSound (s : State) (x : Structure) : State :=
  let fresh := s.rep.records.any fun r => r.what = x && s.mono < r.lastPass + 10000000 && r.passes ≠ []
  if fresh then
    { s with rep := { s.rep with records := s.rep.records.map fun r =>
        if r.what = x then { r with errors := r.errors + 1 } else r } }
  else if s.rep.due.contains x then s
  else { s with rep := { s.rep with due := s.rep.due ++ [x] } }

/-- A corrected error in a structure (R662): CORR entry, REP_CNT.corr, sounding. -/
def corrError (s : State) (x : Structure) : State :=
  let s := logEntry s (structSrc x) 0x01 1 (structId s x)
  requestSound { s with rep := { s.rep with corr := sat32 s.rep.corr 1 } } x

/-- An uncorrected-contained error (R654, R683, R686). -/
def contError (s : State) (src : BitVec 16) (code detail : Nat) : State :=
  let s := logEntry s src code 2 detail
  { s with rep := { s.rep with cont := satAdd 0xFFFFFF s.rep.cont 1 } }

/-- A patrol mismatch (R191, R315): PATROL entry and sounding of the shadowed structure. -/
def patrolMismatch (s : State) (x : Structure) : State :=
  requestSound (logEntry s (structSrc x) 0x04 0 (structId s x)) x

/-! ### The address map -/

/-- MOD_INV.mem_mib in bytes: the first address out of service (R469). -/
def memTop (s : State) : Nat := 1048576 * s.memMib

/-- Bytes of a region (R468). -/
def regionBytes (r : Region) : Nat := (if r.mode = 0 then 83886080 else 41943040) * r.nrows

/-- The region that holds an address, with the address's offset in it (R468). -/
def regionIn : List Region → Nat → Option (Region × Nat)
  | [], _ => none
  | r :: rs, a => if a < regionBytes r then some (r, a) else regionIn rs (a - regionBytes r)

/-- Where a line lies (R470). -/
structure Place where
  stack : Nat
  ch : Nat
  bank : Nat
  row : Nat
  col : Nat
  u : Nat
  deriving DecidableEq, Repr

/-- The place of the line at offset `o` of a region (R470). -/
def placeIn (r : Region) (o : Nat) : Place :=
  let n := o / 128
  let st := if r.mode = 0 then 10 * (n % 2) + (n / 2) % 10 else 10 * (if r.mode = 2 then 1 else 0) + n % 10
  let u := if r.mode = 0 then n / 2 / 10 else n / 10
  let ro := u / 2 ^ 15
  { stack := st, ch := u % 128, col := u / 128 % 8, bank := (u / 1024 % 32) ^^^ (ro % 32), row := r.rbase + ro, u := u }

/-- The place of an address before any fold. -/
def place0 (s : State) (a : Nat) : Option Place := (regionIn s.map a).map fun p => placeIn p.1 p.2

/-- Lines of [a, a + 128 n) whose place satisfies p: their count. -/
def countLines (p : Nat → Bool) (a : Nat) : Nat → Nat
  | 0 => 0
  | n + 1 => countLines p a n + (if p (a + n) then 1 else 0)

/-- The i-th line number at or above `l` that satisfies p, within `n` lines. -/
def nthLine (p : Nat → Bool) : Nat → Nat → Nat → Option Nat
  | _, _, 0 => none
  | l, i, n + 1 => if p l then (match i with | 0 => some l | j + 1 => nthLine p (l + 1) j n) else nthLine p (l + 1) i n

/-- Lines of 384 MiB, which one fold withdraws (R497). -/
def foldLines : Nat := 3145728

/-- The place of line `l` after the folds whose moves have ended (R497), given as (stack, channel, moved): fold i retires one
logical channel when `top` lines are in service after it; the live lines of that channel take the freed places outside it,
both in ascending order. -/
def placeFold (base : Nat → Option Place) : List (Nat × Nat × Bool) → Nat → Nat → Option Place
  | [], _, l => base l
  | (k, ch, done) :: fs, top, l =>
    let here := fun x => match base x with | some p => p.stack = k && p.ch = ch | none => false
    let moved := fun x =>
      if done && x < top && here x then
        match nthLine (fun y => !here y) top (countLines here 0 x) foldLines with
        | some y => base y
        | none => base x
      else base x
    placeFold moved fs (top - foldLines) l

/-- The move of a fold still runs on its stack (R497, R499). -/
def foldRuns (s : State) (k ch : Nat) : Bool := (s.stack k).copy = some (.fold ch)

/-- The place of the line that holds a module-memory address, in service or not. -/
def place (s : State) (a : Nat) : Option Place :=
  match s.rep.folds with
  | [] => place0 s a
  | fs => placeFold (fun l => place0 s (l * 128)) (fs.map fun f => (f.1, f.2, !foldRuns s f.1 f.2))
      ((8192 * s.memMib) + foldLines * (fs.length - 1)) (a / 128)

/-- Whether a module-memory address lies in a region marked L1-cacheable (R322, R467). -/
def cacheable (s : State) (a : Nat) : Bool :=
  match regionIn s.map a with
  | some (r, _) => r.l1 && a < memTop s
  | none => false

/-- A 64-bit address as a local address: own module's global form is local (R111, R322); none for another module, or when
bits [63:56] are not 0. -/
def localAddr (s : State) (a : Word) : Option Nat :=
  if wfld a 56 8 ≠ 0 then none
  else if wfld a 40 16 = 0 || wfld a 40 16 = s.gid.toNat then some (wfld a 0 40)
  else none

/-- A global address of another module (R365). -/
def isRemote (s : State) (a : Word) : Bool := wfld a 56 8 = 0 && (localAddr s a).isNone

/-- Bytes of scratch of a tile (R324). -/
def scratchBytes (s : State) (t : Nat) : Nat := 32768 * (s.tile t).l1.sways

/-- What a local address selects (R22 to R25, R322). -/
inductive Target where
  | mem (a : Nat)
  | scratch (t off : Nat)
  | reg (a : Nat)
  | bus
  deriving DecidableEq, Repr

/-- The blocks of R22 that hold registers. A block reaches to the next one of the table, at most 16 MiB (log 6). -/
def isRegBlock (s : State) (a : Nat) : Bool :=
  let o := a - 0xF800000000
  let blk := o / 0x1000000
  if a < 0xF800000000 || 0xF900000000 ≤ a then false
  else if blk = 1 then !(s.tile (o % 0x1000000 / 0x10000)).oos
  else if blk = 5 then decide (o % 0x1000000 / 0x10000 < 20)
  else blk = 0 || blk = 4 || (6 ≤ blk && blk ≤ 11)

/-- The target of `n` bytes at a local address, for an access by the tile `own` or by another agent. -/
def target (s : State) (own : Option Nat) (a n : Nat) : Target :=
  if a < 0xF000000000 then (if a + n ≤ memTop s then .mem a else .bus)
  else if 0xFC00000000 ≤ a && a < 0xFD00000000 then
    match own with
    | some t => if a - 0xFC00000000 + n ≤ scratchBytes s t then .scratch t (a - 0xFC00000000) else .bus
    | none => .bus
  else if 0xFD00000000 ≤ a && a < 0xFD10000000 then
    let t := (a - 0xFD00000000) / 0x100000
    let o := (a - 0xFD00000000) % 0x100000
    if !(s.tile t).oos && o + n ≤ scratchBytes s t then .scratch t o else .bus
  else if isRegBlock s a then .reg a
  else .bus

/-- The address of byte `off` of a tile's scratch in its window (R22). -/
def scratchAddr (t off : Nat) : Nat := 0xFD00000000 + t * 0x100000 + off

/-- The base of a tile's register block (R22). -/
def tileRegs (t : Nat) : Nat := 0xF801000000 + t * 0x10000

/-! ### Module memory -/

/-- Why an access to memory or scratch fails: a bus error, a stopped stack, or uncorrectable data with the sub code of R119. -/
inductive AccErr where
  | bus
  | thermal (k : Nat)
  | uncorr (sub : Nat)
  deriving DecidableEq, Repr

/-! #### The check code and the encryption of a burst (R484 to R488) -/

/-- Multiplication by α = x in GF(2^32) with x^32 + x^22 + x^2 + x + 1 (R484). -/
def timesA (x : BitVec 32) : BitVec 32 := (x <<< 1) ^^^ (if x.msb then 0x00400007 else 0)

/-- α^k x. -/
def timesAk (k : Nat) (x : BitVec 32) : BitVec 32 := k.repeat timesA x

/-- The syndrome S0, the sum of the symbols (R484). -/
def synd0 (e : PinErr) : BitVec 32 := e.foldl (fun a p => a ^^^ p.2) 0

/-- The syndrome S1, the sum of the symbols s_p times α^p (R484). -/
def synd1 (e : PinErr) : BitVec 32 := e.foldl (fun a p => a ^^^ timesAk p.1 p.2) 0

/-- What the check code makes of a burst (R485). -/
inductive Verdict where
  | clean
  | pin (k : Nat) (add : BitVec 32)
  | bad
  deriving DecidableEq, Repr

/-- The verdict on syndromes (R485). -/
def verdictOf (s0 s1 : BitVec 32) : Verdict :=
  if s0 = 0 && s1 = 0 then .clean
  else if s0 = 0 then .bad
  else match (List.range 18).find? fun k => s1 = timesAk k s0 with
    | some k => .pin k s0
    | none => .bad

/-- The verdict on a burst. The code is linear, so the syndromes of the stored symbols are those of the bits in which they
differ from a code word. -/
def verdict (e : PinErr) : Verdict := verdictOf (synd0 e) (synd1 e)

/-- The symbols s0 to s15 of 64 bytes of ciphertext: bit b of s_p is bit p of halfword b (R484). -/
def dataSymbols (c : List Byte) : List (BitVec 32) :=
  (List.range 16).map fun p => BitVec.ofNat 32
    ((List.range 32).foldl (fun a b => a + b2n ((c.getD (2 * b + p / 8) 0).getLsbD (p % 8)) * 2 ^ b) 0)

/-- The bytes whose symbols are given. -/
def symbolBytes (ss : List (BitVec 32)) : List Byte :=
  (List.range 64).map fun i => BitVec.ofNat 8
    ((List.range 8).foldl (fun a j => a + b2n ((ss.getD (i % 2 * 8 + j) 0).getLsbD (i / 2)) * 2 ^ j) 0)

/-- Product in GF(2^32). -/
def gfMul (x y : BitVec 32) : BitVec 32 :=
  (List.range 32).foldl (fun a i => timesA a ^^^ (if x.getMsbD i then y else 0)) 0

/-- The inverse in GF(2^32): the power 2^32 - 2. -/
def gfInv (x : BitVec 32) : BitVec 32 :=
  ((List.range 31).foldl (fun (p : BitVec 32 × BitVec 32) _ =>
    let q := gfMul p.2 p.2
    (gfMul p.1 q, q)) (1, x)).1

/-- The check symbols s16 and s17 that bring both syndromes to 0 (R484). -/
def checkSymbols (ss : List (BitVec 32)) : List (BitVec 32) :=
  let e : PinErr := ss.zipIdx.map fun p => (p.2, p.1)
  let a16 := timesAk 16 1
  let s17 := gfMul (synd1 e ^^^ gfMul a16 (synd0 e)) (gfInv (a16 ^^^ timesA a16))
  [synd0 e ^^^ s17, s17]

/-- The 64 bytes of unit `u` as the memory controllers encrypt them (R487, R488): the tweak is the local address / 64. -/
def cipherOf (s : State) (u : Nat) (bs : List Byte) : List Byte := xts false s.memK1 s.memK2 u bs

def plainOf (s : State) (u : Nat) (bs : List Byte) : List Byte := xts true s.memK1 s.memK2 u bs

/-- The bits in which stored burst `u` differs from the code word of its data. -/
def burstErr (s : State) (u : Nat) : PinErr := aget [] s.errs u

/-- The 18 symbols of burst `u` as its pins carry them (R464, R484): 64 B of ciphertext, 8 B of check, and what struck them. -/
def storedBurst (s : State) (u : Nat) : List (BitVec 32) :=
  let ds := dataSymbols (cipherOf s u (readBytes s.mem (64 * u) 64))
  (ds ++ checkSymbols ds).zipIdx.map fun p => p.1 ^^^ aget 0 (burstErr s u) p.2

/-- Beat b of a stored burst as pins 0 to 17 carry it (R484). -/
def beat (ss : List (BitVec 32)) (b : Nat) : List Bool := ss.map fun x => x.getLsbD b

/-- The bursts of line `l` in the order in which they are sent, the lower 64 bytes first (R471). -/
def burstsOf (l : Nat) : List Nat := [2 * l, 2 * l + 1]

/-- The places of those bursts: bursts 2c and 2c + 1 of the row (R471). -/
def burstCols (p : Place) : List Nat := [2 * p.col, 2 * p.col + 1]

/-- Bits that strike pins of a burst. -/
def strikePins (e : PinErr) (xs : List (Fin 18 × BitVec 32)) : PinErr :=
  xs.foldl (fun e x => aset 0 e x.1.val (aget 0 e x.1.val ^^^ x.2)) e

def strikeBurst (s : State) (u : Nat) (xs : List (Fin 18 × BitVec 32)) : State :=
  { s with errs := aset [] s.errs u (strikePins (burstErr s u) xs) }

/-- The health of a line as stored: it is uncorrectable when either of its bursts is (R485, R658). -/
def lineHealth (s : State) (l : Nat) : Health :=
  let vs := (burstsOf l).map fun u => verdict (burstErr s u)
  if vs.contains .bad then .uncorrectable else if vs = [.clean, .clean] then .clean else .correctable

/-- The bursts of a line are written in full: they are code words again. -/
def clearErrs (s : State) (l : Nat) : State :=
  { s with errs := (burstsOf l).foldl (fun m u => if aget [] m u = [] then m else adel m u) s.errs }

/-! #### Slices -/

/-- A slice set's lines, most recently used first (R478). -/
def sliceSet (s : State) (p : Place) : List SliceLine :=
  aget [] (aget {} (s.stack p.stack).slices p.ch).sets (p.u / 128 % 32)

/-- Ways of a slice (R478, R498). -/
def sliceWays (s : State) (p : Place) : Nat := 24 - (aget {} (s.stack p.stack).slices p.ch).lostWays.length

def setSliceSet (s : State) (p : Place) (ls : List SliceLine) : State :=
  s.updStack p.stack fun k =>
    let sl := aget {} k.slices p.ch
    { k with slices := aput k.slices p.ch { sl with sets := aput sl.sets (p.u / 128 % 32) ls } }

/-- A slice's copy of a line. -/
def sliceLine (s : State) (p : Place) (l : Nat) : Option SliceLine := (sliceSet s p).find? fun e => e.line = l

def sliceHas (s : State) (p : Place) (l : Nat) : Bool := (sliceLine s p l).isSome

/-- A dirty line is written to its channel (R479): its bursts become code words, and a line that the SRAM does not give stays
uncorrectable (R658, log 84). -/
def writeBackLine (s : State) (e : SliceLine) : State :=
  if e.dirty then
    let s := clearErrs s e.line
    if e.bad then (burstsOf e.line).foldl (fun s u => strikeBurst s u [(0, 1), (1, 1)]) s else s
  else s

/-- A line enters a slice, or becomes its most recently used; the least recently used way leaves, written back when it is
dirty (R478, R479). A line's bytes are those of State.mem wherever it is held. -/
def sliceTouch (s : State) (p : Place) (l : Nat) (dirty : Bool) (full : Bool := false) : State :=
  let rest := (sliceSet s p).filter fun e => e.line ≠ l
  match sliceLine s p l with
  | some e => setSliceSet s p ({ e with dirty := e.dirty || dirty, bad := e.bad && !full } :: rest)
  | none =>
    let lost := (aget {} (s.stack p.stack).slices p.ch).lostWays
    match (List.range 24).find? fun w => !lost.contains w && !(rest.any fun e => e.way = w) with
    | some w => setSliceSet s p ({ line := l, dirty := dirty, way := w } :: rest)
    | none => match rest.getLast? with
      | some v => setSliceSet (writeBackLine s v) p ({ line := l, dirty := dirty, way := v.way } :: rest.dropLast)
      | none => if dirty then clearErrs s l else s

/-- Whether the stack that holds a place is stopped (R492). -/
def stackStopped (s : State) (p : Place) : Bool := (s.stack p.stack).stopped

/-- The first failure of an access to line `l` of module memory (R469, R492): bus error, or THERMAL_STOP. -/
def lineErr (s : State) (l : Nat) : Option AccErr :=
  if memTop s ≤ l * 128 then some .bus
  else match place s (l * 128) with
    | none => some .bus
    | some p => if stackStopped s p then some (.thermal p.stack) else none

/-- The row of a place, and a way of its slice, as structures that can be sounded (R663). -/
def rowOf (p : Place) : Structure :=
  .memrow (Fin.ofNat 20 p.stack) (Fin.ofNat 128 p.ch) (Fin.ofNat 32 p.bank) p.row

def wayOf (p : Place) (w : Nat) : Structure := .scway (Fin.ofNat 20 p.stack) (Fin.ofNat 128 p.ch) w

/-- Why a read of line `l` fails: its place, the slice's copy with the sub code of R481, or its stored bursts. -/
def lineFail (s : State) (l : Nat) : Option AccErr :=
  match lineErr s l with
  | some e => some e
  | none => match place s (l * 128) with
    | none => some .bus
    | some p => match sliceLine s p l with
      | some e => if e.bad then some (.uncorr (if e.dirty then 2 else 1)) else none
      | none => if lineHealth s l = .uncorrectable then some (.uncorr 1) else none

/-- A burst is read and corrected (R485, R486): the correction is counted, and memory is not rewritten. Where the bits that
struck it are not those that the correction takes away, the data of the code word that is read takes the data's place. -/
def readBurst (s : State) (p : Place) (u : Nat) : State :=
  let e := burstErr s u
  let settle := fun (s : State) (rest left : PinErr) =>
    if rest = [] then s
    else
      let c := cipherOf s u (readBytes s.mem (64 * u) 64)
      let c' := symbolBytes ((dataSymbols c).zipIdx.map fun x => x.1 ^^^ aget 0 rest x.2)
      { s with mem := writeBytes s.mem (64 * u) (plainOf s u c'), errs := aset [] s.errs u left }
  match verdict e with
  | .clean => settle s e []
  | .pin k a =>
    let s := corrError (s.updStack p.stack fun x => { x with corr := sat32 x.corr 1 }) (rowOf p)
    settle s (aset 0 e k (aget 0 e k ^^^ a)) [(k, a)]
  | .bad => s

/-- Both bursts of a line are read. -/
def readBursts (s : State) (p : Place) (l : Nat) : State := (burstsOf l).foldl (fun s u => readBurst s p u) s

/-- A read that finds uncorrectable data is counted and asks for sounding (R481, R486, R662). -/
def noteUncorr (s : State) (p : Place) (l : Nat) : State :=
  match sliceLine s p l with
  | some e => requestSound s (wayOf p e.way)
  | none => requestSound (s.updStack p.stack fun k => { k with uncorr := sat32 k.uncorr 1 }) (rowOf p)

/-- A read of line `l` at its slice (R479, R481, R485, R486): allocates on a miss, counts corrections, and fails when the
line cannot be had. `bg` is a background read, which allocates nothing. -/
def lineRead (s : State) (l : Nat) (bg : Bool) : State × Option AccErr :=
  match lineErr s l with
  | some e => (s, some e)
  | none => match place s (l * 128) with
    | none => (s, some .bus)
    | some p => match lineFail s l with
      | some e => (noteUncorr s p l, some e)
      | none =>
        let s := if sliceHas s p l then s else readBursts s p l
        ((if bg then s else sliceTouch s p l false), none)

/-- A line is read, corrected where that is possible, and written as corrected, by the scrub or by a copy of repair (R490, R495).
An uncorrectable one stays as stored, and is logged, since no command issued the read (R658). -/
def restoreLine (s : State) (p : Place) (l : Nat) : State :=
  match lineHealth s l with
  | .uncorrectable =>
    let s := s.updStack p.stack fun k => { k with uncorr := sat32 k.uncorr 1 }
    requestSound (contError s (srcStack p.stack) 0x03 (l * 128)) (rowOf p)
  | _ => clearErrs (readBursts s p l) l

/-- A copy of repair carries the lines whose place satisfies `f` (R495). -/
def carryLines (s : State) (f : Place → Bool) : State :=
  ((s.errs.map fun e => e.1 / 2).dedup).foldl (fun s l => match place s (l * 128) with
    | some p => if f p then restoreLine s p l else s
    | none => s) s

/-- What strikes a line: bits of its bursts, and the slice's copy of it (R481, R484). -/
def strikeLine (s : State) (l : Nat) (e : LineErr) : State :=
  let s := strikeBurst (strikeBurst s (2 * l) e.lo) (2 * l + 1) e.hi
  if e.sram then
    match place s (l * 128) with
    | some p => setSliceSet s p ((sliceSet s p).map fun x => if x.line = l then { x with bad := true } else x)
    | none => s
  else s

/-- A read of `n` bytes at a module-memory address, line by line; the bytes, or the first failure with its address. -/
def memRead (s : State) (a n : Nat) : State × Except (AccErr × Nat) (List Byte) :=
  let ls := (List.range ((a + n - 1) / 128 + 1 - a / 128)).map fun i => a / 128 + i
  let (s, e) := ls.foldl (fun (acc : State × Option (AccErr × Nat)) l =>
    match acc.2 with
    | some _ => acc
    | none =>
      let (s, e) := lineRead acc.1 l false
      (s, e.map fun x => (x, max a (l * 128)))) (s, none)
  match e with
  | some x => (s, .error x)
  | none => (s, .ok (readBytes s.mem a n))

/-- A line's number in its slice's own order, with the region (by its first row) above the line's u (R480). -/
def sliceOrder (p : Place) : Nat := 2 ^ 40 * (p.row - p.u / 2 ^ 15) + p.u

/-- The streaming-store detector of a slice after a write (R480, R335). -/
def sliceDetect (d : Detector) (p : Place) (full : Bool) : Detector :=
  if full && (d.count = 0 || d.next = sliceOrder p) then ⟨min 8 (d.count + 1), sliceOrder p + 128⟩
  else {}

/-- Bytes of a line at its slice, written by a near-memory operation or merged by a partial write, after the line has been
read (R479). -/
def nearWrite (s : State) (p : Place) (a : Nat) (bs : List Byte) : State :=
  sliceTouch { s with mem := writeBytes s.mem a bs } p (a / 128) true

/-- A write of `bs` into one line at its slice: a full line replaces or allocates without a fill, a partial write fills
first and is not performed when the fill is uncorrectable (R479, R481). In streaming mode a full line that misses
allocates nothing (R480). -/
def lineWrite (s : State) (a : Nat) (bs : List Byte) : State × Option AccErr :=
  let l := a / 128
  match lineErr s l with
  | some e => (s, some e)
  | none => match place s (l * 128) with
    | none => (s, some .bus)
    | some p =>
      let d := (aget {} (s.stack p.stack).slices p.ch).det
      let full := bs.length = 128
      let stream := 8 ≤ d.count && full && d.next = sliceOrder p
      let setDet := fun (s : State) => s.updStack p.stack fun k =>
        { k with slices := aput k.slices p.ch { aget {} k.slices p.ch with det := sliceDetect d p full } }
      if full then
        let hit := sliceHas s p l
        let s := { setDet s with mem := writeBytes s.mem a bs }
        (if stream && !hit then clearErrs s l else sliceTouch s p l true true, none)
      else
        match lineRead s l false with
        | (s, some (.uncorr _)) => (s, some .bus)
        | (s, some e) => (s, some e)
        | (s, none) => (nearWrite (setDet s) p a bs, none)

/-- A list of bytes at an address cut at line boundaries. -/
def cutLines : Nat → Nat → List Byte → List (Nat × List Byte)
  | 0, _, _ => []
  | _, _, [] => []
  | fuel + 1, a, bs =>
    let n := 128 - a % 128
    (a, bs.take n) :: cutLines fuel (a + n) (bs.drop n)

def linesOf (a : Nat) (bs : List Byte) : List (Nat × List Byte) := cutLines (bs.length + 1) a bs

/-- A write to module memory, line by line; a failing line is left unwritten and the others are written. The first failure. -/
def memWrite (s : State) (a : Nat) (bs : List Byte) : State × Option (AccErr × Nat) :=
  (linesOf a bs).foldl (fun (acc : State × Option (AccErr × Nat)) p =>
    let (s, e) := lineWrite acc.1 p.1 p.2
    (s, match acc.2 with | some x => some x | none => e.map fun x => (x, p.1))) (s, none)

/-! ### Scratch -/

/-- The row of a scratch byte as a structure (R324, R327): bank and row within it. -/
def scratchRow (t off : Nat) : Structure := .l1row (Fin.ofNat 256 t) (Fin.ofNat 16 (off / 128)) (off / 2048)

/-- A read of backed scratch; uncorrectable bytes fail it (R333). -/
def scratchRead (s : State) (t off n : Nat) : Except (AccErr × Nat) (List Byte) :=
  match (s.tile t).l1.bad.filter fun b => off ≤ b && b < off + n with
  | b :: _ => .error (.uncorr 3, scratchAddr t b)
  | [] => .ok (readBytes (s.tile t).l1.scratch off n)

/-- A write of backed scratch. Uncorrectable bytes that are written in full read again (R658). -/
def scratchWrite (s : State) (t off : Nat) (bs : List Byte) : State :=
  s.updTile t fun x => { x with l1 := { x.l1 with
    scratch := writeBytes x.l1.scratch off bs
    bad := x.l1.bad.filter fun b => !(off ≤ b && b < off + bs.length) } }

/-! ### Memory and scratch as agents other than a core's own port reach them -/

/-- A read of local memory or scratch by the front end, the mover, the Gallery, a drain or the host: at the slice or at the
scratch bank, past every L1. Registers are not reached here. -/
def busRead (s : State) (own : Option Nat) (a n : Nat) : State × Except (AccErr × Nat) (List Byte) :=
  match target s own a n with
  | .mem a => memRead s a n
  | .scratch t o => (s, scratchRead s t o n)
  | _ => (s, .error (.bus, a))

/-- A write likewise. -/
def busWrite (s : State) (own : Option Nat) (a : Nat) (bs : List Byte) : State × Option (AccErr × Nat) :=
  match target s own a bs.length with
  | .mem a => memWrite s a bs
  | .scratch t o => (scratchWrite s t o bs, none)
  | _ => (s, some (.bus, a))

/-- An atomic add of `n` bytes at the near-memory unit or the scratch port (R343); the old value. -/
def busAdd (s : State) (own : Option Nat) (a n v : Nat) : State × Option (AccErr × Nat) :=
  match busRead s own a n with
  | (s, .error e) => (s, some e)
  | (s, .ok bs) => busWrite s own a (toBytes n (ofBytes bs + v))

end Sys2Proof.Machine
end

