-- ==== Sys2Proof/Machine/Report.lean ====
section
/-! DEFINITION. How units report to others: interrupt sources, doorbells, late store errors, and the failure of the command that holds a tile. -/

namespace Sys2Proof.Machine

open Sys2Proof

/-! ### Interrupt sources (R138, R139) -/

/-- The MBX source of a tile (R579). -/
def mbxPending (s : State) (t : Nat) : Bool :=
  ((s.tile t).tdb &&& ~~~(s.tile t).tdbm) ≠ 0 || (aget {} s.host.tmb t).ackv

/-- OR of TILE_T0STAT.fired (R139). -/
def anyFired (k : Core) : Bool := k.t0.any fun p => p.2.fired

/-- TILE_IPEND of a core (R139). -/
def ipend (s : State) (c : CoreId) : BitVec 7 :=
  let k := s.core c
  let mbx := match c with | .tile t => mbxPending s t.val | .svc _ => false
  BitVec.ofNat 7 (b2n k.ipWdog * 64 + b2n k.ipLst * 32 + b2n k.ipFe * 16 + b2n mbx * 8 + b2n (anyFired k) * 4 + b2n k.ipProf * 2)

/-- The highest pending, enabled and unmasked source, by its level (R131, R136, R140). -/
def bestSource (s : State) (c : CoreId) : Option Nat :=
  let k := s.core c
  if k.status.bs then none
  else [6, 5, 4, 3, 2, 1].find? fun l => (ipend s c &&& k.ien).getLsbD l && decide (k.status.ml.toNat < l)

/-- A late store error (R145, R146): TILE_LSE holds the first, later ones count, and LATE_STORE is raised. -/
def recordLate (s : State) (c : CoreId) (addr : Word) (kind : BitVec 8) : State :=
  s.updCore c fun k =>
    if k.lseKind = 0 then { k with lse := addr, lseKind := kind, ipLst := true }
    else { k with lseMore := satAdd 0xFFFFFF k.lseMore 1, ipLst := true }

/-- The kind of a late error (R146). A partial write whose fill is uncorrectable is a bus error to its writer (R481). -/
def lateKind : AccErr → BitVec 8
  | .thermal _ => 2
  | _ => 1

/-! ### Doorbells (R576 to R579) -/

/-- A bit of a tile's doorbell register is set. -/
def ringTile (s : State) (t b : Nat) : State :=
  s.updTile t fun x => { x with tdb := x.tdb ||| BitVec.ofNat 32 (2 ^ b) }

/-- A bit of the host's doorbell register is set. -/
def ringHost (s : State) (b : Nat) : State :=
  { s with host := { s.host with hdb := s.host.hdb ||| BitVec.ofNat 32 (2 ^ b) } }

/-! ### The command that holds a tile (R521, R524, R655 to R657) -/

/-- TILE_FEREQ.drain is set on a tile and its FE interrupt raised (R524). -/
def askDrain (s : State) (t : Nat) : State :=
  let s := s.updTile t fun x => { x with drain := true, core := { x.core with ipFe := true } }
  s.updFeTile t fun f => { f with state := .draining }

/-- The first failure fixes a command's code and fault record (R657); of a graph's record the detail is its index (R543). -/
def Cmd.failWith (c : Cmd) (now : Nat) (code : BitVec 8) (detail : BitVec 16) (fa fr fv : Word) : Cmd :=
  { c with
    phase := .failing, failCode := code, failDetail := if c.sub = [] then detail else BitVec.ofNat 16 c.recNo
    failAt := now, heldNs := 0, heldAt := now, fa := fa, fr := fr, fv := fv }

/-- Failure of the command active in queue `q`: it is marked failing and the tiles it still holds are asked to drain. -/
def failQueueCmd (s : State) (q : Nat) (code : BitVec 8) (detail : BitVec 16) (fa fr fv : Word) : State :=
  match (s.queue q).cmd with
  | none => s
  | some c =>
    if c.phase = .failing then s
    else
      let s := s.updQueue q fun x =>
        { x with state := .draining, cmd := some (c.failWith s.mono code detail fa fr fv) }
      c.tiles.foldl askDrain s

/-- Failure of a persistent task, by its place in the list of tasks. -/
def failPtask (s : State) (i : Nat) (code : BitVec 8) (detail : BitVec 16) (fa fr fv : Word) : State :=
  match s.fe.ptasks[i]? with
  | none => s
  | some p =>
    if p.cmd.phase = .failing then s
    else
      let p' : PTask := { p with cmd := p.cmd.failWith s.mono code detail fa fr fv }
      let s := { s with fe := { s.fe with ptasks := s.fe.ptasks.set i p' } }
      p.cmd.tiles.foldl askDrain s

/-- The command that holds a tile fails (R655): a persistent task that runs on it, else its queue's active command. -/
def failTile (s : State) (t : Nat) (code : BitVec 8) (detail : BitVec 16) (fa fr fv : Word) : State :=
  match s.fe.ptasks.findIdx? fun p => p.cmd.tiles.contains t with
  | some i => failPtask s i code detail fa fr fv
  | none => match (s.feTile t).own with
    | some q => failQueueCmd s q code detail fa fr fv
    | none => s

/-- An uncorrected-contained error of a tile's engine (R655): logged, counted, and the holding command fails. A bus error
is not such an error, and fails the command only where R655 says so. -/
def engineFail (s : State) (t : Nat) (e : AccErr) (addr : Nat) : State :=
  match e with
  | .uncorr _ => failTile (contError s (srcTile t) 0x02 addr) t 13 0 0 0 0
  | .thermal _ => failTile s t 14 0 0 0 0
  | .bus => s

/-- Trap entry from task code by a fault, as the firmware's level-7 handler reports it (R521, R656): code of the failure. -/
def faultCode (cause : Nat) : BitVec 8 := if cause = 0x09 then 13 else if cause = 0x0A then 14 else 9

/-- A tile halts, and the front end fails the command with HALT, and the address, pc and cause of the report (R521). -/
def haltWith (s : State) (c : CoreId) (addr pc cause : Word) : State :=
  match c with
  | .svc _ => s
  | .tile t => failTile s t.val 10 (BitVec.ofNat 16 t.val) addr pc cause

/-- The report of a halt with the saved registers as they stand (R130, R137). -/
def haltReport (s : State) (c : CoreId) : State :=
  haltWith s c (s.core c).eaddr (s.core c).epc (s.core c).ecause

end Sys2Proof.Machine
end

