-- ==== Sys2Proof/Machine/Route.lean ====
section
/-! DEFINITION. Routing in the Gallery (R446 to R454): classes, table entries, the choice of a port, the detour of an origin, and the hop checks. -/

namespace Sys2Proof.Machine

open Sys2Proof

/-- Member bits of a Gallery ID (R449). -/
def groupOf (s : State) (g : Nat) : Nat := g / 2 ^ s.gal.mbits
def memberOf (s : State) (g : Nat) : Nat := g % 2 ^ s.gal.mbits
def ownGroup (s : State) : Nat := groupOf s s.gid.toNat

/-- Ports of a route entry, candidate 0 first; none when it is not valid (R450). -/
def candidates (e : Word) : List Nat :=
  if wbit e 63 then ((List.range 4).take (wfld e 34 2 + 1)).map fun i => wfld e (8 * i) 8 else []

/-- Candidates toward a group, or toward a module of the own group (R449). -/
def towards (s : State) (grp mem : Nat) : List Nat :=
  if grp ≠ ownGroup s then candidates (aget 0 s.gal.grpTab grp) else candidates (aget 0 s.gal.memTab mem)

/-- Free credits of a port for a class (R447, R451). -/
def freeCredits (l : Link) (cls : Nat) : Nat := aget 0 l.credits cls + l.shared

def isUp (s : State) (p : Nat) : Bool := (s.link p).state = .up

/-- The first candidate with the most free credits. -/
def mostFree (s : State) (cls : Nat) : List Nat → Option Nat
  | [] => none
  | p :: ps => some (ps.foldl (fun b q => if freeCredits (s.link b) cls < freeCredits (s.link q) cls then q else b) p)

/-- The port that a packet takes (R451): an ordered one the first candidate that is UP, another the UP candidate with the
most free credits. While none is UP it waits at the first (R444). -/
def choosePort (s : State) (cands : List Nat) (cls : Nat) (ord : Bool) : Option Nat :=
  match cands.filter (isUp s) with
  | [] => cands.head?
  | p :: ps => if ord then some p else mostFree s cls (p :: ps)

/-- A packet leaves in set 1 from its first global hop in phase 1 or its hop to the destination on (R454). -/
def outSet (s : State) (p : Nat) (set phase : Bool) (dst : Gid) : Bool :=
  set || (phase && (s.link p).glob) || (s.link p).peer = dst

/-- Shared credits of a port in use (R447, R452). -/
def sharedUsed (l : Link) : Nat := (64 * l.cwid - 16) - l.shared

/-- Global-kind ports in ascending order, and the detour ports among them that are UP (R459). -/
def globalPorts (s : State) : List Nat := (s.links.filter fun p => p.2.glob).map fun p => p.1

def detourPorts (s : State) : List Nat :=
  (((List.range 64).zip (globalPorts s)).filter fun p => wbit s.gal.detour p.1 && isUp s p.2).map fun p => p.2

/-- The port with the fewest shared credits in use. -/
def leastUsed (s : State) : List Nat → Option Nat
  | [] => none
  | p :: ps => some (ps.foldl (fun b q => if sharedUsed (s.link q) < sharedUsed (s.link b) then q else b) p)

/-- The route that the origin gives a packet (R450 to R452). A minimal route carries the origin's own group as igrp, which no
non-minimal route does, since its first hop is global (log 47). -/
def originRoute (s : State) (dst : Gid) (vc : Nat) (ord : Bool) : Hop :=
  let cands := towards s (groupOf s dst.toNat) (memberOf s dst.toNat)
  let min : Hop := { dst := dst, port := choosePort s cands (2 * vc) ord, phase := true, igrp := ownGroup s }
  if ord || !s.gal.nmin then min
  else match leastUsed s (cands.filter (isUp s)), leastUsed s (detourPorts s) with
    | some p, some q =>
      if 2 * sharedUsed (s.link q) + s.gal.bias.toNat < sharedUsed (s.link p) then
        { dst := dst, port := some q, phase := false, igrp := groupOf s (s.link q).peer.toNat }
      else min
    | _, _ => min

/-- Destination, virtual channel (0 token, 1 return, 2 collective, 3 control), and whether a message is ordered (R446, R451). -/
def msgClass : GalMsg → Gid × Nat × Bool
  | .store a _ _ => (BitVec.ofNat 16 (wfld a 40 16), 0, true)
  | .load a _ _ => (BitVec.ofNat 16 (wfld a 40 16), 0, false)
  | .put a _ _ _ => (BitVec.ofNat 16 (wfld a 40 16), 0, false)
  | .get a _ _ _ => (BitVec.ofNat 16 (wfld a 40 16), 0, false)
  | .signal a _ _ _ _ => (BitVec.ofNat 16 (wfld a 40 16), 0, true)
  | .readReply d _ _ => (d, 0, false)
  | .writeAck d _ _ => (d, 3, true)
  | .reserve d _ _ _ _ => (d.gid, 3, true)
  | .grant d _ _ _ => (d, 3, true)
  | .refuse d _ _ => (d, 3, true)
  | .row d _ _ _ => (d.gid, 0, false)
  | .fragment d _ _ _ _ _ => (d, 1, false)
  | .failure d _ _ => (d, 3, true)
  | .headerAck d _ => (d, 3, true)
  | .coll d _ _ _ _ => (d, 2, false)
  | .joinHash d _ _ => (d, 3, true)
  | .beacon d _ _ _ _ _ => (d, 3, true)
  | .unreach d _ => (d, 3, true)

/-- The route of a message. -/
def msgRoute (s : State) (m : GalMsg) : Hop := let c := msgClass m; originRoute s c.1 c.2.1 c.2.2

/-- A message has somewhere to go: this module, or a valid entry toward its destination (R376, R450). -/
def routed (s : State) (m : GalMsg) : Bool := (msgClass m).1 = s.gid || (msgRoute s m).port.isSome

/-- The data that a message carries after its packet header. How the operation fields and the rest of a body are laid out is
not given (R433, log 86). -/
def msgData : GalMsg → List Byte
  | .store _ bs _ => bs
  | .put _ bs _ _ => bs
  | .signal _ _ v _ _ => toBytes 8 v.toNat
  | .readReply _ _ (.data bs) => bs
  | .row _ _ _ row => row
  | .fragment _ _ _ _ _ xs => xs.flatMap fun x => toBytes 8 x.toNat
  | .coll _ _ _ _ bs => bs
  | .joinHash _ _ h => toBytes 64 h.toNat
  | _ => []

/-- The input port that stands for this module itself. -/
def hereIn : Nat := 144

/-- A packet of this module as its data flits (R430, R431, R433): packet header, operation fields, data. -/
def packetFlits (m : GalMsg) (w op : Word) (vc : Nat) (set : Bool) : List FlitRec :=
  let body := toBytes 8 w.toNat ++ toBytes 8 op.toNat ++ msgData m
  let n := (body.length + 243) / 244
  (List.range n).map fun i =>
    let b := (body.drop (244 * i)).take 244
    { hdr := pack [(vc, 35), (b2n set, 34), (b2n (i = 0), 33), (b2n (i + 1 = n), 32), (b.length, 7)], payload := b
      pkt := (w, op), own := some m }

/-- A message leaves: one for this module stays in it, another waits as a packet at the port of its first hop, where its flits
take credits like any other's (R31, R433, R447). One without a route does not leave. -/
def galSend (s : State) (m : GalMsg) : State :=
  let c := msgClass m
  let r := msgRoute s m
  if c.1 = s.gid then { s with gal := { s.gal with out := s.gal.out ++ [m], routes := s.gal.routes ++ [r] } }
  else match r.port with
    | none => s
    | some p =>
      let w := pack [(c.1.toNat, 0), (s.gid.toNat, 16), (r.igrp, 32), (b2n r.phase, 44), (b2n c.2.2, 45), (1, 46)]
      let fs := packetFlits m w (Config.freeWord s.free) c.2.1 (outSet s p false r.phase c.1)
      let s := { s.tick with gal := { s.gal with out := s.gal.out ++ [m], routes := s.gal.routes ++ [r] } }
      s.updLink p fun l => { l with txq := l.txq ++ fs.map fun f => { inp := hereIn, icls := 2 * c.2.1, flit := f } }

/-- The tile on whose behalf a message left. -/
def msgTile (s : State) : GalMsg → Option Nat
  | .store _ _ t => some t
  | .load _ _ t => some t
  | .put _ _ t _ => some t
  | .get _ _ t _ => some t
  | .signal _ _ _ t _ => some t
  | .reserve _ _ _ t _ => some t
  | .row _ _ h _ => some (aget {} s.gal.trips h.trip.toNat).tile
  | .coll _ g _ _ _ => (aget {} s.gal.groups g).coll.map fun c => c.tile
  | .joinHash _ g _ => (aget {} s.gal.groups g).joining.map fun j => j.1
  | _ => none

/-- A port holds traffic of a tile: a flit that waits there or is not acknowledged (R445). -/
def portHolds (s : State) (p t : Nat) : Bool :=
  let l := s.link p
  (l.txq.map fun f => f.flit).any (fun f => (f.own.bind (msgTile s)) = some t) ||
    l.replayBuf.any fun f => (f.own.bind (msgTile s)) = some t

end Sys2Proof.Machine
end

