-- ==== Sys2Proof/Machine/Access.lean ====
section
/-! DEFINITION. A core's own way to memory: protection windows, the L1 data cache with its streaming detector and prefetch streams, the service core's data cache, the store buffer and the merging buffer. -/

namespace Sys2Proof.Machine

open Sys2Proof

/-! ### Protection windows (R111 to R114) -/

/-- Rights of an access: r = 1, w = 2, x = 4 (R114). -/
abbrev Rights := BitVec 3

def rightR : Rights := 1
def rightW : Rights := 2
def rightX : Rights := 4
def rightRW : Rights := 3

/-- Rights that the windows of a core grant on the line of an address. -/
def winRights (s : State) (k : Core) (a : Word) : Rights :=
  let line := wfld a 7 33
  let glob := (localAddr s a).isNone
  (List.range 16).foldl (fun acc i =>
    let lo := aget 0 k.pwinLo i
    let hi := aget 0 k.pwinHi i
    if wbit lo 3 && (!glob || wbit lo 4) && decide (wfld lo 7 33 ≤ line) && decide (line ≤ wfld hi 7 33)
    then acc ||| BitVec.ofNat 3 (wfld lo 0 3) else acc) 0

/-- Registers that no window opens to task code (R113, R350, R369, R501, R508, R580, R631, R653, R686), for tile `t`. -/
def taskDenied (t a : Nat) : Bool :=
  let o := a % 0x1000000
  let blk := a / 0x1000000
  if blk = 0xF801 then
    let f := o % 0x10000
    (0x0800 ≤ f && f < 0x0E00) || (0x1000 ≤ f && f < 0x2000) || (0x50C0 ≤ f && f < 0x5100)
  else if blk = 0xF804 then !(0x3000 ≤ o && o < 0x3800 && o % 0x40 < 0x10)
  else if blk = 0xF805 then decide (o % 0x10000 < 0x10)
  else if blk = 0xF806 || blk = 0xF808 || blk = 0xF809 || blk = 0xF80A then true
  else if blk = 0xF80B then
    let tdbOwn := 0x20000 + 0x20 * t ≤ o && o < 0x20000 + 0x20 * t + 0x18
    let tmbOwn := 0x10000 + 0x80 * t ≤ o && o < 0x10000 + 0x80 * t + 0x58
    let anySet := 0x20000 ≤ o && o < 0x22000 && o % 0x20 = 0x08
    let hmb := 0x400 ≤ o && o < 0x800 && o % 0x80 < 0x50
    !(tdbOwn || tmbOwn || anySet || hmb)
  else false

/-- A local address within the graph region, which no core stores to (R541). -/
def inGraphRegion (s : State) (a n : Nat) : Bool :=
  s.fe.grsize ≠ 0 && decide (s.fe.grbase < a + n) && decide (a < s.fe.grbase + 1048576 * s.fe.grsize)

/-- Whether an access of `n` bytes within one line is permitted to a core with the rights it needs (R111 to R113, R541).
A tile reads its own TILE_FEREQ without a window (R525). -/
def permitted (s : State) (c : CoreId) (a : Word) (n : Nat) (need : Rights) : Bool :=
  let k := s.core c
  let graph := match localAddr s a with
    | some l => (need &&& rightW) ≠ 0 && inGraphRegion s l n
    | none => false
  if graph then false
  else if k.status.lvl then true
  else
    let t := match c with | .tile t => t.val | .svc _ => 256
    let own := match localAddr s a with
      | some l => need = rightR && decide (tileRegs t + 0x6000 ≤ l) && decide (l + n ≤ tileRegs t + 0x6008)
      | none => false
    let denied := match localAddr s a with
      | some l => taskDenied t l
      | none => wfld a 56 8 ≠ 0
    own || (!denied && (winRights s k a &&& need) = need)

/-- As `permitted`, with the windows of a tile at task level whatever its level now is, for requests that task code made
(R114, R350, R373). -/
def taskPermitted (s : State) (t : Nat) (a : Word) (need : Rights) : Bool :=
  let denied := match localAddr s a with
    | some l => taskDenied t l
    | none => wfld a 56 8 ≠ 0
  !denied && (winRights s (s.tile t).core a &&& need) = need

/-- The lines that `n` bytes at `a` touch, as (first byte, bytes) of each. -/
def spans : Nat → Word → Nat → List (Word × Nat)
  | 0, _, _ => []
  | fuel + 1, a, n =>
    if n = 0 then []
    else
      let m := min n (128 - wfld a 0 7)
      (a, m) :: spans fuel (a + BitVec.ofNat 64 m) (n - m)

/-- All lines of `n` bytes pass a check; the first byte of the first that does not (R111, R205). -/
def firstDenied (ok : Word → Nat → Bool) (a : Word) (n : Nat) : Option Word :=
  ((spans (n / 128 + 2) a n).find? fun p => !ok p.1 p.2).map (·.1)

/-! ### The L1 of a tile (R324 to R338) -/

def afind {α : Type} : SMap α → Nat → Option α
  | [], _ => none
  | (k, v) :: m, i => if k = i then some v else afind m i

/-- Bytes o to o + n - 1 of a line. -/
def lineBytes (d : BitVec 1024) (o : Nat) : Nat → List Byte
  | 0 => []
  | n + 1 => d.extractLsb' (8 * o) 8 :: lineBytes d (o + 1) n

/-- A line with bytes replaced from `o` on. -/
def lineSet (d : BitVec 1024) (o : Nat) : List Byte → BitVec 1024
  | [] => d
  | b :: bs => lineSet ((d &&& ~~~((0xFF#1024) <<< (8 * o))) ||| (b.zeroExtend 1024 <<< (8 * o))) (o + 1) bs

def lineOfBytes (bs : List Byte) : BitVec 1024 := BitVec.ofNat 1024 (ofBytes bs)

/-- Cache ways of the L1 (R324). -/
def cacheWays (x : L1) : Nat := 16 - x.sways

/-- The keys of the cache ways of the set of a line (R324). -/
def setKeys (x : L1) (l : Nat) : List Nat := (List.range (cacheWays x)).map fun w => 16 * (l % 256) + w

/-- The way that holds a line. -/
def l1Find (x : L1) (l : Nat) : Option (Nat × L1Line) :=
  (setKeys x l).findSome? fun k => match afind x.lines k with
    | some e => if e.line = l then some (k, e) else none
    | none => none

/-- The way a new line takes: an empty one, else the least recently used, ties to the lowest way (R331). -/
def l1Victim (x : L1) (l : Nat) : Nat :=
  match (setKeys x l).find? fun k => !ahas x.lines k with
  | some k => k
  | none =>
    match setKeys x l with
    | [] => 0
    | k0 :: ks => ks.foldl (fun b k =>
        let u := fun k => match afind x.lines k with | some e => e.use | none => 0
        if u k < u b then k else b) k0

def State.updL1 (s : State) (t : Nat) (f : L1 → L1) : State := s.updTile t fun x => { x with l1 := f x.l1 }

/-- What is written for a line that its SRAM no longer gives: two pins of each burst, and the copy of a stack cache, are wrong
(R333, R658, log 84). -/
def poisoned : LineErr := { lo := [(0, 1), (1, 1)], hi := [(0, 1), (1, 1)], sram := true }

/-- A dirty line goes to its stack cache as a whole line; a write that fails after acceptance is a late store error (R332), and
a line that the L1 cannot read stays uncorrectable (R333). -/
def victimWrite (s : State) (t : Nat) (e : L1Line) : State :=
  let late := fun (s : State) (x : AccErr) =>
    recordLate s (.tile (Fin.ofNat 256 t)) (BitVec.ofNat 64 (e.line * 128)) (lateKind x)
  if e.dirty then
    match lineWrite s (e.line * 128) (lineBytes e.data 0 128) with
    | (s, none) => if (s.tile t).l1.badLines.contains e.line then late (strikeLine s e.line poisoned) (.uncorr 3) else s
    | (s, some err) => late s err
  else s

/-- A line is installed, after any victim has been written (R331, R332). -/
def l1Install (s : State) (t : Nat) (e : L1Line) : State :=
  let k := l1Victim (s.tile t).l1 e.line
  let s := match afind (s.tile t).l1.lines k with
    | some v => victimWrite s t v
    | none => s
  s.updL1 t fun x => { x with
    lines := aput x.lines k { e with use := if e.pf.isSome then 0 else x.clock + 1 }, clock := x.clock + 1
    badLines := x.badLines.filter (· ≠ e.line) }

/-- The L1 row of a line, for sounding (R324, R327, R663). -/
def l1RowOf (t key : Nat) : Structure :=
  .l1row (Fin.ofNat 256 t) (Fin.ofNat 16 (key / 16)) (key % 16 * 16 + key / 256)

/-- A line in flight returns (R329, R332, R337): a held line or one that cannot be read is dropped; an uncorrectable line
stays out of the L1 with an UNCORR_IDLE entry; any other line is installed as least recently used. -/
def fillReturn (s : State) (t : Nat) (m : MissReg) : State :=
  let l := m.line
  if (l1Find (s.tile t).l1 l).isSome then s
  else match lineRead s l false with
    | (s, some (.uncorr _)) => contError s (srcTile t) 0x03 (l * 128)
    | (s, some _) => s
    | (s, none) =>
      l1Install s t { line := l, dirty := false, data := lineOfBytes (readBytes s.mem (l * 128) 128), use := 0, pf := some m.key }

/-- The register of a demand miss (R329): it merges into the one that is fetching the line; with all 128 busy it waits until
one has returned. -/
def missTake (s : State) (t l : Nat) : State :=
  let x := (s.tile t).l1
  match x.miss.find? fun m => m.2.line = l with
  | some m => s.updL1 t fun x => { x with miss := adel x.miss m.1 }
  | none => match x.miss with
    | m :: _ => if 128 ≤ x.miss.length then fillReturn (s.updL1 t fun x => { x with miss := adel x.miss m.1 }) t m.2 else s
    | [] => s

/-- A demand hit on a prefetched line doubles the depth of the stream that fetched it (R336). -/
def deepen (x : L1) (e : L1Line) : L1 :=
  match e.pf with
  | none => x
  | some key => { x with streams := x.streams.map fun p =>
      if p.2.key = key && p.2.confirmed then (p.1, { p.2 with depth := min 8 (2 * p.2.depth) }) else p }

/-- A line is brought into the L1 for a demand access, and becomes its most recently used; the line, or why not (R329,
R331 to R333). -/
def l1Demand (s : State) (t l : Nat) : State × Except AccErr L1Line :=
  let fill := fun (s : State) =>
    match lineRead (missTake s t l) l false with
    | (s, some e) => (s, .error e)
    | (s, none) =>
      let e : L1Line := { line := l, dirty := false, data := lineOfBytes (readBytes s.mem (l * 128) 128), use := 0, pf := none }
      (l1Install s t e, .ok e)
  match l1Find (s.tile t).l1 l with
  | none => fill s
  | some (k, e) =>
    if (s.tile t).l1.badLines.contains l then
      if e.dirty then (requestSound s (l1RowOf t k), .error (.uncorr 3))
      else fill (corrError (s.updL1 t fun x => { x with lines := adel x.lines k, badLines := x.badLines.filter (· ≠ l) }) (l1RowOf t k))
    else
      let e' := { e with use := (s.tile t).l1.clock + 1, pf := none }
      (s.updL1 t fun x => deepen { x with lines := aput x.lines k e', clock := x.clock + 1 } e, .ok e')

/-- The streaming-store detector after a watched write (R335), and whether streaming mode governs that write. -/
def detect (d : Detector) (full : Bool) (l : Nat) : Detector × Bool :=
  if full && (d.count = 0 || d.next = l) then (⟨min 8 (d.count + 1), l + 1⟩, decide (8 ≤ d.count)) else ({}, false)

/-- A write of a tile's core port into one L1-cacheable line (R333 to R335). `full` marks a full-line write; another one needs the
bytes that the line holds. -/
def l1Write (s : State) (t a : Nat) (bs : List Byte) (full : Bool) : State × Option AccErr :=
  let l := a / 128
  let x := (s.tile t).l1
  let (d, stream) := if x.stren then detect x.det full l else (x.det, false)
  let s := s.updL1 t fun x => { x with det := d }
  if full then
    match l1Find x l with
    | none =>
      if stream then lineWrite s a bs
      else match lineErr s l with
        | some e => (s, some e)
        | none => (l1Install s t { line := l, dirty := true, data := lineOfBytes bs, use := 0, pf := none }, none)
    | some (k, e) =>
      (s.updL1 t fun x => deepen { x with
        lines := aput x.lines k { e with dirty := true, data := lineOfBytes bs, use := x.clock + 1, pf := none }
        clock := x.clock + 1, badLines := x.badLines.filter (· ≠ l) } e, none)
  else match l1Demand s t l with
    | (s, .error e) => (s, some e)
    | (s, .ok _) => (s.updL1 t fun x => { x with lines := x.lines.map fun p =>
        if p.2.line = l then (p.1, { p.2 with dirty := true, data := lineSet p.2.data (a % 128) bs }) else p }, none)

/-- A dirty copy of a line in a tile's L1 is written back and stays clean (R341, R362). -/
def l1WriteBack (s : State) (t l : Nat) : State :=
  match l1Find (s.tile t).l1 l with
  | none => s
  | some (k, e) =>
    if e.dirty then
      (victimWrite s t e).updL1 t fun x => { x with lines := aput x.lines k { e with dirty := false } }
    else s

/-- A copy of a line is written back when dirty, and invalidated (R341, R343, R362). -/
def l1Flush (s : State) (t l : Nat) : State :=
  match l1Find (s.tile t).l1 l with
  | none => s
  | some (k, _) => (l1WriteBack s t l).updL1 t fun x => { x with lines := adel x.lines k }

/-! ### Prefetch streams (R336) -/

/-- The least recently used of the 16 streams, an unused one first. -/
def pfVictim (m : SMap PfStream) : Nat :=
  match (List.range 16).find? fun i => !ahas m i with
  | some i => i
  | none => (m.foldl (fun b p => if p.2.use < b.2 then (p.1, p.2.use) else b) (match m with | p :: _ => (p.1, p.2.use) | [] => (0, 0))).1

/-- An access at line `l` by the instruction at `key` (R336): a miss without a stream makes one; the stride seen twice in a
row confirms it, and another stride returns it to training. -/
def pfAccess (s : State) (t : Nat) (key : Word) (l : Nat) (miss : Bool) : State :=
  let x := (s.tile t).l1
  if !x.pfen then s
  else match x.streams.find? fun p => p.2.key = key with
    | none =>
      if miss then
        s.updL1 t fun x =>
        let p : PfStream := { key := key, last := l, stride := 0, confirmed := false, depth := 2, ahead := 0, use := x.clock }
        { x with streams := aput x.streams (pfVictim x.streams) p }
      else s
    | some (i, p) =>
      let d : Int := (l : Int) - p.last
      let okd := d ≠ 0 && decide (d.natAbs ≤ 128)
      let p' : PfStream :=
        if okd && d = p.stride then { p with last := l, confirmed := true, ahead := p.ahead - 1, use := x.clock }
        else { p with last := l, stride := if okd then d else 0, confirmed := false, depth := 2, ahead := 0, use := x.clock }
      s.updL1 t fun x => { x with streams := aput x.streams i p' }

/-! ### The data cache of a service core (R348) -/

def dcSet (v : Svc) (l : Nat) : List (Nat × BitVec 1024) := aget [] v.dcache (l % 64)

/-- Bytes that a core's buffered writes hold for a local address, youngest last (R145, R345, R348). -/
def overlay (k : Core) (a : Nat) (bs : List Byte) : List Byte :=
  k.sbuf.foldl (fun bs e => (e.bytes.foldl (fun bs p =>
    let x := e.addr.toNat + p.1
    if a ≤ x && x < a + bs.length then bs.set (x - a) p.2 else bs) bs)) bs

/-- A load of one line by a service core: allocates on a miss, four ways, least recently used out. The copy takes the bytes that
the merging buffer holds for the line, as a store to it would have (R345, R348). -/
def dcLoad (s : State) (n l : Nat) : State × Except AccErr (BitVec 1024) :=
  let put := fun (s : State) (d : BitVec 1024) =>
    let v := s.svc n
    s.setSvc n { v with dcache := aput v.dcache (l % 64) (((l, d) :: (dcSet v l).filter fun p => p.1 ≠ l).take 4) }
  match (dcSet (s.svc n) l).find? fun p => p.1 = l with
  | some (_, d) => (put s d, .ok d)
  | none => match lineRead s l false with
    | (s, some e) => (s, .error e)
    | (s, none) =>
      let d := lineOfBytes (overlay (s.svc n).core (l * 128) (readBytes s.mem (l * 128) 128))
      (put s d, .ok d)

/-- A store updates a cached copy if one is present (R348). -/
def dcStore (s : State) (n a : Nat) (bs : List Byte) : State :=
  let v := s.svc n
  let l := a / 128
  s.setSvc n { v with dcache := v.dcache.map fun p =>
    (p.1, p.2.map fun q => if q.1 = l then (l, lineSet q.2 (a % 128) bs) else q) }

/-- A cached copy is invalidated (R341, R343). -/
def dcDrop (s : State) (n l : Nat) : State :=
  let v := s.svc n
  s.setSvc n { v with dcache := aput v.dcache (l % 64) ((dcSet v l).filter fun p => p.1 ≠ l) }

/-! ### Loads through a core's port -/

/-- A local address as the buffers name it: the scratch alias is the tile's own window (R322). -/
def canonAddr (c : CoreId) (a : Nat) : Nat :=
  match c with
  | .tile t => if 0xFC00000000 ≤ a && a < 0xFD00000000 then scratchAddr t.val (a - 0xFC00000000) else a
  | .svc _ => a

/-- A read of `n` bytes within one line by a core's scalar port, below its store buffer (R322, R323). -/
def portRead (s : State) (c : CoreId) (a n : Nat) : State × Except AccErr (List Byte) :=
  match target s (ownTile c) a n with
  | .mem m =>
    if cacheable s m then
      match c with
      | .tile t => match l1Demand s t.val (m / 128) with
        | (s, .ok e) => (s, .ok (lineBytes e.data (m % 128) n))
        | (s, .error e) => (s, .error e)
      | .svc v => match dcLoad s v.val (m / 128) with
        | (s, .ok d) => (s, .ok (lineBytes d (m % 128) n))
        | (s, .error e) => (s, .error e)
    else match lineRead s (m / 128) false with
      | (s, none) => (s, .ok (readBytes s.mem m n))
      | (s, some e) => (s, .error e)
  | .scratch t o => match scratchRead s t o n with
    | .ok bs => (s, .ok bs)
    | .error e => (match e.1 with | .uncorr _ => requestSound s (scratchRow t o) | _ => s, .error e.1)
  | _ => (s, .error .bus)

/-- A read within one line as the core sees it, its own buffered writes included. -/
def coreRead (s : State) (c : CoreId) (a n : Nat) : State × Except AccErr (List Byte) :=
  match portRead s c a n with
  | (s, .ok bs) => (s, .ok (overlay (s.core c) (canonAddr c a) bs))
  | (s, .error e) => (s, .error e)

/-- A write of bytes within one line by a core's port, when it is performed (R344). -/
def portWrite (s : State) (c : CoreId) (a : Nat) (bs : List Byte) (full : Bool) : State × Option AccErr :=
  match target s (ownTile c) a bs.length with
  | .mem m =>
    match c with
    | .tile t => if cacheable s m then l1Write s t.val m bs full else lineWrite s m bs
    | .svc _ => lineWrite s m bs
  | .scratch t o => (scratchWrite s t o bs, none)
  | _ => (s, some .bus)

/-! ### Atomics at the near-memory unit or the scratch port (R342, R343) -/

/-- The new value of an atomic of `n` bytes from the old one, the source, and the compare value (R342). F32 addition is
`fadd`, which the number formats supply. -/
def amoNew (fadd : Nat → Nat → Nat) (op : AmoOp) (n old src cmp : Nat) : Nat :=
  let m := 2 ^ (8 * n)
  match op with
  | .add => (old + src) % m
  | .swap => src % m
  | .cas => if old = cmp % m then src % m else old
  | .min => if toInt (8 * n) src < toInt (8 * n) old then src % m else old
  | .max => if toInt (8 * n) old < toInt (8 * n) src then src % m else old
  | .fadd => fadd old (src % m)

/-- An atomic on `n` bytes at a local address, once its own core's cached copy of the line has been written back and
invalidated; the old value. -/
def amoAt (fadd : Nat → Nat → Nat) (s : State) (c : CoreId) (a n : Nat) (op : AmoOp) (src cmp : Nat) :
    State × Except AccErr Nat :=
  match target s (ownTile c) a n with
  | .mem m =>
    let s := match c with | .tile t => l1Flush s t.val (m / 128) | .svc v => dcDrop s v.val (m / 128)
    match lineRead s (m / 128) false with
    | (s, some e) => (s, .error e)
    | (s, none) =>
      let old := ofBytes (readBytes s.mem m n)
      let bs := toBytes n (amoNew fadd op n old src cmp)
      match place s m with
      | some p => (nearWrite s p m bs, .ok old)
      | none => (s, .error .bus)
  | .scratch t o => match scratchRead s t o n with
    | .error e => (s, .error e.1)
    | .ok bs => (scratchWrite s t o (toBytes n (amoNew fadd op n (ofBytes bs) src cmp)), .ok (ofBytes bs))
  | _ => (s, .error .bus)

/-! ### Writes in the store buffer or the merging buffer (R145, R323, R340, R349) -/

/-- Runs of consecutive bytes of a masked entry, as (address, bytes). -/
def runsOf (base : Nat) : List (Nat × Byte) → List (Nat × List Byte)
  | [] => []
  | (o, b) :: ps => match runsOf base ps with
    | (a, bs) :: rest => if base + o + 1 = a then (base + o, b :: bs) :: rest else (base + o, [b]) :: (a, bs) :: rest
    | [] => [(base + o, [b])]

/-- A whole line of zeros at its slice, which the slice's streaming-store detector does not watch (R335, R480). -/
def lineZero (s : State) (a : Nat) : State × Option AccErr :=
  match place s a with
  | none => (s, some .bus)
  | some p =>
    let setDet := fun (s : State) (d : Detector) => s.updStack p.stack fun k =>
      { k with slices := aput k.slices p.ch { aget {} k.slices p.ch with det := d } }
    let r := lineWrite (setDet s {}) a (List.replicate 128 0)
    (setDet r.1 (aget {} (s.stack p.stack).slices p.ch).det, r.2)

/-- `dcz` when it is performed (R340): dirty zeros in the L1 of a cacheable region, zero bytes elsewhere. -/
def dczAt (s : State) (c : CoreId) (a : Nat) : State × Option AccErr :=
  let z := List.replicate 128 (0 : Byte)
  match target s (ownTile c) a 128 with
  | .mem m =>
    match c with
    | .tile t =>
      if cacheable s m then
        match lineErr s (m / 128) with
        | some e => (s, some e)
        | none =>
          let s := s.updL1 t.val fun x => { x with lines := x.lines.filter fun p => p.2.line ≠ m / 128 }
          (l1Install s t.val { line := m / 128, dirty := true, data := 0, use := 0, pf := none }, none)
      else lineZero s m
    | .svc _ => lineZero s m
  | .scratch t o => (scratchWrite s t o z, none)
  | _ => (s, some .bus)

/-- A buffered write is performed (R344): a store or a `dcz` writes its bytes, a posted atomic runs; the failure is a late
store error at the first byte that failed (R145, R146, R149). -/
def performEntry (fadd : Nat → Nat → Nat) (s : State) (c : CoreId) (e : BufEntry) : State :=
  let a := e.addr.toNat
  let late := fun (s : State) (addr : Nat) (err : Option AccErr) => match err with
    | none => s
    | some x => recordLate s c (BitVec.ofNat 64 addr) (lateKind x)
  match e.kind with
  | .dcz =>
    let (s, err) := dczAt s c a
    late s a err
  | .amo op d v =>
    let (s, r) := amoAt fadd s c a (if d then 8 else 4) op v.toNat 0
    late s a (match r with | .error x => some x | .ok _ => none)
  | .misaligned => late s a (some .bus)
  | .store =>
    let r := (runsOf a e.bytes).foldl (fun (acc : State × Option (Nat × AccErr)) p =>
      match acc.2 with
      | some _ => acc
      | none => match portWrite acc.1 c p.1 p.2 false with
        | (s, none) => (s, none)
        | (s, some x) => (s, some (p.1, x))) (s, none)
    match r.2 with
    | none => r.1
    | some x => late r.1 x.1 (some x.2)

/-- The oldest buffered write is performed; one to another module leaves for the Gallery, and fails with a bus error when it
is not naturally aligned, or when no route leads there (R323, R368, R450). -/
def drainOne (fadd : Nat → Nat → Nat) (s : State) (c : CoreId) : State :=
  match (s.core c).sbuf with
  | [] => s
  | e :: es =>
    let s := s.updCore c fun k => { k with sbuf := es }
    if isRemote s e.addr then
      match c with
      | .tile t =>
        let m : GalMsg := .store e.addr (e.bytes.map (·.2)) t.val
        if e.kind = .misaligned || !routed s m then recordLate s c e.addr (lateKind .bus)
        else galSend (s.updCore c fun k => { k with remote := k.remote ++ [e] }) m
      | .svc _ => performEntry fadd s c e
    else performEntry fadd s c e

/-- Every buffered write is performed, oldest first. -/
def drainN (fadd : Nat → Nat → Nat) : Nat → State → CoreId → State
  | 0, s, _ => s
  | n + 1, s, c => drainN fadd n (drainOne fadd s c) c

def drainAll (fadd : Nat → Nat → Nat) (s : State) (c : CoreId) : State := drainN fadd (s.core c).sbuf.length s c

/-- The entry of a merging buffer that a store to line `l` merges into: the youngest of that line, unless it is an atomic (R348). -/
def mergeAt (b : List BufEntry) (l : Nat) : Option Nat :=
  match b.reverse.findIdx? fun e => e.addr.toNat / 128 = l with
  | none => none
  | some i =>
    let j := b.length - 1 - i
    match b[j]? with
    | some e => if e.kind = .store then some j else none
    | none => none

/-- A write enters the buffer of its core: the 8-entry store buffer of a tile, in order; on a service core it updates a cached
copy and merges into the entry of its line, and an entry whose mask is full drains with those before it (R145, R348, R349). -/
def bufferWrite (fadd : Nat → Nat → Nat) (s : State) (c : CoreId) (e : BufEntry) : State :=
  let room := fun (s : State) => if 8 ≤ (s.core c).sbuf.length then drainOne fadd s c else s
  let add := fun (s : State) (e : BufEntry) => (room s).updCore c fun k => { k with sbuf := k.sbuf ++ [e] }
  match c with
  | .tile _ => add s e
  | .svc v =>
    if e.bytes = [] then add s e
    else
      let l := e.addr.toNat / 128
      let s := dcStore s v.val e.addr.toNat (e.bytes.map (·.2))
      let norm : BufEntry := { e with
        addr := BitVec.ofNat 64 (l * 128), bytes := e.bytes.map fun p => (e.addr.toNat % 128 + p.1, p.2) }
      let k := s.core c
      match (mergeAt k.sbuf l).bind fun i => (k.sbuf[i]?).map fun x => (i, x) with
      | some (i, x) =>
        let x' := { norm with bytes := norm.bytes.foldl (fun m p => aput m p.1 p.2) x.bytes }
        let s := s.setCore c { k with sbuf := k.sbuf.set i x' }
        if x'.bytes.length = 128 then drainN fadd (i + 1) s c else s
      | none => if norm.bytes.length = 128 then drainAll fadd (add s norm) c else add s norm

end Sys2Proof.Machine
end

