-- ==== Sys2Proof/Machine/Float.lean ====
section
/-! DEFINITION. The number formats (R212 to R222): exact values as sign, significand and exponent, one rounding, and the arithmetic and conversions built from them. -/

namespace Sys2Proof.Machine

open Sys2Proof

/-- A floating-point format (R212): width, exponent bits, fraction bits, and whether it is E4M3, which has no infinity. -/
structure Fmt where
  w : Nat
  ew : Nat
  mw : Nat
  e4 : Bool := false
  deriving DecidableEq, Repr

def f64 : Fmt := { w := 64, ew := 11, mw := 52 }
def f32 : Fmt := { w := 32, ew := 8, mw := 23 }
def f16 : Fmt := { w := 16, ew := 5, mw := 10 }
def b16 : Fmt := { w := 16, ew := 8, mw := 7 }
def e4m3 : Fmt := { w := 8, ew := 4, mw := 3, e4 := true }
def e5m2 : Fmt := { w := 8, ew := 5, mw := 2 }

def Fmt.bias (f : Fmt) : Int := 2 ^ (f.ew - 1) - 1

/-- The exponent of the smallest spacing: that of subnormal numbers (R212). -/
def Fmt.emin (f : Fmt) : Int := 1 - f.bias - f.mw

/-- The exponent field of all ones. -/
def Fmt.eall (f : Fmt) : Nat := 2 ^ f.ew - 1

/-- The canonical NaN (R213). -/
def Fmt.nan (f : Fmt) : Nat :=
  if f.e4 then 0x7F else f.eall * 2 ^ f.mw + 2 ^ (f.mw - 1)

/-- The pattern of an infinity (R213). -/
def Fmt.inf (f : Fmt) (neg : Bool) : Nat := b2n neg * 2 ^ (f.w - 1) + f.eall * 2 ^ f.mw

/-- The pattern of the largest finite magnitude (R212). -/
def Fmt.maxFin (f : Fmt) : Nat := if f.e4 then 0x7E else f.eall * 2 ^ f.mw - 1

/-- The sign bit of a pattern. -/
def Fmt.sign (f : Fmt) (x : Nat) : Bool := fld x (f.w - 1) 1 = 1

/-- A number: (-1)^neg x m x 2^e, with m = 0 for a signed zero; or an infinity; or a NaN. -/
inductive FVal where
  | nan
  | inf (neg : Bool)
  | fin (neg : Bool) (m : Nat) (e : Int)
  deriving DecidableEq, Repr

/-- The number of a pattern (R212, R213). -/
def Fmt.val (f : Fmt) (x : Nat) : FVal :=
  let s := f.sign x
  let ef := fld x f.mw f.ew
  let fr := fld x 0 f.mw
  if f.e4 then
    if ef = f.eall && fr = 7 then .nan
    else if ef = 0 then .fin s fr f.emin
    else .fin s (2 ^ f.mw + fr) (f.emin + (ef - 1 : Nat))
  else if ef = f.eall then (if fr = 0 then .inf s else .nan)
  else if ef = 0 then .fin s fr f.emin
  else .fin s (2 ^ f.mw + fr) (f.emin + (ef - 1 : Nat))

/-- Exception flags in the order of TILE_VCSR (R178). -/
structure Fx where
  nv : Bool := false
  dz : Bool := false
  of : Bool := false
  uf : Bool := false
  nx : Bool := false
  deriving DecidableEq, Repr

def Fx.or (a b : Fx) : Fx :=
  { nv := a.nv || b.nv, dz := a.dz || b.dz, of := a.of || b.of, uf := a.uf || b.uf, nx := a.nx || b.nx }

/-- Rounding modes of R218; sr draws r from a generator (R219). -/
inductive Rm where
  | rne | rtz | rup | rdn
  | sr (r : Nat)
  deriving DecidableEq, Repr

/-- A rounding-mode code of R218. -/
def rmOf (c : Nat) : Rm := if c = 0 then .rne else if c = 1 then .rtz else if c = 2 then .rup else .rdn

/-- Bits of a number: 0 for 0. -/
def bitLen (n : Nat) : Nat := if n = 0 then 0 else n.log2 + 1

/-- N = n div 2^k, rounded up or not by the mode: the rounded quotient and whether it is exact (R218, R219). -/
def roundShift (rm : Rm) (neg : Bool) (n k : Nat) : Nat × Bool :=
  let q := n / 2 ^ k
  let r := n % 2 ^ k
  if r = 0 then (q, true)
  else
    let up := match rm with
      | .rne => decide (2 ^ k < 2 * r) || (decide (2 * r = 2 ^ k) && decide (q % 2 = 1))
      | .rtz => false
      | .rup => !neg
      | .rdn => neg
      | .sr x => decide (65536 ≤ r * 65536 / 2 ^ k + x)
    (if up then q + 1 else q, false)

/-- The overflow result of R221. -/
def overflowTo (f : Fmt) (rm : Rm) (neg : Bool) : Nat :=
  let big := b2n neg * 2 ^ (f.w - 1) + f.maxFin
  if f.e4 then big
  else match rm with
    | .rne => f.inf neg
    | .rtz => big
    | .rup => if neg then big else f.inf false
    | .rdn => if neg then f.inf true else big
    | .sr _ => big

/-- m x 2^e, m not 0, rounded once into a format (R218, R220, R221), with its flags. Underflow is tininess after rounding
together with inexactness, as for a format whose exponent is unbounded below. -/
def roundTo (f : Fmt) (rm : Rm) (neg : Bool) (m : Nat) (e : Int) : Nat × Fx :=
  let top : Int := e + (m.log2 : Nat)
  let q : Int := max (top - f.mw) f.emin
  let (n, exact) := if q ≤ e then (m * 2 ^ (e - q).toNat, true) else roundShift rm neg m (q - e).toNat
  let (n, q) := if n = 2 ^ (f.mw + 1) then (2 ^ f.mw, q + 1) else (n, q)
  let sgn := b2n neg * 2 ^ (f.w - 1)
  let pat := if n < 2 ^ f.mw then n else (q - f.emin + 1).toNat * 2 ^ f.mw + (n - 2 ^ f.mw)
  if f.maxFin < pat then (overflowTo f rm neg, { of := true, nx := true })
  else
    let qu : Int := top - f.mw
    let (nu, _) := if qu ≤ e then (m * 2 ^ (e - qu).toNat, true) else roundShift rm neg m (qu - e).toNat
    let tiny := decide ((if nu = 2 ^ (f.mw + 1) then top + 1 else top) < f.emin + f.mw)
    (sgn + pat, { uf := !exact && tiny, nx := !exact })

/-- A signed zero. -/
def Fmt.zero (f : Fmt) (neg : Bool) : Nat := b2n neg * 2 ^ (f.w - 1)

/-- An exact integer multiple of 2^e rounded into a format; an exact zero takes the sign `zneg`. -/
def roundInt (f : Fmt) (rm : Rm) (zneg : Bool) (m : Int) (e : Int) : Nat × Fx :=
  if m = 0 then (f.zero zneg, {}) else roundTo f rm (decide (m < 0)) m.natAbs e

/-- m x 2^e as a multiple of 2^e0, for e0 at most e. -/
def alignTo (e0 : Int) (neg : Bool) (m : Nat) (e : Int) : Int :=
  let v : Int := (m * 2 ^ (e - e0).toNat : Nat)
  if neg then -v else v

/-- The sign of a zero sum of two operands (IEEE 754-2019): that of both when they agree, else + except toward minus infinity. -/
def zeroSign (rm : Rm) (s1 s2 : Bool) : Bool := if s1 = s2 then s1 else rm = .rdn

/-- The sum of two exact numbers, rounded once into a format. -/
def addVal (f : Fmt) (rm : Rm) : FVal → FVal → Nat × Fx
  | .nan, _ => (f.nan, {})
  | _, .nan => (f.nan, {})
  | .inf a, .inf b => if a = b then (f.inf a, {}) else (f.nan, { nv := true })
  | .inf a, .fin _ _ _ => (f.inf a, {})
  | .fin _ _ _, .inf b => (f.inf b, {})
  | .fin s1 m1 e1, .fin s2 m2 e2 =>
    if m1 = 0 && m2 = 0 then (f.zero (zeroSign rm s1 s2), {})
    else
      let e0 := if m1 = 0 then e2 else if m2 = 0 then e1 else min e1 e2
      let a := if m1 = 0 then 0 else alignTo e0 s1 m1 e1
      let b := if m2 = 0 then 0 else alignTo e0 s2 m2 e2
      roundInt f rm (rm = .rdn) (a + b) e0

/-- The exact product of two numbers, with the invalid flag of infinity times zero. -/
def mulVal : FVal → FVal → FVal × Bool
  | .nan, _ => (.nan, false)
  | _, .nan => (.nan, false)
  | .inf a, .inf b => (.inf (a != b), false)
  | .inf a, .fin b m _ => if m = 0 then (.nan, true) else (.inf (a != b), false)
  | .fin a m _, .inf b => if m = 0 then (.nan, true) else (.inf (a != b), false)
  | .fin a m e, .fin b n g => (.fin (a != b) (m * n) (e + g), false)

/-- A number rounded into a format (R220, R221): an infinity stays one, but in E4M3 it is NaN. -/
def roundVal (f : Fmt) (rm : Rm) : FVal → Nat × Fx
  | .nan => (f.nan, {})
  | .inf s => (if f.e4 then f.nan else f.inf s, {})
  | .fin s m e => if m = 0 then (f.zero s, {}) else roundTo f rm s m e

/-- The negative of a number. -/
def FVal.neg : FVal → FVal
  | .nan => .nan
  | .inf s => .inf (!s)
  | .fin s m e => .fin (!s) m e

def fpAdd (f : Fmt) (rm : Rm) (x y : Nat) : Nat × Fx := addVal f rm (f.val x) (f.val y)
def fpSub (f : Fmt) (rm : Rm) (x y : Nat) : Nat × Fx := addVal f rm (f.val x) (f.val y).neg

def fpMul (f : Fmt) (rm : Rm) (x y : Nat) : Nat × Fx :=
  let (p, nv) := mulVal (f.val x) (f.val y)
  let (r, fx) := roundVal f rm p
  (r, { fx with nv := nv })

/-- x y + z, rounded once (R175). -/
def fmaVal (f : Fmt) (rm : Rm) (x y z : FVal) : Nat × Fx :=
  let (p, nv) := mulVal x y
  let (r, fx) := addVal f rm p z
  (r, { fx with nv := fx.nv || nv })

/-- The quotient of two numbers, rounded once; a sticky bit stands below the quotient. -/
def divVal (f : Fmt) (rm : Rm) : FVal → FVal → Nat × Fx
  | .nan, _ => (f.nan, {})
  | _, .nan => (f.nan, {})
  | .inf _, .inf _ => (f.nan, { nv := true })
  | .inf a, .fin b _ _ => (f.inf (a != b), {})
  | .fin a _ _, .inf b => (f.zero (a != b), {})
  | .fin a m e, .fin b n g =>
    if n = 0 then (if m = 0 then (f.nan, { nv := true }) else (f.inf (a != b), { dz := true }))
    else if m = 0 then (f.zero (a != b), {})
    else
      let k := f.mw + 3 + bitLen n
      let q := m * 2 ^ k / n
      let st := if m * 2 ^ k % n = 0 then 0 else 1
      roundTo f rm (a != b) (2 * q + st) (e - g - k - 1)

def fpDiv (f : Fmt) (rm : Rm) (x y : Nat) : Nat × Fx := divVal f rm (f.val x) (f.val y)

/-- The square root, rounded once. -/
def fpSqrt (f : Fmt) (rm : Rm) (x : Nat) : Nat × Fx :=
  match f.val x with
  | .nan => (f.nan, {})
  | .inf s => if s then (f.nan, { nv := true }) else (f.inf false, {})
  | .fin s m e =>
    if m = 0 then (f.zero s, {})
    else if s then (f.nan, { nv := true })
    else
      let k := 2 * f.mw + 6
      let (m, e) := if e % 2 = 0 then (m, e) else (2 * m, e - 1)
      let r := Nat.sqrt (m * 2 ^ k)
      let st := if r * r = m * 2 ^ k then 0 else 1
      roundTo f rm false (2 * r + st) (e / 2 - (k / 2 : Nat) - 1)

/-- Order of two numbers that are not NaN: less, equal (zeros compare equal). -/
def ltVal : FVal → FVal → Bool
  | .inf a, .inf b => a && !b
  | .inf a, .fin _ _ _ => a
  | .fin _ _ _, .inf b => !b
  | .fin s m e, .fin t n g =>
    let e0 := min e g
    decide (alignTo e0 s m e < alignTo e0 t n g)
  | _, _ => false

def eqVal : FVal → FVal → Bool
  | .inf a, .inf b => a = b
  | .fin s m e, .fin t n g =>
    let e0 := min e g
    decide (alignTo e0 s m e = alignTo e0 t n g)
  | _, _ => false

/-- A signalling NaN: a NaN whose first fraction bit is 0. -/
def Fmt.snan (f : Fmt) (x : Nat) : Bool := f.val x = .nan && fld x (f.mw - 1) 1 = 0

/-- A conversion between floating-point formats (R220, R221). -/
def fpCvt (src dst : Fmt) (rm : Rm) (x : Nat) : Nat × Fx := roundVal dst rm (src.val x)

/-- An integer rounded into a format (R222). -/
def intToF (f : Fmt) (rm : Rm) (x : Int) : Nat × Fx := roundInt f rm false x 0

/-- A number rounded to an integer and saturated to [lo, hi]; NaN gives 0 (R222). Saturation and NaN are invalid. -/
def valToInt (rm : Rm) (lo hi : Int) : FVal → Int × Fx
  | .nan => (0, { nv := true })
  | .inf s => (if s then lo else hi, { nv := true })
  | .fin s m e =>
    let (n, exact) := if 0 ≤ e then (m * 2 ^ e.toNat, true) else roundShift rm s m (-e).toNat
    let v : Int := if s then -(n : Int) else n
    if v < lo then (lo, { nv := true }) else if hi < v then (hi, { nv := true }) else (v, { nx := !exact })

/-- F32 addition of the near-memory unit and of `amofadd.f32` (R342, R343). -/
def faddF32 (x y : Nat) : Nat := (fpAdd f32 .rne x y).1

/-- The exact sum of finite numbers as a multiple of 2^e0, for e0 at most each exponent. -/
def sumAt (e0 : Int) (vs : List (Bool × Nat × Int)) : Int :=
  vs.foldl (fun a v => a + alignTo e0 v.1 v.2.1 v.2.2) 0

/-- The least exponent of a list of numbers. -/
def minExp (vs : List (Bool × Nat × Int)) : Int :=
  match vs with
  | [] => 0
  | v :: vs => vs.foldl (fun a w => min a w.2.2) v.2.2

/-- The histogram bin of a written value (R238). -/
def histBin (f : Fmt) (x : Nat) : Nat :=
  match f.val x with
  | .nan => 63
  | .inf _ => 62
  | .fin _ m _ =>
    if m = 0 then 0
    else if fld x f.mw f.ew = 0 then 1
    else
      let e : Int := (fld x f.mw f.ew : Nat) - f.bias
      if e < -120 then 2 else if 119 < e then 61 else (2 + (e + 120) / 4).toNat

/-- A tensor output has no negative zero (R232). -/
def noNegZero (f : Fmt) (x : Nat) : Nat := if x = f.zero true then 0 else x

end Sys2Proof.Machine
end

