-- ==== Sys2Proof/Machine/Trap.lean ====
section
/-! DEFINITION. Taking a trap and returning from one: the frame, entry at a level, Backstop, the halt of a fault in Backstop, and `eret` (R117 to R137). -/

namespace Sys2Proof.Machine

open Sys2Proof

/-- An event that leaves the program, with the parts of its cause word (R118). -/
structure Trap where
  code : Nat
  sub : Nat := 0
  addr : Word := 0
  split : Bool := false
  half : Bool := false
  async : Bool := false
  deriving DecidableEq, Repr

/-- Cause codes of R119, R204 and R282. -/
def cIllegal : Nat := 0x01
def cIalign : Nat := 0x02
def cPriv : Nat := 0x03
def cFetchWin : Nat := 0x04
def cLoadWin : Nat := 0x05
def cStoreWin : Nat := 0x06
def cFetchBus : Nat := 0x07
def cLoadBus : Nat := 0x08
def cMemUncorr : Nat := 0x09
def cThermal : Nat := 0x0A
def cTrap : Nat := 0x0B
def cTimerBusy : Nat := 0x0C
def cCop : Nat := 0x0D
def cEscalate : Nat := 0x30
def cEntry : Nat := 0x31
def cEretFrame : Nat := 0x32
def cVaddr : Nat := 0x40
def cVgrp : Nat := 0x41
def cVfmt : Nat := 0x42
def cVstate : Nat := 0x43

/-- A read of a core's own port in program order (R345): a posted atomic on the same line is performed first. -/
def coreLoad (s : State) (c : CoreId) (a n : Nat) : State × Except AccErr (List Byte) :=
  let amo := fun (e : BufEntry) => match e.kind with
    | .amo _ _ _ => decide (e.addr.toNat / 128 = canonAddr c a / 128)
    | _ => false
  coreRead (if (s.core c).sbuf.any amo then drainAll faddF32 s c else s) c a n

/-- TILE_STATUS as a word (R117). -/
def Status.word (x : Status) : Word := pack [(b2n x.bs, 8), (x.ml.toNat, 4), (b2n x.lvl, 0)]

/-- FL as a word (R67). -/
def Flags.word (x : Flags) : Word := pack [(b2n x.n, 3), (b2n x.z, 2), (b2n x.c, 1), (b2n x.v, 0)]

def flagsOf (w : Word) : Flags := { n := wbit w 3, z := wbit w 2, c := wbit w 1, v := wbit w 0 }

/-- The cause word of an event (R118), taken in code at the level `klvl`. -/
def causeWord (t : Trap) (orig : Nat) (klvl : Bool) : Word :=
  pack [(orig, 24), (b2n t.async, 19), (b2n t.half, 18), (b2n t.split, 17), (b2n klvl, 16), (t.sub, 8), (t.code, 0)]

/-- A data failure of a load, an atomic or a fetch as a fault (R119, R120). -/
def accTrap (busCode : Nat) (e : AccErr) (a : Word) : Trap :=
  match e with
  | .bus => { code := busCode, addr := a }
  | .thermal k => { code := cThermal, sub := k, addr := a }
  | .uncorr n => { code := cMemUncorr, sub := n, addr := a }

/-- TILE_VSTART of a core: 0 on Zaham-S (R125). -/
def vstartOf (s : State) : CoreId → Nat
  | .tile t => (s.tile t.val).vec.vstart
  | .svc _ => 0

/-- Steps that the issue stage spends: they count in TILE_STEPS, and stall steps in TILE_STALL as well (R36, R59). -/
def addSteps (s : State) (c : CoreId) (work : Nat) : State :=
  s.updCore c fun k => { k with steps := k.steps + BitVec.ofNat 64 work }

def addStall (s : State) (c : CoreId) : State :=
  let n := BitVec.ofNat 64 (Config.freeStall s.free)
  (s.updCore c fun k => { k with steps := k.steps + n, stall := k.stall + n }).tick

/-- The decode of a frame address (R127): local module memory in service, or the tile's own scratch. -/
def frameOk (s : State) (c : CoreId) (a : Word) : Bool :=
  match localAddr s a with
  | none => false
  | some l => match target s (ownTile c) l 128 with
    | .mem _ => true
    | .scratch t _ => ownTile c = some t
    | _ => false

/-- The address s31 has in a Backstop frame: offset 0x1F80 of the tile's block (R135); a service core's lies in its own
private space. -/
def bstkAddr : CoreId → Word
  | .tile t => BitVec.ofNat 64 (tileRegs t.val + 0x1F80)
  | .svc v => Config.svcBstk v.val

/-- The frame of R125: the interrupted state, cause and address. -/
def frameBytes (s : State) (c : CoreId) (epc cause addr : Word) : List Byte :=
  let k := s.core c
  let ws : List Word :=
    [epc, k.status.word, k.fl.word, cause, addr, k.reg 31, aget 0 k.lc 0, aget 0 k.lc 1, aget 0 k.lc 2, aget 0 k.lc 3,
      BitVec.ofNat 64 (vstartOf s c), 0, 0, 0, 0, 0]
  ws.flatMap fun w => toBytes 8 w.toNat

/-- A frame is written past the store buffer, after any buffered write to its line; a write that fails after the decode is
a late store error (R121, R127), as is one into the graph region (R541). -/
def writeFrame (s : State) (c : CoreId) (a : Nat) (bs : List Byte) : State :=
  let a := canonAddr c a
  let s := if (s.core c).sbuf.any fun e => e.addr.toNat / 128 = a / 128 then drainAll faddF32 s c else s
  if inGraphRegion s a bs.length then recordLate s c (BitVec.ofNat 64 a) (lateKind .bus)
  else match portWrite s c a bs false with
  | (s, none) => s
  | (s, some e) => recordLate s c (BitVec.ofNat 64 a) (lateKind e)

/-- What every entry leaves in the core (R126 step 11): the saved registers, kernel level, and no loop count. -/
def entered (k : Core) (ml : BitVec 3) (bs : Bool) (frame epc cause addr pc : Word) : Core :=
  { (k.setReg 31 frame) with
    status := { bs := bs, ml := ml, lvl := true }, lc := [], epc := epc, ecause := cause, eaddr := addr, pc := pc
    run := .running, strData := [], fwin := none }

/-- Entry into Backstop (R132, R134, R135): its frame lies in BSTK, and nothing of an abandoned entry is written. -/
def enterBackstop (s : State) (c : CoreId) (code : Nat) (t : Trap) (epc : Word) : State :=
  let k := s.core c
  let cause := causeWord { t with code := code, sub := 0, async := false } (if code = cEretFrame then 0 else t.code) k.status.lvl
  let fr := frameBytes s c epc cause t.addr
  let s := addSteps s c (if code = cEntry then 16 else 14)
  s.updCore c fun k =>
    { entered k 7 true (bstkAddr c) epc cause t.addr k.bsvec with bstk := writeBytes k.bstk 0xF80 fr }

/-- Entry into the handler of an event of level `level` (R124 to R128). -/
def enterLevel (s : State) (c : CoreId) (level : Nat) (t : Trap) (epc : Word) : State :=
  let k := s.core c
  let frame := ((if k.status.lvl then k.reg 31 else k.ksp) - 128) &&& ~~~(0x7F#64)
  let cause := causeWord t 0 k.status.lvl
  match frameOk s c frame, localAddr s frame with
  | true, some l =>
    let s := writeFrame s c l (frameBytes s c epc cause t.addr)
    (addSteps s c 14).updCore c fun k =>
      entered k (BitVec.ofNat 3 level) false frame epc cause t.addr (k.evec + BitVec.ofNat 64 (0x40 * level))
  | _, _ => enterBackstop s c cEntry t epc

/-- What the firmware's level-7 handler does for an event of task code (R520, R521, R656): the command that holds the tile
fails with the event's code, or the tile's part of it ends. -/
def firmwareReport (s : State) (c : CoreId) (t : Trap) (epc : Word) : State :=
  match c with
  | .svc _ => s
  | .tile n =>
    let tile := n.val
    if t.code = cTrap then
      let s := s.updTile tile fun x => { x with ending := some t.addr }
      if t.addr = 0 then s
      else if t.addr = 1 then failTile s tile 11 ((s.tile tile).core.reg 4).toNat 0 0 0
      else failTile s tile 12 (BitVec.ofNat 16 tile) 0 0 0
    else
      let s := s.updTile tile fun x => { x with ending := some (BitVec.allOnes 64) }
      failTile s tile (faultCode t.code) (BitVec.ofNat 16 tile) t.addr epc (s.tile tile).core.ecause

/-- The source under which a core's errors are logged (R681). -/
def coreSrc : CoreId → BitVec 16
  | .tile t => srcTile t.val
  | .svc v => logSrc 8 v.val

/-- A synchronous event (R128, R132, R134, R137): the level-7 handler, or Backstop when ml is 7, or a halt in Backstop. -/
def takeFault (s : State) (c : CoreId) (t : Trap) (epc : Word) : State :=
  let k := s.core c
  let s := if t.code = cMemUncorr then contError s (coreSrc c) 0x02 t.addr.toNat else s
  if k.status.bs then
    let s := s.updCore c fun k => { k with ecause := causeWord t 0 k.status.lvl, eaddr := t.addr, run := .halted }
    haltReport s c
  else if k.status.ml = 7 then enterBackstop s c cEscalate t epc
  else
    let task := !k.status.lvl
    let s := enterLevel s c 7 t epc
    if task && !(s.core c).status.bs then firmwareReport s c t epc else s

/-- An interrupt of level `l` is taken (R138, R144, R146, R656): it ends a wait on `waitq`, whose timer entry is freed. -/
def takeInterrupt (s : State) (c : CoreId) (l : Nat) (epc : Word) : State :=
  let s := s.updCore c fun k => match k.run with
    | .parked p => match p.timer with
      | some i => { k with t0 := aput k.t0 i { aget {} k.t0 i with busy := false, waitq := false } }
      | none => k
    | _ => k
  let addr := if l = 5 then (s.core c).lse else 0
  let kind := (s.core c).lseKind
  let s := enterLevel s c l { code := 0x80 + l, addr := addr, async := true } epc
  if l = 5 && !(s.core c).status.bs then
    match c with
    | .tile n => failTile s n.val (if kind = 2 then 14 else 9) (BitVec.ofNat 16 n.val) addr epc (s.core c).ecause
    | .svc _ => s
  else s

/-- A frame as read back by `eret`. -/
def frameWord (bs : List Byte) (i : Nat) : Word := wordOf ((bs.drop (8 * i)).take 8)

/-- Where `eret` finds its frame (R129, R135): local memory, own scratch, or, in Backstop, the Backstop frame's stack. -/
inductive FrameAt where
  | bad
  | bstk (off : Nat)
  | port (a : Nat)
  deriving DecidableEq, Repr

def eretFrame (s : State) (c : CoreId) : FrameAt :=
  let k := s.core c
  let a := k.reg 31
  let base := bstkAddr c - 0xF80
  if wfld a 0 7 ≠ 0 then .bad
  else if k.status.bs && decide (base ≤ a) && decide (a < base + 0x1000) then .bstk (a - base).toNat
  else if frameOk s c a then (match localAddr s a with | some l => .port l | none => .bad)
  else .bad

/-- What `eret` restores (R92, R129, R136). bs becomes 0 whatever the frame holds (DESIGN CHOICE: R129 does not say what a 1 in
the bs bit of a frame restores; log 92). -/
def restored (k : Core) (bs : List Byte) : Core :=
  let st := frameWord bs 1
  { ((k.setReg 31 (frameWord bs 5)).setFl (flagsOf (frameWord bs 2))) with
    status := { bs := false, ml := BitVec.ofNat 3 (wfld st 4 3), lvl := wbit st 0 }
    lc := [0, 1, 2, 3].foldl (fun m i => aset 0 m i (BitVec.ofNat 64 (wfld (frameWord bs (6 + i)) 0 32))) [] }

end Sys2Proof.Machine
end

