-- ==== Sys2Proof/Machine/Fetch.lean ====
section
/-! DEFINITION. Instruction fetch: the instruction cache, the fetch window, the fetch of one instruction, and what `ifl` invalidates (R62, R70, R104 to R107, R114, R119, R120, R323). -/

namespace Sys2Proof.Machine

open Sys2Proof

/-! ### The instruction cache -/

/-- Lines of 128 bytes in the instruction cache: 64 KiB on a tile, 32 KiB on a service core (R62). -/
def icLines : CoreId → Nat
  | .tile _ => 512
  | .svc _ => 256

/-- A line enters the instruction cache. The spec gives it no ways: which line leaves a full cache is free (log 91). -/
def icPut (s : State) (c : CoreId) (key : Nat) (d : BitVec 1024) : State :=
  let m := (s.core c).icache
  if m.length < icLines c then s.updCore c fun k => { k with icache := aput m key d }
  else (s.updCore c fun k =>
    { k with icache := aput (m.eraseIdx ((Config.freeWord s.free).toNat % m.length)) key d }).tick

/-- The 128-byte line of a local address as the data side holds it: the tile's L1, or the service core's data cache and merging
buffer. -/
def dataLine (s : State) (c : CoreId) (l : Nat) : State × Except AccErr (List Byte) :=
  match c with
  | .tile _ => portRead s c (l / 128 * 128) 128
  | .svc _ => coreRead s c (l / 128 * 128) 128

/-- The line of a local address in the instruction cache, which a miss fills. -/
def icLine (s : State) (c : CoreId) (l : Nat) : State × Except AccErr (BitVec 1024) :=
  match afind (s.core c).icache (canonAddr c l / 128) with
  | some d => (s, .ok d)
  | none => match dataLine s c l with
    | (s, .error e) => (s, .error e)
    | (s, .ok bs) => (icPut s c (canonAddr c l / 128) (lineOfBytes bs), .ok (lineOfBytes bs))

/-- The instruction cache holds the line of an address. -/
def icHit (s : State) (c : CoreId) (a : Word) : Bool :=
  match localAddr s a with
  | some l => ahas (s.core c).icache (canonAddr c l / 128)
  | none => false

/-! ### The fetch window (R104, R105) -/

/-- Bytes of one or more lines, as (first byte, bytes) of each; the first failure. -/
def fetchSpans (c : CoreId) : List (Word × Nat) → State → State × Except AccErr (List Byte)
  | [], s => (s, .ok [])
  | p :: ps, s => match localAddr s p.1 with
    | none => (s, .error .bus)
    | some l => match icLine s c l with
      | (s, .error e) => (s, .error e)
      | (s, .ok d) => match fetchSpans c ps s with
        | (s, .ok bs) => (s, .ok (lineBytes d (l % 128) p.2 ++ bs))
        | (s, .error e) => (s, .error e)

/-- The core fetches ahead only what it may execute and can read. -/
def aheadOk (s : State) (c : CoreId) (p : Word × Nat) : Bool :=
  permitted s c p.1 p.2 rightX && (icHit s c p.1 ||
    match localAddr s p.1 with
    | none => false
    | some l => match target s (ownTile c) (l / 128 * 128) 128 with
      | .mem m => (lineFail s (m / 128)).isNone
      | .scratch t o => match scratchRead s t o 128 with | .ok _ => true | .error _ => false
      | _ => false)

/-- What the window holds from an address on. -/
def windowBytes (k : Core) (a : Word) : List Byte :=
  match k.fwin with
  | some (b, bs) => bs.drop (a - b).toNat
  | none => []

/-- Bytes in the window once an instruction of `n` bytes is in issue (R104). -/
def winBytes (n : Nat) : Nat := min (n + 32) 36

/-- The instruction of `n` bytes at the pc is fetched, and the window filled behind it as far as that can be had (R104, R105,
log 91); or the fault of the fetch, at the address of the first half (R70, R114, R119, R120, R323). -/
def fetch (s : State) (c : CoreId) (n : Nat) : State × Except Trap (List Byte) :=
  let pc := (s.core c).pc
  if (firstDenied (fun x m => permitted s c x m rightX) pc n).isSome then (s, .error { code := cFetchWin, addr := pc })
  else
    let held := windowBytes (s.core c) pc
    match fetchSpans c (spans 3 (pc + BitVec.ofNat 64 held.length) (n - held.length)) s with
    | (s, .error e) => (s, .error (accTrap cFetchBus e pc))
    | (s, .ok bs) =>
      let cur := held ++ bs
      let more := (spans 3 (pc + BitVec.ofNat 64 cur.length) (winBytes n - cur.length)).takeWhile (aheadOk s c)
      let r := fetchSpans c more s
      (r.1.updCore c fun k => { k with fwin := some (pc, cur ++ (match r.2 with | .ok xs => xs | .error _ => [])) },
        .ok (cur.take n))

/-- A fetch of the window has to wait for the data side (R36, R105). -/
def fetchMiss (s : State) (c : CoreId) (n : Nat) : Bool :=
  let pc := (s.core c).pc
  let held := windowBytes (s.core c) pc
  (spans 3 (pc + BitVec.ofNat 64 held.length) (winBytes n - held.length)).any fun p => !icHit s c p.1

/-! ### `ifl` (R107) -/

/-- Line `r` of 128 bytes holds a byte of the `n` bytes from `a` on. -/
def lineMeets (a : Word) (n : Nat) (r : Word) : Bool := n ≠ 0 && (decide ((r - a).toNat < n) || decide ((a - r).toNat < 128))

/-- The addresses under which a core reaches line `key`: local, global, and those of its own scratch by the alias. -/
def lineNames (s : State) (c : CoreId) (key : Nat) : List Word :=
  let l := key * 128
  let alias_ := match c with
    | .tile t => if scratchAddr t.val 0 ≤ l && l < scratchAddr t.val 0 + 0x80000 then [0xFC00000000 + (l - scratchAddr t.val 0)] else []
    | .svc _ => []
  (l :: alias_).flatMap fun x => [BitVec.ofNat 64 x, BitVec.ofNat 64 (s.gid.toNat * 2 ^ 40 + x)]

/-- The lines of the instruction cache that hold a byte of the range are invalidated, and the window. -/
def iflRange (s : State) (c : CoreId) (a : Word) (n : Nat) : State :=
  s.updCore c fun k => { k with
    icache := k.icache.filter fun p => !((lineNames s c p.1).any (lineMeets a n)), fwin := none }

/-- The whole instruction cache and the window are invalidated. -/
def iflAll (s : State) (c : CoreId) : State := s.updCore c fun k => { k with icache := [], fwin := none }

/-! ### Stall steps at issue (R36, R83) -/

/-- Stall steps, which TILE_STEPS and TILE_STALL both count (R36, R59). -/
def stallBy (s : State) (c : CoreId) (n : Nat) : State :=
  s.updCore c fun k => { k with steps := k.steps + BitVec.ofNat 64 n, stall := k.stall + BitVec.ofNat 64 n }

/-- The steps that are still missing until a reader of the keys `ks` may issue (R83). -/
def shortfall (k : Core) (ks : List Nat) : Nat := ks.foldl (fun m i => max m ((aget 0 k.ready i).toNat - k.steps.toNat)) 0

/-- The flags and the divider as keys of what is awaited. -/
def keyFl : Nat := 32
def keyDiv : Nat := 33
def keyHash : Nat := 34

/-- The fetch of an instruction of `n` bytes that reads the keys `ks`, with its stall steps: those of a fetch that waits are
free (log 2), those of an operand are the shortfall. -/
def prep (s : State) (c : CoreId) (ks : List Nat) (n : Nat) : State × Except Trap (List Byte) :=
  let r := fetch s c n
  let s1 := if fetchMiss s c n then addStall r.1 c else r.1
  match r.2 with
  | .error t => (s1, .error t)
  | .ok bs => (stallBy s1 c (shortfall (s1.core c) ks), .ok bs)

end Sys2Proof.Machine
end

