-- ==== Sys2Proof/Machine/VecOps.lean ====
section
/-! DEFINITION. The long-vector unit: elements, masks and activity, the decode checks, and the arithmetic of every register-to-register vector instruction (R161 to R192). -/

namespace Sys2Proof.Machine

open Sys2Proof

/-! ### Configuration -/

/-- Element width in bits and in bytes, group, and VLMAX (R162, R164). -/
def VCfg.bits (c : VCfg) : Nat := 8 * 2 ^ c.ew.toNat
def VCfg.bytes (c : VCfg) : Nat := 2 ^ c.ew.toNat
def VCfg.g (c : VCfg) : Nat := 2 ^ c.grp.toNat
def VCfg.vlmax (c : VCfg) : Nat := 16384 * c.g / c.bits

/-- The floating-point format of a width in bits (R179). -/
def fmtOf (bits : Nat) (bf : Bool) : Fmt :=
  if bits = 64 then f64 else if bits = 32 then f32 else if bf then b16 else f16

def VCfg.fmt (c : VCfg) : Fmt := fmtOf c.bits c.f16

/-- TILE_VCFG as a word (R164). -/
def VCfg.word (c : VCfg) : Word := pack [(c.vl, 32), (b2n c.f16, 10), (c.grp.toNat, 8), (c.ew.toNat, 0)]

/-- TILE_VCSR as a word (R178). -/
def VCsr.word (c : VCsr) : Word :=
  pack [(c.rm.toNat, 6), (b2n c.nv, 4), (b2n c.dz, 3), (b2n c.of, 2), (b2n c.uf, 1), (b2n c.nx, 0)]

def vcsrOf (w : Word) : VCsr :=
  { rm := BitVec.ofNat 2 (wfld w 6 2), nv := wbit w 4, dz := wbit w 3, of := wbit w 2, uf := wbit w 1, nx := wbit w 0 }

/-- Flags only accumulate (R178). -/
def VCsr.add (c : VCsr) (f : Fx) : VCsr :=
  { c with nv := c.nv || f.nv, dz := c.dz || f.dz, of := c.of || f.of, uf := c.uf || f.uf, nx := c.nx || f.nx }

/-! ### Elements and masks -/

/-- Element i, of n bytes, of the group that begins at register r (R161). -/
def Vec.el (v : Vec) (r : Reg) (n i : Nat) : Nat := ofBytes (readBytes v.vregs (2048 * r.toNat + i * n) n)

def Vec.setEl (v : Vec) (r : Reg) (n i x : Nat) : Vec :=
  { v with vregs := writeBytes v.vregs (2048 * r.toNat + i * n) (toBytes n x) }

/-- Bit i of a mask register; m0 reads as all ones (R170). -/
def Vec.mask (v : Vec) (m i : Nat) : Bool := if m = 0 then true else aget false v.masks (16384 * m + i)

def Vec.setMask (v : Vec) (m i : Nat) (b : Bool) : Vec :=
  if m = 0 then v else { v with masks := aset false v.masks (16384 * m + i) b }

/-- Element i is active (R169). -/
def VEntry.active (x : VEntry) (v : Vec) (vm : MaskNo) (i : Nat) : Bool :=
  decide (x.vstart ≤ i) && decide (i < x.cfg.vl) && v.mask vm.toNat i

/-- The active elements in order. -/
def VEntry.actives (x : VEntry) (v : Vec) (vm : MaskNo) : List Nat :=
  (List.range x.cfg.vl).filter fun i => x.active v vm i

/-- Every active element of the destination takes its value and its flags, from the sources as they stood (R171, R198). -/
def vmap (x : VEntry) (v : Vec) (vm : MaskNo) (vd : Reg) (n : Nat) (f : Nat → Nat × Fx) : Vec :=
  (x.actives v vm).foldl (fun w i =>
    let r := f i
    { w.setEl vd n i r.1 with csr := w.csr.add r.2 }) v

/-- Every active bit of the destination mask takes its value and flags. -/
def vmapMask (x : VEntry) (v : Vec) (vm : MaskNo) (md : Nat) (f : Nat → Bool × Fx) : Vec :=
  (x.actives v vm).foldl (fun w i =>
    let r := f i
    { w.setMask md i r.1 with csr := w.csr.add r.2 }) v

/-- The second operand: an element of vs2, or the low bits of sN (R175). -/
def opB (x : VEntry) (v : Vec) (f : VR) (i : Nat) : Nat :=
  if f.s then x.scal.toNat % 2 ^ x.cfg.bits else v.el f.vs2 x.cfg.bytes i

/-- An integer operation on two elements. -/
def vint (x : VEntry) (v : Vec) (f : VR) (op : Nat → Nat → Nat → Nat) : Vec :=
  let n := x.cfg.bytes
  vmap x v f.vm f.vd n fun i => (op x.cfg.bits (v.el f.vs1 n i) (opB x v f i) % 2 ^ x.cfg.bits, {})

/-- A floating-point operation on two elements. -/
def vfp (x : VEntry) (v : Vec) (f : VR) (op : Fmt → Rm → Nat → Nat → Nat × Fx) : Vec :=
  let n := x.cfg.bytes
  vmap x v f.vm f.vd n fun i => op x.cfg.fmt (rmOf x.rm.toNat) (v.el f.vs1 n i) (opB x v f i)

/-- `vfmin` and `vfmax` (R177): the other operand of one NaN, the canonical NaN of two, and -0 below +0. -/
def fpMinMax (f : Fmt) (mx : Bool) (a b : Nat) : Nat :=
  let va := f.val a
  let vb := f.val b
  if va = .nan && vb = .nan then f.nan
  else if va = .nan then b
  else if vb = .nan then a
  else
    let lt := ltVal va vb || (eqVal va vb && f.sign a && !f.sign b)
    if lt = mx then b else a

/-- The sign of an element changed or cleared; a NaN gives the canonical NaN (R175). -/
def fpSign (f : Fmt) (neg : Bool) (a : Nat) : Nat :=
  if f.val a = .nan then f.nan
  else
    let m := a % 2 ^ (f.w - 1)
    if neg then m + (if f.sign a then 0 else 2 ^ (f.w - 1)) else m

/-- The four fused forms (R175): product and addend negated or not. -/
def fma3 (f : Fmt) (rm : Rm) (np na : Bool) (a b c : Nat) : Nat × Fx :=
  let va := if np then (f.val a).neg else f.val a
  let vc := if na then (f.val c).neg else f.val c
  let r := fmaVal f rm va (f.val b) vc
  if f.val c = .nan && (mulVal va (f.val b)).2 then (r.1, { r.2 with nv := Config.fmaNanInvalid }) else r

/-- An instruction of the fused family. -/
def vfma4 (x : VEntry) (v : Vec) (f : VF) (np na : Bool) : Vec :=
  let n := x.cfg.bytes
  vmap x v f.vm f.vd n fun i =>
    let b := if f.s then x.scal.toNat % 2 ^ x.cfg.bits else v.el f.vs2 n i
    fma3 x.cfg.fmt (rmOf x.rm.toNat) np na (v.el f.vs1 n i) b (v.el f.vs3 n i)

/-- The compares of R183: the relation on numbers, and whether every NaN signals. -/
def fpCmp (f : Fmt) (rel : FVal → FVal → Bool) (nanVal quiet : Bool) (a b : Nat) : Bool × Fx :=
  let va := f.val a
  let vb := f.val b
  if va = .nan || vb = .nan then
    (nanVal, { nv := if quiet then f.snan a || f.snan b else true })
  else (rel va vb, {})

def vfcmp (x : VEntry) (v : Vec) (f : VR) (rel : FVal → FVal → Bool) (nanVal quiet : Bool) : Vec :=
  let n := x.cfg.bytes
  vmapMask x v f.vm f.vd.toNat fun i => fpCmp x.cfg.fmt rel nanVal quiet (v.el f.vs1 n i) (opB x v f i)

def vicmp (x : VEntry) (v : Vec) (f : VR) (rel : Nat → Nat → Nat → Bool) : Vec :=
  let n := x.cfg.bytes
  vmapMask x v f.vm f.vd.toNat fun i => (rel x.cfg.bits (v.el f.vs1 n i) (opB x v f i), {})

/-- Mask logic on bits VSTART to VL - 1 (R175). -/
def vmlogic (x : VEntry) (v : Vec) (f : VR) (op : Bool → Bool → Bool) : Vec :=
  vmapMask x v 0 f.vd.toNat fun i => (op (v.mask f.vs1.toNat i) (v.mask f.vs2.toNat i), {})

/-- One level of the tree of R184 on a list of 2^k values: neighbours at distance w. -/
def treeReduce (op : Nat → Nat → Nat × Fx) : Nat → List Nat → List Nat × Fx
  | 0, t => (t, {})
  | k + 1, t =>
    let rec pairs : List Nat → List Nat × Fx
      | a :: b :: r =>
        let (c, f1) := op a b
        let (cs, f2) := pairs r
        (c :: cs, f1.or f2)
      | r => (r, {})
    let (t', f) := pairs t
    let (t'', f') := treeReduce op k t'
    (t'', f.or f')

/-- A reduction over VLMAX places, inactive ones at the identity (R184, R186). -/
def vreduce (x : VEntry) (v : Vec) (f : VR) (ident : Nat) (op : Nat → Nat → Nat × Fx) : Nat × Fx :=
  let n := x.cfg.bytes
  let t := (List.range x.cfg.vlmax).map fun i => if x.active v f.vm i then v.el f.vs1 n i else ident
  let r := treeReduce op (Nat.log2 x.cfg.vlmax) t
  (r.1.headD ident, r.2)

/-- The exact sum of products and the destination, rounded once (R182). -/
def dotFloat (rm : Rm) (acc : FVal) (ps : List (FVal × Bool)) : Nat × Fx :=
  let vs := acc :: ps.map (·.1)
  let bad := ps.any (·.2) || vs.any fun p => p = .nan
  let pinf := vs.any fun p => p = .inf false
  let ninf := vs.any fun p => p = .inf true
  if bad || (pinf && ninf) then (f32.nan, { nv := true })
  else if pinf then (f32.inf false, {})
  else if ninf then (f32.inf true, {})
  else
    let fs := vs.filterMap fun p => match p with | .fin s m e => some (s, m, e) | _ => none
    let nz := fs.filter fun p => p.2.1 ≠ 0
    if nz = [] then
      let allNeg := fs.all fun p => p.1
      let allPos := fs.all fun p => !p.1
      (f32.zero (if allNeg then true else if allPos then false else rm = .rdn), {})
    else
      let e0 := minExp nz
      roundInt f32 rm (rm = .rdn) (sumAt e0 nz) e0

/-- `vdot` in a floating-point form: k terms of format pair (fa, fb) per destination element (R182). -/
def vdotF (x : VEntry) (v : Vec) (f : VR) (fa fb : Fmt) (k : Nat) : Vec :=
  vmap x v f.vm f.vd 4 fun i =>
    let b := fa.w / 8
    let ps := (List.range k).map fun j =>
      mulVal (fa.val (v.el f.vs1 b (k * i + j))) (fb.val (v.el f.vs2 b (k * i + j)))
    dotFloat (rmOf x.rm.toNat) (f32.val (v.el f.vd 4 i)) ps

def vdotI (x : VEntry) (v : Vec) (f : VR) : Vec :=
  vmap x v f.vm f.vd 4 fun i =>
    let p := (List.range 4).foldl (fun (a : Int) j =>
      a + toInt 8 (v.el f.vs1 1 (4 * i + j)) * toInt 8 (v.el f.vs2 1 (4 * i + j))) 0
    (ofInt 32 (toInt 32 (v.el f.vd 4 i) + p), {})

/-! ### Decode checks at dispatch (R166, R170, R175, R179 to R185, R204) -/

/-- Two groups of registers have a register in common. -/
def overlaps (a : Reg) (na : Nat) (b : Reg) (nb : Nat) : Bool :=
  decide (a.toNat < b.toNat + nb) && decide (b.toNat < a.toNat + na)

/-- What the checks of one instruction need: legal fields; registers with their group in units of g; widening or narrowing;
a destination that must not overlap sources; the format is defined; VSTART must be 0; func for VFMT; FMA unit. -/
structure VInfo where
  legal : Bool := true
  regs : List (Reg × Nat) := []
  wide : Bool := false
  apart : Bool := false
  fmtOk : Bool := true
  zeroStart : Bool := false
  func : Nat := 0
  fma : Bool := false

/-- The first decode fault in the order of R120 and R204. The destination stands first in `regs`. -/
def VInfo.check (i : VInfo) (c : VCfg) (vstart : Nat) : Option Trap :=
  if !i.legal then some { code := cIllegal }
  else if i.regs.any fun r => r.1.toNat % (c.g * r.2) ≠ 0 then some { code := cVgrp, sub := 1 }
  else if i.wide && c.g = 8 then some { code := cVgrp, sub := 2 }
  else if i.apart && (match i.regs with
      | d :: ss => ss.any fun r => overlaps d.1 (c.g * d.2) r.1 (c.g * r.2)
      | [] => false) then some { code := cVgrp, sub := 3 }
  else if !i.fmtOk then some { code := cVfmt, sub := i.func % 256 }
  else if i.zeroStart && vstart ≠ 0 then some { code := cVstate }
  else none

/-- A mask register field holds 0 to 7 (R170). -/
def isMask (r : Reg) : Bool := decide (r.toNat < 8)

def regsB (f : VR) : List (Reg × Nat) := if f.s then [(f.vd, 1), (f.vs1, 1)] else [(f.vd, 1), (f.vs1, 1), (f.vs2, 1)]

/-- Floating-point arithmetic of major 0x22: `un` for the one-source forms, `zero` where vs2 and s must be 0. -/
def infoFp (c : VCfg) (f : VR) (fn : Nat) (un zero : Bool) : VInfo :=
  { legal := !zero || (f.vs2 = 0 && !f.s), regs := if un then [(f.vd, 1), (f.vs1, 1)] else regsB f
    fmtOk := c.ew ≠ 0, func := fn + 64 * b2n f.s, fma := true }

def infoInt (f : VR) (fn : Nat) (fma : Bool) : VInfo := { regs := regsB f, func := fn + 64 * b2n f.s, fma := fma }

/-- Conversions between widths: narrow and wide registers, and the widths for which they exist (R180). -/
def infoCvt (c : VCfg) (f : VR) (fn : Nat) (widen : Bool) : VInfo :=
  { regs := if widen then [(f.vd, 2), (f.vs1, 1)] else [(f.vd, 1), (f.vs1, 2)]
    wide := true, apart := true, fmtOk := c.ew = 1 || c.ew = 2, func := fn + 64 * b2n f.s, fma := true }

def infoFma (c : VCfg) (f : VF) (op : Nat) : VInfo :=
  { regs := if f.s then [(f.vd, 1), (f.vs1, 1), (f.vs3, 1)] else [(f.vd, 1), (f.vs1, 1), (f.vs2, 1), (f.vs3, 1)]
    fmtOk := c.ew ≠ 0, func := op, fma := true }

def infoCmp (c : VCfg) (f : VR) (fn : Nat) (fp : Bool) : VInfo :=
  { legal := isMask f.vd, regs := if f.s then [(f.vs1, 1)] else [(f.vs1, 1), (f.vs2, 1)]
    fmtOk := !fp || c.ew ≠ 0, func := fn + 64 * b2n f.s, fma := fp }

def infoMask (f : VR) (fn : Nat) : VInfo :=
  { legal := isMask f.vd && isMask f.vs1 && isMask f.vs2 && f.vm = 0 && !f.s, func := fn }

def infoMaskS (f : VR) (fn : Nat) : VInfo := { legal := isMask f.vs1, zeroStart := true, func := fn }

def infoRed (c : VCfg) (f : VR) (fn : Nat) (fp : Bool) : VInfo :=
  { legal := f.vs2 = 0 && !f.s, regs := [(f.vs1, 1)], fmtOk := !fp || c.ew ≠ 0, zeroStart := true, func := fn }

def infoSlide (f : VR) (fn : Nat) : VInfo := { legal := !f.s, regs := [(f.vd, 1), (f.vs1, 1)], zeroStart := true, func := fn }

def infoWmul (f : VR) (fn : Nat) (ok : Bool) : VInfo :=
  { legal := !f.s, regs := [(f.vd, 2), (f.vs1, 1), (f.vs2, 1)], wide := true, apart := true, fmtOk := ok, func := fn, fma := true }

def infoDot (c : VCfg) (f : VR) (fn : Nat) : VInfo :=
  { legal := !f.s, regs := [(f.vd, 1), (f.vs1, 1), (f.vs2, 1)], fmtOk := c.ew = 2, func := fn, fma := true }

/-- The checks of each vector instruction that computes on registers; none for an instruction of another kind. -/
def vinfo (c : VCfg) : Instr → Option VInfo
  | .vfadd _ f => some (infoFp c f 0x00 false false)
  | .vfsub _ f => some (infoFp c f 0x01 false false)
  | .vfmul _ f => some (infoFp c f 0x02 false false)
  | .vfdiv _ f => some (infoFp c f 0x03 false false)
  | .vfmin _ f => some (infoFp c f 0x04 false false)
  | .vfmax _ f => some (infoFp c f 0x05 false false)
  | .vfsqrt _ f => some (infoFp c f 0x06 true true)
  | .vfneg _ f => some (infoFp c f 0x08 true true)
  | .vfabs _ f => some (infoFp c f 0x09 true true)
  | .vcvtFI _ f => some (infoFp c f 0x10 true false)
  | .vcvtIF _ f => some (infoFp c f 0x11 true false)
  | .vfwcvt _ f => some (infoCvt c f 0x12 true)
  | .vfncvt _ f => some (infoCvt c f 0x13 false)
  | .vfma _ f => some (infoFma c f 0)
  | .vfms _ f => some (infoFma c f 1)
  | .vfnma _ f => some (infoFma c f 2)
  | .vfnms _ f => some (infoFma c f 3)
  | .vadd _ f => some (infoInt f 0x00 false)
  | .vsub _ f => some (infoInt f 0x01 false)
  | .vmul _ f => some (infoInt f 0x02 true)
  | .vmulh _ f => some (infoInt f 0x03 true)
  | .vmulhu _ f => some (infoInt f 0x04 true)
  | .vand _ f => some (infoInt f 0x08 false)
  | .vor _ f => some (infoInt f 0x09 false)
  | .vxor _ f => some (infoInt f 0x0A false)
  | .vandn _ f => some (infoInt f 0x0B false)
  | .vshl _ f => some (infoInt f 0x10 false)
  | .vshr _ f => some (infoInt f 0x11 false)
  | .vsar _ f => some (infoInt f 0x12 false)
  | .vmin _ f => some (infoInt f 0x18 false)
  | .vmax _ f => some (infoInt f 0x19 false)
  | .vminu _ f => some (infoInt f 0x1A false)
  | .vmaxu _ f => some (infoInt f 0x1B false)
  | .vfcmpeq _ f => some (infoCmp c f 0x00 true)
  | .vfcmplt _ f => some (infoCmp c f 0x01 true)
  | .vfcmple _ f => some (infoCmp c f 0x02 true)
  | .vfcmpun _ f => some (infoCmp c f 0x03 true)
  | .vcmpeq _ f => some (infoCmp c f 0x08 false)
  | .vcmpne _ f => some (infoCmp c f 0x09 false)
  | .vcmplt _ f => some (infoCmp c f 0x0A false)
  | .vcmpltu _ f => some (infoCmp c f 0x0B false)
  | .vcmple _ f => some (infoCmp c f 0x0C false)
  | .vcmpleu _ f => some (infoCmp c f 0x0D false)
  | .mand _ f => some (infoMask f 0x20)
  | .mor _ f => some (infoMask f 0x21)
  | .mxor _ f => some (infoMask f 0x22)
  | .mandn _ f => some (infoMask f 0x23)
  | .vpopc _ f => some (infoMaskS f 0x28)
  | .vfirst _ f => some (infoMaskS f 0x29)
  | .vredsum _ f => some (infoRed c f 0x00 false)
  | .vredmin _ f => some (infoRed c f 0x01 false)
  | .vredmax _ f => some (infoRed c f 0x02 false)
  | .vredminu _ f => some (infoRed c f 0x03 false)
  | .vredmaxu _ f => some (infoRed c f 0x04 false)
  | .vfredsum _ f => some (infoRed c f 0x08 true)
  | .vfredmin _ f => some (infoRed c f 0x09 true)
  | .vfredmax _ f => some (infoRed c f 0x0A true)
  | .vslideup _ f => some (infoSlide f 0x10)
  | .vslidedown _ f => some (infoSlide f 0x11)
  | .vrgather _ f => some { regs := [(f.vd, 1), (f.vs1, 1), (f.vs2, 1)], legal := !f.s, apart := true, zeroStart := true, func := 0x12 }
  | .vmerge _ f => some { regs := [(f.vd, 1), (f.vs1, 1), (f.vs2, 1)], legal := !f.s && f.vm ≠ 0, func := 0x13 }
  | .vwmul _ f => some (infoWmul f 0x00 (c.ew ≠ 3))
  | .vwmulu _ f => some (infoWmul f 0x01 (c.ew ≠ 3))
  | .vfwmul _ f => some (infoWmul f 0x02 (c.ew = 1 || c.ew = 2))
  | .vdotI8 _ f => some (infoDot c f 0x08)
  | .vdotE4m3 _ f => some (infoDot c f 0x0A)
  | .vdotE4m3e5m2 _ f => some (infoDot c f 0x0B)
  | .vdotE5m2e4m3 _ f => some (infoDot c f 0x0C)
  | .vdotE5m2 _ f => some (infoDot c f 0x0D)
  | .vdotB16 _ f => some (infoDot c f 0x0E)
  | .vdotF16 _ f => some (infoDot c f 0x0F)
  | .vmvVV _ f => some { regs := [(f.vd, 1), (f.vs1, 1)], legal := !f.s, func := 0x20 }
  | .vmvVX _ f => some { regs := [(f.vd, 1)], legal := !f.s, func := 0x21 }
  | .vmvXS _ f => some { regs := [(f.vs1, 1)], legal := !f.s, func := 0x22 }
  | .vid _ f => some { regs := [(f.vd, 1)], legal := !f.s, func := 0x23 }
  | _ => none

/-! ### Effects -/

/-- A shift amount: the low log2(ew) bits (R175). -/
def shAmt (w b : Nat) : Nat := b % w

/-- Result of a vector instruction on the unit: the unit, and a scalar result with the destination it goes to. -/
abbrev VOut := Vec × Option (Reg × Word)

/-- A reduction's scalar result (R184): integers sign-extended, floats as their pattern. -/
def redInt (x : VEntry) (v : Vec) (f : VR) (ident : Nat) (op : Nat → Nat → Nat) : VOut :=
  let r := vreduce x v f ident fun a b => (op a b, {})
  (v, some (f.vd, BitVec.ofInt 64 (toInt x.cfg.bits r.1)))

def redFp (x : VEntry) (v : Vec) (f : VR) (ident : Nat) (op : Nat → Nat → Nat × Fx) : VOut :=
  let r := vreduce x v f ident op
  ({ v with csr := v.csr.add r.2 }, some (f.vd, BitVec.ofNat 64 r.1))

/-- The effect of each register-to-register vector instruction on the unit (R175 to R188). -/
def vapply (x : VEntry) (v : Vec) : VOut :=
  let c := x.cfg
  let w := c.bits
  let n := c.bytes
  let m := 2 ^ w
  let rm := rmOf x.rm.toNat
  let si := fun a => toInt w a
  match x.instr with
  | .vfadd _ f => (vfp x v f fpAdd, none)
  | .vfsub _ f => (vfp x v f fpSub, none)
  | .vfmul _ f => (vfp x v f fpMul, none)
  | .vfdiv _ f => (vfp x v f fpDiv, none)
  | .vfmin _ f => (vfp x v f (fun g _ a b => (fpMinMax g false a b, {})), none)
  | .vfmax _ f => (vfp x v f (fun g _ a b => (fpMinMax g true a b, {})), none)
  | .vfsqrt _ f => (vfp x v f (fun g r a _ => fpSqrt g r a), none)
  | .vfneg _ f => (vfp x v f (fun g _ a _ => (fpSign g true a, {})), none)
  | .vfabs _ f => (vfp x v f (fun g _ a _ => (fpSign g false a, {})), none)
  | .vcvtFI _ f => (vfp x v f (fun g r a _ => intToF g r (toInt g.w a)), none)
  | .vcvtIF _ f => (vfp x v f (fun g r a _ =>
      let p := valToInt r (-(2 ^ (g.w - 1))) (2 ^ (g.w - 1) - 1) (g.val a)
      (ofInt g.w p.1, p.2)), none)
  | .vfwcvt _ f => (vmap x v f.vm f.vd (2 * n) fun i => fpCvt c.fmt (fmtOf (2 * w) false) rm (v.el f.vs1 n i), none)
  | .vfncvt _ f => (vmap x v f.vm f.vd n fun i => fpCvt (fmtOf (2 * w) false) c.fmt rm (v.el f.vs1 (2 * n) i), none)
  | .vfma _ f => (vfma4 x v f false false, none)
  | .vfms _ f => (vfma4 x v f false true, none)
  | .vfnma _ f => (vfma4 x v f true false, none)
  | .vfnms _ f => (vfma4 x v f true true, none)
  | .vadd _ f => (vint x v f fun _ a b => a + b, none)
  | .vsub _ f => (vint x v f fun w a b => a + 2 ^ w - b, none)
  | .vmul _ f => (vint x v f fun _ a b => a * b, none)
  | .vmulh _ f => (vint x v f fun w a b => ofInt w (toInt w a * toInt w b / 2 ^ w), none)
  | .vmulhu _ f => (vint x v f fun w a b => a * b / 2 ^ w, none)
  | .vand _ f => (vint x v f fun _ a b => a &&& b, none)
  | .vor _ f => (vint x v f fun _ a b => a ||| b, none)
  | .vxor _ f => (vint x v f fun _ a b => a ^^^ b, none)
  | .vandn _ f => (vint x v f fun w a b => a &&& (2 ^ w - 1 - b), none)
  | .vshl _ f => (vint x v f fun w a b => a * 2 ^ shAmt w b, none)
  | .vshr _ f => (vint x v f fun w a b => a / 2 ^ shAmt w b, none)
  | .vsar _ f => (vint x v f fun w a b => ofInt w (toInt w a / (2 ^ shAmt w b : Nat)), none)
  | .vmin _ f => (vint x v f fun w a b => if toInt w a < toInt w b then a else b, none)
  | .vmax _ f => (vint x v f fun w a b => if toInt w a < toInt w b then b else a, none)
  | .vminu _ f => (vint x v f fun _ a b => min a b, none)
  | .vmaxu _ f => (vint x v f fun _ a b => max a b, none)
  | .vfcmpeq _ f => (vfcmp x v f eqVal false true, none)
  | .vfcmplt _ f => (vfcmp x v f ltVal false false, none)
  | .vfcmple _ f => (vfcmp x v f (fun a b => ltVal a b || eqVal a b) false false, none)
  | .vfcmpun _ f => (vfcmp x v f (fun _ _ => false) true true, none)
  | .vcmpeq _ f => (vicmp x v f fun _ a b => a = b, none)
  | .vcmpne _ f => (vicmp x v f fun _ a b => a ≠ b, none)
  | .vcmplt _ f => (vicmp x v f fun w a b => toInt w a < toInt w b, none)
  | .vcmpltu _ f => (vicmp x v f fun _ a b => a < b, none)
  | .vcmple _ f => (vicmp x v f fun w a b => toInt w a ≤ toInt w b, none)
  | .vcmpleu _ f => (vicmp x v f fun _ a b => a ≤ b, none)
  | .mand _ f => (vmlogic x v f fun a b => a && b, none)
  | .mor _ f => (vmlogic x v f fun a b => a || b, none)
  | .mxor _ f => (vmlogic x v f fun a b => a != b, none)
  | .mandn _ f => (vmlogic x v f fun a b => a && !b, none)
  | .vpopc _ f =>
    (v, some (f.vd, BitVec.ofNat 64 ((x.actives v f.vm).filter fun i => v.mask f.vs1.toNat i).length))
  | .vfirst _ f =>
    (v, some (f.vd, match (x.actives v f.vm).find? fun i => v.mask f.vs1.toNat i with
      | some i => BitVec.ofNat 64 i
      | none => BitVec.allOnes 64))
  | .vredsum _ f => redInt x v f 0 fun a b => (a + b) % m
  | .vredmin _ f => redInt x v f (m / 2 - 1) fun a b => if si b < si a then b else a
  | .vredmax _ f => redInt x v f (m / 2) fun a b => if si a < si b then b else a
  | .vredminu _ f => redInt x v f (m - 1) fun a b => min a b
  | .vredmaxu _ f => redInt x v f 0 fun a b => max a b
  | .vfredsum _ f => redFp x v f (c.fmt.zero true) (fpAdd c.fmt rm)
  | .vfredmin _ f => redFp x v f (c.fmt.inf false) fun a b => (fpMinMax c.fmt false a b, {})
  | .vfredmax _ f => redFp x v f (c.fmt.inf true) fun a b => (fpMinMax c.fmt true a b, {})
  | .vslideup _ f =>
    let k := x.scal.toNat
    ((x.actives v f.vm).foldl (fun u i => if k ≤ i then u.setEl f.vd n i (v.el f.vs1 n (i - k)) else u) v, none)
  | .vslidedown _ f =>
    let k := x.scal.toNat
    (vmap x v f.vm f.vd n fun i => (if i + k < c.vl then v.el f.vs1 n (i + k) else 0, {}), none)
  | .vrgather _ f =>
    (vmap x v f.vm f.vd n fun i =>
      let j := v.el f.vs2 n i
      (if j < c.vlmax then v.el f.vs1 n j else 0, {}), none)
  | .vmerge _ f =>
    (vmap x v 0 f.vd n fun i => (if v.mask f.vm.toNat i then v.el f.vs1 n i else v.el f.vs2 n i, {}), none)
  | .vwmul _ f => (vmap x v f.vm f.vd (2 * n) fun i => (ofInt (2 * w) (si (v.el f.vs1 n i) * si (v.el f.vs2 n i)), {}), none)
  | .vwmulu _ f => (vmap x v f.vm f.vd (2 * n) fun i => (v.el f.vs1 n i * v.el f.vs2 n i, {}), none)
  | .vfwmul _ f =>
    (vmap x v f.vm f.vd (2 * n) fun i =>
      let p := mulVal (c.fmt.val (v.el f.vs1 n i)) (c.fmt.val (v.el f.vs2 n i))
      ((roundVal (fmtOf (2 * w) false) rm p.1).1, { nv := p.2 }), none)
  | .vdotI8 _ f => (vdotI x v f, none)
  | .vdotE4m3 _ f => (vdotF x v f e4m3 e4m3 4, none)
  | .vdotE4m3e5m2 _ f => (vdotF x v f e4m3 e5m2 4, none)
  | .vdotE5m2e4m3 _ f => (vdotF x v f e5m2 e4m3 4, none)
  | .vdotE5m2 _ f => (vdotF x v f e5m2 e5m2 4, none)
  | .vdotB16 _ f => (vdotF x v f b16 b16 2, none)
  | .vdotF16 _ f => (vdotF x v f f16 f16 2, none)
  | .vmvVV _ f => (vmap x v f.vm f.vd n fun i => (v.el f.vs1 n i, {}), none)
  | .vmvVX _ f => (vmap x v f.vm f.vd n fun _ => (x.scal.toNat % m, {}), none)
  | .vmvXS _ f => (v, some (f.vd, BitVec.ofInt 64 (si (v.el f.vs1 n 0))))
  | .vid _ f => (vmap x v f.vm f.vd n fun i => (i % m, {}), none)
  | _ => (v, none)

/-- The scalar register a vector instruction names as an operand (R168, R175), by its number. -/
def scalReg : Instr → Reg
  | .vslideup _ f | .vslidedown _ f => f.vs2
  | .vmvVX _ f => f.vs1
  | .vfma _ f | .vfms _ f | .vfnma _ f | .vfnms _ f => if f.s then f.vs2 else 0
  | .vfadd _ f | .vfsub _ f | .vfmul _ f | .vfdiv _ f | .vfmin _ f | .vfmax _ f | .vadd _ f | .vsub _ f | .vmul _ f
  | .vmulh _ f | .vmulhu _ f | .vand _ f | .vor _ f | .vxor _ f | .vandn _ f | .vshl _ f | .vshr _ f | .vsar _ f
  | .vmin _ f | .vmax _ f | .vminu _ f | .vmaxu _ f | .vfcmpeq _ f | .vfcmplt _ f | .vfcmple _ f | .vfcmpun _ f
  | .vcmpeq _ f | .vcmpne _ f | .vcmplt _ f | .vcmpltu _ f | .vcmple _ f | .vcmpleu _ f => if f.s then f.vs2 else 0
  | _ => 0

end Sys2Proof.Machine
end

