-- ==== Sys2Proof/Machine/Chain.lean ====
section
/-! DEFINITION. Element chains (R246 to R283): programs and their checks, the stages, the stochastic generators, and the record of tensor outputs (R232 to R239). -/

namespace Sys2Proof.Machine

open Sys2Proof

/-! ### Programs (R248 to R253) -/

/-- A program, from its 64 bytes. -/
structure Prog where
  nst : Nat
  wf : Nat
  xf : Nat
  of : Nat
  orm : Nat
  arm : Nat
  af : Nat
  bf : Nat
  rlog : Nat
  asel : Bool
  bsel : Bool
  rsv : Bool
  ks : List Nat
  sts : List Nat
  deriving DecidableEq, Repr

/-- Word `i` of 32 bits of a list of bytes. -/
def word32 (bs : List Byte) (off : Nat) : Nat := ofBytes ((bs.drop off).take 4)

def progOf (bs : List Byte) : Prog :=
  let c := word32 bs 0
  { nst := fld c 29 3, wf := fld c 27 2, xf := fld c 23 4, of := fld c 19 4, orm := fld c 16 3, arm := fld c 14 2
    af := fld c 10 4, bf := fld c 6 4, rlog := fld c 2 4, asel := fld c 1 1 = 1, bsel := fld c 0 1 = 1
    rsv := word32 bs 4 = 0 && word32 bs 8 = 0
    ks := [word32 bs 0x0C, word32 bs 0x10, word32 bs 0x14, word32 bs 0x18, word32 bs 0x1C]
    sts := (List.range 8).map fun j => word32 bs (0x20 + 4 * j) }

/-- The program of chain register n of a tile (R248). -/
def chainBytes (v : Vec) (n : Nat) : List Byte := readBytes v.chains (64 * n) 64

def stOp (w : Nat) : Nat := fld w 26 6

/-- The last stage is a row reduction (R254). -/
def Prog.reduces (p : Prog) : Bool := let o := stOp (p.sts.getD p.nst 0); o = 0x30 || o = 0x31

/-- Row length (R250). -/
def Prog.rl (p : Prog) : Nat := 2 ^ p.rlog

def isFloat (c : Nat) : Bool := decide (c ≤ 5)
def isIntFmt (c : Nat) : Bool := decide (6 ≤ c) && decide (c ≤ 10)

/-- Bytes of a format code (R251). -/
def fmtSize (c : Nat) : Nat :=
  match c with
  | 0 => 4 | 1 => 8 | 2 => 2 | 3 => 2 | 4 => 1 | 5 => 1 | 6 => 1 | 7 => 1 | 8 => 2 | 9 => 4 | 10 => 8 | _ => 0

/-- The floating-point format of a code. -/
def fmtCode (c : Nat) : Fmt :=
  match c with
  | 1 => f64 | 2 => f16 | 3 => b16 | 4 => e4m3 | 5 => e5m2 | _ => f32

/-- The format code of a working format (R250, R251). -/
def wfCode (wf : Nat) : Nat := match wf with | 1 => 1 | 2 => 9 | 3 => 10 | _ => 0

def wfFloat (wf : Nat) : Bool := decide (wf < 2)

/-- Range of an integer format code (R216). -/
def intLo (c : Nat) : Int := match c with | 6 => -128 | 7 => 0 | 8 => -32768 | 9 => -2147483648 | _ => -9223372036854775808
def intHi (c : Nat) : Int := match c with | 6 => 127 | 7 => 255 | 8 => 32767 | 9 => 2147483647 | _ => 9223372036854775807

/-- A pattern of an integer format as an integer. -/
def intVal (c x : Nat) : Int := if c = 7 then (x % 256 : Nat) else toInt (8 * fmtSize c) x

/-- Number of sources an operation reads, A then B then C (R254). -/
def opSources (o : Nat) : Nat :=
  match o with
  | 0x00 | 0x09 | 0x0A | 0x0B | 0x0C | 0x30 | 0x31 => 1
  | 0x03 | 0x07 => 3
  | _ => 2

/-- An operation listed in R254. -/
def opListed (o : Nat) : Bool := decide (o ≤ 0x0C) || o = 0x30 || o = 0x31

/-- Stochastic rounding is permitted to E4M3, E5M2, I8 and U8 (R259). -/
def srAllowed (c : Nat) : Bool := decide (4 ≤ c) && decide (c ≤ 7)

/-- Where a program runs (R246). -/
inductive Place3 where
  | register | memory | epilogue
  deriving DecidableEq, Repr

/-- The sources of a stage that exist: stage j reads t0 to t(j - 1), and a or b only with a format (R253, R282). -/
def srcOk (p : Prog) (j src : Nat) : Bool :=
  if 1 ≤ src && src ≤ 7 then decide (src - 1 < j)
  else if src = 0xD then p.af ≠ 15
  else if src = 0xE then p.bf ≠ 15
  else true

/-- Whether stage j keeps the rules of R250 to R259. -/
def stageOk (p : Prog) (j : Nat) : Bool :=
  let w := p.sts.getD j 0
  let o := stOp w
  let prm := fld w 0 8
  opListed o && fld w 8 1 = 0 &&
    srcOk p j (fld w 22 4) && (opSources o < 2 || srcOk p j (fld w 18 4)) && (opSources o < 3 || srcOk p j (fld w 14 4)) &&
    (!(o = 0x30 || o = 0x31) || j = p.nst) &&
    (!(o = 0x06) || (prm % 8 ≠ 7 && (wfFloat p.wf || prm % 8 ≠ 6))) &&
    (!(o = 0x08 || o = 0x09 || o = 0x0B || o = 0x0C) || wfFloat p.wf) &&
    (!(o = 0x0A) || (prm % 16 ≤ 10 && fld prm 4 3 ≤ 4 && (fld prm 4 3 ≠ 4 || srAllowed (prm % 16))))

/-- The sub code of the first rule a program breaks (R282): 0 for the header, else stage + 1. -/
def cform (p : Prog) (pl : Place3) : Option Nat :=
  let opnd := fun c => decide (c ≤ 10) || c = 15
  let header := p.rsv && (pl = .epilogue || p.xf ≤ 10) && opnd p.af && opnd p.bf &&
    (p.of ≤ 10 || (p.of = 11 && pl = .register)) && p.orm ≤ 4 && (p.orm ≠ 4 || srAllowed p.of) && p.rlog ≠ 15 &&
    (pl ≠ .epilogue || ((p.wf = 0 || p.wf = 2) && !p.reduces))
  if !header then some 0
  else ((List.range (p.nst + 1)).find? fun j => !stageOk p j).map (· + 1)

/-! ### Stochastic generators (R260 to R262) -/

/-- The seed of generator j of a set that starts at `base` (R262). -/
def genSeed (m : Word) (j : Nat) : Word :=
  let x := m + BitVec.ofNat 64 (j * 0x9E3779B97F4A7C15)
  if x = 0 then 1 else x

/-- State of Vj and of Dj; an unlisted one is seeded by 0. -/
def genGet (m : SMap Word) (base j : Nat) : Word := aget (genSeed 0 (j + base)) m j

/-- One draw (R260): the next state, and r16. -/
def genStep (w : Word) : Word × Nat :=
  let w := w ^^^ (w <<< 13)
  let w := w ^^^ (w >>> 7)
  let w := w ^^^ (w <<< 17)
  (w, (w >>> 48).toNat)

/-! ### Conversions between format codes (R219 to R222, R255, R258) -/

/-- A finite value of a format that another format cannot represent (R219, R261). -/
def inexact (src dst x : Nat) : Bool :=
  if isFloat src then
    match (fmtCode src).val x with
    | .fin s m e =>
      if m = 0 then false
      else if isFloat dst then (roundTo (fmtCode dst) .rtz s m e).2.nx
      else let r := valToInt .rtz (intLo dst) (intHi dst) ((fmtCode src).val x); r.2.nx || r.2.nv
    | _ => false
  else if isFloat dst then (intToF (fmtCode dst) .rtz (intVal src x)).2.nx
  else decide (intVal src x < intLo dst) || decide (intHi dst < intVal src x)

/-- A conversion of a pattern from one format code to another. -/
def cvtCode (src dst : Nat) (rm : Rm) (x : Nat) : Nat :=
  if src = dst then (if isFloat src && (fmtCode src).val x = .nan then (fmtCode src).nan else x)
  else if isFloat src then
    if isFloat dst then (fpCvt (fmtCode src) (fmtCode dst) rm x).1
    else ofInt (8 * fmtSize dst) (valToInt rm (intLo dst) (intHi dst) ((fmtCode src).val x)).1
  else if isFloat dst then (intToF (fmtCode dst) rm (intVal src x)).1
  else
    let v := intVal src x
    ofInt (8 * fmtSize dst) (if v < intLo dst then intLo dst else if intHi dst < v then intHi dst else v)

/-- A conversion under a rounding code, 4 drawing from the generator when R219 calls for a number (R261). -/
def cvtRnd (src dst code x : Nat) (g : Word) : Nat × Word :=
  if code = 4 then
    if inexact src dst x then
      let d := genStep g
      (cvtCode src dst (.sr d.2) x, d.1)
    else (cvtCode src dst .rtz x, g)
  else (cvtCode src dst (rmOf code) x, g)

/-! ### Stages (R252 to R258) -/

/-- A value in the engine: a format code and a pattern. -/
abbrev CVal := Nat × Nat

/-- What one element brings. -/
structure ChainIn where
  x : CVal
  a : CVal
  b : CVal

/-- The value of a source field in the working format (R253, R255, R258). -/
def srcVal (p : Prog) (i : ChainIn) (ts : List CVal) (src : Nat) : Nat :=
  let w := wfCode p.wf
  let arm := rmOf p.arm
  if src = 0 then cvtCode i.x.1 w arm i.x.2
  else if src ≤ 7 then let t := ts.getD (src - 1) (w, 0); cvtCode t.1 w .rne t.2
  else if src ≤ 0xC then cvtCode (if wfFloat p.wf then 0 else 9) w .rne (p.ks.getD (src - 8) 0)
  else if src = 0xD then cvtCode i.a.1 w arm i.a.2
  else if src = 0xE then cvtCode i.b.1 w arm i.b.2
  else 0

/-- Absolute value first, then negation (R255). -/
def modVal (p : Prog) (ab ng : Bool) (x : Nat) : Nat :=
  if wfFloat p.wf then
    let f := fmtCode (wfCode p.wf)
    if f.val x = .nan then f.nan
    else
      let x := if ab then x % 2 ^ (f.w - 1) else x
      if ng then (if f.sign x then x - 2 ^ (f.w - 1) else x + 2 ^ (f.w - 1)) else x
  else
    let n := 8 * fmtSize (wfCode p.wf)
    let mn := 2 ^ (n - 1)
    let x := if ab then (if x = mn then Config.absMin n % 2 ^ n else if toInt n x < 0 then ofInt n (-toInt n x) else x) else x
    if ng then (if x = mn then Config.negMin n % 2 ^ n else ofInt n (-toInt n x)) else x

/-- True in the sense of `sel`: neither zero nor NaN. -/
def truth (p : Prog) (x : Nat) : Bool :=
  if wfFloat p.wf then
    match (fmtCode (wfCode p.wf)).val x with
    | .nan => false
    | .inf _ => true
    | .fin _ m _ => m ≠ 0
  else x ≠ 0

/-- 1 in the working format. -/
def oneOf (p : Prog) : Nat := match p.wf with | 0 => 0x3F800000 | 1 => 0x3FF0000000000000 | _ => 1

/-- Minimum or maximum of the engine: NaN when either is NaN, -0 below +0 (R256). -/
def chainMinMax (p : Prog) (mx : Bool) (a b : Nat) : Nat :=
  if wfFloat p.wf then
    let f := fmtCode (wfCode p.wf)
    if f.val a = .nan || f.val b = .nan then f.nan else fpMinMax f mx a b
  else
    let n := 8 * fmtSize (wfCode p.wf)
    if decide (toInt n a < toInt n b) = mx then b else a

def chainAdd (p : Prog) (a b : Nat) : Nat :=
  if wfFloat p.wf then (fpAdd (fmtCode (wfCode p.wf)) (rmOf p.arm) a b).1
  else (a + b) % 2 ^ (8 * fmtSize (wfCode p.wf))

/-- The relation of `cmp` (R254, R256, R257). -/
def chainCmp (p : Prog) (rel a b : Nat) : Bool :=
  if wfFloat p.wf then
    let f := fmtCode (wfCode p.wf)
    let va := f.val a
    let vb := f.val b
    let nan := va = .nan || vb = .nan
    match rel with
    | 0 => !nan && eqVal va vb
    | 1 => nan || !eqVal va vb
    | 2 => !nan && ltVal va vb
    | 3 => !nan && (ltVal va vb || eqVal va vb)
    | 4 => !nan && ltVal vb va
    | 5 => !nan && (ltVal vb va || eqVal va vb)
    | _ => nan
  else
    let n := 8 * fmtSize (wfCode p.wf)
    let x := toInt n a
    let y := toInt n b
    match rel with
    | 0 => x = y
    | 1 => x ≠ y
    | 2 => x < y
    | 3 => x ≤ y
    | 4 => y < x
    | _ => y ≤ x

/-- A x 2^n with n = sext(prm) + B (R254). -/
def chainScale (p : Prog) (prm a b : Nat) : Nat :=
  let f := fmtCode (wfCode p.wf)
  let rm := rmOf p.arm
  match f.val b with
  | .nan => f.nan
  | vb =>
    let n : Int := (valToInt .rtz (-1100) 1100 vb).1 + toInt 8 prm
    match f.val a with
    | .fin s m e => if m = 0 then f.zero s else (roundTo f rm s m (e + n)).1
    | v => (roundVal f rm v).1

/-- A rounded to an integral value (R254). -/
def chainRint (p : Prog) (mode a : Nat) : Nat :=
  let f := fmtCode (wfCode p.wf)
  match f.val a with
  | .fin s m e =>
    if 0 ≤ e || m = 0 then a
    else
      let q := (roundShift (rmOf mode) s m (-e).toNat).1
      if q = 0 then f.zero s else (roundTo f .rne s q 0).1
  | v => (roundVal f .rne v).1

/-- An estimate; a NaN gives the canonical NaN (R256). -/
def chainEst (p : Prog) (fn : Nat → Nat → Nat) (a : Nat) : Nat :=
  let f := fmtCode (wfCode p.wf)
  if f.val a = .nan then f.nan else fn (wfCode p.wf) a % 2 ^ f.w

/-- The result of stage j, which is not a reduction; a reduction passes its source A on (R254). -/
def stage (p : Prog) (i : ChainIn) (ts : List CVal) (j : Nat) (g : Word) : CVal × Word :=
  let w := p.sts.getD j 0
  let wc := wfCode p.wf
  let prm := fld w 0 8
  let a := modVal p (fld w 12 1 = 1) (fld w 13 1 = 1) (srcVal p i ts (fld w 22 4))
  let b := modVal p (fld w 10 1 = 1) (fld w 11 1 = 1) (srcVal p i ts (fld w 18 4))
  let c := modVal p false (fld w 9 1 = 1) (srcVal p i ts (fld w 14 4))
  let fl := wfFloat p.wf
  let f := fmtCode wc
  let rm := rmOf p.arm
  let m := 2 ^ (8 * fmtSize wc)
  match stOp w with
  | 0x01 => ((wc, chainAdd p a b), g)
  | 0x02 => ((wc, if fl then (fpMul f rm a b).1 else a * b % m), g)
  | 0x03 => ((wc, if fl then (fma3 f rm false false a b c).1 else (a * b + c) % m), g)
  | 0x04 => ((wc, chainMinMax p false a b), g)
  | 0x05 => ((wc, chainMinMax p true a b), g)
  | 0x06 => ((wc, if chainCmp p (prm % 8) a b then oneOf p else 0), g)
  | 0x07 => ((wc, if truth p c then a else b), g)
  | 0x08 => ((wc, chainScale p prm a b), g)
  | 0x09 => ((wc, chainRint p (prm % 4) a), g)
  | 0x0A =>
    let r := cvtRnd wc (prm % 16) (fld prm 4 3) a g
    ((prm % 16, r.1), r.2)
  | 0x0B => ((wc, chainEst p Config.rcp a), g)
  | 0x0C => ((wc, chainEst p Config.rsq a), g)
  | _ => ((wc, a), g)

/-- Stages 0 to n of a program on one element. -/
def stages (p : Prog) (i : ChainIn) (g : Word) : Nat → List CVal × Word
  | 0 => let r := stage p i [] 0 g; ([r.1], r.2)
  | n + 1 =>
    let q := stages p i g n
    let r := stage p i q.1 (n + 1) q.2
    (q.1 ++ [r.1], r.2)

/-- The result of the last stage of a program on one element. -/
def chainElem (p : Prog) (i : ChainIn) (g : Word) : CVal × Word :=
  let q := stages p i g p.nst
  (q.1.getD p.nst (wfCode p.wf, 0), q.2)

/-- The output of a result (R232, R259): pattern in the output format; for MASK its truth. -/
def chainOut (p : Prog) (r : CVal) (g : Word) : Nat × Word :=
  if p.of = 11 then (b2n (truth p (cvtCode r.1 (wfCode p.wf) .rne r.2)), g)
  else
    let q := cvtRnd r.1 p.of p.orm r.2 g
    (if isFloat p.of then noNegZero (fmtCode p.of) q.1 else q.1, q.2)

/-- The combination of a reduction, and its identity (R254, R276). -/
def redOp (p : Prog) (a b : Nat) : Nat :=
  if stOp (p.sts.getD p.nst 0) = 0x30 then chainAdd p a b else chainMinMax p true a b

def redIdent (p : Prog) : Nat :=
  let f := fmtCode (wfCode p.wf)
  let sum := stOp (p.sts.getD p.nst 0) = 0x30
  if wfFloat p.wf then (if sum then f.zero true else f.inf true)
  else if sum then 0 else 2 ^ (8 * fmtSize (wfCode p.wf) - 1)

/-- A row's value from its elements in the order of R184. -/
def redRow (p : Prog) (xs : List Nat) : Nat :=
  (treeReduce (fun a b => (redOp p a b, {})) p.rlog xs).1.headD (redIdent p)

/-! ### Tensor outputs (R234 to R239) -/

/-- The number of the next output tile is taken (R234, R237). -/
def takeDrain (n : Numerics) : Nat × Numerics := (n.ndrain, { n with ndrain := sat32 n.ndrain 1 })

/-- The position (drain, row, column) lies before the recorded one (R234, R235). -/
def before (n : Numerics) (d row col : Nat) : Bool :=
  decide (d < n.drain) || (d = n.drain && (decide (row < n.row) || (row = n.row && decide (col < n.col))))

/-- An element written in a floating-point format counts in the histogram and, when NaN or infinite, in the record. -/
def countOut (n : Numerics) (fmt d src row col x : Nat) : Numerics :=
  if !isFloat fmt then n
  else
    let b := histBin (fmtCode fmt) x
    let n := { n with hist := aset 0 n.hist b (sat32 (aget 0 n.hist b) 1) }
    if b < 62 then n
    else
      let n := if b = 62 then { n with inf := true } else { n with nan := true }
      if n.valid && !before n d row col then n
      else { n with drain := d, src := BitVec.ofNat 2 src, row := row, col := col, isinf := b = 62, valid := true }

end Sys2Proof.Machine
end

