-- ==== Sys2Proof/Machine/VecRun.lean ====
section
/-! DEFINITION. The start of dispatched vector instructions (R194, R198 to R210, R264 to R281): loads, stores, chains and
`rownorm`, and the data faults they meet. -/

namespace Sys2Proof.Machine

open Sys2Proof

def State.updVec (s : State) (t : Nat) (f : Vec → Vec) : State := s.updTile t fun x => { x with vec := f x.vec }

/-- The core of a tile. -/
def tcore (t : Nat) : CoreId := .tile (Fin.ofNat 256 t)

/-! ### Addresses of vector accesses (R201, R205) -/

/-- A byte lies in module memory that the map backs, or in the tile's own backed scratch (R201). -/
def vregion (s : State) (t : Nat) (a : Word) : Bool :=
  match localAddr s a with
  | none => false
  | some l => match target s (some t) l 1 with
    | .mem _ => true
    | .scratch u _ => u = t
    | _ => false

/-- The fault of an access of `n` bytes, at most 64, at `a` (R201, R205, R264): VADDR before the window check. -/
def vcheck (s : State) (t : Nat) (a : Word) (n : Nat) (store : Bool) : Option Trap :=
  if !(vregion s t a && vregion s t (a + BitVec.ofNat 64 (n - 1))) then some { code := cVaddr, sub := b2n store, addr := a }
  else if (firstDenied (fun x m => permitted s (tcore t) x m (if store then rightW else rightR)) a n).isSome then
    some { code := if store then cStoreWin else cLoadWin, addr := a }
  else none

/-- Address of element i. -/
def elAddr (a : Word) (n i : Nat) : Word := a + BitVec.ofNat 64 (i * n)

/-- The first active element of a `vld` or `vst` that fails its check, and the fault (R205). -/
def vfirstBad (s : State) (t : Nat) (x : VEntry) (vm : MaskNo) (store : Bool) : Option (Nat × Trap) :=
  (x.actives (s.tile t).vec vm).findSome? fun i =>
    (vcheck s t (elAddr x.scal x.cfg.bytes i) x.cfg.bytes store).map fun e => (i, e)

/-! ### Reads and writes through the core's port -/

/-- The state, and the line that the load/store unit read last. -/
structure LineBuf where
  st : State
  line : Option (Nat × List Byte)

/-- A read of `m` bytes within one line. -/
def vreadSpan (b : LineBuf) (t : Nat) (a : Word) (m : Nat) : LineBuf × Except AccErr (List Byte) :=
  match localAddr b.st a with
  | none => (b, .error .bus)
  | some l => match target b.st (some t) l m with
    | .mem x =>
      match b.line with
      | some (y, bs) =>
        if y = x / 128 then (b, .ok ((bs.drop (x % 128)).take m))
        else match portRead b.st (tcore t) (x / 128 * 128) 128 with
          | (s, .ok bs) => ({ st := s, line := some (x / 128, bs) }, .ok ((bs.drop (x % 128)).take m))
          | (s, .error e) => ({ st := s, line := none }, .error e)
      | none => match portRead b.st (tcore t) (x / 128 * 128) 128 with
        | (s, .ok bs) => ({ st := s, line := some (x / 128, bs) }, .ok ((bs.drop (x % 128)).take m))
        | (s, .error e) => ({ st := s, line := none }, .error e)
    | _ => match portRead b.st (tcore t) l m with
      | (s, .ok bs) => ({ st := s, line := none }, .ok bs)
      | (s, .error e) => ({ st := s, line := none }, .error e)

/-- A read of `n` bytes at any alignment: the bytes, or the first failing byte and its failure. -/
def vread (b : LineBuf) (t : Nat) (a : Word) (n : Nat) : LineBuf × Except (Word × AccErr) (List Byte) :=
  (spans (n / 128 + 2) a n).foldl (fun acc p =>
    match acc.2 with
    | .error e => (acc.1, .error e)
    | .ok bs => match vreadSpan acc.1 t p.1 p.2 with
      | (b, .ok cs) => (b, .ok (bs ++ cs))
      | (b, .error e) => (b, .error (p.1, e))) (b, .ok [])

/-- A write of `bs`, within one line at a local address, that may need a fill: the failure it would meet (R208, R334, R481). -/
def writeFails (s : State) (t a : Nat) (full : Bool) : Option AccErr :=
  match target s (some t) a 1 with
  | .mem x =>
    let l := x / 128
    match lineErr s l with
    | some e => some e
    | none =>
      if full then none
      else
        let x1 := (s.tile t).l1
        let fill := lineFail s l
        if cacheable s x then
          match l1Find x1 l with
          | some (_, e) => if x1.badLines.contains l then (if e.dirty then some (.uncorr 3) else fill) else none
          | none => fill
        else fill
  | .scratch _ _ => none
  | _ => some .bus

/-- Bytes to store, with the element each belongs to, cut by line in the order in which lines are first touched. -/
def groupLines : List (Nat × Nat × Byte) → List (Nat × List (Nat × Nat × Byte))
  | [] => []
  | (a, e, b) :: ps =>
    match groupLines ps with
    | (l, qs) :: rest => if l = a / 128 then (l, (a, e, b) :: qs) :: rest else (a / 128, [(a, e, b)]) :: (l, qs) :: rest
    | [] => [(a / 128, [(a, e, b)])]

/-- The first element whose store would fail, with its failing byte and the failure. -/
def storeBad (s : State) (t : Nat) (gs : List (Nat × List (Nat × Nat × Byte))) : Option (Nat × Nat × AccErr) :=
  gs.findSome? fun g => match g.2 with
    | [] => none
    | p :: _ => (writeFails s t p.1 (g.2.length = 128)).map fun e => (p.2.1, p.1, e)

/-- The elements of a store below the first that fails, and that one (R208). -/
def storeCut (s : State) (t : Nat) : Nat → List (Nat × Nat × Byte) → List (Nat × Nat × Byte) × Option (Nat × Nat × AccErr)
  | 0, ps => (ps, none)
  | n + 1, ps =>
    match storeBad s t (groupLines ps) with
    | none => (ps, none)
    | some (e, a, x) =>
      let r := storeCut s t n (ps.filter fun p => decide (p.2.1 < e))
      (r.1, match r.2 with | some y => some y | none => some (e, a, x))

/-- The bytes of a store are written, line by line; a line covered in full needs no fill (R334). -/
def storeLines (s : State) (t : Nat) (ps : List (Nat × Nat × Byte)) : State :=
  (groupLines ps).foldl (fun s g =>
    match g.2 with
    | [] => s
    | p :: _ =>
      if g.2.length = 128 then (portWrite s (tcore t) p.1 (g.2.map fun q => q.2.2) true).1
      else (runsOf 0 (g.2.map fun q => (q.1, q.2.2))).foldl (fun s r => (portWrite s (tcore t) r.1 r.2 false).1) s) s

/-- The bytes of one element at a 64-bit address, by local address. -/
def elBytes (s : State) (t : Nat) (a : Word) (e : Nat) (bs : List Byte) : List (Nat × Nat × Byte) :=
  match localAddr s a with
  | none => []
  | some l => (List.range bs.length).map fun j => (canonAddr (tcore t) l + j, e, bs.getD j 0)

/-! ### Faults of started instructions (R206 to R210) -/

/-- The register field of a vector instruction that TILE_VFLT records (R209). -/
def vtOf : Instr → Reg
  | .vld _ f | .vst _ f => f.vt
  | .cld _ f | .cst _ f => f.vd
  | _ => 0

/-- TILE_VSTART as an entry of R205, R208 or R272 leaves it, and TILE_VFLT; younger instructions are discarded. A `cld` or `cst`
leaves TILE_VFLT unchanged (R209). -/
def setFault (s : State) (t : Nat) (i : Instr) (kind : BitVec 2) (e : Nat) (nr : Bool := false) : State :=
  let note := match i with | .cld _ _ | .cst _ _ => false | _ => true
  s.updVec t fun v =>
    if note then { v with fltVt := vtOf i, fltNr := nr, fltKind := kind, vstart := e, vq := [] } else { v with vstart := e, vq := [] }

/-- The fault of a failing datum: a fill of a store reported as a bus error is MEM_UNCORR (R208). -/
def dataTrap (e : AccErr) (a : Word) : Trap :=
  match e with
  | .thermal k => { code := cThermal, sub := k, addr := a }
  | .uncorr n => { code := cMemUncorr, sub := n, addr := a }
  | .bus => { code := cMemUncorr, sub := 1, addr := a }

/-- A data fault of a started instruction at element `e` (R208): the counts of its loop-end test are put back, since a fault comes
before that test (R153, R154). -/
def dataFault (s : State) (t : Nat) (x : VEntry) (e : Nat) (a : Word) (err : AccErr) (nr : Bool := false) : State :=
  takeFault ((setFault s t x.instr 2 e nr).updCore (tcore t) fun k => { k with lc := x.lc }) (tcore t) (dataTrap err a) x.pc

/-! ### Loads and stores -/

/-- The line of the first active element of a `vld` trains the prefetch stream (R172, R336). -/
def vldNote (s : State) (t : Nat) (x : VEntry) (f : VM) : State :=
  match (x.actives (s.tile t).vec f.vm).head? with
  | none => s
  | some i => match localAddr s (elAddr x.scal x.cfg.bytes i) with
    | none => s
    | some l => match target s (some t) l 1 with
      | .mem m => if cacheable s m then pfAccess s t x.pc (m / 128) (l1Find (s.tile t).l1 (m / 128)).isNone else s
      | _ => s

/-- One element of a `vld`, when none before it has failed. -/
def vldElem (t : Nat) (x : VEntry) (f : VM) (acc : LineBuf × Option (Nat × Word × AccErr)) (i : Nat) :
    LineBuf × Option (Nat × Word × AccErr) :=
  match acc.2 with
  | some _ => acc
  | none => match vread acc.1 t (elAddr x.scal x.cfg.bytes i) x.cfg.bytes with
    | (b, .ok bs) => ({ b with st := b.st.updVec t fun v => v.setEl f.vt x.cfg.bytes i (ofBytes bs) }, none)
    | (b, .error e) => (b, some (i, e.1, e.2))

/-- A started `vld`: elements below the first that fails are written (R201, R208). -/
def startVld (s : State) (t : Nat) (x : VEntry) (f : VM) : State × Option (Nat × Word × AccErr) :=
  let s := vldNote s t x f
  let r := (x.actives (s.tile t).vec f.vm).foldl (vldElem t x f) ({ st := s, line := none }, none)
  (r.1.st, r.2)

/-- A started `vst` (R201, R208). -/
def startVst (s : State) (t : Nat) (x : VEntry) (f : VM) : State × Option (Nat × Word × AccErr) :=
  let n := x.cfg.bytes
  let v := (s.tile t).vec
  let ps := (x.actives v f.vm).flatMap fun i => elBytes s t (elAddr x.scal n i) i (toBytes n (v.el f.vt n i))
  let r := storeCut s t 8 ps
  (storeLines s t r.1, r.2.map fun q => (q.1, BitVec.ofNat 64 q.2.1, q.2.2))

/-- A started `cld`: nothing changes when its data fails (R264). -/
def startCld (s : State) (t : Nat) (x : VEntry) (f : VR) : State × Option (Nat × Word × AccErr) :=
  match vread { st := s, line := none } t x.scal 64 with
  | (b, .ok bs) => (b.st.updVec t fun v => { v with chains := writeBytes v.chains (64 * (f.vd.toNat % 4)) bs }, none)
  | (b, .error e) => (b.st, some (x.vstart, e.1, e.2))

def startCst (s : State) (t : Nat) (x : VEntry) (f : VR) : State × Option (Nat × Word × AccErr) :=
  let r := storeCut s t 1 (elBytes s t x.scal 0 (chainBytes (s.tile t).vec (f.vd.toNat % 4)))
  match r.2 with
  | some q => (s, some (x.vstart, BitVec.ofNat 64 q.2.1, q.2.2))
  | none => (storeLines s t r.1, none)

/-- `cseed` (R262). -/
def seedAll (v : Vec) (m : Word) : Vec :=
  { v with
    genV := (List.range 32).foldl (fun g j => aput g j (genSeed m (j + 1))) v.genV
    genD := (List.range 32).foldl (fun g j => aput g j (genSeed m (j + 33))) v.genD }

/-! ### Register runs of the chain engine (R267 to R281) -/

/-- The generator that serves element i (R260). -/
def genOf (p : Prog) (i : Nat) : Nat := i * fmtSize (wfCode p.wf) / 8 % 32

/-- An operand element of a register run, when the format is not NONE. -/
def regOpnd (v : Vec) (r : Reg) (fmt i : Nat) : CVal :=
  if fmt ≤ 10 then (fmt, v.el r (fmtSize fmt) i) else (0, 0)

/-- The tile's vector unit and its record of outputs. -/
abbrev VN := Vec × Numerics

/-- One output of a chain: written and counted (R232, R235, R268). -/
def putOut (p : Prog) (vd : Reg) (d src i : Nat) (x : VN) (o : Nat) : VN :=
  if p.of = 11 then (x.1.setMask vd.toNat i (o = 1), x.2)
  else (x.1.setEl vd (fmtSize p.of) i o, countOut x.2 p.of d src 0 i o)

/-- A started `vchain` that does not reduce, on the elements of the sources as they stood. -/
def chainRun (p : Prog) (x : VEntry) (f : VF) (u : Vec) (d : Nat) (w : VN) : VN :=
  (x.actives u f.vm).foldl (fun w i =>
    let inp : ChainIn := { x := regOpnd u f.vs1 p.xf i, a := regOpnd u f.vs2 p.af i, b := regOpnd u f.vs3 p.bf i }
    let g := genGet w.1.genV 1 (genOf p i)
    let r := chainElem p inp g
    let o := chainOut p r.1 r.2
    let w := if o.2 = g then w else ({ w.1 with genV := aput w.1.genV (genOf p i) o.2 }, w.2)
    putOut p f.vd d 1 i w o.1) w

/-- The values of one row, its inactive elements at the identity, and the generators after it (R275, R276). -/
def rowVals (p : Prog) (active : Nat → Bool) (inp : Nat → ChainIn) (g : SMap Word) (i0 : Nat) : Nat → List Nat × SMap Word
  | 0 => ([], g)
  | n + 1 =>
    let (vs, g) := rowVals p active inp g i0 n
    let i := i0 + n
    if active i then
      let g0 := genGet g 1 (genOf p i)
      let r := chainElem p (inp i) g0
      (vs ++ [r.1.2], if r.2 = g0 then g else aput g (genOf p i) r.2)
    else (vs ++ [redIdent p], g)

/-- One row of a reducing chain: its output, and the generators (R261, R276). -/
def rowOut (p : Prog) (active : Nat → Bool) (inp : Nat → ChainIn) (g : SMap Word) (q : Nat) : Nat × SMap Word :=
  let (vs, g) := rowVals p active inp g (q * p.rl) p.rl
  let k := genOf p (q * p.rl)
  let g0 := genGet g 1 k
  let o := chainOut p (wfCode p.wf, redRow p vs) g0
  (o.1, if o.2 = g0 then g else aput g k o.2)

def chainReduce (p : Prog) (x : VEntry) (f : VF) (u : Vec) (d : Nat) (w : VN) : VN :=
  let q0 := x.vstart / p.rl
  let inp := fun i => ({ x := regOpnd u f.vs1 p.xf i, a := regOpnd u f.vs2 p.af i, b := regOpnd u f.vs3 p.bf i } : ChainIn)
  (List.range (x.cfg.vl / p.rl - q0)).foldl (fun w j =>
    let r := rowOut p (fun i => x.active u f.vm i) inp w.1.genV (q0 + j)
    putOut p f.vd d 1 (q0 + j) ({ w.1 with genV := r.2 }, w.2) r.1) w

/-- A started `vchain` (R234, R267). -/
def startVchain (s : State) (t : Nat) (x : VEntry) (f : VF) (n : Nat) : State :=
  s.updTile t fun y =>
    let p := progOf (chainBytes y.vec n)
    let (d, num) := takeDrain y.num
    let r := if p.reduces then chainReduce p x f y.vec d (y.vec, num) else chainRun p x f y.vec d (y.vec, num)
    { y with vec := r.1, num := r.2 }

/-- exp(-z) for z = t / 2^400 below 1, in units of 2^-400: its power series, summed from the term of 100 on. -/
def expSeries (t : Nat) : Nat :=
  (List.range 100).foldl (fun a j => 2 ^ 400 - t * a / 2 ^ 400 / (100 - j)) (2 ^ 400)

/-- exp(-m x 2^e) of an F32 magnitude, in units of 2^-400; 0 from 128 on, where it lies far below every F32 number. -/
def expNeg (m : Nat) (e : Int) : Nat :=
  let z := m * 2 ^ (e + 393).toNat
  if 2 ^ 400 ≤ z then 0 else (List.range 7).foldl (fun a _ => a * a / 2 ^ 400) (expSeries z)

/-- A positive F32 number in units of 2^-400. -/
def f32Units (x : Nat) : Nat :=
  match f32.val x with
  | .fin _ m e => m * 2 ^ (e + 400).toNat
  | _ => 0

/-- The F32 numbers within the error that R280 allows of `v` / 2^400: 2^-22 of it, and half the smallest spacing. -/
def expChoices (v : Nat) : List Nat :=
  let near := if v = 0 then 0 else (roundTo f32 .rne false v (-400)).1
  ((List.range 13).map fun k => near + k - 6).filter fun r =>
    let d := (f32Units r : Int) - v
    d.natAbs * 2 ^ 22 ≤ v || d.natAbs ≤ 2 ^ 250

/-- exp of `rownorm` on an argument that is 0 or negative (R280): exactly 1 at 0; elsewhere a fixed function, of which the model
knows the bound of its error only (log 16). -/
def expRow (x : Nat) : Nat :=
  match f32.val x with
  | .fin _ 0 _ => 0x3F800000
  | .fin _ m e =>
    let ys := expChoices (expNeg m e)
    ys.getD (Config.expF32 x % ys.length) 0
  | _ => 0

/-- A row's values and its status bit (R279, R280): `xs` are the elements of the row, none where the mask bit is 0. -/
def rownormRow (xs : List (Option Nat)) : List Nat × Bool :=
  let live := xs.map fun o => match o with | some v => if v = f32.inf true then none else some v | none => none
  let vals := live.filterMap id
  if vals.any fun v => f32.val v = .nan then (xs.map fun _ => f32.nan, false)
  else match vals with
    | [] => (xs.map fun _ => 0, true)
    | v0 :: vs =>
      let k := (vals.filter fun v => v = f32.inf false).length
      if 0 < k then
        let y := (fpDiv f32 .rne 0x3F800000 (intToF f32 .rne k).1).1
        (live.map fun o => if o = some (f32.inf false) then y else 0, false)
      else
        let m := vs.foldl (fun a b => if ltVal (f32.val a) (f32.val b) then b else a) v0
        let es := live.map fun o => match o with | some v => expRow (fpSub f32 .rne v m).1 | none => 0
        let lg := if xs.length ≤ 1 then 0 else Nat.log2 (xs.length - 1) + 1
        let padded := es ++ List.replicate (2 ^ lg - es.length) (f32.zero true)
        let sum := (treeReduce (fpAdd f32 .rne) lg padded).1.headD 0
        let rcp := (fpDiv f32 .rne 0x3F800000 sum).1
        (es.map fun e => (fpMul f32 .rne e rcp).1, false)

/-- A started `rownorm` (R278 to R281). -/
def startRownorm (s : State) (t : Nat) (x : VEntry) (f : VR) (md : MaskNo) : State :=
  s.updTile t fun y =>
    let u := y.vec
    let (d, num) := takeDrain y.num
    let rl := x.scal.toNat
    let w := (List.range (x.cfg.vl / rl)).foldl (fun (w : VN) q =>
      let r := rownormRow ((List.range rl).map fun j =>
        let i := q * rl + j
        if u.mask f.vm.toNat i then some (u.el f.vs1 4 i) else none)
      let w := (List.range rl).foldl (fun (w : VN) j =>
        let o := noNegZero f32 (r.1.getD j 0)
        (w.1.setEl f.vd 4 (q * rl + j) o, countOut w.2 0 d 1 0 (q * rl + j) o)) w
      (w.1.setMask md.toNat q r.2, w.2)) (u, num)
    { y with vec := w.1, num := w.2 }

/-! ### Starting one instruction, and all that wait -/

/-- An instruction of the FMA unit (R195, R269). -/
def fmaUnit (x : VEntry) : Bool :=
  match x.instr with
  | .vchain _ _ _ => true
  | .rownorm _ _ _ => true
  | i => match vinfo x.cfg i with | some v => v.fma | none => false

/-- Patrol by the spare lane (R191): p moves on after each FMA-unit instruction; a mismatch is logged and sounded. -/
def patrolStep (s : State) (t : Nat) (x : VEntry) (mismatch : Bool) : State :=
  let v := (s.tile t).vec
  if fmaUnit x && v.patrol then
    let s := if mismatch then patrolMismatch s (.vlane (Fin.ofNat 256 t) (Fin.ofNat 32 v.shadow)) else s
    s.updVec t fun v => { v with shadow := (v.shadow + 1) % 32 }
  else s

/-- The effect of a started instruction: its state, and the data fault it meets. -/
def startOne (s : State) (t : Nat) (x : VEntry) : State × Option (Nat × Word × AccErr) :=
  match x.instr with
  | .vld _ f => startVld (drainAll faddF32 s (tcore t)) t x f
  | .vst _ f => startVst (drainAll faddF32 s (tcore t)) t x f
  | .cld _ f => startCld (drainAll faddF32 s (tcore t)) t x f
  | .cst _ f => startCst (drainAll faddF32 s (tcore t)) t x f
  | .cseed _ _ => (s.updVec t fun v => seedAll v x.scal, none)
  | .vchain _ f n => (startVchain s t x f n.toNat, none)
  | .rownorm _ f md => (startRownorm s t x f md, none)
  | _ =>
    let r := vapply x (s.tile t).vec
    let s := s.updVec t fun _ => r.1
    (match r.2 with
      | some (rd, w) =>
        ((s.setReg (tcore t) rd w).updCore (tcore t) fun k => k.owe rd.toNat (Config.freeStall s.free)).tick
      | none => s, none)

/-- The vector registers that an instruction names, as (first, number). -/
def namedRegs (v : Vec) (x : VEntry) : List (Reg × Nat) :=
  let grp := fun (fmt : Nat) => max 1 (x.cfg.g * fmtSize fmt / x.cfg.bytes)
  match x.instr with
  | .vld _ f | .vst _ f => [(f.vt, x.cfg.g)]
  | .vchain _ f n =>
    let p := progOf (chainBytes v n.toNat)
    (if p.of = 11 then [] else [(f.vd, grp p.of)]) ++ [(f.vs1, grp p.xf)] ++
      (if p.af = 15 then [] else [(f.vs2, grp p.af)]) ++ (if p.bf = 15 then [] else [(f.vs3, grp p.bf)])
  | .rownorm _ f _ => [(f.vd, grp 0), (f.vs1, grp 0)]
  | .cmem _ f n _ =>
    let p := progOf (chainBytes v n.toNat)
    (if p.af = 15 then [] else [(f.vs2, grp p.af)]) ++ (if p.bf = 15 then [] else [(f.vs3, grp p.bf)])
  | i => match vinfo x.cfg i with | some w => w.regs.map fun r => (r.1, x.cfg.g * r.2) | none => []

/-- The first of them is written, unless the result is a mask, a scalar or memory. -/
def writesVec (v : Vec) (x : VEntry) : Bool :=
  match x.instr with
  | .vst _ _ | .cmem _ _ _ _ | .vmvXS _ _ | .vredsum _ _ | .vredmin _ _ | .vredmax _ _ | .vredminu _ _ | .vredmaxu _ _ | .vfredsum _ _
  | .vfredmin _ _ | .vfredmax _ _ | .vfcmpeq _ _ | .vfcmplt _ _ | .vfcmple _ _ | .vfcmpun _ _ | .vcmpeq _ _ | .vcmpne _ _
  | .vcmplt _ _ | .vcmpltu _ _ | .vcmple _ _ | .vcmpleu _ _ => false
  | .vchain _ _ n => (progOf (chainBytes v n.toNat)).of ≠ 11
  | _ => true

/-- Vector registers that a queued drain reads, and those that it writes (R298, R299). -/
def drainReads (e : Cp0Entry) : List (Reg × Nat) :=
  let p := progOf e.prog
  (if p.af = 15 then [] else [(BitVec.ofNat 5 (wfld e.r2 7 5), 1)]) ++ (if p.bf = 15 then [] else [(BitVec.ofNat 5 (wfld e.r2 12 5), 1)])

def drainWrites (e : Cp0Entry) : List (Reg × Nat) :=
  if wfld e.r2 4 3 = 1 then [(BitVec.ofNat 5 (wfld e.r1 0 5), max 1 (fmtSize (progOf e.prog).of / 2))] else []

/-- A vector instruction waits for the drains that were issued before it: `cseed` for every drain (R262), another for one
whose operands it writes, or whose destination it names (R198, R300). -/
def seedBlocked (s : State) (t : Nat) (x : VEntry) : Bool :=
  let v := (s.tile t).vec
  let hit := fun (a b : List (Reg × Nat)) => a.any fun p => b.any fun q => overlaps p.1 p.2 q.1 q.2
  (s.tile t).mtx.queue.any fun e => match e.instr with
    | .mdrain _ _ =>
      let regs := namedRegs v x
      let dst := if writesVec v x then regs.take 1 else []
      (match x.instr with | .cseed _ _ => true | _ => false) || hit dst (drainReads e) || hit regs (drainWrites e)
    | _ => false

/-- An instruction that gives a scalar result (R175). -/
def scalarResult : Instr → Bool
  | .vpopc _ _ | .vfirst _ _ | .vmvXS _ _ | .vredsum _ _ | .vredmin _ _ | .vredmax _ _ | .vredminu _ _ | .vredmaxu _ _
  | .vfredsum _ _ | .vfredmin _ _ | .vfredmax _ _ => true
  | _ => false

/-- An instruction that accesses memory, and may meet a data fault once it has started (R208, R264). -/
def vecMem (x : VEntry) : Bool :=
  match x.instr with
  | .vld _ _ | .vst _ _ | .cld _ _ | .cst _ _ => true
  | _ => false

/-- The oldest dispatched instruction starts (R194): it completes at once, or stands among the started ones when it accesses
memory or one before it does. True when it cannot start yet. -/
def startHead (s : State) (t : Nat) (mismatch : Bool) : State × Bool :=
  match (s.tile t).vec.vq with
  | [] => (s, false)
  | x :: xs =>
    if seedBlocked s t x then (s, true)
    else
      let s := s.updVec t fun v => { v with vq := xs }
      if vecMem x || (s.tile t).vec.run ≠ [] then
        (patrolStep (s.updVec t fun v => { v with run := v.run ++ [x] }) t x mismatch, false)
      else (patrolStep (startOne s t x).1 t x mismatch, false)

def startN : Nat → State → Nat → State × Bool
  | 0, s, _ => (s, false)
  | n + 1, s, t =>
    match startHead s t false with
    | (s, true) => (s, true)
    | (s, false) => startN n s t

/-- Data faults of started instructions: the oldest instruction that met one, its element, failing byte and failure, and whether a
younger instruction had started or issued before it (R208). -/
structure VFault where
  entry : VEntry
  elem : Nat
  addr : Word
  err : AccErr
  nr : Bool
  deriving DecidableEq, Repr

/-- A data fault beside an older one is written to the drip log only (R208, log 93). -/
def laterFault (s : State) (t : Nat) (a : Word) : State := contError s (srcTile t) 0x02 a.toNat

/-- A data fault joins what is known: the older of two is reported. -/
def joinFault (s : State) (t : Nat) (f : Option VFault) (g : VFault) : State × Option VFault :=
  match f with
  | none => (s, some g)
  | some f => (laterFault s t g.addr, some f)

/-- Started instructions run whole, in program order (R198); one that meets a data fault stops at its failing element, and those
behind it run on (R208). -/
def runStarted (t : Nat) : List VEntry → State → Option VFault → State × Option VFault
  | [], s, f => (s, f)
  | x :: xs, s, f =>
    match startOne s t x with
    | (s, none) => runStarted t xs s f
    | (s, some (e, a, err)) =>
      let r := joinFault s t f { entry := x, elem := e, addr := a, err := err, nr := x.passed || xs ≠ [] }
      runStarted t xs r.1 r.2

/-- What follows the completion of the started instructions: the entry of a data fault, if one of them met it. -/
def endStarted (t : Nat) (r : State × Option VFault) : State × Bool :=
  match r.2 with
  | none => (r.1, false)
  | some f => (dataFault r.1 t f.entry f.elem f.addr f.err f.nr, true)

/-- Every started instruction completes. True when a fault was entered. -/
def completeRun (s : State) (t : Nat) : State × Bool :=
  if (s.tile t).vec.run = [] then (s, false)
  else endStarted t (runStarted t (s.tile t).vec.run (s.updVec t fun v => { v with run := [] }) none)

/-- Every dispatched instruction starts, in order, and every started one completes (R194, R199). True when a fault was entered, or
one cannot start yet. -/
def startAll (s : State) (t : Nat) : State × Bool :=
  let r := startN (s.tile t).vec.vq.length s t
  let q := completeRun r.1 t
  (q.1, r.2 || q.2)

end Sys2Proof.Machine
end

