-- ==== Sys2Proof/Machine/Issue.lean ====
section
/-! DEFINITION. The issue of one instruction: when a core issues, the fetch and decode checks in the order of R120, the loop-end test of R88, and what follows the instruction's own effect. -/

namespace Sys2Proof.Machine

open Sys2Proof

/-- Where an instruction goes when it has had its effect. -/
inductive Flow where
  /-- It completes without a branch of its own: the loop-end test and the next instruction (R88). -/
  | seq
  /-- It takes its own branch or jump (R71, R88). -/
  | jump (a : Word)
  /-- The core stays at it (a park, a rep string stopped at an element boundary, a wait for remote data). -/
  | stay
  /-- A fault after part of its effect (R97), or a trap that saves `epc` (R122). -/
  | trap (t : Trap) (epc : Word)
  deriving DecidableEq, Repr

/-- The outcome of an instruction's own effect: state, flow, and the issue occupancy of R709. -/
structure Done where
  st : State
  flow : Flow
  occ : Nat

/-- A precise fault, or the instruction's own effect (R121). -/
abbrev Effect := Except Trap Done

/-- The usual outcome: the next instruction, one step of occupancy. -/
def done (s : State) : Effect := .ok { st := s, flow := .seq, occ := 1 }

def doneOcc (s : State) (n : Nat) : Effect := .ok { st := s, flow := .seq, occ := n }

def illegal : Effect := .error { code := cIllegal }

/-- A precise fault met by a memory access: what the access did at its target (counts, soundings, slices) remains. -/
def memFault (s : State) (c : CoreId) (t : Trap) : Effect := .ok { st := s, flow := .trap t (s.core c).pc, occ := 0 }

/-- The core has written a way split whose change waits or runs (R326). -/
def splitting (s : State) (c : CoreId) : Bool := s.tiles.any fun p => p.2.l1.changeBy = some c

/-- A core's issue stage runs (R37, R116, R664). -/
def issuing (s : State) (c : CoreId) : Bool :=
  s.power = .run && (s.core c).run = .running &&
  match c with
  | .tile t => !(s.tile t.val).paused && !(s.tile t.val).oos
  | .svc _ => true

/-- It waits at issue, for remote data or for a change of the way split (R36, R323, R326). -/
def held (s : State) (c : CoreId) : Bool := (s.core c).waitLoad.isSome || splitting s c

/-- The core stands between two instructions. -/
def coreReady (s : State) (c : CoreId) : Bool := issuing s c && !held s c

/-- Whether a core's issue stage takes an instruction: not while an enabled and unmasked interrupt is due, which is taken first
(R133, R143). -/
def canIssue (s : State) (c : CoreId) : Bool := coreReady s c && (bestSource s c).isNone

/-- The loop-end test of R88 for the instruction at `a`, from loop `i - 1` down: the counts, and the loop start taken. -/
def loopEnd (k : Core) (a : Word) : Nat → Core × Option Word
  | 0 => (k, none)
  | i + 1 =>
    if aget 0 k.lc i ≠ 0 && aget 0 k.le i = a then
      if 1 < (aget 0 k.lc i).toNat then ({ k with lc := aset 0 k.lc i (aget 0 k.lc i - 1) }, some (aget 0 k.ls i))
      else loopEnd { k with lc := aset 0 k.lc i 0 } a i
    else loopEnd k a i

/-- The next instruction after one of `len` bytes at `a` that takes no branch of its own (R88); a back-edge discards the fetch
window (R106). -/
def goNext (k : Core) (a : Word) (len : Nat) : Core :=
  let (k, t) := loopEnd k a 4
  match t with
  | some x => { k with pc := x, fwin := none }
  | none => { k with pc := a + BitVec.ofNat 64 len }

/-- A branch or jump to `a`, which discards the fetch window (R71, R106). -/
def goTo (k : Core) (a : Word) : Core := { k with pc := a, fwin := none }

/-- A fault is taken once every older vector instruction has started and completed (R121, R208, R210). -/
def issueFault (s : State) (c : CoreId) (t : Trap) (pc : Word) : State :=
  match c with
  | .tile n => let r := startAll s n.val; if r.2 then r.1 else takeFault r.1 c t pc
  | .svc _ => takeFault s c t pc

/-- Fetch, decode, checks and effect of the instruction of `len` bytes at the pc, which reads the keys `ks` (R120). -/
def issueFrom (c : CoreId) (ks : List Nat) (len : Nat) (legal : Bool) (body : State → Effect) (s : State) : State :=
  match prep s c ks len with
  | (s, .error t) => issueFault s c t (s.core c).pc
  | (s, .ok _) =>
    let pc := (s.core c).pc
    if !legal then issueFault s c { code := cIllegal } pc
    else match body s with
      | .error t => issueFault s c t pc
      | .ok d =>
        match d.flow with
        | .seq => (addSteps d.st c d.occ).updCore c fun k => goNext k pc len
        | .jump a =>
          if a.getLsbD 0 then issueFault s c { code := cIalign, addr := a } pc
          else (addSteps d.st c d.occ).updCore c fun k => goTo k a
        | .stay => addSteps d.st c d.occ
        | .trap t epc => takeFault d.st c t epc

/-- A register that a queued `msync` or `gsync` has yet to write, other than s0 (R98). -/
def owed (s : State) (c : CoreId) (r : Reg) : Bool :=
  match c with
  | .svc _ => false
  | .tile t => r ≠ 0 &&
    (((s.tile t.val).mtx.queue.any fun e => match e.instr with | .msync _ f => f.rd = r | _ => false) ||
      ((s.tile t.val).port.queue.any fun e => match e.instr with | .gsync _ f => f.rd = r | _ => false))

/-- Whether an instruction that reads the registers `rs` issues now: one that reads a register still to be written by a
coprocessor stalls (R83, R98, log 8). -/
def mayIssueReg (s : State) (c : CoreId) (rs : List Reg) : Bool := canIssue s c && !(rs.any (owed s c))

/-- An instruction that does not issue waits for stall steps, a free number of them, where the issue stage runs (R36, R37). -/
def waitStall (s : State) (c : CoreId) : State := if issuing s c && (bestSource s c).isNone then addStall s c else s

/-- An instruction that stays at issue to wait (R36). -/
def waitAt (s : State) (c : CoreId) : Effect := .ok { st := addStall s c, flow := .stay, occ := 0 }

/-- The vector instructions before the one that issues: all have started, and all have completed where it must find them
complete, because it says so or a scalar result is still due (R199). True when it does not issue: one of them cannot start yet,
or took a fault. -/
def olderRun (s : State) (c : CoreId) (sync : Bool) : State × Bool :=
  match c with
  | .svc _ => (s, false)
  | .tile t =>
    let v := (s.tile t.val).vec
    if sync || (v.vq ++ v.run).any fun x => scalarResult x.instr then startAll s t.val else startN v.vq.length s t.val

/-- What happens in place of an instruction whose older vector instructions keep it from issuing: it waits, unless a fault was
entered. -/
def olderStop (s : State) (c : CoreId) : State :=
  match c with
  | .tile t => if (s.tile t.val).vec.vq = [] then s else addStall s c
  | .svc _ => s

/-- An instruction of `len` bytes issues on a core, which reads the registers `rs` and the further keys `xs`. With `sync` it
finds the vector instructions before it completed. A core that does not issue takes nothing (R37, log 8). -/
def issue (c : CoreId) (rs : List Reg) (len : Nat) (legal : Bool) (body : State → Effect) (s : State) (xs : List Nat := [])
    (sync : Bool := true) : State :=
  if !mayIssueReg s c rs then waitStall s c
  else
    let r := olderRun s c sync
    if r.2 then olderStop r.1 c else issueFrom c (rs.map (·.toNat) ++ xs) len legal body r.1

/-- A vector instruction of 4 bytes dispatches on a tile (R193): those before it complete first only where `wait` says so. -/
def vissue (t : TileId) (rs : List Reg) (wait : State → Bool) (body : State → Effect) (s : State) : State :=
  let c : CoreId := .tile t
  if !mayIssueReg s c rs then waitStall s c
  else if wait s then let r := startAll s t.val; if r.2 then olderStop r.1 c else issueFrom c (rs.map (·.toNat)) 4 true body r.1
  else issueFrom c (rs.map (·.toNat)) 4 true body s

/-- The pc at which the issuing instruction stands. -/
def pcOf (s : State) (c : CoreId) : Word := (s.core c).pc

/-- A consumer of loaded data issues 2 steps later on a hit, else later by a free number of steps (R83, R84, R709, log 2). -/
def loadOwe (s : State) (c : CoreId) (rd : Reg) (hit : Bool) : State :=
  if hit then s.updCore c fun k => k.owe rd.toNat 2
  else (s.updCore c fun k => k.owe rd.toNat (2 + Config.freeStall s.free)).tick

/-- The older writes of a core are performed, for which it waits at issue (R36, R345). -/
def drainWait (s : State) (c : CoreId) : State :=
  drainAll faddF32 (if (s.core c).sbuf = [] then s else addStall s c) c

/-- A store that finds the buffer full waits at issue (R36, R145). -/
def bufferStall (s : State) (c : CoreId) : State := if 8 ≤ (s.core c).sbuf.length then addStall s c else s

end Sys2Proof.Machine
end

