-- ==== Sys2Proof/Machine/Operands.lean ====
section
/-! DEFINITION. The operand forms of the scalar instructions: length, destination, source values, whether the flags are set, and the fields that must be 0 (R72 to R77). -/

namespace Sys2Proof.Machine

open Sys2Proof

/-- The operands of an ALU instruction: destination, the registers it reads, two source values, and whether it sets the flags (R68). -/
structure AluArgs where
  rd : Reg
  srcs : List Reg
  x : Word
  y : Word
  setf : Bool
  deriving DecidableEq, Repr

/-- Layout LR (R74). -/
def lrArgs (k : Core) (f : LR) : AluArgs := { rd := f.rd, srcs := [f.rs1, f.rs2], x := k.reg f.rs1, y := k.reg f.rs2, setf := f.f }

/-- A sign-extended 14-bit immediate (R75). -/
def imm14 (i : BitVec 14) : Word := i.signExtend 64

/-- Layout LI (R74). -/
def liArgs (k : Core) (f : LI) : AluArgs := { rd := f.rd, srcs := [f.rs1], x := k.reg f.rs1, y := imm14 f.imm, setf := f.f }

/-- Short SR or long LR; the short form always sets the flags (R68, R72). -/
def aluArgs (k : Core) : AluForm → AluArgs
  | .short rd rs => { rd := rd, srcs := [rd, rs], x := k.reg rd, y := k.reg rs, setf := true }
  | .long f => lrArgs k f

def aluLen : AluForm → Nat
  | .short _ _ => 2
  | .long _ => 4

/-- Short SI or long LI of `addi` (R73, R75). -/
def immArgs (k : Core) : ImmForm → AluArgs
  | .short rd i => { rd := rd, srcs := [rd], x := k.reg rd, y := i.signExtend 64, setf := true }
  | .long f => liArgs k f

def immLen : ImmForm → Nat
  | .short _ _ => 2
  | .long _ => 4

/-- The long form of an immediate shift (R75): bits imm[11:6] must be 0. -/
def shLong (k : Core) (f : LISh) : AluArgs := { rd := f.rd, srcs := [f.rs1], x := k.reg f.rs1, y := f.amt.zeroExtend 64, setf := f.f }

def shiftArgs (k : Core) : ShiftForm → AluArgs
  | .short rd i => { rd := rd, srcs := [rd], x := k.reg rd, y := i.zeroExtend 64, setf := true }
  | .long f => shLong k f

def shiftLen : ShiftForm → Nat
  | .short _ _ => 2
  | .long _ => 4

def shiftLegal : ShiftForm → Bool
  | .short _ _ => true
  | .long f => f.mbz = 0

/-- A shift amount: the low six bits (R77). -/
def amount (y : Word) : Nat := wfld y 0 6

/-- An ALU instruction writes its result, and the flags when it sets them (R68, R69). A consumer issues `lat` steps after it at
the earliest, the next one when that is 1 (R83, R84). -/
def aluWrite (a : AluArgs) (lat : Nat) (r : Word × Flags) (k : Core) : Core :=
  let k := k.setReg a.rd r.1
  let k := if a.setf then k.setFl r.2 else k
  if lat ≤ 1 then k else (if a.setf then k.owe keyFl lat else k).owe a.rd.toNat lat

/-- An instruction issues past the vector accesses that have started and not completed (R199, R208). -/
def markPassed (s : State) (c : CoreId) : State :=
  match c with
  | .tile t =>
    if (s.tile t.val).vec.run = [] then s
    else s.updVec t.val fun v => { v with run := v.run.map fun x => { x with passed := true } }
  | .svc _ => s

/-- Classes of ALU instructions that differ in time (R84): `lat` is the step count less 2; `fl`: it reads the flags; `div`: it
occupies the divider until it completes. -/
structure AluTime where
  lat : Nat := 1
  fl : Bool := false
  div : Bool := false
  deriving DecidableEq, Repr

/-- The keys beyond its registers that an ALU instruction awaits. -/
def AluTime.keys (m : AluTime) : List Nat := (if m.fl then [keyFl] else []) ++ (if m.div then [keyDiv] else [])

/-- An ALU instruction's effect on the core; a division occupies the divider for its 36 steps. -/
def aluEffect (m : AluTime) (a : AluArgs) (r : Word × Flags) (k : Core) : Core :=
  let k := if m.div then k.owe keyDiv 36 else k
  aluWrite a m.lat r k

/-- An ALU instruction of `len` bytes: `res` gives result and flags from the carry and the two source values. -/
def aluRun (c : CoreId) (len : Nat) (legal : Bool) (args : Core → AluArgs) (res : Bool → Word → Word → Word × Flags)
    (s : State) (m : AluTime := {}) : State :=
  issue c (args (s.core c)).srcs len legal (fun s =>
    let k := s.core c
    let a := args k
    done ((markPassed s c).updCore c (aluEffect m a (res k.fl.c a.x a.y)))) s m.keys false

/-- Length and address of a load (R73, R79): destination, bytes, sign extension. -/
structure LdArgs where
  rt : Reg
  addr : Word
  size : Nat
  signed : Bool
  deriving DecidableEq, Repr

def ldSize : LdKind → Nat
  | .b | .bu => 1
  | .h | .hu => 2
  | .w | .wu => 4
  | .d => 8

def ldSigned : LdKind → Bool
  | .b | .h | .w | .d => true
  | _ => false

def ldArgs (k : Core) : LdForm → LdArgs
  | .shortD rd rs => { rt := rd, addr := k.reg rs, size := 8, signed := true }
  | .shortW rd rs => { rt := rd, addr := k.reg rs, size := 4, signed := true }
  | .long w rt b i => { rt := rt, addr := k.reg b + i.signExtend 64, size := ldSize w, signed := ldSigned w }

def ldLen : LdForm → Nat
  | .long _ _ _ _ => 4
  | _ => 2

/-- A store (R73, R79): value, bytes, address. -/
structure StArgs where
  val : Word
  addr : Word
  size : Nat
  deriving DecidableEq, Repr

def stSize : StKind → Nat
  | .b => 1
  | .h => 2
  | .w => 4
  | .d => 8

def stArgs (k : Core) : StForm → StArgs
  | .shortD rt rs => { val := k.reg rt, addr := k.reg rs, size := 8 }
  | .shortW rt rs => { val := k.reg rt, addr := k.reg rs, size := 4 }
  | .long w rt b i => { val := k.reg rt, addr := k.reg b + i.signExtend 64, size := stSize w }

def stLen : StForm → Nat
  | .long _ _ _ _ => 4
  | _ => 2

/-- The value a load writes: extended from its width (R79). -/
def extend (signed : Bool) (bs : List Byte) : Word :=
  if signed then BitVec.ofInt 64 (toInt (8 * bs.length) (ofBytes bs)) else wordOf bs

end Sys2Proof.Machine
end

