-- ==== Sys2Proof/Machine/Scalar.lean ====
section
/-! DEFINITION. The scalar arithmetic and logic instructions (R73, R75, R77, R78). -/

namespace Sys2Proof.Machine

open Sys2Proof

abbrev Result := Host.Outcome State Fault Refusal

/-! ### Results -/

def resAdd (_ : Bool) (x y : Word) : Word × Flags := addFlags x y false
def resSub (_ : Bool) (x y : Word) : Word × Flags := subFlags x y true
def resAdc (c : Bool) (x y : Word) : Word × Flags := addFlags x y c
def resSbc (c : Bool) (x y : Word) : Word × Flags := subFlags x y c
def resAnd (_ : Bool) (x y : Word) : Word × Flags := logicFlags (x &&& y) false
def resOr (_ : Bool) (x y : Word) : Word × Flags := logicFlags (x ||| y) false
def resXor (_ : Bool) (x y : Word) : Word × Flags := logicFlags (x ^^^ y) false
def resAndn (_ : Bool) (x y : Word) : Word × Flags := logicFlags (x &&& ~~~y) false
def resShl (_ : Bool) (x y : Word) : Word × Flags := logicFlags (x <<< amount y) false
def resShr (_ : Bool) (x y : Word) : Word × Flags := logicFlags (x >>> amount y) false
def resSar (_ : Bool) (x y : Word) : Word × Flags := logicFlags (x.sshiftRight (amount y)) false
def resRol (_ : Bool) (x y : Word) : Word × Flags := logicFlags (x.rotateLeft (amount y)) false
def resSlt (_ : Bool) (x y : Word) : Word × Flags := logicFlags (if x.slt y then 1 else 0) false
def resSltu (_ : Bool) (x y : Word) : Word × Flags := logicFlags (if x.ult y then 1 else 0) false
def resMin (_ : Bool) (x y : Word) : Word × Flags := logicFlags (if x.slt y then x else y) false
def resMax (_ : Bool) (x y : Word) : Word × Flags := logicFlags (if x.slt y then y else x) false
def resMinu (_ : Bool) (x y : Word) : Word × Flags := logicFlags (if x.ult y then x else y) false
def resMaxu (_ : Bool) (x y : Word) : Word × Flags := logicFlags (if x.ult y then y else x) false

/-- Low 64 bits of the product; v when the signed product does not fit in 64 bits (R77). The short form, which always sets the
flags, sets v so too (DESIGN CHOICE: R69 and R73 do not say; log 94). -/
def resMul (_ : Bool) (x y : Word) : Word × Flags :=
  let p := x.toInt * y.toInt
  logicFlags (x * y) (decide (p < -(2 ^ 63) ∨ 2 ^ 63 ≤ p))

def resMulh (_ : Bool) (x y : Word) : Word × Flags := logicFlags (BitVec.ofInt 64 (x.toInt * y.toInt / 2 ^ 64)) false
def resMulhu (_ : Bool) (x y : Word) : Word × Flags := logicFlags (BitVec.ofNat 64 (x.toNat * y.toNat / 2 ^ 64)) false

/-- The most negative word. -/
def minWord : Word := 0x8000000000000000

/-- Signed division toward zero, with the cases of R78. -/
def resDiv (_ : Bool) (x y : Word) : Word × Flags :=
  if y = 0 then logicFlags (BitVec.allOnes 64) true
  else if x = minWord && y = BitVec.allOnes 64 then logicFlags minWord true
  else logicFlags (BitVec.ofInt 64 (x.toInt.tdiv y.toInt)) false

def resDivu (_ : Bool) (x y : Word) : Word × Flags :=
  if y = 0 then logicFlags (BitVec.allOnes 64) true else logicFlags (x / y) false

/-- Signed remainder with the sign of rs1, with the cases of R78. -/
def resRem (_ : Bool) (x y : Word) : Word × Flags :=
  if y = 0 then logicFlags x true
  else if x = minWord && y = BitVec.allOnes 64 then logicFlags 0 true
  else logicFlags (BitVec.ofInt 64 (x.toInt.tmod y.toInt)) false

def resRemu (_ : Bool) (x y : Word) : Word × Flags :=
  if y = 0 then logicFlags x true else logicFlags (x % y) false

/-- Leading zeros of the low `n` bits, from bit n - 1 down. -/
def leadZeros (x : Word) : Nat → Nat
  | 0 => 0
  | n + 1 => if x.getLsbD n then 0 else 1 + leadZeros x n

/-- Trailing zeros from bit 64 - n up. -/
def trailZeros (x : Word) : Nat → Nat
  | 0 => 0
  | n + 1 => if x.getLsbD (63 - n) then 0 else 1 + trailZeros x n

def popCount (x : Word) : Nat → Nat
  | 0 => 0
  | n + 1 => b2n (x.getLsbD n) + popCount x n

def resClz (_ : Bool) (x _ : Word) : Word × Flags := logicFlags (BitVec.ofNat 64 (leadZeros x 64)) false
def resCtz (_ : Bool) (x _ : Word) : Word × Flags := logicFlags (BitVec.ofNat 64 (trailZeros x 64)) false
def resPopc (_ : Bool) (x _ : Word) : Word × Flags := logicFlags (BitVec.ofNat 64 (popCount x 64)) false
def resBswap (_ : Bool) (x _ : Word) : Word × Flags := logicFlags (wordOf (toBytes 8 x.toNat).reverse) false

def resSext (w : SextWidth) (_ : Bool) (x _ : Word) : Word × Flags :=
  let n := match w with | .b => 1 | .h => 2 | .w => 4
  logicFlags (extend true (toBytes n x.toNat)) false

def resZextW (_ : Bool) (x _ : Word) : Word × Flags := logicFlags (wordOf (toBytes 4 x.toNat)) false

/-! ### Meanings -/

/-- The step counts of a division (R84). -/
def divTime : AluTime := { lat := 34, div := true }

def execMov (c : CoreId) (rd rs : Reg) (s : State) : Result :=
  .next (aluRun c 2 true (fun k => { rd := rd, srcs := [rs], x := k.reg rs, y := 0, setf := true }) (fun _ x _ => logicFlags x false) s)

def execMovi (c : CoreId) (rd : Reg) (imm : Imm5) (s : State) : Result :=
  .next (aluRun c 2 true (fun _ => { rd := rd, srcs := [], x := imm.signExtend 64, y := 0, setf := true }) (fun _ x _ => logicFlags x false) s)

def execAdd (c : CoreId) (f : AluForm) (s : State) : Result := .next (aluRun c (aluLen f) true (aluArgs · f) resAdd s)
def execSub (c : CoreId) (f : AluForm) (s : State) : Result := .next (aluRun c (aluLen f) true (aluArgs · f) resSub s)
def execAdc (c : CoreId) (f : LR) (s : State) : Result := .next (aluRun c 4 true (lrArgs · f) resAdc s { fl := true })
def execSbc (c : CoreId) (f : LR) (s : State) : Result := .next (aluRun c 4 true (lrArgs · f) resSbc s { fl := true })
def execAndR (c : CoreId) (f : AluForm) (s : State) : Result := .next (aluRun c (aluLen f) true (aluArgs · f) resAnd s)
def execOrR (c : CoreId) (f : AluForm) (s : State) : Result := .next (aluRun c (aluLen f) true (aluArgs · f) resOr s)
def execXorR (c : CoreId) (f : AluForm) (s : State) : Result := .next (aluRun c (aluLen f) true (aluArgs · f) resXor s)
def execAndn (c : CoreId) (f : LR) (s : State) : Result := .next (aluRun c 4 true (lrArgs · f) resAndn s)
def execShl (c : CoreId) (f : AluForm) (s : State) : Result := .next (aluRun c (aluLen f) true (aluArgs · f) resShl s)
def execShr (c : CoreId) (f : AluForm) (s : State) : Result := .next (aluRun c (aluLen f) true (aluArgs · f) resShr s)
def execSar (c : CoreId) (f : AluForm) (s : State) : Result := .next (aluRun c (aluLen f) true (aluArgs · f) resSar s)
def execRol (c : CoreId) (f : LR) (s : State) : Result := .next (aluRun c 4 true (lrArgs · f) resRol s)

/-- Flags of rd - rs; no register is written (R73). -/
def execCmp (c : CoreId) (rd rs : Reg) (s : State) : Result :=
  .next (aluRun c 2 true (fun k => { rd := 0, srcs := [rd, rs], x := k.reg rd, y := k.reg rs, setf := true }) resSub s)

def execCmpi (c : CoreId) (rd : Reg) (imm : Imm5) (s : State) : Result :=
  .next (aluRun c 2 true (fun k => { rd := 0, srcs := [rd], x := k.reg rd, y := imm.signExtend 64, setf := true }) resSub s)

def execMul (c : CoreId) (f : AluForm) (s : State) : Result := .next (aluRun c (aluLen f) true (aluArgs · f) resMul s { lat := 3 })
def execMulh (c : CoreId) (f : LR) (s : State) : Result := .next (aluRun c 4 true (lrArgs · f) resMulh s { lat := 3 })
def execMulhu (c : CoreId) (f : LR) (s : State) : Result := .next (aluRun c 4 true (lrArgs · f) resMulhu s { lat := 3 })
def execDiv (c : CoreId) (f : LR) (s : State) : Result := .next (aluRun c 4 true (lrArgs · f) resDiv s divTime)
def execDivu (c : CoreId) (f : LR) (s : State) : Result := .next (aluRun c 4 true (lrArgs · f) resDivu s divTime)
def execRem (c : CoreId) (f : LR) (s : State) : Result := .next (aluRun c 4 true (lrArgs · f) resRem s divTime)
def execRemu (c : CoreId) (f : LR) (s : State) : Result := .next (aluRun c 4 true (lrArgs · f) resRemu s divTime)
def execSlt (c : CoreId) (f : LR) (s : State) : Result := .next (aluRun c 4 true (lrArgs · f) resSlt s)
def execSltu (c : CoreId) (f : LR) (s : State) : Result := .next (aluRun c 4 true (lrArgs · f) resSltu s)
def execMinR (c : CoreId) (f : LR) (s : State) : Result := .next (aluRun c 4 true (lrArgs · f) resMin s)
def execMaxR (c : CoreId) (f : LR) (s : State) : Result := .next (aluRun c 4 true (lrArgs · f) resMax s)
def execMinu (c : CoreId) (f : LR) (s : State) : Result := .next (aluRun c 4 true (lrArgs · f) resMinu s)
def execMaxu (c : CoreId) (f : LR) (s : State) : Result := .next (aluRun c 4 true (lrArgs · f) resMaxu s)

/-- rs2 must be s0 (R77). -/
def unaryLegal (f : LR) : Bool := f.rs2 = 0

def execClz (c : CoreId) (f : LR) (s : State) : Result := .next (aluRun c 4 (unaryLegal f) (lrArgs · f) resClz s)
def execCtz (c : CoreId) (f : LR) (s : State) : Result := .next (aluRun c 4 (unaryLegal f) (lrArgs · f) resCtz s)
def execPopc (c : CoreId) (f : LR) (s : State) : Result := .next (aluRun c 4 (unaryLegal f) (lrArgs · f) resPopc s)
def execBswap (c : CoreId) (f : LR) (s : State) : Result := .next (aluRun c 4 (unaryLegal f) (lrArgs · f) resBswap s)
def execSext (c : CoreId) (w : SextWidth) (f : LR) (s : State) : Result :=
  .next (aluRun c 4 (unaryLegal f) (lrArgs · f) (resSext w) s)
def execZextW (c : CoreId) (f : LR) (s : State) : Result := .next (aluRun c 4 (unaryLegal f) (lrArgs · f) resZextW s)

def execAddi (c : CoreId) (f : ImmForm) (s : State) : Result := .next (aluRun c (immLen f) true (immArgs · f) resAdd s)
def execAndi (c : CoreId) (f : LI) (s : State) : Result := .next (aluRun c 4 true (liArgs · f) resAnd s)
def execOri (c : CoreId) (f : LI) (s : State) : Result := .next (aluRun c 4 true (liArgs · f) resOr s)
def execXori (c : CoreId) (f : LI) (s : State) : Result := .next (aluRun c 4 true (liArgs · f) resXor s)
def execShli (c : CoreId) (f : ShiftForm) (s : State) : Result :=
  .next (aluRun c (shiftLen f) (shiftLegal f) (shiftArgs · f) resShl s)
def execShri (c : CoreId) (f : ShiftForm) (s : State) : Result :=
  .next (aluRun c (shiftLen f) (shiftLegal f) (shiftArgs · f) resShr s)
def execSari (c : CoreId) (f : ShiftForm) (s : State) : Result :=
  .next (aluRun c (shiftLen f) (shiftLegal f) (shiftArgs · f) resSar s)
def execRoli (c : CoreId) (f : LISh) (s : State) : Result := .next (aluRun c 4 (f.mbz = 0) (shLong · f) resRol s)
def execSlti (c : CoreId) (f : LI) (s : State) : Result := .next (aluRun c 4 true (liArgs · f) resSlt s)
def execSltiu (c : CoreId) (f : LI) (s : State) : Result := .next (aluRun c 4 true (liArgs · f) resSltu s)

/-- rd = sign-extended imm20 x 2^14; no flag (R75). -/
def execLui (c : CoreId) (rd : Reg) (imm : Imm20) (s : State) : Result :=
  .next (aluRun c 4 true (fun _ => { rd := rd, srcs := [], x := (imm.signExtend 64) <<< 14, y := 0, setf := false })
    (fun _ x _ => logicFlags x false) s)

/-- rd = (rd x 2^20) OR imm20; no flag (R75). -/
def execLsh (c : CoreId) (rd : Reg) (imm : Imm20) (s : State) : Result :=
  .next (aluRun c 4 true (fun k => { rd := rd, srcs := [rd], x := (k.reg rd <<< 20) ||| imm.zeroExtend 64, y := 0, setf := false })
    (fun _ x _ => logicFlags x false) s)

end Sys2Proof.Machine
end

