-- ==== Sys2Proof/Machine/SysRegs.lean ====
section
/-! DEFINITION. The special and system registers (R66, R67, R85, R115, R163): which exist, who may reach them, what a read returns and what a write does. -/

namespace Sys2Proof.Machine

open Sys2Proof

/-- How code reaches a register (R66, R110, R115). -/
inductive SrClass where
  /-- Not a register of this core: ILLEGAL. -/
  | none
  /-- Kernel and task read and write. -/
  | both
  /-- Kernel reads and writes, task reads. -/
  | taskRead
  /-- Kernel only. -/
  | kernel
  deriving DecidableEq, Repr

/-- Whether a core has the long-vector unit, and cp2 (R62). Service core 12 is Ochre's. -/
def hasVec : CoreId → Bool
  | .tile _ => true
  | .svc _ => false

def hasHash : CoreId → Bool
  | .tile _ => true
  | .svc n => n.val = 12

/-- The class of register `n` of a core. -/
def srClass (c : CoreId) (n : Nat) : SrClass :=
  if n ≤ 1 || (0x10 ≤ n && n ≤ 0x1B) then .both
  else if n = 0x100 then .taskRead
  else if (0x101 ≤ n && n ≤ 0x106) || (0x108 ≤ n && n ≤ 0x10B) || (0x110 ≤ n && n ≤ 0x12F) then .kernel
  else if (0x130 ≤ n && n ≤ 0x132) || (0x134 ≤ n && n ≤ 0x137) then .both
  else if n = 0x138 || n = 0x139 then .kernel
  else if hasVec c && (n = 0x180 || n = 0x181) then .taskRead
  else if hasVec c && n = 0x182 then .both
  else if hasVec c && (n = 0x183 || n = 0x184) then .kernel
  else .none

/-- TILE_T0STAT (R157). -/
def t0stat (k : Core) : Word :=
  let e := fun i => aget {} k.t0 i
  let bits := fun (f : T0Entry → Bool) => b2n (f (e 0)) + 2 * b2n (f (e 1)) + 4 * b2n (f (e 2)) + 8 * b2n (f (e 3))
  pack [(bits fun x => x.fired, 8), (bits fun x => x.waitq, 4), (bits fun x => x.busy, 0)]

/-- ZCFG (R64). -/
def zcfg (c : CoreId) : Word := pack [(1, 8), (b2n (hasHash c), 3), (b2n (hasVec c), 2), (b2n (hasVec c), 1), (b2n (hasVec c), 0)]

/-- What a read of register `n` returns; write-only registers read 0 (R7). -/
def srRead (s : State) (c : CoreId) (n : Nat) : Word :=
  let k := s.core c
  let v := match c with | .tile t => (s.tile t.val).vec | .svc _ => {}
  if n = 0 then k.fl.word
  else if n = 1 then zcfg c
  else if 0x10 ≤ n && n < 0x14 then aget 0 k.ls (n - 0x10)
  else if 0x14 ≤ n && n < 0x18 then aget 0 k.le (n - 0x14)
  else if 0x18 ≤ n && n < 0x1C then aget 0 k.lc (n - 0x18)
  else if 0x110 ≤ n && n < 0x130 then (if n % 2 = 0 then aget 0 k.pwinLo ((n - 0x110) / 2) else aget 0 k.pwinHi ((n - 0x110) / 2))
  else if 0x134 ≤ n && n < 0x138 then BitVec.ofNat 64 (aget {} k.t0 (n - 0x134)).deadline
  else match n with
    | 0x100 => k.status.word
    | 0x101 => k.epc
    | 0x102 => k.ecause
    | 0x103 => k.eaddr
    | 0x104 => k.evec
    | 0x105 => k.ksp
    | 0x106 => k.bsvec
    | 0x108 => (ipend s c).zeroExtend 64
    | 0x109 => k.ien.zeroExtend 64
    | 0x10A => k.lse
    | 0x10B => pack [(k.lseMore, 8), (k.lseKind.toNat, 0)]
    | 0x130 => t0stat k
    | 0x138 => pack [(k.t1period.toNat, 8), (b2n k.t1en, 0)]
    | 0x139 => pack [(k.profMissed, 32), (k.profPeriod.toNat, 8), (b2n k.profEn, 0)]
    | 0x180 => v.cfg.word
    | 0x181 => BitVec.ofNat 64 v.vstart
    | 0x182 => v.csr.word
    | 0x183 => pack [(v.fltVt.toNat, 8), (b2n v.fltNr, 2), (v.fltKind.toNat, 0)]
    | 0x184 => pack [(v.shadow, 19), (b2n v.patrol, 18), (b2n v.spent, 7), (v.spare, 0)]
    | _ => 0

/-! ### Timers (R157 to R160) -/

/-- An alarm expires (R158): its entry is free, and its fired bit set. -/
def t0fire (k : Core) (i : Nat) : Core :=
  { k with t0 := aput k.t0 i { aget {} k.t0 i with busy := false, waitq := false, fired := true } }

/-- The lowest free timer 0 entry (R157). -/
def t0free (k : Core) : Option Nat := (List.range 4).find? fun i => !(aget {} k.t0 i).busy

/-- A timer 0 entry is taken with a deadline, as an alarm or for a `waitq`. -/
def t0take (k : Core) (i : Nat) (waitq : Bool) (d : Nat) : Core :=
  { k with t0 := aput k.t0 i { aget {} k.t0 i with busy := true, waitq := waitq, deadline := d } }

/-- A write of TILE_T0ARM (R157): none when all entries are busy. A deadline already past expires at once (R158). -/
def t0arm (k : Core) (now : Nat) (d : Word) : Option Core :=
  (t0free k).map fun i =>
    let k := t0take k i false d.toNat
    if d.toNat ≤ now then t0fire k i else k

/-- A write of TILE_T0CAN (R157): alarm entries named by the bits are freed. -/
def t0cancel (k : Core) (v : Word) : Core :=
  (List.range 4).foldl (fun k i =>
    let e := aget {} k.t0 i
    if wbit v i && e.busy && !e.waitq then { k with t0 := aput k.t0 i { e with busy := false } } else k) k

/-- A write of TILE_T0STAT: fired bits are write-one-to-clear (R157). -/
def t0clear (k : Core) (v : Word) : Core :=
  (List.range 4).foldl (fun k i =>
    if wbit v (8 + i) then { k with t0 := aput k.t0 i { aget {} k.t0 i with fired := false } } else k) k

/-- A write of TILE_T1CTL (R160): discarded when it would leave en 1 with period 0; a kick, an enable or another period
restarts the count. -/
def t1write (k : Core) (now : Nat) (v : Word) : Core :=
  let p : BitVec 24 := v.extractLsb' 8 24
  let en := wbit v 0
  if en && p = 0 then k
  else
    let restart := en && (wbit v 1 || !k.t1en || k.t1period ≠ p)
    { k with t1en := en, t1period := p, t1due := if restart then now + p.toNat * 1000 else k.t1due }

/-- A write of TILE_PROF (R159). -/
def profWrite (k : Core) (v : Word) : Core :=
  { k with profEn := wbit v 0, profPeriod := v.extractLsb' 8 24, profMissed := if wbit v 0 then k.profMissed else 0 }

/-- A write of TILE_LSECNT (R146): TILE_LSE, which it frees, reads 0 until the next error (DESIGN CHOICE: R146 does not say; log
97). -/
def lseClear (k : Core) : Core := { k with lseKind := 0, lseMore := 0, lse := 0 }

/-! ### Writes -/

/-- A write to the vector state (R164, R167, R178). -/
def vecWrite (v : Vec) (n : Nat) (w : Word) : Vec :=
  if n = 0x180 then
    let c : VCfg := { ew := w.extractLsb' 0 2, grp := w.extractLsb' 8 2, f16 := wbit w 10, vl := wfld w 32 17 }
    { v with cfg := { c with vl := min c.vl c.vlmax } }
  else if n = 0x181 then { v with vstart := wfld w 0 15 }
  else if n = 0x182 then { v with csr := vcsrOf w }
  else v

/-- The core after a write of register `n`; none where it raises TIMER_BUSY. Read-only fields keep their value (R7, R9). -/
def coreWrite (k : Core) (now : Nat) (n : Nat) (w : Word) : Option Core :=
  if 0x10 ≤ n && n < 0x14 then some { k with ls := aset 0 k.ls (n - 0x10) (w &&& 0xFFFFFFFFFE) }
  else if 0x14 ≤ n && n < 0x18 then some { k with le := aset 0 k.le (n - 0x14) (w &&& 0xFFFFFFFFFE) }
  else if 0x18 ≤ n && n < 0x1C then some { k with lc := aset 0 k.lc (n - 0x18) (w &&& 0xFFFFFFFF) }
  else if 0x110 ≤ n && n < 0x130 then
    some (if n % 2 = 0 then { k with pwinLo := aset 0 k.pwinLo ((n - 0x110) / 2) (w &&& 0xFFFFFFFF9F) }
      else { k with pwinHi := aset 0 k.pwinHi ((n - 0x110) / 2) (w &&& 0xFFFFFFFF80) })
  else match n with
    | 0 => some (k.setFl (flagsOf w))
    | 0x104 => some { k with evec := w &&& ~~~(0x1FF#64) }
    | 0x105 => some { k with ksp := w }
    | 0x106 => some { k with bsvec := w &&& ~~~(0x3F#64) }
    | 0x108 => some { k with
        ipWdog := k.ipWdog && !wbit w 6, ipLst := k.ipLst && !wbit w 5, ipFe := k.ipFe && !wbit w 4, ipProf := k.ipProf && !wbit w 1 }
    | 0x109 => some { k with ien := w.extractLsb' 0 7 &&& 0x7E }
    | 0x10B => some (lseClear k)
    | 0x130 => some (t0clear k w)
    | 0x131 => t0arm k now w
    | 0x132 => some (t0cancel k w)
    | 0x138 => some (t1write k now w)
    | 0x139 => some (profWrite k w)
    | _ => some k

/-- The state after a write of register `n` of a core. -/
def srWrite (s : State) (c : CoreId) (n : Nat) (w : Word) : Option State :=
  match coreWrite (s.core c) s.mono n w with
  | none => none
  | some k =>
    let s := s.setCore c k
    some (match c with
      | .tile t => if 0x180 ≤ n then s.updVec t.val fun v => vecWrite v n w else s
      | .svc _ => s)

/-- The fault of an access by `mfsr` or `mtsr` (R82, R110, R117). -/
def srFault (k : Core) (cls : SrClass) (n : Nat) (write : Bool) : Option Trap :=
  match cls with
  | .none => some { code := cIllegal }
  | .both => none
  | .taskRead =>
    if write && n = 0x100 then some { code := cIllegal }
    else if write && !k.status.lvl then some { code := cPriv } else none
  | .kernel => if k.status.lvl then none else some { code := cPriv }

end Sys2Proof.Machine
end

