-- ==== Sys2Proof/Machine/Hash.lean ====
section
/-! DEFINITION. The hash engine cp2 (R101 to R103): Keccak-f[1600], SHAKE absorption and squeezing, and the cp2 instructions; and SHAKE256 as a function, which joins and measurements use. -/

namespace Sys2Proof.Machine

open Sys2Proof

/-! ### Keccak-f[1600] of FIPS 202 -/

/-- One step of the shift register that gives the round constants: x^8 + x^6 + x^5 + x^4 + 1. -/
def lfsrStep (r : Nat) : Nat := if 128 ≤ r then (2 * r) ^^^ 0x171 else 2 * r

/-- Its output bits for 24 rounds of 7. -/
def lfsrBits : List Bool :=
  ((List.range 168).foldl (fun (p : Nat × List Bool) _ => (lfsrStep p.1, (p.1 % 2 = 1) :: p.2)) (1, [])).2.reverse

/-- The constant of round `r`: its j-th bit of the register stands at bit 2^j - 1. -/
def iotaWord (r : Nat) : Word :=
  pack ((List.range 7).map fun j => (b2n (lfsrBits.getD (7 * r + j) false), 2 ^ j - 1))

/-- A plane of five lanes with one rotated copy of itself added: what a column receives from its neighbours. -/
def thetaMix (sums : List Word) : List Word :=
  List.zipWith (· ^^^ ·) (sums.drop 4 ++ sums.take 4) ((sums.drop 1 ++ sums.take 1).map (·.rotateLeft 1))

/-- θ on five planes (rows of five lanes). -/
def theta (planes : List (List Word)) : List (List Word) :=
  let sums := planes.foldl (List.zipWith (· ^^^ ·)) (List.replicate 5 0)
  planes.map (List.zipWith (· ^^^ ·) (thetaMix sums))

def laneOf (planes : List (List Word)) (x y : Nat) : Word := (planes.getD y []).getD x 0

/-- ρ and π together, along the walk of FIPS 202 from lane (1, 0): the lane at step t turns by (t + 1)(t + 2) / 2 and moves to
(y, 2x + 3y). -/
def rhoPi (planes : List (List Word)) : List (List Word) :=
  let moved := ((List.range 24).foldl (fun (p : (Nat × Nat) × SMap Word) t =>
    let x := p.1.1
    let y := p.1.2
    let x' := y
    let y' := (2 * x + 3 * y) % 5
    ((x', y'), aput p.2 (5 * y' + x') ((laneOf planes x y).rotateLeft ((t + 1) * (t + 2) / 2 % 64))))
    ((1, 0), [(0, laneOf planes 0 0)])).2
  (List.range 5).map fun y => (List.range 5).map fun x => aget 0 moved (5 * y + x)

/-- χ on one plane. -/
def chiPlane (r : List Word) : List Word :=
  (r.zip (r.drop 1 ++ r.take 1 |>.zip (r.drop 2 ++ r.take 2))).map fun p => p.1 ^^^ (~~~p.2.1 &&& p.2.2)

/-- Round `r`. -/
def keccakRound (planes : List (List Word)) (r : Nat) : List (List Word) :=
  match (rhoPi (theta planes)).map chiPlane with
  | (l :: ls) :: rest => ((l ^^^ iotaWord r) :: ls) :: rest
  | ps => ps

/-- Keccak-f[1600] on 25 lanes, lane (x, y) at x + 5y. -/
def keccakF (a : List Word) : List Word :=
  ((List.range 24).foldl keccakRound ((List.range 5).map fun y => (a.drop (5 * y)).take 5)).flatten

/-! ### The engine (R101, R102) -/

/-- The engine permutes, and the position returns to 0. -/
def Hash.permute (h : Hash) : Hash :=
  let l := keccakF ((List.range 25).map fun i => aget 0 h.lanes i)
  { h with lanes := (List.range 25).foldl (fun m i => aset 0 m i (l.getD i 0)) [], pos := 0 }

/-- A byte of the state. -/
def Hash.byte (h : Hash) (i : Nat) : Byte := (aget 0 h.lanes (i / 8)).extractLsb' (8 * (i % 8)) 8

def Hash.xorByte (h : Hash) (i : Nat) (b : Byte) : Hash :=
  { h with lanes := aset 0 h.lanes (i / 8) (aget 0 h.lanes (i / 8) ^^^ (b.zeroExtend 64 <<< (8 * (i % 8)))) }

/-- The position moves on by one, and the engine permutes when it reaches the rate. -/
def Hash.bump (h : Hash) : Hash :=
  let h := { h with pos := h.pos + 1 }
  if h.rate ≤ h.pos then h.permute else h

def Hash.absorb (h : Hash) (bs : List Byte) : Hash := bs.foldl (fun h b => (h.xorByte h.pos b).bump) h

def Hash.squeeze (h : Hash) : Nat → Hash × List Byte
  | 0 => (h, [])
  | n + 1 =>
    let b := h.byte h.pos
    let r := Hash.squeeze h.bump n
    (r.1, b :: r.2)

/-- `hinit`: rate 168 for SHAKE128, 136 for SHAKE256. -/
def Hash.init (shake256 : Bool) : Hash := { rate := if shake256 then 136 else 168 }

/-- The SHAKE padding, and a permutation. -/
def Hash.finish (h : Hash) : Hash := { ((h.xorByte h.pos 0x1F).xorByte (h.rate - 1) 0x80).permute with closed := true }

/-- The first `n` bytes of SHAKE256 of a list of bytes. -/
def shakeBytes (bs : List Byte) (n : Nat) : List Byte := ((((Hash.init true).absorb bs).finish).squeeze n).2

/-- SHAKE256 of a list of bytes, 64 bytes of output. -/
def shake256 (bs : List Byte) : BitVec 512 := BitVec.ofNat 512 (ofBytes (shakeBytes bs 64))

/-- The 208 bytes of `hsave`: the state, then position and rate in 4 bytes each, with bit 63 set after `hfin` (log 33). -/
def Hash.save (h : Hash) : List Byte :=
  ((List.range 200).map h.byte) ++ toBytes 8 (h.pos + h.rate * 2 ^ 32 + b2n h.closed * 2 ^ 63)

/-- `hrest` takes a position at or above the rate, or another rate, as it stands (DESIGN CHOICE: R102 does not say; log 96). -/
def Hash.load (bs : List Byte) : Hash :=
  let w := ofBytes (bs.drop 200)
  { lanes := (List.range 25).foldl (fun m i => aset 0 m i (wordOf ((bs.drop (8 * i)).take 8))) []
    pos := fld w 0 32, rate := fld w 32 31, closed := fld w 63 1 = 1 }

/-! ### The instructions -/

/-- A check of cp2 at issue fails (R100, R119): no check code is given for it, so sub[7:3] is a free value (log 33). -/
def hashFault (s : State) : Effect :=
  .error { code := cCop, sub := 2 + 8 * ((Config.freeWord s.free).toNat % 32) }

/-- A cp2 instruction on a core that has the engine; elsewhere major 0x3A is illegal (R62, R119). Operand fields that the table of
R101 gives an instruction no use for are ignored (DESIGN CHOICE: R101 does not say; log 96). -/
def hashRun (c : CoreId) (rs : List Reg) (body : State → Effect) (s : State) : State := issue c rs 4 (hasHash c) body s

def State.updHash (s : State) (c : CoreId) (f : Hash → Hash) : State := s.updCore c fun k => { k with hash := f k.hash }

/-- Permutations of the engine while it takes or gives `n` bytes (R102). -/
def Hash.perms (h : Hash) (n : Nat) : Nat := if h.rate = 0 then n else (h.pos + n) / h.rate

/-- The step, in TILE_STEPS, at which the engine ends what it does. -/
def hashEnd (k : Core) : Nat := max k.steps.toNat (aget 0 k.ready keyHash).toNat

/-- The engine permutes `n` times more, 26 steps each (R102). -/
def hashBusy (s : State) (c : CoreId) (n : Nat) : State :=
  if n = 0 then s
  else s.updCore c fun k => { k with ready := aput k.ready keyHash (BitVec.ofNat 64 (hashEnd k + 26 * n)) }

/-- The engine absorbs bytes. -/
def absorbed (s : State) (c : CoreId) (bs : List Byte) : State :=
  (hashBusy s c ((s.core c).hash.perms bs.length)).updHash c fun h => h.absorb bs

/-- Bytes read from memory for cp2: the first fault, or the bytes. -/
def hashRead (s : State) (c : CoreId) (a : Word) (n : Nat) : State × Except Trap (List Byte) :=
  match firstDenied (fun x m => permitted s c x m rightR) a n with
  | some x => (s, .error { code := cLoadWin, addr := x })
  | none =>
    (spans (n / 128 + 2) a n).foldl (fun acc p =>
      match acc.2 with
      | .error e => (acc.1, .error e)
      | .ok bs => match localAddr acc.1 p.1 with
        | none => (acc.1, .error { code := cLoadBus, addr := p.1 })
        | some l => match coreLoad acc.1 c l p.2 with
          | (s, .ok cs) => (s, .ok (bs ++ cs))
          | (s, .error e) => (s, .error (accTrap cLoadBus e p.1))) (s, .ok [])

/-- Bytes stored by cp2 enter the core's buffer behind its older stores (R345, R348); a place that does not exist is a late
store error (R145). -/
def hashWrite (s : State) (c : CoreId) (a : Word) (bs : List Byte) : State :=
  ((spans 4 a bs.length).foldl (fun (acc : State × List Byte) p =>
    (match localAddr acc.1 p.1 with
     | none => recordLate acc.1 c p.1 1
     | some l => bufferWrite faddF32 acc.1 c
         { addr := BitVec.ofNat 64 (canonAddr c l), bytes := (List.range p.2).zip (acc.2.take p.2) },
     acc.2.drop p.2)) (s, bs)).1

/-- `hinit` (R101). -/
def execHinit (c : CoreId) (f : LC) (s : State) : Result :=
  .next (hashRun c [f.rs1] (fun s =>
    let v := s.reg c f.rs1
    if v = 0 then done (s.updHash c fun _ => Hash.init false)
    else if v = 1 then done (s.updHash c fun _ => Hash.init true)
    else hashFault s) s)

/-- `habs` (R102): a fault after `hfin` and before `hinit`. -/
def execHabs (c : CoreId) (f : LC) (s : State) : Result :=
  .next (hashRun c [f.rs1] (fun s =>
    if (s.core c).hash.closed then hashFault s
    else done (absorbed s c (toBytes 8 (s.reg c f.rs1).toNat))) s)

def execHabsm (c : CoreId) (f : LC) (s : State) : Result :=
  .next (hashRun c [f.rs1, f.rs2] (fun s =>
    if (s.core c).hash.closed then hashFault s
    else match hashRead s c (s.reg c f.rs1) (s.reg c f.rs2).toNat with
      | (s, .error t) => memFault s c t
      | (s, .ok bs) => done (absorbed s c bs)) s)

/-- `hfin` (R101). A second one pads and permutes again (DESIGN CHOICE: R102 does not say; log 96). -/
def execHfin (c : CoreId) (_f : LC) (s : State) : Result :=
  .next (hashRun c [] (fun s => done ((hashBusy s c 1).updHash c Hash.finish)) s)

/-- `hsqz` (R101, R102): its result comes 3 steps after the last permutation. Before `hfin` it gives the bytes from the position on
(DESIGN CHOICE: R102 does not say; log 96). -/
def execHsqz (c : CoreId) (f : LC) (s : State) : Result :=
  .next (hashRun c [] (fun s =>
    let h := (s.core c).hash
    let r := h.squeeze 8
    let s := hashBusy s c (h.perms 8)
    done (((s.updHash c fun _ => r.1).setReg c f.rd (wordOf r.2)).updCore c fun k =>
      k.owe f.rd.toNat (hashEnd k - k.steps.toNat + 1))) s)

def execHsave (c : CoreId) (f : LC) (s : State) : Result :=
  .next (hashRun c [f.rs1] (fun s =>
    let a := s.reg c f.rs1
    match firstDenied (fun x m => permitted s c x m rightW) a 208 with
    | some x => .error { code := cStoreWin, addr := x }
    | none => done (hashWrite s c a (s.core c).hash.save)) s)

def execHrest (c : CoreId) (f : LC) (s : State) : Result :=
  .next (hashRun c [f.rs1] (fun s =>
    match hashRead s c (s.reg c f.rs1) 208 with
    | (s, .error t) => memFault s c t
    | (s, .ok bs) => done (s.updHash c fun _ => Hash.load bs)) s)

end Sys2Proof.Machine
end

