-- ==== Sys2Proof/Machine/Agent.lean ====
section
/-! DEFINITION. Memory as the mover and the Gallery port of a tile reach it (R358, R362, R371, R373): places, window checks, and the tile's own L1. -/

namespace Sys2Proof.Machine

open Sys2Proof

/-- `n` bytes at an address lie in one of the places of R358. -/
def agentOk (s : State) (t : Nat) (a : Word) (n : Nat) : Bool :=
  match localAddr s a with
  | none => false
  | some l => match target s (some t) l n with
    | .mem _ => true
    | .scratch _ _ => true
    | _ => false

/-- They lie in module memory or in the tile's own scratch (R201, R241, R299, R373). -/
def ownOk (s : State) (t : Nat) (a : Word) (n : Nat) : Bool :=
  match localAddr s a with
  | none => false
  | some l => match target s (some t) l n with
    | .mem _ => true
    | .scratch u _ => u = t
    | _ => false

/-- The window check of a request made by task code (R111, R350, R373). -/
def agentWin (s : State) (t : Nat) (task : Bool) (a : Word) (n : Nat) (need : Rights) : Bool :=
  !task || (firstDenied (fun x _ => taskPermitted s t x need) a n).isNone

/-- Lines of the tile's L1 that hold a byte of `n` bytes at module-memory address `a`. -/
def l1Range (s : State) (t a n : Nat) : List Nat :=
  ((s.tile t).l1.lines.filter fun p => decide (a < p.2.line * 128 + 128) && decide (p.2.line * 128 < a + n)).map fun p => p.2.line

/-- A read of `n` bytes: dirty lines of the own L1 are written back first (R362). -/
def agentRead (s : State) (t : Nat) (a : Word) (n : Nat) : State × Except (AccErr × Nat) (List Byte) :=
  match localAddr s a with
  | none => (s, .error (.bus, a.toNat))
  | some l =>
    let s := match target s (some t) l n with
      | .mem m => (l1Range s t m n).foldl (fun s x => l1WriteBack s t x) s
      | _ => s
    busRead s (some t) l n

/-- Copies in the own L1 are written back when dirty, and invalidated, before a write (R362). -/
def agentFlush (s : State) (t l n : Nat) : State :=
  match target s (some t) l n with
  | .mem m => (l1Range s t m n).foldl (fun s x => l1Flush s t x) s
  | _ => s

/-- A write of `n` bytes would reach the graph region, which only GDEF and PATCH write (R541). -/
def hitsGraph (s : State) (a : Word) (n : Nat) : Bool :=
  match localAddr s a with
  | some l => inGraphRegion s l n
  | none => false

/-- A write whose fill is uncorrectable is a bus error to its writer, and fails the running command (R481, R655). -/
def fillFail (s : State) (t : Nat) (e : Option (AccErr × Nat)) : State × Option (AccErr × Nat) :=
  match e with
  | some (.bus, a) =>
    match if a < 0xF000000000 then lineFail s (a / 128) else none with
    | some (.uncorr n) => (engineFail s t (.uncorr n) a, e)
    | _ => (s, e)
  | some (.uncorr n, a) => (engineFail s t (.uncorr n) a, some (.bus, a))
  | e => (s, e)

/-- A write of bytes: the first failure, with its address. The graph region is not written (R541). -/
def agentWrite (s : State) (t : Nat) (a : Word) (bs : List Byte) : State × Option (AccErr × Nat) :=
  match localAddr s a with
  | none => (s, some (.bus, a.toNat))
  | some l =>
    if inGraphRegion s l bs.length then (s, some (.bus, l))
    else
      let r := busWrite (agentFlush s t l bs.length) (some t) l bs
      fillFail r.1 t r.2

/-- A completion signal of 8 bytes is stored or added (R343, R355, R373). -/
def agentSignal (s : State) (t : Nat) (a : Word) (add : Bool) (v : Word) : State × Option (AccErr × Nat) :=
  match localAddr s a with
  | none => (s, some (.bus, a.toNat))
  | some l =>
    let s := agentFlush s t l 8
    if inGraphRegion s l 8 then (s, some (.bus, l))
    else
      let r := if add then busAdd s (some t) l 8 v.toNat else busWrite s (some t) l (toBytes 8 v.toNat)
      fillFail r.1 t r.2

/-- A scratch offset as an address of the alias (R25, R288), modulo 2^64. -/
def aliasAddr (off : Nat) : Word := BitVec.ofNat 64 (0xFC00000000 + off)

/-- Bytes, words and fields of a 64-byte block. -/
def blkWord (bs : List Byte) (off : Nat) : Word := wordOf ((bs.drop off).take 8)
def blkHalf (bs : List Byte) (off : Nat) : Nat := ofBytes ((bs.drop off).take 4)

/-- A byte offset of signed pitch times an index, modulo 2^64 (R357). -/
def stepAddr (a : Word) (pitch : Int) (i : Nat) : Word := a + BitVec.ofInt 64 (pitch * (i : Int))

end Sys2Proof.Machine
end

