-- ==== Sys2Proof/Machine/Idle.lean ====
section
/-! DEFINITION. What happens when no command waits: time passes, the oldest buffered write of each tile is performed, and drain writes that were handed over are performed (R57, R145, R301, log 9). -/

namespace Sys2Proof.Machine

open Sys2Proof

/-- Time passes by `n` ns (R55, R57). MOD_TIME advances with MOD_MONO, but for what the servo corrects of an error it has
measured, which is at most 500 ppm of the time that passes; how much of that the servo uses is free (log 71). -/
def State.pass (s : State) (n : Nat) : State :=
  if s.tu.steer = 0 then { s with mono := s.mono + n, time := s.time + n }
  else
    let acc := s.tu.slewAcc + 500 * n
    let c := (Config.freeWord s.free).toNat % (min (acc / 1000000) s.tu.steer.natAbs + 1)
    let tu := { s.tu with slewAcc := acc % 1000000 }
    if s.tu.steer < 0 then { s.tick with mono := s.mono + n, time := s.time + n + c, tu := { tu with steer := s.tu.steer + c } }
    else { s.tick with mono := s.mono + n, time := s.time + n - min n c, tu := { tu with steer := s.tu.steer - c } }

/-- MOD_MONO reaches `d` when it has not (R57). -/
def State.reach (s : State) (d : Nat) : State := s.pass (d - s.mono)

/-- A late error of the matrix array (R301, R317): the first is kept, later ones count, and the running command fails. An
uncorrectable fill of a drain is of kind 1 (R481) and fails the command with UNCORR (R301); kind 3 is a read (R317). -/
def recordMtx (s : State) (t : Nat) (kind : BitVec 8) (e : AccErr) (addr : Nat) : State :=
  let s := s.updTile t fun x => { x with mtx :=
    if x.mtx.errKind = 0 then { x.mtx with errKind := kind, errAddr := BitVec.ofNat 64 addr }
    else { x.mtx with errMore := satAdd 0xFFFFFF x.mtx.errMore 1 } }
  match e with
  | .bus => failTile s t 9 (BitVec.ofNat 16 t) (BitVec.ofNat 64 addr) 0 0
  | e => engineFail s t e addr

/-- The kind of a failed drain write (R317, R481). -/
def drainErrKind : AccErr → BitVec 8
  | .thermal _ => 2
  | _ => 1

/-- Why a drain write fails its command: an uncorrectable fill as UNCORR (R301). -/
def handedErr (s : State) (a : Nat) (e : AccErr) : AccErr :=
  match e with
  | .bus => (if a < 0xF000000000 then lineFail s (a / 128) else none).getD .bus
  | e => e

/-- Drain writes that were handed over are performed through the L1 store path (R301); each failure is recorded. -/
def performHanded (s : State) (t : Nat) : State :=
  let ws := (s.tile t).mtx.handed
  let s := s.updTile t fun x => { x with mtx := { x.mtx with handed := [] } }
  ws.foldl (fun s w =>
    match portWrite s (.tile (Fin.ofNat 256 t)) w.1 w.2 (w.2.length = 128) with
    | (s, none) => s
    | (s, some e) => recordMtx s t (drainErrKind e) (handedErr s w.1 e) w.1) s

/-- The tick of an empty queue (log 9). -/
def idle (s : State) : State :=
  if s.power = .run then
    let s := s.pass 1
    let s := (s.tiles.filter fun p => p.2.core.sbuf ≠ []).foldl (fun s p => drainOne faddF32 s (.tile (Fin.ofNat 256 p.1))) s
    (s.tiles.filter fun p => p.2.mtx.handed ≠ []).foldl (fun s p => performHanded s p.1) s
  else s

end Sys2Proof.Machine
end

