-- ==== Sys2Proof/Machine/Lamp.lean ====
section
/-! DEFINITION. Lamp's budgets, lines and grants (R641 to R647): the operations that other units call. -/

namespace Sys2Proof.Machine

open Sys2Proof

/-- G_mod (R641). -/
def gMod (s : State) : Nat := (s.lamp.held.map fun g => g.watts).sum

/-- G_die(d) in 0.1 A (R641). -/
def gDie (s : State) (d : Die) : Nat := ((s.lamp.held.filter fun g => g.die = some d).map fun g => g.tenths).sum

/-- What a request charges to its die (R641): the watts at the die's VCORE target, rounded up. -/
def tenthsOf (s : State) (d : Option Die) (w : Nat) : Nat :=
  match d with
  | none => 0
  | some d => (w * 10000 + (s.die d).vset - 1) / (s.die d).vset

/-- The lowest VCORE (R651). -/
def vMin : Nat := 550

/-- The module-wide throttle stop (R651): the power cause holds with both dies at 0.55 V (log 28). -/
def modStop (s : State) : Bool := s.lamp.pwr && s.lamp.die0.vcore = vMin && s.lamp.die1.vcore = vMin

/-- A die's throttle stop (R651). -/
def dieStop (s : State) (d : Die) : Bool := (s.die d).cur && (s.die d).vcore = vMin

/-- Watts issued in the window of MOD_MONO that is open now (R644). -/
def issuedNow (s : State) : Nat := if s.lamp.window = s.mono / 1000 then s.lamp.issued else 0

/-- The tests of R643. -/
def mayIssue (s : State) (w : Nat) (d : Option Die) : Bool :=
  s.power = .run && !s.lamp.stopped &&
  decide (gMod s + w + 1300 ≤ s.lamp.plmod) &&
  (match d with
    | none => true
    | some d => decide (gDie s d + tenthsOf s (some d) w + 2500 ≤ (s.die d).ilim * 10) && !dieStop s d) &&
  decide (issuedNow s + w ≤ 40) && !modStop s

/-- The same matrix array, whichever class it holds (R642). -/
def sameHolder : Holder → Holder → Bool
  | .matrix t _, .matrix u _ => t = u
  | a, b => a = b

/-- A holder takes its grant (R310, R361, R378, R415). -/
def tellHolder (s : State) : Holder → State
  | .matrix t ro => s.updTile t fun x => { x with mtx := { x.mtx with grant := true, gcls := ro, waiting := false } }
  | .mover t q => s.updTile t fun x => x.updMovq q fun m =>
      { m with state := .running, active := m.active.map fun a => { a with grant := true } }
  | .op t n =>
    let tell := fun (o : GalOp) => if o.id = n then { o with grant := true } else o
    s.updTile t fun x => { x with port := { x.port with ops := x.port.ops.map tell } }
  | .coll g =>
    let x := aget {} s.gal.groups g
    let x' := { x with coll := x.coll.map fun c => { c with grant := true } }
    { s with gal := { s.gal with groups := aput s.gal.groups g x' } }

/-- A request is issued: it is held, charged, counted, and its holder is told. A difference adds to what is held (R642). -/
def issueGrant (s : State) (r : Req) : State :=
  let t := tenthsOf s r.die r.watts
  let old := s.lamp.held.filter fun g => sameHolder g.holder r.holder
  let g : Grant :=
    { holder := r.holder, watts := (old.map fun g => g.watts).sum + r.watts, die := r.die
      tenths := (old.map fun g => g.tenths).sum + t }
  let issued := issuedNow s + r.watts
  tellHolder { s with lamp := { s.lamp with
    held := s.lamp.held.filter (fun x => !sameHolder x.holder r.holder) ++ [g]
    grants := sat32 s.lamp.grants 1, window := s.mono / 1000, issued := issued } } r.holder

/-- A request arrives (R645): issued at once when nothing stands before it and the tests allow, else it joins its line. -/
def requestGrant (s : State) (h : Holder) (w : Nat) (d : Option Die) (rt : Bool) : State :=
  let r : Req := { holder := h, watts := w, die := d, rt := rt, at_ := s.mono }
  let clear := s.lamp.rtLine = [] && (rt || s.lamp.normLine = [])
  if clear && mayIssue s w d then issueGrant s r
  else
    let l := { s.lamp with waited := sat32 s.lamp.waited 1 }
    { s with lamp := if rt then { l with rtLine := l.rtLine ++ [r] } else { l with normLine := l.normLine ++ [r] } }

/-- A holder ends, or its request is withdrawn (R647). -/
def releaseGrant (s : State) (h : Holder) : State :=
  let keep := fun (r : Req) => !sameHolder r.holder h
  { s with lamp := { s.lamp with
    held := s.lamp.held.filter fun g => !sameHolder g.holder h
    rtLine := s.lamp.rtLine.filter keep, normLine := s.lamp.normLine.filter keep } }

/-- A request of a holder stands in a line. -/
def waitsGrant (s : State) (h : Holder) : Bool :=
  s.lamp.rtLine.any (fun r => sameHolder r.holder h) || s.lamp.normLine.any fun r => sameHolder r.holder h

/-- A tile that runs a kernel of a real-time queue (R534, R645). -/
def rtTile (s : State) (t : Nat) : Bool := (s.feTile t).rt

end Sys2Proof.Machine
end

