-- ==== Sys2Proof/Machine/Wait.lean ====
section
/-! DEFINITION. Parking on `waitq` and waking (R37, R538 to R540). -/

namespace Sys2Proof.Machine

open Sys2Proof

/-- The cluster of a tile (R15). -/
def clusterOf (t : Nat) : Nat := t / 8

def State.taskq (s : State) (k : Nat) : TaskQueue := aget {} s.fe.taskq k
def State.updTaskq (s : State) (k : Nat) (f : TaskQueue → TaskQueue) : State :=
  { s with fe := { s.fe with taskq := aput s.fe.taskq k (f (s.taskq k)) } }

/-- TILE_FEREQ of a tile (R525). -/
def fereq (s : State) (t : Nat) : Word := pack [(b2n (s.tile t).reclaim, 1), (b2n (s.tile t).drain, 0)]

def State.inbox (s : State) (t i : Nat) : Inbox := aget {} s.gal.inboxes (16 * t + i)
def State.updInbox (s : State) (t i : Nat) (f : Inbox → Inbox) : State :=
  { s with gal := { s.gal with inboxes := aput s.gal.inboxes (16 * t + i) (f (s.inbox t i)) } }

/-- Selected inboxes with tail not equal to head (R540). -/
def inboxBits (s : State) (t : Nat) (sel : BitVec 16) : Nat :=
  (List.range 16).foldl (fun a i =>
    let x := s.inbox t i
    if sel.getLsbD i && x.tail ≠ x.head then a + 2 ^ i else a) 0

/-- A wait of tile `t` is satisfied (R540). -/
def waitDone (s : State) (t : Nat) (sel : BitVec 16) (tq : Bool) : Bool :=
  inboxBits s t sel ≠ 0 || (tq && (s.taskq (clusterOf t)).entries ≠ []) || fereq s t ≠ 0

/-- Pushes that the buffer holds move into a task queue with room (R538). -/
def refill (q : TaskQueue) : TaskQueue :=
  let n := 64 - q.entries.length
  { q with entries := q.entries ++ q.pbuf.take n, pbuf := q.pbuf.drop n }

/-- The result of a wait: a task-queue entry is taken and written to the scratch offset before rd (R540). -/
def waitResult (s : State) (t : Nat) (sel : BitVec 16) (tq : Bool) (off : Nat) (late : Bool) : State × Word :=
  let bits := inboxBits s t sel
  let fe := fereq s t ≠ 0
  let timed := late && !waitDone s t sel tq
  match tq, (s.taskq (clusterOf t)).entries with
  | true, e :: es =>
    let s := scratchWrite (s.updTaskq (clusterOf t) fun q => refill { q with entries := es }) t off e
    (s, pack [(b2n timed, 63), (b2n fe, 62), (1, 16), (bits, 0)])
  | _, _ => (s, pack [(b2n timed, 63), (b2n fe, 62), (bits, 0)])

/-- The tile leaves the order of parked tiles of its cluster. -/
def unpark (s : State) (t : Nat) : State :=
  if (s.taskq (clusterOf t)).parked.contains t then
    s.updTaskq (clusterOf t) fun q => { q with parked := q.parked.filter (· ≠ t) }
  else s

/-- A parked tile resumes: its timer entry is freed, rd is written, and the next instruction follows (R540). -/
def wake (s : State) (t : Nat) (p : Park) (late : Bool) : State :=
  let r := waitResult (unpark s t) t p.sel p.tq p.off late
  (r.1.setReg (tcore t) p.rd r.2).updCore (tcore t) fun k =>
    let k := match p.timer with
      | some i => { k with t0 := aput k.t0 i { aget {} k.t0 i with busy := false, waitq := false } }
      | none => k
    { goNext k k.pc 4 with run := .running }

/-- A parked tile whose wait is satisfied resumes. -/
def wakeCheck (s : State) (t : Nat) : State :=
  match (s.tile t).core.run with
  | .parked p => if waitDone s t p.sel p.tq then wake s t p false else s
  | _ => s

/-- Task-queue entries go to the tiles of the cluster in the order in which they parked (R540). -/
def serveTaskq (s : State) (k : Nat) : State :=
  (s.taskq k).parked.foldl (fun s t => if (s.taskq k).entries = [] then s else wakeCheck s t) s

/-- An entry is appended to a task queue, or buffered, or discarded and counted (R538). -/
def pushTaskq (s : State) (k : Nat) (e : List Byte) : State :=
  let q := s.taskq k
  if q.entries.length < 64 then serveTaskq (s.updTaskq k fun q => { q with entries := q.entries ++ [e] }) k
  else if q.pbuf.length < 16 then s.updTaskq k fun q => { q with pbuf := q.pbuf ++ [e] }
  else s.updTaskq k fun q => { q with lost := sat16 q.lost 1 }

end Sys2Proof.Machine
end

