-- ==== Sys2Proof/Machine/GalOps.lean ====
section
/-! DEFINITION. What every Gallery operation shares (R365 to R378, R420, R421): fault codes, timeouts, place checks, the list of active operations, how an operation ends; and remote copies, reads, writes and stores. -/

namespace Sys2Proof.Machine

open Sys2Proof

/-! ### Fault codes (R376) -/

def gDesc : Nat := 1
def gBlock : Nat := 2
def gSrcWin : Nat := 3
def gDstWin : Nat := 4
def gAddr : Nat := 5
def gRemoteWin : Nat := 6
def gNoExpert : Nat := 7
def gBusy : Nat := 8
def gTimeout : Nat := 9
def gPeerFail : Nat := 10
def gUnreach : Nat := 11
def gUncorr : Nat := 12
def gThermal : Nat := 13
def gMismatch : Nat := 14
def gShape : Nat := 15
def gNoGroup : Nat := 16

/-- The code of a failed read or write; `bus` is the code of a place that does not exist. -/
def accCode (bus : Nat) : AccErr → Nat
  | .bus => bus
  | .uncorr _ => gUncorr
  | .thermal _ => gThermal

/-- A timeout field in ns (R375); none for 27 to 31. -/
def tmoSpan (s : State) (n : Nat) : Option Nat :=
  if n = 0 then some (2 ^ s.gal.deftmo * 1000) else if n ≤ 26 then some (2 ^ n * 1000) else none

/-- A local place of an operation (R358, R373): ADDR, REMOTE_WIN for a write of the graph region (R541), then the window code;
none when the checks pass. -/
def placeErr (s : State) (t : Nat) (task : Bool) (a : Word) (n : Nat) (need : Rights) (win : Nat) : Option Nat :=
  if (firstDenied (agentOk s t) a n).isSome then some gAddr
  else if (need &&& rightW) ≠ 0 && hitsGraph s a n then some gRemoteWin
  else if !agentWin s t task a n need then some win else none

/-- A list, program or status area (R376): BLOCK when a place or window check fails. -/
def blockErr (s : State) (t : Nat) (task : Bool) (a : Word) (n : Nat) (need : Rights) : Bool :=
  (firstDenied (agentOk s t) a n).isSome || !agentWin s t task a n need

/-- The completion signal of a block (R373): misaligned DESC, then its place and window. -/
def sigErr (s : State) (t : Nat) (task : Bool) (bs : List Byte) : Option Nat :=
  if fld (blkHalf bs 0) 27 1 = 0 then none
  else if wfld (blkWord bs 0x30) 0 3 ≠ 0 then some gDesc
  else placeErr s t task (blkWord bs 0x30) 8 (if fld (blkHalf bs 0) 26 1 = 1 then rightRW else rightW) gDstWin

/-- The signal of a `gput` is written at the target, its sigaddr taken as global (R378). -/
def remoteSig (i : Instr) (bs : List Byte) : Bool :=
  match i with
  | .gput _ _ => fld (blkHalf bs 0) 25 1 = 1
  | _ => false

/-- The signal of an operation: one that stands in another module is checked here by its window alone (R111, R367). -/
def opSigErr (s : State) (t : Nat) (task : Bool) (i : Instr) (bs : List Byte) : Option Nat :=
  let a := blkWord bs 0x30
  if remoteSig i bs && fld (blkHalf bs 0) 27 1 = 1 && isRemote s a then
    if wfld a 0 3 ≠ 0 then some gDesc
    else if wfld a 56 8 ≠ 0 then some gAddr
    else if !agentWin s t task a 8 (if fld (blkHalf bs 0) 26 1 = 1 then rightRW else rightW) then some gDstWin
    else none
  else sigErr s t task bs

/-! ### The end of an operation (R374, R376) -/

/-- The stat word (R373). -/
def statWord (code detail : Nat) : Nat := (if code = 0 then 2 ^ 30 else 2 * 2 ^ 30 + code * 2 ^ 16) + min detail 0xFFFF

/-- UNCORR and THERMAL fail the running command (R376). -/
def galFail (s : State) (t code addr : Nat) : State :=
  if code = gUncorr then engineFail s t (.uncorr 1) addr
  else if code = gThermal then engineFail s t (.thermal 0) addr else s

/-- A write that an operation makes fails the running command when it is uncorrectable or thermally stopped (R376). -/
def madeBy (t : Nat) (r : State × Option (AccErr × Nat)) : State :=
  match r.2 with
  | some (.thermal n, a) => engineFail r.1 t (.thermal n) a
  | _ => r.1

/-- The completion signal of an operation (R373): in this module, or sent to the module that sigaddr names (R378). -/
def opSignal (s : State) (t : Nat) (i : Instr) (bs : List Byte) : State :=
  let a := blkWord bs 0x30
  let add := fld (blkHalf bs 0) 26 1 = 1
  if fld (blkHalf bs 0) 27 1 = 0 then s
  else if remoteSig i bs && isRemote s a then galSend s (.signal a add (blkWord bs 0x38) t 0)
  else madeBy t (agentSignal s t a add (blkWord bs 0x38))

/-- stat is written, then the signal is stored or added (R374). -/
def writeEnd (s : State) (t : Nat) (i : Instr) (a : Word) (bs : List Byte) (signal : Bool) (code detail : Nat) : State :=
  let s := madeBy t (agentWrite s t (a + 4) (toBytes 4 (statWord code detail)))
  let s := if signal then opSignal s t i bs else s
  galFail s t code a.toNat

def State.updPort (s : State) (t : Nat) (f : Port1 → Port1) : State := s.updTile t fun x => { x with port := f x.port }

def findOp (s : State) (t id : Nat) : Option GalOp := (s.tile t).port.ops.find? fun o => o.id = id

/-- An active operation changes. -/
def updOp (s : State) (t id : Nat) (f : GalOp → GalOp) : State :=
  s.updPort t fun p => { p with ops := p.ops.map fun o => if o.id = id then f o else o }

/-- An active operation ends (R374): its place is free, its grant released, stat and, where it may be, signal written. -/
def endOp (s : State) (t id : Nat) (signal : Bool) (code detail : Nat) : State :=
  match findOp s t id with
  | none => s
  | some o =>
    let s := releaseGrant (s.updPort t fun p => { p with ops := p.ops.filter fun o => o.id ≠ id }) (.op t id)
    writeEnd s t o.instr o.addr o.block signal code detail

def finishOp (s : State) (t id code detail : Nat) : State := endOp s t id true code detail

/-- An operation becomes active (R371, R375); its number. -/
def openOp (s : State) (t : Nat) (e : Cp1Entry) (bs : List Byte) (deadline : Nat) (needGrant : Bool) : State × Nat :=
  let id := (s.tile t).port.nextOp
  let o : GalOp :=
    { id := id, instr := e.instr, addr := e.r1, block := bs, task := e.task, start := s.mono, deadline := deadline,
      needGrant := needGrant, grant := false, waitTrips := false, groups := [], sent := [], failedTrips := 0,
      timedOut := false, got := [] }
  (s.updPort t fun p => { p with ops := p.ops ++ [o], nextOp := id + 1 }, id)

/-- An operation that fails a check before it does anything ends at once; a signal that fails its own checks is not written. -/
def refuseOp (s : State) (t : Nat) (e : Cp1Entry) (bs : List Byte) (code detail : Nat) : State :=
  writeEnd s t e.instr e.r1 bs (opSigErr s t e.task e.instr bs).isNone code detail

/-! ### GAL_PORT and GAL_USE (R420, R421) -/

def galPort (p : Port1) : Word :=
  pack [(p.rfail.toNat, 16), ((p.batches.filter fun b => b.started).length % 32, 8), (p.ops.length % 32, 0)]

/-- Trip records of an exchange die that are in use, or wait after an expiry (R391). -/
def tripsUsed (s : State) (die : Nat) : Nat :=
  (s.gal.trips.filter fun p => p.1 / 16384 = die && p.2.state ≠ .free).length

def galUse (s : State) : Word :=
  pack [((s.gal.slots.filter fun p => p.2.state = .opened).length, 32), (tripsUsed s 1, 16), (tripsUsed s 0, 0)]

/-! ### Remote copies (R378) -/

/-- Wholly written 4 KiB units of a `gget`, counted from the start. -/
def covered (got : List (Nat × Nat)) (a n : Nat) : Bool :=
  (got.foldl (fun (left : List (Nat × Nat)) g =>
    left.flatMap fun r =>
      let lo := max r.1 g.1
      let hi := min (r.1 + r.2) (g.1 + g.2)
      if lo < hi then
        (if r.1 < lo then [(r.1, lo - r.1)] else []) ++ (if hi < r.1 + r.2 then [(hi, r.1 + r.2 - hi)] else [])
      else [r]) [(a, n)]) = []

def unitsDone (got : List (Nat × Nat)) (n : Nat) : Nat :=
  let u := (n + 4095) / 4096
  ((List.range u).find? fun k => !covered got (4096 * k) (min 4096 (n - 4096 * k))).getD u

def copyBytes (bs : List Byte) : Nat := wfld (blkWord bs 0x18) 0 32

/-- A copy moves its data once it holds the grant it needs. One within this module is local (R365). -/
def copyMove (s : State) (t : Nat) (o : GalOp) : State :=
  let n := copyBytes o.block
  let src := blkWord o.block 0x08
  let dst := blkWord o.block 0x10
  let send := fun (s : State) (m : GalMsg) => if routed s m then galSend s m else finishOp s t o.id gUnreach 0
  let fail := fun (s : State) (e : AccErr) (d : Nat) => finishOp s t o.id (accCode gAddr e) d
  let here := fun (s : State) (bs : List Byte) =>
    if hitsGraph s dst n then finishOp s t o.id gRemoteWin 0
    else match agentWrite s t dst bs with
      | (s, some e) => fail s e.1 (min (n / 4096) ((e.2 - (localAddr s dst).getD 0) / 4096))
      | (s, none) => updOp s t o.id fun o => { o with got := [(0, n)] }
  match o.instr with
  | .gput _ _ =>
    match agentRead s t src n with
    | (s, .error e) => fail s e.1 0
    | (s, .ok bs) => if isRemote s dst then send s (.put dst bs t o.id) else here s bs
  | .gget _ _ =>
    if isRemote s src then send s (.get src n t o.id)
    else match agentRead s t src n with
      | (s, .error e) => fail s e.1 0
      | (s, .ok bs) => here s bs
  | _ => s

/-- A copy starts: checks in the order DESC, local place and window, global window of task code (R367), then Lamp (R378). -/
def copyStart (s : State) (t : Nat) (e : Cp1Entry) (bs : List Byte) (get : Bool) : State :=
  let ctl := blkHalf bs 0
  let n := copyBytes bs
  let loc := blkWord bs (if get then 0x10 else 0x08)
  let rem := blkWord bs (if get then 0x08 else 0x10)
  let rsig := fld ctl 25 1 = 1
  let bad := fld ctl 5 20 ≠ 0 || fld ctl 28 4 ≠ 0 || (rsig && get) || n = 0 || wfld (blkWord bs 0x18) 32 32 ≠ 0 ||
    blkWord bs 0x20 ≠ 0 || blkWord bs 0x28 ≠ 0 || (fld ctl 27 1 = 1 && wfld (blkWord bs 0x30) 0 3 ≠ 0)
  match tmoSpan s (fld ctl 0 5) with
  | none => refuseOp s t e bs gDesc 0
  | some span =>
    if bad then refuseOp s t e bs gDesc 0
    else match placeErr s t e.task loc n (if get then rightW else rightR) (if get then gDstWin else gSrcWin) with
      | some c => refuseOp s t e bs c 0
      | none =>
        match opSigErr s t e.task e.instr bs with
        | some c => refuseOp s t e bs c 0
        | none =>
          if wfld rem 56 8 ≠ 0 then refuseOp s t e bs gAddr 0
          else if !agentWin s t e.task rem n (if get then rightR else rightW) then
            refuseOp s t e bs (if get then gSrcWin else gDstWin) 0
          else
            let big := decide (65536 ≤ n)
            let (s, id) := openOp s t e bs (s.mono + span) big
            let s := if big then requestGrant s (.op t id) 6 none (rtTile s t) else s
            match findOp s t id with
            | some o => if big && !o.grant then s else copyMove s t o
            | none => s

/-- Lamp has granted a copy's request (R378). -/
def copyGranted (s : State) (t id : Nat) : State :=
  match findOp s t id with
  | some o => copyMove s t o
  | none => s

/-! ### Remote accesses that arrive (R366, R367) -/

/-- The local address of a remote access that R366, R367 and R541 admit. -/
def remoteOk (s : State) (a : Word) (n : Nat) (write : Bool) : Option Nat :=
  match localAddr s a with
  | none => none
  | some l =>
    let place := match target s none l n with | .mem _ => true | .scratch _ _ => true | _ => false
    let win := (List.range 8).any fun i =>
      let lo := aget 0 s.gal.rwinLo i
      wbit lo (b2n write) && decide (wfld lo 7 33 ≤ l / 128) && decide ((l + n - 1) / 128 ≤ wfld (aget 0 s.gal.rwinHi i) 7 33)
    if place && win && !(write && inGraphRegion s l n) then some l else none

/-- A remote read arrives: its data or its failure goes back. -/
def execRemoteRead (src : Gid) (addr : Word) (len : Nat) (tag : Nat) (s : State) : Result :=
  .next (if s.power ≠ .run then s
    else match remoteOk s addr len false with
      | none => galSend s (.readReply src tag (.failed (BitVec.ofNat 8 gRemoteWin)))
      | some l => match busRead s none l len with
        | (s, .ok bs) => galSend s (.readReply src tag (.data bs))
        | (s, .error e) => galSend s (.readReply src tag (.failed (BitVec.ofNat 8 (accCode gRemoteWin e.1)))))

/-- The tile whose scratch a local address names through its window. -/
def scratchOwner (s : State) (l : Nat) : Option Nat :=
  match target s none l 1 with
  | .scratch t _ => some t
  | _ => none

/-- While the way split of a tile changes, its port holds back Gallery writes to its scratch (R326). -/
def holdBack (s : State) (t : Option Nat) (w : HeldWrite) (go : State → State) : State :=
  match t with
  | some t => if (s.tile t).l1.change.isSome then s.updL1 t fun x => { x with held := x.held ++ [w] } else go s
  | none => go s

/-- A remote write, or with `add` a remote atomic that adds its value (R343, R367), is performed and acknowledged, or changes
nothing. -/
def remoteWrite (s : State) (src : Gid) (addr : Word) (add : Bool) (data : List Byte) (tag : Nat) : State :=
  match remoteOk s addr data.length true with
  | none => galSend s (.writeAck src tag false)
  | some l =>
    let r := if add then busAdd s none l data.length (ofBytes data) else busWrite s none l data
    galSend r.1 (.writeAck src tag r.2.isNone)

/-- A remote write arrives. -/
def execRemoteWrite (src : Gid) (addr : Word) (data : WriteData) (tag : Nat) (s : State) : Result :=
  .next (if s.power ≠ .run then s
    else holdBack s ((localAddr s addr).bind (scratchOwner s)) (.remote src addr data.add data.bytes tag)
      (remoteWrite · src addr data.add data.bytes tag))

/-- The oldest remote store of a tile is acknowledged (R368); a refusal is a late store error (R145). -/
def execRemoteStoreAcknowledgement (t : TileId) (ok : Bool) (s : State) : Result :=
  .next (match (s.tile t.val).core.remote with
    | [] => s
    | e :: es =>
      let s := s.updCore (.tile t) fun k => { k with remote := es }
      if ok then s else recordLate s (.tile t) e.addr 1)

/-- The data of a remote scalar load, or its failure, arrives (R323): the load ends and the core goes on. -/
def loadArrives (s : State) (t : TileId) (res : ReadResp) : State :=
  match (s.tile t.val).core.waitLoad with
  | none => s
  | some p =>
    let s := s.updCore (.tile t) fun k => { k with waitLoad := none }
    match res with
    | .data bs =>
      if p.str then s.updCore (.tile t) fun k => { k with strData := k.strData ++ [(p.addr, bs.take p.size)] }
      else
      let v := extend p.signed (bs.take p.size)
      (addSteps (s.setReg (.tile t) p.rd v) (.tile t) 1).updCore (.tile t) fun k => goNext k k.pc p.len
    | .failed _ => takeFault s (.tile t) { code := cLoadBus, addr := p.addr } (s.tile t.val).core.pc

/-- The data of a piece of a `gget`, or its failure, arrives (R378). -/
def getArrives (s : State) (t op off : Nat) (res : ReadResp) : State :=
  match findOp s t op with
  | none => s
  | some o => match o.instr with
    | .gget _ _ =>
      let n := copyBytes o.block
      match res with
      | .data bs =>
        if n < off + bs.length || (o.needGrant && !o.grant) then s
        else match agentWrite s t (blkWord o.block 0x10 + BitVec.ofNat 64 off) bs with
          | (s, none) => updOp s t op fun o => { o with got := (off, bs.length) :: o.got }
          | (s, some e) => finishOp s t op (accCode gAddr e.1) (unitsDone o.got n)
      | .failed c => finishOp s t op c.toNat (unitsDone o.got n)
    | _ => s

def execRemoteReadResponse (t : TileId) (op : Option Nat) (off : Nat) (res : ReadResp) (s : State) : Result :=
  .next (if s.power ≠ .run then s
    else match op with
      | none => loadArrives s t res
      | some id =>
        let dst := (findOp s t.val id).bind fun o => localAddr s (blkWord o.block 0x10)
        let own := match dst.map fun l => target s (some t.val) l 1 with | some (.scratch u _) => some u | _ => none
        holdBack s own (.response id off res) (getArrives · t.val id off res))

end Sys2Proof.Machine
end

