-- ==== Sys2Proof/Machine/Slots.lean ====
section
/-! DEFINITION. Sequence slots, basins and slot completion (R382 to R387, R405, R407, R408), and the directory caches (R379 to R381). -/

namespace Sys2Proof.Machine

open Sys2Proof

def slotAt (s : State) (n : Nat) : Slot := aget {} s.gal.slots n

def setSlot (s : State) (n : Nat) (x : Slot) : State := { s with gal := { s.gal with slots := aput s.gal.slots n x } }

/-- The exchange die that keeps a slot. -/
def slotDie (n : Nat) : Nat := n / 2048

/-- The address of a slot's basin (R382). -/
def basinAddr (s : State) (n : Nat) : Nat := s.gal.basin + 32768 * n

/-! ### Arming (R384 to R386) -/

/-- What `garm` reads from its block. -/
structure Arm where
  first : Nat
  count : Nat
  h : Nat
  cv : Bool
  clr : Bool
  db : Nat
  prog : Word
  out : Word
  opitch : Nat
  staddr : Word
  deriving DecidableEq, Repr

def armOf (bs : List Byte) : Arm :=
  let c := blkHalf bs 0
  let p := blkWord bs 0x08
  { first := wfld p 0 12, count := wfld p 12 12 + 1, h := wfld p 32 16, cv := fld c 25 1 = 1, clr := fld c 24 1 = 1
    db := fld c 19 5, prog := blkWord bs 0x10, out := blkWord bs 0x18, opitch := wfld (blkWord bs 0x20) 0 32
    staddr := blkWord bs 0x28 }

/-- H of a slot or a dispatch (R384, R388). -/
def rowLenOk (h : Nat) : Bool := decide (32 ≤ h) && decide (h ≤ 8192) && h % 32 = 0

/-- The block is in range (R373, R384, R385). -/
def armOk (bs : List Byte) : Bool :=
  let a := armOf bs
  fld (blkHalf bs 0) 28 4 = 0 && fld (blkHalf bs 0) 0 19 = 0 && wfld (blkWord bs 0x08) 24 8 = 0 &&
    wfld (blkWord bs 0x08) 48 16 = 0 && rowLenOk a.h && wfld (blkWord bs 0x20) 32 32 = 0 && wfld a.staddr 0 3 = 0 &&
    (!a.cv || wfld a.prog 0 6 = 0) && decide (a.first + a.count ≤ 4096)

/-- The lowest CFORM sub of a program that R386 does not allow (R282), none for one that it allows. -/
def armProg (p : Prog) : Option Nat :=
  let k := cform p .memory
  if k = some 0 || p.wf ≠ 0 || p.xf ≠ 0 || p.af ≠ 15 || p.bf ≠ 15 || p.orm = 4 || 10 < p.of then some 0
  else ((List.range (p.nst + 1)).find? fun j =>
    let w := p.sts.getD j 0
    k = some (j + 1) || (stOp w = 0x0A && fld w 4 3 = 4) || (j = p.nst && p.reduces)).map (· + 1)

/-- Bytes of the conversion output of slot first + j. -/
def Arm.outAt (a : Arm) (j : Nat) : Word := a.out + BitVec.ofNat 64 (j * a.opitch)

/-- The places that `garm` names: status area BLOCK, output and signal by place and window. -/
def armPlaces (s : State) (t : Nat) (task : Bool) (bs : List Byte) (a : Arm) (of : Nat) : Option Nat :=
  if blockErr s t task a.staddr (8 * a.count) rightW then some gBlock
  else if hitsGraph s a.staddr (8 * a.count) then some gRemoteWin
  else
    match (if a.cv then (List.range a.count).findSome? fun j =>
        placeErr s t task (a.outAt j) (a.h * fmtSize of) rightW gDstWin else none) with
    | some c => some c
    | none => sigErr s t task bs

/-- Status word and basin of a slot are set to 0 (R385); the code of a write that fails. -/
def clearSlot (a : Arm) (t j : Nat) (s : State) : State × Option Nat :=
  let b := basinAddr s (a.first + j)
  match agentWrite s t (a.staddr + BitVec.ofNat 64 (8 * j)) (List.replicate 8 0) with
  | (s, some e) => (s, some (accCode gBlock e.1))
  | (s, none) =>
    if !a.clr then (s, none)
    else if inGraphRegion s b (4 * a.h) then (s, some gAddr)
    else match memWrite s b (List.replicate (4 * a.h) 0) with
      | (s, some e) => (s, some (accCode gAddr e.1))
      | (s, none) => (s, none)

/-- One slot is armed (R385), unless a slot before it could not be written. -/
def armSlot (bs : List Byte) (a : Arm) (prog : List Byte) (t : Nat) (acc : State × Option Nat) (j : Nat) : State × Option Nat :=
  let n := a.first + j
  if acc.2.isSome then acc
  else match clearSlot a t j acc.1 with
  | (s, some c) => (s, some c)
  | (s, none) => (setSlot s n
    { state := .armed, h := a.h, cv := a.cv, db := BitVec.ofNat 5 a.db, sig := fld (blkHalf bs 0) 27 1 = 1,
      sigadd := fld (blkHalf bs 0) 26 1 = 1, j := j, out := a.out, opitch := a.opitch, staddr := a.staddr,
      sigaddr := blkWord bs 0x30, sigval := blkWord bs 0x38, tile := t, prog := prog, pending := 0, failed := 0, code := 0 }, none)

/-- `garm` runs (R385): it writes no signal of its own. -/
def armStart (s : State) (t : Nat) (e : Cp1Entry) (bs : List Byte) : State :=
  let a := armOf bs
  let stop := fun (s : State) (code detail : Nat) => writeEnd s t e.instr e.r1 bs false code detail
  if !armOk bs then stop s gDesc 0
  else if (List.range a.count).any fun j => (slotAt s (a.first + j)).state = .opened then stop s gBusy 0
  else
    let fetch : State × Except Nat (List Byte) :=
      if !a.cv then (s, .ok [])
      else if blockErr s t e.task a.prog 64 rightR then (s, .error gBlock)
      else match agentRead s t a.prog 64 with
        | (s, .ok p) => (s, .ok p)
        | (s, .error x) => (s, .error (accCode gBlock x.1))
    match fetch with
    | (s, .error c) => stop s c 0
    | (s, .ok prog) =>
      match (if a.cv then armProg (progOf prog) else none) with
      | some k => stop s gDesc k
      | none => match armPlaces s t e.task bs a (progOf prog).of with
        | some c => stop s c 0
        | none =>
          let r := (List.range a.count).foldl (armSlot bs a prog t) (s, none)
          stop r.1 (r.2.getD 0) 0

/-! ### Completion (R387, R408) -/

/-- Outputs of a slot's program over its basin: the bytes of each element, and whether one was NaN or infinite. -/
def slotConvert (p : Prog) (basin : List Byte) (h : Nat) : List Byte × Bool :=
  (List.range h).foldl (fun acc i =>
    let x : CVal := (0, ofBytes ((basin.drop (4 * i)).take 4))
    let r := chainElem p { x := x, a := (0, 0), b := (0, 0) } 0
    let o := (chainOut p r.1 0).1
    let bad := isFloat p.of && (match (fmtCode p.of).val o with | .fin _ _ _ => false | _ => true)
    (acc.1 ++ toBytes (fmtSize p.of) o, acc.2 || bad)) ([], false)

/-- The status word of a completed slot (R387). -/
def slotStatus (n : Nat) (x : Slot) (nan : Bool) : Word :=
  pack [(1, 63), (b2n nan, 62), (x.failed % 65536, 32), (x.code.toNat, 24), (n, 0)]

/-- The status word of a slot is written at staddr + 8j (R384). -/
def writeStatus (s : State) (x : Slot) (w : Word) : State :=
  madeBy x.tile (agentWrite s x.tile (x.staddr + BitVec.ofNat 64 (8 * x.j)) (toBytes 8 w.toNat))

/-- The five steps of R408. -/
def completeSlot (s : State) (n : Nat) : State :=
  let x := slotAt s n
  let conv : State × Bool :=
    if !x.cv then (s, false)
    else match memRead s (basinAddr s n) (4 * x.h) with
      | (s, .error e) => (galFail s x.tile (accCode 0 e.1) e.2, false)
      | (s, .ok bs) =>
        let r := slotConvert (progOf x.prog) bs x.h
        (madeBy x.tile (agentWrite s x.tile (x.out + BitVec.ofNat 64 (x.j * x.opitch)) r.1), r.2)
  let s := writeStatus conv.1 x (slotStatus n x conv.2)
  let s := if x.sig then madeBy x.tile (agentSignal s x.tile x.sigaddr x.sigadd x.sigval) else s
  let s := ringTile s x.tile x.db.toNat
  setSlot s n { x with state := .free }

/-- A slot whose trips have all ended completes (R408). -/
def execSlotCompletion (slot : SlotNo) (s : State) : Result :=
  .next (
    let x := slotAt s slot.val
    if s.power = .run && x.state = .opened && x.pending = 0 then completeSlot s slot.val else s)

/-! ### Combining (R405) -/

/-- One fragment is combined into a basin line: 32 fused multiply-adds, each rounded once. -/
def combineLine (weight fmt : Nat) (xs : List Word) (basin : List Byte) : List Byte :=
  (List.range 32).flatMap fun c =>
    let x := cvtCode fmt 0 .rne (xs.getD c 0).toNat
    toBytes 4 (fma3 f32 .rne false false weight x (ofBytes ((basin.drop (4 * c)).take 4))).1

/-- The near-memory unit of a basin's stack cache combines a fragment (R405, R482); the failure it meets. -/
def combineAt (s : State) (a weight fmt : Nat) (xs : List Word) (err : LineErr) : State × Option AccErr :=
  match memRead (strikeLine s (a / 128) err) a 128 with
  | (s, .error e) => (s, some e.1)
  | (s, .ok bs) =>
    if inGraphRegion s a 128 then (s, some .bus)
    else match place s a with
      | some p => (nearWrite s p a (combineLine weight fmt xs bs), none)
      | none => (s, some .bus)

/-! ### The expert directory (R379 to R381) -/

/-- What a lookup finds. -/
inductive Found where
  | expert (dst : InboxRef) (alt : Nat)
  | fail (code : Nat)
  deriving DecidableEq, Repr

/-- An entry as a lookup reads it (R379, R380). -/
def entryOf (s : State) (w : BitVec 32) : Found :=
  let x := w.toNat
  let dst : InboxRef :=
    { gid := BitVec.ofNat 16 (fld x 0 16), tile := Fin.ofNat 256 (fld x 16 8), inbox := Fin.ofNat 16 (fld x 24 4) }
  let here := dst.gid = s.gid
  if fld x 31 1 = 0 || fld x 29 2 = 3 then .fail gNoExpert
  else if here && ((s.tile dst.tile.val).oos || !(s.inbox dst.tile.val dst.inbox.val).en) then .fail gNoExpert
  else .expert dst (fld x 29 2)

/-- A lookup by an exchange die: its cache, else memory, which the cache then holds (R381). -/
def lookup (s : State) (die e : Nat) : State × Found :=
  let key := 2 ^ 20 * die + e
  match afind s.gal.dircache key with
  | some w => (s, entryOf s w)
  | none => match memRead s (s.gal.dirbase + 4 * e) 4 with
    | (s, .error x) => (s, .fail (accCode gNoExpert x.1))
    | (s, .ok bs) =>
      let w : BitVec 32 := BitVec.ofNat 32 (ofBytes bs)
      ({ s with gal := { s.gal with dircache := aput s.gal.dircache key w } }, entryOf s w)

/-- A write of GAL_DIRINV (R381). One written while another runs makes both an invalidation of every entry (log 39). -/
def dirinvWrite (g : Gallery) (v : Word) : Gallery :=
  let x := if wbit v 20 then none else some (wfld v 0 20)
  { g with dirinv := some (match g.dirinv with | none => x | some y => if x = y then x else none) }

def execGalDirinv (v : Word) (s : State) : Result :=
  .next (if s.power = .run then { s with gal := dirinvWrite s.gal v } else s)

/-- The invalidation finishes on both exchange dies (R381). -/
def execDirectoryInvalidationEnd (s : State) : Result :=
  .next (match s.gal.dirinv with
    | none => s
    | some x =>
      let keep := match x with
        | none => []
        | some e => s.gal.dircache.filter fun p => p.1 % 2 ^ 20 ≠ e
      { s with gal := { s.gal with dircache := keep, dirinv := none } })

end Sys2Proof.Machine
end

