-- ==== Sys2Proof/Machine/Inbox.lean ====
section
/-! DEFINITION. Inboxes (R392, R393, R397 to R402): configuration, reservations, token rows, void slots, head, the inbox gather, and the opening of return batches (R403). -/

namespace Sys2Proof.Machine

open Sys2Proof

/-! ### Reservations and waiters (R392, R393) -/

def inboxFree (x : Inbox) : Nat := x.nslots - (x.resv - x.head)

def inboxRef (s : State) (t i : Nat) : InboxRef := { gid := s.gid, tile := Fin.ofNat 256 t, inbox := Fin.ofNat 16 i }

/-- `k` slots are granted to a requester, the next in ring order. -/
def grantSlots (s : State) (t i : Nat) (src : Gid) (req k : Nat) : State :=
  let x := s.inbox t i
  let slots := (List.range k).map fun j => x.resv + j
  let s := s.updInbox t i fun x =>
    { x with resv := x.resv + k, granted := slots.foldl (fun m j => aput m j s.mono) x.granted }
  galSend s (.grant src req (inboxRef s t i) slots)

/-- Waiters are granted in order as slots free, partially where they must be (R393). -/
def serveWaiters : Nat → State → Nat → Nat → State
  | 0, s, _, _ => s
  | fuel + 1, s, t, i =>
    let x := s.inbox t i
    let free := inboxFree x
    match x.waiters with
    | [] => s
    | w :: ws =>
      if free = 0 then s
      else
        let k := min w.n free
        let rest := if k < w.n then { w with n := w.n - k } :: ws else ws
        serveWaiters fuel (grantSlots (s.updInbox t i fun x => { x with waiters := rest }) t i w.src w.req k) t i

def serveInbox (s : State) (t i : Nat) : State := serveWaiters 65 s t i

/-- A reservation request arrives (R380, R392, R393, R398): one slot for each trip in order, and what is not granted waits as
far as its entries say hold. -/
def execInboxReservation (t : TileId) (i : InboxNo) (src : Gid) (req n : Nat) (hold : List Bool) (rowBytes : Nat) (s : State) :
    Result :=
  .next (if s.power ≠ .run then s
    else
      let x := s.inbox t.val i.val
      if (s.tile t.val).oos || !x.en || 128 * x.pitch < rowBytes then galSend s (.refuse src req (inboxRef s t.val i.val))
      else
        let k := if x.waiters = [] then min n (inboxFree x) else 0
        let wait := (((hold.take n).drop k).filter id).length
        let s := grantSlots s t.val i.val src req k
        if 0 < wait && x.waiters.length < 64 then
          s.updInbox t.val i.val fun x => { x with waiters := x.waiters ++ [{ src := src, req := req, n := wait }] }
        else s)

/-! ### GAL_IBCFG and GAL_IBPTR (R397, R398) -/

/-- A write of GAL_IBCFG (R397). -/
def ibcfgWrite (s : State) (t i : Nat) (v : Word) : State :=
  let x := s.inbox t i
  let en := wbit v 63
  let x' := if x.resv ≠ x.head then { x with en := en }
    else { x with en := en, nslots := wfld v 40 12, pitch := wfld v 31 9, hdr := wfld v 16 15, rows := wfld v 0 12 }
  if en then serveInbox (s.updInbox t i fun _ => x') t i
  else x.waiters.foldl (fun s w => galSend s (.refuse w.src w.req (inboxRef s t i)))
    (s.updInbox t i fun _ => { x' with waiters := [] })

def ibcfgRead (x : Inbox) : Word := pack [(b2n x.en, 63), (x.nslots, 40), (x.pitch, 31), (x.hdr, 16), (x.rows, 0)]

/-- A write of GAL_IBPTR (R398): only a head between the old head and tail. -/
def ibptrWrite (s : State) (t i : Nat) (v : Word) : State :=
  let x := s.inbox t i
  let d := (wfld v 0 16 + 65536 - x.head % 65536) % 65536
  if d ≤ x.tail - x.head then serveInbox (s.updInbox t i fun x => { x with head := x.head + d }) t i else s

def ibptrRead (x : Inbox) : Word := pack [(x.tail % 65536, 16), (x.head % 65536, 0)]

def execGalIbcfg (t : TileId) (i : InboxNo) (v : Word) (s : State) : Result :=
  .next (if s.power = .run then ibcfgWrite s t.val i.val v else s)
def execGalIbptr (t : TileId) (i : InboxNo) (v : Word) (s : State) : Result :=
  .next (if s.power = .run then ibptrWrite s t.val i.val v else s)

/-! ### Filling slots (R398 to R400) -/

def rowOff (x : Inbox) (j : Nat) : Nat := 128 * x.rows + j % x.nslots * (128 * x.pitch)
def hdrOff (x : Inbox) (j : Nat) : Nat := 16 * x.hdr + 16 * (j % x.nslots)

/-- The 16 bytes of a header (R399). -/
def hdrBytes (h : RowHeader) (seq : Nat) : List Byte :=
  toBytes 2 h.origin.toNat ++ toBytes 2 (h.trip.toNat % 32768) ++ toBytes 1 (h.gen.toNat % 16) ++ toBytes 1 h.efmt.toNat ++
    toBytes 2 h.nb.toNat ++ toBytes 4 (h.expert.toNat % 2 ^ 20) ++ toBytes 4 seq

def hdrOf (bs : List Byte) : RowHeader :=
  { origin := BitVec.ofNat 16 (ofBytes (bs.take 2)), trip := BitVec.ofNat 16 (ofBytes ((bs.drop 2).take 2))
    gen := BitVec.ofNat 8 (ofBytes ((bs.drop 4).take 1)), efmt := BitVec.ofNat 8 (ofBytes ((bs.drop 5).take 1))
    nb := BitVec.ofNat 16 (ofBytes ((bs.drop 6).take 2)), expert := BitVec.ofNat 32 (ofBytes ((bs.drop 8).take 4)) }

/-- tail advances over filled slots in slot order (R400). -/
def advanceTail : Nat → Inbox → Inbox
  | 0, x => x
  | n + 1, x =>
    if x.filled.contains x.tail then
      advanceTail n { x with filled := x.filled.filter (· ≠ x.tail), tail := x.tail + 1 }
    else x

/-- A slot's header has been written: tail advances, and an arrival wakes a tile parked on the inbox (R400). -/
def slotFilled (s : State) (t i j : Nat) : State :=
  let old := (s.inbox t i).tail
  let s := s.updInbox t i fun x =>
    advanceTail (x.filled.length + 1) { x with filled := j :: x.filled, granted := adel x.granted j }
  if (s.inbox t i).tail = old then s else wakeCheck s t

/-- A write into the scratch of a tile, as far as it is backed (R24). -/
def scratchPut (s : State) (t off : Nat) (bs : List Byte) : State :=
  if off + bs.length ≤ scratchBytes s t then scratchWrite s t off bs else s

/-- A token row and its header land in a granted slot (R395, R400). A row longer than the slots fails its trip (R398). -/
def tokenRow (s : State) (t i slot : Nat) (hdr : RowHeader) (row : List Byte) : State :=
  let x := s.inbox t i
  if !ahas x.granted slot then s
  else if 128 * x.pitch < row.length then galSend s (.failure hdr.origin hdr.trip (BitVec.ofNat 8 gNoExpert))
  else
    let s := scratchPut s t (rowOff x slot) row
    let s := scratchPut s t (hdrOff x slot) (hdrBytes hdr (x.tail % 65536))
    galSend (slotFilled s t i slot) (.headerAck hdr.origin hdr.trip)

/-- A token row arrives. -/
def execTokenRow (t : TileId) (i : InboxNo) (slot : Nat) (hdr : RowHeader) (row : List Byte) (s : State) : Result :=
  .next (if s.power ≠ .run then s
    else holdBack s (some t.val) (.row i.val slot hdr row) (tokenRow · t.val i.val slot hdr row))

/-- A reserved slot without a header 100 us after its grant is written void (R400). -/
def voidSlot (s : State) (t i slot : Nat) : State :=
  let x := s.inbox t i
  match afind x.granted slot with
  | none => s
  | some at_ =>
    let s := s.reach (at_ + 100000)
    let void : RowHeader := { origin := 0, trip := 0, gen := 0, efmt := 0xFF, nb := 0, expert := 0 }
    slotFilled (scratchPut s t (hdrOff x slot) (hdrBytes void 0)) t i slot

def execVoidSlot (t : TileId) (i : InboxNo) (slot : Nat) (s : State) : Result :=
  .next (if s.power ≠ .run then s else holdBack s (some t.val) (.void i.val slot) (voidSlot · t.val i.val slot))

/-! ### The inbox gather (R401, R402) -/

/-- Slots that a gather takes, with their headers, and where it stops: slots from `j` on, `n` of them, at most `room` rows. -/
def gatherScan (s : State) (t : Nat) (x : Inbox) : Nat → Nat → Nat → Option RowHeader → Except AccErr (List (Nat × RowHeader) × Nat)
  | 0, j, _, _ => .ok ([], j)
  | n + 1, j, room, first =>
    if room = 0 then .ok ([], j)
    else match scratchRead s t (hdrOff x j) 16 with
      | .error e => .error e.1
      | .ok bs =>
        let h := hdrOf bs
        if h.efmt = 0xFF then gatherScan s t x n (j + 1) room first
        else
          let same := match first with | some f => f.efmt = h.efmt && f.nb = h.nb | none => true
          if !same then .ok ([], j)
          else match gatherScan s t x n (j + 1) (room - 1) (some (first.getD h)) with
            | .error e => .error e
            | .ok (rs, k) => .ok ((j, h) :: rs, k)

/-- The scratch offset of element e of row m under SKEW: chunk e / 32, position k of line m + k (R292, R402). -/
def skewOff (dst stride line sz m e : Nat) : Nat := dst + e / 32 * stride + (m + e % 32) * line + e % 32 * sz

/-- The bytes that the gather writes for row m (R402): offset and bytes. -/
def gatherRow (skew : Bool) (dst pitch sz m : Nat) (row : List Byte) : List (Nat × List Byte) :=
  if skew then
    (List.range (row.length / sz)).map fun e => (skewOff dst pitch (32 * sz) sz m e, (row.drop (e * sz)).take sz)
  else [(dst + m * pitch, row)]

/-- `gibgat` runs (R402). -/
def gatherStart (s : State) (t : Nat) (e : Cp1Entry) (bs : List Byte) : State :=
  let ctl := blkHalf bs 0
  let p0 := blkWord bs 0x10
  let skew := fld ctl 24 1 = 1
  let nmax := wfld p0 0 9
  let dst := blkWord bs 0x08
  let pitch := wfld p0 32 32
  let hl := blkWord bs 0x18
  let i := fld ctl 0 4
  let x := s.inbox t i
  let stop := fun (s : State) (c d : Nat) => refuseOp s t e bs c d
  let bad := fld ctl 28 4 ≠ 0 || fld ctl 4 20 ≠ 0 || wfld p0 9 23 ≠ 0 || nmax = 0 || (if skew then 128 else 256) < nmax ||
    wfld hl 0 4 ≠ 0 || blkWord bs 0x20 ≠ 0 || blkWord bs 0x28 ≠ 0 || (fld ctl 27 1 = 1 && wfld (blkWord bs 0x30) 0 3 ≠ 0)
  if bad then stop s gDesc 0
  else match gatherScan s t x (x.tail - x.head) x.head nmax none with
    | .error err => stop (requestSound s (scratchRow t (hdrOff x x.head))) (accCode gAddr err) 0
    | .ok (rows, upTo) =>
      let m := rows.length
      let f := (rows.head?.map (·.2)).getD { origin := 0, trip := 0, gen := 0, efmt := 0, nb := 0, expert := 0 }
      let sz := fmtSize f.efmt.toNat
      let len := f.nb.toNat * 32 * sz
      let line := 32 * sz
      let skewBad := skew && m ≠ 0 && (sz = 0 || sz = 8 || pitch % line ≠ 0 || dst.toNat % line ≠ 0)
      let last := if skew then (f.nb.toNat - 1) * pitch + (m + 31) * line else (m - 1) * pitch + len
      if skewBad then stop s gDesc 0
      else match sigErr s t e.task bs with
        | some c => stop s c 0
        | none => match (if m = 0 then none else placeErr s t e.task hl (16 * m) rightW gDstWin) with
          | some c => stop s c 0
          | none =>
            if m ≠ 0 && scratchBytes s t < dst.toNat + last then stop s gAddr 0
            else
              let src := rows.map fun r => scratchRead s t (rowOff x r.1) len
              match src.findSome? fun r => match r with | .error q => some q | .ok _ => none with
              | some q => stop s (accCode gAddr q.1) 0
              | none =>
                let data := src.map fun r => match r with | .ok b => b | .error _ => []
                match ((List.range m).zip (rows.zip data)).foldl (fun (acc : State × Option Nat) q =>
                  if acc.2.isSome then acc
                  else match agentWrite acc.1 t (hl + BitVec.ofNat 64 (16 * q.1)) ((match scratchRead acc.1 t (hdrOff x q.2.1.1) 16 with
                    | .ok b => b
                    | .error _ => [])) with
                  | (s, some e) => (s, some (accCode gBlock e.1))
                  | (s, none) => ((gatherRow skew dst.toNat pitch sz q.1 q.2.2).foldl (fun s w => scratchWrite s t w.1 w.2) s, none))
                  (s, none) with
                | (s, some c) => stop s c 0
                | (s, none) =>
                  let s := if fld ctl 25 1 = 1 then
                      serveInbox (s.updInbox t i fun x => { x with head := upTo }) t i
                    else s
                  stop s 0 m

/-! ### Return batches (R403) -/

/-- rs2 of `greturn` in range (R403). -/
def returnShape (w : Word) : Bool := wfld w 16 48 = 0 && wfld w 5 3 = 0

/-- A batch stands open from the issue of its `greturn`, so that drains issued after it pair with it (R404). -/
def openBatch (p : Port1) (w : Word) : Port1 :=
  { p with
    batches := p.batches ++ [{ id := p.nextBatch, rows := wfld w 0 5 + 1, nb := wfld w 8 8 + 1, headers := [], ok := false,
                               started := false, paired := 0, done := 0 }]
    nextBatch := p.nextBatch + 1 }

/-- The start of the oldest `greturn`: headers are read and compared (R403). -/
def returnStart (s : State) (t : Nat) (e : Cp1Entry) : State :=
  match (s.tile t).port.batches.find? fun b => !b.started with
  | none => s
  | some b =>
    let put := fun (s : State) (b' : Batch) (rfail : Option Nat) => s.updPort t fun p =>
      { p with batches := p.batches.map fun x => if x.id = b.id then b' else x
               rfail := match rfail with | some c => BitVec.ofNat 8 c | none => p.rfail }
    match agentRead s t e.r1 (16 * b.rows) with
    | (s, .error x) => galFail (put s { b with started := true } (some gBlock)) t (accCode 0 x.1) x.2
    | (s, .ok bs) =>
      let hs := (List.range b.rows).map fun r => hdrOf ((bs.drop (16 * r)).take 16)
      let live := hs.filter fun h => h.efmt ≠ 0xFF
      if live.length = b.rows && hs.all fun h => h.nb.toNat = b.nb then
        put s { b with started := true, ok := true, headers := hs } none
      else
        let s := put s { b with started := true, headers := hs } (some gShape)
        live.foldl (fun s h => galSend s (.failure h.origin h.trip (BitVec.ofNat 8 gShape))) s

/-- The batch that the next GAL drain pairs with (R404). -/
def pairBatch (p : Port1) : Option Batch := p.batches.find? fun b => decide (b.paired < b.nb)

/-- Drain `d` of a batch carries its rows (R404): one fragment to each row's origin, or nothing. -/
def sendDrain (s : State) (t : Nat) (b : Batch) (d fmt : Nat) (rows : List (List Word)) : State :=
  let s := if b.ok then
      (b.headers.zip rows).foldl (fun s q =>
        galSend s (.fragment q.1.origin q.1.trip q.1.gen d (BitVec.ofNat 4 fmt) q.2)) s
    else s
  s.updPort t fun p =>
    { p with batches := (p.batches.map fun x => if x.id = b.id then { x with done := x.done + 1 } else x).filter fun x =>
        !(x.id = b.id && decide (x.nb ≤ x.done)) }

end Sys2Proof.Machine
end

