-- ==== Sys2Proof/Machine/Trips.lean ====
section
/-! DEFINITION. Dispatches and trips (R388 to R396, R405 to R407): the checks of a dispatch, trip records, grants, diverts, fragments, failures and expiry. -/

namespace Sys2Proof.Machine

open Sys2Proof

def tripAt (s : State) (n : Nat) : Trip := aget {} s.gal.trips n
def setTrip (s : State) (n : Nat) (x : Trip) : State := { s with gal := { s.gal with trips := aput s.gal.trips n x } }

/-! ### The block and the routing matrix (R388, R389) -/

/-- What `gdispatch` reads from its block. -/
structure Disp where
  k : Nat
  efmt : Nat
  tmo : Nat
  tok : Word
  pitch : Nat
  n : Nat
  h : Nat
  route : Word
  deriving DecidableEq, Repr

def dispOf (s : State) (bs : List Byte) : Disp :=
  let c := blkHalf bs 0
  let p := blkWord bs 0x10
  { k := fld c 16 4, efmt := fld c 12 4, tmo := if fld c 0 5 = 0 then s.gal.deftmo else fld c 0 5, tok := blkWord bs 0x08
    pitch := wfld p 32 32, n := wfld p 16 8 + 1, h := wfld p 0 16, route := blkWord bs 0x18 }

/-- Bytes of a token row. -/
def Disp.rowBytes (d : Disp) : Nat := d.h * fmtSize d.efmt

/-- The address of token row t. -/
def Disp.rowAt (d : Disp) (t : Nat) : Word := d.tok + BitVec.ofNat 64 (t * d.pitch)

def dispOk (s : State) (bs : List Byte) : Bool :=
  let c := blkHalf bs 0
  let d := dispOf s bs
  fld c 28 4 = 0 && fld c 20 6 = 0 && fld c 5 7 = 0 && decide (1 ≤ d.k) && decide (d.k ≤ 8) && decide (d.efmt ≤ 10) &&
    decide (10 ≤ d.tmo) && decide (d.tmo ≤ 26) && wfld (blkWord bs 0x10) 24 8 = 0 && rowLenOk d.h &&
    decide (d.rowBytes ≤ 32768) && blkWord bs 0x20 = 0 && blkWord bs 0x28 = 0 &&
    !(fld c 27 1 = 1 && wfld (blkWord bs 0x30) 0 3 ≠ 0)

/-- Entry (t, j) of the routing matrix, from its bytes. -/
def routeAt (d : Disp) (bs : List Byte) (t j : Nat) : Word := wordOf ((bs.drop (8 * (d.k * t + j))).take 8)

def nullExpert : Nat := 0xFFFFF

/-- The slot of token t: that of its first entry. -/
def tokSlot (d : Disp) (bs : List Byte) (t : Nat) : Nat := wfld (routeAt d bs t 0) 20 12

/-- A dispatch that waits for trip records has named the slot (log 89). -/
def slotAwaited (s : State) (sl : Nat) : Bool :=
  s.gal.tripWait.any fun q => match findOp s q.1 q.2 with
    | some o => let d := dispOf s o.block; (List.range d.n).any fun u => tokSlot d o.matrix u = sl
    | none => false

/-- The checks of R390 on token t, in the order in which they stand. -/
def tokenErr (s : State) (d : Disp) (bs : List Byte) (t : Nat) : Option Nat :=
  let sl := tokSlot d bs t
  if (List.range d.k).any fun j => wfld (routeAt d bs t j) 20 12 ≠ sl then some gDesc
  else if (slotAt s sl).state ≠ .armed || slotAwaited s sl || (List.range d.n).any fun u => u ≠ t && tokSlot d bs u = sl then
    some gBusy
  else if (slotAt s sl).h ≠ d.h then some gShape
  else none

/-- Entries that make a trip, in entry order: token, slot, expert, weight. -/
def tripEntries (d : Disp) (bs : List Byte) : List (Nat × Nat × Nat × BitVec 32) :=
  (List.range d.n).flatMap fun t => (List.range d.k).filterMap fun j =>
    let w := routeAt d bs t j
    if wfld w 0 20 = nullExpert then none
    else some (t, wfld w 20 12, wfld w 0 20, w.extractLsb' 32 32)

/-! ### Trip records (R390, R391) -/

/-- A record may be reserved. -/
def tripFree (s : State) (n : Nat) : Bool := let x := tripAt s n; x.state = .free && x.cooling.isNone

/-- Records of an exchange die that may be reserved. -/
def freeTrips (s : State) (die : Nat) : Nat :=
  16384 - (s.gal.trips.filter fun p => p.1 / 16384 = die && (p.2.state ≠ .free || p.2.cooling.isSome)).length

/-- The i-th free record of an exchange die. -/
def nthTrip (s : State) (die : Nat) : Nat → Nat → Nat → Option Nat
  | 0, _, _ => none
  | fuel + 1, n, i =>
    if tripFree s (16384 * die + n) then
      (match i with | 0 => some (16384 * die + n) | j + 1 => nthTrip s die fuel (n + 1) j)
    else nthTrip s die fuel (n + 1) i

/-- A record is reserved for an entry. Which free ID is taken is not defined (R391), so the choice is a free value. -/
def reserveTrip (s : State) (t op : Nat) (d : Disp) (e : Nat × Nat × Nat × BitVec 32) : State × Option TripId :=
  let die := slotDie e.2.1
  let pick := (Config.freeWord s.free).toNat % max 1 (freeTrips s die)
  let s := s.tick
  match nthTrip s die 16384 0 pick with
  | none => (s, none)
  | some n =>
    let x := tripAt s n
    (setTrip s n
      { state := .sending, gen := x.gen + 1, expert := e.2.2.1, slot := e.2.1, weight := e.2.2.2, got := [], nb := d.h / 32,
        deadline := 0, tmo := d.tmo, tile := t, op := op, tok := d.rowAt e.1, dst := none, inboxSlot := 0 },
      some (BitVec.ofNat 15 n))

/-! ### The end of trips and of dispatches (R396, R406, R407) -/

/-- A dispatch ends when every trip has become OPEN or has failed (R396). -/
def dispCheck (s : State) (t op : Nat) : State :=
  match findOp s t op with
  | none => s
  | some o => match o.instr with
    | .gdispatch _ _ =>
      if o.groups = [] && o.sent = [] && !o.waitTrips then
        finishOp s t op (if o.timedOut then gTimeout else 0) o.failedTrips
      else s
    | _ => s

/-- A trip no longer stands in its dispatch. -/
def dropTrip (o : GalOp) (id : TripId) : GalOp :=
  { o with
    groups := (o.groups.map fun g => { g with trips := g.trips.filter (· ≠ id) }).filter fun g => g.trips ≠ []
    sent := o.sent.filter (· ≠ id) }

/-- A slot's pending count falls by one; a failure counts in its status word (R387, R406, R407). -/
def slotDown (s : State) (n code : Nat) : State :=
  let x := slotAt s n
  if code = 0 then setSlot s n { x with pending := x.pending - 1 }
  else
    let y := { x with
      pending := x.pending - 1, failed := x.failed + 1, code := if x.code = 0 then BitVec.ofNat 8 code else x.code }
    writeStatus (setSlot s n y) y (pack [(y.failed % 65536, 32), (y.code.toNat, 24)])

/-- An ID freed by expiry may be reserved again after 2^(n + 1) us (R391). -/
def coolUntil (s : State) (x : Trip) (expired : Bool) : Option Nat :=
  if expired then some (s.mono + 2 ^ (x.tmo + 1) * 1000) else none

/-- A trip fails (R407): its record is freed, and its slot and its dispatch count it. -/
def failTrip (s : State) (id : TripId) (code : Nat) (expired : Bool) : State :=
  let x := tripAt s id.toNat
  if x.state = .free then s
  else
    let s := setTrip s id.toNat { x with state := .free, cooling := coolUntil s x expired }
    let s := slotDown s x.slot code
    if x.state = .sending then
      dispCheck (updOp s x.tile x.op fun o => { dropTrip o id with failedTrips := o.failedTrips + 1 }) x.tile x.op
    else s

/-! ### Requests for inbox slots (R392 to R395) -/

/-- A trip joins the group of its destination (R392), in token order. -/
def joinGroup (gs : List DispGroup) (dst : InboxRef) (id : TripId) : List DispGroup :=
  if gs.any fun g => g.dst = dst then gs.map fun g => if g.dst = dst then { g with trips := g.trips ++ [id] } else g
  else gs ++ [{ dst := dst, trips := [id] }]

/-- The row bytes of a dispatch, as its block gives them. -/
def opRow (s : State) (o : GalOp) : Nat := (dispOf s o.block).rowBytes

/-- A reservation request for each group (R392), which says of each trip whether it waits where no slot is free (R393). The
trips of a group whose module no route reaches fail at once (R395). -/
def sendReserve (s : State) (t op row : Nat) (gs : List DispGroup) : State :=
  gs.foldl (fun s g =>
    let m : GalMsg := .reserve g.dst (g.trips.map fun id => decide ((tripAt s id.toNat).alt = 0)) row t op
    if routed s m then galSend s m else g.trips.foldl (fun s id => failTrip s id gUnreach false) s) s

/-- Lookups of trips (R380, R394): those that succeed in groups, the others failed. `alt` none keeps each entry's policy. -/
def lookupTrips (s : State) (ids : List TripId) (alt : Option Nat) : State × List DispGroup :=
  ids.foldl (fun acc id =>
    let x := tripAt acc.1 id.toNat
    match lookup acc.1 (slotDie x.slot) x.expert with
    | (s, .fail c) => (failTrip (galFail s x.tile c 0) id c false, acc.2)
    | (s, .expert dst a) =>
      (setTrip s id.toNat { tripAt s id.toNat with dst := some dst, alt := alt.getD a }, joinGroup acc.2 dst id)) (s, [])

/-! ### A dispatch starts (R388 to R390) -/

/-- Places of the source rows and the routing matrix (R388). -/
def dispPlaces (s : State) (t : Nat) (task : Bool) (d : Disp) : Option Nat :=
  match placeErr s t task d.route (8 * d.n * d.k) rightR gSrcWin with
  | some c => some c
  | none => (List.range d.n).findSome? fun r => placeErr s t task (d.rowAt r) d.rowBytes rightR gSrcWin

/-- Slots open, trips are recorded and looked up, and requests leave (R390 to R392). -/
def dispSend (s : State) (t op : Nat) (d : Disp) (bs : List Byte) : State :=
  let es := tripEntries d bs
  let s := (List.range d.n).foldl (fun s u =>
    let n := tokSlot d bs u
    setSlot s n { slotAt s n with state := .opened, pending := (es.filter fun e => e.1 = u).length, failed := 0, code := 0 }) s
  let r := es.foldl (fun (acc : State × List TripId) e =>
    match reserveTrip acc.1 t op d e with
    | (s, some id) => (s, acc.2 ++ [id])
    | (s, none) => (s, acc.2)) (s, [])
  let hold := { dst := { gid := 0, tile := 0, inbox := 0 }, trips := r.2 : DispGroup }
  let s := updOp r.1 t op fun o => { o with waitTrips := false, groups := if r.2 = [] then [] else [hold] }
  let q := lookupTrips s r.2 none
  let s := updOp q.1 t op fun o => { o with groups := q.2 }
  let s := sendReserve s t op d.rowBytes q.2
  let s := (List.range d.n).foldl (fun s u =>
    let n := tokSlot d bs u
    if (es.any fun e => e.1 = u) then s else completeSlot s n) s
  dispCheck s t op

/-- The trip tables have room for every entry of a dispatch (R390). -/
def tripRoom (s : State) (d : Disp) (bs : List Byte) : Bool :=
  [0, 1].all fun die => decide (((tripEntries d bs).filter fun e => slotDie e.2.1 = die).length ≤ freeTrips s die)

/-- A dispatch checks every token once, and sends when the trip tables have room and no dispatch waits before it (R390). -/
def dispTry (s : State) (t : Nat) (o : GalOp) : State :=
  let d := dispOf s o.block
  match agentRead s t d.route (8 * d.n * d.k) with
  | (s, .error e) => finishOp s t o.id (accCode gBlock e.1) 0
  | (s, .ok bs) =>
    match (List.range d.n).findSome? fun u => tokenErr s d bs u with
    | some c => finishOp s t o.id c 0
    | none =>
      if s.gal.tripWait = [] && tripRoom s d bs then dispSend s t o.id d bs
      else
        let s := updOp s t o.id fun o => { o with waitTrips := true, matrix := bs }
        { s with gal := { s.gal with tripWait := s.gal.tripWait ++ [(t, o.id)] } }

def dispStart (s : State) (t : Nat) (e : Cp1Entry) (bs : List Byte) : State :=
  let d := dispOf s bs
  if !dispOk s bs then refuseOp s t e bs gDesc 0
  else match dispPlaces s t e.task d with
    | some c => refuseOp s t e bs c 0
    | none => match sigErr s t e.task bs with
      | some c => refuseOp s t e bs c 0
      | none =>
        let (s, id) := openOp s t e bs (s.mono + 2 ^ d.tmo * 1000) false
        match findOp s t id with
        | some o => dispTry s t o
        | none => s

/-- Dispatches that wait for trip records send in the order in which they began to wait, each once there is room for it. -/
def retryN : Nat → State → State
  | 0, s => s
  | n + 1, s =>
    match s.gal.tripWait with
    | [] => s
    | (t, op) :: rest =>
      let drop := { s with gal := { s.gal with tripWait := rest } }
      match findOp s t op with
      | none => retryN n drop
      | some o =>
        let d := dispOf s o.block
        if !o.waitTrips then retryN n drop
        else if tripRoom s d o.matrix then retryN n (dispSend drop t op d o.matrix)
        else s

def retryTrips (s : State) : State := retryN (s.gal.tripWait.length + 1) s

/-! ### Grants and headers (R394, R395) -/

/-- Rows leave for granted slots (R395); a row that cannot be read fails its trip. -/
def sendRows (s : State) (t : Nat) (o : GalOp) (dst : InboxRef) : List (TripId × Nat) → State
  | [] => s
  | (id, slot) :: rest =>
    let d := dispOf s o.block
    let x := tripAt s id.toNat
    match agentRead s t x.tok d.rowBytes with
    | (s, .error e) =>
      let c := accCode gAddr e.1
      sendRows (failTrip (galFail s t c e.2) id c false) t o dst rest
    | (s, .ok row) =>
      let hdr : RowHeader :=
        { origin := s.gid, trip := id.zeroExtend 16, gen := x.gen.zeroExtend 8, efmt := BitVec.ofNat 8 d.efmt,
          nb := BitVec.ofNat 16 x.nb, expert := BitVec.ofNat 32 x.expert }
      let m : GalMsg := .row dst slot hdr row
      if !routed s m then sendRows (failTrip s id gUnreach false) t o dst rest
      else
        let s := setTrip s id.toNat { x with dst := some dst, inboxSlot := slot }
        let s := updOp s t o.id fun o => { dropTrip o id with sent := o.sent ++ [id] }
        sendRows (galSend s m) t o dst rest

/-- Trips of an ungranted remainder that divert go to their alternate experts, once (R394). -/
def divert (s : State) (t : Nat) (o : GalOp) (ids : List TripId) : State :=
  let s := ids.foldl (fun s id =>
    let x := tripAt s id.toNat
    setTrip s id.toNat { x with expert := x.expert ^^^ (if x.alt = 1 then 0x00001 else 0x80000) }) s
  let q := lookupTrips s ids (some 0)
  let s := updOp q.1 t o.id fun o => { o with
    groups := q.2.foldl (fun gs g => g.trips.foldl (fun gs id => joinGroup gs g.dst id) gs) (ids.foldl dropTrip o).groups }
  sendReserve s t o.id (opRow s o) q.2

/-- A grant arrives at the origin. -/
def execInboxGrant (t : TileId) (op : Nat) (dst : InboxRef) (slots : List Nat) (s : State) : Result :=
  .next (match findOp s t.val op with
    | none => s
    | some o => match o.groups.find? fun g => g.dst = dst with
      | none => s
      | some g =>
        if s.power ≠ .run then s
        else
          let s := sendRows s t.val o dst (g.trips.zip slots)
          let rest := (g.trips.drop slots.length).filter fun id => (tripAt s id.toNat).alt ≠ 0
          let s := if rest = [] then s else divert s t.val o rest
          retryTrips (dispCheck s t.val op))

/-- While the waiter queue is full, the origin repeats its request (R393). -/
def execReservationRepeat (t : TileId) (op : Nat) (dst : InboxRef) (s : State) : Result :=
  .next (match findOp s t.val op with
    | none => s
    | some o =>
      if s.power ≠ .run then s
      else sendReserve s t.val op (opRow s o) (o.groups.filter fun g => g.dst = dst))

/-- A header has been written at the destination: the trip becomes OPEN (R395). -/
def execHeaderAcknowledgement (trip : TripId) (s : State) : Result :=
  .next (
    let x := tripAt s trip.toNat
    if x.state ≠ .sending || s.power ≠ .run then s
    else
      let s := setTrip s trip.toNat { x with state := .opened, deadline := s.mono + 2 ^ x.tmo * 1000 }
      dispCheck (updOp s x.tile x.op fun o => dropTrip o trip) x.tile x.op)

/-- At a dispatch's limit, trips that wait for a grant, and those whose header was never acknowledged (R400), fail with TIMEOUT,
and the dispatch is marked failed (R396). -/
def execDispatchTimeout (t : TileId) (op : Nat) (s : State) : Result :=
  .next (match findOp s t.val op with
    | none => s
    | some o => match o.instr with
      | .gdispatch _ _ =>
        if s.power ≠ .run then s
        else
          let s := (s.reach o.deadline)
          let s := updOp s t.val op fun o => { o with timedOut := true, waitTrips := false }
          let s := ((o.groups.flatMap fun g => g.trips) ++ o.sent).foldl (fun s id => failTrip s id gTimeout true) s
          retryTrips (dispCheck s t.val op)
      | _ => s)

/-! ### Fragments, failures, expiry (R405 to R407) -/

/-- A trip ends when its last fragment has been combined (R406). -/
def endTrip (s : State) (id : TripId) : State :=
  let x := tripAt s id.toNat
  retryTrips (slotDown (setTrip s id.toNat { x with state := .free }) x.slot 0)

/-- A return fragment (R405). -/
def execFragment (trip : TripId) (gen : BitVec 4) (d : Nat) (fmt : BitVec 4) (data : List Word) (err : LineErr) (s : State) :
    Result :=
  .next (
    let x := tripAt s trip.toNat
    if s.power ≠ .run then s
    else if x.state ≠ .opened || x.gen ≠ gen || x.got.contains d || x.nb ≤ d then
      { s with gal := { s.gal with stale := sat32 s.gal.stale 1 } }
    else
      let a := basinAddr s x.slot + 128 * d
      match combineAt s a x.weight.toNat fmt.toNat data err with
      | (s, some e) =>
        let c := accCode gAddr e
        retryTrips (failTrip (galFail s x.tile c a) trip c false)
      | (s, none) =>
        let s := setTrip s trip.toNat { x with got := d :: x.got }
        if x.nb ≤ x.got.length + 1 then endTrip s trip else s)

/-- A failure notice reaches the origin (R403). -/
def execFailureNotice (trip : TripId) (code : BitVec 8) (s : State) : Result :=
  .next (if s.power ≠ .run then s else retryTrips (failTrip s trip code.toNat false))

/-- A trip's deadline passes (R406). -/
def execTripTimeout (trip : TripId) (s : State) : Result :=
  .next (
    let x := tripAt s trip.toNat
    if x.state ≠ .opened || s.power ≠ .run then s
    else failTrip (s.reach x.deadline) trip gTimeout true)

/-- An ID freed by expiry may be reserved again (R391). -/
def execTripIdReuse (trip : TripId) (s : State) : Result :=
  .next (
    let x := tripAt s trip.toNat
    match x.cooling with
    | none => s
    | some at_ => if s.power ≠ .run then s else retryTrips (setTrip (s.reach at_) trip.toNat { x with cooling := none }))

end Sys2Proof.Machine
end

