-- ==== Sys2Proof/Machine/Coll.lean ====
section
/-! DEFINITION. Groups, joins, collectives and beacons (R410 to R419). -/

namespace Sys2Proof.Machine

open Sys2Proof

def State.group (s : State) (g : Nat) : Group := aget {} s.gal.groups g
def State.updGroup (s : State) (g : Nat) (f : Group → Group) : State :=
  { s with gal := { s.gal with groups := aput s.gal.groups g (f (s.group g)) } }

/-! ### The tree (R411) -/

def parentOf (r : Nat) : Nat := (r - 1) / 16

def childrenOf (r n : Nat) : List Nat := ((List.range 16).map fun i => 16 * r + 1 + i).filter fun x => decide (x < n)

/-- The neighbour of rank r on the way to rank j: none for the parent. The tree is at most 5 deep. -/
def hopTo (r : Nat) : Nat → Nat → Option Nat
  | 0, _ => none
  | fuel + 1, j => if j = 0 then none else if parentOf j = r then some j else hopTo r fuel (parentOf j)

def inSubtree (r j : Nat) : Bool := j = r || (hopTo r 6 j).isSome

/-- Ranks of the tree neighbours. -/
def nbrsOf (x : Group) : List Nat :=
  (if x.rank = 0 then [] else [parentOf x.rank]) ++ childrenOf x.rank x.members.length

def gidOf (x : Group) (r : Nat) : Gid := x.members.getD r 0

/-! ### Beacon state (R416) -/

/-- Own state and cause for a group: the worst first, the lowest cause number within it (log 38). -/
def ownBeacon (s : State) (g : Nat) : Nat × Nat :=
  let d := (s.group g).declared.toNat
  let late := fun (r : Req) => r.holder = .coll g && decide (r.at_ + 10000 < s.mono)
  if s.memStacks.any fun p => p.2.band = .critical then (2, 5)
  else if d = 2 then (2, 4)
  else if s.memStacks.any fun p => p.2.band = .hot then (1, 1)
  else if s.lamp.die0.vcore < s.lamp.die0.vset || s.lamp.die1.vcore < s.lamp.die1.vset || s.lamp.rtLine.any late ||
    s.lamp.normLine.any late then (1, 2)
  else if s.links.any fun p => p.2.state = .replay || p.2.state = .retrain then (1, 3)
  else if d = 1 then (1, 4) else (0, 0)

/-- The worst state among the own one and those heard in the last 100 us, with its cause and module (R417). -/
def worstBeacon (s : State) (g : Nat) : Nat × Nat × Gid :=
  let o := ownBeacon s g
  ((s.group g).heard.filter fun h => decide (s.mono ≤ h.time + 100000)).foldl
    (fun b h => if b.1 < h.state.toNat then (h.state.toNat, h.cause.toNat, h.src) else b) (o.1, o.2, s.gid)

/-- A beacon for collective `num` of a group to every tree neighbour. -/
def beaconOf (s : State) (g num st cause : Nat) (src : Gid) : State :=
  let x := s.group g
  (nbrsOf x).foldl (fun s r => galSend s (.beacon (gidOf x r) g num (BitVec.ofNat 2 st) (BitVec.ofNat 3 cause) src)) s

/-- A beacon for the active collective of a group. -/
def sendBeacon (s : State) (g st cause : Nat) (src : Gid) : State :=
  match (s.group g).coll with
  | none => s
  | some c => beaconOf s g c.shape.num st cause src

/-- Own FAIL states are sent at once, in each active collective (R417). -/
def sendFails (s : State) : State :=
  s.gal.groups.foldl (fun s p =>
    let o := ownBeacon s p.1
    if o.1 = 2 && p.2.coll.isSome then sendBeacon s p.1 2 o.2 s.gid else s) s

/-- GAL_BCN (R420): the worst own state over active collectives. -/
def galBcn (s : State) : Word :=
  let w := (s.gal.groups.filter fun p => p.2.coll.isSome).foldl (fun (b : Nat × Nat) p =>
    let o := ownBeacon s p.1
    if b.1 < o.1 then o else b) (0, 0)
  pack [(w.2, 8), (w.1, 0)]

/-! ### Values (R412 to R414) -/

def isReduction (o : CollOp) : Bool := o = .allreduce || o = .reducescatter

/-- Bytes of a block as a member holds it. -/
def blockBytes (sh : CollShape) : Nat := sh.count * fmtSize sh.dtype.toNat

/-- An element as the tree carries it: B16 widened to F32; a NaN of a min or max canonical. -/
def toTree (sh : CollShape) (x : Nat) : Nat :=
  if sh.dtype = 3 then cvtCode 3 0 .rne x else if sh.dtype = 0 && sh.rop ≠ 0 then cvtCode 0 0 .rne x else x

def fromTree (sh : CollShape) (x : Nat) : Nat := if sh.dtype = 3 then cvtCode 0 3 .rne x else x

/-- Two values of the tree combined (R414). -/
def treeOp (sh : CollShape) (a b : Nat) : Nat :=
  let mx := sh.rop = 2
  if sh.dtype = 9 then
    if sh.rop = 0 then (a + b) % 2 ^ 32 else if decide (toInt 32 a < toInt 32 b) = mx then b else a
  else if sh.rop = 0 then faddF32 a b
  else if f32.val a = .nan || f32.val b = .nan then f32.nan else fpMinMax f32 mx a b

/-- Elements of `n` bytes each. -/
def elemsOf (n : Nat) : Nat → List Byte → List Nat
  | 0, _ => []
  | k + 1, bs => ofBytes (bs.take n) :: elemsOf n k (bs.drop n)

def treeBlock (sh : CollShape) (bs : List Byte) : List Byte :=
  (elemsOf (fmtSize sh.dtype.toNat) sh.count bs).flatMap fun x => toBytes 4 (toTree sh x)

def memberBlock (sh : CollShape) (bs : List Byte) : List Byte :=
  (elemsOf 4 sh.count bs).flatMap fun x => toBytes (fmtSize sh.dtype.toNat) (fromTree sh x)

def combineBlocks (sh : CollShape) (a b : List Byte) : List Byte :=
  ((elemsOf 4 sh.count a).zip (elemsOf 4 sh.count b)).flatMap fun p => toBytes 4 (treeOp sh p.1 p.2)

/-! ### The end of a collective -/

/-- Blocks that pass this member: what must be delivered or handed on before it is done. -/
def collNeed (x : Group) (sh : CollShape) : List Nat :=
  let n := x.members.length
  match sh.op with
  | .allreduce | .barrier => [0]
  | .reducescatter => (List.range n).filter fun j => inSubtree x.rank j
  | .allgather => List.range n
  | .alltoall => (List.range (n * n)).filter fun k =>
      let branch := fun j => if j = x.rank then some (some j) else if inSubtree x.rank j then some (hopTo x.rank 6 j) else none
      k / n = x.rank && k % n = x.rank || branch (k / n) ≠ branch (k % n)

/-- Blocks that go up the tree. -/
def upBlocks (x : Group) (sh : CollShape) : List Nat :=
  match sh.op with
  | .allreduce | .barrier => [0]
  | .reducescatter => List.range x.members.length
  | _ => []

/-- A collective leaves its group, and its grant goes back (R415). -/
def closeColl (s : State) (g : Nat) : State :=
  releaseGrant (s.updGroup g fun x => { x with coll := none, heard := [] }) (.coll g)

/-- The state of a collective changes. -/
def updColl (s : State) (g : Nat) (f : Coll → Coll) : State := s.updGroup g fun x => { x with coll := x.coll.map f }

/-- A collective fails on this module (R418): FAIL with cause 6, then stat. -/
def failColl (s : State) (g code detail : Nat) : State :=
  match (s.group g).coll with
  | none => s
  | some c => finishOp (closeColl (sendBeacon s g 2 6 s.gid) g) c.tile c.op code detail

/-! ### Blocks on their way (R413, R414) -/

/-- The bytes of block b of src, or the failure, which ends the collective. -/
def ownBlock (s : State) (c : Coll) (b : Nat) : State × Option (List Byte) :=
  match agentRead s c.tile (c.src + BitVec.ofNat 64 (b * blockBytes c.shape)) (blockBytes c.shape) with
  | (s, .ok bs) => (s, some bs)
  | (s, .error e) =>
    let g := s.gal.groups.find? fun p => match p.2.coll with | some d => d.tile = c.tile && d.op = c.op | none => false
    (match g with | some p => failColl s p.1 (accCode gAddr e.1) 0 | none => s, none)

/-- Bytes are delivered at block b of dst. -/
def deliver (s : State) (g : Nat) (c : Coll) (b : Nat) (bs : List Byte) : State :=
  match agentWrite s c.tile (c.dst + BitVec.ofNat 64 (b * blockBytes c.shape)) bs with
  | (s, none) => s
  | (s, some e) => failColl s g (accCode gAddr e.1) 0

def gotBlock (s : State) (g b : Nat) : State := updColl s g fun c => { c with got := b :: c.got }

/-- Data leaves for a tree neighbour; without a route to it the collective fails (R376). -/
def sendColl (s : State) (g r : Nat) (sh : CollShape) (b : Nat) (bs : List Byte) : State :=
  let m : GalMsg := .coll (gidOf (s.group g) r) g sh b bs
  if (s.group g).coll.isNone then s else if routed s m then galSend s m else failColl s g gUnreach 0

/-- Members disagree (R415): every tree neighbour is told, by data of a shape that no collective has (dtype 15, log 90), so that
the collective fails with MISMATCH there too; then it fails here. -/
def mismatch (s : State) (g : Nat) : State :=
  match (s.group g).coll with
  | none => s
  | some c =>
    let x := s.group g
    failColl ((nbrsOf x).foldl (fun s r => galSend s (.coll (gidOf x r) g { c.shape with dtype := 15 } 0 [])) s) g gMismatch 0

/-- A result comes down the tree. -/
def collDown (s : State) (g b : Nat) (v : List Byte) : State :=
  let x := s.group g
  match x.coll with
  | none => s
  | some c =>
    let sh := c.shape
    let kids := childrenOf x.rank x.members.length
    match sh.op with
    | .allreduce =>
      let s := kids.foldl (fun s k => sendColl s g k sh b v) s
      gotBlock (deliver s g c 0 (memberBlock sh v)) g b
    | .barrier => gotBlock (kids.foldl (fun s k => sendColl s g k sh b []) s) g b
    | .reducescatter =>
      if b = x.rank then gotBlock (deliver s g c 0 (memberBlock sh v)) g b
      else match hopTo x.rank 6 b with
        | some k => gotBlock (sendColl s g k sh b v) g b
        | none => s
    | _ => s

/-- The subtree value of block b, once every child's has arrived, goes up; at the root it is the result (R414). -/
def collUp (s : State) (g b : Nat) : State :=
  let x := s.group g
  match x.coll with
  | none => s
  | some c =>
    let n := (childrenOf x.rank x.members.length).length
    if !c.grant || c.sent.contains b || (List.range n).any fun i => !ahas c.kids (16 * b + i) then s
    else
      let own : State × Option (List Byte) :=
        if c.shape.op = .barrier then (s, some []) else
          match ownBlock s c b with
          | (s, some bs) => (s, some (treeBlock c.shape bs))
          | (s, none) => (s, none)
      match own with
      | (s, none) => s
      | (s, some v) =>
        let v := (List.range n).foldl (fun v i =>
          if c.shape.op = .barrier then [] else combineBlocks c.shape v (aget [] c.kids (16 * b + i))) v
        let s := updColl s g fun c => { c with sent := b :: c.sent }
        if x.rank = 0 then collDown s g b v else sendColl s g (parentOf x.rank) c.shape b v

/-- A block of an all-gather or all-to-all, from neighbour rank `from_` (none: the own block). -/
def collPass (s : State) (g id : Nat) (from_ : Option Nat) (bs : List Byte) : State :=
  let x := s.group g
  match x.coll with
  | none => s
  | some c =>
    let n := x.members.length
    match c.shape.op with
    | .allgather =>
      let s := ((nbrsOf x).filter fun r => some r ≠ from_).foldl (fun s r => sendColl s g r c.shape id bs) s
      gotBlock (deliver s g c id bs) g id
    | .alltoall =>
      if id % n = x.rank then gotBlock (deliver s g c (id / n) bs) g id
      else
        let r := (hopTo x.rank 6 (id % n)).getD (parentOf x.rank)
        gotBlock (sendColl s g r c.shape id bs) g id
    | _ => s

/-- A member is done when every block it owes has been delivered or handed on (R413). -/
def collDone (s : State) (g : Nat) : Bool :=
  let x := s.group g
  match x.coll with
  | none => false
  | some c => (collNeed x c.shape).all (fun b => c.got.contains b) && (upBlocks x c.shape).all fun b => c.sent.contains b

/-- Data of a neighbour takes its part. -/
def collTake (s : State) (g : Nat) (nbr : Nat) (parent : Bool) (sh : CollShape) (b : Nat) (bs : List Byte) : State :=
  match (s.group g).coll with
  | none => s
  | some c =>
    if sh ≠ c.shape then mismatch s g
    else if isReduction sh.op || sh.op = .barrier then
      if parent then collDown s g b bs
      else
        collUp (updColl s g fun c => { c with kids := aput c.kids (16 * b + (nbr - 16 * (s.group g).rank - 1)) bs }) g b
    else collPass s g b (some nbr) bs

/-- Once its grant is held, a member contributes its own blocks, and takes the data that came early. -/
def collGo (s : State) (g : Nat) : State :=
  let x := s.group g
  match x.coll with
  | none => s
  | some c =>
    let n := x.members.length
    let own := fun (s : State) (id b : Nat) =>
      match (s.group g).coll with
      | none => s
      | some c => match ownBlock s c b with
        | (s, some bs) => collPass s g id none bs
        | (s, none) => s
    let s := match c.shape.op with
      | .allgather => own s x.rank 0
      | .alltoall => (List.range n).foldl (fun s j => own s (n * x.rank + j) j) s
      | _ => (upBlocks x c.shape).foldl (fun s b => collUp s g b) s
    let mine := (s.group g).early.filter fun e => e.2.1.num = c.shape.num
    let s := s.updGroup g fun x => { x with early := x.early.filter fun e => decide (c.shape.num < e.2.1.num) }
    mine.foldl (fun s e => collTake s g (e.1 - 1) (e.1 = 0) e.2.1 e.2.2.1 e.2.2.2) s

/-- The next collective of a group begins (R415): it is counted, and asks Lamp for its grant. -/
def collBegin (s : State) (g t op : Nat) : State :=
  match findOp s t op with
  | none => s
  | some o =>
    let ctl := blkHalf o.block 0
    let kind : CollOp := match o.instr with
      | .gallreduce _ _ => .allreduce
      | .greducescatter _ _ => .reducescatter
      | .gallgather _ _ => .allgather
      | .galltoall _ _ => .alltoall
      | _ => .barrier
    let x := s.group g
    let sh : CollShape :=
      { op := kind, dtype := BitVec.ofNat 4 (fld ctl 8 4), rop := BitVec.ofNat 4 (fld ctl 12 4)
        count := wfld (blkWord o.block 0x18) 0 40, num := x.count }
    let span := o.deadline - o.start
    let c : Coll :=
      { shape := sh, src := blkWord o.block 0x08, dst := blkWord o.block 0x10, tile := t, op := op, start := s.mono
        span := span, deadline := s.mono + span, grant := false, kids := [], sent := [], got := [] }
    let s := s.updGroup g fun x => { x with coll := some c, count := x.count + 1, heard := [] }
    let s := requestGrant s (.coll g) 6 none (rtTile s t)
    let o := ownBeacon s g
    let s := if o.1 = 2 then sendBeacon s g 2 o.2 s.gid else s
    match (s.group g).coll with
    | some c => if c.grant then collGo s g else s
    | none => s

/-- A collective that failed its checks takes its place in the group's order (R415, R418): it is counted, sends FAIL with cause 6,
and writes its stat. -/
def collRefused (s : State) (g t op code : Nat) : State :=
  let n := (s.group g).count
  let s := (beaconOf s g n 2 6 s.gid).updGroup g fun x => { x with count := n + 1 }
  let good := match findOp s t op with | some o => (sigErr s t o.task o.block).isNone | none => false
  endOp s t op good code 0

/-- A group without a collective in progress begins the next that waits; one that is done ends. -/
def collSettle : Nat → State → Nat → State
  | 0, s, _ => s
  | n + 1, s, g =>
    let x := s.group g
    match x.coll with
    | some c => if collDone s g then collSettle n (finishOp (closeColl s g) c.tile c.op 0 0) g else s
    | none => match x.collq with
      | [] => s
      | (t, op, code) :: q =>
        let s := s.updGroup g fun x => { x with collq := q }
        collSettle n (if code = 0 then collBegin s g t op else collRefused s g t op code) g

def settle (s : State) (g : Nat) : State := collSettle (2 * (s.group g).collq.length + 2) s g

/-- Elements of src and dst, in blocks (R413). -/
def collSizes (i : Instr) (n : Nat) : Nat × Nat :=
  match i with
  | .gallreduce _ _ => (1, 1)
  | .greducescatter _ _ => (n, 1)
  | .gallgather _ _ => (1, n)
  | .galltoall _ _ => (n, n)
  | _ => (0, 0)

/-- A collective instruction starts (R412, R415). -/
def collStart (s : State) (t : Nat) (e : Cp1Entry) (bs : List Byte) : State :=
  let ctl := blkHalf bs 0
  let g := fld ctl 16 8
  let x := s.group g
  let dt := fld ctl 8 4
  let cnt := blkWord bs 0x18
  let barrier := match e.instr with | .gbarrier _ _ => true | _ => false
  let reduce := match e.instr with | .gallreduce _ _ => true | .greducescatter _ _ => true | _ => false
  let bad := fld ctl 28 4 ≠ 0 || fld ctl 24 2 ≠ 0 || fld ctl 5 3 ≠ 0 || 2 < fld ctl 12 4 || 10 < dt ||
    (reduce && !(dt = 0 || dt = 3 || dt = 9)) || blkWord bs 0x20 ≠ 0 || blkWord bs 0x28 ≠ 0 ||
    (if barrier then blkWord bs 0x08 ≠ 0 || blkWord bs 0x10 ≠ 0 || cnt ≠ 0 else cnt = 0 || 2 ^ 32 ≤ cnt.toNat) ||
    (fld ctl 27 1 = 1 && wfld (blkWord bs 0x30) 0 3 ≠ 0)
  let sz := collSizes e.instr x.members.length
  let bb := wfld cnt 0 40 * fmtSize dt
  let span := tmoSpan s (fld ctl 0 5)
  let place := if barrier then none else
    match placeErr s t e.task (blkWord bs 0x08) (sz.1 * bb) rightR gSrcWin with
    | some c => some c
    | none => placeErr s t e.task (blkWord bs 0x10) (sz.2 * bb) rightW gDstWin
  let code := if bad || span.isNone then gDesc else (place.orElse fun _ => sigErr s t e.task bs).getD 0
  if !x.joined then refuseOp s t e bs (if bad || span.isNone then gDesc else gNoGroup) 0
  else
    let (s, id) := openOp s t e bs (s.mono + span.getD 0) true
    settle (s.updGroup g fun x => { x with collq := x.collq ++ [(t, id, code)] }) g

/-- Lamp has granted a collective's request. -/
def collGranted (s : State) (g : Nat) : State := settle (collGo s g) g

/-- Collective data arrives from a tree neighbour (R414, R415). -/
def execCollectiveData (g : GroupNo) (src : TreeNbr) (shape : CollShape) (block : Nat) (data : List Byte) (s : State) :
    Result :=
  .next (
    let x := s.group g.val
    let (nbr, parent) : Nat × Bool := match src with | .parent => (parentOf x.rank, true) | .child r => (r, false)
    let known := if parent then x.rank ≠ 0 else (childrenOf x.rank x.members.length).contains nbr
    if s.power ≠ .run || !x.joined || !known then s
    else
      let keep := s.updGroup g.val fun x =>
        { x with early := x.early ++ [(if parent then 0 else nbr + 1, shape, block, data)] }
      match x.coll with
      | some c =>
        if shape.num = c.shape.num then
          (if c.grant then settle (collTake s g.val nbr parent shape block data) g.val else keep)
        else if c.shape.num < shape.num then keep else s
      | none => if x.count ≤ shape.num then keep else s)

/-! ### Joins (R410) -/

/-- The join of a group ends: the group is joined, or dissolved and the join failed. -/
def joinEnd (s : State) (g code : Nat) : State :=
  match (s.group g).joining with
  | none => s
  | some (t, op) =>
    let s := if code = 0 then s.updGroup g fun x => { x with joined := true, joining := none, hashes := [] }
      else s.updGroup g fun x => { declared := x.declared }
    finishOp s t op code 0

/-- The hashes that have arrived are compared: the children's first, then the parent's. -/
def joinStep (s : State) (g : Nat) (up : Bool) : State :=
  let x := s.group g
  let kids := childrenOf x.rank x.members.length
  let tell := fun (s : State) (r : Nat) =>
    let m : GalMsg := .joinHash (gidOf x r) g x.hash
    if (s.group g).joining.isNone then s else if routed s m then galSend s m else joinEnd s g gUnreach
  let down := fun (s : State) => kids.foldl tell s
  if x.joining.isNone then s
  else if kids.any fun k => ahas x.hashes k && aget 0 x.hashes k ≠ x.hash then joinEnd s g gMismatch
  else if kids.any fun k => !ahas x.hashes k then s
  else if x.rank = 0 then joinEnd (down s) g 0
  else
    let s := if up then tell s (parentOf x.rank) else s
    if !ahas x.hashes 0 then s
    else if aget 0 x.hashes 0 ≠ x.hash then joinEnd s g gMismatch
    else joinEnd (down s) g 0

/-- The Gallery IDs of a member list. -/
def idsOf : Nat → List Byte → List Gid
  | 0, _ => []
  | n + 1, bs => BitVec.ofNat 16 (ofBytes (bs.take 2)) :: idsOf n (bs.drop 2)

/-- `gjoin` starts (R410). -/
def joinStart (s : State) (t : Nat) (e : Cp1Entry) (bs : List Byte) : State :=
  let ctl := blkHalf bs 0
  let g := fld ctl 16 8
  let x := s.group g
  let n := wfld (blkWord bs 0x10) 0 17
  let a := blkWord bs 0x08
  let bad := fld ctl 28 4 ≠ 0 || fld ctl 24 2 ≠ 0 || fld ctl 5 11 ≠ 0 || wfld (blkWord bs 0x10) 17 47 ≠ 0 || 65536 < n ||
    blkWord bs 0x18 ≠ 0 || blkWord bs 0x20 ≠ 0 || blkWord bs 0x28 ≠ 0 || (fld ctl 27 1 = 1 && wfld (blkWord bs 0x30) 0 3 ≠ 0)
  match tmoSpan s (fld ctl 0 5) with
  | none => refuseOp s t e bs gDesc 0
  | some span =>
    if bad then refuseOp s t e bs gDesc 0
    else if x.coll.isSome || x.collq ≠ [] || x.joining.isSome then refuseOp s t e bs gBusy 0
    else match sigErr s t e.task bs with
      | some c => refuseOp s t e bs c 0
      | none =>
        if n = 0 then refuseOp (s.updGroup g fun x => { declared := x.declared }) t e bs 0 0
        else if blockErr s t e.task a (2 * n) rightR then refuseOp s t e bs gBlock 0
        else match agentRead s t a (2 * n) with
          | (s, .error q) => refuseOp s t e bs (accCode gBlock q.1) 0
          | (s, .ok list) =>
            let ids := idsOf n list
            if (ids.filter fun i => i = s.gid).length ≠ 1 then refuseOp s t e bs gDesc 0
            else
              let (s, id) := openOp s t e bs (s.mono + span) false
              let s := s.updGroup g fun x =>
                { members := ids, rank := ids.findIdx (· = s.gid), joined := false, joining := some (t, id),
                  hashes := x.hashes, hash := shake256 list, declared := x.declared }
              joinStep s g true

/-- A member-list hash arrives along the tree. -/
def execJoinHash (g : GroupNo) (src : TreeNbr) (hash : BitVec 512) (s : State) : Result :=
  .next (if s.power ≠ .run then s
    else
      let (k, up) : Nat × Bool := match src with | .parent => (0, false) | .child r => (r, true)
      joinStep (s.updGroup g.val fun x => { x with hashes := aput x.hashes k hash }) g.val up)

/-! ### Beacons (R417 to R419) -/

/-- Every 50 us a member sends a beacon for each active collective (R417). -/
def execBeaconPeriod (s : State) : Result :=
  .next (if s.power ≠ .run then s
    else s.gal.groups.foldl (fun s p =>
      if p.2.coll.isSome then
        let w := worstBeacon s p.1
        sendBeacon s p.1 w.1 w.2.1 w.2.2
      else s) s)

/-- A beacon is heard (R418). A FAIL ends the collective with PEERFAIL, but with MISMATCH where data of another shape stands here
already (R415). -/
def execBeacon (g : GroupNo) (num : Nat) (st : BitVec 2) (cause : BitVec 3) (src : Gid) (s : State) : Result :=
  .next (
    match (s.group g.val).coll with
    | none => s
    | some c =>
      if s.power ≠ .run || c.shape.num ≠ num then s
      else
        let h : Heard := { state := st, cause := cause, src := src, time := s.mono }
        let s := s.updGroup g.val fun x => { x with heard := h :: x.heard.filter fun y => decide (s.mono ≤ y.time + 100000) }
        if st = 1 then
          updColl s g.val fun c => { c with deadline := min (max c.deadline (s.mono + c.span)) (c.start + 16 * c.span) }
        else if st = 2 then
          let s := sendBeacon s g.val 2 cause.toNat src
          let odd := (s.group g.val).early.any fun e => e.2.1.num = num && e.2.1 ≠ c.shape
          settle (finishOp (closeColl s g.val) c.tile c.op (if odd then gMismatch else gPeerFail)
            (if odd then 0 else src.toNat)) g.val
        else s)

/-- A collective's deadline expires (R418). -/
def execCollectiveTimeout (g : GroupNo) (s : State) : Result :=
  .next (match (s.group g.val).coll with
    | none => s
    | some c => if s.power ≠ .run then s else settle (failColl (s.reach c.deadline) g.val gTimeout 0) g.val)

/-- `gbeacon` runs (R419): a group that is not joined ignores it. -/
def beaconStart (s : State) (e : Cp1Entry) : State :=
  let g := wfld e.r1 0 8
  if !(s.group g).joined then s
  else
    let s := s.updGroup g fun x => { x with declared := BitVec.ofNat 2 (wfld e.r2 0 2) }
    let o := ownBeacon s g
    if o.1 = 2 then sendBeacon s g 2 o.2 s.gid else s

end Sys2Proof.Machine
end

