-- ==== Sys2Proof/Machine/Cp1.lean ====
section
/-! DEFINITION. The cp1 instructions at issue (R370, R371, R377), their start, the end and timeout of operations (R374, R375), and what tile reset does to the Gallery port (R409). -/

namespace Sys2Proof.Machine

open Sys2Proof

/-! ### Issue (R98, R377) -/

/-- The first byte and bytes of what rs1 names, when it names a block or list, and the alignment it needs. -/
structure Cp1Ref where
  addr : Word
  bytes : Nat
  align : Nat
  need : Rights

/-- PLACE of R377: the places of R373 and, at task level, the windows. -/
def refBad (s : State) (t : TileId) (r : Cp1Ref) : Bool :=
  (firstDenied (ownOk s t.val) r.addr r.bytes).isSome ||
    (firstDenied (fun x m => permitted s (.tile t) x m r.need) r.addr r.bytes).isSome

/-- The lowest failing code of R377, 0 when all pass. -/
def cp1Code (s : State) (t : TileId) (func : Bool) (r : Option Cp1Ref) (shape state : Bool) : Nat :=
  if !func then 1
  else match r with
    | some r => if r.addr.toNat % r.align ≠ 0 then 2 else if refBad s t r then 3 else if !shape then 4 else if !state then 5 else 0
    | none => if !shape then 4 else if !state then 5 else 0

/-- A queue of 8 stalls the core at issue when it is full (R98, R371). -/
def cp1Full (s : State) (t : TileId) : Bool := decide (8 ≤ (s.tile t.val).port.queue.length)

/-- A cp1 instruction enters the queue, or raises COP with sub[2:0] 1. -/
def cp1Issue (t : TileId) (i : Instr) (f : LC) (func : Bool) (ref : State → Option Cp1Ref) (shape state : State → Bool)
    (s : State) : State :=
  if cp1Full s t then waitStall s (.tile t)
  else issue (.tile t) [f.rs1, f.rs2] 4 true (fun s =>
    match cp1Code s t func (ref s) (shape s) (state s) with
    | 0 =>
      let e : Cp1Entry :=
        { instr := i, r1 := s.reg (.tile t) f.rs1, r2 := s.reg (.tile t) f.rs2, rd := f.rd, task := !(s.tile t.val).core.status.lvl }
      done (s.updPort t.val fun p =>
        let p := match i with | .greturn _ _ => openBatch p e.r2 | _ => p
        { p with queue := p.queue ++ [e] })
    | n => .error { code := cCop, sub := 1 + 8 * n }) s

/-- An instruction that names an operation block: rs2 and rd must name s0 (R370). -/
def blockIssue (t : TileId) (i : Instr) (f : LC) (s : State) : Result :=
  .next (cp1Issue t i f (f.rd = 0 && f.rs2 = 0)
    (fun s => some { addr := s.reg (.tile t) f.rs1, bytes := 64, align := 64, need := rightRW }) (fun _ => true) (fun _ => true) s)

def execGput (t : TileId) (f : LC) (s : State) : Result := blockIssue t (.gput t f) f s
def execGget (t : TileId) (f : LC) (s : State) : Result := blockIssue t (.gget t f) f s
def execGdispatch (t : TileId) (f : LC) (s : State) : Result := blockIssue t (.gdispatch t f) f s
def execGarm (t : TileId) (f : LC) (s : State) : Result := blockIssue t (.garm t f) f s
def execGibgat (t : TileId) (f : LC) (s : State) : Result := blockIssue t (.gibgat t f) f s
def execGallreduce (t : TileId) (f : LC) (s : State) : Result := blockIssue t (.gallreduce t f) f s
def execGreducescatter (t : TileId) (f : LC) (s : State) : Result := blockIssue t (.greducescatter t f) f s
def execGallgather (t : TileId) (f : LC) (s : State) : Result := blockIssue t (.gallgather t f) f s
def execGalltoall (t : TileId) (f : LC) (s : State) : Result := blockIssue t (.galltoall t f) f s
def execGbarrier (t : TileId) (f : LC) (s : State) : Result := blockIssue t (.gbarrier t f) f s
def execGjoin (t : TileId) (f : LC) (s : State) : Result := blockIssue t (.gjoin t f) f s

/-- `greturn` (R370, R377, R403): a list of 16 bytes a row, which is only read. -/
def execGreturn (t : TileId) (f : LC) (s : State) : Result :=
  .next (cp1Issue t (.greturn t f) f (f.rd = 0)
    (fun s => some { addr := s.reg (.tile t) f.rs1, bytes := 16 * (wfld (s.reg (.tile t) f.rs2) 0 5 + 1), align := 16, need := rightR })
    (fun s => returnShape (s.reg (.tile t) f.rs2)) (fun _ => true) s)

/-- `gbeacon` (R370, R377). -/
def execGbeacon (t : TileId) (f : LC) (s : State) : Result :=
  .next (cp1Issue t (.gbeacon t f) f (f.rd = 0) (fun _ => none) (fun _ => true)
    (fun s => decide ((s.reg (.tile t) f.rs2).toNat ≤ 2)) s)

/-- `gsync` (R370, R372). -/
def execGsync (t : TileId) (f : LC) (s : State) : Result :=
  .next (cp1Issue t (.gsync t f) f (f.rs1 = 0 && f.rs2 = 0) (fun _ => none) (fun _ => true) (fun _ => true) s)

/-! ### Start (R371 to R373) -/

/-- An operation on a block starts once its block is read; an unreadable block ends it with the code of the failure. -/
def opStart (s : State) (t : Nat) (e : Cp1Entry) : State :=
  match agentRead s t e.r1 64 with
  | (s, .error x) => galFail s t (accCode gBlock x.1) x.2
  | (s, .ok bs) =>
    match e.instr with
    | .gput _ _ => copyStart s t e bs false
    | .gget _ _ => copyStart s t e bs true
    | .gdispatch _ _ => dispStart s t e bs
    | .garm _ _ => armStart s t e bs
    | .gibgat _ _ => gatherStart s t e bs
    | .gjoin _ _ => joinStart s t e bs
    | _ => collStart s t e bs

/-- The oldest queued cp1 instruction starts (R371, R372): the core's buffered writes are performed first, its remote stores
are acknowledged, and a block operation finds a place among 16. -/
def cp1Start (s : State) (t : Nat) : State :=
  match (s.tile t).port.queue with
  | [] => s
  | e :: es =>
    let s := drainAll faddF32 s (tcore t)
    let pop := fun (s : State) => s.updPort t fun p => { p with queue := es }
    let p := (s.tile t).port
    if (s.tile t).core.remote ≠ [] then s
    else match e.instr with
      | .gsync _ _ => if p.ops = [] then (pop s).setReg (tcore t) e.rd (galPort p) else s
      | .greturn _ _ => returnStart (pop s) t e
      | .gbeacon _ _ => beaconStart (pop s) e
      | _ => if 16 ≤ p.ops.length then s else opStart (pop s) t e

def execCp1Start (t : TileId) (s : State) : Result :=
  .next (if s.power = .run && !(s.tile t.val).oos then cp1Start s t.val else s)

/-! ### The end of operations (R374, R375) -/

/-- A copy ends beyond this module: a `gput` when every byte is acknowledged, a `gget` when every byte has been written.
A join or a collective ends by itself, or here by a failure of the fabric. -/
def opEnd (s : State) (t : Nat) (o : GalOp) (res : OpResult) : State :=
  let n := copyBytes o.block
  let ready := !o.needGrant || o.grant
  match o.instr, res with
  | .gput _ _, .ok => if ready then finishOp s t o.id 0 ((n + 4095) / 4096) else s
  | .gput _ _, .failed c d => finishOp s t o.id c.toNat d.toNat
  | .gget _ _, .ok => if covered o.got 0 n then finishOp s t o.id 0 ((n + 4095) / 4096) else s
  | .gget _ _, .failed c _ => finishOp s t o.id c.toNat (unitsDone o.got n)
  | .gdispatch _ _, _ => s
  | .gjoin _ _, .failed c _ => joinEnd s (fld (blkHalf o.block 0) 16 8) c.toNat
  | _, .failed c d =>
    let g := fld (blkHalf o.block 0) 16 8
    match (s.group g).coll with
    | some k => if k.tile = t && k.op = o.id then settle (failColl s g c.toNat d.toNat) g else s
    | none => s
  | _, .ok => s

def execOperationEnd (t : TileId) (op : Nat) (res : OpResult) (s : State) : Result :=
  .next (match findOp s t.val op with
    | none => s
    | some o => if s.power = .run then opEnd s t.val o res else s)

/-- The limit of a `gput`, `gget` or `gjoin` expires (R375). What a `gput` has written by then is known only at its target,
so its detail is a free value. -/
def execGalleryOperationTimeout (t : TileId) (op : Nat) (s : State) : Result :=
  .next (match findOp s t.val op with
    | none => s
    | some o =>
      if s.power ≠ .run then s
      else
        let s := s.reach o.deadline
        match o.instr with
        | .gput _ _ =>
          let d := if o.needGrant && !o.grant then 0 else (Config.freeWord s.free).toNat % 65536
          finishOp s.tick t.val op gTimeout d
        | .gget _ _ => finishOp s t.val op gTimeout (unitsDone o.got (copyBytes o.block))
        | .gjoin _ _ => joinEnd s (fld (blkHalf o.block 0) 16 8) gTimeout
        | _ => s)

/-- Tile reset discards instructions that have not started, and open return batches (R409). -/
def portReset (s : State) (t : Nat) : State := s.updPort t fun p => { p with queue := [], batches := [] }

/-- Lamp has issued a request: its holder goes on (R378, R415). -/
def grantTaken (s : State) : Holder → State
  | .op t n => copyGranted s t n
  | .coll g => collGranted s g
  | _ => s

end Sys2Proof.Machine
end

