-- ==== Sys2Proof/Machine/Journal.lean ====
section
/-! DEFINITION. The measurement registers, the repair journal, and what every repair writes (R597 to R600, R617, R618, R668, R683). -/

namespace Sys2Proof.Machine

open Sys2Proof

/-! ### CRC-32C (R432) -/

def crcBit (c : BitVec 32) : BitVec 32 := if c.getLsbD 0 then (c >>> 1) ^^^ 0x82F63B78 else c >>> 1

def crcByte (c : BitVec 32) (b : Byte) : BitVec 32 :=
  crcBit (crcBit (crcBit (crcBit (crcBit (crcBit (crcBit (crcBit (c ^^^ b.zeroExtend 32))))))))

def crc32c (bs : List Byte) : BitVec 32 := ~~~(bs.foldl crcByte 0xFFFFFFFF)

/-! ### Measurement registers (R617) -/

def bytes512 (x : BitVec 512) : List Byte := toBytes 64 x.toNat

/-- An extension of MRn with data whose SHAKE256 is `d` (R617). -/
def extendDigest (s : State) (n : Nat) (d : BitVec 512) : State :=
  let m := shake256 (bytes512 (aget 0 s.sec.mr n) ++ bytes512 d)
  { s with sec := { s.sec with
      mr := aput s.sec.mr n m, mrcnt := aput s.sec.mrcnt n ((aget 0 s.sec.mrcnt n + 1) % 2 ^ 32) } }

/-- An extension of MRn with data X (R617). -/
def extendMr (s : State) (n : Nat) (x : List Byte) : State := extendDigest s n (shake256 x)

/-! ### The repair journal (R597 to R600) -/

/-- The 32 bytes of an entry with its number (R597). -/
def jBytes (seq : Nat) (e : JEntry) : List Byte :=
  let b := toBytes 4 seq ++ toBytes 1 e.kind.toNat ++ toBytes 1 e.origin.toNat ++ toBytes 2 e.unit.toNat ++
    toBytes 8 e.loc.toNat ++ toBytes 4 e.repl.toNat ++ toBytes 4 e.aux.toNat ++ toBytes 4 e.time.toNat
  b ++ toBytes 4 (crc32c b).toNat

/-- Slots of each device (R583). -/
def jSlots : Nat := 131072

/-- Entries held, those whose write to device 0 has not ended among them. -/
def jHeld (s : State) : Nat := s.start.j0.length + (s.start.jpend.filter fun p => !p.2).length

def leftService : Nat := 0xFFFFFFFF

/-- A repair is measured into MR4 and appended to the journal, or, when the journal is full, only reported (R598, R599, R618,
R668). `x` is the structure ID that JFULL names. -/
def journal (s : State) (src : BitVec 16) (x kind unit loc repl aux : Nat) : State :=
  let e : JEntry :=
    { kind := BitVec.ofNat 8 kind, origin := 1, unit := BitVec.ofNat 16 unit, loc := BitVec.ofNat 64 loc
      repl := BitVec.ofNat 32 repl, aux := BitVec.ofNat 32 aux, time := BitVec.ofNat 32 (s.time / 1000000000) }
  let s := extendMr s 4 (jBytes (jHeld s + 1) e)
  if jSlots ≤ jHeld s then
    let s := logEntry s src 0x14 4 x
    { s with start := { s.start with jfull := true } }
  else { s with start := { s.start with jpend := s.start.jpend ++ [(e, false)] } }

/-- A spare takes the place of a structure: measured, journaled, REPAIR names the spare (R668, R683). -/
def repaired (s : State) (src : BitVec 16) (spare x kind unit loc repl aux : Nat) : State :=
  logEntry (journal s src x kind unit loc repl aux) src 0x12 4 spare

/-- A structure leaves service for lack of a spare: measured, journaled, NOSPARE names it, MOD_STATUS.degraded (R27, R683). -/
def lostStruct (s : State) (src : BitVec 16) (x kind unit loc aux : Nat) : State :=
  let s := logEntry (journal s src x kind unit loc leftService aux) src 0x13 4 x
  { s with degraded := true }

/-- The write of the entry in progress to one device ends (R598): device 0 first, then device 1. In power-fail the write in
progress completes, and no other starts (R639). -/
def execJournalDeviceWriteEnd (s : State) : Result :=
  .next (if s.power = .off then s
    else
      let last := s.power = .failing
      match s.start.jpend with
      | [] => s
      | (e, false) :: ps =>
        { s with start := { s.start with j0 := s.start.j0 ++ [e], jpend := if last then [] else (e, true) :: ps } }
      | (e, true) :: ps => { s with start := { s.start with j1 := s.start.j1 ++ [e], jpend := if last then [] else ps } })

end Sys2Proof.Machine
end

