-- ==== Sys2Proof/Machine/Flits.lean ====
section
/-! DEFINITION. The bytes of a link: flits and their check (R430 to R432), the striping over lanes and the FEC (R427), the encryption and tag of a sealed group (R436), and the keys (R434, R437). -/

namespace Sys2Proof.Machine

open Sys2Proof

/-! ### Headers (R431) -/

def hdrType (w : Word) : Nat := wfld w 62 2
def hdrSeq (w : Word) : Nat := wfld w 50 12
def hdrAck (w : Word) : Nat := wfld w 38 12
def hdrNak (w : Word) : Bool := wbit w 37
def hdrVc (w : Word) : Nat := wfld w 35 2
def hdrSet (w : Word) : Bool := wbit w 34
def hdrHead (w : Word) : Bool := wbit w 33
def hdrTail (w : Word) : Bool := wbit w 32
/-- Class of a data flit: 2 vc + set (R446). -/
def hdrCls (w : Word) : Nat := 2 * hdrVc w + b2n (hdrSet w)

/-- A header with acknowledgement and credit fields cleared, as the tag covers it (R436). -/
def hdrBare (w : Word) : Word := w &&& ~~~(pack [(2 ^ 13 - 1, 37), (2 ^ 16 - 1, 16)])

/-! ### The 256 bytes (R430, R432) -/

/-- Exactly `n` bytes: those given, cut or filled with zeros. -/
def fillTo (n : Nat) (bs : List Byte) : List Byte := bs.take n ++ List.replicate (n - bs.length) 0

/-- A flit as 256 bytes: header, payload, and the CRC-32C of both. -/
def flitBytes (f : FlitRec) : List Byte :=
  let b := toBytes 8 f.hdr.toNat ++ fillTo 244 f.payload
  b ++ toBytes 4 (crc32c b).toNat

/-- The CRC of a received flit holds over its header and 244 bytes of payload. -/
def flitOk (f : WireFlit) : Bool := f.payload.length = 244 && crc32c (toBytes 8 f.hdr.toNat ++ f.payload) = f.chk.crc

/-! ### Lanes and FEC (R427) -/

/-- The 32-byte units of a flit that lane `i` of a port of `w` lanes carries: unit u goes on lane u mod w. -/
def laneUnits (bs : List Byte) (w i : Nat) : List (List Byte) :=
  ((List.range 8).filter fun u => u % w = i).map fun u => (bs.drop (32 * u)).take 32

/-- Multiplication by x in GF(2^10) with x^10 + x^3 + 1, the field of the code. -/
def rsTimesX (x : BitVec 10) : BitVec 10 := (x <<< 1) ^^^ (if x.msb then 0x009 else 0)

def rsMul (x y : BitVec 10) : BitVec 10 :=
  (List.range 10).foldl (fun a i => rsTimesX a ^^^ (if x.getMsbD i then y else 0)) 0

/-- The generator polynomial of RS(544,514), the product of x + α^j for j from 0 to 29, without its leading coefficient, highest
power first. -/
def rsGen : List (BitVec 10) :=
  (List.range 30).foldl (fun g j =>
    let r := j.repeat rsTimesX 1
    List.zipWith (· ^^^ ·) (g ++ [0]) ((1 :: g).map fun c => rsMul c r)) []

/-- The 30 parity symbols of data symbols: the remainder of the division by the generator. -/
def rsParity (ds : List (BitVec 10)) : List (BitVec 10) :=
  ds.foldl (fun r d =>
    let q := d ^^^ r.headD 0
    List.zipWith (fun a g => a ^^^ rsMul q g) (r.drop 1 ++ [0]) rsGen) (List.replicate 30 0)

/-- A codeword of a lane's stream: 514 data symbols and their parity. -/
def rsWord (ds : List (BitVec 10)) : List (BitVec 10) := ds ++ rsParity ds

/-- Symbols that a decoder corrects in one codeword. -/
def rsMax : Nat := 15

/-! ### Sealing (R436) -/

/-- The nonce of a group: the direction's salt and the count of groups sealed under the key. -/
def groupNonce (salt : BitVec 32) (n : Nat) : List Byte := toBytes 4 salt.toNat ++ toBytes 8 n

/-- Payload `i` of a group, encrypted or decrypted: the payloads of a group are one stream of 244 bytes each. -/
def groupCrypt (key : BitVec 256) (nonce : List Byte) (i : Nat) (bs : List Byte) : List Byte :=
  let k := toBytes 32 key.toNat
  let ks := roundKeys k
  let o := 244 * i
  let pad := (List.range (o % 16)).map fun _ => (0 : Byte)
  (gcmStreamAt ks nonce (o / 16) (pad ++ fillTo 244 bs)).drop (o % 16)

/-- The tag of a group: over the bare headers as additional data, and the payloads as sent. -/
def groupTag (key : BitVec 256) (nonce : List Byte) (g : List FlitRec) : List Byte :=
  gcmTag (toBytes 32 key.toNat) nonce (g.flatMap fun f => toBytes 8 (hdrBare f.hdr).toNat) (g.flatMap fun f => fillTo 244 f.payload)

/-! ### Keys (R434, R437) -/

def asciiBytes (s : String) : List Byte := s.toList.map fun c => BitVec.ofNat 8 c.toNat

/-- The key that follows a key (R437). -/
def nextKey (k : BitVec 256) : BitVec 256 :=
  BitVec.ofNat 256 (ofBytes (shakeBytes (asciiBytes "GAL-NEXT" ++ toBytes 32 k.toNat) 32))

/-- The transcript hash: SHAKE256 over the key-exchange payloads of both directions (R434, log 87). -/
def kxHash (l : Link) : List Byte := shakeBytes (l.kxLow ++ l.kxHigh) 64

/-- The 72 bytes from which both sides take their keys and salts (R434). -/
def kxKeys (l : Link) (ss : BitVec 256) : List Byte :=
  shakeBytes (asciiBytes "GAL-LINK" ++ toBytes 32 ss.toNat ++ kxHash l) 72

end Sys2Proof.Machine
end

