-- ==== Sys2Proof/Machine/Status.lean ====
section
/-! DEFINITION. The read-only words that describe the whole module: the module block and the security state (R26 to R29, R601, R602, R606, R631 to R633). -/

namespace Sys2Proof.Machine

open Sys2Proof

/-- The VCORE of a die lies below its target (R27, R651). -/
def dieThrottled (d : DiePower) : Bool := decide (d.vcore < d.vset)

def throttled (s : State) : Bool := dieThrottled s.lamp.die0 || dieThrottled s.lamp.die1

/-- At least one stack is Critical and stopped (R27). -/
def thermstop (s : State) : Bool := s.memStacks.any fun p => p.2.stopped

/-- Start-up has completed (R27). -/
def isReady (s : State) : Bool := s.pins.ready

/-- MOD_STATUS (R27). -/
def modStatus (s : State) : Word :=
  pack [(b2n (thermstop s), 3), (b2n (throttled s), 2), (b2n s.degraded, 1), (b2n (isReady s), 0)]

/-- MOD_INV (R28). -/
def modInv (s : State) : Word :=
  pack [(s.memMib, 24), (20 - (s.memStacks.filter fun p => p.2.stopped).length, 16), (s.liveTiles.length, 0)]

/-- MOD_TILEMAPi (R29). -/
def modTilemap (s : State) (i : Nat) : Word :=
  pack ((List.range 64).map fun b => (b2n (!(s.tile (64 * i + b)).oos), b))

/-- MOD_MAPn (R467): valid, mode, l1, nrows, rbase. -/
def modMap (s : State) (n : Nat) : Word :=
  match s.map[n]? with
  | none => 0
  | some r => pack [(1, 63), (r.mode.toNat, 61), (b2n r.l1, 60), (r.nrows, 32), (r.rbase, 16)]

/-- MOD_VER (R601). -/
def modVer : Word := pack [(0x2040, 48), (0x01, 40), (0x10, 32), (0x01, 24)]

/-- MOD_FWVER (R601). -/
def modFwver (s : State) : Word := pack [(s.sec.rollback, 40), (s.start.svn, 32), (s.start.fwver.toNat, 0)]

/-- MOD_BOOT (R602). -/
def modBoot (s : State) : Word :=
  pack [(s.start.restarts, 48), (s.start.ocode.toNat, 40), (s.start.dur.toNat, 16), (b2n s.start.slot, 8), (s.start.attempts.toNat, 0)]

/-- The offered set (R603): the bits of the table that the configuration does not withhold. -/
def featOffered (s : State) : BitVec 256 := featTable &&& ~~~s.start.cfg.withhold

/-- The fixed bits of the table (R603). -/
def featFixed : BitVec 256 := 0xFF

/-- 64 bits of a wide register. -/
def wideWord {n : Nat} (x : BitVec n) (i : Nat) : Word := BitVec.ofNat 64 (x.toNat / 2 ^ (64 * i))

/-! ### Owners (R623) -/

def ownerSlot (s : State) (i : Nat) : OwnerSlot := aget {} s.sec.owners i

/-- The slot in force: the highest whose pin bit is blown (R623). -/
def slotInForce (s : State) : Option Nat := ((List.range 8).reverse.find? fun i => (ownerSlot s i).pin)

/-- The owner digest in force. -/
def ownerDigest (s : State) : BitVec 256 := match slotInForce s with | some i => (ownerSlot s i).digest | none => 0

/-- A slot that a power loss has spoiled: written, but neither pinned nor named by the rel bit below it (R626). -/
def slotWritten (s : State) (i : Nat) : Bool := (ownerSlot s i).digest ≠ 0

/-- SEC_STAT (R632). -/
def secStat (s : State) : Word :=
  let slot := (slotInForce s).getD 0
  pack ([(slot, 9), (b2n (ownerSlot s slot).rel, 8), (s.sec.imgkey.toNat, 4), (b2n s.sec.entok, 1), (b2n s.sec.closed, 0)] ++
    (List.range 8).map fun i => (b2n (slotWritten s i), 16 + i))

/-- SEC_RELSTAT (R633). -/
def secRelstat (s : State) : Word := pack [(b2n s.sec.relDone, 9), (b2n s.sec.relBusy.isSome, 8), (s.sec.relCode.toNat, 0)]

/-! ### Reports and the identity certificate (R613, R619 to R622) -/

def zeros (n : Nat) : List Byte := List.replicate n 0

def wordBytes (w : Word) : List Byte := toBytes 8 w.toNat

/-- The 32 bytes of a drip log slot (R680). -/
def logBytes (e : LogEntry) : List Byte :=
  toBytes 8 e.time.toNat ++ toBytes 8 e.steps.toNat ++ toBytes 4 e.idx.toNat ++ toBytes 2 e.src.toNat ++ [e.code, e.cls] ++
    toBytes 8 e.detail.toNat

/-- A report body (R620). -/
def reportBody (s : State) (kind : Nat) (nonce : BitVec 256) (msid : Nat) : List Byte :=
  toBytes 8 0x544130343032485A ++ toBytes 4 1 ++ toBytes 4 kind ++ wordBytes s.sec.serial ++ toBytes 32 nonce.toNat ++
    toBytes 4 msid ++ zeros 4 ++ toBytes 8 s.time ++ wordBytes modVer ++ wordBytes (modFwver s) ++ wordBytes (modBoot s) ++
    wordBytes (modStatus s) ++ wordBytes (modInv s) ++ wordBytes (secStat s) ++ zeros 8 ++ toBytes 32 (ownerDigest s).toNat ++
    toBytes 32 s.start.featAct.toNat ++ (List.range 6).flatMap (fun n => toBytes 4 (aget 0 s.sec.mrcnt n)) ++ zeros 40 ++
    (List.range 6).flatMap (fun n => toBytes 64 (aget 0 s.sec.mr n).toNat)

/-- The identity public key: FIPS 205 generates the pair from 96 bytes that follow from the identity seed (R612, R614). -/
def idKey (s : State) : BitVec 512 := Config.slhPublic (shakeBytes ([0x5A, 0x48, 0x2D, 0x49, 0x44] ++ toBytes 32 s.sec.seed.toNat) 96)

/-- The identity certificate (R613): the fields of its table, with the date of issue, the index of the CA key and the CA's
signature free (log 64). -/
def ownCert (s : State) : List Byte :=
  let free := fun (a n : Nat) => (List.range n).map fun i => Config.certByte (a + i)
  toBytes 8 0x544330343032485A ++ toBytes 4 1 ++ toBytes 4 2 ++ wordBytes s.sec.serial ++ wordBytes modVer ++ free 0x20 8 ++
    free 0x28 4 ++ zeros 4 ++ toBytes 64 (idKey s).toNat ++ zeros 144 ++ free 0x100 29792

end Sys2Proof.Machine
end

