-- ==== Sys2Proof/Machine/Hold.lean ====
section
/-! DEFINITION. Hold reports: which commands use a resource, and how long their clocks are held on it (R445, R523, R675 to R677). -/

namespace Sys2Proof.Machine

open Sys2Proof

def heldMax : Nat := 4000000

/-- How long a command's clock has been held (R677). -/
def heldNow (s : State) (c : Cmd) : Nat :=
  if c.holds = [] then min heldMax c.heldNs else min heldMax (c.heldNs + (s.mono - c.heldAt))

/-- Tiles of a command's set, held or still to be taken. -/
def cmdTiles (c : Cmd) : List Nat :=
  c.tiles ++ (match c.kern with | some k => (List.range k.count).map fun i => k.first + i | none => [])

/-- A command uses a resource (R523): a tile of its set; a stack, by the fence of a WAIT, or when its traffic waits there, which
is `free` (log 58); a port that holds traffic of its tiles (R445). -/
def usesRes (s : State) (c : Cmd) (free : Bool) : HoldRes → Bool
  | .tile t => (cmdTiles c).contains t.val
  | .stack k => (c.phase = .watching && (match localAddr s c.ref with
      | some a => (match place s a with | some p => p.stack = k.val | none => false)
      | none => false)) || free
  | .port p => (cmdTiles c).any (portHolds s p.val)

def holdCmd (s : State) (r : HoldRes) (free : Bool) (c : Cmd) : Cmd :=
  if c.holds.contains r || !usesRes s c free r then c
  else { c with holds := c.holds ++ [r], heldAt := if c.holds = [] then s.mono else c.heldAt }

/-- A lower level reports a recovery on a resource (R675): the clocks of the commands that use it stop. -/
def holdAll (s : State) (r : HoldRes) : State :=
  let v := Config.freeWord s.free
  let hold := fun (p : Nat × FeQueue) => (p.1, { p.2 with cmd := p.2.cmd.map (holdCmd s r (v.getLsbD p.1)) })
  { s.tick with fe := { s.fe with
      queues := s.fe.queues.map hold
      ptasks := s.fe.ptasks.map fun (p : PTask) => { p with cmd := holdCmd s r false p.cmd } } }

def dropHold (s : State) (r : HoldRes) (c : Cmd) : Cmd :=
  let left := c.holds.filter (· ≠ r)
  if c.holds.contains r then { c with holds := left, heldNs := if left = [] then heldNow s c else c.heldNs } else c

/-- The recovery has ended (R675): the clocks held on it run again. -/
def dropAll (s : State) (r : HoldRes) : State :=
  { s with fe := { s.fe with
    queues := s.fe.queues.map fun (p : Nat × FeQueue) => (p.1, { p.2 with cmd := p.2.cmd.map (dropHold s r) })
    ptasks := s.fe.ptasks.map fun (p : PTask) => { p with cmd := dropHold s r p.cmd } } }

end Sys2Proof.Machine
end

