-- ==== Sys2Proof/Machine/Unreach.lean ====
section
/-! DEFINITION. What becomes of a message of this module whose packet cannot reach its target (R323, R376, R395, R407, R444, R450). -/

namespace Sys2Proof.Machine

open Sys2Proof

/-- The packet of a message fails at this module, its origin, with UNREACH: the operation it belongs to fails, a trip fails, a
remote store is a late store error, a remote load a bus error. Control messages that no operation waits for are lost. -/
def failMsg (s : State) : GalMsg → State
  | .store dst _ t =>
    let s := s.updCore (.tile (Fin.ofNat 256 t)) fun k => { k with remote := k.remote.eraseP fun e => e.addr = dst }
    recordLate s (.tile (Fin.ofNat 256 t)) dst 1
  | .load _ _ t => loadArrives s (Fin.ofNat 256 t) (.failed (BitVec.ofNat 8 gUnreach))
  | .put _ bs t op => finishOp s.tick t op gUnreach ((Config.freeWord s.free).toNat % ((bs.length + 4095) / 4096 + 1))
  | .get _ _ t op => match findOp s t op with
    | some o => finishOp s t op gUnreach (unitsDone o.got (copyBytes o.block))
    | none => s
  | .reserve dst _ _ t op => match findOp s t op with
    | some o => match o.groups.find? fun g => g.dst = dst with
      | some g => retryTrips (g.trips.foldl (fun s id => failTrip s id gUnreach false) s)
      | none => s
    | none => s
  | .row _ _ hdr _ => retryTrips (failTrip s (hdr.trip.truncate 15) gUnreach false)
  | .coll _ g _ _ _ => failColl s g gUnreach 0
  | .joinHash _ g _ => joinEnd s g gUnreach
  | _ => s

end Sys2Proof.Machine
end

