-- ==== Sys2Proof/Machine/Links.lean ====
section
/-! DEFINITION. Gallery links (R422 to R463): flits and their replay, sealed groups, credits and the order of sending, routing in transit, key setup, retrain and its outcome, and the rebuild of the route tables. -/

namespace Sys2Proof.Machine

open Sys2Proof

/-! ### States of a port (R460) -/

def portCode : PortState → Nat
  | .none => 0
  | .down => 1
  | .train => 2
  | .key => 3
  | .up => 4
  | .replay => 5
  | .retrain => 6
  | .failed => 7

/-- A port changes its state, with a PORT entry that names the failed check of R435, if any (R683). -/
def setPort (s : State) (p : Nat) (st : PortState) (check : Nat) : State :=
  let old := (s.link p).state
  if old = st then s
  else
    (logEntry s (srcPort p) 0x30 0 (check * 256 + portCode old * 16 + portCode st)).updLink p fun l => { l with state := st }

/-- A port whose flit layer runs. -/
def linkRuns (l : Link) : Bool := l.state = .up || l.state = .replay

/-! ### Sending flits (R431, R438) -/

/-- The lowest class with credits to return, and how many go in one flit (R431). -/
def owedOf (l : Link) : Nat × Nat :=
  match l.owed.find? fun p => p.2 ≠ 0 with
  | some p => (p.1, min 31 p.2)
  | none => (0, 0)

/-- A flit goes on the wire with the present acknowledgement and credits (R438, R439, R447). -/
def putWire (l : Link) (nak : Bool) (f : FlitRec) : Link :=
  let o := owedOf l
  let sc := min 255 l.owedShared
  let h := hdrBare f.hdr ||| pack [(l.rxSeq, 38), (b2n nak, 37), (o.1 / 2, 30), (o.1 % 2, 29), (o.2, 24), (sc, 16)]
  { l with
    wire := l.wire ++ [{ f with hdr := h }], unacked := 0, owedShared := l.owedShared - sc
    owed := if o.2 = 0 then l.owed else aput l.owed o.1 (aget 0 l.owed o.1 - o.2) }

/-- A control flit (R431, R438). -/
def sendControl (l : Link) (nak : Bool) : Link := putWire l nak { hdr := pack [(2, 62)], payload := [] }

/-- A data, seal or key flit takes the next sequence number and stays in the replay buffer as sent (R438). -/
def sendNumbered (l : Link) (f : FlitRec) : Link :=
  let f := { f with hdr := f.hdr ||| pack [(l.txSeq, 50)] }
  { putWire l false f with replayBuf := l.replayBuf ++ [f], txSeq := (l.txSeq + 1) % 4096 }

/-- The replay buffer has room (R438). -/
def hasRoom (l : Link) : Bool := decide (l.replayBuf.length < 512)

/-! ### Sealed groups (R436, R437) -/

/-- Sender's key derivation: epoch toggles, and the count of groups starts again (R437). -/
def txRekey (l : Link) : Link := { l with txKey := nextKey l.txKey, epoch := !l.epoch, sealed := 0 }

def rxRekey (l : Link) : Link := { l with rxKey := nextKey l.rxKey, rxEpoch := !l.rxEpoch, rxSealed := 0 }

/-- The sender closes its group with a seal flit, whose first 16 payload bytes are the tag (R436). -/
def closeGroup (s : State) (p : Nat) : State :=
  let l := s.link p
  if l.txGroup = [] || !hasRoom l then s
  else s.updLink p fun l =>
    let tag := groupTag l.txKey (groupNonce l.txSalt l.sealed) l.txGroup
    let l := sendNumbered l { hdr := pack [(1, 62), (b2n l.epoch, 15)], payload := tag }
    let l := { l with txGroup := [], sealed := l.sealed + 1 }
    if l.sealed = 2 ^ 32 then txRekey l else l

/-! ### Sending data (R447, R448) -/

/-- The channel of each turn of the rotation: 2 return, 2 collective, 1 token (R448). -/
def turnVc (t : Nat) : Nat := [1, 1, 2, 2, 0].getD (t % 5) 0

/-- A flit whose packet may send now: no other packet has its class, and a credit is there (R433, R447). -/
def maySend (l : Link) (f : TxFlit) : Bool :=
  let c := hdrCls f.flit.hdr
  (match aget none l.txLock c with | none => true | some i => i = (f.inp, f.icls)) && decide (0 < freeCredits l c)

/-- The next flit of a channel. -/
def nextOf (l : Link) (vc : Nat) : Option Nat := l.txq.findIdx? fun f => hdrVc f.flit.hdr = vc && maySend l f

/-- The next flit to send and the rotation after it: control first (R448). -/
def nextFlit (l : Link) : Option (Nat × Nat) :=
  match nextOf l 3 with
  | some i => some (i, l.turn)
  | none => (List.range 5).findSome? fun k => (nextOf l (turnVc (l.turn + k))).map fun i => (i, (l.turn + k + 1) % 5)

/-- A flit leaves an input buffer: its credit is owed to the peer there, that of a reserved place to its class, any other to the
pool (R447). A flit of this module holds no place. -/
def leaveBuffer (s : State) (inp cls : Nat) : State :=
  if inp = hereIn then s
  else s.updLink inp fun l => match aget [] l.occ cls with
    | [] => l
    | tag :: tags =>
      let l := { l with occ := aput l.occ cls tags }
      if tag then { l with owed := aput l.owed cls (aget 0 l.owed cls + 1) } else { l with owedShared := l.owedShared + 1 }

/-- A received flit takes a place of the input buffer: one reserved to its class while the peer can still hold a credit for it,
as a sender uses those first (R447). -/
def enterBuffer (l : Link) (cls : Nat) : Link :=
  let tags := aget [] l.occ cls
  { l with occ := aput l.occ cls (tags ++ [decide ((tags.filter id).length + aget 0 l.owed cls < 2)]) }

/-- One data flit is sent, encrypted under its place in the open group; a reserved credit is used first (R436, R447). -/
def sendData (s : State) (p i turn : Nat) : State :=
  match (s.link p).txq[i]? with
  | none => s
  | some f =>
    let h := f.flit.hdr
    let c := hdrCls h
    let s := s.updLink p fun l =>
      let head := if hdrHead h then (f.flit.pkt, f.flit.own) else aget ((0, 0), none) l.txHead c
      let l := { l with txq := l.txq.eraseIdx i, turn := turn, txHead := aput l.txHead c head
                        txLock := aput l.txLock c (if hdrTail h then none else some (f.inp, f.icls)) }
      let l := if aget 0 l.credits c ≠ 0 then { l with credits := aput l.credits c (aget 0 l.credits c - 1) }
        else { l with shared := l.shared - 1 }
      let body := hdrBare h &&& ~~~(pack [(0xFFF, 50), (1, 15)])
      let text := groupCrypt l.txKey (groupNonce l.txSalt l.sealed) l.txGroup.length f.flit.payload
      let sent : FlitRec :=
        { hdr := body ||| pack [(l.txSeq, 50), (b2n l.epoch, 15)], payload := text, pkt := head.1, own := head.2 }
      { sendNumbered l { sent with hdr := body ||| pack [(b2n l.epoch, 15)] } with txGroup := l.txGroup ++ [sent] }
    leaveBuffer s f.inp f.icls

/-- A port sends what it can: a full group is sealed before the next flit, and the open group when no data flit is ready (R436,
R438, R448). -/
def pumpN : Nat → State → Nat → State
  | 0, s, _ => s
  | n + 1, s, p =>
    let s := if (s.link p).txGroup.length = 64 then closeGroup s p else s
    let l := s.link p
    if !linkRuns l || l.txGroup.length = 64 || !hasRoom l then s
    else match nextFlit l with
      | none => closeGroup s p
      | some (i, turn) => pumpN n (sendData s p i turn) p

def pump (s : State) (p : Nat) : State := pumpN ((s.link p).txq.length + 1) s p

/-- Every port sends what it can. -/
def pumpAll (s : State) : State := (s.links.filter fun q => q.2.txq ≠ [] || q.2.txGroup ≠ []).foldl (fun s q => pump s q.1) s

/-! ### Routing in transit (R433, R449 to R454) -/

/-- The first word of a packet header. -/
def pktWord (f : FlitRec) : Word := wordOf (f.payload.take 8)
def pktDst (w : Word) : Gid := BitVec.ofNat 16 (wfld w 0 16)
def pktSrc (w : Word) : Gid := BitVec.ofNat 16 (wfld w 16 16)

/-- A packet fails at its origin with UNREACH (R444, R450, R453): one of this module here, for another a notice goes back with
its operation fields. -/
def failPacket (s : State) (pkt : Word × Word) (own : Option GalMsg) : State :=
  match own with
  | some m => failMsg s m
  | none => galSend s (.unreach (pktSrc pkt.1) pkt.2)

def unreach (s : State) (f : FlitRec) : State := failPacket s (pktWord f, wordOf ((f.payload.drop 8).take 8)) f.own

/-- A head flit with the set of its next hop and the phase and hops of its packet (R433, R452 to R454). -/
def reheaded (f : FlitRec) (set phase : Bool) (hops : Nat) : FlitRec :=
  let w := pktWord f
  let w := (w &&& ~~~(pack [(1, 44), (7, 46)])) ||| pack [(b2n phase, 44), (hops % 8, 46)]
  { f with
    hdr := (f.hdr &&& ~~~(pack [(1, 34)])) ||| pack [(b2n set, 34)], payload := toBytes 8 w.toNat ++ f.payload.drop 8
    pkt := (w, f.pkt.2) }

def withSet (f : FlitRec) (set : Bool) : FlitRec :=
  { f with hdr := (f.hdr &&& ~~~(pack [(1, 34)])) ||| pack [(b2n set, 34)] }

/-- The decision of the router for a head flit: arrived, a port with the flit as it leaves, or a discard, which counts in
GAL_RTERR when hops ran out (R449 to R454). `step` is 1 for a new hop and 0 when a waiting packet is routed again. -/
inductive Decision where
  | here
  | go (p : Nat) (set : Bool) (f : FlitRec)
  | discard (count : Bool)

def decide_ (s : State) (f : FlitRec) (step : Nat) : Decision :=
  let w := pktWord f
  let igrp := wfld w 32 12
  let hops := wfld w 46 3
  let phase := wbit w 44 || igrp = ownGroup s
  if phase && pktDst w = s.gid then .here
  else if decide (6 ≤ hops + step) || (phase && igrp = groupOf s (pktSrc w).toNat && decide (4 ≤ hops + step)) then .discard true
  else
    let cands := if phase then towards s (groupOf s (pktDst w).toNat) (memberOf s (pktDst w).toNat)
      else towards s igrp 0
    match choosePort s cands (hdrCls f.hdr) (wbit w 45) with
    | none => .discard false
    | some q =>
      let set := outSet s q (hdrSet f.hdr) phase (pktDst w)
      .go q set (reheaded f set phase (hops + step))

/-- A verified flit goes on: to the port of its packet, to this module, or nowhere. -/
def forward (s : State) (inp : Nat) (f : FlitRec) : State :=
  let c := hdrCls f.hdr
  let setRoute := fun (s : State) (r : RouteTo) => s.updLink inp fun l => { l with rxRoute := aput l.rxRoute c r }
  let enqueue := fun (s : State) (q : Nat) (g : FlitRec) =>
    s.updLink q fun l => { l with txq := l.txq ++ [{ inp := inp, icls := c, flit := g }] }
  if hdrHead f.hdr then
    match decide_ s f 1 with
    | .here => leaveBuffer (setRoute s .here) inp c
    | .go q set g => enqueue (setRoute s (.port q set)) q g
    | .discard count =>
      let s := leaveBuffer (setRoute s .drop) inp c
      let s := if count then { s with gal := { s.gal with rterr := sat32 s.gal.rterr 1 } } else s
      unreach s f
  else match aget .drop (s.link inp).rxRoute c with
    | .port q set => enqueue s q (withSet f set)
    | _ => leaveBuffer s inp c

/-! ### Retrain and failure (R439 to R445) -/

/-- The hold that a port's recovery puts on the commands whose traffic it holds (R445). -/
def portRes (p : Nat) : HoldRes := .port (Fin.ofNat 144 p)

/-- A port enters RETRAIN, which it reports (R441, R445); one whose key setup is interrupted starts that anew afterwards. -/
def startRetrain (s : State) (p : Nat) : State :=
  let old := (s.link p).state
  if linkRuns (s.link p) || old = .key then
    holdAll ((setPort s p .retrain 0).updLink p fun l =>
      { l with retrains := sat16 l.retrains 1, retrainStart := s.mono, nakCount := 0, nakSent := false, kxReplay := false
               kxAgain := old = .key }) (portRes p)
  else s

/-- The flits kept in the replay buffer are sent again, in order, with the present acknowledgement and credits (R439). -/
def resendFrom (l : Link) (k : Nat) : Link := (l.replayBuf.drop k).foldl (fun l f => putWire l false f) l

/-- A resend starts (R439, R440): it counts, and the port is in REPLAY until the flit that caused it is accepted, which it
reports (R445). -/
def startReplay (s : State) (p : Nat) : State :=
  let s := if (s.link p).state = .up then
      holdAll ((setPort s p .replay 0).updLink p fun l => { l with replayStart := s.mono }) (portRes p)
    else if (s.link p).state = .key && !(s.link p).kxReplay then
      s.updLink p fun l => { l with replayStart := s.mono, kxReplay := true }
    else s
  s.updLink p fun l => { resendFrom l 0 with replays := sat16 l.replays 1 }

/-- What is left in a queue of packets whose beginning was lost with a failed port: dropped up to their tails. -/
def dropRest (q : List TxFlit) (lost : List (Nat × Nat)) : List TxFlit × List (Nat × Nat) :=
  q.foldl (fun acc f =>
    let k := (f.inp, f.icls)
    if acc.2.contains k then (acc.1, if hdrTail f.flit.hdr then acc.2.filter (· ≠ k) else acc.2) else (acc.1 ++ [f], acc.2))
    ([], lost)

/-- The packets of which a port holds unacknowledged flits, each once, and those whose flits it has sent only in part. -/
def heldPackets (l : Link) : List ((Word × Word) × Option GalMsg) :=
  let r := (l.replayBuf.filter fun f => hdrType f.hdr = 0).foldl
    (fun (acc : List ((Word × Word) × Option GalMsg) × List Nat) f =>
      let c := hdrCls f.hdr
      let seen := acc.2.contains c
      (if seen then acc.1 else acc.1 ++ [(f.pkt, f.own)],
        if hdrTail f.hdr then acc.2.filter (· ≠ c) else if seen then acc.2 else c :: acc.2)) ([], [])
  r.1 ++ (l.txLock.filter fun k => k.2.isSome && !r.2.contains k.1).map fun k => aget ((0, 0), none) l.txHead k.1

/-- A port enters FAILED (R435, R443, R444): packets whose flits it held unacknowledged fail at their origin; those that
wait for it stay at the router. The recovery that it reported has ended (R445, R676). -/
def failPort (s : State) (p check : Nat) : State :=
  let l := s.link p
  let s := setPort s p .failed check
  let lost := l.txLock.filterMap fun k => k.2
  let r := dropRest l.txq lost
  let gone := l.txq.filter fun f => !r.1.contains f
  let s := gone.foldl (fun s f => leaveBuffer s f.inp f.icls) s
  let s := r.2.foldl (fun s k => s.updLink k.1 fun m => { m with rxRoute := aput m.rxRoute k.2 .drop }) s
  let s := s.updLink p fun l => { l with
    wid := 0, replayBuf := [], unacked := 0, rxGroup := [], txGroup := [], txLock := [], txHead := [], txq := r.1, occ := []
    owed := [], owedShared := 0, kxWait := [], rxRoute := l.rxRoute.map fun q => (q.1, .drop) }
  dropAll ((heldPackets l).foldl (fun s k => failPacket s k.1 k.2) s) (portRes p)

/-! ### Key setup (R434, R435) -/

/-- This side has the lower pair of Gallery ID and port (R434). -/
def lowerSide (s : State) (p : Nat) : Bool :=
  let l := s.link p
  decide (s.gid.toNat < l.peer.toNat) || (s.gid = l.peer && decide (p < l.pport.toNat))

/-- Key-exchange flits leave while the replay buffer has room (R438). -/
def sendKeysN : Nat → Link → Link
  | 0, l => l
  | n + 1, l =>
    if l.kxWait = [] || !hasRoom l then l
    else
      let b := l.kxWait.take 244
      sendKeysN n (sendNumbered { l with kxWait := l.kxWait.drop 244 } { hdr := pack [(3, 62), (b.length, 7)], payload := b })

def sendKeys (l : Link) : Link := sendKeysN ((l.kxWait.length + 243) / 244) l

/-- A message of the key setup leaves in key-exchange flits. -/
def sendKey (s : State) (p : Nat) (bs : List Byte) : State := s.updLink p fun l => sendKeys { l with kxWait := l.kxWait ++ bs }

/-- The own hello: nonce, certificate, evidence of kind 1, port and Gallery ID (R434, R613, R622, log 87). -/
def helloBytes (s : State) (p : Nat) (nonce : BitVec 256) : List Byte :=
  toBytes 32 nonce.toNat ++ ownCert s ++ reportBody s 1 nonce 0 ++ toBytes 1 p ++ toBytes 2 s.gid.toNat

def msgBytes : KeyMsg → List Byte
  | .hello nonce cert ev pport peer => toBytes 32 nonce.toNat ++ cert ++ ev ++ toBytes 1 pport.toNat ++ toBytes 2 peer.toNat
  | .encapKey ek => ek
  | .ciphertext ct => ct
  | .signature sig => sig

/-- The bytes of one direction of the transcript grow: the own direction or the peer's. The hellos come before either side is
known to be the lower one, so they are put in place when the peer's has come. -/
def addKx (l : Link) (low : Bool) (bs : List Byte) : Link :=
  if low then { l with kxLow := l.kxLow ++ bs } else { l with kxHigh := l.kxHigh ++ bs }

/-- A trained port enters KEY and sends its hello with a fresh nonce of the DRBG. -/
def startKey (s : State) (p : Nat) : State :=
  let nonce := BitVec.ofNat 256 (ofBytes (Config.freeBytes s.free 32))
  let s := (setPort s.tick p .key 0).updLink p fun l => { l with
    txSeq := 0, rxSeq := 0, replayBuf := [], nakSent := false, nakCount := 0, unacked := 0, kxHello := false, kxSecret := none
    kxNonce := nonce, kxLow := [], kxHigh := [], kxWait := [], kxReplay := false, kxAgain := false
    sealed := 0, rxSealed := 0, sealFails := 0 }
  sendKey s p (helloBytes s p nonce)

/-- The signature by the identity key over the transcript hash, once both sides have the shared secret. -/
def sendSignature (s : State) (p : Nat) : State := sendKey s p (Config.slhSign (idKey s) (kxHash (s.link p)))

/-- The first check of R435 that fails, by its place in the list, or 0. -/
def admitCheck (s : State) (l : Link) (sig : List Byte) : Nat :=
  if !(l.peerOk && Config.slhVerify l.peerPk (kxHash l) sig) then 1
  else if l.peerOwner ≠ ownerDigest s then 2
  else if l.peerSvn < s.start.cfg.minSvn then 3
  else if l.peer ≠ l.expPeer || l.pport ≠ l.expPort then 4
  else 0

/-- The link comes UP with new keys, full credits and a new group (R434, R447). -/
def linkUp (s : State) (p : Nat) (ss : BitVec 256) : State :=
  let ks := kxKeys (s.link p) ss
  let a := BitVec.ofNat 256 (ofBytes (ks.take 32))
  let x := BitVec.ofNat 32 (ofBytes ((ks.drop 32).take 4))
  let b := BitVec.ofNat 256 (ofBytes ((ks.drop 36).take 32))
  let y := BitVec.ofNat 32 (ofBytes ((ks.drop 68).take 4))
  let low := lowerSide s p
  pump ((setPort s p .up 0).updLink p fun l => { l with
    txKey := if low then a else b, txSalt := if low then x else y, rxKey := if low then b else a, rxSalt := if low then y else x
    epoch := false, rxEpoch := false, credits := (List.range 8).map fun c => (c, 2), shared := 64 * l.cwid - 16
    txGroup := [], rxGroup := [], kxReplay := false }) p

/-- What a hello gives (R434, R435, R613, R620, R622): the identity key of the certificate, and the owner digest and security
version of the evidence, which must carry the nonce of the hello. -/
def takeHello (l : Link) (nonce : BitVec 256) (cert ev : List Byte) (pport : BitVec 8) (peer : Gid) : Link :=
  { l with
    peer := peer, pport := pport, kxHello := true
    peerPk := BitVec.ofNat 512 (ofBytes ((cert.drop 0x30).take 64))
    peerOwner := BitVec.ofNat 256 (ofBytes ((ev.drop 0x80).take 32))
    peerSvn := fld (ofBytes ((ev.drop 0x50).take 8)) 32 8
    peerOk := ev.length = 640 && ofBytes ((ev.drop 0x0C).take 4) = 1 && ofBytes ((ev.drop 0x18).take 32) = nonce.toNat }

/-- A message of the peer's key setup has arrived (R434, R435). -/
def execKeyExchange (p : LaneNo) (m : KeyMsg) (s : State) : Result :=
  .next (
    let l := s.link p.val
    let s' := s.updLink p.val fun l => addKx l (!lowerSide s p.val) (msgBytes m)
    if s.power ≠ .run || l.state ≠ .key then s
    else match m with
      | .hello nonce cert ev pport peer =>
        if l.kxHello then s
        else
          let s := s.updLink p.val fun l => takeHello l nonce cert ev pport peer
          let low := lowerSide s p.val
          let s := s.updLink p.val fun l => addKx (addKx l low (helloBytes s p.val l.kxNonce)) (!low) (msgBytes m)
          if low then
            let seed := BitVec.ofNat 512 (ofBytes (Config.freeBytes s.free 64))
            let ek := Config.mlkemKey seed
            sendKey (s.tick.updLink p.val fun l => addKx { l with kxSeed := seed } true ek) p.val ek
          else s
      | .encapKey ek =>
        if l.kxHello && !lowerSide s p.val && l.kxSecret.isNone then
          let r := Config.mlkemEncaps ek (BitVec.ofNat 256 (ofBytes (Config.freeBytes s.free 32)))
          let s := s'.tick.updLink p.val fun l => addKx { l with kxSecret := some r.2 } false r.1
          sendSignature (sendKey s p.val r.1) p.val
        else s
      | .ciphertext ct =>
        if l.kxHello && lowerSide s p.val && l.kxSecret.isNone then
          sendSignature (s'.updLink p.val fun l => { l with kxSecret := some (Config.mlkemDecaps l.kxSeed ct) }) p.val
        else s
      | .signature sig => match l.kxSecret with
        | none => s
        | some ss => match admitCheck s l sig with
          | 0 => linkUp s p.val ss
          | n => failPort s p.val n)

/-! ### Receiving (R432, R437, R438) -/

/-- A flit that is not accepted: the first after an accepted one is answered with nak (R438). -/
def discardFlit (l : Link) : Link := if l.nakSent then l else { sendControl l true with nakSent := true }

/-- Acknowledgement and credits of a received header (R438, R440, R447). A class has two reserved credits; one more that comes
back counts as a shared one (log 88). -/
def takeAck (s : State) (p : Nat) (h : Word) : State :=
  let l := s.link p
  let oldest := (l.txSeq + 4096 - l.replayBuf.length) % 4096
  let n := (hdrAck h + 4096 - oldest) % 4096
  let got := decide (0 < n) && decide (n ≤ l.replayBuf.length)
  let s := s.updLink p fun l =>
    let c := 2 * wfld h 30 2 + wfld h 29 1
    let r := aget 0 l.credits c + wfld h 24 5
    let l := { l with credits := aput l.credits c (min 2 r), shared := l.shared + wfld h 16 8 + (r - 2) }
    if got then sendKeys { l with replayBuf := l.replayBuf.drop n, nakCount := 0, kxReplay := false } else l
  if got && l.state = .replay then dropAll (setPort s p .up 0) (portRes p) else s

/-- A nak asks for replay from the flit it names; the eighth for one flit starts a retrain (R439, R440). -/
def takeNak (s : State) (p : Nat) : State :=
  let n := (s.link p).nakCount + 1
  let s := s.updLink p fun l => { l with nakCount := n }
  if (s.link p).replayBuf = [] then s
  else if 8 ≤ n then startRetrain s p
  else startReplay s p

/-- An accepted flit: the next sequence number, and an acknowledgement at 16 (R438). -/
def acceptSeq (l : Link) : Link :=
  let l := { l with rxSeq := (l.rxSeq + 1) % 4096, unacked := l.unacked + 1, nakSent := false }
  if 16 ≤ l.unacked then sendControl l false else l

/-- What the FEC made of the codewords that a flit touches (R427, R441, R461): corrected symbols and uncorrectable codewords
count, and the times of the latter are kept for 1 ms by lane. -/
def takeFec (s : State) (p : Nat) (fec : List (Fin 8 × Nat)) : State :=
  s.updLink p fun l => fec.foldl (fun l e =>
    if e.2 ≤ rsMax then { l with fcorr := sat32 l.fcorr e.2 }
    else { l with
      funcorr := sat32 l.funcorr 1
      badCw := aput l.badCw e.1.val (s.mono :: (aget [] l.badCw e.1.val).filter fun x => decide (s.mono < x + 1000000)) }) l

/-- A lane has recorded more than 16 uncorrectable codewords within 1 ms (R441). -/
def laneBad (s : State) (l : Link) : Bool :=
  l.badCw.any fun e => decide (16 < (e.2.filter fun x => decide (s.mono < x + 1000000)).length)

/-- A received flit passes its checks (R427, R432, R438): none when it is discarded, which a NAK answers. -/
def arrive (s : State) (p : Nat) (f : WireFlit) : State × Option FlitRec :=
  let s := takeFec s p f.chk.fec
  if laneBad s (s.link p) then (startRetrain s p, none)
  else if !flitOk f || f.chk.fec.any fun e => decide (rsMax < e.2) then
    (s.updLink p fun l => discardFlit { l with crc := sat32 l.crc 1 }, none)
  else
    if hdrType f.hdr ≠ 2 && hdrSeq f.hdr ≠ (s.link p).rxSeq then (s.updLink p discardFlit, none)
    else
      let s := takeAck s p f.hdr
      (if hdrNak f.hdr then takeNak s p else s, some { hdr := f.hdr, payload := f.payload })

/-- A received data, control or key flit (R432, R438). -/
def execFlit (p : LaneNo) (hdr : Word) (payload : List Byte) (chk : FlitCheck) (s : State) : Result :=
  .next (
    let l := s.link p.val
    let ty := hdrType hdr
    let f : WireFlit := ⟨hdr, payload, chk⟩
    if s.power ≠ .run || !(linkRuns l || l.state = .key) || (flitOk f && (ty = 1 || (ty = 0 && !linkRuns l))) then s
    else match arrive s p.val f with
      | (s, none) => s
      | (s, some f) =>
        let s := if ty = 2 then s
          else s.updLink p.val fun l =>
            acceptSeq (if ty = 0 then enterBuffer { l with rxGroup := l.rxGroup ++ [f] } (hdrCls f.hdr) else l)
        pump s p.val)

/-- The flits of a group as their sender had them (R436). -/
def openGroup (l : Link) : List FlitRec :=
  l.rxGroup.zipIdx.map fun q =>
    let b := groupCrypt l.rxKey (groupNonce l.rxSalt l.rxSealed) q.2 q.1.payload
    let b := b.take (wfld q.1.hdr 7 8)
    { q.1 with payload := b, pkt := (wordOf (b.take 8), wordOf ((b.drop 8).take 8)) }

/-- A seal verifies (R437): its group goes to the router. -/
def sealOk (s : State) (p : Nat) : State :=
  let g := openGroup (s.link p)
  let s := s.updLink p fun l =>
    let l := acceptSeq { l with rxGroup := [], sealFails := 0, rxSealed := l.rxSealed + 1 }
    if l.rxSealed = 2 ^ 32 then rxRekey l else l
  pumpAll (g.foldl (fun s f => forward s p f) s)

/-- A seal does not verify (R437): a NAK of the group's first flit, whose flits give up their places; a second one retrains. -/
def sealBad (s : State) (p : Nat) : State :=
  let l := s.link p
  let occ := l.rxGroup.foldl (fun m f => aput m (hdrCls f.hdr) (aget [] m (hdrCls f.hdr)).dropLast) l.occ
  let s := s.updLink p fun l => { l with
    rxSeq := (l.rxSeq + 4096 - l.rxGroup.length % 4096) % 4096, rxGroup := [], occ := occ, sealFails := l.sealFails + 1 }
  if 2 ≤ l.sealFails + 1 then startRetrain (s.updLink p fun l => { l with sealFails := 0 }) p
  else s.updLink p fun l => { sendControl l true with nakSent := true }

/-- A received seal flit (R437, R438): it is checked and accepted as any numbered flit is, and its tag is compared. -/
def execSeal (p : LaneNo) (f : WireFlit) (s : State) : Result :=
  .next (
    let l := s.link p.val
    if s.power ≠ .run || !linkRuns l || (flitOk f && hdrType f.hdr ≠ 1) then s
    else match arrive s p.val f with
      | (s, none) => s
      | (s, some f) =>
        let l := s.link p.val
        if l.rxGroup = [] then s.updLink p.val acceptSeq
        else if f.payload.take 16 = groupTag l.rxKey (groupNonce l.rxSalt l.rxSealed) l.rxGroup then sealOk s p.val
        else sealBad s p.val)

/-! ### Timers (R436, R438 to R440, R444) -/

def execSealGroupClose (p : LaneNo) (s : State) : Result :=
  .next (if s.power = .run && linkRuns (s.link p.val) then pump (closeGroup s p.val) p.val else s)

def execAckTimer (p : LaneNo) (s : State) : Result :=
  .next (
    let l := s.link p.val
    if s.power = .run && (linkRuns l || l.state = .key) && l.unacked ≠ 0 then
      s.updLink p.val fun l => sendControl l false
    else s)

/-- No acknowledgement has advanced for 5 us (R439); a replay that has not completed in 50 us becomes a retrain (R440). -/
def execReplay (p : LaneNo) (s : State) : Result :=
  .next (
    let l := s.link p.val
    if s.power ≠ .run || !(linkRuns l || l.state = .key) || l.replayBuf = [] then s
    else if (l.state = .replay || l.kxReplay) && decide (l.replayStart + 50000 ≤ s.mono) then startRetrain s p.val
    else startReplay s p.val)

/-- A lane loses signal or lock (R441). -/
def execLossOfSignal (p : LaneNo) (lane : Fin 8) (s : State) : Result :=
  .next (if s.power = .run && decide (lane.val < (s.link p.val).cwid) then startRetrain s p.val else s)

def execRetrain (p : LaneNo) (s : State) : Result := .next (if s.power = .run then startRetrain s p.val else s)

/-! ### The lane decision (R442, R443) -/

/-- Widths a port narrows to. -/
def narrow (n : Nat) : Nat := if 8 ≤ n then 8 else if 4 ≤ n then 4 else if 2 ≤ n then 2 else n

/-- Structure ID of a lane of an octet; 8 is the spare (R682). -/
def laneId (o l : Nat) : Nat := 9 * 2 ^ 60 + o * 2 ^ 48 + l

/-- The octet's spare lane takes the first failed lane, where R442 lets it; the lanes that stay failed. -/
def useSpare (s : State) (p : Nat) (failed : List Nat) (spareGood : Bool) : State × List Nat :=
  let o := p / 8
  let oc := s.octet o
  match failed with
  | [] => (s, [])
  | i :: is =>
    let l := p % 8 + i
    if !oc.spent && oc.sparePort = some p && spareGood then
      let s := s.updOctet o fun x =>
        { x with spent := true, sused := true, slane := BitVec.ofNat 3 l, fail := x.fail &&& ~~~(BitVec.ofNat 8 (2 ^ l)) }
      (repaired s (srcPort p) (laneId o 8) (laneId o l) 0x09 o l 1 0, is)
    else (s, i :: is)

/-- Lanes of a port that stay failed are recorded, and no longer count as replaced; those that newly leave service are measured
and journaled (R443, R462). -/
def markLanes (s : State) (p w : Nat) (failed : List Nat) : State :=
  let o := p / 8
  let old := (s.octet o).fail
  let s := s.updOctet o fun x =>
    { x with
      sused := x.sused && !(failed.any fun i => p % 8 + i = x.slane.toNat)
      fail := (List.range w).foldl (fun (f : BitVec 8) i =>
        if failed.contains i then f ||| BitVec.ofNat 8 (2 ^ (p % 8 + i)) else f &&& ~~~(BitVec.ofNat 8 (2 ^ (p % 8 + i)))) x.fail }
  (failed.filter fun i => !old.getLsbD (p % 8 + i)).foldl (fun s i =>
    lostStruct s (srcPort p) (laneId o (p % 8 + i)) 0x09 o (p % 8 + i) 0) s

/-- The flit layer starts again after a retrain: both directions take new keys, and the oldest unacknowledged flit leads
the resend (R437, R441). The recovery has ended (R445). -/
def restartLink (s : State) (p : Nat) : State :=
  dropAll (pump ((setPort s p .up 0).updLink p fun l => resendFrom (rxRekey (txRekey { l with sealFails := 0 })) 0) p) (portRes p)

/-- The lane decision at the end of training (R441 to R443). A retrain that has not come this far 400 us after its start ends in
FAILED. A port that trains for the first time, or whose retrain interrupted the key setup, goes on to its keys. -/
def execRetrainEnd (p : LaneNo) (good : BitVec 8) (spareGood : Bool) (s : State) : Result :=
  .next (
    let l := s.link p.val
    if s.power ≠ .run || !(l.state = .retrain || l.state = .train) then s
    else if l.state = .retrain && decide (l.retrainStart + 400000 < s.mono) then failPort s p.val 0
    else
      let failed := (List.range l.cwid).filter fun i => !good.getLsbD i
      let r := useSpare s p.val failed spareGood
      let w := narrow (l.cwid - r.2.length)
      let s := r.1.updLink p.val fun l => { l with lanes := good }
      if w = 0 then failPort s p.val 0
      else
        let s := (markLanes s p.val l.cwid r.2).updLink p.val fun l => { l with wid := w, badCw := [] }
        if l.state = .retrain && !l.kxAgain then restartLink s p.val else dropAll (startKey s p.val) (portRes p.val))

/-- A FAILED port is trained again (R444); so is one that has not come up since the start (R592). -/
def execFailedPortRetry (p : LaneNo) (s : State) : Result :=
  .next (
    let l := s.link p.val
    if s.power = .run && (l.state = .failed || l.state = .down) then setPort s p.val .train 0 else s)

/-! ### The rebuild of the route tables (R444, R450) -/

/-- A route entry without its candidates on FAILED ports. -/
def entryWithout (s : State) (e : Word) : Word :=
  match (candidates e).filter fun p => (s.link p).state ≠ .failed with
  | [] => 0
  | ps => pack ([(1, 63), (ps.length - 1, 34)] ++ ((List.range 4).zip ps).map fun q => (q.2, 8 * q.1))

/-- The flits that wait at a FAILED port go to the ports that the new tables give. -/
def rerouteQueue (s : State) (q : List TxFlit) : State :=
  (q.foldl (fun (acc : State × List ((Nat × Nat) × RouteTo)) f =>
    let k := (f.inp, f.icls)
    let push := fun (s : State) (p : Nat) (g : FlitRec) => s.updLink p fun l => { l with txq := l.txq ++ [{ f with flit := g }] }
    let note := fun (s : State) (r : RouteTo) =>
      s.updLink f.inp fun l => if hdrTail f.flit.hdr then l else { l with rxRoute := aput l.rxRoute f.icls r }
    if hdrHead f.flit.hdr then
      match decide_ acc.1 f.flit 0 with
      | .go p set g => (push (note acc.1 (.port p set)) p g, (k, .port p set) :: acc.2)
      | .here => (leaveBuffer (note acc.1 .here) f.inp f.icls, (k, .here) :: acc.2)
      | .discard _ => (unreach (leaveBuffer (note acc.1 .drop) f.inp f.icls) f.flit, (k, .drop) :: acc.2)
    else
      let r : Option RouteTo := (acc.2.find? fun x => x.1 = k).map fun x => x.2
      match r with
      | some (.port p set) => (push acc.1 p (withSet f.flit set), acc.2)
      | _ => (leaveBuffer acc.1 f.inp f.icls, acc.2)) (s, [])).1

def execRouteTableRebuild (s : State) : Result :=
  .next (if s.power ≠ .run then s
    else
      let conv := fun (m : SMap Word) => m.map fun p => (p.1, entryWithout s p.2)
      let s := { s with gal := { s.gal with grpTab := conv s.gal.grpCfg, memTab := conv s.gal.memCfg } }
      let bad := s.links.filter fun p => p.2.state = .failed && p.2.txq ≠ []
      pumpAll (bad.foldl (fun s p => rerouteQueue (s.updLink p.1 fun l => { l with txq := [] }) p.2.txq) s))

/-! ### Registers (R459 to R462) -/

def galRtcfg (s : State) : Word := pack [(s.gal.bias.toNat, 8), (b2n s.gal.nmin, 7), (s.gal.mbits, 0)]

def galLnk (s : State) (p : Nat) : Word :=
  let l := s.link p
  let o := s.octet (p / 8)
  let spare := o.sused && decide (p % 8 ≤ o.slane.toNat) && decide (o.slane.toNat < p % 8 + l.cwid)
  pack [(l.peer.toNat, 48), (l.pport.toNat, 40), (l.wid, 24), (l.cwid, 20), (b2n l.glob, 19), (b2n spare, 18),
    (b2n l.epoch, 17), (portCode l.state, 0)]

def galLcnt0 (l : Link) : Word := pack [(l.retrains, 48), (l.replays, 32), (l.crc, 0)]
def galLcnt1 (l : Link) : Word := pack [(l.fcorr, 32), (l.funcorr, 0)]
def lcntClear (l : Link) : Link := { l with retrains := 0, replays := 0, crc := 0, fcorr := 0, funcorr := 0 }

def galOct (o : Octet) : Word := pack [(o.fail.toNat, 24), (o.starts.toNat, 8), (b2n o.sused, 4), (o.slane.toNat, 0)]

end Sys2Proof.Machine
end

