-- ==== Sys2Proof/Machine/Fatal.lean ====
section
/-! DEFINITION. A fatal error (R659, R660). -/

namespace Sys2Proof.Machine

open Sys2Proof

/-- Causes of R659 that commands of the table detect themselves. -/
def fRefclk : Nat := 1
def fStackHeat : Nat := 4
def fEntropy : Nat := 6

/-- FAIL with a cause for every active collective (R416, R417). -/
def failBeacons (s : State) (cause : Nat) : State :=
  s.gal.groups.foldl (fun s p => if p.2.coll.isSome then sendBeacon s p.1 2 cause s.gid else s) s

/-- A fatal error (R660): FATAL in the drip log, no further grant, FAIL with cause 6, every queue stops, and READY_N is released (R702). The restart of
R595 follows as RESTART. -/
def goFatal (s : State) (cause : Nat) : State :=
  let s := logEntry s srcOchre 0x06 3 cause
  let s := failBeacons { s with lamp := { s.lamp with stopped := true } } 6
  { s with power := .fatal, rep := { s.rep with fatal := cause }, pins := { s.pins with ready := false } }

/-- A fatal cause (R659); a module that does not run has none. -/
def execFatal (cause : BitVec 8) (s : State) : Result :=
  .next (if s.power = .run then goFatal s cause.toNat else s)

end Sys2Proof.Machine
end

