-- ==== Sys2Proof/Machine/Encoding.lean ====
section
/-! DEFINITION. The encodings of the Zaham instructions: what a core reads from the bytes at its pc (R63, R72 to R77, R82, R95, R101, R165, R173 to R175, R263, R288, R339, R342, R370). -/

namespace Sys2Proof.Machine

open Sys2Proof

/-- What a word is: an instruction; a func10 that its coprocessor does not list (R100); or no instruction (R73, R75 to R77, R82). -/
inductive Decoded where
  | instr (i : Instr)
  | func10 (cop : Nat)
  | illegal
  deriving DecidableEq, Repr

/-! ### Fields (R72, R74, R173) -/

/-- The register field whose lowest bit is `lo`. -/
def regAt (w lo : Nat) : Reg := BitVec.ofNat 5 (fld w lo 5)

def flagAt (w lo : Nat) : Bool := fld w lo 1 = 1

def lrOf (w : Nat) : LR := { rd := regAt w 27, rs1 := regAt w 22, rs2 := regAt w 17, f := flagAt w 16 }
def lrFunc (w : Nat) : Nat := fld w 7 9
def liOf (w : Nat) : LI := { rd := regAt w 27, rs1 := regAt w 22, f := flagAt w 21, imm := BitVec.ofNat 14 (fld w 7 14) }
def liShOf (w : Nat) : LISh :=
  { rd := regAt w 27, rs1 := regAt w 22, f := flagAt w 21, mbz := BitVec.ofNat 6 (fld w 13 6), amt := BitVec.ofNat 6 (fld w 7 6) }
def lcOf (w : Nat) : LC := { rd := regAt w 27, rs1 := regAt w 22, rs2 := regAt w 17 }
def lcFunc (w : Nat) : Nat := fld w 7 10
/-- Layout VR; the scalar bit is func[6] where the major has one. -/
def vrOf (w : Nat) (s : Bool) : VR :=
  { vd := regAt w 27, vs1 := regAt w 22, vs2 := regAt w 17, vm := BitVec.ofNat 3 (fld w 14 3), s := s }
def vfOf (w : Nat) (s : Bool) : VF :=
  { vd := regAt w 27, vs1 := regAt w 22, vs2 := regAt w 17, vs3 := regAt w 12, vm := BitVec.ofNat 3 (fld w 9 3), s := s }
def vmOf (w : Nat) : VM :=
  { vt := regAt w 27, base := regAt w 22, vm := BitVec.ofNat 3 (fld w 19 3), simm := BitVec.ofNat 11 (fld w 7 11) }

/-! ### Short forms (R73) -/

/-- The SX form: the sub in [15:11]. The rep prefix is not an instruction of its own. -/
def decodeSx (c : CoreId) (w : Nat) : Decoded :=
  let rs := regAt w 6
  match fld w 11 5 with
  | 0 => .instr (.nop c rs)
  | 2 => .instr (.ret c rs)
  | 3 => .instr (.jr c rs)
  | 4 => .instr (.jalr c (.short rs))
  | 5 => .instr (.ifl c (.short rs))
  | _ => .illegal

def decodeShort (c : CoreId) (w : Nat) : Decoded :=
  let rd := regAt w 11
  let rs := regAt w 6
  match fld w 1 5 with
  | 0x01 => .instr (.mov c rd rs)
  | 0x02 => .instr (.add c (.short rd rs))
  | 0x03 => .instr (.sub c (.short rd rs))
  | 0x04 => .instr (.andR c (.short rd rs))
  | 0x05 => .instr (.orR c (.short rd rs))
  | 0x06 => .instr (.xorR c (.short rd rs))
  | 0x07 => .instr (.shl c (.short rd rs))
  | 0x08 => .instr (.shr c (.short rd rs))
  | 0x09 => .instr (.sar c (.short rd rs))
  | 0x0A => .instr (.cmp c rd rs)
  | 0x0B => .instr (.mul c (.short rd rs))
  | 0x0C => .instr (.movi c rd rs)
  | 0x0D => .instr (.addi c (.short rd rs))
  | 0x0E => .instr (.shli c (.short rd rs))
  | 0x0F => .instr (.shri c (.short rd rs))
  | 0x10 => .instr (.sari c (.short rd rs))
  | 0x11 => .instr (.cmpi c rd rs)
  | 0x12 => .instr (.ld c (.shortD rd rs))
  | 0x13 => .instr (.st c (.shortD rd rs))
  | 0x14 => .instr (.ld c (.shortW rd rs))
  | 0x15 => .instr (.st c (.shortW rd rs))
  | 0x16 => .instr (.ldspD c rd rs)
  | 0x17 => .instr (.stspD c rd rs)
  | 0x18 => .instr (.bcc c (.short (BitVec.ofNat 4 (fld w 12 4)) (BitVec.ofNat 6 (fld w 6 6))))
  | 0x19 => .instr (.br c (BitVec.ofNat 10 (fld w 6 10)))
  | 0x1F => decodeSx c w
  | _ => .illegal

/-! ### Long forms (R75) -/

/-- Register ALU (R77). -/
def decodeAlu (c : CoreId) (w : Nat) : Decoded :=
  let f := lrOf w
  match lrFunc w with
  | 0x000 => .instr (.add c (.long f))
  | 0x001 => .instr (.sub c (.long f))
  | 0x002 => .instr (.adc c f)
  | 0x003 => .instr (.sbc c f)
  | 0x008 => .instr (.andR c (.long f))
  | 0x009 => .instr (.orR c (.long f))
  | 0x00A => .instr (.xorR c (.long f))
  | 0x00B => .instr (.andn c f)
  | 0x010 => .instr (.shl c (.long f))
  | 0x011 => .instr (.shr c (.long f))
  | 0x012 => .instr (.sar c (.long f))
  | 0x013 => .instr (.rol c f)
  | 0x018 => .instr (.slt c f)
  | 0x019 => .instr (.sltu c f)
  | 0x01A => .instr (.minR c f)
  | 0x01B => .instr (.maxR c f)
  | 0x01C => .instr (.minu c f)
  | 0x01D => .instr (.maxu c f)
  | 0x020 => .instr (.mul c (.long f))
  | 0x021 => .instr (.mulh c f)
  | 0x022 => .instr (.mulhu c f)
  | 0x028 => .instr (.div c f)
  | 0x029 => .instr (.divu c f)
  | 0x02A => .instr (.rem c f)
  | 0x02B => .instr (.remu c f)
  | 0x030 => .instr (.clz c f)
  | 0x031 => .instr (.ctz c f)
  | 0x032 => .instr (.popc c f)
  | 0x033 => .instr (.bswap c f)
  | 0x034 => .instr (.sext c .b f)
  | 0x035 => .instr (.sext c .h f)
  | 0x036 => .instr (.sext c .w f)
  | 0x037 => .instr (.zextW c f)
  | _ => .illegal

/-- Immediate shifts: imm[13:12] names the shift. -/
def decodeShift (c : CoreId) (w : Nat) : Decoded :=
  let f := liShOf w
  match fld w 19 2 with
  | 0 => .instr (.shli c (.long f))
  | 1 => .instr (.shri c (.long f))
  | 2 => .instr (.sari c (.long f))
  | _ => .instr (.roli c f)

/-- A string instruction, with or without the rep prefix (R93, R95). -/
def decodeString (c : CoreId) (rep : Bool) (w : Nat) : Decoded :=
  let f : StrForm := { rep := rep, sz := BitVec.ofNat 2 (fld w 30 2), mbz := BitVec.ofNat 21 (fld w 7 21), upTo := none }
  match fld w 28 2 with
  | 0 => .instr (.smov c f)
  | 1 => .instr (.sset c f)
  | 2 => .instr (.scmp c f)
  | _ => .illegal

/-- System instructions (R82). -/
def decodeSystem (c : CoreId) (w : Nat) : Decoded :=
  let f := lrOf w
  let sr : SrNo := BitVec.ofNat 10 (fld w 17 10)
  match lrFunc w with
  | 0x000 => .instr (.mfsr c f.rd sr f.f)
  | 0x001 => .instr (.mtsr c sr f.rd f.f)
  | 0x002 => .instr (.ifl c (.long f))
  | 0x003 => .instr (.mset c f)
  | 0x004 => .instr (.trap c f)
  | 0x005 => .instr (.eret c f)
  | 0x006 => .instr (.waitq c f)
  | 0x007 => .instr (.halt c f)
  | _ => .illegal

/-- Fences and cache instructions (R339). -/
def decodeFence (c : CoreId) (w : Nat) : Decoded :=
  let f := lrOf w
  match lrFunc w with
  | 0x000 => .instr (.fence c f)
  | 0x001 => .instr (.fenceW c f)
  | 0x008 => .instr (.dcz c f)
  | 0x009 => .instr (.dcwb c f)
  | 0x00A => .instr (.dcinv c f)
  | _ => .illegal

/-- Atomics (R342): bit 0 of func names the size. -/
def decodeAtomic (c : CoreId) (w : Nat) : Decoded :=
  let f := lrOf w
  let d := flagAt w 7
  match lrFunc w with
  | 0x000 | 0x001 => .instr (.amoadd c d f)
  | 0x002 | 0x003 => .instr (.amoswap c d f)
  | 0x004 | 0x005 => .instr (.amocas c d f)
  | 0x006 | 0x007 => .instr (.amomin c d f)
  | 0x008 | 0x009 => .instr (.amomax c d f)
  | 0x00C => .instr (.amofaddF32 c f)
  | _ => .illegal

/-! ### The hash engine (R101) -/

def decodeCp2 (c : CoreId) (w : Nat) : Decoded :=
  let f := lcOf w
  match lcFunc w with
  | 0x000 => .instr (.hinit c f)
  | 0x001 => .instr (.habs c f)
  | 0x002 => .instr (.habsm c f)
  | 0x003 => .instr (.hfin c f)
  | 0x004 => .instr (.hsqz c f)
  | 0x005 => .instr (.hsave c f)
  | 0x006 => .instr (.hrest c f)
  | _ => .func10 2

/-! ### Vector and chain instructions (R174, R175, R263) -/

/-- Floating-point arithmetic and conversion, major 0x22. -/
def decodeVfp (t : TileId) (w : Nat) : Decoded :=
  let f := vrOf w (flagAt w 13)
  match fld w 7 6 with
  | 0x00 => .instr (.vfadd t f)
  | 0x01 => .instr (.vfsub t f)
  | 0x02 => .instr (.vfmul t f)
  | 0x03 => .instr (.vfdiv t f)
  | 0x04 => .instr (.vfmin t f)
  | 0x05 => .instr (.vfmax t f)
  | 0x06 => .instr (.vfsqrt t f)
  | 0x08 => .instr (.vfneg t f)
  | 0x09 => .instr (.vfabs t f)
  | 0x10 => .instr (.vcvtFI t f)
  | 0x11 => .instr (.vcvtIF t f)
  | 0x12 => .instr (.vfwcvt t f)
  | 0x13 => .instr (.vfncvt t f)
  | _ => .illegal

/-- Fused multiply-add, majors 0x23 and 0x24. -/
def decodeVfma (t : TileId) (w : Nat) (s : Bool) : Decoded :=
  let f := vfOf w s
  match fld w 7 2 with
  | 0 => .instr (.vfma t f)
  | 1 => .instr (.vfms t f)
  | 2 => .instr (.vfnma t f)
  | _ => .instr (.vfnms t f)

/-- Integer and logic, major 0x25. -/
def decodeVint (t : TileId) (w : Nat) : Decoded :=
  let f := vrOf w (flagAt w 13)
  match fld w 7 6 with
  | 0x00 => .instr (.vadd t f)
  | 0x01 => .instr (.vsub t f)
  | 0x02 => .instr (.vmul t f)
  | 0x03 => .instr (.vmulh t f)
  | 0x04 => .instr (.vmulhu t f)
  | 0x08 => .instr (.vand t f)
  | 0x09 => .instr (.vor t f)
  | 0x0A => .instr (.vxor t f)
  | 0x0B => .instr (.vandn t f)
  | 0x10 => .instr (.vshl t f)
  | 0x11 => .instr (.vshr t f)
  | 0x12 => .instr (.vsar t f)
  | 0x18 => .instr (.vmin t f)
  | 0x19 => .instr (.vmax t f)
  | 0x1A => .instr (.vminu t f)
  | 0x1B => .instr (.vmaxu t f)
  | _ => .illegal

/-- Compares and mask operations, major 0x26. -/
def decodeVcmp (t : TileId) (w : Nat) : Decoded :=
  let f := vrOf w (flagAt w 13)
  match fld w 7 6 with
  | 0x00 => .instr (.vfcmpeq t f)
  | 0x01 => .instr (.vfcmplt t f)
  | 0x02 => .instr (.vfcmple t f)
  | 0x03 => .instr (.vfcmpun t f)
  | 0x08 => .instr (.vcmpeq t f)
  | 0x09 => .instr (.vcmpne t f)
  | 0x0A => .instr (.vcmplt t f)
  | 0x0B => .instr (.vcmpltu t f)
  | 0x0C => .instr (.vcmple t f)
  | 0x0D => .instr (.vcmpleu t f)
  | 0x20 => .instr (.mand t f)
  | 0x21 => .instr (.mor t f)
  | 0x22 => .instr (.mxor t f)
  | 0x23 => .instr (.mandn t f)
  | 0x28 => .instr (.vpopc t f)
  | 0x29 => .instr (.vfirst t f)
  | _ => .illegal

/-- Reductions and permutes, major 0x27, which has no scalar bit. -/
def decodeVred (t : TileId) (w : Nat) : Decoded :=
  let f := vrOf w false
  match fld w 7 7 with
  | 0x00 => .instr (.vredsum t f)
  | 0x01 => .instr (.vredmin t f)
  | 0x02 => .instr (.vredmax t f)
  | 0x03 => .instr (.vredminu t f)
  | 0x04 => .instr (.vredmaxu t f)
  | 0x08 => .instr (.vfredsum t f)
  | 0x09 => .instr (.vfredmin t f)
  | 0x0A => .instr (.vfredmax t f)
  | 0x10 => .instr (.vslideup t f)
  | 0x11 => .instr (.vslidedown t f)
  | 0x12 => .instr (.vrgather t f)
  | 0x13 => .instr (.vmerge t f)
  | _ => .illegal

/-- Widening multiplies, dot products and moves, major 0x28. -/
def decodeVdot (t : TileId) (w : Nat) : Decoded :=
  let f := vrOf w false
  match fld w 7 7 with
  | 0x00 => .instr (.vwmul t f)
  | 0x01 => .instr (.vwmulu t f)
  | 0x02 => .instr (.vfwmul t f)
  | 0x08 => .instr (.vdotI8 t f)
  | 0x0A => .instr (.vdotE4m3 t f)
  | 0x0B => .instr (.vdotE4m3e5m2 t f)
  | 0x0C => .instr (.vdotE5m2e4m3 t f)
  | 0x0D => .instr (.vdotE5m2 t f)
  | 0x0E => .instr (.vdotB16 t f)
  | 0x0F => .instr (.vdotF16 t f)
  | 0x20 => .instr (.vmvVV t f)
  | 0x21 => .instr (.vmvVX t f)
  | 0x22 => .instr (.vmvXS t f)
  | 0x23 => .instr (.vid t f)
  | _ => .illegal

/-- Chain instructions, major 0x29 (R263). -/
def decodeChain (t : TileId) (w : Nat) : Decoded :=
  let f := vrOf w false
  match fld w 7 7 with
  | 0x00 => .instr (.cld t f)
  | 0x01 => .instr (.cst t f)
  | 0x02 => .instr (.cseed t f)
  | n => if n / 8 = 2 then .instr (.rownorm t f (BitVec.ofNat 3 (n % 8))) else .illegal

/-! ### The coprocessors of a tile (R288, R370) -/

def decodeCp0 (t : TileId) (w : Nat) : Decoded :=
  let f := lcOf w
  match lcFunc w with
  | 0x000 => .instr (.mcfg t f)
  | 0x001 => .instr (.mwld t f)
  | 0x002 => .instr (.mpass t f)
  | 0x003 => .instr (.mdrain t f)
  | 0x004 => .instr (.mlda t f)
  | 0x005 => .instr (.msync t f)
  | _ => .func10 0

def decodeCp1 (t : TileId) (w : Nat) : Decoded :=
  let f := lcOf w
  match lcFunc w with
  | 0x000 => .instr (.gput t f)
  | 0x001 => .instr (.gget t f)
  | 0x002 => .instr (.gdispatch t f)
  | 0x003 => .instr (.greturn t f)
  | 0x004 => .instr (.garm t f)
  | 0x005 => .instr (.gibgat t f)
  | 0x008 => .instr (.gallreduce t f)
  | 0x009 => .instr (.greducescatter t f)
  | 0x00A => .instr (.gallgather t f)
  | 0x00B => .instr (.galltoall t f)
  | 0x00C => .instr (.gbarrier t f)
  | 0x00D => .instr (.gjoin t f)
  | 0x010 => .instr (.gbeacon t f)
  | 0x011 => .instr (.gsync t f)
  | _ => .func10 1

/-- The majors that a tile implements and a service core does not (R63). -/
def decodeTile (t : TileId) (w : Nat) : Decoded :=
  match fld w 1 6 with
  | 0x20 => .instr (.vcfg t (liOf w))
  | 0x21 => if flagAt w 18 then .instr (.vst t (vmOf w)) else .instr (.vld t (vmOf w))
  | 0x22 => decodeVfp t w
  | 0x23 => decodeVfma t w false
  | 0x24 => decodeVfma t w true
  | 0x25 => decodeVint t w
  | 0x26 => decodeVcmp t w
  | 0x27 => decodeVred t w
  | 0x28 => decodeVdot t w
  | 0x29 => decodeChain t w
  | 0x2A => .instr (.vchain t (vfOf w false) (BitVec.ofNat 2 (fld w 7 2)))
  | 0x2B => .instr (.cmem t (vfOf w false) (BitVec.ofNat 2 (fld w 7 2)) none)
  | 0x38 => decodeCp0 t w
  | 0x39 => decodeCp1 t w
  | _ => .illegal

/-- A load or a store of layout LM (R75). -/
def loadOf (c : CoreId) (k : LdKind) (w : Nat) : Decoded :=
  .instr (.ld c (.long k (regAt w 27) (regAt w 22) (BitVec.ofNat 15 (fld w 7 15))))

def storeOf (c : CoreId) (k : StKind) (w : Nat) : Decoded :=
  .instr (.st c (.long k (regAt w 27) (regAt w 22) (BitVec.ofNat 15 (fld w 7 15))))

/-- A long form (R75). -/
def decodeLong (c : CoreId) (w : Nat) : Decoded :=
  match fld w 1 6 with
  | 0x01 => decodeAlu c w
  | 0x02 => .instr (.addi c (.long (liOf w)))
  | 0x03 => .instr (.andi c (liOf w))
  | 0x04 => .instr (.ori c (liOf w))
  | 0x05 => .instr (.xori c (liOf w))
  | 0x06 => decodeShift c w
  | 0x07 => .instr (.slti c (liOf w))
  | 0x08 => .instr (.sltiu c (liOf w))
  | 0x09 => .instr (.lui c (regAt w 27) (BitVec.ofNat 20 (fld w 7 20)))
  | 0x0A => .instr (.lsh c (regAt w 27) (BitVec.ofNat 20 (fld w 7 20)))
  | 0x0B => .instr (.jalr c (.long (liOf w)))
  | 0x0C => .instr (.zloop c (BitVec.ofNat 2 (fld w 30 2)) (regAt w 25) (BitVec.ofNat 18 (fld w 7 18)))
  | 0x0D => decodeString c false w
  | 0x0E => decodeSystem c w
  | 0x10 => loadOf c .b w
  | 0x11 => loadOf c .bu w
  | 0x12 => loadOf c .h w
  | 0x13 => loadOf c .hu w
  | 0x14 => loadOf c .w w
  | 0x15 => loadOf c .wu w
  | 0x16 => loadOf c .d w
  | 0x18 => storeOf c .b w
  | 0x19 => storeOf c .h w
  | 0x1A => storeOf c .w w
  | 0x1B => storeOf c .d w
  | 0x1C => decodeFence c w
  | 0x1D => decodeAtomic c w
  | 0x1E => .instr (.bcc c (.long (BitVec.ofNat 4 (fld w 28 4)) (BitVec.ofNat 21 (fld w 7 21))))
  | 0x1F => .instr (.jal c (BitVec.ofNat 25 (fld w 7 25)))
  | 0x3A => decodeCp2 c w
  | _ => match c with
    | .tile t => decodeTile t w
    | .svc _ => .illegal

/-! ### Length and word (R64, R72, R74, R95) -/

/-- The halfword of the rep prefix: op5 0x1F, sub 1, rs 0 (R73). -/
def repHalf : Nat := 0x083E

/-- A halfword begins a string instruction: major 0x0D. -/
def stringHalf (h : Nat) : Bool := fld h 0 7 = 2 * 0x0D + 1

/-- How many bytes tell what stands at the pc, once the halfwords `h0` and, after a rep prefix, `h1` are known. -/
def instrLength (h0 h1 : Nat) : Nat :=
  if h0 = repHalf then (if stringHalf h1 then 6 else 4) else if h0 % 2 = 1 then 4 else 2

/-- The instruction that the bytes of a length of `instrLength` spell. A rep prefix before anything but a string instruction is
illegal (R95). -/
def decodeInstr (c : CoreId) (bs : List Byte) : Decoded :=
  let w := ofBytes bs
  if bs.length = 6 then decodeString c true (w / 2 ^ 16)
  else if fld w 0 16 = repHalf then .illegal
  else if w % 2 = 1 then decodeLong c w
  else decodeShort c w

end Sys2Proof.Machine
end

