-- ==== Sys2Proof/Machine/Control.lean ====
section
/-! DEFINITION. Branches, jumps, hardware loops, and `ifl` (R71, R73, R75, R80, R86, R87, R107). -/

namespace Sys2Proof.Machine

open Sys2Proof

/-- A taken branch or jump occupies three steps (R709). -/
def jumpTo (s : State) (a : Word) : Effect := .ok { st := s, flow := .jump a, occ := 3 }

/-- A displacement in halfwords. -/
def half {n : Nat} (d : BitVec n) : Word := d.signExtend 64 <<< 1

def bccCond : BccForm → BitVec 4
  | .short c _ => c
  | .long c _ => c

def bccDisp : BccForm → Word
  | .short _ d => half d
  | .long _ d => half d

def bccLen : BccForm → Nat
  | .short _ _ => 2
  | .long _ _ => 4

def execBcc (c : CoreId) (f : BccForm) (s : State) : Result :=
  .next (issue c [] (bccLen f) (decide ((bccCond f).toNat < 14)) (fun s =>
    if condHolds (bccCond f) (s.core c).fl then jumpTo s (pcOf s c + bccDisp f) else done s) s [keyFl])

def execBr (c : CoreId) (imm : Imm10) (s : State) : Result :=
  .next (issue c [] 2 true (fun s => jumpTo s (pcOf s c + half imm)) s)

/-- `jal`: s30 is the link (R75). -/
def execJal (c : CoreId) (imm : Imm25) (s : State) : Result :=
  .next (issue c [] 4 true (fun s => jumpTo (s.setReg c 30 (pcOf s c + 4)) (pcOf s c + half imm)) s)

/-- `jalr`: the target is taken from the register before the link is written; F of the long form must be 0 (R76). -/
def execJalr (c : CoreId) (f : JalrForm) (s : State) : Result :=
  .next (match f with
    | .short rs => issue c [rs] 2 true (fun s => jumpTo (s.setReg c 30 (pcOf s c + 2)) (s.reg c rs)) s
    | .long f => issue c [f.rs1] 4 (!f.f) (fun s => jumpTo (s.setReg c f.rd (pcOf s c + 4)) (s.reg c f.rs1 + half f.imm)) s)

def execJr (c : CoreId) (rs : Reg) (s : State) : Result := .next (issue c [rs] 2 true (fun s => jumpTo s (s.reg c rs)) s)

/-- `ret`: rs must be 0 (R73). -/
def execRet (c : CoreId) (rs : Reg) (s : State) : Result :=
  .next (issue c [30] 2 (rs = 0) (fun s => jumpTo s (s.reg c 30)) s)

def execNop (c : CoreId) (rs : Reg) (s : State) : Result := .next (issue c [] 2 (rs = 0) done s)

/-- Length of the instruction whose first halfword is `h` (R70): a rep prefix and its string instruction are one of 6 (R95). -/
def halfLength (h : Nat) : Nat := if h % 2 = 1 then 4 else if h = repHalf then 6 else 2

/-- Length of the instruction at an address, which the fetch path reads (R87, R104). A halfword on another module, or one that
cannot be read, counts as a long form, without a fault and without a window check (DESIGN CHOICE: R87 does not say; log 95). -/
def lengthAt (s : State) (c : CoreId) (a : Word) : State × Nat :=
  match localAddr s a with
  | none => (s, 4)
  | some l => match icLine s c l with
    | (s, .ok d) => (s, halfLength (ofBytes (lineBytes d (l % 128) 2)))
    | (s, .error _) => (s, 4)

/-- `zloop` (R86, R87): LEi keeps bits [39:1]; with a count of 0 the body is skipped, which is a jump of its own, without a loop-end
test (DESIGN CHOICE: R88 does not say; log 95). -/
def execZloop (c : CoreId) (lp : LoopNo) (rs : Reg) (off : Imm18) (s : State) : Result :=
  .next (issue c [rs] 4 true (fun s =>
    let start := pcOf s c + 4
    let last := (start + (off.zeroExtend 64 <<< 1)) &&& 0xFFFFFFFFFE
    let n := s.reg c rs &&& 0xFFFFFFFF
    let s := s.updCore c fun k => { k with
      ls := aset 0 k.ls lp.toNat (start &&& 0xFFFFFFFFFE), le := aset 0 k.le lp.toNat last, lc := aset 0 k.lc lp.toNat n }
    if n = 0 then
      let r := lengthAt s c last
      jumpTo r.1 (last + BitVec.ofNat 64 r.2)
    else done s) s)

/-- Lines that hold a byte of the `n` bytes from `a` on, at least 1 (R84). -/
def iflLines (a : Word) (n : Nat) : Nat := if n = 0 then 1 else (wfld a 0 7 + n - 1) / 128 + 1

/-- `ifl` (R107): the earlier stores of the core are performed first; then the instruction cache, or its lines in the range, and the
fetch window are invalidated. -/
def execIfl (c : CoreId) (f : IflForm) (s : State) : Result :=
  .next (match f with
    | .short rs => issue c [] 2 (rs = 0) (fun s => doneOcc (iflAll (drainAll faddF32 s c) c) 12) s
    | .long f => issue c [f.rs1, f.rs2] 4 (f.rd = 0 && !f.f) (fun s =>
        let a := s.reg c f.rs1
        let n := (s.reg c f.rs2).toNat
        doneOcc (iflRange (drainAll faddF32 s c) c a n) (12 + (iflLines a n - 1))) s)

end Sys2Proof.Machine
end

