-- ==== Sys2Proof/Machine/System.lean ====
section
/-! DEFINITION. The system instructions, interrupts and the timers that are not waits (R82, R109 to R160). -/

namespace Sys2Proof.Machine

open Sys2Proof

/-- Kernel-only code (R110). -/
def needKernel (s : State) (c : CoreId) (e : Effect) : Effect :=
  if (s.core c).status.lvl then e else .error { code := cPriv }

/-- `mtsr` of register `n` (R82): effective from the next instruction. -/
def mtsrRun (c : CoreId) (n : Nat) (rs : Reg) (f : Bool) (s : State) : State :=
  issue c [rs] 4 (!f) (fun s =>
    match srFault (s.core c) (srClass c n) n true with
    | some t => .error t
    | none => match srWrite s c n (s.reg c rs) with
      | some s => doneOcc s 3
      | none => .error { code := cTimerBusy }) s

def execMfsr (c : CoreId) (rd : Reg) (sr : SrNo) (f : Bool) (s : State) : Result :=
  .next (issue c [] 4 (!f) (fun s =>
    match srFault (s.core c) (srClass c sr.toNat) sr.toNat false with
    | some t => .error t
    | none => done (s.setReg c rd (srRead s c sr.toNat))) s (if sr.toNat = 0 then [keyFl] else []))

def execMtsr (c : CoreId) (sr : SrNo) (rs : Reg) (f : Bool) (s : State) : Result := .next (mtsrRun c sr.toNat rs f s)

def execTileT0arm (c : CoreId) (rs : Reg) (s : State) : Result := .next (mtsrRun c 0x131 rs false s)
def execTileT0can (c : CoreId) (rs : Reg) (s : State) : Result := .next (mtsrRun c 0x132 rs false s)
def execTileProf (c : CoreId) (rs : Reg) (s : State) : Result := .next (mtsrRun c 0x139 rs false s)
def execTileT1ctl (c : CoreId) (rs : Reg) (s : State) : Result := .next (mtsrRun c 0x138 rs false s)
def execTileLsecnt (c : CoreId) (rs : Reg) (s : State) : Result := .next (mtsrRun c 0x10B rs false s)

/-- `mset` (R150, R151): rs2 selects only lvl and ml; the fetch window is discarded. -/
def execMset (c : CoreId) (f : LR) (s : State) : Result :=
  .next (issue c [f.rs1, f.rs2] 4 (!f.f) (fun s =>
    let m := s.reg c f.rs2
    let old := (s.core c).status
    let w := (old.word &&& ~~~m) ||| (s.reg c f.rs1 &&& m)
    if m &&& ~~~(0x71#64) ≠ 0 then illegal
    else needKernel s c (doneOcc ((s.updCore c fun k => { k with
      status := { old with ml := BitVec.ofNat 3 (wfld w 4 3), lvl := wbit w 0 }, fwin := none }).setReg c f.rd old.word) 3)) s)

/-- `trap` (R122): the saved address is the next instruction, and addr is rs1. -/
def execTrap (c : CoreId) (f : LR) (s : State) : Result :=
  .next (issue c [f.rs1] 4 (f.rd = 0 && f.rs2 = 0 && !f.f) (fun s =>
    .ok { st := s, flow := .trap { code := cTrap, addr := s.reg c f.rs1 } (pcOf s c + 4), occ := 1 }) s)

def noFields (f : LR) : Bool := f.rd = 0 && f.rs1 = 0 && f.rs2 = 0 && !f.f

/-- The frame that `eret` reads, or the fault of reading it (R129, R135). Data that cannot be read raise LOAD_BUS, MEM_UNCORR or
THERMAL_STOP as those of a load at s31 would (DESIGN CHOICE: R129 names no cause; log 92). -/
def eretRead (s : State) (c : CoreId) : State × Except Trap (List Byte) :=
  match eretFrame s c with
  | .bad => (s, .error { code := cEretFrame })
  | .bstk o => (s, .ok (readBytes (s.core c).bstk o 128))
  | .port l => match coreLoad s c l 128 with
    | (s, .ok bs) => (s, .ok bs)
    | (s, .error e) => (s, .error (accTrap cLoadBus e ((s.core c).reg 31)))

/-- What `eret` leaves: the restored core, and TILE_VSTART on a tile (R129). -/
def eretState (s : State) (c : CoreId) (bs : List Byte) : State :=
  let s := s.updCore c fun k => restored k bs
  match c with
  | .tile t => s.updVec t.val fun v => { v with vstart := wfld (frameWord bs 10) 0 15 }
  | .svc _ => s

/-- A fault that only Backstop serves: ERET_FRAME (R129, R134, R137). -/
def eretFail (s : State) (c : CoreId) : State :=
  let k := s.core c
  if k.status.bs then
    let w := causeWord { code := cEretFrame } 0 k.status.lvl
    haltReport (s.updCore c fun k => { k with ecause := w, eaddr := 0, run := .halted }) c
  else enterBackstop s c cEretFrame { code := cEretFrame } k.pc

def execEret (c : CoreId) (f : LR) (s : State) : Result :=
  .next (issue c [31] 4 (noFields f) (fun s =>
    needKernel s c (match eretRead s c with
      | (s', .ok bs) => .ok { st := eretState s' c bs, flow := .jump (frameWord bs 0), occ := 12 }
      | (s', .error t) => if t.code = cEretFrame then .ok { st := eretFail s c, flow := .stay, occ := 0 } else memFault s' c t)) s)

/-- `halt` (R130): issue stops until the front end restarts the tile. -/
def execHalt (c : CoreId) (f : LR) (s : State) : Result :=
  .next (issue c [] 4 (noFields f) (fun s =>
    needKernel s c (done (haltReport (s.updCore c fun k => { k with run := .halted }) c))) s)

/-! ### Interrupts (R133, R141 to R144, R210) -/

/-- The core stands at an entry point: it issues, or is parked on `waitq`; a Zaham-S core abandons a load it waits for. -/
def atEntry (s : State) (c : CoreId) : Bool :=
  let k := s.core c
  match k.run with
  | .parked _ => s.power = .run && (match c with | .tile t => !(s.tile t.val).paused && !(s.tile t.val).oos | .svc _ => true)
  | .running => match c with
    | .tile _ => coreReady s c
    | .svc _ => s.power = .run
  | _ => false

/-- Dispatched vector instructions that have not started are discarded: the oldest gives epc, TILE_VSTART and the loop counts, which
only completed instructions reduce (R88, R154, R210). -/
def discardVec (s : State) (t : Nat) : State × Word :=
  match (s.tile t).vec.vq with
  | [] => (s, (s.tile t).core.pc)
  | x :: _ =>
    ((s.updVec t fun v => { v with vq := [], vstart := x.vstart }).updCore (tcore t) fun k => { k with lc := x.lc }, x.pc)

/-- The highest pending, enabled and unmasked source is taken at an entry point, once the vector instructions that have started
have completed (R133, R140, R210). -/
def execInterrupt (c : CoreId) (s : State) : Result :=
  .next (if !atEntry s c then s
    else match bestSource s c with
      | none => s
      | some l => match c with
        | .tile t =>
          let q := completeRun (unpark s t.val) t.val
          if q.2 then q.1
          else let r := discardVec q.1 t.val; takeInterrupt r.1 c l r.2
        | .svc _ => takeInterrupt (s.updCore c fun k => { k with waitLoad := none }) c l (pcOf s c))

/-- A write through the mirror of R116 takes effect only while the tile's issue is stopped and no task runs on it: not while it is
paused for sounding, nor while it drains. -/
def mirrorWrite (s : State) (t : TileId) (n : Nat) (v : Word) : State :=
  let c : CoreId := .tile t
  let stopped := match (s.core c).run with | .halted | .idle | .held => true | _ => false
  let busy := (s.tile t.val).paused || (s.feTile t.val).state = .draining
  if stopped && !busy && decide (0x100 ≤ n) && srClass c n ≠ .none then
    match srWrite s c n v with
    | some s => s
    | none => s
  else s

def execSystemRegisterMirrorWrite (t : TileId) (sr : SrNo) (v : Word) (s : State) : Result :=
  .next (if s.power = .run && !(s.tile t.val).oos then mirrorWrite s t sr.toNat v else s)

/-! ### Sampler and watchdog (R159, R160) -/

/-- A sampler period ends (R159). -/
def execProf (c : CoreId) (s : State) : Result :=
  .next (
    let k := s.core c
    if s.power = .run && k.profEn && k.profPeriod ≠ 0 then
      if k.t0.any fun p => p.2.busy then s.setCore c { k with profMissed := sat32 k.profMissed 1 }
      else s.setCore c { k with ipProf := true }
    else s)

/-- Timer 1 expires (R160): WDOG becomes pending, or, when it still is, the tile halts with a report of cause WDOG, whose word,
pc and address are those of an entry there (log 98). -/
def execWdog (c : CoreId) (s : State) : Result :=
  .next (
    let k := s.core c
    if s.power = .run && k.t1en then
      let s := s.reach k.t1due
      let due := k.t1due + k.t1period.toNat * 1000
      if k.ipWdog then
        haltWith (s.setCore c { k with t1due := due, run := .halted }) c 0 k.pc
          (causeWord { code := 0x86, async := true } 0 k.status.lvl)
      else s.setCore c { k with ipWdog := true, t1due := due }
    else s)

/-! ### Pace and step counters (R42 to R44, R60) -/

/-- The pace monitors end a window: tile t takes count t, a tile without one keeps its reading (R42). -/
def paceTile (x : Tile) (n : BitVec 16) : Tile :=
  { x with
    paceCur := n
    paceMin := if n.toNat < x.paceMin.toNat then n else x.paceMin
    paceMax := if x.paceMax.toNat < n.toNat then n else x.paceMax }

/-- The slowest of a list of (tile, count), the lowest number when several tie. -/
def slowest : List (Nat × Nat) → Nat × Nat
  | [] => (0, 0)
  | p :: ps => ps.foldl (fun b q => if q.2 < b.2 then q else b) p

/-- MOD_PACESUM over the tiles in service (R44). -/
def paceSum (s : State) : Word :=
  let cs := s.liveTiles.map fun t => (t, (s.tile t).paceCur.toNat)
  if cs = [] then 0
  else
    let lo := slowest cs
    pack [(lo.1, 48), (lo.2, 32), (cs.foldl (fun m p => max m p.2) 0, 16), (cs.foldl (fun a p => a + p.2) 0 / cs.length, 0)]

def execPaceWindow (counts : List (BitVec 16)) (s : State) : Result :=
  .next (if s.power = .run then
      let s := ((List.range 256).zip counts).foldl (fun s p => s.updTile p.1 fun x => paceTile x p.2) s
      { s with pacesum := paceSum s }
    else s)

/-- A write of TILE_PACE (R42). -/
def paceClear (x : Tile) (v : Word) : Tile := if wbit v 48 then { x with paceMin := 0xFFFF, paceMax := 0 } else x

/-- A write of TILE_TCORR_CTL (R60). -/
def tcorr (s : State) (t : Nat) : State :=
  s.updTile t fun x => { x with tcorrSteps := x.core.steps, tcorrTime := BitVec.ofNat 64 s.time }

/-- A register write of a tile's block is taken only while the module runs and the tile is in service (R18). -/
def tileOn (s : State) (t : TileId) (r : State) : State := if s.power = .run && !(s.tile t.val).oos then r else s

def execTilePaceClr (t : TileId) (v : Word) (s : State) : Result :=
  .next (tileOn s t (s.updTile t.val fun x => paceClear x v))
def execTileTcorrCtl (t : TileId) (_v : Word) (s : State) : Result := .next (tileOn s t (tcorr s t.val))

end Sys2Proof.Machine
end

