-- ==== Sys2Proof/Machine/L1.lean ====
section
/-! DEFINITION. The L1 of a tile as commands of its own reach it (R325 to R337), and the cache instructions, fences and atomics of every core (R339 to R349). -/

namespace Sys2Proof.Machine

open Sys2Proof

/-! ### Line fills and prefetches (R329, R336, R337) -/

def execLineFill (t : TileId) (mr : Fin 128) (err : LineErr) (s : State) : Result :=
  .next (match afind (s.tile t.val).l1.miss mr.val with
    | none => s
    | some m =>
      if s.power ≠ .run then s
      else fillReturn (strikeLine (s.updL1 t.val fun x => { x with miss := adel x.miss mr.val }) m.line err) t.val m)

/-- The line a confirmed stream fetches next (R336). -/
def pfNext (p : PfStream) : Int := p.last + p.stride * ((p.ahead : Int) + 1)

/-- A line that a prefetch may fetch (R337). -/
def pfAllowed (s : State) (t : Nat) (l : Int) : Bool :=
  decide (0 ≤ l) && cacheable s (l.toNat * 128) &&
    ((s.tile t).core.status.lvl || taskPermitted s t (BitVec.ofNat 64 (l.toNat * 128)) rightR)

/-- The lowest free miss register (R329). -/
def freeMiss (x : L1) : Option Nat := (List.range 128).find? fun i => !ahas x.miss i

/-- A confirmed stream fetches its next line, once 16 miss registers are free (R336, R337). -/
def prefetchRun (s : State) (t st : Nat) : State :=
  let x := (s.tile t).l1
  match afind x.streams st with
  | none => s
  | some p =>
    if !x.pfen || !p.confirmed || decide (p.depth ≤ p.ahead) || decide (112 < x.miss.length) then s
    else
      let l := pfNext p
      let s := s.updL1 t fun x => { x with streams := aput x.streams st { p with ahead := p.ahead + 1 } }
      if !pfAllowed s t l || (l1Find x l.toNat).isSome || x.miss.any (fun m => m.2.line = l.toNat) then s
      else match freeMiss x with
        | none => s
        | some i => s.updL1 t fun x => { x with miss := aput x.miss i { line := l.toNat, key := p.key } }

def execPrefetch (t : TileId) (st : Fin 16) (s : State) : Result :=
  .next (if s.power = .run && !(s.tile t.val).oos then prefetchRun s t.val st.val else s)

/-! ### The way split (R325, R326) -/

/-- An inbox keeps scratch below `n` bytes from being given up (R326): its header or row area reaches `n`, and it is
enabled or holds a reserved slot that is not filled. -/
def inboxHolds (x : Inbox) (n : Nat) : Bool :=
  let hEnd := 16 * x.hdr + 16 * x.nslots
  let rEnd := 128 * x.rows + x.nslots * (128 * x.pitch)
  (decide (n < hEnd) || decide (n < rEnd)) && (x.en || x.granted ≠ [])

/-- A write of TILE_L1CFG (R325, R326). A change of sways waits in TILE_L1STAT.busy. -/
def l1cfgWrite (s : State) (t : Nat) (v : Word) : State :=
  let n := wfld v 0 4
  let x := (s.tile t).l1
  if n = 15 then s
  else if n < x.sways && (List.range 16).any fun i => inboxHolds (s.inbox t i) (32768 * n) then
    s.updL1 t fun x => { x with ibx := true }
  else s.updL1 t fun x => { x with
    stren := wbit v 7, pfen := wbit v 6, det := if wbit v 7 then x.det else {}
    change := if n = x.sways then none else some n
    changeBy := if n = x.sways then none else some (.tile (Fin.ofNat 256 t)) }

def l1cfgRead (x : L1) : Word := pack [(b2n x.stren, 7), (b2n x.pfen, 6), (x.sways, 0)]

/-- TILE_L1STAT (R338). -/
def l1stat (x : L1) : Word :=
  pack [(x.miss.length, 32), (b2n (decide (8 ≤ x.det.count)), 2), (b2n x.ibx, 1), (b2n x.change.isSome, 0)]

def execTileL1cfg (t : TileId) (v : Word) (task : Bool) (s : State) : Result :=
  .next (if task then s else tileOn s t (l1cfgWrite s t.val v))

/-- The array is idle and no mover queue has an active descriptor (R326). -/
def splitFree (x : Tile) : Bool :=
  x.mtx.queue = [] && x.mtx.passes = [] && x.mtx.ramp = .idle &&
    x.mov.all fun q => q.2.state = .idle || q.2.state = .halted

/-- Ways 16 - n to 15 - S become scratch (R326): dirty lines are written back, the ways invalidated; they read as zeros. -/
def growScratch (s : State) (t n : Nat) : State :=
  let old := (s.tile t).l1.sways
  let gone := fun (p : Nat × L1Line) => decide (16 - n ≤ p.1 % 16) && decide (p.1 % 16 < 16 - old)
  let s := ((s.tile t).l1.lines.filter gone).foldl (fun s p => victimWrite s t p.2) s
  s.updL1 t fun x => { x with lines := x.lines.filter fun p => !gone p, sways := n, change := none, changeBy := none }

/-- Scratch above n x 32 KiB is discarded (R326). -/
def shrinkScratch (s : State) (t n : Nat) : State :=
  s.updL1 t fun x => { x with
    scratch := x.scratch.filter fun p => decide (p.1 < 32768 * n)
    bad := x.bad.filter fun b => decide (b < 32768 * n), sways := n, change := none, changeBy := none }

/-- A Gallery write that was held back is performed. -/
def releaseHeld (t : Nat) (s : State) : HeldWrite → State
  | .row i slot hdr bs => tokenRow s t i slot hdr bs
  | .void i slot => voidSlot s t i slot
  | .remote src a add bs tag => remoteWrite s src a add bs tag
  | .response op off res => getArrives s t op off res

/-- The change of the split, once it may run; then the Gallery writes that were held back (R326). -/
def splitChange (s : State) (t n : Nat) : State :=
  let s := performHanded s t
  let s := if (s.tile t).l1.sways < n then growScratch s t n else shrinkScratch s t n
  (s.tile t).l1.held.foldl (releaseHeld t) (s.updL1 t fun x => { x with held := [] })

def execWaySplitChange (t : TileId) (s : State) : Result :=
  .next (match (s.tile t.val).l1.change with
    | none => s
    | some n => if s.power = .run && splitFree (s.tile t.val) then splitChange s t.val n else s)

/-! ### Fences (R345, R368) -/

/-- Every older write of the core is performed; the core waits while a remote store is not acknowledged. -/
def fenceRun (c : CoreId) (f : LR) (s : State) : State :=
  issue c [] 4 (noFields f) (fun s =>
    let s := drainWait s c
    if (s.core c).remote = [] then doneOcc s 2 else waitAt s c) s

def execFence (c : CoreId) (f : LR) (s : State) : Result := .next (fenceRun c f s)
def execFenceW (c : CoreId) (f : LR) (s : State) : Result := .next (fenceRun c f s)

/-! ### Cache instructions (R339 to R341) -/

/-- The line of an address, its first byte. -/
def lineStart (a : Word) : Word := a &&& ~~~(0x7F#64)

/-- 128 zero bytes as a buffered write (R340). -/
def zeroLine : List (Nat × Byte) := (List.range 128).map fun i => (i, 0)

/-- `dcz` (R340): a store of one line. -/
def execDcz (c : CoreId) (f : LR) (s : State) : Result :=
  .next (issue c [f.rs1] 4 (f.rd = 0 && f.rs2 = 0 && !f.f) (fun s =>
    let a := lineStart (s.reg c f.rs1)
    if !permitted s c a 128 rightW then .error { code := cStoreWin, addr := a }
    else if isRemote s a then .error { code := cLoadBus, addr := s.reg c f.rs1 }
    else
      let l := match localAddr s a with | some l => BitVec.ofNat 64 (canonAddr c l) | none => a
      done (bufferWrite faddF32 (bufferStall s c) c { addr := l, bytes := zeroLine, kind := .dcz })) s)

/-- Lines [a, a + n) touches, by their first bytes, at most `fuel`. -/
def rangeLines (a : Word) (n : Nat) : List Word :=
  if n = 0 then []
  else (List.range ((wfld a 0 7 + n - 1) / 128 + 1)).map fun i => lineStart a + BitVec.ofNat 64 (128 * i)

/-- The line that a cache instruction acts on (R341): module memory marked L1-cacheable. -/
def cacheLine (s : State) (a : Word) : Option Nat :=
  match localAddr s a with
  | some l => if l < 0xF000000000 && cacheable s l then some (l / 128) else none
  | none => none

/-- A line of the range is dirty in the L1, so that its write-back takes stall steps (R339). -/
def dirtyIn (s : State) (c : CoreId) (ls : List Word) : Bool :=
  match c with
  | .tile t => ls.any fun x => match cacheLine s x with
    | some l => (match l1Find (s.tile t.val).l1 l with | some (_, e) => e.dirty | none => false)
    | none => false
  | .svc _ => false

/-- `dcwb` and `dcinv` (R341). Older stores of the core reach their lines first (R345). -/
def dcRange (inval : Bool) (c : CoreId) (f : LR) (s : State) : State :=
  issue c [f.rs1, f.rs2] 4 (f.rd = 0 && !f.f) (fun s =>
    let a := s.reg c f.rs1
    let n := if f.rs2 = 0 then 1 else (s.reg c f.rs2).toNat
    let ls := rangeLines a n
    if 65536 < n then illegal
    else match ls.find? fun x => !permitted s c x 128 rightR with
      | some x => .error { code := cLoadWin, addr := x }
      | none =>
        if n ≠ 0 && (localAddr s a).isNone then .error { code := cLoadBus, addr := a }
        else
          let s := drainWait s c
          let s := if dirtyIn s c ls then addStall s c else s
          let act := fun (s : State) (l : Nat) => match c with
            | .tile t => if inval then l1Flush s t.val l else l1WriteBack s t.val l
            | .svc v =>
              if inval then dcDrop s v.val l else s
          doneOcc (ls.foldl (fun s x => match cacheLine s x with | some l => act s l | none => s) s) (2 + ls.length)) s

def execDcwb (c : CoreId) (f : LR) (s : State) : Result := .next (dcRange false c f s)
def execDcinv (c : CoreId) (f : LR) (s : State) : Result := .next (dcRange true c f s)

/-! ### Atomics (R342, R343) -/

/-- A local address lies in a register block. -/
def isReg (s : State) (c : CoreId) (l n : Nat) : Bool :=
  match target s (ownTile c) l n with | .reg _ => true | _ => false

/-- An atomic of `n` bytes at rs1: window, then misaligned, register block, place (R120, R323, R343); posted when rd is s0,
`amocas` excepted. -/
def amoRun (op : AmoOp) (c : CoreId) (n : Nat) (sext : Bool) (f : LR) (s : State) : State :=
  issue c [f.rs1, f.rs2, f.rd] 4 (!f.f) (fun s =>
    let a := s.reg c f.rs1
    let bus := fun (sub : Nat) => Except.error { code := cLoadBus, sub := sub, addr := a }
    match firstDenied (fun x m => permitted s c x m rightRW) a n with
    | some x => .error { code := cStoreWin, addr := x }
    | none =>
      if a.toNat % n ≠ 0 then bus 1
      else match localAddr s a with
        | none => bus 0
        | some l =>
          if isReg s c l n then bus 2
          else if f.rd = 0 && op ≠ .cas then
            done (bufferWrite faddF32 (bufferStall s c) c
              { addr := BitVec.ofNat 64 (canonAddr c l), bytes := [], kind := .amo op (n = 8) (s.reg c f.rs2) })
          else match amoAt faddF32 (drainWait s c) c l n op (s.reg c f.rs2).toNat (s.reg c f.rd).toNat with
            | (s, .error e) => memFault s c (accTrap cLoadBus e a)
            | (s, .ok old) => done (loadOwe (s.setReg c f.rd (extend sext (toBytes n old))) c f.rd false)) s

def amoBytes (d : Bool) : Nat := if d then 8 else 4

def execAmoadd (c : CoreId) (d : Bool) (f : LR) (s : State) : Result := .next (amoRun .add c (amoBytes d) true f s)
def execAmoswap (c : CoreId) (d : Bool) (f : LR) (s : State) : Result := .next (amoRun .swap c (amoBytes d) true f s)
def execAmocas (c : CoreId) (d : Bool) (f : LR) (s : State) : Result := .next (amoRun .cas c (amoBytes d) true f s)
def execAmomin (c : CoreId) (d : Bool) (f : LR) (s : State) : Result := .next (amoRun .min c (amoBytes d) true f s)
def execAmomax (c : CoreId) (d : Bool) (f : LR) (s : State) : Result := .next (amoRun .max c (amoBytes d) true f s)
def execAmofaddF32 (c : CoreId) (f : LR) (s : State) : Result := .next (amoRun .fadd c 4 false f s)

/-- The oldest entry of a service core's merging buffer drains (R349). -/
def execMergingBufferDrain (n : SvcId) (s : State) : Result :=
  .next (if s.power = .run then drainOne faddF32 s (.svc n) else s)

end Sys2Proof.Machine
end

