-- ==== Sys2Proof/Machine/MatrixOps.lean ====
section
/-! DEFINITION. Arithmetic of the matrix array (R223 to R230, R284 to R286): operand pairs and modes, the group sum of a K pass, and the split of F32. -/

namespace Sys2Proof.Machine

open Sys2Proof

/-! ### Configuration (R284 to R286) -/

def cfgA (c : Word) : Nat := wfld c 0 4
def cfgW (c : Word) : Nat := wfld c 4 4
def cfgPass (c : Word) : Nat := wfld c 8 2
def cfgRamp (c : Word) : Bool := wbit c 11

/-- The bits of MTX_CFG that `mcfg` writes (R285). -/
def cfgMask : Word := 0xBFF

/-- The operand pair and mpass are among those of R223 and R286. -/
def pairOk (c : Word) : Bool :=
  let a := cfgA c
  let w := cfgW c
  if cfgPass c ≠ 0 then a = 0 && w = 0
  else (a = 3 && w = 3) || (a = 2 && w = 2) || ((a = 4 || a = 5) && (w = 4 || w = 5)) || (a = 6 && (w = 6 || w = 12))

def isSplit (c : Word) : Bool := cfgA c = 0
def isInt8 (c : Word) : Bool := cfgA c = 6

/-- The 8-bit mode (R284). -/
def isMode8 (c : Word) : Bool := decide (4 ≤ cfgA c)

/-- Columns, bytes of an activation, bytes of a staging line, and bytes of a weight row (R284). -/
def mtxCols (c : Word) : Nat := if isMode8 c then 32 else 16
def mtxASize (c : Word) : Nat := fmtSize (cfgA c)
def mtxLine (c : Word) : Nat := 32 * mtxASize c
def mtxRowBytes (c : Word) : Nat := if cfgW c = 12 then 16 else if isSplit c then 64 else 32

/-! ### The group sum (R225, R226) -/

/-- floor(log2) of a nonzero number m x 2^e. -/
def topExp (m : Nat) (e : Int) : Int := e + (m.log2 : Nat)

/-- A product in units of q = 2^qe, truncated toward zero (R225). -/
def truncTo (qe : Int) (m : Nat) (e : Int) : Nat :=
  if qe ≤ e then m * 2 ^ (e - qe).toNat else m / 2 ^ (qe - e).toNat

/-- Nonzero finite products of a group. -/
def liveProducts (ps : List FVal) : List (Bool × Nat × Int) :=
  ps.filterMap fun p => match p with | .fin s m e => if m = 0 then none else some (s, m, e) | _ => none

/-- A + S, with S from nonzero finite products (R225). -/
def groupFinite (a : Nat) (av : FVal) (ps : List (Bool × Nat × Int)) : Nat :=
  match ps with
  | [] => a
  | p :: rest =>
    let qe := rest.foldl (fun x r => max x (topExp r.2.1 r.2.2)) (topExp p.2.1 p.2.2) - 27
    let ts := ps.map fun r => (r.1, truncTo qe r.2.1 r.2.2)
    let sum := ts.foldl (fun (x : Int) r => if r.1 then x - (r.2 : Nat) else x + (r.2 : Nat)) 0
    let negZero := ts.all fun r => r.1 && r.2 = 0
    if sum = 0 then (addVal f32 .rne av (.fin negZero 0 0)).1
    else (addVal f32 .rne av (.fin (decide (sum < 0)) sum.natAbs qe)).1

/-- The new F32 accumulator value of a group of exact products (R225, R226). -/
def mtxGroup (a : Nat) (ps : List FVal) : Nat :=
  let av := f32.val a
  if ps.all fun p => match p with | .fin _ m _ => m = 0 | _ => false then a
  else if av = .nan || ps.any fun p => p = .nan then f32.nan
  else
    let pos := ps.contains (.inf false)
    let neg := ps.contains (.inf true)
    if pos && neg then f32.nan
    else if pos || neg then (if av = .inf (!neg) then f32.nan else f32.inf neg)
    else match av with
      | .inf _ => a
      | _ => groupFinite a av (liveProducts ps)

/-- Exact products of an activation row and a weight column. -/
def mtxProducts (fa fw : Fmt) (as ws : List Nat) : List FVal :=
  (as.zip ws).map fun p => (mulVal (fa.val p.1) (fw.val p.2)).1

/-- The I32 accumulator value of a group of I8 products (R224). -/
def mtxInt (a : Nat) (as ws : List Nat) : Nat :=
  ofInt 32 ((as.zip ws).foldl (fun (x : Int) p => x + toInt 8 p.1 * toInt 8 p.2) (a : Nat))

/-! ### The split of F32 (R229, R230) -/

def splitHi (x : Nat) : Nat := match f32.val x with | .nan => 0x7FC0 | _ => x / 65536 % 65536

def splitLo (x : Nat) : Nat :=
  match f32.val x with
  | .fin _ _ _ => (fpCvt f32 b16 .rne (fpSub f32 .rne x (splitHi x * 65536)).1).1
  | _ => 0

def isSpecial (x : Nat) : Bool := match f32.val x with | .fin _ _ _ => false | _ => true

/-- Products of internal pass p of the split mode: hi hi, hi lo, lo hi; special values act in the first only (R228, R230). -/
def splitProducts (p : Nat) (as ws : List Nat) : List FVal :=
  (as.zip ws).map fun q =>
    if p ≠ 0 && (isSpecial q.1 || isSpecial q.2) then .fin false 0 0
    else
      let a := if p = 2 then splitLo q.1 else splitHi q.1
      let w := if p = 1 then splitLo q.2 else splitHi q.2
      (mulVal (b16.val a) (b16.val w)).1

/-- An accumulator element after one `mpass` row (R224, R225, R295, R296). -/
def mtxElem (c : Word) (a : Nat) (as ws : List Nat) : Nat :=
  if isInt8 c then mtxInt a as ws
  else if isSplit c then (List.range (cfgPass c)).foldl (fun a p => mtxGroup a (splitProducts p as ws)) a
  else mtxGroup a (mtxProducts (fmtCode (cfgA c)) (fmtCode (cfgW c)) as ws)

end Sys2Proof.Machine
end

