-- ==== Sys2Proof/Machine/Mover.lean ====
section
/-! DEFINITION. The mover (R350 to R364): queue registers, descriptors and their units, halts, resumes and completion. -/

namespace Sys2Proof.Machine

open Sys2Proof

/-! ### Descriptors (R355 to R358, R361) -/

/-- A descriptor's fields. -/
structure Desc where
  ctl : Nat
  src : Word
  dst : Word
  p0 : Word
  p1 : Word
  p2 : Word
  sigaddr : Word
  sigval : Word
  deriving DecidableEq, Repr

def descOf (bs : List Byte) : Desc :=
  { ctl := blkHalf bs 0, src := blkWord bs 0x08, dst := blkWord bs 0x10, p0 := blkWord bs 0x18, p1 := blkWord bs 0x20
    p2 := blkWord bs 0x28, sigaddr := blkWord bs 0x30, sigval := blkWord bs 0x38 }

def Desc.type (d : Desc) : Nat := fld d.ctl 28 4
def Desc.sig (d : Desc) : Bool := fld d.ctl 27 1 = 1
def Desc.sigadd (d : Desc) : Bool := fld d.ctl 26 1 = 1

/-- Bytes of an element of a SKEW, and of a staging line (R357). -/
def Desc.skSize (d : Desc) : Nat := 2 ^ wfld d.p0 16 2
def Desc.skLine (d : Desc) : Nat := 32 * d.skSize

/-- Number of units (R357). -/
def Desc.units (d : Desc) : Nat :=
  match d.type with
  | 0 | 5 => wfld d.p0 32 16 + 1
  | 1 => wfld d.p0 0 8 + 1
  | 2 | 3 => wfld d.p0 32 16 + 1
  | _ => (wfld d.p0 0 40 + 4095) / 4096

/-- Bytes written in all (R361). -/
def Desc.total (d : Desc) : Nat :=
  match d.type with
  | 0 => d.units * wfld d.p0 0 32
  | 1 => d.units * d.skLine
  | 2 | 3 => d.units * wfld d.p0 0 32
  | 4 => wfld d.p0 0 40
  | _ => d.units * wfld d.p0 0 32

/-- The parameters lie in their ranges, and what is reserved is 0 (R357). -/
def Desc.ok (d : Desc) : Bool :=
  fld d.ctl 0 26 = 0 &&
  match d.type with
  | 0 => wfld d.p0 48 16 = 0 && wfld d.p0 0 32 ≠ 0 && d.p2 = 0
  | 1 => wfld d.p0 18 46 = 0 && wfld d.p0 16 2 ≠ 3 && 1 ≤ wfld d.p0 8 8 && wfld d.p0 8 8 ≤ 32 && wfld d.p0 0 8 ≤ 127 &&
      wfld d.p1 32 32 = 0 && d.p2 = 0 && d.dst.toNat % d.skLine = 0
  | 2 | 3 => wfld d.p0 56 8 = 0 && wfld d.p0 48 6 = 0 && wfld d.p0 54 2 ≠ 3 && 1 ≤ wfld d.p0 0 32 && wfld d.p0 0 32 ≤ 1048576
  | 4 => 1 ≤ wfld d.p0 0 40 && wfld d.p0 0 40 ≤ 2 ^ 28 && wfld d.p0 40 24 = 0 && d.p2 = 0
  | 5 => wfld d.p0 48 16 = 0 && wfld d.p0 0 32 ≠ 0 && d.p2 = 0
  | _ => false

/-! ### One unit -/

/-- The index entry of unit i of a GATHER or SCATTER: address and bytes. -/
def idxEntry (d : Desc) (i : Nat) : Word × Nat :=
  let n := if wfld d.p0 54 2 = 2 then 8 else 4
  (d.p1 + BitVec.ofNat 64 (i * n), n)

/-- An index as an integer (R357). -/
def idxVal (d : Desc) (bs : List Byte) : Int :=
  match wfld d.p0 54 2 with
  | 0 => toInt 32 (ofBytes bs)
  | 1 => (ofBytes bs : Nat)
  | _ => toInt 64 (ofBytes bs)

/-- The bytes that unit i reads, for the index x. -/
def unitSrc (d : Desc) (i : Nat) (x : Int) : Option (Word × Nat) :=
  match d.type with
  | 0 => some (stepAddr d.src (toInt 32 (wfld d.p1 0 32)) i, wfld d.p0 0 32)
  | 1 => some (stepAddr d.src (wfld d.p1 0 32 : Nat) i, wfld d.p0 8 8 * d.skSize)
  | 2 => some (d.src + BitVec.ofInt 64 (x * d.p2.toInt), wfld d.p0 0 32)
  | 3 => some (d.src + BitVec.ofNat 64 (i * wfld d.p0 0 32), wfld d.p0 0 32)
  | 5 => some (stepAddr d.src (wfld d.p1 0 32 : Nat) i, (wfld d.p0 0 32 + 1) / 2)
  | _ => none

/-- The bytes that unit i writes. A SKEW row's positions lie along its diagonal (R292). -/
def unitDst (d : Desc) (i : Nat) (x : Int) : List (Word × Nat) :=
  match d.type with
  | 0 => [(stepAddr d.dst (toInt 32 (wfld d.p1 32 32)) i, wfld d.p0 0 32)]
  | 1 => (List.range 32).map fun k => (aliasAddr (d.dst.toNat + (i + k) * d.skLine + k * d.skSize), d.skSize)
  | 2 => [(d.dst + BitVec.ofNat 64 (i * wfld d.p0 0 32), wfld d.p0 0 32)]
  | 3 => [(d.dst + BitVec.ofInt 64 (x * d.p2.toInt), wfld d.p0 0 32)]
  | 4 => [(d.dst + BitVec.ofNat 64 (4096 * i), min 4096 (wfld d.p0 0 40 - 4096 * i))]
  | _ => [(stepAddr d.dst (wfld d.p1 32 32 : Nat) i, wfld d.p0 0 32)]

/-- The nibbles of a list of bytes as sign-extended bytes, low nibble first (R217). -/
def expandI4 : List Byte → List Byte
  | [] => []
  | b :: bs => (b.extractLsb' 0 4).signExtend 8 :: (b.extractLsb' 4 4).signExtend 8 :: expandI4 bs

/-- What the bytes read become at each place written. -/
def unitData (d : Desc) (dst : List (Word × Nat)) (bs : List Byte) : List (Word × List Byte) :=
  match d.type with
  | 1 =>
    ((List.range 32).zip dst).map fun p =>
      (p.2.1, if p.1 < wfld d.p0 8 8 then (bs.drop (p.1 * d.skSize)).take d.skSize else List.replicate d.skSize 0)
  | 4 => dst.map fun p => (p.1, List.replicate p.2 0)
  | 5 => dst.map fun p => (p.1, (expandI4 bs).take p.2)
  | _ => dst.map fun p => (p.1, bs)

/-- The fault code of a failed read (R359). -/
def movCode : AccErr → Nat
  | .bus => 8
  | .uncorr _ => 9
  | .thermal _ => 10

/-- The first byte outside the places of R358. -/
def badPlace (s : State) (t : Nat) (a : Word) (n : Nat) : Option Word := firstDenied (agentOk s t) a n

/-- The first byte that no window of task code grants. -/
def badWin (s : State) (t : Nat) (task : Bool) (a : Word) (n : Nat) (need : Rights) : Option Word :=
  if task then firstDenied (fun x _ => taskPermitted s t x need) a n else none

/-- A place, then a window: the code and the failing address. No write has a place in the graph region (R541). -/
def placeWin (s : State) (t : Nat) (task : Bool) (a : Word) (n : Nat) (need : Rights) (cp cw : Nat) : Option (Nat × Word) :=
  match badPlace s t a n with
  | some x => some (cp, x)
  | none =>
    if (need &&& rightW) ≠ 0 && hitsGraph s a n then some (cp, a) else (badWin s t task a n need).map fun x => (cw, x)

/-- A position of a SKEW row that lies outside the tile's own scratch (R288, R357): code and address. -/
def skewBad (s : State) (t : Nat) (d : Desc) (i : Nat) : Option (Nat × Word) :=
  if d.type ≠ 1 then none
  else ((List.range 32).map fun k => d.dst.toNat + (i + k) * d.skLine + k * d.skSize).findSome? fun o =>
    if o + d.skSize ≤ scratchBytes s t then none else some (6, aliasAddr o)

/-- 4 KiB boundaries strictly within `n` bytes at `a`. -/
def cuts (a n : Nat) : Nat := (a + n - 1) / 4096 - a / 4096

/-- Transactions of one run of bytes (R358): none crosses a 4 KiB boundary of its destination or of its source, whose `k` bytes
become `n`. -/
def xactsOf (dst n : Nat) (src : Option (Nat × Nat)) : Nat :=
  if n = 0 then 0
  else 1 + cuts dst n + (match src with
    | none => 0
    | some (a, k) => if (dst + (4096 - a % 4096) * ((n + k - 1) / max 1 k)) % 4096 = 0 then 0 else cuts a k)

/-- Transactions of a unit: a SKEW row is read in one run and written once in each 4 KiB that its diagonal touches. -/
def unitXacts (d : Desc) (dst : List (Word × Nat)) (src : Option (Word × Nat)) : Nat :=
  match d.type, dst.head?, dst.getLast? with
  | 1, some a, some b => 1 + cuts a.1.toNat (b.1.toNat + b.2 - a.1.toNat)
  | _, some a, _ => xactsOf a.1.toNat a.2 (src.map fun p => (p.1.toNat, p.2))
  | _, _, _ => 0

/-- Checks and reads of unit i in the order of R359: the writes to release and their transactions, or the code and the failing
address. -/
def runUnit (s : State) (t : Nat) (task : Bool) (d : Desc) (i : Nat) (fail : Option ReadFail) :
    State × Except (Nat × Word × Option AccErr) (List (Word × List Byte) × Nat) :=
  let indexed := d.type = 2 || d.type = 3
  let e := idxEntry d i
  let (s, ix) : State × Except Word Int :=
    if !indexed then (s, .ok 0)
    else match placeWin s t task e.1 e.2 rightR 7 7 with
      | some q => (s, .error q.2)
      | none => match agentRead s t e.1 e.2 with
        | (s, .ok bs) => (s, .ok (idxVal d bs))
        | (s, .error _) => (s, .error e.1)
  match ix with
  | .error a => (s, .error (7, a, none))
  | .ok x =>
    let src := unitSrc d i x
    let dst := unitDst d i x
    let sbad := match src with | some p => placeWin s t task p.1 p.2 rightR 5 3 | none => none
    match sbad with
    | some q => (s, .error (q.1, q.2, none))
    | none =>
      match (skewBad s t d i).or (dst.findSome? fun p => placeWin s t task p.1 p.2 rightW 6 4) with
      | some q => (s, .error (q.1, q.2, none))
      | none => match src with
        | none => (s, .ok (unitData d dst [], unitXacts d dst none))
        | some p => match fail with
          | some .bus => (s, .error (8, p.1, none))
          | some .uncorr => (s, .error (9, p.1, some (.uncorr 1)))
          | some .thermal => (s, .error (10, p.1, some (.thermal 0)))
          | none => match agentRead s t p.1 p.2 with
            | (s, .ok bs) => (s, .ok (unitData d dst bs, unitXacts d dst src))
            | (s, .error q) => (s, .error (movCode q.1, BitVec.ofNat 64 q.2, some q.1))

/-! ### The queue -/

def State.movq (s : State) (t q : Nat) : MovQ := (s.tile t).movq q
def State.updMovq (s : State) (t q : Nat) (f : MovQ → MovQ) : State := s.updTile t fun x => x.updMovq q f

def ringSize (m : MovQ) : Nat := 2 ^ (m.lsz + 2)

/-- The address of the descriptor at MOV_QHEAD. -/
def headAddr (m : MovQ) : Word := BitVec.ofNat 64 (m.base + 64 * m.head)

/-- Queues 0 to 2 belong to task code (R350). -/
def taskQ (q : Nat) : Bool := decide (q < 3)

/-- Released writes are performed (R359): the first that fails, with its unit and address. -/
def performRel (s : State) (t q : Nat) : State × Option (Nat × Nat × AccErr) :=
  let rel := match (s.movq t q).active with | some a => a.released | none => []
  let s := s.updMovq t q fun m => { m with active := m.active.map fun a => { a with released := [], xact := 0 } }
  rel.foldl (fun (acc : State × Option (Nat × Nat × AccErr)) w =>
    let (s, e) := agentWrite acc.1 t (BitVec.ofNat 64 w.2.1) w.2.2
    (s, match acc.2 with | some x => some x | none => e.map fun x => (w.1, x.2, x.1))) (s, none)

/-- The stat word of the descriptor at head is written (R356); whether that succeeded. -/
def writeStat (s : State) (t q : Nat) (stat : Nat) : State × Bool :=
  let a := headAddr (s.movq t q) + 4
  if (placeWin s t (taskQ q) a 4 rightW 2 2).isSome then (s, false)
  else match agentWrite s t a (toBytes 4 stat) with
    | (s, none) => (s, true)
    | (s, some _) => (s, false)

/-- A halt (R360): stat, MOV_QSTAT and MOV_QFADDR name the fault; the grant is released; UNCORR and THERMAL fail the running
command (R655). -/
def movHalt (s : State) (t q i code : Nat) (addr : Word) (late sigf : Bool) (e : Option AccErr) : State :=
  let s := (writeStat s t q (2 * 2 ^ 30 + b2n late * 2 ^ 29 + b2n sigf * 2 ^ 28 + code * 2 ^ 16 + i)).1
  let s := releaseGrant s (.mover t q)
  let s := s.updMovq t q fun m =>
    { m with state := .halted, idx := i, code := code, sigf := sigf, late := late, faddr := addr, active := none }
  match e with
  | some e => engineFail s t e addr.toNat
  | none => s

/-- The released writes are performed; a failure halts the queue with late set (R359). -/
def flushRel (s : State) (t q : Nat) : State × Bool :=
  match performRel s t q with
  | (s, none) => (s, true)
  | (s, some (u, a, e)) => (movHalt s t q u (movCode e) (BitVec.ofNat 64 a) true false (some e), false)

/-- The descriptor at head is read and checked, and becomes active at unit `i`, with a Lamp request where R361 asks for one.
`want` is the type that may start, none for a resume. -/
def movBegin (s : State) (t q : Nat) (want : Option Nat) (i : Nat) : State :=
  let a := headAddr (s.movq t q)
  let ring := fun (s : State) (e : Option AccErr) (x : Word) => movHalt s t q 0 2 x false false e
  match placeWin s t (taskQ q) a 64 rightR 2 2 with
  | some p => ring s none p.2
  | none => match agentRead s t a 64 with
    | (s, .error p) => ring s none (BitVec.ofNat 64 p.2)
    | (s, .ok bs) =>
      let d := descOf bs
      if (match want with | some w => d.type ≠ w && d.type ≤ 5 | none => false) then s
      else if !d.ok then movHalt s t q 0 1 a false false none
      else
        let need := decide (65536 ≤ d.total) && decide (i < d.units)
        let act : MovActive := { desc := bs, unit := i, grant := false, sigOnly := false, released := [] }
        let s := s.updMovq t q fun m => { m with state := if need then .waitGrant else .running, active := some act }
        if need then requestGrant s (.mover t q) 2 (some (dieOfTile t)) (rtTile s t) else s

/-- A descriptor starts when its queue is idle and not empty (R358, R359). -/
def movStart (t : TileId) (q : Fin 4) (ty : Nat) (s : State) : Result :=
  .next (
    let m := s.movq t.val q.val
    if s.power = .run && !(s.tile t.val).oos && m.state = .idle && m.head ≠ m.tail then movBegin s t.val q.val (some ty) 0 else s)

def execCopy (t : TileId) (q : Fin 4) (s : State) : Result := movStart t q 0 s
def execSkew (t : TileId) (q : Fin 4) (s : State) : Result := movStart t q 1 s
def execGather (t : TileId) (q : Fin 4) (s : State) : Result := movStart t q 2 s
def execScatter (t : TileId) (q : Fin 4) (s : State) : Result := movStart t q 3 s
def execZero (t : TileId) (q : Fin 4) (s : State) : Result := movStart t q 4 s
def execI4x (t : TileId) (q : Fin 4) (s : State) : Result := movStart t q 5 s

/-- The other queues of the tile leave a transaction free (R358). -/
def xactFree (s : State) (t q : Nat) : Bool :=
  decide ((((s.tile t).mov.filter fun p => p.1 ≠ q).map fun p => match p.2.active with | some a => a.xact | none => 0).sum < 128)

/-- The next unit's checks and reads (R359): its writes are released, or the queue halts at it. -/
def movUnit (s : State) (t q : Nat) (a : MovActive) (fail : Option ReadFail) : State :=
  let d := descOf a.desc
  match runUnit s t (taskQ q) d a.unit fail with
  | (s, .error (c, x, e)) =>
    let r := flushRel s t q
    if r.2 then movHalt r.1 t q a.unit c x false false e else r.1
  | (s, .ok ws) =>
    let r := flushRel s t q
    if r.2 then
      let rel := ws.1.map fun w => (a.unit, (match localAddr s w.1 with | some l => l | none => w.1.toNat), w.2)
      r.1.updMovq t q fun m => { m with active := some { a with unit := a.unit + 1, released := rel, xact := ws.2 } }
    else r.1

def execMoverUnitRead (t : TileId) (q : Fin 4) (fail : Option ReadFail) (s : State) : Result :=
  .next (
    let m := s.movq t.val q.val
    match m.state, m.active with
    | .running, some a =>
      if s.power = .run && !a.sigOnly && decide (a.unit < (descOf a.desc).units) && xactFree s t.val q.val then movUnit s t.val q.val a fail else s
    | _, _ => s)

/-- Head moves past the descriptor, and the queue can start the next (R363). -/
def movAdvance (s : State) (t q : Nat) : State :=
  (releaseGrant s (.mover t q)).updMovq t q fun m =>
    { m with head := (m.head + 1) % ringSize m, state := .idle, active := none }

/-- The completion of R363: every released write, then stat, then the signal, then head. -/
def movComplete (s : State) (t q : Nat) (d : Desc) : State :=
  let r := flushRel s t q
  if !r.2 then r.1
  else match writeStat r.1 t q (2 ^ 30) with
    | (s, false) => movHalt s t q 0 2 (headAddr (s.movq t q) + 4) false false none
    | (s, true) =>
      if !d.sig then movAdvance s t q
      else if wfld d.sigaddr 0 3 ≠ 0 then movHalt s t q 0 11 d.sigaddr false true none
      else match placeWin s t (taskQ q) d.sigaddr 8 (if d.sigadd then rightRW else rightW) 11 11 with
        | some p => movHalt s t q 0 11 p.2 false true none
        | none => match agentSignal s t d.sigaddr d.sigadd d.sigval with
          | (s, none) => movAdvance s t q
          | (s, some e) => movHalt s t q 0 11 (BitVec.ofNat 64 e.2) false true none

def execDescriptorCompletion (t : TileId) (q : Fin 4) (s : State) : Result :=
  .next (
    let m := s.movq t.val q.val
    match m.state, m.active with
    | .running, some a =>
      let d := descOf a.desc
      if s.power = .run && (a.sigOnly || decide (d.units ≤ a.unit)) then movComplete s t.val q.val d else s
    | _, _ => s)

/-- The code of a released write that fails: an uncorrectable fill is BUS to the mover (R481). -/
def lateCode : ReadFail → Nat
  | .thermal => 10
  | _ => 8

/-- The failure of a released write as an access failure. -/
def readFail : ReadFail → AccErr
  | .bus => .bus
  | .uncorr => .uncorr 1
  | .thermal => .thermal 0

/-- A released write fails at its target (R359): the bytes of its line are not written, the others are, and the queue halts
naming that unit, with late set. -/
def execMoverWriteFailure (t : TileId) (q : Fin 4) (unit : Nat) (why : ReadFail) (addr : Word) (s : State) : Result :=
  .next (
    match (s.movq t.val q.val).active with
    | none => s
    | some a =>
      let hit := fun (w : Nat × Nat × List Byte) =>
        w.1 = unit && decide (w.2.1 ≤ addr.toNat) && decide (addr.toNat < w.2.1 + w.2.2.length)
      if !(a.released.any hit) || s.power ≠ .run then s
      else
        let keep := a.released.flatMap fun w =>
          ((linesOf w.2.1 w.2.2).filter fun p => p.1 / 128 ≠ addr.toNat / 128).map fun p => (w.1, p.1, p.2)
        let s := s.updMovq t.val q.val fun m => { m with active := some { a with released := keep } }
        let s := (performRel s t.val q.val).1
        movHalt s t.val q.val unit (lateCode why) addr true false (some (readFail why)))

/-! ### Queue registers (R350 to R353) -/

/-- A write of MOV_QBASE (R351). -/
def qbaseWrite (m : MovQ) (v : Word) : MovQ :=
  if m.state ≠ .idle || 10 < wfld v 0 4 then m
  else { m with base := wfld v 8 32 * 256, lsz := wfld v 0 4, head := 0, tail := 0 }

/-- A write of MOV_QTAIL (R351). -/
def qtailWrite (m : MovQ) (v : Word) : MovQ :=
  if ringSize m ≤ wfld v 0 16 then { m with berr := true } else { m with tail := wfld v 0 16 }

/-- Reset of a queue (R352): writes already released still complete. -/
def qReset (s : State) (t q : Nat) : State :=
  let s := (performRel s t q).1
  (releaseGrant s (.mover t q)).updMovq t q fun m => { m with head := m.tail, state := .idle, active := none }

/-- Skip (R352): only in state halted. stat keeps the fault's fields, as MOV_QSTAT has them (R356). -/
def qSkip (s : State) (t q : Nat) : State :=
  let m := s.movq t q
  if m.state = .halted then
    movAdvance (writeStat s t q (3 * 2 ^ 30 + b2n m.late * 2 ^ 29 + b2n m.sigf * 2 ^ 28 + m.code * 2 ^ 16 + m.idx)).1 t q
  else s

/-- Resume (R352, R360): only in state halted. -/
def qResume (s : State) (t q : Nat) : State :=
  let m := s.movq t q
  if m.state ≠ .halted then s
  else if m.sigf then
    let a := headAddr m
    match placeWin s t (taskQ q) a 64 rightR 2 2 with
    | some p => movHalt s t q 0 2 p.2 false false none
    | none => match agentRead s t a 64 with
    | (s, .error p) => movHalt s t q 0 2 (BitVec.ofNat 64 p.2) false false none
    | (s, .ok bs) =>
      let act : MovActive := { desc := bs, unit := (descOf bs).units, grant := false, sigOnly := true, released := [] }
      s.updMovq t q fun m => { m with state := .running, active := some act }
  else movBegin s t q none m.idx

/-- A write of MOV_QCTL: more than one bit set is discarded (R352). -/
def qctlWrite (s : State) (t q : Nat) (v : Word) : State :=
  match wfld v 0 3 with
  | 1 => qResume s t q
  | 2 => qSkip s t q
  | 4 => qReset s t q
  | _ => s

/-- A register write of a tile's mover is taken while the module runs and the tile is in service (R18). -/
def movOn (s : State) (t : TileId) (r : State) : State := if s.power = .run && !(s.tile t.val).oos then r else s

def execMovQbase (t : TileId) (q : Fin 4) (v : Word) (s : State) : Result :=
  .next (movOn s t (s.updMovq t.val q.val fun m => qbaseWrite m v))
def execMovQtail (t : TileId) (q : Fin 4) (v : Word) (s : State) : Result :=
  .next (movOn s t (s.updMovq t.val q.val fun m => qtailWrite m v))
def execMovQctlReset (t : TileId) (q : Fin 4) (s : State) : Result := .next (movOn s t (qReset s t.val q.val))
def execMovQctlSkip (t : TileId) (q : Fin 4) (s : State) : Result := .next (movOn s t (qSkip s t.val q.val))
def execMovQctlResume (t : TileId) (q : Fin 4) (s : State) : Result := .next (movOn s t (qResume s t.val q.val))

/-- Tile reset of the mover (R364). -/
def movReset (s : State) (t : Nat) : State :=
  let s := (List.range 4).foldl (fun s q => qReset s t q) s
  s.updTile t fun x => { x with mov := [] }

end Sys2Proof.Machine
end

