-- ==== Sys2Proof/Machine/Matrix.lean ====
section
/-! DEFINITION. The matrix array cp0 (R284 to R321): issue checks, the queue, weight loads, passes, drains, ramp and grant, late errors, and tile reset. -/

namespace Sys2Proof.Machine

open Sys2Proof

def State.updMtx (s : State) (t : Nat) (f : Mtx → Mtx) : State := s.updTile t fun x => { x with mtx := f x.mtx }

/-! ### Issue checks (R286, R288, R294, R297 to R299, R311, R319) -/

/-- Fields of rs2 of `mpass` (R294). -/
def passM (w : Word) : Nat := wfld w 0 8
def passA (w : Word) : Nat := wfld w 8 2
def passB (w : Word) : Nat := wfld w 10 1
def passH (w : Word) : Bool := wbit w 11
def passZ (w : Word) : Bool := wbit w 12

/-- Accumulators that a pass writes (R295). -/
def passAccs (w : Word) : List Nat := (List.range ((passM w - 1) / 32 + 1)).map fun i => passA w + i

/-- Fields of rs2 of `mdrain` (R298). -/
def drainA (w : Word) : Nat := wfld w 0 2
def drainC (w : Word) : Nat := wfld w 2 2
def drainKind (w : Word) : Nat := wfld w 4 3
def drainVa (w : Word) : Reg := BitVec.ofNat 5 (wfld w 7 5)
def drainVb (w : Word) : Reg := BitVec.ofNat 5 (wfld w 12 5)
def drainPitch (w : Word) : Nat := wfld w 32 16

/-- Scratch offset `a` is aligned, and its `n` bytes are backed. -/
def offOk (s : State) (t : Nat) (a : Word) (align n : Nat) : Bool :=
  a.toNat % align = 0 && decide (a.toNat + n ≤ scratchBytes s t)

/-- A MEM destination (R299): its places, alignment, pitch and windows. -/
def memDestOk (s : State) (t : TileId) (a : Word) (pitch sz : Nat) : Bool :=
  let row := fun r => a + BitVec.ofNat 64 (r * pitch)
  let kind := fun (x : Word) => match localAddr s x with
    | none => 0
    | some l => match target s (some t.val) l 1 with | .mem _ => 1 | .scratch u _ => if u = t.val then 2 else 0 | _ => 0
  let rows := List.range 32
  kind a ≠ 0 && (rows.all fun r => (firstDenied (ownOk s t.val) (row r) (32 * sz)).isNone && kind (row r) = kind a) &&
    sz ≠ 0 && a.toNat % sz = 0 && pitch % sz = 0 && decide (32 * sz ≤ pitch) &&
    (rows.all fun r => (firstDenied (fun x m => permitted s (.tile t) x m rightW) (row r) (32 * sz)).isNone)

/-- The lowest failing code of R319 for a drain, 0 when all pass. -/
def drainCode (s : State) (t : TileId) (a w : Word) : Nat :=
  let x := s.tile t.val
  let p := progOf (chainBytes x.vec (drainC w))
  let k := drainKind w
  let sz := fmtSize p.of
  let grp := max 1 (sz / 2)
  let vd : Reg := BitVec.ofNat 5 (wfld a 0 5)
  let hit := fun (r : Reg) => overlaps vd grp r 1
  if wfld w 48 16 ≠ 0 || wfld w 17 15 ≠ 0 || (k ≠ 0 && drainPitch w ≠ 0) then 1
  else if k = 3 && (sz = 1 || sz = 2 || sz = 4) && !offOk s t.val a (32 * sz) (63 * 32 * sz) then 5
  else if (cform p .epilogue).isSome then 8
  else if k = 1 && (vd.toNat % grp ≠ 0 || hit (drainVa w) || hit (drainVb w)) then 9
  else if 4 ≤ k || (k = 0 && !memDestOk s t a (drainPitch w) sz) || (k = 3 && !(sz = 1 || sz = 2 || sz = 4)) then 10
  else if k = 2 && (pairBatch x.port).isNone then 11
  else 0

/-- The lowest failing code of R319 for a pass. -/
def passCode (s : State) (t : TileId) (a w : Word) : Nat :=
  let x := (s.tile t.val).mtx
  let c := x.cfgIssue
  if wfld w 13 51 ≠ 0 then 1
  else if passM w = 0 || 128 < passM w || 3 < passA w + (passM w - 1) / 32 || (passH w && isMode8 c) then 4
  else if !offOk s t.val a (mtxLine c) ((passM w + 31) * mtxLine c) then 5
  else if aget none x.wfmtIssue (passB w) ≠ some (BitVec.ofNat 4 (cfgW c)) then 6
  else if !passZ w && (passAccs w).any (fun i => aget false x.kindIssue i ≠ isInt8 c) then 7
  else 0

/-- The lowest failing code of R319; task level and the queue that owns the tile decide RAMP (R311). -/
def cp0Code (s : State) (t : TileId) (i : Instr) (f : LC) (a w : Word) : Nat :=
  let c := (s.tile t.val).mtx.cfgIssue
  match i with
  | .mcfg _ _ =>
    if f.rd ≠ 0 || f.rs2 ≠ 0 then 1
    else if !pairOk a then 2
    else if cfgRamp a && !(s.tile t.val).core.status.lvl && !rtTile s t.val then 3
    else 0
  | .mwld _ _ => if f.rd ≠ 0 || wfld w 1 63 ≠ 0 then 1 else if !offOk s t.val a 64 (32 * mtxRowBytes c) then 5 else 0
  | .mlda _ _ => if f.rd ≠ 0 || wfld w 3 61 ≠ 0 then 1 else if !offOk s t.val a 128 4096 then 5 else 0
  | .mpass _ _ => if f.rd ≠ 0 then 1 else passCode s t a w
  | .mdrain _ _ => if f.rd ≠ 0 then 1 else drainCode s t a w
  | _ => if f.rs1 ≠ 0 || f.rs2 ≠ 0 then 1 else 0

/-- What the issue logic tracks after an instruction (R319). -/
def trackIssue (x : Mtx) (i : Instr) (a w : Word) : Mtx :=
  match i with
  | .mcfg _ _ => { x with cfgIssue := a &&& cfgMask }
  | .mwld _ _ => { x with wfmtIssue := aput x.wfmtIssue (wfld w 0 1) (some (BitVec.ofNat 4 (cfgW x.cfgIssue))) }
  | .mpass _ _ =>
    if passZ w then { x with kindIssue := (passAccs w).foldl (fun m j => aset false m j (isInt8 x.cfgIssue)) x.kindIssue } else x
  | .mlda _ _ => { x with kindIssue := aset false x.kindIssue (wfld w 0 2) (wbit w 2) }
  | _ => x

/-- A GAL drain pairs with its batch (R404). -/
def pairDrain (x : Tile) (w : Word) : Tile × Option Nat × Nat :=
  if drainKind w ≠ 2 then (x, none, 0)
  else match pairBatch x.port with
    | none => (x, none, 0)
    | some b =>
      ({ x with port := { x.port with batches := x.port.batches.map fun y =>
          if y.id = b.id then { y with paired := y.paired + 1 } else y } }, some b.id, b.paired)

/-- A cp0 instruction enters the queue (R98, R287, R289). -/
def cp0Push (s : State) (t : TileId) (i : Instr) (f : LC) (a w : Word) : State :=
  let isDrain := match i with | .mdrain _ _ => true | _ => false
  let x := s.tile t.val
  let p := if isDrain then pairDrain x w else (x, none, 0)
  let e : Cp0Entry :=
    { instr := i, r1 := a, r2 := w, cfg := x.mtx.cfgIssue, prog := if isDrain then chainBytes x.vec (drainC w) else [],
      rd := f.rd, batch := p.2.1, col := p.2.2 }
  let x := p.1
  s.setTile t.val { x with mtx := trackIssue { x.mtx with queue := x.mtx.queue ++ [e] } i a w }

/-- A cp0 instruction at issue (R310, R319): it stalls while the queue holds 8, or while a pass waits for its grant. -/
def cp0Issue (t : TileId) (i : Instr) (f : LC) (s : State) : Result :=
  .next (
    let x := (s.tile t.val).mtx
    if 8 ≤ x.queue.length || x.waiting then waitStall s (.tile t)
    else issue (.tile t) [f.rs1, f.rs2] 4 true (fun s =>
      let a := s.reg (.tile t) f.rs1
      let w := s.reg (.tile t) f.rs2
      match cp0Code s t i f a w with
      | 0 => done (cp0Push s t i f a w)
      | n => .error { code := cCop, sub := 8 * n }) s)

def execMcfg (t : TileId) (f : LC) (s : State) : Result := cp0Issue t (.mcfg t f) f s
def execMwld (t : TileId) (f : LC) (s : State) : Result := cp0Issue t (.mwld t f) f s
def execMpass (t : TileId) (f : LC) (s : State) : Result := cp0Issue t (.mpass t f) f s
def execMdrain (t : TileId) (f : LC) (s : State) : Result := cp0Issue t (.mdrain t f) f s
def execMlda (t : TileId) (f : LC) (s : State) : Result := cp0Issue t (.mlda t f) f s
def execMsync (t : TileId) (f : LC) (s : State) : Result := cp0Issue t (.msync t f) f s

/-! ### Registers (R285, R316 to R318) -/

def rampCode : Ramp → Nat | .idle => 0 | .up => 1 | .active => 2 | .down => 3

def mtxStat (x : Mtx) : Word :=
  let k := (List.range 4).foldl (fun a i => a + b2n (aget false x.kind i) * 2 ^ i) 0
  pack [(k, 20), (rampCode x.ramp, 18), (b2n x.grant, 17), (b2n x.gcls, 16), (b2n (x.errKind ≠ 0), 11),
    (b2n (x.handed ≠ []), 10), (b2n x.feed, 9), (b2n x.wld, 8), (x.queue.length, 0)]

/-- A spare K-row that serves no logical row and stands in the inventory patrols (R315, R670). -/
def mtxPatrols (x : Mtx) : Bool := (x.s0.isNone && !x.s0bad) || (x.s1.isNone && !x.s1bad)

def mtxRows (x : Mtx) : Word :=
  pack [(x.shad1, 25), (x.shad0, 20), (b2n (mtxPatrols x), 19), (b2n x.s1.isSome, 15), (x.s1.getD 0, 10),
    (b2n x.s0.isSome, 9), (x.s0.getD 0, 4)]

def mtxErrClear (x : Mtx) : Mtx := { x with errKind := 0, errMore := 0, errAddr := 0 }

def execMtxErr (t : TileId) (_v : Word) (s : State) : Result :=
  .next (if s.power = .run && !(s.tile t.val).oos then s.updMtx t.val mtxErrClear else s)

/-! ### Loads of weights and accumulators (R290, R297) -/

/-- Scratch bytes of [a, a + n) whose read is uncorrectable (R333). -/
def badIn (s : State) (t a n : Nat) : Bool := (s.tile t).l1.bad.any fun b => decide (a ≤ b) && decide (b < a + n)

/-- The bytes of element (k, n) of a weight block: first byte and number; in I4 the byte that holds its nibble. -/
def wAt (c : Word) (a k n : Nat) : Nat × Nat :=
  if cfgW c = 12 then (a + 16 * k + n / 2, 1)
  else let z := fmtSize (cfgW c); (a + k * mtxRowBytes c + n * z, z)

/-- The value of a weight element as the buffer keeps it: I4 expanded to I8 (R217, R290). -/
def wVal (s : State) (t : Nat) (c : Word) (a k n : Nat) : Nat :=
  let p := wAt c a k n
  let x := ofBytes (readBytes (s.tile t).l1.scratch p.1 p.2)
  if cfgW c = 12 then ofInt 8 (toInt 4 (if n % 2 = 0 then x % 16 else x / 16)) else x

/-- A read error of the feeder or the loader among `n` bytes of scratch from `off` on, at the first byte that fails (R317); the first
of them where none is known to. -/
def feedErr (s : State) (t off n : Nat) : State :=
  let b := ((List.range n).find? fun j => (s.tile t).l1.bad.contains (off + j)).getD 0
  recordMtx s t 3 (.uncorr 3) (scratchAddr t (off + b))

/-- `mwld` runs: the block fills buffer b, and the patrolling spare takes its next shadow row (R290, R315). -/
def loadWeights (s : State) (t : Nat) (e : Cp0Entry) : State :=
  let a := e.r1.toNat
  let b := wfld e.r2 0 1
  let c := e.cfg
  let keys := (List.range 32).flatMap fun k => (List.range (mtxCols c)).map fun n => (k, n)
  let badRows := (List.range 32).filter fun k => badIn s t (a + k * mtxRowBytes c) (mtxRowBytes c)
  let bad := keys.filter fun q => let p := wAt c a q.1 q.2; badIn s t p.1 p.2
  let key := fun (q : Nat × Nat) => 1024 * b + 32 * q.1 + q.2
  let vals := keys.map fun q => (key q, BitVec.ofNat 32 (wVal s t c a q.1 q.2))
  let s := s.updMtx t fun x =>
    let x := { x with
      wbuf := vals.foldl (fun m p => aset 0 m p.1 p.2) x.wbuf
      wfmt := aput x.wfmt b (some (BitVec.ofNat 4 (cfgW c)))
      wbad := (x.wbad.filter fun i => i / 1024 ≠ b) ++ bad.map key }
    if mtxPatrols x then
      let x := { x with nextShad := (x.nextShad + 1) % 32, shad0 := if b = 0 then x.nextShad else x.shad0,
                        shad1 := if b = 1 then x.nextShad else x.shad1 }
      x
    else x
  badRows.foldl (fun s k => feedErr s t (a + k * mtxRowBytes c) (mtxRowBytes c)) s

/-- Accumulator elements become undefined: each takes a free value (R317, log 1). -/
def freeAccs (s : State) (t : Nat) (keys : List Nat) : State :=
  let s' := s.updMtx t fun x => { x with
    acc := (keys.zip (List.range keys.length)).foldl (fun m p => aset 0 m p.1 (Config.freeElem (s.free + p.2))) x.acc }
  { s' with free := s.free + keys.length }

/-- `mlda` runs (R297): bit for bit, an element whose read is uncorrectable undefined. -/
def loadAcc (s : State) (t : Nat) (e : Cp0Entry) : State :=
  let a := e.r1.toNat
  let i := wfld e.r2 0 2
  let els := List.range 1024
  let s := s.updMtx t fun x => { x with
    acc := els.foldl (fun m j => aset 0 m (1024 * i + j)
      (BitVec.ofNat 32 (ofBytes (readBytes (s.tile t).l1.scratch (a + 4 * j) 4)))) x.acc
    kind := aset false x.kind i (wbit e.r2 2) }
  let bad := els.filter fun j => badIn s t (a + 4 * j) 4
  let s := freeAccs s t (bad.map fun j => 1024 * i + j)
  ((List.range 32).filter fun r => badIn s t (a + 128 * r) 128).foldl (fun s r => feedErr s t (a + 128 * r) 128) s

/-! ### Passes (R293, R295, R296, R317) -/

/-- The activations of row m of a pass, from the diagonal of the staging block (R292). -/
def passRow (s : State) (t : Nat) (c : Word) (a m : Nat) : List Nat :=
  (List.range 32).map fun k => ofBytes (readBytes (s.tile t).l1.scratch (a + (m + k) * mtxLine c + k * mtxASize c) (mtxASize c))

/-- The weights of column n of a buffer. -/
def wCol (x : Mtx) (b n : Nat) : List Nat := (List.range 32).map fun k => (aget 0 x.wbuf (1024 * b + 32 * k + n)).toNat

/-- The accumulator element that row m and weight column n of a pass update (R295). -/
def passKey (w c : Word) (m n : Nat) : Nat :=
  1024 * (passA w + m / 32) + 32 * (m % 32) + (if isMode8 c then n else 16 * b2n (passH w) + n)

/-- A pass feeds: every row and column of it (R295). -/
def feedPass (s : State) (t : Nat) (e : Cp0Entry) : State :=
  let w := e.r2
  let c := e.cfg
  let cols := (List.range (mtxCols c)).map fun n => (n, wCol (s.tile t).mtx (passB w) n)
  let rows := (List.range (passM w)).map fun m => (m, passRow s t c e.r1.toNat m)
  s.updMtx t fun x =>
    let acc := rows.foldl (fun acc r => cols.foldl (fun acc q =>
      let k := passKey w c r.1 q.1
      let old := if passZ w then 0 else (aget 0 x.acc k).toNat
      aset 0 acc k (BitVec.ofNat 32 (mtxElem c old r.2 q.2))) acc) x.acc
    { x with acc := acc, kind := if passZ w then (passAccs w).foldl (fun m i => aset false m i (isInt8 c)) x.kind else x.kind }

/-- Elements of a pass that depend on a failed read: rows that take a bad line, and columns with a bad weight (R317). -/
def passBad (x : Mtx) (e : Cp0Entry) (lines : List Nat) : List Nat :=
  let w := e.r2
  let c := e.cfg
  let row := fun m => lines.any fun j => decide (m ≤ j) && decide (j ≤ m + 31)
  let col := fun n => (List.range 32).any fun k => x.wbad.contains (1024 * passB w + 32 * k + n)
  (List.range (passM w)).flatMap fun m => ((List.range (mtxCols c)).filter fun n => row m || col n).map fun n => passKey w c m n

/-- Active ends with no pass started (R307, R308): ramp-down, or idle directly under rampoff. -/
def endActive (s : State) (t : Nat) (rampoff : Bool) : State :=
  if (s.tile t).mtx.passes ≠ [] then s.updMtx t fun x => { x with ramp := .active }
  else if rampoff then s.updMtx t fun x => { x with ramp := .idle }
  else s.updMtx t fun x => { x with ramp := .down }

/-- The array is idle: with no pass in the queue it releases its grant (R310). -/
def idleRelease (s : State) (t : Nat) : State :=
  let x := (s.tile t).mtx
  if x.ramp = .idle && !(x.queue.any fun e => match e.instr with | .mpass _ _ => true | _ => false) then
    (releaseGrant s (.matrix t false)).updMtx t fun x => { x with grant := false, gcls := false, waiting := false }
  else s

/-- The oldest started pass feeds (R306): staging lines that could not be read are named, and a patrol mismatch. -/
def passFeed (s : State) (t : Nat) (badLines : List Nat) (mismatch : Bool) : State :=
  match (s.tile t).mtx.passes with
  | [] => s
  | e :: rest =>
    let s := performHanded s t
    let n := passM e.r2 + 31
    let line := mtxLine e.cfg
    let bad := (List.range n).filter fun j => badLines.contains j || badIn s t (e.r1.toNat + j * line) line
    let shad := if passB e.r2 = 0 then (s.tile t).mtx.shad0 else (s.tile t).mtx.shad1
    let s := if mismatch && mtxPatrols (s.tile t).mtx then
        patrolMismatch s (.krow (Fin.ofNat 256 t) (Fin.ofNat 32 shad)) else s
    let keys := passBad (s.tile t).mtx e bad
    let s := freeAccs (feedPass s t e) t keys
    let s := bad.foldl (fun s j => feedErr s t (e.r1.toNat + j * line) line) s
    s.updMtx t fun x => { x with passes := rest, feed := true, ramp := .active, rampUp := 0 }

/-- The last row of the started passes is written: active ends when no pass has started since (R307, R316). -/
def feedDone (s : State) (t : Nat) : State :=
  let x := (s.tile t).mtx
  if x.feed then
    let s := s.updMtx t fun x => { x with feed := false }
    if x.passes = [] then idleRelease (endActive s t (cfgRamp x.cfg)) t else s
  else s

/-- What of the array's own work ends as time passes: rows in flight are written, and a load has run (R307, R316). -/
def mtxTick (s : State) (t : Nat) : State := (feedDone s t).updMtx t fun x => { x with wld := false }

def execPassFeedStart (t : TileId) (badLines : List Nat) (mismatch : Bool) (s : State) : Result :=
  .next (if s.power = .run && !(s.tile t.val).oos then passFeed s t.val badLines mismatch else s)

/-- Thirty-two steps after active ends with no pass started, the array is idle (R307, R308). -/
def execRampDown (t : TileId) (s : State) : Result :=
  .next (
    let x := (s.tile t.val).mtx
    if s.power = .run && x.ramp = .down && x.passes = [] && !x.feed then
      idleRelease (s.updMtx t.val fun x => { x with ramp := .idle }) t.val
    else s)

/-! ### Drains (R273, R299 to R301) -/

/-- One accumulator element through the epilogue: output pattern, and the generators (R261, R273). -/
def drainElem (v : Vec) (x : Mtx) (e : Cp0Entry) (p : Prog) (g : SMap Word) (r c : Nat) : Nat × SMap Word :=
  let a := drainA e.r2
  let opnd := fun (reg : Reg) (fmt : Nat) (byRow : Bool) => regOpnd v reg fmt (if byRow then r else c)
  let inp : ChainIn :=
    { x := (if aget false x.kind a then 9 else 0, (aget 0 x.acc (1024 * a + 32 * r + c)).toNat)
      a := opnd (drainVa e.r2) p.af p.asel, b := opnd (drainVb e.r2) p.bf p.bsel }
  let k := genOf p (32 * r + c)
  let g0 := genGet g 33 k
  let q := chainElem p inp g0
  let o := chainOut p q.1 q.2
  (o.1, if o.2 = g0 then g else aput g k o.2)

/-- The outputs of a drain in row order, with the generators and the record of outputs after it (R234, R300). -/
def drainOuts (x : Tile) (e : Cp0Entry) : List Nat × SMap Word × Numerics :=
  let p := progOf e.prog
  let (d, num) := takeDrain x.num
  (List.range 1024).foldl (fun acc i =>
    let o := drainElem x.vec x.mtx e p acc.2.1 (i / 32) (i % 32)
    (acc.1 ++ [o.1], o.2, countOut acc.2.2 p.of d 0 (i / 32) (i % 32) o.1)) ([], x.vec.genD, num)

/-- Where the bytes of output (r, c) of a MEM or SKEW drain go (R299): a local address. -/
def drainAt (s : State) (t : Nat) (e : Cp0Entry) (sz r c : Nat) : Nat :=
  if drainKind e.r2 = 3 then scratchAddr t (e.r1.toNat + (r + c) * (32 * sz) + c * sz)
  else
    let a := e.r1 + BitVec.ofNat 64 (r * drainPitch e.r2 + c * sz)
    canonAddr (tcore t) ((localAddr s a).getD 0)

/-- The writes that a drain hands over (R301): a row of a MEM drain as one write per line, a SKEW element by itself. -/
def drainWritesOf (s : State) (t : Nat) (e : Cp0Entry) (sz : Nat) (outs : List Nat) : List (Nat × List Byte) :=
  let el := fun i => toBytes sz (outs.getD i 0)
  if drainKind e.r2 = 3 then (List.range 1024).map fun i => (drainAt s t e sz (i / 32) (i % 32), el i)
  else (List.range 32).flatMap fun r => linesOf (drainAt s t e sz r 0) ((List.range 32).flatMap fun c => el (32 * r + c))

/-- A drain runs: its outputs go where its kind says. -/
def runDrain (s : State) (t : Nat) (e : Cp0Entry) : State :=
  let (outs, g, num) := drainOuts (s.tile t) e
  let p := progOf e.prog
  let sz := fmtSize p.of
  let s := s.updTile t fun x => { x with num := num, vec := { x.vec with genD := g } }
  match drainKind e.r2 with
  | 1 => s.updVec t fun v => (List.range 1024).foldl (fun v i => v.setEl (BitVec.ofNat 5 (wfld e.r1 0 5)) sz i (outs.getD i 0)) v
  | 2 => match (s.tile t).port.batches.find? fun b => some b.id = e.batch with
    | none => s
    | some b => sendDrain s t b e.col p.of ((List.range 32).map fun r => (List.range 32).map fun c =>
        BitVec.ofNat 64 (outs.getD (32 * r + c) 0))
  | _ => s.updMtx t fun x => { x with handed := x.handed ++ drainWritesOf s t e sz outs }

/-! ### Starts (R289, R291, R297, R300, R302, R310) -/

/-- The grant a pass needs, in W, beyond what the array holds (R310, R642). -/
def passNeed (x : Mtx) (rampoff : Bool) : Nat :=
  if !x.grant then (if rampoff then 5 else 4) else if rampoff && !x.gcls then 1 else 0

/-- The conditions of the oldest queued instruction that do not concern grants: older passes that it must wait for. -/
def cp0Ready (x : Tile) (e : Cp0Entry) : Bool :=
  match e.instr with
  | .mwld _ _ => !(x.mtx.passes.any fun p => passB p.r2 = wfld e.r2 0 1)
  | .mlda _ _ => !(x.mtx.passes.any fun p => (passAccs p.r2).contains (wfld e.r2 0 2))
  | .mdrain _ _ =>
    !(x.mtx.passes.any fun p => (passAccs p.r2).contains (drainA e.r2)) &&
      (match e.batch with
        | some b => x.port.batches.any fun y => y.id = b && y.started
        | none => true)
  | .msync _ _ => x.mtx.passes = []
  | _ => true

/-- Ramp-up steps R of a pass that starts (R308): `step` is the step of a ramp-down in which it does. -/
def rampSteps (x : Mtx) (off : Bool) (step : Nat) : Nat :=
  if off then 0
  else match x.ramp with
    | .idle => 32
    | .down => 8 * (step / 8)
    | .up => x.rampUp
    | .active => 0

/-- A pass starts (R307, R308). How far a ramp-down has come is time, and a free value (log 42). -/
def startPass (s : State) (t : Nat) (e : Cp0Entry) (rest : List Cp0Entry) : State :=
  let step := (Config.freeWord s.free).toNat % 32
  let s := if (s.tile t).mtx.ramp = .down then s.tick else s
  s.updMtx t fun x =>
    let r := rampSteps x (cfgRamp e.cfg) step
    { x with queue := rest, passes := x.passes ++ [e], rampUp := r, ramp := if r = 0 then .active else .up }

/-- A pass takes its turn (R310): it starts with its grant, else requests it. -/
def turnPass (s : State) (t : Nat) (e : Cp0Entry) (rest : List Cp0Entry) : State :=
  let ro := cfgRamp e.cfg
  let need := passNeed (s.tile t).mtx ro
  if need = 0 then startPass s t e rest
  else if (s.tile t).mtx.waiting then s
  else
    let s := s.updMtx t fun x => { x with waiting := true }
    let s := requestGrant s (.matrix t ro) need (some (dieOfTile t)) (rtTile s t)
    if passNeed (s.tile t).mtx ro = 0 then startPass s t e rest else s

/-- The oldest queued instruction leaves the queue and starts (R289). -/
def cp0Start (s : State) (t : Nat) : State :=
  match (s.tile t).mtx.queue with
  | [] => s
  | e :: rest =>
    if !cp0Ready (s.tile t) e then s
    else
      let pop := fun (s : State) => s.updMtx t fun x => { x with queue := rest }
      let load := fun (s : State) => pop ((performHanded (mtxTick s t) t).updMtx t fun x => { x with wld := true })
      match e.instr with
      | .mcfg _ _ => (pop s).updMtx t fun x => { x with cfg := e.r1 &&& cfgMask }
      | .mwld _ _ => loadWeights (load s) t e
      | .mlda _ _ => loadAcc (load s) t e
      | .mpass _ _ => turnPass s t e rest
      | .mdrain _ _ => runDrain (pop (mtxTick s t)) t e
      | _ =>
        let s := pop (performHanded (mtxTick s t) t)
        s.setReg (tcore t) e.rd (mtxStat (s.tile t).mtx)

def execCp0Start (t : TileId) (s : State) : Result :=
  .next (if s.power = .run && !(s.tile t.val).oos then cp0Start s t.val else s)

/-- A drain that stands at the front of the queue starts (R300). -/
def execDrainStart (t : TileId) (s : State) : Result :=
  .next (match (s.tile t.val).mtx.queue with
    | e :: _ => match e.instr with
      | .mdrain _ _ => if s.power = .run && !(s.tile t.val).oos then cp0Start s t.val else s
      | _ => s
    | [] => s)

/-- A drain write that was handed over fails (R301): its line's bytes are not written, the others are, and it is recorded. -/
def execDrainWriteFailure (t : TileId) (why : ReadFail) (addr : Word) (s : State) : Result :=
  .next (
    let a := addr.toNat
    let hit := fun (w : Nat × List Byte) => decide (w.1 ≤ a) && decide (a < w.1 + w.2.length)
    if s.power ≠ .run || !((s.tile t.val).mtx.handed.any hit) then s
    else
      let s := s.updMtx t.val fun x => { x with handed := x.handed.filter fun w => !hit w }
      recordMtx (performHanded s t.val) t.val (drainErrKind (readFail why)) (readFail why) a)

/-! ### Tile reset (R320) -/

def mtxReset (s : State) (t : Nat) : State :=
  let s := releaseGrant (performHanded s t) (.matrix t false)
  s.updMtx t fun x =>
    { errKind := x.errKind, errMore := x.errMore, errAddr := x.errAddr, s0 := x.s0, s1 := x.s1, s0bad := x.s0bad,
      s1bad := x.s1bad, shad0 := x.shad0, shad1 := x.shad1, nextShad := x.nextShad, trims := x.trims }

end Sys2Proof.Machine
end

