-- ==== Sys2Proof/Machine/Stackmem.lean ====
section
/-! DEFINITION. Stacked memory's own events (R489 to R500): refresh, scrub, thermal bands, the retrain of a stopped stack, channel copies and folds, and its registers. -/

namespace Sys2Proof.Machine

open Sys2Proof

/-! ### Refresh and scrub (R489, R490) -/

/-- A due refresh occupies one bank for 120 ns (R489). -/
def execRefresh (k : StackNo) (ch : Fin 128) (bank : Fin 32) (s : State) : Result :=
  .next (if s.power = .run && !(s.stack k.val).stopped then
      s.updStack k.val fun x => { x with busy := aput x.busy (32 * ch.val + bank.val) (s.mono + 120) }
    else s)

/-- The scrub reads one line (R479, R486, R490, R658): a correctable line is rewritten, an uncorrectable one is logged. A line
that a slice holds is served from it. -/
def scrubLine (s : State) (l : Nat) : State :=
  match lineErr s l, place s (l * 128) with
  | none, some p => match sliceLine s p l with
    | some e => if e.bad then contError (noteUncorr s p l) (srcStack p.stack) 0x03 (l * 128) else s
    | none => restoreLine s p l
  | _, _ => s

def execScrub (line : Nat) (err : LineErr) (s : State) : Result :=
  .next (if s.power = .run then scrubLine (strikeLine s line err) line else s)

/-! ### Thermal bands (R491 to R493) -/

def bandCode : Band → Nat
  | .normal => 0
  | .warm => 1
  | .hot => 2
  | .critical => 3

/-- The band after a reading of `t` degrees (R491). -/
def nextBand (b : Band) (t : Nat) : Band :=
  if 105 < t then .critical
  else match b with
    | .normal => if 95 < t then .hot else if 85 < t then .warm else .normal
    | .warm => if 95 < t then .hot else if t ≤ 82 then .normal else .warm
    | .hot => if t ≤ 82 then .normal else if t ≤ 92 then .warm else .hot
    | .critical => .critical

/-- A stack changes its band, with a BAND entry (R491, R683). -/
def setBand (s : State) (k : Nat) (b : Band) (t : Nat) : State :=
  let old := (s.stack k).band
  if old = b then s
  else
    (logEntry s (srcStack k) 0x20 0 (t * 256 + bandCode old * 16 + bandCode b)).updStack k fun x => { x with band := b }

/-- A temperature reading (R491 to R493): the band, the stop of a stack, the retrain of a cooled one, and the fatal limit. -/
def thermal (s : State) (k t : Nat) : State :=
  let x := s.stack k
  let b := nextBand x.band t
  let s := s.updStack k fun x => { x with temp := t % 256 }
  if 115 < t then goFatal s fStackHeat
  else
    let s := setBand s k b t
    if b ≠ .critical then s
    else if !x.stopped then sendFails (s.updStack k fun x => { x with stopped := true, retraining := false })
    else s.updStack k fun x =>
      { x with retraining := if 105 < t then false else if t ≤ 102 then true else x.retraining }

def execThermalReading (k : StackNo) (temp : Nat) (s : State) : Result :=
  .next (if s.power = .run then thermal s k.val temp else s)

/-- A cooled stack has been retrained (R493): its held lines are written back, and it resumes in the Hot band. -/
def resumeStack (s : State) (k : Nat) : State :=
  let s := setBand s k .hot (s.stack k).temp
  let s := ((s.stack k).slices.flatMap fun p => p.2.sets.flatMap fun q => q.2).foldl writeBackLine s
  s.updStack k fun x => { x with
    stopped := false, retraining := false
    slices := x.slices.map fun p => (p.1, { p.2 with
      sets := p.2.sets.map fun q => (q.1, q.2.map fun e => { e with dirty := false }) }) }

def execStackRetrain (k : StackNo) (s : State) : Result :=
  .next (if s.power = .run && (s.stack k.val).stopped && (s.stack k.val).retraining then resumeStack s k.val else s)

/-! ### Channel copies and folds (R494 to R497) -/

/-- Structure ID of a physical channel (R682). -/
def chanId (k phys : Nat) : Nat := 7 * 2 ^ 60 + k * 2 ^ 48 + phys

/-- The lowest-numbered unspent spare channel (R496). -/
def freeSpareChan (x : Stack) : Option Nat := (List.range 4).find? fun j => !ahas x.chmap j && !x.badChans.contains j

/-- A channel copy completes (R495, R496): the spare serves the logical channel, with rows of its own, and holds every burst
after correction where correction is possible. -/
def channelCopied (s : State) (k ch j : Nat) : State :=
  let s := carryLines s fun p => p.stack = k && p.ch = ch
  let inCh := fun (key : Nat) => key / 2 ^ 32 = ch
  let old := chanId k (physChan s k ch)
  let s := s.updStack k fun x => { x with
    copy := none, chmap := aput x.chmap j ch
    rowSpares := x.rowSpares.filter fun p => p.1 / 32 ≠ ch, rowMap := x.rowMap.filter fun p => !inCh p.1 }
  repaired s (srcStack k) (chanId k (128 + j)) old 0x07 k ch (128 + j) 0

def execChannelCopy (k : StackNo) (s : State) : Result :=
  .next (match (s.stack k.val).copy with
    | some (.channel ch j) => if s.power = .run then channelCopied s k.val ch j else s
    | _ => s)

/-- A stack without the lines at or above line `l` in its slices. -/
def dropLines (l : Nat) (x : Stack) : Stack :=
  { x with slices := x.slices.map fun q =>
      (q.1, { q.2 with sets := q.2.sets.map fun r => (r.1, r.2.filter fun e => decide (e.line < l)) }) }

/-- A fold begins (R497): the highest 384 MiB leaves service at once, and its data is lost. -/
def foldStart (s : State) (k ch : Nat) : State :=
  let i := s.rep.folds.length
  let s := lostStruct s (srcStack k) (chanId k (physChan s k ch)) 0x08 k ch i
  let s := { s with
    memMib := s.memMib - 384
    rep := { s.rep with folds := s.rep.folds ++ [(k, ch)], foldDue := s.rep.foldDue.filter (· ≠ (k, ch)) } }
  let top := memTop s
  let s := { s with
    mem := s.mem.filter fun c => decide (c.1 < top)
    errs := s.errs.filter fun (p : Nat × PinErr) => decide (p.1 < top / 64)
    memStacks := s.memStacks.map fun (p : Nat × Stack) => (p.1, dropLines (top / 128) p.2) }
  s.updStack k fun x => { x with copy := some (.fold ch), chan := x.chan - 1 }

/-- A fold that R494 asks for begins once no copy runs on the stack and the fold table has room. -/
def execFold (k : StackNo) (ch : Fin 128) (s : State) : Result :=
  .next (if s.power = .run && s.rep.foldDue.contains (k.val, ch.val) && (s.stack k.val).copy.isNone && s.rep.folds.length < 8 then
      foldStart s k.val ch.val
    else s)

/-- The move of a fold ends (R497): its lines are read and written at their new places. -/
def execFoldMoveCompletion (k : StackNo) (s : State) : Result :=
  .next (match (s.stack k.val).copy with
    | some (.fold ch) =>
      if s.power = .run then
        let s := (aget {} (s.stack k.val).slices ch).sets.foldl (fun s q => q.2.foldl writeBackLine s) s
        let s := carryLines s fun p => p.stack = k.val && p.ch = ch
        s.updStack k.val fun x => { x with copy := none, slices := adel x.slices ch }
      else s
    | _ => s)

/-! ### Registers (R499, R500) -/

def memStat (x : Stack) : Word :=
  let b := fun (c : Bool) (i : Nat) => (b2n c, i)
  pack [(x.temp, 40), (x.chan, 24), (4 - x.chmap.length - x.badChans.length, 20), b x.copy.isSome 19, b x.ways 18, b x.stopped 2, (bandCode x.band, 0)]

def memEcc (x : Stack) : Word := pack [(x.corr, 32), (x.uncorr, 0)]

end Sys2Proof.Machine
end

