-- ==== Sys2Proof/Machine/TileReset.lean ====
section
/-! DEFINITION. Tile reset (R719), and the reset of a killed tile (R524). -/

namespace Sys2Proof.Machine

open Sys2Proof

/-- What tile reset leaves in the core (R719). A timer 0 entry that it frees keeps its last deadline (log 22). -/
def resetCore (k : Core) : Core :=
  { k with
    run := .idle, waitLoad := none, strData := [], status := {}, ipProf := false, ipFe := false, ipLst := false, ipWdog := false
    ien := 0, epc := 0, ecause := 0, eaddr := 0, lse := 0, lseKind := 0, lseMore := 0, pwinLo := [], pwinHi := []
    profEn := false, profPeriod := 0, profMissed := 0, t1en := false, t1period := 0, t1due := 0
    t0 := k.t0.map fun p => (p.1, { p.2 with busy := false, waitq := false, fired := false })
    fl := {}, ls := [], le := [], lc := [], hash := {}, icache := [], fwin := none, ready := [] }

/-- What tile reset leaves in the vector unit (R719, R262). -/
def resetVec (v : Vec) : Vec :=
  { v with
    vq := [], run := [], cfg := {}, vstart := 0, fltVt := 0, fltNr := false, fltKind := 0, genV := [], genD := [], cmemRuns := [] }

/-- A core that the reset takes from a wait at issue has spent stall steps in it (R36). -/
def endWait (s : State) (c : CoreId) : State := if issuing s c && held s c then addStall s c else s

/-- Tile reset (R719): writes already released are performed, the engines abandon their queues (R320, R364, R409). -/
def tileReset (s : State) (t : Nat) : State :=
  let s := drainAll faddF32 (unpark (endWait s (tcore t)) t) (tcore t)
  let s := portReset (movReset (mtxReset s t) t) t
  s.updTile t fun x => { x with core := resetCore x.core, vec := resetVec x.vec, ending := none }

/-- A killed tile: reset, its L1 invalidated and its dirty lines discarded, its scratch unchanged (R524). -/
def killReset (s : State) (t : Nat) : State :=
  (tileReset s t).updL1 t fun x => { x with lines := [], badLines := [] }

end Sys2Proof.Machine
end

