-- ==== Sys2Proof/Machine/FeOps.lean ====
section
/-! DEFINITION. The front end's records, handles and launch descriptors (R509 to R518). -/

namespace Sys2Proof.Machine

open Sys2Proof

/-! ### Failures (R512) -/

/-- A failure of a command: code, detail and fault record. -/
structure Fail where
  code : BitVec 8
  detail : BitVec 16 := 0
  fa : Word := 0
  fr : Word := 0
  fv : Word := 0
  deriving DecidableEq, Repr

def fDesc (field : Nat) : Fail := { code := 1, detail := BitVec.ofNat 16 field }
def fRing : Fail := { code := 2 }
def fTile (t : Nat) : Fail := { code := 5, detail := BitVec.ofNat 16 t }
def fBusy : Fail := { code := 6 }
def fGraph : Fail := { code := 17 }

def srcFe (q : Nat) : BitVec 16 := logSrc 5 q

/-- A read by the front end at an address (R515, R655): a bus error gives `onBus`, uncorrectable data UNCORR, a stopped stack
THERMAL. -/
def feRead (s : State) (q a n : Nat) (onBus : Fail) : State × Except Fail (List Byte) :=
  match busRead s none a n with
  | (s, .ok bs) => (s, .ok bs)
  | (s, .error (.bus, _)) => (s, .error onBus)
  | (s, .error (.uncorr _, x)) => (contError s (srcFe q) 0x02 x, .error { code := 13 })
  | (s, .error (.thermal _, _)) => (s, .error { code := 14 })

/-- What a write or an add by the front end that failed gives its command (R481, R515). -/
def feWriteFail (onBus : Fail) : AccErr → Fail
  | .bus => onBus
  | .uncorr _ => { code := 13 }
  | .thermal _ => { code := 14 }

/-! ### Records (R509, R511) -/

def recOp (bs : List Byte) : Nat := fld (blkHalf bs 0) 24 8
def recTmo (bs : List Byte) : Nat := fld (blkHalf bs 0) 16 5
def recBit (bs : List Byte) (i : Nat) : Bool := fld (blkHalf bs 0) i 1 = 1
def recIdem (bs : List Byte) : Bool := recBit bs 15
def recCont (bs : List Byte) : Bool := recBit bs 14
def recNtfy (bs : List Byte) : Bool := recBit bs 13

/-- The bits that an opcode uses of the operand doublewords 0x10 to 0x38 (R511); none for an opcode that is not listed. -/
def recMasks : Nat → Option (List Word)
  | 0 => some [0, 0, 0, 0, 0, 0]
  | 1 => some [BitVec.allOnes 64, 0x1FFFF, 0, 0, 0, 0]
  | 2 => some [BitVec.allOnes 64, 0x1FFFF, 0, 0, 0, 0]
  | 3 => some [0, 0x1FFFF, 0, 0, 0, 0]
  | 4 => some [0xF1F, 0, BitVec.allOnes 64, BitVec.allOnes 64, BitVec.allOnes 64, BitVec.allOnes 64]
  | 5 => some [BitVec.allOnes 64, BitVec.allOnes 64, 0, 0, 0, 0]
  | 6 => some [BitVec.allOnes 64, BitVec.allOnes 64, 1, 0, 0, 0]
  | 7 => some [0x8FFF00FF, BitVec.allOnes 64, 0xFFFFFFFF, 0, 0, 0]
  | 8 => some [0xFF, 0, 0, 0, 0, 0]
  | 9 => some [0x0FFF00FF, BitVec.allOnes 64, 0, 0, 0, 0]
  | 10 => some [1, 0x1FFFF, 0, 0, 0, 0]
  | _ => none

/-- The first field of a record that is malformed: an opcode that is not listed, a reserved bit, or an operand bit that the
opcode does not use (R509, R511). -/
def recReserved (bs : List Byte) : Option Nat :=
  match recMasks (recOp bs) with
  | none => some 0
  | some ms =>
    if fld (blkHalf bs 0) 21 3 ≠ 0 || fld (blkHalf bs 0) 0 13 ≠ 0 then some 0
    else ((List.range 6).find? fun i => (blkWord bs (0x10 + 8 * i) &&& ~~~(ms.getD i 0)) ≠ 0).map fun i => 0x10 + 8 * i

/-- The gated feature of an opcode (R603). -/
def recFeat : Nat → Option Nat
  | 2 => some 17
  | 3 => some 17
  | 4 => some 17
  | 7 => some 16
  | 8 => some 16
  | 9 => some 16
  | 10 => some 18
  | _ => none

/-- A record that fails with DESC before anything else (R509, R511, R523, R605). -/
def recErr (feat : BitVec 256) (bs : List Byte) : Option Nat :=
  if (match recFeat (recOp bs) with | some b => !feat.getLsbD b | none => false) then some 0
  else match recReserved bs with
    | some f => some f
    | none => if 26 < recTmo bs then some 0 else none

/-- The limit of a record in ns (R505, R523). -/
def recLimit (dtmo : Nat) (bs : List Byte) : Nat := (if recTmo bs = 0 then dtmo else 2 ^ recTmo bs) * 1000

/-- A tile set: first tile and count (R511). -/
def recSet (bs : List Byte) : Nat × Nat := (wfld (blkWord bs 0x18) 0 8, wfld (blkWord bs 0x18) 8 9)

def setTiles (p : Nat × Nat) : List Nat := (List.range p.2).map fun i => p.1 + i

/-- A tile set is well formed, with count 0 where `zero` permits it (R511). -/
def setOk (p : Nat × Nat) (zero : Bool) : Bool := (zero || p.2 ≠ 0) && decide (p.1 + p.2 ≤ 256)

/-- A tile of a set that is out of service (R512, R522). -/
def setOut (s : State) (p : Nat × Nat) : Option Nat := (setTiles p).find? fun t => (s.tile t).oos

/-! ### Handles (R513 to R516) -/

/-- A handle entry: base, length, and rights r = 1, w = 2, x = 4. -/
structure Entry where
  base : Nat
  length : Nat
  rights : Rights
  deriving DecidableEq, Repr

/-- The entry of a handle (R513, R515): `bad` when the handle is null, not valid, or its entry has a reserved bit. -/
def handleEntry (s : State) (q h : Nat) (bad : Fail) : State × Except Fail Entry :=
  if h = 0 then (s, .error bad)
  else match feRead s q (s.fe.htbase + 16 * h) 16 bad with
    | (s, .error f) => (s, .error f)
    | (s, .ok bs) =>
      let a := blkWord bs 0
      let b := blkWord bs 8
      if !wbit b 63 || wfld a 40 24 ≠ 0 || wfld b 40 20 ≠ 0 || wfld b 0 40 = 0 then (s, .error bad)
      else (s, .ok { base := wfld a 0 40, length := wfld b 0 40, rights := BitVec.ofNat 3 (wfld b 60 3) })

/-- The failure of a reference in a field: HANDLE, or PERM with the same record (R512). -/
def refFail (ref : Word) (field : Nat) : Fail :=
  { code := 3, detail := BitVec.ofNat 16 (wfld ref 48 16), fa := ref, fr := BitVec.ofNat 64 field }

/-- Relocation of a reference for `n` bytes and a set of rights (R515). -/
def relocate (s : State) (q : Nat) (ref : Word) (n : Nat) (need : Rights) (field : Nat) : State × Except Fail Word :=
  let bad := refFail ref field
  if wfld ref 40 8 ≠ 0 then (s, .error bad)
  else match handleEntry s q (wfld ref 48 16) bad with
    | (s, .error f) => (s, .error f)
    | (s, .ok e) =>
      if e.length < wfld ref 0 40 + n then (s, .error bad)
      else if (e.rights &&& need) ≠ need then (s, .error { bad with code := 4 })
      else (s, .ok (BitVec.ofNat 64 (e.base + wfld ref 0 40)))

/-- Relocation of the doublewords that a bit map names, with s = 0 and no rights (R516); the field offset of doubleword i is
`field + 8 i`. -/
def relocWords (s : State) (q : Nat) (map : Word) (field : Nat) : Nat → List Word → State × Except Fail (List Word)
  | _, [] => (s, .ok [])
  | i, w :: ws =>
    let r := if wbit map i then relocate s q w 0 0 (field + 8 * i) else (s, .ok w)
    match r with
    | (s, .error f) => (s, .error f)
    | (s, .ok v) => match relocWords s q map field (i + 1) ws with
      | (s, .error f) => (s, .error f)
      | (s, .ok vs) => (s, .ok (v :: vs))

/-- Doublewords of a list of bytes. -/
def wordsOf (bs : List Byte) : List Word := (List.range (bs.length / 8)).map fun i => blkWord bs (8 * i)

def bytesOf (ws : List Word) : List Byte := ws.flatMap fun w => toBytes 8 w.toNat

/-! ### Launch descriptors (R517, R518) -/

/-- TILE_PWINi from window i of a descriptor (R114, R518). -/
def kernelWin (s : State) (q i : Nat) (w : Word) : State × Except Fail (Word × Word) :=
  let bad : Fail := { code := 3, detail := BitVec.ofNat 16 (wfld w 0 16), fa := w, fr := BitVec.ofNat 64 (0x40 + 8 * i) }
  if !wbit w 20 then (s, .ok (0, 0))
  else match handleEntry s q (wfld w 0 16) bad with
    | (s, .error f) => (s, .error f)
    | (s, .ok e) =>
      let need : Rights := BitVec.ofNat 3 (wfld w 16 3)
      if e.base % 128 ≠ 0 || e.length % 128 ≠ 0 then (s, .error bad)
      else if (e.rights &&& need) ≠ need then (s, .error { bad with code := 4 })
      else (s, .ok (BitVec.ofNat 64 (e.base + need.toNat + 8 + 16 * wfld w 19 1),
        BitVec.ofNat 64 ((e.base + e.length - 1) / 128 * 128)))

def kernelWins (s : State) (q : Nat) (d : List Byte) : List Nat → State × Except Fail (List (Word × Word))
  | [] => (s, .ok [])
  | i :: is => match kernelWin s q i (blkWord d (0x40 + 8 * i)) with
    | (s, .error f) => (s, .error f)
    | (s, .ok w) => match kernelWins s q d is with
      | (s, .error f) => (s, .error f)
      | (s, .ok ws) => (s, .ok (w :: ws))

/-- An address lies in a window that grants x (R518). -/
def winX (ws : List (Word × Word)) (a : Word) : Bool :=
  ws.any fun w => wbit w.1 3 && wbit w.1 2 && decide (wfld w.1 7 33 ≤ wfld a 7 33) && decide (wfld a 7 33 ≤ wfld w.2 7 33)

/-- The first field of a descriptor that is malformed (R517, R518). -/
def descErr (d : List Byte) : Option Nat :=
  let p0 := blkWord d 0x18
  let sways := wfld p0 0 4
  let arg := wfld p0 16 10
  let stride := wfld p0 32 32
  if wfld p0 4 12 ≠ 0 || wfld p0 26 6 ≠ 0 || sways = 15 || 64 < arg || stride < 128 || stride % 128 ≠ 0 || sways * 32768 < arg * 8 then
    some 0x18
  else match ([0x28, 0x30, 0x38] ++ (List.range 8).map fun i => 0x140 + 8 * i).find? fun o => blkWord d o ≠ 0 with
    | some o => some o
    | none => ((List.range 16).find? fun i => wfld (blkWord d (0x40 + 8 * i)) 21 43 ≠ 0).map fun i => 0x40 + 8 * i

/-- The arguments of a kernel, relocated (R516, R517). -/
def kernelArgs (s : State) (q : Nat) (d : List Byte) : State × Except Fail (List Byte) :=
  let n := 8 * wfld (blkWord d 0x18) 16 10
  if n = 0 then (s, .ok [])
  else
    let ref := blkWord d 0x08
    match relocate s q ref n rightR 0x08 with
    | (s, .error f) => (s, .error f)
    | (s, .ok a) => match feRead s q a.toNat n (refFail ref 0x08) with
      | (s, .error f) => (s, .error f)
      | (s, .ok bs) => match relocWords s q (blkWord d 0x20) 0 0 (wordsOf bs) with
        | (s, .error f) => (s, .error f)
        | (s, .ok ws) => (s, .ok (bytesOf ws))

/-- The kernel of a descriptor (R515 to R518). -/
def kernelOf (s : State) (q : Nat) (persist : Bool) (set : Nat × Nat) (d : List Byte) : State × Except Fail Kernel :=
  match descErr d with
  | some o => (s, .error (fDesc o))
  | none => match relocate s q (blkWord d 0) 2 rightX 0 with
    | (s, .error f) => (s, .error f)
    | (s, .ok entry) => match kernelArgs s q d with
      | (s, .error f) => (s, .error f)
      | (s, .ok args) =>
        let stride := wfld (blkWord d 0x18) 32 32
        match relocate s q (blkWord d 0x10) (stride * set.2) rightW 0x10 with
        | (s, .error f) => (s, .error f)
        | (s, .ok stack) => match kernelWins s q d (List.range 16) with
          | (s, .error f) => (s, .error f)
          | (s, .ok wins) =>
            if wbit entry 0 then (s, .error (fDesc 0))
            else if !winX wins entry then (s, .error { refFail (blkWord d 0) 0 with code := 4 })
            else (s, .ok {
              persist := persist, first := set.1, count := set.2, entry := entry, stack := stack, stride := stride
              sways := wfld (blkWord d 0x18) 0 4, args := args, wins := wins
              inboxes := (List.range 16).map fun i => blkWord d (0xC0 + 8 * i) })

/-- The kernel of a LAUNCH or PERSIST record (R511, R515, R522). -/
def launchKernel (s : State) (q : Nat) (bs : List Byte) : State × Except Fail Kernel :=
  let set := recSet bs
  let ref := blkWord bs 0x10
  if !setOk set false then (s, .error (fDesc 0x18))
  else match setOut s set with
    | some t => (s, .error (fTile t))
    | none => match relocate s q ref 384 rightR 0x10 with
      | (s, .error f) => (s, .error f)
      | (s, .ok a) =>
        if a.toNat % 64 ≠ 0 then (s, .error (fDesc 0x10))
        else match feRead s q a.toNat 384 (refFail ref 0x10) with
          | (s, .error f) => (s, .error f)
          | (s, .ok d) => kernelOf s q (recOp bs = 2) set d

end Sys2Proof.Machine
end

