-- ==== Sys2Proof/Machine/FeRun.lean ====
section
/-! DEFINITION. How the front end runs commands: tiles held, prepared, started and released; ends of commands; and what each waiting command waits for (R503, R519 to R524, R532 to R538, R541 to R544). -/

namespace Sys2Proof.Machine

open Sys2Proof

/-- The record in progress: a graph's, or the command's own (R543). -/
def Cmd.record (c : Cmd) : List Byte := if c.sub = [] then c.bytes else c.sub

def Cmd.op (c : Cmd) : Nat := recOp c.record

/-- What a record comes to when it begins or goes on. -/
inductive FeOut where
  | done
  | fail (f : Fail)
  /-- It stays active, in a state of R506. -/
  | keep (c : Cmd) (st : QState)
  /-- A graph's record begins. -/
  | again (c : Cmd)
  deriving DecidableEq, Repr

def setCmd (s : State) (q : Nat) (c : Cmd) (st : QState) : State := s.updQueue q fun x => { x with cmd := some c, state := st }

/-! ### Active commands in the order in which they started (R522, R544) -/

def insertSeq (p : Nat × Cmd) : List (Nat × Cmd) → List (Nat × Cmd)
  | [] => [p]
  | r :: rs => if p.2.seq < r.2.seq then p :: r :: rs else r :: insertSeq p rs

def activeCmds (s : State) : List (Nat × Cmd) :=
  (s.fe.queues.filterMap fun p => p.2.cmd.map fun c => (p.1, c)).foldl (fun l p => insertSeq p l) []

/-! ### Tiles (R522, R532, R533) -/

/-- A waiting command needs a tile: a LAUNCH or PERSIST of its set, or a RESERVE that has not taken it. -/
def needsTile (s : State) (q : Nat) (c : Cmd) (t : Nat) : Bool :=
  c.phase = .waiting &&
    match c.kern with
    | some k => decide (k.first ≤ t) && decide (t < k.first + k.count)
    | none => c.op = 10 && (setTiles (recSet c.record)).contains t && (s.feTile t).rsv ≠ some q

def olderNeeds (s : State) (seq t : Nat) : Bool := (activeCmds s).any fun p => decide (p.2.seq < seq) && needsTile s p.1 p.2 t

/-- A tile is idle: in service, held by no command, and not being sounded. -/
def tileIdle (s : State) (t : Nat) : Bool :=
  let f := s.feTile t
  !(s.tile t).oos && !(s.tile t).paused && f.state = .idle && f.own.isNone

/-- The reserving queue has a command that waits for the tile (R533). -/
def rtNeeds (s : State) (r t : Nat) : Bool :=
  match (s.queue r).cmd with
  | some c => needsTile s r c t
  | none => false

/-- A tile is free for a command (R522, R532, R533). -/
def tileFree (s : State) (q : Nat) (c : Cmd) (persist : Bool) (t : Nat) : Bool :=
  tileIdle s t &&
    match (s.feTile t).rsv with
    | none => !olderNeeds s c.seq t
    | some r => r = q || ((aget {} s.fe.rsv r).lend && !persist && !rtNeeds s r t && !olderNeeds s c.seq t)

def kernelTiles (k : Kernel) : List Nat := setTiles (k.first, k.count)

/-- A command takes a tile; one reserved for another queue is lent (R533 to R535). -/
def holdTile (s : State) (q : Nat) (persist : Bool) (t : Nat) : State :=
  s.updFeTile t fun f => { f with
    own := some q, rt := decide (q < 8), state := if persist then .persistent else .kernel, reclaim := false
    lent := match f.rsv with | some r => r ≠ q | none => false }

/-- A tile is no longer held (R535). -/
def freeTile (s : State) (t : Nat) : State :=
  s.updFeTile t fun f => { f with own := none, rt := false, state := .idle, lent := false, reclaim := false }

/-- RECLAIM (R533): a borrowed tile of the queue's reservation that a command of the queue needs is asked back. -/
def reclaimTile (s : State) (q t : Nat) : State :=
  let f := s.feTile t
  if f.rsv = some q && f.lent && !f.reclaim then
    let s := s.updTile t fun x => { x with reclaim := true, core := { x.core with ipFe := true } }
    wakeCheck (s.updFeTile t fun f => { f with reclaim := true }) t
  else s

def mayReclaim (s : State) (q t : Nat) : Bool := (s.feTile t).rsv = some q && (s.feTile t).lent && !(s.feTile t).reclaim

/-! ### Preparation (R519, R536) -/

/-- An inbox that preparation disables: its header or row area reaches the new scratch size, or the task is persistent. -/
def inboxStops (k : Kernel) (x : Inbox) : Bool :=
  let n := k.sways * 32768
  k.persist || decide (n < 16 * x.hdr + 16 * x.nslots) || decide (n < 128 * x.rows + x.nslots * (128 * x.pitch))

/-- Steps 1 and 2 (R519): reset, and the inboxes disabled. -/
def prepareTile (s : State) (k : Kernel) (t : Nat) : State :=
  (List.range 16).foldl (fun s i =>
    let x := s.inbox t i
    if inboxStops k x then ibcfgWrite s t i (ibcfgRead x &&& 0x7FFFFFFFFFFFFFFF) else s) (tileReset s t)

/-- None of them holds a reserved slot. -/
def tileReady (s : State) (k : Kernel) (t : Nat) : Bool :=
  (List.range 16).all fun i => !inboxStops k (s.inbox t i) || (s.inbox t i).granted = []

/-- The inboxes of a persistent task (R536): filled slots freed, settings written. -/
def persistInboxes (s : State) (k : Kernel) (t : Nat) : State :=
  (List.range 16).foldl (fun s i =>
    let s := ibptrWrite s t i (BitVec.ofNat 64 ((s.inbox t i).tail % 65536))
    ibcfgWrite s t i (k.inboxes.getD i 0)) s

/-- Registers of a starting tile, j-th of its set (R519 steps 4 to 7). -/
def startCore (k : Kernel) (j : Nat) (x : Core) : Core :=
  let wins := (List.range 16).zip k.wins
  { x with
    pwinLo := wins.foldl (fun m p => aset 0 m p.1 p.2.1) [], pwinHi := wins.foldl (fun m p => aset 0 m p.1 p.2.2) []
    regs := [(1, 0xFC00000000), (2, BitVec.ofNat 64 j), (3, BitVec.ofNat 64 k.count),
      (31, k.stack + BitVec.ofNat 64 ((j + 1) * k.stride))].foldl (fun m p => aset 0 m p.1 p.2) []
    fl := {}, lc := [], ien := 0x7C, status := { bs := false, ml := 0, lvl := false }, pc := k.entry, fwin := none, ready := []
    run := .running }

/-- Steps 2 to 7 of preparation (R519). -/
def startTile (s : State) (k : Kernel) (j t : Nat) : State :=
  let s := if (s.tile t).l1.sways = k.sways then s.updL1 t fun x => { x with change := none } else splitChange s t k.sways
  let s := if k.persist then persistInboxes s k t else s
  let s := scratchWrite s t 0 k.args
  s.updTile t fun x => { x with
    reclaim := false, drain := false, vec := { x.vec with vstart := 0, cfg := {} }, core := startCore k j x.core }

def startKernel (s : State) (k : Kernel) : State :=
  ((List.range k.count).map fun j => (j, k.first + j)).foldl (fun s p => startTile s k p.1 p.2) s

/-! ### Ends of commands (R503, R510, R512, R529) -/

/-- A write of a stat word (R510); false when it could not be written. -/
def writeCmdStat (s : State) (c : Cmd) (state code detail : Nat) : State × Bool :=
  if inGraphRegion s (c.addr + 4) 4 then (s, false)
  else match memWrite s (c.addr + 4) (toBytes 4 (state * 2 ^ 30 + b2n c.rep * 2 ^ 29 + code * 2 ^ 16 + detail)) with
  | (s, none) => (s, true)
  | (s, some _) => (s, false)

def feRing (x : FeQueue) : Nat := 2 ^ (x.lsz + 2)

/-- What a failed command leaves in its queue (R504, R506, R512). -/
def failQueue (s : State) (q : Nat) (c : Cmd) : State :=
  let s := s.updQueue q fun x => { x with fail := true, code := c.failCode, faddr := c.fa, farg := c.fr, fval := c.fv }
  ringHost s (s.queue q).db.toNat

/-- What a command held of graphs and reservations when it ends (R532, R544). -/
def closeCmd (s : State) (q : Nat) (c : Cmd) (failed : Bool) : State :=
  let g := wfld (blkWord c.bytes 0x10) 0 8
  let updGraph := fun (f : Graph → Graph) => { s with fe := { s.fe with graphs := aput s.fe.graphs g (f (aget {} s.fe.graphs g)) } }
  if c.counted then updGraph fun x => { x with run := x.run - 1 }
  else if recOp c.bytes = 9 then updGraph fun x => { x with pend := x.pend.filter (· ≠ q) }
  else if recOp c.bytes = 10 && failed && q < 8 then
    let s := s.fe.tiles.foldl (fun s p => if p.2.rsv = some q then s.updFeTile p.1 fun f => { f with rsv := none } else s) s
    { s with fe := { s.fe with rsv := adel s.fe.rsv q } }
  else s

/-- A failed command is replayed once when idem is set and in force (R529, R605). -/
def replays (c : Cmd) : Bool :=
  recIdem c.bytes && c.feat.getLsbD 19 && !c.rep && !c.halt && (c.failCode = 13 || c.failCode = 15)

/-- Head passes the record of a command that has ended (R503). -/
def nextHead (x : FeQueue) (c : Cmd) : Nat := if c.past then x.head else (x.head + 1) % feRing x

/-- A command of a queue ends as failed (R512, R524). -/
def endFailed (s : State) (q : Nat) (c : Cmd) : State :=
  let s := closeCmd s q c true
  if replays c then s.updQueue q fun x => { x with cmd := none, replay := some { c with counted := false, sub := [] }, state := .running }
  else
    let s := failQueue (writeCmdStat s c 2 c.failCode.toNat c.failDetail.toNat).1 q c
    s.updQueue q fun x =>
      if !c.past && (!recCont c.bytes || c.halt) then { x with cmd := none, replay := none, state := .halted }
      else { x with cmd := none, replay := none, state := .idle, head := nextHead x c }

/-- A command of a queue ends as done; a stat word that cannot be written makes it fail with RING (R512). -/
def endDone (s : State) (q : Nat) (c : Cmd) : State :=
  match writeCmdStat s c 1 0 0 with
  | (s, false) => endFailed s q (c.failWith s.mono 2 0 0 0 0)
  | (s, true) =>
    let s := closeCmd s q c false
    let s := if recNtfy c.bytes then ringHost s (s.queue q).db.toNat else s
    s.updQueue q fun x => { x with cmd := none, replay := none, state := .idle, head := nextHead x c }

/-- A persistent task ends (R529, R536); a stat word that cannot be written makes a task that is done fail with RING (R512). -/
def endTask (s : State) (p : PTask) : State :=
  let c := p.cmd
  if c.phase = .failing then
    if replays c then { s with fe := { s.fe with replays := s.fe.replays ++ [p] } }
    else failQueue (writeCmdStat s c 2 c.failCode.toNat c.failDetail.toNat).1 p.queue c
  else
    match writeCmdStat s c 1 0 0 with
    | (s, false) => failQueue s p.queue (c.failWith s.mono 2 0 0 0 0)
    | (s, true) => if recNtfy c.bytes then ringHost s (s.queue p.queue).db.toNat else s

/-- The active command of a queue fails (R524): tiles that it holds and has not started are released, the others drain. -/
def failNow (s : State) (q : Nat) (f : Fail) : State :=
  match (s.queue q).cmd with
  | none => s
  | some c =>
    let s := if c.phase = .preparing then setCmd (c.tiles.foldl freeTile s) q { c with tiles := [] } .waiting else s
    let s := failQueueCmd s q f.code f.detail f.fa f.fr f.fv
    match (s.queue q).cmd with
    | none => s
    | some c => if c.tiles = [] && c.writes = [] then endFailed s q c else s

/-! ### Graphs (R541 to R545) -/

def State.graph (s : State) (g : Nat) : Graph := aget {} s.fe.graphs g
def State.updGraph (s : State) (g : Nat) (f : Graph → Graph) : State :=
  { s with fe := { s.fe with graphs := aput s.fe.graphs g (f (s.graph g)) } }

/-- Address of record i of a graph (R542). -/
def graphAddr (s : State) (x : Graph) (i : Nat) : Nat := s.fe.grbase + 64 * (x.off + i)

/-- A record that a graph may hold (R542). -/
def graphRec (bs : List Byte) : Bool := [0, 1, 3, 4, 5, 6].contains (recOp bs) && (recReserved bs).isNone

/-- The next record of a graph launch; none after the last. -/
def nextRec (s : State) (q : Nat) (c : Cmd) (i : Nat) : State × FeOut :=
  let x := s.graph (wfld (blkWord c.bytes 0x10) 0 8)
  if x.cnt < i then (s, .done)
  else match feRead s q (graphAddr s x i) 64 fGraph with
    | (s, .error f) => (s, .fail f)
    | (s, .ok bs) => (s, .again { c with
        recNo := i, sub := bs, phase := .waiting, kern := none, body := [], tiles := [], ready := [], subStart := s.mono
        subLimit := recLimit (s.queue q).dtmo.toNat bs, subHeld := c.heldNs })

/-- GDEF (R542). -/
def gdefRun (s : State) (q : Nat) (bs : List Byte) : State × FeOut :=
  let w := blkWord bs 0x10
  let g := wfld w 0 8
  let n := wfld w 16 12 + 1
  let off := wfld (blkWord bs 0x20) 0 32
  let ref := blkWord bs 0x18
  let x := s.graph g
  if x.run ≠ 0 || x.pend ≠ [] then (s, .fail fBusy)
  else if wbit w 31 then
    if x.defined then ({ s with fe := { s.fe with graphs := adel s.fe.graphs g } }, .done) else (s, .fail fGraph)
  else if s.fe.grsize = 0 || s.fe.grsize * 16384 < off + n then (s, .fail fGraph)
  else if s.fe.graphs.any fun p => p.1 ≠ g && p.2.defined && decide (p.2.off < off + n) && decide (off < p.2.off + p.2.cnt + 1) then
    (s, .fail fGraph)
  else match relocate s q ref (64 * n) rightR 0x18 with
    | (s, .error f) => (s, .fail f)
    | (s, .ok a) => match feRead s q a.toNat (64 * n) (refFail ref 0x18) with
      | (s, .error f) => (s, .fail f)
      | (s, .ok src) =>
        match (List.range n).find? fun i => !graphRec ((src.drop (64 * i)).take 64) with
        | some i => (s, .fail (fDesc i))
        | none => match memWrite s (s.fe.grbase + 64 * off) src with
          | (s, some e) => (s, .fail (feWriteFail fGraph e.1))
          | (s, none) => (s.updGraph g fun x => { x with defined := true, cnt := n - 1, off := off }, .done)

/-! ### What a record does when it begins -/

/-- The value of a fence, and whether a WAIT is done (R526). -/
def readFence (s : State) (q : Nat) (c : Cmd) : State × Except Fail Word :=
  match feRead s q c.ref.toNat 8 (refFail (blkWord c.record 0x10) 0x10) with
  | (s, .error f) => (s, .error f)
  | (s, .ok bs) => (s, .ok (wordOf bs))

def fenceMet (c : Cmd) (v : Word) : Bool := decide ((blkWord c.record 0x18).toNat ≤ v.toNat)

/-- A fence reference: 8 bytes, 8-byte aligned (R511). -/
def fenceRef (s : State) (q : Nat) (bs : List Byte) (need : Rights) : State × Except Fail Word :=
  match relocate s q (blkWord bs 0x10) 8 need 0x10 with
  | (s, .error f) => (s, .error f)
  | (s, .ok a) => if a.toNat % 8 ≠ 0 then (s, .error (fDesc 0x10)) else (s, .ok a)

/-- SIGNAL (R528). -/
def signalRun (s : State) (q : Nat) (bs : List Byte) : State × FeOut :=
  match fenceRef s q bs rightW with
  | (s, .error f) => (s, .fail f)
  | (s, .ok a) =>
    let v := (blkWord bs 0x18).toNat
    let r := if inGraphRegion s a.toNat 8 then (s, some (.bus, a.toNat))
      else if wbit (blkWord bs 0x20) 0 then busAdd s none a.toNat 8 v else busWrite s none a.toNat (toBytes 8 v)
    match r with
    | (s, none) => (s, .done)
    | (s, some (.uncorr _, x)) => (contError s (srcFe q) 0x02 x, .fail { code := 13 })
    | (s, some e) => (s, .fail (feWriteFail (refFail (blkWord bs 0x10) 0x10) e.1))

/-- The persistent tiles of a tile set are asked to drain (R537). -/
def pstopRun (s : State) (c : Cmd) : State × FeOut :=
  let set := recSet c.record
  if !setOk set false then (s, .fail (fDesc 0x18))
  else match setOut s set with
    | some t => (s, .fail (fTile t))
    | none =>
      let ts := (setTiles set).filter fun t => (s.feTile t).state = .persistent
      (ts.foldl (fun s t => wakeCheck (askDrain s t) t) s, .keep { c with phase := .running, failAt := s.mono, ready := ts } .running)

/-- RESERVE: checks, and the earlier reservation is given up (R532). -/
def reserveRun (s : State) (q : Nat) (c : Cmd) : State × FeOut :=
  let set := recSet c.record
  let rival := fun (t : Nat) => match (s.feTile t).rsv with | some r => r ≠ q | none => false
  if 8 ≤ q then (s, .fail (fDesc 0))
  else if !setOk set true then (s, .fail (fDesc 0x18))
  else match setOut s set with
    | some t => (s, .fail (fTile t))
    | none =>
      if (setTiles set).any rival then (s, .fail fBusy)
      else
        let s := s.fe.tiles.foldl (fun s p =>
          if p.2.rsv = some q && !(setTiles set).contains p.1 then s.updFeTile p.1 fun f => { f with rsv := none } else s) s
        if set.2 = 0 then ({ s with fe := { s.fe with rsv := adel s.fe.rsv q } }, .done)
        else
          let r : Rsv := { valid := true, lend := wbit (blkWord c.record 0x10) 0, first := set.1, count := set.2 }
          ({ s with fe := { s.fe with rsv := aput s.fe.rsv q r } }, .keep c .waiting)

/-- PATCH checks its record and becomes pending (R544). -/
def patchRun (s : State) (q : Nat) (c : Cmd) : State × FeOut :=
  let w := blkWord c.bytes 0x10
  let g := wfld w 0 8
  let i := wfld w 16 12
  let ref := blkWord c.bytes 0x18
  if !(s.graph g).defined then (s, .fail fGraph)
  else if (s.graph g).cnt < i then (s, .fail (fDesc i))
  else match relocate s q ref 64 rightR 0x18 with
    | (s, .error f) => (s, .fail f)
    | (s, .ok a) => match feRead s q a.toNat 64 (refFail ref 0x18) with
      | (s, .error f) => (s, .fail f)
      | (s, .ok bs) =>
        if !graphRec bs then (s, .fail (fDesc i))
        else (s.updGraph g fun x => { x with pend := x.pend ++ [q] }, .keep { c with body := bs } .waiting)

/-- ENQ relocates its entry (R516, R538). -/
def enqRun (s : State) (q : Nat) (c : Cmd) : State × FeOut :=
  match relocWords s q (BitVec.ofNat 64 (wfld (blkWord c.record 0x10) 8 4)) 0x20 0 (wordsOf ((c.record.drop 0x20).take 32)) with
  | (s, .error f) => (s, .fail f)
  | (s, .ok ws) => (s, .keep { c with body := bytesOf ws } .waiting)

/-- A record begins (R511). -/
def opBegin (s : State) (q : Nat) (c : Cmd) : State × FeOut :=
  match recErr c.feat c.record with
  | some o => (s, .fail (fDesc o))
  | none => match c.op with
    | 0 => (s, .done)
    | 1 | 2 => match launchKernel s q c.record with
      | (s, .error f) => (s, .fail f)
      | (s, .ok k) => (s, .keep { c with kern := some k } .waiting)
    | 3 => pstopRun s c
    | 4 => enqRun s q c
    | 5 => match fenceRef s q c.record rightR with
      | (s, .error f) => (s, .fail f)
      | (s, .ok a) =>
        let c := { c with ref := a, phase := .watching }
        match readFence s q c with
        | (s, .error f) => (s, .fail f)
        | (s, .ok v) => if fenceMet c v then (s, .done) else (s, .keep { c with fv := v } .inWait)
    | 6 => signalRun s q c.record
    | 7 => gdefRun s q c.record
    | 8 => if (s.graph (wfld (blkWord c.bytes 0x10) 0 8)).defined then (s, .keep c .waiting) else (s, .fail fGraph)
    | 9 => patchRun s q c
    | _ => reserveRun s q c

/-! ### What a waiting command waits for: none while nothing of it can go on -/

/-- LAUNCH and PERSIST (R519, R522, R533). -/
def goLaunch (s : State) (q : Nat) (c : Cmd) (k : Kernel) : Option (State × FeOut) :=
  let ts := kernelTiles k
  match c.phase with
  | .preparing =>
    if ts.all (tileReady s k) then some (startKernel s k, .keep { c with phase := .running } .running) else none
  | .waiting =>
    match setOut s (k.first, k.count) with
    | some t => some (s, .fail (fTile t))
    | none =>
      if ts.all (tileFree s q c k.persist) then
        let s := ts.foldl (fun s t => prepareTile (holdTile s q k.persist t) k t) s
        some (s, .keep { c with phase := .preparing, tiles := ts } .waiting)
      else if ts.any (mayReclaim s q) then some (ts.foldl (fun s t => reclaimTile s q t) s, .keep c .waiting)
      else none
  | _ => none

/-- RESERVE takes each tile of its set that is free (R532). -/
def goReserve (s : State) (q : Nat) (c : Cmd) : Option (State × FeOut) :=
  let ts := setTiles (recSet c.record)
  let left := ts.filter fun t => (s.feTile t).rsv ≠ some q
  let takes := left.filter fun t => tileIdle s t && (s.feTile t).rsv.isNone && !olderNeeds s c.seq t
  match setOut s (recSet c.record) with
  | some t => some (s, .fail (fTile t))
  | none =>
    if left.any fun t => (s.feTile t).rsv.isSome then some (s, .fail fBusy)
    else if left = [] then
      if ts.any (mayReclaim s q) then some (ts.foldl (fun s t => reclaimTile s q t) s, .keep c .waiting)
      else if ts.any fun t => (s.feTile t).lent then none
      else some (s, .done)
    else if takes = [] then none
    else some (takes.foldl (fun s t => s.updFeTile t fun f => { f with rsv := some q }) s, .keep c .waiting)

/-- PATCH (R544): no launch of its graph runs, and no older patch is pending. -/
def goPatch (s : State) (q : Nat) (c : Cmd) : Option (State × FeOut) :=
  let w := blkWord c.bytes 0x10
  let x := s.graph (wfld w 0 8)
  if x.run ≠ 0 || x.pend.head? ≠ some q then none
  else match memWrite s (graphAddr s x (wfld w 16 12)) c.body with
    | (s, none) => some (s, .done)
    | (s, some e) => some (s, .fail (feWriteFail fGraph e.1))

/-- GRAPH_LAUNCH (R544): no patch that reached the table before it is pending. -/
def goGraph (s : State) (q : Nat) (c : Cmd) : Option (State × FeOut) :=
  let g := wfld (blkWord c.bytes 0x10) 0 8
  let older := fun (p : Nat) => match (s.queue p).cmd with | some d => decide (d.seq < c.seq) | none => false
  if (s.graph g).pend.any older then none
  else if !(s.graph g).defined then some (s, .fail fGraph)
  else
    let s := s.updGraph g fun x => { x with run := x.run + 1 }
    match nextRec s q { c with counted := true } 0 with
    | (s, .again d) => some (s, .again d)
    | (s, o) => some (s.updGraph g fun x => { x with run := x.run - 1 }, o)

/-- An active command that can go on does so. -/
def advance (s : State) (q : Nat) (c : Cmd) : Option (State × FeOut) :=
  match c.kern with
  | some k => goLaunch s q c k
  | none =>
    if c.phase = .running && c.op = 3 then
      match setOut s (recSet c.record) with
      | some t => some (s, .fail (fTile t))
      | none => if (setTiles (recSet c.record)).all (tileIdle s) then some (s, .done) else none
    else if c.phase ≠ .waiting then none
    else if c.op = 4 then
      let k := wfld (blkWord c.record 0x10) 0 5
      if (s.taskq k).entries.length < 64 then some (pushTaskq s k c.body, .done) else none
    else if c.op = 8 then goGraph s q c
    else if c.op = 9 then goPatch s q c
    else if c.op = 10 then goReserve s q c
    else none

/-- What follows from the outcome of a record: the command goes on, ends, or its graph's next record begins (R543). -/
def applyOut : Nat → State → Nat → Cmd → FeOut → State
  | 0, s, _, _, _ => s
  | n + 1, s, q, c, o =>
    match o with
    | .fail f => failNow s q f
    | .keep c st => setCmd s q c st
    | .again d =>
      let s := setCmd s q d .running
      let r := opBegin s q d
      applyOut n r.1 q d r.2
    | .done =>
      if c.sub = [] then endDone s q c
      else match nextRec s q c (c.recNo + 1) with
        | (s, .done) => endDone s q c
        | (s, o) => applyOut n s q c o

/-- Steps that one outcome can take: a graph has at most 4,096 records. -/
def outSteps : Nat := 10000

def settleOne (s : State) : Option State :=
  (activeCmds s).findSome? fun p => (advance s p.1 p.2).map fun r => applyOut outSteps r.1 p.1 p.2 r.2

/-- Every active command that can go on does so, the oldest first (R522, R544). -/
def settleN : Nat → State → State
  | 0, s => s
  | n + 1, s => match settleOne s with
    | none => s
    | some s => settleN n s

/-- A parked tile that the front end has asked to end wakes (R540). -/
def wakeAsked (s : State) : State := s.fe.tiles.foldl (fun s p => if fereq s p.1 = 0 then s else wakeCheck s p.1) s

def feSettle (s : State) : State := settleN outSteps (wakeAsked s)

/-! ### Tiles that end (R520, R524, R536) -/

/-- Writes of a tile's Gallery port and remote stores are still on their way. -/
def writesOut (s : State) (t : Nat) : Bool := (s.tile t).port.ops ≠ [] || (s.tile t).core.remote ≠ []

/-- A command whose last tile has ended, and whose killed tiles' writes are performed, ends (R520, R524). -/
def finishQueue (s : State) (q : Nat) : State :=
  match (s.queue q).cmd with
  | none => s
  | some c =>
    if c.tiles ≠ [] || c.writes ≠ [] || (c.phase ≠ .failing && (c.phase ≠ .running || c.kern.isNone)) then s
    else if c.phase = .failing then endFailed s q c
    else applyOut outSteps s q { c with kern := none } .done

def dropTile (s : State) (t : Nat) (killed : Bool) (c : Cmd) : Cmd :=
  { c with tiles := c.tiles.filter (· ≠ t), writes := if killed && writesOut s t then t :: c.writes else c.writes }

def taskOver (p : PTask) : Bool := p.cmd.tiles = [] && p.cmd.writes = []

/-- Persistent tasks that have ended leave the list. -/
def finishTasks (s : State) : State :=
  let done := s.fe.ptasks.filter taskOver
  done.foldl endTask { s with fe := { s.fe with ptasks := s.fe.ptasks.filter fun p => !taskOver p } }

/-- A tile is no longer held by its command. -/
def tileGone (s : State) (t : Nat) (killed : Bool) : State :=
  let own := (s.feTile t).own
  let s' := freeTile s t
  let drop := fun (p : PTask) => if p.cmd.tiles.contains t then { p with cmd := dropTile s t killed p.cmd } else p
  if s.fe.ptasks.any fun p => p.cmd.tiles.contains t then
    finishTasks { s' with fe := { s'.fe with ptasks := s'.fe.ptasks.map drop } }
  else match own with
    | none => s'
    | some q => finishQueue (s'.updQueue q fun x => { x with cmd := x.cmd.map (dropTile s t killed) }) q

/-- Killed tiles' writes that are now performed no longer hold their command (R524). -/
def writesPerformed (s : State) : State :=
  let upd := fun (c : Cmd) => { c with writes := c.writes.filter (writesOut s) }
  let late := s.fe.queues.filter fun p => match p.2.cmd with | some c => c.writes ≠ [] | none => false
  let s := late.foldl (fun s p => finishQueue (s.updQueue p.1 fun x => { x with cmd := x.cmd.map upd }) p.1) s
  finishTasks { s with fe := { s.fe with ptasks := s.fe.ptasks.map fun (p : PTask) => { p with cmd := upd p.cmd } } }

/-- A PERSIST has started once every tile has issued its first waitq: stat says so, and its queue runs on (R536). -/
def taskStarted (s : State) (q : Nat) : State :=
  match (s.queue q).cmd with
  | none => s
  | some c =>
    match c.kern with
    | none => s
    | some k =>
      if k.persist && c.phase = .running && (kernelTiles k).all fun t => c.ready.contains t then
        let s := (writeCmdStat s c 3 0 0).1
        let task : PTask := { queue := q, cmd := { c with limit := 0 } }
        let s := { s with fe := { s.fe with ptasks := s.fe.ptasks ++ [task] } }
        s.updQueue q fun x => { x with cmd := none, state := .idle, head := nextHead x c }
      else s

/-- A tile has issued a waitq (R536). -/
def firstWaitq (s : State) (t : Nat) : State :=
  match (s.feTile t).own with
  | none => s
  | some q =>
    match (s.queue q).cmd with
    | none => s
    | some c =>
      if c.phase = .running && c.tiles.contains t && !c.ready.contains t then
        taskStarted (setCmd s q { c with ready := c.ready ++ [t] } .running) q
      else s

end Sys2Proof.Machine
end

