-- ==== Sys2Proof/Machine/FrontEnd.lean ====
section
/-! DEFINITION. The commands of the front end: the eleven operations of R511, ends of tiles, time limits, kills, holds, replays, and the queue registers (R502 to R545, R673 to R677). -/

namespace Sys2Proof.Machine

open Sys2Proof

/-! ### Commands start (R503, R509, R511) -/

/-- A command begins in its queue: it takes its place in the order, and its record begins. -/
def startCmd (s : State) (q : Nat) (c : Cmd) : State :=
  let c := { c with seq := s.fe.nextSeq }
  let s := setCmd { s with fe := { s.fe with nextSeq := s.fe.nextSeq + 1 } } q c .running
  let r := opBegin s q c
  feSettle (applyOut outSteps r.1 q c r.2)

/-- A queue that is enabled and idle, with nothing active and nothing waiting for its replay, has a command ready at its head. -/
def cmdReady (x : FeQueue) : Bool := x.state = .idle && x.cmd.isNone && x.replay.isNone && x.en && x.head ≠ x.tail

/-- A normal queue gives way to a real-time queue of its front-end core that has a command ready (R502, log 101). -/
def rtFirst (s : State) (q : Nat) : Bool :=
  decide (8 ≤ q) && s.fe.queues.any fun p => decide (p.1 < 8) && cmdReady p.2 && decide (Config.feCore p.1 = Config.feCore q)

/-- The front end starts the record at the head of an idle queue, when its opcode is `op`. A record that cannot be read, or
whose opcode is not listed, fails whatever the row (R511, R512). -/
def startRow (op q : Nat) (s : State) : State :=
  let x := s.queue q
  if s.power ≠ .run || !cmdReady x || rtFirst s q then s
  else
    let a := x.base + 64 * x.head
    let c : Cmd :=
      { bytes := List.replicate 64 0, addr := a, seq := 0, start := s.mono, limit := x.dtmo.toNat * 1000, feat := s.start.featAct }
    match memRead s a 64 with
    | (s', .ok bs) =>
      if recOp bs ≠ op && (recMasks (recOp bs)).isSome then s
      else startCmd s' q { c with bytes := bs, limit := recLimit x.dtmo.toNat bs }
    | (s', .error (e, at_)) =>
      let s' := match e with | .uncorr _ => contError s' (srcFe q) 0x02 at_ | _ => s'
      failNow (setCmd s' q c .running) q (feWriteFail fRing e)

def execNopCommand (q : QueueNo) (s : State) : Result := .next (startRow 0 q.val s)
def execLaunch (q : QueueNo) (s : State) : Result := .next (startRow 1 q.val s)
def execPersist (q : QueueNo) (s : State) : Result := .next (startRow 2 q.val s)
def execPstop (q : QueueNo) (s : State) : Result := .next (startRow 3 q.val s)
def execEnq (q : QueueNo) (s : State) : Result := .next (startRow 4 q.val s)
def execWait (q : QueueNo) (s : State) : Result := .next (startRow 5 q.val s)
def execSignal (q : QueueNo) (s : State) : Result := .next (startRow 6 q.val s)
def execGdef (q : QueueNo) (s : State) : Result := .next (startRow 7 q.val s)
def execGraphLaunch (q : QueueNo) (s : State) : Result := .next (startRow 8 q.val s)
def execPatch (q : QueueNo) (s : State) : Result := .next (startRow 9 q.val s)
def execReserve (q : QueueNo) (s : State) : Result := .next (startRow 10 q.val s)

/-! ### Time (R523, R675 to R677) -/

/-- Deadline of the command, and of its graph's record in progress. -/
def outerDeadline (s : State) (c : Cmd) : Nat := c.start + c.limit + heldNow s c
def subDeadline (s : State) (c : Cmd) : Nat :=
  if c.sub = [] then outerDeadline s c else c.subStart + c.subLimit + (heldNow s c - c.subHeld)

/-- A time is reached: a clock that is held reaches it only when the module's own time has (R675). -/
def clockDue (s : State) (c : Cmd) (d : Nat) : Bool := c.holds = [] || decide (d ≤ s.mono)

/-- First tile that has not ended, or 0xFFFF (R512). -/
def firstLeft (s : State) (c : Cmd) : Nat :=
  let ts := if c.op = 3 then (setTiles (recSet c.record)).filter fun t => !tileIdle s t else c.tiles
  ts.head?.getD 0xFFFF

/-- A command's time limit expires (R523). A WAIT's own deadline is decided by WAIT_TIMEOUT (R527). -/
def execCommandTimeout (q : QueueNo) (s : State) : Result :=
  .next (match (s.queue q.val).cmd with
    | none => s
    | some c =>
      let inner := subDeadline s c
      let outer := outerDeadline s c
      let d := min inner outer
      if s.power ≠ .run || c.phase = .failing || (c.phase = .watching && inner ≤ outer) || !clockDue s c d then s
      else
        let s := s.reach d
        let s := if outer < inner then setCmd s q.val { c with sub := [] } .running else s
        feSettle (failNow s q.val { code := 7, detail := BitVec.ofNat 16 (firstLeft s c) }))

/-- A watched fence is read again (R526, R527): the value decides, or at the deadline the WAIT fails. -/
def fenceAgain (s : State) (q : Nat) (c : Cmd) (final : Bool) : State :=
  match readFence s q c with
  | (s, .error f) => feSettle (failNow s q f)
  | (s, .ok v) =>
    if fenceMet c v then feSettle (applyOut outSteps s q c .done)
    else if final then feSettle (failNow s q { code := 8, fa := c.ref, fr := blkWord c.record 0x18, fv := v })
    else setCmd s q { c with fv := v } .inWait

def execFenceReread (q : QueueNo) (s : State) : Result :=
  .next (match (s.queue q.val).cmd with
    | none => s
    | some c => if s.power = .run && c.phase = .watching then fenceAgain s q.val c false else s)

def execWaitTimeout (q : QueueNo) (s : State) : Result :=
  .next (match (s.queue q.val).cmd with
    | none => s
    | some c =>
      let d := subDeadline s c
      if s.power = .run && c.phase = .watching && decide (d ≤ outerDeadline s c) && clockDue s c d then
        fenceAgain (s.reach d) q.val c true
      else s)

/-! ### Tiles end (R520, R521) -/

/-- Every engine of the tile has done what it was given (R520). -/
def enginesDone (x : Tile) : Bool :=
  (x.mov.all fun p => p.2.state = .halted || (p.2.state = .idle && p.2.head = p.2.tail)) && x.mtx.queue = [] &&
    x.mtx.passes = [] && x.port.queue = [] && x.port.ops = [] && x.core.remote = []

/-- Every dirty L1 line is written back (R520). -/
def writeBackAll (s : State) (t : Nat) : State :=
  ((s.tile t).l1.lines.filter fun p => p.2.dirty).foldl (fun s p => l1WriteBack s t p.2.line) s

/-- A store error that the tile's last writes met fails its command (R656). -/
def lateFails (s : State) (t : Nat) : State :=
  let k := (s.tile t).core
  if k.ipLst then failTile s t (if k.lseKind = 2 then 14 else 9) (BitVec.ofNat 16 t) k.lse k.pc k.ecause else s

/-- The tile's part of its command ends (R520, R521): its buffered writes are performed, its dirty lines written back, issue
stops, and the front end takes it back. -/
def execTileEnd (t : TileId) (s : State) : Result :=
  .next (
    let f := s.feTile t.val
    if s.power ≠ .run || (s.tile t.val).ending.isNone || f.own.isNone || f.state = .killed || f.state = .idle then s
    else
      let s := performHanded (drainAll faddF32 s (tcore t.val)) t.val
      if !enginesDone (s.tile t.val) then s
      else
        let s := lateFails (writeBackAll s t.val) t.val
        let s := s.updTile t.val fun x => { x with ending := none, core := { x.core with run := .idle } }
        feSettle (tileGone s t.val false))

/-! ### Recovery (R524, R537) -/

def drainWindow : Nat := 200000

/-- The drain window of a failing command, or of a PSTOP, has ended (R523, R524). -/
def windowEnd (s : State) (c : Cmd) : Nat := c.failAt + drainWindow + heldNow s c

/-- A tile is killed: reset, and sounded whole; one that was sounded within the last 10 ms is idle at once (R665). -/
def killTile (s : State) (t : Nat) : State :=
  let s := (killReset s t).updFeTile t fun f => { f with state := .killed }
  let x : Structure := .tile (Fin.ofNat 256 t)
  let s := requestSound s x
  if s.rep.due.contains x then s else tileGone s t true

/-- Tiles of a failing command that have not ended are killed. -/
def killCmd (s : State) (c : Cmd) : State :=
  if c.phase = .failing && clockDue s c (windowEnd s c) then
    (c.tiles.filter fun t => (s.feTile t).state ≠ .killed).foldl killTile (s.reach (windowEnd s c))
  else s

/-- Tiles that a PSTOP still waits for are killed, and their tasks fail with ABORTED (R537). -/
def killStopped (s : State) (c : Cmd) : State :=
  if c.phase = .running && c.op = 3 && clockDue s c (windowEnd s c) then
    let left := c.ready.filter fun t => (s.feTile t).own.isSome && (s.feTile t).state ≠ .killed && (s.feTile t).state ≠ .idle
    left.foldl (fun s t => killTile (failTile s t 16 0 0 0 0) t) (s.reach (windowEnd s c))
  else s

/-- KILL of what queue `q` recovers: its active command, and its persistent tasks (R524, R536, R537). -/
def execKill (q : QueueNo) (s : State) : Result :=
  .next (
    if s.power ≠ .run then s
    else
      let tasks := s.fe.ptasks.filter fun p => p.queue = q.val
      let s := tasks.foldl (fun s p => killCmd s p.cmd) s
      feSettle (match (s.queue q.val).cmd with
        | some c => killStopped (killCmd s c) c
        | none => s))

/-- The replay of a failed idem command (R529, R673), once every repair that is due has been made. -/
def execCommandReplay (q : QueueNo) (s : State) : Result :=
  .next (
    let x := s.queue q.val
    let again := fun (c : Cmd) (past : Bool) (s : State) =>
      startCmd s q.val { bytes := c.bytes, addr := c.addr, seq := 0, start := s.mono
                         limit := recLimit x.dtmo.toNat c.bytes, rep := true, past := past, feat := c.feat }
    if s.power ≠ .run || s.rep.due ≠ [] then s
    else match x.replay with
      | some c => again c c.past (s.updQueue q.val fun x => { x with replay := none })
      | none =>
        match s.fe.replays.find? fun p => p.queue = q.val with
        | none => s
        | some p =>
          if x.state ≠ .idle || x.cmd.isSome then s
          else again p.cmd true { s with fe := { s.fe with replays := s.fe.replays.erase p } })

/-! ### Reports of the lower levels (R523, R675, R676) -/

/-- A structure of the tile waits for its sounding. -/
def tileDue (s : State) (t : Nat) : Bool :=
  s.rep.due.any fun x => match x with
    | .l1row u _ _ => u.val = t
    | .vlane u _ => u.val = t
    | .krow u _ => u.val = t
    | .tile u => u.val = t
    | _ => false

/-- A tile that is held for a sounding pauses until the sounding releases it (R664). -/
def pauseHeld (s : State) (r : HoldRes) : State :=
  match r with
  | .tile t => if tileDue s t.val then s.updTile t.val fun x => { x with paused := true } else s
  | _ => s

def execHoldReport (r : HoldRes) (s : State) : Result :=
  .next (if s.power ≠ .run then s else holdAll (pauseHeld s r) r)

/-- The failure that an outcome gives a command that used the resource (R676). -/
def outcomeFail (r : HoldRes) (code : BitVec 8) : Fail :=
  { code := code, detail := match r with | .tile t => BitVec.ofNat 16 t.val | _ => 0 }

def execOutcomeReport (r : HoldRes) (fail : Option (BitVec 8)) (s : State) : Result :=
  .next (
    if s.power ≠ .run then s
    else
      let held := s.fe.queues.filter fun p => match p.2.cmd with | some c => c.holds.contains r | none => false
      let tasks := s.fe.ptasks.map fun p => p.cmd.holds.contains r
      let s := dropAll s r
      match fail with
      | none => s
      | some code =>
        let f := outcomeFail r code
        let s := ((List.range tasks.length).filter fun i => tasks.getD i false).foldl (fun s i => failPtask s i f.code f.detail 0 0 0) s
        feSettle (held.foldl (fun s p => failNow s p.1 f) s))

/-! ### Queue registers (R504 to R507) -/

/-- FE_QTAIL, or a DOORBELL (R504, R505). -/
def qTail (x : FeQueue) (v : Word) : FeQueue :=
  if !x.en then x else if feRing x ≤ wfld v 0 16 then { x with berr := true } else { x with tail := wfld v 0 16 }

/-- FE_QBASE (R351, R504): while the queue is idle or halted. -/
def qBase (x : FeQueue) (v : Word) : FeQueue :=
  if (x.state ≠ .idle && x.state ≠ .halted) || 10 < wfld v 0 4 then x
  else { x with base := wfld v 8 32 * 256, lsz := wfld v 0 4, head := 0, tail := 0 }

/-- FE_QCTL.abort (R507, R524). -/
def qAbort (s : State) (q : Nat) : State :=
  let x := s.queue q
  match x.cmd with
  | some c =>
    if c.phase = .failing then setCmd s q { c with halt := true } x.state
    else failNow (setCmd s q { c with halt := true, sub := [] } x.state) q { code := 16 }
  | none => match x.replay with
    | some c => endFailed s q ({ c with halt := true }.failWith s.mono 16 0 0 0 0)
    | none => s

/-- FE_QCTL.skip and resume act only on a halted queue (R507). -/
def qSkipCmd (x : FeQueue) : FeQueue :=
  if x.state = .halted then { x with state := .idle, head := if x.head = x.tail then x.head else (x.head + 1) % feRing x } else x

def qResumeCmd (x : FeQueue) : FeQueue := if x.state = .halted then { x with state := .idle } else x

/-- A write of FE_QCTL (R507): one with more than one bit set is discarded. -/
def feQctl (s : State) (q : Nat) (v : Word) : State :=
  match wfld v 0 3 with
  | 1 => s.updQueue q qResumeCmd
  | 2 => s.updQueue q qSkipCmd
  | 4 => feSettle (qAbort s q)
  | _ => s

/-- A register write is taken while the module runs. -/
def feOn (s r : State) : State := if s.power = .run then r else s

def execFeQtail (q : QueueNo) (v : Word) (s : State) : Result := .next (feOn s (s.updQueue q.val fun x => qTail x v))
def execFeQbase (q : QueueNo) (v : Word) (s : State) : Result := .next (feOn s (s.updQueue q.val fun x => qBase x v))
def execFeQctlAbort (q : QueueNo) (s : State) : Result := .next (feOn s (feQctl s q.val 4))
def execFeQctlSkip (q : QueueNo) (s : State) : Result := .next (feOn s (feQctl s q.val 2))
def execFeQctlResume (q : QueueNo) (s : State) : Result := .next (feOn s (feQctl s q.val 1))

/-- A read of FE_WAITSNAP: the latches, and the value read (R531). -/
def waitsnap (s : State) : State × Word :=
  let snap := fun (s : State) (q : Nat) =>
    let v : Word × Word := match (s.queue q).cmd with
      | some c => if (s.queue q).state = .inWait then (c.ref, blkWord c.record 0x18) else (0, 0)
      | none => (0, 0)
    s.updQueue q fun x => { x with wsaddr := v.1, wsthr := v.2 }
  let bits := s.fe.queues.foldl (fun a p => if p.2.state = .inWait then a + 2 ^ p.1 else a) 0
  (s.fe.queues.foldl (fun s p => snap s p.1) s, BitVec.ofNat 64 bits)

def execFeWaitsnap (s : State) : Result := .next (feOn s (waitsnap s).1)

/-- FE_TQPUSH (R538): the entry is read at the address written; one that cannot be read is not appended. -/
def tqPush (s : State) (k : Nat) (v : Word) : State :=
  match memRead s (wfld v 5 35 * 32) 32 with
  | (s, .ok bs) => feSettle (pushTaskq s k bs)
  | (s, .error _) => s

def execFeTqpush (k : Fin 32) (v : Word) (s : State) : Result := .next (feOn s (tqPush s k.val v))

/-! ### waitq (R539, R540) -/

/-- The wait of an issued `waitq`: it completes at once, or parks the tile. -/
def waitqRun (t : TileId) (f : LR) (s : State) : Effect :=
  let c : CoreId := .tile t
  let a := s.reg c f.rs1
  let b := s.reg c f.rs2
  let sel : BitVec 16 := a.extractLsb' 0 16
  let tq := wbit a 16
  let off := wfld a 32 20
  if wfld a 17 15 ≠ 0 || wfld a 52 12 ≠ 0 || wfld b 32 32 ≠ 0 then illegal
  else if !waitDone s t.val sel tq && b ≠ 0 && (t0free (s.core c)).isNone then .error { code := cTimerBusy }
  else if tq && scratchBytes s t.val < off + 32 then .error { code := cStoreWin, addr := BitVec.ofNat 64 (0xFC00000000 + off) }
  else if waitDone s t.val sel tq then
    let r := waitResult s t.val sel tq off false
    doneOcc (feSettle (firstWaitq (r.1.setReg c f.rd r.2) t.val)) 12
  else
    let park := fun (timer : Option Nat) (s : State) =>
      let s := if tq then s.updTaskq (clusterOf t.val) fun q => { q with parked := q.parked ++ [t.val] } else s
      let s := s.updCore c fun k => { k with run := .parked { rd := f.rd, sel := sel, tq := tq, off := off, timer := timer } }
      Except.ok { st := feSettle (firstWaitq s t.val), flow := Flow.stay, occ := 12 }
    if b = 0 then park none s
    else match t0free (s.core c) with
      | none => .error { code := cTimerBusy }
      | some i => park (some i) (s.updCore c fun k => t0take k i true (s.mono + b.toNat * 1000))

def execWaitq (c : CoreId) (f : LR) (s : State) : Result :=
  .next (match c with
    | .svc _ => issue c [f.rs1, f.rs2] 4 false done s
    | .tile t => issue c [f.rs1, f.rs2] 4 (!f.f) (waitqRun t f) s)

/-- A timer 0 entry reaches its deadline (R158, R540): an alarm fires, a wait ends by its limit. -/
def execTimer0EntryExpiry (c : CoreId) (i : Fin 4) (s : State) : Result :=
  .next (
    let e := aget {} (s.core c).t0 i.val
    if s.power ≠ .run || !e.busy then s
    else
      let s := s.reach e.deadline
      if !e.waitq then s.updCore c fun k => t0fire k i.val
      else match c, (s.core c).run with
        | .tile t, .parked p => wake s t.val p true
        | _, _ => s)

/-! ### The tick (log 9) -/

/-- Time passes on an empty queue, and the front end goes on with whatever can. -/
def tickStep (s : State) : State := if s.power = .run then feSettle (writesPerformed (idle s)) else s

end Sys2Proof.Machine
end

