-- ==== Sys2Proof/Machine/Mailbox.lean ====
section
/-! DEFINITION. Mailboxes and doorbells (R575 to R580). -/

namespace Sys2Proof.Machine

open Sys2Proof

/-! ### Mailboxes (R575 to R577) -/

def State.mbox (s : State) : MbId → Mailbox
  | .hmb n => aget {} s.host.hmb n.val
  | .tmb t => aget {} s.host.tmb t.val

def State.updMbox (s : State) (m : MbId) (f : Mailbox → Mailbox) : State :=
  match m with
  | .hmb n => { s with host := { s.host with hmb := aput s.host.hmb n.val (f (s.mbox m)) } }
  | .tmb t => { s with host := { s.host with tmb := aput s.host.tmb t.val (f (s.mbox m)) } }

/-- The module-side end of an HMB is notified (R577). -/
def notifyModule (s : State) (x : Mailbox) : State := if x.fw then s else ringTile s x.tile.toNat x.mdb.toNat

/-- The receiving end is notified when full rises (R577). -/
def notifyReceiver (s : State) (m : MbId) : State :=
  match m with
  | .hmb n => if n.val < 8 then notifyModule s (s.mbox m) else ringHost s (s.mbox m).hdb.toNat
  | .tmb _ => s

/-- The sending end is notified when ackv rises (R577). -/
def notifySender (s : State) (m : MbId) : State :=
  match m with
  | .hmb n => if n.val < 8 then ringHost s (s.mbox m).hdb.toNat else notifyModule s (s.mbox m)
  | .tmb _ => s

/-- A content or send write to a mailbox that is full sets both collision flags (R576). -/
def collide (x : Mailbox) : Mailbox := if x.full then { x with rcoll := true, scoll := true } else x

/-- A write of MB_DATAi (R576). -/
def mbDataWrite (s : State) (m : MbId) (i : Nat) (v : Word) : State :=
  s.updMbox m fun x => { collide x with data := aset 0 x.data i v }

/-- A write of MB_SEND (R576). -/
def mbSendWrite (s : State) (m : MbId) : State :=
  if (s.mbox m).full then s.updMbox m collide
  else notifyReceiver (s.updMbox m fun x => { x with full := true }) m

/-- A write of MB_ACK (R576); discarded while the mailbox is empty. -/
def mbAckWrite (s : State) (m : MbId) (code : BitVec 16) : State :=
  let x := s.mbox m
  if !x.full then s
  else
    let s := s.updMbox m fun x => { x with full := false, code := code, ackv := true }
    if x.ackv then s else notifySender s m

/-- A write of MB_STAT: ackv, rcoll and scoll are write-one-to-clear (R575). -/
def mbStatWrite (s : State) (m : MbId) (v : Word) : State :=
  s.updMbox m fun x => { x with
    ackv := x.ackv && !wbit v 3, rcoll := x.rcoll && !wbit v 2, scoll := x.scoll && !wbit v 1 }

def mbStat (x : Mailbox) : Word :=
  pack [(x.code.toNat, 16), (b2n x.ackv, 3), (b2n x.rcoll, 2), (b2n x.scoll, 1), (b2n x.full, 0)]

/-- MB_CFG of an HMB (R575). -/
def mbCfgWrite (s : State) (m : MbId) (v : Word) : State :=
  s.updMbox m fun x => { x with
    fw := wbit v 48, tile := v.extractLsb' 32 8, mdb := v.extractLsb' 24 5, hdb := v.extractLsb' 16 5 }

def mbCfg (x : Mailbox) : Word := pack [(b2n x.fw, 48), (x.tile.toNat, 32), (x.mdb.toNat, 24), (x.hdb.toNat, 16)]

def execMbData (m : MbId) (i : Fin 8) (v : Word) (s : State) : Result := .next (feOn s (mbDataWrite s m i.val v))
def execMbSend (m : MbId) (_v : Word) (s : State) : Result := .next (feOn s (mbSendWrite s m))
def execMbAck (m : MbId) (v : Word) (s : State) : Result := .next (feOn s (mbAckWrite s m (v.extractLsb' 0 16)))

/-! ### Doorbells (R578, R579) -/

/-- The host doorbell bits that notify (R572). -/
def hostBells (s : State) : BitVec 32 := s.host.hdb &&& ~~~s.host.hdbm

/-- A bit that no longer notifies is due again when it next rises (R572). -/
def bellsFell (s : State) : State :=
  { s with host := { s.host with sessions := s.host.sessions.map fun (p : Nat × Session) =>
      (p.1, { p.2 with seenDb := p.2.seenDb &&& hostBells s }) } }

/-- DBSET: ones set bits (R578). -/
def dbSet (s : State) (d : DbId) (v : Word) : State :=
  let b : BitVec 32 := v.extractLsb' 0 32
  match d with
  | .tile t => s.updTile t.val fun x => { x with tdb := x.tdb ||| b }
  | .host => { s with host := { s.host with hdb := s.host.hdb ||| b } }

/-- DB: ones clear bits (R578). -/
def dbClear (s : State) (d : DbId) (v : Word) : State :=
  let b : BitVec 32 := v.extractLsb' 0 32
  match d with
  | .tile t => s.updTile t.val fun x => { x with tdb := x.tdb &&& ~~~b }
  | .host => bellsFell { s with host := { s.host with hdb := s.host.hdb &&& ~~~b } }

/-- DB_MASK (R578). -/
def dbMaskWrite (s : State) (d : DbId) (v : Word) : State :=
  let b : BitVec 32 := v.extractLsb' 0 32
  match d with
  | .tile t => s.updTile t.val fun x => { x with tdbm := b }
  | .host => bellsFell { s with host := { s.host with hdbm := b } }

def execDbset (d : DbId) (v : Word) (s : State) : Result := .next (feOn s (dbSet s d v))
def execDb (d : DbId) (v : Word) (s : State) : Result := .next (feOn s (dbClear s d v))
def execDbMask (d : DbId) (v : Word) (s : State) : Result := .next (feOn s (dbMaskWrite s d v))

end Sys2Proof.Machine
end

