-- ==== Sys2Proof/Machine/Ezori.lean ====
section
/-! DEFINITION. The packets and messages of Ezori: headers, seals, message pieces, acknowledgements, the messages of the handshake, and the requests and answers of the operations (R558 to R560, R563, R569, R570). -/

namespace Sys2Proof.Machine

open Sys2Proof

/-! ### Big-endian numbers (R558) -/

def beBytes (n v : Nat) : List Byte := (toBytes n v).reverse

/-- The big-endian number of `n` bytes at `o`. -/
def beAt (bs : List Byte) (o n : Nat) : Nat := ofBytes ((bs.drop o).take n).reverse

/-! ### Packets (R558, R559) -/

/-- The packet types. -/
def tHelloR : Nat := 1
def tFinishI : Nat := 2
def tFinishR : Nat := 3
def tData : Nat := 4
def tAck : Nat := 5
def tClose : Nat := 6
def tProbe : Nat := 7

def ezHdrBytes (h : EzHeader) : List Byte :=
  [h.ver ++ h.ptype, h.flags, h.path, h.rsv] ++ beBytes 4 h.sid.toNat ++ beBytes 8 h.pn.toNat ++ beBytes 8 h.rsv2.toNat

/-- A header of a sealed packet of type `t` for session ID `sid`, with no reserved value. -/
def ezHdrOk (h : EzHeader) (t sid : Nat) : Bool :=
  h.ver = 1 && h.ptype.toNat = t && h.flags = 1 && h.rsv = 0 && h.rsv2 = 0 && h.sid.toNat = sid

/-- The header of a packet that the module sends from a port. -/
def ownHdr (t p : Nat) (sealed : Bool) (sid : BitVec 32) (pn : Nat) : EzHeader :=
  { ver := 1, ptype := BitVec.ofNat 4 t, flags := if sealed then 1 else 0, path := BitVec.ofNat 8 ((if 4 ≤ p then 8 else 0) + p % 8)
    rsv := 0, sid := sid, pn := BitVec.ofNat 64 pn, rsv2 := 0 }

def ezNonce (salt : List Byte) (pn : Nat) : List Byte := salt ++ beBytes 8 pn

/-- A sealed packet opened under a direction's key; none when its tag fails. -/
def ezOpen (key salt : List Byte) (h : EzHeader) (body tag : List Byte) : Option (List Byte) :=
  let n := ezNonce salt h.pn.toNat
  if gcmTag key n (ezHdrBytes h) body = tag then some (gcmStream key n body) else none

/-! ### Pieces put together (R560, R563) -/

/-- The bytes from `o` to `total` that pieces (offset, bytes) give, when they give them all. -/
def gather : Nat → List (Nat × List Byte) → Nat → Nat → Option (List Byte)
  | 0, _, _, _ => none
  | n + 1, ps, total, o =>
    if total ≤ o then some []
    else match ps.find? fun p => p.1 = o && p.2 ≠ [] with
      | none => none
      | some p => (gather n ps total (o + p.2.length)).map (p.2 ++ ·)

/-- Bytes cut into pieces of at most `n`, each with its offset; no bytes are one empty piece. -/
def cut (n : Nat) (bs : List Byte) : List (Nat × List Byte) :=
  (List.range (max 1 ((bs.length + n - 1) / n))).map fun i => (n * i, (bs.drop (n * i)).take n)

/-! ### Messages (R563) -/

/-- The message header. -/
def msgHdr (msn op flags status : Nat) (xid : Word) (offset total : Nat) : List Byte :=
  beBytes 4 msn ++ beBytes 1 op ++ beBytes 1 flags ++ beBytes 2 status ++ beBytes 8 xid.toNat ++ beBytes 4 offset ++ beBytes 4 total

/-- The piece that the plaintext of a DATA packet holds; none when it is not formed as R563 states (log 102). -/
def parsePiece (bs : List Byte) : Option MsgPiece :=
  let flags := beAt bs 5 1
  let offset := beAt bs 16 4
  let total := beAt bs 20 4
  let body := bs.drop 24
  if 24 ≤ bs.length && decide (flags < 8) && decide (offset + body.length ≤ total) &&
      decide (fld flags 1 1 = 1) = decide (offset + body.length = total) && (fld flags 0 1 = 1 || beAt bs 6 2 = 0) then
    some {
      msn := BitVec.ofNat 32 (beAt bs 0 4), op := BitVec.ofNat 8 (beAt bs 4 1), response := fld flags 0 1 = 1
      lastPiece := fld flags 1 1 = 1, cmpl := fld flags 2 1 = 1, xid := BitVec.ofNat 64 (beAt bs 8 8), offset := offset, total := total
      bytes := body }
  else none

/-- A message that has arrived whole. -/
structure MsgIn where
  op : BitVec 8
  response : Bool
  cmpl : Bool
  xid : Word
  body : List Byte
  deriving DecidableEq, Repr

/-- The next message of a session, once all its pieces are there (R565). -/
def nextMsg (x : Session) : Option MsgIn :=
  let ps := x.pieces.filter fun m => m.msn.toNat = x.nextMsn
  match ps with
  | [] => none
  | m :: _ =>
    (gather (ps.length + 1) (ps.map fun m => (m.offset, m.bytes)) m.total 0).map fun b => ⟨m.op, m.response, m.cmpl, m.xid, b⟩

/-! ### Requests (R569) -/

/-- What a request asks for. -/
inductive HostReq where
  | write (addr : Word) (data : List Byte) (cmpl : Bool)
  | read (addr : Word) (len : Nat)
  | doorbell (q : BitVec 8) (tail : BitVec 16)
  | mbSend (m : BitVec 8) (data : List Word)
  | mbAck (m : BitVec 8) (code : BitVec 16)
  | attest (nonce : BitVec 256)
  | logRead (first : BitVec 32) (count : Nat)
  | featQuery
  | featAccept (vec : BitVec 256)
  deriving DecidableEq, Repr

/-- The request that a message is: none for an op that R569 does not give the host, and for a body of another form (log 102). -/
def reqOf (m : MsgIn) : Option HostReq :=
  let b := m.body
  let zero := fun (o n : Nat) => beAt b o n = 0
  let addr := BitVec.ofNat 64 (beAt b 0 8)
  if m.response then none
  else match m.op.toNat with
  | 1 => if 8 ≤ b.length then some (.write addr (b.drop 8) m.cmpl) else none
  | 2 => if b.length = 12 then some (.read addr (beAt b 8 4)) else none
  | 3 => if b.length = 4 && zero 1 1 then some (.doorbell (BitVec.ofNat 8 (beAt b 0 1)) (BitVec.ofNat 16 (beAt b 2 2))) else none
  | 4 =>
    let box := BitVec.ofNat 8 (beAt b 1 1)
    if beAt b 0 1 = 0 && b.length = 72 && zero 4 4 then
      some (.mbSend box ((List.range 8).map fun i => BitVec.ofNat 64 (ofBytes ((b.drop (8 + 8 * i)).take 8))))
    else if beAt b 0 1 = 1 && b.length = 8 && zero 4 4 then some (.mbAck box (BitVec.ofNat 16 (beAt b 2 2)))
    else none
  | 6 => if b.length = 32 then some (.attest (BitVec.ofNat 256 (ofBytes b))) else none
  | 7 => if b.length = 8 then some (.logRead (BitVec.ofNat 32 (beAt b 0 4)) (beAt b 4 4)) else none
  | 8 =>
    if beAt b 0 1 = 0 && b.length = 8 && zero 1 7 then some .featQuery
    else if beAt b 0 1 = 1 && b.length = 40 && zero 1 7 then some (.featAccept (BitVec.ofNat 256 (ofBytes (b.drop 8))))
    else none
  | _ => none

/-- The next message of a session is this request. -/
def asks (x : Session) (xid : Word) (q : HostReq) : Bool :=
  match nextMsg x with
  | some m => m.xid = xid && reqOf m = some q
  | none => false

/-! ### Answers and events (R569, R570, R572, R621) -/

/-- A message that the module sends in a session. -/
inductive HostMsg where
  | resp (op : BitVec 8) (xid : Word) (st : HStatus) (data : List Byte)
  | log (xid : Word) (next : BitVec 32) (lost : BitVec 32) (entries : List LogEntry)
  | feat (xid : Word) (offered active : BitVec 256)
  | report (xid : Word) (body sig cert : List Byte)
  | event (kind : Nat) (value : Word)
  deriving DecidableEq, Repr

def statusCode : HStatus → Nat
  | .ok => 0
  | .badop => 1
  | .addr => 2
  | .graph => 3
  | .align => 4
  | .uncorr => 5
  | .thermal => 6
  | .bus => 7
  | .busy => 8

def msgBody : HostMsg → List Byte
  | .resp _ _ _ data => data
  | .log _ next lost es => beBytes 4 next.toNat ++ beBytes 4 lost.toNat ++ es.flatMap logBytes
  | .feat _ offered active => toBytes 32 offered.toNat ++ toBytes 32 active.toNat
  | .report _ body sig cert => body ++ sig ++ cert
  | .event kind value => beBytes 1 kind ++ zeros 7 ++ beBytes 8 value.toNat

def msgOp : HostMsg → Nat
  | .resp op _ _ _ => op.toNat
  | .log _ _ _ _ => 7
  | .feat _ _ _ => 8
  | .report _ _ _ _ => 6
  | .event _ _ => 5

def msgStatus : HostMsg → Nat
  | .resp _ _ st _ => statusCode st
  | _ => 0

def msgXid : HostMsg → Word
  | .resp _ xid _ _ => xid
  | .log xid _ _ _ => xid
  | .feat xid _ _ => xid
  | .report xid _ _ _ => xid
  | .event _ _ => 0

/-- An EVENT is a request of the module; every other message answers one. -/
def msgAnswers : HostMsg → Bool
  | .event _ _ => false
  | _ => true

/-- The plaintexts of the DATA packets of a message, with pieces of at most `n` bytes. -/
def msgContents (n msn : Nat) (m : HostMsg) : List (List Byte) :=
  let b := msgBody m
  (cut n b).map fun p =>
    msgHdr msn (msgOp m) (b2n (msgAnswers m) + 2 * b2n (p.1 + p.2.length = b.length)) (msgStatus m) (msgXid m) p.1 b.length ++ p.2

/-! ### Acknowledgements (R563) -/

def ackBytes (cum win ce : Nat) (ranges : List (Nat × Nat)) : List Byte :=
  beBytes 8 cum ++ beBytes 4 win ++ beBytes 4 ce ++ beBytes 4 ranges.length ++
    ranges.flatMap fun r => beBytes 8 r.1 ++ beBytes 4 r.2

/-- The payload of an ACK: cum, win, ce and the ranges. -/
structure AckIn where
  cum : Nat
  win : Nat
  ce : Nat
  ranges : List (Nat × Nat)
  deriving DecidableEq, Repr

def parseAck (bs : List Byte) : Option AckIn :=
  let nr := beAt bs 16 4
  if decide (nr ≤ 16) && bs.length = 20 + 12 * nr then
    some ⟨beAt bs 0 8, beAt bs 8 4, beAt bs 12 4, (List.range nr).map fun i => (beAt bs (20 + 12 * i) 8, beAt bs (28 + 12 * i) 4)⟩
  else none

/-! ### The handshake (R560) -/

/-- The fragment header and a piece of a handshake message. -/
def fragBytes (t total : Nat) (p : Nat × List Byte) : List Byte :=
  beBytes 1 t ++ zeros 3 ++ beBytes 4 total ++ beBytes 4 p.1 ++ p.2

/-- A piece of a handshake message of type `t`: total length, offset, bytes. -/
def parseFrag (t : Nat) (bs : List Byte) : Option (Nat × Nat × List Byte) :=
  if 12 ≤ bs.length && beAt bs 0 1 = t && beAt bs 1 3 = 0 then some (beAt bs 4 4, beAt bs 8 4, bs.drop 12) else none

/-- A handshake message that has arrived whole. -/
def wholeFrags (ps : List (Nat × Nat × List Byte)) : Option (List Byte) :=
  match ps with
  | [] => none
  | p :: _ => gather (ps.length + 1) (ps.map fun q => q.2) p.1 0

/-- HELLO_I, its fields in the order in which R560 names them (log 103). -/
def helloIBytes (h : HostHello) (hsid : BitVec 32) (events : Bool) : List Byte :=
  toBytes 32 h.nonce.toNat ++ beBytes 4 hsid.toNat ++ h.ek ++ beBytes 1 (b2n events) ++ beBytes 1 h.eps.length ++
    h.eps.flatMap fun e => beBytes 1 (b2n e.net) ++ beBytes 16 e.addr.toNat ++ beBytes 2 e.port.toNat

/-- HELLO_R up to its signature (log 103). -/
def helloRBytes (nonce : List Byte) (msid : Nat) (ct cert : List Byte) : List Byte := nonce ++ beBytes 4 msid ++ ct ++ cert

/-- The 72 bytes of keys and salts: those of the host-to-module direction first. -/
def ezKeys (ss : BitVec 256) (h1 : List Byte) : List Byte := shakeBytes (asciiBytes "EZORI-SESS" ++ toBytes 32 ss.toNat ++ h1) 72

/-- What the owner key signs in FINISH_I (log 103). -/
def finishHash (h1 : List Byte) : List Byte := shakeBytes (h1 ++ asciiBytes "EZORI-HOST") 64

end Sys2Proof.Machine
end

