-- ==== Sys2Proof/Machine/HostPorts.lean ====
section
/-! DEFINITION. Host ports and the transport of Ezori: frames, neighbours, sessions, acknowledgements, retransmission, rate control and failover (R546 to R568, R572 to R574). -/

namespace Sys2Proof.Machine

open Sys2Proof

def State.hport (s : State) (p : Nat) : HostPort := aget {} s.host.ports p
def State.updHport (s : State) (p : Nat) (f : HostPort → HostPort) : State :=
  { s with host := { s.host with ports := aput s.host.ports p (f (s.hport p)) } }

def State.sess (s : State) (i : Nat) : Session := aget {} s.host.sessions i
def State.updSess (s : State) (i : Nat) (f : Session → Session) : State :=
  { s with host := { s.host with sessions := aput s.host.sessions i (f (s.sess i)) } }

/-- A frame leaves by the host ports. -/
def hostSend (s : State) (m : HostOut) : State := { s with host := { s.host with out := s.host.out ++ [m] } }

def portUp (s : State) (p : Nat) : Bool := (s.hport p).state = 3

/-- The network of a port (R546). -/
def netOf (p : Nat) : Bool := decide (4 ≤ p)

/-! ### Frames (R548 to R555, R557) -/

/-- A frame that fails its FCS or exceeds the MTU (R548). -/
def frameBad (x : HostPort) (f : Frame) : Bool := !f.fcsOk || decide (x.mtu < f.ipLen)

/-- A frame that R549 to R555 discard. -/
def frameOther (x : HostPort) (f : Frame) : Bool :=
  f.stacked || (match f.vid with | some v => v.toNat ≠ x.vid | none => x.vid ≠ 0) || f.fragment || f.extHdr || (f.v4 && !x.v4) ||
    (match f.proto with | .lldp => true | .routerAdv => true | .other => true | _ => false)

def isUdp (f : Frame) : Bool := match f.proto with | .ezori => true | .ptp => true | _ => false

/-- What a received frame leaves in the counters (R557). -/
def frameCount (x : HostPort) (f : Frame) : HostPort :=
  if frameBad x f then { x with fcs := sat16 x.fcs 1 }
  else if f.proto = .macControl then x
  else if frameOther x f then { x with other := sat16 x.other 1 }
  else if isUdp f && !f.csumOk then { x with csum := sat16 x.csum 1 }
  else if f.proto = .ezori && f.ce then { x with ce := sat16 x.ce 1 }
  else x

/-- A frame is received on a port that is up (R548 to R557); what it carries is the command of its protocol. -/
def execEthernetFrame (p : PortNo) (f : Frame) (s : State) : Result :=
  .next (if s.power = .run && portUp s p.val then s.updHport p.val fun x => frameCount x f else s)

/-! ### Neighbours, echo and LLDP (R550, R554) -/

/-- An entry of the neighbour cache, newest first, 256 at most (R550). -/
def learn (x : HostPort) (a : BitVec 128) (mac : BitVec 48) : HostPort :=
  { x with nbrs := ((a, mac) :: x.nbrs.filter fun p => p.1 ≠ a).take 256 }

/-- The IPv4 address as the neighbour cache holds it. -/
def v4Key (a : BitVec 32) : BitVec 128 := a.zeroExtend 128

def execNeighborDiscovery (p : PortNo) (m : NdMsg) (s : State) : Result :=
  .next (
    let x := s.hport p.val
    if s.power ≠ .run || !portUp s p.val then s
    else match m with
      | .solicit target src mac =>
        if target = x.addr6 then hostSend (s.updHport p.val fun x => learn x src mac) (.advert p.val src) else s
      | .advert a mac => s.updHport p.val fun x => learn x a mac
      | .arpRequest target src mac =>
        if x.v4 && target = x.addr4 then hostSend (s.updHport p.val fun x => learn x (v4Key src) mac) (.arp p.val src) else s
      | .arpReply a mac => if x.v4 then s.updHport p.val fun x => learn x (v4Key a) mac else s)

/-- An echo request is answered, at most 100 in a second of MOD_MONO (R550). -/
def execEchoRequest (p : PortNo) (v6 : Bool) (src : BitVec 128) (data : List Byte) (s : State) : Result :=
  .next (
    let x := s.hport p.val
    let now := s.mono / 1000000000
    let n := if x.echoSec = now then x.echoes else 0
    if s.power ≠ .run || !portUp s p.val || (!v6 && !x.v4) || 100 ≤ n then s
    else hostSend (s.updHport p.val fun x => { x with echoSec := now, echoes := n + 1 }) (.echo p.val v6 src data))

/-- An address of 32 bits is an IPv4 address (log 102). -/
def isV4 (a : BitVec 128) : Bool := decide (a.toNat < 2 ^ 32)

/-- Where a packet for `a` goes first: the peer itself when it is on the link of the port, else the port's gateway (R550). -/
def nextHop (e : EthCfg) (a : BitVec 128) : BitVec 128 :=
  if isV4 a then
    (if a.toNat / 2 ^ (32 - e.mlen) = e.addr4.toNat / 2 ^ (32 - e.mlen) then a else v4Key e.gate4)
  else if a.toNat / 2 ^ (128 - e.plen) = e.addr6.toNat / 2 ^ (128 - e.plen) then a else e.gate6

/-- The module asks for a next hop that its cache does not hold (R550). -/
def resolve (s : State) (p : Nat) (a : BitVec 128) : State :=
  match s.start.cfg.eth.find? fun e => e.1 = p with
  | none => s
  | some e =>
    let hop := nextHop e.2 a
    if (s.hport p).nbrs.any fun n => n.1 = hop then s
    else hostSend s (if isV4 a then .arpAsk p (hop.setWidth 32) else .solicit p hop)

def lldpPeriod : Nat := 30000000000

/-- LLDP every 30 s (R554). -/
def execLldpTimer (p : PortNo) (s : State) : Result :=
  .next (
    if s.power ≠ .run || !portUp s p.val then s
    else
      let s := s.reach (s.hport p.val).lldpDue
      hostSend (s.updHport p.val fun x => { x with lldpDue := s.mono + lldpPeriod }) (.lldp p.val s.sec.serial 120 s.start.cfg.name (s.hport p.val).addr6))

/-! ### Paths (R567, R568) -/

/-- Ports over which a session has a path in a network: those with a host endpoint there. -/
def netPorts (x : Session) (net : Bool) : List Nat :=
  if x.eps.any fun e => e.net = net then (if net then [4, 5, 6, 7] else [0, 1, 2, 3]) else []

def pathUp (s : State) (x : Session) (p : Nat) : Bool := portUp s p && (aget {} x.paths p).up

/-- Paths of a network that are up. -/
def upPaths (s : State) (x : Session) (net : Bool) : List Nat := (netPorts x net).filter (pathUp s x)

/-- The path with the most sending allowance, ties to the lower port (R567). -/
def bestPath (s : State) (x : Session) : Option Nat :=
  match upPaths s x x.net with
  | [] => none
  | p :: ps => some (ps.foldl (fun b q => if (aget {} x.paths b).rate < (aget {} x.paths q).rate then q else b) p)

def updPath (x : Session) (p : Nat) (f : Path → Path) : Session := { x with paths := aput x.paths p (f (aget {} x.paths p)) }

/-- The host endpoint that a module port pairs with (R567). -/
def peerOf (x : Session) (p : Nat) : HostEp :=
  let es := x.eps.filter fun e => e.net = netOf p
  es.getD (p % es.length) ⟨false, 0, 0⟩

/-- msid of a session (R561). -/
def msid (s : State) (i : Nat) : Nat := (s.sess i).gen * 256 + i

/-- A packet of session `i` for an endpoint, from a port: ECT(0), hop limit 64, the port's VLAN (R549 to R552). -/
def packetOf (s : State) (i p : Nat) (dst : HostEp) (h : EzHeader) (body tag : List Byte) : OutPacket :=
  { port := p, dst := dst, sport := Config.udpSource i p, ecn := 2, hops := 64, vid := (s.hport p).vid
    pcp := (match s.start.cfg.eth.find? fun e => e.1 = p with | some e => e.2.pcp | none => 0), hdr := h, body := body, tag := tag }

/-- A sealed packet of a session, under its next packet number (R559). -/
def sealedPkt (s : State) (i p : Nat) (dst : HostEp) (t : Nat) (body : List Byte) : OutPacket :=
  let x := s.sess i
  let h := ownHdr t p true x.hsid x.txPn
  let n := ezNonce x.txSalt x.txPn
  let ct := gcmStream x.txKey n body
  packetOf s i p dst h ct (gcmTag x.txKey n (ezHdrBytes h) ct)

/-- It leaves, and its number is used. -/
def sealOut (s : State) (i p : Nat) (dst : HostEp) (t : Nat) (body : List Byte) : State :=
  hostSend (s.updSess i fun x => { x with txPn := x.txPn + 1, lastTx := s.mono }) (.ez (sealedPkt s i p dst t body))

/-- Packet numbers end at 2^48 (R559). -/
def pnEnd : Nat := 2 ^ 48

/-- A session ends (R562): its keys, paths and packets go; its index keeps its generation. -/
def endSess (s : State) (i : Nat) : State :=
  { s.updSess i fun x => { gen := x.gen } with host := { (s.updSess i fun x => { gen := x.gen }).host with
      handshakes := s.host.handshakes.filter fun h => h.sess ≠ i } }

/-- The module ends a session with a CLOSE, which its best path carries (R562). -/
def closeSess (s : State) (i reason : Nat) : State :=
  endSess (match bestPath s (s.sess i) with
    | some p => sealOut s i p (peerOf (s.sess i) p) tClose (beBytes 4 reason)
    | none => s) i

/-- A DATA packet or a PROBE leaves on a path, and is in flight until it is acknowledged (R559, R564, R568). -/
def sendOn (s : State) (i p : Nat) (probe : Bool) (content : List Byte) (again : Bool) : State :=
  let x := s.sess i
  if pnEnd ≤ x.txPn then closeSess s i 4
  else
    let sent : Sent := { pn := x.txPn, content := content, port := p, at_ := s.mono, again := again, probe := probe }
    (sealOut s i p (peerOf x p) (if probe then tProbe else tData) content).updSess i fun x => { x with inFlight := x.inFlight ++ [sent] }

/-- A content leaves on the best path; it waits while no path is up (R567, R568). -/
def sendBest (s : State) (i : Nat) (content : List Byte) (again : Bool) : State :=
  match bestPath s (s.sess i) with
  | some p => sendOn s i p false content again
  | none => s.updSess i fun x => { x with waiting := x.waiting ++ [content] }

/-- The contents that wait leave once a path is up (R568). -/
def flushWaiting (s : State) (i : Nat) : State :=
  match bestPath s (s.sess i) with
  | none => s
  | some _ => (s.sess i).waiting.foldl (fun s c => sendBest s i c true) (s.updSess i fun x => { x with waiting := [] })

/-- The content of lost packets is sent again under new numbers, on the best path; it waits while no path is up (R564). A PROBE has
no content. -/
def resendLost (s : State) (i : Nat) (lost : List Sent) : State :=
  let s := s.updSess i fun x => { x with inFlight := x.inFlight.filter fun e => !lost.contains e }
  (lost.filter fun e => !e.probe).foldl (fun s e => sendBest s i e.content true) s

/-- NETWORK_FAILOVER (R568): with no path left in the active network, the session moves to the other one and resends every
packet that is not acknowledged. -/
def failover (s : State) (i : Nat) : State :=
  let x := s.sess i
  if upPaths s x x.net = [] && upPaths s x (!x.net) ≠ [] then
    let s := s.updSess i fun x => { x with net := !x.net }
    resendLost (flushWaiting s i) i x.inFlight
  else s

/-- A path goes down (R568). -/
def pathDown (s : State) (i p : Nat) : State := failover (s.updSess i fun x => updPath x p fun q => { q with up := false }) i

def liveSessions (s : State) : List Nat := (s.host.sessions.filter fun p => p.2.state = .established).map fun p => p.1

/-! ### Negotiation (R546, R547) -/

/-- PHY types a port offers, best first (R547). -/
def offers (pmd : BitVec 4) : List (BitVec 4) :=
  match pmd.toNat with
  | 1 => [1, 4]
  | 2 => [2, 5]
  | _ => [pmd]

/-- The result of negotiation and training: the PHY type, and the state of R556. -/
def negotiated (cfg : BitVec 4) (peer : NegPeer) : BitVec 4 × BitVec 3 :=
  if cfg = 0 || 6 < cfg.toNat then (cfg, 0)
  else if cfg = 3 || cfg = 6 then (cfg, if peer.trained then 3 else 1)
  else match (offers cfg).find? fun o => peer.offers.contains o with
    | none => (cfg, 1)
    | some o => (o, if peer.trained then 3 else 1)

/-- A port comes up or leaves state up: sessions gain the paths they have not had, or lose theirs (R567, R568). -/
def portState (s : State) (p : Nat) : State :=
  if portUp s p then
    (liveSessions s).foldl (fun s i =>
      if (netPorts (s.sess i) (netOf p)).contains p && !ahas (s.sess i).paths p then
        flushWaiting (resolve (s.updSess i fun x => updPath x p fun q => { q with up := true }) p (peerOf (s.sess i) p).addr) i
      else s) s
  else (liveSessions s).foldl (fun s i => if (aget {} (s.sess i).paths p).up then pathDown s i p else s) s

def execAutoNegotiation (p : PortNo) (peer : NegPeer) (s : State) : Result :=
  .next (
    if s.power ≠ .run then s
    else
      let cfg := match s.start.cfg.eth.find? fun e => e.1 = p.val with | some e => e.2.pmd | none => 0
      let r := negotiated cfg peer
      portState (s.updHport p.val fun x => { x with pmd := r.1, state := r.2 }) p.val)

/-! ### Receiving (R558, R559) -/

/-- Runs of accepted packet numbers above cum, highest first (R563). -/
def runsDown (xs : List Nat) : List (Nat × Nat) :=
  xs.foldl (fun rs x => match rs with
    | (a, n) :: rest => if a + n = x then (a, n + 1) :: rest else (x, 1) :: rs
    | [] => [(x, 1)]) []

def insertNat (n : Nat) : List Nat → List Nat
  | [] => [n]
  | x :: xs => if n < x then n :: x :: xs else if n = x then x :: xs else x :: insertNat n xs

/-- cum moves over every number accepted next. -/
def advanceCum : Nat → Nat → List Nat → Nat × List Nat
  | 0, c, xs => (c, xs)
  | n + 1, c, xs => match xs with
    | x :: rest => if x = c then advanceCum n (c + 1) rest else (c, xs)
    | [] => (c, xs)

/-- A packet number that a receiver discards (R559). -/
def pnStale (x : Session) (pn : Nat) : Bool := decide (pn < x.rxCum) || x.rxSeen.contains pn || decide (pn + 65536 ≤ x.rxHigh)

/-- A packet number is accepted. -/
def acceptPn (s : State) (x : Session) (pn : Nat) : Session :=
  let seen := insertNat pn x.rxSeen
  let r := advanceCum seen.length x.rxCum seen
  { x with rxCum := r.1, rxSeen := r.2, rxHigh := max x.rxHigh pn, lastRx := s.mono }

/-- A sealed packet of type `t` for a session is received (R558, R559): one with a reserved value or another session ID is discarded,
one whose tag fails and one whose number is stale are discarded and counted, and any other is accepted and opened. -/
def ezTake (s : State) (i t : Nat) (h : EzHeader) (body tag : List Byte) (ce : Bool) : State × Option (List Byte) :=
  let x := s.sess i
  if !ezHdrOk h t (msid s i) then (s, none)
  else match ezOpen x.rxKey x.rxSalt h body tag with
    | none => ({ s with host := { s.host with auth := sat16 s.host.auth 1 } }, none)
    | some bs =>
      if pnStale x h.pn.toNat then ({ s with host := { s.host with replay := sat16 s.host.replay 1 } }, none)
      else (s.updSess i fun x => { acceptPn s x h.pn.toNat with ceCount := x.ceCount + b2n ce }, some bs)

/-- After 2^48 packets of the host the session closes (R559). -/
def pnCheck (s : State) (i pn : Nat) : State := if pnEnd ≤ pn + 1 then closeSess s i 4 else s

/-! ### Sessions (R560 to R562) -/

/-- An unsealed packet leaves for an endpoint: a piece of HELLO_R, or a CLOSE where no keys exist (R559). -/
def plainOut (s : State) (p : Nat) (dst : HostEp) (t : Nat) (sid : BitVec 32) (body : List Byte) : State :=
  hostSend s (.ez (packetOf s 0 p dst (ownHdr t p false sid 0) body []))

/-- A handshake is refused, and counted (R561, R574). -/
def hsRefused (s : State) : State := { s with host := { s.host with hsref := sat16 s.host.hsref 1 } }

/-- HELLO_R leaves in pieces that fit the port's MTU (R548, R560). -/
def sendHelloR (s : State) (p : Nat) (dst : HostEp) (hsid : BitVec 32) (msg : List Byte) : State :=
  (cut ((s.hport p).mtu - 84) msg).foldl (fun s q => plainOut s p dst tHelloR hsid (fragBytes tHelloR msg.length q)) s

/-- The module answers HELLO_I: nonce and encapsulation are drawn, and the keys and H1 follow (R560, log 103). -/
def openHandshake (s : State) (p i : Nat) (hsid : BitVec 32) (events : Bool) (h : HostHello) : State :=
  let gen := ((s.sess i).gen + 1) % 2 ^ 24
  let enc := Config.mlkemEncaps h.ek (BitVec.ofNat 256 (ofBytes (Config.freeBytes (s.free + 1) 32)))
  let pre := helloRBytes (Config.freeBytes s.free 32) (gen * 256 + i) enc.1 (ownCert s)
  let h1 := shakeBytes (helloIBytes h hsid events ++ pre) 64
  let k := ezKeys enc.2 h1
  let hs : Handshake := { id := s.host.nextHs, sess := i, hsid := hsid, events := events, eps := h.eps, port := p, start := s.mono, src := h.src, h1 := h1, frags := [] }
  let s := s.tick.tick.updSess i fun _ =>
    { state := .handshake, hsid := hsid, gen := gen, eps := h.eps
      rxKey := k.take 32, rxSalt := (k.drop 32).take 4, txKey := (k.drop 36).take 32, txSalt := k.drop 68 }
  let s := { s with host := { s.host with handshakes := s.host.handshakes ++ [hs], nextHs := s.host.nextHs + 1 } }
  sendHelloR (resolve s p h.src.addr) p h.src hsid (pre ++ Config.slhSign (idKey s) h1)

/-- HELLO_I (R560, R561): a handshake is held and HELLO_R sent, or CLOSE with BUSY. -/
def execHelloI (p : PortNo) (hsid : BitVec 32) (events : Bool) (h : HostHello) (s : State) : Result :=
  .next (
    if s.power ≠ .run || !portUp s p.val || 8 < h.eps.length then s
    else match (List.range 256).find? fun i => (s.sess i).state = .free with
      | none => plainOut (hsRefused s) p.val h.src tClose hsid (beBytes 4 2)
      | some i =>
        if 16 ≤ s.host.handshakes.length then plainOut (hsRefused s) p.val h.src tClose hsid (beBytes 4 2)
        else openHandshake s p.val i hsid events h)

def findHs (s : State) (hs : Nat) : Option Handshake := s.host.handshakes.find? fun h => h.id = hs

/-- A packet of FINISH_I: the piece that it carries is kept, and the first one names the active network (R560, R567). -/
def finishPkt (hs : Nat) (s : State) (k : EzPacket) : State :=
  match findHs s hs with
  | none => s
  | some h =>
    if !portUp s k.port.val then s
    else match ezTake s h.sess tFinishI k.hdr k.body k.tag k.ce with
      | (s, none) => s
      | (s, some bs) => match parseFrag tFinishI bs with
        | none => s
        | some f =>
          let put := fun (h : Handshake) =>
            if h.id = hs then { h with frags := h.frags ++ [f], port := if h.frags = [] then k.port.val else h.port } else h
          { s with host := { s.host with handshakes := s.host.handshakes.map put } }

/-- A session is established (R560, R567): the active network is that of the path which carried FINISH_I, and FINISH_R answers. -/
def establish (s : State) (h : Handshake) : State :=
  let s := sealOut s h.sess h.port h.src tFinishR (fragBytes tFinishR 4 (0, zeros 4))
  let s := s.updSess h.sess fun x =>
    let x := { x with
      state := .established, ev := h.events, net := netOf h.port, lastRx := s.mono, sinceAck := 0, seenDb := hostBells s
      seenSt := wfld (modStatus s) 1 3 }
    { x with paths := ((netPorts x false ++ netPorts x true).filter (portUp s)).foldl (fun m p => aput m p { up := true }) [] }
  (s.sess h.sess).paths.foldl (fun s p => resolve s p.1 (peerOf (s.sess h.sess) p.1).addr) s

/-- FINISH_I (R561): once every piece is there, the owner's signature decides. -/
def execFinishI (hs : Nat) (pkts : List EzPacket) (s : State) : Result :=
  .next (
    if s.power ≠ .run then s
    else
      let s := pkts.foldl (finishPkt hs) s
      match findHs s hs with
      | none => s
      | some h => match wholeFrags h.frags with
        | none => s
        | some sig =>
          let s := { s with host := { s.host with handshakes := s.host.handshakes.filter fun x => x.id ≠ hs } }
          if Config.ownerVerify s.start.cfg.ownerAlg s.start.cfg.ownerKey (finishHash h.h1) sig then establish s h
          else endSess (sealOut (hsRefused s) h.sess h.port h.src tClose (beBytes 4 1)) h.sess)

def execHandshakeTimeout (hs : Nat) (s : State) : Result :=
  .next (match findHs s hs with
    | none => s
    | some h => if s.power ≠ .run then s else endSess (s.reach (h.start + 10000000000)) h.sess)

def isLive (s : State) (i : Nat) : Bool := s.power = .run && (s.sess i).state = .established

/-- CLOSE (R559, R562): sealed, since a session that is not free has its keys. -/
def execClose (i : SessNo) (k : EzPacket) (s : State) : Result :=
  .next (
    if s.power ≠ .run || (s.sess i.val).state = .free || !portUp s k.port.val then s
    else match ezTake s i.val tClose k.hdr k.body k.tag k.ce with
      | (s, none) => s
      | (s, some bs) => if bs.length = 4 then endSess s i.val else s)

/-- 30 s without an accepted packet (R562, R574). -/
def execSessionIdle (i : SessNo) (s : State) : Result :=
  .next (if !isLive s i.val then s
    else
      let s := s.reach ((s.sess i.val).lastRx + 30000000000)
      closeSess { s with host := { s.host with idle := sat16 s.host.idle 1 } } i.val 3)

/-! ### DATA (R563 to R565) -/

def bufferBytes : Nat := 2 ^ 21

def heldBytes (x : Session) : Nat := (x.pieces.map fun m => m.bytes.length).sum

/-- An acknowledgement leaves on the best path (R563, R564). -/
def sendAck (s : State) (i : Nat) : State :=
  let x := s.sess i
  match bestPath s x with
  | none => s
  | some p =>
    if pnEnd ≤ x.txPn then closeSess s i 4
    else
      (sealOut s i p (peerOf x p) tAck (ackBytes x.rxCum (bufferBytes - heldBytes x) x.ceCount ((runsDown x.rxSeen).take 16))).updSess i
        fun x => { x with sinceAck := 0 }

/-- The piece of an accepted DATA packet is kept, unless it is held already or its message has started, and the packet is acknowledged
at once after a gap, a CE mark or three others (R564). -/
def dataIn (s : State) (i : Nat) (now : Bool) (m : Option MsgPiece) : State :=
  let keep := fun (x : Session) => match m with
    | none => x.pieces
    | some m =>
      if decide (m.msn.toNat < x.nextMsn) || x.pieces.any fun q => q.msn = m.msn && q.offset = m.offset then x.pieces else x.pieces ++ [m]
  let s := s.updSess i fun x => { x with sinceAck := x.sinceAck + 1, pieces := keep x }
  if now || decide (4 ≤ (s.sess i).sinceAck) then sendAck s i else s

/-- The next operation of a session starts: its message leaves the reorder buffer (R565). -/
def opTaken (s : State) (i : Nat) : State :=
  s.updSess i fun x => { x with nextMsn := x.nextMsn + 1, pieces := x.pieces.filter fun m => m.msn.toNat ≠ x.nextMsn }

/-- Largest piece of a message: the DATA packet fits every port that has a path of the session (R548, log 102). -/
def pieceMax (s : State) (x : Session) : Nat :=
  (netPorts x false ++ netPorts x true).foldl (fun m p => min m ((s.hport p).mtu - 112)) 9104

/-- A message leaves in a session: its number, and its packets on the best path (R563, R567). -/
def reply (s : State) (i : Nat) (m : HostMsg) : State :=
  let cs := msgContents (pieceMax s (s.sess i)) (s.sess i).txMsn m
  cs.foldl (fun s c => sendBest s i c false) (s.updSess i fun x => { x with txMsn := x.txMsn + 1 })

/-- Messages that are no request are passed over: one that asks for what the module does not know is answered BADOP (R569). -/
def skipBad : Nat → State → Nat → State
  | 0, s, _ => s
  | n + 1, s, i => match nextMsg (s.sess i) with
    | none => s
    | some m =>
      if (reqOf m).isSome then s
      else skipBad n (if m.response then opTaken s i else reply (opTaken s i) i (.resp m.op m.xid .badop [])) i

/-- Every message that stands before the next request is passed over. -/
def nextOps (s : State) (i : Nat) : State := skipBad ((s.sess i).pieces.length) s i

/-- DATA (R559, R563, R564): a packet for which the reorder buffer has no room is dropped. -/
def execData (i : SessNo) (p : PortNo) (hdr : EzHeader) (body : List Byte) (tag : List Byte) (ce : Bool) (s : State) : Result :=
  .next (
    let x := s.sess i.val
    if !isLive s i.val || !portUp s p.val then s
    else match ezTake s i.val tData hdr body tag ce with
      | (u, none) => u
      | (u, some bs) =>
        if bufferBytes < heldBytes x + (bs.length - 24) then s
        else pnCheck (nextOps (dataIn u i.val (decide (x.rxHigh + 1 < hdr.pn.toNat) || ce) (parsePiece bs)) i.val) i.val hdr.pn.toNat)

/-- Within 20 us of accepting DATA (R564). -/
def execEzoriAckDelay (i : SessNo) (s : State) : Result :=
  .next (if isLive s i.val && (s.sess i.val).sinceAck ≠ 0 then sendAck s i.val else s)

/-! ### Sending (R564 to R568) -/

/-- A packet number that an ACK acknowledges (R563). -/
def ackedBy (cum : Nat) (ranges : List (Nat × Nat)) (pn : Nat) : Bool :=
  decide (pn < cum) || ranges.any fun r => decide (r.1 ≤ pn) && decide (pn < r.1 + r.2)

/-- An RTT sample of a path, kept for 10 s; how srtt moves is free (log 63). -/
def sample (now free rtt : Nat) (p : Path) : Path :=
  { p with
    samples := (now, rtt) :: p.samples.filter fun q => decide (now < q.1 + 10000000000)
    srtt := if p.samples = [] then rtt else (Config.freeWord free).toNat }

/-- What an acknowledged packet tells of its path (R564, R566, R568): an acknowledged PROBE brings it back, and a packet that carried
new content gives an RTT sample. -/
def pathAcked (now free : Nat) (up : Bool) (e : Sent) (p : Path) : Path :=
  let p := { p with acked := p.acked + 1, expiries := 0, up := p.up || (e.probe && up) }
  if e.again then p else sample now (free + e.port) (now - e.at_) p

/-- An ACK marks packets delivered or lost, and feeds rate control (R564, R566, R568). -/
def ackIn (s : State) (i : Nat) (a : AckIn) : State :=
  let x := s.sess i
  let acked := x.inFlight.filter fun e => ackedBy a.cum a.ranges e.pn
  let left := x.inFlight.filter fun e => !ackedBy a.cum a.ranges e.pn
  let top := acked.foldl (fun m e => max m e.pn) 0
  let lost := left.filter fun e => decide (e.pn + 3 ≤ top) && acked ≠ []
  let marks := a.ce - x.peerCe
  let x := { x with window := a.win, peerCe := a.ce, inFlight := left }
  let x := acked.foldl (fun x e => updPath x e.port (pathAcked s.mono s.free (portUp s e.port) e)) x
  let x := match acked with
    | e :: _ => updPath x e.port fun p => { p with marked := p.marked + marks }
    | [] => x
  resendLost (flushWaiting ({ s with free := s.free + 8 }.updSess i fun _ => x) i) i lost

/-- ACK (R559, R563, R564). -/
def execAck (i : SessNo) (p : PortNo) (hdr : EzHeader) (body : List Byte) (tag : List Byte) (ce : Bool) (s : State) : Result :=
  .next (
    if !isLive s i.val || !portUp s p.val then s
    else match ezTake s i.val tAck hdr body tag ce with
      | (s, none) => s
      | (s, some bs) => pnCheck (match parseAck bs with | some a => ackIn s i.val a | none => s) i.val hdr.pn.toNat)

/-- A PROBE keeps the session alive, and is acknowledged as a DATA packet is (R562, R568, log 102). -/
def execProbe (i : SessNo) (k : EzPacket) (s : State) : Result :=
  .next (
    let x := s.sess i.val
    if !isLive s i.val || !portUp s k.port.val then s
    else match ezTake s i.val tProbe k.hdr k.body k.tag k.ce with
      | (s, none) => s
      | (s, some _) =>
        pnCheck (dataIn s i.val (decide (x.rxHigh + 1 < k.hdr.pn.toNat) || k.ce) none) i.val k.hdr.pn.toNat)

/-- When a session last had traffic. -/
def lastTraffic (x : Session) : Nat := max x.lastRx x.lastTx

/-- PROBEs are sent (R562, R568): every 100 ms on each path that is down with its port up, and on the best path after 1 s without
other traffic. -/
def execProbeTimer (i : SessNo) (s : State) : Result :=
  .next (if !isLive s i.val then s
    else
      let x := s.sess i.val
      let down := (netPorts x false ++ netPorts x true).filter fun p => portUp s p && !(aget {} x.paths p).up
      let s := s.reach (if down = [] then lastTraffic x + 1000000000 else x.lastProbe + 100000000)
      let s := s.updSess i.val fun x => { x with lastProbe := s.mono }
      let idle := if lastTraffic x + 1000000000 ≤ s.mono then (bestPath s x).toList else []
      (down ++ idle).foldl (fun s p => sendOn s i.val p true [] false) s)

/-- A retransmission timer of a path, in ns: it doubles at each expiry in a row, and is capped at 100 ms (R564). -/
def rto (p : Path) : Nat := min 100000000 (max 200000 (4 * p.srtt + 100000) * 2 ^ p.expiries)

/-- A retransmission timer expires (R564, R568): three in a row take the path down. -/
def execRetransmissionTimeout (i : SessNo) (pn : Nat) (s : State) : Result :=
  .next (if !isLive s i.val then s
    else match (s.sess i.val).inFlight.find? fun e => e.pn = pn with
      | none => s
      | some e =>
        let s := s.reach (e.at_ + rto (aget {} (s.sess i.val).paths e.port))
        let s := s.updSess i.val fun x => updPath x e.port fun p => { p with expiries := p.expiries + 1 }
        let s := if 3 ≤ (aget {} (s.sess i.val).paths e.port).expiries then pathDown s i.val e.port else s
        if (s.sess i.val).inFlight.contains e then resendLost s i.val [e] else s)

/-- Line rate of a PHY type in Gb/s (R546). -/
def lineRate (pmd : BitVec 4) : Rat := if 4 ≤ pmd.toNat then 100 else 200

/-- The rate control of a path (R566). -/
def rateStep (line : Rat) (minRtt : Nat) (p : Path) : Path :=
  let base := p.samples.foldl (fun m q => min m q.2) (p.samples.head?.map (·.2) |>.getD minRtt)
  let f : Rat := if p.acked = 0 then 0 else (p.marked : Rat) / p.acked
  let alpha := p.alpha * 15 / 16 + f / 16
  let r : Rat := if 0 < f then p.rate * (1 - alpha / 2) else if base + 25000 < minRtt then p.rate * 9 / 10 else p.rate + 2
  { p with alpha := alpha, rate := max (1 / 10) (min line r), acked := 0, marked := 0 }

def execRateUpdate (i : SessNo) (p : PortNo) (minRtt : Nat) (s : State) : Result :=
  .next (if isLive s i.val && ahas (s.sess i.val).paths p.val then
      s.updSess i.val fun x => updPath x p.val (rateStep (lineRate (s.hport p.val).pmd) minRtt)
    else s)

/-! ### Events (R572) -/

/-- An EVENT to one session: kind 2 (`status`) while MOD_STATUS[3:1] differs from what was reported, kind 1 while a doorbell
bit that notifies has risen, and then at most once in 2 us (R572, R605). -/
def execEvent (i : SessNo) (status : Bool) (s : State) : Result :=
  .next (
    let x := s.sess i.val
    if !isLive s i.val || !x.ev || !s.start.featAct.getLsbD 20 then s
    else if status then
      let st := wfld (modStatus s) 1 3
      if st = x.seenSt then s
      else reply (s.updSess i.val fun x => { x with seenSt := st }) i.val (.event 2 (modStatus s))
    else
      let b := hostBells s
      if (b &&& ~~~x.seenDb) = 0 then s
      else
        let s := if x.lastEvent = 0 then s else s.reach (x.lastEvent + 2000)
        reply (s.updSess i.val fun x => { x with seenDb := b, lastEvent := s.mono }) i.val (.event 1 (b.zeroExtend 64)))

/-! ### Registers (R556, R557, R573, R574) -/

def ethPort (x : HostPort) (p : Nat) : Word :=
  pack [(x.mtu, 40), (x.vid, 28), (x.pmd.toNat, 16), (b2n x.v4, 8), (b2n (netOf p), 7), (b2n x.ptp, 6), (x.state.toNat, 0)]

def ethPcnt (x : HostPort) : Word := pack [(x.fcs, 48), (x.other, 32), (x.ce, 16), (x.csum, 0)]

def pcntClear (x : HostPort) : HostPort := { x with fcs := 0, other := 0, ce := 0, csum := 0 }

def sessCode : SessState → Nat
  | .free => 0
  | .handshake => 1
  | .established => 2
  | .closing => 3

def ezSess (s : State) (x : Session) : Word :=
  pack ([(x.hsid.toNat, 32), (b2n x.ev, 8), (b2n x.net, 5), (sessCode x.state, 0)] ++
    (List.range 8).map fun p => (b2n (pathUp s x p), 16 + p))

def ezCnt (s : State) : Word := pack [(s.host.auth, 48), (s.host.replay, 32), (s.host.hsref, 16), (s.host.idle, 0)]

end Sys2Proof.Machine
end

