-- ==== Sys2Proof/Machine/Clock.lean ====
section
/-! DEFINITION. References, the time unit and its registers (R50 to R58, R553, R700). -/

namespace Sys2Proof.Machine

open Sys2Proof

/-! ### References (R50 to R53) -/

/-- The generators that still run on REFCLK0 switch, each with its entry (R51). -/
def switchGens (s : State) : State :=
  let left := (List.range 5).filter fun g => !s.tu.gens.getLsbD g
  let s := left.foldl (fun s g => logEntry s srcTime 0x40 0 g) s
  if left = [] then s else { s with tu := { s.tu with gens := 31, sw := true } }

def execReferenceClockLoss (r : RefClk) (s : State) : Result :=
  let s := { s with tu := match r with | .ref0 => { s.tu with ref0 := false } | .ref1 => { s.tu with ref1 := false } }
  .next (
    if s.power ≠ .run then s
    else if !s.tu.ref0 && !s.tu.ref1 then goFatal s fRefclk
    else if r = .ref0 then switchGens s
    else s)

def execReferenceClockReturn (r : RefClk) (s : State) : Result :=
  .next { s with tu := match r with | .ref0 => { s.tu with ref0 := true } | .ref1 => { s.tu with ref1 := true } }

/-! ### Wall time (R55, R56) -/

/-- A 32-bit two's complement that saturates (R58). -/
def clamp32 (x : Int) : Int := if x < -2147483648 then -2147483648 else if 2147483647 < x then 2147483647 else x

/-- The servo takes a measured error of MOD_TIME, as MOD_TIME less its source: one that is more than 1 ms behind is a forward
step, any other changes the rate (R55). -/
def servo (s : State) (err : Int) : State :=
  let o := clamp32 err
  let s := { s with tu := { s.tu with offset := o, locked := decide (o.natAbs ≤ 100) } }
  if err < -1000000 then
    let s := logEntry s srcTime 0x41 0 err.natAbs
    { s with time := s.time + err.natAbs, tu := { s.tu with stepped := true, steer := 0, slewAcc := 0 } }
  else { s with tu := { s.tu with steer := err, slewAcc := 0 } }

/-- 1PPS is in the selection once it has been seen and until it leaves (R56). -/
def ppsOn (s : State) : Bool := s.tu.ppsSeen && !s.tu.ppsOut

/-- The distance of MOD_TIME from the nearest whole second. -/
def secondError (t : Nat) : Int :=
  if t % 1000000000 ≤ 500000000 then (t % 1000000000 : Nat) else ((t % 1000000000 : Nat) : Int) - 1000000000

/-- A rising edge of 1PPS (R56, R57): captured, and the start of a second once PTP gives the second count. -/
def execPpsEdge (s : State) : Result :=
  .next (
    if s.power ≠ .run then s
    else
      let s := { s with tu := { s.tu with ppscap := BitVec.ofNat 64 s.time, ppsSeen := true } }
      if ppsOn s && s.tu.src ≠ 0 then servo { s with tu := { s.tu with src := 2 } } (secondError s.time) else s)

/-- 1PPS leaves the selection until the next start (R56). -/
def execPpsLost (s : State) : Result :=
  .next (
    if s.power ≠ .run || !ppsOn s then s
    else
      let s := logEntry s srcTime 0x42 0 0
      { s with tu := { s.tu with ppslost := true, ppsOut := true, src := if s.tu.src = 2 then 1 else s.tu.src } })

/-- A PTP event message on a PTP port that is up (R553): the selected master gives the time, or, beside 1PPS, the count of
seconds. -/
def execPtpEventMessage (p : PortNo) (err : Int) (s : State) : Result :=
  .next (
    if s.power ≠ .run || !portUp s p.val || !(s.hport p.val).ptp then s
    else if ppsOn s then
      let s := { s with tu := { s.tu with src := 2 } }
      if err.natAbs < 500000000 then s else servo s err
    else servo { s with tu := { s.tu with src := 1 } } err)

/-- No master is heard (R56): MOD_TIME runs freely from its value. -/
def execPtpSourceLoss (s : State) : Result :=
  .next (
    if s.power ≠ .run || s.tu.src = 0 then s
    else { s with tu := { s.tu with src := 0, locked := false, steer := 0, slewAcc := 0 } })

/-! ### Registers (R53, R57, R58) -/

def modTimestat (s : State) : Word :=
  pack [(ofInt 32 s.tu.offset, 32), (b2n s.tu.stepped, 4), (b2n s.tu.ppslost, 3), (b2n s.tu.locked, 2), (s.tu.src.toNat, 0)]

/-- The W1C bits of MOD_TIMESTAT. -/
def timestatWrite (s : State) (v : Word) : State :=
  { s with tu := { s.tu with stepped := s.tu.stepped && !wbit v 4, ppslost := s.tu.ppslost && !wbit v 3 } }

def modRefstat (s : State) : Word := pack [(b2n s.tu.sw, 2), (b2n s.tu.ref1, 1), (b2n s.tu.ref0, 0)]

def refstatWrite (s : State) (v : Word) : State := { s with tu := { s.tu with sw := s.tu.sw && !wbit v 2 } }

end Sys2Proof.Machine
end

