-- ==== Sys2Proof/Machine/HostOps.lean ====
section
/-! DEFINITION. The operations of Ezori that need no address: DOORBELL, MAILBOX, ATTEST, LOG_READ and FEAT (R565, R569, R570, R604, R620, R621). -/

namespace Sys2Proof.Machine

open Sys2Proof

/-- An operation of an established session whose next message asks for it: its effect, and its response (R565). -/
def hostOp (s : State) (i : Nat) (xid : Word) (q : HostReq) (f : State → State × HostMsg) : State :=
  if isLive s i && asks (s.sess i) xid q then
    let r := f (opTaken s i)
    nextOps (reply r.1 i r.2) i
  else s

/-- DOORBELL (R504, R569, R570). -/
def doorbellOp (s : State) (q : BitVec 8) (tail : BitVec 16) : State × HStatus :=
  if 64 ≤ q.toNat then (s, .badop)
  else if !(s.queue q.toNat).en then (s, .busy)
  else (s.updQueue q.toNat fun x => qTail x (tail.zeroExtend 64), .ok)

def execDoorbell (i : SessNo) (xid : Word) (q : BitVec 8) (tail : BitVec 16) (s : State) : Result :=
  .next (hostOp s i.val xid (.doorbell q tail) fun s =>
    let r := doorbellOp s q tail
    (r.1, .resp 3 xid r.2 []))

/-- MAILBOX send: the 64 bytes of HMB0 to HMB7 in one step (R569, R577). -/
def mailboxSendOp (s : State) (m : BitVec 8) (data : List Word) : State × HStatus :=
  if 8 ≤ m.toNat || data.length ≠ 8 then (s, .badop)
  else
    let id : MbId := .hmb (Fin.ofNat 16 m.toNat)
    let s := ((List.range 8).zip data).foldl (fun s p => mbDataWrite s id p.1 p.2) s
    (mbSendWrite s id, .ok)

def execMailboxSend (i : SessNo) (xid : Word) (m : BitVec 8) (data : List Word) (s : State) : Result :=
  .next (hostOp s i.val xid (.mbSend m data) fun s =>
    let r := mailboxSendOp s m data
    (r.1, .resp 4 xid r.2 []))

/-- MAILBOX ack of HMB8 to HMB15 (R569, R570). -/
def mailboxAckOp (s : State) (m : BitVec 8) (code : BitVec 16) : State × HStatus :=
  if m.toNat < 8 || 16 ≤ m.toNat then (s, .badop)
  else
    let id : MbId := .hmb (Fin.ofNat 16 m.toNat)
    if (s.mbox id).full then (mbAckWrite s id code, .ok) else (s, .busy)

def execMailboxAck (i : SessNo) (xid : Word) (m : BitVec 8) (code : BitVec 16) (s : State) : Result :=
  .next (hostOp s i.val xid (.mbAck m code) fun s =>
    let r := mailboxAckOp s m code
    (r.1, .resp 4 xid r.2 []))

/-- FEAT accept (R603, R604). -/
def featAccept (s : State) (vec : BitVec 256) : State :=
  let off := featOffered s
  { s with start := { s.start with featAct := (vec &&& off) ||| (featFixed &&& off) } }

def execFeatQuery (i : SessNo) (xid : Word) (s : State) : Result :=
  .next (hostOp s i.val xid .featQuery fun s => (s, .feat xid (featOffered s) s.start.featAct))

def execFeatAccept (i : SessNo) (xid : Word) (vec : BitVec 256) (s : State) : Result :=
  .next (hostOp s i.val xid (.featAccept vec) fun s =>
    let s := featAccept s vec
    (s, .feat xid (featOffered s) s.start.featAct))

/-! ### LOG_READ (R569, R679, R684) -/

/-- Entries that the log holds, from the oldest index on. -/
def logHeld (s : State) : Nat := min 8192 s.rep.log.length

/-- The first entry that is returned: the oldest one held when the one asked for is not held. -/
def logStart (s : State) (first : BitVec 32) : BitVec 32 :=
  if logHeld s < (s.rep.next - first).toNat then s.rep.next - BitVec.ofNat 32 (logHeld s) else first

def logEntries (s : State) (first : BitVec 32) (count : Nat) : List LogEntry :=
  let a := logStart s first
  (List.range (min count (s.rep.next - a).toNat)).filterMap fun i => afind s.rep.log ((a + BitVec.ofNat 32 i).toNat % 8192)

def execLogRead (i : SessNo) (xid : Word) (first : BitVec 32) (count : Nat) (s : State) : Result :=
  .next (hostOp s i.val xid (.logRead first count) fun s =>
    if count = 0 || 256 < count then (s, .resp 7 xid .badop [])
    else
      let es := logEntries s first count
      (s, .log xid (logStart s first + BitVec.ofNat 32 es.length) (BitVec.ofNat 32 s.rep.lost) es))

/-! ### Attestation (R621) -/

/-- ATTEST (R621): the report, a signature by the identity key, and the certificate. -/
def execAttest (i : SessNo) (xid : Word) (nonce : BitVec 256) (s : State) : Result :=
  .next (hostOp s i.val xid (.attest nonce) fun s =>
    let body := reportBody s 0 nonce (msid s i.val)
    (s, .report xid body (Config.slhSign (idKey s) body) (ownCert s)))

end Sys2Proof.Machine
end

