-- ==== Sys2Proof/Machine/Numctl.lean ====
section
/-! DEFINITION. The instruments on tensor outputs (R236 to R244): their registers, clears, and the histogram dump. -/

namespace Sys2Proof.Machine

open Sys2Proof

/-- The 64 counters. -/
def histAll (n : Numerics) : List Nat := (List.range 64).map fun b => aget 0 n.hist b

def nanfWord (n : Numerics) : Word :=
  pack [(n.drain, 32), (n.src.toNat, 30), (n.row, 23), (n.col, 8), (b2n n.inf, 3), (b2n n.nan, 2), (b2n n.isinf, 1),
    (b2n n.valid, 0)]

def numstatWord (n : Numerics) : Word := pack [(b2n n.hlost, 2), (b2n n.herr, 1), (b2n n.dump.isSome, 0)]

/-- TILE_HISTADDR keeps bits [39:8] (R241). -/
def histaddrMask : Word := 0xFFFFFFFF00

/-- The dump area is permitted (R241, R541). -/
def dumpOk (s : State) (t : Nat) (task : Bool) : Bool :=
  let a := (s.tile t).num.histaddr
  (firstDenied (ownOk s t) a 256).isNone && agentWin s t task a 256 rightW && !hitsGraph s a 256

def clearHist (n : Numerics) : Numerics := { n with hist := [] }

/-- nclr (R240): TILE_NANF is 0, and numbering restarts. -/
def clearNan (n : Numerics) : Numerics :=
  { n with drain := 0, src := 0, row := 0, col := 0, inf := false, nan := false, isinf := false, valid := false, ndrain := 0 }

/-- What a write of TILE_NUMCTL means for memory runs that an interrupt has stopped: the output tile of each started before a dump
that begins now (R242), and has number 0 in a count that begins now (R243). -/
def markRuns (dump nclr : Bool) (v : Vec) : Vec :=
  { v with cmemRuns := v.cmemRuns.map fun r => { r with old := r.old || dump, drain := if nclr then 0 else r.drain } }

/-- A write of TILE_NUMCTL (R240 to R242), from task code or not. -/
def numctl (s : State) (t : Nat) (dump hclr nclr task : Bool) : State :=
  let n := (s.tile t).num
  if dump && n.dump.isSome then s.updTile t fun x => { x with num := { x.num with hlost := true } }
  else
    let ok := dumpOk s t task
    s.updTile t fun x =>
      let n := if dump then { x.num with dump := some (x.num.histaddr, histAll x.num, ok), herr := false } else x.num
      let n := if hclr then clearHist n else n
      { x with num := if nclr then clearNan n else n, vec := markRuns dump nclr x.vec }

def numOn (s : State) (t : TileId) (r : State) : State := if s.power = .run && !(s.tile t.val).oos then r else s

def execHdump (t : TileId) (hclr nclr task : Bool) (s : State) : Result := .next (numOn s t (numctl s t.val true hclr nclr task))
def execHclr (t : TileId) (nclr : Bool) (s : State) : Result := .next (numOn s t (numctl s t.val false true nclr false))
def execNclr (t : TileId) (s : State) : Result := .next (numOn s t (numctl s t.val false false true false))

/-- A dump finishes (R241, R242, R244), once no stopped memory run has counts of it to come: its write follows the stores and drains before it; one that fails leaves a part of
the area written that nothing fixes. -/
def execHistogramDumpEnd (t : TileId) (failed : Bool) (s : State) : Result :=
  .next (match (s.tile t.val).num.dump with
    | none => s
    | some (a, cs, ok) =>
      if s.power ≠ .run || (s.tile t.val).vec.cmemRuns.any (fun r => r.old) then s
      else
        let s := performHanded (drainAll faddF32 s (.tile t)) t.val
        let bs := cs.flatMap fun c => toBytes 4 c
        let stop := fun (s : State) (e : Bool) => s.updTile t.val fun x => { x with num := { x.num with dump := none, herr := e } }
        if !ok then stop s true
        else if failed then
          stop (agentWrite s.tick t.val a (bs.take ((Config.freeWord s.free).toNat % 257))).1 true
        else
          let r := agentWrite s t.val a bs
          stop r.1 r.2.isSome)

end Sys2Proof.Machine
end

