-- ==== Sys2Proof/Machine/Region.lean ====
section
/-! DEFINITION. The bytes of an image header and of the configuration region (R584, R585, R587 to R589, R616). -/

namespace Sys2Proof.Machine

open Sys2Proof

/-- The little-endian number of `n` bytes at `o` (R4). -/
def numAt (bs : List Byte) (o n : Nat) : Nat := ofBytes ((bs.drop o).take n)

/-- The `n` bytes at `o` are there, and all 0. -/
def zerosAt (bs : List Byte) (o n : Nat) : Bool := decide (o + n ≤ bs.length) && ((bs.drop o).take n).all (· = 0)

/-- A region begins with a magic of eight characters. -/
def magicIs (bs : List Byte) (m : String) : Bool := bs.take 8 = asciiBytes m

/-! ### The image header (R584, R585) -/

/-- A section in use: type, body offset, length. -/
def sectionAt (bs : List Byte) (i : Nat) : Nat × Nat × Nat :=
  (numAt bs (0x70 + 16 * i) 4, numAt bs (0x74 + 16 * i) 4, numAt bs (0x78 + 16 * i) 4)

/-- Two sections share a byte. -/
def sectionsMeet (a b : Nat × Nat × Nat) : Bool := decide (a.2.1 < b.2.1 + b.2.2) && decide (b.2.1 < a.2.1 + a.2.2)

def noSectionsMeet : List (Nat × Nat × Nat) → Bool
  | [] => true
  | x :: xs => !xs.any (sectionsMeet x) && noSectionsMeet xs

/-- The sections lie within the body and do not overlap; each of the types 1 to 5 appears once. -/
def sectionsOk (xs : List (Nat × Nat × Nat)) (blen : Nat) : Bool :=
  xs.all (fun x => decide (x.2.1 + x.2.2 ≤ blen)) && noSectionsMeet xs &&
    (List.range 5).all fun k => (xs.filter fun x => x.1 = k + 1).length = 1

/-- The header of an image, when it is as R584 states; the digest and the signature are outcomes of the start (log 69). -/
def parseHead (bs : List Byte) : Option Image :=
  let n := numAt bs 0x28 4
  let blen := numAt bs 0x20 8
  let xs := (List.range (min n 16)).map (sectionAt bs)
  if magicIs bs "ZH2040IM" && numAt bs 8 4 = 1 && decide (numAt bs 0x0C 4 < 2) && decide (numAt bs 0x18 4 ≤ 64) &&
      decide (blen ≤ 0x77F0000) && decide (1 ≤ n) && decide (n ≤ 16) && zerosAt bs 0x2C 4 && zerosAt bs 0x170 144 &&
      ((List.range n).all fun i => zerosAt bs (0x7C + 16 * i) 4) && sectionsOk xs blen then
    some { seq := numAt bs 0x10 8, svn := numAt bs 0x18 4, fwver := BitVec.ofNat 32 (numAt bs 0x1C 4), commit := numAt bs 0x0C 4 = 1
           head := bs.take 512 }
  else none

/-! ### The blocks of the configuration region (R587) -/

/-- `n` blocks, as type and body, and what follows them. -/
def blocksOf : Nat → List Byte → Option (List (Nat × List Byte) × List Byte)
  | 0, bs => some ([], bs)
  | n + 1, bs =>
    let len := numAt bs 4 4
    if 8 ≤ len && decide (len ≤ bs.length) && len % 8 = 0 && numAt bs 2 2 = 1 then
      match blocksOf n (bs.drop len) with
      | some (xs, rest) => some ((numAt bs 0 2, (bs.take len).drop 8) :: xs, rest)
      | none => none
    else none

/-- A body holds `n` bytes of fields, and zeros to the next multiple of 8. -/
def bodyOk (b : List Byte) (n : Nat) : Bool := b.length = (n + 7) / 8 * 8 && zerosAt b n (b.length - n)

/-- The blocks of a region as they stand, each with its type. -/
def rawBlocks : Nat → List Byte → List (Nat × List Byte)
  | 0, _ => []
  | n + 1, bs => let len := numAt bs 4 4; (numAt bs 0 2, bs.take len) :: rawBlocks n (bs.drop len)

/-- What MR2 and MR3 measure of a region (R618): its header with every block but ROUTE, in region order, and the ROUTE block (log 69). -/
def measuredConfig (bs : List Byte) : List Byte :=
  bs.take 64 ++ ((rawBlocks (numAt bs 16 4) (bs.drop 64)).filter fun x => x.1 ≠ 4).flatMap fun x => x.2
def measuredRoute (bs : List Byte) : List Byte :=
  ((rawBlocks (numAt bs 16 4) (bs.drop 64)).filter fun x => x.1 = 4).flatMap fun x => x.2

/-- How often a block of a type may appear (R588). -/
def countsOk (xs : List (Nat × List Byte)) : Bool :=
  let count := fun (k : Nat) => (xs.filter fun x => x.1 = k).length
  xs.all (fun x => decide (1 ≤ x.1) && decide (x.1 ≤ 8)) && [1, 2, 3, 4, 6, 7].all (fun k => count k = 1) &&
    decide (count 5 ≤ 8) && decide (count 8 ≤ 1)

/-! ### The bodies (R588) -/

def moduleBlock (b : List Byte) (c : Config) : Option Config :=
  if bodyOk b 9 then
    some { c with gid := BitVec.ofNat 16 (numAt b 0 2), plmod := numAt b 2 2, ilim0 := numAt b 4 2, ilim1 := numAt b 6 2, deftmo := numAt b 8 1 }
  else none

/-- A region of a MOD_MAP value, when it is present (R467). -/
def regionOf (w : Nat) : Option Region :=
  if fld w 63 1 = 1 then some ⟨BitVec.ofNat 2 (fld w 61 2), fld w 60 1 = 1, fld w 16 14, fld w 32 14⟩ else none

/-- The regions present are the first ones (R468). -/
def memmapBlock (b : List Byte) (c : Config) : Option Config :=
  let rs := (List.range 16).map fun i => regionOf (numAt b (8 * i) 8)
  if bodyOk b 136 && (rs.dropWhile (·.isSome)).all (·.isNone) then
    some { c with map := rs.filterMap id, basin := fld (numAt b 128 8) 27 13 * 2 ^ 27 }
  else none

def galportBlock (b : List Byte) (c : Config) : Option Config :=
  let spares := (List.range 18).map fun o => numAt b (36 + o) 1
  if bodyOk b 58 && spares.all (fun p => decide (p < 144) || p = 0xFF) then
    some { c with
      starts := (List.range 18).map fun o => BitVec.ofNat 8 (numAt b o 1)
      globs := (List.range 144).filter fun p => fld (numAt b 18 18) p 1 = 1
      spares := spares.map fun p => if p = 0xFF then none else some p
      minSvn := numAt b 54 4 }
  else none

/-- A table of words, of which those that are not 0 are listed. -/
def wordTable (b : List Byte) (o n : Nat) : SMap Word :=
  (List.range n).filterMap fun i => let w := numAt b (o + 8 * i) 8; if w = 0 then none else some (i, BitVec.ofNat 64 w)

def routeBlock (b : List Byte) (c : Config) : Option Config :=
  let cfg := numAt b 0 8
  let m := fld cfg 0 5
  let g := numAt b 16 4
  let n := numAt b 20 4
  let p := 24 + 8 * g + 8 * n
  if decide (m ≤ 16) && g = 2 ^ (16 - m) && n = 2 ^ m && bodyOk b (p + 576) && ((List.range 144).all fun i => zerosAt b (p + 4 * i + 3) 1) then
    some { c with
      bias := BitVec.ofNat 16 (fld cfg 8 16), nmin := fld cfg 7 1 = 1, mbits := m, detour := BitVec.ofNat 64 (numAt b 8 8)
      grp := wordTable b 24 g, mem := wordTable b (24 + 8 * g) n
      peers := (List.range 144).map fun i => (i, BitVec.ofNat 16 (numAt b (p + 4 * i) 2), BitVec.ofNat 8 (numAt b (p + 4 * i + 2) 1)) }
  else none

def ethBlock (b : List Byte) (c : Config) : Option Config :=
  let at_ := numAt b
  if bodyOk b 60 && decide (at_ 0 1 ≤ 7) && decide (at_ 1 1 ≤ 6) && decide (1280 ≤ at_ 2 2) && decide (at_ 2 2 ≤ 9216) &&
      decide (at_ 4 2 < 4095) && decide (at_ 6 1 < 8) && decide (at_ 7 1 < 4) && decide (at_ 24 1 ≤ 128) && zerosAt b 25 7 &&
      decide (at_ 52 1 ≤ 32) && zerosAt b 53 3 then
    let e : EthCfg := {
      pmd := BitVec.ofNat 4 (at_ 1 1), mtu := at_ 2 2, vid := at_ 4 2, pcp := BitVec.ofNat 8 (at_ 6 1)
      v4 := fld (at_ 7 1) 0 1 = 1, ptp := fld (at_ 7 1) 1 1 = 1
      addr6 := BitVec.ofNat 128 (at_ 8 16), plen := at_ 24 1, gate6 := BitVec.ofNat 128 (at_ 32 16)
      addr4 := BitVec.ofNat 32 (at_ 48 4), mlen := at_ 52 1, gate4 := BitVec.ofNat 32 (at_ 56 4) }
    some { c with eth := aput c.eth (at_ 0 1) e }
  else none

def hostBlock (b : List Byte) (c : Config) : Option Config :=
  let name := (b.drop 8).take 64
  if bodyOk b 72 && zerosAt b 3 5 && name.all (fun x => decide (x.toNat < 128)) && (name.dropWhile (· ≠ 0)).all (· = 0) then
    some { c with udp := BitVec.ofNat 16 (numAt b 0 2), ptpDomain := BitVec.ofNat 8 (numAt b 2 1), name := BitVec.ofNat 512 (ofBytes name) }
  else none

/-- The owner digest (R616). -/
def ownerBlock (b : List Byte) (c : Config) : Option Config :=
  let alg := numAt b 0 2
  if bodyOk b 72 && (alg = 1 || alg = 2) && numAt b 2 2 = 64 && zerosAt b 4 4 then
    let key := (b.drop 8).take 64
    some { c with owner := BitVec.ofNat 256 (ofBytes (shakeBytes (b.take 2 ++ key) 32)), ownerAlg := alg, ownerKey := key }
  else none

def withholdBlock (b : List Byte) (c : Config) : Option Config :=
  if bodyOk b 32 then some { c with withhold := BitVec.ofNat 256 (numAt b 0 32) } else none

def blockOf (x : Nat × List Byte) (c : Config) : Option Config :=
  match x.1 with
  | 1 => moduleBlock x.2 c
  | 2 => memmapBlock x.2 c
  | 3 => galportBlock x.2 c
  | 4 => routeBlock x.2 c
  | 5 => ethBlock x.2 c
  | 6 => hostBlock x.2 c
  | 7 => ownerBlock x.2 c
  | 8 => withholdBlock x.2 c
  | _ => none

def blocksInto : List (Nat × List Byte) → Config → Option Config
  | [], c => some c
  | x :: xs, c => match blockOf x c with
    | some c => blocksInto xs c
    | none => none

/-- The length of the owner's signature (R616). -/
def signatureLength (xs : List (Nat × List Byte)) : Nat :=
  match xs.find? fun x => x.1 = 7 with
  | some x => if numAt x.2 0 2 = 1 then 29792 else 49856
  | none => 0

/-- A configuration without a block. -/
def emptyConfig : Config :=
  { gid := 0, plmod := 0, ilim0 := 0, ilim1 := 0, deftmo := 0, map := [], basin := 0, starts := [], globs := [], spares := [], minSvn := 0
    bias := 0, nmin := false, mbits := 0, detour := 0, grp := [], mem := [], peers := [], eth := [], udp := 0, ptpDomain := 0
    withhold := 0, owner := 0 }

/-- The configuration of a region, when its form is that of R587, R588 and R616. The total length counts from the magic to the
last byte of the signature (log 99). -/
def parseRegion (bs : List Byte) : Option Config :=
  let total := numAt bs 12 4
  if magicIs bs "ZH2040CF" && numAt bs 8 4 = 1 && zerosAt bs 20 44 && decide (total ≤ bs.length) then
    match blocksOf (numAt bs 16 4) ((bs.take total).drop 64) with
    | some (xs, rest) =>
      if countsOk xs && rest.length = 4 + signatureLength xs && numAt rest 0 4 = signatureLength xs then blocksInto xs emptyConfig else none
    | none => none
  else none

end Sys2Proof.Machine
end

