-- ==== Sys2Proof/Machine/Sounding.lean ====
section
/-! DEFINITION. Sounding, its records, repair, and what becomes of the command that ran (R16 to R18, R190, R312 to R315, R494, R498, R662 to R670). -/

namespace Sys2Proof.Machine

open Sys2Proof

/-- The tile that a structure belongs to. -/
def tileOf : Structure → Option Nat
  | .l1row t _ _ => some t.val
  | .vlane t _ => some t.val
  | .krow t _ => some t.val
  | .tile t => some t.val
  | _ => none

/-- Structures of a tile that are due (R665). -/
def dueOn (s : State) (t : Nat) : List Structure := s.rep.due.filter fun x => tileOf x = some t

/-- A sounding that is due: a structure asked for, but a tile whole when several of its structures are (R665). -/
def soundDue (s : State) (x : Structure) : Bool :=
  match tileOf x with
  | none => s.rep.due.contains x
  | some t => match x with
    | .tile _ => s.rep.due.contains x || decide (2 ≤ (dueOn s t).length)
    | _ => s.rep.due.contains x && (dueOn s t).length = 1

/-! ### Records (R665, R666) -/

def dayNs : Nat := 86400000000000

def recordOf (s : State) (x : Structure) : SoundRec :=
  (s.rep.records.find? fun r => r.what = x).getD { what := x, passes := [], lastPass := 0, errors := 0 }

/-- A record takes its place as the newest of at most 1,024 (R666). -/
def putRecord (s : State) (r : SoundRec) : State :=
  { s with rep := { s.rep with records := (r :: s.rep.records.filter fun q => q.what ≠ r.what).take 1024 } }

def dropRecords (s : State) (p : Structure → Bool) : State :=
  { s with rep := { s.rep with records := s.rep.records.filter fun r => !p r.what } }

/-- Detail of a SOUND entry: bits [63:8] of the structure ID, and the errors counted since the last pass (R683). -/
def soundDetail (id errors : Nat) : Nat := id / 256 * 256 + min errors 255

/-- A structure has been tested (R666): its entry and its record; true for a lasting fault. -/
def tested (s : State) (x : Structure) (pass : Bool) : State × Bool :=
  let r := recordOf s x
  let d := soundDetail (structId s x) r.errors
  if pass then
    let s := logEntry s (structSrc x) 0x10 0 d
    let ps := s.mono :: r.passes.filter fun t => decide (s.mono < t + dayNs)
    if 3 ≤ ps.length then (dropRecords s fun y => y = x, true)
    else (putRecord s { what := x, passes := ps, lastPass := s.mono, errors := 0 }, false)
  else (dropRecords (logEntry s (structSrc x) 0x11 4 d) fun y => y = x, true)

/-! ### Structure IDs of spares (R682) -/

def laneSpareId (s : State) (t : Nat) : Nat := 2 * 2 ^ 60 + physTile s t * 2 ^ 48 + 32
def rowSpareId (s : State) (t i : Nat) : Nat := 3 * 2 ^ 60 + physTile s t * 2 ^ 48 + 32 + i
def l1SpareId (s : State) (t b i : Nat) : Nat := 4 * 2 ^ 60 + physTile s t * 2 ^ 48 + b * 2 ^ 16 + 256 + i
def waySpareId (s : State) (k ch i : Nat) : Nat := 5 * 2 ^ 60 + k * 2 ^ 48 + physChan s k ch * 2 ^ 8 + 24 + i
def memSpareId (s : State) (k ch b i : Nat) : Nat := 6 * 2 ^ 60 + k * 2 ^ 48 + physChan s k ch * 2 ^ 32 + b * 2 ^ 16 + 12288 + i

/-- PATROL_STOP (R31): repair claims a spare that patrols; during a start none does. -/
def patrolStop (s : State) (t spare : Nat) : State := if s.power = .run then logEntry s (srcTile t) 0x15 0 spare else s

/-! ### The whole tile (R16 to R18, R190, R314) -/

def clusterSpare (c : Nat) : Nat := 9 * c + 8

/-- The cluster's spare takes the logical tile, with spares of its own, where its pace meets the bound of R39; else the logical
tile leaves service. -/
def repairTile (s : State) (t : Nat) (pace : Bool) : State :=
  let c := t / 8
  let x : Structure := .tile (Fin.ofNat 256 t)
  let id := structId s x
  if s.rep.spareUsed.contains c || !pace then
    (lostStruct s (srcTile t) id 0x01 c t 0).updTile t fun y => { y with oos := true }
  else
    let s := { s with rep := { s.rep with spareUsed := s.rep.spareUsed ++ [c] } }
    let s := s.updTile t fun y => { y with
      phys := some (clusterSpare c), vec := { y.vec with spent := false, spare := 32, spareBad := false, patrol := true }
      mtx := { y.mtx with s0 := none, s1 := none, s0bad := false, s1bad := false, trims := [] }, l1 := { y.l1 with rowSpares := [] } }
    let s := dropRecords s fun y => tileOf y = some t
    repaired s (srcTile t) (structId s x) id 0x01 c t (clusterSpare c) 0

/-! ### Structures of a tile (R190, R312, R313, R663) -/

/-- A failing lane: the spare takes it; false when the spare is not to be had. -/
def repairLane (s : State) (t l : Nat) : State × Bool :=
  let v := (s.tile t).vec
  if v.spent || v.spareBad then (s, false)
  else
    let id := structId s (.vlane (Fin.ofNat 256 t) (Fin.ofNat 32 l))
    let sp := laneSpareId s t
    let s := repaired (patrolStop s t sp) (srcTile t) sp id 0x02 t l 32 0
    (s.updTile t fun x => { x with vec := { x.vec with spent := true, spare := l, patrol := false } }, true)

/-- The lowest unspent spare K-row (R312). -/
def freeRow (x : Mtx) : Option Nat := if x.s0.isNone && !x.s0bad then some 0 else if x.s1.isNone && !x.s1bad then some 1 else none

/-- Delay trims after a repair: R313 does not give their values, which are free (log 68). -/
def freeTrims (n : Nat) : SMap Nat :=
  (List.range 34).map fun p => (p, (Config.freeWord (if p < 32 then n else n + 1)).toNat / 4 ^ (p % 32) % 4)

/-- A failing K-row: a spare that served it is retired, and the next one takes it. -/
def repairRow (s : State) (t r : Nat) : State × Bool :=
  let id := structId s (.krow (Fin.ofNat 256 t) (Fin.ofNat 32 r))
  let drop := fun (x : Mtx) =>
    if x.s0 = some r then { x with s0 := none, s0bad := true }
    else if x.s1 = some r then { x with s1 := none, s1bad := true } else x
  let s := s.updTile t fun x => { x with mtx := drop x.mtx }
  match freeRow (s.tile t).mtx with
  | none => (s, false)
  | some i =>
    let sp := rowSpareId s t i
    let s := repaired (patrolStop s t sp) (srcTile t) sp id 0x03 t r i 0
    let trims := freeTrims s.free
    let take := fun (x : Mtx) => if i = 0 then { x with s0 := some r, trims := trims } else { x with s1 := some r, trims := trims }
    (s.tick.tick.updTile t fun x => { x with mtx := take x.mtx }, true)

/-- A failing L1 or scratch row: one of the four spare rows of its bank, with its data. -/
def repairL1 (s : State) (t b r : Nat) : State × Bool :=
  let n := aget 0 (s.tile t).l1.rowSpares b
  if 4 ≤ n then (s, false)
  else
    let id := structId s (.l1row (Fin.ofNat 256 t) (Fin.ofNat 16 b) r)
    let s := s.updL1 t fun x => { x with rowSpares := aput x.rowSpares b (n + 1) }
    (repaired s (srcTile t) (l1SpareId s t b n) id 0x04 t (b * 2 ^ 16 + r) n 0, true)

/-! ### Memory (R494, R498) -/

/-- A failing way gives up its lines (R498): a dirty one is written back, and one that cannot be read is logged as an error that
no command met (R481, R658). -/
def emptyWay (s : State) (k ch w : Nat) : State :=
  let lines := ((aget {} (s.stack k).slices ch).sets.flatMap fun q => q.2).filter fun e => e.way = w
  let s := lines.foldl (fun s e =>
    let s := writeBackLine s e
    if e.dirty && e.bad then contError s (srcStack k) 0x03 (e.line * 128) else s) s
  s.updStack k fun x =>
    let sl := aget {} x.slices ch
    { x with slices := aput x.slices ch { sl with
      sets := sl.sets.map fun (p : Nat × List SliceLine) => (p.1, p.2.filter fun e => e.way ≠ w) } }

/-- A failing way of a slice: a spare way, or the slice runs with fewer ways, which is no degradation (R498). -/
def repairWay (s : State) (k ch w : Nat) : State :=
  let id := structId s (.scway (Fin.ofNat 20 k) (Fin.ofNat 128 ch) w)
  let loc := ch * 2 ^ 8 + w
  let s := emptyWay s k ch w
  let sl := aget {} (s.stack k).slices ch
  let setSl := fun (s : State) (y : Slice) => s.updStack k fun x => { x with slices := aput x.slices ch y }
  if sl.sparesUsed < 2 then
    repaired (setSl s { sl with sparesUsed := sl.sparesUsed + 1 }) (srcStack k) (waySpareId s k ch sl.sparesUsed) id 0x05 k loc sl.sparesUsed 0
  else
    let s := logEntry (journal s (srcStack k) id 0x05 k loc leftService 0) (srcStack k) 0x13 4 id
    let s := setSl s { sl with lostWays := sl.lostWays ++ [w] }
    s.updStack k fun x => { x with ways := true }

/-- Key of a row of a stack, and of its bank. -/
def rowKey (ch b r : Nat) : Nat := ch * 2 ^ 32 + b * 2 ^ 16 + r
def bankKey (ch b : Nat) : Nat := 32 * ch + b

/-- A failing memory row (R494): a spare row of its bank, a spare channel, a fold, or nothing. -/
def repairMem (s : State) (x : Structure) (k ch b r : Nat) : State :=
  let st := s.stack k
  let n := aget 0 st.rowSpares (bankKey ch b)
  if n < 8 then
    let id := structId s x
    let old := match afind st.rowMap (rowKey ch b r) with | some i => i | none => 0xFF
    let s := carryLines s fun p => rowOf p = x
    let s := s.updStack k fun y => { y with
      rowSpares := aput y.rowSpares (bankKey ch b) (n + 1), rowMap := aput y.rowMap (rowKey ch b r) n }
    repaired s (srcStack k) (memSpareId s k ch b n) id 0x06 k (rowKey ch b r) n old
  else if st.copy.isSome then { s with rep := { s.rep with due := s.rep.due ++ [x] } }
  else match freeSpareChan st with
    | some j => s.updStack k fun y => { y with copy := some (.channel ch j) }
    | none =>
      if s.rep.folds.length + s.rep.foldDue.length < 8 && !s.rep.foldDue.contains (k, ch) then
        { s with rep := { s.rep with foldDue := s.rep.foldDue ++ [(k, ch)] } }
      else s

/-! ### The outcome (R664, R667 to R669) -/

/-- Repair of a lasting fault; true when the whole tile was repaired. -/
def repairOf (s : State) (x : Structure) (pace : Bool) : State × Bool :=
  let whole := fun (t : Nat) (r : State × Bool) => if r.2 then (r.1, false) else (repairTile r.1 t pace, true)
  match x with
  | .vlane t l => whole t.val (repairLane s t.val l.val)
  | .krow t r => whole t.val (repairRow s t.val r.val)
  | .l1row t b r => whole t.val (repairL1 s t.val b.val r)
  | .tile t => (repairTile s t.val pace, true)
  | .scway k ch w => (repairWay s k.val ch.val w, false)
  | .memrow k ch b r => (repairMem s x k.val ch.val b.val r, false)
  | .glane _ _ => (s, false)

/-- The patrolling spare has failed, and leaves the spare inventory (R667, R670). -/
def retireSpare (s : State) (x : Structure) : State :=
  match x with
  | .vlane t _ =>
    let s := logEntry s (srcTile t.val) 0x11 4 (soundDetail (laneSpareId s t.val) 0)
    s.updTile t.val fun y => { y with vec := { y.vec with spareBad := true, patrol := false } }
  | .krow t _ => match freeRow (s.tile t.val).mtx with
    | none => s
    | some i =>
      let s := logEntry s (srcTile t.val) 0x11 4 (soundDetail (rowSpareId s t.val i) 0)
      let mark := fun (y : Mtx) => if i = 0 then { y with s0bad := true } else { y with s1bad := true }
      s.updTile t.val fun y => { y with mtx := mark y.mtx }
  | _ => s

/-- ENGINE (R669): the command that holds the tile fails. -/
def engineFails (s : State) (t : Nat) : State :=
  match (s.feTile t).own with
  | none => s
  | some q => failTile (logEntry s (srcTile t) 0x05 2 (q * 2 ^ 32 + t)) t 15 (BitVec.ofNat 16 t) 0 0 0

/-- A tile is left reset, and its command is without it (R664, R669). -/
def leaveReset (s : State) (t : Nat) : State :=
  let s := tileReset s t
  if (s.feTile t).own.isSome || (s.feTile t).state = .killed then tileGone s t true else s

/-- A lasting fault of this structure fails its command (R669). -/
def isEngine : Structure → Bool
  | .vlane _ _ => true
  | .krow _ _ => true
  | .tile _ => true
  | _ => false

/-- What is still due is no longer so, and the tile is released (R664). -/
def soundTaken (s : State) (x : Structure) : State :=
  match x with
  | .tile t => { s with rep := { s.rep with due := s.rep.due.filter fun y => tileOf y ≠ some t.val } }
  | _ => { s with rep := { s.rep with due := s.rep.due.filter (· ≠ x) } }

def release (s : State) (x : Structure) : State :=
  match tileOf x with
  | some t => if dueOn s t = [] then s.updTile t fun y => { y with paused := false } else s
  | none => s

/-- One sounding, from the test to the release (R663 to R669). -/
def soundRun (s : State) (x : Structure) (res : SoundResult) : State :=
  let s := soundTaken s x
  let killed := match tileOf x with | some t => (s.feTile t).state = .killed | none => false
  if res.patrol = some false then release (retireSpare s x) x
  else
    let r := tested s x res.pass
    let q := if r.2 then repairOf r.1 x res.pace else (r.1, false)
    let whole := q.2 || (match x with | .tile _ => true | _ => false)
    let engine := res.patrol.isSome || whole || (r.2 && isEngine x)
    let s := q.1
    match tileOf x with
    | none => s
    | some t =>
      let s := if engine && !killed then engineFails s t else s
      let s := if whole || (r.2 && isEngine x) then leaveReset s t else s
      release s x

/-- SOUNDING (R663): a structure whose sounding is due. -/
def execSounding (x : Structure) (res : SoundResult) (s : State) : Result :=
  .next (if s.power = .run && soundDue s x then feSettle (soundRun s x res) else s)

/-! ### Registers (R192, R600, R686) -/

def tileVlane (v : Vec) : Word := pack [(v.shadow, 19), (b2n v.patrol, 18), (b2n v.spent, 7), (v.spare, 0)]

def repDlstat (s : State) : Word := pack [(s.rep.lost, 32), (s.rep.next.toNat, 0)]
def repCnt (s : State) : Word := pack [(s.rep.corr, 32), (s.rep.cont, 8)]
def repJstat (s : State) : Word := pack [(b2n s.start.jfull, 48), (jHeld s, 0)]
def repTmap (s : State) (t : Nat) : Word := pack [(b2n (s.tile t).oos, 15), (physTile s t, 0)]

/-- REP_TRIM0 and REP_TRIM1 (R686). -/
def repTrim (x : Mtx) (i : Nat) : Word :=
  pack ((List.range (if i = 0 then 32 else 2)).map fun p => (aget 0 x.trims (32 * i + p) % 4, 2 * p))

def repChmap (x : Stack) : Word :=
  pack ((List.range 4).flatMap fun j => match afind x.chmap j with | some ch => [(1, 8 * j + 7), (ch, 8 * j)] | none => [])

def repFold (s : State) (i : Nat) : Word :=
  match s.rep.folds[i]? with
  | some f => pack [(1, 63), (f.1, 8), (f.2, 0)]
  | none => 0

end Sys2Proof.Machine
end

