-- ==== Sys2Proof/Machine/Start.lean ====
section
/-! DEFINITION. The start of the module, its failure, and the loss of state at power removal and module reset (R423, R468, R581 to R606, R616 to R618, R623, R624, R634, R638 to R640, R652, R659 to R661, R702, R703). -/

namespace Sys2Proof.Machine

open Sys2Proof

/-! ### A release (R625 to R627) -/

/-- "ZH2040RL". -/
def relMagic : List Byte := [0x5A, 0x48, 0x32, 0x30, 0x34, 0x30, 0x52, 0x4C]

/-- The slot that a release writes: the lowest above the slot in force whose digest is all zero (R626, R627). -/
def nextSlot (s : State) (c : Nat) : Option Nat := (List.range 8).find? fun i => decide (c < i) && !slotWritten s i

/-- The failure code of R627 for a record and its signature, or 0; the reasons in the order of the table. -/
def releaseCode (s : State) (r : Option (List Byte)) (sigOk : Bool) : Nat :=
  match r with
  | none => 1
  | some b =>
    let c := (slotInForce s).getD 0
    if b.take 8 ≠ relMagic || ofBytes ((b.drop 8).take 4) ≠ 1 || ofBytes ((b.drop 24).take 8) ≠ 0 then 1
    else if wordOf ((b.drop 16).take 8) ≠ s.sec.serial || ofBytes ((b.drop 12).take 4) ≠ c then 2
    else if !sigOk then 3
    else if (ownerSlot s c).rel then 4
    else if (nextSlot s c).isNone then 5
    else 0

/-- The record of R625 at an address of module memory in service. -/
def releaseRecord (s : State) (a : Nat) : State × Option (List Byte) :=
  if a + 64 ≤ memTop s then
    match memRead s a 64 with
    | (s, .ok b) => (s, some b)
    | (s, .error _) => (s, none)
  else (s, none)

/-- A release that is cut short (R626, log 70): nothing is blown, or the digest alone, which spoils its slot, or the rel bit as well. -/
def cutRelease (s : State) : State :=
  match s.sec.relBusy with
  | none => s
  | some a =>
    let w := Config.freeWord s.free
    let r := releaseRecord s (8 * wfld a 3 37)
    let c := (slotInForce s).getD 0
    let s := s.tick
    match r.2, nextSlot s c with
    | some b, some i =>
      if w.getLsbD 0 && releaseCode r.1 r.2 true = 0 then
        let owners := aput s.sec.owners i { ownerSlot s i with digest := BitVec.ofNat 256 (ofBytes ((b.drop 32).take 32)) }
        { s with sec := { s.sec with owners := if w.getLsbD 1 then aput owners c { ownerSlot s c with rel := true } else owners } }
      else s
    | _, _ => s

/-! ### What power removal and RESET_N leave (R640, R702) -/

/-- The state that is not lost: fuses, NVM, the latch of R652, the references and pins outside, and the queue of commands. -/
def lostState (s : State) (ph : PowerPhase) : State :=
  let s := cutRelease s
  { State.reset with
    pending := s.pending, free := s.free, power := ph, links := [], octets := []
    start := { s.start with jpend := [], jfull := false, restarts := 0 }
    sec := { State.reset.sec with
      serial := s.sec.serial, rollback := s.sec.rollback, owners := s.sec.owners, closed := s.sec.closed
      imgkey := s.sec.imgkey, romdig := s.sec.romdig, imgDigest := s.sec.imgDigest, seed := s.sec.seed, mrcnt := [] }
    pins := { reset := s.pins.reset, thermtrip := s.pins.thermtrip, ready := false }
    tu := { ref0 := s.tu.ref0, ref1 := s.tu.ref1 } }

/-- The rails are removed (R639, R640). -/
def railsDown (s : State) : State := lostState s .off

/-! ### The checks of an attempt (R423, R468, R585, R589, R596) -/

/-- Rows that two regions of one stack share (R468). -/
def regionsMeet (a b : Region) : Bool :=
  let share := a.mode = 0 || b.mode = 0 || a.mode = b.mode
  share && decide (a.rbase < b.rbase + b.nrows) && decide (b.rbase < a.rbase + a.nrows)

def noneMeet : List Region → Bool
  | [] => true
  | r :: rs => !rs.any (regionsMeet r) && noneMeet rs

/-- The first line above the regions before the one that holds `a`, with that region: the basin lies inside one region that is
not L1-cacheable (R382, R468). -/
def basinOk (map : List Region) (a : Nat) : Bool :=
  match regionIn map a with
  | some (r, o) => !r.l1 && decide (o + 134217728 ≤ regionBytes r)
  | none => false

def mapOk (map : List Region) (basin : Nat) : Bool :=
  decide (map.length ≤ 16) && noneMeet map && basinOk map basin &&
    map.all fun r => r.mode ≠ 3 && decide (1 ≤ r.nrows) && decide (r.rbase + r.nrows ≤ 12288)

/-- A start mask of R423: every port of 1, 2, 4 or 8 lanes begins at a multiple of its width. -/
def maskOk (m : BitVec 8) : Bool :=
  m.getLsbD 0 && (List.range 8).all fun l =>
    !m.getLsbD l || (let w := portWidth m l; (w = 1 || w = 2 || w = 4 || w = 8) && l % w = 0)

/-- The ranges of R589 and the rules of R423, R449 and R468. -/
def cfgOk (c : Config) : Bool :=
  decide (2000 ≤ c.plmod) && decide (c.plmod ≤ 2900) && decide (1 ≤ c.deftmo) && decide (c.deftmo ≤ 26) &&
    mapOk c.map c.basin && c.starts.all maskOk && decide (c.mbits ≤ 12) && decide (16 - c.mbits ≤ 12) && decide (c.eth.length ≤ 8)

/-- The owner slots after a configuration with this owner digest is admitted, none when it is not (R623, R624). -/
def admitOwner (s : State) (d : BitVec 256) : Option (SMap OwnerSlot) :=
  let write := fun (i : Nat) => some (aput s.sec.owners i { digest := d, pin := true, rel := false })
  match slotInForce s with
  | none =>
    if (ownerSlot s 0).digest = 0 || (ownerSlot s 0).digest = d then write 0 else none
  | some c =>
    if !(ownerSlot s c).rel then (if (ownerSlot s c).digest = d then some s.sec.owners else none)
    else
      let above := (List.range 8).filter fun i => decide (c < i) && slotWritten s i
      match above.getLast? with
      | some i => if (ownerSlot s i).digest = d then write i else none
      | none => if c + 1 < 8 then write (c + 1) else none

/-- One attempt with an image (R585, R589, R596): the first check that fails, or none. The configuration passes before the
service cores start, so an owner is pinned even when they do not (R623). -/
def attempt (s : State) (img : Option Image) (f : Option (BitVec 8)) : State × Option Nat :=
  let code := match f with | some c => c.toNat | none => 0
  match img with
  | none => (s, some 1)
  | some i =>
    if code = 1 || code = 2 || code = 3 || code = 8 then (s, some code)
    else if i.svn < s.sec.rollback then (s, some 4)
    else if code = 5 || s.start.cfgBad || !cfgOk s.start.cfg then (s, some 5)
    else match if code = 6 then none else admitOwner s s.start.cfg.owner with
      | none => (s, some 6)
      | some o => ({ s with sec := { s.sec with owners := o } }, if code = 7 then some 7 else none)

/-! ### The journal at start (R598) -/

/-- The union of the two copies: device 0 is written first, so the copies agree as far as both go. -/
def jUnion (s : State) : List JEntry := if s.start.j0.length < s.start.j1.length then s.start.j1 else s.start.j0

def isLeft (e : JEntry) : Bool := e.repl.toNat = leftService

/-- A repair of the journal is in force again; a structure that left service leaves the module degraded (R594, R598). -/
def applyEntry (s : State) (e : JEntry) : State :=
  let u := e.unit.toNat
  let loc := e.loc.toNat
  let repl := e.repl.toNat
  let s := if isLeft e && e.kind ≠ 0x05 && e.kind ≠ 0x0F then { s with degraded := true } else s
  if e.kind = 0x01 then
    let s := { s with rep := { s.rep with spareUsed := if s.rep.spareUsed.contains u then s.rep.spareUsed else s.rep.spareUsed ++ [u] } }
    if isLeft e then s.updTile loc fun y => { y with oos := true }
    else s.updTile loc fun y => { y with phys := some repl, vec := {}, mtx := {}, l1 := {} }
  else if e.kind = 0x02 then
    s.updTile u fun y => { y with vec := { y.vec with spent := true, spare := loc, patrol := false } }
  else if e.kind = 0x03 then
    let free := fun (x : Mtx) =>
      if x.s0 = some loc then { x with s0 := none, s0bad := true }
      else if x.s1 = some loc then { x with s1 := none, s1bad := true } else x
    let take := fun (x : Mtx) => if repl = 0 then { x with s0 := some loc } else { x with s1 := some loc }
    s.updTile u fun y => { y with mtx := take (free y.mtx) }
  else if e.kind = 0x04 then
    let b := loc / 2 ^ 16
    s.updL1 u fun x => { x with rowSpares := aput x.rowSpares b (max (aget 0 x.rowSpares b) (repl + 1)) }
  else if e.kind = 0x05 then
    let ch := loc / 2 ^ 8
    s.updStack u fun x =>
      let sl := aget {} x.slices ch
      let sl' := if isLeft e then { sl with lostWays := sl.lostWays ++ [loc % 2 ^ 8] } else { sl with sparesUsed := max sl.sparesUsed (repl + 1) }
      { x with slices := aput x.slices ch sl', ways := x.ways || isLeft e }
  else if e.kind = 0x06 then
    let k := bankKey (loc / 2 ^ 32) (loc / 2 ^ 16 % 2 ^ 16)
    s.updStack u fun x => { x with
      rowSpares := aput x.rowSpares k (max (aget 0 x.rowSpares k) (repl + 1)), rowMap := aput x.rowMap loc repl }
  else if e.kind = 0x07 then
    s.updStack u fun x => { x with
      chmap := aput x.chmap (repl - 128) loc
      rowSpares := x.rowSpares.filter fun p => p.1 / 32 ≠ loc, rowMap := x.rowMap.filter fun p => p.1 / 2 ^ 32 ≠ loc }
  else if e.kind = 0x08 then
    ({ s with memMib := s.memMib - 384, rep := { s.rep with folds := s.rep.folds ++ [(u, loc)] } }).updStack u fun x =>
      { x with chan := x.chan - 1 }
  else if e.kind = 0x09 then
    s.updOctet u fun x =>
      let bit := BitVec.ofNat 8 (2 ^ loc)
      if isLeft e then { x with fail := x.fail ||| bit, sused := x.sused && x.slane.toNat ≠ loc }
      else { x with fail := x.fail &&& ~~~bit, sused := true, slane := BitVec.ofNat 3 loc, spent := true }
  else s

/-- Delay trims are computed afresh on every tile whose spares serve a K-row (R313, log 68). -/
def applyTrims (s : State) : State :=
  (s.tiles.filter fun p => p.2.mtx.s0.isSome || p.2.mtx.s1.isSome).foldl (fun s p =>
    let trims := freeTrims s.free
    s.tick.tick.updTile p.1 fun x => { x with mtx := { x.mtx with trims := trims } }) s

/-! ### Ready, or a start failure (R591, R592, R596, R617, R618) -/

/-- A value of 512 bits that the model does not compute: the ROM, the image and the configuration are not in its state. -/
def free512 (s : State) : BitVec 512 := BitVec.ofNat 512 (ofBytes (Config.freeBytes s.free 64))

/-- A register of the measurements after one extension with data the model does not hold (log 69). -/
def extendFree (s : State) (n : Nat) : State :=
  { s.tick with sec := { s.sec with
      mr := aput s.sec.mr n (free512 s), mrcnt := aput s.sec.mrcnt n ((aget 0 s.sec.mrcnt n + 1) % 2 ^ 32) } }

/-- What happens during a start, before the module runs: when, before ready, is not given (log 69). -/
def atStart (s : State) (dur : Nat) (f : State → State) : State :=
  let t := (Config.freeWord s.free).toNat % (dur * 10000000 + 1)
  { f { s.tick with mono := t, time := t, power := .held } with mono := s.mono, time := s.time, power := s.power }

/-- A drip log entry written during a start. -/
def startEntry (s : State) (dur : Nat) (src : BitVec 16) (code detail : Nat) : State :=
  atStart s dur fun s => logEntry s src code 0 detail

/-- RESTART, which the 700 ms step of a restart appends (R661). -/
def restartEntry (s : State) (dur : Nat) (cause : Nat) : State := startEntry s dur srcOchre 0x07 cause

/-- A start without REFCLK0 counts as a switch of all five generators, which logs each of them and sets sw (R51, R53, log 73). -/
def startGens (s : State) (dur : Nat) : State :=
  if s.tu.ref0 then s
  else
    let s := (List.range 5).foldl (fun s g => startEntry s dur srcTime 0x40 g) s
    { s with tu := { s.tu with sw := true, gens := 31 } }

/-- The key pair of the memory, drawn at each start: two keys of 256 bits that differ (R487, log 85). -/
def drawKeys (s : State) : State :=
  let k1 := BitVec.ofNat 256 (ofBytes (Config.freeBytes s.free 32))
  let k2 := BitVec.ofNat 256 (ofBytes (Config.freeBytes (s.free + 1) 32))
  { s.tick.tick with memK1 := k1, memK2 := if k2 = k1 then k1 + 1 else k2 }

/-- The host ports that ETHPORT blocks name are down at ready (R556, R588). -/
def startPorts (c : Config) : SMap HostPort :=
  c.eth.foldl (fun m e => aput m e.1
    { pmd := e.2.pmd, mtu := e.2.mtu, vid := e.2.vid, v4 := e.2.v4, ptp := e.2.ptp, state := 1, addr6 := e.2.addr6, addr4 := e.2.addr4 }) []

/-- The module when the start has reached ready, before the journal is applied: every register at its value after reset. -/
def freshState (s : State) (img : Image) (slot : Bool) (attempts ocode : Nat) (dur : BitVec 16) : State :=
  let c := s.start.cfg
  let ns := dur.toNat * 10000000
  let j := jUnion s
  { State.reset with
    pending := s.pending, free := s.free, mono := ns, time := ns, power := .run, gid := c.gid, map := c.map
    memMib := (c.map.map regionBytes).sum / 1048576
    gal := { basin := c.basin, deftmo := c.deftmo, bias := c.bias, nmin := c.nmin, mbits := c.mbits, detour := c.detour
             grpTab := c.grp, memTab := c.mem, grpCfg := c.grp, memCfg := c.mem }
    links := galLinks c, octets := galOctets c
    host := { ports := startPorts c }
    start := { s.start with
      j0 := j, j1 := j, jpend := [], jfull := false, ocode := BitVec.ofNat 8 ocode, dur := dur, slot := slot
      attempts := BitVec.ofNat 2 attempts, svn := img.svn, fwver := img.fwver, featAct := featTable &&& ~~~c.withhold }
    sec := { s.sec with
      mr := [], mrcnt := [], entok := true, entFails := [], relDone := false, relBusy := none, relCode := 0
      reseeds := 0, seedAt := ns }
    pins := { s.pins with bootfail := false, ready := true, extest := false }
    lamp := { plcfg := c.plmod, plmod := c.plmod, die0 := { ilim := c.ilim0 }, die1 := { ilim := c.ilim1 } }
    rep := { log := s.rep.log, next := s.rep.next, lost := s.rep.lost }
    tu := { ref0 := s.tu.ref0, ref1 := s.tu.ref1 } }

/-- MR4 takes every entry that is applied, in order (R618). -/
def measureJournal (s : State) : State :=
  ((s.start.j0.zip (List.range s.start.j0.length)).foldl (fun s e => extendMr s 4 (jBytes (e.2 + 1) e.1)) s)

/-- The registers that measure the ROM, the image, the configuration and the fuses (R618). Bytes that the state does not hold, and
the layout of the fuse state, make a free value (log 69). -/
def measureStart (s : State) (img : Image) : State :=
  let s := extendDigest s 0 s.sec.romdig
  let s := if img.head = [] then extendFree s 1 else extendMr s 1 img.head
  let s :=
    if s.start.region = [] then extendFree (extendFree s 2) 3
    else extendMr (extendMr s 2 (measuredConfig s.start.region)) 3 (measuredRoute s.start.region)
  extendFree s 5

/-- The rollback counter is raised at ready (R591). A fuse write that fails is logged, with a fuse field number and a count of
blown bits that the spec does not give (log 69). -/
def raiseRollback (s : State) (img : Image) (fail : Bool) : State :=
  if img.commit && decide (s.sec.rollback < min 64 img.svn) then
    if fail then
      let w := Config.freeWord s.free
      let n := s.sec.rollback + (Config.freeWord (s.free + 1)).toNat % (min 64 img.svn - s.sec.rollback)
      extendFree (logEntry { s.tick.tick with sec := { s.sec with rollback := n } } srcOchre 0x51 0 w.toNat) 5
    else extendFree { s with sec := { s.sec with rollback := min 64 img.svn } } 5
  else s

/-! ### What the start finds (R592, R594, R670) -/

/-- SOUND_FAIL of a spare. -/
def spareFails (s : State) (src : BitVec 16) (id : Nat) : State := logEntry s src 0x11 4 (soundDetail id 0)

/-- A spare fails its sounding, and leaves the spare inventory (R670). -/
def dropSpare (s : State) : Spare → State
  | .tile c =>
    if s.rep.spareUsed.contains c.val then s
    else
      let s := spareFails s (srcTile (8 * c.val)) (2 ^ 60 + clusterSpare c.val * 2 ^ 48 + clusterSpare c.val)
      { s with rep := { s.rep with spareUsed := s.rep.spareUsed ++ [c.val] } }
  | .vlane t =>
    if (s.tile t.val).vec.spent then s
    else (spareFails s (srcTile t.val) (laneSpareId s t.val)).updTile t.val fun y => { y with vec := { y.vec with spareBad := true, patrol := false } }
  | .krow t i =>
    let x := (s.tile t.val).mtx
    if (if i = 0 then x.s0 else x.s1).isSome then s
    else (spareFails s (srcTile t.val) (rowSpareId s t.val i.val)).updTile t.val fun y =>
      { y with mtx := if i = 0 then { y.mtx with s0bad := true } else { y.mtx with s1bad := true } }
  | .l1row t b =>
    let n := aget 0 (s.tile t.val).l1.rowSpares b.val
    if 4 ≤ n then s
    else (spareFails s (srcTile t.val) (l1SpareId s t.val b.val n)).updL1 t.val fun x => { x with rowSpares := aput x.rowSpares b.val (n + 1) }
  | .scway k ch =>
    let sl := aget {} (s.stack k.val).slices ch.val
    if 2 ≤ sl.sparesUsed then s
    else (spareFails s (srcStack k.val) (waySpareId s k.val ch.val sl.sparesUsed)).updStack k.val fun x =>
      { x with slices := aput x.slices ch.val { sl with sparesUsed := sl.sparesUsed + 1 } }
  | .memrow k ch b =>
    let n := aget 0 (s.stack k.val).rowSpares (bankKey ch.val b.val)
    if 8 ≤ n then s
    else (spareFails s (srcStack k.val) (memSpareId s k.val ch.val b.val n)).updStack k.val fun x =>
      { x with rowSpares := aput x.rowSpares (bankKey ch.val b.val) (n + 1) }
  | .chan k j =>
    if ahas (s.stack k.val).chmap j.val || (s.stack k.val).badChans.contains j.val then s
    else (spareFails s (srcStack k.val) (chanId k.val (128 + j.val))).updStack k.val fun x => { x with badChans := x.badChans ++ [j.val] }

/-- A channel fails its training (R494, R592): a spare takes its place, or the stack folds. -/
def replaceChannel (s : State) (p : StackNo × Fin 128) : State :=
  let k := p.1.val
  match freeSpareChan (s.stack k) with
  | some j => channelCopied s k p.2.val j
  | none =>
    if 8 ≤ s.rep.folds.length + s.rep.foldDue.length then s
    else if (s.stack k).copy.isNone then foldStart s k p.2.val
    else { s with rep := { s.rep with foldDue := s.rep.foldDue ++ [(k, p.2.val)] } }

/-- A structure fails its sounding at the start, and is repaired as in service (R594). -/
def foundBad (s : State) (p : Structure × Bool) : State :=
  (repairOf (logEntry s (structSrc p.1) 0x11 4 (soundDetail (structId s p.1) 0)) p.1 p.2).1

/-- Training and soundings of a start: the spares first, then the channels, then the structures (R592). -/
def startFindings (s : State) (r : StartResult) : State :=
  let s := r.badSpares.foldl (fun s x => atStart s r.dur.toNat fun s => dropSpare s x) s
  let s := r.chans.foldl (fun s x => atStart s r.dur.toNat fun s => replaceChannel s x) s
  r.found.foldl (fun s x => atStart s r.dur.toNat fun s => foundBad s x) s

/-- An accepted attempt reaches ready (R592). -/
def bootState (s : State) (img : Image) (slot : Bool) (attempts ocode : Nat) (r : StartResult) (cause : Option Nat) : State :=
  let s := startGens (drawKeys (freshState s img slot attempts ocode r.dur)) r.dur.toNat
  let s := measureStart s img
  let s := applyTrims (s.start.j0.foldl applyEntry (measureJournal s))
  let s := startFindings s r
  let s := match cause with | some c => restartEntry s r.dur.toNat c | none => s
  raiseRollback s img r.fuseFail

/-- A start failure (R596): START_FAIL in the journal, BOOTFAIL_N, and nothing else runs. -/
def failStart (s : State) (code attempts other : Nat) : State :=
  let e : JEntry :=
    { kind := 0x0F, origin := 1, unit := 0, loc := BitVec.ofNat 64 code, repl := BitVec.ofNat 32 attempts
      aux := BitVec.ofNat 32 other, time := (Config.freeWord s.free).truncate 32 }
  let s := s.tick
  { s with
    power := .startFailed, pins := { s.pins with bootfail := true, ready := false, extest := false }
    start := { s.start with jpend := if jSlots ≤ jHeld s then s.start.jpend else s.start.jpend ++ [(e, false)] } }

/-- The image with the higher sequence number is tried first, and A when they are equal (R586): false is A. -/
def firstSlot (s : State) : Bool :=
  match s.start.imgA, s.start.imgB with
  | some a, some b => decide (a.seq < b.seq)
  | none, some _ => true
  | _, none => false

/-- What equipment outside has written into the NVM since the last start (R582, R584, R587). -/
def takeNvm (s : State) (r : StartResult) : State :=
  let image := fun (old : Option Image) (h : Option (List Byte)) => match h with | none => old | some bs => parseHead bs
  let s := { s with start := { s.start with imgA := image s.start.imgA r.headA, imgB := image s.start.imgB r.headB } }
  match r.region with
  | none => s
  | some bs => match parseRegion bs with
    | some c => { s with start := { s.start with cfg := c, cfgBad := false, region := bs } }
    | none => { s with start := { s.start with cfgBad := true } }

/-- The start sequence (R592, R596). `s` holds what survived; `cause` is the fatal cause that a restart reports. -/
def startSeq (s : State) (r : StartResult) (cause : Option Nat) : State :=
  let s := takeNvm s r
  let img := fun (b : Bool) => if b then s.start.imgB else s.start.imgA
  let fail := fun (b : Bool) => if b then r.failB else r.failA
  let common := match r.common with | some c => c.toNat | none => 0
  let finish := fun (s : State) (slot : Bool) (attempts other : Nat) =>
    match img slot with
    | none => s
    | some i =>
      if common = 9 then
        failStart (match cause with | some c => restartEntry s r.dur.toNat c | none => s) 9 attempts other
      else bootState s i slot attempts other r cause
  if !s.tu.ref0 && !s.tu.ref1 then failStart s 11 1 0
  else if common = 10 || common = 11 then failStart s common 1 0
  else
    let b := firstSlot s
    match attempt s (img b) (fail b) with
    | (s, none) => finish s b 1 0
    | (s, some c) => match attempt s (img !b) (fail !b) with
      | (s, none) => finish s (!b) 2 c
      | (s, some d) => failStart s d 2 c

/-- A journal write that RESET_N cuts short may be torn, and then does not count (R703): whether it is, is free (log 70). -/
def cutWrite (s : State) : State :=
  let whole := (Config.freeWord s.free).getLsbD 0
  let s := s.tick
  match s.start.jpend with
  | [] => s
  | (e, done) :: _ =>
    if !whole then s
    else if done then { s with start := { s.start with j1 := s.start.j1 ++ [e] } }
    else { s with start := { s.start with j0 := s.start.j0 ++ [e] } }

/-- Power-good (R592, R638, R652): the rails are up. While RESET_N is asserted the sequence waits for its release (R702). -/
def startUp (s : State) (r : StartResult) : State :=
  if s.pins.thermtrip then s
  else if s.pins.reset then { s with power := .held }
  else startSeq s r none

def execPowerGood (r : StartResult) (s : State) : Result := .next (if s.power = .off then startUp s r else s)

/-- RESTART (R595, R660): the sequence from power-good, with the drip log and its index kept, and one more restart counted. -/
def execRestart (r : StartResult) (s : State) : Result :=
  .next (if s.power = .fatal then
      let k := lostState (cutWrite s) .fatal
      let k := { k with
        start := { k.start with restarts := sat16 s.start.restarts 1 }
        rep := { k.rep with log := s.rep.log, next := s.rep.next, lost := s.rep.lost } }
      startSeq k r (some s.rep.fatal)
    else s)

/-! ### RESET_N (R702, R703) -/

/-- RESET_N is asserted for 10 us or more. A module without rails, or in power-fail, only sees the pin. An EXTEST that was
selected drives the pins from now on (R629). -/
def execModuleReset (s : State) : Result :=
  let pin := { s with pins := { s.pins with reset := true } }
  .next (match s.power with
    | .off => pin
    | .failing => pin
    | .held => s
    | _ =>
      let k := lostState (cutWrite pin) .held
      { k with pins := { s.pins with reset := true, bootfail := false, ready := false, extest := s.pins.tap = .extest } })

/-- RESET_N is released: EXTEST stops driving, and the sequence runs (R702, R703). -/
def execResetRelease (r : StartResult) (s : State) : Result :=
  .next (
    if !s.pins.reset then s
    else
      let s := { s with pins := { s.pins with reset := false, extest := false } }
      if s.power = .held then startSeq s r none else s)

/-! ### Power-fail and the loss of power (R634, R639, R652, R694) -/

/-- The input has been below 40 V for 10 us: no grant, no issue and no transmission from now on. -/
def execPowerFail (s : State) : Result :=
  .next (if s.power = .off || s.power = .failing then s
    else { s with power := .failing, lamp := { s.lamp with stopped := true }, pins := { s.pins with ready := false } })

/-- The input falls below 38 V in power-fail. -/
def execRailRemoval (s : State) : Result := .next (if s.power = .failing then railsDown s else s)

/-- The input rises above 64 V: as if power had been removed (R634). A journal write in progress may be torn (log 70). -/
def execOvervoltage (s : State) : Result := .next (if s.power = .off then s else railsDown (cutWrite s))

/-- The input returns above 42 V in power-fail: every rail is removed, and the module starts afresh. -/
def execInputReturn (r : StartResult) (s : State) : Result :=
  .next (if s.power = .failing then startUp (railsDown s) r else s)

/-- The input has been below 20 V for 1 s: the latch of R652 is open. -/
def execThermtripLatchRelease (s : State) : Result :=
  .next (if s.power = .off then { s with pins := { s.pins with thermtrip := false } } else s)

end Sys2Proof.Machine
end

