-- ==== Sys2Proof/Machine/Security.lean ====
section
/-! DEFINITION. Ochre's entropy, the release of the owner, and the test access port (R610, R611, R625 to R630, R702, R706). -/

namespace Sys2Proof.Machine

open Sys2Proof

/-! ### Entropy (R610, R611) -/

/-- A continuous test fails: the source retests, and the third failure within 1 s is fatal. -/
def execEntropyTestFailure (s : State) : Result :=
  .next (if s.power ≠ .run then s
    else
      let fs := s.mono :: s.sec.entFails.filter fun t => decide (s.mono < t + 1000000000)
      let s := { s with sec := { s.sec with entok := false, entFails := fs } }
      if 3 ≤ fs.length then goFatal s fEntropy else s)

/-- The DRBG reseeds, for which the entropy source has passed its retest (R610, R611). -/
def execDrbgReseed (s : State) : Result :=
  .next (if s.power ≠ .run then s
    else { s with sec := { s.sec with entok := true, reseeds := s.sec.reseeds + 1, seedAt := s.mono } })

/-! ### Release (R625 to R627) -/

/-- A release, from its check to its fuses, MR5 and SEC_RELSTAT (R626). -/
def releaseRun (s : State) (addr : Word) (sigOk : Bool) : State :=
  let r := releaseRecord s (8 * wfld addr 3 37)
  let code := releaseCode r.1 r.2 sigOk
  let c := (slotInForce r.1).getD 0
  let s := { r.1 with sec := { r.1.sec with relBusy := none, relCode := BitVec.ofNat 8 code } }
  match r.2, nextSlot s c with
  | some b, some i =>
    if code = 0 then
      let next := BitVec.ofNat 256 (ofBytes ((b.drop 32).take 32))
      let owners := aput s.sec.owners i { ownerSlot s i with digest := next }
      let owners := aput owners c { ownerSlot s c with rel := true }
      extendFree { s with sec := { s.sec with owners := owners, relDone := true } } 5
    else s
  | _, _ => s

/-- A write of SEC_RELCTL by a core or a host begins a release; while one is checked it is discarded (R626, R627). -/
def relctlWrite (s : State) (v : Word) : State :=
  if s.sec.relBusy.isSome then s else { s with sec := { s.sec with relBusy := some v } }

/-- RELEASE: a write of SEC_RELCTL and its outcome. One that a register write has begun ends here. -/
def execRelease (addr : Word) (sigOk : Bool) (s : State) : Result :=
  .next (if s.power ≠ .run then s
    else match s.sec.relBusy with
      | none => releaseRun s addr sigOk
      | some a => releaseRun s a sigOk)

/-! ### The pins as they are driven (R27, R629, R702, R706) -/

/-- READY_N, ALERT_N and BOOTFAIL_N are asserted: by the module, or from the boundary register while EXTEST drives. -/
def readyPin (s : State) : Bool := if s.pins.extest then !s.pins.boundary.getLsbD 28 else s.pins.ready
def alertPin (s : State) : Bool :=
  if s.pins.extest then !s.pins.boundary.getLsbD 29 else s.power = .run && (throttled s || thermstop s)
def bootfailPin (s : State) : Bool := if s.pins.extest then !s.pins.boundary.getLsbD 30 else s.pins.bootfail

/-! ### The TAP (R628, R629) -/

/-- VAUX supplies the TAP (R635). -/
def tapOn (s : State) : Bool := s.power ≠ .off

/-- BYPASS, and every opcode without an instruction: the one-bit bypass register. -/
def execBypass (s : State) : Result :=
  .next (if tapOn s then { s with pins := { s.pins with tap := .bypass, tapDr := 0, extest := false } } else s)

def execIdcode (s : State) : Result :=
  .next (if tapOn s then { s with pins := { s.pins with tap := .idcode, tapDr := 0x120409A3, extest := false } } else s)

/-- SAMPLE/PRELOAD: the pins are captured and shifted out, the preload takes their place; the pins stay as they are. The cells
of READY_N, ALERT_N and BOOTFAIL_N capture what the module drives: 0 asserts. -/
def execSamplePreload (pins preload : BitVec 31) (s : State) : Result :=
  .next (if tapOn s then
      let low := pins.toNat % 2 ^ 28
      let top := b2n (!readyPin s) + 2 * b2n (!alertPin s) + 4 * b2n (!bootfailPin s)
      { s with pins := { s.pins with
        tap := .sample, extest := false, sampled := BitVec.ofNat 31 (low + top * 2 ^ 28), boundary := preload } }
    else s)

/-- EXTEST: drives the pins only while RESET_N is asserted, and is BYPASS otherwise (R629). -/
def execExtest (s : State) : Result :=
  .next (if tapOn s then
      { s with pins := { s.pins with tap := .extest, extest := s.pins.reset, tapDr := if s.pins.reset then s.pins.tapDr else 0 } }
    else s)

def execTapReset (s : State) : Result :=
  .next (if tapOn s then { s with pins := { s.pins with tap := .idcode, tapDr := 0x120409A3, extest := false } } else s)

end Sys2Proof.Machine
end

