-- ==== Sys2Proof/Machine/Power.lean ====
section
/-! DEFINITION. Lamp's lines and limits, and throttling (R636, R643 to R653). -/

namespace Sys2Proof.Machine

open Sys2Proof

/-! ### Waiting requests (R643, R645) -/

/-- The request that Lamp may serve next, and the lines without it (R645). -/
def frontReq (l : Lamp) : Option (Req × Lamp) :=
  match l.rtLine, l.normLine with
  | r :: rs, _ => some (r, { l with rtLine := rs })
  | [], r :: rs => some (r, { l with normLine := rs })
  | [], [] => none

def execLampGrant (s : State) : Result :=
  .next (match frontReq s.lamp with
    | some (r, l) =>
      if mayIssue s r.watts r.die then grantTaken (issueGrant { s with lamp := l } r) r.holder else s
    | none => s)

/-- The oldest normal request has waited 50 us, and moves to the end of the real-time line. -/
def execLampLineMove (s : State) : Result :=
  .next (match s.lamp.normLine with
    | r :: rs =>
      if s.power ≠ .run then s
      else
        let s := s.reach (r.at_ + 50000)
        { s with lamp := { s.lamp with rtLine := s.lamp.rtLine ++ [r], normLine := rs } }
    | [] => s)

/-! ### VCORE (R636, R649 to R651) -/

def orAsk (v : Nat) : Option Nat → Nat
  | some a => min v a
  | none => v

/-- VCORE is the lowest value that any cause asks for, and the target when none asks (R651). -/
def vcoreOf (d : DiePower) : Nat := max vMin (orAsk (orAsk (orAsk d.vset d.askThm) d.askCur) d.askPwr)

def setVcore (d : DiePower) : DiePower := { d with vcore := vcoreOf d }

/-- What a cause does to VCORE: lowers it, raises it, or neither. -/
inductive Move where
  | down | up | stay
  deriving DecidableEq, Repr

def moveThm (tj : Nat) : Move := if 95 < tj then .down else if tj ≤ 92 then .up else .stay
def movePwr (pin plmod : Nat) : Move := if plmod < pin then .down else if pin + 50 ≤ plmod then .up else .stay
def moveCur (imeas ilim : Nat) : Move := if ilim < imeas then .down else if imeas * 100 ≤ ilim * 95 then .up else .stay

/-- THROTTLE (R683): VCORE and the causes as they stand, when a cause begins or ends on a die (log 72). -/
def throttleEntry (s : State) (d : Die) (begins : Bool) : State :=
  let x := s.die d
  let n := match d with | .c0 => 1 | .c1 => 2
  logEntry s (logSrc 6 n) 0x50 0 (b2n begins * 8192 + b2n x.cur * 4096 + b2n x.pwr * 2048 + b2n x.thm * 1024 + x.vcore)

/-- LAMP_CFG (R648): the limit in force; outside its range the write is discarded. -/
def lampCfgWrite (s : State) (v : Word) : State :=
  let w := wfld v 0 12
  if 2000 ≤ w && w ≤ s.lamp.plcfg then { s with lamp := { s.lamp with plmod := w } } else s

def execLampCfg (v : Word) (s : State) : Result := .next (if s.power = .run then lampCfgWrite s v else s)

/-- LAMP_DIE (R636, R653): the VCORE target; outside 550 to 850 mV the write is discarded. -/
def lampDieWrite (s : State) (d : Die) (v : Word) : State :=
  let w := wfld v 14 10
  if 550 ≤ w && w ≤ 850 then s.updDie d fun x => setVcore { x with vset := w } else s

def execLampDie (d : Die) (v : Word) (s : State) : Result := .next (if s.power = .run then lampDieWrite s d v else s)

/-- A die reading of its junction temperature (R649, R652). -/
def execJunctionTemperature (d : Die) (tj : Nat) (s : State) : Result :=
  .next (
    if s.power ≠ .run then s
    else
      let s := s.updDie d fun x => { x with tj := tj % 256, tjmax := max x.tjmax (tj % 256) }
      if 110 ≤ tj then railsDown { s with pins := { s.pins with thermtrip := true } }
      else
        let x := s.die d
        match moveThm tj with
        | .down =>
          if x.thm then s
          else
            let begin_ := fun (x : DiePower) => { x with thm := true, askThm := some x.vcore, dueThm := s.mono + 100000 }
            throttleEntry (s.updDie d begin_) d true
        | .up => if x.thm then throttleEntry (s.updDie d fun x => { x with thm := false, dueThm := s.mono + 100000 }) d false else s
        | .stay => s)

/-- The power cause begins or ends on a die. -/
def pwrCause (s : State) (d : Die) (on : Bool) : State :=
  let begin_ := fun (x : DiePower) => { x with pwr := true, askPwr := some x.vcore, duePwr := s.mono + 100000 }
  let end_ := fun (x : DiePower) => { x with pwr := false, duePwr := s.mono + 100000 }
  throttleEntry (s.updDie d (if on then begin_ else end_)) d on

/-- The 1 ms average of input power (R650). -/
def execInputPower (x : InputReading) (s : State) : Result :=
  .next (
    if s.power ≠ .run then s
    else
      let s := { s with lamp := { s.lamp with pin := x.pin % 2 ^ 16, vin := x.vin.toNat, iin := x.iin.toNat } }
      match movePwr x.pin s.lamp.plmod with
      | .down =>
        if s.lamp.pwr then s else pwrCause (pwrCause { s with lamp := { s.lamp with pwr := true } } .c0 true) .c1 true
      | .up =>
        if s.lamp.pwr then pwrCause (pwrCause { s with lamp := { s.lamp with pwr := false } } .c0 false) .c1 false else s
      | .stay => s)

/-- The 20 us average of a die's VCORE current (R650): above the limit it takes 20 mV off at once. -/
def execDieCurrent (d : Die) (amps : Nat) (s : State) : Result :=
  .next (
    if s.power ≠ .run then s
    else
      let old := s.die d
      let s := s.updDie d fun x => { x with imeas := amps % 2 ^ 12 }
      match moveCur amps old.ilim with
      | .down =>
        if old.cur && moveCur old.imeas old.ilim = .down then s
        else
          let begin_ := fun (x : DiePower) =>
            setVcore { x with cur := true, askCur := some (max vMin (x.vcore - 20)), dueCur := s.mono + 20000 }
          let s' := s.updDie d begin_
          if old.cur then s' else throttleEntry s' d true
      | .up => if old.cur then throttleEntry (s.updDie d fun x => { x with cur := false, dueCur := s.mono + 100000 }) d false else s
      | .stay => s)

/-- One ask moves by 10 mV, down to 0.55 V, or up until it reaches the target and ends. -/
def moveAsk (vset : Nat) (m : Move) (a : Option Nat) : Option Nat :=
  match m, a with
  | .down, some v => some (max vMin (v - 10))
  | .up, some v => if vset ≤ v + 10 then none else some (v + 10)
  | _, a => a

/-- The ask of a cause moves when its interval is over: 20 us for the current cause as it lowers, else 100 us. -/
def stepAsk (vset now step due : Nat) (m : Move) (a : Option Nat) : Option Nat × Nat :=
  if m ≠ .stay && a.isSome && decide (due ≤ now) then (moveAsk vset m a, now + step) else (a, due)

/-- When an ask moves next; none while it stays. -/
def askDue (due : Nat) (m : Move) (a : Option Nat) : Option Nat := if m ≠ .stay && a.isSome then some due else none

/-- The end of a throttle interval of a die (R649 to R651): time reaches it, every ask whose interval is over moves, and VCORE
follows the lowest. -/
def execThrottleStep (d : Die) (s : State) : Result :=
  .next (
    let x := s.die d
    let mt := moveThm x.tj
    let mc := moveCur x.imeas x.ilim
    let mp := movePwr s.lamp.pin s.lamp.plmod
    match (askDue x.dueThm mt x.askThm).toList ++ (askDue x.dueCur mc x.askCur).toList ++ (askDue x.duePwr mp x.askPwr).toList with
    | [] => s
    | t :: ts =>
      if s.power ≠ .run then s
      else
        let s := s.reach (ts.foldl min t)
        let th := stepAsk x.vset s.mono 100000 x.dueThm mt x.askThm
        let cu := stepAsk x.vset s.mono (if mc = .down then 20000 else 100000) x.dueCur mc x.askCur
        let pw := stepAsk x.vset s.mono 100000 x.duePwr mp x.askPwr
        s.updDie d fun x => setVcore { x with
          askThm := th.1, dueThm := th.2, askCur := cu.1, dueCur := cu.2, askPwr := pw.1, duePwr := pw.2 })

/-! ### Registers (R653) -/

def lampCfgReg (s : State) : Word := pack [(s.lamp.plcfg, 32), (s.lamp.plmod, 0)]
def lampMod (s : State) : Word :=
  pack [(s.lamp.pin, 48), (gMod s % 2 ^ 16, 32), (b2n (modStop s), 21), (b2n s.lamp.pwr, 20), (s.lamp.rtLine.length % 1024, 10),
    (s.lamp.normLine.length % 1024, 0)]
def lampIn (s : State) : Word := pack [(s.lamp.vin, 16), (s.lamp.iin, 0)]
def lampCnt (s : State) : Word := pack [(s.lamp.grants, 32), (s.lamp.waited, 0)]
def lampCntClear (s : State) : State := { s with lamp := { s.lamp with grants := 0, waited := 0 } }
def lampDieReg (s : State) (d : Die) : Word :=
  let x := s.die d
  pack [(x.ilim, 52), (x.imeas, 40), (gDie s d % 2 ^ 16, 24), (x.vset, 14), (x.vcore, 4), (b2n (dieStop s d), 3), (b2n x.cur, 2),
    (b2n x.pwr, 1), (b2n x.thm, 0)]
def lampDtemp (s : State) (d : Die) : Word := pack [((s.die d).tjmax, 8), ((s.die d).tj, 0)]

end Sys2Proof.Machine
end

