-- ==== Sys2Proof/Machine/Regs.lean ====
section
/-! DEFINITION. Every register block of R22 as an access by a core or a host reaches it (R7, R9, R11): which register an offset names, what a read returns, what a write does. -/

namespace Sys2Proof.Machine

open Sys2Proof

/-- Offset `o` lies in `n` bytes from `b` on. -/
def inOff (o b n : Nat) : Bool := decide (b ≤ o) && decide (o < b + n)

/-- What a read of a register finds: the state after it (a read may latch), and its value; none where no register has the
offset. -/
abbrev RegRead := Option (State × Word)

def ro (s : State) (w : Word) : RegRead := some (s, w)

/-! ### Reads -/

/-- MOD_ (R26 to R29, R44, R53, R57, R58, R467, R601, R602, R606). -/
def modRead (s : State) (o : Nat) : RegRead :=
  if inOff o 0x20 0x20 then ro s (modTilemap s ((o - 0x20) / 8))
  else if inOff o 0x200 0x80 then ro s (modMap s ((o - 0x200) / 8))
  else if inOff o 0x340 0x20 then ro s (wideWord (featOffered s) ((o - 0x340) / 8))
  else if inOff o 0x360 0x20 then ro s (wideWord s.start.featAct ((o - 0x360) / 8))
  else match o with
    | 0x00 => ro s (s.gid.zeroExtend 64)
    | 0x08 => ro s (modStatus s)
    | 0x10 => ro s (modInv s)
    | 0x40 => ro s s.pacesum
    | 0x100 => ro s (BitVec.ofNat 64 s.mono)
    | 0x108 => ro s (BitVec.ofNat 64 s.time)
    | 0x110 => ro s (modTimestat s)
    | 0x118 => ro s s.tu.ppscap
    | 0x120 => ro s (modRefstat s)
    | 0x300 => ro s modVer
    | 0x308 => ro s (modFwver s)
    | 0x310 => ro s s.sec.serial
    | 0x318 => ro s (modBoot s)
    | _ => none

/-- TILE_PACE (R42). -/
def tilePace (x : Tile) : Word := pack [(x.paceMax.toNat, 32), (x.paceMin.toNat, 16), (x.paceCur.toNat, 0)]

def movStateCode : MovState → Nat
  | .idle => 0
  | .running => 1
  | .halted => 2
  | .waitGrant => 3

/-- MOV_QSTAT (R353). -/
def movQstat (m : MovQ) : Word :=
  pack [(m.idx % 2 ^ 16, 48), (m.code, 40), (b2n m.sigf, 35), (b2n m.late, 34), (movStateCode m.state, 32), (b2n m.berr, 0)]

/-- MOV_STAT (R354): a grant that any queue holds, and the released writes that have not been performed. -/
def movStat (x : Tile) : Word :=
  let act := x.mov.filterMap fun p => p.2.active
  pack [(b2n (act.any fun a => a.grant), 16), (min 128 (act.map fun a => a.xact).sum, 0)]

/-- MOV_ registers of a queue (R350). -/
def movqRead (s : State) (t q o : Nat) : RegRead :=
  let m := s.movq t q
  match o with
  | 0x00 => ro s (pack [(m.base, 0), (m.lsz, 0)])
  | 0x08 => ro s (BitVec.ofNat 64 m.head)
  | 0x10 => ro s (BitVec.ofNat 64 m.tail)
  | 0x18 => ro s 0
  | 0x20 => ro s (movQstat m)
  | 0x28 => ro s m.faddr
  | _ => none

/-- TILE_, MTX_ and MOV_ registers of tile `t` (R42, R59, R60, R116, R236 to R244, R285, R316 to R318, R325, R338, R350, R525). -/
def tileRead (s : State) (t : TileId) (o : Nat) : RegRead :=
  let x := s.tile t.val
  if inOff o 0x800 0x600 then
    let n := 0x100 + (o - 0x800) / 8
    if srClass (.tile t) n ≠ .none then ro s (srRead s (.tile t) n) else none
  else if inOff o 0x5000 0x100 then movqRead s t.val ((o - 0x5000) / 0x40) (o % 0x40)
  else match o with
    | 0xE00 => ro s (tilePace x)
    | 0xE08 => ro s x.core.steps
    | 0xE10 => ro s x.core.stall
    | 0xE18 => ro s 0
    | 0xE20 => ro s x.tcorrSteps
    | 0xE28 => ro s x.tcorrTime
    | 0x2400 => ro s (nanfWord x.num)
    | 0x2408 => ro s (BitVec.ofNat 64 x.num.ndrain)
    | 0x2410 => ro s 0
    | 0x2418 => ro s x.num.histaddr
    | 0x2420 => ro s (numstatWord x.num)
    | 0x3000 => ro s x.mtx.cfg
    | 0x3008 => ro s (mtxStat x.mtx)
    | 0x3010 => ro s (pack [(x.mtx.errMore, 8), (x.mtx.errKind.toNat, 0)])
    | 0x3018 => ro s x.mtx.errAddr
    | 0x3020 => ro s (mtxRows x.mtx)
    | 0x4000 => ro s (l1cfgRead x.l1)
    | 0x4008 => ro s (l1stat x.l1)
    | 0x5100 => ro s (movStat x)
    | 0x6000 => ro s (pack [(b2n x.reclaim, 1), (b2n x.drain, 0)])
    | _ => none

def qstateCode : QState → Nat
  | .idle => 0
  | .running => 1
  | .inWait => 2
  | .waiting => 3
  | .halted => 4
  | .draining => 5

def feTileCode : FeTileState → Nat
  | .idle => 0
  | .kernel => 1
  | .persistent => 2
  | .draining => 3
  | .killed => 4
  | .out => 5

/-- FE_ registers of a queue (R504 to R507). -/
def feqRead (s : State) (q o : Nat) : RegRead :=
  let x := s.queue q
  match o with
  | 0x00 => ro s (pack [(x.base, 0), (x.lsz, 0)])
  | 0x08 => ro s (BitVec.ofNat 64 x.head)
  | 0x10 => ro s (BitVec.ofNat 64 x.tail)
  | 0x18 => ro s (pack [(b2n x.en, 63), (b2n (decide (q < 8)), 62), (x.db.toNat, 48), (x.dtmo.toNat, 0)])
  | 0x20 => ro s 0
  | 0x28 => ro s (pack [(x.code.toNat, 16), (b2n x.berr, 9), (b2n x.fail, 8), (qstateCode x.state, 0)])
  | 0x30 => ro s x.faddr
  | 0x38 => ro s x.farg
  | _ => none

/-- FE_TILE (R535): a tile paused for sounding reads as killed or sounding, one out of service as 5. -/
def feTileReg (s : State) (t : Nat) : Word :=
  let x := s.feTile t
  let st := if (s.tile t).oos then 5 else if (s.tile t).paused then 4 else feTileCode x.state
  pack [(b2n x.reclaim, 25), (b2n x.lent, 24), (b2n x.rsv.isSome, 23), (x.rsv.getD 0, 16), (b2n x.own.isSome, 15),
    (x.own.getD 0, 8), (st, 0)]

def feRsvReg (x : Rsv) : Word := pack [(b2n x.valid, 63), (b2n x.lend, 32), (x.count, 8), (x.first, 0)]

def feGraphReg (x : Graph) : Word :=
  pack [(b2n x.defined, 63), (x.run % 128, 56), (x.pend.length % 256, 48), (x.cnt, 32), (x.off, 0)]

def tqStat (x : TaskQueue) : Word := pack [(x.lost, 32), (x.pbuf.length, 8), (x.entries.length, 0)]

/-- FE_ (R504, R513, R531, R535, R538, R541, R545). -/
def feBlockRead (s : State) (o : Nat) : RegRead :=
  if o = 0x100 then some (waitsnap s)
  else if o = 0x108 then ro s (BitVec.ofNat 64 s.fe.htbase)
  else if o = 0x110 then ro s (pack [(s.fe.grsize, 48), (s.fe.grbase, 0)])
  else if inOff o 0x1000 0x1000 then feqRead s ((o - 0x1000) / 0x40) (o % 0x40)
  else if inOff o 0x2000 0x400 then
    let x := s.queue ((o - 0x2000) / 0x10)
    ro s (if o % 0x10 = 0 then x.wsaddr else x.wsthr)
  else if inOff o 0x2800 0x200 then ro s (s.queue ((o - 0x2800) / 8)).fval
  else if inOff o 0x3000 0x800 then
    match o % 0x40 with
    | 0 => ro s 0
    | 8 => ro s (tqStat (aget {} s.fe.taskq ((o - 0x3000) / 0x40)))
    | _ => none
  else if inOff o 0x4000 0x800 then ro s (feTileReg s ((o - 0x4000) / 8))
  else if inOff o 0x5000 0x40 then ro s (feRsvReg (aget {} s.fe.rsv ((o - 0x5000) / 8)))
  else if inOff o 0x6000 0x2000 then ro s (feGraphReg (s.graph ((o - 0x6000) / 8)))
  else none

/-- GAL_ (R367, R381, R382, R397, R398, R420, R421, R450, R459 to R462). -/
def galRead (s : State) (o : Nat) : RegRead :=
  if inOff o 0x100 0x80 then
    let w := (o - 0x100) / 0x10
    match o % 0x10 with
    | 0 => ro s (aget 0 s.gal.rwinLo w)
    | _ => ro s (aget 0 s.gal.rwinHi w)
  else if inOff o 0x100000 0x20000 then
    let t := (o - 0x100000) / 0x200
    let r := o % 0x200
    if r < 0x100 then ro s (if r % 0x10 = 0 then ibcfgRead (s.inbox t (r / 0x10)) else ibptrRead (s.inbox t (r / 0x10)))
    else if r = 0x100 then ro s (galPort (s.tile t).port)
    else none
  else if inOff o 0x200000 0x2400 then
    let p := (o - 0x200000) / 0x40
    match o % 0x40 with
    | 0x00 => ro s (galLnk s p)
    | 0x08 => ro s (galLcnt0 (s.link p))
    | 0x10 => ro s (galLcnt1 (s.link p))
    | _ => none
  else if inOff o 0x240000 0x480 then (if o % 0x40 = 0 then ro s (galOct (s.octet ((o - 0x240000) / 0x40))) else none)
  else if inOff o 0x280000 0x40000 then
    (if (o - 0x280000) / 8 < 2 ^ (16 - s.gal.mbits) then ro s (aget 0 s.gal.grpTab ((o - 0x280000) / 8)) else none)
  else if inOff o 0x2C0000 0x80000 then
    (if (o - 0x2C0000) / 8 < 2 ^ s.gal.mbits then ro s (aget 0 s.gal.memTab ((o - 0x2C0000) / 8)) else none)
  else match o with
    | 0x00 => ro s (BitVec.ofNat 64 s.gal.dirbase)
    | 0x08 => ro s (pack [(b2n s.gal.dirinv.isSome, 21)])
    | 0x10 => ro s (BitVec.ofNat 64 s.gal.basin)
    | 0x18 => ro s (BitVec.ofNat 64 s.gal.deftmo)
    | 0x20 => ro s (galUse s)
    | 0x28 => ro s (BitVec.ofNat 64 s.gal.stale)
    | 0x30 => ro s (galBcn s)
    | 0x40 => ro s (galRtcfg s)
    | 0x48 => ro s s.gal.detour
    | 0x50 => ro s (BitVec.ofNat 64 s.gal.rterr)
    | _ => none

/-- ETH_ and EZ_ (R556, R557, R573, R574). -/
def hostRead (s : State) (o : Nat) : RegRead :=
  if inOff o 0 0x200 then
    match o % 0x40 with
    | 0x00 => ro s (ethPort (s.hport (o / 0x40)) (o / 0x40))
    | 0x08 => ro s (ethPcnt (s.hport (o / 0x40)))
    | _ => none
  else if o = 0xF00 then ro s (ezCnt s)
  else if inOff o 0x1000 0x1000 then (if o % 0x10 = 0 then ro s (ezSess s (s.sess ((o - 0x1000) / 0x10))) else none)
  else none

/-- LAMP_ (R653). -/
def lampRead (s : State) (o : Nat) : RegRead :=
  match o with
  | 0x00 => ro s (lampCfgReg s)
  | 0x08 => ro s (lampMod s)
  | 0x10 => ro s (lampIn s)
  | 0x18 => ro s (lampCnt s)
  | 0x100 => ro s (lampDieReg s .c0)
  | 0x108 => ro s (lampDtemp s .c0)
  | 0x140 => ro s (lampDieReg s .c1)
  | 0x148 => ro s (lampDtemp s .c1)
  | _ => none

/-- A word of a drip log slot (R685); a slot that was never written reads 0. -/
def logWord (s : State) (o : Nat) : Word :=
  match afind s.rep.log (o / 32) with
  | some e => wordOf (((logBytes e).drop (o % 32)).take 8)
  | none => 0

/-- REP_ (R600, R685, R686). -/
def repRead (s : State) (o : Nat) : RegRead :=
  if inOff o 0x1000 0x800 then ro s (repTmap s ((o - 0x1000) / 8))
  else if inOff o 0x2000 0x1000 then ro s (repTrim (s.tile ((o - 0x2000) / 16)).mtx ((o - 0x2000) / 8 % 2))
  else if inOff o 0x3000 0xA0 then ro s (repChmap (s.stack ((o - 0x3000) / 8)))
  else if inOff o 0x3100 0x40 then ro s (repFold s ((o - 0x3100) / 8))
  else if inOff o 0x40000 0x40000 then ro s (logWord s (o - 0x40000))
  else match o with
    | 0x00 => ro s (repDlstat s)
    | 0x08 => ro s (repCnt s)
    | 0xF00 => ro s (repJstat s)
    | _ => none

/-- SEC_ (R631 to R633). -/
def secRead (s : State) (o : Nat) : RegRead :=
  if inOff o 0x20 0x20 then ro s (wideWord (ownerDigest s) ((o - 0x20) / 8))
  else if inOff o 0x40 0x40 then ro s (wideWord (idKey s) ((o - 0x40) / 8))
  else if inOff o 0x100 0x180 then ro s (wideWord (aget 0 s.sec.mr ((o - 0x100) / 0x40)) (o % 0x40 / 8))
  else if inOff o 0x280 0x30 then ro s (BitVec.ofNat 64 (aget 0 s.sec.mrcnt ((o - 0x280) / 8)))
  else match o with
    | 0x00 => ro s (secStat s)
    | 0x300 => ro s 0
    | 0x308 => ro s (secRelstat s)
    | _ => none

/-- A mailbox at offset `r` (R575). -/
def mbRead (s : State) (m : MbId) (hmb : Bool) (r : Nat) : RegRead :=
  if r < 0x40 then ro s (aget 0 (s.mbox m).data (r / 8))
  else match r with
    | 0x40 => ro s 0
    | 0x48 => ro s (mbStat (s.mbox m))
    | 0x50 => ro s 0
    | 0x58 => if hmb then ro s (mbCfg (s.mbox m)) else none
    | _ => none

/-- A doorbell set at offset `r` (R578). -/
def dbRead (s : State) (d : DbId) (r : Nat) : RegRead :=
  let v := match d with
    | .tile t => ((s.tile t.val).tdb, (s.tile t.val).tdbm)
    | .host => (s.host.hdb, s.host.hdbm)
  match r with
  | 0x00 => ro s (v.1.zeroExtend 64)
  | 0x08 => ro s 0
  | 0x10 => ro s (v.2.zeroExtend 64)
  | _ => none

/-- MB_ (R575, R578). -/
def mbBlockRead (s : State) (o : Nat) : RegRead :=
  if o < 0x800 then mbRead s (.hmb (Fin.ofNat 16 (o / 0x80))) true (o % 0x80)
  else if inOff o 0x10000 0x8000 then mbRead s (.tmb (Fin.ofNat 256 ((o - 0x10000) / 0x80))) false (o % 0x80)
  else if inOff o 0x20000 0x2000 then dbRead s (.tile (Fin.ofNat 256 ((o - 0x20000) / 0x20))) (o % 0x20)
  else if inOff o 0x30000 0x20 then dbRead s .host (o - 0x30000)
  else none

/-- The register at an aligned local address of a block of R22. -/
def blockRead (s : State) (l : Nat) : RegRead :=
  let o := l % 0x1000000
  match l % 0x100000000 / 0x1000000 with
  | 0 => modRead s o
  | 1 => tileRead s (Fin.ofNat 256 (o / 0x10000)) (o % 0x10000)
  | 4 => feBlockRead s o
  | 5 => match o % 0x10000 with
    | 0 => ro s (memStat (s.stack (o / 0x10000)))
    | 8 => ro s (memEcc (s.stack (o / 0x10000)))
    | _ => none
  | 6 => galRead s o
  | 7 => hostRead s o
  | 8 => lampRead s o
  | 9 => repRead s o
  | 10 => secRead s o
  | 11 => mbBlockRead s o
  | _ => none

/-- The Backstop stack of a tile, which is ordinary SRAM (R135): the tile and the offset in it. -/
def bstkAt (l n : Nat) : Option (Nat × Nat) :=
  let o := l % 0x10000
  if l % 0x100000000 / 0x1000000 = 1 && 0x1000 ≤ o && o + n ≤ 0x2000 then some (l % 0x1000000 / 0x10000, o - 0x1000) else none

/-- A histogram counter, a register of 32 bits (R239): the tile and the bin. -/
def histAt (l : Nat) : Option (Nat × Nat) :=
  let o := l % 0x10000
  if l % 0x100000000 / 0x1000000 = 1 && inOff o 0x2500 0x100 then some (l % 0x1000000 / 0x10000, (o - 0x2500) / 4) else none

/-- A read of `n` bytes at a local address of a register block (R11): the bytes, or none for a bus error. An offset that no
register has reads a free value (log 6). -/
def regRead (s : State) (l n : Nat) : State × Option (List Byte) :=
  match bstkAt l n, histAt l with
  | some (t, o), _ => (s, some (readBytes (s.tile t).core.bstk o n))
  | none, some (t, b) => (s, if n = 4 && l % 4 = 0 then some (toBytes 4 (aget 0 (s.tile t).num.hist b)) else none)
  | none, none =>
    if n ≠ 8 || l % 8 ≠ 0 then (s, none)
    else match blockRead s l with
      | some (s, w) => (s, some (toBytes 8 w.toNat))
      | none => (s.tick, some (toBytes 8 (Config.freeWord s.free).toNat))

/-! ### Writes -/

/-- MOD_ (R53, R58): the W1C fields; every other is read-only. -/
def modWrite (s : State) (o : Nat) (v : Word) : State :=
  match o with
  | 0x110 => timestatWrite s v
  | 0x120 => refstatWrite s v
  | _ => s

/-- MOV_ of a queue (R350 to R353). -/
def movqWrite (s : State) (t q o : Nat) (v : Word) : State :=
  match o with
  | 0x00 => s.updMovq t q fun m => qbaseWrite m v
  | 0x10 => s.updMovq t q fun m => qtailWrite m v
  | 0x18 => qctlWrite s t q v
  | 0x20 => s.updMovq t q fun m => { m with berr := m.berr && !wbit v 0 }
  | _ => s

/-- The registers of a tile's block, written from task code or not (R42, R60, R116, R240, R241, R244, R317, R325, R338, R350). -/
def tileWrite (s : State) (t : TileId) (o : Nat) (v : Word) (task : Bool) : State :=
  if inOff o 0x800 0x600 then mirrorWrite s t (0x100 + (o - 0x800) / 8) v
  else if inOff o 0x5000 0x100 then movqWrite s t.val ((o - 0x5000) / 0x40) (o % 0x40) v
  else match o with
    | 0xE00 => s.updTile t.val fun x => paceClear x v
    | 0xE18 => tcorr s t.val
    | 0x2410 => numctl s t.val (wbit v 2) (wbit v 1) (wbit v 0) task
    | 0x2418 => s.updTile t.val fun x => { x with num := { x.num with histaddr := v &&& histaddrMask } }
    | 0x2420 => s.updTile t.val fun x => { x with num :=
        { x.num with hlost := x.num.hlost && !wbit v 2, herr := x.num.herr && !wbit v 1 } }
    | 0x3010 => s.updTile t.val fun x => { x with mtx := mtxErrClear x.mtx }
    | 0x4000 => if task then s else l1cfgWrite s t.val v
    | 0x4008 => s.updL1 t.val fun x => { x with ibx := x.ibx && !wbit v 1 }
    | _ => s

/-- FE_QCFG (R505). -/
def qcfgWrite (x : FeQueue) (v : Word) : FeQueue :=
  { x with en := wbit v 63, db := v.extractLsb' 48 5, dtmo := if wfld v 0 32 = 0 then 1 else v.extractLsb' 0 32 }

/-- FE_ of a queue (R504 to R507). -/
def feqWrite (s : State) (q o : Nat) (v : Word) : State :=
  match o with
  | 0x00 => s.updQueue q fun x => qBase x v
  | 0x10 => s.updQueue q fun x => qTail x v
  | 0x18 => s.updQueue q fun x => qcfgWrite x v
  | 0x20 => feQctl s q v
  | 0x28 => s.updQueue q fun x => { x with berr := x.berr && !wbit v 9, fail := x.fail && !wbit v 8 }
  | _ => s

/-- FE_GRBASE (R541): discarded while any graph is defined. -/
def grbaseWrite (s : State) (v : Word) : State :=
  if s.fe.graphs.any fun p => p.2.defined then s
  else { s with fe := { s.fe with grbase := wfld v 20 20 * 1048576, grsize := wfld v 48 12 } }

/-- FE_TQSTAT (R538): any write clears lost. -/
def tqClear (s : State) (c : Nat) : State :=
  { s with fe := { s.fe with taskq := aput s.fe.taskq c { aget {} s.fe.taskq c with lost := 0 } } }

/-- FE_ (R504, R513, R538, R541). -/
def feBlockWrite (s : State) (o : Nat) (v : Word) : State :=
  if o = 0x108 then { s with fe := { s.fe with htbase := wfld v 20 20 * 1048576 } }
  else if o = 0x110 then grbaseWrite s v
  else if inOff o 0x1000 0x1000 then feqWrite s ((o - 0x1000) / 0x40) (o % 0x40) v
  else if inOff o 0x3000 0x800 then
    match o % 0x40 with
    | 0 => tqPush s ((o - 0x3000) / 0x40) v
    | 8 => tqClear s ((o - 0x3000) / 0x40)
    | _ => s
  else s

/-- The fields of a route entry (R450). -/
def routeMask : Word := 0x8000000CFFFFFFFF

/-- GAL_ (R367, R381, R382, R397, R398, R420, R421, R450, R459, R461); `gsvc` for a Gallery service core, which alone writes the
route tables. -/
def galWrite (s : State) (o : Nat) (v : Word) (gsvc : Bool) : State :=
  let g := s.gal
  if inOff o 0x100 0x80 then
    let w := (o - 0x100) / 0x10
    if o % 0x10 = 0 then { s with gal := { g with rwinLo := aset 0 g.rwinLo w (v &&& 0xFFFFFFFF83) } }
    else { s with gal := { g with rwinHi := aset 0 g.rwinHi w (v &&& 0xFFFFFFFF80) } }
  else if inOff o 0x100000 0x20000 then
    let t := (o - 0x100000) / 0x200
    let r := o % 0x200
    if r < 0x100 then (if r % 0x10 = 0 then ibcfgWrite s t (r / 0x10) v else ibptrWrite s t (r / 0x10) v)
    else if r = 0x100 then s.updPort t fun p => { p with rfail := 0 }
    else s
  else if inOff o 0x200000 0x2400 then
    (if o % 0x40 = 0x08 || o % 0x40 = 0x10 then s.updLink ((o - 0x200000) / 0x40) lcntClear else s)
  else if inOff o 0x280000 0x40000 then
    (if gsvc then { s with gal := { g with grpTab := aput g.grpTab ((o - 0x280000) / 8) (v &&& routeMask) } } else s)
  else if inOff o 0x2C0000 0x80000 then
    (if gsvc then { s with gal := { g with memTab := aput g.memTab ((o - 0x2C0000) / 8) (v &&& routeMask) } } else s)
  else match o with
    | 0x00 => { s with gal := { g with dirbase := wfld v 22 18 * 4194304 } }
    | 0x08 => { s with gal := dirinvWrite g v }
    | 0x10 => { s with gal := { g with basin := wfld v 27 13 * 134217728 } }
    | 0x18 => if wfld v 0 5 = 0 || 27 ≤ wfld v 0 5 then s else { s with gal := { g with deftmo := wfld v 0 5 } }
    | 0x28 => { s with gal := { g with stale := 0 } }
    | 0x40 => { s with gal := { g with bias := v.extractLsb' 8 16, nmin := wbit v 7 } }
    | 0x48 => { s with gal := { g with detour := v } }
    | 0x50 => { s with gal := { g with rterr := 0 } }
    | _ => s

/-- ETH_ and EZ_ (R557, R574): the counters clear. -/
def hostWrite (s : State) (o : Nat) : State :=
  if inOff o 0 0x200 && o % 0x40 = 0x08 then s.updHport (o / 0x40) pcntClear
  else if o = 0xF00 then { s with host := { s.host with auth := 0, replay := 0, hsref := 0, idle := 0 } }
  else s

/-- LAMP_ (R648, R653). -/
def lampWrite (s : State) (o : Nat) (v : Word) : State :=
  match o with
  | 0x00 => lampCfgWrite s v
  | 0x18 => lampCntClear s
  | 0x100 => lampDieWrite s .c0 v
  | 0x140 => lampDieWrite s .c1 v
  | _ => s

/-- REP_CNT (R686): any write clears it. -/
def repWrite (s : State) (o : Nat) : State :=
  if o = 0x08 then { s with rep := { s.rep with corr := 0, cont := 0 } } else s

/-- SEC_RELCTL (R626). -/
def secWrite (s : State) (o : Nat) (v : Word) : State := if o = 0x300 then relctlWrite s v else s

/-- A mailbox at offset `r` (R575, R576). -/
def mbWrite (s : State) (m : MbId) (hmb : Bool) (r : Nat) (v : Word) : State :=
  if r < 0x40 then mbDataWrite s m (r / 8) v
  else match r with
    | 0x40 => mbSendWrite s m
    | 0x48 => mbStatWrite s m v
    | 0x50 => mbAckWrite s m (v.extractLsb' 0 16)
    | 0x58 => if hmb then mbCfgWrite s m v else s
    | _ => s

/-- A doorbell set at offset `r` (R578). -/
def dbWrite (s : State) (d : DbId) (r : Nat) (v : Word) : State :=
  match r with
  | 0x00 => dbClear s d v
  | 0x08 => dbSet s d v
  | 0x10 => dbMaskWrite s d v
  | _ => s

/-- MB_ (R575, R578). -/
def mbBlockWrite (s : State) (o : Nat) (v : Word) : State :=
  if o < 0x800 then mbWrite s (.hmb (Fin.ofNat 16 (o / 0x80))) true (o % 0x80) v
  else if inOff o 0x10000 0x8000 then mbWrite s (.tmb (Fin.ofNat 256 ((o - 0x10000) / 0x80))) false (o % 0x80) v
  else if inOff o 0x20000 0x2000 then dbWrite s (.tile (Fin.ofNat 256 ((o - 0x20000) / 0x20))) (o % 0x20) v
  else if inOff o 0x30000 0x20 then dbWrite s .host (o - 0x30000) v
  else s

/-- The register at an aligned local address of a block of R22 is written. -/
def blockWrite (s : State) (l : Nat) (v : Word) (task gsvc : Bool) : State :=
  let o := l % 0x1000000
  match l % 0x100000000 / 0x1000000 with
  | 0 => modWrite s o v
  | 1 => tileWrite s (Fin.ofNat 256 (o / 0x10000)) (o % 0x10000) v task
  | 4 => feBlockWrite s o v
  | 5 => if o % 0x10000 = 8 then s.updStack (o / 0x10000) fun x => { x with corr := 0, uncorr := 0 } else s
  | 6 => galWrite s o v gsvc
  | 7 => hostWrite s o
  | 8 => lampWrite s o v
  | 9 => repWrite s o
  | 10 => secWrite s o v
  | 11 => mbBlockWrite s o v
  | _ => s

/-- A write of bytes at a local address of a register block (R11), from task code or not; none for a bus error, which changes
no register. A write to an offset that no register has is ignored (log 6). -/
def regWrite (s : State) (l : Nat) (bs : List Byte) (task gsvc : Bool) : Option State :=
  match bstkAt l bs.length, histAt l with
  | some (t, o), _ => some (s.updTile t fun x => { x with core := { x.core with bstk := writeBytes x.core.bstk o bs } })
  | none, some _ => if bs.length = 4 && l % 4 = 0 then some s else none
  | none, none => if bs.length ≠ 8 || l % 8 ≠ 0 then none else some (blockWrite s l (wordOf bs) task gsvc)

/-- REGISTER_WRITE (R7): a write to a register from outside the cores, as a host's WRITE makes it. -/
def execRegisterWrite (addr : Word) (v : Word) (s : State) : Result :=
  .next (if s.power ≠ .run then s
    else match localAddr s addr with
      | none => s
      | some l => if isRegBlock s l then (regWrite s l (toBytes 8 v.toNat) false false).getD s else s)

end Sys2Proof.Machine
end

