-- ==== Sys2Proof/Machine/Memory.lean ====
section
/-! DEFINITION. Scalar loads and stores, string instructions, late store errors, and the host's READ and WRITE (R79, R93 to R97, R145 to R149, R323, R345, R368, R569 to R571). -/

namespace Sys2Proof.Machine

open Sys2Proof

/-! ### Halves of an access (R148) -/

/-- An access of `n` bytes at `a` crosses a 128-byte line. -/
def crosses (a : Word) (n : Nat) : Bool := decide (128 < wfld a 0 7 + n)

/-- The trap of an access at `a` at the first byte `x` of the half that raised it. -/
def halfTrap (a : Word) (n : Nat) (x : Word) (t : Trap) : Trap :=
  { t with addr := x, split := crosses a n, half := crosses a n && decide (x ≠ a) }

/-- The window check of every half, lower first (R111, R148). -/
def winTrap (s : State) (c : CoreId) (a : Word) (n : Nat) (need : Rights) (code : Nat) : Option Trap :=
  (firstDenied (fun x m => permitted s c x m need) a n).map fun x => halfTrap a n x { code := code }

/-- One half of a load, at the target that R322 selects: a register as R11 and R345 say, else through the core's port. `whole`
says that the half is the access; no part of an access reads a register. -/
def halfRead (s : State) (c : CoreId) (whole : Bool) (a : Word) (n : Nat) : State × Except AccErr (List Byte) :=
  match localAddr s a with
  | none => (s, .error .bus)
  | some l => match target s (ownTile c) l n with
    | .reg r =>
      if whole then
        match regRead s r n with
        | (s, some bs) => (s, .ok bs)
        | (s, none) => (s, .error .bus)
      else (s, .error .bus)
    | _ => coreLoad s c l n

/-- What one half of a load, from the byte `x` on, adds to the bytes `bs` before it, or the fault it raises (R148). -/
def loadJoin (a : Word) (n : Nat) (x : Word) (bs : List Byte) (r : State × Except AccErr (List Byte)) :
    State × Except Trap (List Byte) :=
  match r with
  | (s, .ok b) => (s, .ok (bs ++ b))
  | (s, .error e) => (s, .error (halfTrap a n x (accTrap cLoadBus e x)))

/-- One half of a load joins those before it; after a failing half no further one is read (R148). -/
def loadPart (c : CoreId) (a : Word) (n : Nat) (acc : State × Except Trap (List Byte)) (p : Word × Nat) :
    State × Except Trap (List Byte) :=
  match acc.2 with
  | .error _ => acc
  | .ok bs => loadJoin a n p.1 bs (halfRead acc.1 c (p.2 = n) p.1 p.2)

/-- The line of a byte that a tile's L1 may hold. -/
def l1LineOf (s : State) (c : CoreId) (a : Word) : Option Nat :=
  match localAddr s a with
  | none => none
  | some l => match target s (ownTile c) l 1 with
    | .mem m => if cacheable s m then some (m / 128) else none
    | _ => none

/-- An access of a scalar load to the line of its first byte trains the prefetch stream of the instruction; a miss of any line
that it touches counts (R336). -/
def pfNote (s : State) (c : CoreId) (a : Word) (n : Nat) : State :=
  match c, l1LineOf s c a with
  | .tile t, some l =>
    let miss := (spans 3 a n).any fun p => match l1LineOf s c p.1 with
      | some x => (l1Find (s.tile t.val).l1 x).isNone
      | none => false
    pfAccess s t.val (pcOf s c) l miss
  | _, _ => s

/-- The bytes of a load within this module, or the fault that its first failing half raises. -/
def dataRead (s : State) (c : CoreId) (a : Word) (n : Nat) : State × Except Trap (List Byte) :=
  (spans 3 a n).foldl (loadPart c a n) (pfNote s c a n, .ok [])

/-- A remote load may not leave: it is misaligned, a service core makes it, or no route leads there (R323, R368, R450). -/
def remoteBad (s : State) (c : CoreId) (a : Word) (n : Nat) : Bool :=
  match c with
  | .tile t => a.toNat % n ≠ 0 || !routed s (.load a n t.val)
  | .svc _ => true

/-- A remote load leaves, after every older store of the core (R323, R345). -/
def remoteLoad (s : State) (c : CoreId) (p : PendLoad) : State :=
  match c with
  | .svc _ => s
  | .tile t =>
    galSend ((drainAll faddF32 s c).updCore c fun k => { k with waitLoad := some p }) (.load p.addr p.size t.val)

/-! ### Loads (R79) -/

/-- A load finds its bytes in the L1, in the own scratch, or in the data cache (R84, R330, R709). -/
def loadHit (s : State) (c : CoreId) (a : Word) (n : Nat) : Bool :=
  (spans 3 a n).all fun p => match localAddr s p.1 with
    | none => false
    | some l => match target s (ownTile c) l p.2 with
      | .mem m => cacheable s m && (match c with
        | .tile t => (l1Find (s.tile t.val).l1 (m / 128)).isSome
        | .svc v => (dcSet (s.svc v.val) (m / 128)).any fun q => q.1 = m / 128)
      | .scratch t _ => ownTile c = some t
      | _ => false

/-- The effect of a load of `len` instruction bytes. -/
def loadBody (c : CoreId) (len : Nat) (x : LdArgs) (s : State) : Effect :=
  match winTrap s c x.addr x.size rightR cLoadWin with
  | some t => .error t
  | none =>
    if isRemote s x.addr then
      if remoteBad s c x.addr x.size then .error (halfTrap x.addr x.size x.addr { code := cLoadBus })
      else
        let p : PendLoad := { rd := x.rt, size := x.size, signed := x.signed, addr := x.addr, len := len }
        .ok { st := remoteLoad s c p, flow := .stay, occ := 0 }
    else
      let hit := loadHit s c x.addr x.size
      match dataRead s c x.addr x.size with
      | (s, .error t) => memFault s c t
      | (s, .ok bs) => done (loadOwe (s.setReg c x.rt (extend x.signed bs)) c x.rt hit)

/-- The base register of a load. -/
def ldBase : LdForm → Reg
  | .shortD _ rs => rs
  | .shortW _ rs => rs
  | .long _ _ b _ => b

def execLd (c : CoreId) (f : LdForm) (s : State) : Result :=
  .next (issue c [ldBase f] (ldLen f) true (fun s => loadBody c (ldLen f) (ldArgs (s.core c) f) s) s)

/-- s31 + imm5 × 8 (R73). -/
def spAddr (k : Core) (i : Imm5) : Word := k.reg 31 + i.zeroExtend 64 * 8

def execLdspD (c : CoreId) (rd : Reg) (imm : Imm5) (s : State) : Result :=
  .next (issue c [31] 2 true (fun s =>
    loadBody c 2 { rt := rd, addr := spAddr (s.core c) imm, size := 8, signed := true } s) s)

/-! ### Stores (R79, R145, R345) -/

/-- A half lies in a register block. -/
def halfReg (s : State) (c : CoreId) (a : Word) (n : Nat) : Bool :=
  match localAddr s a with
  | none => false
  | some l => match target s (ownTile c) l n with | .reg _ => true | _ => false

/-- A store to a register block is performed only after every older write of the core (R345, R349); false while a remote store
is not acknowledged. Another store is ready at once. -/
def storeReady (s : State) (c : CoreId) (a : Word) (n : Nat) : State × Bool :=
  if (spans 3 a n).any fun p => halfReg s c p.1 p.2 then
    let s := drainWait s c
    (s, (s.core c).remote = [])
  else (s, true)

/-- A core of the Gallery service (R31). -/
def isGallery : CoreId → Bool
  | .svc v => v = 10 || v = 11
  | .tile _ => false

/-- The tile whose L1 split a register write has just set to change stalls the core that wrote it (R326). -/
def claimSplit (s : State) (c : CoreId) (r : Nat) : State :=
  let t := (r - tileRegs 0) / 0x10000
  if r = tileRegs t + 0x4000 && (s.tile t).l1.change.isSome then s.updL1 t fun x => { x with changeBy := some c } else s

/-- One half of a store: a register is written at once (R344), its failure is a late store error, and no part of an access writes
one (R11); other bytes enter the store buffer (R145, R323). `whole` says that the half is the access, `aligned` that the access
is naturally aligned. -/
def halfWrite (s : State) (c : CoreId) (whole aligned : Bool) (a : Word) (bs : List Byte) : State :=
  match localAddr s a with
  | none => bufferWrite faddF32 s c
      { addr := a, bytes := (List.range bs.length).zip bs, kind := if aligned then .store else .misaligned }
  | some l => match target s (ownTile c) l bs.length with
    | .reg r =>
      (match (if whole then regWrite s r bs (!(s.core c).status.lvl) (isGallery c) else none) with
      | some s => claimSplit s c r
      | none => recordLate s c a (lateKind .bus))
    | _ => bufferWrite faddF32 s c
        { addr := BitVec.ofNat 64 (canonAddr c l), bytes := (List.range bs.length).zip bs, kind := .store }

/-- Every half is written, lower first (R148, R149). -/
def dataWrite (s : State) (c : CoreId) (a : Word) (bs : List Byte) : State :=
  ((spans 3 a bs.length).foldl (fun (acc : State × List Byte) p =>
    (halfWrite acc.1 c (p.2 = bs.length) (a.toNat % bs.length = 0) p.1 (acc.2.take p.2), acc.2.drop p.2)) (s, bs)).1

/-- The effect of a store. -/
def storeBody (c : CoreId) (x : StArgs) (s : State) : Effect :=
  match winTrap s c x.addr x.size rightW cStoreWin with
  | some t => .error t
  | none => match storeReady s c x.addr x.size with
    | (s, false) => waitAt s c
    | (s, true) => done (dataWrite (bufferStall s c) c x.addr (toBytes x.size x.val.toNat))

/-- The registers that a store reads. -/
def stRegs : StForm → List Reg
  | .shortD rt rs => [rt, rs]
  | .shortW rt rs => [rt, rs]
  | .long _ rt b _ => [rt, b]

def execSt (c : CoreId) (f : StForm) (s : State) : Result :=
  .next (issue c (stRegs f) (stLen f) true (fun s => storeBody c (stArgs (s.core c) f) s) s)

def execStspD (c : CoreId) (rd : Reg) (imm : Imm5) (s : State) : Result :=
  .next (issue c [rd, 31] 2 true (fun s =>
    storeBody c { val := s.reg c rd, addr := spAddr (s.core c) imm, size := 8 } s) s)

/-! ### String instructions (R93 to R97) -/

/-- The three string instructions. -/
inductive StrOp where
  | mov
  | set
  | cmp
  deriving DecidableEq, Repr

/-- What an element step comes to. -/
inductive StrOut where
  /-- The element is complete. -/
  | more
  /-- `scmp` found a mismatch, with the flags of R94. -/
  | mismatch (f : Flags)
  /-- A fault (R97). -/
  | fault (t : Trap)
  /-- Remote data, or the acknowledgement of a remote store, is awaited. -/
  | wait
  deriving DecidableEq, Repr

/-- Element size in bytes (R74). -/
def strSize (sz : BitVec 2) : Nat := 2 ^ sz.toNat

/-- An element is read; remote data that has arrived is in strData (R323). -/
def strLoad (s : State) (c : CoreId) (a : Word) (n : Nat) : State × Except StrOut (List Byte) :=
  if isRemote s a then
    match (s.core c).strData.find? fun p => p.1 = a with
    | some p => (s, .ok p.2)
    | none =>
      if remoteBad s c a n then (s, .error (.fault (halfTrap a n a { code := cLoadBus })))
      else (remoteLoad s c { rd := 0, size := n, signed := false, addr := a, len := 0, str := true }, .error .wait)
  else match dataRead s c a n with
    | (s, .ok bs) => (s, .ok bs)
    | (s, .error t) => (s, .error (.fault t))

/-- The permission checks of an element, in the order of its accesses (R93, R120). -/
def strPerm (op : StrOp) (n : Nat) (s : State) (c : CoreId) : Option Trap :=
  let a := s.reg c 1
  let b := s.reg c 2
  match op with
  | .mov => (winTrap s c b n rightR cLoadWin).orElse fun _ => winTrap s c a n rightW cStoreWin
  | .set => winTrap s c a n rightW cStoreWin
  | .cmp => (winTrap s c a n rightR cLoadWin).orElse fun _ => winTrap s c b n rightR cLoadWin

/-- The element is complete: s1, s2 and s3 move on (R93). -/
def strNext (op : StrOp) (n : Nat) (s : State) (c : CoreId) : State :=
  s.updCore c fun k =>
    let d := BitVec.ofNat 64 n
    let k := k.setReg 1 (k.reg 1 + d)
    let k := if op = .set then k else k.setReg 2 (k.reg 2 + d)
    { k.setReg 3 (k.reg 3 - 1) with strData := [] }

/-- The element's store, then the move of the registers. -/
def strStore (op : StrOp) (n : Nat) (s : State) (c : CoreId) (bs : List Byte) : State × StrOut :=
  (strNext op n (dataWrite s c (s.reg c 1) bs) c, .more)

/-- One element step with s3 not 0 (R93). -/
def strElem (op : StrOp) (n : Nat) (s : State) (c : CoreId) : State × StrOut :=
  match strPerm op n s c with
  | some t => (s, .fault t)
  | none =>
    let a := s.reg c 1
    let b := s.reg c 2
    match op with
    | .set => match storeReady s c a n with
      | (s, false) => (s, .wait)
      | (s, true) => strStore op n s c (toBytes n b.toNat)
    | .mov => match storeReady s c a n with
      | (s, false) => (s, .wait)
      | (s, true) => match strLoad s c b n with
        | (s, .error o) => (s, o)
        | (s, .ok bs) => strStore op n s c bs
    | .cmp => match strLoad s c a n with
      | (s, .error o) => (s, o)
      | (s, .ok x) => match strLoad s c b n with
        | (s, .error o) => (s, o)
        | (s, .ok y) =>
          if x = y then (strNext op n s c, .more)
          else (s.updCore c fun k => { k with strData := [] }, .mismatch (elemFlags n (ofBytes x) (ofBytes y)))

/-- Element steps, at most `fuel`, while s3 is not 0: how the last one ended, and how many are complete. -/
def strRun (op : StrOp) (n : Nat) (c : CoreId) : Nat → State → Nat → State × StrOut × Nat
  | 0, s, k => (s, .more, k)
  | fuel + 1, s, k =>
    if s.reg c 3 = 0 then (s, .more, k)
    else match strElem op n s c with
      | (s, .more) => strRun op n c fuel s (k + 1)
      | (s, o) => (s, o, k)

/-- The flags of an `scmp` that ends (R94). -/
def strFlags (op : StrOp) (s : State) (c : CoreId) (f : Flags) : State :=
  if op = .cmp then s.updCore c fun k => k.setFl f else s

/-- The effect of a string instruction (R94 to R97, R709): an end of a rep string with s3 not 0 leaves the core at it. A rep string
stopped at an element boundary occupies the issue stage for its elements only, and an `scmp` that mismatches counts the
mismatching element (DESIGN CHOICE: R84 gives the occupancy of a whole one; log 95). -/
def strBody (op : StrOp) (f : StrForm) (c : CoreId) (s : State) : Effect :=
  let most := if f.rep then (match f.upTo with | some u => min u (s.reg c 3).toNat | none => (s.reg c 3).toNat) else 1
  match strRun op (strSize f.sz) c most s 0 with
  | (s, .fault t, _) => memFault s c t
  | (s, .wait, k) => .ok { st := addStall s c, flow := .stay, occ := k }
  | (s, .mismatch fl, k) => doneOcc (strFlags op s c fl) (if f.rep then 2 + k + 1 else 3)
  | (s, .more, k) =>
    if f.rep && s.reg c 3 ≠ 0 then .ok { st := s, flow := .stay, occ := k }
    else doneOcc (strFlags op s c matchFlags) (if f.rep then 2 + k else 3)

/-- A string instruction: 4 bytes, and 2 for the prefix (R95). -/
def strInstr (op : StrOp) (c : CoreId) (f : StrForm) (s : State) : State :=
  issue c [1, 2, 3] (if f.rep then 6 else 4) (f.mbz = 0) (strBody op f c) s

def execSmov (c : CoreId) (f : StrForm) (s : State) : Result := .next (strInstr .mov c f s)
def execSset (c : CoreId) (f : StrForm) (s : State) : Result := .next (strInstr .set c f s)
def execScmp (c : CoreId) (f : StrForm) (s : State) : Result := .next (strInstr .cmp c f s)

/-! ### Late store errors (R145, R146, R332) -/

/-- Buffered writes are performed, oldest first, up to the first that fails; none when no write fails. -/
def lateDrain : Nat → State → CoreId → Option State
  | 0, _, _ => none
  | n + 1, s, c =>
    let r := drainOne faddF32 s c
    if (r.core c).ipLst then some r else lateDrain n r c

/-- A buffered write, or the dirty L1 line `victim` that leaves, fails at its target. It fails where the state says so: a
write that would be performed is left alone. -/
def execLateStore (c : CoreId) (victim : Option Nat) (s : State) : Result :=
  .next (
    let s0 := s.updCore c fun k => { k with ipLst := false }
    if s.power ≠ .run then s
    else match victim with
      | none => (lateDrain (s.core c).sbuf.length s0 c).getD s
      | some l => match c with
        | .svc _ => s
        | .tile t => match l1Find (s.tile t.val).l1 l with
          | none => s
          | some (i, e) =>
            let r := (victimWrite s0 t.val e).updL1 t.val fun x => { x with lines := adel x.lines i }
            if (r.core c).ipLst then r else s)

/-! ### READ and WRITE of a host (R569 to R571) -/

/-- Status of a failed access of the host. -/
def hostErr : AccErr → HStatus
  | .bus => .bus
  | .uncorr _ => .uncorr
  | .thermal _ => .thermal

/-- What a host's address reaches (R571). -/
inductive HostPlace where
  | mem (a : Nat)
  | reg (a : Nat)
  | scratch (a : Nat)
  | fail (st : HStatus)
  deriving DecidableEq, Repr

def hostPlace (s : State) (addr : Word) : HostPlace :=
  match localAddr s addr with
  | none => .fail .addr
  | some l =>
    if l < 0xF000000000 then (if l < memTop s then .mem l else .fail .addr)
    else if 0xFD00000000 ≤ l && l < 0xFD10000000 then .scratch l
    else if isRegBlock s l then .reg l
    else if 0xF801000000 ≤ l && l < 0xF802000000 then .fail .bus
    else .fail .addr

/-- The most bytes that a WRITE carries: the largest MTU of a port, less the headers of its kind of address (R569). -/
def writeMax (s : State) : Nat :=
  ((List.range 8).map fun p => (s.hport p).mtu - (if (s.hport p).v4 then 100 else 120)).foldl max 0

/-- A write to module memory line by line, which the first failing line ends (R571). -/
def memWriteTo (s : State) (a : Nat) (bs : List Byte) : State × Option AccErr :=
  (linesOf a bs).foldl (fun (acc : State × Option AccErr) p =>
    match acc.2 with
    | some _ => acc
    | none => lineWrite acc.1 p.1 p.2) (s, none)

/-- WRITE (R571). -/
def hostWriteOp (s : State) (addr : Word) (data : List Byte) : State × HStatus :=
  if data = [] || writeMax s < data.length then (s, .badop)
  else match hostPlace s addr with
    | .fail st => (s, st)
    | .mem a =>
      if inGraphRegion s a data.length then (s, .graph)
      else match memWriteTo s a data with
        | (s, none) => (s, .ok)
        | (s, some e) => (s, hostErr e)
    | .scratch a => match busWrite s none a data with
      | (s, none) => (s, .ok)
      | (s, some e) => (s, hostErr e.1)
    | .reg a => match regWrite s a data false false with
      | some s => (s, .ok)
      | none => (s, .align)

/-- READ (R571): the data, or why not. -/
def hostReadOp (s : State) (addr : Word) (len : Nat) : State × Except HStatus (List Byte) :=
  if len = 0 || 1048576 < len then (s, .error .badop)
  else match hostPlace s addr with
    | .fail st => (s, .error st)
    | .mem a => match memRead s a len with
      | (s, .ok bs) => (s, .ok bs)
      | (s, .error e) => (s, .error (hostErr e.1))
    | .scratch a => match busRead s none a len with
      | (s, .ok bs) => (s, .ok bs)
      | (s, .error e) => (s, .error (hostErr e.1))
    | .reg a => match regRead s a len with
      | (s, some bs) => (s, .ok bs)
      | (s, none) => (s, .error .align)

/-- A WRITE is answered only when it asks for that (R569). -/
def execWrite (i : SessNo) (xid : Word) (addr : Word) (data : List Byte) (cmpl : Bool) (s : State) : Result :=
  .next (
    if cmpl then
      hostOp s i.val xid (.write addr data true) fun s =>
        let r := hostWriteOp s addr data
        (r.1, .resp 1 xid r.2 [])
    else if isLive s i.val && asks (s.sess i.val) xid (.write addr data false) then
      nextOps (hostWriteOp (opTaken s i.val) addr data).1 i.val
    else s)

def execRead (i : SessNo) (xid : Word) (addr : Word) (len : Nat) (s : State) : Result :=
  .next (hostOp s i.val xid (.read addr len) fun s =>
    match hostReadOp s addr len with
    | (s, .ok bs) => (s, .resp 2 xid .ok bs)
    | (s, .error st) => (s, .resp 2 xid st []))

end Sys2Proof.Machine
end

