-- ==== Sys2Proof/Machine/Vector.lean ====
section
/-! DEFINITION. The vector and chain instructions: dispatch with its checks (R165 to R168, R193, R205, R206, R264, R267), the
start of a waiting one, its data fault, and `cmem` (R270 to R272). -/

namespace Sys2Proof.Machine

open Sys2Proof

/-! ### Dispatch (R168, R193) -/

/-- The function units (R193). -/
inductive VUnit where
  | fma | int | perm | lsu
  deriving DecidableEq, Repr

/-- An instruction that writes a mask register. -/
def writesMask : Instr → Bool
  | .vfcmpeq _ _ | .vfcmplt _ _ | .vfcmple _ _ | .vfcmpun _ _ | .vcmpeq _ _ | .vcmpne _ _ | .vcmplt _ _ | .vcmpltu _ _
  | .vcmple _ _ | .vcmpleu _ _ | .mand _ _ | .mor _ _ | .mxor _ _ | .mandn _ _ | .vchain _ _ _ | .rownorm _ _ _ => true
  | _ => false

/-- The station an instruction goes to (R195, R264, R269). -/
def unitOf (x : VEntry) : VUnit :=
  match x.instr with
  | .vld _ _ | .vst _ _ | .cld _ _ | .cst _ _ => .lsu
  | .vslideup _ _ | .vslidedown _ _ | .vrgather _ _ => .perm
  | i => if fmaUnit x then .fma else if scalarResult i then .perm else .int

/-- What an instruction takes at dispatch (R168). -/
def ventry (s : State) (t : TileId) (i : Instr) (scal : Word) : VEntry :=
  let v := (s.tile t.val).vec
  { instr := i, pc := pcOf s (.tile t), cfg := v.cfg, rm := v.csr.rm, vstart := v.vstart, scal := scal, lc := (s.core (.tile t)).lc }

/-- An instruction enters its station, and TILE_VSTART becomes 0 (R168). -/
def vpush (s : State) (t : TileId) (x : VEntry) : State :=
  s.updVec t.val fun v => { v with vq := v.vq ++ [x], vstart := 0 }

/-- The station of an instruction is full (R193), or a scalar register that an older vector instruction writes is awaited. -/
def stationWait (t : TileId) (i : Instr) (s : State) : Bool :=
  let q := (s.tile t.val).vec.vq
  let u := unitOf (ventry s t i 0)
  decide (4 ≤ (q.filter fun x => unitOf x = u).length) || (q ++ (s.tile t.val).vec.run).any fun x => scalarResult x.instr

/-- A vector instruction that computes on registers is checked and dispatched. -/
def vcompute (t : TileId) (i : Instr) (s : State) : Result :=
  .next (vissue t [scalReg i] (stationWait t i) (fun s =>
    let v := (s.tile t.val).vec
    match vinfo v.cfg i with
    | none => illegal
    | some info => match info.check v.cfg v.vstart with
      | some e => .error e
      | none => done (vpush s t (ventry s t i (s.reg (.tile t) (scalReg i))))) s)

def execVfadd (t : TileId) (f : VR) (s : State) : Result := vcompute t (.vfadd t f) s
def execVfsub (t : TileId) (f : VR) (s : State) : Result := vcompute t (.vfsub t f) s
def execVfmul (t : TileId) (f : VR) (s : State) : Result := vcompute t (.vfmul t f) s
def execVfdiv (t : TileId) (f : VR) (s : State) : Result := vcompute t (.vfdiv t f) s
def execVfmin (t : TileId) (f : VR) (s : State) : Result := vcompute t (.vfmin t f) s
def execVfmax (t : TileId) (f : VR) (s : State) : Result := vcompute t (.vfmax t f) s
def execVfsqrt (t : TileId) (f : VR) (s : State) : Result := vcompute t (.vfsqrt t f) s
def execVfneg (t : TileId) (f : VR) (s : State) : Result := vcompute t (.vfneg t f) s
def execVfabs (t : TileId) (f : VR) (s : State) : Result := vcompute t (.vfabs t f) s
def execVcvtFI (t : TileId) (f : VR) (s : State) : Result := vcompute t (.vcvtFI t f) s
def execVcvtIF (t : TileId) (f : VR) (s : State) : Result := vcompute t (.vcvtIF t f) s
def execVfwcvt (t : TileId) (f : VR) (s : State) : Result := vcompute t (.vfwcvt t f) s
def execVfncvt (t : TileId) (f : VR) (s : State) : Result := vcompute t (.vfncvt t f) s
def execVfma (t : TileId) (f : VF) (s : State) : Result := vcompute t (.vfma t f) s
def execVfms (t : TileId) (f : VF) (s : State) : Result := vcompute t (.vfms t f) s
def execVfnma (t : TileId) (f : VF) (s : State) : Result := vcompute t (.vfnma t f) s
def execVfnms (t : TileId) (f : VF) (s : State) : Result := vcompute t (.vfnms t f) s
def execVadd (t : TileId) (f : VR) (s : State) : Result := vcompute t (.vadd t f) s
def execVsub (t : TileId) (f : VR) (s : State) : Result := vcompute t (.vsub t f) s
def execVmul (t : TileId) (f : VR) (s : State) : Result := vcompute t (.vmul t f) s
def execVmulh (t : TileId) (f : VR) (s : State) : Result := vcompute t (.vmulh t f) s
def execVmulhu (t : TileId) (f : VR) (s : State) : Result := vcompute t (.vmulhu t f) s
def execVand (t : TileId) (f : VR) (s : State) : Result := vcompute t (.vand t f) s
def execVor (t : TileId) (f : VR) (s : State) : Result := vcompute t (.vor t f) s
def execVxor (t : TileId) (f : VR) (s : State) : Result := vcompute t (.vxor t f) s
def execVandn (t : TileId) (f : VR) (s : State) : Result := vcompute t (.vandn t f) s
def execVshl (t : TileId) (f : VR) (s : State) : Result := vcompute t (.vshl t f) s
def execVshr (t : TileId) (f : VR) (s : State) : Result := vcompute t (.vshr t f) s
def execVsar (t : TileId) (f : VR) (s : State) : Result := vcompute t (.vsar t f) s
def execVmin (t : TileId) (f : VR) (s : State) : Result := vcompute t (.vmin t f) s
def execVmax (t : TileId) (f : VR) (s : State) : Result := vcompute t (.vmax t f) s
def execVminu (t : TileId) (f : VR) (s : State) : Result := vcompute t (.vminu t f) s
def execVmaxu (t : TileId) (f : VR) (s : State) : Result := vcompute t (.vmaxu t f) s
def execVfcmpeq (t : TileId) (f : VR) (s : State) : Result := vcompute t (.vfcmpeq t f) s
def execVfcmplt (t : TileId) (f : VR) (s : State) : Result := vcompute t (.vfcmplt t f) s
def execVfcmple (t : TileId) (f : VR) (s : State) : Result := vcompute t (.vfcmple t f) s
def execVfcmpun (t : TileId) (f : VR) (s : State) : Result := vcompute t (.vfcmpun t f) s
def execVcmpeq (t : TileId) (f : VR) (s : State) : Result := vcompute t (.vcmpeq t f) s
def execVcmpne (t : TileId) (f : VR) (s : State) : Result := vcompute t (.vcmpne t f) s
def execVcmplt (t : TileId) (f : VR) (s : State) : Result := vcompute t (.vcmplt t f) s
def execVcmpltu (t : TileId) (f : VR) (s : State) : Result := vcompute t (.vcmpltu t f) s
def execVcmple (t : TileId) (f : VR) (s : State) : Result := vcompute t (.vcmple t f) s
def execVcmpleu (t : TileId) (f : VR) (s : State) : Result := vcompute t (.vcmpleu t f) s
def execMand (t : TileId) (f : VR) (s : State) : Result := vcompute t (.mand t f) s
def execMor (t : TileId) (f : VR) (s : State) : Result := vcompute t (.mor t f) s
def execMxor (t : TileId) (f : VR) (s : State) : Result := vcompute t (.mxor t f) s
def execMandn (t : TileId) (f : VR) (s : State) : Result := vcompute t (.mandn t f) s
def execVpopc (t : TileId) (f : VR) (s : State) : Result := vcompute t (.vpopc t f) s
def execVfirst (t : TileId) (f : VR) (s : State) : Result := vcompute t (.vfirst t f) s
def execVredsum (t : TileId) (f : VR) (s : State) : Result := vcompute t (.vredsum t f) s
def execVredmin (t : TileId) (f : VR) (s : State) : Result := vcompute t (.vredmin t f) s
def execVredmax (t : TileId) (f : VR) (s : State) : Result := vcompute t (.vredmax t f) s
def execVredminu (t : TileId) (f : VR) (s : State) : Result := vcompute t (.vredminu t f) s
def execVredmaxu (t : TileId) (f : VR) (s : State) : Result := vcompute t (.vredmaxu t f) s
def execVfredsum (t : TileId) (f : VR) (s : State) : Result := vcompute t (.vfredsum t f) s
def execVfredmin (t : TileId) (f : VR) (s : State) : Result := vcompute t (.vfredmin t f) s
def execVfredmax (t : TileId) (f : VR) (s : State) : Result := vcompute t (.vfredmax t f) s
def execVslideup (t : TileId) (f : VR) (s : State) : Result := vcompute t (.vslideup t f) s
def execVslidedown (t : TileId) (f : VR) (s : State) : Result := vcompute t (.vslidedown t f) s
def execVrgather (t : TileId) (f : VR) (s : State) : Result := vcompute t (.vrgather t f) s
def execVmerge (t : TileId) (f : VR) (s : State) : Result := vcompute t (.vmerge t f) s
def execVwmul (t : TileId) (f : VR) (s : State) : Result := vcompute t (.vwmul t f) s
def execVwmulu (t : TileId) (f : VR) (s : State) : Result := vcompute t (.vwmulu t f) s
def execVfwmul (t : TileId) (f : VR) (s : State) : Result := vcompute t (.vfwmul t f) s
def execVdotI8 (t : TileId) (f : VR) (s : State) : Result := vcompute t (.vdotI8 t f) s
def execVdotE4m3 (t : TileId) (f : VR) (s : State) : Result := vcompute t (.vdotE4m3 t f) s
def execVdotE4m3e5m2 (t : TileId) (f : VR) (s : State) : Result := vcompute t (.vdotE4m3e5m2 t f) s
def execVdotE5m2e4m3 (t : TileId) (f : VR) (s : State) : Result := vcompute t (.vdotE5m2e4m3 t f) s
def execVdotE5m2 (t : TileId) (f : VR) (s : State) : Result := vcompute t (.vdotE5m2 t f) s
def execVdotB16 (t : TileId) (f : VR) (s : State) : Result := vcompute t (.vdotB16 t f) s
def execVdotF16 (t : TileId) (f : VR) (s : State) : Result := vcompute t (.vdotF16 t f) s
def execVmvVV (t : TileId) (f : VR) (s : State) : Result := vcompute t (.vmvVV t f) s
def execVmvVX (t : TileId) (f : VR) (s : State) : Result := vcompute t (.vmvVX t f) s
def execVmvXS (t : TileId) (f : VR) (s : State) : Result := vcompute t (.vmvXS t f) s
def execVid (t : TileId) (f : VR) (s : State) : Result := vcompute t (.vid t f) s

/-- `vcfg` (R165). -/
def execVcfg (t : TileId) (f : LI) (s : State) : Result :=
  .next (issue (.tile t) [f.rs1] 4 (!f.f && f.imm.toNat < 32) (fun s =>
    let c : VCfg := { ew := f.imm.extractLsb' 0 2, grp := f.imm.extractLsb' 2 2, f16 := f.imm.getLsbD 4 }
    let avl := if f.rs1 = 0 then c.vlmax else (s.reg (.tile t) f.rs1).toNat
    let vl := min avl c.vlmax
    if (s.tile t.val).vec.vstart ≠ 0 then .error { code := cVstate }
    else done ((s.updVec t.val fun v => { v with cfg := { c with vl := vl } }).setReg (.tile t) f.rd (BitVec.ofNat 64 vl))) s)

/-! ### Loads and stores (R201, R205, R206) -/

/-- Older instructions that must complete before the check of a load or store under a mask. -/
def maskWait (t : TileId) (vm : MaskNo) (i : Instr) (s : State) : Bool :=
  stationWait t i s || (vm ≠ 0 && ((s.tile t.val).vec.vq ++ (s.tile t.val).vec.run).any fun x => writesMask x.instr)

/-- The dispatch of a `vld` or `vst`: whole, or for the elements below the first that fails its check. -/
def vaccess (t : TileId) (i : Instr) (f : VM) (store : Bool) (s : State) : Effect :=
  let a := s.reg (.tile t) f.base + f.simm.signExtend 64
  let x := ventry s t i a
  if f.vt.toNat % x.cfg.g ≠ 0 then .error { code := cVgrp, sub := 1 }
  else match vfirstBad s t.val x f.vm store with
    | none => done (vpush s t x)
    | some (e, tr) =>
      let short := { x with cfg := { x.cfg with vl := e } }
      let r := startAll s t.val
      if r.2 then .ok { st := r.1, flow := .stay, occ := 0 }
      else if seedBlocked r.1 t.val short then waitAt r.1 (.tile t)
      else
        let q := startAll (vpush r.1 t short) t.val
        if q.2 then .ok { st := q.1, flow := .stay, occ := 0 }
        else .ok { st := setFault q.1 t.val i 1 e, flow := .trap tr x.pc, occ := 1 }

def execVld (t : TileId) (f : VM) (s : State) : Result :=
  .next (vissue t [f.base] (maskWait t f.vm (.vld t f)) (vaccess t (.vld t f) f false) s)
def execVst (t : TileId) (f : VM) (s : State) : Result :=
  .next (vissue t [f.base] (maskWait t f.vm (.vst t f)) (vaccess t (.vst t f) f true) s)

/-- The oldest dispatched instruction starts (R194). -/
def execVectorStart (t : TileId) (mismatch : Bool) (s : State) : Result :=
  .next (if s.power = .run then (startHead s t.val mismatch).1 else s)

/-- The element that a data fault names is an active one of a `vld` or `vst`, and the byte is one of its bytes. -/
def faultsAt (s : State) (t e : Nat) (addr : Word) (x : VEntry) : Bool :=
  let vm := match x.instr with | .vld _ f | .vst _ f => some f.vm | _ => none
  match vm with
  | none => false
  | some vm => x.active (s.tile t).vec vm e && decide ((addr - elAddr x.scal x.cfg.bytes e).toNat < x.cfg.bytes)

/-- The started instruction `x`, behind `f`, stops at element `e` whose data fail, unless one of its elements below fails first. -/
def failStarted (s : State) (t : Nat) (x : VEntry) (younger : Bool) (e : Nat) (addr : Word) (err : AccErr)
    (f : Option VFault) : State × Option VFault :=
  let nr := x.passed || younger
  match startOne s t { x with cfg := { x.cfg with vl := e } } with
  | (s, some (e', a', err')) => joinFault s t f { entry := x, elem := e', addr := a', err := err', nr := nr }
  | (s, none) => joinFault s t f { entry := x, elem := e, addr := addr, err := err, nr := nr }

/-- A started `vld` or `vst` meets a data fault at its active element `e` (R208): the oldest started one to which it applies, or,
where none has started, the oldest dispatched one, which then starts. The others that have started run on. -/
def execVectorDataFault (t : TileId) (e : Nat) (addr : Word) (why : DataFail) (s : State) : Result :=
  .next (
    if s.power ≠ .run then s
    else
      let r := if (s.tile t.val).vec.run = [] then startHead s t.val false else (s, false)
      let run := (r.1.tile t.val).vec.run
      match run.dropWhile fun x => !faultsAt r.1 t.val e addr x with
      | [] => s
      | x :: xs =>
        let older := run.takeWhile fun x => !faultsAt r.1 t.val e addr x
        let err : AccErr := match why with | .uncorr n => .uncorr n.toNat | .thermal k => .thermal k.val
        let a := runStarted t.val older (r.1.updVec t.val fun v => { v with run := [] }) none
        let b := failStarted a.1 t.val x (xs ≠ []) e addr err a.2
        (endStarted t.val (runStarted t.val xs b.1 b.2)).1)

/-! ### Chain registers (R262 to R265) -/

/-- The checks of `cld` and `cst` (R264). -/
def chainAccess (t : TileId) (i : Instr) (f : VR) (store : Bool) (s : State) : Effect :=
  let a := s.reg (.tile t) f.vs1
  if !(f.vd.toNat < 4 && f.vs2 = 0 && f.vm = 0 && !f.s) then illegal
  else if wfld a 0 6 ≠ 0 then .error { code := cVaddr, sub := b2n store, addr := a }
  else match vcheck s t.val a 64 store with
    | some e => .error e
    | none => done (vpush s t (ventry s t i a))

def execCld (t : TileId) (f : VR) (s : State) : Result :=
  .next (vissue t [f.vs1] (stationWait t (.cld t f)) (chainAccess t (.cld t f) f false) s)
def execCst (t : TileId) (f : VR) (s : State) : Result :=
  .next (vissue t [f.vs1] (stationWait t (.cst t f)) (chainAccess t (.cst t f) f true) s)

def execCseed (t : TileId) (f : VR) (s : State) : Result :=
  .next (vissue t [f.vs1] (stationWait t (.cseed t f)) (fun s =>
    if f.vd = 0 && f.vs2 = 0 && f.vm = 0 && !f.s then done (vpush s t (ventry s t (.cseed t f) (s.reg (.tile t) f.vs1)))
    else illegal) s)

/-! ### Register runs (R267, R268, R278) -/

def cCform : Nat := 0x48
def cCcfg : Nat := 0x49

/-- Registers of a vector operand of a format (R267). -/
def opGroup (c : VCfg) (fmt : Nat) : Nat := max 1 (c.g * fmtSize fmt / c.bytes)

/-- Older `cld` instructions that a chain instruction waits for (R265). -/
def cldWait (t : TileId) (i : Instr) (s : State) : Bool :=
  stationWait t i s || ((s.tile t.val).vec.vq ++ (s.tile t.val).vec.run).any fun x => match x.instr with | .cld _ _ => true | _ => false

/-- The first fault of a `vchain`, in the order of R120, R204 and R282. A format code that is not listed has no width, so its
operand forms no group. -/
def vchainCheck (c : VCfg) (vstart : Nat) (p : Prog) (f : VF) : Option Trap :=
  let srcs := [(f.vs1, p.xf), (f.vs2, p.af), (f.vs3, p.bf)].filter fun r => r.2 ≤ 10
  let dst := [(f.vd, p.of)].filter fun r => r.2 ≤ 10
  let all := dst ++ srcs
  let partial_ := fun (d r : Reg × Nat) =>
    overlaps d.1 (opGroup c d.2) r.1 (opGroup c r.2) && !(d.1 = r.1 && opGroup c d.2 = opGroup c r.2)
  if p.of = 11 && !isMask f.vd then some { code := cIllegal }
  else if all.any fun r => r.1.toNat % opGroup c r.2 ≠ 0 then some { code := cVgrp, sub := 1 }
  else if dst.any fun d => srcs.any fun r => partial_ d r then some { code := cVgrp, sub := 3 }
  else if p.reduces && vstart % p.rl ≠ 0 then some { code := cVstate }
  else match cform p .register with
    | some n => some { code := cCform, sub := n }
    | none =>
      if all.any fun r => decide (c.bytes < fmtSize r.2) then some { code := cCcfg, sub := 1 }
      else if p.reduces && c.vl % p.rl ≠ 0 then some { code := cCcfg, sub := 2 }
      else none

def execVchain (t : TileId) (f : VF) (n : ChainNo) (s : State) : Result :=
  .next (vissue t [] (cldWait t (.vchain t f n)) (fun s =>
    let v := (s.tile t.val).vec
    match vchainCheck v.cfg v.vstart (progOf (chainBytes v n.toNat)) f with
    | some e => .error e
    | none => done (vpush s t (ventry s t (.vchain t f n) 0))) s)

/-- The first fault of a `rownorm` (R204, R278). -/
def rownormCheck (c : VCfg) (vstart : Nat) (f : VR) (md : MaskNo) (rl : Nat) : Option Trap :=
  let g := max 1 (c.g * 4 / c.bytes)
  if f.s then some { code := cIllegal }
  else if f.vd.toNat % g ≠ 0 || f.vs1.toNat % g ≠ 0 then some { code := cVgrp, sub := 1 }
  else if c.ew ≠ 2 then some { code := cVfmt, sub := 0x10 + md.toNat }
  else if vstart ≠ 0 then some { code := cVstate }
  else if rl = 0 || c.vl < rl || c.vl % rl ≠ 0 then some { code := cCcfg, sub := 2 }
  else none

def execRownorm (t : TileId) (f : VR) (md : MaskNo) (s : State) : Result :=
  .next (vissue t [f.vs2] (stationWait t (.rownorm t f md)) (fun s =>
    let v := (s.tile t.val).vec
    let sn := s.reg (.tile t) f.vs2
    match rownormCheck v.cfg v.vstart f md sn.toNat with
    | some e => .error e
    | none => done (vpush s t (ventry s t (.rownorm t f md) sn))) s)

/-! ### Memory runs (R270 to R272) -/

/-- Input elements of one output: a row of a reduction, else one. -/
def Prog.per (p : Prog) : Nat := if p.reduces then p.rl else 1

/-- The first fault of a `cmem` over `n` elements in all (R270, R282). -/
def cmemCheck (c : VCfg) (p : Prog) (f : VF) (n : Nat) : Option Trap :=
  let opnds := [(f.vs2, p.af, p.asel), (f.vs3, p.bf, p.bsel)].filter fun r => r.2.1 ≤ 10
  let top := fun (row : Bool) => if row then (n - 1) / p.rl else min (n - 1) (p.rl - 1)
  if opnds.any fun r => r.1.toNat % opGroup c r.2.1 ≠ 0 then some { code := cVgrp, sub := 1 }
  else match cform p .memory with
    | some k => some { code := cCform, sub := k }
    | none =>
      if opnds.any fun r => decide (c.bytes < fmtSize r.2.1) then some { code := cCcfg, sub := 1 }
      else if p.reduces && n % p.rl ≠ 0 then some { code := cCcfg, sub := 2 }
      else if n ≠ 0 && opnds.any fun r => decide (2048 * opGroup c r.2.1 ≤ top r.2.2 * fmtSize r.2.1) then
        some { code := cCcfg, sub := 3 }
      else none

/-- A memory run in progress: addresses, the index of the next element in the run, and the number of its output tile. -/
structure CRun where
  st : State
  src : Word
  dst : Word
  idx : Nat
  drain : Nat
  old : Bool

/-- Why a memory run stops. -/
inductive CStop where
  | check (t : Trap)
  | data (e : AccErr) (a : Word)
  deriving DecidableEq, Repr

/-- The fault of the first of `n` bytes at `a` that lies outside the regions of R201 (R272). -/
def cmemPlace (s : State) (t : Nat) (a : Word) (n : Nat) (store : Bool) : Option Trap :=
  (List.range n).findSome? fun j =>
    let b := a + BitVec.ofNat 64 j
    if vregion s t b then none else some { code := cVaddr, sub := b2n store, addr := b }

/-- The fault of the first of `n` bytes at `a` that the windows do not permit (R111, R272). -/
def cmemWin (s : State) (t : Nat) (a : Word) (n : Nat) (store : Bool) : Option Trap :=
  (firstDenied (fun x m => permitted s (tcore t) x m (if store then rightW else rightR)) a n).map fun b =>
    { code := if store then cStoreWin else cLoadWin, addr := b }

/-- The first fault of output `j` of a chunk (R272): element by element, the place of what it reads and, at the last element of
the output, of what it writes, before the windows of both (R205; log 23). -/
def cmemAddr (s : State) (t : Nat) (p : Prog) (src dst : Word) (j : Nat) : Option Trap :=
  let si := fmtSize p.xf
  let so := fmtSize p.of
  let d := elAddr dst so j
  (List.range p.per).findSome? fun i =>
    let a := elAddr src si (j * p.per + i)
    let out := fun (c : Option Trap) => if i + 1 = p.per then c else none
    (cmemPlace s t a si false).or ((out (cmemPlace s t d so true)).or
      ((cmemWin s t a si false).or (out (cmemWin s t d so true))))

/-- The inputs of output `j` of a chunk. -/
def cmemRead (b : LineBuf) (t : Nat) (p : Prog) (src : Word) (j : Nat) : LineBuf × Except (Word × AccErr) (List Nat) :=
  (List.range p.per).foldl (fun acc i =>
    match acc.2 with
    | .error e => (acc.1, .error e)
    | .ok xs => match vread acc.1 t (elAddr src (fmtSize p.xf) (j * p.per + i)) (fmtSize p.xf) with
      | (b, .ok bs) => (b, .ok (xs ++ [ofBytes bs]))
      | (b, .error e) => (b, .error e)) (b, .ok [])

/-- Operand a or b of element i of a memory run (R270). -/
def cmemOpnd (v : Vec) (p : Prog) (r : Reg) (fmt : Nat) (byRow : Bool) (i : Nat) : CVal :=
  regOpnd v r fmt (if byRow then i / p.rl else i % p.rl)

/-- Output number `q` of a run from its inputs: the pattern, and the generators. -/
def cmemOut (v : Vec) (p : Prog) (f : VF) (q : Nat) (xs : List Nat) : Nat × SMap Word :=
  let i0 := q * p.per
  let inp := fun i => ({ x := (p.xf, xs.getD (i - i0) 0), a := cmemOpnd v p f.vs2 p.af p.asel i,
                         b := cmemOpnd v p f.vs3 p.bf p.bsel i } : ChainIn)
  if p.reduces then rowOut p (fun _ => true) inp v.genV q
  else
    let g := genGet v.genV 1 (genOf p i0)
    let r := chainElem p (inp i0) g
    let o := chainOut p r.1 r.2
    (o.1, if o.2 = g then v.genV else aput v.genV (genOf p i0) o.2)

/-- An output of a memory run is counted: in the dump in progress when its output tile is older than the dump (R242). -/
def countRun (old : Bool) (n : Numerics) (of_ d i o : Nat) : Numerics :=
  match old, n.dump with
  | true, some (a, cs, ok) =>
    let m := countOut { n with hist := (List.range 64).foldl (fun h b => aset 0 h b (cs.getD b 0)) [] } of_ d 2 0 i o
    { m with hist := n.hist, dump := some (a, (List.range 64).map fun b => aget 0 m.hist b, ok) }
  | _, _ => countOut n of_ d 2 0 i o

/-- One output is computed and counted; an output tile of 16,384 begins with a new number (R234). -/
def cmemStep (r : CRun) (t : Nat) (p : Prog) (f : VF) (xs : List Nat) : CRun × Nat :=
  let q := r.idx / p.per
  let x := r.st.tile t
  let fresh := decide (q % 16384 = 0)
  let (d, num) := if fresh then takeDrain x.num else (r.drain, x.num)
  let old := r.old && !fresh
  let o := cmemOut x.vec p f q xs
  let st := r.st.setTile t
    { x with vec := { x.vec with genV := o.2 }, num := countRun old num p.of d (q % 16384) o.1 }
  ({ r with st := st, idx := r.idx + p.per, drain := d, old := old }, o.1)

/-- Outputs j of a chunk that are read, computed and collected, up to the first that fails. -/
def cmemChunk (t : Nat) (p : Prog) (f : VF) (src : Word) :
    Nat → Nat → LineBuf → CRun → List Nat → CRun × List Nat × Option CStop
  | 0, _, b, r, os => ({ r with st := b.st }, os, none)
  | n + 1, j, b, r, os =>
    match cmemRead b t p src j with
    | (b, .error e) => ({ r with st := b.st }, os, some (.data e.2 e.1))
    | (b, .ok xs) =>
      let q := cmemStep { r with st := b.st } t p f xs
      cmemChunk t p f src n (j + 1) { b with st := q.1.st } q.1 (os ++ [q.2])

/-- A run over `n` outputs, chunk by chunk as the output lines fall. -/
def cmemRun (t : Nat) (p : Prog) (f : VF) : Nat → Nat → CRun → CRun × Option CStop
  | 0, _, r => (r, none)
  | fuel + 1, n, r =>
    if n = 0 then (r, none)
    else
      let so := fmtSize p.of
      let m := min n ((128 - wfld r.dst 0 7 + so - 1) / so)
      let bad := (List.range m).findSome? fun j => (cmemAddr r.st t p r.src r.dst j).map fun e => (j, e)
      let m1 := match bad with | some (j, _) => j | none => m
      let ps := (List.range m1).flatMap fun j => elBytes r.st t (elAddr r.dst so j) j (List.replicate so 0)
      let wbad := storeBad r.st t (groupLines ps)
      let m2 := match wbad with | some (j, _, _) => j | none => m1
      let (r', os, stop) := cmemChunk t p f r.src m2 0 { st := r.st, line := none } r []
      let bs := ((List.range os.length).zip os).flatMap fun q => elBytes r'.st t (elAddr r.dst so q.1) q.1 (toBytes so q.2)
      let r' := { r' with
        st := storeLines r'.st t bs
        src := elAddr r.src (fmtSize p.xf) (os.length * p.per), dst := elAddr r.dst so os.length }
      match stop with
      | some e => (r', some e)
      | none => match wbad with
        | some (_, a, e) => (r', some (.data e (BitVec.ofNat 64 a)))
        | none => match bad with
          | some (_, e) => (r', some (.check e))
          | none => cmemRun t p f fuel (n - m) r'

/-- Registers s1, s2, s3 as a run leaves them. -/
def cmemRegs (s : State) (t : TileId) (r : CRun) (left : Nat) : State :=
  ((s.setReg (.tile t) 1 r.dst).setReg (.tile t) 2 r.src).setReg (.tile t) 3 (BitVec.ofNat 64 left)

/-- `cmem` (R270 to R272). An entry point is taken after `upTo` elements, at a beat boundary that is a row boundary of a
reduction (R271); the hidden record lets the resumed run continue as the same run (log 17). -/
def cmemBody (t : TileId) (f : VF) (n : ChainNo) (upTo : Option Nat) (s : State) : Effect :=
  let c : CoreId := .tile t
  let s := drainAll faddF32 s c
  let v := (s.tile t.val).vec
  let p := progOf (chainBytes v n.toNat)
  let pc := pcOf s c
  let count := (s.reg c 3).toNat
  let mine := fun (r : CmemRun) => decide (r.pc = pc) && r.s1 = s.reg c 1 && r.s2 = s.reg c 2 && r.s3 = s.reg c 3
  let cont := v.cmemRuns.find? mine
  let base := match cont with | some r => r.base | none => 0
  if !(f.vd = 0 && f.vs1 = 0 && f.vm = 0) then illegal
  else if seedBlocked s t.val (ventry s t (.cmem t f n upTo) 0) then waitAt s c
  else match cmemCheck v.cfg p f (base + count) with
    | some e => .error e
    | none =>
      let unit := max (256 / fmtSize (wfCode p.wf)) p.per
      let stop := match upTo with
        | some u => if u / unit * unit < count then u / unit * unit else count
        | none => count
      let s := s.updVec t.val fun v => { v with cmemRuns := v.cmemRuns.filter fun r => !mine r, vstart := 0 }
      let r0 : CRun := { st := s, src := s.reg c 2, dst := s.reg c 1, idx := base
                         drain := (match cont with | some r => r.drain | none => 0)
                         old := (match cont with | some r => r.old | none => false) }
      let outs := stop / p.per
      let (r, e) := cmemRun t.val p f outs outs r0
      let left := count - (r.idx - base)
      let s := cmemRegs r.st t r left
      match e with
      | some (.check tr) => .ok { st := setFault s t.val (.cmem t f n upTo) 1 0, flow := .trap tr pc, occ := 1 }
      | some (.data err a) => .ok { st := setFault s t.val (.cmem t f n upTo) 2 0, flow := .trap (dataTrap err a) pc, occ := 1 }
      | none =>
        if left = 0 then done s
        else
          let rec_ : CmemRun :=
            { pc := pc, s1 := s.reg c 1, s2 := s.reg c 2, s3 := s.reg c 3, base := r.idx, drain := r.drain
              old := r.old }
          .ok { st := s.updVec t.val fun v => { v with cmemRuns := rec_ :: v.cmemRuns }, flow := .stay, occ := 1 }

def execCmem (t : TileId) (f : VF) (n : ChainNo) (upTo : Option Nat) (s : State) : Result :=
  .next (issue (.tile t) [1, 2, 3] 4 true (cmemBody t f n upTo) s)

end Sys2Proof.Machine
end

