-- ==== Sys2Proof/Machine/Dispatch.lean ====
section
/-! DEFINITION. The dispatch of a command to its meaning: one arm per constructor. -/

namespace Sys2Proof.Machine

open Sys2Proof

def exec (i : Instr) (s : State) : Host.Outcome State Fault Refusal :=
  match i with
  | .mov c rd rs => Sys2Proof.Machine.execMov c rd rs s
  | .movi c rd imm => Sys2Proof.Machine.execMovi c rd imm s
  | .add c f => Sys2Proof.Machine.execAdd c f s
  | .sub c f => Sys2Proof.Machine.execSub c f s
  | .adc c f => Sys2Proof.Machine.execAdc c f s
  | .sbc c f => Sys2Proof.Machine.execSbc c f s
  | .andR c f => Sys2Proof.Machine.execAndR c f s
  | .orR c f => Sys2Proof.Machine.execOrR c f s
  | .xorR c f => Sys2Proof.Machine.execXorR c f s
  | .andn c f => Sys2Proof.Machine.execAndn c f s
  | .shl c f => Sys2Proof.Machine.execShl c f s
  | .shr c f => Sys2Proof.Machine.execShr c f s
  | .sar c f => Sys2Proof.Machine.execSar c f s
  | .rol c f => Sys2Proof.Machine.execRol c f s
  | .cmp c rd rs => Sys2Proof.Machine.execCmp c rd rs s
  | .cmpi c rd imm => Sys2Proof.Machine.execCmpi c rd imm s
  | .mul c f => Sys2Proof.Machine.execMul c f s
  | .mulh c f => Sys2Proof.Machine.execMulh c f s
  | .mulhu c f => Sys2Proof.Machine.execMulhu c f s
  | .div c f => Sys2Proof.Machine.execDiv c f s
  | .divu c f => Sys2Proof.Machine.execDivu c f s
  | .rem c f => Sys2Proof.Machine.execRem c f s
  | .remu c f => Sys2Proof.Machine.execRemu c f s
  | .slt c f => Sys2Proof.Machine.execSlt c f s
  | .sltu c f => Sys2Proof.Machine.execSltu c f s
  | .minR c f => Sys2Proof.Machine.execMinR c f s
  | .maxR c f => Sys2Proof.Machine.execMaxR c f s
  | .minu c f => Sys2Proof.Machine.execMinu c f s
  | .maxu c f => Sys2Proof.Machine.execMaxu c f s
  | .clz c f => Sys2Proof.Machine.execClz c f s
  | .ctz c f => Sys2Proof.Machine.execCtz c f s
  | .popc c f => Sys2Proof.Machine.execPopc c f s
  | .bswap c f => Sys2Proof.Machine.execBswap c f s
  | .sext c w f => Sys2Proof.Machine.execSext c w f s
  | .zextW c f => Sys2Proof.Machine.execZextW c f s
  | .addi c f => Sys2Proof.Machine.execAddi c f s
  | .andi c f => Sys2Proof.Machine.execAndi c f s
  | .ori c f => Sys2Proof.Machine.execOri c f s
  | .xori c f => Sys2Proof.Machine.execXori c f s
  | .shli c f => Sys2Proof.Machine.execShli c f s
  | .shri c f => Sys2Proof.Machine.execShri c f s
  | .sari c f => Sys2Proof.Machine.execSari c f s
  | .roli c f => Sys2Proof.Machine.execRoli c f s
  | .slti c f => Sys2Proof.Machine.execSlti c f s
  | .sltiu c f => Sys2Proof.Machine.execSltiu c f s
  | .lui c rd imm => Sys2Proof.Machine.execLui c rd imm s
  | .lsh c rd imm => Sys2Proof.Machine.execLsh c rd imm s
  | .ld c f => Sys2Proof.Machine.execLd c f s
  | .st c f => Sys2Proof.Machine.execSt c f s
  | .ldspD c rd imm => Sys2Proof.Machine.execLdspD c rd imm s
  | .stspD c rd imm => Sys2Proof.Machine.execStspD c rd imm s
  | .lineFill t mr err => Sys2Proof.Machine.execLineFill t mr err s
  | .prefetch t st => Sys2Proof.Machine.execPrefetch t st s
  | .lateStore c victim => Sys2Proof.Machine.execLateStore c victim s
  | .bcc c f => Sys2Proof.Machine.execBcc c f s
  | .br c imm => Sys2Proof.Machine.execBr c imm s
  | .jal c imm => Sys2Proof.Machine.execJal c imm s
  | .jalr c f => Sys2Proof.Machine.execJalr c f s
  | .jr c rs => Sys2Proof.Machine.execJr c rs s
  | .ret c rs => Sys2Proof.Machine.execRet c rs s
  | .nop c rs => Sys2Proof.Machine.execNop c rs s
  | .zloop c lp rs off => Sys2Proof.Machine.execZloop c lp rs off s
  | .smov c f => Sys2Proof.Machine.execSmov c f s
  | .sset c f => Sys2Proof.Machine.execSset c f s
  | .scmp c f => Sys2Proof.Machine.execScmp c f s
  | .ifl c f => Sys2Proof.Machine.execIfl c f s
  | .mfsr c rd sr f => Sys2Proof.Machine.execMfsr c rd sr f s
  | .mtsr c sr rs f => Sys2Proof.Machine.execMtsr c sr rs f s
  | .mset c f => Sys2Proof.Machine.execMset c f s
  | .trap c f => Sys2Proof.Machine.execTrap c f s
  | .eret c f => Sys2Proof.Machine.execEret c f s
  | .halt c f => Sys2Proof.Machine.execHalt c f s
  | .waitq c f => Sys2Proof.Machine.execWaitq c f s
  | .interrupt c => Sys2Proof.Machine.execInterrupt c s
  | .systemRegisterMirrorWrite t sr v => Sys2Proof.Machine.execSystemRegisterMirrorWrite t sr v s
  | .tileT0arm c rs => Sys2Proof.Machine.execTileT0arm c rs s
  | .tileT0can c rs => Sys2Proof.Machine.execTileT0can c rs s
  | .timer0EntryExpiry c ix => Sys2Proof.Machine.execTimer0EntryExpiry c ix s
  | .prof c => Sys2Proof.Machine.execProf c s
  | .tileProf c rs => Sys2Proof.Machine.execTileProf c rs s
  | .wdog c => Sys2Proof.Machine.execWdog c s
  | .tileT1ctl c rs => Sys2Proof.Machine.execTileT1ctl c rs s
  | .tileLsecnt c rs => Sys2Proof.Machine.execTileLsecnt c rs s
  | .paceWindow counts => Sys2Proof.Machine.execPaceWindow counts s
  | .tilePaceClr t v => Sys2Proof.Machine.execTilePaceClr t v s
  | .tileTcorrCtl t v => Sys2Proof.Machine.execTileTcorrCtl t v s
  | .referenceClockLoss r => Sys2Proof.Machine.execReferenceClockLoss r s
  | .ppsEdge => Sys2Proof.Machine.execPpsEdge s
  | .ppsLost => Sys2Proof.Machine.execPpsLost s
  | .ptpEventMessage p err => Sys2Proof.Machine.execPtpEventMessage p err s
  | .hinit c f => Sys2Proof.Machine.execHinit c f s
  | .habs c f => Sys2Proof.Machine.execHabs c f s
  | .habsm c f => Sys2Proof.Machine.execHabsm c f s
  | .hfin c f => Sys2Proof.Machine.execHfin c f s
  | .hsqz c f => Sys2Proof.Machine.execHsqz c f s
  | .hsave c f => Sys2Proof.Machine.execHsave c f s
  | .hrest c f => Sys2Proof.Machine.execHrest c f s
  | .vcfg t f => Sys2Proof.Machine.execVcfg t f s
  | .vectorStart t mismatch => Sys2Proof.Machine.execVectorStart t mismatch s
  | .vectorDataFault t e addr why => Sys2Proof.Machine.execVectorDataFault t e addr why s
  | .vld t f => Sys2Proof.Machine.execVld t f s
  | .vst t f => Sys2Proof.Machine.execVst t f s
  | .vfadd t f => Sys2Proof.Machine.execVfadd t f s
  | .vfsub t f => Sys2Proof.Machine.execVfsub t f s
  | .vfmul t f => Sys2Proof.Machine.execVfmul t f s
  | .vfdiv t f => Sys2Proof.Machine.execVfdiv t f s
  | .vfmin t f => Sys2Proof.Machine.execVfmin t f s
  | .vfmax t f => Sys2Proof.Machine.execVfmax t f s
  | .vfsqrt t f => Sys2Proof.Machine.execVfsqrt t f s
  | .vfneg t f => Sys2Proof.Machine.execVfneg t f s
  | .vfabs t f => Sys2Proof.Machine.execVfabs t f s
  | .vcvtFI t f => Sys2Proof.Machine.execVcvtFI t f s
  | .vcvtIF t f => Sys2Proof.Machine.execVcvtIF t f s
  | .vfwcvt t f => Sys2Proof.Machine.execVfwcvt t f s
  | .vfncvt t f => Sys2Proof.Machine.execVfncvt t f s
  | .vfma t f => Sys2Proof.Machine.execVfma t f s
  | .vfms t f => Sys2Proof.Machine.execVfms t f s
  | .vfnma t f => Sys2Proof.Machine.execVfnma t f s
  | .vfnms t f => Sys2Proof.Machine.execVfnms t f s
  | .vadd t f => Sys2Proof.Machine.execVadd t f s
  | .vsub t f => Sys2Proof.Machine.execVsub t f s
  | .vmul t f => Sys2Proof.Machine.execVmul t f s
  | .vmulh t f => Sys2Proof.Machine.execVmulh t f s
  | .vmulhu t f => Sys2Proof.Machine.execVmulhu t f s
  | .vand t f => Sys2Proof.Machine.execVand t f s
  | .vor t f => Sys2Proof.Machine.execVor t f s
  | .vxor t f => Sys2Proof.Machine.execVxor t f s
  | .vandn t f => Sys2Proof.Machine.execVandn t f s
  | .vshl t f => Sys2Proof.Machine.execVshl t f s
  | .vshr t f => Sys2Proof.Machine.execVshr t f s
  | .vsar t f => Sys2Proof.Machine.execVsar t f s
  | .vmin t f => Sys2Proof.Machine.execVmin t f s
  | .vmax t f => Sys2Proof.Machine.execVmax t f s
  | .vminu t f => Sys2Proof.Machine.execVminu t f s
  | .vmaxu t f => Sys2Proof.Machine.execVmaxu t f s
  | .vfcmpeq t f => Sys2Proof.Machine.execVfcmpeq t f s
  | .vfcmplt t f => Sys2Proof.Machine.execVfcmplt t f s
  | .vfcmple t f => Sys2Proof.Machine.execVfcmple t f s
  | .vfcmpun t f => Sys2Proof.Machine.execVfcmpun t f s
  | .vcmpeq t f => Sys2Proof.Machine.execVcmpeq t f s
  | .vcmpne t f => Sys2Proof.Machine.execVcmpne t f s
  | .vcmplt t f => Sys2Proof.Machine.execVcmplt t f s
  | .vcmpltu t f => Sys2Proof.Machine.execVcmpltu t f s
  | .vcmple t f => Sys2Proof.Machine.execVcmple t f s
  | .vcmpleu t f => Sys2Proof.Machine.execVcmpleu t f s
  | .mand t f => Sys2Proof.Machine.execMand t f s
  | .mor t f => Sys2Proof.Machine.execMor t f s
  | .mxor t f => Sys2Proof.Machine.execMxor t f s
  | .mandn t f => Sys2Proof.Machine.execMandn t f s
  | .vpopc t f => Sys2Proof.Machine.execVpopc t f s
  | .vfirst t f => Sys2Proof.Machine.execVfirst t f s
  | .vredsum t f => Sys2Proof.Machine.execVredsum t f s
  | .vredmin t f => Sys2Proof.Machine.execVredmin t f s
  | .vredmax t f => Sys2Proof.Machine.execVredmax t f s
  | .vredminu t f => Sys2Proof.Machine.execVredminu t f s
  | .vredmaxu t f => Sys2Proof.Machine.execVredmaxu t f s
  | .vfredsum t f => Sys2Proof.Machine.execVfredsum t f s
  | .vfredmin t f => Sys2Proof.Machine.execVfredmin t f s
  | .vfredmax t f => Sys2Proof.Machine.execVfredmax t f s
  | .vslideup t f => Sys2Proof.Machine.execVslideup t f s
  | .vslidedown t f => Sys2Proof.Machine.execVslidedown t f s
  | .vrgather t f => Sys2Proof.Machine.execVrgather t f s
  | .vmerge t f => Sys2Proof.Machine.execVmerge t f s
  | .vwmul t f => Sys2Proof.Machine.execVwmul t f s
  | .vwmulu t f => Sys2Proof.Machine.execVwmulu t f s
  | .vfwmul t f => Sys2Proof.Machine.execVfwmul t f s
  | .vdotI8 t f => Sys2Proof.Machine.execVdotI8 t f s
  | .vdotE4m3 t f => Sys2Proof.Machine.execVdotE4m3 t f s
  | .vdotE4m3e5m2 t f => Sys2Proof.Machine.execVdotE4m3e5m2 t f s
  | .vdotE5m2e4m3 t f => Sys2Proof.Machine.execVdotE5m2e4m3 t f s
  | .vdotE5m2 t f => Sys2Proof.Machine.execVdotE5m2 t f s
  | .vdotB16 t f => Sys2Proof.Machine.execVdotB16 t f s
  | .vdotF16 t f => Sys2Proof.Machine.execVdotF16 t f s
  | .vmvVV t f => Sys2Proof.Machine.execVmvVV t f s
  | .vmvVX t f => Sys2Proof.Machine.execVmvVX t f s
  | .vmvXS t f => Sys2Proof.Machine.execVmvXS t f s
  | .vid t f => Sys2Proof.Machine.execVid t f s
  | .cld t f => Sys2Proof.Machine.execCld t f s
  | .cst t f => Sys2Proof.Machine.execCst t f s
  | .cseed t f => Sys2Proof.Machine.execCseed t f s
  | .vchain t f n => Sys2Proof.Machine.execVchain t f n s
  | .cmem t f n upTo => Sys2Proof.Machine.execCmem t f n upTo s
  | .rownorm t f md => Sys2Proof.Machine.execRownorm t f md s
  | .mcfg t f => Sys2Proof.Machine.execMcfg t f s
  | .mwld t f => Sys2Proof.Machine.execMwld t f s
  | .mpass t f => Sys2Proof.Machine.execMpass t f s
  | .mdrain t f => Sys2Proof.Machine.execMdrain t f s
  | .mlda t f => Sys2Proof.Machine.execMlda t f s
  | .msync t f => Sys2Proof.Machine.execMsync t f s
  | .cp0Start t => Sys2Proof.Machine.execCp0Start t s
  | .passFeedStart t badLines mismatch => Sys2Proof.Machine.execPassFeedStart t badLines mismatch s
  | .drainStart t => Sys2Proof.Machine.execDrainStart t s
  | .rampDown t => Sys2Proof.Machine.execRampDown t s
  | .drainWriteFailure t why addr => Sys2Proof.Machine.execDrainWriteFailure t why addr s
  | .mtxErr t v => Sys2Proof.Machine.execMtxErr t v s
  | .hdump t hclr nclr task => Sys2Proof.Machine.execHdump t hclr nclr task s
  | .hclr t nclr => Sys2Proof.Machine.execHclr t nclr s
  | .nclr t => Sys2Proof.Machine.execNclr t s
  | .histogramDumpEnd t failed => Sys2Proof.Machine.execHistogramDumpEnd t failed s
  | .tileL1cfg t v task => Sys2Proof.Machine.execTileL1cfg t v task s
  | .waySplitChange t => Sys2Proof.Machine.execWaySplitChange t s
  | .fence c f => Sys2Proof.Machine.execFence c f s
  | .fenceW c f => Sys2Proof.Machine.execFenceW c f s
  | .dcz c f => Sys2Proof.Machine.execDcz c f s
  | .dcwb c f => Sys2Proof.Machine.execDcwb c f s
  | .dcinv c f => Sys2Proof.Machine.execDcinv c f s
  | .amoadd c d f => Sys2Proof.Machine.execAmoadd c d f s
  | .amoswap c d f => Sys2Proof.Machine.execAmoswap c d f s
  | .amocas c d f => Sys2Proof.Machine.execAmocas c d f s
  | .amomin c d f => Sys2Proof.Machine.execAmomin c d f s
  | .amomax c d f => Sys2Proof.Machine.execAmomax c d f s
  | .amofaddF32 c f => Sys2Proof.Machine.execAmofaddF32 c f s
  | .mergingBufferDrain n => Sys2Proof.Machine.execMergingBufferDrain n s
  | .movQbase t q v => Sys2Proof.Machine.execMovQbase t q v s
  | .movQtail t q v => Sys2Proof.Machine.execMovQtail t q v s
  | .movQctlReset t q => Sys2Proof.Machine.execMovQctlReset t q s
  | .movQctlSkip t q => Sys2Proof.Machine.execMovQctlSkip t q s
  | .movQctlResume t q => Sys2Proof.Machine.execMovQctlResume t q s
  | .copy t q => Sys2Proof.Machine.execCopy t q s
  | .skew t q => Sys2Proof.Machine.execSkew t q s
  | .gather t q => Sys2Proof.Machine.execGather t q s
  | .scatter t q => Sys2Proof.Machine.execScatter t q s
  | .zero t q => Sys2Proof.Machine.execZero t q s
  | .i4x t q => Sys2Proof.Machine.execI4x t q s
  | .moverUnitRead t q fail => Sys2Proof.Machine.execMoverUnitRead t q fail s
  | .descriptorCompletion t q => Sys2Proof.Machine.execDescriptorCompletion t q s
  | .gput t f => Sys2Proof.Machine.execGput t f s
  | .gget t f => Sys2Proof.Machine.execGget t f s
  | .gdispatch t f => Sys2Proof.Machine.execGdispatch t f s
  | .greturn t f => Sys2Proof.Machine.execGreturn t f s
  | .garm t f => Sys2Proof.Machine.execGarm t f s
  | .gibgat t f => Sys2Proof.Machine.execGibgat t f s
  | .gallreduce t f => Sys2Proof.Machine.execGallreduce t f s
  | .greducescatter t f => Sys2Proof.Machine.execGreducescatter t f s
  | .gallgather t f => Sys2Proof.Machine.execGallgather t f s
  | .galltoall t f => Sys2Proof.Machine.execGalltoall t f s
  | .gbarrier t f => Sys2Proof.Machine.execGbarrier t f s
  | .gjoin t f => Sys2Proof.Machine.execGjoin t f s
  | .gbeacon t f => Sys2Proof.Machine.execGbeacon t f s
  | .gsync t f => Sys2Proof.Machine.execGsync t f s
  | .cp1Start t => Sys2Proof.Machine.execCp1Start t s
  | .operationEnd t op res => Sys2Proof.Machine.execOperationEnd t op res s
  | .remoteRead src addr len tag => Sys2Proof.Machine.execRemoteRead src addr len tag s
  | .remoteWrite src addr data tag => Sys2Proof.Machine.execRemoteWrite src addr data tag s
  | .remoteStoreAcknowledgement t ok => Sys2Proof.Machine.execRemoteStoreAcknowledgement t ok s
  | .inboxReservation t ix src req n hold rowBytes => Sys2Proof.Machine.execInboxReservation t ix src req n hold rowBytes s
  | .inboxGrant t op dst slots => Sys2Proof.Machine.execInboxGrant t op dst slots s
  | .reservationRepeat t op dst => Sys2Proof.Machine.execReservationRepeat t op dst s
  | .tokenRow t ix slot hdr row => Sys2Proof.Machine.execTokenRow t ix slot hdr row s
  | .headerAcknowledgement trip => Sys2Proof.Machine.execHeaderAcknowledgement trip s
  | .voidSlot t ix slot => Sys2Proof.Machine.execVoidSlot t ix slot s
  | .dispatchTimeout t op => Sys2Proof.Machine.execDispatchTimeout t op s
  | .fragment trip gen d fmt data err => Sys2Proof.Machine.execFragment trip gen d fmt data err s
  | .failureNotice trip code => Sys2Proof.Machine.execFailureNotice trip code s
  | .tripTimeout trip => Sys2Proof.Machine.execTripTimeout trip s
  | .slotCompletion slot => Sys2Proof.Machine.execSlotCompletion slot s
  | .galIbcfg t ix v => Sys2Proof.Machine.execGalIbcfg t ix v s
  | .galIbptr t ix v => Sys2Proof.Machine.execGalIbptr t ix v s
  | .galDirinv v => Sys2Proof.Machine.execGalDirinv v s
  | .directoryInvalidationEnd => Sys2Proof.Machine.execDirectoryInvalidationEnd s
  | .collectiveData g src shape block data => Sys2Proof.Machine.execCollectiveData g src shape block data s
  | .joinHash g src hash => Sys2Proof.Machine.execJoinHash g src hash s
  | .beaconPeriod => Sys2Proof.Machine.execBeaconPeriod s
  | .beacon g num st cause src => Sys2Proof.Machine.execBeacon g num st cause src s
  | .collectiveTimeout g => Sys2Proof.Machine.execCollectiveTimeout g s
  | .flit p hdr payload chk => Sys2Proof.Machine.execFlit p hdr payload chk s
  | .seal p f => Sys2Proof.Machine.execSeal p f s
  | .sealGroupClose p => Sys2Proof.Machine.execSealGroupClose p s
  | .ackTimer p => Sys2Proof.Machine.execAckTimer p s
  | .replay p => Sys2Proof.Machine.execReplay p s
  | .keyExchange p m => Sys2Proof.Machine.execKeyExchange p m s
  | .lossOfSignal p lane => Sys2Proof.Machine.execLossOfSignal p lane s
  | .retrain p => Sys2Proof.Machine.execRetrain p s
  | .retrainEnd p good spareGood => Sys2Proof.Machine.execRetrainEnd p good spareGood s
  | .failedPortRetry p => Sys2Proof.Machine.execFailedPortRetry p s
  | .routeTableRebuild => Sys2Proof.Machine.execRouteTableRebuild s
  | .refresh k ch bank => Sys2Proof.Machine.execRefresh k ch bank s
  | .scrub line err => Sys2Proof.Machine.execScrub line err s
  | .thermalReading k temp => Sys2Proof.Machine.execThermalReading k temp s
  | .stackRetrain k => Sys2Proof.Machine.execStackRetrain k s
  | .channelCopy k => Sys2Proof.Machine.execChannelCopy k s
  | .fold k ch => Sys2Proof.Machine.execFold k ch s
  | .nopCommand q => Sys2Proof.Machine.execNopCommand q s
  | .launch q => Sys2Proof.Machine.execLaunch q s
  | .persist q => Sys2Proof.Machine.execPersist q s
  | .pstop q => Sys2Proof.Machine.execPstop q s
  | .enq q => Sys2Proof.Machine.execEnq q s
  | .wait q => Sys2Proof.Machine.execWait q s
  | .fenceReread q => Sys2Proof.Machine.execFenceReread q s
  | .waitTimeout q => Sys2Proof.Machine.execWaitTimeout q s
  | .signal q => Sys2Proof.Machine.execSignal q s
  | .gdef q => Sys2Proof.Machine.execGdef q s
  | .graphLaunch q => Sys2Proof.Machine.execGraphLaunch q s
  | .patch q => Sys2Proof.Machine.execPatch q s
  | .reserve q => Sys2Proof.Machine.execReserve q s
  | .tileEnd t => Sys2Proof.Machine.execTileEnd t s
  | .commandTimeout q => Sys2Proof.Machine.execCommandTimeout q s
  | .kill q => Sys2Proof.Machine.execKill q s
  | .commandReplay q => Sys2Proof.Machine.execCommandReplay q s
  | .holdReport r => Sys2Proof.Machine.execHoldReport r s
  | .outcomeReport r fail => Sys2Proof.Machine.execOutcomeReport r fail s
  | .feQtail q v => Sys2Proof.Machine.execFeQtail q v s
  | .feQbase q v => Sys2Proof.Machine.execFeQbase q v s
  | .feQctlAbort q => Sys2Proof.Machine.execFeQctlAbort q s
  | .feQctlSkip q => Sys2Proof.Machine.execFeQctlSkip q s
  | .feQctlResume q => Sys2Proof.Machine.execFeQctlResume q s
  | .feWaitsnap => Sys2Proof.Machine.execFeWaitsnap s
  | .feTqpush k v => Sys2Proof.Machine.execFeTqpush k v s
  | .ethernetFrame p f => Sys2Proof.Machine.execEthernetFrame p f s
  | .autoNegotiation p peer => Sys2Proof.Machine.execAutoNegotiation p peer s
  | .neighborDiscovery p m => Sys2Proof.Machine.execNeighborDiscovery p m s
  | .echoRequest p v6 src data => Sys2Proof.Machine.execEchoRequest p v6 src data s
  | .lldpTimer p => Sys2Proof.Machine.execLldpTimer p s
  | .helloI p hsid events h => Sys2Proof.Machine.execHelloI p hsid events h s
  | .finishI hs pkts => Sys2Proof.Machine.execFinishI hs pkts s
  | .handshakeTimeout hs => Sys2Proof.Machine.execHandshakeTimeout hs s
  | .data ss p hdr body tag ce => Sys2Proof.Machine.execData ss p hdr body tag ce s
  | .ack ss p hdr body tag ce => Sys2Proof.Machine.execAck ss p hdr body tag ce s
  | .close ss k => Sys2Proof.Machine.execClose ss k s
  | .probe ss k => Sys2Proof.Machine.execProbe ss k s
  | .probeTimer ss => Sys2Proof.Machine.execProbeTimer ss s
  | .sessionIdle ss => Sys2Proof.Machine.execSessionIdle ss s
  | .ezoriAckDelay ss => Sys2Proof.Machine.execEzoriAckDelay ss s
  | .retransmissionTimeout ss pn => Sys2Proof.Machine.execRetransmissionTimeout ss pn s
  | .rateUpdate ss p minRtt => Sys2Proof.Machine.execRateUpdate ss p minRtt s
  | .write ss xid addr data cmpl => Sys2Proof.Machine.execWrite ss xid addr data cmpl s
  | .read ss xid addr len => Sys2Proof.Machine.execRead ss xid addr len s
  | .doorbell ss xid q tail => Sys2Proof.Machine.execDoorbell ss xid q tail s
  | .mailboxSend ss xid m data => Sys2Proof.Machine.execMailboxSend ss xid m data s
  | .mailboxAck ss xid m code => Sys2Proof.Machine.execMailboxAck ss xid m code s
  | .event ss kind => Sys2Proof.Machine.execEvent ss kind s
  | .attest ss xid nonce => Sys2Proof.Machine.execAttest ss xid nonce s
  | .logRead ss xid first count => Sys2Proof.Machine.execLogRead ss xid first count s
  | .featQuery ss xid => Sys2Proof.Machine.execFeatQuery ss xid s
  | .featAccept ss xid vec => Sys2Proof.Machine.execFeatAccept ss xid vec s
  | .mbData m ix v => Sys2Proof.Machine.execMbData m ix v s
  | .mbSend m v => Sys2Proof.Machine.execMbSend m v s
  | .mbAck m v => Sys2Proof.Machine.execMbAck m v s
  | .dbset d v => Sys2Proof.Machine.execDbset d v s
  | .db d v => Sys2Proof.Machine.execDb d v s
  | .dbMask d v => Sys2Proof.Machine.execDbMask d v s
  | .powerGood r => Sys2Proof.Machine.execPowerGood r s
  | .restart r => Sys2Proof.Machine.execRestart r s
  | .release addr sigOk => Sys2Proof.Machine.execRelease addr sigOk s
  | .entropyTestFailure => Sys2Proof.Machine.execEntropyTestFailure s
  | .drbgReseed => Sys2Proof.Machine.execDrbgReseed s
  | .bypass => Sys2Proof.Machine.execBypass s
  | .idcode => Sys2Proof.Machine.execIdcode s
  | .samplePreload pins preload => Sys2Proof.Machine.execSamplePreload pins preload s
  | .extest => Sys2Proof.Machine.execExtest s
  | .tapReset => Sys2Proof.Machine.execTapReset s
  | .powerFail => Sys2Proof.Machine.execPowerFail s
  | .railRemoval => Sys2Proof.Machine.execRailRemoval s
  | .overvoltage => Sys2Proof.Machine.execOvervoltage s
  | .lampGrant => Sys2Proof.Machine.execLampGrant s
  | .lampLineMove => Sys2Proof.Machine.execLampLineMove s
  | .lampCfg v => Sys2Proof.Machine.execLampCfg v s
  | .lampDie d v => Sys2Proof.Machine.execLampDie d v s
  | .junctionTemperature d tj => Sys2Proof.Machine.execJunctionTemperature d tj s
  | .inputPower xx => Sys2Proof.Machine.execInputPower xx s
  | .dieCurrent d amps => Sys2Proof.Machine.execDieCurrent d amps s
  | .throttleStep d => Sys2Proof.Machine.execThrottleStep d s
  | .sounding xx res => Sys2Proof.Machine.execSounding xx res s
  | .fatal cause => Sys2Proof.Machine.execFatal cause s
  | .moduleReset => Sys2Proof.Machine.execModuleReset s
  | .resetRelease r => Sys2Proof.Machine.execResetRelease r s
  | .registerWrite addr v => Sys2Proof.Machine.execRegisterWrite addr v s
  | .remoteReadResponse t op off res => Sys2Proof.Machine.execRemoteReadResponse t op off res s
  | .moverWriteFailure t q unit why addr => Sys2Proof.Machine.execMoverWriteFailure t q unit why addr s
  | .foldMoveCompletion k => Sys2Proof.Machine.execFoldMoveCompletion k s
  | .inputReturn r => Sys2Proof.Machine.execInputReturn r s
  | .thermtripLatchRelease => Sys2Proof.Machine.execThermtripLatchRelease s
  | .referenceClockReturn r => Sys2Proof.Machine.execReferenceClockReturn r s
  | .ptpSourceLoss => Sys2Proof.Machine.execPtpSourceLoss s
  | .galleryOperationTimeout t op => Sys2Proof.Machine.execGalleryOperationTimeout t op s
  | .tripIdReuse trip => Sys2Proof.Machine.execTripIdReuse trip s
  | .journalDeviceWriteEnd => Sys2Proof.Machine.execJournalDeviceWriteEnd s

end Sys2Proof.Machine
end

