-- ==== Sys2Proof/Machine/Tick.lean ====
section
/-! DEFINITION. The tick: what happens on an empty queue. Time passes, engines go on, each core that is ready runs the instruction that memory holds at its pc, and the links send (R36, R62 to R64, R70, R133, R199, R307, R446, log 9). -/

namespace Sys2Proof.Machine

open Sys2Proof

/-! ### One instruction of a core -/

/-- Bytes of an instruction, with the outcome that the fetch path gives. -/
abbrev Fetched := State × Except Trap (List Byte)

/-- The instruction at the pc, fetched halfword by halfword as far as its length needs (R70, R95). -/
def fetchInstr (s : State) (c : CoreId) : Fetched :=
  match prep s c [] 2 with
  | (s, .error t) => (s, .error t)
  | (s, .ok b0) =>
    let h0 := ofBytes b0
    if h0 ≠ repHalf && h0 % 2 = 0 then (s, .ok b0)
    else match prep s c [] 4 with
      | (s, .error t) => (s, .error t)
      | (s, .ok b1) =>
        if instrLength h0 (ofBytes (b1.drop 2)) = 6 then prep s c [] 6 else (s, .ok b1)

/-- A word that is no instruction: ILLEGAL, once the instructions before it have completed (R63, R73, R75 to R77, R82). -/
def issueIllegal (c : CoreId) (len : Nat) (s : State) : State := issue c [] len false done s

/-- A func10 that a coprocessor does not list fails its issue check (R100, R319, R370); the hash engine stands on tiles and on
Ochre only (R62). -/
def issueFunc10 (c : CoreId) (n : Nat) (s : State) : State :=
  issue c [] 4 (n ≠ 2 || hasHash c)
    (fun s => if n = 2 then hashFault s else .error { code := cCop, sub := n + 8 }) s

/-- What the bytes at the pc spell has its effect. -/
def runBytes (c : CoreId) (bs : List Byte) (s : State) : Host.Outcome State Fault Refusal :=
  match decodeInstr c bs with
  | .instr i => exec i s
  | .func10 n => .next (issueFunc10 c n s)
  | .illegal => .next (issueIllegal c bs.length s)

/-- Kernel level stands at a place where memory holds nothing: the model has no firmware bytes, and the core waits for its
instructions as commands (log 100). -/
def noFirmware (s : State) (c : CoreId) (bs : List Byte) : Bool := (s.core c).status.lvl && ofBytes bs = 0

/-- One core at its entry point: an interrupt that is due (R133), or the next instruction; a core held at issue counts stall
steps (R36). -/
def runCore (c : CoreId) (s : State) : Host.Outcome State Fault Refusal :=
  if !issuing s c then .next s
  else if (bestSource s c).isSome then execInterrupt c s
  else if held s c then .next (addStall s c)
  else match fetchInstr s c with
    | (u, .error _) => .next (issue c [] 2 true done u)
    | (u, .ok bs) => if noFirmware u c bs then .next s else runBytes c bs u

def runCores : List CoreId → State → Host.Outcome State Fault Refusal
  | [], s => .next s
  | c :: cs, s =>
    match runCore c s with
    | .next s => runCores cs s
    | .fault f => .fault f
    | .refused r => .refused r

/-- The cores that may run: the tiles the state lists, and every service core. -/
def coresOf (s : State) : List CoreId :=
  s.tiles.map (fun p => .tile (Fin.ofNat 256 p.1)) ++ (List.range 13).map fun n => .svc (Fin.ofNat 13 n)

/-! ### The engines of a tile -/

/-- Started vector instructions complete, and rows of the array in flight are written (R199, R307, R316). -/
def tileTick (s : State) (t : Nat) : State :=
  let x := s.tile t
  let s := if x.mtx.feed || x.mtx.wld then mtxTick s t else s
  if x.vec.run ≠ [] then (completeRun s t).1 else s

/-! ### The tick -/

/-- What happens when no command waits (log 9). -/
def tick (s : State) : Host.Outcome State Fault Refusal :=
  let s := tickStep s
  if s.power = .run then
    let s := (s.tiles.map (·.1)).foldl tileTick s
    match runCores (coresOf s) s with
    | .next s => .next (pumpAll s)
    | o => o
  else .next s

end Sys2Proof.Machine
end

