-- ==== Sys2Proof/Safety.lean ====
section
/-! DEFINITION. What a safe step is, and the words in which the statements say what a completed instruction leaves. -/

namespace Sys2Proof.Machine

open Sys2Proof

/-- The outcome is a next state. -/
def Outcome.isNext : Host.Outcome State Fault Refusal → Bool
  | .next _ => true
  | _ => false

/-- The step from `s` neither faults nor is refused. -/
def Safe (s : State) : Prop := Outcome.isNext (step s) = true

/-- The invariant that every step keeps: module memory is in its one canonical form (log 4), the rollback counter of the fuses
does not pass 64 (R591), and no VCORE lies below 550 mV (R651). -/
def Inv (s : State) : Prop :=
  Memory.wf s.mem = true ∧ s.sec.rollback ≤ 64 ∧ 550 ≤ s.lamp.die0.vcore ∧ 550 ≤ s.lamp.die1.vcore

/-! ### An instruction that completes -/

/-- Core `c` issues an instruction of `len` bytes that reads the registers `rs` and awaits the further keys `xs`: no interrupt is
due (R133), the vector instructions before it have started, and completed where it is `sync` (R199), and the fetch meets no fault
(R37, R114, R119). The machine is then `s1`, the stall steps of the fetch and of the operands counted (R36, R83). -/
def Ready (s : State) (c : CoreId) (rs : List Reg) (len : Nat) (s1 : State) (xs : List Nat := []) (sync : Bool := true) : Prop :=
  mayIssueReg s c rs = true ∧ ∃ u bs, olderRun s c sync = (u, false) ∧ prep u c (rs.map (·.toNat) ++ xs) len = (s1, .ok bs)

/-- The core `k` after an instruction of `len` bytes that changed it by `f` and took no branch: it held the issue stage for `occ`
(R59, R709), and the loop-end test gives the next pc (R88). -/
def retire (k : Core) (len occ : Nat) (f : Core → Core) : Core :=
  let k1 := f k
  goNext { k1 with steps := k1.steps + BitVec.ofNat 64 occ } k.pc len

/-- The machine after such an instruction of core `c`: nothing but that core has changed. -/
def retired (s : State) (c : CoreId) (len occ : Nat) (f : Core → Core) : State := s.setCore c (retire (s.core c) len occ f)

/-- The machine after an instruction of `len` bytes at `pc` that took no branch, held the issue stage for `occ`, and whose own
effect left `s`. -/
def finished (s : State) (c : CoreId) (pc : Word) (len occ : Nat) : State :=
  (addSteps s c occ).updCore c fun k => goNext k pc len

/-- Such a machine when the instruction's own effect on the machine it found is `g`. -/
def completed (s : State) (c : CoreId) (len occ : Nat) (g : State → State) : State := finished (g s) c (s.core c).pc len occ

/-- The machine after an instruction of core `c` that went to `a` by a branch or jump of its own and changed registers by `f`
(R71, R84, R88); the fetch window is discarded (R106). -/
def jumped (s : State) (c : CoreId) (a : Word) (f : Core → Core) : State :=
  let k1 := f (s.core c)
  s.setCore c { k1 with steps := k1.steps + 3, pc := a, fwin := none }

/-- A tile's vector unit has nothing dispatched that has not completed. -/
def Quiet (s : State) : CoreId → Prop
  | .tile t => (s.tile t.val).vec.vq = [] ∧ (s.tile t.val).vec.run = []
  | .svc _ => True

/-- The machine after an instruction of core `c` that met the fault `t` before any part of its effect (R121). -/
def faulted (s : State) (c : CoreId) (t : Trap) : State := takeFault s c t (s.core c).pc

/-- The machine after entry into the handler of an event of level `level` whose frame lies at offset `off` of the tile's own
scratch, at the address `frame` (R124 to R128): the 128 bytes of the frame are written there, and the core has the saved
registers, kernel level, the event's mask level, no loop count, s31 at the frame, and the vector's address. -/
def entryTo (s : State) (t : TileId) (level : Nat) (tr : Trap) (epc frame : Word) (off : Nat) : State :=
  let c : CoreId := .tile t
  let k := s.core c
  let cause := pack [(b2n tr.async, 19), (b2n tr.half, 18), (b2n tr.split, 17), (b2n k.status.lvl, 16), (tr.sub, 8), (tr.code, 0)]
  let ws : List Word :=
    [epc, k.status.word, k.fl.word, cause, tr.addr, k.reg 31, aget 0 k.lc 0, aget 0 k.lc 1, aget 0 k.lc 2, aget 0 k.lc 3,
      BitVec.ofNat 64 (s.tile t.val).vec.vstart, 0, 0, 0, 0, 0]
  (scratchWrite s t.val off (ws.flatMap fun w => toBytes 8 w.toNat)).updCore c fun k =>
    { (k.setReg 31 frame) with
      status := { bs := false, ml := BitVec.ofNat 3 level, lvl := true }, lc := [], epc := epc, ecause := cause
      eaddr := tr.addr, pc := k.evec + BitVec.ofNat 64 (0x40 * level), run := .running, strData := [], fwin := none
      steps := k.steps + 14 }

/-- The frame address of an entry (R124), when it lies at offset `off` of the tile's own scratch, reached by its alias. -/
def FrameIn (s : State) (t : TileId) (off : Nat) : Prop :=
  let k := s.core (.tile t)
  ((if k.status.lvl then k.reg 31 else k.ksp) - 128) &&& ~~~(0x7F#64) = BitVec.ofNat 64 (0xFC00000000 + off) ∧
    off + 128 ≤ min 0x80000 (scratchBytes s t.val) ∧ (s.tile t.val).oos = false ∧ k.sbuf = [] ∧ s.fe.grsize = 0

/-- An ALU instruction's effect on the core (R65, R68, R69): the value `r` to its destination, and, when it sets the flags, n
and z from `r` with c and v as given. Its class `m` gives when a consumer of them issues, and whether it occupies the divider
(R83, R84). -/
def aluWrites (m : AluTime) (a : AluArgs) (r : Word) (c v : Bool) (k : Core) : Core :=
  let k := if m.div then k.owe keyDiv 36 else k
  let k := k.setReg a.rd r
  let k := if a.setf then k.setFl { n := decide (r.toInt < 0), z := decide (r = 0), c := c, v := v } else k
  if m.lat ≤ 1 then k else (if a.setf then k.owe keyFl m.lat else k).owe a.rd.toNat m.lat

/-- Core `c` issues an ALU instruction of class `m`, past vector instructions that have started (R84, R199). -/
abbrev AluReady (s : State) (c : CoreId) (rs : List Reg) (len : Nat) (s1 : State) (m : AluTime := {}) : Prop :=
  Ready s c rs len s1 m.keys false

/-- The machine after an ALU instruction of class `m` with the operands `a` and the result `r`; vector accesses that have started
and not completed know that a younger instruction has issued (R208). -/
def aluDone (s : State) (c : CoreId) (len : Nat) (a : AluArgs) (r : Word) (cf vf : Bool) (m : AluTime := {}) : State :=
  retired (markPassed s c) c len 1 (aluWrites m a r cf vf)

/-- A value outside the range of a signed word. -/
def overflows (x : Int) : Bool := decide (x < -(2 ^ 63) ∨ 2 ^ 63 ≤ x)

/-! ### Vector instructions -/

/-- Tile `t` issues a vector instruction that reads the scalar registers `rs`: where `wait` says so, the vector instructions before
it complete first (R193, R199); the machine is then `s1`. -/
def VReady (s : State) (t : TileId) (rs : List Reg) (wait : State → Bool) (s1 : State) : Prop :=
  mayIssueReg s (.tile t) rs = true ∧
    ∃ u bs, (if wait s then startAll s t.val else (s, false)) = (u, false) ∧ prep u (.tile t) (rs.map (·.toNat)) 4 = (s1, .ok bs)

/-- The machine after tile `t` has dispatched the vector instruction `i` with the scalar operand `scal` (R168, R193). -/
def dispatched (s : State) (t : TileId) (i : Instr) (scal : Word) : State :=
  completed s (.tile t) 4 1 fun s => vpush s t (ventry s t i scal)

/-- The entry of `i` at dispatch: pc, configuration, rounding mode, TILE_VSTART, scalar operand and loop counts as they stand
(R168, R210). -/
def vecEntry (s : State) (t : TileId) (i : Instr) (scal : Word) : VEntry :=
  let v := (s.tile t.val).vec
  { instr := i, pc := (s.core (.tile t)).pc, cfg := v.cfg, rm := v.csr.rm, vstart := v.vstart, scal := scal, lc := (s.core (.tile t)).lc }

/-- The machine after tile `t` has started and run an entry: its unit is `v`, the FMA-unit patrol has moved on (R191), and a
scalar result is written, for which its readers wait a free number of steps (log 2). -/
def started (u : State) (t : TileId) (x : VEntry) (v : Vec) (res : Option (Reg × Word)) : State :=
  let w := u.updTile t.val fun y => { y with
    vec := { v with shadow := if fmaUnit x && v.patrol then (v.shadow + 1) % 32 else v.shadow }
    core := match res with | some (r, w) => (y.core.setReg r w).owe r.toNat (Config.freeStall u.free) | none => y.core }
  if res.isSome then w.tick else w

/-- `i`, whose scalar operand is `scal`, completes, where the machine is ready for it and is then `s1`: it is dispatched, and the
start that takes it, with no access to memory still running before it, leaves the unit as `P` says of the unit before and after,
with the scalar result `res`. -/
def VRuns (s s1 : State) (t : TileId) (i : Instr) (scal : Word) (P : VEntry → Vec → Vec → Prop)
    (res : VEntry → Vec → Option (Reg × Word)) : Prop :=
  let x := vecEntry s1 t i scal
  exec i s = .next (dispatched s1 t i scal) ∧ x ∈ ((dispatched s1 t i scal).tile t.val).vec.vq ∧
  ∀ (u : State) (xs : List VEntry), u.power = .run → (u.tile t.val).vec.vq = x :: xs → (u.tile t.val).vec.run = [] →
    seedBlocked u t.val x = false →
    let v := { (u.tile t.val).vec with vq := xs }
    ∃ w, P x v w ∧ exec (.vectorStart t false) u = .next (started u t x w (res x v))

/-- Flags accumulate over the active elements (R178). -/
def flagsOver (c : VCsr) (act : List Nat) (f : Nat → Fx) : VCsr :=
  { c with nv := c.nv || act.any fun i => (f i).nv, dz := c.dz || act.any fun i => (f i).dz, of := c.of || act.any fun i => (f i).of
           uf := c.uf || act.any fun i => (f i).uf, nx := c.nx || act.any fun i => (f i).nx }

/-- `w` is the unit `v` in which, of the group that begins at `vd`, the active elements of `n` bytes have the values of `f` and
every other byte stands; the flags of `f` are accumulated (R169, R171, R178). -/
def Elements (act : List Nat) (v w : Vec) (vd : Reg) (n : Nat) (f : Nat → Nat × Fx) : Prop :=
  (∀ i ∈ act, w.el vd n i = (f i).1 % 256 ^ n) ∧
  (∀ b, (∀ i ∈ act, b < 2048 * vd.toNat + i * n ∨ 2048 * vd.toNat + i * n + n ≤ b) → aget 0 w.vregs b = aget 0 v.vregs b) ∧
  w = { v with vregs := w.vregs, csr := flagsOver v.csr act fun i => (f i).2 }

/-- `w` is the unit `v` in which the active bits of mask register `md` have the values of `f`, and every other bit stands; a
write to m0 changes nothing (R169, R170, R178). -/
def MaskBits (act : List Nat) (v w : Vec) (md : Reg) (f : Nat → Bool × Fx) : Prop :=
  (∀ m i, m < 8 → i < 16384 → w.mask m i = if m = md.toNat ∧ m ≠ 0 ∧ i ∈ act then (f i).1 else v.mask m i) ∧
  w = { v with masks := w.masks, csr := flagsOver v.csr act fun i => (f i).2 }

/-- `t[p]` after `k` rounds of the loop of R184, and the flags of the operations that gave it. -/
def treeAt (op : Nat → Nat → Nat × Fx) (t : Nat → Nat) : Nat → Nat → Nat × Fx
  | 0, p => (t p, {})
  | k + 1, p =>
    let a := treeAt op t k p
    let b := treeAt op t k (p + 2 ^ k)
    let r := op a.1 b.1
    (r.1, r.2.or (a.2.or b.2))

/-- A register number is a multiple of the group (R166). -/
def aligned (c : VCfg) (m : Nat) (r : Reg) : Bool := r.toNat % (c.g * m) = 0

end Sys2Proof.Machine
end

