-- ==== Sys2Proof/WellFormed.lean ====
section
/-! DEFINITION. Which commands are well formed: the bounds that the spec sets on operands whose type is wider than they are. The meanings do not rely on it. -/

namespace Sys2Proof

/-- A code of `n` bits lies from `lo` to `hi`. -/
def codeIn (lo hi : Nat) {n : Nat} (c : BitVec n) : Bool := decide (lo ≤ c.toNat) && decide (c.toNat ≤ hi)

/-- A failed operation carries a Gallery fault code (R376). -/
def opResultOk : OpResult → Bool
  | .ok => true
  | .failed code _ => codeIn 1 16 code

/-- A failed remote read carries a Gallery fault code (R376). -/
def readRespOk : ReadResp → Bool
  | .data _ => true
  | .failed code => codeIn 1 16 code

/-- What a start can find beyond the state (R596): HDR, DIGEST, SIG, CFG, OWNER, FWSTART or NVM of an image; MEMTRAIN, ROMSELF
or REFCLK for both. -/
def startResultOk (r : StartResult) : Bool :=
  let image := fun (c : Option (BitVec 8)) => match c with
    | some k => codeIn 1 8 k && k ≠ 4
    | none => true
  image r.failA && image r.failB && (match r.common with | some k => codeIn 9 11 k | none => true)

/-- A command is well formed: `vchain` and `cmem`, whose layout has no scalar bit, hold s = 0 (R281); a victim line is a
tile's (R332); one step count a tile (R42); codes are those of R376, R512, R596 and R659; a fragment has 32 elements (R386);
a flit 256 bytes (R430); at most 8 host endpoints (R560); a piece lies within its message (R563); host
fields fit theirs (R569); a line is one of module memory (R22). -/
def Instr.wf : Instr → Bool
  | .lateStore c victim => (match c with | .tile _ => true | .svc _ => victim.isNone)
  | .paceWindow counts => decide (counts.length ≤ 256)
  | .vchain _ f _ => !f.s
  | .cmem _ f _ _ => !f.s
  | .operationEnd _ _ res => opResultOk res
  | .remoteRead _ _ len _ => decide (1 ≤ len)
  | .remoteWrite _ _ d _ => !d.bytes.isEmpty && (!d.add || decide (d.bytes.length ≤ 8))
  | .inboxReservation _ _ _ _ n hold _ => decide (0 < n) && decide (hold.length = n)
  | .inboxGrant _ _ _ slots => !slots.isEmpty
  | .fragment _ _ _ _ bytes _ => decide (bytes.length = 32)
  | .failureNotice _ code => codeIn 1 16 code
  | .flit _ _ payload _ => decide (payload.length = 244)
  | .seal _ f => decide (f.payload.length = 244)
  | .scrub line _ => decide (line * 128 < 0xF000000000)
  | .outcomeReport _ fail => (match fail with | some k => codeIn 1 17 k | none => true)
  | .helloI _ _ _ h => decide (h.eps.length ≤ 8) && decide (h.ek.length = 1568)
  | .data _ _ _ _ tag _ => decide (tag.length = 16)
  | .ack _ _ _ _ tag _ => decide (tag.length = 16)
  | .finishI _ pkts => pkts.all fun k => decide (k.tag.length = 16)
  | .close _ k => decide (k.tag.length = 16) || k.tag = []
  | .probe _ k => decide (k.tag.length = 16)
  | .read _ _ _ len => decide (len < 2 ^ 32)
  | .mailboxSend _ _ _ bytes => decide (bytes.length = 8)
  | .logRead _ _ _ count => decide (count < 2 ^ 32)
  | .powerGood r => startResultOk r
  | .restart r => startResultOk r
  | .fatal cause => codeIn 1 9 cause
  | .resetRelease r => startResultOk r
  | .remoteReadResponse _ _ _ res => readRespOk res
  | .inputReturn r => startResultOk r
  | .mov _ _ _ | .movi _ _ _ | .add _ _ | .sub _ _ | .adc _ _ | .sbc _ _ | .andR _ _ | .orR _ _ | .xorR _ _
  | .andn _ _ | .shl _ _ | .shr _ _ | .sar _ _ | .rol _ _ | .cmp _ _ _ | .cmpi _ _ _ | .mul _ _ | .mulh _ _
  | .mulhu _ _ | .div _ _ | .divu _ _ | .rem _ _ | .remu _ _ | .slt _ _ | .sltu _ _ | .minR _ _ | .maxR _ _
  | .minu _ _ | .maxu _ _ | .clz _ _ | .ctz _ _ | .popc _ _ | .bswap _ _ | .sext _ _ _ | .zextW _ _ | .addi _ _
  | .andi _ _ | .ori _ _ | .xori _ _ | .shli _ _ | .shri _ _ | .sari _ _ | .roli _ _ | .slti _ _ | .sltiu _ _
  | .lui _ _ _ | .lsh _ _ _ | .ld _ _ | .st _ _ | .ldspD _ _ _ | .stspD _ _ _ | .lineFill _ _ _ | .prefetch _ _
  | .bcc _ _ | .br _ _ | .jal _ _ | .jalr _ _ | .jr _ _ | .ret _ _ | .nop _ _ | .zloop _ _ _ _ | .smov _ _
  | .sset _ _ | .scmp _ _ | .ifl _ _ | .mfsr _ _ _ _ | .mtsr _ _ _ _ | .mset _ _ | .trap _ _ | .eret _ _ | .halt _ _
  | .waitq _ _ | .interrupt _ | .systemRegisterMirrorWrite _ _ _ | .tileT0arm _ _ | .tileT0can _ _
  | .timer0EntryExpiry _ _ | .prof _ | .tileProf _ _ | .wdog _ | .tileT1ctl _ _ | .tileLsecnt _ _ | .tilePaceClr _ _
  | .tileTcorrCtl _ _ | .referenceClockLoss _ | .ppsEdge | .ppsLost | .ptpEventMessage _ _ | .hinit _ _ | .habs _ _
  | .habsm _ _ | .hfin _ _ | .hsqz _ _ | .hsave _ _ | .hrest _ _ | .vcfg _ _ | .vectorStart _ _
  | .vectorDataFault _ _ _ _ | .vld _ _ | .vst _ _ | .vfadd _ _ | .vfsub _ _ | .vfmul _ _ | .vfdiv _ _ | .vfmin _ _
  | .vfmax _ _ | .vfsqrt _ _ | .vfneg _ _ | .vfabs _ _ | .vcvtFI _ _ | .vcvtIF _ _ | .vfwcvt _ _ | .vfncvt _ _
  | .vfma _ _ | .vfms _ _ | .vfnma _ _ | .vfnms _ _ | .vadd _ _ | .vsub _ _ | .vmul _ _ | .vmulh _ _ | .vmulhu _ _
  | .vand _ _ | .vor _ _ | .vxor _ _ | .vandn _ _ | .vshl _ _ | .vshr _ _ | .vsar _ _ | .vmin _ _ | .vmax _ _
  | .vminu _ _ | .vmaxu _ _ | .vfcmpeq _ _ | .vfcmplt _ _ | .vfcmple _ _ | .vfcmpun _ _ | .vcmpeq _ _ | .vcmpne _ _
  | .vcmplt _ _ | .vcmpltu _ _ | .vcmple _ _ | .vcmpleu _ _ | .mand _ _ | .mor _ _ | .mxor _ _ | .mandn _ _
  | .vpopc _ _ | .vfirst _ _ | .vredsum _ _ | .vredmin _ _ | .vredmax _ _ | .vredminu _ _ | .vredmaxu _ _
  | .vfredsum _ _ | .vfredmin _ _ | .vfredmax _ _ | .vslideup _ _ | .vslidedown _ _ | .vrgather _ _ | .vmerge _ _
  | .vwmul _ _ | .vwmulu _ _ | .vfwmul _ _ | .vdotI8 _ _ | .vdotE4m3 _ _ | .vdotE4m3e5m2 _ _ | .vdotE5m2e4m3 _ _
  | .vdotE5m2 _ _ | .vdotB16 _ _ | .vdotF16 _ _ | .vmvVV _ _ | .vmvVX _ _ | .vmvXS _ _ | .vid _ _ | .cld _ _
  | .cst _ _ | .cseed _ _ | .rownorm _ _ _ | .mcfg _ _ | .mwld _ _ | .mpass _ _ | .mdrain _ _ | .mlda _ _
  | .msync _ _ | .cp0Start _ | .passFeedStart _ _ _ | .drainStart _ | .rampDown _ | .drainWriteFailure _ _ _
  | .mtxErr _ _ | .hdump _ _ _ _ | .hclr _ _ | .nclr _ | .histogramDumpEnd _ _ | .tileL1cfg _ _ _ | .waySplitChange _
  | .fence _ _ | .fenceW _ _ | .dcz _ _ | .dcwb _ _ | .dcinv _ _ | .amoadd _ _ _ | .amoswap _ _ _ | .amocas _ _ _
  | .amomin _ _ _ | .amomax _ _ _ | .amofaddF32 _ _ | .mergingBufferDrain _ | .movQbase _ _ _ | .movQtail _ _ _
  | .movQctlReset _ _ | .movQctlSkip _ _ | .movQctlResume _ _ | .copy _ _ | .skew _ _ | .gather _ _ | .scatter _ _
  | .zero _ _ | .i4x _ _ | .moverUnitRead _ _ _ | .descriptorCompletion _ _ | .gput _ _ | .gget _ _ | .gdispatch _ _
  | .greturn _ _ | .garm _ _ | .gibgat _ _ | .gallreduce _ _ | .greducescatter _ _ | .gallgather _ _ | .galltoall _ _
  | .gbarrier _ _ | .gjoin _ _ | .gbeacon _ _ | .gsync _ _ | .cp1Start _ | .remoteStoreAcknowledgement _ _
  | .reservationRepeat _ _ _ | .tokenRow _ _ _ _ _ | .headerAcknowledgement _ | .voidSlot _ _ _
  | .dispatchTimeout _ _ | .tripTimeout _ | .slotCompletion _ | .galIbcfg _ _ _ | .galIbptr _ _ _ | .galDirinv _
  | .directoryInvalidationEnd | .collectiveData _ _ _ _ _ | .joinHash _ _ _ | .beaconPeriod | .beacon _ _ _ _ _
  | .collectiveTimeout _ | .sealGroupClose _ | .ackTimer _ | .replay _ | .keyExchange _ _
  | .lossOfSignal _ _ | .retrain _ | .retrainEnd _ _ _ | .failedPortRetry _ | .routeTableRebuild | .refresh _ _ _
  | .thermalReading _ _ | .stackRetrain _ | .channelCopy _ | .fold _ _ | .nopCommand _ | .launch _ | .persist _
  | .pstop _ | .enq _ | .wait _ | .fenceReread _ | .waitTimeout _ | .signal _ | .gdef _ | .graphLaunch _ | .patch _
  | .reserve _ | .tileEnd _ | .commandTimeout _ | .kill _ | .commandReplay _ | .holdReport _ | .feQtail _ _
  | .feQbase _ _ | .feQctlAbort _ | .feQctlSkip _ | .feQctlResume _ | .feWaitsnap | .feTqpush _ _
  | .ethernetFrame _ _ | .autoNegotiation _ _ | .neighborDiscovery _ _ | .echoRequest _ _ _ _ | .lldpTimer _
  | .handshakeTimeout _ | .probeTimer _ | .sessionIdle _
  | .ezoriAckDelay _ | .retransmissionTimeout _ _ | .rateUpdate _ _ _ | .write _ _ _ _ _ | .doorbell _ _ _ _
  | .mailboxAck _ _ _ _ | .event _ _ | .attest _ _ _ | .featQuery _ _ | .featAccept _ _ _ | .mbData _ _ _
  | .mbSend _ _ | .mbAck _ _ | .dbset _ _ | .db _ _ | .dbMask _ _ | .release _ _ | .entropyTestFailure | .drbgReseed
  | .bypass | .idcode | .samplePreload _ _ | .extest | .tapReset | .powerFail | .railRemoval | .overvoltage
  | .lampGrant | .lampLineMove | .lampCfg _ | .lampDie _ _ | .junctionTemperature _ _ | .inputPower _
  | .dieCurrent _ _ | .throttleStep _ | .sounding _ _ | .moduleReset | .registerWrite _ _
  | .moverWriteFailure _ _ _ _ _ | .foldMoveCompletion _ | .thermtripLatchRelease | .referenceClockReturn _
  | .ptpSourceLoss | .galleryOperationTimeout _ _ | .tripIdReuse _ | .journalDeviceWriteEnd => true

end Sys2Proof
end

