-- ==== Sys2Proof/Certificates/Slice0/Obligations.lean ====
section
/-! DEFINITION. The statements about the model, for the provers. -/

open Sys2Proof Sys2Proof.Machine

/-- R68, R69, R73, R75, R77: additions, subtractions and comparisons in every form, with their flags and their frame.
The model's choices in it: log 2. -/
def Obligations.AddSubtract : Prop :=
  ∀ (c : CoreId) (s s1 : State),
    let k := s1.core c
    let cin : Nat := if k.fl.c then 1 else 0
    (∀ f, AluReady s c (aluArgs k f).srcs (aluLen f) s1 →
      let a := aluArgs k f
      exec (.add c f) s = .next (aluDone s1 c (aluLen f) a (a.x + a.y) (decide (2 ^ 64 ≤ a.x.toNat + a.y.toNat))
        (overflows (a.x.toInt + a.y.toInt))) ∧
      exec (.sub c f) s = .next (aluDone s1 c (aluLen f) a (a.x - a.y) (decide (a.y.toNat ≤ a.x.toNat))
        (overflows (a.x.toInt - a.y.toInt)))) ∧
    (∀ f, AluReady s c [f.rs1, f.rs2] 4 s1 { fl := true } →
      let a := lrArgs k f
      exec (.adc c f) s = .next (aluDone s1 c 4 a (a.x + a.y + BitVec.ofNat 64 cin)
        (decide (2 ^ 64 ≤ a.x.toNat + a.y.toNat + cin)) (overflows (a.x.toInt + a.y.toInt + cin)) { fl := true }) ∧
      exec (.sbc c f) s = .next (aluDone s1 c 4 a (a.x - a.y - BitVec.ofNat 64 (1 - cin))
        (decide (a.y.toNat + (1 - cin) ≤ a.x.toNat)) (overflows (a.x.toInt - a.y.toInt - (1 - cin : Nat))) { fl := true })) ∧
    (∀ f, AluReady s c (immArgs k f).srcs (immLen f) s1 →
      let a := immArgs k f
      exec (.addi c f) s = .next (aluDone s1 c (immLen f) a (a.x + a.y) (decide (2 ^ 64 ≤ a.x.toNat + a.y.toNat))
        (overflows (a.x.toInt + a.y.toInt)))) ∧
    (∀ rd rs, AluReady s c [rd, rs] 2 s1 →
      let x := k.reg rd
      let y := k.reg rs
      exec (.cmp c rd rs) s = .next (aluDone s1 c 2 ⟨0, [], x, y, true⟩ (x - y) (decide (y.toNat ≤ x.toNat))
        (overflows (x.toInt - y.toInt)))) ∧
    (∀ rd imm, AluReady s c [rd] 2 s1 →
      let x := k.reg rd
      let y : Word := imm.signExtend 64
      exec (.cmpi c rd imm) s = .next (aluDone s1 c 2 ⟨0, [], x, y, true⟩ (x - y) (decide (y.toNat ≤ x.toNat))
        (overflows (x.toInt - y.toInt))))

/-- R65, R68, R69, R73, R75, R77: moves, bitwise operations and the two instructions that build constants.
The model's choices in it: log 2. -/
def Obligations.MoveLogic : Prop :=
  ∀ (c : CoreId) (s s1 : State),
    let k := s1.core c
    (∀ rd rs, AluReady s c [rs] 2 s1 →
      exec (.mov c rd rs) s = .next (aluDone s1 c 2 ⟨rd, [], k.reg rs, 0, true⟩ (k.reg rs) false false)) ∧
    (∀ rd (imm : Imm5), AluReady s c [] 2 s1 →
      exec (.movi c rd imm) s = .next (aluDone s1 c 2 ⟨rd, [], 0, 0, true⟩ (imm.signExtend 64) false false)) ∧
    (∀ f, AluReady s c (aluArgs k f).srcs (aluLen f) s1 →
      let a := aluArgs k f
      exec (.andR c f) s = .next (aluDone s1 c (aluLen f) a (a.x &&& a.y) false false) ∧
      exec (.orR c f) s = .next (aluDone s1 c (aluLen f) a (a.x ||| a.y) false false) ∧
      exec (.xorR c f) s = .next (aluDone s1 c (aluLen f) a (a.x ^^^ a.y) false false)) ∧
    (∀ f, AluReady s c [f.rs1, f.rs2] 4 s1 →
      let a := lrArgs k f
      exec (.andn c f) s = .next (aluDone s1 c 4 a (a.x &&& ~~~a.y) false false)) ∧
    (∀ f, AluReady s c [f.rs1] 4 s1 →
      let a := liArgs k f
      exec (.andi c f) s = .next (aluDone s1 c 4 a (a.x &&& f.imm.signExtend 64) false false) ∧
      exec (.ori c f) s = .next (aluDone s1 c 4 a (a.x ||| f.imm.signExtend 64) false false) ∧
      exec (.xori c f) s = .next (aluDone s1 c 4 a (a.x ^^^ f.imm.signExtend 64) false false)) ∧
    (∀ rd (imm : Imm20), AluReady s c [] 4 s1 →
      exec (.lui c rd imm) s = .next (retired (markPassed s1 c) c 4 1 fun k => k.setReg rd (BitVec.ofInt 64 (imm.toInt * 2 ^ 14)))) ∧
    (∀ rd (imm : Imm20), AluReady s c [rd] 4 s1 →
      exec (.lsh c rd imm) s =
        .next (retired (markPassed s1 c) c 4 1 fun k => k.setReg rd (BitVec.ofNat 64 (((s1.core c).reg rd).toNat * 2 ^ 20) ||| BitVec.ofNat 64 imm.toNat)))

/-- R69, R73, R75, R77: shifts and rotates in every form.
The model's choices in it: log 2. -/
def Obligations.Shifts : Prop :=
  let left := fun (x : Word) (n : Nat) => BitVec.ofNat 64 (x.toNat * 2 ^ n)
  let right := fun (x : Word) (n : Nat) => BitVec.ofNat 64 (x.toNat / 2 ^ n)
  let arith := fun (x : Word) (n : Nat) => BitVec.ofInt 64 (x.toInt / 2 ^ n)
  let rot := fun (x : Word) (n : Nat) => left x n ||| right x (64 - n)
  ∀ (c : CoreId) (s s1 : State),
    let k := s1.core c
    (∀ f, AluReady s c (aluArgs k f).srcs (aluLen f) s1 →
      let a := aluArgs k f
      let n := a.y.toNat % 64
      exec (.shl c f) s = .next (aluDone s1 c (aluLen f) a (left a.x n) false false) ∧
      exec (.shr c f) s = .next (aluDone s1 c (aluLen f) a (right a.x n) false false) ∧
      exec (.sar c f) s = .next (aluDone s1 c (aluLen f) a (arith a.x n) false false)) ∧
    (∀ f, AluReady s c [f.rs1, f.rs2] 4 s1 →
      let a := lrArgs k f
      exec (.rol c f) s = .next (aluDone s1 c 4 a (rot a.x (a.y.toNat % 64)) false false)) ∧
    (∀ f, AluReady s c (shiftArgs k f).srcs (shiftLen f) s1 → shiftLegal f = true →
      let a := shiftArgs k f
      let n := a.y.toNat
      exec (.shli c f) s = .next (aluDone s1 c (shiftLen f) a (left a.x n) false false) ∧
      exec (.shri c f) s = .next (aluDone s1 c (shiftLen f) a (right a.x n) false false) ∧
      exec (.sari c f) s = .next (aluDone s1 c (shiftLen f) a (arith a.x n) false false)) ∧
    (∀ f : LISh, AluReady s c [f.rs1] 4 s1 → f.mbz = 0 →
      let a := shLong k f
      exec (.roli c f) s = .next (aluDone s1 c 4 a (rot a.x f.amt.toNat) false false)) ∧
    (∀ f : LISh, AluReady s c [f.rs1] 4 s1 → Quiet s1 c → f.mbz ≠ 0 →
      let t := Host.Outcome.next (faulted s1 c { code := cIllegal })
      exec (.shli c (.long f)) s = t ∧ exec (.shri c (.long f)) s = t ∧ exec (.sari c (.long f)) s = t ∧ exec (.roli c f) s = t)

/-- R69, R77, R78: multiplication and division on every operand.
The model's choices in it: logs 2, 94. -/
def Obligations.MultiplyDivide : Prop :=
  ∀ (c : CoreId) (s s1 : State),
    let k := s1.core c
    (∀ f, AluReady s c (aluArgs k f).srcs (aluLen f) s1 { lat := 3 } →
      let a := aluArgs k f
      exec (.mul c f) s = .next (aluDone s1 c (aluLen f) a (BitVec.ofInt 64 (a.x.toInt * a.y.toInt)) false
        (overflows (a.x.toInt * a.y.toInt)) { lat := 3 })) ∧
    (∀ f, AluReady s c [f.rs1, f.rs2] 4 s1 { lat := 3 } →
      let a := lrArgs k f
      let fin := fun (i : Instr) (r : Word) => exec i s = .next (aluDone s1 c 4 a r false false { lat := 3 })
      fin (.mulh c f) (BitVec.ofInt 64 (a.x.toInt * a.y.toInt / 2 ^ 64)) ∧
      fin (.mulhu c f) (BitVec.ofNat 64 (a.x.toNat * a.y.toNat / 2 ^ 64))) ∧
    (∀ f, AluReady s c [f.rs1, f.rs2] 4 s1 { lat := 34, div := true } →
      let a := lrArgs k f
      let x := a.x
      let y := a.y
      let fin := fun (i : Instr) (r : Word) (v : Bool) => exec i s = .next (aluDone s1 c 4 a r false v { lat := 34, div := true })
      (y = 0 → fin (.div c f) (BitVec.allOnes 64) true ∧ fin (.divu c f) (BitVec.allOnes 64) true ∧
        fin (.rem c f) x true ∧ fin (.remu c f) x true) ∧
      (x.toInt = -(2 ^ 63) → y.toInt = -1 → fin (.div c f) x true ∧ fin (.rem c f) 0 true) ∧
      (y ≠ 0 → ¬(x.toInt = -(2 ^ 63) ∧ y.toInt = -1) →
        fin (.div c f) (BitVec.ofInt 64 (x.toInt.tdiv y.toInt)) false ∧ fin (.rem c f) (BitVec.ofInt 64 (x.toInt.tmod y.toInt)) false) ∧
      (y ≠ 0 → fin (.divu c f) (BitVec.ofNat 64 (x.toNat / y.toNat)) false ∧ fin (.remu c f) (BitVec.ofNat 64 (x.toNat % y.toNat)) false))

/-- R69, R75, R76, R77: comparisons that give a value, minimum and maximum, and the unary operations, whose rs2 must be s0.
The model's choices in it: log 2. -/
def Obligations.SelectAndCount : Prop :=
  ∀ (c : CoreId) (s s1 : State),
    let k := s1.core c
    (∀ f, AluReady s c [f.rs1, f.rs2] 4 s1 →
      let a := lrArgs k f
      let x := a.x
      let y := a.y
      let fin := fun (i : Instr) (r : Word) => exec i s = .next (aluDone s1 c 4 a r false false)
      fin (.slt c f) (if x.toInt < y.toInt then 1 else 0) ∧ fin (.sltu c f) (if x.toNat < y.toNat then 1 else 0) ∧
      fin (.minR c f) (BitVec.ofInt 64 (min x.toInt y.toInt)) ∧ fin (.maxR c f) (BitVec.ofInt 64 (max x.toInt y.toInt)) ∧
      fin (.minu c f) (BitVec.ofNat 64 (min x.toNat y.toNat)) ∧ fin (.maxu c f) (BitVec.ofNat 64 (max x.toNat y.toNat)) ∧
      (f.rs2 = 0 →
        fin (.clz c f) (BitVec.ofNat 64 ((List.range 64).takeWhile fun i => !x.getLsbD (63 - i)).length) ∧
        fin (.ctz c f) (BitVec.ofNat 64 ((List.range 64).takeWhile fun i => !x.getLsbD i).length) ∧
        fin (.popc c f) (BitVec.ofNat 64 ((List.range 64).filter x.getLsbD).length) ∧
        fin (.sext c .b f) ((x.setWidth 8).signExtend 64) ∧ fin (.sext c .h f) ((x.setWidth 16).signExtend 64) ∧
        fin (.sext c .w f) ((x.setWidth 32).signExtend 64) ∧ fin (.zextW c f) ((x.setWidth 32).setWidth 64) ∧
        ∃ r : Word, (∀ i < 8, r.extractLsb' (8 * i) 8 = x.extractLsb' (8 * (7 - i)) 8) ∧ fin (.bswap c f) r)) ∧
    (∀ f, AluReady s c [f.rs1] 4 s1 →
      let a := liArgs k f
      let y : Word := f.imm.signExtend 64
      exec (.slti c f) s = .next (aluDone s1 c 4 a (if a.x.toInt < y.toInt then 1 else 0) false false) ∧
      exec (.sltiu c f) s = .next (aluDone s1 c 4 a (if a.x.toNat < y.toNat then 1 else 0) false false)) ∧
    (∀ f : LR, AluReady s c [f.rs1, f.rs2] 4 s1 → Quiet s1 c → f.rs2 ≠ 0 →
      ∀ i ∈ [Instr.clz c f, .ctz c f, .popc c f, .bswap c f, .sext c .b f, .sext c .h f, .sext c .w f, .zextW c f],
        exec i s = .next (faulted s1 c { code := cIllegal }))

/-- R73, R79, R111, R323: loads, in every form and width.
The model's choices in it: logs 2, 10, 79. -/
def Obligations.Loads : Prop :=
  (∀ (n : Nat) (x : Word), 0 < n → n ≤ 8 →
    extend true (toBytes n x.toNat) = (x.setWidth (8 * n)).signExtend 64 ∧ extend false (toBytes n x.toNat) = (x.setWidth (8 * n)).setWidth 64) ∧
  ∀ (c : CoreId) (s s1 : State) (i : Instr) (len : Nat) (a : LdArgs),
    ((∃ f, i = .ld c f ∧ len = ldLen f ∧ a = ldArgs (s1.core c) f ∧ Ready s c [ldBase f] len s1) ∨
      (∃ rd imm, i = .ldspD c rd imm ∧ len = 2 ∧ a = ⟨rd, (s1.core c).reg 31 + BitVec.ofNat 64 (8 * imm.toNat), 8, true⟩ ∧
        Ready s c [31] 2 s1)) →
    (∀ bs, winTrap s1 c a.addr a.size rightR cLoadWin = none → isRemote s1 a.addr = false →
      (dataRead s1 c a.addr a.size).2 = .ok bs →
      exec i s = .next (completed s1 c len 1 fun s =>
        loadOwe ((dataRead s c a.addr a.size).1.setReg c a.rt (extend a.signed bs)) c a.rt (loadHit s c a.addr a.size))) ∧
    (∀ (t : TileId) (off : Nat), c = .tile t → a.addr = BitVec.ofNat 64 (0xFC00000000 + off) →
      winTrap s1 c a.addr a.size rightR cLoadWin = none → off % 128 + a.size ≤ 128 → off + a.size ≤ min 0x80000 (scratchBytes s1 t.val) →
      (∀ b ∈ (s1.tile t.val).l1.bad, ¬(off ≤ b ∧ b < off + a.size)) → (s1.core c).sbuf = [] →
      exec i s = .next (retired s1 c len 1 fun k =>
        (k.setReg a.rt (extend a.signed (readBytes (s1.tile t.val).l1.scratch off a.size))).owe a.rt.toNat 2)) ∧
    (∀ t, Quiet s1 c → winTrap s1 c a.addr a.size rightR cLoadWin = some t →
      t.code = 0x05 ∧ exec i s = .next (faulted s1 c t))

/-- R73, R79, R111, R145, R323: stores, in every form and width; the store buffer holds what is stored (R145).
The model's choices in it: logs 2, 10, 78. -/
def Obligations.Stores : Prop :=
  ∀ (c : CoreId) (s s1 : State) (i : Instr) (len : Nat) (a : StArgs),
    ((∃ f, i = .st c f ∧ len = stLen f ∧ a = stArgs (s1.core c) f ∧ Ready s c (stRegs f) len s1) ∨
      (∃ rd imm, i = .stspD c rd imm ∧ len = 2 ∧
        a = ⟨(s1.core c).reg rd, (s1.core c).reg 31 + BitVec.ofNat 64 (8 * imm.toNat), 8⟩ ∧ Ready s c [rd, 31] 2 s1)) →
    let bs := toBytes a.size a.val.toNat
    (winTrap s1 c a.addr a.size rightW cStoreWin = none → (storeReady s1 c a.addr a.size).2 = true →
      exec i s = .next (completed s1 c len 1 fun s => dataWrite (bufferStall (storeReady s c a.addr a.size).1 c) c a.addr bs)) ∧
    (∀ (t : TileId) (off : Nat), c = .tile t → a.addr = BitVec.ofNat 64 (0xFC00000000 + off) →
      winTrap s1 c a.addr a.size rightW cStoreWin = none → off % 128 + a.size ≤ 128 →
      off + a.size ≤ min 0x80000 (scratchBytes s1 t.val) → (s1.core c).sbuf.length < 8 →
      exec i s = .next (retired s1 c len 1 fun k => { k with
        sbuf := k.sbuf ++ [⟨BitVec.ofNat 64 (0xFD00000000 + t.val * 0x100000 + off), (List.range a.size).zip bs, .store⟩] })) ∧
    (∀ t, Quiet s1 c → winTrap s1 c a.addr a.size rightW cStoreWin = some t →
      t.code = 0x06 ∧ exec i s = .next (faulted s1 c t))

/-- R71, R73, R75, R76, R80, R81, R88: branches, jumps and nop.
The model's choices in it: logs 2, 7. -/
def Obligations.Branches : Prop :=
  (∀ f : Flags, (List.range 14).map (fun n => condHolds (BitVec.ofNat 4 n) f) =
    [f.z, !f.z, f.c, !f.c, f.n, !f.n, f.v, !f.v, f.c && !f.z, !f.c || f.z, f.n == f.v, f.n != f.v, !f.z && f.n == f.v,
      f.z || f.n != f.v]) ∧
  ∀ (c : CoreId) (s s1 : State),
    let k := s1.core c
    let go := fun (i : Instr) (a : Word) (f : Core → Core) =>
      (a.getLsbD 0 = false → exec i s = .next (jumped s1 c a f)) ∧
      (a.getLsbD 0 = true → Quiet s1 c → exec i s = .next (faulted s1 c { code := cIalign, addr := a }))
    let bad := fun (i : Instr) => Quiet s1 c → exec i s = .next (faulted s1 c { code := cIllegal })
    (∀ f, Ready s c [] (bccLen f) s1 [keyFl] →
      ((bccCond f).toNat < 14 → condHolds (bccCond f) k.fl = true → go (.bcc c f) (k.pc + bccDisp f) id) ∧
      ((bccCond f).toNat < 14 → condHolds (bccCond f) k.fl = false → exec (.bcc c f) s = .next (retired s1 c (bccLen f) 1 id)) ∧
      (14 ≤ (bccCond f).toNat → bad (.bcc c f))) ∧
    (∀ d : Imm10, Ready s c [] 2 s1 → go (.br c d) (k.pc + BitVec.ofInt 64 (2 * d.toInt)) id) ∧
    (∀ d : Imm25, Ready s c [] 4 s1 →
      go (.jal c d) (k.pc + BitVec.ofInt 64 (2 * d.toInt)) fun k' => k'.setReg 30 (k.pc + 4)) ∧
    (∀ rs, Ready s c [rs] 2 s1 →
      go (.jalr c (.short rs)) (k.reg rs) (fun k' => k'.setReg 30 (k.pc + 2)) ∧ go (.jr c rs) (k.reg rs) id) ∧
    (∀ f : LI, Ready s c [f.rs1] 4 s1 →
      (f.f = false → go (.jalr c (.long f)) (k.reg f.rs1 + BitVec.ofInt 64 (2 * f.imm.toInt)) fun k' => k'.setReg f.rd (k.pc + 4)) ∧
      (f.f = true → bad (.jalr c (.long f)))) ∧
    (∀ rs : Reg, Ready s c [30] 2 s1 → (rs = 0 → go (.ret c rs) (k.reg 30) id) ∧ (rs ≠ 0 → bad (.ret c rs))) ∧
    (∀ rs : Reg, Ready s c [] 2 s1 →
      (rs = 0 → exec (.nop c rs) s = .next (retired s1 c 2 1 id)) ∧ (rs ≠ 0 → bad (.nop c rs)))

/-- R85 to R89: `zloop`, and the loop-end test, for every nesting.
The model's choices in it: logs 2, 19, 95. -/
def Obligations.HardwareLoops : Prop :=
  (∀ (k : Core) (a : Word) (len : Nat),
    let k' := goNext k a len
    let LC := aget 0 k.lc
    let LE := aget 0 k.le
    k' = { k with pc := k'.pc, lc := k'.lc, fwin := k'.fwin } ∧
    (∀ i < 4, 1 < (LC i).toNat → LE i = a → (∀ j, i < j → j < 4 → LE j = a → (LC j).toNat ≤ 1) →
      k'.pc = aget 0 k.ls i ∧ k'.fwin = none ∧
      ∀ j, aget 0 k'.lc j = if j = i then LC i - 1 else if i < j ∧ j < 4 ∧ LE j = a then 0 else LC j) ∧
    ((∀ j < 4, LE j = a → (LC j).toNat ≤ 1) →
      k'.pc = a + BitVec.ofNat 64 len ∧ k'.fwin = k.fwin ∧ ∀ j, aget 0 k'.lc j = if j < 4 ∧ LE j = a then 0 else LC j)) ∧
  ∀ (c : CoreId) (s s1 : State) (i : LoopNo) (rs : Reg) (off : Imm18), Ready s c [rs] 4 s1 →
    let k := s1.core c
    let start := BitVec.ofNat 64 ((k.pc + 4).toNat % 2 ^ 40 / 2 * 2)
    let last := BitVec.ofNat 64 ((k.pc + 4 + BitVec.ofNat 64 (2 * off.toNat)).toNat % 2 ^ 40 / 2 * 2)
    let n := BitVec.ofNat 64 ((k.reg rs).toNat % 2 ^ 32)
    let f := fun k : Core => { k with ls := aset 0 k.ls i.toNat start, le := aset 0 k.le i.toNat last, lc := aset 0 k.lc i.toNat n }
    (n ≠ 0 → exec (.zloop c i rs off) s = .next (retired s1 c 4 1 f)) ∧
    (n = 0 → let r := lengthAt (s1.updCore c f) c last
      (r.2 = 2 ∨ r.2 = 4 ∨ r.2 = 6) ∧ exec (.zloop c i rs off) s = .next (jumped r.1 c (last + BitVec.ofNat 64 r.2) id))

/-- R93 to R97, R107: the string instructions and `ifl`.
The model's choices in it: logs 2, 78. -/
def Obligations.Strings : Prop :=
  (∀ n ∈ [1, 2, 4, 8], ∀ a < 2 ^ (8 * n), ∀ b < 2 ^ (8 * n), elemFlags n a b =
    { n := decide (2 ^ (8 * n - 1) ≤ (a + 2 ^ (8 * n) - b) % 2 ^ (8 * n)), z := decide (a = b), c := decide (b ≤ a),
      v := decide (toInt (8 * n) a - toInt (8 * n) b < -(2 ^ (8 * n - 1)) ∨ 2 ^ (8 * n - 1) ≤ toInt (8 * n) a - toInt (8 * n) b) }) ∧
  ∀ (c : CoreId) (s s1 : State),
    let k := s1.core c
    (∀ f : StrForm, Ready s c [1, 2, 3] (if f.rep then 6 else 4) s1 →
      let len := if f.rep then 6 else 4
      let n := 2 ^ f.sz.toNat
      let step := fun (both : Bool) (k : Core) =>
        let k := k.setReg 1 (k.reg 1 + BitVec.ofNat 64 n)
        let k := if both then k.setReg 2 (k.reg 2 + BitVec.ofNat 64 n) else k
        { k.setReg 3 (k.reg 3 - 1) with strData := [] }
      let same := fun (k : Core) => k.setFl { n := false, z := true, c := true, v := false }
      (f.mbz ≠ 0 → Quiet s1 c → ∀ i ∈ [Instr.smov c f, .sset c f, .scmp c f],
        exec i s = .next (faulted s1 c { code := cIllegal })) ∧
      (f.mbz = 0 → k.reg 3 = 0 →
        exec (.smov c f) s = .next (retired s1 c len (if f.rep then 2 else 3) id) ∧
        exec (.sset c f) s = .next (retired s1 c len (if f.rep then 2 else 3) id) ∧
        exec (.scmp c f) s = .next (retired s1 c len (if f.rep then 2 else 3) same)) ∧
      (f.mbz = 0 → f.rep = false → k.reg 3 ≠ 0 →
        (strPerm .set n s1 c = none → storeReady s1 c (k.reg 1) n = (s1, true) →
          exec (.sset c f) s = .next (finished ((dataWrite s1 c (k.reg 1) (toBytes n (k.reg 2).toNat)).updCore c (step false)) c k.pc 4 3)) ∧
        (∀ s3 bs, strPerm .mov n s1 c = none → storeReady s1 c (k.reg 1) n = (s1, true) →
          strLoad s1 c (k.reg 2) n = (s3, .ok bs) → s3.reg c 1 = k.reg 1 →
          exec (.smov c f) s = .next (finished ((dataWrite s3 c (k.reg 1) bs).updCore c (step true)) c k.pc 4 3)) ∧
        (∀ s3 s4 x y, strPerm .cmp n s1 c = none → strLoad s1 c (k.reg 1) n = (s3, .ok x) → strLoad s3 c (k.reg 2) n = (s4, .ok y) →
          (x = y → exec (.scmp c f) s = .next (finished (s4.updCore c fun k => same (step true k)) c k.pc 4 3)) ∧
          (x ≠ y → exec (.scmp c f) s = .next (finished
            (s4.updCore c fun k => ({ k with strData := [] } : Core).setFl (elemFlags n (ofBytes x) (ofBytes y))) c k.pc 4 3)))) ∧
      (∀ op i s3 m, (op, i) ∈ [(StrOp.mov, Instr.smov c f), (.set, .sset c f)] → f.mbz = 0 → f.rep = true → f.upTo = none →
        strRun op n c (k.reg 3).toNat s1 0 = (s3, .more, m) → s3.reg c 3 = 0 →
        exec i s = .next (finished s3 c k.pc 6 (2 + m)))) ∧
    (Ready s c [] 2 s1 → exec (.ifl c (.short 0)) s = .next (completed s1 c 2 12 fun s =>
      (drainAll faddF32 s c).updCore c fun k => { k with icache := [], fwin := none })) ∧
    (∀ g : LR, Ready s c [g.rs1, g.rs2] 4 s1 → g.rd = 0 → g.f = false →
      let a := k.reg g.rs1
      let b := (k.reg g.rs2).toNat
      exec (.ifl c (.long g)) s = .next (completed s1 c 4 (11 + (if b = 0 then 1 else (a.toNat % 128 + b + 127) / 128)) fun s =>
        iflRange (drainAll faddF32 s c) c a b))

/-- R66, R82, R85, R110, R115 to R117, R157 to R160, R164: reads and writes of the system and special registers.
The model's choices in it: logs 2, 20, 21, 22. -/
def Obligations.SystemRegisters : Prop :=
  (∀ (s : State) (c : CoreId), let k := s.core c
    srRead s c 0x101 = k.epc ∧ srRead s c 0x102 = k.ecause ∧ srRead s c 0x103 = k.eaddr ∧ srRead s c 0x104 = k.evec ∧
    srRead s c 0x105 = k.ksp ∧ srRead s c 0x106 = k.bsvec ∧ srRead s c 0x10A = k.lse ∧
    ∀ i < 4, srRead s c (0x10 + i) = aget 0 k.ls i ∧ srRead s c (0x14 + i) = aget 0 k.le i ∧ srRead s c (0x18 + i) = aget 0 k.lc i ∧
      srRead s c (0x134 + i) = BitVec.ofNat 64 (aget {} k.t0 i).deadline) ∧
  ∀ (c : CoreId) (s s1 : State),
    let k := s1.core c
    let bad := fun (i : Instr) (code : Nat) => Quiet s1 c → exec i s = .next (faulted s1 c { code := code })
    (∀ rd (sr : SrNo), Ready s c [] 4 s1 (if sr.toNat = 0 then [keyFl] else []) →
      (srFault k (srClass c sr.toNat) sr.toNat false = none →
        exec (.mfsr c rd sr false) s = .next (retired s1 c 4 1 fun k' => k'.setReg rd (srRead s1 c sr.toNat))) ∧
      (srClass c sr.toNat = .none → bad (.mfsr c rd sr false) 0x01) ∧ bad (.mfsr c rd sr true) 0x01 ∧
      (srClass c sr.toNat = .kernel → k.status.lvl = false → bad (.mfsr c rd sr false) 0x03)) ∧
    (∀ rs (sr : SrNo), Ready s c [rs] 4 s1 →
      let w := k.reg rs
      (srClass c sr.toNat = .none → bad (.mtsr c sr rs false) 0x01) ∧ bad (.mtsr c sr rs true) 0x01 ∧
      (srClass c sr.toNat = .kernel → k.status.lvl = false → bad (.mtsr c sr rs false) 0x03) ∧
      (k.status.lvl = false → srClass c sr.toNat = .taskRead → sr ≠ 0x100 → bad (.mtsr c sr rs false) 0x03) ∧
      (sr = 0x100 → bad (.mtsr c sr rs false) 0x01) ∧
      (sr = 0 → exec (.mtsr c sr rs false) s = .next (retired s1 c 4 3 fun k' =>
        k'.setFl { n := wbit w 3, z := wbit w 2, c := wbit w 1, v := wbit w 0 })) ∧
      (∀ i < 4, (sr.toNat = 0x10 + i → exec (.mtsr c sr rs false) s =
          .next (retired s1 c 4 3 fun k' => { k' with ls := aset 0 k'.ls i (w &&& 0xFFFFFFFFFE) })) ∧
        (sr.toNat = 0x14 + i → exec (.mtsr c sr rs false) s =
          .next (retired s1 c 4 3 fun k' => { k' with le := aset 0 k'.le i (w &&& 0xFFFFFFFFFE) })) ∧
        (sr.toNat = 0x18 + i → exec (.mtsr c sr rs false) s =
          .next (retired s1 c 4 3 fun k' => { k' with lc := aset 0 k'.lc i (w &&& 0xFFFFFFFF) }))) ∧
      (k.status.lvl = true →
        (sr = 0x104 → exec (.mtsr c sr rs false) s = .next (retired s1 c 4 3 fun k' => { k' with evec := w &&& ~~~(0x1FF#64) })) ∧
        (sr = 0x105 → exec (.mtsr c sr rs false) s = .next (retired s1 c 4 3 fun k' => { k' with ksp := w })) ∧
        (sr = 0x106 → exec (.mtsr c sr rs false) s = .next (retired s1 c 4 3 fun k' => { k' with bsvec := w &&& ~~~(0x3F#64) })) ∧
        (sr = 0x109 → exec (.mtsr c sr rs false) s = .next (retired s1 c 4 3 fun k' => { k' with ien := w.setWidth 7 &&& 0x7E })) ∧
        (sr = 0x108 → exec (.mtsr c sr rs false) s = .next (retired s1 c 4 3 fun k' => { k' with
          ipWdog := k'.ipWdog && !wbit w 6, ipLst := k'.ipLst && !wbit w 5, ipFe := k'.ipFe && !wbit w 4,
          ipProf := k'.ipProf && !wbit w 1 })) ∧
        (∀ t, c = .tile t → sr.toNat ∈ [0x180, 0x181, 0x182] → exec (.mtsr c sr rs false) s =
          .next (completed s1 c 4 3 fun s => s.updTile t.val fun x => { x with vec := vecWrite x.vec sr.toNat w })) ∧
        (∀ i < 16, (sr.toNat = 0x110 + 2 * i → exec (.mtsr c sr rs false) s =
            .next (retired s1 c 4 3 fun k' => { k' with pwinLo := aset 0 k'.pwinLo i (w &&& 0xFFFFFFFF9F) })) ∧
          (sr.toNat = 0x111 + 2 * i → exec (.mtsr c sr rs false) s =
            .next (retired s1 c 4 3 fun k' => { k' with pwinHi := aset 0 k'.pwinHi i (w &&& 0xFFFFFFFF80) }))) ∧
        exec (.tileT1ctl c rs) s = .next (retired s1 c 4 3 fun k' => t1write k' s1.mono w) ∧
        exec (.tileProf c rs) s = .next (retired s1 c 4 3 fun k' => { k' with
          profEn := wbit w 0, profPeriod := w.extractLsb' 8 24, profMissed := if wbit w 0 then k'.profMissed else 0 }) ∧
        exec (.tileLsecnt c rs) s = .next (retired s1 c 4 3 fun k' => { k' with lse := 0, lseKind := 0, lseMore := 0 })) ∧
      (∀ i < 4, (∀ j < i, (aget {} k.t0 j).busy = true) → (aget {} k.t0 i).busy = false → s1.mono < w.toNat →
        exec (.tileT0arm c rs) s = .next (retired s1 c 4 3 fun k' => { k' with
          t0 := aput k'.t0 i { aget {} k'.t0 i with busy := true, waitq := false, deadline := w.toNat } })) ∧
      ((∀ j < 4, (aget {} k.t0 j).busy = true) → bad (.tileT0arm c rs) 0x0C) ∧
      exec (.tileT0can c rs) s = .next (retired s1 c 4 3 fun k' => t0cancel k' w)) ∧
    (∀ (t : TileId) (sr : SrNo) (w : Word), s.power = .run → (s.tile t.val).oos = false →
      ((s.core (.tile t)).run = .halted → (s.tile t.val).paused = false → (s.feTile t.val).state ≠ .draining → sr = 0x104 →
        exec (.systemRegisterMirrorWrite t sr w) s = .next (s.updCore (.tile t) fun k' => { k' with evec := w &&& ~~~(0x1FF#64) })) ∧
      ((s.core (.tile t)).run = .running ∨ (s.tile t.val).paused = true ∨ (s.feTile t.val).state = .draining → exec (.systemRegisterMirrorWrite t sr w) s = .next s))

/-- R122 to R133, R140, R150: traps, entry into a handler, return, `mset`, `halt` and interrupts.
The model's choices in it: logs 11, 12, 13, 14, 25, 92. -/
def Obligations.TrapsAndModes : Prop :=
  (∀ (s : State) (t : TileId) (tr : Trap) (epc : Word) (off : Nat),
    let c : CoreId := .tile t
    let k := s.core c
    let frame := ((if k.status.lvl then k.reg 31 else k.ksp) - 128) &&& ~~~(0x7F#64)
    FrameIn s t off → k.status.bs = false → k.status.ml ≠ 7 → k.status.lvl = true → tr.code ≠ 0x09 →
      takeFault s c tr epc = entryTo s t 7 tr epc frame off) ∧
  (∀ (c : CoreId) (s s1 : State) (f : LR),
    let k := s1.core c
    (Ready s c [f.rs1] 4 s1 → f.rd = 0 → f.rs2 = 0 → f.f = false →
      exec (.trap c f) s = .next (takeFault s1 c { code := 0x0B, addr := k.reg f.rs1 } (k.pc + 4))) ∧
    (Ready s c [f.rs1, f.rs2] 4 s1 → f.f = false → k.status.lvl = true → k.reg f.rs2 &&& ~~~(0x71#64) = 0 →
      exec (.mset c f) s = .next (retired s1 c 4 3 fun k' =>
        let m := k.reg f.rs2
        let w := (k.status.word &&& ~~~m) ||| (k.reg f.rs1 &&& m)
        { k' with status := { k.status with ml := BitVec.ofNat 3 (w.toNat / 16 % 8), lvl := w.getLsbD 0 }, fwin := none }.setReg f.rd k.status.word)) ∧
    (Ready s c [f.rs1, f.rs2] 4 s1 → Quiet s1 c → f.f = false → k.reg f.rs2 &&& ~~~(0x71#64) ≠ 0 →
      exec (.mset c f) s = .next (faulted s1 c { code := 0x01 })) ∧
    (Ready s c [] 4 s1 → Quiet s1 c → f.rd = 0 → f.rs1 = 0 → f.rs2 = 0 → f.f = false → k.status.lvl = false →
      exec (.halt c f) s = .next (faulted s1 c { code := 0x03 })) ∧
    (Ready s c [] 4 s1 → f.rd = 0 → f.rs1 = 0 → f.rs2 = 0 → f.f = false → k.status.lvl = true → s1.fe.ptasks = [] →
      (∀ t, c = .tile t → (s1.feTile t.val).own = none) →
      exec (.halt c f) s = .next (retired s1 c 4 1 fun k' => { k' with run := .halted })) ∧
    (∀ (t : TileId) (off : Nat), c = .tile t → Ready s c [31] 4 s1 → f.rd = 0 → f.rs1 = 0 → f.rs2 = 0 → f.f = false →
      k.status.lvl = true → k.status.bs = false → k.reg 31 = BitVec.ofNat 64 (0xFC00000000 + off) → off % 128 = 0 →
      off + 128 ≤ min 0x80000 (scratchBytes s1 t.val) → (∀ b ∈ (s1.tile t.val).l1.bad, ¬(off ≤ b ∧ b < off + 128)) →
      k.sbuf = [] →
      let fw := fun i => wordOf (readBytes (s1.tile t.val).l1.scratch (off + 8 * i) 8)
      (fw 0).getLsbD 0 = false →
      ∃ u, exec (.eret c f) s = .next u ∧ (u.tile t.val).vec.vstart = (fw 10).toNat % 2 ^ 15 ∧
        let k' := u.core c
        k'.pc = fw 0 ∧ k'.fwin = none ∧ k'.status.bs = false ∧ k'.status.ml = BitVec.ofNat 3 ((fw 1).toNat / 16 % 8) ∧
        k'.status.lvl = (fw 1).getLsbD 0 ∧
        k'.fl = { n := (fw 2).getLsbD 3, z := (fw 2).getLsbD 2, c := (fw 2).getLsbD 1, v := (fw 2).getLsbD 0 } ∧
        k'.reg 31 = fw 5 ∧ (∀ r : Reg, r ≠ 31 → k'.reg r = k.reg r) ∧
        (∀ i < 4, aget 0 k'.lc i = BitVec.ofNat 64 ((fw (6 + i)).toNat % 2 ^ 32)) ∧ k'.epc = k.epc ∧ k'.ecause = k.ecause ∧
        k'.eaddr = k.eaddr ∧ u.mem = s1.mem ∧ (∀ d, d ≠ c → u.core d = s1.core d) ∧
        ∀ n, (u.tile n).l1 = (s1.tile n).l1)) ∧
  (∀ (s : State) (t : TileId) (l off : Nat),
    let c : CoreId := .tile t
    let k := s.core c
    let frame := ((if k.status.lvl then k.reg 31 else k.ksp) - 128) &&& ~~~(0x7F#64)
    k.run = .running → coreReady s c = true → Quiet s c → (s.taskq (t.val / 8)).parked.contains t.val = false →
    k.status.bs = false → (ipend s c &&& k.ien).getLsbD l = true → k.status.ml.toNat < l → l ≤ 6 →
    (∀ m, l < m → m ≤ 6 → (ipend s c &&& k.ien).getLsbD m = false) → l ≠ 5 → FrameIn s t off →
      exec (.interrupt c) s = .next (entryTo s t l { code := 0x80 + l, async := true } k.pc frame off))

/-- R42, R44, R60, R158 to R160: what the timers, the sampler, the watchdog and the pace monitors do.
The model's choices in it: logs 9, 21, 98. -/
def Obligations.TimersAndPace : Prop :=
  ∀ (s : State), s.power = .run →
    (∀ c : CoreId, let k := s.core c
      (k.profEn = true → k.profPeriod ≠ 0 →
        ((∀ p ∈ k.t0, p.2.busy = false) → exec (.prof c) s = .next (s.setCore c { k with ipProf := true })) ∧
        ((∃ p ∈ k.t0, p.2.busy = true) →
          exec (.prof c) s = .next (s.setCore c { k with profMissed := min 0xFFFFFFFF (k.profMissed + 1) }))) ∧
      ((k.profEn = false ∨ k.profPeriod = 0) → exec (.prof c) s = .next s) ∧
      (k.t1en = true → k.t1due ≤ s.mono → s.tu.steer = 0 → k.ipWdog = false →
        exec (.wdog c) s = .next (s.setCore c { k with ipWdog := true, t1due := k.t1due + k.t1period.toNat * 1000 })) ∧
      (k.t1en = true → k.t1due ≤ s.mono → s.tu.steer = 0 → k.ipWdog = true → s.fe.ptasks = [] →
        (∀ t, c = .tile t → (s.feTile t.val).own = none) →
        exec (.wdog c) s = .next (s.setCore c { k with run := .halted, t1due := k.t1due + k.t1period.toNat * 1000 })) ∧
      (k.t1en = false → exec (.wdog c) s = .next s) ∧
      (∀ i : Fin 4, let e := aget {} k.t0 i.val
        (e.busy = true → e.waitq = false → e.deadline ≤ s.mono → s.tu.steer = 0 →
          exec (.timer0EntryExpiry c i) s =
            .next (s.setCore c { k with t0 := aput k.t0 i.val { e with busy := false, waitq := false, fired := true } })) ∧
        (e.busy = false → exec (.timer0EntryExpiry c i) s = .next s))) ∧
    (∀ counts : List (BitVec 16), ∃ u, exec (.paceWindow counts) s = .next u ∧
      (∀ t < 256, ∀ n, counts[t]? = some n → let x := s.tile t
        u.tile t = { x with paceCur := n, paceMin := BitVec.ofNat 16 (min n.toNat x.paceMin.toNat),
                            paceMax := BitVec.ofNat 16 (max n.toNat x.paceMax.toNat) }) ∧
      (∀ t, counts.length ≤ t ∨ 256 ≤ t → u.tile t = s.tile t) ∧
      u.mem = s.mem ∧ u.svcs = s.svcs ∧ u.fe = s.fe ∧ u.gal = s.gal ∧ u.host = s.host ∧ u.rep = s.rep ∧ u.mono = s.mono) ∧
    (∀ (t : TileId) (v : Word), (s.tile t.val).oos = false →
      exec (.tilePaceClr t v) s = .next (s.updTile t.val fun x =>
        if v.getLsbD 48 then { x with paceMin := 0xFFFF, paceMax := 0 } else x) ∧
      exec (.tileTcorrCtl t v) s = .next (s.updTile t.val fun x =>
        { x with tcorrSteps := x.core.steps, tcorrTime := BitVec.ofNat 64 s.time }))

/-- R50 to R58: the references, and the sources of wall time.
The model's choices in it: logs 71, 73. -/
def Obligations.TimeSources : Prop :=
  ∀ (s : State), s.power = .run →
    let tu := s.tu
    (tu.ref0 = true → exec (.referenceClockLoss .ref1) s = .next { s with tu := { tu with ref1 := false } }) ∧
    (tu.ref1 = true → tu.gens = 31 → exec (.referenceClockLoss .ref0) s = .next { s with tu := { tu with ref0 := false } }) ∧
    (tu.ref1 = true → tu.gens ≠ 31 → ∃ r, exec (.referenceClockLoss .ref0) s =
      .next { s with tu := { tu with ref0 := false, gens := 31, sw := true }, rep := r }) ∧
    exec (.referenceClockReturn .ref0) s = .next { s with tu := { tu with ref0 := true } } ∧
    exec (.referenceClockReturn .ref1) s = .next { s with tu := { tu with ref1 := true } } ∧
    (tu.ppsOut = true ∨ tu.src = 0 → exec .ppsEdge s =
      .next { s with tu := { tu with ppscap := BitVec.ofNat 64 s.time, ppsSeen := true } }) ∧
    (tu.ppsOut = false → tu.src ≠ 0 → exec .ppsEdge s =
      .next (servo { s with tu := { tu with ppscap := BitVec.ofNat 64 s.time, ppsSeen := true, src := 2 } } (secondError s.time))) ∧
    (tu.ppsSeen = true → tu.ppsOut = false → ∃ r, exec .ppsLost s =
      .next { s with tu := { tu with ppslost := true, ppsOut := true, src := if tu.src = 2 then 1 else tu.src }, rep := r }) ∧
    (∀ (p : PortNo) (err : Int), (s.hport p.val).state = 3 → (s.hport p.val).ptp = true →
      (tu.ppsSeen = false ∨ tu.ppsOut = true) →
      exec (.ptpEventMessage p err) s = .next (servo { s with tu := { tu with src := 1 } } err)) ∧
    (∀ (p : PortNo) (err : Int), (s.hport p.val).ptp = false → exec (.ptpEventMessage p err) s = .next s) ∧
    (tu.src ≠ 0 → exec .ptpSourceLoss s = .next { s with tu := { tu with src := 0, locked := false, steer := 0, slewAcc := 0 } }) ∧
    (tu.src = 0 → exec .ptpSourceLoss s = .next s) ∧
    (∀ err : Int, let o := max (-2147483648) (min 2147483647 err)
      let tu1 := { tu with offset := o, locked := decide (o.natAbs ≤ 100) }
      (-1000000 ≤ err → servo s err = { s with tu := { tu1 with steer := err, slewAcc := 0 } }) ∧
      (err < -1000000 → ∃ r, servo s err =
        { s with time := s.time + err.natAbs, tu := { tu1 with stepped := true, steer := 0, slewAcc := 0 }, rep := r }))

/-- R101, R102: the cp2 instructions (the check number of their fault is the model's free value, log 33).
The model's choices in it: logs 2, 33, 96. -/
def Obligations.HashEngine : Prop :=
  ∀ (c : CoreId) (s s1 : State) (f : LC),
    let k := s1.core c
    let upd := fun (g : Hash → Hash) (k : Core) => { k with hash := g k.hash }
    let bad : Trap := { code := cCop, sub := 2 + 8 * ((Config.freeWord s1.free).toNat % 32) }
    (hasHash c = true →
      (Ready s c [f.rs1] 4 s1 → k.reg f.rs1 = 0 →
        exec (.hinit c f) s = .next (retired s1 c 4 1 (upd fun _ => { lanes := [], pos := 0, rate := 168, closed := false }))) ∧
      (Ready s c [f.rs1] 4 s1 → k.reg f.rs1 = 1 →
        exec (.hinit c f) s = .next (retired s1 c 4 1 (upd fun _ => { lanes := [], pos := 0, rate := 136, closed := false }))) ∧
      (Ready s c [f.rs1] 4 s1 → Quiet s1 c → 1 < (k.reg f.rs1).toNat → exec (.hinit c f) s = .next (faulted s1 c bad)) ∧
      (Ready s c [f.rs1] 4 s1 → k.hash.closed = false →
        exec (.habs c f) s = .next (completed s1 c 4 1 fun s =>
          (hashBusy s c (k.hash.perms 8)).updCore c (upd fun h => h.absorb (toBytes 8 (k.reg f.rs1).toNat)))) ∧
      (Ready s c [f.rs1] 4 s1 → Quiet s1 c → k.hash.closed = true → exec (.habs c f) s = .next (faulted s1 c bad)) ∧
      (∀ bs s2, Ready s c [f.rs1, f.rs2] 4 s1 → k.hash.closed = false →
        hashRead s1 c (k.reg f.rs1) (k.reg f.rs2).toNat = (s2, .ok bs) →
        exec (.habsm c f) s = .next (finished ((hashBusy s2 c ((s2.core c).hash.perms bs.length)).updCore c (upd fun h => h.absorb bs)) c k.pc 4 1)) ∧
      (Ready s c [f.rs1, f.rs2] 4 s1 → Quiet s1 c → k.hash.closed = true →
        exec (.habsm c f) s = .next (faulted s1 c bad)) ∧
      (Ready s c [] 4 s1 → exec (.hfin c f) s = .next (completed s1 c 4 1 fun s => (hashBusy s c 1).updCore c (upd fun h =>
        { ((h.xorByte h.pos 0x1F).xorByte (h.rate - 1) 0x80).permute with closed := true }))) ∧
      (Ready s c [] 4 s1 → exec (.hsqz c f) s = .next (completed s1 c 4 1 fun s =>
        let r := k.hash.squeeze 8
        (hashBusy s c (k.hash.perms 8)).updCore c fun k' =>
          let k' := { k' with hash := r.1 }.setReg f.rd (wordOf r.2)
          k'.owe f.rd.toNat (hashEnd k' - k'.steps.toNat + 1))) ∧
      (Ready s c [f.rs1] 4 s1 →
        firstDenied (fun x m => permitted s1 c x m rightW) (k.reg f.rs1) 208 = none →
        exec (.hsave c f) s = .next (completed s1 c 4 1 fun s => hashWrite s c (k.reg f.rs1) (s.core c).hash.save)) ∧
      (∀ bs s2, Ready s c [f.rs1] 4 s1 → hashRead s1 c (k.reg f.rs1) 208 = (s2, .ok bs) →
        exec (.hrest c f) s = .next (finished (s2.updCore c (upd fun _ => Hash.load bs)) c k.pc 4 1))) ∧
    (hasHash c = false → Quiet s1 c →
      (Ready s c [f.rs1] 4 s1 → ∀ i ∈ [Instr.hinit c f, .habs c f, .hsave c f, .hrest c f], exec i s = .next (faulted s1 c { code := cIllegal })) ∧
      (Ready s c [f.rs1, f.rs2] 4 s1 → exec (.habsm c f) s = .next (faulted s1 c { code := cIllegal })) ∧
      (Ready s c [] 4 s1 → ∀ i ∈ [Instr.hfin c f, .hsqz c f], exec i s = .next (faulted s1 c { code := cIllegal }))) ∧
    (∀ (s : State) (n : Nat), hashBusy s c n = if n = 0 then s else s.updCore c fun k => { k with
      ready := aput k.ready keyHash (BitVec.ofNat 64 (max k.steps.toNat (aget 0 k.ready keyHash).toNat + 26 * n)) }) ∧
    (∀ (h : Hash) (b : Byte), h.absorb [b] =
      let h1 := { h with lanes := aset 0 h.lanes (h.pos / 8) (aget 0 h.lanes (h.pos / 8) ^^^ (b.zeroExtend 64 <<< (8 * (h.pos % 8)))),
                         pos := h.pos + 1 }
      if h.rate ≤ h.pos + 1 then h1.permute else h1)

/-- R168 to R171, R175: the integer arithmetic of major 0x25 on the elements.
The model's choices in it: logs 2, 26, 82. -/
def Obligations.VectorInteger : Prop :=
  ∀ (s s1 : State) (t : TileId) (f : VR),
    let k := s1.core (.tile t)
    let c := (s1.tile t.val).vec.cfg
    let w := c.bits
    let sN := if f.s then f.vs2 else 0
    aligned c 1 f.vd → aligned c 1 f.vs1 → (f.s = false → aligned c 1 f.vs2) →
    ∀ p ∈ ([(.vadd t f, fun a b => (a : Int) + b), (.vsub t f, fun a b => (a : Int) - b), (.vmul t f, fun a b => (a : Int) * b),
        (.vmulh t f, fun a b => toInt w a * toInt w b / 2 ^ w), (.vmulhu t f, fun a b => ((a * b / 2 ^ w : Nat) : Int)),
        (.vand t f, fun a b => ((a &&& b : Nat) : Int)), (.vor t f, fun a b => ((a ||| b : Nat) : Int)),
        (.vxor t f, fun a b => ((a ^^^ b : Nat) : Int)), (.vandn t f, fun a b => ((a &&& (2 ^ w - 1 - b) : Nat) : Int)),
        (.vshl t f, fun a b => (a : Int) * 2 ^ (b % w)), (.vshr t f, fun a b => ((a / 2 ^ (b % w) : Nat) : Int)),
        (.vsar t f, fun a b => toInt w a / 2 ^ (b % w)), (.vmin t f, fun a b => min (toInt w a) (toInt w b)),
        (.vmax t f, fun a b => max (toInt w a) (toInt w b)), (.vminu t f, fun a b => min (a : Int) b),
        (.vmaxu t f, fun a b => max (a : Int) b)] : List (Instr × (Nat → Nat → Int))),
      VReady s t [sN] (stationWait t p.1) s1 → VRuns s s1 t p.1 (k.reg sN) (fun x v v' => Elements (x.actives v f.vm) v v' f.vd c.bytes fun i =>
        (ofInt w (p.2 (v.el f.vs1 c.bytes i) (if f.s then x.scal.toNat % 2 ^ w else v.el f.vs2 c.bytes i)), {})) fun _ _ => none

/-- R175 to R180: the floating-point arithmetic of majors 0x22 to 0x24 on the elements. A fused product of infinity and zero
with a NaN addend sets nv by a free value of the model.
The model's choices in it: logs 2, 15, 26, 82. -/
def Obligations.VectorFloat : Prop :=
  ∀ (s s1 : State) (t : TileId) (f : VR) (h : VF),
    let k := s1.core (.tile t)
    let c := (s1.tile t.val).vec.cfg
    let w := c.bits
    let n := c.bytes
    let g := c.fmt
    let rm := rmOf (s1.tile t.val).vec.csr.rm.toNat
    let below := fun a b => ltVal (g.val a) (g.val b) || (eqVal (g.val a) (g.val b) && g.sign a && !g.sign b)
    c.ew ≠ 0 →
    (∀ p ∈ ([(.vfadd t f, fpAdd g rm), (.vfsub t f, fpSub g rm), (.vfmul t f, fpMul g rm), (.vfdiv t f, fpDiv g rm),
        (.vfmin t f, fun a b => (if g.val a = .nan then (if g.val b = .nan then g.nan else b)
          else if g.val b = .nan || below a b then a else b, {})),
        (.vfmax t f, fun a b => (if g.val a = .nan then (if g.val b = .nan then g.nan else b)
          else if g.val b = .nan || !below a b then a else b, {}))] : List (Instr × (Nat → Nat → Nat × Fx))),
      let sN := if f.s then f.vs2 else 0
      aligned c 1 f.vd → aligned c 1 f.vs1 → (f.s = false → aligned c 1 f.vs2) →
      VReady s t [sN] (stationWait t p.1) s1 → VRuns s s1 t p.1 (k.reg sN) (fun x v v' => Elements (x.actives v f.vm) v v' f.vd n fun i =>
        p.2 (v.el f.vs1 n i) (if f.s then x.scal.toNat % 2 ^ w else v.el f.vs2 n i)) fun _ _ => none) ∧
    (∀ p ∈ ([(.vfsqrt t f, fpSqrt g rm),
        (.vfneg t f, fun a => (if g.val a = .nan then g.nan else a + 2 ^ (w - 1), {})),
        (.vfabs t f, fun a => (if g.val a = .nan then g.nan else a % 2 ^ (w - 1), {})),
        (.vcvtFI t f, fun a => intToF g rm (toInt w a)),
        (.vcvtIF t f, fun a => let r := valToInt rm (-(2 ^ (w - 1))) (2 ^ (w - 1) - 1) (g.val a); (ofInt w r.1, r.2))] :
        List (Instr × (Nat → Nat × Fx))),
      aligned c 1 f.vd → aligned c 1 f.vs1 → f.vs2 = 0 → f.s = false →
      VReady s t [0] (stationWait t p.1) s1 → VRuns s s1 t p.1 0 (fun x v v' => Elements (x.actives v f.vm) v v' f.vd n fun i => p.2 (v.el f.vs1 n i)) fun _ _ => none) ∧
    (let wide := fmtOf (2 * w) false
     c.ew = 1 ∨ c.ew = 2 → c.g < 8 →
      (aligned c 2 f.vd → aligned c 1 f.vs1 → overlaps f.vd (c.g * 2) f.vs1 c.g = false →
        VReady s t [0] (stationWait t (.vfwcvt t f)) s1 → VRuns s s1 t (.vfwcvt t f) 0 (fun x v v' => Elements (x.actives v f.vm) v v' f.vd (2 * n) fun i =>
          fpCvt g wide rm (v.el f.vs1 n i)) fun _ _ => none) ∧
      (aligned c 1 f.vd → aligned c 2 f.vs1 → overlaps f.vd c.g f.vs1 (c.g * 2) = false →
        VReady s t [0] (stationWait t (.vfncvt t f)) s1 → VRuns s s1 t (.vfncvt t f) 0 (fun x v v' => Elements (x.actives v f.vm) v v' f.vd n fun i =>
          fpCvt wide g rm (v.el f.vs1 (2 * n) i)) fun _ _ => none)) ∧
    (∀ p ∈ [(Instr.vfma t h, false, false), (.vfms t h, false, true), (.vfnma t h, true, false), (.vfnms t h, true, true)],
      let sN := if h.s then h.vs2 else 0
      aligned c 1 h.vd → aligned c 1 h.vs1 → (h.s = false → aligned c 1 h.vs2) → aligned c 1 h.vs3 →
      VReady s t [sN] (stationWait t p.1) s1 → VRuns s s1 t p.1 (k.reg sN) (fun x v v' => Elements (x.actives v h.vm) v v' h.vd n fun i =>
        let neg := fun (b : Bool) (z : FVal) => if b then z.neg else z
        let a := neg p.2.1 (g.val (v.el h.vs1 n i))
        let b := g.val (if h.s then x.scal.toNat % 2 ^ w else v.el h.vs2 n i)
        let z := neg p.2.2 (g.val (v.el h.vs3 n i))
        let r := addVal g rm (mulVal a b).1 z
        (r.1, { r.2 with nv := if (mulVal a b).2 then (if g.val (v.el h.vs3 n i) = .nan then Config.fmaNanInvalid else true) else r.2.nv }))
        fun _ _ => none)

/-- R170, R175, R183: the compares and the mask logic of major 0x26 on the bits.
The model's choices in it: logs 2, 26, 82. -/
def Obligations.VectorMasks : Prop :=
  ∀ (s s1 : State) (t : TileId) (f : VR),
    let k := s1.core (.tile t)
    let c := (s1.tile t.val).vec.cfg
    let w := c.bits
    let n := c.bytes
    let g := c.fmt
    let sN := if f.s then f.vs2 else 0
    f.vd.toNat < 8 → c.vl ≤ 16384 →
    (aligned c 1 f.vs1 → (f.s = false → aligned c 1 f.vs2) →
      (c.ew ≠ 0 → ∀ p ∈ ([(.vfcmpeq t f, fun a b => eqVal a b, true), (.vfcmplt t f, fun a b => ltVal a b, false),
          (.vfcmple t f, fun a b => ltVal a b || eqVal a b, false), (.vfcmpun t f, fun a b => a = .nan || b = .nan, true)] :
          List (Instr × (FVal → FVal → Bool) × Bool)),
        VReady s t [sN] (stationWait t p.1) s1 → VRuns s s1 t p.1 (k.reg sN) (fun x v v' => MaskBits (x.actives v f.vm) v v' f.vd fun i =>
          let a := v.el f.vs1 n i
          let b := if f.s then x.scal.toNat % 2 ^ w else v.el f.vs2 n i
          (p.2.1 (g.val a) (g.val b),
            { nv := if p.2.2 then g.snan a || g.snan b else decide (g.val a = .nan ∨ g.val b = .nan) })) fun _ _ => none) ∧
      (∀ p ∈ ([(.vcmpeq t f, fun a b => a = b), (.vcmpne t f, fun a b => a ≠ b),
          (.vcmplt t f, fun a b => toInt w a < toInt w b), (.vcmpltu t f, fun a b => a < b),
          (.vcmple t f, fun a b => toInt w a ≤ toInt w b), (.vcmpleu t f, fun a b => a ≤ b)] : List (Instr × (Nat → Nat → Bool))),
        VReady s t [sN] (stationWait t p.1) s1 → VRuns s s1 t p.1 (k.reg sN) (fun x v v' => MaskBits (x.actives v f.vm) v v' f.vd fun i =>
          (p.2 (v.el f.vs1 n i) (if f.s then x.scal.toNat % 2 ^ w else v.el f.vs2 n i), {})) fun _ _ => none)) ∧
    (f.vs1.toNat < 8 → f.vs2.toNat < 8 → f.vm = 0 → f.s = false →
      ∀ p ∈ ([(.mand t f, fun a b => a && b), (.mor t f, fun a b => a || b), (.mxor t f, fun a b => a ^^ b),
          (.mandn t f, fun a b => a && !b)] : List (Instr × (Bool → Bool → Bool))),
        VReady s t [0] (stationWait t p.1) s1 → VRuns s s1 t p.1 0 (fun x v v' => MaskBits ((List.range c.vl).filter fun i => x.vstart ≤ i) v v' f.vd fun i =>
          (p.2 (v.mask f.vs1.toNat i) (v.mask f.vs2.toNat i), {})) fun _ _ => none)

/-- R175, R184 to R186: the instructions that give a scalar.
The model's choices in it: logs 2, 26. -/
def Obligations.VectorReductions : Prop :=
  ∀ (s s1 : State) (t : TileId) (f : VR),
    let c := (s1.tile t.val).vec.cfg
    let w := c.bits
    let n := c.bytes
    let g := c.fmt
    let rm := rmOf (s1.tile t.val).vec.csr.rm.toNat
    let places := fun (x : VEntry) (v : Vec) (ident i : Nat) => if x.active v f.vm i then v.el f.vs1 n i else ident
    ((s1.tile t.val).vec.vstart = 0 → f.vs2 = 0 → f.s = false → aligned c 1 f.vs1 →
      (∀ p ∈ ([(.vredsum t f, 0, fun a b => (a + b) % 2 ^ w),
          (.vredmin t f, 2 ^ (w - 1) - 1, fun a b => if toInt w b < toInt w a then b else a),
          (.vredmax t f, 2 ^ (w - 1), fun a b => if toInt w a < toInt w b then b else a),
          (.vredminu t f, 2 ^ w - 1, fun a b => min a b), (.vredmaxu t f, 0, fun a b => max a b)] :
          List (Instr × Nat × (Nat → Nat → Nat))),
        VReady s t [0] (stationWait t p.1) s1 → VRuns s s1 t p.1 0 (fun _ v v' => v' = v) fun x v => some (f.vd, BitVec.ofInt 64 (toInt w
          (treeAt (fun a b => (p.2.2 a b, {})) (places x v p.2.1) (Nat.log2 c.vlmax) 0).1))) ∧
      (c.ew ≠ 0 → ∀ p ∈ ([(.vfredsum t f, g.zero true, fpAdd g rm), (.vfredmin t f, g.inf false, fun a b => (fpMinMax g false a b, {})),
          (.vfredmax t f, g.inf true, fun a b => (fpMinMax g true a b, {}))] : List (Instr × Nat × (Nat → Nat → Nat × Fx))),
        let r := fun x v => treeAt p.2.2 (places x v p.2.1) (Nat.log2 c.vlmax) 0
        VReady s t [0] (stationWait t p.1) s1 → VRuns s s1 t p.1 0 (fun x v v' => v' = { v with csr := v.csr.add (r x v).2 }) fun x v => some (f.vd, BitVec.ofNat 64 (r x v).1))) ∧
    ((s1.tile t.val).vec.vstart = 0 → f.vs1.toNat < 8 →
      (VReady s t [0] (stationWait t (.vpopc t f)) s1 → VRuns s s1 t (.vpopc t f) 0 (fun _ v v' => v' = v) (fun x v =>
        some (f.vd, BitVec.ofNat 64 ((List.range c.vl).countP fun i => x.active v f.vm i && v.mask f.vs1.toNat i)))) ∧
      (VReady s t [0] (stationWait t (.vfirst t f)) s1 → VRuns s s1 t (.vfirst t f) 0 (fun _ v v' => v' = v) (fun x v =>
        some (f.vd, match (List.range c.vl).find? fun i => x.active v f.vm i && v.mask f.vs1.toNat i with
          | some i => BitVec.ofNat 64 i
          | none => BitVec.ofInt 64 (-1))))) ∧
    (f.s = false → aligned c 1 f.vs1 →
      VReady s t [0] (stationWait t (.vmvXS t f)) s1 → VRuns s s1 t (.vmvXS t f) 0 (fun _ v v' => v' = v) fun _ v => some (f.vd, BitVec.ofInt 64 (toInt w (v.el f.vs1 n 0))))

/-- R175, R181, R182, R187, R188: moves, permutes, widening products and dot products.
The model's choices in it: logs 2, 26, 82. -/
def Obligations.VectorMoves : Prop :=
  ∀ (s s1 : State) (t : TileId) (f : VR),
    let k := s1.core (.tile t)
    let c := (s1.tile t.val).vec.cfg
    let w := c.bits
    let n := c.bytes
    let g := c.fmt
    let rm := rmOf (s1.tile t.val).vec.csr.rm.toNat
    let v0 := (s1.tile t.val).vec.vstart
    let none_ := fun (_ : VEntry) (_ : Vec) => (none : Option (Reg × Word))
    f.s = false →
    (aligned c 1 f.vd → aligned c 1 f.vs1 → v0 = 0 →
      (VReady s t [f.vs2] (stationWait t (.vslideup t f)) s1 → VRuns s s1 t (.vslideup t f) (k.reg f.vs2) (fun x v v' =>
        Elements ((x.actives v f.vm).filter fun i => (k.reg f.vs2).toNat ≤ i) v v' f.vd n fun i =>
          (v.el f.vs1 n (i - (k.reg f.vs2).toNat), {})) none_) ∧
      (VReady s t [f.vs2] (stationWait t (.vslidedown t f)) s1 → VRuns s s1 t (.vslidedown t f) (k.reg f.vs2) (fun x v v' => Elements (x.actives v f.vm) v v' f.vd n fun i =>
        (if i + (k.reg f.vs2).toNat < c.vl then v.el f.vs1 n (i + (k.reg f.vs2).toNat) else 0, {})) none_)) ∧
    (aligned c 1 f.vd →
      (VReady s t [f.vs1] (stationWait t (.vmvVX t f)) s1 → VRuns s s1 t (.vmvVX t f) (k.reg f.vs1) (fun x v v' => Elements (x.actives v f.vm) v v' f.vd n fun _ =>
        ((k.reg f.vs1).toNat, {})) none_)) ∧
    ((aligned c 1 f.vd → (VReady s t [0] (stationWait t (.vid t f)) s1 → VRuns s s1 t (.vid t f) 0 (fun x v v' => Elements (x.actives v f.vm) v v' f.vd n fun i => (i, {})) none_)) ∧
      (aligned c 1 f.vd → aligned c 1 f.vs1 →
        (VReady s t [0] (stationWait t (.vmvVV t f)) s1 → VRuns s s1 t (.vmvVV t f) 0 (fun x v v' => Elements (x.actives v f.vm) v v' f.vd n fun i => (v.el f.vs1 n i, {})) none_) ∧
        (aligned c 1 f.vs2 →
          (f.vm ≠ 0 → (VReady s t [0] (stationWait t (.vmerge t f)) s1 → VRuns s s1 t (.vmerge t f) 0 (fun x v v' =>
            Elements ((List.range c.vl).filter fun i => x.vstart ≤ i) v v' f.vd n fun i =>
              (if v.mask f.vm.toNat i then v.el f.vs1 n i else v.el f.vs2 n i, {})) none_)) ∧
          (v0 = 0 → overlaps f.vd c.g f.vs1 c.g = false → overlaps f.vd c.g f.vs2 c.g = false →
            (VReady s t [0] (stationWait t (.vrgather t f)) s1 → VRuns s s1 t (.vrgather t f) 0 (fun x v v' => Elements (x.actives v f.vm) v v' f.vd n fun i =>
              (if v.el f.vs2 n i < c.vlmax then v.el f.vs1 n (v.el f.vs2 n i) else 0, {})) none_)) ∧
          (c.ew = 2 →
            (VReady s t [0] (stationWait t (.vdotI8 t f)) s1 → VRuns s s1 t (.vdotI8 t f) 0 (fun x v v' => Elements (x.actives v f.vm) v v' f.vd 4 fun i =>
              let p := fun j => toInt 8 (v.el f.vs1 1 (4 * i + j)) * toInt 8 (v.el f.vs2 1 (4 * i + j))
              (ofInt 32 (toInt 32 (v.el f.vd 4 i) + p 0 + p 1 + p 2 + p 3), {})) none_) ∧
            ∀ p ∈ [(Instr.vdotE4m3 t f, e4m3, e4m3, 4), (.vdotE4m3e5m2 t f, e4m3, e5m2, 4), (.vdotE5m2e4m3 t f, e5m2, e4m3, 4),
                (.vdotE5m2 t f, e5m2, e5m2, 4), (.vdotB16 t f, b16, b16, 2), (.vdotF16 t f, f16, f16, 2)],
              (VReady s t [0] (stationWait t p.1) s1 → VRuns s s1 t p.1 0 (fun x v v' => Elements (x.actives v f.vm) v v' f.vd 4 fun i =>
                dotFloat rm (f32.val (v.el f.vd 4 i)) ((List.range p.2.2.2).map fun j =>
                  mulVal (p.2.1.val (v.el f.vs1 (p.2.1.w / 8) (p.2.2.2 * i + j)))
                    (p.2.2.1.val (v.el f.vs2 (p.2.1.w / 8) (p.2.2.2 * i + j))))) none_)))) ∧
      (aligned c 2 f.vd → aligned c 1 f.vs1 → aligned c 1 f.vs2 → c.g < 8 → overlaps f.vd (c.g * 2) f.vs1 c.g = false →
        overlaps f.vd (c.g * 2) f.vs2 c.g = false →
        (c.ew ≠ 3 →
          (VReady s t [0] (stationWait t (.vwmul t f)) s1 → VRuns s s1 t (.vwmul t f) 0 (fun x v v' => Elements (x.actives v f.vm) v v' f.vd (2 * n) fun i =>
            (ofInt (2 * w) (toInt w (v.el f.vs1 n i) * toInt w (v.el f.vs2 n i)), {})) none_) ∧
          (VReady s t [0] (stationWait t (.vwmulu t f)) s1 → VRuns s s1 t (.vwmulu t f) 0 (fun x v v' => Elements (x.actives v f.vm) v v' f.vd (2 * n) fun i =>
            (v.el f.vs1 n i * v.el f.vs2 n i, {})) none_)) ∧
        (c.ew = 1 ∨ c.ew = 2 →
          (VReady s t [0] (stationWait t (.vfwmul t f)) s1 → VRuns s s1 t (.vfwmul t f) 0 (fun x v v' => Elements (x.actives v f.vm) v v' f.vd (2 * n) fun i =>
            let p := mulVal (g.val (v.el f.vs1 n i)) (g.val (v.el f.vs2 n i))
            ((roundVal (fmtOf (2 * w) false) rm p.1).1, { nv := p.2 })) none_))))

/-- R165, R201 to R209: `vcfg`, and `vld` and `vst` of the tile's own scratch, at any alignment and under any mask.
The model's choices in it: logs 2, 18, 24, 27, 93. -/
def Obligations.VectorMemory : Prop :=
  (∀ (s s1 : State) (t : TileId) (f : LI), f.f = false → f.imm.toNat < 32 →
    let c := (.tile t : CoreId)
    let cfg : VCfg := { ew := BitVec.ofNat 2 f.imm.toNat, grp := BitVec.ofNat 2 (f.imm.toNat / 4), f16 := f.imm.getLsbD 4 }
    let avl := if f.rs1 = 0 then cfg.vlmax else ((s1.core c).reg f.rs1).toNat
    let vl := min avl cfg.vlmax
    (Ready s c [f.rs1] 4 s1 → (s1.tile t.val).vec.vstart = 0 → exec (.vcfg t f) s = .next (completed s1 c 4 1 fun s =>
      (s.updVec t.val fun v => { v with cfg := { cfg with vl := vl } }).setReg c f.rd (BitVec.ofNat 64 vl))) ∧
    (Ready s c [f.rs1] 4 s1 → Quiet s1 c → (s1.tile t.val).vec.vstart ≠ 0 → exec (.vcfg t f) s = .next (faulted s1 c { code := 0x43 }))) ∧
  ∀ (s s1 : State) (t : TileId) (f : VM) (off : Nat),
    let c := (.tile t : CoreId)
    let cfg := (s1.tile t.val).vec.cfg
    let n := cfg.bytes
    let a := (s1.core c).reg f.base + f.simm.signExtend 64
    aligned cfg 1 f.vt → a = BitVec.ofNat 64 (0xFC00000000 + off) →
    ∀ st : Bool,
      let i : Instr := if st then .vst t f else .vld t f
      let x := vecEntry s1 t i a
      let fits := fun (u : State) (act : List Nat) => ∀ i ∈ act, off + i * n + n ≤ min 0x80000 (scratchBytes u t.val)
      (VReady s t [f.base] (maskWait t f.vm i) s1 → fits s1 (x.actives (s1.tile t.val).vec f.vm) →
        (∀ i ∈ x.actives (s1.tile t.val).vec f.vm,
          firstDenied (fun y m => permitted s1 c y m (if st then rightW else rightR)) (elAddr a n i) n = none) →
        exec i s = .next (dispatched s1 t i a) ∧ x ∈ ((dispatched s1 t i a).tile t.val).vec.vq) ∧
      (∀ (u : State) (xs : List VEntry), u.power = .run → (u.tile t.val).vec.vq = x :: xs → seedBlocked u t.val x = false →
        exec (.vectorStart t false) u = .next (u.updVec t.val fun v => { v with vq := xs, run := v.run ++ [x] })) ∧
      ∀ (u : State) (p : Bool) (vl : Nat), let y := { x with passed := p }
        u.power = .run → (u.tile t.val).vec.run = [y] → (u.core c).sbuf = [] → (u.tile t.val).oos = false →
        let v := { (u.tile t.val).vec with run := [] }
        let act := (List.range vl).filter fun i => x.active v f.vm i
        let mem := (u.tile t.val).l1
        vl ≤ cfg.vl → off ≤ 0x80000 → fits u act → (st = false → ∀ i ∈ act, ∀ y ∈ mem.bad, ¬(off + i * n ≤ y ∧ y < off + i * n + n)) →
        ∃ w m bad,
          (if st then w = v ∧ (∀ i ∈ act, readBytes m (off + i * n) n = toBytes n (v.el f.vt n i)) ∧
              (∀ b, (∀ i ∈ act, b < off + i * n ∨ off + i * n + n ≤ b) → aget 0 m b = aget 0 mem.scratch b)
            else m = mem.scratch ∧ bad = mem.bad ∧ Elements act v w f.vt n fun i => (ofBytes (readBytes mem.scratch (off + i * n) n), {})) ∧
          let done := fun (w : Vec) => u.updTile t.val fun y => { y with vec := w, l1 := { y.l1 with scratch := m, bad := bad } }
          (vl = cfg.vl → completeRun u t.val = (done w, false)) ∧
          (∀ (addr : Word) (why : DataFail), x.active v f.vm vl = true → (addr - elAddr a n vl).toNat < n →
            exec (.vectorDataFault t vl addr why) u = .next (takeFault
              ((done { w with fltVt := f.vt, fltNr := p, fltKind := 2, vstart := vl, vq := [] }).updCore c fun k => { k with lc := x.lc }) c
              (match why with
                | .uncorr k => { code := 0x09, sub := k.toNat, addr := addr }
                | .thermal k => { code := 0x0A, sub := k.val, addr := addr }) x.pc))

/-- R254 to R281: the chain instructions.
The model's choices in it: logs 2, 16, 17, 23. -/
def Obligations.Chains : Prop :=
  (∀ (s s1 : State) (t : TileId) (f : VR),
    let c := (.tile t : CoreId)
    let k := s1.core c
    let a := k.reg f.vs1
    (f.vd.toNat < 4 → f.vs2 = 0 → f.vm = 0 → f.s = false → ∀ off, a = BitVec.ofNat 64 (0xFC00000000 + off) → off % 64 = 0 →
      ∀ st : Bool,
        let i : Instr := if st then .cst t f else .cld t f
        let x := vecEntry s1 t i a
        (VReady s t [f.vs1] (stationWait t i) s1 → off + 64 ≤ min 0x80000 (scratchBytes s1 t.val) →
          firstDenied (fun y m => permitted s1 c y m (if st then rightW else rightR)) a 64 = none →
          exec i s = .next (dispatched s1 t i a) ∧ x ∈ ((dispatched s1 t i a).tile t.val).vec.vq) ∧
        (∀ (u : State) (xs : List VEntry), u.power = .run → (u.tile t.val).vec.vq = x :: xs → seedBlocked u t.val x = false →
          exec (.vectorStart t false) u = .next (u.updVec t.val fun v => { v with vq := xs, run := v.run ++ [x] })) ∧
        ∀ (u : State) (p : Bool), (u.tile t.val).vec.run = [{ x with passed := p }] →
          (u.core c).sbuf = [] → (u.tile t.val).oos = false → off + 64 ≤ min 0x80000 (scratchBytes u t.val) →
          (st = false → ∀ y ∈ (u.tile t.val).l1.bad, ¬(off ≤ y ∧ y < off + 64)) →
          let v := { (u.tile t.val).vec with run := [] }
          let mem := (u.tile t.val).l1.scratch
          if st then ∃ m bad, readBytes m off 64 = chainBytes v f.vd.toNat ∧ (∀ b, b < off ∨ off + 64 ≤ b → aget 0 m b = aget 0 mem b) ∧
            completeRun u t.val = (u.updTile t.val fun y => { y with
              vec := v, l1 := { y.l1 with scratch := m, bad := bad } }, false)
          else completeRun u t.val =
            (u.updVec t.val fun _ => { v with chains := writeBytes v.chains (64 * f.vd.toNat) (readBytes mem off 64) }, false)) ∧
    (VReady s t [f.vs1] (stationWait t (.cseed t f)) s1 → f.vd = 0 → f.vs2 = 0 → f.vm = 0 → f.s = false →
      let x := vecEntry s1 t (.cseed t f) a
      exec (.cseed t f) s = .next (dispatched s1 t (.cseed t f) a) ∧ x ∈ ((dispatched s1 t (.cseed t f) a).tile t.val).vec.vq ∧
      ∀ (u : State) (xs : List VEntry), u.power = .run → (u.tile t.val).vec.vq = x :: xs → (u.tile t.val).vec.run = [] →
        seedBlocked u t.val x = false →
        ∃ v, exec (.vectorStart t false) u = .next (u.updVec t.val fun _ => v) ∧
          (∀ j < 32, aget 0 v.genV j = genSeed a (j + 1) ∧ aget 0 v.genD j = genSeed a (j + 33)) ∧
          v = { (u.tile t.val).vec with vq := xs, genV := v.genV, genD := v.genD }) ∧
    (∀ md : MaskNo, let i : Instr := .rownorm t f md
      VReady s t [f.vs2] (stationWait t i) s1 →
      rownormCheck (s1.tile t.val).vec.cfg (s1.tile t.val).vec.vstart f md (k.reg f.vs2).toNat = none →
      let x := vecEntry s1 t i (k.reg f.vs2)
      exec i s = .next (dispatched s1 t i (k.reg f.vs2)) ∧ x ∈ ((dispatched s1 t i (k.reg f.vs2)).tile t.val).vec.vq ∧
      ∀ (u : State) (xs : List VEntry), u.power = .run → (u.tile t.val).vec.vq = x :: xs → (u.tile t.val).vec.run = [] →
        seedBlocked u t.val x = false →
        exec (.vectorStart t false) u =
          .next (patrolStep (startRownorm (u.updVec t.val fun v => { v with vq := xs }) t.val x f md) t.val x false))) ∧
  (∀ (s s1 : State) (t : TileId) (f : VF) (n : ChainNo),
    let c := (.tile t : CoreId)
    let v := (s1.tile t.val).vec
    let ch : Instr := .vchain t f n
    (VReady s t [] (cldWait t ch) s1 → vchainCheck v.cfg v.vstart (progOf (chainBytes v n.toNat)) f = none →
      let x := vecEntry s1 t ch 0
      exec ch s = .next (dispatched s1 t ch 0) ∧ x ∈ ((dispatched s1 t ch 0).tile t.val).vec.vq ∧
      ∀ (u : State) (xs : List VEntry), u.power = .run → (u.tile t.val).vec.vq = x :: xs → (u.tile t.val).vec.run = [] →
        seedBlocked u t.val x = false →
        exec (.vectorStart t false) u =
          .next (patrolStep (startVchain (u.updVec t.val fun v => { v with vq := xs }) t.val x f n.toNat) t.val x false)) ∧
    (Ready s c [1, 2, 3] 4 s1 → f.vd = 0 → f.vs1 = 0 → f.vm = 0 →
      let s2 := drainAll faddF32 s1 c
      let v := (s2.tile t.val).vec
      let p := progOf (chainBytes v n.toNat)
      (∀ r ∈ v.cmemRuns, r.pc ≠ (s2.core c).pc) → seedBlocked s2 t.val (ventry s2 t (.cmem t f n none) 0) = false →
      cmemCheck v.cfg p f (s2.reg c 3).toNat = none →
      let r := cmemRun t.val p f ((s2.reg c 3).toNat / p.per) ((s2.reg c 3).toNat / p.per)
        { st := s2.updVec t.val fun v => { v with vstart := 0 }, src := s2.reg c 2, dst := s2.reg c 1, idx := 0, drain := 0, old := false }
      r.2 = none → r.1.idx = (s2.reg c 3).toNat →
      exec (.cmem t f n none) s =
        .next (finished (((r.1.st.setReg c 1 r.1.dst).setReg c 2 r.1.src).setReg c 3 0) c (s1.core c).pc 4 1))) ∧
  ∀ (p : Prog) (x y : Nat) (b : CVal) (g : Word), p.nst = 0 → p.wf = 0 →
    let w := p.sts.getD 0 0
    fld w 22 4 = 0 → fld w 18 4 = 0xD → fld w 10 4 = 0 →
    (stOp w = 0x01 → chainElem p { x := (0, x), a := (0, y), b := b } g = ((0, (fpAdd f32 (rmOf p.arm) x y).1), g)) ∧
    (stOp w = 0x02 → chainElem p { x := (0, x), a := (0, y), b := b } g = ((0, (fpMul f32 (rmOf p.arm) x y).1), g))

/-- R284 to R319: the matrix array's queue, loads, passes, drains and errors.
The model's choices in it: logs 1, 41, 42. -/
def Obligations.MatrixArray : Prop :=
  (∀ (s s1 : State) (t : TileId) (f : LC), (s.tile t.val).mtx.queue.length < 8 → (s.tile t.val).mtx.waiting = false →
    let c := (.tile t : CoreId)
    let a := (s1.core c).reg f.rs1
    let w := (s1.core c).reg f.rs2
    ∀ i ∈ [Instr.mcfg t f, .mwld t f, .mpass t f, .mdrain t f, .mlda t f, .msync t f],
      (Ready s c [f.rs1, f.rs2] 4 s1 → cp0Code s1 t i f a w = 0 →
        exec i s = .next (completed s1 c 4 1 fun s => cp0Push s t i f a w) ∧
        ∀ u, ∃ e, ((cp0Push u t i f a w).tile t.val).mtx.queue = (u.tile t.val).mtx.queue ++ [e] ∧
          e.instr = i ∧ e.r1 = a ∧ e.r2 = w ∧ e.cfg = (u.tile t.val).mtx.cfgIssue ∧ e.rd = f.rd) ∧
      (∀ n, Ready s c [f.rs1, f.rs2] 4 s1 → Quiet s1 c → cp0Code s1 t i f a w = n →
        n ≠ 0 → exec i s = .next (faulted s1 c { code := cCop, sub := 8 * n }))) ∧
  (∀ (s : State) (t : TileId) (f : LC), f.rd = 0 → f.rs2 = 0 → ∀ a w : Word, pairOk a = true → wbit a 11 = false →
    cp0Code s t (.mcfg t f) f a w = 0) ∧
  (∀ (s : State) (t : TileId) (e : Cp0Entry) (rest : List Cp0Entry), s.power = .run → (s.tile t.val).oos = false →
    (s.tile t.val).mtx.queue = e :: rest → (s.tile t.val).mtx.handed = [] → (s.tile t.val).mtx.feed = false →
    let x := (s.tile t.val).mtx
    let pop := s.updMtx t.val fun x => { x with queue := rest, wld := false }
    (∀ f, e.instr = .mcfg t f → exec (.cp0Start t) s = .next (s.updMtx t.val fun x => { x with queue := rest, cfg := e.r1 &&& 0xBFF })) ∧
    (∀ f, e.instr = .mwld t f → x.passes = [] → (∀ y ∈ (s.tile t.val).l1.bad, y < e.r1.toNat) →
      let b := wfld e.r2 0 1
      ∃ u, exec (.cp0Start t) s = .next u ∧ (u.tile t.val).mtx.queue = rest ∧ (u.tile t.val).mtx.wld = true ∧
        aget none (u.tile t.val).mtx.wfmt b = some (BitVec.ofNat 4 (cfgW e.cfg)) ∧
        (∀ k < 32, ∀ n < mtxCols e.cfg, aget 0 (u.tile t.val).mtx.wbuf (1024 * b + 32 * k + n) =
          BitVec.ofNat 32 (wVal s t.val e.cfg e.r1.toNat k n)) ∧
        (∀ i, i / 1024 ≠ b → aget 0 (u.tile t.val).mtx.wbuf i = aget 0 x.wbuf i) ∧
        (u.tile t.val).mtx.acc = x.acc ∧ u.mem = s.mem ∧ (u.tile t.val).l1 = (s.tile t.val).l1) ∧
    (∀ f, e.instr = .mlda t f → x.passes = [] → (∀ y ∈ (s.tile t.val).l1.bad, y < e.r1.toNat) →
      let i := wfld e.r2 0 2
      ∃ u, exec (.cp0Start t) s = .next u ∧ (u.tile t.val).mtx.queue = rest ∧ (u.tile t.val).mtx.wld = true ∧
        (∀ j < 1024, aget 0 (u.tile t.val).mtx.acc (1024 * i + j) =
          BitVec.ofNat 32 (ofBytes (readBytes (s.tile t.val).l1.scratch (e.r1.toNat + 4 * j) 4))) ∧
        (∀ j, j / 1024 ≠ i → aget 0 (u.tile t.val).mtx.acc j = aget 0 x.acc j) ∧
        aget false (u.tile t.val).mtx.kind i = wbit e.r2 2 ∧ u.mem = s.mem ∧ (u.tile t.val).l1 = (s.tile t.val).l1) ∧
    (∀ f, e.instr = .mpass t f → passNeed x (cfgRamp e.cfg) = 0 →
      let go := fun (s : State) (r : Nat) => s.updMtx t.val fun x => { x with
        queue := rest, passes := x.passes ++ [e], rampUp := r, ramp := if r = 0 then .active else .up }
      (cfgRamp e.cfg = false → x.ramp = .idle → exec (.cp0Start t) s = .next (go s 32)) ∧
      (cfgRamp e.cfg = false → x.ramp = .up → exec (.cp0Start t) s = .next (go s x.rampUp)) ∧
      (cfgRamp e.cfg = false → x.ramp = .down →
        ∃ step < 32, exec (.cp0Start t) s = .next (go { s with free := s.free + 1 } (8 * (step / 8)))) ∧
      (x.ramp = .active ∨ (cfgRamp e.cfg = true ∧ x.ramp ≠ .down) → exec (.cp0Start t) s = .next (go s 0))) ∧
    (∀ f, e.instr = .mdrain t f → e.batch = none → x.passes = [] →
      exec (.drainStart t) s = .next (runDrain pop t.val e) ∧ exec (.cp0Start t) s = .next (runDrain pop t.val e)) ∧
    (∀ f, e.instr = .msync t f → x.passes = [] →
      exec (.cp0Start t) s = .next (pop.setReg (.tile t) e.rd (mtxStat (pop.tile t.val).mtx)))) ∧
  (∀ (s : State) (t : TileId) (e : Cp0Entry) (rest : List Cp0Entry), s.power = .run → (s.tile t.val).oos = false →
    (s.tile t.val).mtx.passes = e :: rest → (s.tile t.val).mtx.handed = [] → (s.tile t.val).l1.bad = [] →
    (s.tile t.val).mtx.wbad = [] →
    let x := (s.tile t.val).mtx
    let w := e.r2
    let key := fun m n => 1024 * (passA w + m / 32) + 32 * (m % 32) + (if isMode8 e.cfg then n else 16 * b2n (passH w) + n)
    ∃ u, exec (.passFeedStart t [] false) s = .next u ∧ (u.tile t.val).mtx.passes = rest ∧
      (u.tile t.val).mtx.feed = true ∧ (u.tile t.val).mtx.ramp = .active ∧ (u.tile t.val).mtx.rampUp = 0 ∧
      (∀ m < passM w, ∀ n < mtxCols e.cfg, aget 0 (u.tile t.val).mtx.acc (key m n) = BitVec.ofNat 32 (mtxElem e.cfg
        (if passZ w then 0 else (aget 0 x.acc (key m n)).toNat) (passRow s t.val e.cfg e.r1.toNat m) (wCol x (passB w) n))) ∧
      (∀ j, (∀ m < passM w, ∀ n < mtxCols e.cfg, key m n ≠ j) → aget 0 (u.tile t.val).mtx.acc j = aget 0 x.acc j) ∧
      u.mem = s.mem ∧ (u.tile t.val).l1 = (s.tile t.val).l1 ∧ (u.tile t.val).vec = (s.tile t.val).vec ∧
      (u.tile t.val).core = (s.tile t.val).core) ∧
  ∀ (s : State) (t : TileId), s.power = .run → (s.tile t.val).oos = false →
    let x := (s.tile t.val).mtx
    (x.feed = true → x.passes = [] → cfgRamp x.cfg = false →
      mtxTick s t.val = s.updMtx t.val fun x => { x with feed := false, wld := false, ramp := .down }) ∧
    (x.feed = true → x.passes ≠ [] → mtxTick s t.val = s.updMtx t.val fun x => { x with feed := false, wld := false }) ∧
    (x.ramp = .down → x.passes = [] → x.feed = false → (∃ e ∈ x.queue, ∃ t f, e.instr = .mpass t f) →
      exec (.rampDown t) s = .next (s.updMtx t.val fun x => { x with ramp := .idle })) ∧
    (x.ramp ≠ .down → exec (.rampDown t) s = .next s) ∧
    (∀ v, exec (.mtxErr t v) s = .next (s.updMtx t.val fun x => { x with errKind := 0, errMore := 0, errAddr := 0 })) ∧
    ∀ (why : ReadFail) (a : Word),
      let hit := fun (w : Nat × List Byte) => decide (w.1 ≤ a.toNat) && decide (a.toNat < w.1 + w.2.length)
      (x.handed.any hit = false → exec (.drainWriteFailure t why a) s = .next s) ∧
      (x.handed.any hit = true → exec (.drainWriteFailure t why a) s = .next (recordMtx
        (performHanded (s.updMtx t.val fun x => { x with handed := x.handed.filter fun w => !hit w }) t.val) t.val
        (drainErrKind (readFail why)) (readFail why) a.toNat))

/-- R236 to R244: the histogram dump and the clears of TILE_NUMCTL. How much a failed dump wrote is a free value (logs 1, 42). -/
def Obligations.Instruments : Prop :=
  ∀ (s : State) (t : TileId) (h n task : Bool),
    let x := (s.tile t.val).num
    let clears := fun (h n : Bool) (m : Numerics) =>
      let m : Numerics := if h then { m with hist := [] } else m
      if n then { m with drain := 0, src := 0, row := 0, col := 0, inf := false, nan := false, isinf := false, valid := false, ndrain := 0 }
      else m
    let num := fun (d n : Bool) (f : Numerics → Numerics) => s.updTile t.val fun y => { y with
      num := f y.num
      vec := { y.vec with cmemRuns := y.vec.cmemRuns.map fun r => { r with old := r.old || d, drain := if n then 0 else r.drain } } }
    (s.power = .run → (s.tile t.val).oos = false →
      (x.dump = none → exec (.hdump t h n task) s = .next (num true n fun m => clears h n { m with
        dump := some (x.histaddr, (List.range 64).map fun b => aget 0 x.hist b, dumpOk s t.val task), herr := false })) ∧
      (x.dump ≠ none → exec (.hdump t h n task) s = .next (s.updTile t.val fun y => { y with num := { y.num with hlost := true } })) ∧
      exec (.hclr t n) s = .next (num false n (clears true n)) ∧ exec (.nclr t) s = .next (num false true (clears false true))) ∧
    (s.power ≠ .run ∨ (s.tile t.val).oos = true → ∀ i ∈ [Instr.hdump t h n task, .hclr t n, .nclr t], exec i s = .next s) ∧
    (x.dump = none → exec (.histogramDumpEnd t h) s = .next s) ∧
    (∀ a cs ok, x.dump = some (a, cs, ok) → s.power = .run →
      ((∃ r ∈ (s.tile t.val).vec.cmemRuns, r.old = true) → exec (.histogramDumpEnd t h) s = .next s) ∧
      ((∀ r ∈ (s.tile t.val).vec.cmemRuns, r.old = false) →
      let u := performHanded (drainAll faddF32 s (.tile t)) t.val
      let bs := cs.flatMap fun c => toBytes 4 c
      let stop := fun (u : State) (e : Bool) => u.updTile t.val fun y => { y with num := { y.num with dump := none, herr := e } }
      (ok = false → exec (.histogramDumpEnd t h) s = .next (stop u true)) ∧
      (ok = true → exec (.histogramDumpEnd t false) s =
        .next (stop (agentWrite u t.val a bs).1 (agentWrite u t.val a bs).2.isSome)) ∧
      (ok = true → ∃ k, k ≤ bs.length ∧
        exec (.histogramDumpEnd t true) s = .next (stop (agentWrite u.tick t.val a (bs.take k)).1 true))))

/-- R325 to R337: TILE_L1CFG, the change of the way split, fills and prefetches; R145, R332: late store errors.
The model's choices in it: logs 44, 45. -/
def Obligations.L1AndWaySplit : Prop :=
  ∀ (s : State) (t : TileId), s.power = .run → (s.tile t.val).oos = false →
    let x := (s.tile t.val).l1
    let gone := fun (n : Nat) (p : Nat × L1Line) => decide (16 - n ≤ p.1 % 16) && decide (p.1 % 16 < 16 - x.sways)
    (∀ v : Word, let n := wfld v 0 4
      let busy := n < x.sways ∧ ∃ i < 16, inboxHolds (s.inbox t.val i) (32768 * n) = true
      exec (.tileL1cfg t v true) s = .next s ∧
      (n = 15 → exec (.tileL1cfg t v false) s = .next s) ∧
      (n ≠ 15 → busy → exec (.tileL1cfg t v false) s = .next (s.updL1 t.val fun x => { x with ibx := true })) ∧
      (n ≠ 15 → ¬busy → exec (.tileL1cfg t v false) s = .next (s.updL1 t.val fun x => { x with
        stren := v.getLsbD 7, pfen := v.getLsbD 6, det := if v.getLsbD 7 then x.det else {}
        change := if n = x.sways then none else some n
        changeBy := if n = x.sways then none else some (.tile t) }))) ∧
    (x.change = none → exec (.waySplitChange t) s = .next s) ∧
    (∀ n, x.change = some n →
      let perform := fun (u : State) => (u.tile t.val).l1.held.foldl (releaseHeld t.val) (u.updL1 t.val fun y => { y with held := [] })
      (splitFree (s.tile t.val) = false → exec (.waySplitChange t) s = .next s) ∧
      (splitFree (s.tile t.val) = true → (s.tile t.val).mtx.handed = [] → n ≤ x.sways →
        exec (.waySplitChange t) s = .next (perform (s.updL1 t.val fun x => { x with
          scratch := x.scratch.filter fun p => decide (p.1 < 32768 * n)
          bad := x.bad.filter fun b => decide (b < 32768 * n), sways := n, change := none, changeBy := none }))) ∧
      (splitFree (s.tile t.val) = true → (s.tile t.val).mtx.handed = [] → s.updTile t.val id = s → x.sways < n →
        exec (.waySplitChange t) s = .next (perform (((x.lines.filter (gone n)).foldl (fun s p => victimWrite s t.val p.2) s).updL1 t.val fun y =>
          { y with lines := y.lines.filter fun p => !gone n p, sways := n, change := none, changeBy := none })))) ∧
    (∀ (mr : Fin 128) (err : LineErr),
      (afind x.miss mr.val = none → exec (.lineFill t mr err) s = .next s) ∧
      (∀ m, afind x.miss mr.val = some m →
        let u := strikeLine (s.updL1 t.val fun x => { x with miss := adel x.miss mr.val }) m.line err
        let w := (lineRead u m.line false).1
        (l1Find (u.tile t.val).l1 m.line ≠ none → exec (.lineFill t mr err) s = .next u) ∧
        (∀ k, l1Find (u.tile t.val).l1 m.line = none → lineFail u m.line = some (.uncorr k) →
          exec (.lineFill t mr err) s = .next (contError w (srcTile t.val) 0x03 (m.line * 128))) ∧
        (l1Find (u.tile t.val).l1 m.line = none → lineFail u m.line = none →
          exec (.lineFill t mr err) s = .next (l1Install w t.val
            { line := m.line, dirty := false, data := lineOfBytes (readBytes w.mem (m.line * 128) 128), use := 0, pf := some m.key })))) ∧
    (∀ (st : Fin 16), (afind x.streams st.val = none → exec (.prefetch t st) s = .next s) ∧
      (∀ p, afind x.streams st.val = some p →
        let l : Int := p.last + p.stride * ((p.ahead : Int) + 1)
        let u := s.updL1 t.val fun x => { x with streams := aput x.streams st.val { p with ahead := p.ahead + 1 } }
        (x.pfen = false ∨ p.confirmed = false ∨ p.depth ≤ p.ahead ∨ 112 < x.miss.length → exec (.prefetch t st) s = .next s) ∧
        (∀ i, x.pfen = true → p.confirmed = true → p.ahead < p.depth → x.miss.length ≤ 112 → pfAllowed u t.val l = true →
          l1Find x l.toNat = none → (∀ m ∈ x.miss, m.2.line ≠ l.toNat) → i < 128 → ahas x.miss i = false →
          (∀ j < i, ahas x.miss j = true) →
          exec (.prefetch t st) s = .next (u.updL1 t.val fun x => { x with miss := aput x.miss i ⟨l.toNat, p.key⟩ })))) ∧
    (let c := (.tile t : CoreId)
     let clear := s.updCore c fun k => { k with ipLst := false }
     (x.lines = [] → ∀ l, exec (.lateStore c (some l)) s = .next s) ∧
     ((s.core c).sbuf = [] → exec (.lateStore c none) s = .next s) ∧
     (((drainOne faddF32 clear c).core c).ipLst = true → (s.core c).sbuf ≠ [] →
      exec (.lateStore c none) s = .next (drainOne faddF32 clear c)) ∧
     (∀ e es, (s.core c).sbuf = e :: es → isRemote s e.addr = true → e.kind = .misaligned →
      ∃ u, exec (.lateStore c none) s = .next u ∧ (u.core c).ipLst = true ∧
        u = recordLate (s.updCore c fun k => { k with ipLst := false, sbuf := es }) c e.addr (lateKind .bus)))

/-- R339 to R345, R539, R540: fences, the cache instructions, atomics, the merging buffer and `waitq` (on a service core: log 60).
The model's choices in it: logs 2, 43, 60. -/
def Obligations.FencesAndAtomics : Prop :=
  (∀ n ∈ [4, 8], ∀ old < 2 ^ (8 * n), ∀ src < 2 ^ (8 * n), ∀ cmp < 2 ^ (8 * n), ∀ fadd, let v := fun op => amoNew fadd op n old src cmp
    v .add = (old + src) % 2 ^ (8 * n) ∧ v .swap = src ∧ v .cas = (if old = cmp then src else old) ∧ v .fadd = fadd old src ∧
    toInt (8 * n) (v .min) = min (toInt (8 * n) old) (toInt (8 * n) src) ∧
    toInt (8 * n) (v .max) = max (toInt (8 * n) old) (toInt (8 * n) src)) ∧
  (∀ (s : State) (v : SvcId), s.power = .run → exec (.mergingBufferDrain v) s = .next (drainOne faddF32 s (.svc v))) ∧
  ∀ (c : CoreId) (s s1 : State) (f : LR),
    let k := s1.core c
    let a := k.reg f.rs1
    (Ready s c [] 4 s1 → noFields f = true → ∀ i ∈ [Instr.fence c f, .fenceW c f],
      (((drainWait s1 c).core c).remote = [] → exec i s = .next (completed s1 c 4 2 fun s => drainWait s c)) ∧
      (((drainWait s1 c).core c).remote ≠ [] → exec i s = .next (addSteps (addStall (drainWait s1 c) c) c 0))) ∧
    (Ready s c [f.rs1] 4 s1 → f.rd = 0 → f.rs2 = 0 → f.f = false →
      let l := a &&& ~~~(0x7F#64)
      (∀ x, permitted s1 c l 128 rightW = true → localAddr s1 l = some x → exec (.dcz c f) s = .next (completed s1 c 4 1 fun s =>
        bufferWrite faddF32 (bufferStall s c) c ⟨BitVec.ofNat 64 (canonAddr c x), (List.range 128).map fun i => (i, 0), .dcz⟩)) ∧
      (permitted s1 c l 128 rightW = false → Quiet s1 c →
        exec (.dcz c f) s = .next (faulted s1 c { code := cStoreWin, addr := l })) ∧
      (permitted s1 c l 128 rightW = true → isRemote s1 l = true → Quiet s1 c →
        exec (.dcz c f) s = .next (faulted s1 c { code := cLoadBus, addr := a }))) ∧
    (Ready s c [f.rs1, f.rs2] 4 s1 → f.rd = 0 → f.f = false →
      let n := if f.rs2 = 0 then 1 else (k.reg f.rs2).toNat
      let ls := rangeLines a n
      let act := fun (inval : Bool) (s : State) (l : Nat) => match c with
        | .tile t => if inval then l1Flush s t.val l else l1WriteBack s t.val l
        | .svc v => if inval then
            s.setSvc v.val { s.svc v.val with dcache := aput (s.svc v.val).dcache (l % 64) ((dcSet (s.svc v.val) l).filter fun p => p.1 ≠ l) }
          else s
      ∀ p ∈ [(false, Instr.dcwb c f), (true, .dcinv c f)],
        (n ≤ 65536 → (∀ x ∈ ls, permitted s1 c x 128 rightR = true) → (n ≠ 0 → (localAddr s1 a).isSome = true) →
          exec p.2 s = .next (completed s1 c 4 (2 + ls.length) fun s => ls.foldl (fun s x => match cacheLine s x with
            | some l => act p.1 s l
            | none => s) (let u := drainWait s c; if dirtyIn u c ls then addStall u c else u))) ∧
        (65536 < n → Quiet s1 c → exec p.2 s = .next (faulted s1 c { code := cIllegal })) ∧
        (n ≤ 65536 → (∀ x ∈ ls, permitted s1 c x 128 rightR = true) → n ≠ 0 → localAddr s1 a = none → Quiet s1 c →
          exec p.2 s = .next (faulted s1 c { code := cLoadBus, addr := a })) ∧
        (∀ x, n ≤ 65536 → ls.find? (fun x => !permitted s1 c x 128 rightR) = some x → Quiet s1 c →
          exec p.2 s = .next (faulted s1 c { code := cLoadWin, addr := x }))) ∧
    (∀ (d : Bool), Ready s c [f.rs1, f.rs2, f.rd] 4 s1 → f.f = false →
      let m := if d then 8 else 4
      ∀ p ∈ [(AmoOp.add, m, true, Instr.amoadd c d f), (.swap, m, true, .amoswap c d f), (.cas, m, true, .amocas c d f),
          (.min, m, true, .amomin c d f), (.max, m, true, .amomax c d f), (.fadd, 4, false, .amofaddF32 c f)],
        let op := p.1
        let n := p.2.1
        (firstDenied (fun x m => permitted s1 c x m rightRW) a n = none →
          (∀ l, a.toNat % n = 0 → localAddr s1 a = some l → isReg s1 c l n = false →
            (f.rd = 0 → op ≠ .cas → exec p.2.2.2 s = .next (completed s1 c 4 1 fun s =>
              bufferWrite faddF32 (bufferStall s c) c ⟨BitVec.ofNat 64 (canonAddr c l), [], .amo op (n = 8) (k.reg f.rs2)⟩)) ∧
            (∀ s3 old, (f.rd ≠ 0 ∨ op = .cas) →
              amoAt faddF32 (drainWait s1 c) c l n op (k.reg f.rs2).toNat (k.reg f.rd).toNat = (s3, .ok old) →
              exec p.2.2.2 s = .next (finished (loadOwe (s3.setReg c f.rd (extend p.2.2.1 (toBytes n old))) c f.rd false) c k.pc 4 1))) ∧
          (a.toNat % n ≠ 0 → Quiet s1 c → exec p.2.2.2 s = .next (faulted s1 c { code := cLoadBus, sub := 1, addr := a })) ∧
          (∀ l, a.toNat % n = 0 → localAddr s1 a = some l → isReg s1 c l n = true → Quiet s1 c →
            exec p.2.2.2 s = .next (faulted s1 c { code := cLoadBus, sub := 2, addr := a }))) ∧
        (∀ x, firstDenied (fun x m => permitted s1 c x m rightRW) a n = some x → Quiet s1 c →
          exec p.2.2.2 s = .next (faulted s1 c { code := cStoreWin, addr := x }))) ∧
    (∀ (t : TileId) (off : Nat) (n : Nat) (op : AmoOp) (u : State) (src cmp : Nat), c = .tile t →
      off + n ≤ min 0x80000 (scratchBytes u t.val) → (∀ b ∈ (u.tile t.val).l1.bad, ¬(off ≤ b ∧ b < off + n)) →
      let old := ofBytes (readBytes (u.tile t.val).l1.scratch off n)
      amoAt faddF32 u c (0xFC00000000 + off) n op src cmp =
        (scratchWrite u t.val off (toBytes n (amoNew faddF32 op n old src cmp)), .ok old)) ∧
    (Ready s c [f.rs1, f.rs2] 4 s1 → f.f = false →
      let b := k.reg f.rs2
      let sel : BitVec 16 := a.extractLsb' 0 16
      let tq := a.getLsbD 16
      let off := (a.toNat / 2 ^ 32) % 2 ^ 20
      (∀ v, c = .svc v → s = s1 → exec (.waitq c f) s = .next (faulted s1 c { code := cIllegal })) ∧
      (∀ t : TileId, c = .tile t → wfld a 17 15 = 0 → wfld a 52 12 = 0 → wfld b 32 32 = 0 →
        (tq = true → scratchBytes s1 t.val < off + 32 → (waitDone s1 t.val sel tq = true ∨ b = 0 ∨ t0free (s1.core c) ≠ none) → Quiet s1 c →
          exec (.waitq c f) s = .next (faulted s1 c { code := cStoreWin, addr := BitVec.ofNat 64 (0xFC00000000 + off) })) ∧
        ((tq = true → off + 32 ≤ scratchBytes s1 t.val) →
        let park := fun (s : State) (i : Option Nat) =>
          let s := if tq then s.updTaskq (clusterOf t.val) fun q => { q with parked := q.parked ++ [t.val] } else s
          feSettle (firstWaitq (s.updCore c fun k => { k with run := .parked ⟨f.rd, sel, tq, off, i⟩ }) t.val)
        (waitDone s1 t.val sel tq = true → exec (.waitq c f) s = .next (completed s1 c 4 12 fun s =>
          let r := waitResult s t.val sel tq off false
          feSettle (firstWaitq (r.1.setReg c f.rd r.2) t.val))) ∧
        (waitDone s1 t.val sel tq = false → b = 0 → exec (.waitq c f) s = .next (addSteps (park s1 none) c 12)) ∧
        (∀ i, waitDone s1 t.val sel tq = false → b ≠ 0 → t0free (s1.core c) = some i → exec (.waitq c f) s =
          .next (addSteps (park (s1.updCore c fun k => t0take k i true (s1.mono + b.toNat * 1000)) (some i)) c 12)) ∧
        (waitDone s1 t.val sel tq = false → b ≠ 0 → t0free (s1.core c) = none → Quiet s1 c →
          exec (.waitq c f) s = .next (faulted s1 c { code := cTimerBusy })))))

/-- R350 to R363: the mover's registers, descriptors, units, halts and completion.
The model's choices in it: logs 30, 31, 32, 83. -/
def Obligations.Mover : Prop :=
  (∀ (bs : List Byte) (k : Nat) (b : Byte), bs[k]? = some b →
    (expandI4 bs)[2 * k]? = some ((b.extractLsb' 0 4).signExtend 8) ∧ (expandI4 bs)[2 * k + 1]? = some ((b.extractLsb' 4 4).signExtend 8)) ∧
  (∀ (d : Desc) (i : Nat) (bs : List Byte) (x : Int), let n := d.p0.toNat % 2 ^ 32
    (d.type = 0 → d.units = wfld d.p0 32 16 + 1 ∧ unitSrc d i x = some (stepAddr d.src (toInt 32 (wfld d.p1 0 32)) i, n) ∧
      unitData d (unitDst d i x) bs = [(stepAddr d.dst (toInt 32 (wfld d.p1 32 32)) i, bs)]) ∧
    (d.type = 1 → d.units = wfld d.p0 0 8 + 1 ∧
      unitSrc d i x = some (stepAddr d.src (wfld d.p1 0 32 : Nat) i, wfld d.p0 8 8 * 2 ^ wfld d.p0 16 2) ∧
      ∀ k < 32, (unitData d (unitDst d i x) bs)[k]? =
        some (aliasAddr (d.dst.toNat + (i + k) * (32 * 2 ^ wfld d.p0 16 2) + k * 2 ^ wfld d.p0 16 2),
          if k < wfld d.p0 8 8 then (bs.drop (k * 2 ^ wfld d.p0 16 2)).take (2 ^ wfld d.p0 16 2)
          else List.replicate (2 ^ wfld d.p0 16 2) 0)) ∧
    (d.type = 2 → unitSrc d i x = some (d.src + BitVec.ofInt 64 (x * d.p2.toInt), n) ∧
      unitData d (unitDst d i x) bs = [(d.dst + BitVec.ofNat 64 (i * n), bs)]) ∧
    (d.type = 3 → unitSrc d i x = some (d.src + BitVec.ofNat 64 (i * n), n) ∧
      unitData d (unitDst d i x) bs = [(d.dst + BitVec.ofInt 64 (x * d.p2.toInt), bs)]) ∧
    (d.type = 4 → unitSrc d i x = none ∧ unitData d (unitDst d i x) bs =
      [(d.dst + BitVec.ofNat 64 (4096 * i), List.replicate (min 4096 (wfld d.p0 0 40 - 4096 * i)) 0)]) ∧
    (d.type = 5 → unitSrc d i x = some (stepAddr d.src (wfld d.p1 0 32 : Nat) i, (n + 1) / 2) ∧
      unitData d (unitDst d i x) bs = [(stepAddr d.dst (wfld d.p1 32 32 : Nat) i, (expandI4 bs).take n)])) ∧
  ∀ (s : State) (t : TileId) (q : Fin 4), s.power = .run → (s.tile t.val).oos = false →
    let m := s.movq t.val q.val
    let upd := s.updMovq t.val q.val
    let head := headAddr m
    let task := decide (q.val < 3)
    (∀ v : Word,
      exec (.movQbase t q v) s = .next (upd fun m => if m.state = .idle ∧ wfld v 0 4 ≤ 10 then
        { m with base := wfld v 8 32 * 256, lsz := wfld v 0 4, head := 0, tail := 0 } else m) ∧
      exec (.movQtail t q v) s = .next (upd fun m => if wfld v 0 16 < 2 ^ (m.lsz + 2) then { m with tail := wfld v 0 16 }
        else { m with berr := true })) ∧
    (exec (.movQctlReset t q) s = .next ((releaseGrant (performRel s t.val q.val).1 (.mover t.val q.val)).updMovq t.val q.val fun m =>
      { m with head := m.tail, state := .idle, active := none })) ∧
    (m.state ≠ .halted → exec (.movQctlSkip t q) s = .next s ∧ exec (.movQctlResume t q) s = .next s) ∧
    (m.state = .halted →
      (let w := (writeStat s t.val q.val (3 * 2 ^ 30 + b2n m.late * 2 ^ 29 + b2n m.sigf * 2 ^ 28 + m.code * 2 ^ 16 + m.idx)).1
       exec (.movQctlSkip t q) s = .next ((releaseGrant w (.mover t.val q.val)).updMovq t.val q.val fun m =>
        { m with head := (m.head + 1) % 2 ^ (m.lsz + 2), state := .idle, active := none })) ∧
      (m.sigf = false → exec (.movQctlResume t q) s = .next (movBegin s t.val q.val none m.idx)) ∧
      (∀ u bs, m.sigf = true → placeWin s t.val task head 64 rightR 2 2 = none → agentRead s t.val head 64 = (u, .ok bs) → exec (.movQctlResume t q) s =
        .next (u.updMovq t.val q.val fun m => { m with state := .running, active := some ⟨bs, (descOf bs).units, false, true, [], 0⟩ }))) ∧
    (∀ p ∈ [(0, Instr.copy t q), (1, .skew t q), (2, .gather t q), (3, .scatter t q), (4, .zero t q), (5, .i4x t q)],
      (m.state ≠ .idle ∨ m.head = m.tail → exec p.2 s = .next s) ∧
      (m.state = .idle → m.head ≠ m.tail →
        (∀ y, placeWin s t.val task head 64 rightR 2 2 = some y →
          exec p.2 s = .next (movHalt s t.val q.val 0 2 y.2 false false none)) ∧
        (∀ u bs, placeWin s t.val task head 64 rightR 2 2 = none → agentRead s t.val head 64 = (u, .ok bs) →
          let d := descOf bs
          let run := fun (st : MovState) => u.updMovq t.val q.val fun m => { m with state := st, active := some ⟨bs, 0, false, false, [], 0⟩ }
          (d.type ≠ p.1 → d.type ≤ 5 → exec p.2 s = .next u) ∧
          (d.type = p.1 → d.ok = false → exec p.2 s = .next (movHalt u t.val q.val 0 1 head false false none)) ∧
          (d.type = p.1 → d.ok = true → d.total < 65536 → exec p.2 s = .next (run .running)) ∧
          (d.type = p.1 → d.ok = true → 65536 ≤ d.total → 0 < d.units → exec p.2 s = .next
            (requestGrant (run .waitGrant) (.mover t.val q.val) 2 (some (dieOfTile t.val)) (rtTile u t.val)))))) ∧
    (∀ a fail, m.state = .running → m.active = some a → a.sigOnly = false → a.unit < (descOf a.desc).units →
      (xactFree s t.val q.val = false → exec (.moverUnitRead t q fail) s = .next s) ∧
      (∀ u c x e, xactFree s t.val q.val = true → runUnit s t.val task (descOf a.desc) a.unit fail = (u, .error (c, x, e)) → (flushRel u t.val q.val).2 = true →
        exec (.moverUnitRead t q fail) s = .next (movHalt (flushRel u t.val q.val).1 t.val q.val a.unit c x false false e)) ∧
      (∀ u ws n, xactFree s t.val q.val = true → runUnit s t.val task (descOf a.desc) a.unit fail = (u, .ok (ws, n)) → (flushRel u t.val q.val).2 = true →
        let rel := ws.map fun w => (a.unit, (match localAddr u w.1 with | some l => l | none => w.1.toNat), w.2)
        exec (.moverUnitRead t q fail) s = .next ((flushRel u t.val q.val).1.updMovq t.val q.val fun m =>
          { m with active := some { a with unit := a.unit + 1, released := rel, xact := n } }))) ∧
    (∀ a, m.state = .running → m.active = some a → (descOf a.desc).units ≤ a.unit →
      let d := descOf a.desc
      let adv := fun (u : State) => (releaseGrant u (.mover t.val q.val)).updMovq t.val q.val fun m =>
        { m with head := (m.head + 1) % 2 ^ (m.lsz + 2), state := .idle, active := none }
      ∀ u w, flushRel s t.val q.val = (u, true) → writeStat u t.val q.val (2 ^ 30) = (w, true) →
        (d.sig = false → exec (.descriptorCompletion t q) s = .next (adv w)) ∧
        (d.sig = true → wfld d.sigaddr 0 3 ≠ 0 →
          exec (.descriptorCompletion t q) s = .next (movHalt w t.val q.val 0 11 d.sigaddr false true none)) ∧
        (∀ z, d.sig = true → wfld d.sigaddr 0 3 = 0 →
          placeWin w t.val task d.sigaddr 8 (if d.sigadd then rightRW else rightW) 11 11 = none →
          agentSignal w t.val d.sigaddr d.sigadd d.sigval = (z, none) → exec (.descriptorCompletion t q) s = .next (adv z))) ∧
    (∀ unit why addr, (m.active = none → exec (.moverWriteFailure t q unit why addr) s = .next s) ∧
      (∀ a w, m.active = some a → w ∈ a.released → w.1 = unit → w.2.1 ≤ addr.toNat → addr.toNat < w.2.1 + w.2.2.length →
        let keep := a.released.flatMap fun w =>
          ((linesOf w.2.1 w.2.2).filter fun p => p.1 / 128 ≠ addr.toNat / 128).map fun p => (w.1, p.1, p.2)
        exec (.moverWriteFailure t q unit why addr) s = .next (movHalt
          (performRel (upd fun m => { m with active := some { a with released := keep } }) t.val q.val).1
          t.val q.val unit (match why with | .thermal => 10 | _ => 8) addr true false
          (some (match why with | .bus => .bus | .uncorr => .uncorr 1 | .thermal => .thermal 0)))))

/-- R370 to R378: the issue of the cp1 instructions, their start, and the end of operations (gput at its limit: log 36).
The model's choices in it: logs 35, 36. -/
def Obligations.GalleryOperations : Prop :=
  (∀ (s s1 : State) (t : TileId) (f : LC), (s.tile t.val).port.queue.length < 8 → Ready s (.tile t) [f.rs1, f.rs2] 4 s1 →
    let c := (.tile t : CoreId)
    let a := (s1.core c).reg f.rs1
    let b := (s1.core c).reg f.rs2
    let task := !(s1.core c).status.lvl
    let bad := fun (n : Nat) (r : Rights) =>
      (firstDenied (ownOk s1 t.val) a n).isSome || (firstDenied (fun x m => permitted s1 c x m r) a n).isSome
    let cop := fun (n : Nat) => Host.Outcome.next (faulted s1 c { code := cCop, sub := 1 + 8 * n })
    let goes := fun (i : Instr) (g : Port1 → Port1) => exec i s = .next (completed s1 c 4 1 fun s => s.updPort t.val fun p =>
      { g p with queue := p.queue ++ [⟨i, a, b, f.rd, task⟩] })
    (∀ i ∈ [Instr.gput t f, .gget t f, .gdispatch t f, .garm t f, .gibgat t f, .gallreduce t f, .greducescatter t f,
        .gallgather t f, .galltoall t f, .gbarrier t f, .gjoin t f],
      (f.rd = 0 → f.rs2 = 0 → a.toNat % 64 = 0 → bad 64 rightRW = false → goes i id) ∧
      (Quiet s1 c → (f.rd ≠ 0 ∨ f.rs2 ≠ 0 → exec i s = cop 1) ∧
        (f.rd = 0 → f.rs2 = 0 → (a.toNat % 64 ≠ 0 → exec i s = cop 2) ∧ (a.toNat % 64 = 0 → bad 64 rightRW = true → exec i s = cop 3)))) ∧
    (let n := 16 * (b.toNat % 32 + 1)
     (f.rd = 0 → a.toNat % 16 = 0 → bad n rightR = false → returnShape b = true → goes (.greturn t f) fun p => openBatch p b) ∧
     (Quiet s1 c → f.rd = 0 → a.toNat % 16 = 0 → bad n rightR = false → returnShape b = false →
      exec (.greturn t f) s = cop 4)) ∧
    (f.rd = 0 → (b.toNat ≤ 2 → goes (.gbeacon t f) id) ∧ (2 < b.toNat → Quiet s1 c → exec (.gbeacon t f) s = cop 5)) ∧
    (f.rs1 = 0 → f.rs2 = 0 → goes (.gsync t f) id)) ∧
  (∀ (s : State) (t : TileId) (e : Cp1Entry) (es : List Cp1Entry), s.power = .run → (s.tile t.val).oos = false →
    let u := drainAll faddF32 s (.tile t)
    let pop := u.updPort t.val fun p => { p with queue := es }
    (s.tile t.val).port.queue = e :: es →
    ((u.tile t.val).core.remote ≠ [] → exec (.cp1Start t) s = .next u) ∧
    ((u.tile t.val).core.remote = [] →
      (∀ f, e.instr = .gsync t f → exec (.cp1Start t) s = .next (if (u.tile t.val).port.ops = [] then
        pop.setReg (tcore t.val) e.rd (galPort (u.tile t.val).port) else u)) ∧
      (∀ f, e.instr = .greturn t f → exec (.cp1Start t) s = .next (returnStart pop t.val e)) ∧
      (∀ f, e.instr = .gbeacon t f → exec (.cp1Start t) s = .next (beaconStart pop e)) ∧
      (∀ f v bs, (u.tile t.val).port.ops.length < 16 → agentRead pop t.val e.r1 64 = (v, .ok bs) →
        (e.instr = .gput t f → exec (.cp1Start t) s = .next (copyStart v t.val e bs false)) ∧
        (e.instr = .gget t f → exec (.cp1Start t) s = .next (copyStart v t.val e bs true)) ∧
        (e.instr = .gdispatch t f → exec (.cp1Start t) s = .next (dispStart v t.val e bs)) ∧
        (e.instr = .garm t f → exec (.cp1Start t) s = .next (armStart v t.val e bs)) ∧
        (e.instr = .gibgat t f → exec (.cp1Start t) s = .next (gatherStart v t.val e bs)) ∧
        (e.instr = .gjoin t f → exec (.cp1Start t) s = .next (joinStart v t.val e bs)) ∧
        (e.instr ∈ [Instr.gallreduce t f, .greducescatter t f, .gallgather t f, .galltoall t f, .gbarrier t f] →
          exec (.cp1Start t) s = .next (collStart v t.val e bs))))) ∧
  (∀ (s : State) (t : Nat) (e : Cp1Entry) (bs : List Byte) (get : Bool),
    let ctl := blkHalf bs 0
    let n := wfld (blkWord bs 0x18) 0 32
    let here := blkWord bs (if get then 0x10 else 0x08)
    let there := blkWord bs (if get then 0x08 else 0x10)
    (27 ≤ fld ctl 0 5 ∨ n = 0 → copyStart s t e bs get = refuseOp s t e bs 1 0) ∧
    (∀ span, tmoSpan s (fld ctl 0 5) = some span → fld ctl 5 20 = 0 → fld ctl 25 1 = 0 → fld ctl 27 5 = 0 → 0 < n →
      wfld (blkWord bs 0x18) 32 32 = 0 → blkWord bs 0x20 = 0 → blkWord bs 0x28 = 0 →
      (∀ k, placeErr s t e.task here n (if get then rightW else rightR) (if get then 4 else 3) = some k →
        copyStart s t e bs get = refuseOp s t e bs k 0) ∧
      (placeErr s t e.task here n (if get then rightW else rightR) (if get then 4 else 3) = none →
        (wfld there 56 8 ≠ 0 → copyStart s t e bs get = refuseOp s t e bs 5 0) ∧
        (∀ o, wfld there 56 8 = 0 → agentWin s t e.task there n (if get then rightR else rightW) = true → n < 65536 →
          findOp (openOp s t e bs (s.mono + span) false).1 t (s.tile t).port.nextOp = some o →
          copyStart s t e bs get = copyMove (openOp s t e bs (s.mono + span) false).1 t o)))) ∧
  (∀ (s : State) (t : TileId) (o : GalOp) (c : Byte) (d : BitVec 16), s.power = .run → findOp s t.val o.id = some o →
    let n := wfld (blkWord o.block 0x18) 0 32
    let ready := o.needGrant = false ∨ o.grant = true
    (∀ id, findOp s t.val id = none → ∀ r, exec (.operationEnd t id r) s = .next s ∧ exec (.galleryOperationTimeout t id) s = .next s) ∧
    (∀ code detail, finishOp s t.val o.id code detail = writeEnd
      (releaseGrant (s.updPort t.val fun p => { p with ops := p.ops.filter fun x => x.id ≠ o.id }) (.op t.val o.id))
      t.val o.instr o.addr o.block true code detail) ∧
    (∀ f, o.instr = .gput t f →
      (ready → exec (.operationEnd t o.id .ok) s = .next (finishOp s t.val o.id 0 ((n + 4095) / 4096))) ∧
      exec (.operationEnd t o.id (.failed c d)) s = .next (finishOp s t.val o.id c.toNat d.toNat) ∧
      (∃ k, exec (.galleryOperationTimeout t o.id) s = .next (finishOp (s.reach o.deadline).tick t.val o.id 9 k))) ∧
    (∀ f, o.instr = .gget t f →
      (covered o.got 0 n = true → exec (.operationEnd t o.id .ok) s = .next (finishOp s t.val o.id 0 ((n + 4095) / 4096))) ∧
      (covered o.got 0 n = false → exec (.operationEnd t o.id .ok) s = .next s) ∧
      exec (.operationEnd t o.id (.failed c d)) s = .next (finishOp s t.val o.id c.toNat (unitsDone o.got n)) ∧
      exec (.galleryOperationTimeout t o.id) s = .next (finishOp (s.reach o.deadline) t.val o.id 9 (unitsDone o.got n))) ∧
    (∀ f, o.instr = .gjoin t f → let g := fld (blkHalf o.block 0) 16 8
      exec (.operationEnd t o.id (.failed c d)) s = .next (joinEnd s g c.toNat) ∧
      exec (.galleryOperationTimeout t o.id) s = .next (joinEnd (s.reach o.deadline) g 9))) ∧
  (∀ (s w : State) (t : Nat) (i : Instr) (a : Word) (bs : List Byte) (code detail : Nat), detail < 65536 → code ≠ 12 → code ≠ 13 →
    let stat := if code = 0 then 2 ^ 30 + detail else 2 * 2 ^ 30 + code * 2 ^ 16 + detail
    let asked := fld (blkHalf bs 0) 27 1 = 1
    let at_ := blkWord bs 0x30
    let add := decide (fld (blkHalf bs 0) 26 1 = 1)
    agentWrite s t (a + 4) (toBytes 4 stat) = (w, none) →
    writeEnd s t i a bs false code detail = w ∧ (¬asked → writeEnd s t i a bs true code detail = w) ∧
    (∀ z, asked → (isRemote w at_ = false ∨ remoteSig i bs = false) → agentSignal w t at_ add (blkWord bs 0x38) = (z, none) →
      writeEnd s t i a bs true code detail = z) ∧
    (∀ t' f, asked → i = .gput t' f → fld (blkHalf bs 0) 25 1 = 1 → isRemote w at_ = true →
      writeEnd s t i a bs true code detail = galSend w (.signal at_ add (blkWord bs 0x38) t 0)))

/-- R323, R366 to R368: remote accesses; R392 to R400: inboxes.
The model's choices in it: logs 8, 79. -/
def Obligations.RemoteAndInboxes : Prop :=
  ∀ (s : State), s.power = .run →
    (∀ (src : Gid) (addr : Word) (len tag : Nat) (data : List Byte),
      (remoteOk s addr len false = none → exec (.remoteRead src addr len tag) s = .next (galSend s (.readReply src tag (.failed 6)))) ∧
      (∀ l u bs, remoteOk s addr len false = some l → busRead s none l len = (u, .ok bs) →
        exec (.remoteRead src addr len tag) s = .next (galSend u (.readReply src tag (.data bs)))) ∧
      (∀ l u e, remoteOk s addr len false = some l → busRead s none l len = (u, .error e) →
        exec (.remoteRead src addr len tag) s = .next (galSend u (.readReply src tag (.failed (match e.1 with
          | .bus => 6
          | .uncorr _ => 12
          | .thermal _ => 13))))) ∧
      (∀ add, let own := (localAddr s addr).bind (scratchOwner s)
        (∀ u, own = some u → (s.tile u).l1.change ≠ none → exec (.remoteWrite src addr ⟨add, data⟩ tag) s =
          .next (s.updL1 u fun x => { x with held := x.held ++ [.remote src addr add data tag] })) ∧
        ((∀ u, own = some u → (s.tile u).l1.change = none) →
          (remoteOk s addr data.length true = none → exec (.remoteWrite src addr ⟨add, data⟩ tag) s = .next (galSend s (.writeAck src tag false))) ∧
          (∀ l, remoteOk s addr data.length true = some l →
            let r := if add then busAdd s none l data.length (ofBytes data) else busWrite s none l data
            exec (.remoteWrite src addr ⟨add, data⟩ tag) s = .next (galSend r.1 (.writeAck src tag r.2.isNone))))) ∧
      (∀ l w, remoteOk s addr len w = some l → localAddr s addr = some l ∧ (w = true → inGraphRegion s l len = false) ∧
        ∃ i < 8, (aget 0 s.gal.rwinLo i).getLsbD (b2n w) = true)) ∧
    (∀ (t : TileId) (e : BufEntry) (es : List BufEntry), let c := (.tile t : CoreId)
      let pop := s.updCore c fun k => { k with remote := es }
      ((s.tile t.val).core.remote = [] → ∀ ok, exec (.remoteStoreAcknowledgement t ok) s = .next s) ∧
      ((s.tile t.val).core.remote = e :: es → exec (.remoteStoreAcknowledgement t true) s = .next pop ∧
        exec (.remoteStoreAcknowledgement t false) s = .next (recordLate pop c e.addr 1))) ∧
    (∀ (t : TileId) (p : PendLoad) (bs : List Byte), let c := (.tile t : CoreId)
      let ends := s.updCore c fun k => { k with waitLoad := none }
      ((s.tile t.val).core.waitLoad = none → ∀ r off, exec (.remoteReadResponse t none off r) s = .next s) ∧
      ((s.tile t.val).core.waitLoad = some p →
        (p.str = false → exec (.remoteReadResponse t none 0 (.data bs)) s =
          .next (((addSteps (ends.setReg c p.rd (extend p.signed (bs.take p.size))) c 1).updCore c fun k => goNext k k.pc p.len))) ∧
        (p.str = true → exec (.remoteReadResponse t none 0 (.data bs)) s =
          .next (ends.updCore c fun k => { k with strData := k.strData ++ [(p.addr, bs.take p.size)] })) ∧
        ∀ e, exec (.remoteReadResponse t none 0 (.failed e)) s =
          .next (takeFault ends c { code := cLoadBus, addr := p.addr } (ends.tile t.val).core.pc)) ∧
      (∀ o f off, findOp s t.val o.id = some o → o.instr = .gget t f →
        let n := wfld (blkWord o.block 0x18) 0 32
        (match (localAddr s (blkWord o.block 0x10)).map fun l => target s (some t.val) l 1 with
          | some (.scratch u _) => (s.tile u).l1.change = none
          | _ => True) →
        (∀ e, exec (.remoteReadResponse t (some o.id) off (.failed e)) s = .next (finishOp s t.val o.id e.toNat (unitsDone o.got n))) ∧
        (∀ u, off + bs.length ≤ n → (o.needGrant = false ∨ o.grant = true) →
          agentWrite s t.val (blkWord o.block 0x10 + BitVec.ofNat 64 off) bs = (u, none) →
          exec (.remoteReadResponse t (some o.id) off (.data bs)) s =
            .next (updOp u t.val o.id fun o => { o with got := (off, bs.length) :: o.got })))) ∧
    (∀ (t : TileId) (i : InboxNo), let x := s.inbox t.val i.val
      let here : InboxRef := ⟨s.gid, Fin.ofNat 256 t.val, Fin.ofNat 16 i.val⟩
      let free := x.nslots - (x.resv - x.head)
      (∀ src req n (hold : List Bool) row,
        ((s.tile t.val).oos = true ∨ x.en = false ∨ 128 * x.pitch < row →
          exec (.inboxReservation t i src req n hold row) s = .next (galSend s (.refuse src req here))) ∧
        ((s.tile t.val).oos = false → x.en = true → row ≤ 128 * x.pitch →
          let k := if x.waiters = [] then min n free else 0
          let rest := (((hold.take n).drop k).filter id).length
          (rest = 0 ∨ 64 ≤ x.waiters.length → exec (.inboxReservation t i src req n hold row) s = .next (grantSlots s t.val i.val src req k)) ∧
          (0 < rest → x.waiters.length < 64 → exec (.inboxReservation t i src req n hold row) s =
            .next ((grantSlots s t.val i.val src req k).updInbox t.val i.val fun x => { x with waiters := x.waiters ++ [⟨src, req, rest⟩] })))) ∧
      (∀ src req k, grantSlots s t.val i.val src req k = galSend (s.updInbox t.val i.val fun x => { x with
        resv := x.resv + k, granted := ((List.range k).map fun j => x.resv + j).foldl (fun m j => aput m j s.mono) x.granted })
        (.grant src req here ((List.range k).map fun j => x.resv + j))) ∧
      (∀ v : Word,
        let set := fun (x : Inbox) => if x.resv ≠ x.head then { x with en := v.getLsbD 63 } else
          { x with en := v.getLsbD 63, nslots := wfld v 40 12, pitch := wfld v 31 9, hdr := wfld v 16 15, rows := wfld v 0 12 }
        (v.getLsbD 63 = true → exec (.galIbcfg t i v) s = .next (serveInbox (s.updInbox t.val i.val set) t.val i.val)) ∧
        (v.getLsbD 63 = false → exec (.galIbcfg t i v) s = .next (x.waiters.foldl (fun s w => galSend s (.refuse w.src w.req (inboxRef s t.val i.val)))
          (s.updInbox t.val i.val fun x => { set x with waiters := [] }))) ∧
        (let d := (v.toNat % 65536 + 65536 - x.head % 65536) % 65536
         (d ≤ x.tail - x.head → exec (.galIbptr t i v) s =
          .next (serveInbox (s.updInbox t.val i.val fun x => { x with head := x.head + d }) t.val i.val)) ∧
         (x.tail - x.head < d → exec (.galIbptr t i v) s = .next s))) ∧
      (∀ slot hdr row, (s.tile t.val).l1.change ≠ none →
        exec (.tokenRow t i slot hdr row) s = .next (s.updL1 t.val fun x => { x with held := x.held ++ [.row i.val slot hdr row] }) ∧
        exec (.voidSlot t i slot) s = .next (s.updL1 t.val fun x => { x with held := x.held ++ [.void i.val slot] })) ∧
      (∀ slot hdr row, (s.tile t.val).l1.change = none →
        (ahas x.granted slot = false → exec (.tokenRow t i slot hdr row) s = .next s) ∧
        (ahas x.granted slot = true → 128 * x.pitch < row.length →
          exec (.tokenRow t i slot hdr row) s = .next (galSend s (.failure hdr.origin hdr.trip 7))) ∧
        (ahas x.granted slot = true → row.length ≤ 128 * x.pitch →
          let ro := 128 * x.rows + slot % x.nslots * (128 * x.pitch)
          let ho := 16 * x.hdr + 16 * (slot % x.nslots)
          exec (.tokenRow t i slot hdr row) s = .next (galSend (slotFilled (scratchPut (scratchPut s t.val ro row)
            t.val ho (hdrBytes hdr (x.tail % 65536))) t.val i.val slot) (.headerAck hdr.origin hdr.trip))) ∧
        (ahas x.granted slot = false → afind x.granted slot = none → exec (.voidSlot t i slot) s = .next s) ∧
        (∀ w, afind x.granted slot = some w → exec (.voidSlot t i slot) s = .next (slotFilled (scratchPut (s.reach (w + 100000)) t.val
          (16 * x.hdr + 16 * (slot % x.nslots)) (hdrBytes ⟨0, 0, 0, 0xFF, 0, 0⟩ 0)) t.val i.val slot))))

/-- R381, R387 to R408: trips, slots and the directory caches (two invalidations at once: log 39).
The model's choices in it: logs 37, 39. -/
def Obligations.TripsAndSlots : Prop :=
  ∀ (s : State), s.power = .run →
    (∀ (t : TileId) (op : Nat) (dst : InboxRef) (slots : List Nat),
      (findOp s t.val op = none → exec (.inboxGrant t op dst slots) s = .next s ∧ exec (.reservationRepeat t op dst) s = .next s ∧
        exec (.dispatchTimeout t op) s = .next s) ∧
      (∀ o g, findOp s t.val op = some o → (o.groups.find? fun g => g.dst = dst) = some g →
        let sent := sendRows s t.val o dst (g.trips.zip slots)
        let rest := (g.trips.drop slots.length).filter fun id => (tripAt sent id.toNat).alt ≠ 0
        (rest = [] → exec (.inboxGrant t op dst slots) s = .next (retryTrips (dispCheck sent t.val op))) ∧
        (rest ≠ [] → exec (.inboxGrant t op dst slots) s = .next (retryTrips (dispCheck (divert sent t.val o rest) t.val op)))) ∧
      (∀ o, findOp s t.val op = some o → exec (.reservationRepeat t op dst) s = .next
        (sendReserve s t.val op (dispOf s o.block).rowBytes (o.groups.filter fun g => g.dst = dst))) ∧
      (∀ u row g, let m : GalMsg := .reserve g.dst (g.trips.map fun id => decide ((tripAt u id.toNat).alt = 0)) row t.val op
        sendReserve u t.val op row [g] = if routed u m then galSend u m else g.trips.foldl (fun s id => failTrip s id 11 false) u) ∧
      (∀ o f, findOp s t.val op = some o → o.instr = .gdispatch t f →
        let late := updOp (s.reach o.deadline) t.val op fun o => { o with timedOut := true, waitTrips := false }
        exec (.dispatchTimeout t op) s = .next (retryTrips (dispCheck
          (((o.groups.flatMap fun g => g.trips) ++ o.sent).foldl (fun s id => failTrip s id 9 true) late) t.val op)))) ∧
    (∀ (n : TripId), let x := tripAt s n.toNat
      let slot := slotAt s x.slot
      (x.state ≠ .sending → exec (.headerAcknowledgement n) s = .next s) ∧
      (x.state = .sending →
        let u := setTrip s n.toNat { x with state := .opened, deadline := s.mono + 2 ^ x.tmo * 1000 }
        exec (.headerAcknowledgement n) s = .next (dispCheck (updOp u x.tile x.op fun o => dropTrip o n) x.tile x.op)) ∧
      (∀ gen d fmt data chk,
        (x.state ≠ .opened ∨ x.gen ≠ gen ∨ d ∈ x.got ∨ x.nb ≤ d → exec (.fragment n gen d fmt data chk) s =
          .next { s with gal := { s.gal with stale := sat32 s.gal.stale 1 } }) ∧
        (x.state = .opened → x.gen = gen → d ∉ x.got → d < x.nb →
          let a := s.gal.basin + 32768 * x.slot + 128 * d
          (∀ u e, combineAt s a x.weight.toNat fmt.toNat data chk = (u, some e) → exec (.fragment n gen d fmt data chk) s =
            .next (retryTrips (failTrip (galFail u x.tile (accCode 5 e) a) n (accCode 5 e) false))) ∧
          (∀ u, combineAt s a x.weight.toNat fmt.toNat data chk = (u, none) →
            let v := setTrip u n.toNat { x with got := d :: x.got }
            (x.got.length + 1 < x.nb → exec (.fragment n gen d fmt data chk) s = .next v) ∧
            (x.nb ≤ x.got.length + 1 → exec (.fragment n gen d fmt data chk) s = .next (endTrip v n))))) ∧
      (∀ c : Byte, exec (.failureNotice n c) s = .next (retryTrips (failTrip s n c.toNat false))) ∧
      (x.state ≠ .opened → exec (.tripTimeout n) s = .next s) ∧
      (x.state = .opened → exec (.tripTimeout n) s = .next (failTrip (s.reach x.deadline) n 9 true)) ∧
      (x.cooling = none → exec (.tripIdReuse n) s = .next s) ∧
      (∀ y, x.cooling = some y → exec (.tripIdReuse n) s = .next (retryTrips (setTrip (s.reach y) n.toNat { x with cooling := none }))) ∧
      (∀ code late, (x.state = .free → failTrip s n code late = s) ∧
        (x.state = .opened → code ≠ 0 →
          let y := { slot with pending := slot.pending - 1, failed := slot.failed + 1,
                               code := if slot.code = 0 then BitVec.ofNat 8 code else slot.code }
          failTrip s n code late = writeStatus (setSlot
            (setTrip s n.toNat { x with
              state := .free, cooling := if late then some (s.mono + 2 ^ (x.tmo + 1) * 1000) else none }) x.slot y) y
            (pack [(y.failed % 65536, 32), (y.code.toNat, 24)])))) ∧
    (∀ (n : SlotNo), let x := slotAt s n.val
      (x.state ≠ .opened ∨ x.pending ≠ 0 → exec (.slotCompletion n) s = .next s) ∧
      (x.state = .opened → x.pending = 0 →
        let ends := fun (u : State) (nan : Bool) =>
          let u := writeStatus u x (slotStatus n.val x nan)
          let u := if x.sig then madeBy x.tile (agentSignal u x.tile x.sigaddr x.sigadd x.sigval) else u
          setSlot (ringTile u x.tile x.db.toNat) n.val { x with state := .free }
        (x.cv = false → exec (.slotCompletion n) s = .next (ends s false)) ∧
        (∀ u bs, x.cv = true → memRead s (s.gal.basin + 32768 * n.val) (4 * x.h) = (u, .ok bs) →
          let r := slotConvert (progOf x.prog) bs x.h
          exec (.slotCompletion n) s = .next
            (ends (madeBy x.tile (agentWrite u x.tile (x.out + BitVec.ofNat 64 (x.j * x.opitch)) r.1)) r.2)))) ∧
    (∀ (u v : State) (x : Slot) (w : Word), agentWrite u x.tile (x.staddr + BitVec.ofNat 64 (8 * x.j)) (toBytes 8 w.toNat) = (v, none) →
      writeStatus u x w = v) ∧
    (∀ (w fmt : Nat) (xs : List Word) (basin : List Byte), ∀ c < 32,
      ofBytes (((combineLine w fmt xs basin).drop (4 * c)).take 4) =
        (fma3 f32 .rne false false w (cvtCode fmt 0 .rne (xs.getD c 0).toNat) (ofBytes ((basin.drop (4 * c)).take 4))).1 % 2 ^ 32) ∧
    (∀ v : Word, let x := if v.getLsbD 20 then none else some (wfld v 0 20)
      (s.gal.dirinv = none → exec (.galDirinv v) s = .next { s with gal := { s.gal with dirinv := some x } }) ∧
      (∀ y, s.gal.dirinv = some y →
        exec (.galDirinv v) s = .next { s with gal := { s.gal with dirinv := some (if x = y then x else none) } })) ∧
    (s.gal.dirinv = none → exec .directoryInvalidationEnd s = .next s) ∧
    (s.gal.dirinv = some none → exec .directoryInvalidationEnd s = .next { s with gal := { s.gal with dircache := [], dirinv := none } }) ∧
    (∀ e, s.gal.dirinv = some (some e) → exec .directoryInvalidationEnd s = .next { s with gal := { s.gal with
      dircache := s.gal.dircache.filter fun p => p.1 % 2 ^ 20 ≠ e, dirinv := none } })

/-- R410 to R418: joins, collectives and beacons.
The model's choices in it: logs 38, 40, 90. -/
def Obligations.Collectives : Prop :=
  (∀ r n c, c ∈ childrenOf r n ↔ 0 < c ∧ c < n ∧ (c - 1) / 16 = r) ∧
  (∀ (sh : CollShape) (a b : Nat), a < 2 ^ 32 → b < 2 ^ 32 →
    (sh.dtype = 9 → (sh.rop = 0 → treeOp sh a b = (a + b) % 2 ^ 32) ∧
      (sh.rop = 1 → toInt 32 (treeOp sh a b) = min (toInt 32 a) (toInt 32 b)) ∧
      (sh.rop = 2 → toInt 32 (treeOp sh a b) = max (toInt 32 a) (toInt 32 b))) ∧
    (sh.dtype ≠ 9 → (sh.rop = 0 → treeOp sh a b = faddF32 a b) ∧
      (sh.rop ≠ 0 → f32.val a = .nan ∨ f32.val b = .nan → treeOp sh a b = f32.nan))) ∧
  (∀ (s : State), exec .beaconPeriod s = .next (if s.power = .run then s.gal.groups.foldl (fun s p =>
    if p.2.coll.isSome then sendBeacon s p.1 (worstBeacon s p.1).1 (worstBeacon s p.1).2.1 (worstBeacon s p.1).2.2 else s) s else s)) ∧
  ∀ (s : State) (g : GroupNo), s.power = .run →
    let x := s.group g.val
    let upd := s.updGroup g.val
    (∀ (src : TreeNbr) (sh : CollShape) (b : Nat) (bs : List Byte),
      let nbr := match src with | .parent => (x.rank - 1) / 16 | .child r => r
      let up := match src with | .parent => true | .child _ => false
      let known := match src with | .parent => x.rank ≠ 0 | .child r => r ∈ childrenOf x.rank x.members.length
      let keep := upd fun x => { x with early := x.early ++ [(if up then 0 else nbr + 1, sh, b, bs)] }
      (x.joined = false ∨ ¬known → exec (.collectiveData g src sh b bs) s = .next s) ∧
      (x.joined = true → known →
        (x.coll = none → exec (.collectiveData g src sh b bs) s = .next (if x.count ≤ sh.num then keep else s)) ∧
        (∀ c, x.coll = some c →
          (sh.num < c.shape.num → exec (.collectiveData g src sh b bs) s = .next s) ∧
          (c.shape.num < sh.num ∨ sh.num = c.shape.num ∧ c.grant = false → exec (.collectiveData g src sh b bs) s = .next keep) ∧
          (sh.num = c.shape.num → c.grant = true →
            (sh ≠ c.shape →
              let told := (nbrsOf x).foldl (fun s r => galSend s (.coll (gidOf x r) g.val { c.shape with dtype := 15 } 0 [])) s
              exec (.collectiveData g src sh b bs) s = .next (settle (failColl told g.val 14 0) g.val)) ∧
            (sh = c.shape → sh.op ∈ [CollOp.allreduce, .reducescatter, .barrier] →
              exec (.collectiveData g src sh b bs) s = .next (settle (if up then collDown s g.val b bs else
                collUp (updColl s g.val fun c => { c with kids := aput c.kids (16 * b + (nbr - 16 * x.rank - 1)) bs }) g.val b) g.val)) ∧
            (sh = c.shape → sh.op ∈ [CollOp.allgather, .alltoall] →
              exec (.collectiveData g src sh b bs) s = .next (settle (collPass s g.val b (some nbr) bs) g.val)))))) ∧
    (∀ (h : BitVec 512),
      exec (.joinHash g .parent h) s = .next (joinStep (upd fun x => { x with hashes := aput x.hashes 0 h }) g.val false) ∧
      (∀ r, exec (.joinHash g (.child r) h) s = .next (joinStep (upd fun x => { x with hashes := aput x.hashes r h }) g.val true)) ∧
      (x.joining = none → ∀ up, joinStep s g.val up = s) ∧
      (∀ r up, x.joining ≠ none → r ∈ childrenOf x.rank x.members.length → ahas x.hashes r = true → aget 0 x.hashes r ≠ x.hash →
        joinStep s g.val up = joinEnd s g.val 14)) ∧
    (∀ (num : Nat) (st : BitVec 2) (cause : BitVec 3) (src : Gid),
      (x.coll = none → exec (.beacon g num st cause src) s = .next s ∧ exec (.collectiveTimeout g) s = .next s) ∧
      (∀ c, x.coll = some c →
        let heard := upd fun x => { x with heard := ⟨st, cause, src, s.mono⟩ :: x.heard.filter fun y => decide (s.mono ≤ y.time + 100000) }
        (c.shape.num ≠ num → exec (.beacon g num st cause src) s = .next s) ∧
        (c.shape.num = num →
          (st = 0 → exec (.beacon g num st cause src) s = .next heard) ∧
          (st = 1 → exec (.beacon g num st cause src) s = .next (updColl heard g.val fun c =>
            { c with deadline := min (max c.deadline (s.mono + c.span)) (c.start + 16 * c.span) })) ∧
          (st = 2 →
            let sent := sendBeacon heard g.val 2 cause.toNat src
            let odd := (sent.group g.val).early.any fun e => e.2.1.num = num && e.2.1 ≠ c.shape
            (odd = false → exec (.beacon g num st cause src) s = .next (settle (finishOp (closeColl sent g.val) c.tile c.op 10 src.toNat) g.val)) ∧
            (odd = true → exec (.beacon g num st cause src) s = .next (settle (finishOp (closeColl sent g.val) c.tile c.op 14 0) g.val)))) ∧
        exec (.collectiveTimeout g) s = .next (settle (failColl (s.reach c.deadline) g.val 9 0) g.val) ∧
        ∀ code d, failColl s g.val code d = finishOp (closeColl (sendBeacon s g.val 2 6 s.gid) g.val) c.tile c.op code d))

/-- R427 to R441, R447, R461: flits, the FEC, acknowledgement, credits, seals and replay.
The model's choices in it: logs 46, 88. -/
def Obligations.FlitLayer : Prop :=
  ∀ (s : State) (p : LaneNo), s.power = .run →
    let l := s.link p.val
    let upd := s.updLink p.val
    let runs := l.state = .up ∨ l.state = .replay
    let key := l.state = .key
    (∀ (i : Fin 8) (n : Nat),
      (n ≤ 15 → takeFec s p.val [(i, n)] = upd fun l => { l with fcorr := sat32 l.fcorr n }) ∧
      (15 < n → takeFec s p.val [(i, n)] = upd fun l => { l with
        funcorr := sat32 l.funcorr 1
        badCw := aput l.badCw i.val (s.mono :: (aget [] l.badCw i.val).filter fun x => decide (s.mono < x + 1000000)) })) ∧
    (∀ (hdr : Word) (payload : List Byte) (chk : FlitCheck),
      let f : WireFlit := ⟨hdr, payload, chk⟩
      let ty := wfld hdr 62 2
      let u := takeFec s p.val chk.fec
      let intact := flitOk f = true ∧ ∀ e ∈ chk.fec, e.2 ≤ 15
      (¬runs → ¬key → exec (.flit p hdr payload chk) s = .next s) ∧ (¬runs → exec (.seal p f) s = .next s) ∧
      (runs → flitOk f = false ∨ ty ≠ 1 → laneBad u (u.link p.val) = true → exec (.flit p hdr payload chk) s = .next (startRetrain u p.val)) ∧
      (runs → laneBad u (u.link p.val) = false →
        (¬intact → flitOk f = false ∨ ty ≠ 1 →
          exec (.flit p hdr payload chk) s = .next (u.updLink p.val fun l => discardFlit { l with crc := sat32 l.crc 1 })) ∧
        (¬intact → flitOk f = false ∨ ty = 1 →
          exec (.seal p f) s = .next (u.updLink p.val fun l => discardFlit { l with crc := sat32 l.crc 1 })) ∧
        (intact → ty = 0 ∨ ty = 3 → wfld hdr 50 12 ≠ (u.link p.val).rxSeq → exec (.flit p hdr payload chk) s = .next (u.updLink p.val discardFlit)) ∧
        (intact → ty = 1 → wfld hdr 50 12 ≠ (u.link p.val).rxSeq → exec (.seal p f) s = .next (u.updLink p.val discardFlit)) ∧
        (intact → hdrNak hdr = false →
          (ty = 2 → exec (.flit p hdr payload chk) s = .next (pump (takeAck u p.val hdr) p.val)) ∧
          (ty = 0 → wfld hdr 50 12 = (u.link p.val).rxSeq → exec (.flit p hdr payload chk) s = .next (pump ((takeAck u p.val hdr).updLink p.val fun l =>
            let c := hdrCls hdr
            let tags := aget [] l.occ c
            let l : Link := { l with
              rxGroup := l.rxGroup ++ [{ hdr := hdr, payload := payload }]
              occ := aput l.occ c (tags ++ [decide ((tags.filter id).length + aget 0 l.owed c < 2)]) }
            let l : Link := { l with rxSeq := (l.rxSeq + 1) % 4096, unacked := l.unacked + 1, nakSent := false }
            if 16 ≤ l.unacked then sendControl l false else l) p.val)) ∧
          (ty = 1 → wfld hdr 50 12 = (u.link p.val).rxSeq →
            let v := takeAck u p.val hdr
            let k := v.link p.val
            let good := (payload).take 16 = groupTag k.rxKey (groupNonce k.rxSalt k.rxSealed) k.rxGroup
            (k.rxGroup = [] → exec (.seal p f) s = .next (v.updLink p.val acceptSeq)) ∧
            (k.rxGroup ≠ [] → good → exec (.seal p f) s = .next (sealOk v p.val)) ∧
            (k.rxGroup ≠ [] → ¬good → exec (.seal p f) s = .next (sealBad v p.val)))) ∧
        (intact → hdrNak hdr = true → ty = 2 → exec (.flit p hdr payload chk) s = .next (pump (takeNak (takeAck u p.val hdr) p.val) p.val)))) ∧
    (discardFlit l = if l.nakSent then l else { sendControl l true with nakSent := true }) ∧
    (∀ h : Word, let n := (wfld h 38 12 + 4096 - (l.txSeq + 4096 - l.replayBuf.length) % 4096) % 4096
      let c := 2 * wfld h 30 2 + wfld h 29 1
      let gives := fun (l : Link) => { l with
        credits := aput l.credits c (min 2 (aget 0 l.credits c + wfld h 24 5))
        shared := l.shared + wfld h 16 8 + (aget 0 l.credits c + wfld h 24 5 - 2) }
      (n = 0 ∨ l.replayBuf.length < n → takeAck s p.val h = upd gives) ∧
      (0 < n → n ≤ l.replayBuf.length → takeAck s p.val h =
        let u := upd fun l => sendKeys { gives l with replayBuf := l.replayBuf.drop n, nakCount := 0, kxReplay := false }
        if l.state = .replay then dropAll (setPort u p.val .up 0) (.port p) else u)) ∧
    (l.rxSealed + 1 ≠ 2 ^ 32 → l.unacked + 1 < 16 → sealOk s p.val = pumpAll ((openGroup l).foldl (fun s f => forward s p.val f)
      (upd fun l => { l with rxGroup := [], sealFails := 0, rxSealed := l.rxSealed + 1, rxSeq := (l.rxSeq + 1) % 4096
                             unacked := l.unacked + 1, nakSent := false }))) ∧
    (let back := fun (l : Link) (n : Nat) => { l with
        rxSeq := (l.rxSeq + 4096 - l.rxGroup.length % 4096) % 4096, rxGroup := [], sealFails := n
        occ := l.rxGroup.foldl (fun m f => aput m (hdrCls f.hdr) (aget [] m (hdrCls f.hdr)).dropLast) l.occ }
     (l.sealFails = 0 → sealBad s p.val = upd fun l => { sendControl (back l 1) true with nakSent := true }) ∧
     (1 ≤ l.sealFails → sealBad s p.val = startRetrain (upd fun l => back l 0) p.val)) ∧
    (¬runs → exec (.sealGroupClose p) s = .next s) ∧
    (runs → l.txGroup = [] → exec (.sealGroupClose p) s = .next (pump s p.val)) ∧
    (runs → l.txGroup ≠ [] → l.replayBuf.length < 512 → l.sealed + 1 ≠ 2 ^ 32 → exec (.sealGroupClose p) s = .next (pump
      (upd fun l =>
        let tag := groupTag l.txKey (groupNonce l.txSalt l.sealed) l.txGroup
        { sendNumbered l { hdr := pack [(1, 62), (b2n l.epoch, 15)], payload := tag } with txGroup := [], sealed := l.sealed + 1 }) p.val)) ∧
    (l.unacked = 0 ∨ (¬runs ∧ ¬key) → exec (.ackTimer p) s = .next s) ∧
    (runs ∨ key → l.unacked ≠ 0 → exec (.ackTimer p) s = .next (upd fun l => sendControl l false)) ∧
    (l.replayBuf = [] ∨ (¬runs ∧ ¬key) → exec (.replay p) s = .next s) ∧
    (l.replayBuf ≠ [] →
      let again := fun (l : Link) => { l.replayBuf.foldl (fun l f => putWire l false f) l with replays := sat16 l.replays 1 }
      (l.state = .replay ∨ (key ∧ l.kxReplay = true) → l.replayStart + 50000 ≤ s.mono → exec (.replay p) s = .next (startRetrain s p.val)) ∧
      (l.state = .replay ∨ (key ∧ l.kxReplay = true) → s.mono < l.replayStart + 50000 → exec (.replay p) s = .next (upd again)) ∧
      (l.state = .up → l.kxReplay = false → exec (.replay p) s = .next
        ((holdAll ((setPort s p.val .replay 0).updLink p.val fun l => { l with replayStart := s.mono }) (.port p)).updLink p.val again)) ∧
      (key → l.kxReplay = false → exec (.replay p) s = .next
        ((upd fun l => { l with replayStart := s.mono, kxReplay := true }).updLink p.val again)))

/-- R434 to R451: key setup, retraining, the lane decision, the route tables and the choice of a port. The DRBG's draws and the
FIPS functions are free: log 87. The model's choices in it: logs 46, 47, 48, 87. -/
def Obligations.LinkSetup : Prop :=
  (∀ (s : State) (cands : List Nat) (cls : Nat) (ord : Bool), let up := cands.filter (isUp s)
    (up = [] → choosePort s cands cls ord = cands.head?) ∧
    (∀ q qs, up = q :: qs → (ord = true → choosePort s cands cls ord = some q) ∧
      (ord = false → ∃ r, choosePort s cands cls ord = some r ∧ r ∈ up ∧
        ∀ x ∈ up, freeCredits (s.link x) cls ≤ freeCredits (s.link r) cls))) ∧
  (∀ n, narrow n ≤ n ∧ narrow n ∈ [0, 1, 2, 4, 8] ∧ ∀ m ∈ [1, 2, 4, 8], m ≤ n → m ≤ narrow n) ∧
  ∀ (s : State) (p : LaneNo), s.power = .run →
    let l := s.link p.val
    let upd := s.updLink p.val
    let runs := l.state = .up ∨ l.state = .replay
    let hold : HoldRes := .port p
    (l.state ≠ .key → ∀ m, exec (.keyExchange p m) s = .next s) ∧
    (l.state = .key →
      (∀ nonce cert ev pport peer, let m := KeyMsg.hello nonce cert ev pport peer
        let r := exec (.keyExchange p m) s
        let u := upd fun l => takeHello l nonce cert ev pport peer
        let low := lowerSide u p.val
        let v := u.updLink p.val fun l => addKx (addKx l low (helloBytes u p.val l.kxNonce)) (!low) (msgBytes m)
        let seed := BitVec.ofNat 512 (ofBytes (Config.freeBytes v.free 64))
        (l.kxHello = true → r = .next s) ∧
        (l.kxHello = false → low = false → r = .next v) ∧
        (l.kxHello = false → low = true → r = .next (sendKey (v.tick.updLink p.val fun l =>
          addKx { l with kxSeed := seed } true (Config.mlkemKey seed)) p.val (Config.mlkemKey seed)))) ∧
      (∀ ek, let r := exec (.keyExchange p (.encapKey ek)) s
        let k := Config.mlkemEncaps ek (BitVec.ofNat 256 (ofBytes (Config.freeBytes s.free 32)))
        let u := (upd fun l => addKx l true ek).tick.updLink p.val fun l => addKx { l with kxSecret := some k.2 } false k.1
        (l.kxHello = true → lowerSide s p.val = false → l.kxSecret = none → r = .next (sendSignature (sendKey u p.val k.1) p.val)) ∧
        (l.kxHello = false ∨ lowerSide s p.val = true ∨ l.kxSecret ≠ none → r = .next s)) ∧
      (∀ ct, let r := exec (.keyExchange p (.ciphertext ct)) s
        let u := (upd fun l => addKx l false ct).updLink p.val fun l => { l with kxSecret := some (Config.mlkemDecaps l.kxSeed ct) }
        (l.kxHello = true → lowerSide s p.val = true → l.kxSecret = none → r = .next (sendSignature u p.val)) ∧
        (l.kxHello = false ∨ lowerSide s p.val = false ∨ l.kxSecret ≠ none → r = .next s)) ∧
      (∀ sig, let r := exec (.keyExchange p (.signature sig)) s
        (l.kxSecret = none → r = .next s) ∧
        (∀ ss, l.kxSecret = some ss →
          let fail := fun n => Host.Outcome.next (failPort s p.val n)
          let signed := l.peerOk = true ∧ Config.slhVerify l.peerPk (kxHash l) sig = true
          let owned := l.peerOwner = ownerDigest s
          let newer := s.start.cfg.minSvn ≤ l.peerSvn
          let asked := l.peer = l.expPeer ∧ l.pport = l.expPort
          (¬signed → r = fail 1) ∧ (signed → ¬owned → r = fail 2) ∧ (signed → owned → ¬newer → r = fail 3) ∧
          (signed → owned → newer → ¬asked → r = fail 4) ∧
          (signed → owned → newer → asked → r = .next (linkUp s p.val ss))))) ∧
    (exec (.retrain p) s = .next (startRetrain s p.val)) ∧
    (∀ lane : Fin 8, (lane.val < l.cwid → exec (.lossOfSignal p lane) s = .next (startRetrain s p.val)) ∧
      (l.cwid ≤ lane.val → exec (.lossOfSignal p lane) s = .next s)) ∧
    (¬runs → l.state ≠ .key → startRetrain s p.val = s) ∧
    (runs ∨ l.state = .key → startRetrain s p.val = holdAll ((setPort s p.val .retrain 0).updLink p.val fun x =>
      { x with retrains := sat16 x.retrains 1, retrainStart := s.mono, nakCount := 0, nakSent := false, kxReplay := false
               kxAgain := decide (l.state = .key) }) hold) ∧
    (∀ (failed : List Nat) (spare : Bool), let o := p.val / 8
      let free := (s.octet o).spent = false ∧ (s.octet o).sparePort = some p.val ∧ spare = true
      (¬free → useSpare s p.val failed spare = (s, failed)) ∧
      (∀ i is, failed = i :: is → free → useSpare s p.val failed spare = (repaired (s.updOctet o fun x =>
        { x with spent := true, sused := true, slane := BitVec.ofNat 3 (p.val % 8 + i),
                 fail := x.fail &&& ~~~(BitVec.ofNat 8 (2 ^ (p.val % 8 + i))) })
          (srcPort p.val) (laneId o 8) (laneId o (p.val % 8 + i)) 0x09 o (p.val % 8 + i) 1 0, is))) ∧
    (∀ (good : BitVec 8) (spare : Bool),
      let r := exec (.retrainEnd p good spare) s
      let failed := (List.range l.cwid).filter fun i => !good.getLsbD i
      let k := useSpare s p.val failed spare
      let w := narrow (l.cwid - k.2.length)
      let lanes := k.1.updLink p.val fun l => { l with lanes := good }
      let u := (markLanes lanes p.val l.cwid k.2).updLink p.val fun l => { l with wid := w, badCw := [] }
      let late := l.state = .retrain ∧ l.retrainStart + 400000 < s.mono
      (l.state ≠ .retrain → l.state ≠ .train → r = .next s) ∧
      (late → r = .next (failPort s p.val 0)) ∧
      (l.state = .retrain ∨ l.state = .train → ¬late →
        (w = 0 → r = .next (failPort lanes p.val 0)) ∧
        (w ≠ 0 → l.state = .retrain → l.kxAgain = false → r = .next (restartLink u p.val)) ∧
        (w ≠ 0 → l.state = .train ∨ l.kxAgain = true → r = .next (dropAll (startKey u p.val) hold)))) ∧
    (l.state = .failed ∨ l.state = .down → exec (.failedPortRetry p) s = .next (setPort s p.val .train 0)) ∧
    (l.state ≠ .failed → l.state ≠ .down → exec (.failedPortRetry p) s = .next s) ∧
    ((∀ q ∈ s.links, q.2.state = .failed → q.2.txq = []) → exec .routeTableRebuild s = .next (pumpAll { s with gal := { s.gal with
      grpTab := s.gal.grpCfg.map fun q => (q.1, entryWithout s q.2), memTab := s.gal.memCfg.map fun q => (q.1, entryWithout s q.2) } })) ∧
    (∀ e : Word, let keep := (candidates e).filter fun q => (s.link q).state ≠ .failed
      candidates (entryWithout s e) = keep)

/-- R489 to R497: stacked memory's own events.
The model's choices in it: logs 51, 52, 53, 84. -/
def Obligations.StackedMemory : Prop :=
  (∀ (t : Nat), (105 < t → ∀ b, nextBand b t = .critical) ∧ nextBand .critical t = .critical ∧
    (t ≤ 105 → (95 < t → ∀ b, b ≠ .critical → nextBand b t = .hot) ∧
      (t ≤ 95 → nextBand .normal t = (if 85 < t then .warm else .normal) ∧ nextBand .warm t = (if t ≤ 82 then .normal else .warm) ∧
        nextBand .hot t = (if 92 < t then .hot else if 82 < t then .warm else .normal)))) ∧
  ∀ (s : State) (k : StackNo), s.power = .run →
    let x := s.stack k.val
    let upd := s.updStack k.val
    (∀ (ch : Fin 128) (bank : Fin 32),
      (x.stopped = false → exec (.refresh k ch bank) s = .next (upd fun x => { x with busy := aput x.busy (32 * ch.val + bank.val) (s.mono + 120) })) ∧
      (x.stopped = true → exec (.refresh k ch bank) s = .next s)) ∧
    (∀ (l : Nat) (err : LineErr) (p : Place), let u := strikeLine s l err
      let r := exec (.scrub l err) s
      (lineErr u l ≠ none → r = .next u) ∧
      (place u (l * 128) = some p → lineErr u l = none →
        (∀ e, sliceLine u p l = some e → (e.bad = false → r = .next u) ∧
          (e.bad = true → r = .next (contError (requestSound u (wayOf p e.way)) (srcStack p.stack) 0x03 (l * 128)))) ∧
        (sliceLine u p l = none →
          (lineHealth u l = .uncorrectable → r = .next (requestSound
            (contError (u.updStack p.stack fun k => { k with uncorr := sat32 k.uncorr 1 }) (srcStack p.stack) 0x03 (l * 128)) (rowOf p))) ∧
          (lineHealth u l ≠ .uncorrectable → ∃ v, r = .next v ∧ v = clearErrs (readBursts u p l) l ∧ lineHealth v l = .clean)))) ∧
    (∀ (t : Nat), t < 256 →
      let u := upd fun x => { x with temp := t }
      let b := nextBand x.band t
      (115 < t → exec (.thermalReading k t) s = .next (goFatal u fStackHeat)) ∧
      (t ≤ 115 → b ≠ .critical → exec (.thermalReading k t) s = .next (setBand u k.val b t)) ∧
      (t ≤ 115 → b = .critical → x.stopped = false → exec (.thermalReading k t) s = .next (sendFails
        ((setBand u k.val b t).updStack k.val fun x => { x with stopped := true, retraining := false }))) ∧
      (t ≤ 115 → b = .critical → x.stopped = true → exec (.thermalReading k t) s = .next
        ((setBand u k.val b t).updStack k.val fun x => { x with
          retraining := if 105 < t then false else if t ≤ 102 then true else x.retraining }))) ∧
    (x.stopped = false ∨ x.retraining = false → exec (.stackRetrain k) s = .next s) ∧
    (x.stopped = true → x.retraining = true → let u := setBand s k.val .hot x.temp
      let held := (u.stack k.val).slices.flatMap fun p => p.2.sets.flatMap fun q => q.2
      exec (.stackRetrain k) s = .next ((held.foldl writeBackLine u).updStack k.val fun x => { x with
        stopped := false, retraining := false
        slices := x.slices.map fun p => (p.1, { p.2 with
          sets := p.2.sets.map fun q => (q.1, q.2.map fun e => { e with dirty := false }) }) })) ∧
    (x.copy = none → exec (.channelCopy k) s = .next s ∧ exec (.foldMoveCompletion k) s = .next s) ∧
    (∀ ch j, x.copy = some (.channel ch j) →
      let old := chanId k.val (physChan (carryLines s fun p => p.stack = k.val && p.ch = ch) k.val ch)
      exec (.foldMoveCompletion k) s = .next s ∧
      exec (.channelCopy k) s = .next (repaired ((carryLines s fun p => p.stack = k.val && p.ch = ch).updStack k.val fun x => { x with
          copy := none, chmap := aput x.chmap j ch
          rowSpares := x.rowSpares.filter fun p => p.1 / 32 ≠ ch
          rowMap := x.rowMap.filter fun p => !decide (p.1 / 2 ^ 32 = ch) })
        (srcStack k.val) (chanId k.val (128 + j)) old 0x07 k.val ch (128 + j) 0)) ∧
    (∀ ch, x.copy = some (.fold ch) → exec (.channelCopy k) s = .next s ∧
      exec (.foldMoveCompletion k) s = .next ((carryLines
        ((aget {} x.slices ch).sets.foldl (fun s q => q.2.foldl writeBackLine s) s) fun p => p.stack = k.val && p.ch = ch).updStack k.val
          fun x => { x with copy := none, slices := adel x.slices ch })) ∧
    (∀ ch : Fin 128,
      ((k.val, ch.val) ∉ s.rep.foldDue ∨ x.copy ≠ none ∨ 8 ≤ s.rep.folds.length → exec (.fold k ch) s = .next s) ∧
      ((k.val, ch.val) ∈ s.rep.foldDue → x.copy = none → s.rep.folds.length < 8 → ∃ u, exec (.fold k ch) s = .next u ∧
        u.memMib = (lostStruct s (srcStack k.val) (chanId k.val (physChan s k.val ch.val)) 0x08 k.val ch.val s.rep.folds.length).memMib - 384 ∧
        (∀ c ∈ u.mem, c.1 < memTop u) ∧ (∀ p ∈ u.errs, p.1 < memTop u / 64) ∧
        (u.stack k.val).copy = some (.fold ch.val) ∧
        ∀ q ∈ u.memStacks, q.1 ≠ k.val → ∀ sl ∈ q.2.slices, ∀ r ∈ sl.2.sets, ∀ e ∈ r.2, e.line < memTop u / 128))

/-- R7, R11, R598, R659 to R668: sounding, fatal errors, the journal's writes and REGISTER_WRITE.
The model's choices in it: logs 49, 67, 68. -/
def Obligations.SoundingAndReports : Prop :=
  (∀ (s : State) (x : Structure) (res : SoundResult),
    (s.power ≠ .run ∨ soundDue s x = false → exec (.sounding x res) s = .next s) ∧
    (s.power = .run → soundDue s x = true →
      let u := soundTaken s x
      (res.patrol = some false → exec (.sounding x res) s = .next (feSettle (release (retireSpare u x) x))) ∧
      (res.patrol ≠ some false → tileOf x = none → exec (.sounding x res) s = .next (feSettle
        (if (tested u x res.pass).2 then (repairOf (tested u x res.pass).1 x res.pace).1 else (tested u x res.pass).1))) ∧
      (∀ t, res.patrol = none → tileOf x = some t → (∀ t, x ≠ .tile t) → (tested u x res.pass).2 = false →
        exec (.sounding x res) s = .next (feSettle (release (tested u x res.pass).1 x)))) ∧
    (tested s x false).2 = true ∧
    (∀ (t : Nat) (pace : Bool), s.rep.spareUsed.contains (t / 8) = true ∨ pace = false → ((repairTile s t pace).tile t).oos = true) ∧
    (∀ t : Nat, s.rep.spareUsed.contains (t / 8) = false → (repairTile s t true).rep.spareUsed.contains (t / 8) = true ∧
      ((repairTile s t true).tile t).phys = some (9 * (t / 8) + 8)) ∧
    (let recent := s.mono :: (recordOf s x).passes.filter fun t => decide (s.mono < t + 86400000000000)
     ((tested s x true).2 = true ↔ 3 ≤ recent.length) ∧
     (recent.length < 3 → (tested s x true).1.rep.records.head? = some ⟨x, recent, s.mono, 0⟩)) ∧
    (∀ t l : Nat, let v := (s.tile t).vec
      (v.spent = true ∨ v.spareBad = true → repairLane s t l = (s, false)) ∧
      (v.spent = false → v.spareBad = false → (repairLane s t l).2 = true ∧
        let w := ((repairLane s t l).1.tile t).vec
        w.spent = true ∧ w.spare = l ∧ w.patrol = false ∧ (repairLane s t l).1.mem = s.mem))) ∧
  (∀ (s : State) (cause : BitVec 8),
    (s.power ≠ .run → exec (.fatal cause) s = .next s) ∧
    (s.power = .run → ∃ u, exec (.fatal cause) s = .next u ∧ u.power = .fatal ∧ u.rep.fatal = cause.toNat ∧ u.lamp.stopped = true ∧
      u.mem = s.mem ∧ u.tiles = s.tiles ∧ u.memStacks = s.memStacks)) ∧
  (∀ (s : State) (e : JEntry) (ps : List (JEntry × Bool)),
    (s.power = .off ∨ s.start.jpend = [] → exec .journalDeviceWriteEnd s = .next s) ∧
    (s.power ≠ .off → s.start.jpend = (e, false) :: ps → exec .journalDeviceWriteEnd s = .next { s with start := { s.start with
      j0 := s.start.j0 ++ [e], jpend := if s.power = .failing then [] else (e, true) :: ps } }) ∧
    (s.power ≠ .off → s.start.jpend = (e, true) :: ps → exec .journalDeviceWriteEnd s = .next { s with start := { s.start with
      j1 := s.start.j1 ++ [e], jpend := if s.power = .failing then [] else ps } })) ∧
  (∀ (s : State) (a v : Word), s.power = .run →
    (localAddr s a = none → exec (.registerWrite a v) s = .next s) ∧
    (∀ l, localAddr s a = some l →
      (isRegBlock s l = false → exec (.registerWrite a v) s = .next s) ∧
      (isRegBlock s l = true → bstkAt l 8 = none → histAt l = none →
        (l % 8 = 0 → exec (.registerWrite a v) s = .next (blockWrite s l v false false)) ∧
        (l % 8 ≠ 0 → exec (.registerWrite a v) s = .next s))))

/-- R502, R503, R509, R511: the eleven commands of a ring, from the record at its head.
The model's choices in it: logs 54, 55, 56, 101. -/
def Obligations.RingCommands : Prop :=
  (∀ (s : State) (q : QueueNo),
    let x := s.queue q.val
    let a := x.base + 64 * x.head
    let has := fun (x : FeQueue) => x.state = .idle ∧ x.cmd = none ∧ x.replay = none ∧ x.en = true ∧ x.head ≠ x.tail
    let ready := s.power = .run ∧ has x ∧ (8 ≤ q.val → ∀ p ∈ s.fe.queues, p.1 < 8 → Config.feCore p.1 = Config.feCore q.val → ¬ has p.2)
    ∀ (op : Nat) (row : QueueNo → Instr), (op, row) ∈ [(0, .nopCommand), (1, .launch), (2, .persist), (3, .pstop), (4, .enq),
      (5, .wait), (6, .signal), (7, .gdef), (8, .graphLaunch), (9, .patch), (10, .reserve)] →
    (¬ ready → exec (row q) s = .next s) ∧
    (ready → ∀ s' bs, memRead s a 64 = (s', .ok bs) →
      (recOp bs = op ∨ recMasks (recOp bs) = none → exec (row q) s = .next (startCmd s' q.val
        { bytes := bs, addr := a, seq := 0, start := s.mono, limit := recLimit x.dtmo.toNat bs, feat := s.start.featAct })) ∧
      (recOp bs ≠ op → recMasks (recOp bs) ≠ none → exec (row q) s = .next s)) ∧
    (ready → ∀ s' at_, memRead s a 64 = (s', .error (.bus, at_)) → exec (row q) s = .next (failNow (setCmd s' q.val
      { bytes := List.replicate 64 0, addr := a, seq := 0, start := s.mono, limit := x.dtmo.toNat * 1000, feat := s.start.featAct }
      .running) q.val { code := 2 }))) ∧
  (∀ (s : State) (q : Nat) (c : Cmd), c.sub = [] →
    let d := { c with seq := s.fe.nextSeq }
    let u := setCmd { s with fe := { s.fe with nextSeq := s.fe.nextSeq + 1 } } q d .running
    let set := recSet c.bytes
    let g := wfld (blkWord c.bytes 0x10) 0 8
    (∀ o, recErr c.feat c.bytes = some o → startCmd s q c = feSettle (failNow u q (fDesc o))) ∧
    (recErr c.feat c.bytes = none →
      (recOp c.bytes = 0 → startCmd s q c = feSettle (endDone u q d)) ∧
      (recOp c.bytes = 1 ∨ recOp c.bytes = 2 → ∀ w k, launchKernel u q c.bytes = (w, .ok k) →
        startCmd s q c = feSettle (setCmd w q { d with kern := some k } .waiting)) ∧
      (recOp c.bytes = 3 → setOk set false = true → setOut u set = none →
        let ts := (setTiles set).filter fun t => (u.feTile t).state = .persistent
        startCmd s q c = feSettle (setCmd (ts.foldl (fun s t => wakeCheck (askDrain s t) t) u) q
          { d with phase := .running, failAt := u.mono, ready := ts } .running)) ∧
      (recOp c.bytes = 4 → ∀ w ws, relocWords u q (BitVec.ofNat 64 (wfld (blkWord c.bytes 0x10) 8 4)) 0x20 0
          (wordsOf ((c.bytes.drop 0x20).take 32)) = (w, .ok ws) →
        startCmd s q c = feSettle (setCmd w q { d with body := bytesOf ws } .waiting)) ∧
      (recOp c.bytes = 5 → ∀ w f y v, fenceRef u q c.bytes rightR = (w, .ok f) →
        readFence w q { d with ref := f, phase := .watching } = (y, .ok v) →
        ((blkWord c.bytes 0x18).toNat ≤ v.toNat → startCmd s q c = feSettle (endDone y q d)) ∧
        (v.toNat < (blkWord c.bytes 0x18).toNat → startCmd s q c =
          feSettle (setCmd y q { d with ref := f, phase := .watching, fv := v } .inWait))) ∧
      (recOp c.bytes = 6 → ∀ w f y, fenceRef u q c.bytes rightW = (w, .ok f) → inGraphRegion w f.toNat 8 = false →
        (if wbit (blkWord c.bytes 0x20) 0 then busAdd w none f.toNat 8 (blkWord c.bytes 0x18).toNat
          else busWrite w none f.toNat (toBytes 8 (blkWord c.bytes 0x18).toNat)) = (y, none) →
        startCmd s q c = feSettle (endDone y q d)) ∧
      (recOp c.bytes = 7 → (u.graph g).run = 0 → (u.graph g).pend = [] →
        (wbit (blkWord c.bytes 0x10) 31 = true → (u.graph g).defined = true → startCmd s q c =
          feSettle (endDone { u with fe := { u.fe with graphs := adel u.fe.graphs g } } q d)) ∧
        (let n := wfld (blkWord c.bytes 0x10) 16 12 + 1
         let off := wfld (blkWord c.bytes 0x20) 0 32
         wbit (blkWord c.bytes 0x10) 31 = false → u.fe.grsize ≠ 0 → off + n ≤ u.fe.grsize * 16384 →
         (∀ p ∈ u.fe.graphs, p.1 ≠ g → p.2.defined = true → off + n ≤ p.2.off ∨ p.2.off + p.2.cnt + 1 ≤ off) →
         ∀ w f y src z, relocate u q (blkWord c.bytes 0x18) (64 * n) rightR 0x18 = (w, .ok f) →
           feRead w q f.toNat (64 * n) (refFail (blkWord c.bytes 0x18) 0x18) = (y, .ok src) →
           (∀ i < n, graphRec ((src.drop (64 * i)).take 64) = true) → memWrite y (y.fe.grbase + 64 * off) src = (z, none) →
           startCmd s q c = feSettle (endDone (z.updGraph g fun x => { x with defined := true, cnt := n - 1, off := off }) q d))) ∧
      (recOp c.bytes = 8 → (u.graph g).defined = true → startCmd s q c = feSettle (setCmd u q d .waiting)) ∧
      (recOp c.bytes = 9 → (u.graph g).defined = true → wfld (blkWord c.bytes 0x10) 16 12 ≤ (u.graph g).cnt →
        ∀ w f y bs, relocate u q (blkWord c.bytes 0x18) 64 rightR 0x18 = (w, .ok f) →
          feRead w q f.toNat 64 (refFail (blkWord c.bytes 0x18) 0x18) = (y, .ok bs) → graphRec bs = true →
          startCmd s q c = feSettle (setCmd (y.updGraph g fun x => { x with pend := x.pend ++ [q] }) q { d with body := bs } .waiting)) ∧
      (recOp c.bytes = 10 → q < 8 → setOk set true = true → setOut u set = none →
        (∀ t ∈ setTiles set, (u.feTile t).rsv = none ∨ (u.feTile t).rsv = some q) →
        let w := u.fe.tiles.foldl (fun s p =>
          if p.2.rsv = some q && !(setTiles set).contains p.1 then s.updFeTile p.1 fun f => { f with rsv := none } else s) u
        (set.2 = 0 → startCmd s q c = feSettle (endDone { w with fe := { w.fe with rsv := adel w.fe.rsv q } } q d)) ∧
        let r : Rsv := { valid := true, lend := wbit (blkWord c.bytes 0x10) 0, first := set.1, count := set.2 }
        (set.2 ≠ 0 → startCmd s q c = feSettle (setCmd { w with fe := { w.fe with rsv := aput w.fe.rsv q r } } q d .waiting)))))

/-- R504 to R507, R520 to R531, R538, R673, R675 to R677: how commands end, and the queue registers.
The model's choices in it: logs 57, 58, 59, 60, 61. -/
def Obligations.CommandEnds : Prop :=
  (∀ (s : State) (t : TileId),
    let f := s.feTile t.val
    let u := performHanded (drainAll faddF32 s (tcore t.val)) t.val
    (s.power ≠ .run ∨ (s.tile t.val).ending = none ∨ f.own = none ∨ f.state = .killed ∨ f.state = .idle →
      exec (.tileEnd t) s = .next s) ∧
    (s.power = .run → (s.tile t.val).ending ≠ none → f.own ≠ none → f.state ≠ .killed → f.state ≠ .idle →
      (enginesDone (u.tile t.val) = false → exec (.tileEnd t) s = .next u) ∧
      (enginesDone (u.tile t.val) = true → exec (.tileEnd t) s = .next (feSettle (tileGone
        ((lateFails (writeBackAll u t.val) t.val).updTile t.val fun x => { x with ending := none, core := { x.core with run := .idle } })
        t.val false))))) ∧
  (∀ (s : State) (q : QueueNo),
    ((s.queue q.val).cmd = none → exec (.commandTimeout q) s = .next s ∧ exec (.fenceReread q) s = .next s ∧ exec (.waitTimeout q) s = .next s) ∧
    (∀ c, (s.queue q.val).cmd = some c →
      let inner := subDeadline s c
      let outer := outerDeadline s c
      let d := min inner outer
      (s.power ≠ .run ∨ c.phase = .failing ∨ (c.phase = .watching ∧ inner ≤ outer) ∨ (c.holds ≠ [] ∧ s.mono < d) →
        exec (.commandTimeout q) s = .next s) ∧
      (s.power = .run → c.phase ≠ .failing → c.phase ≠ .watching → (c.holds = [] ∨ d ≤ s.mono) → inner ≤ outer →
        exec (.commandTimeout q) s = .next (feSettle (failNow (s.reach d) q.val
          { code := 7, detail := BitVec.ofNat 16 (firstLeft (s.reach d) c) }))) ∧
      (s.power ≠ .run ∨ c.phase ≠ .watching → exec (.fenceReread q) s = .next s ∧ exec (.waitTimeout q) s = .next s) ∧
      (s.power = .run → c.phase = .watching → ∀ u v, readFence s q.val c = (u, .ok v) →
        ((blkWord c.record 0x18).toNat ≤ v.toNat → exec (.fenceReread q) s = .next (feSettle (applyOut outSteps u q.val c .done))) ∧
        (v.toNat < (blkWord c.record 0x18).toNat → exec (.fenceReread q) s = .next (setCmd u q.val { c with fv := v } .inWait))) ∧
      (s.power = .run → c.phase = .watching → inner ≤ outer → (c.holds = [] ∨ inner ≤ s.mono) →
        ∀ u v, readFence (s.reach inner) q.val c = (u, .ok v) →
        ((blkWord c.record 0x18).toNat ≤ v.toNat → exec (.waitTimeout q) s = .next (feSettle (applyOut outSteps u q.val c .done))) ∧
        (v.toNat < (blkWord c.record 0x18).toNat → exec (.waitTimeout q) s = .next (feSettle (failNow u q.val
          { code := 8, fa := c.ref, fr := blkWord c.record 0x18, fv := v })))))) ∧
  (∀ (s : State) (q : QueueNo),
    (s.power ≠ .run → exec (.kill q) s = .next s) ∧
    (s.power = .run → (∀ p ∈ s.fe.ptasks, p.queue ≠ q.val) → ∀ c, (s.queue q.val).cmd = some c →
      (c.phase ≠ .failing → c.op ≠ 3 → exec (.kill q) s = .next (feSettle s)) ∧
      (c.phase = .failing → (c.holds = [] ∨ windowEnd s c ≤ s.mono) → exec (.kill q) s = .next (feSettle
        ((c.tiles.filter fun t => (s.feTile t).state ≠ .killed).foldl killTile (s.reach (windowEnd s c)))))) ∧
    (s.power ≠ .run ∨ s.rep.due ≠ [] → exec (.commandReplay q) s = .next s) ∧
    (s.power = .run → s.rep.due = [] → ∀ c, (s.queue q.val).replay = some c → exec (.commandReplay q) s =
      .next (startCmd (s.updQueue q.val fun x => { x with replay := none }) q.val
        { bytes := c.bytes, addr := c.addr, seq := 0, start := s.mono,
          limit := recLimit (s.queue q.val).dtmo.toNat c.bytes, rep := true, past := c.past, feat := c.feat }))) ∧
  (∀ (s : State) (r : HoldRes) (fail : Option (BitVec 8)),
    (s.power ≠ .run → exec (.holdReport r) s = .next s ∧ exec (.outcomeReport r fail) s = .next s) ∧
    (s.power = .run → ∃ u, exec (.holdReport r) s = .next u ∧ u.free = s.free + 1 ∧ u.mem = s.mem ∧
      u.fe.queues = s.fe.queues.map fun p =>
        (p.1, { p.2 with cmd := p.2.cmd.map (holdCmd (pauseHeld s r) r ((Config.freeWord s.free).getLsbD p.1)) })) ∧
    (∀ (p : LaneNo) (c : Cmd) (b : Bool), usesRes s c b (.port p) = true ↔ ∃ t ∈ cmdTiles c, portHolds s p.val t = true) ∧
    (s.power = .run → exec (.outcomeReport r none) s = .next { s with fe := { s.fe with
      queues := s.fe.queues.map fun p => (p.1, { p.2 with cmd := p.2.cmd.map (dropHold s r) }),
      ptasks := s.fe.ptasks.map fun p => { p with cmd := dropHold s r p.cmd } } })) ∧
  (∀ (s : State) (q : QueueNo) (k : Fin 32) (v : Word),
    let x := s.queue q.val
    (s.power ≠ .run → exec (.feQtail q v) s = .next s ∧ exec (.feQbase q v) s = .next s ∧ exec (.feQctlAbort q) s = .next s ∧
      exec (.feQctlSkip q) s = .next s ∧ exec (.feQctlResume q) s = .next s ∧ exec .feWaitsnap s = .next s ∧
      exec (.feTqpush k v) s = .next s) ∧
    (s.power = .run →
      exec (.feQtail q v) s = .next (s.updQueue q.val fun x => if x.en = false then x
        else if 2 ^ (x.lsz + 2) ≤ wfld v 0 16 then { x with berr := true } else { x with tail := wfld v 0 16 }) ∧
      exec (.feQbase q v) s = .next (s.updQueue q.val fun x => if (x.state = .idle ∨ x.state = .halted) ∧ wfld v 0 4 ≤ 10 then
        { x with base := wfld v 8 32 * 256, lsz := wfld v 0 4, head := 0, tail := 0 } else x) ∧
      exec (.feQctlResume q) s = .next (s.updQueue q.val fun x => if x.state = .halted then { x with state := .idle } else x) ∧
      exec (.feQctlSkip q) s = .next (s.updQueue q.val fun x => if x.state ≠ .halted then x
        else if x.head = x.tail then { x with state := .idle } else { x with state := .idle, head := (x.head + 1) % 2 ^ (x.lsz + 2) }) ∧
      (x.cmd = none → x.replay = none → exec (.feQctlAbort q) s = .next (feSettle s)) ∧
      (∀ c, x.cmd = some c → c.phase ≠ .failing → exec (.feQctlAbort q) s =
        .next (feSettle (failNow (setCmd s q.val { c with halt := true, sub := [] } x.state) q.val { code := 16 }))) ∧
      exec .feWaitsnap s = .next (waitsnap s).1 ∧
      (∀ u bs, memRead s (wfld v 5 35 * 32) 32 = (u, .ok bs) → exec (.feTqpush k v) s = .next (feSettle (pushTaskq u k.val bs))) ∧
      (∀ u e, memRead s (wfld v 5 35 * 32) 32 = (u, .error e) → exec (.feTqpush k v) s = .next u)))

/-- R546 to R562: host ports and the opening of sessions.
The model's choices in it: logs 62, 66, 102, 103. -/
def Obligations.HostPortsAndHandshakes : Prop :=
  (∀ (s : State) (p : PortNo) (f : Frame),
    (s.power ≠ .run ∨ (s.hport p.val).state ≠ 3 → exec (.ethernetFrame p f) s = .next s) ∧
    (s.power = .run → (s.hport p.val).state = 3 → exec (.ethernetFrame p f) s = .next (s.updHport p.val fun x =>
      if f.fcsOk = false ∨ x.mtu < f.ipLen then { x with fcs := sat16 x.fcs 1 }
      else if f.proto = .macControl then x
      else if frameOther x f = true then { x with other := sat16 x.other 1 }
      else if (f.proto = .ezori ∨ f.proto = .ptp) ∧ f.csumOk = false then { x with csum := sat16 x.csum 1 }
      else if f.proto = .ezori ∧ f.ce = true then { x with ce := sat16 x.ce 1 }
      else x))) ∧
  (∀ (s : State) (p : PortNo) (peer : NegPeer),
    (s.power ≠ .run → exec (.autoNegotiation p peer) s = .next s) ∧
    (s.power = .run → ∀ cfg, cfg = (match s.start.cfg.eth.find? fun e => e.1 = p.val with | some e => e.2.pmd | none => 0) →
      (∃ r : BitVec 4 × BitVec 3, exec (.autoNegotiation p peer) s =
          .next (portState (s.updHport p.val fun x => { x with pmd := r.1, state := r.2 }) p.val) ∧
        (cfg = 0 → r = (0, 0)) ∧
        (cfg = 3 ∨ cfg = 6 → r = (cfg, if peer.trained then 3 else 1)) ∧
        (cfg = 1 → r = if peer.offers.contains 1 then (1, if peer.trained then 3 else 1)
          else if peer.offers.contains 4 then (4, if peer.trained then 3 else 1) else (1, 1))))) ∧
  (∀ (s : State) (p : PortNo), let x := s.hport p.val
    (s.power ≠ .run ∨ x.state ≠ 3 → ∀ m v6 src data, exec (.neighborDiscovery p m) s = .next s ∧
      exec (.echoRequest p v6 src data) s = .next s ∧ exec (.lldpTimer p) s = .next s) ∧
    (s.power = .run → x.state = 3 →
      (∀ src mac, exec (.neighborDiscovery p (.solicit x.addr6 src mac)) s =
        .next (hostSend (s.updHport p.val fun x => learn x src mac) (.advert p.val src))) ∧
      (∀ tgt src mac, tgt ≠ x.addr6 → exec (.neighborDiscovery p (.solicit tgt src mac)) s = .next s) ∧
      (∀ a mac, exec (.neighborDiscovery p (.advert a mac)) s = .next (s.updHport p.val fun x => learn x a mac)) ∧
      (∀ tgt src mac, exec (.neighborDiscovery p (.arpRequest tgt src mac)) s = .next (if x.v4 = true ∧ tgt = x.addr4 then
        hostSend (s.updHport p.val fun x => learn x (src.zeroExtend 128) mac) (.arp p.val src) else s)) ∧
      (∀ a mac, exec (.neighborDiscovery p (.arpReply a mac)) s = .next (if x.v4 = true then
        s.updHport p.val fun x => learn x (a.zeroExtend 128) mac else s)) ∧
      (∀ a mac, (learn x a mac).nbrs.head? = some (a, mac) ∧ (learn x a mac).nbrs.length ≤ 256) ∧
      (∀ src data v6, (v6 = true ∨ x.v4 = true) →
        let now := s.mono / 1000000000
        let n := if x.echoSec = now then x.echoes else 0
        (100 ≤ n → exec (.echoRequest p v6 src data) s = .next s) ∧
        (n < 100 → exec (.echoRequest p v6 src data) s = .next (hostSend
          (s.updHport p.val fun x => { x with echoSec := now, echoes := n + 1 }) (.echo p.val v6 src data)))) ∧
      (let u := s.reach x.lldpDue
       exec (.lldpTimer p) s = .next (hostSend (u.updHport p.val fun x => { x with lldpDue := u.mono + 30000000000 }) (.lldp p.val u.sec.serial 120 u.start.cfg.name (u.hport p.val).addr6))))) ∧
  (∀ (s : State) (p : PortNo) (hsid : BitVec 32) (ev : Bool) (h : HostHello),
    (s.power ≠ .run ∨ (s.hport p.val).state ≠ 3 ∨ 8 < h.eps.length → exec (.helloI p hsid ev h) s = .next s) ∧
    (s.power = .run → (s.hport p.val).state = 3 → h.eps.length ≤ 8 →
      ((∀ i < 256, (s.sess i).state ≠ .free) ∨ 16 ≤ s.host.handshakes.length → exec (.helloI p hsid ev h) s =
        .next (plainOut { s with host := { s.host with hsref := sat16 s.host.hsref 1 } } p.val h.src 6 hsid (beBytes 4 2))) ∧
      (∀ i < 256, (s.sess i).state = .free → (∀ j < i, (s.sess j).state ≠ .free) → s.host.handshakes.length < 16 →
        let gen := ((s.sess i).gen + 1) % 2 ^ 24
        let enc := Config.mlkemEncaps h.ek (BitVec.ofNat 256 (ofBytes (Config.freeBytes (s.free + 1) 32)))
        let pre := Config.freeBytes s.free 32 ++ beBytes 4 (gen * 256 + i) ++ enc.1 ++ ownCert s
        let h1 := shakeBytes (helloIBytes h hsid ev ++ pre) 64
        let k := shakeBytes (asciiBytes "EZORI-SESS" ++ toBytes 32 enc.2.toNat ++ h1) 72
        let msg := pre ++ Config.slhSign (idKey s) h1
        ∃ t, exec (.helloI p hsid ev h) s = .next t ∧
          t.sess i = {
            state := .handshake, hsid := hsid, gen := gen, eps := h.eps
            rxKey := k.take 32, rxSalt := (k.drop 32).take 4, txKey := (k.drop 36).take 32, txSalt := k.drop 68 } ∧
          t.host.handshakes = s.host.handshakes ++ [{
            id := s.host.nextHs, sess := i, hsid := hsid, events := ev, eps := h.eps
            port := p.val, start := s.mono, src := h.src, h1 := h1, frags := [] }] ∧
          t.host.nextHs = s.host.nextHs + 1 ∧
          ∃ w, w.length ≤ 1 ∧ t.host.out = s.host.out ++ w ++ (cut ((s.hport p.val).mtu - 84) msg).map fun q =>
            .ez (packetOf s 0 p.val h.src (ownHdr 1 p.val false hsid 0) (fragBytes 1 msg.length q) [])))) ∧
  (∀ (s : State) (hs : Nat) (pkts : List EzPacket),
    (s.power ≠ .run → exec (.finishI hs pkts) s = .next s ∧ exec (.handshakeTimeout hs) s = .next s) ∧
    (s.power = .run → let u := pkts.foldl (finishPkt hs) s
      ((∀ h ∈ s.host.handshakes, h.id ≠ hs) → exec (.handshakeTimeout hs) s = .next s ∧ u = s) ∧
      (∀ h, s.host.handshakes.find? (fun h => h.id = hs) = some h →
        exec (.handshakeTimeout hs) s = .next (endSess (s.reach (h.start + 10000000000)) h.sess)) ∧
      ((∀ h ∈ u.host.handshakes, h.id ≠ hs) → exec (.finishI hs pkts) s = .next u) ∧
      (∀ h, u.host.handshakes.find? (fun h => h.id = hs) = some h →
        (wholeFrags h.frags = none → exec (.finishI hs pkts) s = .next u) ∧
        (∀ sig, wholeFrags h.frags = some sig →
          let v := { u with host := { u.host with handshakes := u.host.handshakes.filter fun x => x.id ≠ hs } }
          let good := Config.ownerVerify u.start.cfg.ownerAlg u.start.cfg.ownerKey (shakeBytes (h.h1 ++ asciiBytes "EZORI-HOST") 64) sig
          (good = true → exec (.finishI hs pkts) s = .next (establish v h)) ∧
          (good = false → exec (.finishI hs pkts) s = .next (endSess
            (sealOut { v with host := { v.host with hsref := sat16 v.host.hsref 1 } } h.sess h.port h.src 6 (beBytes 4 1)) h.sess)))))) ∧
  (∀ (s : State) (hs : Nat) (k : EzPacket) (h : Handshake), s.host.handshakes.find? (fun h => h.id = hs) = some h →
    ((s.hport k.port.val).state ≠ 3 → finishPkt hs s k = s) ∧
    ((s.hport k.port.val).state = 3 →
      (∀ u, ezTake s h.sess 2 k.hdr k.body k.tag k.ce = (u, none) → finishPkt hs s k = u) ∧
      (∀ u bs, ezTake s h.sess 2 k.hdr k.body k.tag k.ce = (u, some bs) → 12 ≤ bs.length → beAt bs 0 1 = 2 → beAt bs 1 3 = 0 →
        finishPkt hs s k = { u with host := { u.host with handshakes := u.host.handshakes.map fun h => if h.id = hs then
          { h with frags := h.frags ++ [(beAt bs 4 4, beAt bs 8 4, bs.drop 12)], port := if h.frags = [] then k.port.val else h.port } else h } }))) ∧
  (∀ (v : State) (h : Handshake), let t := establish v h
    (t.sess h.sess).state = .established ∧ (t.sess h.sess).net = decide (4 ≤ h.port) ∧ (t.sess h.sess).ev = h.events ∧
    (t.sess h.sess).txPn = (v.sess h.sess).txPn + 1 ∧ (t.sess h.sess).lastRx = v.mono ∧
    ∃ w, t.host.out = v.host.out ++ [.ez (sealedPkt v h.sess h.port h.src 3 (beBytes 1 3 ++ zeros 3 ++ beBytes 4 4 ++ zeros 4 ++ zeros 4))] ++ w)

/-- R558, R559, R562 to R568, R574: packets of a session.
The model's choices in it: logs 62, 63, 102. -/
def Obligations.SessionPackets : Prop :=
  (∀ (s : State) (i t : Nat) (h : EzHeader) (b tag : List Byte) (ce : Bool), let x := s.sess i
    let n := x.rxSalt ++ beBytes 8 h.pn.toNat
    let good := h.ver = 1 ∧ h.ptype.toNat = t ∧ h.flags = 1 ∧ h.rsv = 0 ∧ h.rsv2 = 0 ∧ h.sid.toNat = x.gen * 256 + i
    let stale := h.pn.toNat < x.rxCum ∨ h.pn.toNat ∈ x.rxSeen ∨ h.pn.toNat + 65536 ≤ x.rxHigh
    (¬ good → ezTake s i t h b tag ce = (s, none)) ∧
    (good → gcmTag x.rxKey n (ezHdrBytes h) b ≠ tag →
      ezTake s i t h b tag ce = ({ s with host := { s.host with auth := sat16 s.host.auth 1 } }, none)) ∧
    (good → gcmTag x.rxKey n (ezHdrBytes h) b = tag → stale →
      ezTake s i t h b tag ce = ({ s with host := { s.host with replay := sat16 s.host.replay 1 } }, none)) ∧
    (good → gcmTag x.rxKey n (ezHdrBytes h) b = tag → ¬ stale → ezTake s i t h b tag ce =
      (s.updSess i fun x => { acceptPn s x h.pn.toNat with ceCount := x.ceCount + b2n ce }, some (gcmStream x.rxKey n b)))) ∧
  (∀ (s : State) (i : SessNo), s.power ≠ .run ∨ (s.sess i.val).state ≠ .established →
    ∀ p hdr b tag ce k pn rtt,
      exec (.data i p hdr b tag ce) s = .next s ∧ exec (.ack i p hdr b tag ce) s = .next s ∧
      exec (.probe i k) s = .next s ∧ exec (.probeTimer i) s = .next s ∧ exec (.sessionIdle i) s = .next s ∧
      exec (.ezoriAckDelay i) s = .next s ∧ exec (.retransmissionTimeout i pn) s = .next s ∧ exec (.rateUpdate i p rtt) s = .next s) ∧
  (∀ (s : State) (i : SessNo) (k : EzPacket), let r := ezTake s i.val 6 k.hdr k.body k.tag k.ce
    (s.power ≠ .run ∨ (s.sess i.val).state = .free ∨ (s.hport k.port.val).state ≠ 3 → exec (.close i k) s = .next s) ∧
    (s.power = .run → (s.sess i.val).state ≠ .free → (s.hport k.port.val).state = 3 →
      (∀ u, r = (u, none) → exec (.close i k) s = .next u) ∧
      (∀ u bs, r = (u, some bs) → exec (.close i k) s = .next (if bs.length = 4 then endSess u i.val else u)))) ∧
  (∀ (s : State) (i : Nat), (endSess s i).sess i = { gen := (s.sess i).gen } ∧ (∀ j, j ≠ i → (endSess s i).sess j = s.sess j) ∧
    (endSess s i).host.out = s.host.out) ∧
  (∀ (s : State) (i : Nat) (now : Bool) (m : MsgPiece), let x := s.sess i
    let held := m.msn.toNat < x.nextMsn ∨ ∃ q ∈ x.pieces, q.msn = m.msn ∧ q.offset = m.offset
    let u := fun (ps : List MsgPiece) => s.updSess i fun x => { x with sinceAck := x.sinceAck + 1, pieces := ps }
    let done := fun (u : State) => if now = true ∨ 4 ≤ x.sinceAck + 1 then sendAck u i else u
    dataIn s i now none = done (u x.pieces) ∧ (held → dataIn s i now (some m) = done (u x.pieces)) ∧
    (¬ held → dataIn s i now (some m) = done (u (x.pieces ++ [m])))) ∧
  (∀ (s : State) (i : SessNo), s.power = .run → (s.sess i.val).state = .established → let x := s.sess i.val
    (∀ p hdr b tag ce, (s.hport p.val).state ≠ 3 → exec (.data i p hdr b tag ce) s = .next s ∧ exec (.ack i p hdr b tag ce) s = .next s) ∧
    (∀ k : EzPacket, (s.hport k.port.val).state ≠ 3 → exec (.probe i k) s = .next s) ∧
    (∀ p hdr b tag ce, (s.hport p.val).state = 3 → let now := decide (x.rxHigh + 1 < hdr.pn.toNat) || ce
      (∀ u, ezTake s i.val 4 hdr b tag ce = (u, none) → exec (.data i p hdr b tag ce) s = .next u) ∧
      (∀ u, ezTake s i.val 5 hdr b tag ce = (u, none) → exec (.ack i p hdr b tag ce) s = .next u) ∧
      (∀ u bs, ezTake s i.val 4 hdr b tag ce = (u, some bs) →
        (2 ^ 21 < heldBytes x + (bs.length - 24) → exec (.data i p hdr b tag ce) s = .next s) ∧
        (heldBytes x + (bs.length - 24) ≤ 2 ^ 21 → hdr.pn.toNat + 1 < 2 ^ 48 →
          exec (.data i p hdr b tag ce) s = .next (nextOps (dataIn u i.val now (parsePiece bs)) i.val))) ∧
      (∀ u bs, ezTake s i.val 5 hdr b tag ce = (u, some bs) → hdr.pn.toNat + 1 < 2 ^ 48 →
        (parseAck bs = none → exec (.ack i p hdr b tag ce) s = .next u) ∧
        (∀ a, parseAck bs = some a → exec (.ack i p hdr b tag ce) s = .next (ackIn u i.val a)))) ∧
    (∀ k : EzPacket, (s.hport k.port.val).state = 3 →
      (∀ u, ezTake s i.val 7 k.hdr k.body k.tag k.ce = (u, none) → exec (.probe i k) s = .next u) ∧
      (∀ u bs, ezTake s i.val 7 k.hdr k.body k.tag k.ce = (u, some bs) → k.hdr.pn.toNat + 1 < 2 ^ 48 → exec (.probe i k) s =
        .next (dataIn u i.val (decide (x.rxHigh + 1 < k.hdr.pn.toNat) || k.ce) none))) ∧
    (let down := (netPorts x false ++ netPorts x true).filter fun p => portUp s p && !(aget {} x.paths p).up
     let quiet := max x.lastRx x.lastTx + 1000000000
     let u := s.reach (if down = [] then quiet else x.lastProbe + 100000000)
     let v := u.updSess i.val fun x => { x with lastProbe := u.mono }
     exec (.probeTimer i) s = .next ((down ++ (if quiet ≤ u.mono then (bestPath v x).toList else [])).foldl
       (fun s p => sendOn s i.val p true [] false) v)) ∧
    (let u := s.reach (x.lastRx + 30000000000)
     exec (.sessionIdle i) s = .next (closeSess { u with host := { u.host with idle := sat16 u.host.idle 1 } } i.val 3)) ∧
    (x.sinceAck ≠ 0 → exec (.ezoriAckDelay i) s = .next (sendAck s i.val)) ∧
    (x.sinceAck = 0 → exec (.ezoriAckDelay i) s = .next s) ∧
    (∀ pn, (∀ e ∈ x.inFlight, e.pn ≠ pn) → exec (.retransmissionTimeout i pn) s = .next s) ∧
    (∀ pn e, x.inFlight.find? (fun e => e.pn = pn) = some e → let p := aget {} x.paths e.port
      let u := (s.reach (e.at_ + min 100000000 (max 200000 (4 * p.srtt + 100000) * 2 ^ p.expiries))).updSess i.val fun x =>
        updPath x e.port fun p => { p with expiries := p.expiries + 1 }
      (p.expiries < 2 → exec (.retransmissionTimeout i pn) s = .next (resendLost u i.val [e])) ∧
      (2 ≤ p.expiries → let v := pathDown u i.val e.port
        exec (.retransmissionTimeout i pn) s = .next (if (v.sess i.val).inFlight.contains e then resendLost v i.val [e] else v))) ∧
    (∀ p rtt, ahas x.paths p.val = false → exec (.rateUpdate i p rtt) s = .next s) ∧
    (∀ p rtt, ahas x.paths p.val = true → ∃ y, exec (.rateUpdate i p rtt) s = .next (s.updSess i.val fun x => updPath x p.val fun _ => y) ∧
      1 / 10 ≤ y.rate ∧ y.rate ≤ (if 4 ≤ (s.hport p.val).pmd.toNat then 100 else 200) ∧ y.acked = 0 ∧ y.marked = 0))

/-- R565, R569 to R572, R604, R620, R684: the operations of Ezori.
The model's choices in it: logs 62, 64, 65, 81, 87. -/
def Obligations.EzoriOperations : Prop :=
  (∀ (s : State) (i : SessNo), s.power ≠ .run ∨ (s.sess i.val).state ≠ .established → ∀ xid a bs cm n q tl m ws code st nonce first vec,
    exec (.write i xid a bs cm) s = .next s ∧ exec (.read i xid a n) s = .next s ∧ exec (.doorbell i xid q tl) s = .next s ∧
    exec (.mailboxSend i xid m ws) s = .next s ∧ exec (.mailboxAck i xid m code) s = .next s ∧ exec (.event i st) s = .next s ∧
    exec (.attest i xid nonce) s = .next s ∧ exec (.logRead i xid first n) s = .next s ∧ exec (.featQuery i xid) s = .next s ∧
    exec (.featAccept i xid vec) s = .next s) ∧
  (∀ (s : State) (i : SessNo) (xid : Word), s.power = .run → (s.sess i.val).state = .established →
    let o := s.updSess i.val fun x => { x with nextMsn := x.nextMsn + 1, pieces := x.pieces.filter fun m => m.msn.toNat ≠ x.nextMsn }
    let asked := fun q => asks (s.sess i.val) xid q = true
    let ans := fun (op : BitVec 8) (u : State) (st : HStatus) (bs : List Byte) => nextOps (reply u i.val (.resp op xid st bs)) i.val
    let ran := fun (u : State) => nextOps u i.val
    (∀ a bs cm n q tl m ws code nonce first vec,
      (¬ asked (.write a bs cm) → exec (.write i xid a bs cm) s = .next s) ∧ (¬ asked (.read a n) → exec (.read i xid a n) s = .next s) ∧
      (¬ asked (.doorbell q tl) → exec (.doorbell i xid q tl) s = .next s) ∧
      (¬ asked (.mbSend m ws) → exec (.mailboxSend i xid m ws) s = .next s) ∧
      (¬ asked (.mbAck m code) → exec (.mailboxAck i xid m code) s = .next s) ∧
      (¬ asked (.attest nonce) → exec (.attest i xid nonce) s = .next s) ∧
      (¬ asked (.logRead first n) → exec (.logRead i xid first n) s = .next s) ∧
      (¬ asked .featQuery → exec (.featQuery i xid) s = .next s) ∧
      (¬ asked (.featAccept vec) → exec (.featAccept i xid vec) s = .next s)) ∧
    (∀ a bs cm, asked (.write a bs cm) →
      (bs = [] ∨ writeMax o < bs.length → exec (.write i xid a bs cm) s = .next (if cm then ans 1 o .badop [] else ran o)) ∧
      (bs ≠ [] → bs.length ≤ writeMax o →
        (localAddr o a = none → exec (.write i xid a bs cm) s = .next (if cm then ans 1 o .addr [] else ran o)) ∧
        (∀ l u, localAddr o a = some l → l < 0xF000000000 → l < memTop o → inGraphRegion o l bs.length = false →
          memWriteTo o l bs = (u, none) → exec (.write i xid a bs cm) s = .next (if cm then ans 1 u .ok [] else ran u)) ∧
        (∀ l, localAddr o a = some l → l < 0xF000000000 → memTop o ≤ l →
          exec (.write i xid a bs cm) s = .next (if cm then ans 1 o .addr [] else ran o)) ∧
        (∀ l u, hostPlace o a = .reg l → regWrite o l bs false false = some u →
          exec (.write i xid a bs cm) s = .next (if cm then ans 1 u .ok [] else ran u)))) ∧
    (∀ a n, asked (.read a n) →
      (n = 0 ∨ 1048576 < n → exec (.read i xid a n) s = .next (ans 2 o .badop [])) ∧
      (0 < n → n ≤ 1048576 →
        (localAddr o a = none → exec (.read i xid a n) s = .next (ans 2 o .addr [])) ∧
        (∀ l u bs, localAddr o a = some l → l < 0xF000000000 → l < memTop o → memRead o l n = (u, .ok bs) →
          exec (.read i xid a n) s = .next (ans 2 u .ok bs)) ∧
        (∀ l u bs, hostPlace o a = .reg l → regRead o l n = (u, some bs) → exec (.read i xid a n) s = .next (ans 2 u .ok bs)))) ∧
    (∀ (q : BitVec 8) tl, asked (.doorbell q tl) →
      (64 ≤ q.toNat → exec (.doorbell i xid q tl) s = .next (ans 3 o .badop [])) ∧
      (q.toNat < 64 → (o.queue q.toNat).en = false → exec (.doorbell i xid q tl) s = .next (ans 3 o .busy [])) ∧
      (q.toNat < 64 → (o.queue q.toNat).en = true → exec (.doorbell i xid q tl) s =
        .next (ans 3 (o.updQueue q.toNat fun x => qTail x (tl.zeroExtend 64)) .ok []))) ∧
    (∀ (m : BitVec 8) ws, asked (.mbSend m ws) →
      (8 ≤ m.toNat ∨ ws.length ≠ 8 → exec (.mailboxSend i xid m ws) s = .next (ans 4 o .badop [])) ∧
      (m.toNat < 8 → ws.length = 8 → exec (.mailboxSend i xid m ws) s = .next (ans 4 (mbSendWrite
        (((List.range 8).zip ws).foldl (fun s p => mbDataWrite s (.hmb (Fin.ofNat 16 m.toNat)) p.1 p.2) o)
        (.hmb (Fin.ofNat 16 m.toNat))) .ok []))) ∧
    (∀ (m : BitVec 8) code, asked (.mbAck m code) →
      (m.toNat < 8 ∨ 16 ≤ m.toNat → exec (.mailboxAck i xid m code) s = .next (ans 4 o .badop [])) ∧
      (8 ≤ m.toNat → m.toNat < 16 → exec (.mailboxAck i xid m code) s = .next
        (if (o.mbox (.hmb (Fin.ofNat 16 m.toNat))).full = true then ans 4 (mbAckWrite o (.hmb (Fin.ofNat 16 m.toNat)) code) .ok []
          else ans 4 o .busy []))) ∧
    (∀ nonce, asked (.attest nonce) → let body := reportBody o 0 nonce (msid o i.val)
      exec (.attest i xid nonce) s = .next (ran (reply o i.val (.report xid body (Config.slhSign (idKey o) body) (ownCert o))))) ∧
    (∀ first n, asked (.logRead first n) →
      (n = 0 ∨ 256 < n → exec (.logRead i xid first n) s = .next (ans 7 o .badop [])) ∧
      (0 < n → n ≤ 256 → ∃ es, es.length ≤ n ∧ exec (.logRead i xid first n) s = .next (ran (reply o i.val
        (.log xid (logStart o first + BitVec.ofNat 32 es.length) (BitVec.ofNat 32 s.rep.lost) es))))) ∧
    (asked .featQuery → exec (.featQuery i xid) s = .next (ran (reply o i.val (.feat xid (featOffered o) s.start.featAct)))) ∧
    (∀ vec : BitVec 256, asked (.featAccept vec) → let act := (vec &&& featOffered o) ||| (featFixed &&& featOffered o)
      let u := { o with start := { o.start with featAct := act } }
      exec (.featAccept i xid vec) s = .next (ran (reply u i.val (.feat xid (featOffered u) act))))) ∧
  (∀ (s : State) (i : SessNo), s.power = .run → (s.sess i.val).state = .established → let x := s.sess i.val
    (∀ st, x.ev = false ∨ s.start.featAct.getLsbD 20 = false → exec (.event i st) s = .next s) ∧
    (x.ev = true → s.start.featAct.getLsbD 20 = true →
      (let v := wfld (modStatus s) 1 3
       (v = x.seenSt → exec (.event i true) s = .next s) ∧
       (v ≠ x.seenSt → exec (.event i true) s = .next (reply (s.updSess i.val fun x => { x with seenSt := v }) i.val
         (.event 2 (modStatus s))))) ∧
      (let b := s.host.hdb &&& ~~~s.host.hdbm
       (b &&& ~~~x.seenDb = 0 → exec (.event i false) s = .next s) ∧
       (b &&& ~~~x.seenDb ≠ 0 → let u := if x.lastEvent = 0 then s else s.reach (x.lastEvent + 2000)
         exec (.event i false) s = .next (reply (u.updSess i.val fun x => { x with seenDb := b, lastEvent := u.mono }) i.val
           (.event 1 (b.zeroExtend 64))))))) ∧
  (∀ (s : State) (i : Nat) (m : HostMsg),
    let cs := msgContents (pieceMax s (s.sess i)) (s.sess i).txMsn m
    let u := s.updSess i fun x => { x with txMsn := x.txMsn + 1 }
    (bestPath s (s.sess i) = none → (reply s i m).host.out = s.host.out ∧ ((reply s i m).sess i).waiting = (s.sess i).waiting ++ cs) ∧
    (∀ p c, bestPath s (s.sess i) = some p → cs = [c] → (s.sess i).txPn < 2 ^ 48 →
      (reply s i m).host.out = s.host.out ++ [.ez (sealedPkt u i p (peerOf (u.sess i) p) 4 c)])) ∧
  (∀ (s : State) (i n : Nat) (m : MsgIn), nextMsg (s.sess i) = some m → reqOf m = none → (s.sess i).pieces.length = n + 1 →
    nextOps s i = skipBad n (if m.response then opTaken s i else reply (opTaken s i) i (.resp m.op m.xid .badop [])) i)

/-- R575 to R578: mailboxes and doorbells.
The model's choices in it: log 8. -/
def Obligations.MailboxesAndDoorbells : Prop :=
  (∀ (s : State) (m : MbId) (i : Fin 8) (d : DbId) (v : Word), s.power ≠ .run →
    exec (.mbData m i v) s = .next s ∧ exec (.mbSend m v) s = .next s ∧ exec (.mbAck m v) s = .next s ∧
    exec (.dbset d v) s = .next s ∧ exec (.db d v) s = .next s ∧ exec (.dbMask d v) s = .next s) ∧
  (∀ (s : State) (m : MbId) (i : Fin 8) (v : Word), s.power = .run → let x := s.mbox m
    let hit := fun (x : Mailbox) => { x with rcoll := true, scoll := true }
    exec (.mbData m i v) s = .next (s.updMbox m fun x =>
      if x.full = true then { hit x with data := aset 0 x.data i.val v } else { x with data := aset 0 x.data i.val v }) ∧
    (x.full = true → exec (.mbSend m v) s = .next (s.updMbox m fun _ => hit x)) ∧
    (x.full = false → exec (.mbSend m v) s = .next (notifyReceiver (s.updMbox m fun x => { x with full := true }) m)) ∧
    (x.full = false → exec (.mbAck m v) s = .next s) ∧
    (x.full = true → let u := s.updMbox m fun x => { x with full := false, code := v.extractLsb' 0 16, ackv := true }
      exec (.mbAck m v) s = .next (if x.ackv = true then u else notifySender u m))) ∧
  (∀ (s : State) (v : Word), s.power = .run → let b : BitVec 32 := v.extractLsb' 0 32
    let fell := fun (u : State) => { u with host := { u.host with sessions := u.host.sessions.map fun p =>
      (p.1, { p.2 with seenDb := p.2.seenDb &&& (u.host.hdb &&& ~~~u.host.hdbm) }) } }
    (∀ t : TileId,
      exec (.dbset (.tile t) v) s = .next (s.updTile t.val fun x => { x with tdb := x.tdb ||| b }) ∧
      exec (.db (.tile t) v) s = .next (s.updTile t.val fun x => { x with tdb := x.tdb &&& ~~~b }) ∧
      exec (.dbMask (.tile t) v) s = .next (s.updTile t.val fun x => { x with tdbm := b })) ∧
    exec (.dbset .host v) s = .next { s with host := { s.host with hdb := s.host.hdb ||| b } } ∧
    exec (.db .host v) s = .next (fell { s with host := { s.host with hdb := s.host.hdb &&& ~~~b } }) ∧
    exec (.dbMask .host v) s = .next (fell { s with host := { s.host with hdbm := b } }))

/-- R592 to R595, R610, R611, R626 to R629, R634, R639, R640, R652, R702, R703: power, start and security.
The model's choices in it: logs 69, 70, 74, 75, 76, 100. -/
def Obligations.PowerAndSecurity : Prop :=
  (∀ (s : State) (r : StartResult),
    (s.power ≠ .off → exec (.powerGood r) s = .next s) ∧
    (s.power = .off → exec (.powerGood r) s = .next (if s.pins.thermtrip = true then s else if s.pins.reset = true then
      { s with power := .held } else startSeq s r none)) ∧
    (s.power ≠ .fatal → exec (.restart r) s = .next s) ∧
    (s.power = .fatal → let k := lostState (cutWrite s) .fatal
      let st := { k.start with restarts := sat16 s.start.restarts 1 }
      let rep := { k.rep with log := s.rep.log, next := s.rep.next, lost := s.rep.lost }
      exec (.restart r) s = .next (startSeq { k with start := st, rep := rep } r (some s.rep.fatal))) ∧
    (s.power = .off ∨ s.power = .failing → exec .powerFail s = .next s) ∧
    (s.power ≠ .off → s.power ≠ .failing → exec .powerFail s = .next
      { s with power := .failing, lamp := { s.lamp with stopped := true }, pins := { s.pins with ready := false } }) ∧
    (s.power ≠ .failing → exec .railRemoval s = .next s ∧ exec (.inputReturn r) s = .next s) ∧
    (s.power = .failing → exec .railRemoval s = .next (lostState s .off) ∧
      (s.pins.thermtrip = false → s.pins.reset = false → exec (.inputReturn r) s = .next (startSeq (lostState s .off) r none))) ∧
    (s.power = .off → exec .overvoltage s = .next s ∧
      exec .thermtripLatchRelease s = .next { s with pins := { s.pins with thermtrip := false } }) ∧
    (s.power ≠ .off → exec .overvoltage s = .next (lostState (cutWrite s) .off) ∧ exec .thermtripLatchRelease s = .next s) ∧
    (s.power = .off ∨ s.power = .failing → exec .moduleReset s = .next { s with pins := { s.pins with reset := true } }) ∧
    (s.power = .held → exec .moduleReset s = .next s) ∧
    (s.power = .run ∨ s.power = .fatal ∨ s.power = .startFailed → ∃ u, exec .moduleReset s = .next u ∧ u.power = .held ∧
      u.pins.reset = true ∧ u.mem = [] ∧ u.pending = s.pending ∧ (s.sec.relBusy = none → u.sec.owners = s.sec.owners) ∧ u.sec.rollback = s.sec.rollback) ∧
    (s.pins.reset = false → exec (.resetRelease r) s = .next s) ∧
    (s.pins.reset = true → let u := { s with pins := { s.pins with reset := false, extest := false } }
      exec (.resetRelease r) s = .next (if s.power = .held then startSeq u r none else u)) ∧
    (∀ ph, (lostState s ph).power = ph ∧ (lostState s ph).mem = [] ∧ (lostState s ph).tiles = [] ∧ (lostState s ph).pending = s.pending ∧
      (lostState s ph).sec.rollback = s.sec.rollback ∧ (s.sec.relBusy = none → (lostState s ph).sec.owners = s.sec.owners) ∧
      (let c := (slotInForce s).getD 0
       ∀ j, j ≠ c → nextSlot s c ≠ some j → aget {} (lostState s ph).sec.owners j = aget {} s.sec.owners j) ∧
      (∀ j, ((aget {} (lostState s ph).sec.owners j).pin = (aget {} s.sec.owners j).pin)) ∧
      (lostState s ph).start.j0 = s.start.j0 ∧ (lostState s ph).start.j1 = s.start.j1 ∧
      (lostState s ph).pins.thermtrip = s.pins.thermtrip)) ∧
  (∀ s : State,
    (s.power ≠ .run → exec .entropyTestFailure s = .next s ∧ exec .drbgReseed s = .next s ∧ ∀ a ok, exec (.release a ok) s = .next s) ∧
    (s.power = .run →
      (let fs := s.mono :: s.sec.entFails.filter fun t => decide (s.mono < t + 1000000000)
       let u := { s with sec := { s.sec with entok := false, entFails := fs } }
       (fs.length < 3 → exec .entropyTestFailure s = .next u) ∧ (3 ≤ fs.length → exec .entropyTestFailure s = .next (goFatal u 6))) ∧
      exec .drbgReseed s = .next { s with sec := { s.sec with entok := true, reseeds := s.sec.reseeds + 1, seedAt := s.mono } } ∧
      (∀ a ok, let w := s.sec.relBusy.getD a
        exec (.release a ok) s = .next (releaseRun s w ok) ∧
        (memTop s < 8 * wfld w 3 37 + 64 → exec (.release a ok) s =
          .next { s with sec := { s.sec with relBusy := none, relCode := 1 } })))) ∧
  (∀ (s : State) (pins pre : BitVec 31),
    (s.power = .off → exec .bypass s = .next s ∧ exec .idcode s = .next s ∧ exec .tapReset s = .next s ∧ exec .extest s = .next s ∧
      exec (.samplePreload pins pre) s = .next s) ∧
    (s.power ≠ .off →
      exec .bypass s = .next { s with pins := { s.pins with tap := .bypass, tapDr := 0, extest := false } } ∧
      exec .idcode s = .next { s with pins := { s.pins with tap := .idcode, tapDr := 0x120409A3, extest := false } } ∧
      exec .tapReset s = .next { s with pins := { s.pins with tap := .idcode, tapDr := 0x120409A3, extest := false } } ∧
      exec .extest s = .next { s with pins := { s.pins with tap := .extest, extest := s.pins.reset, tapDr := if s.pins.reset then s.pins.tapDr else 0 } } ∧
      ∃ u, exec (.samplePreload pins pre) s = .next { s with pins := { s.pins with tap := .sample, extest := false, sampled := u, boundary := pre } } ∧
        (∀ k < 28, u.getLsbD k = pins.getLsbD k) ∧ u.getLsbD 28 = !readyPin s ∧ u.getLsbD 29 = !alertPin s ∧ u.getLsbD 30 = !bootfailPin s))

/-- R636, R643 to R653: Lamp.
The model's choices in it: logs 28, 29, 72. -/
def Obligations.LampAndThrottling : Prop :=
  (∀ s : State,
    (s.lamp.rtLine = [] → s.lamp.normLine = [] → exec .lampGrant s = .next s) ∧
    (∀ r rs, s.lamp.rtLine = r :: rs → exec .lampGrant s = .next (if mayIssue s r.watts r.die then
      grantTaken (issueGrant { s with lamp := { s.lamp with rtLine := rs } } r) r.holder else s)) ∧
    (∀ r rs, s.lamp.rtLine = [] → s.lamp.normLine = r :: rs → exec .lampGrant s = .next (if mayIssue s r.watts r.die then
      grantTaken (issueGrant { s with lamp := { s.lamp with normLine := rs } } r) r.holder else s)) ∧
    (∀ w d, mayIssue s w d = true → s.power = .run ∧ s.lamp.stopped = false ∧ gMod s + w + 1300 ≤ s.lamp.plmod ∧
      issuedNow s + w ≤ 40 ∧ modStop s = false ∧
      ∀ e, d = some e → gDie s e + tenthsOf s (some e) w + 2500 ≤ (s.die e).ilim * 10 ∧ dieStop s e = false) ∧
    (s.lamp.normLine = [] ∨ s.power ≠ .run → exec .lampLineMove s = .next s) ∧
    (∀ r rs, s.lamp.normLine = r :: rs → s.power = .run → let u := s.reach (r.at_ + 50000)
      exec .lampLineMove s = .next { u with lamp := { u.lamp with rtLine := u.lamp.rtLine ++ [r], normLine := rs } })) ∧
  (∀ (s : State) (v : Word) (d : Die) (n : Nat) (vi ii : BitVec 16),
    (s.power ≠ .run → exec (.lampCfg v) s = .next s ∧ exec (.lampDie d v) s = .next s ∧ exec (.junctionTemperature d n) s = .next s ∧
      exec (.inputPower ⟨n, vi, ii⟩) s = .next s ∧ exec (.dieCurrent d n) s = .next s ∧ exec (.throttleStep d) s = .next s) ∧
    (s.power = .run →
      (let w := wfld v 0 12
       exec (.lampCfg v) s = .next (if 2000 ≤ w ∧ w ≤ s.lamp.plcfg then { s with lamp := { s.lamp with plmod := w } } else s)) ∧
      (let w := wfld v 14 10
       exec (.lampDie d v) s = .next (if 550 ≤ w ∧ w ≤ 850 then s.updDie d fun x =>
         { x with vset := w, vcore := vcoreOf { x with vset := w } } else s)) ∧
      (let u := s.updDie d fun x => { x with tj := n % 256, tjmax := max x.tjmax (n % 256) }
       let on := fun (x : DiePower) => { x with thm := true, askThm := some x.vcore, dueThm := s.mono + 100000 }
       let off := fun (x : DiePower) => { x with thm := false, dueThm := s.mono + 100000 }
       (110 ≤ n → exec (.junctionTemperature d n) s = .next (railsDown { u with pins := { u.pins with thermtrip := true } })) ∧
       (95 < n → n < 110 → exec (.junctionTemperature d n) s = .next (if (s.die d).thm = true then u else throttleEntry (u.updDie d on) d true)) ∧
       (92 < n → n ≤ 95 → exec (.junctionTemperature d n) s = .next u) ∧
       (n ≤ 92 → exec (.junctionTemperature d n) s = .next (if (s.die d).thm = true then throttleEntry (u.updDie d off) d false else u))) ∧
      (let u := { s with lamp := { s.lamp with pin := n % 2 ^ 16, vin := vi.toNat, iin := ii.toNat } }
       (s.lamp.plmod < n → exec (.inputPower ⟨n, vi, ii⟩) s = .next (if s.lamp.pwr = true then u else
         pwrCause (pwrCause { u with lamp := { u.lamp with pwr := true } } .c0 true) .c1 true)) ∧
       (n ≤ s.lamp.plmod → s.lamp.plmod < n + 50 → exec (.inputPower ⟨n, vi, ii⟩) s = .next u) ∧
       (n + 50 ≤ s.lamp.plmod → exec (.inputPower ⟨n, vi, ii⟩) s = .next (if s.lamp.pwr = true then
         pwrCause (pwrCause { u with lamp := { u.lamp with pwr := false } } .c0 false) .c1 false else u))) ∧
      (let u := s.updDie d fun x => { x with imeas := n % 2 ^ 12 }
       let on := fun (x : DiePower) => { x with cur := true, askCur := some (max 550 (x.vcore - 20)), dueCur := s.mono + 20000 }
       ((s.die d).ilim < n → (s.die d).cur = false → exec (.dieCurrent d n) s = .next (throttleEntry
         (u.updDie d fun x => { on x with vcore := vcoreOf (on x) }) d true)) ∧
       ((s.die d).ilim < n → (s.die d).cur = true → (s.die d).ilim < (s.die d).imeas → exec (.dieCurrent d n) s = .next u) ∧
       (n ≤ (s.die d).ilim → (s.die d).ilim * 95 < n * 100 → exec (.dieCurrent d n) s = .next u)) ∧
      (let x := s.die d
       (x.askThm = none → x.askCur = none → x.askPwr = none → exec (.throttleStep d) s = .next s) ∧
       (∀ a, x.askThm = some a → x.askCur = none → x.askPwr = none → 95 < x.tj →
         ∃ y, exec (.throttleStep d) s = .next ((s.reach x.dueThm).updDie d fun _ => y) ∧ y.askThm = some (max 550 (a - 10)) ∧
           y.vcore = max 550 (min x.vset (max 550 (a - 10))) ∧ y.dueThm = (s.reach x.dueThm).mono + 100000)))) ∧
  (∀ x : DiePower, 550 ≤ vcoreOf x ∧ (vcoreOf x ≤ max 550 x.vset) ∧ (x.askThm = none → x.askCur = none → x.askPwr = none → vcoreOf x = max 550 x.vset))

/-- A step runs the command at the front of the queue, and on an empty queue the block ticks (DESIGN CHOICE, logs 9, 100). -/
def Obligations.StepRunsTheFrontCommand : Prop :=
  (∀ (s : State) (c : Instr) (rest : List Instr), step { s with pending := c :: rest } = exec c { s with pending := rest }) ∧
  (∀ s : State, s.pending = [] →
    (s.power ≠ .run → step s = .next s) ∧
    (let a := feSettle (writesPerformed (idle s))
     let u := (a.tiles.map fun p => p.1).foldl tileTick a
     s.power = .run → a.power = .run → ∀ r, runCores (coresOf u) u = .next r → step s = .next (pumpAll r))) ∧
  (∀ (s : State) (c : CoreId),
    (issuing s c = false → runCore c s = .next s) ∧
    (issuing s c = true →
      ((bestSource s c).isSome = true → runCore c s = execInterrupt c s) ∧
      ((bestSource s c).isSome = false → held s c = true → runCore c s = .next (addStall s c)) ∧
      ((bestSource s c).isSome = false → held s c = false →
        (∀ u t, fetchInstr s c = (u, .error t) → runCore c s = .next (issue c [] 2 true done u)) ∧
        (∀ u bs, fetchInstr s c = (u, .ok bs) →
          (noFirmware u c bs = true → runCore c s = .next s) ∧
          (noFirmware u c bs = false →
            (∀ i, decodeInstr c bs = .instr i → runCore c s = exec i u) ∧
            (decodeInstr c bs = .illegal → runCore c s = .next (issueIllegal c bs.length u)))))))

/-- No command of the table faults or is refused, in any state.
The model's choices in it: log 8. -/
def Obligations.EveryCommandCompletes : Prop := ∀ (c : Instr) (s : State), ∃ t, exec c s = .next t

/-- The values of R10's tables that the machine holds after reset.
The model's choices in it: log 4. -/
def Obligations.ResetState : Prop :=
  let s := State.reset
  s.pending = [] ∧ s.power = .run ∧ s.mem = [] ∧
  (∀ c : CoreId, let k := s.core c
    k.fl = {} ∧ (∀ i, aget 0 k.lc i = 0 ∧ aget 0 k.ls i = 0 ∧ aget 0 k.le i = 0) ∧ k.status.lvl = true ∧ k.status.ml = 7 ∧
    k.status.bs = false ∧ k.epc = 0 ∧ k.ecause = 0 ∧ k.eaddr = 0 ∧ k.ien = 0 ∧ k.ipProf = false ∧ k.ipFe = false ∧
    k.ipLst = false ∧ k.ipWdog = false ∧ k.sbuf = []) ∧
  (∀ t : TileId, let x := s.tile t.val
    x.vec.cfg = {} ∧ x.vec.csr = {} ∧ (∀ i, aget 0 x.vec.chains i = 0) ∧ (∀ i, aget 0 x.mtx.acc i = 0) ∧ x.tdb = 0 ∧ x.tdbm = 0) ∧
  (∀ q, let x := s.queue q
    x.en = false ∧ x.head = 0 ∧ x.tail = 0 ∧ x.cmd = none ∧ x.state = .idle) ∧
  (∀ m : MbId, (s.mbox m).full = false ∧ (s.mbox m).ackv = false) ∧ s.host.hdb = 0 ∧ s.host.hdbm = 0 ∧
  s.sec.rollback = 0 ∧ s.lamp.die0.vcore = 750 ∧ s.lamp.die0.vset = 750 ∧ s.lamp.die1.vcore = 750 ∧ s.lamp.die1.vset = 750

/-- The state after reset meets `Inv`. -/
def Obligations.ResetMeetsInvariant : Prop := Inv State.reset

/-- Every step keeps `Inv`, from every state that meets it.
The model's choices in it: log 4. -/
def Obligations.StepKeepsInvariant : Prop := ∀ s t : State, Inv s → step s = .next t → Inv t

/-- R591, R608, R623: the queue's rest and blown fuses are the same after every command and every tick. -/
def Obligations.NoCommandRestores : Prop :=
  ∀ s t : State, s.sec.rollback ≤ 64 → step s = .next t →
    t.pending = s.pending.tail ∧ t.sec.serial = s.sec.serial ∧ s.sec.rollback ≤ t.sec.rollback ∧
    ∀ i, (ownerSlot s i).pin = true → (ownerSlot t i).pin = true

/-- R559 to R568, R574: each of the nine commands of an established session has its effect.
The model's choices in it: logs 62, 63, 102. -/
def Obligations.SessionCommandsComplete : Prop :=
  ∀ (s : State) (i : SessNo), s.power = .run → (s.sess i.val).state = .established → let x := s.sess i.val
    let opens := fun (t : Nat) (h : EzHeader) (b tag bs : List Byte) => ezHdrOk h t (x.gen * 256 + i.val) = true ∧
      ezOpen x.rxKey x.rxSalt h b tag = some bs ∧ pnStale x h.pn.toNat = false ∧ h.pn.toNat + 1 < 2 ^ 48
    (∀ p hdr b tag ce bs, (s.hport p.val).state = 3 → opens 4 hdr b tag bs → heldBytes x + (bs.length - 24) ≤ 2 ^ 21 → x.txPn < 2 ^ 48 →
      ∃ u, exec (.data i p hdr b tag ce) s = .next (nextOps u i.val) ∧ pnStale (u.sess i.val) hdr.pn.toNat = true ∧
        (∀ m, parsePiece bs = some m → x.nextMsn ≤ m.msn.toNat → ∃ q ∈ (u.sess i.val).pieces, q.msn = m.msn ∧ q.offset = m.offset) ∧
        (u.sess i.val).ceCount = x.ceCount + b2n ce ∧ (u.sess i.val).lastRx = s.mono) ∧
    (∀ p hdr b tag ce bs a, (s.hport p.val).state = 3 → opens 5 hdr b tag bs → parseAck bs = some a →
      x.txPn + x.waiting.length + x.inFlight.length < 2 ^ 48 → ∃ t, exec (.ack i p hdr b tag ce) s = .next t ∧
      (t.sess i.val).window = a.win ∧ (t.sess i.val).peerCe = a.ce ∧ (t.sess i.val).lastRx = s.mono ∧
      ∀ e ∈ (t.sess i.val).inFlight, ackedBy a.cum a.ranges e.pn = false ∨ x.txPn ≤ e.pn) ∧
    (∀ (k : EzPacket) bs, (s.hport k.port.val).state = 3 → opens 6 k.hdr k.body k.tag bs → bs.length = 4 →
      ∃ t, exec (.close i k) s = .next t ∧ t.sess i.val = { gen := x.gen }) ∧
    (∀ (k : EzPacket) bs, (s.hport k.port.val).state = 3 → opens 7 k.hdr k.body k.tag bs → x.txPn < 2 ^ 48 →
      ∃ t, exec (.probe i k) s = .next t ∧ (t.sess i.val).lastRx = s.mono ∧ pnStale (t.sess i.val) k.hdr.pn.toNat = true) ∧
    (let down := (netPorts x false ++ netPorts x true).filter fun p => portUp s p && !(aget {} x.paths p).up
     let quiet := max x.lastRx x.lastTx + 1000000000
     let u := s.reach (if down = [] then quiet else x.lastProbe + 100000000)
     let on := down ++ (if quiet ≤ u.mono then (bestPath s x).toList else [])
     x.txPn + on.length ≤ 2 ^ 48 → ∃ t, exec (.probeTimer i) s = .next t ∧ (t.sess i.val).txPn = x.txPn + on.length ∧
       (t.sess i.val).inFlight = x.inFlight ++ (on.zipIdx x.txPn).map (fun q => { pn := q.2, content := [], port := q.1, at_ := u.mono, again := false, probe := true }) ∧
       ∃ ks : List OutPacket, t.host.out = s.host.out ++ ks.map .ez ∧ ks.map (fun k => k.port) = on ∧ ∀ k ∈ ks, k.hdr.ptype = 7) ∧
    (let u := s.reach (x.lastRx + 30000000000)
     let v := { u with host := { u.host with idle := sat16 s.host.idle 1 } }
     ∃ t, exec (.sessionIdle i) s = .next t ∧ t.sess i.val = { gen := x.gen } ∧ t.host.idle = sat16 s.host.idle 1 ∧
      (∀ p, bestPath s x = some p → t.host.out = s.host.out ++ [.ez (sealedPkt v i.val p (peerOf x p) 6 (beBytes 4 3))]) ∧
      (bestPath s x = none → t.host.out = s.host.out)) ∧
    (∀ p, x.sinceAck ≠ 0 → x.txPn < 2 ^ 48 → bestPath s x = some p → ∃ t, exec (.ezoriAckDelay i) s = .next t ∧
      t.sess i.val = { x with txPn := x.txPn + 1, lastTx := s.mono, sinceAck := 0 } ∧
      t.host.out = s.host.out ++ [.ez (sealedPkt s i.val p (peerOf x p) 5
        (ackBytes x.rxCum (2 ^ 21 - heldBytes x) x.ceCount ((runsDown x.rxSeen).take 16)))]) ∧
    (∀ pn e q, let u := s.updSess i.val fun x => updPath x e.port fun p => { p with expiries := p.expiries + 1 }
      x.inFlight.find? (fun e => e.pn = pn) = some e → (aget {} x.paths e.port).expiries < 2 → bestPath u (u.sess i.val) = some q →
      e.probe = false → x.txPn < 2 ^ 48 → ∃ t v, exec (.retransmissionTimeout i pn) s = .next t ∧ s.mono ≤ v ∧
        (aget {} (t.sess i.val).paths e.port).expiries = (aget {} x.paths e.port).expiries + 1 ∧
        (t.sess i.val).inFlight = (x.inFlight.filter fun f => f ≠ e) ++
          [{ pn := x.txPn, content := e.content, port := q, at_ := v, again := true, probe := false }] ∧
        t.host.out = s.host.out ++ [.ez (sealedPkt s i.val q (peerOf x q) 4 e.content)]) ∧
    (∀ p rtt, ahas x.paths p.val = true → let y := aget {} x.paths p.val
      let f : Rat := if y.acked = 0 then 0 else (y.marked : Rat) / y.acked
      let alpha := y.alpha * 15 / 16 + f / 16
      let least := y.samples.foldl (fun m q => min m q.2) ((y.samples.head?.map fun q => q.2).getD rtt)
      let line : Rat := if 4 ≤ (s.hport p.val).pmd.toNat then 100 else 200
      ∃ t, exec (.rateUpdate i p rtt) s = .next t ∧ (aget {} (t.sess i.val).paths p.val).rate = max (1 / 10) (min line
        (if 0 < f then y.rate * (1 - alpha / 2) else if least + 25000 < rtt then y.rate * 9 / 10 else y.rate + 2)))

/-- R72 to R77, R82, R95, R100, R101, R165, R173 to R175, R263, R288, R339, R342, R370: the words that a core reads, in every layout
and with every operand, and what the other values of a selector are. -/
def Obligations.InstructionWords : Prop :=
  let is := fun (c : CoreId) (w : Nat) (d : Decoded) => decodeInstr c (toBytes 4 w) = d
  let all := fun (c : CoreId) (n : Nat) (w : Nat → Nat) (other : Decoded) (rows : List (Nat × Instr)) =>
    (∀ p ∈ rows, is c (w p.1) (.instr p.2)) ∧ ∀ k, k < n → (∀ p ∈ rows, p.1 ≠ k) → is c (w k) other
  (∀ (c : CoreId) (f : LR),
    let w := fun (m k : Nat) =>
      f.rd.toNat * 2 ^ 27 + f.rs1.toNat * 2 ^ 22 + f.rs2.toNat * 2 ^ 17 + b2n f.f * 2 ^ 16 + k * 2 ^ 7 + m * 2 + 1
    all c 512 (w 0x01) .illegal
      [(0x000, .add c (.long f)), (0x001, .sub c (.long f)), (0x002, .adc c f), (0x003, .sbc c f),
       (0x008, .andR c (.long f)), (0x009, .orR c (.long f)), (0x00A, .xorR c (.long f)), (0x00B, .andn c f),
       (0x010, .shl c (.long f)), (0x011, .shr c (.long f)), (0x012, .sar c (.long f)), (0x013, .rol c f), (0x018, .slt c f),
       (0x019, .sltu c f), (0x01A, .minR c f), (0x01B, .maxR c f), (0x01C, .minu c f), (0x01D, .maxu c f),
       (0x020, .mul c (.long f)), (0x021, .mulh c f), (0x022, .mulhu c f), (0x028, .div c f), (0x029, .divu c f),
       (0x02A, .rem c f), (0x02B, .remu c f), (0x030, .clz c f), (0x031, .ctz c f), (0x032, .popc c f), (0x033, .bswap c f),
       (0x034, .sext c .b f), (0x035, .sext c .h f), (0x036, .sext c .w f), (0x037, .zextW c f)] ∧
    all c 512 (w 0x0E) .illegal
      [(0x000, .mfsr c f.rd (f.rs1 ++ f.rs2) f.f), (0x001, .mtsr c (f.rs1 ++ f.rs2) f.rd f.f), (0x002, .ifl c (.long f)),
       (0x003, .mset c f), (0x004, .trap c f), (0x005, .eret c f), (0x006, .waitq c f), (0x007, .halt c f)] ∧
    all c 512 (w 0x1C) .illegal
      [(0x000, .fence c f), (0x001, .fenceW c f), (0x008, .dcz c f), (0x009, .dcwb c f), (0x00A, .dcinv c f)] ∧
    all c 512 (w 0x1D) .illegal
      [(0x000, .amoadd c false f), (0x001, .amoadd c true f), (0x002, .amoswap c false f), (0x003, .amoswap c true f),
       (0x004, .amocas c false f), (0x005, .amocas c true f), (0x006, .amomin c false f), (0x007, .amomin c true f),
       (0x008, .amomax c false f), (0x009, .amomax c true f), (0x00C, .amofaddF32 c f)]) ∧
  (∀ (c : CoreId) (f : LI),
    let w := fun (m : Nat) => f.rd.toNat * 2 ^ 27 + f.rs1.toNat * 2 ^ 22 + b2n f.f * 2 ^ 21 + f.imm.toNat * 2 ^ 7 + m * 2 + 1
    (∀ t, is (.tile t) (w 0x20) (.instr (.vcfg t f))) ∧
    ∀ p ∈ ([(0x02, .addi c (.long f)), (0x03, .andi c f), (0x04, .ori c f), (0x05, .xori c f), (0x07, .slti c f),
       (0x08, .sltiu c f), (0x0B, .jalr c (.long f))] : List (Nat × Instr)),
      is c (w p.1) (.instr p.2)) ∧
  (∀ (c : CoreId) (f : LISh),
    let w := fun (k : Nat) =>
      f.rd.toNat * 2 ^ 27 + f.rs1.toNat * 2 ^ 22 + b2n f.f * 2 ^ 21 + k * 2 ^ 19 + f.mbz.toNat * 2 ^ 13 + f.amt.toNat * 2 ^ 7 + 0x06 * 2 + 1
    ∀ p ∈ ([(0, .shli c (.long f)), (1, .shri c (.long f)), (2, .sari c (.long f)), (3, .roli c f)] : List (Nat × Instr)),
      is c (w p.1) (.instr p.2)) ∧
  (∀ (c : CoreId) (r b : Reg) (a : BitVec 15),
    let w := fun (m : Nat) => r.toNat * 2 ^ 27 + b.toNat * 2 ^ 22 + a.toNat * 2 ^ 7 + m * 2 + 1
    ∀ p ∈ ([(0x10, .ld c (.long .b r b a)), (0x11, .ld c (.long .bu r b a)), (0x12, .ld c (.long .h r b a)),
       (0x13, .ld c (.long .hu r b a)), (0x14, .ld c (.long .w r b a)), (0x15, .ld c (.long .wu r b a)),
       (0x16, .ld c (.long .d r b a)), (0x18, .st c (.long .b r b a)), (0x19, .st c (.long .h r b a)),
       (0x1A, .st c (.long .w r b a)), (0x1B, .st c (.long .d r b a))] : List (Nat × Instr)), is c (w p.1) (.instr p.2)) ∧
  (∀ (c : CoreId) (r : Reg) (i : BitVec 20) (j : BitVec 25) (k : BitVec 4) (b : BitVec 21) (x : BitVec 2) (e : BitVec 18),
    is c (r.toNat * 2 ^ 27 + i.toNat * 2 ^ 7 + 0x09 * 2 + 1) (.instr (.lui c r i)) ∧
    is c (r.toNat * 2 ^ 27 + i.toNat * 2 ^ 7 + 0x0A * 2 + 1) (.instr (.lsh c r i)) ∧
    is c (j.toNat * 2 ^ 7 + 0x1F * 2 + 1) (.instr (.jal c j)) ∧
    is c (k.toNat * 2 ^ 28 + b.toNat * 2 ^ 7 + 0x1E * 2 + 1) (.instr (.bcc c (.long k b))) ∧
    is c (x.toNat * 2 ^ 30 + r.toNat * 2 ^ 25 + e.toNat * 2 ^ 7 + 0x0C * 2 + 1) (.instr (.zloop c x r e))) ∧
  (∀ (c : CoreId) (z : BitVec 2) (m : BitVec 21),
    let w := fun (op : Nat) => z.toNat * 2 ^ 30 + op * 2 ^ 28 + m.toNat * 2 ^ 7 + 0x0D * 2 + 1
    let rep := fun (op : Nat) (d : Decoded) => decodeInstr c (toBytes 6 (w op * 2 ^ 16 + 0x083E)) = d
    let f := fun (r : Bool) => ({ rep := r, sz := z, mbz := m, upTo := none } : StrForm)
    is c (w 0) (.instr (.smov c (f false))) ∧ is c (w 1) (.instr (.sset c (f false))) ∧ is c (w 2) (.instr (.scmp c (f false))) ∧
    is c (w 3) .illegal ∧ rep 0 (.instr (.smov c (f true))) ∧ rep 1 (.instr (.sset c (f true))) ∧
    rep 2 (.instr (.scmp c (f true))) ∧ rep 3 .illegal) ∧
  (∀ (c : CoreId) (t : TileId) (f : LC),
    let w := fun (m k : Nat) => f.rd.toNat * 2 ^ 27 + f.rs1.toNat * 2 ^ 22 + f.rs2.toNat * 2 ^ 17 + k * 2 ^ 7 + m * 2 + 1
    all c 1024 (w 0x3A) (.func10 2)
      [(0x000, .hinit c f), (0x001, .habs c f), (0x002, .habsm c f), (0x003, .hfin c f), (0x004, .hsqz c f),
       (0x005, .hsave c f), (0x006, .hrest c f)] ∧
    all (.tile t) 1024 (w 0x38) (.func10 0)
      [(0x000, .mcfg t f), (0x001, .mwld t f), (0x002, .mpass t f), (0x003, .mdrain t f), (0x004, .mlda t f),
       (0x005, .msync t f)] ∧
    all (.tile t) 1024 (w 0x39) (.func10 1)
      [(0x000, .gput t f), (0x001, .gget t f), (0x002, .gdispatch t f), (0x003, .greturn t f), (0x004, .garm t f),
       (0x005, .gibgat t f), (0x008, .gallreduce t f), (0x009, .greducescatter t f), (0x00A, .gallgather t f),
       (0x00B, .galltoall t f), (0x00C, .gbarrier t f), (0x00D, .gjoin t f), (0x010, .gbeacon t f), (0x011, .gsync t f)]) ∧
  (∀ (t : TileId) (f : VR),
    let w := fun (m k : Nat) =>
      f.vd.toNat * 2 ^ 27 + f.vs1.toNat * 2 ^ 22 + f.vs2.toNat * 2 ^ 17 + f.vm.toNat * 2 ^ 14 + b2n f.s * 2 ^ 13 + k * 2 ^ 7 + m * 2 + 1
    all (.tile t) 64 (w 0x22) .illegal
      [(0x00, .vfadd t f), (0x01, .vfsub t f), (0x02, .vfmul t f), (0x03, .vfdiv t f), (0x04, .vfmin t f),
       (0x05, .vfmax t f), (0x06, .vfsqrt t f), (0x08, .vfneg t f), (0x09, .vfabs t f), (0x10, .vcvtFI t f),
       (0x11, .vcvtIF t f), (0x12, .vfwcvt t f), (0x13, .vfncvt t f)] ∧
    all (.tile t) 64 (w 0x25) .illegal
      [(0x00, .vadd t f), (0x01, .vsub t f), (0x02, .vmul t f), (0x03, .vmulh t f), (0x04, .vmulhu t f), (0x08, .vand t f),
       (0x09, .vor t f), (0x0A, .vxor t f), (0x0B, .vandn t f), (0x10, .vshl t f), (0x11, .vshr t f), (0x12, .vsar t f),
       (0x18, .vmin t f), (0x19, .vmax t f), (0x1A, .vminu t f), (0x1B, .vmaxu t f)] ∧
    all (.tile t) 64 (w 0x26) .illegal
      [(0x00, .vfcmpeq t f), (0x01, .vfcmplt t f), (0x02, .vfcmple t f), (0x03, .vfcmpun t f), (0x08, .vcmpeq t f),
       (0x09, .vcmpne t f), (0x0A, .vcmplt t f), (0x0B, .vcmpltu t f), (0x0C, .vcmple t f), (0x0D, .vcmpleu t f),
       (0x20, .mand t f), (0x21, .mor t f), (0x22, .mxor t f), (0x23, .mandn t f), (0x28, .vpopc t f), (0x29, .vfirst t f)]) ∧
  (∀ (t : TileId) (f : VR),
    let w := fun (m k : Nat) =>
      f.vd.toNat * 2 ^ 27 + f.vs1.toNat * 2 ^ 22 + f.vs2.toNat * 2 ^ 17 + f.vm.toNat * 2 ^ 14 + k * 2 ^ 7 + m * 2 + 1
    f.s = false →
    all (.tile t) 128 (w 0x27) .illegal
      [(0x00, .vredsum t f), (0x01, .vredmin t f), (0x02, .vredmax t f), (0x03, .vredminu t f), (0x04, .vredmaxu t f),
       (0x08, .vfredsum t f), (0x09, .vfredmin t f), (0x0A, .vfredmax t f), (0x10, .vslideup t f), (0x11, .vslidedown t f),
       (0x12, .vrgather t f), (0x13, .vmerge t f)] ∧
    all (.tile t) 128 (w 0x28) .illegal
      [(0x00, .vwmul t f), (0x01, .vwmulu t f), (0x02, .vfwmul t f), (0x08, .vdotI8 t f), (0x0A, .vdotE4m3 t f),
       (0x0B, .vdotE4m3e5m2 t f), (0x0C, .vdotE5m2e4m3 t f), (0x0D, .vdotE5m2 t f), (0x0E, .vdotB16 t f),
       (0x0F, .vdotF16 t f), (0x20, .vmvVV t f), (0x21, .vmvVX t f), (0x22, .vmvXS t f), (0x23, .vid t f)] ∧
    all (.tile t) 128 (w 0x29) .illegal
      [(0x00, .cld t f), (0x01, .cst t f), (0x02, .cseed t f), (0x10, .rownorm t f 0), (0x11, .rownorm t f 1),
       (0x12, .rownorm t f 2), (0x13, .rownorm t f 3), (0x14, .rownorm t f 4), (0x15, .rownorm t f 5),
       (0x16, .rownorm t f 6), (0x17, .rownorm t f 7)]) ∧
  (∀ (t : TileId) (vd vs1 vs2 vs3 : Reg) (vm : MaskNo) (op : BitVec 2),
    let w := fun (m k : Nat) =>
      vd.toNat * 2 ^ 27 + vs1.toNat * 2 ^ 22 + vs2.toNat * 2 ^ 17 + vs3.toNat * 2 ^ 12 + vm.toNat * 2 ^ 9 + k * 2 ^ 7 + m * 2 + 1
    let f := fun (s : Bool) => ({ vd := vd, vs1 := vs1, vs2 := vs2, vs3 := vs3, vm := vm, s := s } : VF)
    is (.tile t) (w 0x23 0) (.instr (.vfma t (f false))) ∧ is (.tile t) (w 0x23 1) (.instr (.vfms t (f false))) ∧
    is (.tile t) (w 0x23 2) (.instr (.vfnma t (f false))) ∧ is (.tile t) (w 0x23 3) (.instr (.vfnms t (f false))) ∧
    is (.tile t) (w 0x24 0) (.instr (.vfma t (f true))) ∧ is (.tile t) (w 0x24 1) (.instr (.vfms t (f true))) ∧
    is (.tile t) (w 0x24 2) (.instr (.vfnma t (f true))) ∧ is (.tile t) (w 0x24 3) (.instr (.vfnms t (f true))) ∧
    is (.tile t) (w 0x2A op.toNat) (.instr (.vchain t (f false) op)) ∧ is (.tile t) (w 0x2B op.toNat) (.instr (.cmem t (f false) op none))) ∧
  (∀ (t : TileId) (f : VM),
    let w := fun (k : Nat) => f.vt.toNat * 2 ^ 27 + f.base.toNat * 2 ^ 22 + f.vm.toNat * 2 ^ 19 + k * 2 ^ 18 + f.simm.toNat * 2 ^ 7 + 0x21 * 2 + 1
    is (.tile t) (w 0) (.instr (.vld t f)) ∧ is (.tile t) (w 1) (.instr (.vst t f))) ∧
  (∀ (c : CoreId) (n : Fin 13) (x : BitVec 25) (m : Nat),
    (m ∈ [0x00, 0x0F, 0x17, 0x2C, 0x2D, 0x2E, 0x2F, 0x30, 0x31, 0x32, 0x33, 0x34, 0x35, 0x36, 0x37, 0x3B, 0x3C, 0x3D, 0x3E, 0x3F] →
      is c (x.toNat * 2 ^ 7 + m * 2 + 1) .illegal) ∧
    (m ∈ [0x20, 0x21, 0x22, 0x23, 0x24, 0x25, 0x26, 0x27, 0x28, 0x29, 0x2A, 0x2B, 0x38, 0x39] →
      is (.svc n) (x.toNat * 2 ^ 7 + m * 2 + 1) .illegal)) ∧
  (∀ (c : CoreId) (rd rs : Reg), let half := fun (op : Nat) => decodeInstr c (toBytes 2 (rd.toNat * 2 ^ 11 + rs.toNat * 2 ^ 6 + op * 2))
    let sx := fun (k : Nat) => decodeInstr c (toBytes 2 (k * 2 ^ 11 + rs.toNat * 2 ^ 6 + 0x1F * 2))
    (∀ op ∈ [0x00, 0x1A, 0x1B, 0x1C, 0x1D, 0x1E], half op = .illegal) ∧
    (∀ k, k < 32 → k ∉ [0, 2, 3, 4, 5] → sx k = .illegal) ∧
    (∀ p ∈ ([(0, .nop c rs), (2, .ret c rs), (3, .jr c rs), (4, .jalr c (.short rs)), (5, .ifl c (.short rs))] : List (Nat × Instr)),
      sx p.1 = .instr p.2) ∧
    ∀ p ∈ ([(0x01, .mov c rd rs), (0x02, .add c (.short rd rs)), (0x03, .sub c (.short rd rs)), (0x04, .andR c (.short rd rs)),
       (0x05, .orR c (.short rd rs)), (0x06, .xorR c (.short rd rs)), (0x07, .shl c (.short rd rs)),
       (0x08, .shr c (.short rd rs)), (0x09, .sar c (.short rd rs)), (0x0A, .cmp c rd rs), (0x0B, .mul c (.short rd rs)),
       (0x0C, .movi c rd rs), (0x0D, .addi c (.short rd rs)), (0x0E, .shli c (.short rd rs)), (0x0F, .shri c (.short rd rs)),
       (0x10, .sari c (.short rd rs)), (0x11, .cmpi c rd rs), (0x12, .ld c (.shortD rd rs)), (0x13, .st c (.shortD rd rs)),
       (0x14, .ld c (.shortW rd rs)), (0x15, .st c (.shortW rd rs)), (0x16, .ldspD c rd rs), (0x17, .stspD c rd rs)] : List (Nat × Instr)),
      half p.1 = .instr p.2) ∧
  ∀ (c : CoreId) (k : BitVec 4) (i : BitVec 6) (j : BitVec 10),
    decodeInstr c (toBytes 2 (k.toNat * 2 ^ 12 + i.toNat * 2 ^ 6 + 0x18 * 2)) = .instr (.bcc c (.short k i)) ∧
    decodeInstr c (toBytes 2 (j.toNat * 2 ^ 6 + 0x19 * 2)) = .instr (.br c j)

/-- R471, R479 to R486: the code of a burst, and the read of a line at its slice. -/
def Obligations.BurstCode : Prop :=
  (∀ e : PinErr,
    (verdict e = .clean ↔ synd0 e = 0 ∧ synd1 e = 0) ∧
    (∀ k a, verdict e = .pin k a → k < 18 ∧ a ≠ 0 ∧ synd0 e = a ∧ synd1 e = timesAk k a) ∧
    (verdict e = .bad ↔ ¬(synd0 e = 0 ∧ synd1 e = 0) ∧ (synd0 e = 0 ∨ ∀ k, k < 18 → synd1 e ≠ timesAk k (synd0 e)))) ∧
  (∀ (k : Nat) (x : BitVec 32), k < 18 → x ≠ 0 → ∃ j, verdict [(k, x)] = .pin j x ∧ timesAk j x = timesAk k x) ∧
  (∀ (s : State) (l : Nat), let lo := verdict (burstErr s (2 * l))
    let hi := verdict (burstErr s (2 * l + 1))
    (lineHealth s l = .uncorrectable ↔ lo = .bad ∨ hi = .bad) ∧ (lineHealth s l = .clean ↔ lo = .clean ∧ hi = .clean)) ∧
  (∀ (s : State) (l : Nat) (p : Place), lineErr s l = none → place s (l * 128) = some p →
    (sliceLine s p l = none →
      (lineHealth s l = .uncorrectable → lineRead s l false =
        (requestSound (s.updStack p.stack fun k => { k with uncorr := sat32 k.uncorr 1 }) (rowOf p), some (.uncorr 1))) ∧
      (lineHealth s l ≠ .uncorrectable → lineRead s l false =
        (sliceTouch (readBurst (readBurst s p (2 * l)) p (2 * l + 1)) p l false, none))) ∧
    (∀ e, sliceLine s p l = some e →
      (e.bad = false → lineRead s l false = (sliceTouch s p l false, none)) ∧
      (e.bad = true → lineRead s l false = (requestSound s (wayOf p e.way), some (.uncorr (if e.dirty then 2 else 1))))))

/-- R559: AES-256-GCM over a packet, sealed and opened. -/
def Obligations.SealedPacketsOpen : Prop :=
  (∀ (key salt : List Byte) (h : EzHeader) (bs : List Byte), key.length = 32 → let n := salt ++ beBytes 8 h.pn.toNat
    let ct := gcmStream key n bs
    ezOpen key salt h ct (gcmTag key n (ezHdrBytes h) ct) = some bs ∧ ct.length = bs.length ∧
    ∀ tag, tag ≠ gcmTag key n (ezHdrBytes h) ct → ezOpen key salt h ct tag = none) ∧
  (∀ (s : State) (i p t : Nat) (dst : HostEp) (bs : List Byte), let x := s.sess i
    x.txKey.length = 32 → x.txPn < 2 ^ 64 → let k := sealedPkt s i p dst t bs
      ezOpen x.txKey x.txSalt k.hdr k.body k.tag = some bs ∧ k.hdr.pn.toNat = x.txPn ∧ k.hdr.sid = x.hsid)

/-- R487, R585, R586, R591, R592, R596, R617, R618: the start sequence.
The model's choices in it: logs 69, 73, 85. -/
def Obligations.StartSequence : Prop :=
  (∀ (s : State) (r : StartResult) (cause : Option Nat), let n := takeNvm s r
    let first := match n.start.imgA, n.start.imgB with | some a, some b => decide (a.seq < b.seq) | none, some _ => true | _, none => false
    let img := fun (b : Bool) => if b then n.start.imgB else n.start.imgA
    let bad := fun (b : Bool) => if b then r.failB else r.failA
    let refs := n.tu.ref0 = true ∨ n.tu.ref1 = true
    (¬ refs → startSeq s r cause = failStart n 11 1 0) ∧
    (refs → ∀ c, r.common = some c → c = 10 ∨ c = 11 → startSeq s r cause = failStart n c.toNat 1 0) ∧
    (refs → r.common = none →
      (∀ u i, attempt n (img first) (bad first) = (u, none) → img first = some i → startSeq s r cause = bootState u i first 1 0 r cause) ∧
      (∀ u c v i, attempt n (img first) (bad first) = (u, some c) → attempt u (img !first) (bad !first) = (v, none) → img (!first) = some i →
        startSeq s r cause = bootState v i (!first) 2 c r cause) ∧
      (∀ u c v d, attempt n (img first) (bad first) = (u, some c) → attempt u (img !first) (bad !first) = (v, some d) →
        startSeq s r cause = failStart v d 2 c))) ∧
  (∀ (s : State) (i : Image) (f : Option (BitVec 8)),
    attempt s none f = (s, some 1) ∧
    (∀ c, c = 1 ∨ c = 2 ∨ c = 3 ∨ c = 8 → attempt s (some i) (some c) = (s, some c.toNat)) ∧
    (f = none → i.svn < s.sec.rollback → attempt s (some i) f = (s, some 4)) ∧
    (f = none → s.sec.rollback ≤ i.svn → s.start.cfgBad = true ∨ cfgOk s.start.cfg = false → attempt s (some i) f = (s, some 5)) ∧
    (f = none → s.sec.rollback ≤ i.svn → s.start.cfgBad = false → cfgOk s.start.cfg = true →
      (admitOwner s s.start.cfg.owner = none → attempt s (some i) f = (s, some 6)) ∧
      (∀ o, admitOwner s s.start.cfg.owner = some o → attempt s (some i) f = ({ s with sec := { s.sec with owners := o } }, none)))) ∧
  (∀ (s : State) (code attempts other : Nat), let t := failStart s code attempts other
    t.power = .startFailed ∧ t.pins.bootfail = true ∧ t.pins.ready = false ∧ t.mem = s.mem ∧ t.sec = s.sec ∧
    (jHeld s < jSlots → ∃ e, t.start.jpend = s.start.jpend ++ [(e, false)] ∧ e.kind = 0x0F ∧ e.loc = BitVec.ofNat 64 code ∧
      e.repl = BitVec.ofNat 32 attempts ∧ e.aux = BitVec.ofNat 32 other) ∧
    (jSlots ≤ jHeld s → t.start.jpend = s.start.jpend)) ∧
  (∀ (s : State) (i : Image) (slot : Bool) (attempts ocode : Nat) (r : StartResult),
    r.badSpares = [] → r.chans = [] → r.found = [] → s.start.j0 = [] → s.start.j1 = [] → s.tu.ref0 = true →
    let t := bootState s i slot attempts ocode r none
    let c := s.start.cfg
    t.power = .run ∧ t.pins.ready = true ∧ t.pins.bootfail = false ∧ t.mem = [] ∧ t.memK1 ≠ t.memK2 ∧ t.pending = s.pending ∧
    t.mono = r.dur.toNat * 10000000 ∧ t.time = r.dur.toNat * 10000000 ∧ t.gid = c.gid ∧ t.map = c.map ∧ t.gal.basin = c.basin ∧ t.lamp.plmod = c.plmod ∧
    t.start.slot = slot ∧ t.sec.owners = s.sec.owners ∧
    aget 0 t.sec.mr 0 = shake256 (bytes512 0 ++ bytes512 s.sec.romdig) ∧ aget 0 t.sec.mrcnt 0 = 1 ∧
    s.sec.rollback ≤ t.sec.rollback ∧ t.sec.rollback ≤ max s.sec.rollback (min 64 i.svn) ∧
    (i.commit = true → r.fuseFail = false → t.sec.rollback = max s.sec.rollback (min 64 i.svn)) ∧
    (i.commit = false → t.sec.rollback = s.sec.rollback))
end

