-- ==== Sys2Proof/Laws/Tables.lean ====
section
/-! SUPPORT. What a read of a sparse table gives after each of its operations, and that every one keeps the canonical form. -/

namespace Sys2Proof.Machine

open Sys2Proof

section Reads

variable {α : Type} (d : α) (m : SMap α) (i j : Nat) (v : α)

@[simp] theorem aget_nil : aget d ([] : SMap α) i = d := rfl

@[simp] theorem aget_aput_self : aget d (aput m i v) i = v := by
  induction m with
  | nil => simp [aput, aget]
  | cons p m ih =>
    obtain ⟨k, w⟩ := p
    by_cases h1 : i < k
    · simp [aput, aget, h1]
    · by_cases h2 : i = k
      · simp [aput, aget, h2]
      · have h3 : ¬ k = i := fun h => h2 h.symm
        simp [aput, aget, h1, h2, h3, ih]

theorem aget_aput_ne (h : j ≠ i) : aget d (aput m i v) j = aget d m j := by
  induction m with
  | nil => simp [aput, aget, h.symm]
  | cons p m ih =>
    obtain ⟨k, w⟩ := p
    by_cases h1 : i < k
    · simp [aput, aget, h1, h.symm]
    · by_cases h2 : i = k
      · subst h2; simp [aput, aget, h.symm]
      · simp [aput, aget, h1, h2, ih]

/-- A read after a write of one key. -/
theorem aget_aput : aget d (aput m i v) j = if j = i then v else aget d m j := by
  by_cases h : j = i
  · subst h; simp
  · simp [h, aget_aput_ne]

/-- A second write of one key replaces the first. -/
@[simp] theorem aput_aput (w : α) : aput (aput m i v) i w = aput m i w := by
  induction m with
  | nil => simp [aput]
  | cons p m ih =>
    obtain ⟨k, x⟩ := p
    simp only [aput]
    split_ifs with h1 h2
    · simp [aput]
    · simp [aput]
    · simp [aput, h1, h2, ih]

@[simp] theorem aget_adel_self : aget d (adel m i) i = d := by
  induction m with
  | nil => rfl
  | cons p m ih =>
    obtain ⟨k, w⟩ := p
    by_cases h : k = i
    · simp [adel, h, ih]
    · simp [adel, aget, h, ih]

theorem aget_adel_ne (h : j ≠ i) : aget d (adel m i) j = aget d m j := by
  induction m with
  | nil => rfl
  | cons p m ih =>
    obtain ⟨k, w⟩ := p
    by_cases h1 : k = i
    · subst h1; simp [adel, aget, h.symm, ih]
    · by_cases h2 : k = j
      · subst h2; simp [adel, aget, h]
      · simp [adel, aget, h1, h2, ih]

variable [DecidableEq α]

@[simp] theorem aget_aset_self : aget d (aset d m i v) i = v := by
  by_cases h : v = d <;> simp [aset, h]

theorem aget_aset_ne (h : j ≠ i) : aget d (aset d m i v) j = aget d m j := by
  by_cases hv : v = d
  · simp [aset, hv, aget_adel_ne, h]
  · simp [aset, hv, aget_aput_ne, h]

/-- A read after a write of one key, in canonical form. -/
theorem aget_aset : aget d (aset d m i v) j = if j = i then v else aget d m j := by
  by_cases h : j = i
  · subst h; simp
  · simp [h, aget_aset_ne]

end Reads

/-! ### The canonical form -/

section Canon

variable {α : Type} [DecidableEq α] {d : α}

theorem canon_cons {k : Nat} {v : α} {m : SMap α} :
    canon d ((k, v) :: m) = true ↔ v ≠ d ∧ (∀ p ∈ m.head?, k < p.1) ∧ canon d m = true := by
  cases m with
  | nil => simp [canon]
  | cons q m =>
    obtain ⟨k', v'⟩ := q
    simp [canon, and_assoc]
    tauto

omit [DecidableEq α] in
theorem head_aput {m : SMap α} {i k : Nat} {v : α} (hk : k < i) (h : ∀ p ∈ m.head?, k < p.1) :
    ∀ p ∈ (aput m i v).head?, k < p.1 := by
  cases m with
  | nil => simpa [aput] using hk
  | cons q m =>
    obtain ⟨k', v'⟩ := q
    unfold aput
    split_ifs <;> simp_all

theorem canon_aput {m : SMap α} {i : Nat} {v : α} (hv : v ≠ d) (h : canon d m = true) : canon d (aput m i v) = true := by
  induction m with
  | nil => simp [aput, canon, hv]
  | cons p m ih =>
    obtain ⟨k, w⟩ := p
    have h' := canon_cons.1 h
    unfold aput
    split_ifs with h1 h2
    · exact canon_cons.2 ⟨hv, by simpa using h1, h⟩
    · exact canon_cons.2 ⟨hv, h2 ▸ h'.2.1, h'.2.2⟩
    · exact canon_cons.2 ⟨h'.1, head_aput (by omega) h'.2.1, ih h'.2.2⟩

omit [DecidableEq α] in
theorem adel_eq_filter (m : SMap α) (i : Nat) : adel m i = m.filter fun p => p.1 ≠ i := by
  induction m with
  | nil => rfl
  | cons p m ih =>
    obtain ⟨k, w⟩ := p
    by_cases h : k = i <;> simp [adel, h, ih]

theorem canon_iff_pairwise {m : SMap α} :
    canon d m = true ↔ (m.Pairwise fun p q => p.1 < q.1) ∧ ∀ p ∈ m, p.2 ≠ d := by
  induction m with
  | nil => simp [canon]
  | cons p m ih =>
    obtain ⟨k, v⟩ := p
    rw [canon_cons, ih, List.pairwise_cons]
    constructor
    · rintro ⟨h1, h2, h3, h4⟩
      refine ⟨⟨?_, h3⟩, ?_⟩
      · cases m with
        | nil => simp
        | cons q m =>
          rw [List.pairwise_cons] at h3
          have hq : k < q.1 := h2 q (by simp)
          intro r hr
          rcases List.mem_cons.1 hr with rfl | hr
          · exact hq
          · exact hq.trans (h3.1 r hr)
      · intro r hr
        rcases List.mem_cons.1 hr with rfl | hr
        · exact h1
        · exact h4 r hr
    · rintro ⟨⟨h1, h2⟩, h3⟩
      refine ⟨h3 (k, v) (by simp), ?_, h2, fun r hr => h3 r (by simp [hr])⟩
      intro q hq
      exact h1 q (List.mem_of_mem_head? hq)

theorem canon_adel {m : SMap α} {i : Nat} (h : canon d m = true) : canon d (adel m i) = true := by
  rw [canon_iff_pairwise] at *
  rw [adel_eq_filter]
  exact ⟨h.1.filter _, fun p hp => h.2 p (List.mem_filter.1 hp).1⟩

theorem canon_aset {m : SMap α} {i : Nat} {v : α} (h : canon d m = true) : canon d (aset d m i v) = true := by
  unfold aset
  split_ifs with hv
  · exact canon_adel h
  · exact canon_aput hv h

end Canon

/-! ### Bytes -/

/-- Every write of bytes keeps memory in canonical form. -/
theorem wf_writeBytes (bs : List Byte) : ∀ (m : SMap Byte) (a : Nat), Memory.wf m = true → Memory.wf (writeBytes m a bs) = true := by
  induction bs with
  | nil => intro m a h; exact h
  | cons b bs ih => intro m a h; exact ih _ _ (canon_aset h)

/-- A byte outside the bytes written reads as before. -/
theorem aget_writeBytes_out (bs : List Byte) :
    ∀ (m : SMap Byte) (a x : Nat), (x < a ∨ a + bs.length ≤ x) → aget 0 (writeBytes m a bs) x = aget 0 m x := by
  induction bs with
  | nil => intro m a x _; rfl
  | cons b bs ih =>
    intro m a x h
    simp only [List.length_cons] at h
    rw [writeBytes, ih _ _ _ (by omega), aget_aset_ne]
    omega

/-- The bytes written read back. -/
theorem aget_writeBytes_in (bs : List Byte) :
    ∀ (m : SMap Byte) (a i : Nat), i < bs.length → aget 0 (writeBytes m a bs) (a + i) = bs.getD i 0 := by
  induction bs with
  | nil => intro m a i h; simp at h
  | cons b bs ih =>
    intro m a i h
    cases i with
    | zero => rw [writeBytes, aget_writeBytes_out _ _ _ _ (by omega)]; simp
    | succ i =>
      have : a + (i + 1) = (a + 1) + i := by omega
      rw [writeBytes, this, ih _ _ _ (by simpa using h)]
      simp

theorem readBytes_length (m : SMap Byte) (n : Nat) : ∀ a, (readBytes m a n).length = n := by
  induction n with
  | zero => intro a; rfl
  | succ n ih => intro a; simp [readBytes, ih]

theorem readBytes_getD (m : SMap Byte) (n : Nat) : ∀ a i, i < n → (readBytes m a n).getD i 0 = aget 0 m (a + i) := by
  induction n with
  | zero => intro a i h; omega
  | succ n ih =>
    intro a i h
    cases i with
    | zero => simp [readBytes]
    | succ i =>
      have : a + (i + 1) = (a + 1) + i := by omega
      rw [readBytes, this, ← ih (a + 1) i (by omega)]
      simp

/-- A read of the bytes just written gives them back. -/
theorem readBytes_writeBytes (m : SMap Byte) (a : Nat) (bs : List Byte) : readBytes (writeBytes m a bs) a bs.length = bs := by
  apply List.ext_getElem (by rw [readBytes_length])
  intro i h1 h2
  have := readBytes_getD (writeBytes m a bs) bs.length a i h2
  rw [aget_writeBytes_in _ _ _ _ h2] at this
  simpa [List.getD_eq_getElem?_getD, h1, h2] using this

end Sys2Proof.Machine
end

