-- ==== Sys2Proof/Laws/State.lean ====
section
/-! SUPPORT. What each update of the state leaves and gives: one lemma per field per update. -/

namespace Sys2Proof.Machine

open Sys2Proof

variable (s : State)

/-! ### One home for each part -/

@[simp] theorem State.tile_setTile (n m : Nat) (t : Tile) : (s.setTile n t).tile m = if m = n then t else s.tile m := by
  simp [State.tile, State.setTile, aget_aput]

@[simp] theorem State.svc_setSvc (n m : Nat) (t : Svc) : (s.setSvc n t).svc m = if m = n then t else s.svc m := by
  simp [State.svc, State.setSvc, aget_aput]

@[simp] theorem State.svc_setTile (n m : Nat) (t : Tile) : (s.setTile n t).svc m = s.svc m := rfl
@[simp] theorem State.tile_setSvc (n m : Nat) (t : Svc) : (s.setSvc n t).tile m = s.tile m := rfl

@[simp] theorem State.stack_updStack (n m : Nat) (f : Stack → Stack) :
    (s.updStack n f).stack m = if m = n then f (s.stack n) else s.stack m := by
  simp [State.stack, State.updStack, aget_aput]

@[simp] theorem State.link_updLink (n m : Nat) (f : Link → Link) :
    (s.updLink n f).link m = if m = n then f (s.link n) else s.link m := by
  simp [State.link, State.updLink, aget_aput]

@[simp] theorem State.octet_updOctet (n m : Nat) (f : Octet → Octet) :
    (s.updOctet n f).octet m = if m = n then f (s.octet n) else s.octet m := by
  simp [State.octet, State.updOctet, aget_aput]

@[simp] theorem State.queue_updQueue (n m : Nat) (f : FeQueue → FeQueue) :
    (s.updQueue n f).queue m = if m = n then f (s.queue n) else s.queue m := by
  simp [State.queue, State.updQueue, aget_aput]

@[simp] theorem State.feTile_updFeTile (n m : Nat) (f : FeTile → FeTile) :
    (s.updFeTile n f).feTile m = if m = n then f (s.feTile n) else s.feTile m := by
  simp [State.feTile, State.updFeTile, aget_aput]

@[simp] theorem State.setTile_setTile (n : Nat) (t t' : Tile) : (s.setTile n t).setTile n t' = s.setTile n t' := by
  simp [State.setTile]

@[simp] theorem State.setSvc_setSvc (n : Nat) (t t' : Svc) : (s.setSvc n t).setSvc n t' = s.setSvc n t' := by
  simp [State.setSvc]

@[simp] theorem State.updTile_updTile (n : Nat) (f g : Tile → Tile) : (s.updTile n f).updTile n g = s.updTile n (fun t => g (f t)) := by
  simp [State.updTile]

/-! ### Cores -/

@[simp] theorem State.core_setCore (c : CoreId) (k : Core) : (s.setCore c k).core c = k := by
  cases c <;> simp [State.core, State.setCore]

/-- Writing one core leaves every other core. -/
theorem State.core_setCore_ne {c d : CoreId} (h : d ≠ c) (k : Core) : (s.setCore c k).core d = s.core d := by
  cases c with
  | tile a => cases d with
    | tile b => simp only [State.core, State.setCore, State.tile_setTile]; rw [if_neg (fun e => h (congrArg _ (Fin.ext e)))]
    | svc b => rfl
  | svc a => cases d with
    | tile b => rfl
    | svc b => simp only [State.core, State.setCore, State.svc_setSvc]; rw [if_neg (fun e => h (congrArg _ (Fin.ext e)))]

@[simp] theorem State.setCore_setCore (c : CoreId) (k k' : Core) : (s.setCore c k).setCore c k' = s.setCore c k' := by
  cases c <;> simp [State.setCore]

@[simp] theorem State.core_updCore (c : CoreId) (f : Core → Core) : (s.updCore c f).core c = f (s.core c) := by
  simp [State.updCore]

@[simp] theorem State.updCore_updCore (c : CoreId) (f g : Core → Core) :
    (s.updCore c f).updCore c g = s.updCore c (fun k => g (f k)) := by
  simp [State.updCore]

@[simp] theorem State.core_tick (c : CoreId) : s.tick.core c = s.core c := by cases c <;> rfl
@[simp] theorem State.tile_tick (n : Nat) : s.tick.tile n = s.tile n := rfl
@[simp] theorem State.svc_tick (n : Nat) : s.tick.svc n = s.svc n := rfl
theorem State.tick_setCore (c : CoreId) (k : Core) : (s.setCore c k).tick = s.tick.setCore c k := by cases c <;> rfl
theorem State.tick_updCore (c : CoreId) (f : Core → Core) : (s.updCore c f).tick = s.tick.updCore c f := by cases c <;> rfl

/-- A write of s0 is discarded (R65). -/
@[simp] theorem Core.setReg_zero (k : Core) (v : Word) : k.setReg 0#5 v = k := by simp [Core.setReg]

/-- s0 reads as 0 (R65). -/
@[simp] theorem Core.reg_zero (k : Core) : k.reg 0#5 = 0 := by simp [Core.reg]

/-- A register reads as it was written, and a write of one leaves the others (R65). -/
theorem Core.reg_setReg (k : Core) (r q : Reg) (v : Word) :
    (k.setReg r v).reg q = if q = r then (if r = 0 then 0 else v) else k.reg q := by
  by_cases hr : r = 0
  · subst hr
    by_cases hq : q = 0
    · subst hq; rfl
    · rw [if_pos rfl]; unfold Core.setReg; rw [if_pos rfl, if_neg hq]
  · by_cases hq : q = 0
    · subst hq; rw [if_neg (Ne.symm hr)]; rfl
    · have hn : q.toNat = r.toNat ↔ q = r := ⟨fun e => BitVec.eq_of_toNat_eq e, fun e => e ▸ rfl⟩
      simp only [Core.reg, Core.setReg, if_neg hr, if_neg hq, aget_aset, hn]

@[simp] theorem Core.setReg_pc (k : Core) (r : Reg) (v : Word) : (k.setReg r v).pc = k.pc := by
  unfold Core.setReg; split <;> rfl
@[simp] theorem Core.setReg_fl (k : Core) (r : Reg) (v : Word) : (k.setReg r v).fl = k.fl := by
  unfold Core.setReg; split <;> rfl
@[simp] theorem Core.setReg_ls (k : Core) (r : Reg) (v : Word) : (k.setReg r v).ls = k.ls := by
  unfold Core.setReg; split <;> rfl
@[simp] theorem Core.setReg_le (k : Core) (r : Reg) (v : Word) : (k.setReg r v).le = k.le := by
  unfold Core.setReg; split <;> rfl
@[simp] theorem Core.setReg_lc (k : Core) (r : Reg) (v : Word) : (k.setReg r v).lc = k.lc := by
  unfold Core.setReg; split <;> rfl
@[simp] theorem Core.setReg_status (k : Core) (r : Reg) (v : Word) : (k.setReg r v).status = k.status := by
  unfold Core.setReg; split <;> rfl
@[simp] theorem Core.setReg_epc (k : Core) (r : Reg) (v : Word) : (k.setReg r v).epc = k.epc := by
  unfold Core.setReg; split <;> rfl
@[simp] theorem Core.setReg_ecause (k : Core) (r : Reg) (v : Word) : (k.setReg r v).ecause = k.ecause := by
  unfold Core.setReg; split <;> rfl
@[simp] theorem Core.setReg_eaddr (k : Core) (r : Reg) (v : Word) : (k.setReg r v).eaddr = k.eaddr := by
  unfold Core.setReg; split <;> rfl
@[simp] theorem Core.setReg_evec (k : Core) (r : Reg) (v : Word) : (k.setReg r v).evec = k.evec := by
  unfold Core.setReg; split <;> rfl
@[simp] theorem Core.setReg_ksp (k : Core) (r : Reg) (v : Word) : (k.setReg r v).ksp = k.ksp := by
  unfold Core.setReg; split <;> rfl
@[simp] theorem Core.setReg_bsvec (k : Core) (r : Reg) (v : Word) : (k.setReg r v).bsvec = k.bsvec := by
  unfold Core.setReg; split <;> rfl
@[simp] theorem Core.setReg_ipProf (k : Core) (r : Reg) (v : Word) : (k.setReg r v).ipProf = k.ipProf := by
  unfold Core.setReg; split <;> rfl
@[simp] theorem Core.setReg_ipFe (k : Core) (r : Reg) (v : Word) : (k.setReg r v).ipFe = k.ipFe := by
  unfold Core.setReg; split <;> rfl
@[simp] theorem Core.setReg_ipLst (k : Core) (r : Reg) (v : Word) : (k.setReg r v).ipLst = k.ipLst := by
  unfold Core.setReg; split <;> rfl
@[simp] theorem Core.setReg_ipWdog (k : Core) (r : Reg) (v : Word) : (k.setReg r v).ipWdog = k.ipWdog := by
  unfold Core.setReg; split <;> rfl
@[simp] theorem Core.setReg_ien (k : Core) (r : Reg) (v : Word) : (k.setReg r v).ien = k.ien := by
  unfold Core.setReg; split <;> rfl
@[simp] theorem Core.setReg_lse (k : Core) (r : Reg) (v : Word) : (k.setReg r v).lse = k.lse := by
  unfold Core.setReg; split <;> rfl
@[simp] theorem Core.setReg_lseKind (k : Core) (r : Reg) (v : Word) : (k.setReg r v).lseKind = k.lseKind := by
  unfold Core.setReg; split <;> rfl
@[simp] theorem Core.setReg_lseMore (k : Core) (r : Reg) (v : Word) : (k.setReg r v).lseMore = k.lseMore := by
  unfold Core.setReg; split <;> rfl
@[simp] theorem Core.setReg_pwinLo (k : Core) (r : Reg) (v : Word) : (k.setReg r v).pwinLo = k.pwinLo := by
  unfold Core.setReg; split <;> rfl
@[simp] theorem Core.setReg_pwinHi (k : Core) (r : Reg) (v : Word) : (k.setReg r v).pwinHi = k.pwinHi := by
  unfold Core.setReg; split <;> rfl
@[simp] theorem Core.setReg_t0 (k : Core) (r : Reg) (v : Word) : (k.setReg r v).t0 = k.t0 := by
  unfold Core.setReg; split <;> rfl
@[simp] theorem Core.setReg_t1en (k : Core) (r : Reg) (v : Word) : (k.setReg r v).t1en = k.t1en := by
  unfold Core.setReg; split <;> rfl
@[simp] theorem Core.setReg_t1period (k : Core) (r : Reg) (v : Word) : (k.setReg r v).t1period = k.t1period := by
  unfold Core.setReg; split <;> rfl
@[simp] theorem Core.setReg_t1due (k : Core) (r : Reg) (v : Word) : (k.setReg r v).t1due = k.t1due := by
  unfold Core.setReg; split <;> rfl
@[simp] theorem Core.setReg_profEn (k : Core) (r : Reg) (v : Word) : (k.setReg r v).profEn = k.profEn := by
  unfold Core.setReg; split <;> rfl
@[simp] theorem Core.setReg_profPeriod (k : Core) (r : Reg) (v : Word) : (k.setReg r v).profPeriod = k.profPeriod := by
  unfold Core.setReg; split <;> rfl
@[simp] theorem Core.setReg_profMissed (k : Core) (r : Reg) (v : Word) : (k.setReg r v).profMissed = k.profMissed := by
  unfold Core.setReg; split <;> rfl
@[simp] theorem Core.setReg_run (k : Core) (r : Reg) (v : Word) : (k.setReg r v).run = k.run := by
  unfold Core.setReg; split <;> rfl
@[simp] theorem Core.setReg_waitLoad (k : Core) (r : Reg) (v : Word) : (k.setReg r v).waitLoad = k.waitLoad := by
  unfold Core.setReg; split <;> rfl
@[simp] theorem Core.setReg_strData (k : Core) (r : Reg) (v : Word) : (k.setReg r v).strData = k.strData := by
  unfold Core.setReg; split <;> rfl
@[simp] theorem Core.setReg_steps (k : Core) (r : Reg) (v : Word) : (k.setReg r v).steps = k.steps := by
  unfold Core.setReg; split <;> rfl
@[simp] theorem Core.setReg_stall (k : Core) (r : Reg) (v : Word) : (k.setReg r v).stall = k.stall := by
  unfold Core.setReg; split <;> rfl
@[simp] theorem Core.setReg_bstk (k : Core) (r : Reg) (v : Word) : (k.setReg r v).bstk = k.bstk := by
  unfold Core.setReg; split <;> rfl
@[simp] theorem Core.setReg_hash (k : Core) (r : Reg) (v : Word) : (k.setReg r v).hash = k.hash := by
  unfold Core.setReg; split <;> rfl
@[simp] theorem Core.setReg_sbuf (k : Core) (r : Reg) (v : Word) : (k.setReg r v).sbuf = k.sbuf := by
  unfold Core.setReg; split <;> rfl
@[simp] theorem Core.setReg_remote (k : Core) (r : Reg) (v : Word) : (k.setReg r v).remote = k.remote := by
  unfold Core.setReg; split <;> rfl

/-! ### Fields of the state -/

@[simp] theorem State.setTile_pending (n : Nat) (t : Tile) : (s.setTile n t).pending = s.pending := rfl
@[simp] theorem State.setTile_free (n : Nat) (t : Tile) : (s.setTile n t).free = s.free := rfl
@[simp] theorem State.setTile_mono (n : Nat) (t : Tile) : (s.setTile n t).mono = s.mono := rfl
@[simp] theorem State.setTile_time (n : Nat) (t : Tile) : (s.setTile n t).time = s.time := rfl
@[simp] theorem State.setTile_power (n : Nat) (t : Tile) : (s.setTile n t).power = s.power := rfl
@[simp] theorem State.setTile_gid (n : Nat) (t : Tile) : (s.setTile n t).gid = s.gid := rfl
@[simp] theorem State.setTile_degraded (n : Nat) (t : Tile) : (s.setTile n t).degraded = s.degraded := rfl
@[simp] theorem State.setTile_memMib (n : Nat) (t : Tile) : (s.setTile n t).memMib = s.memMib := rfl
@[simp] theorem State.setTile_pacesum (n : Nat) (t : Tile) : (s.setTile n t).pacesum = s.pacesum := rfl
@[simp] theorem State.setTile_map (n : Nat) (t : Tile) : (s.setTile n t).map = s.map := rfl
@[simp] theorem State.setTile_mem (n : Nat) (t : Tile) : (s.setTile n t).mem = s.mem := rfl
@[simp] theorem State.setTile_errs (n : Nat) (t : Tile) : (s.setTile n t).errs = s.errs := rfl
@[simp] theorem State.setTile_memK1 (n : Nat) (t : Tile) : (s.setTile n t).memK1 = s.memK1 := rfl
@[simp] theorem State.setTile_memK2 (n : Nat) (t : Tile) : (s.setTile n t).memK2 = s.memK2 := rfl
@[simp] theorem State.setTile_svcs (n : Nat) (t : Tile) : (s.setTile n t).svcs = s.svcs := rfl
@[simp] theorem State.setTile_memStacks (n : Nat) (t : Tile) : (s.setTile n t).memStacks = s.memStacks := rfl
@[simp] theorem State.setTile_gal (n : Nat) (t : Tile) : (s.setTile n t).gal = s.gal := rfl
@[simp] theorem State.setTile_links (n : Nat) (t : Tile) : (s.setTile n t).links = s.links := rfl
@[simp] theorem State.setTile_octets (n : Nat) (t : Tile) : (s.setTile n t).octets = s.octets := rfl
@[simp] theorem State.setTile_fe (n : Nat) (t : Tile) : (s.setTile n t).fe = s.fe := rfl
@[simp] theorem State.setTile_host (n : Nat) (t : Tile) : (s.setTile n t).host = s.host := rfl
@[simp] theorem State.setTile_start (n : Nat) (t : Tile) : (s.setTile n t).start = s.start := rfl
@[simp] theorem State.setTile_sec (n : Nat) (t : Tile) : (s.setTile n t).sec = s.sec := rfl
@[simp] theorem State.setTile_pins (n : Nat) (t : Tile) : (s.setTile n t).pins = s.pins := rfl
@[simp] theorem State.setTile_lamp (n : Nat) (t : Tile) : (s.setTile n t).lamp = s.lamp := rfl
@[simp] theorem State.setTile_rep (n : Nat) (t : Tile) : (s.setTile n t).rep = s.rep := rfl
@[simp] theorem State.setTile_tu (n : Nat) (t : Tile) : (s.setTile n t).tu = s.tu := rfl
@[simp] theorem State.updTile_pending (n : Nat) (f : Tile → Tile) : (s.updTile n f).pending = s.pending := rfl
@[simp] theorem State.updTile_free (n : Nat) (f : Tile → Tile) : (s.updTile n f).free = s.free := rfl
@[simp] theorem State.updTile_mono (n : Nat) (f : Tile → Tile) : (s.updTile n f).mono = s.mono := rfl
@[simp] theorem State.updTile_time (n : Nat) (f : Tile → Tile) : (s.updTile n f).time = s.time := rfl
@[simp] theorem State.updTile_power (n : Nat) (f : Tile → Tile) : (s.updTile n f).power = s.power := rfl
@[simp] theorem State.updTile_gid (n : Nat) (f : Tile → Tile) : (s.updTile n f).gid = s.gid := rfl
@[simp] theorem State.updTile_degraded (n : Nat) (f : Tile → Tile) : (s.updTile n f).degraded = s.degraded := rfl
@[simp] theorem State.updTile_memMib (n : Nat) (f : Tile → Tile) : (s.updTile n f).memMib = s.memMib := rfl
@[simp] theorem State.updTile_pacesum (n : Nat) (f : Tile → Tile) : (s.updTile n f).pacesum = s.pacesum := rfl
@[simp] theorem State.updTile_map (n : Nat) (f : Tile → Tile) : (s.updTile n f).map = s.map := rfl
@[simp] theorem State.updTile_mem (n : Nat) (f : Tile → Tile) : (s.updTile n f).mem = s.mem := rfl
@[simp] theorem State.updTile_errs (n : Nat) (f : Tile → Tile) : (s.updTile n f).errs = s.errs := rfl
@[simp] theorem State.updTile_memK1 (n : Nat) (f : Tile → Tile) : (s.updTile n f).memK1 = s.memK1 := rfl
@[simp] theorem State.updTile_memK2 (n : Nat) (f : Tile → Tile) : (s.updTile n f).memK2 = s.memK2 := rfl
@[simp] theorem State.updTile_svcs (n : Nat) (f : Tile → Tile) : (s.updTile n f).svcs = s.svcs := rfl
@[simp] theorem State.updTile_memStacks (n : Nat) (f : Tile → Tile) : (s.updTile n f).memStacks = s.memStacks := rfl
@[simp] theorem State.updTile_gal (n : Nat) (f : Tile → Tile) : (s.updTile n f).gal = s.gal := rfl
@[simp] theorem State.updTile_links (n : Nat) (f : Tile → Tile) : (s.updTile n f).links = s.links := rfl
@[simp] theorem State.updTile_octets (n : Nat) (f : Tile → Tile) : (s.updTile n f).octets = s.octets := rfl
@[simp] theorem State.updTile_fe (n : Nat) (f : Tile → Tile) : (s.updTile n f).fe = s.fe := rfl
@[simp] theorem State.updTile_host (n : Nat) (f : Tile → Tile) : (s.updTile n f).host = s.host := rfl
@[simp] theorem State.updTile_start (n : Nat) (f : Tile → Tile) : (s.updTile n f).start = s.start := rfl
@[simp] theorem State.updTile_sec (n : Nat) (f : Tile → Tile) : (s.updTile n f).sec = s.sec := rfl
@[simp] theorem State.updTile_pins (n : Nat) (f : Tile → Tile) : (s.updTile n f).pins = s.pins := rfl
@[simp] theorem State.updTile_lamp (n : Nat) (f : Tile → Tile) : (s.updTile n f).lamp = s.lamp := rfl
@[simp] theorem State.updTile_rep (n : Nat) (f : Tile → Tile) : (s.updTile n f).rep = s.rep := rfl
@[simp] theorem State.updTile_tu (n : Nat) (f : Tile → Tile) : (s.updTile n f).tu = s.tu := rfl
@[simp] theorem State.setSvc_pending (n : Nat) (t : Svc) : (s.setSvc n t).pending = s.pending := rfl
@[simp] theorem State.setSvc_free (n : Nat) (t : Svc) : (s.setSvc n t).free = s.free := rfl
@[simp] theorem State.setSvc_mono (n : Nat) (t : Svc) : (s.setSvc n t).mono = s.mono := rfl
@[simp] theorem State.setSvc_time (n : Nat) (t : Svc) : (s.setSvc n t).time = s.time := rfl
@[simp] theorem State.setSvc_power (n : Nat) (t : Svc) : (s.setSvc n t).power = s.power := rfl
@[simp] theorem State.setSvc_gid (n : Nat) (t : Svc) : (s.setSvc n t).gid = s.gid := rfl
@[simp] theorem State.setSvc_degraded (n : Nat) (t : Svc) : (s.setSvc n t).degraded = s.degraded := rfl
@[simp] theorem State.setSvc_memMib (n : Nat) (t : Svc) : (s.setSvc n t).memMib = s.memMib := rfl
@[simp] theorem State.setSvc_pacesum (n : Nat) (t : Svc) : (s.setSvc n t).pacesum = s.pacesum := rfl
@[simp] theorem State.setSvc_map (n : Nat) (t : Svc) : (s.setSvc n t).map = s.map := rfl
@[simp] theorem State.setSvc_mem (n : Nat) (t : Svc) : (s.setSvc n t).mem = s.mem := rfl
@[simp] theorem State.setSvc_errs (n : Nat) (t : Svc) : (s.setSvc n t).errs = s.errs := rfl
@[simp] theorem State.setSvc_memK1 (n : Nat) (t : Svc) : (s.setSvc n t).memK1 = s.memK1 := rfl
@[simp] theorem State.setSvc_memK2 (n : Nat) (t : Svc) : (s.setSvc n t).memK2 = s.memK2 := rfl
@[simp] theorem State.setSvc_tiles (n : Nat) (t : Svc) : (s.setSvc n t).tiles = s.tiles := rfl
@[simp] theorem State.setSvc_memStacks (n : Nat) (t : Svc) : (s.setSvc n t).memStacks = s.memStacks := rfl
@[simp] theorem State.setSvc_gal (n : Nat) (t : Svc) : (s.setSvc n t).gal = s.gal := rfl
@[simp] theorem State.setSvc_links (n : Nat) (t : Svc) : (s.setSvc n t).links = s.links := rfl
@[simp] theorem State.setSvc_octets (n : Nat) (t : Svc) : (s.setSvc n t).octets = s.octets := rfl
@[simp] theorem State.setSvc_fe (n : Nat) (t : Svc) : (s.setSvc n t).fe = s.fe := rfl
@[simp] theorem State.setSvc_host (n : Nat) (t : Svc) : (s.setSvc n t).host = s.host := rfl
@[simp] theorem State.setSvc_start (n : Nat) (t : Svc) : (s.setSvc n t).start = s.start := rfl
@[simp] theorem State.setSvc_sec (n : Nat) (t : Svc) : (s.setSvc n t).sec = s.sec := rfl
@[simp] theorem State.setSvc_pins (n : Nat) (t : Svc) : (s.setSvc n t).pins = s.pins := rfl
@[simp] theorem State.setSvc_lamp (n : Nat) (t : Svc) : (s.setSvc n t).lamp = s.lamp := rfl
@[simp] theorem State.setSvc_rep (n : Nat) (t : Svc) : (s.setSvc n t).rep = s.rep := rfl
@[simp] theorem State.setSvc_tu (n : Nat) (t : Svc) : (s.setSvc n t).tu = s.tu := rfl
@[simp] theorem State.updStack_pending (n : Nat) (f : Stack → Stack) : (s.updStack n f).pending = s.pending := rfl
@[simp] theorem State.updStack_free (n : Nat) (f : Stack → Stack) : (s.updStack n f).free = s.free := rfl
@[simp] theorem State.updStack_mono (n : Nat) (f : Stack → Stack) : (s.updStack n f).mono = s.mono := rfl
@[simp] theorem State.updStack_time (n : Nat) (f : Stack → Stack) : (s.updStack n f).time = s.time := rfl
@[simp] theorem State.updStack_power (n : Nat) (f : Stack → Stack) : (s.updStack n f).power = s.power := rfl
@[simp] theorem State.updStack_gid (n : Nat) (f : Stack → Stack) : (s.updStack n f).gid = s.gid := rfl
@[simp] theorem State.updStack_degraded (n : Nat) (f : Stack → Stack) : (s.updStack n f).degraded = s.degraded := rfl
@[simp] theorem State.updStack_memMib (n : Nat) (f : Stack → Stack) : (s.updStack n f).memMib = s.memMib := rfl
@[simp] theorem State.updStack_pacesum (n : Nat) (f : Stack → Stack) : (s.updStack n f).pacesum = s.pacesum := rfl
@[simp] theorem State.updStack_map (n : Nat) (f : Stack → Stack) : (s.updStack n f).map = s.map := rfl
@[simp] theorem State.updStack_mem (n : Nat) (f : Stack → Stack) : (s.updStack n f).mem = s.mem := rfl
@[simp] theorem State.updStack_errs (n : Nat) (f : Stack → Stack) : (s.updStack n f).errs = s.errs := rfl
@[simp] theorem State.updStack_memK1 (n : Nat) (f : Stack → Stack) : (s.updStack n f).memK1 = s.memK1 := rfl
@[simp] theorem State.updStack_memK2 (n : Nat) (f : Stack → Stack) : (s.updStack n f).memK2 = s.memK2 := rfl
@[simp] theorem State.updStack_tiles (n : Nat) (f : Stack → Stack) : (s.updStack n f).tiles = s.tiles := rfl
@[simp] theorem State.updStack_svcs (n : Nat) (f : Stack → Stack) : (s.updStack n f).svcs = s.svcs := rfl
@[simp] theorem State.updStack_gal (n : Nat) (f : Stack → Stack) : (s.updStack n f).gal = s.gal := rfl
@[simp] theorem State.updStack_links (n : Nat) (f : Stack → Stack) : (s.updStack n f).links = s.links := rfl
@[simp] theorem State.updStack_octets (n : Nat) (f : Stack → Stack) : (s.updStack n f).octets = s.octets := rfl
@[simp] theorem State.updStack_fe (n : Nat) (f : Stack → Stack) : (s.updStack n f).fe = s.fe := rfl
@[simp] theorem State.updStack_host (n : Nat) (f : Stack → Stack) : (s.updStack n f).host = s.host := rfl
@[simp] theorem State.updStack_start (n : Nat) (f : Stack → Stack) : (s.updStack n f).start = s.start := rfl
@[simp] theorem State.updStack_sec (n : Nat) (f : Stack → Stack) : (s.updStack n f).sec = s.sec := rfl
@[simp] theorem State.updStack_pins (n : Nat) (f : Stack → Stack) : (s.updStack n f).pins = s.pins := rfl
@[simp] theorem State.updStack_lamp (n : Nat) (f : Stack → Stack) : (s.updStack n f).lamp = s.lamp := rfl
@[simp] theorem State.updStack_rep (n : Nat) (f : Stack → Stack) : (s.updStack n f).rep = s.rep := rfl
@[simp] theorem State.updStack_tu (n : Nat) (f : Stack → Stack) : (s.updStack n f).tu = s.tu := rfl
@[simp] theorem State.updLink_pending (n : Nat) (f : Link → Link) : (s.updLink n f).pending = s.pending := rfl
@[simp] theorem State.updLink_free (n : Nat) (f : Link → Link) : (s.updLink n f).free = s.free := rfl
@[simp] theorem State.updLink_mono (n : Nat) (f : Link → Link) : (s.updLink n f).mono = s.mono := rfl
@[simp] theorem State.updLink_time (n : Nat) (f : Link → Link) : (s.updLink n f).time = s.time := rfl
@[simp] theorem State.updLink_power (n : Nat) (f : Link → Link) : (s.updLink n f).power = s.power := rfl
@[simp] theorem State.updLink_gid (n : Nat) (f : Link → Link) : (s.updLink n f).gid = s.gid := rfl
@[simp] theorem State.updLink_degraded (n : Nat) (f : Link → Link) : (s.updLink n f).degraded = s.degraded := rfl
@[simp] theorem State.updLink_memMib (n : Nat) (f : Link → Link) : (s.updLink n f).memMib = s.memMib := rfl
@[simp] theorem State.updLink_pacesum (n : Nat) (f : Link → Link) : (s.updLink n f).pacesum = s.pacesum := rfl
@[simp] theorem State.updLink_map (n : Nat) (f : Link → Link) : (s.updLink n f).map = s.map := rfl
@[simp] theorem State.updLink_mem (n : Nat) (f : Link → Link) : (s.updLink n f).mem = s.mem := rfl
@[simp] theorem State.updLink_errs (n : Nat) (f : Link → Link) : (s.updLink n f).errs = s.errs := rfl
@[simp] theorem State.updLink_memK1 (n : Nat) (f : Link → Link) : (s.updLink n f).memK1 = s.memK1 := rfl
@[simp] theorem State.updLink_memK2 (n : Nat) (f : Link → Link) : (s.updLink n f).memK2 = s.memK2 := rfl
@[simp] theorem State.updLink_tiles (n : Nat) (f : Link → Link) : (s.updLink n f).tiles = s.tiles := rfl
@[simp] theorem State.updLink_svcs (n : Nat) (f : Link → Link) : (s.updLink n f).svcs = s.svcs := rfl
@[simp] theorem State.updLink_memStacks (n : Nat) (f : Link → Link) : (s.updLink n f).memStacks = s.memStacks := rfl
@[simp] theorem State.updLink_gal (n : Nat) (f : Link → Link) : (s.updLink n f).gal = s.gal := rfl
@[simp] theorem State.updLink_octets (n : Nat) (f : Link → Link) : (s.updLink n f).octets = s.octets := rfl
@[simp] theorem State.updLink_fe (n : Nat) (f : Link → Link) : (s.updLink n f).fe = s.fe := rfl
@[simp] theorem State.updLink_host (n : Nat) (f : Link → Link) : (s.updLink n f).host = s.host := rfl
@[simp] theorem State.updLink_start (n : Nat) (f : Link → Link) : (s.updLink n f).start = s.start := rfl
@[simp] theorem State.updLink_sec (n : Nat) (f : Link → Link) : (s.updLink n f).sec = s.sec := rfl
@[simp] theorem State.updLink_pins (n : Nat) (f : Link → Link) : (s.updLink n f).pins = s.pins := rfl
@[simp] theorem State.updLink_lamp (n : Nat) (f : Link → Link) : (s.updLink n f).lamp = s.lamp := rfl
@[simp] theorem State.updLink_rep (n : Nat) (f : Link → Link) : (s.updLink n f).rep = s.rep := rfl
@[simp] theorem State.updLink_tu (n : Nat) (f : Link → Link) : (s.updLink n f).tu = s.tu := rfl
@[simp] theorem State.updOctet_pending (n : Nat) (f : Octet → Octet) : (s.updOctet n f).pending = s.pending := rfl
@[simp] theorem State.updOctet_free (n : Nat) (f : Octet → Octet) : (s.updOctet n f).free = s.free := rfl
@[simp] theorem State.updOctet_mono (n : Nat) (f : Octet → Octet) : (s.updOctet n f).mono = s.mono := rfl
@[simp] theorem State.updOctet_time (n : Nat) (f : Octet → Octet) : (s.updOctet n f).time = s.time := rfl
@[simp] theorem State.updOctet_power (n : Nat) (f : Octet → Octet) : (s.updOctet n f).power = s.power := rfl
@[simp] theorem State.updOctet_gid (n : Nat) (f : Octet → Octet) : (s.updOctet n f).gid = s.gid := rfl
@[simp] theorem State.updOctet_degraded (n : Nat) (f : Octet → Octet) : (s.updOctet n f).degraded = s.degraded := rfl
@[simp] theorem State.updOctet_memMib (n : Nat) (f : Octet → Octet) : (s.updOctet n f).memMib = s.memMib := rfl
@[simp] theorem State.updOctet_pacesum (n : Nat) (f : Octet → Octet) : (s.updOctet n f).pacesum = s.pacesum := rfl
@[simp] theorem State.updOctet_map (n : Nat) (f : Octet → Octet) : (s.updOctet n f).map = s.map := rfl
@[simp] theorem State.updOctet_mem (n : Nat) (f : Octet → Octet) : (s.updOctet n f).mem = s.mem := rfl
@[simp] theorem State.updOctet_errs (n : Nat) (f : Octet → Octet) : (s.updOctet n f).errs = s.errs := rfl
@[simp] theorem State.updOctet_memK1 (n : Nat) (f : Octet → Octet) : (s.updOctet n f).memK1 = s.memK1 := rfl
@[simp] theorem State.updOctet_memK2 (n : Nat) (f : Octet → Octet) : (s.updOctet n f).memK2 = s.memK2 := rfl
@[simp] theorem State.updOctet_tiles (n : Nat) (f : Octet → Octet) : (s.updOctet n f).tiles = s.tiles := rfl
@[simp] theorem State.updOctet_svcs (n : Nat) (f : Octet → Octet) : (s.updOctet n f).svcs = s.svcs := rfl
@[simp] theorem State.updOctet_memStacks (n : Nat) (f : Octet → Octet) : (s.updOctet n f).memStacks = s.memStacks := rfl
@[simp] theorem State.updOctet_gal (n : Nat) (f : Octet → Octet) : (s.updOctet n f).gal = s.gal := rfl
@[simp] theorem State.updOctet_links (n : Nat) (f : Octet → Octet) : (s.updOctet n f).links = s.links := rfl
@[simp] theorem State.updOctet_fe (n : Nat) (f : Octet → Octet) : (s.updOctet n f).fe = s.fe := rfl
@[simp] theorem State.updOctet_host (n : Nat) (f : Octet → Octet) : (s.updOctet n f).host = s.host := rfl
@[simp] theorem State.updOctet_start (n : Nat) (f : Octet → Octet) : (s.updOctet n f).start = s.start := rfl
@[simp] theorem State.updOctet_sec (n : Nat) (f : Octet → Octet) : (s.updOctet n f).sec = s.sec := rfl
@[simp] theorem State.updOctet_pins (n : Nat) (f : Octet → Octet) : (s.updOctet n f).pins = s.pins := rfl
@[simp] theorem State.updOctet_lamp (n : Nat) (f : Octet → Octet) : (s.updOctet n f).lamp = s.lamp := rfl
@[simp] theorem State.updOctet_rep (n : Nat) (f : Octet → Octet) : (s.updOctet n f).rep = s.rep := rfl
@[simp] theorem State.updOctet_tu (n : Nat) (f : Octet → Octet) : (s.updOctet n f).tu = s.tu := rfl
@[simp] theorem State.updQueue_pending (n : Nat) (f : FeQueue → FeQueue) : (s.updQueue n f).pending = s.pending := rfl
@[simp] theorem State.updQueue_free (n : Nat) (f : FeQueue → FeQueue) : (s.updQueue n f).free = s.free := rfl
@[simp] theorem State.updQueue_mono (n : Nat) (f : FeQueue → FeQueue) : (s.updQueue n f).mono = s.mono := rfl
@[simp] theorem State.updQueue_time (n : Nat) (f : FeQueue → FeQueue) : (s.updQueue n f).time = s.time := rfl
@[simp] theorem State.updQueue_power (n : Nat) (f : FeQueue → FeQueue) : (s.updQueue n f).power = s.power := rfl
@[simp] theorem State.updQueue_gid (n : Nat) (f : FeQueue → FeQueue) : (s.updQueue n f).gid = s.gid := rfl
@[simp] theorem State.updQueue_degraded (n : Nat) (f : FeQueue → FeQueue) : (s.updQueue n f).degraded = s.degraded := rfl
@[simp] theorem State.updQueue_memMib (n : Nat) (f : FeQueue → FeQueue) : (s.updQueue n f).memMib = s.memMib := rfl
@[simp] theorem State.updQueue_pacesum (n : Nat) (f : FeQueue → FeQueue) : (s.updQueue n f).pacesum = s.pacesum := rfl
@[simp] theorem State.updQueue_map (n : Nat) (f : FeQueue → FeQueue) : (s.updQueue n f).map = s.map := rfl
@[simp] theorem State.updQueue_mem (n : Nat) (f : FeQueue → FeQueue) : (s.updQueue n f).mem = s.mem := rfl
@[simp] theorem State.updQueue_errs (n : Nat) (f : FeQueue → FeQueue) : (s.updQueue n f).errs = s.errs := rfl
@[simp] theorem State.updQueue_memK1 (n : Nat) (f : FeQueue → FeQueue) : (s.updQueue n f).memK1 = s.memK1 := rfl
@[simp] theorem State.updQueue_memK2 (n : Nat) (f : FeQueue → FeQueue) : (s.updQueue n f).memK2 = s.memK2 := rfl
@[simp] theorem State.updQueue_tiles (n : Nat) (f : FeQueue → FeQueue) : (s.updQueue n f).tiles = s.tiles := rfl
@[simp] theorem State.updQueue_svcs (n : Nat) (f : FeQueue → FeQueue) : (s.updQueue n f).svcs = s.svcs := rfl
@[simp] theorem State.updQueue_memStacks (n : Nat) (f : FeQueue → FeQueue) : (s.updQueue n f).memStacks = s.memStacks := rfl
@[simp] theorem State.updQueue_gal (n : Nat) (f : FeQueue → FeQueue) : (s.updQueue n f).gal = s.gal := rfl
@[simp] theorem State.updQueue_links (n : Nat) (f : FeQueue → FeQueue) : (s.updQueue n f).links = s.links := rfl
@[simp] theorem State.updQueue_octets (n : Nat) (f : FeQueue → FeQueue) : (s.updQueue n f).octets = s.octets := rfl
@[simp] theorem State.updQueue_host (n : Nat) (f : FeQueue → FeQueue) : (s.updQueue n f).host = s.host := rfl
@[simp] theorem State.updQueue_start (n : Nat) (f : FeQueue → FeQueue) : (s.updQueue n f).start = s.start := rfl
@[simp] theorem State.updQueue_sec (n : Nat) (f : FeQueue → FeQueue) : (s.updQueue n f).sec = s.sec := rfl
@[simp] theorem State.updQueue_pins (n : Nat) (f : FeQueue → FeQueue) : (s.updQueue n f).pins = s.pins := rfl
@[simp] theorem State.updQueue_lamp (n : Nat) (f : FeQueue → FeQueue) : (s.updQueue n f).lamp = s.lamp := rfl
@[simp] theorem State.updQueue_rep (n : Nat) (f : FeQueue → FeQueue) : (s.updQueue n f).rep = s.rep := rfl
@[simp] theorem State.updQueue_tu (n : Nat) (f : FeQueue → FeQueue) : (s.updQueue n f).tu = s.tu := rfl
@[simp] theorem State.updFeTile_pending (n : Nat) (f : FeTile → FeTile) : (s.updFeTile n f).pending = s.pending := rfl
@[simp] theorem State.updFeTile_free (n : Nat) (f : FeTile → FeTile) : (s.updFeTile n f).free = s.free := rfl
@[simp] theorem State.updFeTile_mono (n : Nat) (f : FeTile → FeTile) : (s.updFeTile n f).mono = s.mono := rfl
@[simp] theorem State.updFeTile_time (n : Nat) (f : FeTile → FeTile) : (s.updFeTile n f).time = s.time := rfl
@[simp] theorem State.updFeTile_power (n : Nat) (f : FeTile → FeTile) : (s.updFeTile n f).power = s.power := rfl
@[simp] theorem State.updFeTile_gid (n : Nat) (f : FeTile → FeTile) : (s.updFeTile n f).gid = s.gid := rfl
@[simp] theorem State.updFeTile_degraded (n : Nat) (f : FeTile → FeTile) : (s.updFeTile n f).degraded = s.degraded := rfl
@[simp] theorem State.updFeTile_memMib (n : Nat) (f : FeTile → FeTile) : (s.updFeTile n f).memMib = s.memMib := rfl
@[simp] theorem State.updFeTile_pacesum (n : Nat) (f : FeTile → FeTile) : (s.updFeTile n f).pacesum = s.pacesum := rfl
@[simp] theorem State.updFeTile_map (n : Nat) (f : FeTile → FeTile) : (s.updFeTile n f).map = s.map := rfl
@[simp] theorem State.updFeTile_mem (n : Nat) (f : FeTile → FeTile) : (s.updFeTile n f).mem = s.mem := rfl
@[simp] theorem State.updFeTile_errs (n : Nat) (f : FeTile → FeTile) : (s.updFeTile n f).errs = s.errs := rfl
@[simp] theorem State.updFeTile_memK1 (n : Nat) (f : FeTile → FeTile) : (s.updFeTile n f).memK1 = s.memK1 := rfl
@[simp] theorem State.updFeTile_memK2 (n : Nat) (f : FeTile → FeTile) : (s.updFeTile n f).memK2 = s.memK2 := rfl
@[simp] theorem State.updFeTile_tiles (n : Nat) (f : FeTile → FeTile) : (s.updFeTile n f).tiles = s.tiles := rfl
@[simp] theorem State.updFeTile_svcs (n : Nat) (f : FeTile → FeTile) : (s.updFeTile n f).svcs = s.svcs := rfl
@[simp] theorem State.updFeTile_memStacks (n : Nat) (f : FeTile → FeTile) : (s.updFeTile n f).memStacks = s.memStacks := rfl
@[simp] theorem State.updFeTile_gal (n : Nat) (f : FeTile → FeTile) : (s.updFeTile n f).gal = s.gal := rfl
@[simp] theorem State.updFeTile_links (n : Nat) (f : FeTile → FeTile) : (s.updFeTile n f).links = s.links := rfl
@[simp] theorem State.updFeTile_octets (n : Nat) (f : FeTile → FeTile) : (s.updFeTile n f).octets = s.octets := rfl
@[simp] theorem State.updFeTile_host (n : Nat) (f : FeTile → FeTile) : (s.updFeTile n f).host = s.host := rfl
@[simp] theorem State.updFeTile_start (n : Nat) (f : FeTile → FeTile) : (s.updFeTile n f).start = s.start := rfl
@[simp] theorem State.updFeTile_sec (n : Nat) (f : FeTile → FeTile) : (s.updFeTile n f).sec = s.sec := rfl
@[simp] theorem State.updFeTile_pins (n : Nat) (f : FeTile → FeTile) : (s.updFeTile n f).pins = s.pins := rfl
@[simp] theorem State.updFeTile_lamp (n : Nat) (f : FeTile → FeTile) : (s.updFeTile n f).lamp = s.lamp := rfl
@[simp] theorem State.updFeTile_rep (n : Nat) (f : FeTile → FeTile) : (s.updFeTile n f).rep = s.rep := rfl
@[simp] theorem State.updFeTile_tu (n : Nat) (f : FeTile → FeTile) : (s.updFeTile n f).tu = s.tu := rfl
@[simp] theorem State.tick_pending : (s.tick).pending = s.pending := rfl
@[simp] theorem State.tick_mono : (s.tick).mono = s.mono := rfl
@[simp] theorem State.tick_time : (s.tick).time = s.time := rfl
@[simp] theorem State.tick_power : (s.tick).power = s.power := rfl
@[simp] theorem State.tick_gid : (s.tick).gid = s.gid := rfl
@[simp] theorem State.tick_degraded : (s.tick).degraded = s.degraded := rfl
@[simp] theorem State.tick_memMib : (s.tick).memMib = s.memMib := rfl
@[simp] theorem State.tick_pacesum : (s.tick).pacesum = s.pacesum := rfl
@[simp] theorem State.tick_map : (s.tick).map = s.map := rfl
@[simp] theorem State.tick_mem : (s.tick).mem = s.mem := rfl
@[simp] theorem State.tick_errs : (s.tick).errs = s.errs := rfl
@[simp] theorem State.tick_memK1 : (s.tick).memK1 = s.memK1 := rfl
@[simp] theorem State.tick_memK2 : (s.tick).memK2 = s.memK2 := rfl
@[simp] theorem State.tick_tiles : (s.tick).tiles = s.tiles := rfl
@[simp] theorem State.tick_svcs : (s.tick).svcs = s.svcs := rfl
@[simp] theorem State.tick_memStacks : (s.tick).memStacks = s.memStacks := rfl
@[simp] theorem State.tick_gal : (s.tick).gal = s.gal := rfl
@[simp] theorem State.tick_links : (s.tick).links = s.links := rfl
@[simp] theorem State.tick_octets : (s.tick).octets = s.octets := rfl
@[simp] theorem State.tick_fe : (s.tick).fe = s.fe := rfl
@[simp] theorem State.tick_host : (s.tick).host = s.host := rfl
@[simp] theorem State.tick_start : (s.tick).start = s.start := rfl
@[simp] theorem State.tick_sec : (s.tick).sec = s.sec := rfl
@[simp] theorem State.tick_pins : (s.tick).pins = s.pins := rfl
@[simp] theorem State.tick_lamp : (s.tick).lamp = s.lamp := rfl
@[simp] theorem State.tick_rep : (s.tick).rep = s.rep := rfl
@[simp] theorem State.tick_tu : (s.tick).tu = s.tu := rfl
@[simp] theorem State.setCore_pending (c : CoreId) (k : Core) : (s.setCore c k).pending = s.pending := by cases c <;> rfl
@[simp] theorem State.setCore_free (c : CoreId) (k : Core) : (s.setCore c k).free = s.free := by cases c <;> rfl
@[simp] theorem State.setCore_mono (c : CoreId) (k : Core) : (s.setCore c k).mono = s.mono := by cases c <;> rfl
@[simp] theorem State.setCore_time (c : CoreId) (k : Core) : (s.setCore c k).time = s.time := by cases c <;> rfl
@[simp] theorem State.setCore_power (c : CoreId) (k : Core) : (s.setCore c k).power = s.power := by cases c <;> rfl
@[simp] theorem State.setCore_gid (c : CoreId) (k : Core) : (s.setCore c k).gid = s.gid := by cases c <;> rfl
@[simp] theorem State.setCore_degraded (c : CoreId) (k : Core) : (s.setCore c k).degraded = s.degraded := by cases c <;> rfl
@[simp] theorem State.setCore_memMib (c : CoreId) (k : Core) : (s.setCore c k).memMib = s.memMib := by cases c <;> rfl
@[simp] theorem State.setCore_pacesum (c : CoreId) (k : Core) : (s.setCore c k).pacesum = s.pacesum := by cases c <;> rfl
@[simp] theorem State.setCore_map (c : CoreId) (k : Core) : (s.setCore c k).map = s.map := by cases c <;> rfl
@[simp] theorem State.setCore_mem (c : CoreId) (k : Core) : (s.setCore c k).mem = s.mem := by cases c <;> rfl
@[simp] theorem State.setCore_errs (c : CoreId) (k : Core) : (s.setCore c k).errs = s.errs := by cases c <;> rfl
@[simp] theorem State.setCore_memK1 (c : CoreId) (k : Core) : (s.setCore c k).memK1 = s.memK1 := by cases c <;> rfl
@[simp] theorem State.setCore_memK2 (c : CoreId) (k : Core) : (s.setCore c k).memK2 = s.memK2 := by cases c <;> rfl
@[simp] theorem State.setCore_memStacks (c : CoreId) (k : Core) : (s.setCore c k).memStacks = s.memStacks := by cases c <;> rfl
@[simp] theorem State.setCore_gal (c : CoreId) (k : Core) : (s.setCore c k).gal = s.gal := by cases c <;> rfl
@[simp] theorem State.setCore_links (c : CoreId) (k : Core) : (s.setCore c k).links = s.links := by cases c <;> rfl
@[simp] theorem State.setCore_octets (c : CoreId) (k : Core) : (s.setCore c k).octets = s.octets := by cases c <;> rfl
@[simp] theorem State.setCore_fe (c : CoreId) (k : Core) : (s.setCore c k).fe = s.fe := by cases c <;> rfl
@[simp] theorem State.setCore_host (c : CoreId) (k : Core) : (s.setCore c k).host = s.host := by cases c <;> rfl
@[simp] theorem State.setCore_start (c : CoreId) (k : Core) : (s.setCore c k).start = s.start := by cases c <;> rfl
@[simp] theorem State.setCore_sec (c : CoreId) (k : Core) : (s.setCore c k).sec = s.sec := by cases c <;> rfl
@[simp] theorem State.setCore_pins (c : CoreId) (k : Core) : (s.setCore c k).pins = s.pins := by cases c <;> rfl
@[simp] theorem State.setCore_lamp (c : CoreId) (k : Core) : (s.setCore c k).lamp = s.lamp := by cases c <;> rfl
@[simp] theorem State.setCore_rep (c : CoreId) (k : Core) : (s.setCore c k).rep = s.rep := by cases c <;> rfl
@[simp] theorem State.setCore_tu (c : CoreId) (k : Core) : (s.setCore c k).tu = s.tu := by cases c <;> rfl
@[simp] theorem State.updCore_pending (c : CoreId) (f : Core → Core) : (s.updCore c f).pending = s.pending := by cases c <;> rfl
@[simp] theorem State.updCore_free (c : CoreId) (f : Core → Core) : (s.updCore c f).free = s.free := by cases c <;> rfl
@[simp] theorem State.updCore_mono (c : CoreId) (f : Core → Core) : (s.updCore c f).mono = s.mono := by cases c <;> rfl
@[simp] theorem State.updCore_time (c : CoreId) (f : Core → Core) : (s.updCore c f).time = s.time := by cases c <;> rfl
@[simp] theorem State.updCore_power (c : CoreId) (f : Core → Core) : (s.updCore c f).power = s.power := by cases c <;> rfl
@[simp] theorem State.updCore_gid (c : CoreId) (f : Core → Core) : (s.updCore c f).gid = s.gid := by cases c <;> rfl
@[simp] theorem State.updCore_degraded (c : CoreId) (f : Core → Core) : (s.updCore c f).degraded = s.degraded := by cases c <;> rfl
@[simp] theorem State.updCore_memMib (c : CoreId) (f : Core → Core) : (s.updCore c f).memMib = s.memMib := by cases c <;> rfl
@[simp] theorem State.updCore_pacesum (c : CoreId) (f : Core → Core) : (s.updCore c f).pacesum = s.pacesum := by cases c <;> rfl
@[simp] theorem State.updCore_map (c : CoreId) (f : Core → Core) : (s.updCore c f).map = s.map := by cases c <;> rfl
@[simp] theorem State.updCore_mem (c : CoreId) (f : Core → Core) : (s.updCore c f).mem = s.mem := by cases c <;> rfl
@[simp] theorem State.updCore_errs (c : CoreId) (f : Core → Core) : (s.updCore c f).errs = s.errs := by cases c <;> rfl
@[simp] theorem State.updCore_memK1 (c : CoreId) (f : Core → Core) : (s.updCore c f).memK1 = s.memK1 := by cases c <;> rfl
@[simp] theorem State.updCore_memK2 (c : CoreId) (f : Core → Core) : (s.updCore c f).memK2 = s.memK2 := by cases c <;> rfl
@[simp] theorem State.updCore_memStacks (c : CoreId) (f : Core → Core) : (s.updCore c f).memStacks = s.memStacks := by cases c <;> rfl
@[simp] theorem State.updCore_gal (c : CoreId) (f : Core → Core) : (s.updCore c f).gal = s.gal := by cases c <;> rfl
@[simp] theorem State.updCore_links (c : CoreId) (f : Core → Core) : (s.updCore c f).links = s.links := by cases c <;> rfl
@[simp] theorem State.updCore_octets (c : CoreId) (f : Core → Core) : (s.updCore c f).octets = s.octets := by cases c <;> rfl
@[simp] theorem State.updCore_fe (c : CoreId) (f : Core → Core) : (s.updCore c f).fe = s.fe := by cases c <;> rfl
@[simp] theorem State.updCore_host (c : CoreId) (f : Core → Core) : (s.updCore c f).host = s.host := by cases c <;> rfl
@[simp] theorem State.updCore_start (c : CoreId) (f : Core → Core) : (s.updCore c f).start = s.start := by cases c <;> rfl
@[simp] theorem State.updCore_sec (c : CoreId) (f : Core → Core) : (s.updCore c f).sec = s.sec := by cases c <;> rfl
@[simp] theorem State.updCore_pins (c : CoreId) (f : Core → Core) : (s.updCore c f).pins = s.pins := by cases c <;> rfl
@[simp] theorem State.updCore_lamp (c : CoreId) (f : Core → Core) : (s.updCore c f).lamp = s.lamp := by cases c <;> rfl
@[simp] theorem State.updCore_rep (c : CoreId) (f : Core → Core) : (s.updCore c f).rep = s.rep := by cases c <;> rfl
@[simp] theorem State.updCore_tu (c : CoreId) (f : Core → Core) : (s.updCore c f).tu = s.tu := by cases c <;> rfl
@[simp] theorem State.setReg_pending (c : CoreId) (r : Reg) (v : Word) : (s.setReg c r v).pending = s.pending := by cases c <;> rfl
@[simp] theorem State.setReg_free (c : CoreId) (r : Reg) (v : Word) : (s.setReg c r v).free = s.free := by cases c <;> rfl
@[simp] theorem State.setReg_mono (c : CoreId) (r : Reg) (v : Word) : (s.setReg c r v).mono = s.mono := by cases c <;> rfl
@[simp] theorem State.setReg_time (c : CoreId) (r : Reg) (v : Word) : (s.setReg c r v).time = s.time := by cases c <;> rfl
@[simp] theorem State.setReg_power (c : CoreId) (r : Reg) (v : Word) : (s.setReg c r v).power = s.power := by cases c <;> rfl
@[simp] theorem State.setReg_gid (c : CoreId) (r : Reg) (v : Word) : (s.setReg c r v).gid = s.gid := by cases c <;> rfl
@[simp] theorem State.setReg_degraded (c : CoreId) (r : Reg) (v : Word) : (s.setReg c r v).degraded = s.degraded := by cases c <;> rfl
@[simp] theorem State.setReg_memMib (c : CoreId) (r : Reg) (v : Word) : (s.setReg c r v).memMib = s.memMib := by cases c <;> rfl
@[simp] theorem State.setReg_pacesum (c : CoreId) (r : Reg) (v : Word) : (s.setReg c r v).pacesum = s.pacesum := by cases c <;> rfl
@[simp] theorem State.setReg_map (c : CoreId) (r : Reg) (v : Word) : (s.setReg c r v).map = s.map := by cases c <;> rfl
@[simp] theorem State.setReg_mem (c : CoreId) (r : Reg) (v : Word) : (s.setReg c r v).mem = s.mem := by cases c <;> rfl
@[simp] theorem State.setReg_errs (c : CoreId) (r : Reg) (v : Word) : (s.setReg c r v).errs = s.errs := by cases c <;> rfl
@[simp] theorem State.setReg_memK1 (c : CoreId) (r : Reg) (v : Word) : (s.setReg c r v).memK1 = s.memK1 := by cases c <;> rfl
@[simp] theorem State.setReg_memK2 (c : CoreId) (r : Reg) (v : Word) : (s.setReg c r v).memK2 = s.memK2 := by cases c <;> rfl
@[simp] theorem State.setReg_memStacks (c : CoreId) (r : Reg) (v : Word) : (s.setReg c r v).memStacks = s.memStacks := by cases c <;> rfl
@[simp] theorem State.setReg_gal (c : CoreId) (r : Reg) (v : Word) : (s.setReg c r v).gal = s.gal := by cases c <;> rfl
@[simp] theorem State.setReg_links (c : CoreId) (r : Reg) (v : Word) : (s.setReg c r v).links = s.links := by cases c <;> rfl
@[simp] theorem State.setReg_octets (c : CoreId) (r : Reg) (v : Word) : (s.setReg c r v).octets = s.octets := by cases c <;> rfl
@[simp] theorem State.setReg_fe (c : CoreId) (r : Reg) (v : Word) : (s.setReg c r v).fe = s.fe := by cases c <;> rfl
@[simp] theorem State.setReg_host (c : CoreId) (r : Reg) (v : Word) : (s.setReg c r v).host = s.host := by cases c <;> rfl
@[simp] theorem State.setReg_start (c : CoreId) (r : Reg) (v : Word) : (s.setReg c r v).start = s.start := by cases c <;> rfl
@[simp] theorem State.setReg_sec (c : CoreId) (r : Reg) (v : Word) : (s.setReg c r v).sec = s.sec := by cases c <;> rfl
@[simp] theorem State.setReg_pins (c : CoreId) (r : Reg) (v : Word) : (s.setReg c r v).pins = s.pins := by cases c <;> rfl
@[simp] theorem State.setReg_lamp (c : CoreId) (r : Reg) (v : Word) : (s.setReg c r v).lamp = s.lamp := by cases c <;> rfl
@[simp] theorem State.setReg_rep (c : CoreId) (r : Reg) (v : Word) : (s.setReg c r v).rep = s.rep := by cases c <;> rfl
@[simp] theorem State.setReg_tu (c : CoreId) (r : Reg) (v : Word) : (s.setReg c r v).tu = s.tu := by cases c <;> rfl
@[simp] theorem State.updDie_pending (d : Die) (f : DiePower → DiePower) : (s.updDie d f).pending = s.pending := by cases d <;> rfl
@[simp] theorem State.updDie_free (d : Die) (f : DiePower → DiePower) : (s.updDie d f).free = s.free := by cases d <;> rfl
@[simp] theorem State.updDie_mono (d : Die) (f : DiePower → DiePower) : (s.updDie d f).mono = s.mono := by cases d <;> rfl
@[simp] theorem State.updDie_time (d : Die) (f : DiePower → DiePower) : (s.updDie d f).time = s.time := by cases d <;> rfl
@[simp] theorem State.updDie_power (d : Die) (f : DiePower → DiePower) : (s.updDie d f).power = s.power := by cases d <;> rfl
@[simp] theorem State.updDie_gid (d : Die) (f : DiePower → DiePower) : (s.updDie d f).gid = s.gid := by cases d <;> rfl
@[simp] theorem State.updDie_degraded (d : Die) (f : DiePower → DiePower) : (s.updDie d f).degraded = s.degraded := by cases d <;> rfl
@[simp] theorem State.updDie_memMib (d : Die) (f : DiePower → DiePower) : (s.updDie d f).memMib = s.memMib := by cases d <;> rfl
@[simp] theorem State.updDie_pacesum (d : Die) (f : DiePower → DiePower) : (s.updDie d f).pacesum = s.pacesum := by cases d <;> rfl
@[simp] theorem State.updDie_map (d : Die) (f : DiePower → DiePower) : (s.updDie d f).map = s.map := by cases d <;> rfl
@[simp] theorem State.updDie_mem (d : Die) (f : DiePower → DiePower) : (s.updDie d f).mem = s.mem := by cases d <;> rfl
@[simp] theorem State.updDie_errs (d : Die) (f : DiePower → DiePower) : (s.updDie d f).errs = s.errs := by cases d <;> rfl
@[simp] theorem State.updDie_memK1 (d : Die) (f : DiePower → DiePower) : (s.updDie d f).memK1 = s.memK1 := by cases d <;> rfl
@[simp] theorem State.updDie_memK2 (d : Die) (f : DiePower → DiePower) : (s.updDie d f).memK2 = s.memK2 := by cases d <;> rfl
@[simp] theorem State.updDie_tiles (d : Die) (f : DiePower → DiePower) : (s.updDie d f).tiles = s.tiles := by cases d <;> rfl
@[simp] theorem State.updDie_svcs (d : Die) (f : DiePower → DiePower) : (s.updDie d f).svcs = s.svcs := by cases d <;> rfl
@[simp] theorem State.updDie_memStacks (d : Die) (f : DiePower → DiePower) : (s.updDie d f).memStacks = s.memStacks := by cases d <;> rfl
@[simp] theorem State.updDie_gal (d : Die) (f : DiePower → DiePower) : (s.updDie d f).gal = s.gal := by cases d <;> rfl
@[simp] theorem State.updDie_links (d : Die) (f : DiePower → DiePower) : (s.updDie d f).links = s.links := by cases d <;> rfl
@[simp] theorem State.updDie_octets (d : Die) (f : DiePower → DiePower) : (s.updDie d f).octets = s.octets := by cases d <;> rfl
@[simp] theorem State.updDie_fe (d : Die) (f : DiePower → DiePower) : (s.updDie d f).fe = s.fe := by cases d <;> rfl
@[simp] theorem State.updDie_host (d : Die) (f : DiePower → DiePower) : (s.updDie d f).host = s.host := by cases d <;> rfl
@[simp] theorem State.updDie_start (d : Die) (f : DiePower → DiePower) : (s.updDie d f).start = s.start := by cases d <;> rfl
@[simp] theorem State.updDie_sec (d : Die) (f : DiePower → DiePower) : (s.updDie d f).sec = s.sec := by cases d <;> rfl
@[simp] theorem State.updDie_pins (d : Die) (f : DiePower → DiePower) : (s.updDie d f).pins = s.pins := by cases d <;> rfl
@[simp] theorem State.updDie_rep (d : Die) (f : DiePower → DiePower) : (s.updDie d f).rep = s.rep := by cases d <;> rfl
@[simp] theorem State.updDie_tu (d : Die) (f : DiePower → DiePower) : (s.updDie d f).tu = s.tu := by cases d <;> rfl
@[simp] theorem addSteps_pending (c : CoreId) (n : Nat) : (addSteps s c n).pending = s.pending := by cases c <;> rfl
@[simp] theorem addSteps_free (c : CoreId) (n : Nat) : (addSteps s c n).free = s.free := by cases c <;> rfl
@[simp] theorem addSteps_mono (c : CoreId) (n : Nat) : (addSteps s c n).mono = s.mono := by cases c <;> rfl
@[simp] theorem addSteps_time (c : CoreId) (n : Nat) : (addSteps s c n).time = s.time := by cases c <;> rfl
@[simp] theorem addSteps_power (c : CoreId) (n : Nat) : (addSteps s c n).power = s.power := by cases c <;> rfl
@[simp] theorem addSteps_gid (c : CoreId) (n : Nat) : (addSteps s c n).gid = s.gid := by cases c <;> rfl
@[simp] theorem addSteps_degraded (c : CoreId) (n : Nat) : (addSteps s c n).degraded = s.degraded := by cases c <;> rfl
@[simp] theorem addSteps_memMib (c : CoreId) (n : Nat) : (addSteps s c n).memMib = s.memMib := by cases c <;> rfl
@[simp] theorem addSteps_pacesum (c : CoreId) (n : Nat) : (addSteps s c n).pacesum = s.pacesum := by cases c <;> rfl
@[simp] theorem addSteps_map (c : CoreId) (n : Nat) : (addSteps s c n).map = s.map := by cases c <;> rfl
@[simp] theorem addSteps_mem (c : CoreId) (n : Nat) : (addSteps s c n).mem = s.mem := by cases c <;> rfl
@[simp] theorem addSteps_errs (c : CoreId) (n : Nat) : (addSteps s c n).errs = s.errs := by cases c <;> rfl
@[simp] theorem addSteps_memK1 (c : CoreId) (n : Nat) : (addSteps s c n).memK1 = s.memK1 := by cases c <;> rfl
@[simp] theorem addSteps_memK2 (c : CoreId) (n : Nat) : (addSteps s c n).memK2 = s.memK2 := by cases c <;> rfl
@[simp] theorem addSteps_memStacks (c : CoreId) (n : Nat) : (addSteps s c n).memStacks = s.memStacks := by cases c <;> rfl
@[simp] theorem addSteps_gal (c : CoreId) (n : Nat) : (addSteps s c n).gal = s.gal := by cases c <;> rfl
@[simp] theorem addSteps_links (c : CoreId) (n : Nat) : (addSteps s c n).links = s.links := by cases c <;> rfl
@[simp] theorem addSteps_octets (c : CoreId) (n : Nat) : (addSteps s c n).octets = s.octets := by cases c <;> rfl
@[simp] theorem addSteps_fe (c : CoreId) (n : Nat) : (addSteps s c n).fe = s.fe := by cases c <;> rfl
@[simp] theorem addSteps_host (c : CoreId) (n : Nat) : (addSteps s c n).host = s.host := by cases c <;> rfl
@[simp] theorem addSteps_start (c : CoreId) (n : Nat) : (addSteps s c n).start = s.start := by cases c <;> rfl
@[simp] theorem addSteps_sec (c : CoreId) (n : Nat) : (addSteps s c n).sec = s.sec := by cases c <;> rfl
@[simp] theorem addSteps_pins (c : CoreId) (n : Nat) : (addSteps s c n).pins = s.pins := by cases c <;> rfl
@[simp] theorem addSteps_lamp (c : CoreId) (n : Nat) : (addSteps s c n).lamp = s.lamp := by cases c <;> rfl
@[simp] theorem addSteps_rep (c : CoreId) (n : Nat) : (addSteps s c n).rep = s.rep := by cases c <;> rfl
@[simp] theorem addSteps_tu (c : CoreId) (n : Nat) : (addSteps s c n).tu = s.tu := by cases c <;> rfl
@[simp] theorem addStall_pending (c : CoreId) : (addStall s c).pending = s.pending := by cases c <;> rfl
@[simp] theorem addStall_mono (c : CoreId) : (addStall s c).mono = s.mono := by cases c <;> rfl
@[simp] theorem addStall_time (c : CoreId) : (addStall s c).time = s.time := by cases c <;> rfl
@[simp] theorem addStall_power (c : CoreId) : (addStall s c).power = s.power := by cases c <;> rfl
@[simp] theorem addStall_gid (c : CoreId) : (addStall s c).gid = s.gid := by cases c <;> rfl
@[simp] theorem addStall_degraded (c : CoreId) : (addStall s c).degraded = s.degraded := by cases c <;> rfl
@[simp] theorem addStall_memMib (c : CoreId) : (addStall s c).memMib = s.memMib := by cases c <;> rfl
@[simp] theorem addStall_pacesum (c : CoreId) : (addStall s c).pacesum = s.pacesum := by cases c <;> rfl
@[simp] theorem addStall_map (c : CoreId) : (addStall s c).map = s.map := by cases c <;> rfl
@[simp] theorem addStall_mem (c : CoreId) : (addStall s c).mem = s.mem := by cases c <;> rfl
@[simp] theorem addStall_errs (c : CoreId) : (addStall s c).errs = s.errs := by cases c <;> rfl
@[simp] theorem addStall_memK1 (c : CoreId) : (addStall s c).memK1 = s.memK1 := by cases c <;> rfl
@[simp] theorem addStall_memK2 (c : CoreId) : (addStall s c).memK2 = s.memK2 := by cases c <;> rfl
@[simp] theorem addStall_memStacks (c : CoreId) : (addStall s c).memStacks = s.memStacks := by cases c <;> rfl
@[simp] theorem addStall_gal (c : CoreId) : (addStall s c).gal = s.gal := by cases c <;> rfl
@[simp] theorem addStall_links (c : CoreId) : (addStall s c).links = s.links := by cases c <;> rfl
@[simp] theorem addStall_octets (c : CoreId) : (addStall s c).octets = s.octets := by cases c <;> rfl
@[simp] theorem addStall_fe (c : CoreId) : (addStall s c).fe = s.fe := by cases c <;> rfl
@[simp] theorem addStall_host (c : CoreId) : (addStall s c).host = s.host := by cases c <;> rfl
@[simp] theorem addStall_start (c : CoreId) : (addStall s c).start = s.start := by cases c <;> rfl
@[simp] theorem addStall_sec (c : CoreId) : (addStall s c).sec = s.sec := by cases c <;> rfl
@[simp] theorem addStall_pins (c : CoreId) : (addStall s c).pins = s.pins := by cases c <;> rfl
@[simp] theorem addStall_lamp (c : CoreId) : (addStall s c).lamp = s.lamp := by cases c <;> rfl
@[simp] theorem addStall_rep (c : CoreId) : (addStall s c).rep = s.rep := by cases c <;> rfl
@[simp] theorem addStall_tu (c : CoreId) : (addStall s c).tu = s.tu := by cases c <;> rfl

end Sys2Proof.Machine
end

