-- ==== Sys2Proof/Laws/Issue.lean ====
section
/-! SUPPORT. What the issue of one instruction does, once for every family: the completed instruction, its jump, its fault. -/

namespace Sys2Proof.Machine

open Sys2Proof

variable {s s1 s2 : State} {c : CoreId} {rs : List Reg} {len occ : Nat} {body : State → Effect} {f : Core → Core}
  {xs : List Nat} {sync : Bool}

theorem addSteps_eq (s : State) (c : CoreId) (n : Nat) :
    addSteps s c n = s.updCore c fun k => { k with steps := k.steps + BitVec.ofNat 64 n } := rfl

theorem core_addStall (s : State) (c : CoreId) :
    (addStall s c).core c = { s.core c with steps := (s.core c).steps + BitVec.ofNat 64 (Config.freeStall s.free),
                                            stall := (s.core c).stall + BitVec.ofNat 64 (Config.freeStall s.free) } := by
  simp [addStall]

/-- An instruction whose own effect only changes its core leaves nothing else changed. -/
theorem completed_core (s : State) (c : CoreId) (len occ : Nat) (f : Core → Core) :
    completed s c len occ (fun s => s.updCore c f) = retired s c len occ f := by
  simp only [completed, finished, retired, retire, addSteps_eq, State.updCore, State.core_setCore,
    State.setCore_setCore]

/-- An issuing instruction: what its own effect gives is what becomes of it. -/
theorem issue_ready (h : Ready s c rs len s1 xs sync) (legal : Bool) :
    issue c rs len legal body s xs sync =
      if !legal then issueFault s1 c { code := cIllegal } (s1.core c).pc
      else match body s1 with
        | .error t => issueFault s1 c t (s1.core c).pc
        | .ok d =>
          match d.flow with
          | .seq => (addSteps d.st c d.occ).updCore c fun k => goNext k (s1.core c).pc len
          | .jump a =>
            if a.getLsbD 0 then issueFault s1 c { code := cIalign, addr := a } (s1.core c).pc
            else (addSteps d.st c d.occ).updCore c fun k => goTo k a
          | .stay => addSteps d.st c d.occ
          | .trap t epc => takeFault d.st c t epc := by
  obtain ⟨h1, u, bs, h2, h3⟩ := h
  simp only [issue, h1, Bool.not_true, Bool.false_eq_true, if_false, h2, issueFrom, h3] <;> rfl

/-- A completed instruction. -/
theorem issue_done {d : Done} (h : Ready s c rs len s1 xs sync) (hb : body s1 = .ok d) (hf : d.flow = .seq) :
    issue c rs len true body s xs sync = (addSteps d.st c d.occ).updCore c fun k => goNext k (s1.core c).pc len := by
  rw [issue_ready h]
  simp only [hb, hf]
  rfl

/-- A completed instruction, whatever its own effect left. -/
theorem issue_finished (h : Ready s c rs len s1 xs sync) (hb : body s1 = .ok { st := s2, flow := .seq, occ := occ }) :
    issue c rs len true body s xs sync = finished s2 c (s1.core c).pc len occ := by
  rw [issue_done h hb rfl]; rfl

theorem issue_completed {g : State → State} (h : Ready s c rs len s1 xs sync)
    (hb : body s1 = .ok { st := g s1, flow := .seq, occ := occ }) :
    issue c rs len true body s xs sync = completed s1 c len occ g := by
  rw [issue_done h hb rfl]; rfl

theorem issue_retired (h : Ready s c rs len s1 xs sync) (hb : body s1 = .ok { st := s1.updCore c f, flow := .seq, occ := occ }) :
    issue c rs len true body s xs sync = retired s1 c len occ f := by
  rw [← completed_core]; exact issue_completed (g := fun s => s.updCore c f) h hb

/-- An instruction that jumps to an even address. -/
theorem issue_jumped {a : Word} (h : Ready s c rs len s1 xs sync) (ha : a.getLsbD 0 = false)
    (hb : body s1 = .ok { st := s1.updCore c f, flow := .jump a, occ := 3 }) :
    issue c rs len true body s xs sync = jumped s1 c a f := by
  rw [issue_ready h]
  simp only [hb, ha, Bool.not_true, Bool.false_eq_true, if_false]
  simp only [jumped, goTo, addSteps_eq, State.updCore, State.core_setCore, State.setCore_setCore]
  rfl

/-- Where nothing is dispatched, nothing has to start or complete. -/
theorem startAll_quiet {t : Nat} (h : (s.tile t).vec.vq = [] ∧ (s.tile t).vec.run = []) : startAll s t = (s, false) := by
  obtain ⟨h1, h2⟩ := h
  simp only [startAll, h1, List.length_nil, startN, completeRun, h2, if_true, Bool.or_self]

/-- A machine with nothing dispatched on the core's tile is as it stands for the next instruction. -/
theorem olderRun_quiet (h : Quiet s c) (sync : Bool) : olderRun s c sync = (s, false) := by
  cases c with
  | svc v => rfl
  | tile t => simp only [olderRun, startAll_quiet h, h.1, List.length_nil, startN, ite_self]

/-- A precise fault enters at once where nothing is dispatched. -/
theorem issueFault_quiet (h : Quiet s c) (t : Trap) : issueFault s c t (s.core c).pc = faulted s c t := by
  cases c with
  | svc v => rfl
  | tile n => simp only [issueFault, startAll_quiet h]; rfl

/-- An instruction that meets a precise fault. -/
theorem issue_fault {t : Trap} {legal : Bool} (h : Ready s c rs len s1 xs sync) (hq : Quiet s1 c)
    (hb : (if legal then body s1 else illegal) = .error t) :
    issue c rs len legal body s xs sync = faulted s1 c t := by
  rw [issue_ready h, ← issueFault_quiet hq]
  cases legal with
  | false =>
    simp only [illegal, Bool.false_eq_true, if_false, Except.error.injEq] at hb
    subst hb; rfl
  | true =>
    simp only [if_true] at hb
    simp only [hb, Bool.not_true, Bool.false_eq_true, if_false]

/-- An instruction that changes nothing of its own. -/
theorem issue_same (h : Ready s c rs len s1 xs sync) (hb : body s1 = .ok { st := s1, flow := .seq, occ := occ }) :
    issue c rs len true body s xs sync = retired s1 c len occ id := by
  rw [issue_finished h hb]
  simp only [finished, retired, retire, addSteps_eq, State.updCore, State.core_setCore, State.setCore_setCore, id]

/-- An instruction that jumps to an even address, whatever its own effect left. -/
theorem issue_jumped_same {a : Word} (h : Ready s c rs len s1 xs sync) (ha : a.getLsbD 0 = false)
    (hb : body s1 = .ok { st := s2, flow := .jump a, occ := 3 }) :
    issue c rs len true body s xs sync = jumped s2 c a id := by
  rw [issue_ready h]
  simp only [hb, ha, Bool.not_true, Bool.false_eq_true, if_false]
  simp only [jumped, goTo, addSteps_eq, State.updCore, State.core_setCore, State.setCore_setCore, id]
  rfl

/-- Where an instruction jumps to an odd address (R71). -/
theorem issue_odd {a : Word} {n : Nat} (h : Ready s c rs len s1 xs sync) (hq : Quiet s1 c) (ha : a.getLsbD 0 = true)
    (hb : body s1 = .ok { st := s2, flow := .jump a, occ := n }) :
    issue c rs len true body s xs sync = faulted s1 c { code := cIalign, addr := a } := by
  rw [issue_ready h, ← issueFault_quiet hq]
  simp only [hb, ha, Bool.not_true, Bool.false_eq_true, if_false, if_true]

@[simp] theorem core_markPassed (s : State) (c : CoreId) : (markPassed s c).core c = s.core c := by
  cases c with
  | svc v => rfl
  | tile t =>
    simp only [markPassed]
    split_ifs
    · rfl
    · simp only [State.core, State.updVec, State.updTile, State.tile_setTile, if_true]

/-- An ALU instruction that completes. -/
theorem aluRun_ready {args : Core → AluArgs} {res : Bool → Word → Word → Word × Flags} {r : Word} {cf vf : Bool} {m : AluTime}
    (h : Ready s c (args (s1.core c)).srcs len s1 m.keys false) (hs : ∀ k k', (args k).srcs = (args k').srcs)
    (hr : res (s1.core c).fl.c (args (s1.core c)).x (args (s1.core c)).y = (r, { n := r.msb, z := decide (r = 0), c := cf, v := vf })) :
    aluRun c len true args res s m = aluDone s1 c len (args (s1.core c)) r cf vf m := by
  unfold aluRun aluDone
  rw [hs _ (s1.core c), issue_done h rfl rfl]
  simp only [retired, retire, addSteps_eq, State.updCore, State.core_setCore, State.setCore_setCore, core_markPassed, hr]
  congr 1
  have : aluEffect m (args (s1.core c)) (r, { n := r.msb, z := decide (r = 0), c := cf, v := vf }) = aluWrites m (args (s1.core c)) r cf vf := by
    funext k
    simp only [aluEffect, aluWrite, aluWrites, BitVec.msb_eq_toInt]
  rw [this]

/-- An ALU instruction whose fields that must be 0 are not. -/
theorem aluRun_illegal {args : Core → AluArgs} {res : Bool → Word → Word → Word × Flags} {m : AluTime}
    (h : Ready s c (args (s.core c)).srcs len s1 m.keys false) (hq : Quiet s1 c) :
    aluRun c len false args res s m = faulted s1 c { code := cIllegal } := by
  unfold aluRun
  exact issue_fault h hq rfl

/-- The dispatch of a vector instruction: what its own effect gives is what becomes of it. -/
theorem vissue_ready {t : TileId} {wait : State → Bool} (h : VReady s t rs wait s1) :
    vissue t rs wait body s =
      match body s1 with
      | .error e => issueFault s1 (.tile t) e (s1.core (.tile t)).pc
      | .ok d =>
        match d.flow with
        | .seq => (addSteps d.st (.tile t) d.occ).updCore (.tile t) fun k => goNext k (s1.core (.tile t)).pc 4
        | .jump a =>
          if a.getLsbD 0 then issueFault s1 (.tile t) { code := cIalign, addr := a } (s1.core (.tile t)).pc
          else (addSteps d.st (.tile t) d.occ).updCore (.tile t) fun k => goTo k a
        | .stay => addSteps d.st (.tile t) d.occ
        | .trap e epc => takeFault d.st (.tile t) e epc := by
  obtain ⟨h1, u, bs, h2, h3⟩ := h
  unfold vissue
  simp only [h1, Bool.not_true, Bool.false_eq_true, if_false]
  by_cases hw : wait s = true
  · rw [if_pos hw] at h2 ⊢
    simp only [h2, Bool.false_eq_true, if_false, issueFrom, h3, Bool.not_true] <;> rfl
  · rw [if_neg hw] at h2 ⊢
    obtain ⟨rfl, -⟩ := Prod.mk.inj h2
    simp only [issueFrom, h3, Bool.not_true, Bool.false_eq_true, if_false] <;> rfl

theorem vissue_completed {t : TileId} {wait : State → Bool} {g : State → State} (h : VReady s t rs wait s1)
    (hb : body s1 = .ok { st := g s1, flow := .seq, occ := occ }) :
    vissue t rs wait body s = completed s1 (.tile t) 4 occ g := by
  rw [vissue_ready h, hb]; rfl

theorem vissue_fault {t : TileId} {wait : State → Bool} {e : Trap} (h : VReady s t rs wait s1) (hq : Quiet s1 (.tile t))
    (hb : body s1 = .error e) : vissue t rs wait body s = faulted s1 (.tile t) e := by
  rw [vissue_ready h, hb, ← issueFault_quiet hq]

end Sys2Proof.Machine
end

