-- ==== Sys2Proof/Laws/Access.lean ====
section
/-! SUPPORT. How an address of a tile's own scratch reaches the scratch, bytes of a number, and a load or store of scratch. -/

namespace Sys2Proof.Machine

open Sys2Proof

/-! ### Bytes of a number -/

theorem ofBytes_toBytes (n : Nat) : ∀ x, ofBytes (toBytes n x) = x % 256 ^ n := by
  induction n with
  | zero => intro x; simp [toBytes, ofBytes, Nat.mod_one]
  | succ n ih =>
    intro x
    simp only [toBytes, ofBytes, ih, BitVec.toNat_ofNat]
    rw [show 256 ^ (n + 1) = 256 * 256 ^ n by ring, Nat.mod_mul]

@[simp] theorem toBytes_length (n : Nat) : ∀ x, (toBytes n x).length = n := by
  induction n with
  | zero => intro x; rfl
  | succ n ih => intro x; simp [toBytes, ih]

/-! ### The alias of a tile's own scratch (R322) -/

theorem localAddr_of_toNat {s : State} {a : Word} {l : Nat} (hN : a.toNat = l) (h : l < 2 ^ 40) : localAddr s a = some l := by
  have w1 : wfld a 56 8 = 0 := by simp only [wfld, fld, hN]; omega
  have w2 : wfld a 40 16 = 0 := by simp only [wfld, fld, hN]; omega
  have w3 : wfld a 0 40 = l := by simp only [wfld, fld, hN]; omega
  simp [localAddr, w1, w2, w3]

theorem target_scratch {s : State} {t : TileId} {l off n : Nat} (hl : l = 0xFC00000000 + off)
    (h : off + n ≤ min 0x80000 (scratchBytes s t.val)) : target s (ownTile (.tile t)) l n = .scratch t.val off := by
  unfold target ownTile
  have e1 : ¬ l < 0xF000000000 := by omega
  have e2 : (decide (0xFC00000000 ≤ l) && decide (l < 0xFD00000000)) = true := by
    rw [Bool.and_eq_true, decide_eq_true_eq, decide_eq_true_eq]; constructor <;> omega
  have e3 : l - 0xFC00000000 = off := by omega
  rw [if_neg e1, if_pos e2]
  simp only [e3]
  rw [if_pos (by omega)]

theorem spans_one {a : Word} {n : Nat} (m : Nat) (hn : 0 < n) (h : wfld a 0 7 + n ≤ 128) : spans (m + 2) a n = [(a, n)] := by
  have hm : min n (128 - wfld a 0 7) = n := by omega
  simp only [spans, hm, if_neg (show ¬ n = 0 by omega), Nat.sub_self, if_true]

theorem wfld_scratch {a : Word} {l off : Nat} (hN : a.toNat = l) (hl : l = 0xFC00000000 + off) : wfld a 0 7 = off % 128 := by
  simp only [wfld, fld, hN]; omega

theorem toNat_scratch {a : Word} {l off : Nat} (ha : a = BitVec.ofNat 64 l) (hl : l = 0xFC00000000 + off) (h : off ≤ 0x80000) :
    a.toNat = l := by
  rw [ha, BitVec.toNat_ofNat]; omega

/-- A load that touches one line gives what that one access gives (R148). -/
theorem dataRead_one {s s2 : State} {c : CoreId} {a : Word} {n : Nat} {bs : List Byte} (h : spans 3 a n = [(a, n)])
    (hh : halfRead (pfNote s c a n) c true a n = (s2, .ok bs)) : dataRead s c a n = (s2, .ok bs) := by
  unfold dataRead
  rw [h, List.foldl_cons, List.foldl_nil]
  show loadJoin a n a [] (halfRead (pfNote s c a n) c (decide (n = n)) a n) = _
  rw [decide_eq_true rfl, hh]; rfl

/-- Bytes of a scratch that are readable. -/
theorem scratchRead_ok {s : State} {t o n : Nat} (h : ∀ b ∈ (s.tile t).l1.bad, ¬(o ≤ b ∧ b < o + n)) :
    scratchRead s t o n = .ok (readBytes (s.tile t).l1.scratch o n) := by
  have hf : (s.tile t).l1.bad.filter (fun b => decide (o ≤ b) && decide (b < o + n)) = [] := by
    rw [List.filter_eq_nil_iff]; intro b hb; have := h b hb; simpa using this
  unfold scratchRead; simp only [hf]

/-- A load within one line of a tile's own scratch, with nothing buffered and no uncorrectable byte (R323, R324). -/
theorem dataRead_scratch {s : State} {t : TileId} {a : Word} {l off n : Nat} (hn : 0 < n) (ha : a = BitVec.ofNat 64 l)
    (hl : l = 0xFC00000000 + off) (h1 : off % 128 + n ≤ 128) (h2 : off + n ≤ min 0x80000 (scratchBytes s t.val))
    (h3 : ∀ b ∈ (s.tile t.val).l1.bad, ¬(off ≤ b ∧ b < off + n)) (h4 : (s.core (.tile t)).sbuf = []) :
    isRemote s a = false ∧ loadHit s (.tile t) a n = true ∧
      dataRead s (.tile t) a n = (s, .ok (readBytes (s.tile t.val).l1.scratch off n)) := by
  have hN := toNat_scratch ha hl (by omega)
  have hla : localAddr s a = some l := localAddr_of_toNat hN (by omega)
  have htg := target_scratch hl h2
  have hsp : spans 3 a n = [(a, n)] := spans_one 1 hn (by rw [wfld_scratch hN hl]; exact h1)
  have hpf : pfNote s (.tile t) a n = s := by
    unfold pfNote l1LineOf
    rw [hla]; simp only []
    rw [target_scratch (n := 1) hl (by omega)]
  have hcore : coreRead s (.tile t) l n = (s, .ok (readBytes (s.tile t.val).l1.scratch off n)) := by
    have hp : portRead s (.tile t) l n = (s, .ok (readBytes (s.tile t.val).l1.scratch off n)) := by
      unfold portRead; rw [htg]; simp only [scratchRead_ok h3]
    unfold coreRead; rw [hp]; simp only [overlay, h4, List.foldl_nil]
  have hh : halfRead (pfNote s (.tile t) a n) (.tile t) true a n = (s, .ok (readBytes (s.tile t.val).l1.scratch off n)) := by
    rw [hpf]; unfold halfRead; rw [hla]; simp only []; rw [htg]
    simp only [coreLoad, h4, List.any_nil, Bool.false_eq_true, if_false, hcore]
  refine ⟨by simp [isRemote, hla], ?_, dataRead_one hsp hh⟩
  unfold loadHit
  rw [hsp, List.all_cons, List.all_nil, hla]; simp only []; rw [htg]; simp [ownTile]

/-- A store within one line of a tile's own scratch enters the store buffer (R145, R323). -/
theorem dataWrite_scratch {s : State} {t : TileId} {a : Word} {l off : Nat} {bs : List Byte} (hn : bs ≠ [])
    (ha : a = BitVec.ofNat 64 l) (hl : l = 0xFC00000000 + off) (h1 : off % 128 + bs.length ≤ 128)
    (h2 : off + bs.length ≤ min 0x80000 (scratchBytes s t.val)) (h4 : (s.core (.tile t)).sbuf.length < 8) :
    storeReady s (.tile t) a bs.length = (s, true) ∧
    dataWrite s (.tile t) a bs = s.updCore (.tile t) fun k => { k with
      sbuf := k.sbuf ++ [⟨BitVec.ofNat 64 (scratchAddr t.val off), (List.range bs.length).zip bs, .store⟩] } := by
  have hn' : 0 < bs.length := List.length_pos_iff.2 hn
  have hN := toNat_scratch ha hl (by omega)
  have hla : localAddr s a = some l := localAddr_of_toNat hN (by omega)
  have htg := target_scratch hl h2
  have hsp : spans 3 a bs.length = [(a, bs.length)] := spans_one 1 hn' (by rw [wfld_scratch hN hl]; exact h1)
  have e2 : (decide (0xFC00000000 ≤ l) && decide (l < 0xFD00000000)) = true := by
    rw [Bool.and_eq_true, decide_eq_true_eq, decide_eq_true_eq]; constructor <;> omega
  have e3 : l - 0xFC00000000 = off := by omega
  refine ⟨?_, ?_⟩
  · simp only [storeReady, hsp, List.any_cons, List.any_nil, halfReg, hla, htg, Bool.or_false, Bool.false_eq_true, if_false]
  · simp only [dataWrite, hsp, List.foldl_cons, List.foldl_nil, List.take_length]
    simp only [halfWrite, hla, htg, bufferWrite, canonAddr, e2, if_true, e3, if_neg (show ¬ 8 ≤ (s.core (.tile t)).sbuf.length by omega)]

/-- A tile's own window of scratch (R22). -/
theorem target_window {s : State} {own : Option Nat} {t : TileId} {l off n : Nat} (hl : l = 0xFD00000000 + t.val * 0x100000 + off)
    (h : off + n ≤ min 0x80000 (scratchBytes s t.val)) (ho : (s.tile t.val).oos = false) : target s own l n = .scratch t.val off := by
  have ht := t.isLt
  unfold target
  have e1 : ¬ l < 0xF000000000 := by omega
  have e2 : ¬ ((decide (0xFC00000000 ≤ l) && decide (l < 0xFD00000000)) = true) := by
    rw [Bool.and_eq_true, decide_eq_true_eq, decide_eq_true_eq]; omega
  have e3 : (decide (0xFD00000000 ≤ l) && decide (l < 0xFD10000000)) = true := by
    rw [Bool.and_eq_true, decide_eq_true_eq, decide_eq_true_eq]; constructor <;> omega
  have e4 : (l - 0xFD00000000) / 0x100000 = t.val := by omega
  have e5 : (l - 0xFD00000000) % 0x100000 = off := by omega
  rw [if_neg e1, if_neg e2, if_pos e3, e4, e5]
  rw [if_pos (by rw [ho, Bool.not_false, Bool.true_and, decide_eq_true_eq]; omega)]

theorem scratchBytes_eq {s s' : State} {t : Nat} (h : (s.tile t).l1 = (s'.tile t).l1) : scratchBytes s t = scratchBytes s' t := by
  unfold scratchBytes; rw [h]

theorem portWrite_scratch {s : State} {c : CoreId} {a t o : Nat} {bs : List Byte} {full : Bool}
    (h : target s (ownTile c) a bs.length = .scratch t o) : portWrite s c a bs full = (scratchWrite s t o bs, none) := by
  unfold portWrite; rw [h]

theorem coreLoad_scratch {s : State} {c : CoreId} {a t o n : Nat} {m : SMap Byte}
    (h : target s (ownTile c) a n = .scratch t o) (hb : ∀ b ∈ (s.tile t).l1.bad, ¬(o ≤ b ∧ b < o + n)) (h4 : (s.core c).sbuf = [])
    (hm : (s.tile t).l1.scratch = m) : coreLoad s c a n = (s, .ok (readBytes m o n)) := by
  have hp : portRead s c a n = (s, .ok (readBytes (s.tile t).l1.scratch o n)) := by
    unfold portRead; rw [h]; simp only [scratchRead_ok hb]
  have hc : coreRead s c a n = (s, .ok (readBytes (s.tile t).l1.scratch o n)) := by
    unfold coreRead; rw [hp]; simp only [overlay, h4, List.foldl_nil]
  unfold coreLoad
  simp only [h4, List.any_nil, Bool.false_eq_true, if_false, hc, hm]

/-- A part of bytes that were read is what a read of that part gives. -/
theorem readBytes_drop_take (m : SMap Byte) (a i k n : Nat) (h : i + k ≤ n) :
    ((readBytes m a n).drop i).take k = readBytes m (a + i) k := by
  apply List.ext_getElem?
  intro j
  simp only [List.getElem?_take, List.getElem?_drop]
  have hg : ∀ (b n j : Nat), (readBytes m b n)[j]? = if j < n then some (aget 0 m (b + j)) else none := by
    intro b n
    induction n generalizing b with
    | zero => intro j; simp [readBytes]
    | succ n ih =>
      intro j
      cases j with
      | zero => simp [readBytes]
      | succ j => simp only [readBytes, List.getElem?_cons_succ, ih, Nat.add_lt_add_iff_right, Nat.add_assoc, Nat.add_comm 1 j]
  simp only [hg]
  split_ifs <;> first | rfl | omega | (congr 2; omega)

/-- Entry into a handler whose frame lies in the tile's own scratch (R124 to R128). -/
theorem enterLevel_scratch {s : State} {t : TileId} {level off : Nat} {tr : Trap} {epc : Word} (h : FrameIn s t off) :
    enterLevel s (.tile t) level tr epc =
      entryTo s t level tr epc (((if (s.core (.tile t)).status.lvl then (s.core (.tile t)).reg 31 else (s.core (.tile t)).ksp) - 128) &&&
        ~~~(0x7F#64)) off := by
  obtain ⟨hf, h2, ho, hs, hg⟩ := h
  obtain ⟨l, hl⟩ : ∃ l, l = 0xFC00000000 + off := ⟨_, rfl⟩
  rw [← hl] at hf
  obtain ⟨fr, hfr⟩ : ∃ fr, fr = ((if (s.core (.tile t)).status.lvl then (s.core (.tile t)).reg 31 else (s.core (.tile t)).ksp) - 128) &&&
        ~~~(0x7F#64) := ⟨_, rfl⟩
  rw [← hfr] at hf ⊢
  have hN := toNat_scratch hf hl (by omega)
  have hla : localAddr s fr = some l := localAddr_of_toNat hN (by omega)
  have htg := target_scratch (n := 128) hl h2
  have hok : frameOk s (.tile t) fr = true := by
    unfold frameOk; rw [hla]; simp only []; rw [htg]; simp [ownTile]
  have e2 : (decide (0xFC00000000 ≤ l) && decide (l < 0xFD00000000)) = true := by
    rw [Bool.and_eq_true, decide_eq_true_eq, decide_eq_true_eq]; constructor <;> omega
  have e3 : l - 0xFC00000000 = off := by omega
  have hlen : ∀ epc cause addr, (frameBytes s (.tile t) epc cause addr).length = 128 := by
    intro epc cause addr; simp [frameBytes]
  have hw : ∀ bs : List Byte, bs.length = 128 → writeFrame s (.tile t) l bs = scratchWrite s t.val off bs := by
    intro bs hb
    unfold writeFrame
    have hc : canonAddr (.tile t) l = scratchAddr t.val off := by unfold canonAddr; simp only [e2, if_true, e3]
    rw [hc, hs]
    have hp : portWrite s (.tile t) (scratchAddr t.val off) bs false = (scratchWrite s t.val off bs, none) :=
      portWrite_scratch (by rw [hb]; exact target_window (t := t) (by simp only [scratchAddr]) h2 ho)
    simp only [List.any_nil, Bool.false_eq_true, if_false, inGraphRegion, hg, ne_eq, not_true, decide_false, Bool.false_and, hp]
  unfold enterLevel
  simp only [← hfr, hok, hla]
  rw [hw _ (hlen _ _ _)]
  simp only [addSteps_eq, State.updCore_updCore]
  simp only [entryTo, frameBytes, causeWord, vstartOf]
  have hp : ∀ l : List (Nat × Nat), pack ((0, 24) :: l) = pack l := by intro l; simp [pack]
  simp only [hp, hfr]
  rfl

end Sys2Proof.Machine
end

