-- ==== Sys2Proof/Laws/Cipher.lean ====
section
/-! SUPPORT. Sealing and opening: the key stream applied twice gives the bytes back. -/

namespace Sys2Proof.Machine

open Sys2Proof

theorem xorBytes_twice : ∀ xs ys : List Byte, xs.length ≤ ys.length → xorBytes (xorBytes xs ys) ys = xs := by
  intro xs; induction xs with
  | nil => intro ys _; rfl
  | cons x xs ih =>
    intro ys h
    cases ys with
    | nil => simp at h
    | cons y ys =>
      have := ih ys (by simpa using h)
      unfold xorBytes at *
      simp only [List.zipWith_cons_cons]
      rw [this, BitVec.xor_assoc, BitVec.xor_self, BitVec.xor_zero]

theorem length_xorBytes (xs ys : List Byte) : (xorBytes xs ys).length = min xs.length ys.length := by
  unfold xorBytes; exact List.length_zipWith

theorem length_aesRun (ks : List (List Byte)) (b : List Byte) (h : (ks.getD 14 []).length = 16) : (aesRun ks b).length = 16 := by
  unfold aesRun; simp only []; rw [length_xorBytes, h]; unfold shiftRows; simp

theorem gcmStreamAt_step (ks : List (List Byte)) (n : List Byte) (i : Nat) (bs : List Byte) (h : bs ≠ []) :
    gcmStreamAt ks n i bs = xorBytes (bs.take 16) (aesRun ks (gcmCounter n (i + 2))) ++ gcmStreamAt ks n (i + 1) (bs.drop 16) := by
  have hl : 0 < bs.length := List.length_pos_iff.2 h
  unfold gcmStreamAt
  rw [show (bs.length + 15) / 16 = ((bs.drop 16).length + 15) / 16 + 1 from by rw [List.length_drop]; omega, List.range_succ_eq_map,
    List.flatMap_cons, List.flatMap_map]
  congr 1
  apply List.flatMap_congr
  intro k _
  rw [List.drop_drop, show 16 + 16 * k = 16 * (k + 1) by omega, show i + 1 + k + 2 = i + (k + 1) + 2 by omega]

/-- The key stream that sealed bytes opens them. -/
theorem gcmStreamAt_twice (ks : List (List Byte)) (n : List Byte) (h : (ks.getD 14 []).length = 16) : ∀ (m i : Nat) (bs : List Byte), bs.length ≤ m →
    gcmStreamAt ks n i (gcmStreamAt ks n i bs) = bs ∧ (gcmStreamAt ks n i bs).length = bs.length := by
  intro m; induction m with
  | zero => intro i bs hb; rw [List.length_eq_zero_iff.1 (Nat.le_zero.1 hb)]; simp [gcmStreamAt]
  | succ m ih =>
    intro i bs hb
    by_cases e : bs = []
    · rw [e]; simp [gcmStreamAt]
    · obtain ⟨h1, h2⟩ := ih (i + 1) (bs.drop 16) (by have := List.length_pos_iff.2 e; rw [List.length_drop]; omega)
      have ha := length_aesRun ks (gcmCounter n (i + 2)) h
      have hx : (xorBytes (bs.take 16) (aesRun ks (gcmCounter n (i + 2)))).length = min 16 bs.length := by
        rw [length_xorBytes, ha, List.length_take]; omega
      have hlen : (gcmStreamAt ks n i bs).length = bs.length := by
        rw [gcmStreamAt_step ks n i bs e, List.length_append, hx, h2, List.length_drop]; omega
      refine ⟨?_, hlen⟩
      rw [gcmStreamAt_step ks n i (gcmStreamAt ks n i bs) (by intro c; rw [c] at hlen; exact e (List.length_eq_zero_iff.1 hlen.symm)), gcmStreamAt_step ks n i bs e]
      by_cases h16 : 16 ≤ bs.length
      · rw [List.take_append_of_le_length (by omega), List.drop_append_of_le_length (by omega),
          List.take_of_length_le (by omega), List.drop_of_length_le (by omega), List.nil_append, h1, xorBytes_twice _ _ (by rw [ha, List.length_take]; omega),
          List.take_append_drop]
      · have hd : bs.drop 16 = [] := List.drop_of_length_le (by omega)
        rw [hd, show gcmStreamAt ks n (i + 1) [] = [] from rfl, List.append_nil, List.take_of_length_le (by omega : _ ≤ 16), List.drop_of_length_le (by omega : _ ≤ 16),
          show gcmStreamAt ks n (i + 1) [] = [] from rfl, List.append_nil, xorBytes_twice _ _ (by rw [ha, List.length_take]; omega)]
        exact List.take_of_length_le (by omega)

/-- Every word of the key schedule has 4 bytes. -/
theorem length_nextKeyWord (i : Nat) (ws : List (List Byte)) (h : ∀ w ∈ ws, w.length = 4) (h8 : 8 ≤ ws.length) : (nextKeyWord i ws).length = 4 := by
  have hm : ∀ k, k < ws.length → (ws.getD k []).length = 4 := by
    intro k hk; rw [List.getD_eq_getElem _ _ hk]; exact h _ (List.getElem_mem hk)
  have hp : (ws.headD []).length = 4 := by
    have := hm 0 (by omega); cases ws with
    | nil => simp at h8
    | cons w ws => exact this
  have ht : ((ws.headD []).drop 1 ++ (ws.headD []).take 1).length = 4 := by
    rw [List.length_append, List.length_drop, List.length_take, hp]; rfl
  unfold nextKeyWord; simp only []; rw [length_xorBytes, hm 7 (by omega)]
  split_ifs
  · cases e : List.map subByte ((ws.headD []).drop 1 ++ (ws.headD []).take 1) with
    | nil => have := congrArg List.length e; rw [List.length_map, ht] at this; simp at this
    | cons b bs => have := congrArg List.length e; rw [List.length_map, ht] at this; simp only [List.length_cons] at this ⊢; omega
  · rw [List.length_map, hp]; rfl
  · rw [hp]; rfl

theorem keyWords_shape (key : List Byte) (h : key.length = 32) : (∀ w ∈ keyWords key, w.length = 4) ∧ (keyWords key).length = 60 := by
  have go : ∀ (is : List Nat) (ws : List (List Byte)), (∀ w ∈ ws, w.length = 4) → 8 ≤ ws.length →
      (∀ w ∈ is.foldl (fun ws i => nextKeyWord i ws :: ws) ws, w.length = 4) ∧
      (is.foldl (fun ws i => nextKeyWord i ws :: ws) ws).length = ws.length + is.length := by
    intro is; induction is with
    | nil => intro ws h _; exact ⟨h, rfl⟩
    | cons i is ih =>
      intro ws h h8
      obtain ⟨h1, h2⟩ := ih (nextKeyWord i ws :: ws) (by
        intro w hw; rcases List.mem_cons.1 hw with rfl | hw
        · exact length_nextKeyWord i ws h h8
        · exact h w hw) (by simp only [List.length_cons]; omega)
      refine ⟨h1, ?_⟩
      rw [List.foldl_cons, h2]; simp only [List.length_cons]; omega
  unfold keyWords
  obtain ⟨h1, h2⟩ := go ((List.range 52).map (· + 8)) (((List.range 8).map fun i => (key.drop (4 * i)).take 4).reverse) (by
    intro w hw
    simp only [List.mem_reverse, List.mem_map, List.mem_range] at hw
    obtain ⟨i, hi, rfl⟩ := hw
    rw [List.length_take, List.length_drop]; omega) (by simp)
  exact ⟨h1, h2.trans (by simp)⟩

/-- A round key has 16 bytes. -/
theorem roundKeys_last (key : List Byte) (h : key.length = 32) : ((roundKeys key).getD 14 []).length = 16 := by
  obtain ⟨h1, h2⟩ := keyWords_shape key h
  unfold roundKeys; simp only []
  rw [List.getD_eq_getElem _ _ (by simp), List.getElem_map, List.getElem_range, List.length_flatten]
  have : ∀ l : List (List Byte), (∀ w ∈ l, w.length = 4) → (l.map List.length).sum = 4 * l.length := by
    intro l; induction l with
    | nil => intro _; rfl
    | cons a l ih =>
      intro h; simp only [List.map_cons, List.sum_cons, List.length_cons]
      rw [ih fun w hw => h w (List.mem_cons_of_mem _ hw), h a (List.mem_cons_self)]; omega
  rw [this _ fun w hw => h1 w (List.mem_reverse.1 (List.mem_of_mem_drop (List.mem_of_mem_take hw)))]
  simp [h2]

/-- What is sealed under a key opens under it. -/
theorem ezOpen_sealed (key salt : List Byte) (h : EzHeader) (bs : List Byte) (hk : key.length = 32) :
    let n := ezNonce salt h.pn.toNat
    let ct := gcmStream key n bs
    ezOpen key salt h ct (gcmTag key n (ezHdrBytes h) ct) = some bs := by
  intro n ct
  unfold ezOpen; simp only []; rw [if_pos rfl]
  exact congrArg some (gcmStreamAt_twice _ _ (roundKeys_last key hk) _ 0 bs (Nat.le_refl _)).1
end Sys2Proof.Machine
end

