-- ==== Sys2Proof/Laws/Session.lean ====
section
/-! SUPPORT. What the operations of the host transport do to a session and to the ports: one lemma for each. -/

namespace Sys2Proof.Machine

open Sys2Proof

variable (s : State)

@[simp] theorem sess_updSess (i : Nat) (f : Session → Session) : (s.updSess i f).sess i = f (s.sess i) := by
  simp [State.updSess, State.sess]

theorem sess_updSess_ne {i j : Nat} (h : j ≠ i) (f : Session → Session) : (s.updSess i f).sess j = s.sess j := by
  unfold State.sess State.updSess; rw [aget_aput_ne]; exact h

@[simp] theorem sess_hostSend (m : HostOut) (i : Nat) : (hostSend s m).sess i = s.sess i := rfl

theorem reach_host (d : Nat) : (s.reach d).host = s.host := by
  unfold State.reach State.pass; simp only []; split_ifs <;> rfl

/-- A search for a next hop changes no session, and sends at most one frame. -/
theorem resolve_spec (p : Nat) (a : BitVec 128) : ∃ w, w.length ≤ 1 ∧ resolve s p a = { s with host := { s.host with out := s.host.out ++ w } } := by
  unfold resolve
  split
  · exact ⟨[], by simp, by simp⟩
  · simp only []; split_ifs
    · exact ⟨[], by simp, by simp⟩
    · exact ⟨[_], by simp, rfl⟩
    · exact ⟨[_], by simp, rfl⟩

theorem resolve_sess (p i : Nat) (a : BitVec 128) : (resolve s p a).sess i = s.sess i := by
  obtain ⟨w, -, h⟩ := resolve_spec s p a
  rw [h]; rfl

theorem resolves_spec (f : Nat → BitVec 128) (ps : List (Nat × Path)) : ∀ s : State, ∃ w,
    ps.foldl (fun s p => resolve s p.1 (f p.1)) s = { s with host := { s.host with out := s.host.out ++ w } } := by
  induction ps with
  | nil => intro s; exact ⟨[], by simp⟩
  | cons p ps ih =>
    intro s
    obtain ⟨w, -, h⟩ := resolve_spec s p.1 (f p.1)
    obtain ⟨v, k⟩ := ih (resolve s p.1 (f p.1))
    refine ⟨w ++ v, ?_⟩
    rw [List.foldl_cons, k, h, List.append_assoc]

/-- Unsealed packets leave in turn, and nothing else changes. -/
theorem plainOuts_spec (p : Nat) (dst : HostEp) (t : Nat) (sid : BitVec 32) (bs : List (List Byte)) : ∀ s : State,
    bs.foldl (fun s b => plainOut s p dst t sid b) s = { s with host := { s.host with
      out := s.host.out ++ bs.map fun b => .ez (packetOf s 0 p dst (ownHdr t p false sid 0) b []) } } := by
  induction bs with
  | nil => intro s; simp
  | cons b bs ih =>
    intro s
    rw [List.foldl_cons, ih]
    show ({ s with host := _ } : State) = _
    simp only [List.map_cons]
    rw [show plainOut s p dst t sid b = { s with host := { s.host with
      out := s.host.out ++ [.ez (packetOf s 0 p dst (ownHdr t p false sid 0) b [])] } } from rfl]
    simp only [List.append_assoc, List.singleton_append]
    rfl

/-- A sealed packet depends on the session's peer, keys and next number, on its port's VLAN, and on the configuration. -/
theorem sealedPkt_congr {s u : State} {i : Nat} (h1 : (s.sess i).hsid = (u.sess i).hsid) (h2 : (s.sess i).txPn = (u.sess i).txPn)
    (h3 : (s.sess i).txKey = (u.sess i).txKey) (h4 : (s.sess i).txSalt = (u.sess i).txSalt) (h5 : s.host.ports = u.host.ports)
    (h6 : s.start = u.start) (p : Nat) (dst : HostEp) (t : Nat) (b : List Byte) : sealedPkt s i p dst t b = sealedPkt u i p dst t b := by
  unfold sealedPkt packetOf State.hport; simp only [h1, h2, h3, h4, h5, h6]

@[simp] theorem sealOut_sess (i p : Nat) (dst : HostEp) (t : Nat) (b : List Byte) :
    (sealOut s i p dst t b).sess i = { s.sess i with txPn := (s.sess i).txPn + 1, lastTx := s.mono } := by
  unfold sealOut; rw [sess_hostSend, sess_updSess]

theorem sealOut_out (i p : Nat) (dst : HostEp) (t : Nat) (b : List Byte) :
    (sealOut s i p dst t b).host.out = s.host.out ++ [.ez (sealedPkt s i p dst t b)] := rfl

theorem bestPath_congr {s u : State} {x y : Session} (h1 : s.host.ports = u.host.ports) (h2 : x.net = y.net) (h3 : x.eps = y.eps)
    (h4 : x.paths = y.paths) : bestPath s x = bestPath u y := by
  unfold bestPath upPaths pathUp netPorts portUp State.hport; rw [h1, h2, h3, h4]

/-- A session that the module closes is free; its best path has carried the CLOSE. -/
theorem closeSess_spec (i r : Nat) : (closeSess s i r).sess i = { gen := (s.sess i).gen } ∧
    (closeSess s i r).host.out = s.host.out ++ (match bestPath s (s.sess i) with
      | some p => [.ez (sealedPkt s i p (peerOf (s.sess i) p) 6 (beBytes 4 r))]
      | none => []) ∧ (closeSess s i r).host.idle = s.host.idle := by
  unfold closeSess endSess
  cases bestPath s (s.sess i) with
  | none => refine ⟨?_, by simp [State.updSess], rfl⟩; simp [State.sess, State.updSess]
  | some p => refine ⟨?_, rfl, rfl⟩; simp [State.sess, State.updSess, sealOut, hostSend]

/-- A packet that is sent is in flight under the next number. -/
theorem sendOn_spec (i p : Nat) (probe : Bool) (c : List Byte) (again : Bool) (h : (s.sess i).txPn < 2 ^ 48) : let x := s.sess i
    (sendOn s i p probe c again).sess i = { x with
      txPn := x.txPn + 1, lastTx := s.mono
      inFlight := x.inFlight ++ [{ pn := x.txPn, content := c, port := p, at_ := s.mono, again := again, probe := probe }] } ∧
    (sendOn s i p probe c again).host.out = s.host.out ++ [.ez (sealedPkt s i p (peerOf x p) (if probe then 7 else 4) c)] ∧
    (sendOn s i p probe c again).mono = s.mono ∧ (sendOn s i p probe c again).host.ports = s.host.ports := by
  intro x
  have h' : ¬ pnEnd ≤ (s.sess i).txPn := Nat.not_le.2 h
  unfold sendOn; simp only []; rw [if_neg h']
  refine ⟨?_, rfl, rfl, rfl⟩
  rw [sess_updSess, sealOut_sess]

/-- A content leaves on the best path, or waits. -/
theorem sendBest_spec (i : Nat) (c : List Byte) (again : Bool) (h : (s.sess i).txPn < 2 ^ 48) : let x := s.sess i
    match bestPath s x with
    | some p => (sendBest s i c again).sess i = { x with
        txPn := x.txPn + 1, lastTx := s.mono
        inFlight := x.inFlight ++ [{ pn := x.txPn, content := c, port := p, at_ := s.mono, again := again, probe := false }] } ∧
      (sendBest s i c again).host.out = s.host.out ++ [.ez (sealedPkt s i p (peerOf x p) 4 c)]
    | none => sendBest s i c again = s.updSess i fun x => { x with waiting := x.waiting ++ [c] } := by
  intro x
  unfold sendBest
  cases e : bestPath s x with
  | none => rfl
  | some p =>
    obtain ⟨h1, h2, -⟩ := sendOn_spec s i p false c again h
    exact ⟨h1, h2⟩

/-- What an acknowledgement that is owed leaves. -/
theorem sendAck_spec (i : Nat) (h : (s.sess i).txPn < 2 ^ 48) : let x := s.sess i
    match bestPath s x with
    | some p => (sendAck s i).sess i = { x with txPn := x.txPn + 1, lastTx := s.mono, sinceAck := 0 } ∧
      (sendAck s i).host.out = s.host.out ++ [.ez (sealedPkt s i p (peerOf x p) 5
        (ackBytes x.rxCum (2 ^ 21 - heldBytes x) x.ceCount ((runsDown x.rxSeen).take 16)))]
    | none => sendAck s i = s := by
  intro x
  unfold sendAck
  cases e : bestPath s x with
  | none => simp only [show bestPath s (s.sess i) = none from e]
  | some p =>
    simp only [show bestPath s (s.sess i) = some p from e]
    rw [if_neg (show ¬ pnEnd ≤ (s.sess i).txPn from Nat.not_le.2 h)]
    refine ⟨?_, rfl⟩
    rw [sess_updSess, sealOut_sess]

/-- What becomes of a sealed packet that is received: discarded, discarded and counted, or accepted and opened. -/
theorem ezTake_spec (i t : Nat) (h : EzHeader) (b tag : List Byte) (ce : Bool) : let x := s.sess i
    (ezHdrOk h t (msid s i) = false → ezTake s i t h b tag ce = (s, none)) ∧
    (ezHdrOk h t (msid s i) = true →
      (ezOpen x.rxKey x.rxSalt h b tag = none →
        ezTake s i t h b tag ce = ({ s with host := { s.host with auth := sat16 s.host.auth 1 } }, none)) ∧
      ∀ bs, ezOpen x.rxKey x.rxSalt h b tag = some bs →
        (pnStale x h.pn.toNat = true → ezTake s i t h b tag ce = ({ s with host := { s.host with replay := sat16 s.host.replay 1 } }, none)) ∧
        (pnStale x h.pn.toNat = false → ezTake s i t h b tag ce =
          (s.updSess i fun x => { acceptPn s x h.pn.toNat with ceCount := x.ceCount + b2n ce }, some bs))) := by
  intro x
  unfold ezTake
  refine ⟨?_, ?_⟩
  · intro e; simp only [e, Bool.not_false, if_true]
  · intro e
    simp only [e, Bool.not_true, Bool.false_eq_true, if_false]
    refine ⟨?_, ?_⟩
    · intro e2; rw [show ezOpen (s.sess i).rxKey (s.sess i).rxSalt h b tag = none from e2]
    · intro bs e2; rw [show ezOpen (s.sess i).rxKey (s.sess i).rxSalt h b tag = some bs from e2]
      refine ⟨?_, ?_⟩
      · intro e3; simp only []; rw [if_pos (show pnStale (s.sess i) h.pn.toNat = true from e3)]
      · intro e3; simp only []; rw [if_neg (by rw [show pnStale (s.sess i) h.pn.toNat = false from e3]; simp)]

/-! ### Packet numbers -/

theorem mem_insertNat (n : Nat) : ∀ l : List Nat, n ∈ insertNat n l := by
  intro l; induction l with
  | nil => simp [insertNat]
  | cons a l ih => unfold insertNat; split_ifs <;> simp_all

theorem le_advanceCum : ∀ (n c : Nat) (xs : List Nat), c ≤ (advanceCum n c xs).1 := by
  intro n; induction n with
  | zero => intro c xs; exact Nat.le_refl _
  | succ n ih =>
    intro c xs; unfold advanceCum
    cases xs with
    | nil => exact Nat.le_refl _
    | cons a l =>
      simp only []; split_ifs with hc
      · exact Nat.le_trans (Nat.le_succ c) (ih _ _)
      · exact Nat.le_refl _

theorem mem_advanceCum (k : Nat) : ∀ (n c : Nat) (xs : List Nat), k ∈ xs → k < (advanceCum n c xs).1 ∨ k ∈ (advanceCum n c xs).2 := by
  intro n; induction n with
  | zero => intro c xs h; exact .inr h
  | succ n ih =>
    intro c xs h; unfold advanceCum
    cases xs with
    | nil => exact .inr h
    | cons a l =>
      simp only []; split_ifs with hc
      · rcases List.mem_cons.1 h with rfl | h
        · left; subst hc; exact le_advanceCum _ _ _
        · exact ih _ _ h
      · exact .inr h

/-- A number that is accepted is stale from then on. -/
theorem acceptPn_stale (x : Session) (pn ce : Nat) : pnStale { acceptPn s x pn with ceCount := ce } pn = true := by
  have m : pn < (acceptPn s x pn).rxCum ∨ pn ∈ (acceptPn s x pn).rxSeen := mem_advanceCum pn _ _ _ (mem_insertNat pn _)
  unfold pnStale
  rcases m with m | m <;> simp [m]

end Sys2Proof.Machine
end

