-- ==== Sys2Proof/Laws/Vector.lean ====
section
/-! SUPPORT. What the active elements of a vector instruction leave, and the dispatch and start of one. -/

namespace Sys2Proof.Machine

open Sys2Proof

/-! ### Elements -/

theorem readBytes_writeBytes_out (m : SMap Byte) (a b n : Nat) (bs : List Byte) (h : b + n ≤ a ∨ a + bs.length ≤ b) :
    readBytes (writeBytes m a bs) b n = readBytes m b n := by
  apply List.ext_getElem (by rw [readBytes_length, readBytes_length])
  intro i h1 h2
  rw [readBytes_length] at h1
  have e1 := readBytes_getD (writeBytes m a bs) n b i h1
  have e2 := readBytes_getD m n b i h1
  rw [List.getD_eq_getElem?_getD, List.getElem?_eq_getElem (by rw [readBytes_length]; exact h1), Option.getD_some] at e1 e2
  rw [e1, e2, aget_writeBytes_out _ _ _ _ (by omega)]

theorem Vec.el_setEl_self (v : Vec) (r : Reg) (n i x : Nat) : (v.setEl r n i x).el r n i = x % 256 ^ n := by
  simp only [Vec.el, Vec.setEl]
  have h := readBytes_writeBytes v.vregs (2048 * r.toNat + i * n) (toBytes n x)
  rw [toBytes_length] at h
  rw [h, ofBytes_toBytes]

theorem Vec.el_setEl_ne (v : Vec) (r : Reg) (n i j x : Nat) (h : i ≠ j) : (v.setEl r n i x).el r n j = v.el r n j := by
  simp only [Vec.el, Vec.setEl]
  rw [readBytes_writeBytes_out]
  rw [toBytes_length]
  rcases Nat.lt_or_gt_of_ne h with h | h
  · right
    have := Nat.mul_le_mul_right n (show i + 1 ≤ j by omega)
    rw [Nat.add_mul] at this; omega
  · left
    have := Nat.mul_le_mul_right n (show j + 1 ≤ i by omega)
    rw [Nat.add_mul] at this; omega

/-- A write of the elements of a list of places, each from what stood before. -/
theorem elements_foldl (vd : Reg) (n : Nat) (f : Nat → Nat × Fx) : ∀ (act : List Nat) (v : Vec), act.Nodup →
    Elements act v (act.foldl (fun w i => { w.setEl vd n i (f i).1 with csr := w.csr.add (f i).2 }) v) vd n f := by
  intro act
  induction act with
  | nil => intro v _; refine ⟨fun i h => by simp at h, fun b _ => rfl, ?_⟩; simp [flagsOver]
  | cons a act ih =>
    intro v hnd
    obtain ⟨hna, hnd'⟩ := List.nodup_cons.1 hnd
    obtain ⟨h1, h2, h3⟩ := ih { v.setEl vd n a (f a).1 with csr := v.csr.add (f a).2 } hnd'
    rw [List.foldl_cons]
    refine ⟨?_, ?_, ?_⟩
    · intro i hi
      by_cases hia : i ∈ act
      · exact h1 i hia
      · have e : i = a := by simpa [hia] using hi
        subst e
        have hb : ∀ b, 2048 * vd.toNat + i * n ≤ b → b < 2048 * vd.toNat + i * n + n →
            ∀ j ∈ act, b < 2048 * vd.toNat + j * n ∨ 2048 * vd.toNat + j * n + n ≤ b := by
          intro b hb1 hb2 j hj
          have hne : i ≠ j := fun e => hna (e ▸ hj)
          rcases Nat.lt_or_gt_of_ne hne with h | h
          · left; have := Nat.mul_le_mul_right n (show i + 1 ≤ j by omega); rw [Nat.add_mul] at this; omega
          · right; have := Nat.mul_le_mul_right n (show j + 1 ≤ i by omega); rw [Nat.add_mul] at this; omega
        rw [← Vec.el_setEl_self v vd n i (f i).1]
        simp only [Vec.el]
        congr 1
        apply List.ext_getElem (by rw [readBytes_length, readBytes_length])
        intro k hk1 hk2
        rw [readBytes_length] at hk1
        have e1 := readBytes_getD ((act.foldl (fun (w : Vec) i => { w.setEl vd n i (f i).1 with csr := w.csr.add (f i).2 })
          { v.setEl vd n i (f i).1 with csr := v.csr.add (f i).2 }).vregs) n (2048 * vd.toNat + i * n) k hk1
        have e2 := readBytes_getD (v.setEl vd n i (f i).1).vregs n (2048 * vd.toNat + i * n) k hk1
        rw [List.getD_eq_getElem?_getD, List.getElem?_eq_getElem (by rw [readBytes_length]; exact hk1), Option.getD_some] at e1 e2
        rw [e1, e2]
        exact h2 _ (hb _ (by omega) (by omega))
    · intro b hb
      rw [h2 b (fun i hi => hb i (List.mem_cons_of_mem _ hi))]
      simp only [Vec.setEl]
      have := hb a (List.mem_cons_self ..)
      rw [aget_writeBytes_out]
      rw [toBytes_length]; omega
    · rw [h3]
      simp only [Vec.setEl, flagsOver, VCsr.add, List.any_cons, Bool.or_assoc]

theorem actives_nodup (x : VEntry) (v : Vec) (vm : MaskNo) : (x.actives v vm).Nodup := List.nodup_range.filter _

/-- What the active elements of a destination become. -/
theorem vmap_elements (x : VEntry) (v : Vec) (vm : MaskNo) (vd : Reg) (n : Nat) (f : Nat → Nat × Fx) :
    Elements (x.actives v vm) v (vmap x v vm vd n f) vd n f := elements_foldl vd n f _ v (actives_nodup x v vm)

theorem Vec.mask_setMask (v : Vec) (a i m j : Nat) (b : Bool) (hi : i < 16384) (hj : j < 16384) :
    (v.setMask a i b).mask m j = if m = a ∧ m ≠ 0 ∧ j = i then b else v.mask m j := by
  unfold Vec.setMask Vec.mask
  by_cases ha : a = 0
  · subst ha
    simp only [if_true]
    by_cases hm : m = 0 <;> simp [hm]
  · simp only [if_neg ha]
    by_cases hm : m = 0
    · simp [hm]
    · simp only [if_neg hm, aget_aset]
      by_cases h : m = a ∧ j = i
      · rw [if_pos (by omega), if_pos (by omega)]
      · rw [if_neg (by omega), if_neg (by omega)]

theorem masks_foldl (md : Reg) (f : Nat → Bool × Fx) : ∀ (act : List Nat) (v : Vec), act.Nodup → (∀ i ∈ act, i < 16384) →
    MaskBits act v (act.foldl (fun w i => { w.setMask md.toNat i (f i).1 with csr := w.csr.add (f i).2 }) v) md f := by
  intro act
  induction act with
  | nil => intro v _ _; refine ⟨fun m i _ _ => by simp, ?_⟩; simp [flagsOver]
  | cons a act ih =>
    intro v hnd hlt
    obtain ⟨hna, hnd'⟩ := List.nodup_cons.1 hnd
    obtain ⟨h1, h2⟩ := ih { v.setMask md.toNat a (f a).1 with csr := v.csr.add (f a).2 } hnd'
      (fun i hi => hlt i (List.mem_cons_of_mem _ hi))
    rw [List.foldl_cons]
    have hv : ∀ (w : Vec) (c : VCsr) m i, ({ w with csr := c } : Vec).mask m i = w.mask m i := fun _ _ _ _ => rfl
    refine ⟨?_, ?_⟩
    · intro m i hm hi
      rw [h1 m i hm hi, hv, Vec.mask_setMask _ _ _ _ _ _ (hlt a (List.mem_cons_self ..)) hi]
      by_cases hia : i ∈ act
      · have : i ≠ a := fun e => hna (e ▸ hia)
        simp [hia, this]
      · by_cases e : i = a
        · subst e; simp [hia]
        · simp [hia, e]
    · rw [h2]
      unfold Vec.setMask
      split_ifs <;> simp only [flagsOver, VCsr.add, List.any_cons, Bool.or_assoc]

/-- What the active bits of a destination mask become. -/
theorem vmapMask_bits (x : VEntry) (v : Vec) (vm : MaskNo) (md : Reg) (f : Nat → Bool × Fx) (h : x.cfg.vl ≤ 16384) :
    MaskBits (x.actives v vm) v (vmapMask x v vm md.toNat f) md f :=
  masks_foldl md f _ v (actives_nodup x v vm) (fun i hi => by
    have := List.mem_range.1 (List.mem_filter.1 hi).1; omega)

theorem bits_bytes (c : VCfg) : 256 ^ c.bytes = 2 ^ c.bits := by
  unfold VCfg.bytes VCfg.bits; rw [show (256:Nat) = 2 ^ 8 by rfl, ← pow_mul]

theorem ofBytes_readBytes_lt : ∀ (n : Nat) (m : SMap Byte) (a : Nat), ofBytes (readBytes m a n) < 256 ^ n := by
  intro n
  induction n with
  | zero => intro m a; simp [readBytes, ofBytes]
  | succ n ih =>
    intro m a
    simp only [readBytes, ofBytes]
    have := ih m (a + 1); have := (aget 0 m a).isLt; rw [pow_succ]; omega

theorem el_lt (v : Vec) (r : Reg) (c : VCfg) (i : Nat) : v.el r c.bytes i < 2 ^ c.bits := by
  rw [← bits_bytes]; exact ofBytes_readBytes_lt _ _ _

theorem ofInt_nat (w a : Nat) : ofInt w (a : Int) = a % 2 ^ w := by unfold ofInt; norm_cast

theorem ofInt_mod (w : Nat) (a : Int) : ofInt w a % 2 ^ w = ofInt w a := by
  apply Nat.mod_eq_of_lt
  unfold ofInt
  have h : (0 : Int) < (2 ^ w : Nat) := by positivity
  have := Int.emod_lt_of_pos a h
  have := Int.emod_nonneg a (show ((2 ^ w : Nat) : Int) ≠ 0 by omega)
  omega

theorem ofInt_toInt (w a : Nat) : ofInt w (toInt w a) = a % 2 ^ w := by
  unfold toInt
  split_ifs
  · rw [ofInt_nat, Nat.mod_mod]
  · unfold ofInt; rw [Int.sub_emod_right]; norm_cast; rw [Nat.mod_mod]

/-- Values that agree on the active elements. -/
theorem Elements.congr {act : List Nat} {v w : Vec} {vd : Reg} {n : Nat} {f g : Nat → Nat × Fx} (h : Elements act v w vd n f)
    (hfg : ∀ i ∈ act, (f i).1 % 256 ^ n = (g i).1 % 256 ^ n ∧ (f i).2 = (g i).2) : Elements act v w vd n g := by
  obtain ⟨h1, h2, h3⟩ := h
  refine ⟨fun i hi => by rw [h1 i hi, (hfg i hi).1], h2, ?_⟩
  rw [h3]; congr 1
  have : ∀ q : Fx → Bool, (act.any fun i => q (f i).2) = act.any fun i => q (g i).2 := by
    intro q
    rw [Bool.eq_iff_iff, List.any_eq_true, List.any_eq_true]
    constructor
    · rintro ⟨i, hi, h⟩; exact ⟨i, hi, by rw [← (hfg i hi).2]; exact h⟩
    · rintro ⟨i, hi, h⟩; exact ⟨i, hi, by rw [(hfg i hi).2]; exact h⟩
  unfold flagsOver; rw [this Fx.nv, this Fx.dz, this Fx.of, this Fx.uf, this Fx.nx]

/-! ### Reductions -/

theorem Fx.or_assoc (a b c : Fx) : (a.or b).or c = a.or (b.or c) := by simp [Fx.or, Bool.or_assoc]
theorem Fx.or_comm (a b : Fx) : a.or b = b.or a := by simp [Fx.or, Bool.or_comm]
@[simp] theorem Fx.or_none (a : Fx) : a.or {} = a := by simp [Fx.or]
@[simp] theorem Fx.none_or (a : Fx) : Fx.or {} a = a := by simp [Fx.or]

theorem pairs_spec (op : Nat → Nat → Nat × Fx) : ∀ (n : Nat) (l : List Nat), l.length = 2 * n →
    (treeReduce.pairs op l).1.length = n ∧
    ∀ q < n, (treeReduce.pairs op l).1.getD q 0 = (op (l.getD (2 * q) 0) (l.getD (2 * q + 1) 0)).1 := by
  intro n
  induction n with
  | zero => intro l hl; simp at hl; subst hl; simp [treeReduce.pairs]
  | succ n ih =>
    intro l hl
    match l, hl with
    | [], hl => simp at hl
    | [a], hl => simp at hl; omega
    | a :: b :: r, hl =>
      simp only [List.length_cons] at hl
      obtain ⟨h1, h2⟩ := ih r (by omega)
      simp only [treeReduce.pairs, List.length_cons]
      refine ⟨by omega, ?_⟩
      intro q hq
      cases q with
      | zero => simp
      | succ q =>
        have := h2 q (by omega)
        simp only [List.getD_cons_succ, this, Nat.mul_succ]

/-- The flags of one round over a list. -/
def pairFx (op : Nat → Nat → Nat × Fx) (l : List Nat) : Nat → Fx
  | 0 => {}
  | n + 1 => (pairFx op l n).or (op (l.getD (2 * n) 0) (l.getD (2 * n + 1) 0)).2

theorem pairs_fx (op : Nat → Nat → Nat × Fx) : ∀ (n : Nat) (l : List Nat), l.length = 2 * n → (treeReduce.pairs op l).2 = pairFx op l n := by
  have shift : ∀ (n : Nat) (a b : Nat) (r : List Nat), pairFx op (a :: b :: r) (n + 1) = ((op a b).2).or (pairFx op r n) := by
    intro n
    induction n with
    | zero => intro a b r; simp [pairFx]
    | succ n ih =>
      intro a b r
      rw [pairFx, ih, pairFx, Fx.or_assoc]
      simp only [Nat.mul_succ, List.getD_cons_succ]
  intro n
  induction n with
  | zero => intro l hl; simp at hl; subst hl; simp [treeReduce.pairs, pairFx]
  | succ n ih =>
    intro l hl
    match l, hl with
    | [], hl => simp at hl
    | [a], hl => simp at hl; omega
    | a :: b :: r, hl =>
      simp only [List.length_cons] at hl
      simp only [treeReduce.pairs, ih r (by omega), shift]

theorem treeAt_succ (op : Nat → Nat → Nat × Fx) (t : Nat → Nat) (k p : Nat) : treeAt op t (k + 1) p =
    ((op (treeAt op t k p).1 (treeAt op t k (p + 2 ^ k)).1).1,
      (op (treeAt op t k p).1 (treeAt op t k (p + 2 ^ k)).1).2.or ((treeAt op t k p).2.or (treeAt op t k (p + 2 ^ k)).2)) := rfl

theorem treeAt_fst (op : Nat → Nat → Nat × Fx) (t u : Nat → Nat) (h : ∀ q, u q = (op (t (2 * q)) (t (2 * q + 1))).1) :
    ∀ k q, (treeAt op t (k + 1) (2 * q)).1 = (treeAt op u k q).1 := by
  intro k
  induction k with
  | zero => intro q; simp only [treeAt, h, Nat.pow_zero]
  | succ k ih =>
    intro q
    rw [treeAt_succ op t (k + 1), treeAt_succ op u k]
    simp only
    rw [ih q, show 2 * q + 2 ^ (k + 1) = 2 * (q + 2 ^ k) by rw [Nat.pow_succ]; ring, ih]

/-- The flags of one round between two places. -/
def spanFx (op : Nat → Nat → Nat × Fx) (t : Nat → Nat) (q : Nat) : Nat → Fx
  | 0 => {}
  | n + 1 => (spanFx op t q n).or (op (t (2 * (q + n))) (t (2 * (q + n) + 1))).2

theorem spanFx_add (op : Nat → Nat → Nat × Fx) (t : Nat → Nat) (q a : Nat) : ∀ b,
    spanFx op t q (a + b) = (spanFx op t q a).or (spanFx op t (q + a) b) := by
  intro b
  induction b with
  | zero => simp [spanFx]
  | succ b ih => rw [Nat.add_succ, spanFx, ih, spanFx, Fx.or_assoc, Nat.add_assoc]

theorem treeAt_snd (op : Nat → Nat → Nat × Fx) (t u : Nat → Nat) (h : ∀ q, u q = (op (t (2 * q)) (t (2 * q + 1))).1) :
    ∀ k q, (treeAt op t (k + 1) (2 * q)).2 = (spanFx op t q (2 ^ k)).or (treeAt op u k q).2 := by
  intro k
  induction k with
  | zero => intro q; simp [treeAt, spanFx]
  | succ k ih =>
    intro q
    have e : 2 * q + 2 ^ (k + 1) = 2 * (q + 2 ^ k) := by rw [Nat.pow_succ]; ring
    rw [treeAt_succ op t (k + 1), treeAt_succ op u k]
    simp only
    rw [treeAt_fst op t u h, e, treeAt_fst op t u h, ih q, ih (q + 2 ^ k), show 2 ^ (k + 1) = 2 ^ k + 2 ^ k by rw [Nat.pow_succ]; ring,
      spanFx_add]
    simp [Fx.or, Bool.or_assoc, Bool.or_comm, Bool.or_left_comm]

/-- The tree of R184 on a list of 2^k values. -/
theorem treeReduce_eq (op : Nat → Nat → Nat × Fx) : ∀ (k : Nat) (l : List Nat) (t : Nat → Nat), l.length = 2 ^ k →
    (∀ p < 2 ^ k, l.getD p 0 = t p) → ∀ d, (treeReduce op k l).1.headD d = (treeAt op t k 0).1 ∧ (treeReduce op k l).2 = (treeAt op t k 0).2 := by
  intro k
  induction k with
  | zero =>
    intro l t hl ht d
    match l, hl with
    | [a], _ => have := ht 0 (by simp); simp at this; simp [treeReduce, treeAt, this]
  | succ k ih =>
    intro l t hl ht d
    have hl' : l.length = 2 * 2 ^ k := by rw [hl, Nat.pow_succ]; ring
    obtain ⟨p1, p2⟩ := pairs_spec op _ l hl'
    have p3 := pairs_fx op _ l hl'
    have hu : ∀ q < 2 ^ k, (treeReduce.pairs op l).1.getD q 0 = (op (t (2 * q)) (t (2 * q + 1))).1 := by
      intro q hq
      rw [p2 q hq, ht _ (by rw [Nat.pow_succ]; omega), ht _ (by rw [Nat.pow_succ]; omega)]
    obtain ⟨i1, i2⟩ := ih _ (fun q => (op (t (2 * q)) (t (2 * q + 1))).1) p1 hu d
    have f1 := treeAt_fst op t _ (fun q => rfl) k 0
    have f2 := treeAt_snd op t _ (fun q => rfl) k 0
    simp only [Nat.mul_zero] at f1 f2
    have f3 : ∀ n ≤ 2 ^ k, pairFx op l n = spanFx op t 0 n := by
      intro n
      induction n with
      | zero => intro _; rfl
      | succ n ihn =>
        intro hn
        rw [pairFx, spanFx, ihn (by omega), ht _ (by rw [Nat.pow_succ]; omega), ht _ (by rw [Nat.pow_succ]; omega), Nat.zero_add]
    refine ⟨?_, ?_⟩
    · rw [f1, ← i1]; simp [treeReduce]
    · rw [f2, ← i2, ← f3 _ (Nat.le_refl _), ← p3]; simp [treeReduce]

/-! ### Dispatch and start -/

/-- A vector instruction that passes its checks is dispatched. -/
theorem vissue_dispatched {s s1 : State} {t : TileId} {i : Instr} {rs : List Reg} {scal : Word} {wait : State → Bool}
    {body : State → Effect} (h : VReady s t rs wait s1) (hb : body s1 = done (vpush s1 t (ventry s1 t i scal))) :
    vissue t rs wait body s = dispatched s1 t i scal :=
  vissue_completed (g := fun s => vpush s t (ventry s t i scal)) h hb

theorem vcompute_dispatched {s s1 : State} {t : TileId} {i : Instr} {info : VInfo} (h : VReady s t [scalReg i] (stationWait t i) s1)
    (hi : vinfo (s1.tile t.val).vec.cfg i = some info)
    (hc : info.check (s1.tile t.val).vec.cfg (s1.tile t.val).vec.vstart = none) :
    vcompute t i s = .next (dispatched s1 t i ((s1.core (.tile t)).reg (scalReg i))) := by
  unfold vcompute
  rw [vissue_dispatched (i := i) (scal := (s1.core (.tile t)).reg (scalReg i)) h]
  simp only [hi, hc]
  rfl

theorem vecEntry_mem {s : State} {t : TileId} {i : Instr} {scal : Word} :
    vecEntry s t i scal ∈ ((dispatched s t i scal).tile t.val).vec.vq := by
  simp only [dispatched, completed, finished, addSteps_eq, State.updCore_updCore]
  simp only [State.updCore, State.setCore, State.core, vpush, State.updVec, State.updTile, State.tile_setTile, if_true, ventry, vecEntry, pcOf]
  exact List.mem_append_right _ (List.mem_singleton.2 rfl)

theorem tcore_val (t : TileId) : tcore t.val = .tile t := by
  simp only [tcore]; congr 1; apply Fin.ext; simp [Fin.ofNat]

/-- The effect of an instruction that computes on registers. -/
def computes (s : State) (t : TileId) (r : Vec × Option (Reg × Word)) : State :=
  let s := s.updVec t.val fun _ => r.1
  match r.2 with
  | some (rd, w) => ((s.setReg (.tile t) rd w).updCore (.tile t) fun k => k.owe rd.toNat (Config.freeStall s.free)).tick
  | none => s

/-- The start of an entry at the front that computes on registers. -/
theorem start_computes {u : State} {t : TileId} {x : VEntry} {xs : List VEntry} (hp : u.power = .run)
    (hq : (u.tile t.val).vec.vq = x :: xs) (hrun : (u.tile t.val).vec.run = []) (hm : vecMem x = false)
    (hb : seedBlocked u t.val x = false)
    (hi : startOne (u.updVec t.val fun v => { v with vq := xs }) t.val x =
      (computes (u.updVec t.val fun v => { v with vq := xs }) t (vapply x { (u.tile t.val).vec with vq := xs }), none)) :
    let r := vapply x { (u.tile t.val).vec with vq := xs }
    exec (.vectorStart t false) u = .next (started u t x r.1 r.2) := by
  intro r
  have ht : ∀ (a : State) (f : Tile → Tile), (a.updTile t.val f).tile t.val = f (a.tile t.val) := fun a f => by
    simp only [State.updTile, State.tile_setTile, if_true]
  have hr0 : ((u.updVec t.val fun v => { v with vq := xs }).tile t.val).vec.run = [] := by
    simp only [State.updVec, ht, hrun]
  simp only [exec, execVectorStart, if_pos hp, startHead, hq, hb, hm, hr0, hi, Bool.false_eq_true, if_false, Bool.false_or, ne_eq,
    not_true, decide_false]
  congr 1
  have hr : vapply x { (u.tile t.val).vec with vq := xs } = r := rfl
  rw [hr]
  obtain ⟨v, res⟩ := r
  cases res with
  | none =>
    simp only [computes, patrolStep, started, State.updVec, State.updTile_updTile, ht, Bool.false_eq_true, if_false, Option.isSome_none]
    split_ifs <;> rfl
  | some p =>
    obtain ⟨rd, w⟩ := p
    have hs : ∀ (a : State) (f : Tile → Tile) (g : Core → Core), (a.updTile t.val f).updCore (.tile t) g =
        a.updTile t.val fun y => { f y with core := g (f y).core } := fun a f g => by
      simp only [State.updCore, State.setCore, State.core, ht]
      simp only [State.updTile, State.setTile_setTile]
    have htk : ∀ a : State, a.tick.tile t.val = a.tile t.val := fun _ => rfl
    have hfr : ∀ (a : State) (f : Tile → Tile), (a.updTile t.val f).free = a.free := fun a f => rfl
    have htu : ∀ (a : State) (f : Tile → Tile), a.tick.updTile t.val f = (a.updTile t.val f).tick := fun _ _ => rfl
    simp only [computes, patrolStep, started, State.updVec, State.setReg, hs, htk, htu, hfr, State.updTile_updTile, ht,
      Bool.false_eq_true, if_false, Option.isSome_some, if_true]
    split_ifs <;> rfl

theorem startOne_computes {u : State} {t : TileId} {x : VEntry} {info : VInfo} (hi : vinfo x.cfg x.instr = some info) :
    startOne u t.val x = (computes u t (vapply x (u.tile t.val).vec), none) := by
  obtain ⟨i, pc, cfg, rm, vs, sc⟩ := x
  simp only at hi
  unfold startOne computes
  rw [tcore_val]
  split <;> first
    | (exfalso; rename_i e; simp only at e; rw [e] at hi; simp [vinfo] at hi; done)
    | (split <;> simp_all; done)

theorem vinfo_any {i : Instr} {c : VCfg} {info : VInfo} (h : vinfo c i = some info) (c' : VCfg) : ∃ info', vinfo c' i = some info' := by
  revert h; cases i <;> simp [vinfo]

theorem vecMem_computes {x : VEntry} {c : VCfg} {info : VInfo} (h : vinfo c x.instr = some info) : vecMem x = false := by
  obtain ⟨i, pc, cfg, rm, vs, sc⟩ := x
  revert h; cases i <;> simp [vinfo, vecMem]

/-- An instruction that computes on registers completes, with the effect of `vapply`. -/
theorem vruns_of {s s1 : State} {t : TileId} {i : Instr} {info : VInfo} {P : VEntry → Vec → Vec → Prop}
    {res : VEntry → Vec → Option (Reg × Word)} {scal : Word} (h : VReady s t [scalReg i] (stationWait t i) s1)
    (hx : exec i s = vcompute t i s) (hi : vinfo (s1.tile t.val).vec.cfg i = some info)
    (hc : info.check (s1.tile t.val).vec.cfg (s1.tile t.val).vec.vstart = none)
    (hs : scal = (s1.core (.tile t)).reg (scalReg i))
    (hP : ∀ v, let x := vecEntry s1 t i scal
      P x v (vapply x v).1 ∧ (vapply x v).2 = res x v) : VRuns s s1 t i scal P res := by
  subst hs
  refine ⟨?_, vecEntry_mem, ?_⟩
  · rw [hx, vcompute_dispatched h hi hc]
  · intro u xs hp hvq hrun hb v
    refine ⟨_, (hP v).1, ?_⟩
    rw [← (hP v).2]
    obtain ⟨inf, hinf⟩ := vinfo_any hi (vecEntry s1 t i ((s1.core (.tile t)).reg (scalReg i))).cfg
    apply start_computes hp hvq hrun (vecMem_computes hinf) hb
    rw [startOne_computes hinf]
    simp only [State.updVec, State.updTile, State.tile_setTile, if_true]

end Sys2Proof.Machine
end

