-- ==== Sys2Proof/Laws/VecMem.lean ====
section
/-! SUPPORT. Vector loads and stores of the tile's own scratch: what is read, and what is written. -/

namespace Sys2Proof.Machine

open Sys2Proof

/-! ### Reads -/

theorem spans_two {a : Word} {n : Nat} (m : Nat) (h0 : 0 < n) (h : 128 < wfld a 0 7 + n) (hn : n ≤ 128)
    (h2 : wfld (a + BitVec.ofNat 64 (128 - wfld a 0 7)) 0 7 = 0) :
    spans (m + 3) a n = [(a, 128 - wfld a 0 7), (a + BitVec.ofNat 64 (128 - wfld a 0 7), n - (128 - wfld a 0 7))] := by
  have hw : wfld a 0 7 < 128 := by simp only [wfld, fld]; omega
  have hm : min n (128 - wfld a 0 7) = 128 - wfld a 0 7 := by omega
  have hm2 : min (n - (128 - wfld a 0 7)) 128 = n - (128 - wfld a 0 7) := by omega
  simp only [spans, if_neg (show ¬ n = 0 by omega), hm, if_neg (show ¬ n - (128 - wfld a 0 7) = 0 by omega), h2, Nat.sub_zero, hm2,
    Nat.sub_self, if_true]

theorem vreadSpan_scratch {s : State} {t : TileId} {a : Word} {l off m : Nat} (b : LineBuf) (hb : b.st = s)
    (hN : a.toNat = l) (hl : l = 0xFC00000000 + off) (h : off + m ≤ min 0x80000 (scratchBytes s t.val))
    (hbad : ∀ y ∈ (s.tile t.val).l1.bad, ¬(off ≤ y ∧ y < off + m)) :
    vreadSpan b t.val a m = ({ st := s, line := none }, .ok (readBytes (s.tile t.val).l1.scratch off m)) := by
  have hla : localAddr s a = some l := localAddr_of_toNat hN (by omega)
  have htg : target s (some t.val) l m = .scratch t.val off := target_scratch (t := t) hl h
  have hf : (s.tile t.val).l1.bad.filter (fun b => decide (off ≤ b) && decide (b < off + m)) = [] := by
    rw [List.filter_eq_nil_iff]; intro b hb'; have := hbad b hb'; simpa using this
  have hp : portRead s (tcore t.val) l m = (s, .ok (readBytes (s.tile t.val).l1.scratch off m)) := by
    rw [tcore_val]
    have : target s (ownTile (.tile t)) l m = .scratch t.val off := htg
    unfold portRead; rw [this]; simp only [scratchRead, hf]
  unfold vreadSpan
  rw [hb, hla]; simp only []; rw [htg]; simp only [hp]

theorem readBytes_append (m : SMap Byte) (n k : Nat) : ∀ a, readBytes m a n ++ readBytes m (a + n) k = readBytes m a (n + k) := by
  induction n with
  | zero => intro a; simp [readBytes]
  | succ n ih => intro a; rw [Nat.succ_add, readBytes, readBytes, List.cons_append, ← ih (a + 1), Nat.add_assoc, Nat.add_comm 1 n]

theorem vread_scratch {s : State} {t : TileId} {a : Word} {l off n : Nat} (b : LineBuf) (hb : b.st = s) (h0 : 0 < n) (hn : n ≤ 128)
    (hN : a.toNat = l) (hl : l = 0xFC00000000 + off) (h : off + n ≤ min 0x80000 (scratchBytes s t.val))
    (hbad : ∀ y ∈ (s.tile t.val).l1.bad, ¬(off ≤ y ∧ y < off + n)) :
    vread b t.val a n = ({ st := s, line := none }, .ok (readBytes (s.tile t.val).l1.scratch off n)) := by
  have hw : wfld a 0 7 = off % 128 := wfld_scratch hN hl
  unfold vread
  by_cases h1 : off % 128 + n ≤ 128
  · rw [spans_one _ h0 (by rw [hw]; exact h1), List.foldl_cons, List.foldl_nil]
    simp only [vreadSpan_scratch b hb hN hl h hbad, List.nil_append]
  · have hN2 : (a + BitVec.ofNat 64 (128 - off % 128)).toNat = l + (128 - off % 128) := by
      rw [BitVec.toNat_add, hN, BitVec.toNat_ofNat]; omega
    have hz : wfld (a + BitVec.ofNat 64 (128 - off % 128)) 0 7 = 0 := by
      rw [wfld_scratch (off := off + (128 - off % 128)) hN2 (by omega)]; omega
    have hd : ∃ m, n / 128 + 2 = m + 3 ∨ n / 128 = 0 := ⟨n / 128 - 1, by omega⟩
    have hsp : spans (n / 128 + 2) a n = [(a, 128 - off % 128), (a + BitVec.ofNat 64 (128 - off % 128), n - (128 - off % 128))] := by
      by_cases hq : n / 128 = 0
      · rw [hq]
        have hm : min n (128 - off % 128) = 128 - off % 128 := by omega
        have hm2 : min (n - (128 - off % 128)) 128 = n - (128 - off % 128) := by omega
        simp only [spans, if_neg (show ¬ n = 0 by omega), hw, hm, if_neg (show ¬ n - (128 - off % 128) = 0 by omega), hz, Nat.sub_zero, hm2,
          Nat.sub_self]
      · rw [show n / 128 + 2 = (n / 128 - 1) + 3 by omega, spans_two _ h0 (by rw [hw]; omega) hn (by rw [hw]; exact hz), hw]
    rw [hsp, List.foldl_cons, List.foldl_cons, List.foldl_nil]
    simp only [vreadSpan_scratch b hb hN hl (show off + (128 - off % 128) ≤ _ by omega) (fun y hy hc => hbad y hy (by omega)),
      List.nil_append,
      vreadSpan_scratch (s := s) ({ st := s, line := none } : LineBuf) rfl hN2 (show l + (128 - off % 128) = 0xFC00000000 + (off + (128 - off % 128)) by omega)
        (show off + (128 - off % 128) + (n - (128 - off % 128)) ≤ _ by omega) (fun y hy hc => hbad y hy (by omega)), readBytes_append]
    rw [show 128 - off % 128 + (n - (128 - off % 128)) = n by omega]

/-! ### Addresses of elements -/

theorem elAddr_toNat {a : Word} {l off n i : Nat} (ha : a = BitVec.ofNat 64 l) (hl : l = 0xFC00000000 + off) (h : off + i * n ≤ 0x80000) :
    (elAddr a n i).toNat = l + i * n := by
  unfold elAddr
  have hN := toNat_scratch ha hl (by omega)
  have : (BitVec.ofNat 64 (i * n)).toNat = i * n := by rw [BitVec.toNat_ofNat, Nat.mod_eq_of_lt (by omega)]
  rw [BitVec.toNat_add, hN, this, Nat.mod_eq_of_lt (by omega)]

theorem vregion_scratch {s : State} {t : TileId} {a : Word} {l off : Nat} (hN : a.toNat = l) (hl : l = 0xFC00000000 + off)
    (h : off + 1 ≤ min 0x80000 (scratchBytes s t.val)) : vregion s t.val a = true := by
  have hla : localAddr s a = some l := localAddr_of_toNat hN (by omega)
  have htg : target s (some t.val) l 1 = .scratch t.val off := target_scratch (t := t) hl h
  unfold vregion; rw [hla]; simp only []; rw [htg]; simp

theorem vcheck_scratch {s : State} {t : TileId} {a : Word} {l off n : Nat} {st : Bool} (hn : 0 < n) (hN : a.toNat = l)
    (hl : l = 0xFC00000000 + off) (h : off + n ≤ min 0x80000 (scratchBytes s t.val))
    (hp : firstDenied (fun x m => permitted s (.tile t) x m (if st then rightW else rightR)) a n = none) :
    vcheck s t.val a n st = none := by
  have h1 := vregion_scratch hN hl (s := s) (t := t) (by omega)
  have hN2 : (a + BitVec.ofNat 64 (n - 1)).toNat = l + (n - 1) := by rw [BitVec.toNat_add, hN, BitVec.toNat_ofNat]; omega
  have h2 := vregion_scratch hN2 (show l + (n - 1) = 0xFC00000000 + (off + (n - 1)) by omega) (s := s) (t := t) (by omega)
  unfold vcheck
  rw [h1, h2, tcore_val, hp]; rfl

/-! ### A started load -/

/-- The elements that a started load writes. -/
theorem loads_foldl {s : State} {t : TileId} {x : VEntry} {f : VM} {l off : Nat} (ha : x.scal = BitVec.ofNat 64 l)
    (hl : l = 0xFC00000000 + off) (h0 : 0 < x.cfg.bytes) (hn : x.cfg.bytes ≤ 128) :
    ∀ (act : List Nat) (g : Vec → Vec) (ln : Option (Nat × List Byte)),
    (∀ i ∈ act, off + i * x.cfg.bytes + x.cfg.bytes ≤ min 0x80000 (scratchBytes s t.val)) →
    (∀ i ∈ act, ∀ y ∈ (s.tile t.val).l1.bad, ¬(off + i * x.cfg.bytes ≤ y ∧ y < off + i * x.cfg.bytes + x.cfg.bytes)) →
    ∃ ln', act.foldl (vldElem t.val x f) ({ st := s.updVec t.val g, line := ln }, none) =
      ({ st := s.updVec t.val fun v => act.foldl (fun v i =>
          v.setEl f.vt x.cfg.bytes i (ofBytes (readBytes (s.tile t.val).l1.scratch (off + i * x.cfg.bytes) x.cfg.bytes))) (g v), line := ln' }, none) := by
  intro act
  induction act with
  | nil => intro g ln _ _; exact ⟨ln, rfl⟩
  | cons i act ih =>
    intro g ln hin hbad
    have hu : ((s.updVec t.val g).tile t.val).l1 = (s.tile t.val).l1 := by
      simp only [State.updVec, State.updTile, State.tile_setTile, if_true]
    have hsb : scratchBytes (s.updVec t.val g) t.val = scratchBytes s t.val := scratchBytes_eq hu
    have hi := hin i (List.mem_cons_self ..)
    have hv := vread_scratch (s := s.updVec t.val g) (t := t) (a := elAddr x.scal x.cfg.bytes i) (off := off + i * x.cfg.bytes)
      ({ st := s.updVec t.val g, line := ln } : LineBuf) rfl h0 hn
      (elAddr_toNat ha hl (by omega)) (by omega) (by rw [hsb]; exact hi) (by rw [hu]; exact hbad i (List.mem_cons_self ..))
    rw [List.foldl_cons]
    have he : vldElem t.val x f ({ st := s.updVec t.val g, line := ln }, none) i =
        ({ st := s.updVec t.val fun v => (g v).setEl f.vt x.cfg.bytes i (ofBytes (readBytes (s.tile t.val).l1.scratch
            (off + i * x.cfg.bytes) x.cfg.bytes)), line := none }, none) := by
      simp only [vldElem, hv, hu]
      simp only [State.updVec, State.updTile_updTile]
    rw [he]
    obtain ⟨ln', h'⟩ := ih (fun v => (g v).setEl f.vt x.cfg.bytes i (ofBytes (readBytes (s.tile t.val).l1.scratch
        (off + i * x.cfg.bytes) x.cfg.bytes))) none
      (fun j hj => hin j (List.mem_cons_of_mem _ hj)) (fun j hj => hbad j (List.mem_cons_of_mem _ hj))
    exact ⟨ln', h'⟩

/-- Writes of elements that set no flag. -/
theorem setEl_foldl (vd : Reg) (n : Nat) (f : Nat → Nat) (act : List Nat) (v : Vec) (h : act.Nodup) :
    Elements act v (act.foldl (fun v i => v.setEl vd n i (f i)) v) vd n fun i => (f i, {}) := by
  have e : ∀ (l : List Nat) (v : Vec), l.foldl (fun v i => v.setEl vd n i (f i)) v =
      l.foldl (fun w i => { w.setEl vd n i ((fun i => (f i, ({} : Fx))) i).1 with csr := w.csr.add ((fun i => (f i, ({} : Fx))) i).2 }) v := by
    intro l
    induction l with
    | nil => intro v; rfl
    | cons a l ih => intro v; rw [List.foldl_cons, List.foldl_cons, ih]; congr 1; simp [VCsr.add, Vec.setEl]
  rw [e]
  exact elements_foldl vd n _ act v h

/-! ### Writes -/

theorem scratchWrite_cons (s : State) (t o : Nat) (b : Byte) (bs : List Byte) :
    scratchWrite s t o (b :: bs) = scratchWrite (scratchWrite s t o [b]) t (o + 1) bs := by
  unfold scratchWrite
  simp only [State.updTile_updTile, writeBytes, List.filter_filter, List.length_cons, List.length_nil]
  congr 1
  funext x
  congr 3
  funext y
  rw [Bool.eq_iff_iff]
  simp only [Bool.not_eq_true', Bool.and_eq_true, Bool.and_eq_false_iff, decide_eq_true_eq, decide_eq_false_iff_not]
  omega

theorem l1_scratchWrite (s : State) (t o : Nat) (bs : List Byte) : scratchBytes (scratchWrite s t o bs) t = scratchBytes s t ∧
    ((scratchWrite s t o bs).tile t).oos = (s.tile t).oos := by
  simp [scratchBytes, scratchWrite, State.updTile]

/-- Bytes written one by one at offsets of a tile's scratch. -/
def bytewise (s : State) (t : Nat) (qs : List (Nat × Byte)) : State := qs.foldl (fun s q => scratchWrite s t q.1 [q.2]) s

theorem bytewise_keeps (t : Nat) : ∀ (qs : List (Nat × Byte)) (s : State), scratchBytes (bytewise s t qs) t = scratchBytes s t ∧
    ((bytewise s t qs).tile t).oos = (s.tile t).oos := by
  intro qs
  induction qs with
  | nil => intro s; exact ⟨rfl, rfl⟩
  | cons q qs ih =>
    intro s
    obtain ⟨h1, h2⟩ := ih (scratchWrite s t q.1 [q.2])
    obtain ⟨h3, h4⟩ := l1_scratchWrite s t q.1 [q.2]
    exact ⟨h1.trans h3, h2.trans h4⟩

theorem bytewise_append (s : State) (t : Nat) (a b : List (Nat × Byte)) : bytewise s t (a ++ b) = bytewise (bytewise s t a) t b := by
  simp [bytewise, List.foldl_append]

/-- A write of consecutive bytes. -/
theorem scratchWrite_bytewise (t : Nat) : ∀ (qs : List (Nat × Byte)) (s : State) (o : Nat), qs ≠ [] →
    (∀ j q, qs[j]? = some q → q.1 = o + j) → scratchWrite s t o (qs.map (·.2)) = bytewise s t qs := by
  intro qs
  induction qs with
  | nil => intro s o h _; exact absurd rfl h
  | cons q qs ih =>
    intro s o _ hj
    have hq := hj 0 q rfl
    rw [Nat.add_zero] at hq
    cases qs with
    | nil => rw [← hq]; rfl
    | cons q2 qs2 =>
      rw [List.map_cons, scratchWrite_cons, ih _ _ (by simp) (fun j r hr => by rw [hj (j + 1) r (by simpa using hr)]; omega)]
      subst hq; rfl

theorem portWrite_window {s : State} {t : TileId} {a off : Nat} {bs : List Byte} {full : Bool} (ha : a = scratchAddr t.val off)
    (h : off + bs.length ≤ min 0x80000 (scratchBytes s t.val)) (ho : (s.tile t.val).oos = false) :
    portWrite s (tcore t.val) a bs full = (scratchWrite s t.val off bs, none) := by
  rw [tcore_val]
  exact portWrite_scratch (target_window (t := t) (by rw [ha]; rfl) h ho)

theorem runs_bytewise {t : TileId} {A : Nat} (hA : ∀ o, scratchAddr t.val o = A + o) : ∀ (qs : List (Nat × Byte)) (s : State),
    (s.tile t.val).oos = false →
    (∀ q ∈ qs, q.1 + 1 ≤ min 0x80000 (scratchBytes s t.val)) →
    (∀ r ∈ runsOf 0 (qs.map fun q => (A + q.1, q.2)), ∃ o, r.1 = A + o ∧ o + r.2.length ≤ min 0x80000 (scratchBytes s t.val)) ∧
    (runsOf 0 (qs.map fun q => (A + q.1, q.2))).foldl (fun s r => (portWrite s (tcore t.val) r.1 r.2 false).1) s =
      bytewise s t.val qs := by
  intro qs
  induction qs with
  | nil => intro s _ _; exact ⟨fun r hr => by simp [runsOf] at hr, rfl⟩
  | cons q qs ih =>
    intro s ho hin
    have hq := hin q (List.mem_cons_self ..)
    obtain ⟨h3, h4⟩ := l1_scratchWrite s t.val q.1 [q.2]
    obtain ⟨i1, i2⟩ := ih (scratchWrite s t.val q.1 [q.2]) (by rw [h4]; exact ho) (fun r hr => by rw [h3]; exact hin r (List.mem_cons_of_mem _ hr))
    have hw1 : (portWrite s (tcore t.val) (A + q.1) [q.2] false).1 = scratchWrite s t.val q.1 [q.2] := by
      rw [portWrite_window (hA q.1).symm (by simpa using hq) ho]
    have hb : bytewise s t.val (q :: qs) = bytewise (scratchWrite s t.val q.1 [q.2]) t.val qs := rfl
    rw [List.map_cons, runsOf, hb, ← i2]
    rw [h3] at i1
    cases hr : runsOf 0 (qs.map fun q => (A + q.1, q.2)) with
    | nil =>
      simp only [Nat.zero_add]
      refine ⟨?_, ?_⟩
      · intro r hr'
        simp only [List.mem_singleton] at hr'
        subst hr'
        exact ⟨q.1, rfl, by simpa using hq⟩
      · simp only [List.foldl_cons, List.foldl_nil, hw1]
    | cons r0 rest =>
      obtain ⟨a, bs⟩ := r0
      rw [hr] at i1
      simp only [Nat.zero_add]
      obtain ⟨o, ho1, ho2⟩ := i1 (a, bs) (List.mem_cons_self ..)
      simp only at ho1 ho2
      by_cases hadj : A + q.1 + 1 = a
      · rw [if_pos hadj]
        have ho' : o = q.1 + 1 := by omega
        refine ⟨?_, ?_⟩
        · intro r hr'
          simp only [List.mem_cons] at hr'
          rcases hr' with rfl | hr'
          · refine ⟨q.1, rfl, ?_⟩
            simp only [List.length_cons]; omega
          · exact i1 r (List.mem_cons_of_mem _ hr')
        · have hstep : (portWrite s (tcore t.val) (A + q.1) (q.2 :: bs) false).1 =
              (portWrite (scratchWrite s t.val q.1 [q.2]) (tcore t.val) a bs false).1 := by
            rw [portWrite_window (hA q.1).symm (by simp only [List.length_cons]; omega) ho, scratchWrite_cons,
              portWrite_window (off := o) (ho1.trans (hA o).symm) (by rw [h3]; exact ho2) (by rw [h4]; exact ho), ho']
          simp only [List.foldl_cons, hstep]
      · rw [if_neg hadj]
        refine ⟨?_, ?_⟩
        · intro r hr'
          rw [List.mem_cons] at hr'
          rcases hr' with rfl | hr'
          · exact ⟨q.1, rfl, by simpa using hq⟩
          · exact i1 r hr'
        · rw [List.foldl_cons]
          simp only [hw1]

/-- A strictly rising list of numbers below `hi` and from `lo` on. -/
theorem rising_length : ∀ (l : List Nat) (lo hi : Nat), l.Pairwise (· < ·) → (∀ x ∈ l, lo ≤ x ∧ x < hi) → lo ≤ hi → l.length ≤ hi - lo := by
  intro l
  induction l with
  | nil => intro lo hi _ _ _; simp
  | cons a l ih =>
    intro lo hi hp hb hle
    have ha := hb a (List.mem_cons_self ..)
    have := ih (a + 1) hi (List.pairwise_cons.1 hp).2 (fun x hx => ⟨(List.pairwise_cons.1 hp).1 x hx, (hb x (List.mem_cons_of_mem _ hx)).2⟩) (by omega)
    rw [List.length_cons]; omega

theorem rising_full : ∀ (l : List Nat) (lo : Nat), l.Pairwise (· < ·) → (∀ x ∈ l, lo ≤ x ∧ x < lo + l.length) →
    ∀ j x, l[j]? = some x → x = lo + j := by
  intro l
  induction l with
  | nil => intro lo _ _ j x h; simp at h
  | cons a l ih =>
    intro lo hp hb j x h
    have ha := hb a (List.mem_cons_self ..)
    have hl := rising_length l (a + 1) (lo + (a :: l).length) (List.pairwise_cons.1 hp).2
      (fun x hx => ⟨(List.pairwise_cons.1 hp).1 x hx, (hb x (List.mem_cons_of_mem _ hx)).2⟩) (by omega)
    rw [List.length_cons] at hl ha hb
    have e : a = lo := by omega
    subst e
    cases j with
    | zero => simp only [List.getElem?_cons_zero, Option.some.injEq] at h; omega
    | succ j =>
      have := ih (a + 1) (List.pairwise_cons.1 hp).2 (fun x hx => ⟨(List.pairwise_cons.1 hp).1 x hx, by have := (hb x (List.mem_cons_of_mem _ hx)).2; omega⟩) j x (by simpa using h)
      omega

theorem groupLines_flat : ∀ ps : List (Nat × Nat × Byte), (groupLines ps).flatMap (·.2) = ps ∧
    (∀ g ∈ groupLines ps, g.2 ≠ [] ∧ ∀ p ∈ g.2, p.1 / 128 = g.1) := by
  intro ps
  induction ps with
  | nil => exact ⟨rfl, fun g hg => by simp [groupLines] at hg⟩
  | cons p ps ih =>
    obtain ⟨a, e, b⟩ := p
    obtain ⟨h1, h2⟩ := ih
    cases hg : groupLines ps with
    | nil =>
      rw [hg] at h1
      simp only [groupLines, hg]
      simp only [List.flatMap_nil] at h1
      subst h1
      refine ⟨by simp, fun g h => ?_⟩
      simp only [List.mem_singleton] at h
      subst h; simp
    | cons g gs =>
      obtain ⟨l, qs⟩ := g
      rw [hg] at h1 h2
      simp only [groupLines, hg]
      split_ifs with hl
      · refine ⟨by rw [← h1]; simp, fun g h => ?_⟩
        rw [List.mem_cons] at h
        rcases h with rfl | h
        · refine ⟨by simp, fun p hp => ?_⟩
          simp only [List.mem_cons] at hp
          rcases hp with rfl | hp
          · exact hl.symm
          · exact (h2 (l, qs) (List.mem_cons_self ..)).2 p hp
        · exact h2 g (List.mem_cons_of_mem _ h)
      · refine ⟨by rw [← h1]; simp, fun g h => ?_⟩
        rw [List.mem_cons] at h
        rcases h with rfl | h
        · simp
        · exact h2 g h

/-- Bytes at rising addresses of a tile's own window, stored line by line. -/
theorem storeLines_window {t : TileId} (ps : List (Nat × Nat × Byte)) (qs : List (Nat × Byte)) (s : State)
    (he : ps.map (fun p => (p.1, p.2.2)) = qs.map fun q => (scratchAddr t.val q.1, q.2)) (ho : (s.tile t.val).oos = false)
    (hr : (qs.map (·.1)).Pairwise (· < ·)) (hin : ∀ q ∈ qs, q.1 + 1 ≤ min 0x80000 (scratchBytes s t.val)) :
    storeLines s t.val ps = bytewise s t.val qs := by
  obtain ⟨hflat, hg⟩ := groupLines_flat ps
  unfold storeLines
  generalize groupLines ps = gs at hflat hg
  subst hflat
  induction gs generalizing s qs with
  | nil => simp at he; subst he; rfl
  | cons g gs ih =>
    rw [List.flatMap_cons, List.map_append] at he
    obtain ⟨q1, q2, hqq, hm1, hm2⟩ := List.append_eq_map_iff.1 he
    subst hqq
    obtain ⟨hne, hln⟩ := hg g (List.mem_cons_self ..)
    rw [List.map_append, List.pairwise_append] at hr
    rw [bytewise_append, List.foldl_cons]
    obtain ⟨k1, k2⟩ := bytewise_keeps t.val q1 s
    have hgrp : (match g.2 with
      | [] => s
      | p :: _ =>
        if g.2.length = 128 then (portWrite s (tcore t.val) p.1 (g.2.map fun q => q.2.2) true).1
        else (runsOf 0 (g.2.map fun q => (q.1, q.2.2))).foldl (fun s r => (portWrite s (tcore t.val) r.1 r.2 false).1) s) =
        bytewise s t.val q1 := by
      obtain ⟨l, g2⟩ := g
      simp only at hm1 hne hln ⊢
      cases g2 with
      | nil => exact absurd rfl hne
      | cons p g3 =>
        cases q1 with
        | nil => simp at hm1
        | cons q0 q3 =>
          have hp0 : p.1 = scratchAddr t.val q0.1 := by simp at hm1; exact hm1.1.1.symm
          have hlen : (q0 :: q3).length = (p :: g3).length := by have := congrArg List.length hm1; simpa using this
          simp only
          split_ifs with hfull
          · have hmap : (p :: g3).map (fun q => q.2.2) = (q0 :: q3).map (·.2) := by
              have := congrArg (List.map Prod.snd) hm1
              simp only [List.map_map] at this
              exact this.symm
            rw [hmap]
            have hline : ∀ x ∈ (q0 :: q3).map (·.1), q0.1 / 128 * 128 ≤ x ∧ x < q0.1 / 128 * 128 + ((q0 :: q3).map (·.1)).length := by
              have hall : ∀ q ∈ (q0 :: q3), scratchAddr t.val q.1 / 128 = l := by
                intro q hq
                have : (scratchAddr t.val q.1, q.2) ∈ (q0 :: q3).map fun q => (scratchAddr t.val q.1, q.2) := List.mem_map_of_mem hq
                rw [hm1] at this
                obtain ⟨p', hp', hpe⟩ := List.mem_map.1 this
                have := hln p' hp'
                simp only [Prod.mk.injEq] at hpe
                rw [← hpe.1]; exact this
              intro x hx
              obtain ⟨q, hq, rfl⟩ := List.mem_map.1 hx
              have e1 := hall q hq
              have e2 := hall q0 (List.mem_cons_self ..)
              rw [List.length_map, hlen, hfull]
              simp only [scratchAddr] at e1 e2
              omega
            have hcon := rising_full _ _ hr.1 hline
            have h00 := hcon 0 q0.1 (by simp)
            have hlen2 : q0.1 + ((q0 :: q3).map (·.2)).length ≤ min 0x80000 (scratchBytes s t.val) := by
              rw [List.length_map]
              have hlast : (q0 :: q3)[q3.length]? = some ((q0 :: q3).getLast (by simp)) := by
                rw [← List.getLast?_eq_some_getLast, List.getLast?_eq_getElem?]; simp
              have hml := List.getLast_mem (l := q0 :: q3) (by simp)
              have h1 := hin _ (List.mem_append_left _ hml)
              have h2 := hcon q3.length ((q0 :: q3).getLast (by simp)).1 (by rw [List.getElem?_map, hlast]; rfl)
              rw [List.length_cons]
              omega
            rw [portWrite_window hp0 hlen2 ho]
            apply scratchWrite_bytewise _ _ _ _ (by simp)
            intro j q hq
            have := hcon j q.1 (by rw [List.getElem?_map, hq]; rfl)
            omega
          · obtain ⟨A, hA⟩ : ∃ A, ∀ o, scratchAddr t.val o = A + o := ⟨_, fun _ => rfl⟩
            have := (runs_bytewise hA (q0 :: q3) s ho (fun q hq => hin q (List.mem_append_left _ hq))).2
            simp only [← hA] at this
            rw [hm1] at this
            exact this
    refine Eq.trans (congrArg (fun z => List.foldl _ z gs) hgrp) ?_
    exact ih q2 (bytewise s t.val q1) (by rw [k2]; exact ho) hr.2.1 (fun q hq => by rw [k1]; exact hin q (List.mem_append_right _ hq))
      (fun g hg' => hg g (List.mem_cons_of_mem _ hg')) hm2.symm

/-- The scratch after single bytes, and the uncorrectable bytes that remain. -/
def putBytes (m : SMap Byte) (qs : List (Nat × Byte)) : SMap Byte := qs.foldl (fun m q => writeBytes m q.1 [q.2]) m
def badAfter (bad : List Nat) (qs : List (Nat × Byte)) : List Nat := bad.filter fun b => !qs.any fun q => q.1 = b

theorem bytewise_eq (t : Nat) : ∀ (qs : List (Nat × Byte)) (s : State), s.updTile t id = s →
    bytewise s t qs = s.updTile t fun x => { x with l1 := { x.l1 with
      scratch := putBytes x.l1.scratch qs, bad := badAfter x.l1.bad qs } } := by
  intro qs
  induction qs with
  | nil =>
    intro s hs
    refine Eq.trans hs.symm ?_
    have hb : ∀ l : List Nat, badAfter l [] = l := fun l => by simp [badAfter]
    simp only [hb]
    rfl
  | cons q qs ih =>
    intro s hs
    have h1 : (scratchWrite s t q.1 [q.2]).updTile t id = scratchWrite s t q.1 [q.2] := by
      simp only [scratchWrite, State.updTile_updTile, id]
    show bytewise (scratchWrite s t q.1 [q.2]) t qs = _
    rw [ih _ h1]
    have hb : ∀ bad : List Nat, badAfter (bad.filter fun b => !(decide (q.1 ≤ b) && decide (b < q.1 + [q.2].length))) qs =
        badAfter bad (q :: qs) := by
      intro bad
      simp only [badAfter, List.filter_filter, List.any_cons]
      apply List.filter_congr
      intro y _
      rw [Bool.eq_iff_iff]
      simp only [List.length_cons, List.length_nil, Bool.not_eq_true', Bool.and_eq_true, Bool.and_eq_false_iff, decide_eq_true_eq,
        decide_eq_false_iff_not, Bool.or_eq_false_iff]
      constructor
      · rintro ⟨a, b⟩; exact ⟨by omega, a⟩
      · rintro ⟨a, b⟩; exact ⟨b, by omega⟩
    simp only [scratchWrite, State.updTile_updTile, hb]
    rfl

theorem putBytes_out (b : Nat) : ∀ (qs : List (Nat × Byte)) (m : SMap Byte), (∀ q ∈ qs, q.1 ≠ b) → aget 0 (putBytes m qs) b = aget 0 m b := by
  intro qs
  induction qs with
  | nil => intro m _; rfl
  | cons q qs ih =>
    intro m h
    have h0 := h q (List.mem_cons_self ..)
    show aget 0 (putBytes (writeBytes m q.1 [q.2]) qs) b = _
    rw [ih _ (fun r hr => h r (List.mem_cons_of_mem _ hr)), aget_writeBytes_out]
    simp only [List.length_cons, List.length_nil]; omega

theorem putBytes_in : ∀ (qs : List (Nat × Byte)) (m : SMap Byte), (qs.map (·.1)).Pairwise (· < ·) → ∀ q ∈ qs, aget 0 (putBytes m qs) q.1 = q.2 := by
  intro qs
  induction qs with
  | nil => intro m _ q h; simp at h
  | cons r qs ih =>
    intro m hp q hq
    rw [List.map_cons, List.pairwise_cons] at hp
    show aget 0 (putBytes (writeBytes m r.1 [r.2]) qs) q.1 = _
    rw [List.mem_cons] at hq
    rcases hq with rfl | hq
    · rw [putBytes_out]
      · have := aget_writeBytes_in [q.2] m q.1 0 (by simp)
        simpa using this
      · intro r hr; have := hp.1 r.1 (List.mem_map_of_mem hr); omega
    · exact ih _ hp.2 q hq

/-! ### A started store -/

/-- The bytes of the elements `act`, by offset. -/
def elemBytes (off n : Nat) (f : Nat → Nat) (act : List Nat) : List (Nat × Byte) :=
  act.flatMap fun i => (List.range n).map fun j => (off + i * n + j, (toBytes n (f i)).getD j 0)

theorem elemBytes_rising (off n : Nat) (f : Nat → Nat) : ∀ act : List Nat, act.Pairwise (· < ·) →
    ((elemBytes off n f act).map (·.1)).Pairwise (· < ·) := by
  intro act
  induction act with
  | nil => intro _; simp [elemBytes]
  | cons i act ih =>
    intro h
    rw [List.pairwise_cons] at h
    simp only [elemBytes, List.flatMap_cons, List.map_append, List.map_map, List.pairwise_append]
    refine ⟨?_, ih h.2, ?_⟩
    · rw [List.pairwise_map]
      exact List.pairwise_lt_range.imp (fun h => by simp only [Function.comp]; omega)
    · intro a ha b hb
      obtain ⟨j, hj, rfl⟩ := List.mem_map.1 ha
      obtain ⟨q, hq, rfl⟩ := List.mem_map.1 hb
      obtain ⟨k, hk, hq⟩ := List.mem_flatMap.1 hq
      obtain ⟨j2, hj2, rfl⟩ := List.mem_map.1 hq
      have := h.1 k hk
      have hj' := List.mem_range.1 hj
      have := Nat.mul_le_mul_right n (show i + 1 ≤ k by omega)
      rw [Nat.add_mul] at this
      simp only [Function.comp]
      omega

theorem elemBytes_read (off n : Nat) (f : Nat → Nat) (act : List Nat) (m : SMap Byte) (h : act.Pairwise (· < ·)) :
    (∀ i ∈ act, readBytes (putBytes m (elemBytes off n f act)) (off + i * n) n = toBytes n (f i)) ∧
    ∀ b, (∀ i ∈ act, b < off + i * n ∨ off + i * n + n ≤ b) → aget 0 (putBytes m (elemBytes off n f act)) b = aget 0 m b := by
  refine ⟨?_, ?_⟩
  · intro i hi
    apply List.ext_getElem (by rw [readBytes_length, toBytes_length])
    intro j h1 h2
    rw [readBytes_length] at h1
    have e1 := readBytes_getD (putBytes m (elemBytes off n f act)) n (off + i * n) j h1
    rw [List.getD_eq_getElem?_getD, List.getElem?_eq_getElem (by rw [readBytes_length]; exact h1), Option.getD_some] at e1
    rw [e1]
    have := putBytes_in _ m (elemBytes_rising off n f act h) (off + i * n + j, (toBytes n (f i)).getD j 0)
      (List.mem_flatMap.2 ⟨i, hi, List.mem_map.2 ⟨j, List.mem_range.2 h1, rfl⟩⟩)
    rw [this, List.getD_eq_getElem?_getD, List.getElem?_eq_getElem h2, Option.getD_some]
  · intro b hb
    apply putBytes_out
    intro q hq
    obtain ⟨i, hi, hq⟩ := List.mem_flatMap.1 hq
    obtain ⟨j, hj, rfl⟩ := List.mem_map.1 hq
    have := hb i hi
    have := List.mem_range.1 hj
    simp only
    omega

/-- Bytes of elements in the tile's own scratch, by canonical address. -/
theorem elBytes_scratch {s : State} {t : TileId} {a : Word} {l off i : Nat} {bs : List Byte} (hN : a.toNat = l)
    (hl : l = 0xFC00000000 + off) (h : off < 0x80000) :
    elBytes s t.val a i bs = (List.range bs.length).map fun j => (scratchAddr t.val off + j, i, bs.getD j 0) := by
  have hla : localAddr s a = some l := localAddr_of_toNat hN (by omega)
  have e2 : (decide (0xFC00000000 ≤ l) && decide (l < 0xFD00000000)) = true := by
    rw [Bool.and_eq_true, decide_eq_true_eq, decide_eq_true_eq]; constructor <;> omega
  have e3 : l - 0xFC00000000 = off := by omega
  unfold elBytes
  rw [hla, tcore_val]
  simp only [canonAddr, e2, if_true, e3]

theorem writeFails_window {s : State} {t : TileId} {a off : Nat} {full : Bool} (ha : a = scratchAddr t.val off)
    (h : off + 1 ≤ min 0x80000 (scratchBytes s t.val)) (ho : (s.tile t.val).oos = false) : writeFails s t.val a full = none := by
  have htg : target s (some t.val) a 1 = .scratch t.val off := target_window (t := t) (by rw [ha]; rfl) h ho
  unfold writeFails; rw [htg]

theorem storeCut_window {s : State} {t : TileId} (k : Nat) (ps : List (Nat × Nat × Byte)) (qs : List (Nat × Byte))
    (he : ps.map (fun p => (p.1, p.2.2)) = qs.map fun q => (scratchAddr t.val q.1, q.2)) (ho : (s.tile t.val).oos = false)
    (hin : ∀ q ∈ qs, q.1 + 1 ≤ min 0x80000 (scratchBytes s t.val)) : storeCut s t.val k ps = (ps, none) := by
  have hb : storeBad s t.val (groupLines ps) = none := by
    unfold storeBad
    rw [List.findSome?_eq_none_iff]
    intro g hg
    obtain ⟨hflat, _⟩ := groupLines_flat ps
    cases hg2 : g.2 with
    | nil => rfl
    | cons p ps' =>
      have hp : p ∈ ps := by rw [← hflat]; exact List.mem_flatMap.2 ⟨g, hg, by rw [hg2]; exact List.mem_cons_self ..⟩
      have : (p.1, p.2.2) ∈ qs.map fun q => (scratchAddr t.val q.1, q.2) := by rw [← he]; exact List.mem_map.2 ⟨p, hp, rfl⟩
      obtain ⟨q, hq, hqe⟩ := List.mem_map.1 this
      simp only [Prod.mk.injEq] at hqe
      simp only [writeFails_window hqe.1.symm (hin q hq) ho, Option.map_none]
  cases k with
  | zero => rfl
  | succ k => simp only [storeCut, hb]

/-- What a store of elements to the tile's own scratch leaves. -/
theorem stores_scratch {s : State} {t : TileId} {n : Nat} {a : Word} {l off : Nat} (f : Nat → Nat) (act : List Nat) (k : Nat)
    (ha : a = BitVec.ofNat 64 l) (hl : l = 0xFC00000000 + off) (h0 : 0 < n) (hs : s.updTile t.val id = s)
    (ho : (s.tile t.val).oos = false) (hr : act.Pairwise (· < ·))
    (hin : ∀ i ∈ act, off + i * n + n ≤ min 0x80000 (scratchBytes s t.val)) :
    let ps := act.flatMap fun i => elBytes s t.val (elAddr a n i) i (toBytes n (f i))
    storeCut s t.val k ps = (ps, none) ∧
    storeLines s t.val ps = s.updTile t.val fun x => { x with l1 := { x.l1 with
      scratch := putBytes x.l1.scratch (elemBytes off n f act), bad := badAfter x.l1.bad (elemBytes off n f act) } } := by
  intro ps
  obtain ⟨A, hA⟩ : ∃ A, ∀ o, scratchAddr t.val o = A + o := ⟨_, fun _ => rfl⟩
  have he : ps.map (fun p => (p.1, p.2.2)) = (elemBytes off n f act).map fun q => (scratchAddr t.val q.1, q.2) := by
    show (act.flatMap fun i => elBytes s t.val (elAddr a n i) i (toBytes n (f i))).map _ = (act.flatMap _).map _
    rw [List.map_flatMap, List.map_flatMap]
    apply List.flatMap_congr
    intro i hi
    have hi' := hin i hi
    rw [elBytes_scratch (off := off + i * n) (elAddr_toNat ha hl (by omega)) (by omega) (by omega), toBytes_length]
    simp only [List.map_map, Function.comp_def, hA, Nat.add_assoc]
  have hin' : ∀ q ∈ elemBytes off n f act, q.1 + 1 ≤ min 0x80000 (scratchBytes s t.val) := by
    intro q hq
    obtain ⟨i, hi, hq⟩ := List.mem_flatMap.1 hq
    obtain ⟨j, hj, rfl⟩ := List.mem_map.1 hq
    have := hin i hi
    have := List.mem_range.1 hj
    simp only
    omega
  refine ⟨storeCut_window k ps _ he ho hin', ?_⟩
  rw [storeLines_window ps _ s he ho (elemBytes_rising off n f act hr) hin', bytewise_eq _ _ _ hs]

/-- A started `vld` of the tile's own scratch. -/
theorem startVld_scratch {u : State} {t : TileId} {x : VEntry} {f : VM} {l off : Nat} {g : Vec → Vec}
    (ha : x.scal = BitVec.ofNat 64 l) (hl : l = 0xFC00000000 + off)
    (hin : ∀ i ∈ x.actives (g (u.tile t.val).vec) f.vm, off + i * x.cfg.bytes + x.cfg.bytes ≤ min 0x80000 (scratchBytes u t.val))
    (hbad : ∀ i ∈ x.actives (g (u.tile t.val).vec) f.vm, ∀ y ∈ (u.tile t.val).l1.bad,
      ¬(off + i * x.cfg.bytes ≤ y ∧ y < off + i * x.cfg.bytes + x.cfg.bytes)) :
    startVld (u.updVec t.val g) t.val x f = (u.updVec t.val fun v =>
      (x.actives (g (u.tile t.val).vec) f.vm).foldl (fun v i =>
        v.setEl f.vt x.cfg.bytes i (ofBytes (readBytes (u.tile t.val).l1.scratch (off + i * x.cfg.bytes) x.cfg.bytes))) (g v), none) := by
  have hb : 0 < x.cfg.bytes ∧ x.cfg.bytes ≤ 128 := by
    unfold VCfg.bytes
    have h := x.cfg.ew.isLt
    exact ⟨by positivity, (Nat.pow_le_pow_right (by omega) (show x.cfg.ew.toNat ≤ 7 by omega))⟩
  have hu : ((u.updVec t.val g).tile t.val).l1 = (u.tile t.val).l1 := by
    simp only [State.updVec, State.updTile, State.tile_setTile, if_true]
  have hv : ((u.updVec t.val g).tile t.val).vec = g (u.tile t.val).vec := by
    simp only [State.updVec, State.updTile, State.tile_setTile, if_true]
  obtain ⟨ln, h⟩ := loads_foldl (s := u) (t := t) (f := f) (off := off) ha hl hb.1 hb.2 (x.actives (g (u.tile t.val).vec) f.vm) g none
    hin hbad
  have hnote : vldNote (u.updVec t.val g) t.val x f = u.updVec t.val g := by
    unfold vldNote
    rw [hv]
    cases hh : (x.actives (g (u.tile t.val).vec) f.vm).head? with
    | none => rfl
    | some i =>
      have hi' := hin i (List.mem_of_mem_head? hh)
      have hN := elAddr_toNat (n := x.cfg.bytes) (i := i) ha hl (by omega)
      have e1 : localAddr (u.updVec t.val g) (elAddr x.scal x.cfg.bytes i) = some (l + i * x.cfg.bytes) := localAddr_of_toNat hN (by omega)
      have e2 : target (u.updVec t.val g) (some t.val) (l + i * x.cfg.bytes) 1 = .scratch t.val (off + i * x.cfg.bytes) :=
        target_scratch (t := t) (by omega) (by rw [scratchBytes_eq hu]; omega)
      simp only [e1, e2]
  unfold startVld
  simp only [hnote, hv]
  exact Prod.ext (congrArg (fun r : LineBuf × Option (Nat × Word × AccErr) => r.1.st) h) (congrArg (fun r : LineBuf × Option (Nat × Word × AccErr) => r.2) h)

theorem actives_rising (x : VEntry) (v : Vec) (vm : MaskNo) : (x.actives v vm).Pairwise (· < ·) := List.pairwise_lt_range.filter _

/-- A started `vst` to the tile's own scratch. -/
theorem startVst_scratch {u : State} {t : TileId} {x : VEntry} {f : VM} {l off : Nat}
    (ha : x.scal = BitVec.ofNat 64 l) (hl : l = 0xFC00000000 + off) (hs : u.updTile t.val id = u) (ho : (u.tile t.val).oos = false)
    (hin : ∀ i ∈ x.actives (u.tile t.val).vec f.vm, off + i * x.cfg.bytes + x.cfg.bytes ≤ min 0x80000 (scratchBytes u t.val)) :
    startVst u t.val x f = (u.updTile t.val fun y => { y with l1 := { y.l1 with
      scratch := putBytes y.l1.scratch (elemBytes off x.cfg.bytes ((u.tile t.val).vec.el f.vt x.cfg.bytes) (x.actives (u.tile t.val).vec f.vm))
      bad := badAfter y.l1.bad (elemBytes off x.cfg.bytes ((u.tile t.val).vec.el f.vt x.cfg.bytes) (x.actives (u.tile t.val).vec f.vm)) } }, none) := by
  have hb : 0 < x.cfg.bytes := by unfold VCfg.bytes; positivity
  obtain ⟨h1, h2⟩ := stores_scratch (s := u) (t := t) (off := off) ((u.tile t.val).vec.el f.vt x.cfg.bytes)
    (x.actives (u.tile t.val).vec f.vm) 8 ha hl hb hs ho (actives_rising x _ f.vm) hin
  unfold startVst
  simp only [h1, h2, Option.map_none]

end Sys2Proof.Machine
end

