-- ==== Sys2Proof/Tests/Slice0.lean ====
section
/-! SUPPORT. Named tests: words of the spec's encodings decoded, the smoke test of WellFormed, and for each statement a state and operands that meet its hypotheses. -/

open Sys2Proof Sys2Proof.Machine

/-! ### States for the witnesses -/

/-- The fetch window of a core that is full of zeros from the pc on, so that the fetch of an instruction reads nothing. -/
def full (k : Core) : Core := { k with fwin := some (k.pc, List.replicate 36 0) }

/-- Service core 0, which runs after reset, with its registers as given. -/
def svcWith (f : Core → Core) : State := State.reset.updCore (.svc 0) fun k => full (f k)

/-- Tile 0 running, with the rest of the tile as given. -/
def tileWith (f : Tile → Tile) : State := State.reset.updTile 0 fun x => f { x with core := full { x.core with run := .running } }

/-- Tile 0 running, with its core as given. -/
def tileCore (f : Core → Core) : State := tileWith fun x => { x with core := f x.core }

/-- Tile 0 running, with its vector unit configured for eight elements of a width. -/
def tileVec (ew : BitVec 2) (f : Vec → Vec) : State := tileWith fun x => { x with vec := f { x.vec with cfg := { ew := ew, vl := 8 } } }

/-- A core that may issue, that no older vector instruction holds back and whose instruction can be fetched issues. -/
theorem ready_of {s : State} {c : CoreId} {rs : List Reg} {len : Nat} {xs : List Nat} {sync : Bool} (h1 : mayIssueReg s c rs = true)
    (hq : Quiet s c) (h3 : (match (fetch s c len).2 with | .ok _ => true | .error _ => false) = true) :
    Ready s c rs len (prep s c (rs.map (·.toNat) ++ xs) len).1 xs sync := by
  unfold Ready prep
  rcases hf : fetch s c len with ⟨u, e | bs⟩
  · rw [hf] at h3; cases h3
  · exact ⟨h1, s, bs, olderRun_quiet hq sync, by rw [hf]⟩

/-- The state in which the effect of an instruction that reads `rs` starts. -/
abbrev atIssue (s : State) (c : CoreId) (rs : List Reg) (len : Nat) (xs : List Nat := []) : State := (prep s c (rs.map (·.toNat) ++ xs) len).1

/-- A core issues: service core 0 after reset, for every register list, every length and every further key. -/
theorem test_ready_service (rs : List Reg) (xs : List Nat) (sync : Bool) : ∀ len ∈ [2, 4, 6],
    Ready (svcWith id) (.svc 0) rs len (atIssue (svcWith id) (.svc 0) rs len xs) xs sync := by
  have h : ∀ rs : List Reg, (rs.any (owed (svcWith id) (.svc 0))) = false := by
    intro rs; induction rs with
    | nil => rfl
    | cons r rs ih => rw [List.any_cons, ih]; rfl
  have hc : canIssue (svcWith id) (.svc 0) = true := by decide
  intro len hl
  have hf : ∀ len ∈ [2, 4, 6], (match (fetch (svcWith id) (.svc 0) len).2 with | .ok _ => true | .error _ => false) = true := by decide
  exact ready_of (by rw [mayIssueReg, h, hc]; rfl) trivial (hf len hl)

theorem test_ready_tile : ∀ len ∈ [2, 4, 6], ∀ rs ∈ [[], [0], [1], [31], [1, 2], [2, 3], [1, 2, 3]], ∀ xs sync,
    Ready (tileWith id) (.tile 0) rs len (atIssue (tileWith id) (.tile 0) rs len xs) xs sync ∧ Quiet (tileWith id) (.tile 0) := by
  intro len hl rs hr xs sync
  have hm : ∀ rs ∈ [[], [0], [1], [31], [1, 2], [2, 3], [1, 2, 3]], mayIssueReg (tileWith id) (.tile 0) rs = true := by decide
  have hf : ∀ len ∈ [2, 4, 6], (match (fetch (tileWith id) (.tile 0) len).2 with | .ok _ => true | .error _ => false) = true := by decide
  exact ⟨ready_of (hm rs hr) ⟨rfl, rfl⟩ (hf len hl), rfl, rfl⟩
/-! ### Witnesses of the statements about the cores -/

/-- O1, O2: operands of every form on a core that issues. -/
theorem test_witness_alu (f : AluForm) (m : AluTime) (k : Core) :
    AluReady (svcWith id) (.svc 0) (aluArgs k f).srcs (aluLen f) (atIssue (svcWith id) (.svc 0) (aluArgs k f).srcs (aluLen f) m.keys) m :=
  test_ready_service _ _ _ _ (by cases f <;> simp [aluLen])

/-- O3: shift amounts that are legal and not; O5: rs2 that must be s0 and is not. -/
theorem test_witness_shift : shiftLegal (.short 1 0) = true ∧ (∃ f : LISh, f.mbz = 0) ∧ (∃ f : LISh, f.mbz ≠ 0) ∧ (∃ f : LR, f.rs2 ≠ 0) ∧
    (∃ s1, AluReady (svcWith id) (.svc 0) [1] 4 s1 ∧ Quiet s1 (.svc 0)) :=
  ⟨by decide, ⟨⟨1, 2, false, 0, 63⟩, rfl⟩, ⟨⟨1, 2, false, 1, 63⟩, by decide⟩, ⟨⟨1, 2, 3, false⟩, by decide⟩,
    ⟨_, test_ready_service _ _ _ _ (by decide), trivial⟩⟩

/-- O4: the divisor is zero, the quotient overflows, and neither. -/
theorem test_witness_divide :
    let s := fun (a b : Word) => svcWith fun k => (k.setReg 2 a).setReg 3 b
    let k := fun (a b : Word) => (atIssue (s a b) (.svc 0) [2, 3] 4 [keyDiv]).core (.svc 0)
    (lrArgs (k 5 0) ⟨1, 2, 3, true⟩).y = 0 ∧
    (lrArgs (k 0x8000000000000000 (BitVec.allOnes 64)) ⟨1, 2, 3, true⟩).x.toInt = -(2 ^ 63) ∧
    (lrArgs (k 0x8000000000000000 (BitVec.allOnes 64)) ⟨1, 2, 3, true⟩).y.toInt = -1 ∧
    (lrArgs (k 0x8000000000000000 1) ⟨1, 2, 3, true⟩).y ≠ 0 ∧
    AluReady (s 5 0) (.svc 0) [2, 3] 4 (atIssue (s 5 0) (.svc 0) [2, 3] 4 [keyDiv]) { lat := 34, div := true } := by
  refine ⟨by decide, by decide, by decide, by decide, ready_of (by decide) trivial (by decide)⟩

/-- Tile 0 running at kernel level with 32 KiB of scratch and s1 at offset 16 of it. -/
def memTile : State := tileWith fun x => { x with l1 := { x.l1 with sways := 1 }, core := x.core.setReg 1 0xFC00000010 }

/-- The same at task level, with one window, which lets the code of the first 4 KiB run. -/
def taskTile : State := tileWith fun x => { x with core := { x.core.setReg 1 0xFC00000010 with
  status := { bs := false, ml := 0, lvl := false }, pwinLo := [(0, 12)], pwinHi := [(0, 0x1000)] } }

/-- O6, O7: a load and a store of the tile's own scratch that may be made, and at task level ones that may not. -/
theorem test_witness_memory :
    let s1 := atIssue memTile (.tile 0) [1, 2] 2
    let u1 := atIssue taskTile (.tile 0) [1, 2] 2
    Ready memTile (.tile 0) [1, 2] 2 s1 ∧ (ldArgs (s1.core (.tile 0)) (.shortD 2 1)).addr = BitVec.ofNat 64 (0xFC00000000 + 16) ∧
    winTrap s1 (.tile 0) 0xFC00000010 8 rightR cLoadWin = none ∧ winTrap s1 (.tile 0) 0xFC00000010 8 rightW cStoreWin = none ∧
    16 + 8 ≤ min 0x80000 (scratchBytes s1 0) ∧ (s1.core (.tile 0)).sbuf = [] ∧ (s1.tile 0).l1.bad = [] ∧
    Ready taskTile (.tile 0) [1, 2] 2 u1 ∧ Quiet u1 (.tile 0) ∧
    (winTrap u1 (.tile 0) 0xFC00000010 8 rightR cLoadWin).isSome = true ∧
    (winTrap u1 (.tile 0) 0xFC00000010 8 rightW cStoreWin).isSome = true := by
  refine ⟨ready_of (by decide) ⟨rfl, rfl⟩ (by decide), by decide, by decide, by decide, by decide, by decide, by decide,
    ready_of (by decide) ⟨rfl, rfl⟩ (by decide), ⟨by rfl, by rfl⟩, by decide, by decide⟩

/-- O6, O7: the general clauses: the read gives bytes, and the buffer has room. -/
theorem test_witness_memory_general :
    let s1 := atIssue memTile (.tile 0) [1, 2] 2
    isRemote s1 0xFC00000010 = false ∧
    (dataRead s1 (.tile 0) 0xFC00000010 8).2 = .ok [0, 0, 0, 0, 0, 0, 0, 0] ∧
    (storeReady s1 (.tile 0) 0xFC00000010 8).2 = true := by
  refine ⟨by rfl, by rfl, by rfl⟩

/-- O8: a condition that holds, one that does not, codes that are none; targets that are aligned and not. -/
theorem test_witness_branch :
    let s := svcWith fun k => k.setReg 2 7
    let k := (atIssue s (.svc 0) [2] 2).core (.svc 0)
    condHolds (bccCond (.short 1 3)) k.fl = true ∧ condHolds (bccCond (.short 0 3)) k.fl = false ∧
    14 ≤ (bccCond (.long 14 3)).toNat ∧ (k.pc + bccDisp (.short 1 3)).getLsbD 0 = false ∧
    k.reg 2 = 7 ∧ (7#64).getLsbD 0 = true ∧ Ready s (.svc 0) [2] 2 (atIssue s (.svc 0) [2] 2) ∧
    Ready (svcWith id) (.svc 0) [] 4 (atIssue (svcWith id) (.svc 0) [] 4 [keyFl]) [keyFl] := by
  refine ⟨by decide, by decide, by decide, by decide, by decide, by decide, ready_of (by decide) trivial (by decide),
    test_ready_service _ _ _ _ (by decide)⟩

/-- O9: a loop that goes round, and one that is over. -/
theorem test_witness_loop : let k : Core := { lc := [(2, 5)], le := [(2, 0x40)] }
    1 < (aget 0 k.lc 2).toNat ∧ aget 0 k.le 2 = 0x40 ∧ (∀ j, 2 < j → j < 4 → aget 0 k.le j = 0x40 → (aget 0 k.lc j).toNat ≤ 1) ∧
    (∀ j < 4, aget 0 k.le j = 0x44 → (aget 0 k.lc j).toNat ≤ 1) := by
  refine ⟨by decide, by decide, ?_, by decide⟩
  intro j h1 h2; have : j = 3 := by omega
  subst this; decide

/-- Tile 0 at kernel level whose string registers name the same place of its scratch. -/
def strTile (n : Word) : State :=
  tileWith fun x => { x with l1 := { x.l1 with sways := 1 }, core := ((x.core.setReg 1 0xFC00000010).setReg 2 0xFC00000020).setReg 3 n }

/-- O10: strings of no element, of one, and of equal elements. -/
theorem test_witness_strings :
    ((strTile 0).core (.tile 0)).reg 3 = 0 ∧ ((strTile 1).core (.tile 0)).reg 3 ≠ 0 ∧
    (let s1 := atIssue (strTile 1) (.tile 0) [1, 2, 3] 4
     Ready (strTile 1) (.tile 0) [1, 2, 3] 4 s1 ∧ strPerm .set 8 s1 (.tile 0) = none ∧
     strPerm .mov 8 s1 (.tile 0) = none ∧ strPerm .cmp 8 s1 (.tile 0) = none ∧
     storeReady s1 (.tile 0) 0xFC00000010 8 = (s1, true) ∧
     (strLoad s1 (.tile 0) 0xFC00000020 8).2 = .ok [0, 0, 0, 0, 0, 0, 0, 0] ∧ ((strLoad s1 (.tile 0) 0xFC00000020 8).1).reg (.tile 0) 1 = 0xFC00000010 ∧
     (strLoad s1 (.tile 0) 0xFC00000010 8).2 = .ok [0, 0, 0, 0, 0, 0, 0, 0]) ∧
    (let s1 := atIssue (strTile 1) (.tile 0) [1, 2, 3] 6
     let r := strRun .set 8 (.tile 0) 1 s1 0
     Ready (strTile 1) (.tile 0) [1, 2, 3] 6 s1 ∧ (match r.2.1 with | .more => true | _ => false) = true ∧ r.1.reg (.tile 0) 3 = 0) := by
  refine ⟨by decide, by decide, ⟨ready_of (by decide) ⟨rfl, rfl⟩ (by decide), by decide, by decide, by decide, by rfl, by rfl, by rfl, by rfl⟩,
    ready_of (by decide) ⟨rfl, rfl⟩ (by decide), by rfl, by rfl⟩

/-- O11: registers that task level may read, that only kernel level may, and that are none; timers free and busy. -/
theorem test_witness_registers :
    srFault (State.reset.core (.svc 0)) (srClass (.svc 0) 0x101) 0x101 false = none ∧ srClass (.svc 0) 0x3FFF = .none ∧
    srClass (.svc 0) 0x104 = .kernel ∧ (State.reset.core (.svc 0)).status.lvl = true ∧
    (taskTile.core (.tile 0)).status.lvl = false ∧ (aget {} (State.reset.core (.svc 0)).t0 0).busy = false ∧
    State.reset.mono < (5#64).toNat ∧ (State.reset.core (.tile 0)).run ≠ .running ∧ (tileWith id).power = .run ∧
    ((tileCore fun k => { k with run := .halted }).core (.tile 0)).run = .halted := by
  refine ⟨by decide, by decide, by decide, by decide, by decide, by decide, by decide, by decide, rfl, by decide⟩

/-- Tile 0 at kernel level with its stack in its own scratch, and `k` of its core. -/
def frameTile (f : Core → Core) : State :=
  tileWith fun x => { x with l1 := { x.l1 with sways := 1 }, core := f { x.core.setReg 31 0xFC00000080 with status := { bs := false, ml := 0, lvl := true } } }

/-- O12: a frame in the scratch, an event above the mask level, and the operands of `mset`. -/
theorem test_witness_traps :
    FrameIn (frameTile id) 0 0 ∧ ((frameTile id).core (.tile 0)).status.ml ≠ 7 ∧
    (let s := frameTile fun k => { k with ien := 0x10, ipFe := true }
     coreReady s (.tile 0) = true ∧ Quiet s (.tile 0) ∧ (s.taskq 0).parked.contains 0 = false ∧ canIssue s (.tile 0) = false ∧ (ipend s (.tile 0) &&& (s.core (.tile 0)).ien).getLsbD 4 = true ∧
     (∀ m, 4 < m → m ≤ 6 → (ipend s (.tile 0) &&& (s.core (.tile 0)).ien).getLsbD m = false)) ∧
    (0x71#64) &&& ~~~(0x71#64) = 0 ∧ (0x80#64) &&& ~~~(0x71#64) ≠ 0 ∧
    (wordOf (readBytes ((frameTile id).tile 0).l1.scratch 0 8)).getLsbD 0 = false ∧ (frameTile id).fe.ptasks = [] := by
  refine ⟨by unfold FrameIn; decide, by decide, ⟨by decide, ⟨by rfl, by rfl⟩, by decide, by decide, by decide, ?_⟩, by decide, by decide, by decide, rfl⟩
  intro m h1 h2; have : m = 5 ∨ m = 6 := by omega
  rcases this with rfl | rfl <;> decide

/-- O13: the sampler on with an idle and with a busy timer, the watchdog due for the first and the second time. -/
theorem test_witness_timers :
    (let k := (svcWith fun k => { k with profEn := true, profPeriod := 5, t0 := [(0, { busy := true, deadline := 0 })] }).core (.svc 0)
     k.profEn = true ∧ k.profPeriod ≠ 0 ∧ (∃ p ∈ k.t0, p.2.busy = true) ∧ (aget {} k.t0 0).waitq = false) ∧
    (let k := (svcWith fun k => { k with t1en := true, t1due := 0, ipWdog := true }).core (.svc 0)
     k.t1en = true ∧ k.t1due ≤ State.reset.mono ∧ k.ipWdog = true) ∧ State.reset.tu.steer = 0 ∧ State.reset.power = .run ∧
    (State.reset.tile 0).oos = false := by
  refine ⟨⟨by decide, by decide, ?_, by decide⟩, ⟨by decide, by decide, by decide⟩, rfl, rfl, rfl⟩
  exact ⟨(0, { busy := true, deadline := 0 }), by decide, rfl⟩

/-- O14: references present and lost, sources of each kind. -/
theorem test_witness_time :
    State.reset.tu.ref0 = true ∧ State.reset.tu.ref1 = true ∧ (∃ g : Nat, g ≠ 31) ∧ State.reset.power = .run ∧
    ({ State.reset.tu with ppsSeen := true, ppsOut := false, src := 2 }).src ≠ 0 ∧
    (({ state := 3, ptp := true } : HostPort).state = 3) := by
  refine ⟨by decide, by decide, ⟨0, by decide⟩, rfl, by decide, rfl⟩

/-- O15: a tile has the engine; its state open and closed. -/
theorem test_witness_hash :
    hasHash (.tile 0) = true ∧ hasHash (.svc 0) = false ∧ ((tileWith id).core (.tile 0)).hash.closed = false ∧
    ((tileCore fun k => { k with hash := { k.hash with closed := true } }).core (.tile 0)).hash.closed = true ∧
    ((tileCore fun k => k.setReg 1 2).core (.tile 0)).reg 1 = 2 ∧
    (hashRead (atIssue memTile (.tile 0) [1, 2] 4) (.tile 0) 0xFC00000010 1).2 = .ok [0] ∧
    firstDenied (fun x m => permitted (atIssue memTile (.tile 0) [1, 2] 4) (.tile 0) x m rightW) 0xFC00000010 208 = none := by
  refine ⟨by decide, by decide, by decide, by decide, by decide, by rfl, by rfl⟩

/-! ### Witnesses of the statements about the coprocessors -/

def vr : VR := ⟨8, 16, 24, 0, false⟩

/-- A tile whose vector unit is quiet, which may issue and whose instruction can be fetched, issues a vector instruction. -/
theorem vready_of {s : State} {t : TileId} {rs : List Reg} {wait : State → Bool} (h1 : mayIssueReg s (.tile t) rs = true)
    (hq : Quiet s (.tile t)) (h3 : (match (fetch s (.tile t) 4).2 with | .ok _ => true | .error _ => false) = true) :
    VReady s t rs wait (atIssue s (.tile t) rs 4) := by
  unfold VReady atIssue prep
  rcases hf : fetch s (.tile t) 4 with ⟨u, e | bs⟩
  · rw [hf] at h3; cases h3
  · exact ⟨h1, s, bs, by rw [startAll_quiet hq, ite_self], by rw [List.append_nil]; simp only [hf]⟩

/-- O16 to O20: groups that are aligned and do not overlap, in widths with and without a format; vl of eight. -/
theorem test_witness_vector : ∀ ew ∈ [0, 1, 2, 3],
    (∀ w, VReady (tileVec ew id) 0 [0] w (atIssue (tileVec ew id) (.tile 0) [0] 4)) ∧
    (let s1 := atIssue (tileVec ew id) (.tile 0) [0] 4
     let c := (s1.tile 0).vec.cfg
     c.ew = ew ∧ (s1.tile 0).vec.vstart = 0 ∧ c.vl ≤ 16384 ∧ c.g < 8 ∧
     aligned c 1 vr.vd = true ∧ aligned c 2 vr.vd = true ∧ aligned c 1 vr.vs1 = true ∧ aligned c 2 vr.vs1 = true ∧ aligned c 1 vr.vs2 = true ∧
     overlaps vr.vd (c.g * 2) vr.vs1 c.g = false ∧ overlaps vr.vd c.g vr.vs1 (c.g * 2) = false ∧ overlaps vr.vd (c.g * 2) vr.vs2 c.g = false ∧
     overlaps vr.vd c.g vr.vs1 c.g = false ∧ overlaps vr.vd c.g vr.vs2 c.g = false ∧ (⟨3, 5, 6, 0, false⟩ : VR).vd.toNat < 8) := by
  intro ew h
  simp only [List.mem_cons, List.not_mem_nil, or_false] at h
  rcases h with rfl | rfl | rfl | rfl <;> exact ⟨fun w => vready_of (by decide) ⟨rfl, rfl⟩ (by decide), by decide⟩

/-- O16 to O22: after the dispatch the entry is the only one, no access still runs, and nothing holds it back. -/
theorem test_witness_vector_start :
    let s1 := atIssue (tileVec 2 id) (.tile 0) [0] 4
    let x := vecEntry s1 0 (.vadd 0 vr) 0
    let u := dispatched s1 0 (.vadd 0 vr) 0
    u.power = .run ∧ (u.tile 0).vec.vq = [x] ∧ (u.tile 0).vec.run = [] ∧ seedBlocked u 0 x = false :=
  ⟨by rfl, by rfl, by rfl, by rfl⟩

/-- O21: `vld` and `vst` of eight words of the tile's own scratch, queued, running, and with the address of a fault. -/
theorem test_witness_vector_memory :
    let s := memTile.updVec 0 fun v => { v with cfg := { ew := 2, vl := 8 } }
    let s1 := atIssue s (.tile 0) [1] 4
    let x := vecEntry s1 0 (.vld 0 ⟨8, 1, 0, 0⟩) 0xFC00000010
    let u := s1.updVec 0 fun v => { v with vq := [x] }
    let w := s1.updVec 0 fun v => { v with run := [x] }
    (∀ wait, VReady s 0 [1] wait s1) ∧ (s1.core (.tile 0)).reg 1 + (0#11).signExtend 64 = BitVec.ofNat 64 (0xFC00000000 + 16) ∧
    x.actives (s1.tile 0).vec 0 = [0, 1, 2, 3, 4, 5, 6, 7] ∧ 16 + 7 * 4 + 4 ≤ min 0x80000 (scratchBytes s1 0) ∧
    (∀ i ∈ x.actives (s1.tile 0).vec 0, firstDenied (fun y m => permitted s1 (.tile 0) y m rightR) (elAddr 0xFC00000010 4 i) 4 = none) ∧
    u.power = .run ∧ (u.tile 0).vec.vq = [x] ∧ seedBlocked u 0 x = false ∧
    (w.tile 0).vec.run = [{ x with passed := false }] ∧ (w.core (.tile 0)).sbuf = [] ∧ (w.tile 0).oos = false ∧ (w.tile 0).l1.bad = [] ∧
    x.active { (w.tile 0).vec with run := [] } 0 1 = true ∧ (0xFC00000014#64 - elAddr 0xFC00000010 4 1).toNat < 4 := by
  refine ⟨fun w => vready_of (by decide) ⟨rfl, rfl⟩ (by decide), by decide, by decide, by decide, by decide, by rfl, by rfl, by rfl,
    by rfl, by decide, by decide, by decide, by decide, by decide⟩

/-- O21: `vcfg` with TILE_VSTART 0 and not. -/
theorem test_witness_vcfg : ((tileVec 2 id).tile 0).vec.vstart = 0 ∧ ((tileVec 2 fun v => { v with vstart := 3 }).tile 0).vec.vstart ≠ 0 ∧
    ((atIssue (tileVec 2 fun v => { v with vstart := 3 }) (.tile 0) [1] 4).tile 0).vec.vstart ≠ 0 ∧
    mayIssueReg (tileVec 2 fun v => { v with vstart := 3 }) (.tile 0) [1] = true ∧ (⟨2, 1, false, 6⟩ : LI).imm.toNat < 32 := by decide

/-- Chain register 0 that adds a to x. -/
def chainTile : State := tileVec 2 fun v => { v with chains := writeBytes [] 0 (toBytes 4 0x3C0 ++ List.replicate 28 0 ++ toBytes 4 0x4340000) }

/-- O22: its program is one the unit runs, with one stage that reads x and a. -/
theorem test_witness_program :
    let v := (chainTile.tile 0).vec
    let p := progOf (chainBytes v 0)
    p.nst = 0 ∧ p.wf = 0 ∧ stOp (p.sts.getD 0 0) = 0x01 ∧ fld (p.sts.getD 0 0) 22 4 = 0 ∧ fld (p.sts.getD 0 0) 18 4 = 0xD ∧
    fld (p.sts.getD 0 0) 10 4 = 0 ∧ vchainCheck v.cfg v.vstart p ⟨8, 16, 24, 0, 0, false⟩ = none ∧
    cmemCheck v.cfg p ⟨0, 0, 24, 0, 0, false⟩ 0 = none ∧ v.cmemRuns = [] ∧
    (let s2 := drainAll faddF32 (atIssue chainTile (.tile 0) [1, 2, 3] 4) (.tile 0)
     seedBlocked s2 0 (ventry s2 0 (.cmem 0 ⟨0, 0, 24, 0, 0, false⟩ 0 none) 0) = false ∧
     (let r := cmemRun 0 p ⟨0, 0, 24, 0, 0, false⟩ ((s2.reg (.tile 0) 3).toNat / p.per) ((s2.reg (.tile 0) 3).toNat / p.per)
        { st := s2.updVec 0 fun v => { v with vstart := 0 }, src := s2.reg (.tile 0) 2, dst := s2.reg (.tile 0) 1, idx := 0, drain := 0, old := false }
      r.2.isNone = true ∧ r.1.idx = (s2.reg (.tile 0) 3).toNat)) ∧
    rownormCheck v.cfg v.vstart ⟨8, 16, 1, 0, false⟩ 0 4 = none := by
  refine ⟨by decide, by decide, by decide, by decide, by decide, by decide, by decide, by decide, by rfl, ⟨by rfl, by rfl, by rfl⟩, by decide⟩

/-- O22: a chain register at a 64-byte boundary of the scratch. -/
theorem test_witness_chain :
    let s0 := memTile.updCore (.tile 0) fun k => k.setReg 1 0xFC00000040
    let s := atIssue s0 (.tile 0) [1] 4
    (∀ w, VReady s0 0 [1] w s) ∧ (s.core (.tile 0)).reg 1 = BitVec.ofNat 64 (0xFC00000000 + 64) ∧
    64 + 64 ≤ min 0x80000 (scratchBytes s 0) ∧ firstDenied (fun y m => permitted s (.tile 0) y m rightR) 0xFC00000040 64 = none ∧
    firstDenied (fun y m => permitted s (.tile 0) y m rightW) 0xFC00000040 64 = none := by
  refine ⟨fun w => vready_of (by decide) ⟨rfl, rfl⟩ (by decide), by decide, by decide, by decide, by decide⟩

/-- O23: entries of the cp0 queue. -/
def cp0 (i : Instr) : Cp0Entry := { instr := i, r1 := 0, r2 := 0, cfg := 0x33, prog := [], rd := 0, batch := none, col := 0 }
def cp0f : LC := ⟨0, 1, 2⟩

theorem test_witness_matrix :
    (∀ i ∈ [Instr.mcfg 0 cp0f, .mwld 0 cp0f, .mlda 0 cp0f, .mpass 0 cp0f, .mdrain 0 cp0f, .msync 0 cp0f],
      let s := tileWith fun x => { x with mtx := { x.mtx with queue := [cp0 i] } }
      (s.tile 0).mtx.queue = [cp0 i] ∧ (s.tile 0).mtx.passes = [] ∧ (s.tile 0).mtx.handed = [] ∧ (s.tile 0).mtx.feed = false ∧
      (s.tile 0).l1.bad = [] ∧ (s.tile 0).oos = false ∧ s.power = .run) ∧
    (let s := tileCore fun k => k.setReg 1 0x33
     (s.tile 0).mtx.queue.length < 8 ∧ (s.tile 0).mtx.waiting = false ∧ pairOk 0x33 = true ∧ wbit 0x33 11 = false ∧
     Ready s (.tile 0) [1, 2] 4 (atIssue s (.tile 0) [1, 2] 4) ∧ Quiet (atIssue s (.tile 0) [1, 2] 4) (.tile 0) ∧
     cp0Code (atIssue s (.tile 0) [1, 2] 4) 0 (.mcfg 0 cp0f) cp0f 0x33 0 = 1) ∧
    (let s := tileWith fun x => { x with mtx := { x.mtx with passes := [cp0 (.mpass 0 cp0f)] } }
     (s.tile 0).mtx.wbad = [] ∧ cfgRamp (cp0 (.mpass 0 cp0f)).cfg = false ∧ passNeed { (s.tile 0).mtx with grant := true } false = 0) := by
  refine ⟨?_, ⟨by decide, by decide, by decide, by decide, ready_of (by decide) ⟨rfl, rfl⟩ (by decide), ⟨by rfl, by rfl⟩, by rfl⟩,
    by decide, by decide, by decide⟩
  intro i h
  simp only [List.mem_cons, List.not_mem_nil, or_false] at h
  rcases h with rfl | rfl | rfl | rfl | rfl | rfl <;>
    exact ⟨by decide, by decide, by decide, by decide, by decide, by decide, by decide⟩

/-- O23: the feed under way and ended, the ramp coming down with a pass that waits, and a drain whose writes have been handed over. -/
theorem test_witness_matrix_units :
    (let x := ((tileWith fun x => { x with mtx := { x.mtx with feed := true, ramp := .active } }).tile 0).mtx
     x.feed = true ∧ x.passes = [] ∧ cfgRamp x.cfg = false) ∧
    (let x := ((tileWith fun x => { x with mtx := { x.mtx with ramp := .down, queue := [cp0 (.mpass 0 cp0f)], handed := [(0x100, [1, 2])] } }).tile 0).mtx
     x.ramp = .down ∧ x.passes = [] ∧ x.feed = false ∧ (∃ e ∈ x.queue, ∃ t f, e.instr = .mpass t f) ∧
     (x.handed.any fun w => decide (w.1 ≤ 0x101) && decide (0x101 < w.1 + w.2.length)) = true ∧
     (x.handed.any fun w => decide (w.1 ≤ 0x102) && decide (0x102 < w.1 + w.2.length)) = false) := by
  refine ⟨by decide, rfl, rfl, rfl, ⟨cp0 (.mpass 0 cp0f), by decide, 0, cp0f, rfl⟩, by decide, by decide⟩

/-! ### Witnesses of the statements about engines and memory -/

def tile0 (f : Tile → Tile) : State := State.reset.updTile 0 f

/-- O24: no dump, one in progress that is permitted, and one that is not; a `cmem` block that started before it; a tile out of service. -/
theorem test_witness_instruments :
    State.reset.power = .run ∧ (State.reset.tile 0).num.dump = none ∧ (State.reset.tile 0).oos = false ∧
    ((tile0 fun x => { x with oos := true }).tile 0).oos = true ∧
    (∃ r ∈ ((tile0 fun x => { x with vec := { x.vec with cmemRuns := [⟨0, 0, 0, 0, 0, 0, true⟩] } }).tile 0).vec.cmemRuns, r.old = true) ∧
    (∀ r ∈ (State.reset.tile 0).vec.cmemRuns, r.old = false) ∧
    ∀ ok, ((tile0 fun x => { x with num := { x.num with dump := some (0x100, List.replicate 64 1, ok) } }).tile 0).num.dump =
      some (0x100, List.replicate 64 1, ok) := by
  refine ⟨rfl, rfl, rfl, rfl, ⟨⟨0, 0, 0, 0, 0, 0, true⟩, by decide, rfl⟩, by decide, ?_⟩
  intro ok; cases ok <;> rfl

/-- O25: split values, an inbox in the way, a change in each direction that may be made, a miss, a stream, and a late error. -/
theorem test_witness_l1 :
    let l1 := fun (f : L1 → L1) => tile0 fun x => { x with l1 := f x.l1 }
    (∃ v : Word, wfld v 0 4 = 15) ∧ (∃ v : Word, wfld v 0 4 = 3) ∧ ¬ (3 < (State.reset.tile 0).l1.sways) ∧
    (let s := (l1 fun x => { x with sways := 4 }).updInbox 0 2 fun x => { x with en := true, nslots := 1, rows := 0x300, pitch := 1 }
     3 < (s.tile 0).l1.sways ∧ inboxHolds (s.inbox 0 2) (32768 * 3) = true) ∧
    (let s := l1 fun x => { x with sways := 4, change := some 2 }
     (s.tile 0).l1.change = some 2 ∧ splitFree (s.tile 0) = true ∧ (s.tile 0).mtx.handed = []) ∧
    (let s := l1 fun x => { x with sways := 4, change := some 6 }
     s.updTile 0 id = s ∧ (s.tile 0).l1.sways < 6) ∧
    (let s := l1 fun x => { x with miss := [(5, ⟨7, 0⟩)] }
     let u := strikeLine (s.updL1 0 fun x => { x with miss := adel x.miss 5 }) 7 {}
     afind (s.tile 0).l1.miss 5 = some ⟨7, 0⟩ ∧ l1Find (u.tile 0).l1 7 = none ∧ lineFail u 7 = none) ∧
    (let s := l1 fun x => { x with pfen := true, streams := [(3, { key := 0, last := 0xFFFFFF, stride := 1, confirmed := true, depth := 4, ahead := 0, use := 0 })] }
     let x := (s.tile 0).l1
     x.pfen = true ∧ x.miss.length ≤ 112 ∧ l1Find x 0x1000000 = none ∧ ahas x.miss 0 = false ∧ pfAllowed s 0 0x1000000 = true) ∧
    (let s := tileCore fun k => { k with sbuf := [⟨1#64 <<< 40, [(0, 1)], .misaligned⟩] }
     (s.core (.tile 0)).sbuf = [⟨1#64 <<< 40, [(0, 1)], .misaligned⟩] ∧ isRemote s (1#64 <<< 40) = true) := by
  refine ⟨⟨15, by rfl⟩, ⟨3, by rfl⟩, by decide, ⟨by decide, by decide⟩, ⟨by rfl, by rfl, by rfl⟩, ⟨by rfl, by decide⟩,
    ⟨by rfl, by rfl, by rfl⟩, ⟨by decide, by decide, by rfl, by decide, by decide⟩, by rfl, by decide⟩

/-- O26: a line and an atomic's word that are permitted and reached, a register, misalignment, and a `waitq` that waits. -/
theorem test_witness_fences :
    let s := atIssue memTile (.tile 0) [1, 2] 4
    let v := atIssue taskTile (.tile 0) [1, 2] 4
    Ready memTile (.tile 0) [1, 2] 4 s ∧ Quiet v (.tile 0) ∧ ((drainWait s (.tile 0)).core (.tile 0)).remote = [] ∧
    permitted s (.tile 0) 0xFC00000000 128 rightW = true ∧ (localAddr s 0xFC00000000).isSome = true ∧
    permitted v (.tile 0) 0xFC00000000 128 rightW = false ∧ isRemote s (1#64 <<< 40) = true ∧
    firstDenied (fun x m => permitted s (.tile 0) x m rightRW) 0xFC00000010 8 = none ∧
    isReg s (.tile 0) 0xFD00000010 8 = false ∧ isReg s (.tile 0) 0xF801000000 8 = true ∧
    (0xFC00000011#64).toNat % 4 ≠ 0 ∧ (0xFC00000010#64).toNat % 4 = 0 ∧
    noFields ⟨0, 0, 0, false⟩ = true ∧ waitDone s 0 0 false = false ∧ scratchBytes s 0 < 0xFFFFF + 32 ∧ 0 + 32 ≤ scratchBytes s 0 ∧
    t0free (s.core (.tile 0)) = some 0 ∧ (rangeLines 0xFC00000010 1).length = 1 ∧
    ((amoAt faddF32 (drainWait s (.tile 0)) (.tile 0) 0xFC00000010 8 .add 1 0).2 = .ok 0) := by
  refine ⟨ready_of (by decide) ⟨rfl, rfl⟩ (by decide), ⟨by rfl, by rfl⟩, by rfl, by rfl, by rfl, by rfl, by rfl, by rfl, by rfl, by rfl,
    by decide, by decide, by decide, by rfl, by decide, by decide, by rfl, by decide, by rfl⟩

/-- Mover queue 0 of tile 0 in a state. -/
def movTile (f : MovQ → MovQ) : State := (tileWith fun x => { x with l1 := { x.l1 with sways := 1 } }).updMovq 0 0 f

/-- O27: descriptors of every type, small and large, and a queue that is idle with work, halted, running and done. -/
theorem test_witness_mover :
    (∀ k < 6, (descOf (List.replicate 3 0 ++ toBytes 5 (k * 16) ++ List.replicate 56 0)).type = k) ∧
    (descOf (List.replicate 64 0)).type = 0 ∧ (descOf (List.replicate 64 0)).units = 1 ∧ (descOf (List.replicate 64 0)).sig = false ∧
    ((movTile fun m => { m with tail := 1 }).movq 0 0).state = .idle ∧ ((movTile fun m => { m with tail := 1 }).movq 0 0).head ≠ 1 ∧
    ((movTile fun m => { m with state := .halted }).movq 0 0).state = .halted ∧
    (let s := movTile fun m => { m with state := .running, active := some ⟨List.replicate 64 0, 0, false, false, [], 0⟩ }
     (s.movq 0 0).active = some ⟨List.replicate 64 0, 0, false, false, [], 0⟩ ∧ 0 < (descOf (List.replicate 64 0)).units ∧
     xactFree s 0 0 = true) ∧
    xactFree ((movTile id).updMovq 0 1 fun m => { m with active := some ⟨List.replicate 64 0, 0, false, false, [], 128⟩ }) 0 0 = false ∧
    (let s := (movTile fun m => { m with state := .halted, sigf := true }).updCore (.tile 0) fun k => { k with pwinLo := [(0, 9)], pwinHi := [(0, 0x1000)] }
     placeWin s 0 true (headAddr (s.movq 0 0)) 64 rightR 2 2 = none ∧
     (match (agentRead s 0 (headAddr (s.movq 0 0)) 64).2 with | .ok _ => true | .error _ => false) = true) := by
  refine ⟨by decide, by decide, by decide, by decide, by decide, by decide, by decide, by decide, by decide⟩

/-! ### Witnesses of the statements about the fabric -/

/-- Tile 0 running with scratch, s1 at a block of it, and its Gallery port as given. -/
def portTile (f : Port1 → Port1) : State :=
  tileWith fun x => { x with l1 := { x.l1 with sways := 1 }, core := (x.core.setReg 1 0xFC00000040).setReg 2 0, port := f x.port }

def anOp (i : Instr) : GalOp :=
  { id := 3, instr := i, addr := 0xFC00000040, block := List.replicate 64 0, task := false, start := 0, deadline := 1000, needGrant := false
    grant := false, waitTrips := false, groups := [⟨⟨0, 1, 0⟩, [5, 6]⟩], sent := [], failedTrips := 0, timedOut := false, got := [] }

/-- O28: a block that may be used, one that may not; an entry of the queue; an operation. -/
theorem test_witness_gallery :
    let s := portTile id
    let u := addStall s (.tile 0)
    mayIssueReg s (.tile 0) [1, 0] = true ∧ (s.tile 0).port.queue.length < 8 ∧ 0xFC00000040 % 64 = 0 ∧
    (firstDenied (ownOk u 0) 0xFC00000040 64).isSome = false ∧
    (firstDenied (fun x m => permitted u (.tile 0) x m rightRW) 0xFC00000040 64).isSome = false ∧
    (firstDenied (ownOk u 0) 0xF800000000 64).isSome = true ∧
    (let e : Cp1Entry := ⟨.gput 0 ⟨0, 1, 0⟩, 0xFC00000040, 0, 0, false⟩
     let v := portTile fun p => { p with queue := [e] }
     (v.tile 0).port.queue = [e] ∧ ((drainAll faddF32 v (.tile 0)).tile 0).core.remote = [] ∧
     (agentRead v 0 0xFC00000040 64).2 = .ok (List.replicate 64 0)) ∧
    (tmoSpan s 0).isSome = true ∧
    (findOp (portTile fun p => { p with ops := [anOp (.gput 0 ⟨0, 1, 0⟩)] }) 0 3).isSome = true ∧ findOp s 0 3 = none := by
  refine ⟨by decide, by decide, by decide, by rfl, by rfl, by rfl, ⟨by decide, by decide, by rfl⟩, by rfl, by rfl, by decide⟩

/-- O29: an address of this module that is exposed, one that is not; a store that waits for its acknowledgement; an inbox. -/
theorem test_witness_remote :
    (let s := { State.reset with gal := { State.reset.gal with rwinLo := [(0, 3)], rwinHi := [(0, 0x1000000)] } }
     remoteOk s 0x1000 8 false ≠ none) ∧ remoteOk State.reset 0x1000 8 false = none ∧
    ((tileCore fun k => { k with remote := [⟨0, [], .store⟩] }).tile 0).core.remote = [⟨0, [], .store⟩] ∧
    ((tileCore fun k => { k with waitLoad := some ⟨1, 8, false, 0, 4, false⟩ }).tile 0).core.waitLoad = some ⟨1, 8, false, 0, 4, false⟩ ∧
    (let x := (State.reset.updInbox 0 0 fun x => { x with en := true, nslots := 4, pitch := 1, resv := 1, granted := [(0, 0)] }).inbox 0 0
     x.en = true ∧ 100 ≤ 128 * x.pitch ∧ x.waiters = [] ∧ ahas x.granted 0 = true ∧ ahas x.granted 1 = false) ∧
    (State.reset.inbox 0 0).en = false := by
  refine ⟨by decide, by decide, by decide, by decide, by decide, by decide⟩

/-- O30: trips that are sent, open and cooling; a slot that is complete; the operation of a dispatch. -/
theorem test_witness_trips :
    (tripAt (setTrip State.reset 5 { state := .sending }) 5).state = .sending ∧
    (let x := tripAt (setTrip State.reset 5 { state := .opened, nb := 2, gen := 1 }) 5
     x.state = .opened ∧ x.gen = 1 ∧ 0 ∉ x.got ∧ 0 < x.nb ∧ x.got.length + 1 < x.nb) ∧
    (tripAt (setTrip State.reset 5 { cooling := some 9 }) 5).cooling = some 9 ∧ (tripAt State.reset 5).state = .free ∧
    (slotAt (setSlot State.reset 7 { state := .opened }) 7).state = .opened ∧ (slotAt (setSlot State.reset 7 { state := .opened }) 7).pending = 0 ∧
    ((findOp (portTile fun p => { p with ops := [anOp (.gdispatch 0 ⟨0, 1, 0⟩)] }) 0 3).map fun o =>
      (o.groups.find? fun g => g.dst = ⟨0, 1, 0⟩).isSome) = some true ∧
    State.reset.gal.dirinv = none := by
  refine ⟨by decide, by decide, by decide, by decide, by decide, by decide, by rfl, rfl⟩

/-- O31: a joined group of two of which this module is the root, and a collective in it. -/
def aColl : Coll :=
  { shape := ⟨.barrier, 9, 0, 0, 0⟩, src := 0, dst := 0, tile := 0, op := 3, start := 0, span := 1000, deadline := 1000, grant := true, kids := [], sent := [], got := [] }

theorem test_witness_collectives :
    let s := State.reset.updGroup 2 fun x => { x with members := [0, 1], joined := true, coll := some aColl }
    (s.group 2).joined = true ∧ (s.group 2).rank = 0 ∧ 1 ∈ childrenOf (s.group 2).rank (s.group 2).members.length ∧
    (s.group 2).coll = some aColl ∧ aColl.shape.op ∈ [CollOp.allreduce, .reducescatter, .barrier] ∧ (State.reset.group 2).coll = none ∧
    (State.reset.updGroup 2 fun x => { x with joining := some (0, 3) }).group 2 ≠ State.reset.group 2 := by
  refine ⟨by decide, by decide, by decide, by decide, by decide, by decide, by decide⟩

/-- A port of a state. -/
def linkState (f : Link → Link) : State := State.reset.updLink 0 fun l => f { l with state := .up }

/-- A flit of a header. -/
def flitOf (h : Word) : WireFlit :=
  let pay := List.replicate 244 0
  ⟨h, pay, { crc := crc32c (toBytes 8 h.toNat ++ pay) }⟩

/-- Its CRC is right. -/
theorem test_flit_ok (h : Word) : flitOk (flitOf h) = true :=
  Bool.and_eq_true_iff.2 ⟨decide_eq_true List.length_replicate, decide_eq_true rfl⟩

/-- O32: ports that run, that replay and that set up a key, with a group open on each side, flits that are intact and not, a lane
that is bad, and a NAK. -/
theorem test_witness_flits :
    (let s := linkState fun l => { l with rxGroup := [{ hdr := 0, payload := [] }], txGroup := [{ hdr := 0, payload := [] }], unacked := 1,
                                          replayBuf := [{ hdr := 0, payload := [] }] }
     let l := s.link 0
     l.state = .up ∧ l.rxGroup ≠ [] ∧ l.txGroup ≠ [] ∧ l.unacked ≠ 0 ∧ l.replayBuf ≠ [] ∧ l.sealed + 1 ≠ 2 ^ 32 ∧ l.replayBuf.length < 512 ∧
     l.rxSealed + 1 ≠ 2 ^ 32 ∧ l.unacked + 1 < 16 ∧ l.sealFails = 0 ∧ l.kxReplay = false ∧ laneBad s l = false ∧ isUp s 0 = true ∧
     wfld 0 50 12 = l.rxSeq) ∧
    (let s := linkState fun l => { l with badCw := [(0, List.replicate 17 0)] }
     laneBad s (s.link 0) = true) ∧
    (∀ st ∈ [PortState.replay, .key, .retrain, .train, .failed, .down], ((linkState fun l => { l with state := st }).link 0).state = st) ∧
    (linkState fun l => { l with replayStart := 0, state := .replay }).mono < 50000 ∧
    (∀ h, flitOk (flitOf h) = true) ∧ flitOk ⟨0, [], { crc := 0 }⟩ = false ∧
    wfld 0x8000000000000000 62 2 = 2 ∧ hdrNak 0x8000000000000000 = false ∧ hdrNak 0x8000002000000000 = true := by
  refine ⟨by decide, by decide, by decide, by decide, test_flit_ok, by decide, by decide, by decide, by decide⟩

/-- O33: a key set up by the lower and by the higher side, a lane decision in time and late, and a spare lane that is free. -/
theorem test_witness_link_setup :
    (let s := linkState fun l => { l with state := .key, kxHello := true, kxSecret := some 5, peerOk := true }
     (s.link 0).state = .key ∧ (s.link 0).kxHello = true ∧ (s.link 0).kxSecret = some 5) ∧
    lowerSide (linkState fun l => { l with state := .key, peer := 1 }) 0 = true ∧
    lowerSide ({ linkState (fun l => { l with state := .key }) with gid := 1 }) 0 = false ∧
    ((linkState id).link 0).cwid = 8 ∧ (∀ i < 8, (0xFF#8).getLsbD i = true) ∧ (∀ i < 8, (0#8).getLsbD i = false) ∧
    (let s := linkState fun l => { l with state := .retrain, retrainStart := 0 }
     ¬ (s.link 0).retrainStart + 400000 < s.mono ∧ (s.link 0).retrainStart + 400000 < ({ s with mono := 500000 } : State).mono) ∧
    (let s := State.reset.updOctet 0 fun x => { x with sparePort := some 0 }
     (s.octet 0).spent = false ∧ (s.octet 0).sparePort = some 0) ∧
    (∀ q ∈ (linkState id).links, q.2.state = .failed → q.2.txq = []) := by
  refine ⟨by decide, by decide, by decide, by decide, by decide, by decide, by decide, by decide, ?_⟩
  intro q h; revert q; decide

/-- O34, O52: a line of module memory with and without errors; a stack that has stopped; copies; a channel that is to fold. -/
theorem test_witness_stacks :
    (place State.reset 0 ≠ none) ∧ lineErr State.reset 0 = none ∧ lineErr State.reset 0x1000000000 ≠ none ∧
    lineHealth State.reset 0 = .clean ∧ lineHealth { State.reset with errs := [(1, [(0, 1), (3, 5)])] } 0 = .uncorrectable ∧
    lineHealth { State.reset with errs := [(1, [(3, 5)])] } 0 = .correctable ∧
    (let x := (State.reset.updStack 3 fun x => { x with stopped := true, retraining := true, copy := some (.channel 4 0) }).stack 3
     x.stopped = true ∧ x.retraining = true ∧ x.copy = some (.channel 4 0)) ∧
    (let s := { State.reset with rep := { State.reset.rep with foldDue := [(3, 4)] } }
     (3, 4) ∈ s.rep.foldDue ∧ (s.stack 3).copy = none ∧ s.rep.folds.length < 8) := by
  refine ⟨by decide, by decide, by decide, by decide, by decide, by decide, by decide, by decide⟩

/-- O52: the three verdicts on a burst. -/
theorem test_witness_burst : verdict [] = .clean ∧ verdict [(3, 5)] = .pin 3 5 ∧ verdict [(0, 1), (3, 5)] = .bad := by
  refine ⟨by decide, by decide, by decide⟩

/-- O35: a sounding that is due, of a tile; journal writes that wait; a register of the module and an address that is none. -/
theorem test_witness_sounding :
    (let s := { State.reset with rep := { State.reset.rep with due := [.tile 0] } }
     soundDue s (.tile 0) = true ∧ s.power = .run) ∧ soundDue State.reset (.tile 0) = false ∧
    (State.reset.tile 0).vec.spent = false ∧ (State.reset.tile 0).vec.spareBad = false ∧
    (∃ l, localAddr State.reset 0xF800000000 = some l ∧ isRegBlock State.reset l = true ∧ bstkAt l 8 = none ∧ histAt l = none ∧ l % 8 = 0) ∧
    localAddr State.reset 0xFF00000000000000 = none := by
  refine ⟨by decide, by decide, by decide, by decide, ⟨0xF800000000, by decide, by decide, by decide, by decide, by decide⟩, by decide⟩

/-! ### Witnesses of the statements about the front end, the host and the supply -/

/-- Queue 0 enabled with one record of its ring, whose bytes are zeros but for the first word. -/
def queueState (f : FeQueue → FeQueue) : State := State.reset.updQueue 0 fun x => f { x with en := true, lsz := 2, tail := 1 }

def aCmd : Cmd := { bytes := List.replicate 64 0, addr := 0, seq := 0, start := 0, limit := 1000, feat := 0 }

/-- O36: an idle real-time queue with a record of NOP, one whose ring is not memory, and a record that has no error; no real-time
queue has one. -/
theorem test_witness_ring :
    (let s := queueState id
     let x := s.queue 0
     s.power = .run ∧ x.state = .idle ∧ x.cmd = none ∧ x.replay = none ∧ x.en = true ∧ x.head ≠ x.tail ∧
     (memRead s 0 64).2 = .ok (List.replicate 64 0)) ∧ recOp (List.replicate 64 0) = 0 ∧
    (memRead (queueState fun x => { x with base := 0xF000000000 }) 0xF000000000 64).2 = .error (.bus, 0xF000000000) ∧
    recErr featTable (List.replicate 64 0) = none ∧ (recErr featTable (1#8 :: List.replicate 63 0)).isSome = true ∧
    (State.reset.queue 0).en = false ∧ (∀ q, rtFirst State.reset q = false) ∧ ¬ 8 ≤ (0 : QueueNo).val := by
  refine ⟨by decide, by decide, by rfl, by decide, by decide, by decide, fun q => ?_, by decide⟩
  show (decide (8 ≤ q) && false) = false
  exact Bool.and_false _

/-- O37: a tile whose task ends, commands that wait, that watch and that fail, a replay, a halted queue. -/
theorem test_witness_commands :
    (let s := (tileWith fun x => { x with ending := some 0 }).updFeTile 0 fun f => { f with own := some 0, state := .kernel }
     s.power = .run ∧ (s.tile 0).ending ≠ none ∧ (s.feTile 0).own ≠ none ∧ (s.feTile 0).state ≠ .killed ∧ (s.feTile 0).state ≠ .idle ∧
     enginesDone ((performHanded (drainAll faddF32 s (tcore 0)) 0).tile 0) = true) ∧
    (∀ ph ∈ [Phase.waiting, .running, .watching, .failing],
      (((queueState fun x => { x with cmd := some { aCmd with phase := ph } }).queue 0).cmd.map fun c => c.phase) = some ph) ∧
    aCmd.holds = [] ∧ subDeadline (queueState id) aCmd ≤ outerDeadline (queueState id) aCmd ∧ aCmd.op ≠ 3 ∧
    ((queueState fun x => { x with replay := some aCmd }).queue 0).replay = some aCmd ∧ State.reset.rep.due = [] ∧
    (∀ p ∈ State.reset.fe.ptasks, p.queue ≠ 0) ∧ ((queueState fun x => { x with state := .halted }).queue 0).state = .halted := by
  refine ⟨⟨rfl, by decide, by decide, by decide, by decide, by rfl⟩, by decide, rfl, by decide, by decide, by decide, rfl, by decide, by decide⟩

/-- Host port 0 up. -/
def hostState (f : HostSide → HostSide) : State :=
  let s := State.reset.updHport 0 fun x => { x with state := 3, addr6 := 5, v4 := true, addr4 := 9 }
  { s with host := f s.host }

/-- Session 0 in a state, with keys of 32 bytes that are all zero. -/
def keyedState (st : SessState) (f : Session → Session) : State := (hostState id).updSess 0 fun x =>
  f { x with state := st, rxKey := List.replicate 32 0, rxSalt := List.replicate 4 0 }

/-- Session 0 established. -/
def sessState (f : Session → Session) : State := keyedState .established f

/-- A packet that the host of session 0 seals. -/
def sealedFor (t : BitVec 4) (pn : Word) (bs : List Byte) : EzPacket :=
  let h : EzHeader := { ver := 1, ptype := t, flags := 1, path := 0, rsv := 0, sid := 0, pn := pn, rsv2 := 0 }
  let k := List.replicate 32 0
  let n := ezNonce (List.replicate 4 0) pn.toNat
  ⟨0, h, gcmStream k n bs, gcmTag k n (ezHdrBytes h) (gcmStream k n bs), false⟩

/-- It opens to what was sealed. -/
theorem test_sealed (t : BitVec 4) (pn : Word) (bs : List Byte) : let k := sealedFor t pn bs
    ezOpen (List.replicate 32 0) (List.replicate 4 0) k.hdr k.body k.tag = some bs :=
  ezOpen_sealed _ _ { ver := 1, ptype := t, flags := 1, path := 0, rsv := 0, sid := 0, pn := pn, rsv2 := 0 } bs List.length_replicate

/-- O38: a port that is up and one that is not, addresses that are its own and not, a free session, a handshake held with no piece
and with all of FINISH_I, a piece that opens. -/
theorem test_witness_host_ports :
    (let x := (hostState id).hport 0
     x.state = 3 ∧ x.addr6 = 5 ∧ x.addr6 ≠ 6 ∧ x.v4 = true ∧ x.addr4 = 9 ∧ x.echoes < 100) ∧ (State.reset.hport 0).state ≠ 3 ∧
    ((hostState id).sess 0).state = .free ∧ (hostState id).host.handshakes.length < 16 ∧
    (let h : Handshake := ⟨7, 0, 1, false, [], 0, 0, ⟨false, 0, 0⟩, [], []⟩
     let g : Handshake := { h with frags := [(2, 0, [1, 2])] }
     (hostState fun x => { x with handshakes := [h] }).host.handshakes.find? (fun h => h.id = 7) = some h ∧ wholeFrags h.frags = none ∧
     (hostState fun x => { x with handshakes := [g] }).host.handshakes.find? (fun h => h.id = 7) = some g ∧ wholeFrags g.frags = some [1, 2]) ∧
    (∀ h ∈ State.reset.host.handshakes, h.id ≠ 7) ∧
    (let s := keyedState .handshake id
     let k := sealedFor 2 0 (fragBytes 2 2 (0, [1, 2]))
     ezHdrOk k.hdr 2 (msid s 0) = true ∧ ezOpen (s.sess 0).rxKey (s.sess 0).rxSalt k.hdr k.body k.tag = some (fragBytes 2 2 (0, [1, 2])) ∧
     pnStale (s.sess 0) k.hdr.pn.toNat = false ∧ parseFrag 2 (fragBytes 2 2 (0, [1, 2])) = some (2, 0, [1, 2]) ∧ k.port = 0) := by
  refine ⟨by decide, by decide, by decide, by decide, ⟨rfl, by decide, rfl, by decide⟩, by decide, by decide, test_sealed _ _ _, by decide, by decide, rfl⟩

/-- A packet in flight. -/
def aSent : Sent := ⟨4, [9], 0, 0, false, false⟩

/-- A tag under those keys has 16 bytes. -/
theorem test_tag_length (n h b : List Byte) : gcmTag (List.replicate 32 0) n h b ≠ [1] := by
  intro e
  have := congrArg List.length e
  unfold gcmTag aesEnc at this
  rw [length_xorBytes, length_aesRun _ _ (roundKeys_last _ List.length_replicate)] at this
  unfold gcmBytes at this
  rw [List.length_reverse, toBytes_length] at this
  exact absurd this (by decide)

/-- O39: packets that are good and not, whose tag is right and not, with numbers in every part of the window; an acknowledgement
that is owed, a packet in flight, a path. -/
theorem test_witness_sessions :
    ((sessState id).sess 0).state = .established ∧ (State.reset.sess 0).state = .free ∧
    (let x := (sessState fun x => { x with rxCum := 3, rxHigh := 9, rxSeen := [5] }).sess 0
     2 < x.rxCum ∧ 5 ∈ x.rxSeen ∧ x.rxCum ≤ 4 ∧ 4 ∉ x.rxSeen ∧ x.rxHigh < 4 + 65536 ∧ heldBytes x + 10 ≤ 2 ^ 21) ∧
    (let x := (sessState fun x => { x with sinceAck := 2, inFlight := [aSent], paths := [(0, {})] }).sess 0
     x.sinceAck ≠ 0 ∧ x.inFlight.find? (fun e => e.pn = 4) = some aSent ∧ ahas x.paths 0 = true ∧ (aget {} x.paths 0).expiries < 2) ∧
    ((sessState id).sess 0).inFlight = [] ∧
    (∀ t ∈ [(4 : BitVec 4), 5, 6, 7], ezHdrOk (sealedFor t 0 []).hdr t.toNat (msid (sessState id) 0) = true ∧
      ezHdrOk (sealedFor t 0 []).hdr (t.toNat + 1) (msid (sessState id) 0) = false) ∧
    (let x := (sessState id).sess 0
     let k := sealedFor 7 0 []
     gcmTag x.rxKey (ezNonce x.rxSalt k.hdr.pn.toNat) (ezHdrBytes k.hdr) k.body = k.tag ∧
     gcmTag x.rxKey (ezNonce x.rxSalt k.hdr.pn.toNat) (ezHdrBytes k.hdr) k.body ≠ [1]) := by
  refine ⟨by decide, by decide, by decide, by decide, by decide, by decide, ?_⟩
  have hk : ((sessState id).sess 0).rxKey = List.replicate 32 0 := by decide
  have hs : ((sessState id).sess 0).rxSalt = List.replicate 4 0 := by decide
  simp only [hk, hs]
  exact ⟨by simp only [sealedFor], test_tag_length _ _ _⟩

/-- A session whose next message asks `op` with a body. -/
def asking (op : BitVec 8) (body : List Byte) : State :=
  sessState fun x => { x with pieces := [⟨0, op, false, true, true, 7, 0, body.length, body⟩] }

/-- O40: an address of memory, of a register, of no line and of another module; a mailbox that is full; events that are asked for;
each request as the session's next message, a message that is none, and a session that asks nothing. -/
theorem test_witness_ezori :
    (let o := sessState id
     localAddr o 0x1000 = some 0x1000 ∧ 0x1000 < memTop o ∧ inGraphRegion o 0x1000 8 = false ∧ localAddr o (16#64 <<< 56) = none ∧ 5 ≤ writeMax o ∧
     bestPath o (o.sess 0) = none ∧ (netPorts (o.sess 0) (o.sess 0).net).filter (pathUp o (o.sess 0)) = []) ∧
    ((queueState id).queue 0).en = true ∧ (State.reset.queue 0).en = false ∧
    ((State.reset.updMbox (.hmb 8) fun x => { x with full := true }).mbox (.hmb 8)).full = true ∧
    ((sessState fun x => { x with ev := true }).sess 0).ev = true ∧ State.reset.start.featAct.getLsbD 20 = true ∧
    ((hostState fun x => { x with hdb := 1 }).host.hdb &&& ~~~(0#32)) &&& ~~~(0#32) ≠ 0 ∧
    (let is := fun (op : BitVec 8) (body : List Byte) (q : HostReq) => asks ((asking op body).sess 0) 7 q = true
     is 1 (beBytes 8 0x1000 ++ [1, 2]) (.write 0x1000 [1, 2] true) ∧ is 2 (beBytes 8 0x1000 ++ beBytes 4 5) (.read 0x1000 5) ∧
     is 3 [0, 0, 0, 1] (.doorbell 0 1) ∧ is 4 ([0, 3] ++ List.replicate 70 0) (.mbSend 3 (List.replicate 8 0)) ∧
     is 4 [1, 8, 0, 5, 0, 0, 0, 0] (.mbAck 8 5) ∧ is 6 (List.replicate 32 0) (.attest 0) ∧ is 7 (beBytes 4 1 ++ beBytes 4 2) (.logRead 1 2) ∧
     is 8 (List.replicate 8 0) .featQuery ∧ is 8 (1 :: List.replicate 39 0) (.featAccept 0)) ∧
    (nextMsg ((asking 9 []).sess 0)).isSome = true ∧ (nextMsg ((asking 9 []).sess 0)).bind reqOf = none ∧
    (∀ q, asks ((sessState id).sess 0) 7 q = false) := by
  refine ⟨by decide, by decide, by decide, by decide, by decide, by decide, by decide, ?_, by decide, by decide, fun _ => rfl⟩
  refine ⟨by decide, by decide, by decide, by decide, by decide, by decide, by decide, by decide, by decide⟩

/-- O41: mailboxes that are full and empty, with an acknowledgement that is valid. -/
theorem test_witness_mailboxes :
    (State.reset.mbox (.tmb 3)).full = false ∧
    (let x := (State.reset.updMbox (.tmb 3) fun x => { x with full := true, ackv := true }).mbox (.tmb 3)
     x.full = true ∧ x.ackv = true) := by decide

/-- O42: every phase of the supply, RESET_N asserted, and a release that names no line of module memory. -/
theorem test_witness_power :
    (∀ ph ∈ [PowerPhase.off, .fatal, .failing, .held, .run, .startFailed], ({ State.reset with power := ph } : State).power = ph) ∧
    ({ State.reset with pins := { State.reset.pins with reset := true } } : State).pins.reset = true ∧
    memTop State.reset < 8 * wfld (BitVec.allOnes 64) 3 37 + 64 ∧ State.reset.sec.entFails = [] := by
  refine ⟨by decide, rfl, by decide, rfl⟩

/-- O43: requests in each line, that may be issued; a throttle that steps. -/
theorem test_witness_lamp :
    let r : Req := ⟨.mover 0 0, 2, some .c0, false, 0⟩
    ({ State.reset.lamp with normLine := [r] } : Lamp).normLine = [r] ∧ mayIssue State.reset 2 (some .c0) = true ∧
    (∃ n : Nat, 110 ≤ n) ∧ State.reset.lamp.plmod < 3000 ∧ (State.reset.die .c0).ilim < 1300 ∧ (State.reset.die .c0).cur = false ∧
    (let x := (State.reset.updDie .c0 fun x => { x with askThm := some 750, tj := 100 }).die .c0
     x.askThm = some 750 ∧ x.askCur = none ∧ x.askPwr = none ∧ 95 < x.tj) := by
  refine ⟨rfl, by decide, ⟨110, by decide⟩, by decide, by decide, by decide, by decide⟩

/-- O48, O49: a state that meets the premises, with a command in the queue and a byte in memory, and its step. -/
theorem test_witness_invariant :
    let s : State := { State.reset with pending := [.ppsEdge, .bypass], mem := [(5, 1)] }
    Inv s ∧ s.sec.rollback ≤ 64 ∧ (ownerSlot s 0).pin = true ∧ ∃ t, step s = .next t :=
  ⟨⟨by decide, by decide, by decide, by decide⟩, by decide, by decide, ⟨_, rfl⟩⟩

/-! ### Ill-formed commands, one for each check of WellFormed -/

/-- The command of a start with the result given. -/
def start (a b c : Option (BitVec 8)) : StartResult := { failA := a, failB := b, common := c, dur := 0 }

def aHdr : EzHeader := ⟨1, 4, 1, 0, 0, 0, 0, 0⟩

/-- Every check of WellFormed refuses a term. -/
theorem test_ill_formed : ([
    Instr.lateStore (.svc 0) (some 1), .vchain 0 ⟨8, 16, 24, 0, 0, true⟩ 0,
    .cmem 0 ⟨8, 16, 24, 0, 0, true⟩ 0 none, .operationEnd 0 0 (.failed 0 0), .operationEnd 0 0 (.failed 17 0), .remoteRead 0 0 0 0,
    .remoteWrite 0 0 ⟨false, []⟩ 0, .remoteWrite 0 0 ⟨true, List.replicate 9 0⟩ 0, .inboxReservation 0 0 0 0 0 [] 128,
    .inboxReservation 0 0 0 0 1 [] 128,
    .inboxGrant 0 0 ⟨0, 0, 0⟩ [], .fragment 0 0 0 0 [] {}, .failureNotice 0 0, .failureNotice 0 17, .flit 0 0 [] ⟨0, []⟩,
    .seal 0 ⟨0, [0], ⟨0, []⟩⟩, .scrub 0x1E0000000 {}, .outcomeReport (.tile 0) (some 18),
    .helloI 0 0 true ⟨0, List.replicate 1568 0, List.replicate 9 ⟨true, 0, 0⟩, ⟨true, 0, 0⟩⟩, .helloI 0 0 true ⟨0, [], [], ⟨true, 0, 0⟩⟩,
    .data 0 0 aHdr [] [1] false, .ack 0 0 aHdr [] [] false, .finishI 0 [⟨0, aHdr, [], [], false⟩], .close 0 ⟨0, aHdr, [], [1], false⟩,
    .probe 0 ⟨0, aHdr, [], [], false⟩,
    .read 0 0 0 (2 ^ 32), .mailboxSend 0 0 0 [1], .logRead 0 0 0 (2 ^ 32), .powerGood (start (some 9) none none),
    .restart (start none (some 4) none), .fatal 0, .fatal 10, .resetRelease (start none none (some 8)),
    .remoteReadResponse 0 none 0 (.failed 0), .inputReturn (start (some 0) none none)].any Instr.wf) = false := by rfl

theorem test_lengths : (∀ l, 256 < l.length → Instr.wf (.paceWindow l) = false) ∧
    ∀ p h bs chk, bs.length = 244 → Instr.wf (.flit p h bs chk) = true ∧ Instr.wf (.seal p ⟨h, bs, chk⟩) = true :=
  ⟨fun l h => decide_eq_false (by omega), fun _ _ _ _ h => ⟨decide_eq_true h, decide_eq_true h⟩⟩

/-- The same commands within their bounds are well formed. -/
theorem test_well_formed : ([
    Instr.lateStore (.tile 0) (some 1), .vchain 0 ⟨8, 16, 24, 0, 0, false⟩ 0, .operationEnd 0 0 (.failed 16 0), .remoteRead 0 0 1 0,
    .remoteWrite 0 0 ⟨true, [1]⟩ 0, .inboxReservation 0 0 0 0 1 [true] 128, .failureNotice 0 1,
    .scrub 0x1DFFFFFFF {}, .outcomeReport (.tile 0) (some 17),
    .data 0 0 aHdr [] (List.replicate 16 0) false, .close 0 ⟨0, aHdr, [], [], false⟩, .read 0 0 0 (2 ^ 32 - 1),
    .powerGood (start (some 8) none (some 11)), .fatal 9, .ppsEdge].all Instr.wf) = true := by rfl

/-- A word spells no command, since the table gives no row any bits. -/
theorem test_no_word : ∀ n ∈ [0, 8, 16, 32, 64], decodeTableWord n 0 = none ∧ State.reset.withFetchWord n 0 = State.reset := by
  intro n _; exact ⟨rfl, rfl⟩

/-! ### Decoding: words written out field by field from the layouts of R72, R74 and R173 -/

/-- A word decodes to a command. -/
def reads (c : CoreId) (n w : Nat) (i : Instr) : Bool := decodeInstr c (toBytes n w) = .instr i

theorem test_decode_short :
    reads (.svc 0) 2 (0b00001#5 ++ 0b00010#5 ++ 0x02#5 ++ 0#1).toNat (.add (.svc 0) (.short 1 2)) = true ∧
    reads (.svc 0) 2 (0b00001#5 ++ 0b10001#5 ++ 0x0D#5 ++ 0#1).toNat (.addi (.svc 0) (.short 1 0b10001)) = true ∧
    reads (.tile 3) 2 (0b00111#5 ++ 0b11111#5 ++ 0x10#5 ++ 0#1).toNat (.sari (.tile 3) (.short 7 31)) = true ∧
    reads (.tile 3) 2 (0b00111#5 ++ 0b01000#5 ++ 0x13#5 ++ 0#1).toNat (.st (.tile 3) (.shortD 7 8)) = true ∧
    reads (.tile 3) 2 (0b00111#5 ++ 0b01000#5 ++ 0x14#5 ++ 0#1).toNat (.ld (.tile 3) (.shortW 7 8)) = true ∧
    reads (.tile 3) 2 (0b00111#5 ++ 0b10000#5 ++ 0x16#5 ++ 0#1).toNat (.ldspD (.tile 3) 7 16) = true ∧
    reads (.svc 12) 2 (0b1101#4 ++ 0b100001#6 ++ 0x18#5 ++ 0#1).toNat (.bcc (.svc 12) (.short 13 0b100001)) = true ∧
    reads (.svc 12) 2 (0b1000000001#10 ++ 0x19#5 ++ 0#1).toNat (.br (.svc 12) 0b1000000001) = true ∧
    reads (.svc 12) 2 (3#5 ++ 0b11110#5 ++ 0x1F#5 ++ 0#1).toNat (.jr (.svc 12) 30) = true ∧
    reads (.svc 12) 2 (2#5 ++ 0#5 ++ 0x1F#5 ++ 0#1).toNat (.ret (.svc 12) 0) = true ∧
    decodeInstr (.svc 0) [0, 0] = .illegal := by
  refine ⟨by decide, by decide, by decide, by decide, by decide, by decide, by decide, by decide, by decide, by decide, by decide⟩

theorem test_decode_long :
    reads (.svc 0) 4 (1#5 ++ 2#5 ++ 3#5 ++ 1#1 ++ 0x003#9 ++ 0x01#6 ++ 1#1).toNat (.sbc (.svc 0) ⟨1, 2, 3, true⟩) = true ∧
    reads (.svc 0) 4 (1#5 ++ 2#5 ++ 3#5 ++ 0#1 ++ 0x02A#9 ++ 0x01#6 ++ 1#1).toNat (.rem (.svc 0) ⟨1, 2, 3, false⟩) = true ∧
    reads (.svc 0) 4 (1#5 ++ 2#5 ++ 1#1 ++ 0x2001#14 ++ 0x08#6 ++ 1#1).toNat (.sltiu (.svc 0) ⟨1, 2, true, 0x2001⟩) = true ∧
    reads (.svc 0) 4 (1#5 ++ 2#5 ++ 0#1 ++ 0b11#2 ++ 0#6 ++ 63#6 ++ 0x06#6 ++ 1#1).toNat (.roli (.svc 0) ⟨1, 2, false, 0, 63⟩) = true ∧
    reads (.svc 0) 4 (1#5 ++ 2#5 ++ 0x4001#15 ++ 0x15#6 ++ 1#1).toNat (.ld (.svc 0) (.long .wu 1 2 0x4001)) = true ∧
    reads (.svc 0) 4 (1#5 ++ 2#5 ++ 0x4001#15 ++ 0x19#6 ++ 1#1).toNat (.st (.svc 0) (.long .h 1 2 0x4001)) = true ∧
    reads (.svc 0) 4 (9#4 ++ 0x100001#21 ++ 0x1E#6 ++ 1#1).toNat (.bcc (.svc 0) (.long 9 0x100001)) = true ∧
    reads (.svc 0) 4 (0x1000001#25 ++ 0x1F#6 ++ 1#1).toNat (.jal (.svc 0) 0x1000001) = true ∧
    reads (.svc 0) 4 (31#5 ++ 0x80001#20 ++ 0x09#6 ++ 1#1).toNat (.lui (.svc 0) 31 0x80001) = true ∧
    reads (.svc 0) 4 (2#2 ++ 7#5 ++ 0x20001#18 ++ 0x0C#6 ++ 1#1).toNat (.zloop (.svc 0) 2 7 0x20001) = true ∧
    reads (.svc 0) 4 (3#2 ++ 1#2 ++ 0#21 ++ 0x0D#6 ++ 1#1).toNat (.sset (.svc 0) ⟨false, 3, 0, none⟩) = true ∧
    reads (.svc 0) 6 (1#2 ++ 2#2 ++ 0#21 ++ 0x0D#6 ++ 1#1 ++ (1#5 ++ 0#5 ++ 0x1F#5 ++ 0#1)).toNat (.scmp (.svc 0) ⟨true, 1, 0, none⟩) = true ∧
    reads (.svc 0) 4 (7#5 ++ 0b00001#5 ++ 0b00100#5 ++ 0#1 ++ 0x000#9 ++ 0x0E#6 ++ 1#1).toNat (.mfsr (.svc 0) 7 0x024 false) = true ∧
    decodeInstr (.svc 0) (toBytes 4 (1#5 ++ 2#5 ++ 3#5 ++ 0#1 ++ 0x004#9 ++ 0x01#6 ++ 1#1).toNat) = .illegal ∧
    decodeInstr (.svc 0) (toBytes 4 (0#25 ++ 0x0F#6 ++ 1#1).toNat) = .illegal := by
  refine ⟨by decide, by decide, by decide, by decide, by decide, by decide, by decide, by decide, by decide, by decide, by decide, by decide,
    by decide, by decide, by decide⟩

theorem test_decode_units :
    reads (.tile 0) 4 (3#5 ++ 1#5 ++ 0#1 ++ 6#14 ++ 0x20#6 ++ 1#1).toNat (.vcfg 0 ⟨3, 1, false, 6⟩) = true ∧
    reads (.tile 0) 4 (8#5 ++ 16#5 ++ 24#5 ++ 5#3 ++ 1#1 ++ 0x02#6 ++ 0x25#6 ++ 1#1).toNat (.vmul 0 ⟨8, 16, 24, 5, true⟩) = true ∧
    reads (.tile 0) 4 (1#5 ++ 2#5 ++ 3#5 ++ 1#1 ++ 0x004#9 ++ 0x1D#6 ++ 1#1).toNat (.amocas (.tile 0) false ⟨1, 2, 3, true⟩) = true ∧
    reads (.tile 0) 4 (0#5 ++ 1#5 ++ 2#5 ++ 0x002#10 ++ 0x38#6 ++ 1#1).toNat (.mpass 0 ⟨0, 1, 2⟩) = true ∧
    reads (.tile 0) 4 (0#5 ++ 1#5 ++ 0#5 ++ 0x00D#10 ++ 0x39#6 ++ 1#1).toNat (.gjoin 0 ⟨0, 1, 0⟩) = true ∧
    reads (.tile 0) 4 (0#5 ++ 1#5 ++ 2#5 ++ 0x002#10 ++ 0x3A#6 ++ 1#1).toNat (.habsm (.tile 0) ⟨0, 1, 2⟩) = true ∧
    decodeInstr (.tile 0) (toBytes 4 (0#15 ++ 0x006#10 ++ 0x39#6 ++ 1#1).toNat) = .func10 1 ∧
    decodeInstr (.svc 0) (toBytes 4 (0#15 ++ 0x000#10 ++ 0x38#6 ++ 1#1).toNat) = .illegal := by
  refine ⟨by decide, by decide, by decide, by decide, by decide, by decide, by decide, by decide⟩

/-! ### Witnesses of the later statements -/

/-- O44: a core whose window holds `nop` runs it at the tick; a block that is not running, and a core that does not issue. -/
theorem test_witness_tick :
    let s := State.reset.updCore (.svc 0) fun k => { k with fwin := some (k.pc, [0x3E, 0] ++ List.replicate 34 0) }
    (match fetchInstr s (.svc 0) with | (_, .ok bs) => decide (bs = [0x3E, 0]) | _ => false) = true ∧
    noFirmware s (.svc 0) [0x3E, 0] = false ∧ noFirmware s (.svc 0) [0, 0] = true ∧ decodeInstr (.svc 0) [0x3E, 0] = .instr (.nop (.svc 0) 0) ∧
    issuing s (.svc 0) = true ∧ (bestSource s (.svc 0)).isNone = true ∧ held s (.svc 0) = false ∧ issuing s (.tile 0) = false ∧
    State.reset.power = .run ∧ (feSettle (writesPerformed (idle State.reset))).power = .run ∧
    runCores [] State.reset = .next State.reset := by
  refine ⟨by rfl, by decide, by decide, by decide, by decide, by decide, by decide, by decide, rfl, by rfl, rfl⟩

/-- O50: a session with a path that is up and a packet in flight on it, whose packet numbers are small. -/
theorem test_witness_session_path :
    let s := sessState fun x => { x with eps := [⟨false, 0, 0⟩], paths := [(0, { up := true })], inFlight := [aSent], txPn := 5, sinceAck := 1 }
    let x := s.sess 0
    let u := s.updSess 0 fun x => updPath x 0 fun p => { p with expiries := p.expiries + 1 }
    s.power = .run ∧ x.state = .established ∧ bestPath u (u.sess 0) = some 0 ∧ x.inFlight.find? (fun e => e.pn = 4) = some aSent ∧
    (aget {} x.paths 0).expiries < 2 ∧ ahas x.paths 0 = true ∧ x.txPn + 3 < 2 ^ 48 ∧ x.sinceAck ≠ 0 ∧ (s.hport 0).state = 3 ∧
    aSent.probe = false ∧
    (∀ t ∈ [(4 : BitVec 4), 5, 6, 7], ∀ bs, let k := sealedFor t 0 bs
      ezHdrOk k.hdr t.toNat (x.gen * 256 + 0) = true ∧ ezOpen x.rxKey x.rxSalt k.hdr k.body k.tag = some bs ∧ pnStale x k.hdr.pn.toNat = false ∧
      k.hdr.pn.toNat + 1 < 2 ^ 48) ∧ heldBytes x = 0 ∧ (parseAck (ackBytes 3 100 0 [])).isSome = true ∧
    (∃ m, parsePiece (beBytes 4 0 ++ [2, 2, 0, 0] ++ beBytes 8 7 ++ beBytes 4 0 ++ beBytes 4 0) = some m ∧ x.nextMsn ≤ m.msn.toNat) := by
  refine ⟨by decide, by decide, by decide, by decide, by decide, by decide, by decide, by decide, by decide, rfl, fun t ht bs => ⟨?_, test_sealed _ _ _, rfl, show 0 + 1 < 2 ^ 48 by decide⟩,
    by decide, by decide, ⟨_, rfl, by decide⟩⟩
  simp only [List.mem_cons, List.not_mem_nil, or_false] at ht
  rcases ht with rfl | rfl | rfl | rfl <;> rfl

/-- O29: a remote write into a scratch whose split is to change, and into one whose split is not. -/
theorem test_witness_remote_held :
    let s := memTile
    let u := s.updL1 0 fun x => { x with change := some 2 }
    (localAddr s 0xFD00000010).bind (scratchOwner s) = some 0 ∧ (s.tile 0).l1.change = none ∧ (u.tile 0).l1.change ≠ none ∧
    (localAddr u 0xFD00000010).bind (scratchOwner u) = some 0 := by
  refine ⟨by decide, by decide, by decide, by decide⟩

/-! ### Known answers of the standards -/

set_option maxRecDepth 100000 in
/-- FIPS 197, appendix C.3. -/
theorem test_aes256 : aesEnc ((List.range 32).map fun i => BitVec.ofNat 8 i) ((List.range 16).map fun i => BitVec.ofNat 8 (17 * i)) =
    (toBytes 16 0x8ea2b7ca516745bfeafc49904b496089).reverse := by rfl

set_option maxRecDepth 100000 in
/-- The tag of no bytes under a key and nonce of zeros: test case 13 of the GCM submission. -/
theorem test_gcm256 : gcmTag (List.replicate 32 0) (List.replicate 12 0) [] [] = (toBytes 16 0x530f8afbc74536b9a963b4f1c4cb738b).reverse := by rfl

set_option maxRecDepth 100000 in
/-- SHAKE256 of no bytes begins with these (FIPS 202). -/
theorem test_shake256 : shakeBytes [] 8 = (toBytes 8 0x46b9dd2b0ba88d13).reverse := by rfl

set_option maxRecDepth 100000 in
/-- The check value of CRC-32C. -/
theorem test_crc32c : crc32c (asciiBytes "123456789") = 0xE3069283 := by rfl

/-- O53: a session whose own key has 32 bytes. -/
theorem test_witness_sealed : let x := (sessState fun x => { x with txKey := List.replicate 32 0 }).sess 0
    x.txKey.length = 32 ∧ x.txPn < 2 ^ 64 := by decide

/-- O54: an image that is accepted, one that is missing, one below the rollback counter, a configuration that is bad, an owner that
is not admitted; a start that finds nothing, on REFCLK0, with an empty journal; neither reference. -/
theorem test_witness_start :
    (let s := State.reset
     (∃ i, s.start.imgA = some i ∧ i.svn = 0) ∧ (attempt s s.start.imgA none).2 = none ∧ (attempt s s.start.imgB none).2 = some 1 ∧
     (attempt { s with sec := { s.sec with rollback := 1 } } s.start.imgA none).2 = some 4 ∧
     (attempt { s with start := { s.start with cfgBad := true } } s.start.imgA none).2 = some 5 ∧
     (attempt { s with start := { s.start with cfg := { s.start.cfg with owner := 5 } } } s.start.imgA none).2 = some 6 ∧
     s.tu.ref0 = true ∧ s.start.j0 = [] ∧ s.start.j1 = [] ∧ jHeld s < jSlots) ∧
    (start none none none).badSpares = [] ∧ (start none none none).chans = [] ∧ (start none none none).found = [] ∧
    (start none none (some 10)).common = some 10 ∧ ({ State.reset.tu with ref0 := false, ref1 := false } : TimeUnit).ref0 = false := by
  refine ⟨⟨⟨_, rfl, rfl⟩, by decide, by decide, by decide, by decide, by decide, rfl, rfl, rfl, by decide⟩, rfl, rfl, rfl, rfl, rfl⟩
end

section
/-! SUPPORT. The drip log, the journal and repairs, the messages that leave, and the proof of O35. -/

namespace Sys2Proof.Machine

open Sys2Proof

/-! ### What an entry of the drip log, a journal entry and a repair leave (R598, R668, R679) -/

section Reports

variable (s : State) (src : BitVec 16)

@[simp] theorem State.tile_updTile (n m : Nat) (f : Tile → Tile) :
    (s.updTile n f).tile m = if m = n then f (s.tile n) else s.tile m := by
  simp [State.updTile]

/-- An entry of the drip log touches the log, its two counts and the times of the last second. -/
theorem logEntry_eq (code cls d : Nat) : ∃ log next lost rate,
    logEntry s src code cls d = { s with rep := { s.rep with log := log, next := next, lost := lost, rate := rate } } := by
  unfold logEntry
  dsimp only
  split
  · exact ⟨s.rep.log, s.rep.next, _, _, rfl⟩
  · exact ⟨_, _, s.rep.lost, _, rfl⟩

section LogEntry

variable (code cls d : Nat)

@[simp] theorem logEntry_power : (logEntry s src code cls d).power = s.power := by
  obtain ⟨_, _, _, _, h⟩ := logEntry_eq s src code cls d; rw [h]
@[simp] theorem logEntry_mono : (logEntry s src code cls d).mono = s.mono := by
  obtain ⟨_, _, _, _, h⟩ := logEntry_eq s src code cls d; rw [h]
@[simp] theorem logEntry_mem : (logEntry s src code cls d).mem = s.mem := by
  obtain ⟨_, _, _, _, h⟩ := logEntry_eq s src code cls d; rw [h]
@[simp] theorem logEntry_tiles : (logEntry s src code cls d).tiles = s.tiles := by
  obtain ⟨_, _, _, _, h⟩ := logEntry_eq s src code cls d; rw [h]
@[simp] theorem logEntry_memStacks : (logEntry s src code cls d).memStacks = s.memStacks := by
  obtain ⟨_, _, _, _, h⟩ := logEntry_eq s src code cls d; rw [h]
@[simp] theorem logEntry_spareUsed : (logEntry s src code cls d).rep.spareUsed = s.rep.spareUsed := by
  obtain ⟨_, _, _, _, h⟩ := logEntry_eq s src code cls d; rw [h]

end LogEntry

section Journal

variable (x kind unit loc repl aux : Nat)

/-- An entry of the journal is measured and waits for its writes; of a full journal the drip log tells (R598, R599, R618). -/
theorem journal_eq : ∃ sec start log next lost rate, journal s src x kind unit loc repl aux =
    { s with sec := sec, start := start, rep := { s.rep with log := log, next := next, lost := lost, rate := rate } } := by
  unfold journal
  dsimp only
  split
  · obtain ⟨_, _, _, _, h⟩ := logEntry_eq (extendMr s 4 _) src 0x14 4 x
    rw [h]
    exact ⟨_, _, _, _, _, _, rfl⟩
  · exact ⟨_, _, s.rep.log, s.rep.next, s.rep.lost, s.rep.rate, rfl⟩

@[simp] theorem journal_mem : (journal s src x kind unit loc repl aux).mem = s.mem := by
  obtain ⟨_, _, _, _, _, _, h⟩ := journal_eq s src x kind unit loc repl aux; rw [h]
@[simp] theorem journal_tiles : (journal s src x kind unit loc repl aux).tiles = s.tiles := by
  obtain ⟨_, _, _, _, _, _, h⟩ := journal_eq s src x kind unit loc repl aux; rw [h]
@[simp] theorem journal_spareUsed : (journal s src x kind unit loc repl aux).rep.spareUsed = s.rep.spareUsed := by
  obtain ⟨_, _, _, _, _, _, h⟩ := journal_eq s src x kind unit loc repl aux; rw [h]

variable (spare : Nat)

@[simp] theorem repaired_mem : (repaired s src spare x kind unit loc repl aux).mem = s.mem := by simp [repaired]
@[simp] theorem repaired_tile (n : Nat) : (repaired s src spare x kind unit loc repl aux).tile n = s.tile n := by
  simp [repaired, State.tile]
@[simp] theorem repaired_spareUsed : (repaired s src spare x kind unit loc repl aux).rep.spareUsed = s.rep.spareUsed := by
  simp [repaired]

end Journal

@[simp] theorem patrolStop_mem (t spare : Nat) : (patrolStop s t spare).mem = s.mem := by
  unfold patrolStop
  split
  · exact logEntry_mem ..
  · rfl

@[simp] theorem patrolStop_tile (t spare n : Nat) : (patrolStop s t spare).tile n = s.tile n := by
  unfold patrolStop
  split
  · simp [State.tile]
  · rfl

@[simp] theorem dropRecords_tile (p : Structure → Bool) (n : Nat) : (dropRecords s p).tile n = s.tile n := rfl
@[simp] theorem dropRecords_spareUsed (p : Structure → Bool) : (dropRecords s p).rep.spareUsed = s.rep.spareUsed := rfl

end Reports

/-! ### Messages that leave (R433, R447) -/

/-- The second state differs from the first in what a message that leaves may change: the free values, what has left, and the
queues of the links. -/
def SentFrom (s u : State) : Prop := ∃ free gal links, u = { s with free := free, gal := gal, links := links }

theorem SentFrom.refl (s : State) : SentFrom s s := ⟨s.free, s.gal, s.links, rfl⟩

theorem SentFrom.trans {s u w : State} (h : SentFrom s u) (h' : SentFrom u w) : SentFrom s w := by
  obtain ⟨_, _, _, rfl⟩ := h
  obtain ⟨f, g, l, rfl⟩ := h'
  exact ⟨f, g, l, rfl⟩

/-- Any number of sends is as one. -/
theorem SentFrom.foldl {α : Type} {f : State → α → State} (hf : ∀ u a, SentFrom u (f u a)) (s : State) (l : List α) :
    SentFrom s (l.foldl f s) :=
  List.foldlRecOn l f (SentFrom.refl s) fun u hu a _ => hu.trans (hf u a)

theorem galSend_sentFrom (s : State) (m : GalMsg) : SentFrom s (galSend s m) := by
  unfold galSend
  dsimp only
  split
  · exact ⟨s.free, _, s.links, rfl⟩
  · split
    · exact SentFrom.refl s
    · exact ⟨_, _, _, rfl⟩

theorem sendBeacon_sentFrom (s : State) (g st cause : Nat) (src : Gid) : SentFrom s (sendBeacon s g st cause src) := by
  unfold sendBeacon
  split
  · exact SentFrom.refl s
  · exact SentFrom.foldl (fun u _ => galSend_sentFrom u _) s _

theorem failBeacons_sentFrom (s : State) (cause : Nat) : SentFrom s (failBeacons s cause) := by
  refine SentFrom.foldl (fun u p => ?_) s _
  split
  · exact sendBeacon_sentFrom ..
  · exact SentFrom.refl u

/-! ### A fatal error (R659, R660) -/

/-- A fatal error ends in the fatal phase with its cause and no further grant, and leaves memory, tiles and stacks. -/
theorem goFatal_spec (s : State) (cause : Nat) :
    (goFatal s cause).power = .fatal ∧ (goFatal s cause).rep.fatal = cause ∧ (goFatal s cause).lamp.stopped = true ∧
      (goFatal s cause).mem = s.mem ∧ (goFatal s cause).tiles = s.tiles ∧ (goFatal s cause).memStacks = s.memStacks := by
  obtain ⟨_, _, _, h⟩ := failBeacons_sentFrom
    { logEntry s srcOchre 0x06 3 cause with lamp := { (logEntry s srcOchre 0x06 3 cause).lamp with stopped := true } } 6
  unfold goFatal
  dsimp only
  rw [h]
  exact ⟨rfl, rfl, rfl, logEntry_mem .., logEntry_tiles .., logEntry_memStacks ..⟩

theorem exec_fatal_idle {s : State} (cause : BitVec 8) (h : s.power ≠ .run) : exec (.fatal cause) s = .next s := by
  show execFatal cause s = _
  rw [execFatal, if_neg h]

theorem exec_fatal_run {s : State} (cause : BitVec 8) (h : s.power = .run) :
    exec (.fatal cause) s = .next (goFatal s cause.toNat) := by
  show execFatal cause s = _
  rw [execFatal, if_pos h]

/-! ### The test of a structure and its record (R665, R666) -/

/-- The passes of the last day, one that is made now among them. -/
def passesWithNow (s : State) (x : Structure) : List Nat :=
  s.mono :: (recordOf s x).passes.filter fun t => decide (s.mono < t + dayNs)

theorem tested_fail (s : State) (x : Structure) : (tested s x false).2 = true := rfl

theorem tested_pass (s : State) (x : Structure) :
    tested s x true =
      let u := logEntry s (structSrc x) 0x10 0 (soundDetail (structId s x) (recordOf s x).errors)
      if 3 ≤ (passesWithNow s x).length then (dropRecords u fun y => y = x, true)
      else (putRecord u ⟨x, passesWithNow s x, s.mono, 0⟩, false) := by
  simp only [tested, if_true, logEntry_mono]
  rfl

/-- The third pass within a day makes the fault lasting. -/
theorem tested_pass_lasting (s : State) (x : Structure) : (tested s x true).2 = true ↔ 3 ≤ (passesWithNow s x).length := by
  rw [tested_pass]
  by_cases h : 3 ≤ (passesWithNow s x).length
  · simp [h]
  · simp [h]

/-- An earlier pass leaves its record as the newest. -/
theorem tested_pass_record {s : State} {x : Structure} (h : (passesWithNow s x).length < 3) :
    (tested s x true).1.rep.records.head? = some ⟨x, passesWithNow s x, s.mono, 0⟩ := by
  rw [tested_pass]
  simp only [if_neg (Nat.not_le.2 h)]
  rfl

/-! ### The whole tile and its lanes (R16 to R18, R190, R314, R663) -/

/-- Without a spare whose pace meets the bound, the tile leaves service. -/
theorem repairTile_leaves {s : State} {t : Nat} {pace : Bool} (h : s.rep.spareUsed.contains (t / 8) = true ∨ pace = false) :
    ((repairTile s t pace).tile t).oos = true := by
  have hc : (s.rep.spareUsed.contains (t / 8) || !pace) = true := by
    rcases h with h | h
    · rw [h, Bool.true_or]
    · rw [h, Bool.not_false, Bool.or_true]
  simp only [repairTile, hc, if_true, State.tile_updTile]

/-- The cluster's spare takes the tile, and is spent. -/
theorem repairTile_spare {s : State} {t : Nat} (h : s.rep.spareUsed.contains (t / 8) = false) :
    (repairTile s t true).rep.spareUsed = s.rep.spareUsed ++ [t / 8] ∧
      ((repairTile s t true).tile t).phys = some (clusterSpare (t / 8)) := by
  have hc : ¬ (s.rep.spareUsed.contains (t / 8) || !true) = true := by rw [h]; exact Bool.false_ne_true
  unfold repairTile
  rw [if_neg hc]
  simp only [repaired_spareUsed, dropRecords_spareUsed, State.updTile_rep, repaired_tile, dropRecords_tile,
    State.tile_updTile, if_true, and_self]

/-- A spare lane that is spent or bad repairs nothing. -/
theorem repairLane_none {s : State} {t l : Nat} (h : (s.tile t).vec.spent = true ∨ (s.tile t).vec.spareBad = true) :
    repairLane s t l = (s, false) := by
  unfold repairLane
  exact if_pos (by simpa only [Bool.or_eq_true] using h)

/-- A spare lane takes the lane: it is spent on it, its patrol stops, and memory is as it was. -/
theorem repairLane_takes {s : State} {t l : Nat} (h : (s.tile t).vec.spent = false) (hb : (s.tile t).vec.spareBad = false) :
    (repairLane s t l).2 = true ∧ (repairLane s t l).1.mem = s.mem ∧
      ((repairLane s t l).1.tile t).vec = { (s.tile t).vec with spent := true, spare := l, patrol := false } := by
  have hc : ¬ ((s.tile t).vec.spent || (s.tile t).vec.spareBad) = true := by simp [h, hb]
  unfold repairLane
  rw [if_neg hc]
  simp

/-! ### SOUNDING (R663 to R669) -/

section Sounding

variable {s : State} {x : Structure} {res : SoundResult}

theorem exec_sounding_idle (h : s.power ≠ .run ∨ soundDue s x = false) : exec (.sounding x res) s = .next s := by
  have hn : ¬ (s.power = .run && soundDue s x) = true := by
    rcases h with h | h <;> simp [h]
  show execSounding x res s = _
  rw [execSounding, if_neg hn]

theorem exec_sounding_due (hp : s.power = .run) (hd : soundDue s x = true) :
    exec (.sounding x res) s = .next (feSettle (soundRun s x res)) := by
  have hc : (s.power = .run && soundDue s x) = true := by simp [hp, hd]
  show execSounding x res s = _
  rw [execSounding, if_pos hc]

/-- The patrolling spare has failed: it is retired, and the structure only released (R667). -/
theorem soundRun_spare_fails (h : res.patrol = some false) :
    soundRun s x res = release (retireSpare (soundTaken s x) x) x := by
  unfold soundRun
  exact if_pos h

/-- A structure of memory or of a link is tested, and repaired when the fault is lasting (R664). -/
theorem soundRun_no_tile (h : res.patrol ≠ some false) (ht : tileOf x = none) :
    soundRun s x res =
      let r := tested (soundTaken s x) x res.pass
      if r.2 then (repairOf r.1 x res.pace).1 else r.1 := by
  simp only [soundRun, if_neg h, ht]
  split <;> rfl

/-- A structure of a tile that passes, other than the tile whole, leaves the tile only to be released (R664, R666). -/
theorem soundRun_transient {t : Nat} (h : res.patrol = none) (ht : tileOf x = some t) (hw : ∀ t, x ≠ .tile t)
    (hr : (tested (soundTaken s x) x res.pass).2 = false) :
    soundRun s x res = release (tested (soundTaken s x) x res.pass).1 x := by
  have hp : res.patrol ≠ some false := by rw [h]; exact nofun
  unfold soundRun
  rw [if_neg hp]
  -- By `hw` the structure is not the tile whole, so neither the command nor the tile is touched.
  simp only [hr, h, ht, Bool.false_eq_true, if_false, Option.isSome_none, Bool.false_and, Bool.or_false]

end Sounding

/-! ### The writes of the journal (R598, R639) -/

section JournalWrites

variable {s : State}

theorem exec_journalDeviceWriteEnd_idle (h : s.power = .off ∨ s.start.jpend = []) : exec .journalDeviceWriteEnd s = .next s := by
  show execJournalDeviceWriteEnd s = _
  unfold execJournalDeviceWriteEnd
  split
  · rfl
  · next hp => rw [h.resolve_left hp]

variable {e : JEntry} {ps : List (JEntry × Bool)}

theorem exec_journalDeviceWriteEnd_first (hp : s.power ≠ .off) (h : s.start.jpend = (e, false) :: ps) :
    exec .journalDeviceWriteEnd s = .next { s with start := { s.start with
      j0 := s.start.j0 ++ [e], jpend := if s.power = .failing then [] else (e, true) :: ps } } := by
  show execJournalDeviceWriteEnd s = _
  rw [execJournalDeviceWriteEnd, if_neg hp, h]

theorem exec_journalDeviceWriteEnd_second (hp : s.power ≠ .off) (h : s.start.jpend = (e, true) :: ps) :
    exec .journalDeviceWriteEnd s = .next { s with start := { s.start with
      j1 := s.start.j1 ++ [e], jpend := if s.power = .failing then [] else ps } } := by
  show execJournalDeviceWriteEnd s = _
  rw [execJournalDeviceWriteEnd, if_neg hp, h]

end JournalWrites

/-! ### REGISTER_WRITE (R7, R11) -/

/-- A word is what its eight bytes make. -/
@[simp] theorem wordOf_toBytes (v : Word) : wordOf (toBytes 8 v.toNat) = v := by
  rw [wordOf, ofBytes_toBytes, Nat.mod_eq_of_lt (show v.toNat < 256 ^ 8 from v.isLt), BitVec.ofNat_toNat, BitVec.setWidth_eq]

section RegisterWrites

variable {s : State} {a : Word} {l : Nat}

/-- An address that is not this module's reaches nothing. -/
theorem exec_registerWrite_elsewhere (v : Word) (hp : s.power = .run) (h : localAddr s a = none) :
    exec (.registerWrite a v) s = .next s := by
  show execRegisterWrite a v s = _
  rw [execRegisterWrite, if_neg (not_not_intro hp), h]

/-- An address of this module reaches the block that holds it, if one does. -/
theorem exec_registerWrite_here (v : Word) (hp : s.power = .run) (h : localAddr s a = some l) : exec (.registerWrite a v) s =
    .next (if isRegBlock s l then (regWrite s l (toBytes 8 v.toNat) false false).getD s else s) := by
  show execRegisterWrite a v s = _
  rw [execRegisterWrite, if_neg (not_not_intro hp), h]

/-- Eight bytes reach the block of an aligned register, and none of another (R11). -/
theorem regWrite_word (v : Word) (task gsvc : Bool) (hb : bstkAt l 8 = none) (hh : histAt l = none) :
    regWrite s l (toBytes 8 v.toNat) task gsvc = if l % 8 = 0 then some (blockWrite s l v task gsvc) else none := by
  simp only [regWrite, toBytes_length, hb, hh, wordOf_toBytes]
  by_cases h : l % 8 = 0 <;> simp [h]

end RegisterWrites

/-! ### O35 -/

/-- Settles O35, part by part: each clause is one of the lemmas above. -/
theorem soundingAndReports : Obligations.SoundingAndReports := by
  unfold Obligations.SoundingAndReports
  refine ⟨fun s x res => ⟨exec_sounding_idle, fun hp hd => ?_, tested_fail s x, fun t pace => repairTile_leaves, fun t h => ?_, ?_,
    fun t l => ⟨repairLane_none, fun h hb => ?_⟩⟩, fun s cause => ⟨exec_fatal_idle cause, fun h => ?_⟩,
    fun s e ps => ⟨exec_journalDeviceWriteEnd_idle, exec_journalDeviceWriteEnd_first, exec_journalDeviceWriteEnd_second⟩,
    fun s a v hp => ?_⟩
  · rw [exec_sounding_due hp hd]
    exact ⟨fun h => by rw [soundRun_spare_fails h], fun h ht => by rw [soundRun_no_tile h ht],
      fun t h ht hw hr => by rw [soundRun_transient h ht hw hr]⟩
  · obtain ⟨hu, hph⟩ := repairTile_spare h
    exact ⟨by simp [hu], hph⟩
  · exact ⟨tested_pass_lasting s x, tested_pass_record⟩
  · obtain ⟨h2, hm, hv⟩ := repairLane_takes (l := l) h hb
    rw [hv]
    exact ⟨h2, rfl, rfl, rfl, hm⟩
  · exact ⟨_, exec_fatal_run cause h, goFatal_spec s cause.toNat⟩
  · refine ⟨exec_registerWrite_elsewhere v hp, fun l h => ?_⟩
    rw [exec_registerWrite_here v hp h]
    refine ⟨fun hr => by simp [hr], fun hr hb hh => ?_⟩
    rw [if_pos hr, regWrite_word v false false hb hh]
    exact ⟨fun h8 => by rw [if_pos h8]; rfl, fun h8 => by rw [if_neg h8]; rfl⟩

end Sys2Proof.Machine
end

section
/-! SUPPORT. The references and the sources of wall time, and the proof of O14. -/

namespace Sys2Proof.Machine

open Sys2Proof

/-! ### The loss and the return of a reference (R50 to R53) -/

/-- The generators that run on REFCLK0. -/
def gensOnRef0 (s : State) : List Nat := (List.range 5).filter fun g => !s.tu.gens.getLsbD g

/-- No generator is left on REFCLK0 just when all five bits are set. -/
theorem gensOnRef0_eq_nil {s : State} : gensOnRef0 s = [] ↔ s.tu.gens = 31 := by
  have all_set : ∀ b : BitVec 5, ((List.range 5).filter fun g => !b.getLsbD g) = [] ↔ b = 31 := by decide
  exact all_set s.tu.gens

/-- One entry of the drip log for each generator that leaves REFCLK0 (R51). -/
def switchEntries (s : State) : State := (gensOnRef0 s).foldl (fun s g => logEntry s srcTime 0x40 0 g) s

/-- The entries of the switch change only what is reported. -/
theorem switchEntries_eq (s : State) : ∃ r, switchEntries s = { s with rep := r } := by
  refine List.foldlRecOn (motive := fun u => ∃ r, u = { s with rep := r }) _ _ ⟨s.rep, rfl⟩ fun u hu g _ => ?_
  obtain ⟨r, rfl⟩ := hu
  obtain ⟨_, _, _, _, h⟩ := logEntry_eq { s with rep := r } srcTime 0x40 0 g
  exact ⟨_, h⟩

theorem switchGens_none {s : State} (h : s.tu.gens = 31) : switchGens s = s := by
  have hl : gensOnRef0 s = [] := gensOnRef0_eq_nil.2 h
  show (if gensOnRef0 s = [] then switchEntries s else _) = s
  rw [if_pos hl, switchEntries, hl, List.foldl_nil]

/-- A switch writes its entries, moves every generator to REFCLK1 and shows in MOD_REFSTAT.sw. -/
theorem switchGens_some {s : State} (h : s.tu.gens ≠ 31) :
    switchGens s = { switchEntries s with tu := { (switchEntries s).tu with gens := 31, sw := true } } :=
  if_neg (mt gensOnRef0_eq_nil.1 h)

/-- REFCLK0 is gone, and nothing has switched yet. -/
def ref0Lost (s : State) : State := { s with tu := { s.tu with ref0 := false } }

section References

variable {s : State} (hp : s.power = .run)

include hp

theorem exec_referenceClockLoss_ref1 (h : s.tu.ref0 = true) :
    exec (.referenceClockLoss .ref1) s = .next { s with tu := { s.tu with ref1 := false } } := by
  show execReferenceClockLoss .ref1 s = _
  simp [execReferenceClockLoss, hp, h]

/-- REFCLK0 is lost beside REFCLK1: what is left on it switches. -/
theorem exec_referenceClockLoss_ref0 (h : s.tu.ref1 = true) :
    exec (.referenceClockLoss .ref0) s = .next (switchGens (ref0Lost s)) := by
  show execReferenceClockLoss .ref0 s = _
  simp [execReferenceClockLoss, ref0Lost, hp, h]

theorem exec_referenceClockLoss_ref0_switched (h : s.tu.ref1 = true) (hg : s.tu.gens = 31) :
    exec (.referenceClockLoss .ref0) s = .next (ref0Lost s) := by
  rw [exec_referenceClockLoss_ref0 hp h, switchGens_none (s := ref0Lost s) hg]

theorem exec_referenceClockLoss_ref0_switch (h : s.tu.ref1 = true) (hg : s.tu.gens ≠ 31) :
    ∃ r, exec (.referenceClockLoss .ref0) s =
      .next { s with tu := { s.tu with ref0 := false, gens := 31, sw := true }, rep := r } := by
  obtain ⟨r, hr⟩ := switchEntries_eq (ref0Lost s)
  rw [exec_referenceClockLoss_ref0 hp h, switchGens_some (s := ref0Lost s) hg, hr]
  exact ⟨r, rfl⟩

end References

/-! ### The servo (R55, R58) -/

theorem clamp32_eq (x : Int) : clamp32 x = max (-2147483648) (min 2147483647 x) := by
  unfold clamp32
  split
  · omega
  · split <;> omega

/-- MOD_TIMESTAT shows a measured error. -/
def timeMeasured (s : State) (err : Int) : State :=
  { s with tu := { s.tu with offset := clamp32 err, locked := decide ((clamp32 err).natAbs ≤ 100) } }

/-- An error that is not more than 1 ms behind is left to the rate. -/
theorem servo_steers {s : State} {err : Int} (h : -1000000 ≤ err) :
    servo s err = { timeMeasured s err with tu := { (timeMeasured s err).tu with steer := err, slewAcc := 0 } } :=
  if_neg (Int.not_lt.2 h)

/-- A larger one steps MOD_TIME forward by it, with an entry that holds it. -/
theorem servo_steps_logged {s : State} {err : Int} (h : err < -1000000) :
    servo s err =
      let u := logEntry (timeMeasured s err) srcTime 0x41 0 err.natAbs
      { u with time := u.time + err.natAbs, tu := { u.tu with stepped := true, steer := 0, slewAcc := 0 } } :=
  if_pos h

theorem servo_steps {s : State} {err : Int} (h : err < -1000000) :
    ∃ r, servo s err = { s with
      time := s.time + err.natAbs,
      tu := { (timeMeasured s err).tu with stepped := true, steer := 0, slewAcc := 0 },
      rep := r } := by
  obtain ⟨_, _, _, _, hl⟩ := logEntry_eq (timeMeasured s err) srcTime 0x41 0 err.natAbs
  rw [servo_steps_logged h, hl]
  exact ⟨_, rfl⟩

/-! ### 1PPS and PTP (R56, R553) -/

section Sources

variable {s : State} (hp : s.power = .run)

/-- An edge of 1PPS captures MOD_TIME. -/
def ppsCaptured (s : State) : State :=
  { s with tu := { s.tu with ppscap := BitVec.ofNat 64 s.time, ppsSeen := true } }

theorem ppsOn_ppsCaptured : ppsOn (ppsCaptured s) = !s.tu.ppsOut := Bool.true_and _

include hp

theorem exec_ppsEdge_captures (h : s.tu.ppsOut = true ∨ s.tu.src = 0) : exec .ppsEdge s = .next (ppsCaptured s) := by
  have hn : ¬ (ppsOn (ppsCaptured s) && (ppsCaptured s).tu.src ≠ 0) = true := by
    rw [ppsOn_ppsCaptured]
    rcases h with h | h <;> simp [h, ppsCaptured]
  show execPpsEdge s = _
  rw [execPpsEdge, if_neg (not_not_intro hp)]
  exact congrArg _ (if_neg hn)

/-- With 1PPS selected and the count of seconds from PTP, the edge is the start of a second. -/
theorem exec_ppsEdge_second (h : s.tu.ppsOut = false) (hs : s.tu.src ≠ 0) :
    exec .ppsEdge s =
      .next (servo { ppsCaptured s with tu := { (ppsCaptured s).tu with src := 2 } } (secondError s.time)) := by
  have hc : (ppsOn (ppsCaptured s) && (ppsCaptured s).tu.src ≠ 0) = true := by
    rw [ppsOn_ppsCaptured]
    simpa [h, ppsCaptured] using hs
  show execPpsEdge s = _
  rw [execPpsEdge, if_neg (not_not_intro hp)]
  exact congrArg _ (if_pos hc)

theorem exec_ppsLost_selected (h : ppsOn s = true) :
    ∃ r, exec .ppsLost s = .next { s with
      tu := { s.tu with ppslost := true, ppsOut := true, src := if s.tu.src = 2 then 1 else s.tu.src },
      rep := r } := by
  obtain ⟨_, _, _, _, hl⟩ := logEntry_eq s srcTime 0x42 0 0
  have hn : ¬ (s.power ≠ .run || !ppsOn s) = true := by simp [hp, h]
  show ∃ r, execPpsLost s = _
  rw [execPpsLost, if_neg hn, hl]
  exact ⟨_, rfl⟩

/-- Without 1PPS, a PTP port that is up gives the time. -/
theorem exec_ptpEventMessage_alone (p : PortNo) (err : Int) (hu : portUp s p.val = true)
    (hq : (s.hport p.val).ptp = true) (h : ppsOn s = false) :
    exec (.ptpEventMessage p err) s = .next (servo { s with tu := { s.tu with src := 1 } } err) := by
  show execPtpEventMessage p err s = _
  simp [execPtpEventMessage, hp, hu, hq, h]

omit hp in
theorem exec_ptpEventMessage_no_ptp (p : PortNo) (err : Int) (hq : (s.hport p.val).ptp = false) :
    exec (.ptpEventMessage p err) s = .next s := by
  show execPtpEventMessage p err s = _
  simp [execPtpEventMessage, hq]

/-- With no master heard, MOD_TIME runs freely. -/
theorem exec_ptpSourceLoss_free (h : s.tu.src ≠ 0) :
    exec .ptpSourceLoss s = .next { s with tu := { s.tu with src := 0, locked := false, steer := 0, slewAcc := 0 } } := by
  have hn : ¬ (s.power ≠ .run || s.tu.src = 0) = true := by simpa [hp] using h
  show execPtpSourceLoss s = _
  rw [execPtpSourceLoss, if_neg hn]

omit hp in
theorem exec_ptpSourceLoss_idle (h : s.tu.src = 0) : exec .ptpSourceLoss s = .next s := by
  show execPtpSourceLoss s = _
  simp [execPtpSourceLoss, h]

end Sources

/-! ### O14 -/

/-- Settles O14, clause by clause: each is one of the lemmas above. -/
theorem timeSources : Obligations.TimeSources := by
  unfold Obligations.TimeSources
  intro s hp
  refine ⟨exec_referenceClockLoss_ref1 hp, exec_referenceClockLoss_ref0_switched hp,
    exec_referenceClockLoss_ref0_switch hp, rfl, rfl, exec_ppsEdge_captures hp, exec_ppsEdge_second hp,
    fun hs ho => exec_ppsLost_selected hp (by simp [ppsOn, hs, ho]), fun p err hu hq h => ?_,
    exec_ptpEventMessage_no_ptp, exec_ptpSourceLoss_free hp, exec_ptpSourceLoss_idle, fun err => ?_⟩
  · have hu' : portUp s p.val = true := decide_eq_true hu
    exact exec_ptpEventMessage_alone hp p err hu' hq (by rcases h with h | h <;> simp [ppsOn, h])
  · rw [← clamp32_eq]
    exact ⟨servo_steers, servo_steps⟩

end Sys2Proof.Machine
end

section
/-! SUPPORT. What a step and a tick run, and the proof of O44. -/

namespace Sys2Proof.Machine

open Sys2Proof

/-! ### The step and the tick (log 9) -/

theorem step_empty {s : State} (h : s.pending = []) : step s = tick s := by rw [step, h]

theorem tick_idle {s : State} (h : s.power ≠ .run) : tick s = .next s := by
  have hs : tickStep s = s := if_neg h
  rw [tick, hs]
  exact if_neg h

/-- The tick of a module that runs: time and the front end, the engines of the tiles, the cores, then the links. -/
theorem tick_run {s r : State} (hp : s.power = .run) (ha : (feSettle (writesPerformed (idle s))).power = .run)
    (hr : let a := feSettle (writesPerformed (idle s))
      let u := (a.tiles.map fun p => p.1).foldl tileTick a
      runCores (coresOf u) u = .next r) :
    tick s = .next (pumpAll r) := by
  have hs : tickStep s = feSettle (writesPerformed (idle s)) := if_pos hp
  simp only [tick, hs, ha, if_true, hr]

/-! ### A core that is visited (R36, R70, R73, R133) -/

section RunCore

variable {s : State} {c : CoreId}

theorem runCore_not_issuing (h : issuing s c = false) : runCore c s = .next s := by
  simp [runCore, h]

variable (hi : issuing s c = true)

include hi

theorem runCore_interrupt (hb : (bestSource s c).isSome = true) : runCore c s = execInterrupt c s := by
  simp [runCore, hi, hb]

variable (hb : (bestSource s c).isSome = false)

include hb

theorem runCore_held (hh : held s c = true) : runCore c s = .next (addStall s c) := by
  simp only [runCore, hi, hb, hh, Bool.not_true, Bool.false_eq_true, if_false, if_true]

variable (hh : held s c = false) {u : State}

include hh

theorem runCore_fetch_error {t : Trap} (hf : fetchInstr s c = (u, .error t)) :
    runCore c s = .next (issue c [] 2 true done u) := by
  simp only [runCore, hi, hb, hh, hf, Bool.not_true, Bool.false_eq_true, if_false]

/-- Bytes that are had: a core without firmware waits, any other runs them (log 100). -/
theorem runCore_fetched {bs : List Byte} (hf : fetchInstr s c = (u, .ok bs)) :
    runCore c s = if noFirmware u c bs then .next s else runBytes c bs u := by
  simp only [runCore, hi, hb, hh, hf, Bool.not_true, Bool.false_eq_true, if_false]

end RunCore

theorem runBytes_instr {c : CoreId} {bs : List Byte} {u : State} {i : Instr} (h : decodeInstr c bs = .instr i) :
    runBytes c bs u = exec i u := by
  rw [runBytes, h]

theorem runBytes_illegal {c : CoreId} {bs : List Byte} {u : State} (h : decodeInstr c bs = .illegal) :
    runBytes c bs u = .next (issueIllegal c bs.length u) := by
  rw [runBytes, h]

/-! ### O44 -/

/-- Settles O44: the step by the queue, the tick by its phases, and a visited core by what it meets first. -/
theorem stepRunsTheFrontCommand : Obligations.StepRunsTheFrontCommand := by
  unfold Obligations.StepRunsTheFrontCommand
  refine ⟨fun s c rest => rfl, fun s hq => ?_, fun s c => ⟨runCore_not_issuing, fun hi => ?_⟩⟩
  · rw [step_empty hq]
    exact ⟨tick_idle, fun hp ha r hr => tick_run hp ha hr⟩
  · refine ⟨runCore_interrupt hi, runCore_held hi, fun hb hh => ⟨fun u t => runCore_fetch_error hi hb hh, fun u bs hf => ?_⟩⟩
    rw [runCore_fetched hi hb hh hf]
    refine ⟨fun hn => if_pos hn, fun hn => ?_⟩
    rw [hn, if_neg Bool.false_ne_true]
    exact ⟨fun i => runBytes_instr, runBytes_illegal⟩

end Sys2Proof.Machine
end

section
/-! SUPPORT. The words of the instruction layouts, field by field, and the proof of O51. -/

namespace Sys2Proof.Machine

open Sys2Proof

/-! ### The word that the bytes at a pc make (R64, R72) -/

theorem decodeInstr_long {c : CoreId} {w : Nat} (hw : w < 2 ^ 32) (ho : w % 2 = 1) :
    decodeInstr c (toBytes 4 w) = decodeLong c w := by
  have hb : ofBytes (toBytes 4 w) = w := by rw [ofBytes_toBytes, Nat.mod_eq_of_lt (by omega)]
  have hr : fld w 0 16 ≠ repHalf := by simp only [fld, repHalf]; omega
  simp [decodeInstr, hb, hr, ho]

theorem decodeInstr_short {c : CoreId} {w : Nat} (hw : w < 2 ^ 16) (he : w % 2 = 0) (hr : w ≠ repHalf) :
    decodeInstr c (toBytes 2 w) = decodeShort c w := by
  have hb : ofBytes (toBytes 2 w) = w := by rw [ofBytes_toBytes, Nat.mod_eq_of_lt (by omega)]
  have hf : fld w 0 16 = w := by simp only [fld]; omega
  simp [decodeInstr, hb, hf, hr, he]

/-- After the rep halfword stands the string instruction (R95). -/
theorem decodeInstr_rep {c : CoreId} {w : Nat} (hw : w < 2 ^ 32) :
    decodeInstr c (toBytes 6 (w * 2 ^ 16 + repHalf)) = decodeString c true w := by
  have hb : ofBytes (toBytes 6 (w * 2 ^ 16 + repHalf)) = w * 2 ^ 16 + repHalf := by
    rw [ofBytes_toBytes, Nat.mod_eq_of_lt (by simp only [repHalf]; omega)]
  have hd : (w * 2 ^ 16 + repHalf) / 2 ^ 16 = w := by simp only [repHalf]; omega
  simp only [decodeInstr, hb, hd, toBytes_length, if_true]

/-! ### The layouts (R72, R74, R173) -/

/-- Layout LR: func in [15:7]. -/
def lrWord (f : LR) (m k : Nat) : Nat :=
  f.rd.toNat * 2 ^ 27 + f.rs1.toNat * 2 ^ 22 + f.rs2.toNat * 2 ^ 17 + b2n f.f * 2 ^ 16 + k * 2 ^ 7 + m * 2 + 1

/-- Layout LI. -/
def liWord (f : LI) (m : Nat) : Nat :=
  f.rd.toNat * 2 ^ 27 + f.rs1.toNat * 2 ^ 22 + b2n f.f * 2 ^ 21 + f.imm.toNat * 2 ^ 7 + m * 2 + 1

/-- Layout LI of an immediate shift, which imm[13:12] names. -/
def liShWord (f : LISh) (k : Nat) : Nat :=
  f.rd.toNat * 2 ^ 27 + f.rs1.toNat * 2 ^ 22 + b2n f.f * 2 ^ 21 + k * 2 ^ 19 + f.mbz.toNat * 2 ^ 13 + f.amt.toNat * 2 ^ 7 + 0x06 * 2 + 1

/-- Layout LM: a load or a store. -/
def lmWord (r b : Reg) (a : BitVec 15) (m : Nat) : Nat := r.toNat * 2 ^ 27 + b.toNat * 2 ^ 22 + a.toNat * 2 ^ 7 + m * 2 + 1

/-- Layout LC: func10 in [16:7]. -/
def lcWord (f : LC) (m k : Nat) : Nat :=
  f.rd.toNat * 2 ^ 27 + f.rs1.toNat * 2 ^ 22 + f.rs2.toNat * 2 ^ 17 + k * 2 ^ 7 + m * 2 + 1

/-- Layout VR of a major with the scalar bit, func[6]. -/
def vrsWord (f : VR) (m k : Nat) : Nat :=
  f.vd.toNat * 2 ^ 27 + f.vs1.toNat * 2 ^ 22 + f.vs2.toNat * 2 ^ 17 + f.vm.toNat * 2 ^ 14 + b2n f.s * 2 ^ 13 + k * 2 ^ 7 + m * 2 + 1

/-- Layout VR of a major without it. -/
def vrWord (f : VR) (m k : Nat) : Nat :=
  f.vd.toNat * 2 ^ 27 + f.vs1.toNat * 2 ^ 22 + f.vs2.toNat * 2 ^ 17 + f.vm.toNat * 2 ^ 14 + k * 2 ^ 7 + m * 2 + 1

/-- Layout VF. -/
def vfWord (f : VF) (m k : Nat) : Nat :=
  f.vd.toNat * 2 ^ 27 + f.vs1.toNat * 2 ^ 22 + f.vs2.toNat * 2 ^ 17 + f.vs3.toNat * 2 ^ 12 + f.vm.toNat * 2 ^ 9 + k * 2 ^ 7 + m * 2 + 1

/-- Layout VM: bit 18 tells a store from a load. -/
def vmWord (f : VM) (k : Nat) : Nat :=
  f.vt.toNat * 2 ^ 27 + f.base.toNat * 2 ^ 22 + f.vm.toNat * 2 ^ 19 + k * 2 ^ 18 + f.simm.toNat * 2 ^ 7 + 0x21 * 2 + 1

theorem b2n_le_one (b : Bool) : b2n b ≤ 1 := by cases b <;> decide

/-- A field that holds an operand of its width gives it back. -/
theorem ofNat_fld {w lo n : Nat} {r : BitVec n} (h : fld w lo n = r.toNat) : BitVec.ofNat n (fld w lo n) = r := by
  rw [h, BitVec.ofNat_toNat, BitVec.setWidth_eq]

theorem flagAt_of_fld {w lo : Nat} {b : Bool} (h : fld w lo 1 = b2n b) : flagAt w lo = b := by
  rw [flagAt, h]; cases b <;> rfl

section LR

variable (f : LR) {m k : Nat} (hm : m < 64) (hk : k < 512)

include hm

theorem major_lrWord : fld (lrWord f m k) 1 6 = m := by
  have := b2n_le_one f.f
  simp only [fld, lrWord]; omega

include hk

theorem lrFunc_lrWord : lrFunc (lrWord f m k) = k := by
  have := b2n_le_one f.f
  simp only [lrFunc, fld, lrWord]; omega

theorem lrOf_lrWord : lrOf (lrWord f m k) = f := by
  have := b2n_le_one f.f
  have h1 : regAt (lrWord f m k) 27 = f.rd := ofNat_fld (by simp only [fld, lrWord]; omega)
  have h2 : regAt (lrWord f m k) 22 = f.rs1 := ofNat_fld (by simp only [fld, lrWord]; omega)
  have h3 : regAt (lrWord f m k) 17 = f.rs2 := ofNat_fld (by simp only [fld, lrWord]; omega)
  have h4 : flagAt (lrWord f m k) 16 = f.f := flagAt_of_fld (by simp only [fld, lrWord]; omega)
  rw [lrOf, h1, h2, h3, h4]

theorem decodeInstr_lrWord (c : CoreId) : decodeInstr c (toBytes 4 (lrWord f m k)) = decodeLong c (lrWord f m k) := by
  have := b2n_le_one f.f
  exact decodeInstr_long (by simp only [lrWord]; omega) (by simp only [lrWord]; omega)

end LR

section LI

variable (f : LI) {m : Nat} (hm : m < 64)

include hm

theorem major_liWord : fld (liWord f m) 1 6 = m := by
  have := b2n_le_one f.f
  simp only [fld, liWord]; omega

theorem liOf_liWord : liOf (liWord f m) = f := by
  have := b2n_le_one f.f
  have h1 : regAt (liWord f m) 27 = f.rd := ofNat_fld (by simp only [fld, liWord]; omega)
  have h2 : regAt (liWord f m) 22 = f.rs1 := ofNat_fld (by simp only [fld, liWord]; omega)
  have h3 : flagAt (liWord f m) 21 = f.f := flagAt_of_fld (by simp only [fld, liWord]; omega)
  have h4 : BitVec.ofNat 14 (fld (liWord f m) 7 14) = f.imm := ofNat_fld (by simp only [fld, liWord]; omega)
  rw [liOf, h1, h2, h3, h4]

theorem decodeInstr_liWord (c : CoreId) : decodeInstr c (toBytes 4 (liWord f m)) = decodeLong c (liWord f m) := by
  have := b2n_le_one f.f
  exact decodeInstr_long (by simp only [liWord]; omega) (by simp only [liWord]; omega)

end LI

section LISh

variable (f : LISh) {k : Nat} (hk : k < 4)

include hk

theorem liShOf_liShWord : liShOf (liShWord f k) = f := by
  have := b2n_le_one f.f
  have h1 : regAt (liShWord f k) 27 = f.rd := ofNat_fld (by simp only [fld, liShWord]; omega)
  have h2 : regAt (liShWord f k) 22 = f.rs1 := ofNat_fld (by simp only [fld, liShWord]; omega)
  have h3 : flagAt (liShWord f k) 21 = f.f := flagAt_of_fld (by simp only [fld, liShWord]; omega)
  have h4 : BitVec.ofNat 6 (fld (liShWord f k) 13 6) = f.mbz := ofNat_fld (by simp only [fld, liShWord]; omega)
  have h5 : BitVec.ofNat 6 (fld (liShWord f k) 7 6) = f.amt := ofNat_fld (by simp only [fld, liShWord]; omega)
  rw [liShOf, h1, h2, h3, h4, h5]

theorem decodeInstr_liShWord (c : CoreId) : decodeInstr c (toBytes 4 (liShWord f k)) = decodeShift c (liShWord f k) := by
  have := b2n_le_one f.f
  have hm : fld (liShWord f k) 1 6 = 0x06 := by simp only [fld, liShWord]; omega
  rw [decodeInstr_long (by simp only [liShWord]; omega) (by simp only [liShWord]; omega)]
  simp only [decodeLong, hm]

theorem shift_liShWord : fld (liShWord f k) 19 2 = k := by
  have := b2n_le_one f.f
  simp only [fld, liShWord]; omega

end LISh

section LM

variable (c : CoreId) (r b : Reg) (a : BitVec 15) {m : Nat} (hm : m < 64)

include hm

theorem major_lmWord : fld (lmWord r b a m) 1 6 = m := by simp only [fld, lmWord]; omega

theorem decodeInstr_lmWord : decodeInstr c (toBytes 4 (lmWord r b a m)) = decodeLong c (lmWord r b a m) :=
  decodeInstr_long (by simp only [lmWord]; omega) (by simp only [lmWord]; omega)

theorem loadOf_lmWord (k : LdKind) : loadOf c k (lmWord r b a m) = .instr (.ld c (.long k r b a)) := by
  have h1 : regAt (lmWord r b a m) 27 = r := ofNat_fld (by simp only [fld, lmWord]; omega)
  have h2 : regAt (lmWord r b a m) 22 = b := ofNat_fld (by simp only [fld, lmWord]; omega)
  have h3 : BitVec.ofNat 15 (fld (lmWord r b a m) 7 15) = a := ofNat_fld (by simp only [fld, lmWord]; omega)
  rw [loadOf, h1, h2, h3]

theorem storeOf_lmWord (k : StKind) : storeOf c k (lmWord r b a m) = .instr (.st c (.long k r b a)) := by
  have h1 : regAt (lmWord r b a m) 27 = r := ofNat_fld (by simp only [fld, lmWord]; omega)
  have h2 : regAt (lmWord r b a m) 22 = b := ofNat_fld (by simp only [fld, lmWord]; omega)
  have h3 : BitVec.ofNat 15 (fld (lmWord r b a m) 7 15) = a := ofNat_fld (by simp only [fld, lmWord]; omega)
  rw [storeOf, h1, h2, h3]

end LM

section LC

variable (f : LC) {m k : Nat} (hm : m < 64) (hk : k < 1024)

include hm

theorem major_lcWord : fld (lcWord f m k) 1 6 = m := by simp only [fld, lcWord]; omega

include hk

theorem lcFunc_lcWord : lcFunc (lcWord f m k) = k := by simp only [lcFunc, fld, lcWord]; omega

theorem lcOf_lcWord : lcOf (lcWord f m k) = f := by
  have h1 : regAt (lcWord f m k) 27 = f.rd := ofNat_fld (by simp only [fld, lcWord]; omega)
  have h2 : regAt (lcWord f m k) 22 = f.rs1 := ofNat_fld (by simp only [fld, lcWord]; omega)
  have h3 : regAt (lcWord f m k) 17 = f.rs2 := ofNat_fld (by simp only [fld, lcWord]; omega)
  rw [lcOf, h1, h2, h3]

theorem decodeInstr_lcWord (c : CoreId) : decodeInstr c (toBytes 4 (lcWord f m k)) = decodeLong c (lcWord f m k) :=
  decodeInstr_long (by simp only [lcWord]; omega) (by simp only [lcWord]; omega)

end LC

section VR

variable (f : VR) {m k : Nat} (hm : m < 64) (hk : k < 128)

include hm

theorem major_vrWord : fld (vrWord f m k) 1 6 = m := by simp only [fld, vrWord]; omega

include hk

theorem func_vrWord : fld (vrWord f m k) 7 7 = k := by simp only [fld, vrWord]; omega

theorem vrOf_vrWord (hs : f.s = false) : vrOf (vrWord f m k) false = f := by
  have h1 : regAt (vrWord f m k) 27 = f.vd := ofNat_fld (by simp only [fld, vrWord]; omega)
  have h2 : regAt (vrWord f m k) 22 = f.vs1 := ofNat_fld (by simp only [fld, vrWord]; omega)
  have h3 : regAt (vrWord f m k) 17 = f.vs2 := ofNat_fld (by simp only [fld, vrWord]; omega)
  have h4 : BitVec.ofNat 3 (fld (vrWord f m k) 14 3) = f.vm := ofNat_fld (by simp only [fld, vrWord]; omega)
  rw [vrOf, h1, h2, h3, h4, ← hs]

theorem decodeInstr_vrWord (t : TileId) : decodeInstr (.tile t) (toBytes 4 (vrWord f m k)) = decodeLong (.tile t) (vrWord f m k) :=
  decodeInstr_long (by simp only [vrWord]; omega) (by simp only [vrWord]; omega)

end VR

section VRScalar

variable (f : VR) {m k : Nat} (hm : m < 64) (hk : k < 64)

include hm

theorem major_vrsWord : fld (vrsWord f m k) 1 6 = m := by
  have := b2n_le_one f.s
  simp only [fld, vrsWord]; omega

include hk

theorem func_vrsWord : fld (vrsWord f m k) 7 6 = k := by
  have := b2n_le_one f.s
  simp only [fld, vrsWord]; omega

theorem vrOf_vrsWord : vrOf (vrsWord f m k) (flagAt (vrsWord f m k) 13) = f := by
  have := b2n_le_one f.s
  have h1 : regAt (vrsWord f m k) 27 = f.vd := ofNat_fld (by simp only [fld, vrsWord]; omega)
  have h2 : regAt (vrsWord f m k) 22 = f.vs1 := ofNat_fld (by simp only [fld, vrsWord]; omega)
  have h3 : regAt (vrsWord f m k) 17 = f.vs2 := ofNat_fld (by simp only [fld, vrsWord]; omega)
  have h4 : BitVec.ofNat 3 (fld (vrsWord f m k) 14 3) = f.vm := ofNat_fld (by simp only [fld, vrsWord]; omega)
  have h5 : flagAt (vrsWord f m k) 13 = f.s := flagAt_of_fld (by simp only [fld, vrsWord]; omega)
  rw [vrOf, h1, h2, h3, h4, h5]

theorem decodeInstr_vrsWord (t : TileId) : decodeInstr (.tile t) (toBytes 4 (vrsWord f m k)) = decodeLong (.tile t) (vrsWord f m k) := by
  have := b2n_le_one f.s
  exact decodeInstr_long (by simp only [vrsWord]; omega) (by simp only [vrsWord]; omega)

end VRScalar

section VF

variable (f : VF) {m k : Nat} (hm : m < 64) (hk : k < 4)

include hm

theorem major_vfWord : fld (vfWord f m k) 1 6 = m := by simp only [fld, vfWord]; omega

include hk

theorem func_vfWord : fld (vfWord f m k) 7 2 = k := by simp only [fld, vfWord]; omega

theorem vfOf_vfWord (s : Bool) : vfOf (vfWord f m k) s = { f with s := s } := by
  have h1 : regAt (vfWord f m k) 27 = f.vd := ofNat_fld (by simp only [fld, vfWord]; omega)
  have h2 : regAt (vfWord f m k) 22 = f.vs1 := ofNat_fld (by simp only [fld, vfWord]; omega)
  have h3 : regAt (vfWord f m k) 17 = f.vs2 := ofNat_fld (by simp only [fld, vfWord]; omega)
  have h4 : regAt (vfWord f m k) 12 = f.vs3 := ofNat_fld (by simp only [fld, vfWord]; omega)
  have h5 : BitVec.ofNat 3 (fld (vfWord f m k) 9 3) = f.vm := ofNat_fld (by simp only [fld, vfWord]; omega)
  rw [vfOf, h1, h2, h3, h4, h5]

theorem decodeInstr_vfWord (t : TileId) : decodeInstr (.tile t) (toBytes 4 (vfWord f m k)) = decodeLong (.tile t) (vfWord f m k) :=
  decodeInstr_long (by simp only [vfWord]; omega) (by simp only [vfWord]; omega)

end VF

section VM

variable (f : VM) {k : Nat} (hk : k < 2)

theorem major_vmWord : fld (vmWord f k) 1 6 = 0x21 := by simp only [fld, vmWord]; omega

include hk

theorem store_vmWord : flagAt (vmWord f k) 18 = decide (k = 1) := by
  have h : fld (vmWord f k) 18 1 = k := by simp only [fld, vmWord]; omega
  rw [flagAt, h]

theorem vmOf_vmWord : vmOf (vmWord f k) = f := by
  have h1 : regAt (vmWord f k) 27 = f.vt := ofNat_fld (by simp only [fld, vmWord]; omega)
  have h2 : regAt (vmWord f k) 22 = f.base := ofNat_fld (by simp only [fld, vmWord]; omega)
  have h3 : BitVec.ofNat 3 (fld (vmWord f k) 19 3) = f.vm := ofNat_fld (by simp only [fld, vmWord]; omega)
  have h4 : BitVec.ofNat 11 (fld (vmWord f k) 7 11) = f.simm := ofNat_fld (by simp only [fld, vmWord]; omega)
  rw [vmOf, h1, h2, h3, h4]

theorem decodeInstr_vmWord (t : TileId) : decodeInstr (.tile t) (toBytes 4 (vmWord f k)) = decodeLong (.tile t) (vmWord f k) :=
  decodeInstr_long (by simp only [vmWord]; omega) (by simp only [vmWord]; omega)

end VM

/-- A string instruction (R93). -/
def strWord (z : BitVec 2) (m : BitVec 21) (op : Nat) : Nat := z.toNat * 2 ^ 30 + op * 2 ^ 28 + m.toNat * 2 ^ 7 + 0x0D * 2 + 1

section String

variable (c : CoreId) (z : BitVec 2) (m : BitVec 21) {op : Nat} (hop : op < 4)

include hop

theorem op_strWord : fld (strWord z m op) 28 2 = op := by simp only [fld, strWord]; omega

theorem size_strWord : BitVec.ofNat 2 (fld (strWord z m op) 30 2) = z := ofNat_fld (by simp only [fld, strWord]; omega)

omit hop in
theorem mbz_strWord : BitVec.ofNat 21 (fld (strWord z m op) 7 21) = m := ofNat_fld (by simp only [fld, strWord]; omega)

theorem decodeInstr_strWord : decodeInstr c (toBytes 4 (strWord z m op)) = decodeString c false (strWord z m op) := by
  have hm : fld (strWord z m op) 1 6 = 0x0D := by simp only [fld, strWord]; omega
  rw [decodeInstr_long (by simp only [strWord]; omega) (by simp only [strWord]; omega)]
  simp only [decodeLong, hm]

theorem decodeInstr_rep_strWord :
    decodeInstr c (toBytes 6 (strWord z m op * 2 ^ 16 + repHalf)) = decodeString c true (strWord z m op) :=
  decodeInstr_rep (by simp only [strWord]; omega)

end String

/-! ### The tables of a layout's selector -/

/-- What the rows of a table give for a value `k` of the selector, and `other` for a value that has no row. -/
def pick (other : Decoded) : List (Nat × Instr) → Nat → Decoded
  | [], _ => other
  | (j, i) :: rows, k => if k = j then .instr i else pick other rows k

theorem pick_of_mem {other : Decoded} {rows : List (Nat × Instr)} (h : (rows.map Prod.fst).Nodup) :
    ∀ p ∈ rows, pick other rows p.1 = .instr p.2 := by
  induction rows with
  | nil => simp
  | cons q rows ih =>
    rw [List.map_cons, List.nodup_cons] at h
    intro p hp
    rcases List.mem_cons.1 hp with rfl | hp
    · exact if_pos rfl
    · have hne : p.1 ≠ q.1 := fun e => h.1 (e ▸ List.mem_map_of_mem hp)
      exact (if_neg hne).trans (ih h.2 p hp)

theorem pick_of_not_mem {other : Decoded} {rows : List (Nat × Instr)} {k : Nat} (h : ∀ p ∈ rows, p.1 ≠ k) :
    pick other rows k = other := by
  induction rows with
  | nil => rfl
  | cons q rows ih =>
    rw [List.forall_mem_cons] at h
    exact (if_neg h.1.symm).trans (ih h.2)

/-- Words whose selector is decoded by a table: each row's word gives its instruction, and every other value gives `other`. -/
theorem words_of_pick {c : CoreId} {w : Nat → Nat} {n : Nat} {other : Decoded} {rows : List (Nat × Instr)}
    (hd : ∀ k, k < n → decodeInstr c (toBytes 4 (w k)) = pick other rows k)
    (hr : decide ((rows.map Prod.fst).Nodup ∧ ∀ p ∈ rows, p.1 < n) = true) :
    (∀ p ∈ rows, decodeInstr c (toBytes 4 (w p.1)) = .instr p.2) ∧
      ∀ k, k < n → (∀ p ∈ rows, p.1 ≠ k) → decodeInstr c (toBytes 4 (w k)) = other := by
  obtain ⟨hu, hn⟩ := of_decide_eq_true hr
  exact ⟨fun p hp => (hd _ (hn p hp)).trans (pick_of_mem hu p hp), fun k hk hne => (hd k hk).trans (pick_of_not_mem hne)⟩

/-- Words that one decoder reads, each of which a row names. -/
theorem words_of_rows {c : CoreId} {w : Nat → Nat} {dec : Nat → Decoded} {n : Nat} {rows : List (Nat × Instr)}
    (hd : ∀ k, k < n → decodeInstr c (toBytes 4 (w k)) = dec (w k)) (hn : decide (∀ p ∈ rows, p.1 < n) = true)
    (hr : ∀ p ∈ rows, dec (w p.1) = .instr p.2) : ∀ p ∈ rows, decodeInstr c (toBytes 4 (w p.1)) = .instr p.2 :=
  fun p hp => (hd _ (of_decide_eq_true hn p hp)).trans (hr p hp)

/-! ### The majors (R75, R82, R101, R174, R263, R288, R339, R342, R370) -/

section Majors

variable (c : CoreId) (t : TileId) {k : Nat}

section

variable (f : LR) (hk : k < 512)

include hk

theorem decodeInstr_alu : decodeInstr c (toBytes 4 (lrWord f 0x01 k)) = decodeAlu c (lrWord f 0x01 k) := by
  simp only [decodeInstr_lrWord, decodeLong, major_lrWord, hk, Nat.reduceLT]

theorem decodeInstr_system : decodeInstr c (toBytes 4 (lrWord f 0x0E k)) = decodeSystem c (lrWord f 0x0E k) := by
  simp only [decodeInstr_lrWord, decodeLong, major_lrWord, hk, Nat.reduceLT]

theorem decodeInstr_fence : decodeInstr c (toBytes 4 (lrWord f 0x1C k)) = decodeFence c (lrWord f 0x1C k) := by
  simp only [decodeInstr_lrWord, decodeLong, major_lrWord, hk, Nat.reduceLT]

theorem decodeInstr_atomic : decodeInstr c (toBytes 4 (lrWord f 0x1D k)) = decodeAtomic c (lrWord f 0x1D k) := by
  simp only [decodeInstr_lrWord, decodeLong, major_lrWord, hk, Nat.reduceLT]

end

section

variable (f : LC) (hk : k < 1024)

include hk

theorem decodeInstr_cp2 : decodeInstr c (toBytes 4 (lcWord f 0x3A k)) = decodeCp2 c (lcWord f 0x3A k) := by
  simp only [decodeInstr_lcWord, decodeLong, major_lcWord, hk, Nat.reduceLT]

theorem decodeInstr_cp0 : decodeInstr (.tile t) (toBytes 4 (lcWord f 0x38 k)) = decodeCp0 t (lcWord f 0x38 k) := by
  simp only [decodeInstr_lcWord, decodeLong, decodeTile, major_lcWord, hk, Nat.reduceLT]

theorem decodeInstr_cp1 : decodeInstr (.tile t) (toBytes 4 (lcWord f 0x39 k)) = decodeCp1 t (lcWord f 0x39 k) := by
  simp only [decodeInstr_lcWord, decodeLong, decodeTile, major_lcWord, hk, Nat.reduceLT]

end

section

variable (f : VR)

theorem decodeInstr_vfp (hk : k < 64) : decodeInstr (.tile t) (toBytes 4 (vrsWord f 0x22 k)) = decodeVfp t (vrsWord f 0x22 k) := by
  simp only [decodeInstr_vrsWord, decodeLong, decodeTile, major_vrsWord, hk, Nat.reduceLT]

theorem decodeInstr_vint (hk : k < 64) : decodeInstr (.tile t) (toBytes 4 (vrsWord f 0x25 k)) = decodeVint t (vrsWord f 0x25 k) := by
  simp only [decodeInstr_vrsWord, decodeLong, decodeTile, major_vrsWord, hk, Nat.reduceLT]

theorem decodeInstr_vcmp (hk : k < 64) : decodeInstr (.tile t) (toBytes 4 (vrsWord f 0x26 k)) = decodeVcmp t (vrsWord f 0x26 k) := by
  simp only [decodeInstr_vrsWord, decodeLong, decodeTile, major_vrsWord, hk, Nat.reduceLT]

theorem decodeInstr_vred (hk : k < 128) : decodeInstr (.tile t) (toBytes 4 (vrWord f 0x27 k)) = decodeVred t (vrWord f 0x27 k) := by
  simp only [decodeInstr_vrWord, decodeLong, decodeTile, major_vrWord, hk, Nat.reduceLT]

theorem decodeInstr_vdot (hk : k < 128) : decodeInstr (.tile t) (toBytes 4 (vrWord f 0x28 k)) = decodeVdot t (vrWord f 0x28 k) := by
  simp only [decodeInstr_vrWord, decodeLong, decodeTile, major_vrWord, hk, Nat.reduceLT]

theorem decodeInstr_chain (hk : k < 128) : decodeInstr (.tile t) (toBytes 4 (vrWord f 0x29 k)) = decodeChain t (vrWord f 0x29 k) := by
  simp only [decodeInstr_vrWord, decodeLong, decodeTile, major_vrWord, hk, Nat.reduceLT]

end

/-- A word of layout VF is read by the decoder of the tile's own majors. -/
theorem decodeInstr_vf (f : VF) {m : Nat} (hm : m ∈ [0x23, 0x24, 0x2A, 0x2B]) (hk : k < 4) :
    decodeInstr (.tile t) (toBytes 4 (vfWord f m k)) = decodeTile t (vfWord f m k) := by
  simp only [List.mem_cons, List.not_mem_nil, or_false] at hm
  rw [decodeInstr_vfWord f (by omega) hk]
  rcases hm with rfl | rfl | rfl | rfl <;> simp only [decodeLong, major_vfWord, Nat.reduceLT]

/-- The multiply-adds, `vchain` and `cmem`, which have no scalar bit: majors 0x23 and 0x24 tell it (R174, R263). -/
theorem decodeInstr_vfWords (g : VF) (op : BitVec 2) :
    let f := fun s => { g with s := s }
    let is := fun m k i => decodeInstr (.tile t) (toBytes 4 (vfWord g m k)) = .instr i
    is 0x23 0 (.vfma t (f false)) ∧ is 0x23 1 (.vfms t (f false)) ∧ is 0x23 2 (.vfnma t (f false)) ∧ is 0x23 3 (.vfnms t (f false)) ∧
    is 0x24 0 (.vfma t (f true)) ∧ is 0x24 1 (.vfms t (f true)) ∧ is 0x24 2 (.vfnma t (f true)) ∧ is 0x24 3 (.vfnms t (f true)) ∧
    is 0x2A op.toNat (.vchain t (f false) op) ∧ is 0x2B op.toNat (.cmem t (f false) op none) := by
  have hop : op.toNat < 4 := op.isLt
  simp [decodeInstr_vf, decodeTile, major_vfWord, decodeVfma, func_vfWord, vfOf_vfWord, hop]

end Majors

/-! ### Words of one instruction (R75) -/

section Single

variable (c : CoreId) (r : Reg) (i : BitVec 20) (j : BitVec 25) (k : BitVec 4) (b : BitVec 21) (x : BitVec 2) (e : BitVec 18)

theorem decodeInstr_lui : decodeInstr c (toBytes 4 (r.toNat * 2 ^ 27 + i.toNat * 2 ^ 7 + 0x09 * 2 + 1)) = .instr (.lui c r i) := by
  generalize hw : r.toNat * 2 ^ 27 + i.toNat * 2 ^ 7 + 0x09 * 2 + 1 = w
  have hm : fld w 1 6 = 0x09 := by simp only [fld]; omega
  have h1 : regAt w 27 = r := ofNat_fld (by simp only [fld]; omega)
  have h2 : BitVec.ofNat 20 (fld w 7 20) = i := ofNat_fld (by simp only [fld]; omega)
  rw [decodeInstr_long (by omega) (by omega)]
  simp only [decodeLong, hm, h1, h2]

theorem decodeInstr_lsh : decodeInstr c (toBytes 4 (r.toNat * 2 ^ 27 + i.toNat * 2 ^ 7 + 0x0A * 2 + 1)) = .instr (.lsh c r i) := by
  generalize hw : r.toNat * 2 ^ 27 + i.toNat * 2 ^ 7 + 0x0A * 2 + 1 = w
  have hm : fld w 1 6 = 0x0A := by simp only [fld]; omega
  have h1 : regAt w 27 = r := ofNat_fld (by simp only [fld]; omega)
  have h2 : BitVec.ofNat 20 (fld w 7 20) = i := ofNat_fld (by simp only [fld]; omega)
  rw [decodeInstr_long (by omega) (by omega)]
  simp only [decodeLong, hm, h1, h2]

theorem decodeInstr_jal : decodeInstr c (toBytes 4 (j.toNat * 2 ^ 7 + 0x1F * 2 + 1)) = .instr (.jal c j) := by
  generalize hw : j.toNat * 2 ^ 7 + 0x1F * 2 + 1 = w
  have hm : fld w 1 6 = 0x1F := by simp only [fld]; omega
  have h1 : BitVec.ofNat 25 (fld w 7 25) = j := ofNat_fld (by simp only [fld]; omega)
  rw [decodeInstr_long (by omega) (by omega)]
  simp only [decodeLong, hm, h1]

theorem decodeInstr_bcc : decodeInstr c (toBytes 4 (k.toNat * 2 ^ 28 + b.toNat * 2 ^ 7 + 0x1E * 2 + 1)) = .instr (.bcc c (.long k b)) := by
  generalize hw : k.toNat * 2 ^ 28 + b.toNat * 2 ^ 7 + 0x1E * 2 + 1 = w
  have hm : fld w 1 6 = 0x1E := by simp only [fld]; omega
  have h1 : BitVec.ofNat 4 (fld w 28 4) = k := ofNat_fld (by simp only [fld]; omega)
  have h2 : BitVec.ofNat 21 (fld w 7 21) = b := ofNat_fld (by simp only [fld]; omega)
  rw [decodeInstr_long (by omega) (by omega)]
  simp only [decodeLong, hm, h1, h2]

theorem decodeInstr_zloop : decodeInstr c (toBytes 4 (x.toNat * 2 ^ 30 + r.toNat * 2 ^ 25 + e.toNat * 2 ^ 7 + 0x0C * 2 + 1)) =
    .instr (.zloop c x r e) := by
  generalize hw : x.toNat * 2 ^ 30 + r.toNat * 2 ^ 25 + e.toNat * 2 ^ 7 + 0x0C * 2 + 1 = w
  have hm : fld w 1 6 = 0x0C := by simp only [fld]; omega
  have h1 : BitVec.ofNat 2 (fld w 30 2) = x := ofNat_fld (by simp only [fld]; omega)
  have h2 : regAt w 25 = r := ofNat_fld (by simp only [fld]; omega)
  have h3 : BitVec.ofNat 18 (fld w 7 18) = e := ofNat_fld (by simp only [fld]; omega)
  rw [decodeInstr_long (by omega) (by omega)]
  simp only [decodeLong, hm, h1, h2, h3]

end Single

/-! ### Majors that spell nothing (R63, R75) -/

/-- A long word of major `m`, whatever stands above it. -/
theorem decodeInstr_major (c : CoreId) (x : BitVec 25) {m : Nat} (hm : m < 64) :
    ∃ w, fld w 1 6 = m ∧ decodeInstr c (toBytes 4 (x.toNat * 2 ^ 7 + m * 2 + 1)) = decodeLong c w :=
  ⟨x.toNat * 2 ^ 7 + m * 2 + 1, by simp only [fld]; omega, decodeInstr_long (by omega) (by omega)⟩

theorem decodeInstr_reserved (c : CoreId) (x : BitVec 25) {m : Nat}
    (hm : m ∈ [0x00, 0x0F, 0x17, 0x2C, 0x2D, 0x2E, 0x2F, 0x30, 0x31, 0x32, 0x33, 0x34, 0x35, 0x36, 0x37, 0x3B, 0x3C, 0x3D, 0x3E, 0x3F]) :
    decodeInstr c (toBytes 4 (x.toNat * 2 ^ 7 + m * 2 + 1)) = .illegal := by
  have hlt : m < 64 := (by decide : ∀ m ∈ [0x00, 0x0F, 0x17, 0x2C, 0x2D, 0x2E, 0x2F, 0x30, 0x31, 0x32, 0x33, 0x34, 0x35, 0x36,
    0x37, 0x3B, 0x3C, 0x3D, 0x3E, 0x3F], m < 64) m hm
  obtain ⟨w, hw, h⟩ := decodeInstr_major c x hlt
  rw [h]
  cases c <;> fin_cases hm <;> simp only [decodeLong, decodeTile, hw]

/-- The vector, chain, matrix and Gallery majors spell nothing on a service core (R63). -/
theorem decodeInstr_svc (n : Fin 13) (x : BitVec 25) {m : Nat}
    (hm : m ∈ [0x20, 0x21, 0x22, 0x23, 0x24, 0x25, 0x26, 0x27, 0x28, 0x29, 0x2A, 0x2B, 0x38, 0x39]) :
    decodeInstr (.svc n) (toBytes 4 (x.toNat * 2 ^ 7 + m * 2 + 1)) = .illegal := by
  have hlt : m < 64 := (by decide : ∀ m ∈ [0x20, 0x21, 0x22, 0x23, 0x24, 0x25, 0x26, 0x27, 0x28, 0x29, 0x2A, 0x2B, 0x38, 0x39],
    m < 64) m hm
  obtain ⟨w, hw, h⟩ := decodeInstr_major (.svc n) x hlt
  rw [h]
  fin_cases hm <;> simp only [decodeLong, hw]

/-! ### Short forms (R73) -/

section Short

variable (c : CoreId) (rd rs : Reg) {k : Nat}

/-- Forms SR, SI and SM. -/
theorem decodeInstr_half {op : Nat} (hop : op < 31) :
    ∃ w, fld w 1 5 = op ∧ regAt w 11 = rd ∧ regAt w 6 = rs ∧
      decodeInstr c (toBytes 2 (rd.toNat * 2 ^ 11 + rs.toNat * 2 ^ 6 + op * 2)) = decodeShort c w := by
  refine ⟨rd.toNat * 2 ^ 11 + rs.toNat * 2 ^ 6 + op * 2, ?_, ofNat_fld ?_, ofNat_fld ?_, decodeInstr_short ?_ ?_ ?_⟩
  · simp only [fld]; omega
  · simp only [fld]; omega
  · simp only [fld]; omega
  · omega
  · omega
  · simp only [repHalf]; omega

/-- Form SX, but for rep. -/
theorem decodeInstr_sx (hk : k < 32) (hr : k * 2 ^ 11 + rs.toNat * 2 ^ 6 + 0x1F * 2 ≠ repHalf) :
    ∃ w, fld w 11 5 = k ∧ regAt w 6 = rs ∧
      decodeInstr c (toBytes 2 (k * 2 ^ 11 + rs.toNat * 2 ^ 6 + 0x1F * 2)) = decodeSx c w := by
  refine ⟨k * 2 ^ 11 + rs.toNat * 2 ^ 6 + 0x1F * 2, ?_, ofNat_fld ?_, ?_⟩
  · simp only [fld]; omega
  · simp only [fld]; omega
  · have hm : fld (k * 2 ^ 11 + rs.toNat * 2 ^ 6 + 0x1F * 2) 1 5 = 0x1F := by simp only [fld]; omega
    rw [decodeInstr_short (by omega) (by omega) hr]
    simp only [decodeShort, hm]

/-- The other values of sub, rep with nothing to repeat among them. -/
theorem decodeInstr_sx_illegal (hk : k < 32) (hn : k ∉ [0, 2, 3, 4, 5]) :
    decodeInstr c (toBytes 2 (k * 2 ^ 11 + rs.toNat * 2 ^ 6 + 0x1F * 2)) = .illegal := by
  by_cases hr : k * 2 ^ 11 + rs.toNat * 2 ^ 6 + 0x1F * 2 = repHalf
  · rw [hr]; rfl
  · obtain ⟨w, hw, -, h⟩ := decodeInstr_sx c rs hk hr
    rw [h, decodeSx.eq_def, hw]
    split <;> simp_all

theorem decodeInstr_bcc_short (k : BitVec 4) (i : BitVec 6) :
    decodeInstr c (toBytes 2 (k.toNat * 2 ^ 12 + i.toNat * 2 ^ 6 + 0x18 * 2)) = .instr (.bcc c (.short k i)) := by
  generalize hw : k.toNat * 2 ^ 12 + i.toNat * 2 ^ 6 + 0x18 * 2 = w
  have hm : fld w 1 5 = 0x18 := by simp only [fld]; omega
  have h1 : BitVec.ofNat 4 (fld w 12 4) = k := ofNat_fld (by simp only [fld]; omega)
  have h2 : BitVec.ofNat 6 (fld w 6 6) = i := ofNat_fld (by simp only [fld]; omega)
  rw [decodeInstr_short (by omega) (by omega) (by simp only [repHalf]; omega)]
  simp only [decodeShort, hm, h1, h2]

theorem decodeInstr_br (j : BitVec 10) :
    decodeInstr c (toBytes 2 (j.toNat * 2 ^ 6 + 0x19 * 2)) = .instr (.br c j) := by
  generalize hw : j.toNat * 2 ^ 6 + 0x19 * 2 = w
  have hm : fld w 1 5 = 0x19 := by simp only [fld]; omega
  have h1 : BitVec.ofNat 10 (fld w 6 10) = j := ofNat_fld (by simp only [fld]; omega)
  rw [decodeInstr_short (by omega) (by omega) (by simp only [repHalf]; omega)]
  simp only [decodeShort, hm, h1]

end Short

/-! ### Each decoder is a table (R77, R82, R101, R174, R175, R263, R288, R339, R342, R370) -/

/-- Bit 0 of func names the size of an atomic. -/
theorem flagAt_lrFunc (w : Nat) : flagAt w 7 = decide (lrFunc w % 2 = 1) := by
  have h : fld w 7 1 = lrFunc w % 2 := by simp only [lrFunc, fld]; omega
  rw [flagAt, h]

/-- The number of a system register stands where a register form has rs1 and rs2. -/
theorem srNo_lrOf (w : Nat) : BitVec.ofNat 10 (fld w 17 10) = (lrOf w).rs1 ++ (lrOf w).rs2 := by
  refine ofNat_fld ?_
  rw [BitVec.toNat_append, Nat.shiftLeft_eq, Nat.mul_comm, ← Nat.two_pow_add_eq_or_of_lt (lrOf w).rs2.isLt]
  simp only [lrOf, regAt, fld, BitVec.toNat_ofNat]; omega

section

variable {c : CoreId} {w k : Nat} {f : LR} (hk : lrFunc w = k) (hf : lrOf w = f)

include hk hf

theorem decodeAlu_eq : decodeAlu c w = pick .illegal
     [(0x000, .add c (.long f)), (0x001, .sub c (.long f)), (0x002, .adc c f), (0x003, .sbc c f), (0x008, .andR c (.long f)),
      (0x009, .orR c (.long f)), (0x00A, .xorR c (.long f)), (0x00B, .andn c f), (0x010, .shl c (.long f)),
      (0x011, .shr c (.long f)), (0x012, .sar c (.long f)), (0x013, .rol c f), (0x018, .slt c f), (0x019, .sltu c f),
      (0x01A, .minR c f), (0x01B, .maxR c f), (0x01C, .minu c f), (0x01D, .maxu c f), (0x020, .mul c (.long f)),
      (0x021, .mulh c f), (0x022, .mulhu c f), (0x028, .div c f), (0x029, .divu c f), (0x02A, .rem c f), (0x02B, .remu c f),
      (0x030, .clz c f), (0x031, .ctz c f), (0x032, .popc c f), (0x033, .bswap c f), (0x034, .sext c .b f),
      (0x035, .sext c .h f), (0x036, .sext c .w f), (0x037, .zextW c f)] k := by
  rw [decodeAlu.eq_def, hk, hf]
  clear hk hf
  split <;> simp_all [pick]

theorem decodeSystem_eq : decodeSystem c w = pick .illegal
     [(0x000, .mfsr c f.rd (f.rs1 ++ f.rs2) f.f), (0x001, .mtsr c (f.rs1 ++ f.rs2) f.rd f.f), (0x002, .ifl c (.long f)),
      (0x003, .mset c f), (0x004, .trap c f), (0x005, .eret c f), (0x006, .waitq c f), (0x007, .halt c f)] k := by
  rw [decodeSystem.eq_def, srNo_lrOf, hk, hf]
  clear hk hf
  split <;> simp_all [pick]

theorem decodeFence_eq : decodeFence c w = pick .illegal
     [(0x000, .fence c f), (0x001, .fenceW c f), (0x008, .dcz c f), (0x009, .dcwb c f), (0x00A, .dcinv c f)] k := by
  rw [decodeFence.eq_def, hk, hf]
  clear hk hf
  split <;> simp_all [pick]

theorem decodeAtomic_eq : decodeAtomic c w = pick .illegal
     [(0x000, .amoadd c false f), (0x001, .amoadd c true f), (0x002, .amoswap c false f), (0x003, .amoswap c true f),
      (0x004, .amocas c false f), (0x005, .amocas c true f), (0x006, .amomin c false f), (0x007, .amomin c true f),
      (0x008, .amomax c false f), (0x009, .amomax c true f), (0x00C, .amofaddF32 c f)] k := by
  rw [decodeAtomic.eq_def, flagAt_lrFunc, hk, hf]
  clear hk hf
  split <;> simp_all [pick]

end

section

variable {c : CoreId} {w k : Nat} {f : LC} (hk : lcFunc w = k) (hf : lcOf w = f)

include hk hf

theorem decodeCp2_eq : decodeCp2 c w = pick (.func10 2)
     [(0x000, .hinit c f), (0x001, .habs c f), (0x002, .habsm c f), (0x003, .hfin c f), (0x004, .hsqz c f),
      (0x005, .hsave c f), (0x006, .hrest c f)] k := by
  rw [decodeCp2.eq_def, hk, hf]
  clear hk hf
  split <;> simp_all [pick]

end

section

variable {t : TileId} {w k : Nat} {f : LC} (hk : lcFunc w = k) (hf : lcOf w = f)

include hk hf

theorem decodeCp0_eq : decodeCp0 t w = pick (.func10 0)
     [(0x000, .mcfg t f), (0x001, .mwld t f), (0x002, .mpass t f), (0x003, .mdrain t f), (0x004, .mlda t f),
      (0x005, .msync t f)] k := by
  rw [decodeCp0.eq_def, hk, hf]
  clear hk hf
  split <;> simp_all [pick]

theorem decodeCp1_eq : decodeCp1 t w = pick (.func10 1)
     [(0x000, .gput t f), (0x001, .gget t f), (0x002, .gdispatch t f), (0x003, .greturn t f), (0x004, .garm t f),
      (0x005, .gibgat t f), (0x008, .gallreduce t f), (0x009, .greducescatter t f), (0x00A, .gallgather t f),
      (0x00B, .galltoall t f), (0x00C, .gbarrier t f), (0x00D, .gjoin t f), (0x010, .gbeacon t f), (0x011, .gsync t f)] k := by
  rw [decodeCp1.eq_def, hk, hf]
  clear hk hf
  split <;> simp_all [pick]

end

section

variable {t : TileId} {w k : Nat} {f : VR} (hk : fld w 7 6 = k) (hf : vrOf w (flagAt w 13) = f)

include hk hf

theorem decodeVfp_eq : decodeVfp t w = pick .illegal
     [(0x00, .vfadd t f), (0x01, .vfsub t f), (0x02, .vfmul t f), (0x03, .vfdiv t f), (0x04, .vfmin t f), (0x05, .vfmax t f),
      (0x06, .vfsqrt t f), (0x08, .vfneg t f), (0x09, .vfabs t f), (0x10, .vcvtFI t f), (0x11, .vcvtIF t f),
      (0x12, .vfwcvt t f), (0x13, .vfncvt t f)] k := by
  rw [decodeVfp.eq_def, hk, hf]
  clear hk hf
  split <;> simp_all [pick]

theorem decodeVint_eq : decodeVint t w = pick .illegal
     [(0x00, .vadd t f), (0x01, .vsub t f), (0x02, .vmul t f), (0x03, .vmulh t f), (0x04, .vmulhu t f), (0x08, .vand t f),
      (0x09, .vor t f), (0x0A, .vxor t f), (0x0B, .vandn t f), (0x10, .vshl t f), (0x11, .vshr t f), (0x12, .vsar t f),
      (0x18, .vmin t f), (0x19, .vmax t f), (0x1A, .vminu t f), (0x1B, .vmaxu t f)] k := by
  rw [decodeVint.eq_def, hk, hf]
  clear hk hf
  split <;> simp_all [pick]

theorem decodeVcmp_eq : decodeVcmp t w = pick .illegal
     [(0x00, .vfcmpeq t f), (0x01, .vfcmplt t f), (0x02, .vfcmple t f), (0x03, .vfcmpun t f), (0x08, .vcmpeq t f),
      (0x09, .vcmpne t f), (0x0A, .vcmplt t f), (0x0B, .vcmpltu t f), (0x0C, .vcmple t f), (0x0D, .vcmpleu t f),
      (0x20, .mand t f), (0x21, .mor t f), (0x22, .mxor t f), (0x23, .mandn t f), (0x28, .vpopc t f),
      (0x29, .vfirst t f)] k := by
  rw [decodeVcmp.eq_def, hk, hf]
  clear hk hf
  split <;> simp_all [pick]

end

section

variable {t : TileId} {w k : Nat} {f : VR} (hk : fld w 7 7 = k) (hf : vrOf w false = f)

include hk hf

theorem decodeVred_eq : decodeVred t w = pick .illegal
     [(0x00, .vredsum t f), (0x01, .vredmin t f), (0x02, .vredmax t f), (0x03, .vredminu t f), (0x04, .vredmaxu t f),
      (0x08, .vfredsum t f), (0x09, .vfredmin t f), (0x0A, .vfredmax t f), (0x10, .vslideup t f), (0x11, .vslidedown t f),
      (0x12, .vrgather t f), (0x13, .vmerge t f)] k := by
  rw [decodeVred.eq_def, hk, hf]
  clear hk hf
  split <;> simp_all [pick]

theorem decodeVdot_eq : decodeVdot t w = pick .illegal
     [(0x00, .vwmul t f), (0x01, .vwmulu t f), (0x02, .vfwmul t f), (0x08, .vdotI8 t f), (0x0A, .vdotE4m3 t f),
      (0x0B, .vdotE4m3e5m2 t f), (0x0C, .vdotE5m2e4m3 t f), (0x0D, .vdotE5m2 t f), (0x0E, .vdotB16 t f), (0x0F, .vdotF16 t f),
      (0x20, .vmvVV t f), (0x21, .vmvVX t f), (0x22, .vmvXS t f), (0x23, .vid t f)] k := by
  rw [decodeVdot.eq_def, hk, hf]
  clear hk hf
  split <;> simp_all [pick]

theorem decodeChain_eq : decodeChain t w = pick .illegal
     [(0x00, .cld t f), (0x01, .cst t f), (0x02, .cseed t f), (0x10, .rownorm t f 0), (0x11, .rownorm t f 1),
      (0x12, .rownorm t f 2), (0x13, .rownorm t f 3), (0x14, .rownorm t f 4), (0x15, .rownorm t f 5), (0x16, .rownorm t f 6),
      (0x17, .rownorm t f 7)] k := by
  rw [decodeChain.eq_def, hk, hf]
  clear hk hf
  split
  · rfl
  · rfl
  · rfl
  · next h0 h1 h2 =>
    by_cases h : k / 8 = 2
    · have hk : k = 0x10 ∨ k = 0x11 ∨ k = 0x12 ∨ k = 0x13 ∨ k = 0x14 ∨ k = 0x15 ∨ k = 0x16 ∨ k = 0x17 := by omega
      rcases hk with rfl | rfl | rfl | rfl | rfl | rfl | rfl | rfl <;> rfl
    · rw [if_neg h, pick_of_not_mem]
      simp only [imp_false] at h0 h1 h2
      simp
      omega

end

/-! ### O51 -/

/-- Settles O51, layout by layout: the decoder of each major is the table that the statement gives. -/
theorem instructionWords : Obligations.InstructionWords := by
  unfold Obligations.InstructionWords
  refine ⟨fun c f => ⟨?_, ?_, ?_, ?_⟩, fun c f => ⟨fun t => ?_, ?_⟩, fun c f => ?_, fun c r b a => ?_,
    fun c r i j k b x e => ⟨decodeInstr_lui c r i, decodeInstr_lsh c r i, decodeInstr_jal c j, decodeInstr_bcc c k b,
      decodeInstr_zloop c r x e⟩, fun c z m => ?_, fun c t f => ⟨?_, ?_, ?_⟩, fun t f => ?_, fun t f => ?_,
    fun t vd vs1 vs2 vs3 vm op => ?_, fun t f => ⟨?_, ?_⟩, fun c n x m => ⟨decodeInstr_reserved c x, decodeInstr_svc n x⟩,
    fun c rd rs => ⟨?_, fun k hk hn => decodeInstr_sx_illegal c rs hk hn, ?_, ?_⟩, fun c k i j => ⟨decodeInstr_bcc_short c k i, decodeInstr_br c j⟩⟩
  · exact words_of_pick (w := lrWord f 0x01) (fun k hk => (decodeInstr_alu c f hk).trans
      (decodeAlu_eq (lrFunc_lrWord f (by decide) hk) (lrOf_lrWord f (by decide) hk))) rfl
  · exact words_of_pick (w := lrWord f 0x0E) (fun k hk => (decodeInstr_system c f hk).trans
      (decodeSystem_eq (lrFunc_lrWord f (by decide) hk) (lrOf_lrWord f (by decide) hk))) rfl
  · exact words_of_pick (w := lrWord f 0x1C) (fun k hk => (decodeInstr_fence c f hk).trans
      (decodeFence_eq (lrFunc_lrWord f (by decide) hk) (lrOf_lrWord f (by decide) hk))) rfl
  · exact words_of_pick (w := lrWord f 0x1D) (fun k hk => (decodeInstr_atomic c f hk).trans
      (decodeAtomic_eq (lrFunc_lrWord f (by decide) hk) (lrOf_lrWord f (by decide) hk))) rfl
  · change decodeInstr (.tile t) (toBytes 4 (liWord f 0x20)) = _
    simp only [decodeInstr_liWord, decodeLong, decodeTile, major_liWord, liOf_liWord, Nat.reduceLT]
  · refine words_of_rows (w := liWord f) (fun m hm => decodeInstr_liWord f hm c) rfl ?_
    simp [decodeLong, major_liWord, liOf_liWord]
  · refine words_of_rows (w := liShWord f) (fun k hk => decodeInstr_liShWord f hk c) rfl ?_
    simp [decodeShift, shift_liShWord, liShOf_liShWord]
  · refine words_of_rows (w := lmWord r b a) (fun m hm => decodeInstr_lmWord c r b a hm) rfl ?_
    simp [decodeLong, major_lmWord, loadOf_lmWord, storeOf_lmWord]
  · have hw : ∀ op, z.toNat * 2 ^ 30 + op * 2 ^ 28 + m.toNat * 2 ^ 7 + 0x0D * 2 + 1 = strWord z m op := fun _ => rfl
    have hr : 0x083E = repHalf := rfl
    simp only [hw, hr, decodeInstr_strWord, decodeInstr_rep_strWord, decodeString, op_strWord, size_strWord, mbz_strWord,
      Nat.reduceLT, and_self]
  · exact words_of_pick (w := lcWord f 0x3A) (fun k hk => (decodeInstr_cp2 c f hk).trans
      (decodeCp2_eq (lcFunc_lcWord f (by decide) hk) (lcOf_lcWord f (by decide) hk))) rfl
  · exact words_of_pick (w := lcWord f 0x38) (fun k hk => (decodeInstr_cp0 t f hk).trans
      (decodeCp0_eq (lcFunc_lcWord f (by decide) hk) (lcOf_lcWord f (by decide) hk))) rfl
  · exact words_of_pick (w := lcWord f 0x39) (fun k hk => (decodeInstr_cp1 t f hk).trans
      (decodeCp1_eq (lcFunc_lcWord f (by decide) hk) (lcOf_lcWord f (by decide) hk))) rfl
  · exact ⟨words_of_pick (w := vrsWord f 0x22) (fun k hk => (decodeInstr_vfp t f hk).trans
        (decodeVfp_eq (func_vrsWord f (by decide) hk) (vrOf_vrsWord f (by decide) hk))) rfl,
      words_of_pick (w := vrsWord f 0x25) (fun k hk => (decodeInstr_vint t f hk).trans
        (decodeVint_eq (func_vrsWord f (by decide) hk) (vrOf_vrsWord f (by decide) hk))) rfl,
      words_of_pick (w := vrsWord f 0x26) (fun k hk => (decodeInstr_vcmp t f hk).trans
        (decodeVcmp_eq (func_vrsWord f (by decide) hk) (vrOf_vrsWord f (by decide) hk))) rfl⟩
  · exact fun hs => ⟨words_of_pick (w := vrWord f 0x27) (fun k hk => (decodeInstr_vred t f hk).trans
        (decodeVred_eq (func_vrWord f (by decide) hk) (vrOf_vrWord f (by decide) hk hs))) rfl,
      words_of_pick (w := vrWord f 0x28) (fun k hk => (decodeInstr_vdot t f hk).trans
        (decodeVdot_eq (func_vrWord f (by decide) hk) (vrOf_vrWord f (by decide) hk hs))) rfl,
      words_of_pick (w := vrWord f 0x29) (fun k hk => (decodeInstr_chain t f hk).trans
        (decodeChain_eq (func_vrWord f (by decide) hk) (vrOf_vrWord f (by decide) hk hs))) rfl⟩
  · exact decodeInstr_vfWords t ⟨vd, vs1, vs2, vs3, vm, false⟩ op
  · change decodeInstr (.tile t) (toBytes 4 (vmWord f 0)) = _
    simp [decodeInstr_vmWord, decodeLong, decodeTile, major_vmWord, store_vmWord, vmOf_vmWord]
  · change decodeInstr (.tile t) (toBytes 4 (vmWord f 1)) = _
    simp [decodeInstr_vmWord, decodeLong, decodeTile, major_vmWord, store_vmWord, vmOf_vmWord]
  · intro op hop
    obtain ⟨w, hw, -, -, h⟩ := decodeInstr_half c rd rs (of_decide_eq_true (p := ∀ op ∈ _, op < 31) rfl op hop)
    refine h.trans ?_
    fin_cases hop <;> simp only [decodeShort, hw]
  · intro p hp
    have hs : p.1 < 32 ∧ p.1 ≠ 1 := of_decide_eq_true (p := ∀ p ∈ _, p.1 < 32 ∧ p.1 ≠ 1) rfl p hp
    obtain ⟨w, hw, rfl, h⟩ := decodeInstr_sx c rs (k := p.1) hs.1 (by simp only [repHalf]; omega)
    refine h.trans ?_
    fin_cases hp <;> simp only [decodeSx, hw]
  · intro p hp
    obtain ⟨w, hw, rfl, rfl, h⟩ := decodeInstr_half c rd rs (op := p.1) (of_decide_eq_true (p := ∀ p ∈ _, p.1 < 31) rfl p hp)
    refine h.trans ?_
    fin_cases hp <;> simp only [decodeShort, hw]

end Sys2Proof.Machine
end

section
/-! SUPPORT. The results of the scalar arithmetic and logic instructions, and the proofs of O1 to O5. -/

namespace Sys2Proof.Machine

open Sys2Proof

/-! ### Sums and differences (R67, R69) -/

theorem addFlags_eq (x y : Word) (cin : Bool) :
    addFlags x y cin = (x + y + BitVec.ofNat 64 (b2n cin),
      { n := (x + y + BitVec.ofNat 64 (b2n cin)).msb, z := decide (x + y + BitVec.ofNat 64 (b2n cin) = 0),
        c := decide (2 ^ 64 ≤ x.toNat + y.toNat + b2n cin), v := overflows (x.toInt + y.toInt + b2n cin) }) := by
  have hc : (if cin then 1 else 0 : Word) = BitVec.ofNat 64 (b2n cin) := by cases cin <;> rfl
  have hn : (if cin then 1 else 0 : Nat) = b2n cin := by cases cin <;> rfl
  have hb : b2n cin ≤ 1 := by cases cin <;> decide
  have hv : (decide (x.msb = y.msb) && decide ((x + y + BitVec.ofNat 64 (b2n cin)).msb ≠ x.msb)) =
      overflows (x.toInt + y.toInt + b2n cin) := by
    simp only [overflows, BitVec.msb_eq_decide, BitVec.toInt_eq_toNat_cond, BitVec.toNat_add, BitVec.toNat_ofNat]
    rw [Bool.eq_iff_iff]
    simp only [Bool.and_eq_true, decide_eq_true_eq, ne_eq, decide_eq_decide]
    split_ifs <;> omega
  simp only [addFlags, hc, hn, hv]

/-- c is 1 when no borrow occurred. -/
theorem subFlags_eq (x y : Word) (c : Bool) :
    subFlags x y c = (x - y - BitVec.ofNat 64 (1 - b2n c),
      { n := (x - y - BitVec.ofNat 64 (1 - b2n c)).msb, z := decide (x - y - BitVec.ofNat 64 (1 - b2n c) = 0),
        c := decide (y.toNat + (1 - b2n c) ≤ x.toNat), v := overflows (x.toInt - y.toInt - (1 - b2n c : Nat)) }) := by
  have hc : (if c then 0 else 1 : Word) = BitVec.ofNat 64 (1 - b2n c) := by cases c <;> rfl
  have hn : (if c then 0 else 1 : Nat) = 1 - b2n c := by cases c <;> rfl
  have hb : 1 - b2n c ≤ 1 := by omega
  generalize 1 - b2n c = b at *
  have hv : (decide (x.msb ≠ y.msb) && decide ((x - y - BitVec.ofNat 64 b).msb ≠ x.msb)) =
      overflows (x.toInt - y.toInt - b) := by
    simp only [overflows, BitVec.msb_eq_decide, BitVec.toInt_eq_toNat_cond, BitVec.toNat_sub, BitVec.toNat_ofNat]
    rw [Bool.eq_iff_iff]
    simp only [Bool.and_eq_true, decide_eq_true_eq, ne_eq, decide_eq_decide]
    split_ifs <;> omega
  simp only [subFlags, hc, hn, hv]

/-! ### Shifts (R75, R77) -/

theorem amount_eq (y : Word) : amount y = y.toNat % 64 := by simp [amount, wfld, fld]

theorem shiftLeft_eq_ofNat (x : Word) (n : Nat) : x <<< n = BitVec.ofNat 64 (x.toNat * 2 ^ n) := by
  apply BitVec.eq_of_toNat_eq
  rw [BitVec.toNat_shiftLeft, Nat.shiftLeft_eq, BitVec.toNat_ofNat]

theorem ushiftRight_eq_ofNat (x : Word) (n : Nat) : x >>> n = BitVec.ofNat 64 (x.toNat / 2 ^ n) := by
  apply BitVec.eq_of_toNat_eq
  rw [BitVec.toNat_ushiftRight, Nat.shiftRight_eq_div_pow, BitVec.toNat_ofNat, Nat.mod_eq_of_lt]
  exact (Nat.div_le_self _ _).trans_lt x.isLt

theorem sshiftRight_eq_ofInt (x : Word) (n : Nat) : x.sshiftRight n = BitVec.ofInt 64 (x.toInt / 2 ^ n) := by
  rw [← BitVec.ofInt_toInt (x := x.sshiftRight n), BitVec.toInt_sshiftRight, Int.shiftRight_eq_div_pow]
  rfl

theorem rotateLeft_eq (x : Word) {n : Nat} (h : n < 64) :
    x.rotateLeft n = BitVec.ofNat 64 (x.toNat * 2 ^ n) ||| BitVec.ofNat 64 (x.toNat / 2 ^ (64 - n)) := by
  rw [BitVec.rotateLeft_def, Nat.mod_eq_of_lt h, shiftLeft_eq_ofNat, ushiftRight_eq_ofNat]

/-! ### Products and quotients (R77, R78) -/

theorem eq_minWord_iff {x : Word} : x = minWord ↔ x.toInt = -(2 ^ 63) := by
  rw [← BitVec.toInt_inj]; rfl

theorem eq_allOnes_iff {y : Word} : y = BitVec.allOnes 64 ↔ y.toInt = -1 := by
  rw [← BitVec.toInt_inj]; rfl

theorem mul_eq_ofInt (x y : Word) : x * y = BitVec.ofInt 64 (x.toInt * y.toInt) := by
  rw [BitVec.ofInt_mul, BitVec.ofInt_toInt, BitVec.ofInt_toInt]

theorem udiv_eq_ofNat (x y : Word) : x / y = BitVec.ofNat 64 (x.toNat / y.toNat) := by
  rw [BitVec.udiv_def]

theorem umod_eq_ofNat (x y : Word) : x % y = BitVec.ofNat 64 (x.toNat % y.toNat) := by
  rw [BitVec.umod_def]

/-! ### Minimum and maximum -/

theorem resMin_eq (c : Bool) (x y : Word) : resMin c x y = logicFlags (BitVec.ofInt 64 (min x.toInt y.toInt)) false := by
  have h : (if x.slt y then x else y) = BitVec.ofInt 64 (min x.toInt y.toInt) := by
    rw [BitVec.slt_eq_decide]
    by_cases hlt : x.toInt < y.toInt
    · simp [hlt, min_eq_left hlt.le]
    · simp [hlt, min_eq_right (not_lt.1 hlt)]
  rw [resMin, h]

theorem resMax_eq (c : Bool) (x y : Word) : resMax c x y = logicFlags (BitVec.ofInt 64 (max x.toInt y.toInt)) false := by
  have h : (if x.slt y then y else x) = BitVec.ofInt 64 (max x.toInt y.toInt) := by
    rw [BitVec.slt_eq_decide]
    by_cases hlt : x.toInt < y.toInt
    · simp [hlt, max_eq_right hlt.le]
    · simp [hlt, max_eq_left (not_lt.1 hlt)]
  rw [resMax, h]

theorem resMinu_eq (c : Bool) (x y : Word) : resMinu c x y = logicFlags (BitVec.ofNat 64 (min x.toNat y.toNat)) false := by
  have h : (if x.ult y then x else y) = BitVec.ofNat 64 (min x.toNat y.toNat) := by
    rw [BitVec.ult_eq_decide]
    by_cases hlt : x.toNat < y.toNat
    · simp [hlt, min_eq_left hlt.le]
    · simp [hlt, min_eq_right (not_lt.1 hlt)]
  rw [resMinu, h]

theorem resMaxu_eq (c : Bool) (x y : Word) : resMaxu c x y = logicFlags (BitVec.ofNat 64 (max x.toNat y.toNat)) false := by
  have h : (if x.ult y then y else x) = BitVec.ofNat 64 (max x.toNat y.toNat) := by
    rw [BitVec.ult_eq_decide]
    by_cases hlt : x.toNat < y.toNat
    · simp [hlt, max_eq_right hlt.le]
    · simp [hlt, max_eq_left (not_lt.1 hlt)]
  rw [resMaxu, h]

/-! ### Bit counts -/

theorem leadZeros_eq (x : Word) (n : Nat) :
    leadZeros x n = ((List.range n).takeWhile fun i => !x.getLsbD (n - 1 - i)).length := by
  induction n with
  | zero => rfl
  | succ n ih =>
    rw [leadZeros, List.range_succ_eq_map, List.takeWhile_cons]
    simp only [Nat.add_sub_cancel, Nat.sub_zero, List.takeWhile_map, Function.comp_def]
    cases h : x.getLsbD n
    · have hs : (fun i => !x.getLsbD (n - i.succ)) = fun i => !x.getLsbD (n - 1 - i) :=
        funext fun i => by rw [Nat.succ_eq_one_add, Nat.sub_sub]
      simp [ih, hs, Nat.add_comm 1]
    · simp

theorem trailZeros_eq (x : Word) {n : Nat} (hn : n ≤ 64) :
    trailZeros x n = ((List.range n).takeWhile fun i => !x.getLsbD (64 - n + i)).length := by
  induction n with
  | zero => rfl
  | succ n ih =>
    rw [trailZeros, List.range_succ_eq_map, List.takeWhile_cons]
    have h0 : 64 - (n + 1) + 0 = 63 - n := by omega
    simp only [h0, List.takeWhile_map, Function.comp_def]
    cases h : x.getLsbD (63 - n)
    · have hs : (fun i => !x.getLsbD (63 - n + (i + 1))) = fun i => !x.getLsbD (64 - n + i) :=
        funext fun i => by rw [show 63 - n + (i + 1) = 64 - n + i by omega]
      simp [ih (by omega), hs, Nat.add_comm 1]
    · simp

theorem popCount_eq (x : Word) (n : Nat) : popCount x n = ((List.range n).filter x.getLsbD).length := by
  induction n with
  | zero => rfl
  | succ n ih =>
    rw [popCount, ih, List.range_succ, List.filter_append, List.length_append]
    cases h : x.getLsbD n <;> simp [h, b2n, Nat.add_comm]

/-! ### Bytes of a word (R4) -/

theorem toBytes_getElem (n x i : Nat) (h : i < (toBytes n x).length) : (toBytes n x)[i] = BitVec.ofNat 8 (x / 256 ^ i) := by
  induction n generalizing x i with
  | zero => simp [toBytes] at h
  | succ n ih =>
    cases i with
    | zero => simp [toBytes]
    | succ i =>
      simp only [toBytes, List.getElem_cons_succ]
      rw [ih, Nat.div_div_eq_div_mul, pow_succ, Nat.mul_comm]

theorem ofBytes_div_pow (bs : List Byte) (i : Nat) (h : i < bs.length) : ofBytes bs / 256 ^ i % 256 = bs[i].toNat := by
  induction bs generalizing i with
  | nil => simp at h
  | cons b bs ih =>
    have hb := b.isLt
    cases i with
    | zero => simp only [ofBytes, pow_zero, Nat.div_one, List.getElem_cons_zero]; omega
    | succ i =>
      have hd : (b.toNat + 256 * ofBytes bs) / 256 = ofBytes bs := by omega
      rw [ofBytes, pow_succ, Nat.mul_comm (256 ^ i), ← Nat.div_div_eq_div_mul, hd, List.getElem_cons_succ]
      exact ih i (by simpa using h)

theorem ofBytes_lt (bs : List Byte) : ofBytes bs < 256 ^ bs.length := by
  induction bs with
  | nil => simp [ofBytes]
  | cons b bs ih =>
    have hb := b.isLt
    rw [ofBytes, List.length_cons, pow_succ]
    omega

/-- Byte `i` of a word made of bytes. -/
theorem extract_wordOf {bs : List Byte} {i : Nat} (hl : bs.length ≤ 8) (h : i < bs.length) :
    (wordOf bs).extractLsb' (8 * i) 8 = bs[i] := by
  apply BitVec.eq_of_toNat_eq
  have hlt : ofBytes bs < 2 ^ 64 := (ofBytes_lt bs).trans_le ((Nat.pow_le_pow_right (by decide) hl).trans (by decide))
  rw [BitVec.extractLsb'_toNat, wordOf, BitVec.toNat_ofNat, Nat.mod_eq_of_lt hlt, Nat.shiftRight_eq_div_pow, pow_mul,
    ← ofBytes_div_pow bs i h]
  rfl

/-- A load extends the bytes of its width (R79). -/
theorem extend_toBytes {n : Nat} (x : Word) (h0 : 0 < n) (h8 : n ≤ 8) :
    extend true (toBytes n x.toNat) = (x.setWidth (8 * n)).signExtend 64 ∧
      extend false (toBytes n x.toNat) = (x.setWidth (8 * n)).setWidth 64 := by
  have hp : (256 : Nat) ^ n = 2 ^ (8 * n) := by rw [pow_mul]; rfl
  constructor
  · have hpw : 2 ^ (8 * n) = 2 * 2 ^ (8 * n - 1) := by rw [← pow_succ', Nat.sub_add_cancel (by omega)]
    have hi : toInt (8 * n) (x.toNat % 2 ^ (8 * n)) = (x.setWidth (8 * n)).toInt := by
      rw [toInt, BitVec.toInt_eq_toNat_cond, BitVec.toNat_setWidth, Nat.mod_mod]
      generalize x.toNat % 2 ^ (8 * n) = v
      split_ifs <;> omega
    simp only [extend, if_true, toBytes_length, ofBytes_toBytes, hp, hi, BitVec.signExtend]
  · apply BitVec.eq_of_toNat_eq
    simp [extend, wordOf, ofBytes_toBytes, hp]

/-! ### An ALU instruction by its result -/

theorem aluArgs_srcs (f : AluForm) (k k' : Core) : (aluArgs k f).srcs = (aluArgs k' f).srcs := by cases f <;> rfl
theorem immArgs_srcs (f : ImmForm) (k k' : Core) : (immArgs k f).srcs = (immArgs k' f).srcs := by cases f <;> rfl
theorem shiftArgs_srcs (f : ShiftForm) (k k' : Core) : (shiftArgs k f).srcs = (shiftArgs k' f).srcs := by cases f <;> rfl

/-! ### O1 -/

theorem resAdd_eq (c : Bool) (x y : Word) :
    resAdd c x y = (x + y,
      { n := (x + y).msb, z := decide (x + y = 0), c := decide (2 ^ 64 ≤ x.toNat + y.toNat), v := overflows (x.toInt + y.toInt) }) := by
  simp [resAdd, addFlags_eq, b2n]

theorem resSub_eq (c : Bool) (x y : Word) :
    resSub c x y = (x - y,
      { n := (x - y).msb, z := decide (x - y = 0), c := decide (y.toNat ≤ x.toNat), v := overflows (x.toInt - y.toInt) }) := by
  simp [resSub, subFlags_eq, b2n]

/-- Settles O1: each form issues as an ALU instruction, and its result and flags are those of the sum or difference. -/
theorem addSubtract : Obligations.AddSubtract := by
  unfold Obligations.AddSubtract
  intro c s s1
  refine ⟨fun f h => ⟨?_, ?_⟩, fun f h => ⟨?_, ?_⟩, fun f h => ?_, fun rd rs h => ?_, fun rd imm h => ?_⟩
  · exact congrArg _ (aluRun_ready h (aluArgs_srcs f) (resAdd_eq _ _ _))
  · exact congrArg _ (aluRun_ready h (aluArgs_srcs f) (resSub_eq _ _ _))
  · exact congrArg _ (aluRun_ready h (fun _ _ => rfl) (addFlags_eq _ _ _))
  · exact congrArg _ (aluRun_ready h (fun _ _ => rfl) (subFlags_eq _ _ _))
  · exact congrArg _ (aluRun_ready h (immArgs_srcs f) (resAdd_eq _ _ _))
  · exact congrArg _ (aluRun_ready (args := fun k => { rd := 0, srcs := [rd, rs], x := k.reg rd, y := k.reg rs, setf := true })
      h (fun _ _ => rfl) (resSub_eq _ _ _))
  · exact congrArg _ (aluRun_ready (args := fun k => { rd := 0, srcs := [rd], x := k.reg rd, y := imm.signExtend 64, setf := true })
      h (fun _ _ => rfl) (resSub_eq _ _ _))

/-! ### O2 -/

theorem signExtend_shiftLeft_eq {w : Nat} (i : BitVec w) (n : Nat) :
    (i.signExtend 64 : Word) <<< n = BitVec.ofInt 64 (i.toInt * 2 ^ n) := by
  have h2 : BitVec.twoPow 64 n = BitVec.ofInt 64 (2 ^ n) := by
    apply BitVec.eq_of_toNat_eq
    rw [BitVec.toNat_twoPow, show (2 : Int) ^ n = ((2 ^ n : Nat) : Int) by norm_cast, BitVec.ofInt_natCast, BitVec.toNat_ofNat]
  rw [BitVec.shiftLeft_eq_mul_twoPow, BitVec.ofInt_mul, BitVec.signExtend, h2]

/-- Settles O2: each form issues as an ALU instruction with the flags of its value. -/
theorem moveLogic : Obligations.MoveLogic := by
  unfold Obligations.MoveLogic
  intro c s s1
  refine ⟨fun rd rs h => ?_, fun rd imm h => ?_, fun f h => ⟨?_, ?_, ?_⟩, fun f h => ?_, fun f h => ⟨?_, ?_, ?_⟩, fun rd imm h => ?_,
    fun rd imm h => ?_⟩
  · exact congrArg _ (aluRun_ready (args := fun k => { rd := rd, srcs := [rs], x := k.reg rs, y := 0, setf := true })
      h (fun _ _ => rfl) rfl)
  · exact congrArg _ (aluRun_ready (args := fun _ => { rd := rd, srcs := [], x := imm.signExtend 64, y := 0, setf := true })
      h (fun _ _ => rfl) rfl)
  · exact congrArg _ (aluRun_ready h (aluArgs_srcs f) rfl)
  · exact congrArg _ (aluRun_ready h (aluArgs_srcs f) rfl)
  · exact congrArg _ (aluRun_ready h (aluArgs_srcs f) rfl)
  · exact congrArg _ (aluRun_ready h (fun _ _ => rfl) rfl)
  · exact congrArg _ (aluRun_ready h (fun _ _ => rfl) rfl)
  · exact congrArg _ (aluRun_ready h (fun _ _ => rfl) rfl)
  · exact congrArg _ (aluRun_ready h (fun _ _ => rfl) rfl)
  · rw [← signExtend_shiftLeft_eq]
    exact congrArg _ (aluRun_ready
      (args := fun _ => { rd := rd, srcs := [], x := (imm.signExtend 64) <<< 14, y := 0, setf := false }) h (fun _ _ => rfl) rfl)
  · rw [← shiftLeft_eq_ofNat, BitVec.ofNat_toNat]
    exact congrArg _ (aluRun_ready
      (args := fun k => { rd := rd, srcs := [rd], x := (k.reg rd <<< 20) ||| imm.zeroExtend 64, y := 0, setf := false })
      h (fun _ _ => rfl) rfl)

/-! ### O3 -/

section

variable (c : Bool) (x y : Word)

theorem resShl_eq : resShl c x y = logicFlags (BitVec.ofNat 64 (x.toNat * 2 ^ (y.toNat % 64))) false := by
  rw [resShl, amount_eq, shiftLeft_eq_ofNat]

theorem resShr_eq : resShr c x y = logicFlags (BitVec.ofNat 64 (x.toNat / 2 ^ (y.toNat % 64))) false := by
  rw [resShr, amount_eq, ushiftRight_eq_ofNat]

theorem resSar_eq : resSar c x y = logicFlags (BitVec.ofInt 64 (x.toInt / 2 ^ (y.toNat % 64))) false := by
  rw [resSar, amount_eq, sshiftRight_eq_ofInt]

theorem resRol_eq : resRol c x y = logicFlags (BitVec.ofNat 64 (x.toNat * 2 ^ (y.toNat % 64)) |||
    BitVec.ofNat 64 (x.toNat / 2 ^ (64 - y.toNat % 64))) false := by
  rw [resRol, amount_eq, rotateLeft_eq x (Nat.mod_lt _ (by decide))]

end

/-- An immediate amount is its own low six bits. -/
theorem shiftArgs_amount (k : Core) (f : ShiftForm) : (shiftArgs k f).y.toNat % 64 = (shiftArgs k f).y.toNat := by
  cases f with
  | short rd i =>
    have := i.isLt
    simp only [shiftArgs, BitVec.toNat_setWidth]
    omega
  | long f =>
    have := f.amt.isLt
    simp only [shiftArgs, shLong, BitVec.toNat_setWidth]
    omega

theorem aluRun_ready_legal {s s1 : State} {c : CoreId} {len : Nat} {legal : Bool} {args : Core → AluArgs}
    {res : Bool → Word → Word → Word × Flags} {r : Word} {v : Bool} (hl : legal = true)
    (h : Ready s c (args (s1.core c)).srcs len s1 [] false) (hs : ∀ k k', (args k).srcs = (args k').srcs)
    (hr : res (s1.core c).fl.c (args (s1.core c)).x (args (s1.core c)).y = logicFlags r v) :
    aluRun c len legal args res s = aluDone s1 c len (args (s1.core c)) r false v := by
  subst hl
  exact aluRun_ready h hs hr

theorem aluRun_not_legal {s s1 : State} {c : CoreId} {len : Nat} {legal : Bool} {args : Core → AluArgs}
    {res : Bool → Word → Word → Word × Flags} (hl : legal = false)
    (h : Ready s c (args (s.core c)).srcs len s1 [] false) (hq : Quiet s1 c) :
    aluRun c len legal args res s = faulted s1 c { code := cIllegal } := by
  subst hl
  exact aluRun_illegal h hq

/-- Settles O3: a shift is a product or a quotient by a power of two, and the fields that must be 0 decide whether it is legal. -/
theorem shifts : Obligations.Shifts := by
  unfold Obligations.Shifts
  intro left right arith rot c s s1
  refine ⟨fun f h => ⟨?_, ?_, ?_⟩, fun f h => ?_, fun f h hl => ?_, fun f h hl => ?_, fun f h hq hl => ?_⟩
  · exact congrArg _ (aluRun_ready h (aluArgs_srcs f) (resShl_eq _ _ _))
  · exact congrArg _ (aluRun_ready h (aluArgs_srcs f) (resShr_eq _ _ _))
  · exact congrArg _ (aluRun_ready h (aluArgs_srcs f) (resSar_eq _ _ _))
  · exact congrArg _ (aluRun_ready h (fun _ _ => rfl) (resRol_eq _ _ _))
  · have hn := shiftArgs_amount (s1.core c) f
    refine ⟨congrArg _ (aluRun_ready_legal hl h (shiftArgs_srcs f) ?_), congrArg _ (aluRun_ready_legal hl h (shiftArgs_srcs f) ?_),
      congrArg _ (aluRun_ready_legal hl h (shiftArgs_srcs f) ?_)⟩
    · rw [resShl_eq, hn]
    · rw [resShr_eq, hn]
    · rw [resSar_eq, hn]
  · have hn : (shLong (s1.core c) f).y.toNat % 64 = f.amt.toNat :=
      (shiftArgs_amount (s1.core c) (.long f)).trans (BitVec.toNat_setWidth_of_le (by decide))
    refine congrArg _ (aluRun_ready_legal (decide_eq_true hl) h (fun _ _ => rfl) ?_)
    rw [resRol_eq, hn]
  · have hl : decide (f.mbz = 0) = false := decide_eq_false hl
    exact ⟨congrArg _ (aluRun_not_legal hl h hq), congrArg _ (aluRun_not_legal hl h hq), congrArg _ (aluRun_not_legal hl h hq),
      congrArg _ (aluRun_not_legal hl h hq)⟩

/-! ### O4 -/

section

variable (c : Bool) (x y : Word)

theorem resMul_eq : resMul c x y = logicFlags (BitVec.ofInt 64 (x.toInt * y.toInt)) (overflows (x.toInt * y.toInt)) := by
  rw [resMul, mul_eq_ofInt]; rfl

/-- By 0, every quotient is all ones and every remainder the number divided (R78). -/
theorem res_by_zero : resDiv c x 0 = logicFlags (BitVec.allOnes 64) true ∧ resDivu c x 0 = logicFlags (BitVec.allOnes 64) true ∧
    resRem c x 0 = logicFlags x true ∧ resRemu c x 0 = logicFlags x true :=
  ⟨rfl, rfl, rfl, rfl⟩

variable {x y}

theorem res_overflow (hx : x.toInt = -(2 ^ 63)) (hy : y.toInt = -1) :
    resDiv c x y = logicFlags x true ∧ resRem c x y = logicFlags 0 true := by
  rw [eq_minWord_iff.2 hx, eq_allOnes_iff.2 hy]
  exact ⟨rfl, rfl⟩

theorem res_signed (h0 : y ≠ 0) (h : ¬(x.toInt = -(2 ^ 63) ∧ y.toInt = -1)) :
    resDiv c x y = logicFlags (BitVec.ofInt 64 (x.toInt.tdiv y.toInt)) false ∧
      resRem c x y = logicFlags (BitVec.ofInt 64 (x.toInt.tmod y.toInt)) false := by
  rw [← eq_minWord_iff, ← eq_allOnes_iff] at h
  simp only [resDiv, resRem, if_neg h0, Bool.and_eq_true, decide_eq_true_eq, if_neg h, and_self]

theorem res_unsigned (h0 : y ≠ 0) :
    resDivu c x y = logicFlags (BitVec.ofNat 64 (x.toNat / y.toNat)) false ∧
      resRemu c x y = logicFlags (BitVec.ofNat 64 (x.toNat % y.toNat)) false := by
  simp only [resDivu, resRemu, if_neg h0, udiv_eq_ofNat, umod_eq_ofNat, and_self]

end

/-- Settles O4, by the cases of R78: division by 0, the one overflow, and every other operand. -/
theorem multiplyDivide : Obligations.MultiplyDivide := by
  unfold Obligations.MultiplyDivide
  intro c s s1
  refine ⟨fun f h => ?_, fun f h => ⟨?_, ?_⟩, fun f h => ⟨fun hy => ?_, fun hx hy => ?_, fun h0 hn => ?_, fun h0 => ?_⟩⟩
  · exact congrArg _ (aluRun_ready h (aluArgs_srcs f) (resMul_eq _ _ _))
  · exact congrArg _ (aluRun_ready h (fun _ _ => rfl) rfl)
  · exact congrArg _ (aluRun_ready h (fun _ _ => rfl) rfl)
  · obtain ⟨h1, h2, h3, h4⟩ := res_by_zero (s1.core c).fl.c (lrArgs (s1.core c) f).x
    rw [← hy] at h1 h2 h3 h4
    exact ⟨congrArg _ (aluRun_ready h (fun _ _ => rfl) h1), congrArg _ (aluRun_ready h (fun _ _ => rfl) h2),
      congrArg _ (aluRun_ready h (fun _ _ => rfl) h3), congrArg _ (aluRun_ready h (fun _ _ => rfl) h4)⟩
  · obtain ⟨h1, h2⟩ := res_overflow (s1.core c).fl.c hx hy
    exact ⟨congrArg _ (aluRun_ready h (fun _ _ => rfl) h1), congrArg _ (aluRun_ready h (fun _ _ => rfl) h2)⟩
  · obtain ⟨h1, h2⟩ := res_signed (s1.core c).fl.c h0 hn
    exact ⟨congrArg _ (aluRun_ready h (fun _ _ => rfl) h1), congrArg _ (aluRun_ready h (fun _ _ => rfl) h2)⟩
  · obtain ⟨h1, h2⟩ := res_unsigned (x := (lrArgs (s1.core c) f).x) (s1.core c).fl.c h0
    exact ⟨congrArg _ (aluRun_ready h (fun _ _ => rfl) h1), congrArg _ (aluRun_ready h (fun _ _ => rfl) h2)⟩

/-! ### O5 -/

section

variable (c : Bool) (x y : Word)

theorem resSlt_eq : resSlt c x y = logicFlags (if x.toInt < y.toInt then 1 else 0) false := by
  simp only [resSlt, BitVec.slt_eq_decide, decide_eq_true_eq]

theorem resSltu_eq : resSltu c x y = logicFlags (if x.toNat < y.toNat then 1 else 0) false := by
  simp only [resSltu, BitVec.ult_eq_decide, decide_eq_true_eq]

theorem resClz_eq : resClz c x y = logicFlags (BitVec.ofNat 64 ((List.range 64).takeWhile fun i => !x.getLsbD (63 - i)).length) false := by
  rw [resClz, leadZeros_eq]

theorem resCtz_eq : resCtz c x y = logicFlags (BitVec.ofNat 64 ((List.range 64).takeWhile fun i => !x.getLsbD i).length) false := by
  rw [resCtz, trailZeros_eq x le_rfl]
  simp only [Nat.sub_self, Nat.zero_add]

theorem resPopc_eq : resPopc c x y = logicFlags (BitVec.ofNat 64 ((List.range 64).filter x.getLsbD).length) false := by
  rw [resPopc, popCount_eq]

theorem resSext_eq : resSext .b c x y = logicFlags ((x.setWidth 8).signExtend 64) false ∧
    resSext .h c x y = logicFlags ((x.setWidth 16).signExtend 64) false ∧
    resSext .w c x y = logicFlags ((x.setWidth 32).signExtend 64) false :=
  ⟨congrArg (logicFlags · false) (extend_toBytes (n := 1) x (by decide) (by decide)).1,
    congrArg (logicFlags · false) (extend_toBytes (n := 2) x (by decide) (by decide)).1,
    congrArg (logicFlags · false) (extend_toBytes (n := 4) x (by decide) (by decide)).1⟩

theorem resZextW_eq : resZextW c x y = logicFlags ((x.setWidth 32).setWidth 64) false :=
  congrArg (logicFlags · false) (extend_toBytes (n := 4) x (by decide) (by decide)).2

theorem resBswap_eq : resBswap c x y = logicFlags (wordOf (toBytes 8 x.toNat).reverse) false := rfl

/-- The bytes of a word in the other order. -/
theorem bswap_bytes {i : Nat} (hi : i < 8) :
    (wordOf (toBytes 8 x.toNat).reverse).extractLsb' (8 * i) 8 = x.extractLsb' (8 * (7 - i)) 8 := by
  rw [extract_wordOf (by simp) (by simpa using hi), List.getElem_reverse, toBytes_getElem]
  apply BitVec.eq_of_toNat_eq
  rw [BitVec.extractLsb'_toNat, BitVec.toNat_ofNat, Nat.shiftRight_eq_div_pow, pow_mul, toBytes_length]
  rfl

end

section

variable {s s1 : State} {c : CoreId} {f : LR} {i : Instr} {res : Bool → Word → Word → Word × Flags}

theorem exec_unary {r : Word} (he : exec i s = .next (aluRun c 4 (unaryLegal f) (lrArgs · f) res s))
    (h : AluReady s c [f.rs1, f.rs2] 4 s1) (h0 : f.rs2 = 0)
    (hr : res (s1.core c).fl.c (lrArgs (s1.core c) f).x (lrArgs (s1.core c) f).y = logicFlags r false) :
    exec i s = .next (aluDone s1 c 4 (lrArgs (s1.core c) f) r false false) := by
  rw [he, aluRun_ready_legal (legal := unaryLegal f) (decide_eq_true h0) h (fun _ _ => rfl) hr]

theorem exec_unary_illegal (he : exec i s = .next (aluRun c 4 (unaryLegal f) (lrArgs · f) res s))
    (h : AluReady s c [f.rs1, f.rs2] 4 s1) (hq : Quiet s1 c) (h0 : f.rs2 ≠ 0) :
    exec i s = .next (faulted s1 c { code := cIllegal }) := by
  rw [he, aluRun_not_legal (legal := unaryLegal f) (decide_eq_false h0) h hq]

end

/-- Settles O5: the value of each row of R77, and the fault of a unary form whose rs2 is not s0. -/
theorem selectAndCount : Obligations.SelectAndCount := by
  unfold Obligations.SelectAndCount
  intro c s s1
  refine ⟨fun f h => ?_, fun f h => ⟨?_, ?_⟩, fun f h hq h0 => ?_⟩
  · refine ⟨congrArg _ (aluRun_ready h (fun _ _ => rfl) (resSlt_eq _ _ _)), congrArg _ (aluRun_ready h (fun _ _ => rfl) (resSltu_eq _ _ _)),
      congrArg _ (aluRun_ready h (fun _ _ => rfl) (resMin_eq _ _ _)), congrArg _ (aluRun_ready h (fun _ _ => rfl) (resMax_eq _ _ _)),
      congrArg _ (aluRun_ready h (fun _ _ => rfl) (resMinu_eq _ _ _)), congrArg _ (aluRun_ready h (fun _ _ => rfl) (resMaxu_eq _ _ _)),
      fun h0 => ?_⟩
    have hx := resSext_eq (s1.core c).fl.c (lrArgs (s1.core c) f).x (lrArgs (s1.core c) f).y
    exact ⟨exec_unary rfl h h0 (resClz_eq _ _ _), exec_unary rfl h h0 (resCtz_eq _ _ _), exec_unary rfl h h0 (resPopc_eq _ _ _),
      exec_unary rfl h h0 hx.1, exec_unary rfl h h0 hx.2.1, exec_unary rfl h h0 hx.2.2, exec_unary rfl h h0 (resZextW_eq _ _ _),
      wordOf (toBytes 8 (lrArgs (s1.core c) f).x.toNat).reverse, fun i hi => bswap_bytes _ hi, exec_unary rfl h h0 (resBswap_eq _ _ _)⟩
  · exact congrArg _ (aluRun_ready h (fun _ _ => rfl) (resSlt_eq _ _ _))
  · exact congrArg _ (aluRun_ready h (fun _ _ => rfl) (resSltu_eq _ _ _))
  · simp only [List.forall_mem_cons]
    exact ⟨exec_unary_illegal rfl h hq h0, exec_unary_illegal rfl h hq h0, exec_unary_illegal rfl h hq h0, exec_unary_illegal rfl h hq h0,
      exec_unary_illegal rfl h hq h0, exec_unary_illegal rfl h hq h0, exec_unary_illegal rfl h hq h0, exec_unary_illegal rfl h hq h0, List.forall_mem_nil _⟩

end Sys2Proof.Machine
end

section
/-! SUPPORT. Branches and jumps, the loop-end test and `zloop`, and the proofs of O8 and O9. -/

namespace Sys2Proof.Machine

open Sys2Proof

/-! ### Branches and jumps (R71, R80) -/

section Jumps

variable {s s1 s2 : State} {c : CoreId} {rs : List Reg} {len : Nat} {body : State → Effect} {xs : List Nat} {i : Instr} {a : Word}
  {f : Core → Core}

variable {legal : Bool} (he : exec i s = .next (issue c rs len legal body s xs)) (h : Ready s c rs len s1 xs)

include he h

/-- An instruction whose own effect is a jump goes to an even address, and faults on an odd one. -/
theorem exec_goes (hl : legal = true) (hb : body s1 = jumpTo s2 a) (hj : jumped s2 c a id = jumped s1 c a f) :
    (a.getLsbD 0 = false → exec i s = .next (jumped s1 c a f)) ∧
      (a.getLsbD 0 = true → Quiet s1 c → exec i s = .next (faulted s1 c { code := cIalign, addr := a })) := by
  subst hl
  exact ⟨fun ha => by rw [he, issue_jumped_same h ha hb, hj], fun ha hq => by rw [he, issue_odd h hq ha hb]⟩

theorem exec_passes (hl : legal = true) (hb : body s1 = done s1) : exec i s = .next (retired s1 c len 1 id) := by
  subst hl
  rw [he, issue_same h hb]

theorem exec_illegal (hl : legal = false) (hq : Quiet s1 c) : exec i s = .next (faulted s1 c { code := cIllegal }) := by
  subst hl
  rw [he, issue_fault h hq rfl]

omit he h

/-- The link register is written before the jump. -/
theorem jumped_setReg (s : State) (c : CoreId) (a : Word) (r : Reg) (v : Word) :
    jumped (s.setReg c r v) c a id = jumped s c a fun k => k.setReg r v := by
  simp only [jumped, State.setReg, State.updCore, State.core_setCore, State.setCore_setCore, id]

theorem half_eq {n : Nat} (d : BitVec n) : half d = BitVec.ofInt 64 (2 * d.toInt) := by
  rw [half, signExtend_shiftLeft_eq, pow_one, mul_comm]

theorem condHolds_table (f : Flags) : (List.range 14).map (fun n => condHolds (BitVec.ofNat 4 n) f) =
    [f.z, !f.z, f.c, !f.c, f.n, !f.n, f.v, !f.v, f.c && !f.z, !f.c || f.z, f.n == f.v, f.n != f.v, !f.z && f.n == f.v,
      f.z || f.n != f.v] := by
  obtain ⟨_ | _, _ | _, _ | _, _ | _⟩ := f <;> rfl

end Jumps

/-- Settles O8: each form jumps, completes without a jump, or spells no instruction. -/
theorem branches : Obligations.Branches := by
  unfold Obligations.Branches
  refine ⟨condHolds_table, fun c s s1 => ⟨fun f h => ⟨fun hc ht => ?_, fun hc hf => ?_, fun hc => ?_⟩, fun d h => ?_, fun d h => ?_,
    fun rs h => ⟨?_, ?_⟩, fun f h => ⟨fun hf => ?_, fun hf => ?_⟩, fun rs h => ⟨fun h0 => ?_, fun h0 => ?_⟩,
    fun rs h => ⟨fun h0 => ?_, fun h0 => ?_⟩⟩⟩
  · exact exec_goes rfl h (decide_eq_true hc) (if_pos ht) rfl
  · exact exec_passes rfl h (decide_eq_true hc) (if_neg (Bool.not_eq_true _ ▸ hf))
  · exact exec_illegal rfl h (decide_eq_false (Nat.not_lt.2 hc))
  · rw [← half_eq]; exact exec_goes rfl h rfl rfl rfl
  · rw [← half_eq]; exact exec_goes rfl h rfl rfl (jumped_setReg _ _ _ _ _)
  · exact exec_goes rfl h rfl rfl (jumped_setReg _ _ _ _ _)
  · exact exec_goes rfl h rfl rfl rfl
  · rw [← half_eq]; exact exec_goes (legal := !f.f) rfl h (by rw [hf]; rfl) rfl (jumped_setReg _ _ _ _ _)
  · exact exec_illegal (legal := !f.f) rfl h (by rw [hf]; rfl)
  · exact exec_goes rfl h (decide_eq_true h0) rfl rfl
  · exact exec_illegal rfl h (decide_eq_false h0)
  · exact exec_passes rfl h (decide_eq_true h0) rfl
  · exact exec_illegal rfl h (decide_eq_false h0)

/-! ### The loop-end test (R88) -/

/-- The test changes nothing but loop counts. -/
theorem loopEnd_frame (k : Core) (a : Word) (n : Nat) : (loopEnd k a n).1 = { k with lc := (loopEnd k a n).1.lc } := by
  induction n generalizing k with
  | zero => rfl
  | succ n ih =>
    unfold loopEnd
    split_ifs
    · rfl
    · rw [ih]
    · exact ih k

/-- A loop that ends at `a` with more than one iteration left is taken. -/
theorem loopEnd_take {k : Core} {a : Word} {n : Nat} (h1 : 1 < (aget 0 k.lc n).toNat) (he : aget 0 k.le n = a) :
    loopEnd k a (n + 1) = ({ k with lc := aset 0 k.lc n (aget 0 k.lc n - 1) }, some (aget 0 k.ls n)) := by
  have h0 : aget 0 k.lc n ≠ 0 := by intro h; rw [h] at h1; exact absurd h1 (by decide)
  rw [loopEnd, if_pos (by simp only [h0, he, decide_not, decide_false, decide_true, Bool.not_false, Bool.and_self]), if_pos h1]

/-- A loop that does not, closes if it ends there, and the loops below it are tested. -/
theorem loopEnd_pass {k : Core} {a : Word} {n : Nat} (h : aget 0 k.le n = a → (aget 0 k.lc n).toNat ≤ 1) :
    ∃ k', loopEnd k a (n + 1) = loopEnd k' a n ∧ k'.le = k.le ∧ k'.ls = k.ls ∧
      ∀ j, aget 0 k'.lc j = if j = n ∧ aget 0 k.le j = a then 0 else aget 0 k.lc j := by
  by_cases hc : aget 0 k.lc n ≠ 0 ∧ aget 0 k.le n = a
  · refine ⟨{ k with lc := aset 0 k.lc n 0 }, ?_, rfl, rfl, fun j => ?_⟩
    · rw [loopEnd, if_pos (by simpa only [Bool.and_eq_true, decide_eq_true_eq] using hc), if_neg (Nat.not_lt.2 (h hc.2))]
    · rw [aget_aset]
      by_cases hj : j = n
      · subst hj; rw [if_pos rfl, if_pos ⟨rfl, hc.2⟩]
      · rw [if_neg hj, if_neg fun e => hj e.1]
  · refine ⟨k, ?_, rfl, rfl, fun j => ?_⟩
    · rw [loopEnd, if_neg (by simpa only [Bool.and_eq_true, decide_eq_true_eq] using hc)]
    · split_ifs with hj
      · obtain ⟨rfl, he⟩ := hj
        exact not_not.1 fun h0 => hc ⟨h0, he⟩
      · rfl

/-- With no iteration left, every loop that ends at `a` is closed and none is taken. -/
theorem loopEnd_none {k : Core} {a : Word} {n : Nat} (h : ∀ j < n, aget 0 k.le j = a → (aget 0 k.lc j).toNat ≤ 1) :
    (loopEnd k a n).2 = none ∧ ∀ j, aget 0 (loopEnd k a n).1.lc j = if j < n ∧ aget 0 k.le j = a then 0 else aget 0 k.lc j := by
  induction n generalizing k with
  | zero => exact ⟨rfl, fun j => by simp [loopEnd]⟩
  | succ n ih =>
    obtain ⟨k', hs, hle, -, hlc⟩ := loopEnd_pass (h n (Nat.lt_succ_self n))
    have hk : ∀ j < n, aget 0 k'.le j = a → (aget 0 k'.lc j).toNat ≤ 1 := fun j hj he => by
      rw [hlc, if_neg fun e => absurd e.1 hj.ne]
      exact h j (hj.trans (Nat.lt_succ_self n)) (hle ▸ he)
    obtain ⟨h2, hj⟩ := ih hk
    refine ⟨hs ▸ h2, fun j => ?_⟩
    rw [hs, hj, hlc, hle]
    by_cases he : aget 0 k.le j = a
    · simp only [he, and_true]
      split_ifs <;> first | rfl | omega
    · simp only [he, and_false, if_false]

/-- The highest loop `i` that ends at `a` with more than one iteration left is taken, and those above it that end there close. -/
theorem loopEnd_some {k : Core} {a : Word} {n i : Nat} (hi : i < n) (h1 : 1 < (aget 0 k.lc i).toNat) (he : aget 0 k.le i = a)
    (h : ∀ j, i < j → j < n → aget 0 k.le j = a → (aget 0 k.lc j).toNat ≤ 1) :
    (loopEnd k a n).2 = some (aget 0 k.ls i) ∧ ∀ j, aget 0 (loopEnd k a n).1.lc j =
      if j = i then aget 0 k.lc i - 1 else if i < j ∧ j < n ∧ aget 0 k.le j = a then 0 else aget 0 k.lc j := by
  induction n generalizing k with
  | zero => exact absurd hi (Nat.not_lt_zero i)
  | succ n ih =>
    by_cases hin : i = n
    · subst hin
      rw [loopEnd_take h1 he]
      refine ⟨rfl, fun j => ?_⟩
      have hno : ¬(i < j ∧ j < i + 1 ∧ aget 0 k.le j = a) := by omega
      rw [aget_aset, if_neg hno]
    · have hlt : i < n := by omega
      obtain ⟨k', hs, hle, hls, hlc⟩ := loopEnd_pass (h n hlt (Nat.lt_succ_self n))
      have hsame : ∀ j, j ≠ n → aget 0 k'.lc j = aget 0 k.lc j := fun j hj => by rw [hlc, if_neg fun e => hj e.1]
      obtain ⟨h2, hj⟩ := ih (k := k') hlt (by rwa [hsame i hlt.ne]) (by rwa [hle]) fun j hij hjn hje => by
        rw [hsame j hjn.ne]
        exact h j hij (hjn.trans (Nat.lt_succ_self n)) (hle ▸ hje)
      refine ⟨by rw [hs, h2, hls], fun j => ?_⟩
      rw [hs, hj, hsame i hlt.ne, hle, hlc]
      by_cases hje : aget 0 k.le j = a
      · simp only [hje, and_true]
        split_ifs <;> first | rfl | omega
      · simp only [hje, and_false, if_false]

/-! ### `zloop` (R86, R87) -/

theorem and_shiftLeft_one (x m : Nat) : x &&& (m <<< 1) = (x >>> 1 &&& m) <<< 1 := by
  apply Nat.eq_of_testBit_eq
  intro i
  cases i <;> simp [Nat.testBit_shiftLeft, Nat.testBit_shiftRight, Nat.add_comm]

/-- A loop address keeps its bits [39:1] (R85). -/
theorem and_loopMask (w : Word) : w &&& 0xFFFFFFFFFE = BitVec.ofNat 64 (w.toNat % 2 ^ 40 / 2 * 2) := by
  have hm : w.toNat &&& 0xFFFFFFFFFE = w.toNat % 2 ^ 40 / 2 * 2 := by
    rw [show (0xFFFFFFFFFE : Nat) = (2 ^ 39 - 1) <<< 1 from rfl, and_shiftLeft_one, Nat.and_two_pow_sub_one_eq_mod, Nat.shiftRight_eq_div_pow,
      Nat.shiftLeft_eq]
    omega
  apply BitVec.eq_of_toNat_eq
  rw [BitVec.toNat_and, BitVec.toNat_ofNat]
  exact hm.trans (Nat.mod_eq_of_lt (by omega)).symm

theorem and_low32 (w : Word) : w &&& 0xFFFFFFFF = BitVec.ofNat 64 (w.toNat % 2 ^ 32) := by
  apply BitVec.eq_of_toNat_eq
  rw [BitVec.toNat_and, BitVec.toNat_ofNat, Nat.mod_eq_of_lt (by omega)]
  exact Nat.and_two_pow_sub_one_eq_mod _ 32

theorem lengthAt_cases (s : State) (c : CoreId) (a : Word) : (lengthAt s c a).2 = 2 ∨ (lengthAt s c a).2 = 4 ∨ (lengthAt s c a).2 = 6 := by
  have hh : ∀ h, halfLength h = 2 ∨ halfLength h = 4 ∨ halfLength h = 6 := fun h => by unfold halfLength; split_ifs <;> simp
  unfold lengthAt
  split
  · exact .inr (.inl rfl)
  · split
    · exact hh _
    · exact .inr (.inl rfl)

theorem getLsbD_zero_eq (w : Word) : w.getLsbD 0 = decide (w.toNat % 2 = 1) := Nat.testBit_zero _

/-- What `zloop Li` writes (R86). -/
def loopSet (i : LoopNo) (start last n : Word) (k : Core) : Core :=
  { k with ls := aset 0 k.ls i.toNat start, le := aset 0 k.le i.toNat last, lc := aset 0 k.lc i.toNat n }

section Zloop

variable {c : CoreId} {s s1 : State} {i : LoopNo} {rs : Reg} {off : Imm18} {start last n : Word} (h : Ready s c [rs] 4 s1)
  (hs : ((s1.core c).pc + 4) &&& 0xFFFFFFFFFE = start)
  (hl : ((s1.core c).pc + (4 : Word) + (off.zeroExtend 64 <<< 1)) &&& 0xFFFFFFFFFE = last) (hn : (s1.core c).reg rs &&& 0xFFFFFFFF = n)

include h hs hl hn

theorem exec_zloop (h0 : n ≠ 0) : exec (.zloop c i rs off) s = .next (retired s1 c 4 1 (loopSet i start last n)) := by
  subst hs hl hn
  exact congrArg _ (issue_retired h (if_neg h0))

/-- With a count of 0 the body is skipped: the jump goes to the instruction after the one at LEi (log 95). -/
theorem exec_zloop_skip (h0 : n = 0) (he : last.getLsbD 0 = false) :
    let r := lengthAt (s1.updCore c (loopSet i start last n)) c last
    exec (.zloop c i rs off) s = .next (jumped r.1 c (last + BitVec.ofNat 64 r.2) id) := by
  intro r
  have ha : (last + BitVec.ofNat 64 r.2).getLsbD 0 = false := by
    have hr : r.2 = 2 ∨ r.2 = 4 ∨ r.2 = 6 := lengthAt_cases _ _ _
    rw [getLsbD_zero_eq, decide_eq_false_iff_not] at he ⊢
    rw [BitVec.toNat_add, BitVec.toNat_ofNat]
    omega
  refine congrArg _ (issue_jumped_same h ha ?_)
  subst hs hl hn
  exact if_pos h0

end Zloop

theorem goNext_frame (k : Core) (a : Word) (len : Nat) :
    goNext k a len = { k with pc := (goNext k a len).pc, lc := (goNext k a len).lc, fwin := (goNext k a len).fwin } := by
  have hf := loopEnd_frame k a 4
  simp only [goNext]
  generalize loopEnd k a 4 = r at hf ⊢
  obtain ⟨k', t⟩ := r
  simp only at hf
  cases t <;> · simp only; rw [hf]

/-- Settles O9: the loop-end test by its recursion over the loops, and `zloop` by its count. -/
theorem hardwareLoops : Obligations.HardwareLoops := by
  unfold Obligations.HardwareLoops
  refine ⟨fun k a len => ⟨goNext_frame k a len, fun i hi h1 he hj => ?_, fun hj => ?_⟩, fun c s s1 i rs off h => ?_⟩
  · obtain ⟨h2, hlc⟩ := loopEnd_some hi h1 he hj
    simp only [goNext, h2]
    exact ⟨trivial, trivial, hlc⟩
  · obtain ⟨h2, hlc⟩ := loopEnd_none hj
    have hw : (loopEnd k a 4).1.fwin = k.fwin := by rw [loopEnd_frame]
    simp only [goNext, h2]
    exact ⟨trivial, hw, hlc⟩
  · intro k start last n f
    have hs : (k.pc + 4) &&& 0xFFFFFFFFFE = start := and_loopMask _
    have hl : (k.pc + (4 : Word) + (off.zeroExtend 64 <<< 1)) &&& 0xFFFFFFFFFE = last := by
      rw [and_loopMask, shiftLeft_eq_ofNat, BitVec.toNat_setWidth_of_le (by decide), pow_one, mul_comm off.toNat]
    have hn : k.reg rs &&& 0xFFFFFFFF = n := and_low32 _
    refine ⟨exec_zloop h hs hl hn, fun h0 => ⟨lengthAt_cases _ _ _, exec_zloop_skip h hs hl hn h0 ?_⟩⟩
    rw [getLsbD_zero_eq, decide_eq_false_iff_not, BitVec.toNat_ofNat]
    omega

end Sys2Proof.Machine
end

section
/-! SUPPORT. What an issuing load or store does, and the proofs of O6 and O7. -/

namespace Sys2Proof.Machine

open Sys2Proof

/-! ### What every load and store share (R79, R111) -/

theorem ldSize_pos (k : LdKind) : 0 < ldSize k := by cases k <;> decide
theorem stSize_pos (k : StKind) : 0 < stSize k := by cases k <;> decide

theorem ldArgs_size_pos (k : Core) (f : LdForm) : 0 < (ldArgs k f).size := by
  cases f with
  | shortD rd rs => exact Nat.zero_lt_succ _
  | shortW rd rs => exact Nat.zero_lt_succ _
  | long sz rt b i => exact ldSize_pos sz

theorem stArgs_size_pos (k : Core) (f : StForm) : 0 < (stArgs k f).size := by
  cases f with
  | shortD rt rs => exact Nat.zero_lt_succ _
  | shortW rt rs => exact Nat.zero_lt_succ _
  | long sz rt b i => exact stSize_pos sz

theorem spAddr_eq (k : Core) (i : Imm5) : spAddr k i = k.reg 31 + BitVec.ofNat 64 (8 * i.toNat) := by
  have h : (i.zeroExtend 64 * 8 : Word) = BitVec.ofNat 64 (8 * i.toNat) := by
    apply BitVec.eq_of_toNat_eq
    rw [BitVec.toNat_mul, BitVec.toNat_setWidth_of_le (by decide), BitVec.toNat_ofNat, mul_comm i.toNat]
    rfl
  rw [spAddr, h]

/-- The trap of a denied window has the code it is given (R111). -/
theorem winTrap_code {s : State} {c : CoreId} {a : Word} {n code : Nat} {need : Rights} {t : Trap}
    (h : winTrap s c a n need code = some t) : t.code = code := by
  rw [winTrap, Option.map_eq_some_iff] at h
  obtain ⟨x, -, rfl⟩ := h
  rfl

/-! ### Loads -/

section Load

variable {c : CoreId} {s s1 : State} {i : Instr} {rs : List Reg} {len : Nat} {body : State → Effect} {a : LdArgs}
  (he : exec i s = .next (issue c rs len true body s)) (h : Ready s c rs len s1) (hb : body s1 = loadBody c len a s1)

include he h hb

/-- A load within this module whose bytes are had (R79). -/
theorem exec_load {bs : List Byte} (hw : winTrap s1 c a.addr a.size rightR cLoadWin = none) (hr : isRemote s1 a.addr = false)
    (hd : (dataRead s1 c a.addr a.size).2 = .ok bs) :
    exec i s = .next (completed s1 c len 1 fun s =>
      loadOwe ((dataRead s c a.addr a.size).1.setReg c a.rt (extend a.signed bs)) c a.rt (loadHit s c a.addr a.size)) := by
  rw [he]
  refine congrArg _ (issue_completed h (hb.trans ?_))
  have hp : dataRead s1 c a.addr a.size = ((dataRead s1 c a.addr a.size).1, .ok bs) := Prod.ext rfl hd
  rw [loadBody, hw]
  simp only [hr, Bool.false_eq_true, if_false]
  rw [hp]
  rfl

/-- A load whose bytes are had without a change of the machine, and at once (R84). -/
theorem exec_load_hit {bs : List Byte} (hw : winTrap s1 c a.addr a.size rightR cLoadWin = none) (hr : isRemote s1 a.addr = false)
    (hh : loadHit s1 c a.addr a.size = true) (hd : dataRead s1 c a.addr a.size = (s1, .ok bs)) :
    exec i s = .next (retired s1 c len 1 fun k => (k.setReg a.rt (extend a.signed bs)).owe a.rt.toNat 2) := by
  rw [exec_load he h hb hw hr (by rw [hd]), ← completed_core]
  simp only [completed, hd, hh, loadOwe, if_true, State.setReg, State.updCore_updCore]

theorem exec_load_denied {t : Trap} (hq : Quiet s1 c) (hw : winTrap s1 c a.addr a.size rightR cLoadWin = some t) :
    exec i s = .next (faulted s1 c t) := by
  rw [he]
  exact congrArg _ (issue_fault h hq (hb.trans (by rw [loadBody, hw])))

end Load

/-- Settles O6: both instructions issue as a load of their operands, and a load is taken by what its windows and its access say. -/
theorem loads : Obligations.Loads := by
  unfold Obligations.Loads
  refine ⟨fun n x => extend_toBytes x, fun c s s1 i len a hi => ?_⟩
  have hload : ∃ rs body, exec i s = .next (issue c rs len true body s) ∧ Ready s c rs len s1 ∧ body s1 = loadBody c len a s1 ∧
      0 < a.size := by
    rcases hi with ⟨f, rfl, rfl, rfl, h⟩ | ⟨rd, imm, rfl, rfl, rfl, h⟩
    · exact ⟨_, _, rfl, h, rfl, ldArgs_size_pos _ f⟩
    · exact ⟨_, _, rfl, h, by rw [← spAddr_eq], Nat.zero_lt_succ _⟩
  obtain ⟨rs, body, he, h, hb, hn⟩ := hload
  refine ⟨fun bs => exec_load he h hb, fun t off hc ha hw h1 h2 h3 h4 => ?_, fun t hq hw => ⟨winTrap_code hw, exec_load_denied he h hb hq hw⟩⟩
  subst hc
  obtain ⟨l, hl⟩ : ∃ l, l = 0xFC00000000 + off := ⟨_, rfl⟩
  obtain ⟨hr, hh, hd⟩ := dataRead_scratch hn (hl ▸ ha) hl h1 h2 h3 h4
  exact exec_load_hit he h hb hw hr hh hd

/-! ### Stores -/

section Store

variable {c : CoreId} {s s1 : State} {i : Instr} {rs : List Reg} {len : Nat} {body : State → Effect} {a : StArgs}
  (he : exec i s = .next (issue c rs len true body s)) (h : Ready s c rs len s1) (hb : body s1 = storeBody c a s1)

include he h hb

/-- A store that is ready (R145, R345). -/
theorem exec_store (hw : winTrap s1 c a.addr a.size rightW cStoreWin = none) (hr : (storeReady s1 c a.addr a.size).2 = true) :
    exec i s = .next (completed s1 c len 1 fun s =>
      dataWrite (bufferStall (storeReady s c a.addr a.size).1 c) c a.addr (toBytes a.size a.val.toNat)) := by
  rw [he]
  refine congrArg _ (issue_completed h (hb.trans ?_))
  have hp : storeReady s1 c a.addr a.size = ((storeReady s1 c a.addr a.size).1, true) := Prod.ext rfl hr
  rw [storeBody, hw]
  simp only []
  rw [hp]
  rfl

theorem exec_store_denied {t : Trap} (hq : Quiet s1 c) (hw : winTrap s1 c a.addr a.size rightW cStoreWin = some t) :
    exec i s = .next (faulted s1 c t) := by
  rw [he]
  exact congrArg _ (issue_fault h hq (hb.trans (by rw [storeBody, hw])))

end Store

/-- Settles O7: both instructions issue as a store of their operands, and a store is taken by what its windows and its access say. -/
theorem stores : Obligations.Stores := by
  unfold Obligations.Stores
  intro c s s1 i len a hi bs
  have hstore : ∃ rs body, exec i s = .next (issue c rs len true body s) ∧ Ready s c rs len s1 ∧ body s1 = storeBody c a s1 ∧
      0 < a.size := by
    rcases hi with ⟨f, rfl, rfl, rfl, h⟩ | ⟨rd, imm, rfl, rfl, rfl, h⟩
    · exact ⟨_, _, rfl, h, rfl, stArgs_size_pos _ f⟩
    · exact ⟨_, _, rfl, h, by rw [← spAddr_eq]; rfl, Nat.zero_lt_succ _⟩
  obtain ⟨rs, body, he, h, hb, hn⟩ := hstore
  refine ⟨exec_store he h hb, fun t off hc ha hw h1 h2 h4 => ?_, fun t hq hw => ⟨winTrap_code hw, exec_store_denied he h hb hq hw⟩⟩
  subst hc
  have hlen : bs.length = a.size := toBytes_length _ _
  obtain ⟨l, hl⟩ : ∃ l, l = 0xFC00000000 + off := ⟨_, rfl⟩
  obtain ⟨hr, hd⟩ := dataWrite_scratch (bs := bs) (by rw [← List.length_pos_iff, hlen]; exact hn) (hl ▸ ha) hl (hlen ▸ h1) (hlen ▸ h2) h4
  rw [hlen] at hr hd
  rw [exec_store he h hb hw (by rw [hr]), ← completed_core]
  simp only [completed, hr, bufferStall, if_neg (Nat.not_le.2 h4)]
  rw [hd]
  rfl

end Sys2Proof.Machine
end

section
/-! SUPPORT. The state that reset leaves. -/

namespace Sys2Proof.Machine

open Sys2Proof

/-- After reset no tile and no service core has an entry of its own, so each core is the default one of its kind. -/
theorem reset_core (c : CoreId) : ∃ r, State.reset.core c = { run := r } := by
  cases c with
  | tile t => exact ⟨_, rfl⟩
  | svc v => exact ⟨_, rfl⟩

theorem reset_mbox (m : MbId) : State.reset.mbox m = {} := by
  cases m with
  | hmb n => rfl
  | tmb t => rfl

/-- Settles O46: each value is the default of its record. -/
theorem resetState : Obligations.ResetState := by
  unfold Obligations.ResetState
  refine ⟨rfl, rfl, rfl, fun c => ?_, fun t => ?_, fun q => ?_, fun m => ?_, rfl, rfl, rfl, rfl, rfl, rfl, rfl⟩
  · obtain ⟨r, hr⟩ := reset_core c
    rw [hr]
    exact ⟨rfl, fun i => ⟨rfl, rfl, rfl⟩, rfl, rfl, rfl, rfl, rfl, rfl, rfl, rfl, rfl, rfl, rfl, rfl⟩
  · exact ⟨rfl, rfl, fun i => rfl, fun i => rfl, rfl, rfl⟩
  · exact ⟨rfl, rfl, rfl, rfl, rfl⟩
  · rw [reset_mbox m]
    exact ⟨rfl, rfl⟩

end Sys2Proof.Machine
end

section
/-! SUPPORT. The hash engine. -/

namespace Sys2Proof.Machine

open Sys2Proof

variable {c : CoreId} {rs : List Reg} {s s1 s2 : State} {body : State → Effect} {occ : Nat} {t : Trap}

/-! ### A cp2 instruction, by whether the core has the engine -/

theorem hashRun_completed {g : State → State} (hc : hasHash c = true) (h : Ready s c rs 4 s1) (hb : body s1 = done (g s1)) :
    hashRun c rs body s = completed s1 c 4 1 g := by
  unfold hashRun
  rw [hc]
  exact issue_completed h hb

theorem hashRun_retired {f : Core → Core} (hc : hasHash c = true) (h : Ready s c rs 4 s1) (hb : body s1 = done (s1.updCore c f)) :
    hashRun c rs body s = retired s1 c 4 1 f := by
  unfold hashRun
  rw [hc]
  exact issue_retired h hb

theorem hashRun_finished (hc : hasHash c = true) (h : Ready s c rs 4 s1) (hb : body s1 = done s2) :
    hashRun c rs body s = finished s2 c (s1.core c).pc 4 1 := by
  unfold hashRun
  rw [hc]
  exact issue_finished h hb

theorem hashRun_faulted (hc : hasHash c = true) (h : Ready s c rs 4 s1) (hq : Quiet s1 c) (hb : body s1 = .error t) :
    hashRun c rs body s = faulted s1 c t := by
  unfold hashRun
  rw [hc]
  exact issue_fault h hq hb

theorem hashRun_illegal (hc : hasHash c = false) (h : Ready s c rs 4 s1) (hq : Quiet s1 c) :
    hashRun c rs body s = faulted s1 c { code := cIllegal } := by
  unfold hashRun
  rw [hc]
  exact issue_fault h hq rfl

/-! ### The engine -/

/-- One byte enters at the position, which moves on. -/
theorem absorb_singleton (h : Hash) (b : Byte) :
    h.absorb [b] =
      let h1 := { h with lanes := aset 0 h.lanes (h.pos / 8) (aget 0 h.lanes (h.pos / 8) ^^^ (b.zeroExtend 64 <<< (8 * (h.pos % 8)))),
                         pos := h.pos + 1 }
      if h.rate ≤ h.pos + 1 then h1.permute else h1 := rfl

/-- The 8 bytes of `habs`. -/
theorem absorbed_word (s : State) (c : CoreId) (x : Nat) :
    absorbed s c (toBytes 8 x) =
      (hashBusy s c ((s.core c).hash.perms 8)).updCore c fun k => { k with hash := k.hash.absorb (toBytes 8 x) } := by
  simp only [absorbed, State.updHash, toBytes_length]

/-- The state of the engine, the register and its time of `hsqz` are one change of the core. -/
theorem squeezed_eq (s : State) (c : CoreId) (h : Hash) (r : Reg) (v : Word) :
    (((s.updHash c fun _ => h).setReg c r v).updCore c fun k => k.owe r.toNat (hashEnd k - k.steps.toNat + 1)) =
      s.updCore c fun k =>
        let k := { k with hash := h }.setReg r v
        k.owe r.toNat (hashEnd k - k.steps.toNat + 1) := by
  simp only [State.updHash, State.setReg, State.updCore_updCore]

/-- Settles O15: each cp2 instruction by `hashRun`, with the engine and without it. -/
theorem hashEngine : Obligations.HashEngine := by
  unfold Obligations.HashEngine
  intro c s s1 f k upd bad
  refine ⟨fun hc => ⟨fun h h0 => ?hinit0, fun h h1 => ?hinit1, fun h hq hv => ?hinitBad, fun h ho => ?habs, fun h hq hcl => ?habsBad,
    fun bs s2 h ho hr => ?habsm, fun h hq hcl => ?habsmBad, fun h => ?hfin, fun h => ?hsqz, fun h hw => ?hsave,
    fun bs s2 h hr => ?hrest⟩, fun hc hq => ⟨fun h => ?one, fun h => ?two, fun h => ?zero⟩, fun s n => rfl, absorb_singleton⟩
  case hinit0 =>
    refine congrArg _ (hashRun_retired hc h ?_)
    have h0 : s1.reg c f.rs1 = 0 := h0
    simp only [h0, if_true]
    rfl
  case hinit1 =>
    refine congrArg _ (hashRun_retired hc h ?_)
    have h1 : s1.reg c f.rs1 = 1 := h1
    simp only [h1, if_true]
    rfl
  case hinitBad =>
    refine congrArg _ (hashRun_faulted hc h hq ?_)
    have h0 : s1.reg c f.rs1 ≠ 0 := fun e => by
      have e : k.reg f.rs1 = 0 := e
      simp [e] at hv
    have h1 : s1.reg c f.rs1 ≠ 1 := fun e => by
      have e : k.reg f.rs1 = 1 := e
      simp [e] at hv
    simp only [h0, h1, if_false]
    rfl
  case habs =>
    refine congrArg _ (hashRun_completed hc h ?_)
    have ho : (s1.core c).hash.closed = false := ho
    simp only [ho, Bool.false_eq_true, if_false, absorbed_word]
    rfl
  case habsBad =>
    exact congrArg _ (hashRun_faulted hc h hq (if_pos hcl))
  case habsm =>
    refine congrArg _ (hashRun_finished hc h ?_)
    have ho : (s1.core c).hash.closed = false := ho
    have hr : hashRead s1 c (s1.reg c f.rs1) (s1.reg c f.rs2).toNat = (s2, .ok bs) := hr
    simp only [ho, Bool.false_eq_true, if_false, hr]
    rfl
  case habsmBad =>
    exact congrArg _ (hashRun_faulted hc h hq (if_pos hcl))
  case hfin =>
    exact congrArg _ (hashRun_completed (g := fun s => (hashBusy s c 1).updHash c Hash.finish) hc h rfl)
  case hsqz =>
    refine congrArg _ (hashRun_completed hc h ?_)
    simp only [squeezed_eq]
    rfl
  case hsave =>
    refine congrArg _ (hashRun_completed hc h ?_)
    have hw : firstDenied (fun x m => permitted s1 c x m rightW) (s1.reg c f.rs1) 208 = none := hw
    simp only [hw]
    rfl
  case hrest =>
    refine congrArg _ (hashRun_finished hc h ?_)
    have hr : hashRead s1 c (s1.reg c f.rs1) 208 = (s2, .ok bs) := hr
    simp only [hr]
    rfl
  case one =>
    simp only [List.forall_mem_cons]
    exact ⟨congrArg _ (hashRun_illegal hc h hq), congrArg _ (hashRun_illegal hc h hq), congrArg _ (hashRun_illegal hc h hq),
      congrArg _ (hashRun_illegal hc h hq), List.forall_mem_nil _⟩
  case two => exact congrArg _ (hashRun_illegal hc h hq)
  case zero =>
    simp only [List.forall_mem_cons]
    exact ⟨congrArg _ (hashRun_illegal hc h hq), congrArg _ (hashRun_illegal hc h hq), List.forall_mem_nil _⟩

end Sys2Proof.Machine
end

section
/-! SUPPORT. The string instructions and `ifl`. -/

namespace Sys2Proof.Machine

open Sys2Proof

/-! ### The flags of a comparison of elements -/

theorem toInt_of_lt {w x : Nat} (hx : x < 2 ^ w) : toInt w x = if x < 2 ^ (w - 1) then (x : Int) else x - (2 ^ w : Nat) := by
  simp only [toInt, Nat.mod_eq_of_lt hx]

/-- The difference of two elements of `8 * n` bits: without a borrow it is exact, and with one it is 2^(8n) too large. -/
theorem elemDiff_eq {m a b : Nat} (ha : a < m) (hb : b < m) : (a + m - b) % m = if b ≤ a then a - b else a + m - b := by
  split
  · next h => rw [show a + m - b = (a - b) + m by omega, Nat.add_mod_right, Nat.mod_eq_of_lt (by omega)]
  · exact Nat.mod_eq_of_lt (by omega)

/-- The sign of the difference is wrong exactly when the signed difference leaves the range of `8 * n` bits; `m` is half of
the number of values. -/
theorem overflow_iff {m a b : Nat} (ha : a < 2 * m) (hb : b < 2 * m) (d : Nat) (hd : d = if b ≤ a then a - b else a + 2 * m - b) :
    (decide (m ≤ a) ≠ decide (m ≤ b) ∧ decide (m ≤ d) ≠ decide (m ≤ a)) ↔
      let x : Int := if a < m then (a : Int) else a - (2 * m : Nat)
      let y : Int := if b < m then (b : Int) else b - (2 * m : Nat)
      (x - y < -(m : Int) ∨ (m : Int) ≤ x - y) := by
  simp only [ne_eq, decide_eq_decide]
  split at hd <;> split <;> split <;> omega

theorem elemFlags_eq {n a b : Nat} (hn : 0 < n) (ha : a < 2 ^ (8 * n)) (hb : b < 2 ^ (8 * n)) : elemFlags n a b =
    { n := decide (2 ^ (8 * n - 1) ≤ (a + 2 ^ (8 * n) - b) % 2 ^ (8 * n)), z := decide (a = b), c := decide (b ≤ a),
      v := decide (toInt (8 * n) a - toInt (8 * n) b < -(2 ^ (8 * n - 1)) ∨ 2 ^ (8 * n - 1) ≤ toInt (8 * n) a - toInt (8 * n) b) } := by
  have hm : 2 ^ (8 * n) = 2 * 2 ^ (8 * n - 1) := by rw [← Nat.pow_succ']; congr 1; omega
  have hv := overflow_iff (hm ▸ ha) (hm ▸ hb) _ rfl
  have hz : (a + 2 ^ (8 * n) - b) % 2 ^ (8 * n) = 0 ↔ a = b := by rw [elemDiff_eq ha hb]; split <;> omega
  simp only [elemFlags, Nat.mod_eq_of_lt hb, hz, Flags.mk.injEq, true_and, toInt_of_lt ha, toInt_of_lt hb]
  refine ⟨?_, ?_⟩
  · rw [hm, Nat.mul_div_cancel_left _ (by omega)]
  · rw [elemDiff_eq ha hb, Bool.eq_iff_iff]
    rw [hm, Nat.mul_div_cancel_left _ (by omega)]
    simpa using hv

/-! ### One element step -/

section Element

variable {c : CoreId} {n : Nat} {s s3 s4 : State} {bs x y : List Byte}

theorem strElem_set (hp : strPerm .set n s c = none) (hr : storeReady s c (s.reg c 1) n = (s, true)) :
    strElem .set n s c = (strNext .set n (dataWrite s c (s.reg c 1) (toBytes n (s.reg c 2).toNat)) c, .more) := by
  simp only [strElem, hp, hr, strStore]

theorem strElem_mov (hp : strPerm .mov n s c = none) (hr : storeReady s c (s.reg c 1) n = (s, true))
    (hl : strLoad s c (s.reg c 2) n = (s3, .ok bs)) (h1 : s3.reg c 1 = s.reg c 1) :
    strElem .mov n s c = (strNext .mov n (dataWrite s3 c (s.reg c 1) bs) c, .more) := by
  simp only [strElem, hp, hr, hl, strStore, h1]

theorem strElem_cmp_same (hp : strPerm .cmp n s c = none) (hx : strLoad s c (s.reg c 1) n = (s3, .ok x))
    (hy : strLoad s3 c (s.reg c 2) n = (s4, .ok x)) : strElem .cmp n s c = (strNext .cmp n s4 c, .more) := by
  simp only [strElem, hp, hx, hy, if_true]

theorem strElem_cmp_differ (hp : strPerm .cmp n s c = none) (hx : strLoad s c (s.reg c 1) n = (s3, .ok x))
    (hy : strLoad s3 c (s.reg c 2) n = (s4, .ok y)) (hn : x ≠ y) :
    strElem .cmp n s c =
      (s4.updCore c fun k => { k with strData := [] }, .mismatch (elemFlags n (ofBytes x) (ofBytes y))) := by
  simp only [strElem, hp, hx, hy, if_neg hn]

end Element

/-- An instruction that changed nothing goes on. -/
theorem finished_same (s : State) (c : CoreId) (len occ : Nat) : finished s c (s.core c).pc len occ = retired s c len occ id := by
  simp only [finished, retired, retire, addSteps_eq, State.updCore, State.core_setCore, State.setCore_setCore, id]

/-! ### The effect of a string instruction -/

section Effect

variable {op : StrOp} {f : StrForm} {c : CoreId} {n : Nat} {s s' : State}

theorem strRun_zero (h0 : s.reg c 3 = 0) (fuel k : Nat) : strRun op n c fuel s k = (s, .more, k) := by
  cases fuel with
  | zero => rfl
  | succ fuel => exact if_pos h0

theorem strRun_one_more (h0 : s.reg c 3 ≠ 0) (he : strElem op n s c = (s', .more)) : strRun op n c 1 s 0 = (s', .more, 1) := by
  simp only [strRun, if_neg h0, he]

theorem strRun_one_mismatch {fl : Flags} (h0 : s.reg c 3 ≠ 0) (he : strElem op n s c = (s', .mismatch fl)) :
    strRun op n c 1 s 0 = (s', .mismatch fl, 0) := by
  simp only [strRun, if_neg h0, he]

/-- With a count of 0 no element step runs. -/
theorem strBody_zero (h0 : s.reg c 3 = 0) :
    strBody op f c s = doneOcc (strFlags op s c matchFlags) (if f.rep then 2 else 3) := by
  simp only [strBody, strRun_zero h0, h0, ne_eq, not_true_eq_false, decide_false, Bool.and_false, Bool.false_eq_true, if_false,
    Nat.add_zero]

theorem strBody_more (hr : f.rep = false) (h0 : s.reg c 3 ≠ 0) (he : strElem op (strSize f.sz) s c = (s', .more)) :
    strBody op f c s = doneOcc (strFlags op s' c matchFlags) 3 := by
  simp only [strBody, hr, Bool.false_eq_true, if_false, strRun_one_more h0 he, Bool.false_and]

theorem strBody_mismatch {fl : Flags} (hr : f.rep = false) (h0 : s.reg c 3 ≠ 0)
    (he : strElem op (strSize f.sz) s c = (s', .mismatch fl)) : strBody op f c s = doneOcc (strFlags op s' c fl) 3 := by
  simp only [strBody, hr, Bool.false_eq_true, if_false, strRun_one_mismatch h0 he]

/-- A rep string whose element steps take the count to 0. -/
theorem strBody_rep {m : Nat} (hr : f.rep = true) (hu : f.upTo = none)
    (he : strRun op (strSize f.sz) c (s.reg c 3).toNat s 0 = (s', .more, m)) (h0 : s'.reg c 3 = 0) :
    strBody op f c s = doneOcc (strFlags op s' c matchFlags) (2 + m) := by
  simp only [strBody, hr, hu, if_true, he, h0, ne_eq, not_true_eq_false, decide_false, Bool.and_false, Bool.false_eq_true, if_false]

variable {s1 : State} {occ : Nat}

theorem strInstr_finished (h : Ready s c [1, 2, 3] (if f.rep then 6 else 4) s1) (hz : f.mbz = 0)
    (hb : strBody op f c s1 = doneOcc s' occ) :
    strInstr op c f s = finished s' c (s1.core c).pc (if f.rep then 6 else 4) occ := by
  unfold strInstr
  rw [decide_eq_true hz]
  exact issue_finished h hb

theorem strInstr_illegal (h : Ready s c [1, 2, 3] (if f.rep then 6 else 4) s1) (hz : f.mbz ≠ 0) (hq : Quiet s1 c) :
    strInstr op c f s = faulted s1 c { code := cIllegal } := by
  unfold strInstr
  rw [decide_eq_false hz]
  exact issue_fault h hq rfl

/-- Of an instruction without rep, which has 4 bytes. -/
theorem strInstr_finished_plain (h : Ready s c [1, 2, 3] (if f.rep then 6 else 4) s1) (hz : f.mbz = 0) (hr : f.rep = false)
    (hb : strBody op f c s1 = doneOcc s' occ) : strInstr op c f s = finished s' c (s1.core c).pc 4 occ := by
  have hlen : (if f.rep then 6 else 4) = 4 := by rw [hr]; rfl
  rw [strInstr_finished h hz hb, hlen]

end Effect

/-! ### `ifl` -/

/-- The lines of a range and the 11 steps before them (R84, log 2). -/
theorem iflLines_occ (a : Word) (n : Nat) :
    12 + (iflLines a n - 1) = 11 + (if n = 0 then 1 else (a.toNat % 128 + n + 127) / 128) := by
  simp only [iflLines, wfld, fld]
  split <;> omega

theorem execIfl_range {c : CoreId} {s s1 : State} {g : LR} (h : Ready s c [g.rs1, g.rs2] 4 s1) (hd : g.rd = 0) (hg : g.f = false) :
    execIfl c (.long g) s =
      .next (completed s1 c 4 (11 + (if ((s1.core c).reg g.rs2).toNat = 0 then 1
        else (((s1.core c).reg g.rs1).toNat % 128 + ((s1.core c).reg g.rs2).toNat + 127) / 128)) fun s =>
          iflRange (drainAll faddF32 s c) c ((s1.core c).reg g.rs1) ((s1.core c).reg g.rs2).toNat) := by
  simp only [execIfl, hd, hg, decide_true, Bool.not_false, Bool.and_self, iflLines_occ]
  exact congrArg _ (issue_completed (g := fun s => iflRange (drainAll faddF32 s c) c _ _) h rfl)

/-- Settles O10: each form by what its element step comes to; `ifl` by its two forms. -/
theorem strings : Obligations.Strings := by
  unfold Obligations.Strings
  refine ⟨?flags, fun c s s1 => ⟨fun f h => ⟨fun hz hq => ?illegal, fun hz h0 => ?none, fun hz hr h0 => ⟨fun hp hs => ?set,
    fun s3 bs hp hs hl h1 => ?mov, fun s3 s4 x y hp hx hy => ⟨fun hxy => ?same, fun hxy => ?differ⟩⟩, ?rep⟩, fun h => ?iflAll,
    fun g h hd hg => ?iflRange⟩⟩
  case flags =>
    simp only [List.forall_mem_cons]
    exact ⟨fun a ha b hb => elemFlags_eq (by decide) ha hb, fun a ha b hb => elemFlags_eq (by decide) ha hb,
      fun a ha b hb => elemFlags_eq (by decide) ha hb, fun a ha b hb => elemFlags_eq (by decide) ha hb, List.forall_mem_nil _⟩
  case illegal =>
    simp only [List.forall_mem_cons]
    exact ⟨congrArg _ (strInstr_illegal h hz hq), congrArg _ (strInstr_illegal h hz hq), congrArg _ (strInstr_illegal h hz hq),
      List.forall_mem_nil _⟩
  case none =>
    refine ⟨congrArg Host.Outcome.next ?_, congrArg Host.Outcome.next ?_, congrArg Host.Outcome.next ?_⟩
    · rw [strInstr_finished h hz (strBody_zero h0)]
      exact finished_same s1 c _ _
    · rw [strInstr_finished h hz (strBody_zero h0)]
      exact finished_same s1 c _ _
    · rw [strInstr_finished h hz (strBody_zero h0)]
      exact completed_core s1 c _ _ fun k => k.setFl matchFlags
  case set => exact congrArg _ (strInstr_finished_plain h hz hr (strBody_more hr h0 (strElem_set hp hs)))
  case mov => exact congrArg _ (strInstr_finished_plain h hz hr (strBody_more hr h0 (strElem_mov hp hs hl h1)))
  case same =>
    subst hxy
    refine congrArg _ ((strInstr_finished_plain h hz hr (strBody_more hr h0 (strElem_cmp_same hp hx hy))).trans ?_)
    simp only [strFlags, if_true, strNext, State.updCore_updCore]
    rfl
  case differ =>
    refine congrArg _ ((strInstr_finished_plain h hz hr (strBody_mismatch hr h0 (strElem_cmp_differ hp hx hy hxy))).trans ?_)
    simp only [strFlags, if_true, State.updCore_updCore]
    rfl
  case rep =>
    intro op i s3 m hi hz hr hu he h0
    have hlen : (if f.rep then 6 else 4) = 6 := by rw [hr]; rfl
    have hrun := strInstr_finished h hz (strBody_rep hr hu he h0)
    rw [hlen] at hrun
    simp only [List.mem_cons, Prod.mk.injEq, List.not_mem_nil, or_false] at hi
    obtain ⟨rfl, rfl⟩ | ⟨rfl, rfl⟩ := hi
    · exact congrArg _ hrun
    · exact congrArg _ hrun
  case iflAll =>
    exact congrArg _ (issue_completed (g := fun s => iflAll (drainAll faddF32 s c) c) h rfl)
  case iflRange => exact execIfl_range h hd hg

end Sys2Proof.Machine
end

section
/-! SUPPORT. The system and special registers. -/

namespace Sys2Proof.Machine

open Sys2Proof

/-! ### What a write of one register does -/

section Write

variable {k : Core} {now : Nat} {w : Word} {i : Nat}

theorem coreWrite_loopStart (hi : i < 4) : coreWrite k now (0x10 + i) w = some { k with ls := aset 0 k.ls i (w &&& 0xFFFFFFFFFE) } := by
  have h1 : 0x10 + i < 0x14 := by omega
  simp [coreWrite, h1]

theorem coreWrite_loopEnd (hi : i < 4) : coreWrite k now (0x14 + i) w = some { k with le := aset 0 k.le i (w &&& 0xFFFFFFFFFE) } := by
  have h1 : ¬ 0x14 + i < 0x14 := by omega
  have h2 : 0x14 + i < 0x18 := by omega
  simp [coreWrite, h1, h2]

theorem coreWrite_loopCount (hi : i < 4) : coreWrite k now (0x18 + i) w = some { k with lc := aset 0 k.lc i (w &&& 0xFFFFFFFF) } := by
  have h1 : ¬ 0x18 + i < 0x14 := by omega
  have h2 : ¬ 0x18 + i < 0x18 := by omega
  have h3 : 0x18 + i < 0x1C := by omega
  simp [coreWrite, h1, h2, h3]

theorem coreWrite_winLo (hi : i < 16) :
    coreWrite k now (0x110 + 2 * i) w = some { k with pwinLo := aset 0 k.pwinLo i (w &&& 0xFFFFFFFF9F) } := by
  have h1 : ¬ 0x110 + 2 * i < 0x14 := by omega
  have h2 : ¬ 0x110 + 2 * i < 0x18 := by omega
  have h3 : ¬ 0x110 + 2 * i < 0x1C := by omega
  have h4 : 0x110 + 2 * i < 0x130 := by omega
  have h5 : (0x110 + 2 * i) % 2 = 0 := by omega
  have h6 : (0x110 + 2 * i - 0x110) / 2 = i := by omega
  simp only [coreWrite, h1, h2, h3, h4, h5, h6, decide_true, decide_false, Bool.and_false, Bool.and_true, if_true,
    Bool.false_eq_true, if_false, Nat.le_add_right]

theorem coreWrite_winHi (hi : i < 16) :
    coreWrite k now (0x111 + 2 * i) w = some { k with pwinHi := aset 0 k.pwinHi i (w &&& 0xFFFFFFFF80) } := by
  have h1 : ¬ 0x111 + 2 * i < 0x14 := by omega
  have h2 : ¬ 0x111 + 2 * i < 0x18 := by omega
  have h3 : ¬ 0x111 + 2 * i < 0x1C := by omega
  have h4 : 0x111 + 2 * i < 0x130 := by omega
  have h4' : 0x110 ≤ 0x111 + 2 * i := by omega
  have h5 : ¬ (0x111 + 2 * i) % 2 = 0 := by omega
  have h6 : (0x111 + 2 * i - 0x110) / 2 = i := by omega
  simp only [coreWrite, h1, h2, h3, h4, h4', h5, h6, decide_true, decide_false, Bool.and_false, Bool.and_true, if_true,
    Bool.false_eq_true, if_false]

/-- The lowest free entry of timer 0. -/
theorem t0free_eq (hi : i < 4) (hb : ∀ j < i, (aget {} k.t0 j).busy = true) (hf : (aget {} k.t0 i).busy = false) :
    t0free k = some i := by
  simp only [t0free, List.find?_range_eq_some, hf, Bool.not_false, List.mem_range, hi, Bool.not_not, true_and]
  exact hb

theorem t0free_none (hb : ∀ j < 4, (aget {} k.t0 j).busy = true) : t0free k = none := by
  simp only [t0free, List.find?_range_eq_none, Bool.not_not]
  exact hb

theorem coreWrite_arm (hi : i < 4) (hb : ∀ j < i, (aget {} k.t0 j).busy = true) (hf : (aget {} k.t0 i).busy = false)
    (hd : now < w.toNat) : coreWrite k now 0x131 w = some (t0take k i false w.toNat) := by
  show t0arm k now w = _
  simp only [t0arm, t0free_eq hi hb hf, Option.map_some, if_neg (Nat.not_le.mpr hd)]

theorem coreWrite_arm_busy (hb : ∀ j < 4, (aget {} k.t0 j).busy = true) : coreWrite k now 0x131 w = none := by
  show t0arm k now w = none
  simp only [t0arm, t0free_none hb, Option.map_none]

end Write

/-! ### Classes and faults -/

/-- The loop registers are open to all code. -/
theorem srFault_loop {k : Core} {c : CoreId} {n : Nat} (h1 : 0x10 ≤ n) (h2 : n ≤ 0x1B) : srFault k (srClass c n) n true = none := by
  have hc : srClass c n = .both := by simp [srClass, h1, h2]
  rw [hc]; rfl

theorem srFault_kernel {k : Core} (hl : k.status.lvl = true) (n : Nat) (wr : Bool) : srFault k .kernel n wr = none := if_pos hl

theorem srFault_win {k : Core} {c : CoreId} {n : Nat} (hl : k.status.lvl = true) (h1 : 0x110 ≤ n) (h2 : n ≤ 0x12F) :
    srFault k (srClass c n) n true = none := by
  have h3 : ¬ n ≤ 1 := by omega
  have h4 : ¬ n ≤ 0x1B := by omega
  have h5 : n ≠ 0x100 := by omega
  have hc : srClass c n = .kernel := by simp [srClass, h1, h2, h3, h4, h5]
  rw [hc]
  exact srFault_kernel hl n true

theorem srFault_kernel_task {k : Core} (hl : k.status.lvl = false) (n : Nat) (wr : Bool) :
    srFault k .kernel n wr = some { code := cPriv } := by simp only [srFault, hl, Bool.false_eq_true, if_false]

theorem srFault_taskRead {k : Core} (hl : k.status.lvl = true) {n : Nat} (hn : n ≠ 0x100) : srFault k .taskRead n true = none := by
  simp [srFault, hl, hn]

theorem srFault_taskRead_task {k : Core} (hl : k.status.lvl = false) {n : Nat} (hn : n ≠ 0x100) :
    srFault k .taskRead n true = some { code := cPriv } := by simp [srFault, hl, hn]

/-! ### `mtsr` and `mfsr` -/

section Instr

variable {c : CoreId} {s s1 : State} {sr : SrNo} {n : Nat} {rd rs : Reg} {t : Trap} {f : Core → Core}

theorem srWrite_core (hn : n < 0x180) (s : State) (w : Word) :
    srWrite s c n w = (coreWrite (s.core c) s.mono n w).map (s.setCore c) := by
  unfold srWrite
  cases coreWrite (s.core c) s.mono n w with
  | none => rfl
  | some k => cases c with
    | tile t => simp only [if_neg (Nat.not_le.mpr hn), Option.map_some]
    | svc v => rfl

theorem mtsrRun_faulted (h : Ready s c [rs] 4 s1) (hq : Quiet s1 c) (hf : srFault (s1.core c) (srClass c n) n true = some t) :
    mtsrRun c n rs false s = faulted s1 c t := by
  refine issue_fault h hq ?_
  simp only [Bool.not_false, if_true, hf]

theorem mtsrRun_reserved (h : Ready s c [rs] 4 s1) (hq : Quiet s1 c) :
    mtsrRun c n rs true s = faulted s1 c { code := cIllegal } := issue_fault h hq rfl

/-- A permitted write of a register of the core. -/
theorem mtsrRun_retired (h : Ready s c [rs] 4 s1) (hf : srFault (s1.core c) (srClass c n) n true = none) (hn : n < 0x180)
    (hw : coreWrite (s1.core c) s1.mono n ((s1.core c).reg rs) = some (f (s1.core c))) :
    mtsrRun c n rs false s = retired s1 c 4 3 f := by
  refine issue_retired h ?_
  simp only [hf, srWrite_core hn, State.reg, hw, Option.map_some]
  rfl

theorem exec_mtsr_retired (hsr : sr.toNat = n) (h : Ready s c [rs] 4 s1)
    (hf : srFault (s1.core c) (srClass c n) n true = none) (hn : n < 0x180)
    (hw : coreWrite (s1.core c) s1.mono n ((s1.core c).reg rs) = some (f (s1.core c))) :
    exec (.mtsr c sr rs false) s = .next (retired s1 c 4 3 f) := by
  subst hsr
  exact congrArg _ (mtsrRun_retired h hf hn hw)

/-- A write of TILE_T0ARM with no free entry. -/
theorem mtsrRun_busy (h : Ready s c [rs] 4 s1) (hq : Quiet s1 c) (hf : srFault (s1.core c) (srClass c n) n true = none)
    (hn : n < 0x180) (hw : coreWrite (s1.core c) s1.mono n ((s1.core c).reg rs) = none) :
    mtsrRun c n rs false s = faulted s1 c { code := cTimerBusy } := by
  refine issue_fault h hq ?_
  simp only [Bool.not_false, if_true, hf, srWrite_core hn, State.reg, hw, Option.map_none]

end Instr

/-- A write of a register of the vector state of a tile leaves its core. -/
theorem srWrite_vec {t : TileId} {n : Nat} (hn : n = 0x180 ∨ n = 0x181 ∨ n = 0x182) (s : State) (w : Word) :
    srWrite s (.tile t) n w = some (s.updTile t.val fun x => { x with vec := vecWrite x.vec n w }) := by
  have hw : srWrite s (.tile t) n w =
      some ((s.setCore (.tile t) (s.core (.tile t))).updVec t.val fun v => vecWrite v n w) := by
    obtain rfl | rfl | rfl := hn <;> rfl
  rw [hw]
  simp only [State.setCore, State.core, State.updVec, State.updTile, State.tile_setTile, if_true, State.setTile_setTile]

theorem srFault_vec {k : Core} {t : TileId} (hl : k.status.lvl = true) {n : Nat} (hn : n = 0x180 ∨ n = 0x181 ∨ n = 0x182) :
    srFault k (srClass (.tile t) n) n true = none := by
  obtain rfl | rfl | rfl := hn
  · exact srFault_taskRead hl (by decide)
  · exact srFault_taskRead hl (by decide)
  · rfl

theorem mtsrRun_vec {t : TileId} {n : Nat} {s s1 : State} {rs : Reg} (h : Ready s (.tile t) [rs] 4 s1)
    (hl : (s1.core (.tile t)).status.lvl = true) (hn : n = 0x180 ∨ n = 0x181 ∨ n = 0x182) :
    mtsrRun (.tile t) n rs false s = completed s1 (.tile t) 4 3 fun s =>
      s.updTile t.val fun x => { x with vec := vecWrite x.vec n ((s1.core (.tile t)).reg rs) } := by
  refine issue_completed h ?_
  simp only [srFault_vec hl hn, srWrite_vec hn]
  rfl

section Read

variable {c : CoreId} {s s1 : State} {sr : SrNo} {rd : Reg} {t : Trap}

theorem execMfsr_retired (h : Ready s c [] 4 s1 (if sr.toNat = 0 then [keyFl] else []))
    (hf : srFault (s1.core c) (srClass c sr.toNat) sr.toNat false = none) :
    execMfsr c rd sr false s = .next (retired s1 c 4 1 fun k => k.setReg rd (srRead s1 c sr.toNat)) := by
  refine congrArg _ (issue_retired h ?_)
  simp only [hf]
  rfl

theorem execMfsr_faulted (h : Ready s c [] 4 s1 (if sr.toNat = 0 then [keyFl] else [])) (hq : Quiet s1 c)
    (hf : srFault (s1.core c) (srClass c sr.toNat) sr.toNat false = some t) :
    execMfsr c rd sr false s = .next (faulted s1 c t) := by
  refine congrArg _ (issue_fault h hq ?_)
  simp only [Bool.not_false, if_true, hf]

end Read

/-! ### The mirror -/

section Mirror

variable {s : State} {t : TileId} {sr : SrNo} {w : Word}

theorem exec_mirrorWrite (hp : s.power = .run) (ho : (s.tile t.val).oos = false) :
    execSystemRegisterMirrorWrite t sr w s = .next (mirrorWrite s t sr.toNat w) := by
  simp only [execSystemRegisterMirrorWrite, hp, ho, decide_true, Bool.not_false, Bool.and_self, if_true]

/-- A tile that runs, is paused for sounding or drains takes nothing. -/
theorem mirrorWrite_discarded {n : Nat}
    (h : (s.core (.tile t)).run = .running ∨ (s.tile t.val).paused = true ∨ (s.feTile t.val).state = .draining) :
    mirrorWrite s t n w = s := by
  obtain hr | hp | hd := h
  · simp only [mirrorWrite, hr, Bool.false_and, Bool.false_eq_true, if_false]
  · simp only [mirrorWrite, hp, Bool.true_or, Bool.not_true, Bool.and_false, Bool.false_and, Bool.false_eq_true, if_false]
  · simp only [mirrorWrite, hd, decide_true, Bool.or_true, Bool.not_true, Bool.and_false, Bool.false_and, Bool.false_eq_true, if_false]

theorem mirrorWrite_evec (hh : (s.core (.tile t)).run = .halted) (hp : (s.tile t.val).paused = false)
    (hd : (s.feTile t.val).state ≠ .draining) :
    mirrorWrite s t 0x104 w = s.updCore (.tile t) fun k => { k with evec := w &&& ~~~(0x1FF#64) } := by
  simp only [mirrorWrite, hh, hp, hd, decide_false, Bool.or_self, Bool.not_false, Bool.and_self, Bool.true_and]
  rfl

end Mirror

/-- Settles O11: reads and writes by `srFault` and `coreWrite`, register by register. -/
theorem systemRegisters : Obligations.SystemRegisters := by
  unfold Obligations.SystemRegisters
  refine ⟨fun s c => ⟨rfl, rfl, rfl, rfl, rfl, rfl, rfl, ?loops⟩, fun c s s1 => ?_⟩
  case loops =>
    intro i hi
    interval_cases i <;> exact ⟨rfl, rfl, rfl, rfl⟩
  intro k bad
  refine ⟨fun rd sr h => ⟨fun hf => execMfsr_retired h hf, fun hc hq => ?_, fun hq => congrArg _ (issue_fault h hq rfl),
    fun hc hl hq => ?_⟩, fun rs sr h => ?write, fun t sr w hp ho => ⟨?_, fun hd => ?_⟩⟩
  · exact execMfsr_faulted h hq (by rw [hc]; rfl)
  · exact execMfsr_faulted h hq (by rw [hc]; exact srFault_kernel_task hl _ _)
  rotate_left
  · rintro hh hps hd rfl
    exact (exec_mirrorWrite hp ho).trans (congrArg _ (mirrorWrite_evec hh hps hd))
  · exact (exec_mirrorWrite hp ho).trans (congrArg _ (mirrorWrite_discarded hd))
  case write =>
    intro w
    refine ⟨fun hc hq => ?_, fun hq => congrArg _ (mtsrRun_reserved h hq), fun hc hl hq => ?_, fun hl hc hn hq => ?_, ?_, ?_,
      fun i hi => ⟨?_, ?_, ?_⟩, fun hl => ⟨?_, ?_, ?_, ?_, ?_, ?_, fun i hi => ⟨?_, ?_⟩, ?_, ?_, ?_⟩, fun i hi hb hf hd => ?_,
      fun hb hq => ?_, ?_⟩
    · exact congrArg _ (mtsrRun_faulted h hq (by rw [hc]; rfl))
    · exact congrArg _ (mtsrRun_faulted h hq (by rw [hc]; exact srFault_kernel_task hl _ _))
    · refine congrArg _ (mtsrRun_faulted h hq ?_)
      rw [hc]
      exact srFault_taskRead_task hl fun e => hn (BitVec.eq_of_toNat_eq e)
    · rintro rfl hq
      exact congrArg _ (mtsrRun_faulted h hq rfl)
    · rintro rfl
      exact exec_mtsr_retired rfl h rfl (by decide) rfl
    · intro hn
      exact exec_mtsr_retired hn h (srFault_loop (by omega) (by omega)) (by omega) (coreWrite_loopStart hi)
    · intro hn
      exact exec_mtsr_retired hn h (srFault_loop (by omega) (by omega)) (by omega) (coreWrite_loopEnd hi)
    · intro hn
      exact exec_mtsr_retired hn h (srFault_loop (by omega) (by omega)) (by omega) (coreWrite_loopCount hi)
    · rintro rfl
      exact exec_mtsr_retired rfl h (srFault_kernel hl _ _) (by decide) rfl
    · rintro rfl
      exact exec_mtsr_retired rfl h (srFault_kernel hl _ _) (by decide) rfl
    · rintro rfl
      exact exec_mtsr_retired rfl h (srFault_kernel hl _ _) (by decide) rfl
    · rintro rfl
      exact exec_mtsr_retired rfl h (srFault_kernel hl _ _) (by decide) rfl
    · rintro rfl
      exact exec_mtsr_retired rfl h (srFault_kernel hl _ _) (by decide) rfl
    · rintro t rfl hn
      simp only [List.mem_cons, List.not_mem_nil, or_false] at hn
      exact congrArg _ (mtsrRun_vec h hl hn)
    · intro hn
      exact exec_mtsr_retired hn h (srFault_win hl (by omega) (by omega)) (by omega) (coreWrite_winLo hi)
    · intro hn
      exact exec_mtsr_retired hn h (srFault_win hl (by omega) (by omega)) (by omega) (coreWrite_winHi hi)
    · exact congrArg _ (mtsrRun_retired (n := 0x138) h (srFault_kernel hl _ _) (by decide) rfl)
    · exact congrArg _ (mtsrRun_retired (n := 0x139) h (srFault_kernel hl _ _) (by decide) rfl)
    · exact congrArg _ (mtsrRun_retired (n := 0x10B) h (srFault_kernel hl _ _) (by decide) rfl)
    · exact congrArg _ (mtsrRun_retired h rfl (by decide) (coreWrite_arm hi hb hf hd))
    · exact congrArg _ (mtsrRun_busy h hq rfl (by decide) (coreWrite_arm_busy hb))
    · exact congrArg _ (mtsrRun_retired h rfl (by decide) rfl)

end Sys2Proof.Machine
end

section
/-! SUPPORT. The Gallery operations of a tile: issue, start and end. -/

namespace Sys2Proof.Machine

open Sys2Proof

/-! ### Issue -/

/-- The port as an instruction that enters the queue leaves it: only `greturn` opens a batch (R403). -/
def batchFor (i : Instr) (b : Word) (p : Port1) : Port1 :=
  match i with
  | .greturn _ _ => openBatch p b
  | _ => p

/-- The effect of an instruction that enters the queue of the port (R371). -/
def cp1Enter (t : TileId) (i : Instr) (f : LC) (k : Core) (s : State) : State :=
  s.updPort t.val fun p =>
    let p := batchFor i (k.reg f.rs2) p
    { p with queue := p.queue ++ [⟨i, k.reg f.rs1, k.reg f.rs2, f.rd, !k.status.lvl⟩] }

section Code

variable {s : State} {t : TileId} {r : Cp1Ref} {shape state : Bool}

theorem cp1Code_align (ha : r.addr.toNat % r.align ≠ 0) : cp1Code s t true (some r) shape state = 2 := if_pos ha

theorem cp1Code_place (ha : r.addr.toNat % r.align = 0) (hp : refBad s t r = true) : cp1Code s t true (some r) shape state = 3 := by
  simp [cp1Code, ha, hp]

theorem cp1Code_shape (ha : r.addr.toNat % r.align = 0) (hp : refBad s t r = false) : cp1Code s t true (some r) false state = 4 := by
  simp [cp1Code, ha, hp]

theorem cp1Code_passes (ha : r.addr.toNat % r.align = 0) (hp : refBad s t r = false) : cp1Code s t true (some r) true true = 0 := by
  simp [cp1Code, ha, hp]

end Code

section Issue

variable {s s1 : State} {t : TileId} {f : LC} {i : Instr} {func : Bool} {ref : State → Option Cp1Ref} {shape state : State → Bool}
  (hfull : (s.tile t.val).port.queue.length < 8) (h : Ready s (.tile t) [f.rs1, f.rs2] 4 s1)
include hfull h

/-- With a place in the queue the core issues the instruction, and a check that fails raises COP. -/
theorem cp1Issue_faulted {n : Nat} (hq : Quiet s1 (.tile t)) (hc : cp1Code s1 t func (ref s1) (shape s1) (state s1) = n + 1) :
    cp1Issue t i f func ref shape state s = faulted s1 (.tile t) { code := cCop, sub := 1 + 8 * (n + 1) } := by
  have hroom : cp1Full s t = false := decide_eq_false (Nat.not_le.mpr hfull)
  simp only [cp1Issue, hroom, Bool.false_eq_true, if_false]
  exact issue_fault h hq (by simp only [hc, if_true])

theorem cp1Issue_enters (hc : cp1Code s1 t func (ref s1) (shape s1) (state s1) = 0) :
    cp1Issue t i f func ref shape state s = completed s1 (.tile t) 4 1 (cp1Enter t i f (s1.core (.tile t))) := by
  have hroom : cp1Full s t = false := decide_eq_false (Nat.not_le.mpr hfull)
  simp only [cp1Issue, hroom, Bool.false_eq_true, if_false]
  exact issue_completed h (by simp only [hc]; rfl)

/-- An instruction that names an operation block: its three checks (R370, R377). -/
theorem blockIssue_cases :
    let r : Cp1Ref := { addr := (s1.core (.tile t)).reg f.rs1, bytes := 64, align := 64, need := rightRW }
    let cop := fun (n : Nat) => Host.Outcome.next (faulted s1 (.tile t) { code := cCop, sub := 1 + 8 * n })
    (f.rd = 0 → f.rs2 = 0 → r.addr.toNat % 64 = 0 → refBad s1 t r = false →
      blockIssue t i f s = .next (completed s1 (.tile t) 4 1 (cp1Enter t i f (s1.core (.tile t))))) ∧
    (Quiet s1 (.tile t) → (f.rd ≠ 0 ∨ f.rs2 ≠ 0 → blockIssue t i f s = cop 1) ∧
      (f.rd = 0 → f.rs2 = 0 → (r.addr.toNat % 64 ≠ 0 → blockIssue t i f s = cop 2) ∧
        (r.addr.toNat % 64 = 0 → refBad s1 t r = true → blockIssue t i f s = cop 3))) := by
  intro r cop
  have hnamed (hd : f.rd = 0) (h2 : f.rs2 = 0) : (decide (f.rd = 0) && decide (f.rs2 = 0)) = true := by rw [hd, h2]; rfl
  refine ⟨fun hd h2 ha hp => congrArg _ (cp1Issue_enters hfull h ?_), fun hq => ⟨fun hn => congrArg _ (cp1Issue_faulted hfull h hq ?_),
    fun hd h2 => ⟨fun ha => congrArg _ (cp1Issue_faulted hfull h hq ?_), fun ha hp => congrArg _ (cp1Issue_faulted hfull h hq ?_)⟩⟩⟩
  · rw [hnamed hd h2]
    exact cp1Code_passes ha hp
  · have hf : (decide (f.rd = 0) && decide (f.rs2 = 0)) = false := by
      obtain hd | h2 := hn
      · rw [decide_eq_false hd, Bool.false_and]
      · rw [decide_eq_false h2, Bool.and_false]
    rw [hf]
    rfl
  · rw [hnamed hd h2]
    exact cp1Code_align ha
  · rw [hnamed hd h2]
    exact cp1Code_place ha hp

/-- `greturn`: its list is only read, and its shape is checked (R370, R403). -/
theorem execGreturn_cases (hd : f.rd = 0) (ha : ((s1.core (.tile t)).reg f.rs1).toNat % 16 = 0)
    (hp : refBad s1 t { addr := (s1.core (.tile t)).reg f.rs1, align := 16, need := rightR,
                        bytes := 16 * (((s1.core (.tile t)).reg f.rs2).toNat % 32 + 1) } = false) :
    (returnShape ((s1.core (.tile t)).reg f.rs2) = true →
      execGreturn t f s = .next (completed s1 (.tile t) 4 1 (cp1Enter t (.greturn t f) f (s1.core (.tile t))))) ∧
    (returnShape ((s1.core (.tile t)).reg f.rs2) = false → Quiet s1 (.tile t) →
      execGreturn t f s = .next (faulted s1 (.tile t) { code := cCop, sub := 1 + 8 * 4 })) := by
  have hn (b : Word) : wfld b 0 5 = b.toNat % 32 := by simp only [wfld, fld, pow_zero, Nat.div_one]; rfl
  rw [← hn] at hp
  refine ⟨fun hs => congrArg _ (cp1Issue_enters hfull h ?_), fun hs hq => congrArg _ (cp1Issue_faulted hfull h hq ?_)⟩
  · simp only [State.reg, hs, hd, decide_true]
    exact cp1Code_passes ha hp
  · simp only [State.reg, hs, hd, decide_true]
    exact cp1Code_shape ha hp

/-- `gbeacon`: its state is 0 to 2. -/
theorem execGbeacon_cases (hd : f.rd = 0) :
    (((s1.core (.tile t)).reg f.rs2).toNat ≤ 2 →
      execGbeacon t f s = .next (completed s1 (.tile t) 4 1 (cp1Enter t (.gbeacon t f) f (s1.core (.tile t))))) ∧
    (2 < ((s1.core (.tile t)).reg f.rs2).toNat → Quiet s1 (.tile t) →
      execGbeacon t f s = .next (faulted s1 (.tile t) { code := cCop, sub := 1 + 8 * 5 })) := by
  refine ⟨fun hb => congrArg _ (cp1Issue_enters hfull h ?_), fun hb hq => congrArg _ (cp1Issue_faulted hfull h hq ?_)⟩
  · simp only [State.reg, hd, hb, decide_true]
    rfl
  · simp only [State.reg, hd, Nat.not_le.mpr hb, decide_true, decide_false]
    rfl

theorem execGsync_enters (h1 : f.rs1 = 0) (h2 : f.rs2 = 0) :
    execGsync t f s = .next (completed s1 (.tile t) 4 1 (cp1Enter t (.gsync t f) f (s1.core (.tile t)))) := by
  refine congrArg _ (cp1Issue_enters hfull h ?_)
  rw [h1, h2]
  rfl

end Issue

/-! ### Start -/

section Start

variable {s : State} {t : TileId} {e : Cp1Entry} {es : List Cp1Entry}

/-- The oldest queued instruction of a tile in service starts after the buffered writes of its core. -/
theorem execCp1Start_eq (hp : s.power = .run) (ho : (s.tile t.val).oos = false) : execCp1Start t s = .next (cp1Start s t.val) := by
  simp only [execCp1Start, hp, ho, decide_true, Bool.not_false, Bool.and_self, if_true]

/-- The state in which a queued instruction of tile `t` starts: its core's buffered writes are performed (R372). -/
def startState (s : State) (t : TileId) : State := drainAll faddF32 s (.tile t)

/-- It, with the queue's rest `es`. -/
def startPop (s : State) (t : TileId) (es : List Cp1Entry) : State :=
  (startState s t).updPort t.val fun p => { p with queue := es }

/-- The instructions that name an operation block. -/
def blockInstrs (t : TileId) (f : LC) : List Instr :=
  [.gput t f, .gget t f, .gdispatch t f, .garm t f, .gibgat t f, .gjoin t f, .gallreduce t f, .greducescatter t f,
   .gallgather t f, .galltoall t f, .gbarrier t f]

/-- What each of them starts once its block is read. -/
def startOn (i : Instr) (s : State) (t : Nat) (e : Cp1Entry) (bs : List Byte) : State :=
  match i with
  | .gput _ _ => copyStart s t e bs false
  | .gget _ _ => copyStart s t e bs true
  | .gdispatch _ _ => dispStart s t e bs
  | .garm _ _ => armStart s t e bs
  | .gibgat _ _ => gatherStart s t e bs
  | .gjoin _ _ => joinStart s t e bs
  | _ => collStart s t e bs

section
variable (hq : (s.tile t.val).port.queue = e :: es)
include hq

theorem cp1Start_waits (hr : ((startState s t).tile t.val).core.remote ≠ []) : cp1Start s t.val = startState s t := by
  simp only [cp1Start, hq, tcore_val]
  exact if_pos hr

variable (hr : ((startState s t).tile t.val).core.remote = [])
include hr

theorem cp1Start_gsync {f : LC} (hi : e.instr = .gsync t f) :
    cp1Start s t.val =
      if ((startState s t).tile t.val).port.ops = [] then
        (startPop s t es).setReg (tcore t.val) e.rd (galPort ((startState s t).tile t.val).port)
      else startState s t := by
  simp only [cp1Start, hq, tcore_val, hi]
  exact if_neg (not_not.mpr hr)

theorem cp1Start_greturn {f : LC} (hi : e.instr = .greturn t f) : cp1Start s t.val = returnStart (startPop s t es) t.val e := by
  simp only [cp1Start, hq, tcore_val, hi]
  exact if_neg (not_not.mpr hr)

theorem cp1Start_gbeacon {f : LC} (hi : e.instr = .gbeacon t f) : cp1Start s t.val = beaconStart (startPop s t es) e := by
  simp only [cp1Start, hq, tcore_val, hi]
  exact if_neg (not_not.mpr hr)

/-- An instruction with a block that finds a place reads it, and starts on what it read. -/
theorem cp1Start_block {f : LC} {i : Instr} {v : State} {bs : List Byte} (hi : e.instr = i) (hm : i ∈ blockInstrs t f)
    (hl : ((startState s t).tile t.val).port.ops.length < 16) (hb : agentRead (startPop s t es) t.val e.r1 64 = (v, .ok bs)) :
    cp1Start s t.val = startOn i v t.val e bs := by
  have hroom : ¬ 16 ≤ ((startState s t).tile t.val).port.ops.length := Nat.not_le.mpr hl
  have hstart : cp1Start s t.val = opStart (startPop s t es) t.val e := by
    simp only [blockInstrs, List.mem_cons, List.not_mem_nil, or_false] at hm
    obtain rfl | rfl | rfl | rfl | rfl | rfl | rfl | rfl | rfl | rfl | rfl := hm
    all_goals
      simp only [cp1Start, hq, tcore_val, hi]
      exact (if_neg (not_not.mpr hr)).trans (if_neg hroom)
  rw [hstart, ← hi]
  simp only [opStart, hb]
  rfl

end

end Start

end Sys2Proof.Machine
end

section
/-! SUPPORT. Copies of the Gallery port, the end and the timeout of its operations, and O28. -/

namespace Sys2Proof.Machine

open Sys2Proof

/-! ### A copy starts -/

section Copy

variable {s : State} {t : Nat} {e : Cp1Entry} {bs : List Byte} {get : Bool} {span : Nat}

theorem tmoSpan_none {n : Nat} (hn : 27 ≤ n) : tmoSpan s n = none := by
  simp only [tmoSpan, if_neg (show ¬ n = 0 by omega), if_neg (show ¬ n ≤ 26 by omega)]

/-- A timeout field or a length that no copy has ends it with DESC. -/
theorem copyStart_desc (h : 27 ≤ fld (blkHalf bs 0) 0 5 ∨ copyBytes bs = 0) : copyStart s t e bs get = refuseOp s t e bs 1 0 := by
  obtain ht | hn := h
  · simp only [copyStart, tmoSpan_none ht]
    rfl
  · cases hs : tmoSpan s (fld (blkHalf bs 0) 0 5) with
    | none =>
      simp only [copyStart, hs]
      rfl
    | some span =>
      simp only [copyStart, hs, hn, decide_true, Bool.or_true, Bool.true_or, if_true]
      rfl

/-- A block without a signal passes the checks of a signal. -/
theorem opSigErr_unsigned (h : fld (blkHalf bs 0) 27 1 = 0) (task : Bool) (i : Instr) : opSigErr s t task i bs = none := by
  simp [opSigErr, sigErr, h]

/-- The fields of a block of a copy without a signal are as R378 asks. -/
structure PlainCopy (s : State) (bs : List Byte) (span : Nat) : Prop where
  limit : tmoSpan s (fld (blkHalf bs 0) 0 5) = some span
  zeros : fld (blkHalf bs 0) 5 20 = 0
  here : fld (blkHalf bs 0) 25 1 = 0
  unsigned : fld (blkHalf bs 0) 27 5 = 0
  some : 0 < copyBytes bs
  high : wfld (blkWord bs 0x18) 32 32 = 0
  word20 : blkWord bs 0x20 = 0
  word28 : blkWord bs 0x28 = 0

theorem fld_split (x : Nat) (h : fld x 27 5 = 0) : fld x 27 1 = 0 ∧ fld x 28 4 = 0 := by
  simp only [fld] at h ⊢
  omega

/-- Past the checks of its fields, a copy is decided by its places and windows. -/
theorem copyStart_plain (h : PlainCopy s bs span) :
    copyStart s t e bs get =
      match placeErr s t e.task (blkWord bs (if get then 0x10 else 0x08)) (copyBytes bs) (if get then rightW else rightR)
        (if get then gDstWin else gSrcWin) with
      | some c => refuseOp s t e bs c 0
      | none =>
        if wfld (blkWord bs (if get then 0x08 else 0x10)) 56 8 ≠ 0 then refuseOp s t e bs gAddr 0
        else if !agentWin s t e.task (blkWord bs (if get then 0x08 else 0x10)) (copyBytes bs) (if get then rightR else rightW) then
          refuseOp s t e bs (if get then gSrcWin else gDstWin) 0
        else
          let big := decide (65536 ≤ copyBytes bs)
          let (s, id) := openOp s t e bs (s.mono + span) big
          let s := if big then requestGrant s (.op t id) 6 none (rtTile s t) else s
          match findOp s t id with
          | some o => if big && !o.grant then s else copyMove s t o
          | none => s := by
  obtain ⟨hs, h5, h25, h27, hn, h32, h20, h28⟩ := h
  obtain ⟨h271, h284⟩ := fld_split _ h27
  have hn : ¬ copyBytes bs = 0 := by omega
  simp only [copyStart, hs, h5, h25, h271, h284, hn, h32, h20, h28, opSigErr_unsigned h271, ne_eq, not_true_eq_false, decide_false,
    zero_ne_one, Bool.false_and, Bool.or_false, Bool.false_eq_true, if_false] <;> rfl

section
variable (h : PlainCopy s bs span)
include h

theorem copyStart_place {k : Nat} (hp : placeErr s t e.task (blkWord bs (if get then 0x10 else 0x08)) (copyBytes bs)
      (if get then rightW else rightR) (if get then gDstWin else gSrcWin) = some k) :
    copyStart s t e bs get = refuseOp s t e bs k 0 := by
  simp only [copyStart_plain h, hp]

variable (hp : placeErr s t e.task (blkWord bs (if get then 0x10 else 0x08)) (copyBytes bs)
  (if get then rightW else rightR) (if get then gDstWin else gSrcWin) = none)
include hp

theorem copyStart_address (hg : wfld (blkWord bs (if get then 0x08 else 0x10)) 56 8 ≠ 0) :
    copyStart s t e bs get = refuseOp s t e bs gAddr 0 := by
  simp only [copyStart_plain h, hp, if_pos hg]

theorem copyStart_moves {o : GalOp} (hg : wfld (blkWord bs (if get then 0x08 else 0x10)) 56 8 = 0)
    (hw : agentWin s t e.task (blkWord bs (if get then 0x08 else 0x10)) (copyBytes bs) (if get then rightR else rightW) = true)
    (hn : copyBytes bs < 65536) (ho : findOp (openOp s t e bs (s.mono + span) false).1 t (s.tile t).port.nextOp = some o) :
    copyStart s t e bs get = copyMove (openOp s t e bs (s.mono + span) false).1 t o := by
  have hbig : ¬ 65536 ≤ copyBytes bs := Nat.not_le.mpr hn
  have ho : findOp (openOp s t e bs (s.mono + span) false).1 t (openOp s t e bs (s.mono + span) false).2 = some o := ho
  simp only [copyStart_plain h, hp, hg, hw, hbig, ho, ne_eq, not_true_eq_false, if_false, Bool.not_true, Bool.false_eq_true,
    decide_false, Bool.false_and]

end

end Copy

/-! ### An operation ends -/

section End

variable {s : State} {t : TileId} {o : GalOp} {id : Nat} {r : OpResult}

theorem operationEnd_absent (h : findOp s t.val id = none) :
    execOperationEnd t id r s = .next s ∧ execGalleryOperationTimeout t id s = .next s := by
  simp only [execOperationEnd, execGalleryOperationTimeout, h, and_self]

theorem finishOp_eq (h : findOp s t.val id = some o) (code detail : Nat) :
    finishOp s t.val id code detail = writeEnd
      (releaseGrant (s.updPort t.val fun p => { p with ops := p.ops.filter fun x => x.id ≠ id }) (.op t.val id))
      t.val o.instr o.addr o.block true code detail := by
  simp only [finishOp, endOp, h]

variable (hp : s.power = .run) (h : findOp s t.val id = some o)
include hp h

theorem execOperationEnd_eq : execOperationEnd t id r s = .next (opEnd s t.val o r) := by
  simp only [execOperationEnd, h, hp, if_true]

/-- At its limit a `gput` does not know what it has written (log 36). -/
theorem operationTimeout_gput {f : LC} (hi : o.instr = .gput t f) :
    ∃ k, execGalleryOperationTimeout t id s = .next (finishOp (s.reach o.deadline).tick t.val id 9 k) := by
  simp only [execGalleryOperationTimeout, h, hp, hi, ne_eq, not_true_eq_false, if_false]
  exact ⟨_, rfl⟩

theorem operationTimeout_gget {f : LC} (hi : o.instr = .gget t f) :
    execGalleryOperationTimeout t id s =
      .next (finishOp (s.reach o.deadline) t.val id 9 (unitsDone o.got (copyBytes o.block))) := by
  simp only [execGalleryOperationTimeout, h, hp, hi, ne_eq, not_true_eq_false, if_false]
  rfl

theorem operationTimeout_gjoin {f : LC} (hi : o.instr = .gjoin t f) :
    execGalleryOperationTimeout t id s = .next (joinEnd (s.reach o.deadline) (fld (blkHalf o.block 0) 16 8) 9) := by
  simp only [execGalleryOperationTimeout, h, hp, hi, ne_eq, not_true_eq_false, if_false]
  rfl

end End

section OpEnd

variable {s : State} {t : TileId} {o : GalOp} {f : LC}

theorem opEnd_gput (hi : o.instr = .gput t f) (hg : o.needGrant = false ∨ o.grant = true) :
    opEnd s t.val o .ok = finishOp s t.val o.id 0 ((copyBytes o.block + 4095) / 4096) := by
  have hready : (!o.needGrant || o.grant) = true := by
    obtain hg | hg := hg
    · rw [hg]; rfl
    · rw [hg, Bool.or_true]
  simp only [opEnd, hi, hready, if_true]

theorem opEnd_gget (hi : o.instr = .gget t f) :
    opEnd s t.val o .ok =
      if covered o.got 0 (copyBytes o.block) then finishOp s t.val o.id 0 ((copyBytes o.block + 4095) / 4096) else s := by
  simp only [opEnd, hi]

end OpEnd

/-! ### stat and the signal -/

section Stat

variable {s w : State} {t : Nat} {i : Instr} {a : Word} {bs : List Byte} {code detail : Nat}

theorem statWord_eq (hd : detail < 65536) (code : Nat) :
    statWord code detail = if code = 0 then 2 ^ 30 + detail else 2 * 2 ^ 30 + code * 2 ^ 16 + detail := by
  simp only [statWord, Nat.min_eq_left (show detail ≤ 0xFFFF by omega)]
  split <;> rfl

theorem galFail_other (hu : code ≠ 12) (ht : code ≠ 13) (s : State) (t addr : Nat) : galFail s t code addr = s := by
  simp only [galFail, gUncorr, gThermal, hu, ht, if_false]

/-- Once stat is written, and no failure of the data is to be reported, the signal is all that is left. -/
theorem writeEnd_eq (hd : detail < 65536) (hu : code ≠ 12) (ht : code ≠ 13)
    (hw : agentWrite s t (a + 4)
      (toBytes 4 (if code = 0 then 2 ^ 30 + detail else 2 * 2 ^ 30 + code * 2 ^ 16 + detail)) = (w, none)) (signal : Bool) :
    writeEnd s t i a bs signal code detail = if signal then opSignal w t i bs else w := by
  simp only [writeEnd, statWord_eq hd, hw, madeBy, galFail_other hu ht]

theorem opSignal_none (hs : fld (blkHalf bs 0) 27 1 ≠ 1) : opSignal s t i bs = s := by
  have h0 : fld (blkHalf bs 0) 27 1 = 0 := by
    simp only [fld] at hs ⊢
    omega
  simp only [opSignal, h0, if_true]

theorem opSignal_here (hs : fld (blkHalf bs 0) 27 1 = 1) (hl : isRemote s (blkWord bs 0x30) = false ∨ remoteSig i bs = false)
    (hz : agentSignal s t (blkWord bs 0x30) (decide (fld (blkHalf bs 0) 26 1 = 1)) (blkWord bs 0x38) = (w, none)) :
    opSignal s t i bs = w := by
  have hlocal : (remoteSig i bs && isRemote s (blkWord bs 0x30)) = false := by
    obtain hl | hl := hl
    · rw [hl, Bool.and_false]
    · rw [hl, Bool.false_and]
  simp only [opSignal, hs, one_ne_zero, if_false, hlocal, Bool.false_eq_true, hz, madeBy]

theorem opSignal_remote {t' : TileId} {f : LC} (hs : fld (blkHalf bs 0) 27 1 = 1) (hi : i = .gput t' f)
    (hr : fld (blkHalf bs 0) 25 1 = 1) (hl : isRemote s (blkWord bs 0x30) = true) :
    opSignal s t i bs =
      galSend s (.signal (blkWord bs 0x30) (decide (fld (blkHalf bs 0) 26 1 = 1)) (blkWord bs 0x38) t 0) := by
  subst hi
  simp only [opSignal, remoteSig, hs, hr, hl, one_ne_zero, if_false, decide_true, Bool.and_self, if_true]

end Stat

/-- Settles O28: issue by `cp1Issue_enters` and `cp1Issue_faulted`, start by `cp1Start`'s cases, copies by `PlainCopy`, and the end
of an operation by what `writeEnd` writes. -/
theorem galleryOperations : Obligations.GalleryOperations := by
  unfold Obligations.GalleryOperations
  refine ⟨?issue, ?start, ?copy, ?finish, ?stat⟩
  case issue =>
    intro s s1 t f hfull h c a b task bad cop goes
    refine ⟨?block, ⟨fun hd ha hp hs => (execGreturn_cases hfull h hd ha hp).1 hs,
      fun hq hd ha hp hs => (execGreturn_cases hfull h hd ha hp).2 hs hq⟩,
      fun hd => ⟨(execGbeacon_cases hfull h hd).1, (execGbeacon_cases hfull h hd).2⟩, execGsync_enters hfull h⟩
    case block =>
      simp only [List.forall_mem_cons]
      exact ⟨blockIssue_cases hfull h, blockIssue_cases hfull h, blockIssue_cases hfull h, blockIssue_cases hfull h,
        blockIssue_cases hfull h, blockIssue_cases hfull h, blockIssue_cases hfull h, blockIssue_cases hfull h,
        blockIssue_cases hfull h, blockIssue_cases hfull h, blockIssue_cases hfull h, List.forall_mem_nil _⟩
  case start =>
    intro s t e es hp ho u pop hq
    have hgo : exec (.cp1Start t) s = .next (cp1Start s t.val) := execCp1Start_eq hp ho
    rw [hgo]
    refine ⟨fun hr => congrArg _ (cp1Start_waits hq hr), fun hr => ⟨fun f hi => congrArg _ (cp1Start_gsync hq hr hi),
      fun f hi => congrArg _ (cp1Start_greturn hq hr hi), fun f hi => congrArg _ (cp1Start_gbeacon hq hr hi), ?_⟩⟩
    intro f v bs hl hb
    have hon {i : Instr} (hi : e.instr = i) (hm : i ∈ blockInstrs t f) : (.next (cp1Start s t.val) : Result) =
        .next (startOn i v t.val e bs) := congrArg _ (cp1Start_block hq hr hi hm hl hb)
    refine ⟨fun hi => hon hi (by simp [blockInstrs]), fun hi => hon hi (by simp [blockInstrs]),
      fun hi => hon hi (by simp [blockInstrs]), fun hi => hon hi (by simp [blockInstrs]), fun hi => hon hi (by simp [blockInstrs]),
      fun hi => hon hi (by simp [blockInstrs]), fun hi => ?_⟩
    simp only [List.mem_cons, List.not_mem_nil, or_false] at hi
    obtain hi | hi | hi | hi | hi := hi
    all_goals exact hon hi (by simp [blockInstrs])
  case copy =>
    intro s t e bs get ctl n here there
    refine ⟨copyStart_desc, fun span hs h5 h25 h27 hn h32 h20 h28 => ?_⟩
    have h : PlainCopy s bs span := ⟨hs, h5, h25, h27, hn, h32, h20, h28⟩
    exact ⟨fun k hk => copyStart_place h hk, fun hk => ⟨copyStart_address h hk,
      fun o hg hw hn ho => copyStart_moves h hk hg hw hn ho⟩⟩
  case finish =>
    intro s t o c d hp h n ready
    refine ⟨fun id ha r => operationEnd_absent ha, finishOp_eq h,
      fun f hi => ⟨fun hg => ?_, ?_, operationTimeout_gput hp h hi⟩,
      fun f hi => ⟨fun hc => ?_, fun hc => ?_, ?_, operationTimeout_gget hp h hi⟩, fun f hi => ⟨?_, operationTimeout_gjoin hp h hi⟩⟩
    · exact (execOperationEnd_eq hp h).trans (congrArg _ (opEnd_gput hi hg))
    · refine (execOperationEnd_eq hp h).trans (congrArg _ ?_)
      simp only [opEnd, hi]
    · exact (execOperationEnd_eq hp h).trans (congrArg _ ((opEnd_gget hi).trans (if_pos hc)))
    · refine (execOperationEnd_eq hp h).trans (congrArg _ ((opEnd_gget hi).trans (if_neg ?_)))
      exact Bool.eq_false_iff.mp hc
    · refine (execOperationEnd_eq hp h).trans (congrArg _ ?_)
      simp only [opEnd, hi]
      rfl
    · refine (execOperationEnd_eq hp h).trans (congrArg _ ?_)
      simp only [opEnd, hi]
  case stat =>
    intro s w t i a bs code detail hd hu ht stat asked at_ add hw
    refine ⟨writeEnd_eq hd hu ht hw false, fun hs => ?_, fun z hs hl hz => ?_, fun t' f hs hi hr hl => ?_⟩
    · exact (writeEnd_eq hd hu ht hw true).trans (opSignal_none hs)
    · exact (writeEnd_eq hd hu ht hw true).trans (opSignal_here hs hl hz)
    · exact (writeEnd_eq hd hu ht hw true).trans (opSignal_remote hs hi hr hl)

end Sys2Proof.Machine
end

section
/-! SUPPORT. The sampler, the watchdog, the alarms and the pace monitors, and the proof of O13. -/

namespace Sys2Proof.Machine

open Sys2Proof

/-! ### What a report or a deadline leaves as it is -/

/-- A deadline that has passed takes no time: with nothing to correct, MOD_TIME stands too (R55, R57). -/
theorem reach_passed {s : State} {d : Nat} (hd : d ≤ s.mono) (hs : s.tu.steer = 0) : s.reach d = s := by
  rw [State.reach, Nat.sub_eq_zero_of_le hd]
  exact if_pos hs

/-- A tile that no command holds fails none (R655). -/
theorem failTile_unheld {s : State} {t : Nat} (hp : s.fe.ptasks = []) (ho : (s.feTile t).own = none) (code : BitVec 8)
    (detail : BitVec 16) (fa fr fv : Word) : failTile s t code detail fa fr fv = s := by
  simp only [failTile, hp, ho, List.findIdx?_nil]

/-- The halt of a core that no command holds has no report (R521). -/
theorem haltWith_unheld {s : State} {c : CoreId} (hp : s.fe.ptasks = []) (ho : ∀ t, c = .tile t → (s.feTile t.val).own = none)
    (addr pc cause : Word) : haltWith s c addr pc cause = s := by
  cases c with
  | svc v => rfl
  | tile t => exact failTile_unheld hp (ho t rfl) _ _ _ _ _

@[simp] theorem feTile_setCore (s : State) (c : CoreId) (k : Core) (n : Nat) : (s.setCore c k).feTile n = s.feTile n := by
  simp only [State.feTile, State.setCore_fe]

/-! ### The sampler (R159) -/

section Timers

variable {s : State} {c : CoreId}

theorem sat32_one (a : Nat) : sat32 a 1 = min 0xFFFFFFFF (a + 1) := by
  simp only [sat32, satAdd]
  split <;> omega

theorem exec_prof_off (h : (s.core c).profEn = false ∨ (s.core c).profPeriod = 0) : exec (.prof c) s = .next s := by
  have hn : ¬ (s.power = .run && (s.core c).profEn && (s.core c).profPeriod ≠ 0) = true := by
    obtain h | h := h <;> simp [h]
  exact congrArg _ (if_neg hn)

variable (hp : s.power = .run)
include hp

theorem exec_prof_on (he : (s.core c).profEn = true) (hn : (s.core c).profPeriod ≠ 0) :
    exec (.prof c) s = .next (if (s.core c).t0.any fun p => p.2.busy then
        s.setCore c { s.core c with profMissed := min 0xFFFFFFFF ((s.core c).profMissed + 1) }
      else s.setCore c { s.core c with ipProf := true }) := by
  have hc : (s.power = .run && (s.core c).profEn && (s.core c).profPeriod ≠ 0) = true := by simpa [hp, he] using hn
  rw [← sat32_one]
  exact congrArg _ (if_pos hc)

/-! ### The watchdog (R160) -/

omit hp in
theorem exec_wdog_off (h : (s.core c).t1en = false) : exec (.wdog c) s = .next s := by
  have hn : ¬ (s.power = .run && (s.core c).t1en) = true := by simp [h]
  exact congrArg _ (if_neg hn)

section Expiry

variable (he : (s.core c).t1en = true) (hd : (s.core c).t1due ≤ s.mono) (hs : s.tu.steer = 0)
include he hd hs

theorem exec_wdog_expires : exec (.wdog c) s = .next (
    let k := s.core c
    let due := k.t1due + k.t1period.toNat * 1000
    if k.ipWdog then
      haltWith (s.setCore c { k with t1due := due, run := .halted }) c 0 k.pc (causeWord { code := 0x86, async := true } 0 k.status.lvl)
    else s.setCore c { k with ipWdog := true, t1due := due }) := by
  have hc : (s.power = .run && (s.core c).t1en) = true := by simp [hp, he]
  show execWdog c s = _
  simp only [execWdog, hc, if_true, reach_passed hd hs]

theorem exec_wdog_warns (hw : (s.core c).ipWdog = false) :
    exec (.wdog c) s = .next (s.setCore c { s.core c with
      ipWdog := true, t1due := (s.core c).t1due + (s.core c).t1period.toNat * 1000 }) := by
  rw [exec_wdog_expires hp he hd hs]
  simp only [hw, Bool.false_eq_true, if_false]

theorem exec_wdog_halts (hw : (s.core c).ipWdog = true) (hf : s.fe.ptasks = [])
    (ho : ∀ t, c = .tile t → (s.feTile t.val).own = none) :
    exec (.wdog c) s = .next (s.setCore c { s.core c with
      run := .halted, t1due := (s.core c).t1due + (s.core c).t1period.toNat * 1000 }) := by
  rw [exec_wdog_expires hp he hd hs]
  simp only [hw, if_true]
  rw [haltWith_unheld (by simpa using hf) (by simpa using ho)]

end Expiry

/-! ### The alarms (R157, R158) -/

variable {i : Fin 4}

omit hp in
theorem exec_timer0_free (h : (aget {} (s.core c).t0 i.val).busy = false) : exec (.timer0EntryExpiry c i) s = .next s := by
  have hc : (s.power ≠ .run || !(aget {} (s.core c).t0 i.val).busy) = true := by simp [h]
  exact congrArg _ (if_pos hc)

theorem exec_timer0_alarm (hb : (aget {} (s.core c).t0 i.val).busy = true) (hw : (aget {} (s.core c).t0 i.val).waitq = false)
    (hd : (aget {} (s.core c).t0 i.val).deadline ≤ s.mono) (hs : s.tu.steer = 0) :
    exec (.timer0EntryExpiry c i) s = .next (s.updCore c fun k => t0fire k i.val) := by
  have hc : ¬ (s.power ≠ .run || !(aget {} (s.core c).t0 i.val).busy) = true := by simp [hp, hb]
  refine congrArg _ ((if_neg hc).trans ?_)
  rw [reach_passed hd hs, hw]
  rfl

end Timers

/-! ### The pace monitors (R42 to R44, R60) -/

/-- The readings of one window (R42). -/
theorem paceTile_eq (x : Tile) (n : BitVec 16) :
    paceTile x n = { x with paceCur := n, paceMin := BitVec.ofNat 16 (min n.toNat x.paceMin.toNat),
                            paceMax := BitVec.ofNat 16 (max n.toNat x.paceMax.toNat) } := by
  have hmin : (if n.toNat < x.paceMin.toNat then n else x.paceMin) = BitVec.ofNat 16 (min n.toNat x.paceMin.toNat) := by
    split
    · next h => rw [Nat.min_eq_left h.le, BitVec.ofNat_toNat, BitVec.setWidth_eq]
    · next h => rw [Nat.min_eq_right (Nat.not_lt.1 h), BitVec.ofNat_toNat, BitVec.setWidth_eq]
  have hmax : (if x.paceMax.toNat < n.toNat then n else x.paceMax) = BitVec.ofNat 16 (max n.toNat x.paceMax.toNat) := by
    split
    · next h => rw [Nat.max_eq_left h.le, BitVec.ofNat_toNat, BitVec.setWidth_eq]
    · next h => rw [Nat.max_eq_right (Nat.not_lt.1 h), BitVec.ofNat_toNat, BitVec.setWidth_eq]
  rw [paceTile, hmin, hmax]

/-- Tile by tile, the readings of a list of (tile, count). -/
def paceReadings (ps : List (Nat × BitVec 16)) (s : State) : State :=
  ps.foldl (fun s p => s.updTile p.1 fun x => paceTile x p.2) s

/-- Readings are a change of the tiles alone. -/
theorem paceReadings_eq (ps : List (Nat × BitVec 16)) (s : State) : ∃ ts, paceReadings ps s = { s with tiles := ts } := by
  refine List.foldlRecOn (motive := fun u : State => ∃ ts, u = { s with tiles := ts }) ps _ ⟨s.tiles, rfl⟩ fun u hu p _ => ?_
  obtain ⟨ts, rfl⟩ := hu
  exact ⟨_, rfl⟩

/-- A tile that the list does not name keeps its readings. -/
theorem paceReadings_tile_other {t : Nat} {ps : List (Nat × BitVec 16)} (h : t ∉ ps.map Prod.fst) (s : State) :
    (paceReadings ps s).tile t = s.tile t := by
  refine List.foldlRecOn (motive := fun u : State => u.tile t = s.tile t) ps _ rfl fun u hu p hp => ?_
  have hne : t ≠ p.1 := fun e => h (e ▸ List.mem_map_of_mem hp)
  rw [State.tile_updTile, if_neg hne, hu]

/-- A tile that the list names once takes its count. -/
theorem paceReadings_tile {t : Nat} {n : BitVec 16} {ps : List (Nat × BitVec 16)} (hk : (ps.map Prod.fst).Nodup) (h : (t, n) ∈ ps)
    (s : State) : (paceReadings ps s).tile t = paceTile (s.tile t) n := by
  induction ps generalizing s with
  | nil => exact absurd h List.not_mem_nil
  | cons p ps ih =>
    rw [List.map_cons, List.nodup_cons] at hk
    obtain ⟨hp, hk⟩ := hk
    show (paceReadings ps (s.updTile p.1 fun x => paceTile x p.2)).tile t = _
    obtain rfl | h := List.mem_cons.1 h
    · rw [paceReadings_tile_other hp, State.tile_updTile, if_pos rfl]
    · have hne : t ≠ p.1 := fun e => hp (e ▸ List.mem_map_of_mem (f := Prod.fst) h)
      rw [ih hk h, State.tile_updTile, if_neg hne]

/-- The counts of a window, each with its tile. -/
def windowCounts (counts : List (BitVec 16)) : List (Nat × BitVec 16) := (List.range 256).zip counts

theorem mem_windowCounts {counts : List (BitVec 16)} {t : Nat} {n : BitVec 16} :
    (t, n) ∈ windowCounts counts ↔ t < 256 ∧ counts[t]? = some n := by
  simp only [windowCounts, List.mem_iff_getElem?, List.getElem?_zip_eq_some]
  constructor
  · rintro ⟨i, hr, hc⟩
    obtain ⟨hi, rfl⟩ := List.getElem?_eq_some_iff.1 hr
    rw [List.getElem_range]
    exact ⟨by simpa using hi, hc⟩
  · rintro ⟨ht, hc⟩
    exact ⟨t, List.getElem?_range ht, hc⟩

theorem windowCounts_nodup (counts : List (BitVec 16)) : ((windowCounts counts).map Prod.fst).Nodup := by
  rw [windowCounts, List.zip_eq_zip_take_min, List.map_fst_zip (by simp)]
  exact List.nodup_range.sublist (List.take_sublist _ _)

/-- A tile without a count is not in the window. -/
theorem not_mem_windowCounts {counts : List (BitVec 16)} {t : Nat} (h : counts.length ≤ t ∨ 256 ≤ t) :
    t ∉ (windowCounts counts).map Prod.fst := by
  intro hm
  obtain ⟨⟨_, n⟩, hn, rfl⟩ := List.mem_map.1 hm
  obtain ⟨ht, hc⟩ := mem_windowCounts.1 hn
  obtain ⟨hl, -⟩ := List.getElem?_eq_some_iff.1 hc
  omega

section Pace

variable {s : State} {t : TileId} {v : Word} (hp : s.power = .run)
include hp

theorem exec_paceWindow (counts : List (BitVec 16)) : exec (.paceWindow counts) s =
    .next { paceReadings (windowCounts counts) s with pacesum := paceSum (paceReadings (windowCounts counts) s) } :=
  congrArg _ (if_pos hp)

/-- A register of a tile in service is written (R18). -/
theorem tileOn_run (ho : (s.tile t.val).oos = false) (r : State) : tileOn s t r = r :=
  if_pos (by simp [hp, ho])

theorem exec_tilePaceClr (ho : (s.tile t.val).oos = false) :
    exec (.tilePaceClr t v) s = .next (s.updTile t.val fun x => paceClear x v) :=
  congrArg _ (tileOn_run hp ho _)

theorem exec_tileTcorrCtl (ho : (s.tile t.val).oos = false) : exec (.tileTcorrCtl t v) s = .next (tcorr s t.val) :=
  congrArg _ (tileOn_run hp ho _)

end Pace

/-- Settles O13, register by register: the sampler, the watchdog and the alarms by what has expired, a pace window tile by tile. -/
theorem timersAndPace : Obligations.TimersAndPace := by
  unfold Obligations.TimersAndPace
  intro s hp
  refine ⟨fun c => ⟨fun he hn => ⟨fun hf => ?idle, fun hb => ?busy⟩, exec_prof_off, exec_wdog_warns hp, exec_wdog_halts hp,
    exec_wdog_off, fun i => ⟨exec_timer0_alarm hp, exec_timer0_free⟩⟩, fun counts => ?window,
    fun t v ho => ⟨exec_tilePaceClr hp ho, exec_tileTcorrCtl hp ho⟩⟩
  case idle =>
    have hf : ¬ ((s.core c).t0.any fun p => p.2.busy) = true := by simpa using hf
    rw [exec_prof_on hp he hn, if_neg hf]
  case busy =>
    rw [exec_prof_on hp he hn, if_pos (List.any_eq_true.2 hb)]
  case window =>
    obtain ⟨ts, hts⟩ := paceReadings_eq (windowCounts counts) s
    refine ⟨_, exec_paceWindow hp counts, fun t ht n hn => ?_, fun t ht => ?_, ?_⟩
    · exact (paceReadings_tile (windowCounts_nodup counts) (mem_windowCounts.2 ⟨ht, hn⟩) s).trans (paceTile_eq _ n)
    · exact paceReadings_tile_other (not_mem_windowCounts ht) s
    · rw [hts]
      exact ⟨rfl, rfl, rfl, rfl, rfl, rfl, rfl⟩

end Sys2Proof.Machine
end

section
/-! SUPPORT. Traps, entry and return, `mset`, `halt` and interrupts, and the proof of O12. -/

namespace Sys2Proof.Machine

open Sys2Proof

/-! ### Faults of kernel code (R122, R124) -/

/-- The frame address of an entry (R124). -/
def entryFrame (k : Core) : Word := ((if k.status.lvl then k.reg 31 else k.ksp) - 128) &&& ~~~(0x7F#64)

/-- A fault of kernel code below mask level 7 enters the level-7 handler. -/
theorem takeFault_kernel {s : State} {t : TileId} {tr : Trap} {off : Nat} (h : FrameIn s t off)
    (hb : (s.core (.tile t)).status.bs = false) (hm : (s.core (.tile t)).status.ml ≠ 7)
    (hl : (s.core (.tile t)).status.lvl = true) (hc : tr.code ≠ 0x09) (epc : Word) :
    takeFault s (.tile t) tr epc = entryTo s t 7 tr epc (entryFrame (s.core (.tile t))) off := by
  have hu : tr.code ≠ cMemUncorr := hc
  simp only [takeFault, hu, if_false, hb, hm, hl, Bool.not_true, Bool.false_and, Bool.false_eq_true]
  exact enterLevel_scratch h

/-! ### `trap`, `mset` and `halt` (R122, R130, R150) -/

section Issued

variable {c : CoreId} {s s1 : State} {f : LR}

theorem noFields_of_zero (hd : f.rd = 0) (h1 : f.rs1 = 0) (h2 : f.rs2 = 0) (hf : f.f = false) : noFields f = true := by
  simp only [noFields, hd, h1, h2, hf, decide_true, Bool.not_false, Bool.and_self]

theorem exec_trap (h : Ready s c [f.rs1] 4 s1) (hd : f.rd = 0) (h2 : f.rs2 = 0) (hf : f.f = false) :
    exec (.trap c f) s = .next (takeFault s1 c { code := 0x0B, addr := (s1.core c).reg f.rs1 } ((s1.core c).pc + 4)) := by
  show execTrap c f s = _
  rw [execTrap, issue_ready h]
  simp only [hd, h2, hf, decide_true, Bool.not_false, Bool.and_self, Bool.not_true, Bool.false_eq_true, if_false]
  rfl

theorem exec_mset (h : Ready s c [f.rs1, f.rs2] 4 s1) (hf : f.f = false) (hl : (s1.core c).status.lvl = true)
    (hm : (s1.core c).reg f.rs2 &&& ~~~(0x71#64) = 0) :
    exec (.mset c f) s = .next (retired s1 c 4 3 fun k' =>
      let m := (s1.core c).reg f.rs2
      let w := ((s1.core c).status.word &&& ~~~m) ||| ((s1.core c).reg f.rs1 &&& m)
      { k' with status := { (s1.core c).status with ml := BitVec.ofNat 3 (w.toNat / 16 % 8), lvl := w.getLsbD 0 },
                fwin := none }.setReg f.rd (s1.core c).status.word) := by
  show execMset c f s = _
  rw [execMset, hf]
  refine congrArg _ (issue_retired h ?_)
  have hm : ¬ (s1.reg c f.rs2 &&& ~~~(0x71#64) ≠ 0) := not_not_intro hm
  simp only [if_neg hm, needKernel, hl, if_true, State.setReg, State.updCore_updCore]
  rfl

theorem exec_mset_illegal (h : Ready s c [f.rs1, f.rs2] 4 s1) (hq : Quiet s1 c) (hf : f.f = false)
    (hm : (s1.core c).reg f.rs2 &&& ~~~(0x71#64) ≠ 0) : exec (.mset c f) s = .next (faulted s1 c { code := 0x01 }) := by
  show execMset c f s = _
  rw [execMset, hf]
  exact congrArg _ (issue_fault h hq (if_pos hm))

theorem exec_halt_task (h : Ready s c [] 4 s1) (hq : Quiet s1 c) (h0 : noFields f = true) (hl : (s1.core c).status.lvl = false) :
    exec (.halt c f) s = .next (faulted s1 c { code := 0x03 }) := by
  show execHalt c f s = _
  rw [execHalt, h0]
  refine congrArg _ (issue_fault h hq ?_)
  simp only [if_true, needKernel, hl, Bool.false_eq_true, if_false]
  rfl

theorem exec_halt (h : Ready s c [] 4 s1) (h0 : noFields f = true) (hl : (s1.core c).status.lvl = true) (hp : s1.fe.ptasks = [])
    (ho : ∀ t, c = .tile t → (s1.feTile t.val).own = none) :
    exec (.halt c f) s = .next (retired s1 c 4 1 fun k' => { k' with run := .halted }) := by
  show execHalt c f s = _
  rw [execHalt, h0]
  refine congrArg _ (issue_retired h ?_)
  have hr : haltReport (s1.updCore c fun k => { k with run := .halted }) c = s1.updCore c fun k => { k with run := .halted } :=
    haltWith_unheld (by simpa using hp) (by simpa [State.updCore] using ho) _ _ _
  simp only [needKernel, hl, if_true, hr]
  rfl

end Issued

/-! ### `eret` (R129) -/

/-- A frame in the tile's own scratch, at offset `off`, for the code that runs in the handler. -/
structure ReturnFrame (s : State) (t : TileId) (off : Nat) : Prop where
  noBackstop : (s.core (.tile t)).status.bs = false
  at31 : (s.core (.tile t)).reg 31 = BitVec.ofNat 64 (0xFC00000000 + off)
  line : off % 128 = 0
  inScratch : off + 128 ≤ min 0x80000 (scratchBytes s t.val)
  readable : ∀ b ∈ (s.tile t.val).l1.bad, ¬(off ≤ b ∧ b < off + 128)
  nothingBuffered : (s.core (.tile t)).sbuf = []

/-- The 128 bytes of that frame. -/
def savedFrame (s : State) (t : TileId) (off : Nat) : List Byte := readBytes (s.tile t.val).l1.scratch off 128

theorem frameWord_savedFrame {s : State} {t : TileId} {off i : Nat} (hi : i < 16) :
    frameWord (savedFrame s t off) i = wordOf (readBytes (s.tile t.val).l1.scratch (off + 8 * i) 8) := by
  rw [frameWord, savedFrame, readBytes_drop_take _ _ _ _ _ (by omega)]

theorem eretRead_scratch {s : State} {t : TileId} {off : Nat} (h : ReturnFrame s t off) :
    eretRead s (.tile t) = (s, .ok (savedFrame s t off)) := by
  obtain ⟨hb, ha, hl, hs, hr, hq⟩ := h
  obtain ⟨l, hl'⟩ : ∃ l, l = 0xFC00000000 + off := ⟨_, rfl⟩
  rw [← hl'] at ha
  have hN := toNat_scratch ha hl' (by omega)
  have hla : localAddr s ((s.core (.tile t)).reg 31) = some l := localAddr_of_toNat hN (by omega)
  have htg := target_scratch (n := 128) hl' hs
  have hal : wfld ((s.core (.tile t)).reg 31) 0 7 = 0 := by rw [wfld_scratch hN hl', hl]
  have hok : frameOk s (.tile t) ((s.core (.tile t)).reg 31) = true := by
    unfold frameOk; rw [hla]; simp only []; rw [htg]; simp [ownTile]
  have hf : eretFrame s (.tile t) = .port l := by
    simp only [eretFrame, hal, hb, hok, hla, ne_eq, not_true_eq_false, if_false, Bool.false_and, Bool.false_eq_true, if_true]
  rw [eretRead, hf]
  simp only [coreLoad_scratch htg hr hq rfl]
  rfl

/-- A tile's core is a part of the tile. -/
theorem State.updCore_tile (s : State) (t : TileId) (f : Core → Core) :
    s.updCore (.tile t) f = s.updTile t.val fun x => { x with core := f x.core } := rfl

/-- A core after its return from a frame, which takes 12 steps (R129, R709). -/
def returned (k : Core) (bs : List Byte) : Core :=
  { restored k bs with steps := (restored k bs).steps + 12, pc := frameWord bs 0, fwin := none }

/-- A tile after that return. -/
def returnedTile (bs : List Byte) (x : Tile) : Tile :=
  { x with core := returned x.core bs, vec := { x.vec with vstart := wfld (frameWord bs 10) 0 15 } }

theorem exec_eret {s s1 : State} {t : TileId} {f : LR} {off : Nat} (h : Ready s (.tile t) [31] 4 s1) (h0 : noFields f = true)
    (hl : (s1.core (.tile t)).status.lvl = true) (hr : ReturnFrame s1 t off)
    (he : (frameWord (savedFrame s1 t off) 0).getLsbD 0 = false) :
    exec (.eret (.tile t) f) s = .next (s1.updTile t.val (returnedTile (savedFrame s1 t off))) := by
  show execEret (.tile t) f s = _
  rw [execEret, issue_ready h]
  simp only [h0, Bool.not_true, Bool.false_eq_true, if_false, needKernel, hl, if_true, eretRead_scratch hr, he]
  simp only [addSteps_eq, State.updCore_tile, eretState, State.updVec, State.updTile_updTile, goTo]
  rfl

/-! #### What the return leaves -/

section Returned

variable (k : Core) (bs : List Byte)

theorem returned_reg (r : Reg) : (returned k bs).reg r = if r = 31 then frameWord bs 5 else k.reg r :=
  Core.reg_setReg k 31 r (frameWord bs 5)

theorem returned_lc {i : Nat} (hi : i < 4) :
    aget 0 (returned k bs).lc i = BitVec.ofNat 64 ((frameWord bs (6 + i)).toNat % 2 ^ 32) := by
  have hw : ∀ j, wfld (frameWord bs (6 + j)) 0 32 = (frameWord bs (6 + j)).toNat % 2 ^ 32 := fun j => by
    rw [wfld, fld, pow_zero, Nat.div_one]
  show aget 0 ([0, 1, 2, 3].foldl (fun m j => aset 0 m j (BitVec.ofNat 64 (wfld (frameWord bs (6 + j)) 0 32))) []) i = _
  simp only [List.foldl_cons, List.foldl_nil, hw]
  interval_cases i <;> simp [aget_aset]

theorem returned_saved : (returned k bs).epc = k.epc ∧ (returned k bs).ecause = k.ecause ∧ (returned k bs).eaddr = k.eaddr :=
  ⟨Core.setReg_epc k 31 (frameWord bs 5), Core.setReg_ecause k 31 (frameWord bs 5), Core.setReg_eaddr k 31 (frameWord bs 5)⟩

end Returned

theorem State.core_updTile (s : State) (t : TileId) (f : Tile → Tile) :
    (s.updTile t.val f).core (.tile t) = (f (s.tile t.val)).core := by
  rw [State.core, State.tile_updTile, if_pos rfl]

/-- A change of one tile leaves every other core. -/
theorem State.core_updTile_ne {t : TileId} {d : CoreId} (h : d ≠ .tile t) (s : State) (f : Tile → Tile) :
    (s.updTile t.val f).core d = s.core d := by
  cases d with
  | svc v => rfl
  | tile u =>
    have hne : u.val ≠ t.val := fun e => h (congrArg _ (Fin.ext e))
    simp only [State.core, State.tile_updTile, if_neg hne]

/-! ### Interrupts (R133, R140) -/

theorem find?_descending {p : Nat → Bool} {l : Nat} (h1 : 1 ≤ l) (h6 : l ≤ 6) (hp : p l = true)
    (hn : ∀ m, l < m → m ≤ 6 → p m = false) : [6, 5, 4, 3, 2, 1].find? p = some l := by
  interval_cases l <;> simp [hp, hn]

/-- The highest pending, enabled and unmasked source. -/
theorem bestSource_eq {s : State} {c : CoreId} {l : Nat} (hb : (s.core c).status.bs = false)
    (hp : (ipend s c &&& (s.core c).ien).getLsbD l = true) (hm : (s.core c).status.ml.toNat < l) (h6 : l ≤ 6)
    (hn : ∀ m, l < m → m ≤ 6 → (ipend s c &&& (s.core c).ien).getLsbD m = false) : bestSource s c = some l := by
  simp only [bestSource, hb, Bool.false_eq_true, if_false]
  refine find?_descending (by omega) h6 ?_ fun m h1 h2 => ?_
  · rw [hp, decide_eq_true hm, Bool.and_self]
  · rw [hn m h1 h2, Bool.false_and]

section Entry

variable {s : State} {t : TileId} {l off : Nat}

/-- An entry overwrites the tile, so that a tile written with what it held enters alike. -/
theorem entryTo_rewritten (tr : Trap) (epc frame : Word) :
    entryTo (s.setTile t.val (s.tile t.val)) t l tr epc frame off = entryTo s t l tr epc frame off := by
  have ht : (s.setTile t.val (s.tile t.val)).tile t.val = s.tile t.val := by rw [State.tile_setTile, if_pos rfl]
  have hc : (s.setTile t.val (s.tile t.val)).core (.tile t) = s.core (.tile t) := congrArg Tile.core ht
  have hw : ∀ bs, scratchWrite (s.setTile t.val (s.tile t.val)) t.val off bs = scratchWrite s t.val off bs := fun bs => by
    simp only [scratchWrite, State.updTile, ht, State.setTile_setTile]
  simp only [entryTo, hw, hc, ht]

theorem frameIn_rewritten (h : FrameIn s t off) : FrameIn (s.setTile t.val (s.tile t.val)) t off := by
  have ht : (s.setTile t.val (s.tile t.val)).tile t.val = s.tile t.val := by rw [State.tile_setTile, if_pos rfl]
  have hc : (s.setTile t.val (s.tile t.val)).core (.tile t) = s.core (.tile t) := congrArg Tile.core ht
  obtain ⟨hf, h2, ho, hs, hg⟩ := h
  rw [← hc] at hf hs
  rw [← ht] at ho
  exact ⟨hf, by rwa [scratchBytes_eq (congrArg Tile.l1 ht)], ho, hs, hg⟩

/-- An interrupt other than a late store error, taken by a core that runs. -/
theorem takeInterrupt_running (h : FrameIn s t off) (hr : (s.core (.tile t)).run = .running) (h5 : l ≠ 5) (epc : Word) :
    takeInterrupt s (.tile t) l epc =
      entryTo s t l { code := 0x80 + l, async := true } epc (entryFrame (s.core (.tile t))) off := by
  have ht : (s.setTile t.val (s.tile t.val)).tile t.val = s.tile t.val := by rw [State.tile_setTile, if_pos rfl]
  have hc : (s.setTile t.val (s.tile t.val)).core (.tile t) = s.core (.tile t) := congrArg Tile.core ht
  simp only [takeInterrupt, State.updCore, hr, h5, if_false, decide_false, Bool.false_and, Bool.false_eq_true]
  show enterLevel (s.setTile t.val (s.tile t.val)) (.tile t) l _ epc = _
  rw [enterLevel_scratch (frameIn_rewritten h), entryTo_rewritten, hc]
  rfl

theorem exec_interrupt (hr : (s.core (.tile t)).run = .running) (hc : coreReady s (.tile t) = true) (hq : Quiet s (.tile t))
    (hu : (s.taskq (t.val / 8)).parked.contains t.val = false) (hb : bestSource s (.tile t) = some l) :
    exec (.interrupt (.tile t)) s = .next (takeInterrupt s (.tile t) l (s.core (.tile t)).pc) := by
  have he : atEntry s (.tile t) = true := by simp only [atEntry, hr, hc]
  have hk : unpark s t.val = s := if_neg (by rw [clusterOf, hu]; exact Bool.false_ne_true)
  obtain ⟨hvq, hrun⟩ := hq
  show execInterrupt (.tile t) s = _
  simp only [execInterrupt, he, Bool.not_true, Bool.false_eq_true, if_false, hb, hk, completeRun, hrun, if_true, discardVec, hvq]
  rfl

end Entry

/-- Settles O12: entries by `enterLevel_scratch`, each instruction by what its issue does, `eret` by the frame it reads. -/
theorem trapsAndModes : Obligations.TrapsAndModes := by
  unfold Obligations.TrapsAndModes
  refine ⟨fun s t tr epc off h hb hm hl hc => takeFault_kernel h hb hm hl hc epc, fun c s s1 f => ?_,
    fun s t l off hr hc hq hu hb hp hm h6 hn h5 h => ?interrupt⟩
  case interrupt =>
    rw [exec_interrupt hr hc hq hu (bestSource_eq hb hp hm h6 hn), takeInterrupt_running h hr h5]
    rfl
  refine ⟨fun h hd h2 hf => exec_trap h hd h2 hf, fun h hf hl hm => exec_mset h hf hl hm, fun h hq hf hm => exec_mset_illegal h hq hf hm,
    fun h hq hd h1 h2 hf hl => exec_halt_task h hq (noFields_of_zero hd h1 h2 hf) hl,
    fun h hd h1 h2 hf hl hp ho => exec_halt h (noFields_of_zero hd h1 h2 hf) hl hp ho, ?eret⟩
  case eret =>
    rintro t off rfl h hd h1 h2 hf hl hb ha hal hs hr hq fw he
    have hfw : ∀ i < 16, fw i = frameWord (savedFrame s1 t off) i := fun i hi => (frameWord_savedFrame hi).symm
    have hfr : ReturnFrame s1 t off := ⟨hb, ha, hal, hs, hr, hq⟩
    simp only [hfw 0 (by decide), hfw 1 (by decide), hfw 2 (by decide), hfw 5 (by decide), hfw 10 (by decide)] at he ⊢
    refine ⟨_, exec_eret h (noFields_of_zero hd h1 h2 hf) hl hfr he, ?_⟩
    obtain ⟨hepc, hecause, headdr⟩ := returned_saved (s1.core (.tile t)) (savedFrame s1 t off)
    rw [State.tile_updTile, if_pos rfl, State.core_updTile]
    refine ⟨?vstart, rfl, rfl, rfl, rfl, rfl, rfl, ?_, fun r hr => ?_, fun i hi => ?_, hepc, hecause, headdr, rfl,
      fun d hd => State.core_updTile_ne hd _ _, fun n => ?l1⟩
    case vstart => simp only [returnedTile, wfld, fld, pow_zero, Nat.div_one]
    · exact (returned_reg _ _ 31).trans (if_pos rfl)
    · exact (returned_reg _ _ r).trans (if_neg hr)
    · rw [hfw (6 + i) (by omega)]
      exact returned_lc _ _ hi
    case l1 =>
      rw [State.tile_updTile]
      split
      · next hn => rw [hn, returnedTile]
      · rfl

end Sys2Proof.Machine
end

section
/-! SUPPORT. The L1 as its own commands reach it, and the proof of O25. -/

namespace Sys2Proof.Machine

open Sys2Proof

variable {s : State} {t : TileId}

/-! ### TILE_L1CFG (R325, R326) -/

/-- An inbox keeps scratch that a split of `n` ways would take. -/
def inboxKeeps (s : State) (t n : Nat) : Prop := ∃ i < 16, inboxHolds (s.inbox t i) (32768 * n) = true

theorem inboxHolds_any_iff {n k : Nat} :
    (decide (n < k) && (List.range 16).any fun i => inboxHolds (s.inbox t.val i) (32768 * n)) = true ↔
      n < k ∧ inboxKeeps s t.val n := by
  simp only [Bool.and_eq_true, decide_eq_true_eq, List.any_eq_true, List.mem_range, inboxKeeps]

section Config

variable {v : Word}

theorem l1cfgWrite_reserved (h : wfld v 0 4 = 15) : l1cfgWrite s t.val v = s := if_pos h

theorem l1cfgWrite_kept (h : wfld v 0 4 ≠ 15) (hk : wfld v 0 4 < (s.tile t.val).l1.sways ∧ inboxKeeps s t.val (wfld v 0 4)) :
    l1cfgWrite s t.val v = s.updL1 t.val fun x => { x with ibx := true } := by
  unfold l1cfgWrite
  rw [if_neg h]
  exact if_pos (inboxHolds_any_iff.2 hk)

theorem l1cfgWrite_taken (h : wfld v 0 4 ≠ 15) (hk : ¬(wfld v 0 4 < (s.tile t.val).l1.sways ∧ inboxKeeps s t.val (wfld v 0 4))) :
    l1cfgWrite s t.val v = s.updL1 t.val fun x => { x with
      stren := v.getLsbD 7, pfen := v.getLsbD 6, det := if v.getLsbD 7 then x.det else {}
      change := if wfld v 0 4 = (s.tile t.val).l1.sways then none else some (wfld v 0 4)
      changeBy := if wfld v 0 4 = (s.tile t.val).l1.sways then none else some (.tile t) } := by
  unfold l1cfgWrite
  rw [if_neg h]
  refine (if_neg (mt inboxHolds_any_iff.1 hk)).trans ?_
  rw [show Fin.ofNat 256 t.val = t from Fin.ofNat_val_eq_self t]
  rfl

end Config

/-! ### The change of the split (R326) -/

/-- The ways that a split of `n` ways takes from the cache of a split of `old`. -/
def wayTaken (n old : Nat) (p : Nat × L1Line) : Bool := decide (16 - n ≤ p.1 % 16) && decide (p.1 % 16 < 16 - old)

/-- The Gallery writes that were held back are performed. -/
def heldPerformed (t : Nat) (u : State) : State :=
  (u.tile t).l1.held.foldl (releaseHeld t) (u.updL1 t fun y => { y with held := [] })

/-- With nothing handed over, what was handed over is performed as a rewrite of the tile alone. -/
theorem performHanded_none (h : (s.tile t.val).mtx.handed = []) : performHanded s t.val = s.updTile t.val id := by
  have hx : { s.tile t.val with mtx := { (s.tile t.val).mtx with handed := [] } } = s.tile t.val := by rw [← h]
  simp only [performHanded, h, List.foldl_nil, State.updTile, id, hx]

/-- A tile written with what it held takes a change of its L1 alike. -/
theorem updL1_rewritten (s : State) (t : Nat) (f : L1 → L1) : (s.updTile t id).updL1 t f = s.updL1 t f :=
  State.updTile_updTile s t id _

theorem exec_waySplitChange_none (h : (s.tile t.val).l1.change = none) : exec (.waySplitChange t) s = .next s := by
  show execWaySplitChange t s = _
  rw [execWaySplitChange, h]

theorem exec_waySplitChange_waits (h : splitFree (s.tile t.val) = false) : exec (.waySplitChange t) s = .next s := by
  show execWaySplitChange t s = _
  rw [execWaySplitChange, h, Bool.and_false]
  split <;> rfl

section Split

variable {n : Nat} (hp : s.power = .run) (hc : (s.tile t.val).l1.change = some n) (hf : splitFree (s.tile t.val) = true)
include hp hc hf

theorem exec_waySplitChange_runs : exec (.waySplitChange t) s = .next (splitChange s t.val n) := by
  show execWaySplitChange t s = _
  simp only [execWaySplitChange, hc, hp, hf, decide_true, Bool.and_self, if_true]

variable (hh : (s.tile t.val).mtx.handed = [])
include hh

theorem exec_waySplitChange_smaller (hn : n ≤ (s.tile t.val).l1.sways) :
    exec (.waySplitChange t) s = .next (heldPerformed t.val (s.updL1 t.val fun x => { x with
      scratch := x.scratch.filter fun p => decide (p.1 < 32768 * n)
      bad := x.bad.filter fun b => decide (b < 32768 * n), sways := n, change := none, changeBy := none })) := by
  have hw : ¬ ((s.updTile t.val id).tile t.val).l1.sways < n := by
    rw [State.tile_updTile, if_pos rfl]
    exact Nat.not_lt.2 hn
  rw [exec_waySplitChange_runs hp hc hf, splitChange, performHanded_none hh]
  simp only [if_neg hw, shrinkScratch, updL1_rewritten]
  rfl

theorem exec_waySplitChange_larger (hi : s.updTile t.val id = s) (hn : (s.tile t.val).l1.sways < n) :
    exec (.waySplitChange t) s = .next (heldPerformed t.val (
      (((s.tile t.val).l1.lines.filter (wayTaken n (s.tile t.val).l1.sways)).foldl (fun s p => victimWrite s t.val p.2) s).updL1 t.val
        fun y => { y with lines := y.lines.filter fun p => !wayTaken n (s.tile t.val).l1.sways p, sways := n, change := none,
                          changeBy := none })) := by
  rw [exec_waySplitChange_runs hp hc hf, splitChange, performHanded_none hh, hi]
  simp only [if_pos hn]
  rfl

end Split

/-! ### Fills (R329, R332, R337) -/

/-- Whether a read of a line fails is what the line's state says. -/
theorem lineRead_snd (s : State) (l : Nat) (bg : Bool) : (lineRead s l bg).2 = lineFail s l := by
  unfold lineRead
  cases he : lineErr s l with
  | some e => simp only [lineFail, he]
  | none =>
    cases hp : place s (l * 128) with
    | none => simp only [lineFail, he, hp]
    | some p =>
      cases hf : lineFail s l with
      | some e => rfl
      | none => rfl

theorem exec_lineFill_none {mr : Fin 128} (h : afind (s.tile t.val).l1.miss mr.val = none) (err : LineErr) :
    exec (.lineFill t mr err) s = .next s := by
  show execLineFill t mr err s = _
  rw [execLineFill, h]

section Fill

variable {mr : Fin 128} {m : MissReg}

/-- The line in flight has left its miss register, and what struck it meanwhile has struck it. -/
def lineBack (s : State) (t : TileId) (mr : Nat) (l : Nat) (err : LineErr) : State :=
  strikeLine (s.updL1 t.val fun x => { x with miss := adel x.miss mr }) l err

theorem exec_lineFill (hp : s.power = .run) (h : afind (s.tile t.val).l1.miss mr.val = some m) (err : LineErr) :
    exec (.lineFill t mr err) s = .next (fillReturn (lineBack s t mr.val m.line err) t.val m) := by
  show execLineFill t mr err s = _
  rw [execLineFill, h]
  exact congrArg _ (if_neg (not_not_intro hp))

variable {u : State}

theorem fillReturn_held (h : l1Find (u.tile t.val).l1 m.line ≠ none) : fillReturn u t.val m = u :=
  if_pos (Option.isSome_iff_ne_none.2 h)

variable (hn : l1Find (u.tile t.val).l1 m.line = none)
include hn

theorem fillReturn_uncorr {k : Nat} (hf : lineFail u m.line = some (.uncorr k)) :
    fillReturn u t.val m = contError (lineRead u m.line false).1 (srcTile t.val) 0x03 (m.line * 128) := by
  have hr : lineRead u m.line false = ((lineRead u m.line false).1, some (.uncorr k)) :=
    Prod.ext rfl ((lineRead_snd u m.line false).trans hf)
  simp only [fillReturn, hn, Option.isSome_none, Bool.false_eq_true, if_false]
  rw [hr]

theorem fillReturn_installs (hf : lineFail u m.line = none) :
    fillReturn u t.val m = l1Install (lineRead u m.line false).1 t.val
      { line := m.line, dirty := false, data := lineOfBytes (readBytes (lineRead u m.line false).1.mem (m.line * 128) 128), use := 0,
        pf := some m.key } := by
  have hr : lineRead u m.line false = ((lineRead u m.line false).1, none) := Prod.ext rfl ((lineRead_snd u m.line false).trans hf)
  simp only [fillReturn, hn, Option.isSome_none, Bool.false_eq_true, if_false]
  rw [hr]

end Fill

/-! ### Prefetches (R336, R337) -/

/-- The lowest free miss register. -/
theorem freeMiss_eq {x : L1} {i : Nat} (hi : i < 128) (hf : ahas x.miss i = false) (hb : ∀ j < i, ahas x.miss j = true) :
    freeMiss x = some i := by
  simp only [freeMiss, List.find?_range_eq_some, hf, Bool.not_false, List.mem_range, hi, Bool.not_not, true_and]
  exact hb

section Prefetch

variable {st : Fin 16} {p : PfStream} (hp : s.power = .run) (ho : (s.tile t.val).oos = false)
include hp ho

theorem exec_prefetch : exec (.prefetch t st) s = .next (prefetchRun s t.val st.val) := by
  show execPrefetch t st s = _
  simp only [execPrefetch, hp, ho, decide_true, Bool.not_false, Bool.and_self, if_true]

omit hp ho in
theorem prefetchRun_none (h : afind (s.tile t.val).l1.streams st.val = none) : prefetchRun s t.val st.val = s := by
  simp only [prefetchRun, h]

omit hp ho
variable (h : afind (s.tile t.val).l1.streams st.val = some p)
include h

theorem prefetchRun_idle (hi : (s.tile t.val).l1.pfen = false ∨ p.confirmed = false ∨ p.depth ≤ p.ahead ∨
    112 < (s.tile t.val).l1.miss.length) : prefetchRun s t.val st.val = s := by
  have hc : (!(s.tile t.val).l1.pfen || !p.confirmed || decide (p.depth ≤ p.ahead) ||
      decide (112 < (s.tile t.val).l1.miss.length)) = true := by
    obtain hi | hi | hi | hi := hi <;> simp [hi]
  simp only [prefetchRun, h, hc, if_true]

/-- The stream has fetched one line more. -/
def streamAhead (s : State) (t : TileId) (st : Nat) (p : PfStream) : State :=
  s.updL1 t.val fun x => { x with streams := aput x.streams st { p with ahead := p.ahead + 1 } }

theorem prefetchRun_fetches {i : Nat} (he : (s.tile t.val).l1.pfen = true) (hc : p.confirmed = true) (hd : p.ahead < p.depth)
    (hl : (s.tile t.val).l1.miss.length ≤ 112) (ha : pfAllowed (streamAhead s t st.val p) t.val (pfNext p) = true)
    (hn : l1Find (s.tile t.val).l1 (pfNext p).toNat = none) (hm : ∀ m ∈ (s.tile t.val).l1.miss, m.2.line ≠ (pfNext p).toNat)
    (hi : freeMiss (s.tile t.val).l1 = some i) :
    prefetchRun s t.val st.val =
      (streamAhead s t st.val p).updL1 t.val fun x => { x with miss := aput x.miss i ⟨(pfNext p).toNat, p.key⟩ } := by
  have hgo : (!(s.tile t.val).l1.pfen || !p.confirmed || decide (p.depth ≤ p.ahead) ||
      decide (112 < (s.tile t.val).l1.miss.length)) = false := by
    simp [he, hc, hd, hl]
  have hfly : ((s.tile t.val).l1.miss.any fun m => decide (m.2.line = (pfNext p).toNat)) = false := by simpa using hm
  rw [streamAhead] at ha ⊢
  simp only [prefetchRun, h, hgo, Bool.false_eq_true, if_false, ha, hn, hfly, hi, Bool.not_true, Option.isSome_none, Bool.or_self]

end Prefetch

/-! ### Late store errors (R145, R146, R332) -/

theorem l1Find_empty {x : L1} (h : x.lines = []) (l : Nat) : l1Find x l = none := by
  simp only [l1Find, h, afind, List.findSome?_eq_none_iff, implies_true]

section Late

variable {c : CoreId}

theorem exec_lateStore_no_line (h : (s.tile t.val).l1.lines = []) (l : Nat) : exec (.lateStore (.tile t) (some l)) s = .next s := by
  show execLateStore (.tile t) (some l) s = _
  simp only [execLateStore, l1Find_empty h, ite_self]

/-- The core before its late store error is raised. -/
def lateCleared (s : State) (c : CoreId) : State := s.updCore c fun k => { k with ipLst := false }

theorem exec_lateStore_buffer (hp : s.power = .run) :
    exec (.lateStore c none) s = .next ((lateDrain (s.core c).sbuf.length (lateCleared s c) c).getD s) := by
  show execLateStore c none s = _
  simp only [execLateStore, hp, ne_eq, not_true_eq_false, if_false]
  rfl

theorem exec_lateStore_empty (hp : s.power = .run) (h : (s.core c).sbuf = []) : exec (.lateStore c none) s = .next s := by
  rw [exec_lateStore_buffer hp, h]
  rfl

/-- The oldest write fails at its target. -/
theorem exec_lateStore_oldest (hp : s.power = .run) (hf : ((drainOne faddF32 (lateCleared s c) c).core c).ipLst = true)
    (h : (s.core c).sbuf ≠ []) : exec (.lateStore c none) s = .next (drainOne faddF32 (lateCleared s c) c) := by
  obtain ⟨n, hn⟩ := Nat.exists_eq_succ_of_ne_zero (mt List.length_eq_zero_iff.1 h)
  rw [exec_lateStore_buffer hp, hn]
  simp only [lateDrain, hf, if_true, Option.getD_some]

/-- A recorded error is pending. -/
theorem recordLate_pending (s : State) (c : CoreId) (a : Word) (kind : BitVec 8) : ((recordLate s c a kind).core c).ipLst = true := by
  rw [recordLate, State.core_updCore]
  split <;> rfl

@[simp] theorem isRemote_updCore (s : State) (c : CoreId) (f : Core → Core) (a : Word) : isRemote (s.updCore c f) a = isRemote s a := by
  simp only [isRemote, localAddr, State.updCore_gid]

/-- A misaligned store to another module fails when it leaves the buffer (R323). -/
theorem drainOne_misaligned {e : BufEntry} {es : List BufEntry} (h : (s.core (.tile t)).sbuf = e :: es)
    (hr : isRemote s e.addr = true) (hk : e.kind = .misaligned) :
    drainOne faddF32 (lateCleared s (.tile t)) (.tile t) =
      recordLate (s.updCore (.tile t) fun k => { k with ipLst := false, sbuf := es }) (.tile t) e.addr (lateKind .bus) := by
  simp only [drainOne, lateCleared, State.core_updCore, h, isRemote_updCore, hr, if_true, hk, decide_true, Bool.true_or,
    State.updCore_updCore]

end Late

theorem exec_tileL1cfg (hp : s.power = .run) (ho : (s.tile t.val).oos = false) (v : Word) :
    exec (.tileL1cfg t v false) s = .next (l1cfgWrite s t.val v) :=
  congrArg _ (tileOn_run hp ho _)

/-- Settles O25, command by command: each clause is one of the lemmas above. -/
theorem l1AndWaySplit : Obligations.L1AndWaySplit := by
  unfold Obligations.L1AndWaySplit
  intro s t hp ho x gone
  refine ⟨fun v => ⟨rfl, ?_⟩, exec_waySplitChange_none, fun n hc => ⟨exec_waySplitChange_waits,
      fun hf hh hn => exec_waySplitChange_smaller hp hc hf hh hn, fun hf hh hi hn => exec_waySplitChange_larger hp hc hf hh hi hn⟩,
    fun mr err => ⟨fun h => exec_lineFill_none h err, fun m h => ?fill⟩, fun st => ⟨fun h => ?stray, fun p h => ?stream⟩,
    exec_lateStore_no_line, exec_lateStore_empty hp, exec_lateStore_oldest hp, fun e es h hr hk => ?late⟩
  · rw [exec_tileL1cfg hp ho]
    exact ⟨fun h => congrArg _ (l1cfgWrite_reserved h), fun h hk => congrArg _ (l1cfgWrite_kept h hk),
      fun h hk => congrArg _ (l1cfgWrite_taken h hk)⟩
  case fill =>
    rw [exec_lineFill hp h]
    exact ⟨fun hl => congrArg _ (fillReturn_held hl), fun k hn hf => congrArg _ (fillReturn_uncorr hn hf),
      fun hn hf => congrArg _ (fillReturn_installs hn hf)⟩
  case stray => rw [exec_prefetch hp ho, prefetchRun_none h]
  case stream =>
    rw [exec_prefetch hp ho]
    exact ⟨fun hi => congrArg _ (prefetchRun_idle h hi), fun i he hc hd hl ha hn hm hi hf hb =>
      congrArg _ (prefetchRun_fetches h he hc hd hl ha hn hm (freeMiss_eq hi hf hb))⟩
  case late =>
    have hd := drainOne_misaligned h hr hk
    have hf : ((drainOne faddF32 (lateCleared s (.tile t)) (.tile t)).core (.tile t)).ipLst = true := by
      rw [hd]
      exact recordLate_pending _ _ _ _
    exact ⟨_, exec_lateStore_oldest hp hf (by rw [h]; exact List.cons_ne_nil _ _), hf, hd⟩

end Sys2Proof.Machine
end

section
/-! SUPPORT. Fences, cache instructions, atomics and `waitq`, and the proof of O26. -/

namespace Sys2Proof.Machine

open Sys2Proof

/-- An instruction that stays at issue. -/
theorem issue_stays {s s1 s2 : State} {c : CoreId} {rs : List Reg} {len occ : Nat} {body : State → Effect}
    (h : Ready s c rs len s1) (hb : body s1 = .ok { st := s2, flow := .stay, occ := occ }) :
    issue c rs len true body s = addSteps s2 c occ := by
  rw [issue_ready h]
  simp only [hb, Bool.not_true, Bool.false_eq_true, if_false]

/-- A local address is not another module's. -/
theorem isRemote_of_local {s : State} {a : Word} {l : Nat} (h : localAddr s a = some l) : isRemote s a = false := by
  simp only [isRemote, h, Option.isNone_some, Bool.and_false]

/-! ### The new value of an atomic (R342) -/

section Value

variable {fadd : Nat → Nat → Nat} {n old src cmp : Nat}

theorem amoNew_min (hs : src < 2 ^ (8 * n)) :
    toInt (8 * n) (amoNew fadd .min n old src cmp) = min (toInt (8 * n) old) (toInt (8 * n) src) := by
  simp only [amoNew, Nat.mod_eq_of_lt hs]
  split
  · next h => exact (min_eq_right h.le).symm
  · next h => exact (min_eq_left (not_lt.1 h)).symm

theorem amoNew_max (hs : src < 2 ^ (8 * n)) :
    toInt (8 * n) (amoNew fadd .max n old src cmp) = max (toInt (8 * n) old) (toInt (8 * n) src) := by
  simp only [amoNew, Nat.mod_eq_of_lt hs]
  split
  · next h => exact (max_eq_right h.le).symm
  · next h => exact (max_eq_left (not_lt.1 h)).symm

/-- On the tile's own scratch, the new value replaces the old one, which is given. -/
theorem amoAt_scratch {s : State} {t : TileId} {off : Nat} (h : off + n ≤ min 0x80000 (scratchBytes s t.val))
    (hb : ∀ b ∈ (s.tile t.val).l1.bad, ¬(off ≤ b ∧ b < off + n)) (op : AmoOp) :
    amoAt fadd s (.tile t) (0xFC00000000 + off) n op src cmp =
      (scratchWrite s t.val off (toBytes n (amoNew fadd op n (ofBytes (readBytes (s.tile t.val).l1.scratch off n)) src cmp)),
        .ok (ofBytes (readBytes (s.tile t.val).l1.scratch off n))) := by
  unfold amoAt
  rw [target_scratch rfl h]
  simp only [scratchRead_ok hb]

end Value

section Instructions

variable {c : CoreId} {s s1 : State} {f : LR}

/-! ### Fences (R345, R368) -/

section Fence

variable (h : Ready s c [] 4 s1) (h0 : noFields f = true)
include h h0

theorem fenceRun_completes (hr : ((drainWait s1 c).core c).remote = []) :
    fenceRun c f s = completed s1 c 4 2 fun s => drainWait s c := by
  rw [fenceRun, h0]
  exact issue_completed (g := fun s => drainWait s c) h (if_pos hr)

theorem fenceRun_waits (hr : ((drainWait s1 c).core c).remote ≠ []) :
    fenceRun c f s = addSteps (addStall (drainWait s1 c) c) c 0 := by
  rw [fenceRun, h0]
  exact issue_stays h (if_neg hr)

end Fence

/-! ### `dcz` (R340) -/

section Dcz

variable (h : Ready s c [f.rs1] 4 s1) (h0 : (f.rd = 0 && f.rs2 = 0 && !f.f) = true)
include h h0

theorem execDcz_enters {x : Nat} (hp : permitted s1 c (lineStart (s1.reg c f.rs1)) 128 rightW = true)
    (hl : localAddr s1 (lineStart (s1.reg c f.rs1)) = some x) :
    execDcz c f s = .next (completed s1 c 4 1 fun s =>
      bufferWrite faddF32 (bufferStall s c) c ⟨BitVec.ofNat 64 (canonAddr c x), zeroLine, .dcz⟩) := by
  rw [execDcz, h0]
  refine congrArg _ (issue_completed (g := fun s => bufferWrite faddF32 (bufferStall s c) c _) h ?_)
  simp only [hp, isRemote_of_local hl, hl, Bool.not_true, Bool.false_eq_true, if_false]
  rfl

theorem execDcz_denied (hq : Quiet s1 c) (hp : permitted s1 c (lineStart (s1.reg c f.rs1)) 128 rightW = false) :
    execDcz c f s = .next (faulted s1 c { code := cStoreWin, addr := lineStart (s1.reg c f.rs1) }) := by
  rw [execDcz, h0]
  refine congrArg _ (issue_fault h hq ?_)
  simp only [hp, Bool.not_false, if_true]

theorem execDcz_remote (hq : Quiet s1 c) (hp : permitted s1 c (lineStart (s1.reg c f.rs1)) 128 rightW = true)
    (hr : isRemote s1 (lineStart (s1.reg c f.rs1)) = true) :
    execDcz c f s = .next (faulted s1 c { code := cLoadBus, addr := s1.reg c f.rs1 }) := by
  rw [execDcz, h0]
  refine congrArg _ (issue_fault h hq ?_)
  simp only [hp, hr, Bool.not_true, Bool.false_eq_true, if_false, if_true]

end Dcz

/-! ### `dcwb` and `dcinv` (R341) -/

/-- The bytes of the range: one, when rs2 is s0. -/
def dcBytes (s : State) (c : CoreId) (f : LR) : Nat := if f.rs2 = 0 then 1 else (s.reg c f.rs2).toNat

/-- The lines of the range. -/
def dcLines (s : State) (c : CoreId) (f : LR) : List Word := rangeLines (s.reg c f.rs1) (dcBytes s c f)

/-- What is done to one line: it is written back, and with `inval` invalidated. -/
def lineAct (inval : Bool) (c : CoreId) (s : State) (l : Nat) : State :=
  match c with
  | .tile t => if inval then l1Flush s t.val l else l1WriteBack s t.val l
  | .svc v => if inval then dcDrop s v.val l else s

/-- Older writes are performed, dirty lines take stall steps, and each cacheable line is acted on. -/
def linesActed (inval : Bool) (c : CoreId) (ls : List Word) (s : State) : State :=
  ls.foldl (fun s x => match cacheLine s x with | some l => lineAct inval c s l | none => s)
    (let u := drainWait s c; if dirtyIn u c ls then addStall u c else u)

section Range

variable {inval : Bool} (h : Ready s c [f.rs1, f.rs2] 4 s1) (h0 : (f.rd = 0 && !f.f) = true)
include h h0

theorem dcRange_long (hq : Quiet s1 c) (hn : 65536 < dcBytes s1 c f) :
    dcRange inval c f s = faulted s1 c { code := cIllegal } := by
  rw [dcRange, h0]
  exact issue_fault h hq (if_pos hn)

variable (hn : dcBytes s1 c f ≤ 65536)
include hn

theorem dcRange_denied (hq : Quiet s1 c) {x : Word}
    (hx : (dcLines s1 c f).find? (fun x => !permitted s1 c x 128 rightR) = some x) :
    dcRange inval c f s = faulted s1 c { code := cLoadWin, addr := x } := by
  rw [dcRange, h0]
  refine issue_fault h hq ((if_neg (Nat.not_lt.2 hn)).trans ?_)
  rw [dcLines, dcBytes] at hx
  simp only [hx]

variable (hp : ∀ x ∈ dcLines s1 c f, permitted s1 c x 128 rightR = true)
include hp

omit h h0 hn in
theorem find?_denied_none : (dcLines s1 c f).find? (fun x => !permitted s1 c x 128 rightR) = none := by
  rw [List.find?_eq_none]
  intro x hx
  rw [hp x hx]
  exact Bool.false_ne_true

theorem dcRange_elsewhere (hq : Quiet s1 c) (h1 : dcBytes s1 c f ≠ 0) (hl : localAddr s1 (s1.reg c f.rs1) = none) :
    dcRange inval c f s = faulted s1 c { code := cLoadBus, addr := s1.reg c f.rs1 } := by
  have hx := find?_denied_none hp
  rw [dcRange, h0]
  refine issue_fault h hq ((if_neg (Nat.not_lt.2 hn)).trans ?_)
  rw [dcLines] at hx
  rw [dcBytes] at hx h1
  simp only [hx, h1, hl, ne_eq, not_false_eq_true, decide_true, Option.isNone_none, Bool.and_self, if_true]

theorem dcRange_acts (hl : dcBytes s1 c f ≠ 0 → (localAddr s1 (s1.reg c f.rs1)).isSome = true) :
    dcRange inval c f s = completed s1 c 4 (2 + (dcLines s1 c f).length) (linesActed inval c (dcLines s1 c f)) := by
  have hx := find?_denied_none hp
  have hgo : (decide (dcBytes s1 c f ≠ 0) && (localAddr s1 (s1.reg c f.rs1)).isNone) = false := by
    by_cases h1 : dcBytes s1 c f = 0
    · simp [h1]
    · rw [← Option.not_isSome, hl h1, Bool.not_true, Bool.and_false]
  rw [dcRange, h0]
  refine issue_completed h ((if_neg (Nat.not_lt.2 hn)).trans ?_)
  rw [dcLines] at hx ⊢
  rw [dcBytes] at hx hgo ⊢
  simp only [hx, hgo, Bool.false_eq_true, if_false]
  rfl

end Range

/-! ### Atomics (R342, R343) -/

section Atomic

variable {op : AmoOp} {n : Nat} {sext : Bool} (h : Ready s c [f.rs1, f.rs2, f.rd] 4 s1) (h0 : f.f = false)
include h h0

theorem amoRun_denied (hq : Quiet s1 c) {x : Word}
    (hx : firstDenied (fun x m => permitted s1 c x m rightRW) (s1.reg c f.rs1) n = some x) :
    amoRun op c n sext f s = faulted s1 c { code := cStoreWin, addr := x } := by
  rw [amoRun, h0]
  refine issue_fault h hq ?_
  simp only [hx, Bool.not_false, if_true]

variable (hx : firstDenied (fun x m => permitted s1 c x m rightRW) (s1.reg c f.rs1) n = none)
include hx

theorem amoRun_misaligned (hq : Quiet s1 c) (ha : (s1.reg c f.rs1).toNat % n ≠ 0) :
    amoRun op c n sext f s = faulted s1 c { code := cLoadBus, sub := 1, addr := s1.reg c f.rs1 } := by
  rw [amoRun, h0]
  refine issue_fault h hq ?_
  simp only [hx, ha, Bool.not_false, if_true, ne_eq, not_false_eq_true]

variable {l : Nat} (ha : (s1.reg c f.rs1).toNat % n = 0) (hl : localAddr s1 (s1.reg c f.rs1) = some l)
include ha hl

theorem amoRun_register (hq : Quiet s1 c) (hr : isReg s1 c l n = true) :
    amoRun op c n sext f s = faulted s1 c { code := cLoadBus, sub := 2, addr := s1.reg c f.rs1 } := by
  rw [amoRun, h0]
  refine issue_fault h hq ?_
  simp only [hx, ha, hl, hr, Bool.not_false, if_true, ne_eq, not_true_eq_false, if_false]

variable (hr : isReg s1 c l n = false)
include hr

/-- Without a destination it is posted. -/
theorem amoRun_posted (hd : f.rd = 0) (ho : op ≠ .cas) :
    amoRun op c n sext f s = completed s1 c 4 1 fun s =>
      bufferWrite faddF32 (bufferStall s c) c ⟨BitVec.ofNat 64 (canonAddr c l), [], .amo op (n = 8) (s1.reg c f.rs2)⟩ := by
  rw [amoRun, h0]
  refine issue_completed (g := fun s => bufferWrite faddF32 (bufferStall s c) c _) h ?_
  simp only [hx, ha, hl, hr, hd, ho, ne_eq, not_true_eq_false, not_false_eq_true, if_false, Bool.false_eq_true, decide_true,
    Bool.and_self, if_true]
  rfl

theorem amoRun_result {s3 : State} {old : Nat} (hd : f.rd ≠ 0 ∨ op = .cas)
    (hm : amoAt faddF32 (drainWait s1 c) c l n op (s1.reg c f.rs2).toNat (s1.reg c f.rd).toNat = (s3, .ok old)) :
    amoRun op c n sext f s =
      finished (loadOwe (s3.setReg c f.rd (extend sext (toBytes n old))) c f.rd false) c (s1.core c).pc 4 1 := by
  have hgo : ¬ (decide (f.rd = 0) && decide (op ≠ .cas)) = true := by
    rw [Bool.and_eq_true, decide_eq_true_eq, decide_eq_true_eq]
    exact fun ⟨h1, h2⟩ => hd.elim (· h1) (h2 ·)
  rw [amoRun, h0]
  refine issue_finished h ?_
  simp only [hx, ha, hl, hr, ne_eq, not_true_eq_false, if_false, Bool.false_eq_true]
  rw [if_neg hgo, hm]
  rfl

end Atomic

end Instructions

/-! ### `waitq` (R539, R540) -/

/-- What a parked tile waits for, as the operands of its `waitq` give it. -/
def waitFor (k : Core) (f : LR) (timer : Option Nat) : Park :=
  let a := k.reg f.rs1
  { rd := f.rd, sel := a.extractLsb' 0 16, tq := a.getLsbD 16, off := (a.toNat / 2 ^ 32) % 2 ^ 20, timer := timer }

/-- A tile parks; one that waits on the task queue enters its order. -/
def parkTile (t : TileId) (p : Park) (s : State) : State :=
  let s := if p.tq then s.updTaskq (clusterOf t.val) fun q => { q with parked := q.parked ++ [t.val] } else s
  feSettle (firstWaitq (s.updCore (.tile t) fun k => { k with run := .parked p }) t.val)

section Waitq

variable {t : TileId} {s : State} {f : LR}

/-- The operands are as R539 asks. -/
structure WaitFields (k : Core) (f : LR) : Prop where
  low : wfld (k.reg f.rs1) 17 15 = 0
  high : wfld (k.reg f.rs1) 52 12 = 0
  limit : wfld (k.reg f.rs2) 32 32 = 0

/-- The wait is satisfied as it issues. -/
def waitMet (s : State) (t : TileId) (f : LR) : Bool :=
  let p := waitFor (s.core (.tile t)) f none
  waitDone s t.val p.sel p.tq

/-- The 32 bytes for an entry of the task queue lie outside the scratch. -/
def waitOutside (s : State) (t : TileId) (f : LR) : Bool :=
  let p := waitFor (s.core (.tile t)) f none
  p.tq && decide (scratchBytes s t.val < p.off + 32)

/-- Past the checks of its operands, a wait is decided by whether it is satisfied, its limit and the free timer entries. -/
theorem waitqRun_fields (h : WaitFields (s.core (.tile t)) f) :
    waitqRun t f s =
      let c : CoreId := .tile t
      let b := (s.core c).reg f.rs2
      let p := waitFor (s.core c) f
      if !waitMet s t f && b ≠ 0 && (t0free (s.core c)).isNone then .error { code := cTimerBusy }
      else if waitOutside s t f then .error { code := cStoreWin, addr := BitVec.ofNat 64 (0xFC00000000 + (p none).off) }
      else if waitMet s t f then
        let r := waitResult s t.val (p none).sel (p none).tq (p none).off false
        doneOcc (feSettle (firstWaitq (r.1.setReg c f.rd r.2) t.val)) 12
      else if b = 0 then .ok { st := parkTile t (p none) s, flow := .stay, occ := 12 }
      else match t0free (s.core c) with
        | none => .error { code := cTimerBusy }
        | some i => .ok { st := parkTile t (p (some i)) (s.updCore c fun k => t0take k i true (s.mono + b.toNat * 1000)),
                          flow := .stay, occ := 12 } := by
  obtain ⟨h1, h2, h3⟩ := h
  have hz : ¬ (decide (wfld ((s.core (.tile t)).reg f.rs1) 17 15 ≠ 0) || decide (wfld ((s.core (.tile t)).reg f.rs1) 52 12 ≠ 0) ||
      decide (wfld ((s.core (.tile t)).reg f.rs2) 32 32 ≠ 0)) = true := by
    simp [h1, h2, h3]
  exact if_neg hz

theorem execWaitq_tile (hf : f.f = false) : execWaitq (.tile t) f s = .next (issue (.tile t) [f.rs1, f.rs2] 4 true (waitqRun t f) s) := by
  rw [execWaitq, hf]
  rfl

variable {s1 : State} (h : Ready s (.tile t) [f.rs1, f.rs2] 4 s1) (hf : f.f = false) (hw : WaitFields (s1.core (.tile t)) f)
include h hf hw

theorem execWaitq_busy (hq : Quiet s1 (.tile t)) (hm : waitMet s1 t f = false) (hb : (s1.core (.tile t)).reg f.rs2 ≠ 0)
    (hn : t0free (s1.core (.tile t)) = none) : execWaitq (.tile t) f s = .next (faulted s1 (.tile t) { code := cTimerBusy }) := by
  rw [execWaitq_tile hf]
  refine congrArg _ (issue_fault h hq ((waitqRun_fields hw).trans ?_))
  simp only [hm, hb, hn, Bool.not_false, ne_eq, not_false_eq_true, decide_true, Option.isNone_none, Bool.and_self, if_true]

theorem execWaitq_outside (hq : Quiet s1 (.tile t)) (ho : waitOutside s1 t f = true)
    (hfree : waitMet s1 t f = true ∨ (s1.core (.tile t)).reg f.rs2 = 0 ∨ t0free (s1.core (.tile t)) ≠ none) :
    execWaitq (.tile t) f s = .next (faulted s1 (.tile t)
      { code := cStoreWin, addr := BitVec.ofNat 64 (0xFC00000000 + (waitFor (s1.core (.tile t)) f none).off) }) := by
  have hb : (!waitMet s1 t f && decide ((s1.core (.tile t)).reg f.rs2 ≠ 0) && (t0free (s1.core (.tile t))).isNone) = false := by
    obtain hm | hb | hn := hfree
    · simp [hm]
    · simp [hb]
    · rw [Option.isNone_eq_false_iff.2 (Option.isSome_iff_ne_none.2 hn), Bool.and_false]
  rw [execWaitq_tile hf]
  refine congrArg _ (issue_fault h hq ((waitqRun_fields hw).trans ?_))
  simp only [hb, ho, Bool.false_eq_true, if_false, if_true]

variable (ho : waitOutside s1 t f = false)
include ho

theorem execWaitq_met (hm : waitMet s1 t f = true) :
    execWaitq (.tile t) f s = .next (completed s1 (.tile t) 4 12 fun s =>
      let p := waitFor (s1.core (.tile t)) f none
      let r := waitResult s t.val p.sel p.tq p.off false
      feSettle (firstWaitq (r.1.setReg (.tile t) f.rd r.2) t.val)) := by
  rw [execWaitq_tile hf]
  refine congrArg _ (issue_completed (g := fun s =>
    let p := waitFor (s1.core (.tile t)) f none
    let r := waitResult s t.val p.sel p.tq p.off false
    feSettle (firstWaitq (r.1.setReg (.tile t) f.rd r.2) t.val)) h ((waitqRun_fields hw).trans ?_))
  simp only [hm, ho, Bool.not_true, Bool.false_and, Bool.false_eq_true, if_false, if_true]
  rfl

theorem execWaitq_parks (hm : waitMet s1 t f = false) (hb : (s1.core (.tile t)).reg f.rs2 = 0) :
    execWaitq (.tile t) f s = .next (addSteps (parkTile t (waitFor (s1.core (.tile t)) f none) s1) (.tile t) 12) := by
  rw [execWaitq_tile hf]
  refine congrArg _ (issue_stays h ((waitqRun_fields hw).trans ?_))
  simp only [hm, hb, ho, ne_eq, not_true_eq_false, decide_false, Bool.and_false, Bool.false_and, Bool.false_eq_true, if_false, if_true]

theorem execWaitq_parks_limited {i : Nat} (hm : waitMet s1 t f = false) (hb : (s1.core (.tile t)).reg f.rs2 ≠ 0)
    (hi : t0free (s1.core (.tile t)) = some i) :
    execWaitq (.tile t) f s = .next (addSteps (parkTile t (waitFor (s1.core (.tile t)) f (some i))
      (s1.updCore (.tile t) fun k => t0take k i true (s1.mono + ((s1.core (.tile t)).reg f.rs2).toNat * 1000))) (.tile t) 12) := by
  rw [execWaitq_tile hf]
  refine congrArg _ (issue_stays h ((waitqRun_fields hw).trans ?_))
  simp only [hm, hb, ho, hi, Option.isNone_some, Bool.and_false, Bool.false_eq_true, if_false]

end Waitq

/-- Settles O26: each instruction by what its issue does, an atomic and a range by the checks that they pass. -/
theorem fencesAndAtomics : Obligations.FencesAndAtomics := by
  unfold Obligations.FencesAndAtomics
  refine ⟨fun n _ old ho src hs cmp hcmp fadd => ⟨rfl, Nat.mod_eq_of_lt hs, ?cas, ?fadd, amoNew_min hs, amoNew_max hs⟩,
    fun s v hp => congrArg _ (if_pos hp), fun c s s1 f => ⟨fun h h0 => ?fence, fun h hd h2 hf => ?dcz, fun h hd hf => ?range,
      fun d h hf => ?atomic, ?scratch, fun h hf => ?waitq⟩⟩
  case cas => simp only [amoNew, Nat.mod_eq_of_lt hs, Nat.mod_eq_of_lt hcmp]
  case fadd => simp only [amoNew, Nat.mod_eq_of_lt hs]
  case fence =>
    have hw : ∀ i ∈ [Instr.fence c f, .fenceW c f], exec i s = .next (fenceRun c f s) := by
      simp only [List.forall_mem_cons]
      exact ⟨rfl, rfl, List.forall_mem_nil _⟩
    intro i hi
    rw [hw i hi]
    exact ⟨fun hr => congrArg _ (fenceRun_completes h h0 hr), fun hr => congrArg _ (fenceRun_waits h h0 hr)⟩
  case dcz =>
    have h0 : (f.rd = 0 && f.rs2 = 0 && !f.f) = true := by simp [hd, h2, hf]
    exact ⟨fun x hp hl => execDcz_enters h h0 hp hl, fun hp hq => execDcz_denied h h0 hq hp,
      fun hp hr hq => execDcz_remote h h0 hq hp hr⟩
  case range =>
    have h0 : (f.rd = 0 && !f.f) = true := by simp [hd, hf]
    intro n ls act p hp
    have hw : exec p.2 s = .next (dcRange p.1 c f s) := by
      simp only [List.mem_cons, List.not_mem_nil, or_false] at hp
      obtain rfl | rfl := hp <;> rfl
    rw [hw]
    refine ⟨fun hn hx hl => ?_, fun hn hq => congrArg _ (dcRange_long h h0 hq hn),
      fun hn hx h1 hl hq => congrArg _ (dcRange_elsewhere h h0 hn hx hq h1 hl),
      fun x hn hx hq => congrArg _ (dcRange_denied h h0 hn hq hx)⟩
    exact congrArg _ (dcRange_acts h h0 hn hx hl)
  case atomic =>
    intro m p hp op n
    have hw : exec p.2.2.2 s = .next (amoRun op c n p.2.2.1 f s) := by
      simp only [List.mem_cons, List.not_mem_nil, or_false] at hp
      obtain rfl | rfl | rfl | rfl | rfl | rfl := hp <;> rfl
    rw [hw]
    exact ⟨fun hx => ⟨fun l ha hl hr => ⟨fun hd ho => congrArg _ (amoRun_posted h hf hx ha hl hr hd ho),
        fun s3 old hd hm => congrArg _ (amoRun_result h hf hx ha hl hr hd hm)⟩,
      fun ha hq => congrArg _ (amoRun_misaligned h hf hx hq ha),
      fun l ha hl hr hq => congrArg _ (amoRun_register h hf hx ha hl hq hr)⟩,
      fun x hx hq => congrArg _ (amoRun_denied h hf hq hx)⟩
  case scratch =>
    rintro t off n op u src cmp rfl hn hb
    exact amoAt_scratch hn hb op
  case waitq =>
    intro b sel tq off
    refine ⟨?svc, ?tile⟩
    case svc =>
      rintro v rfl rfl
      exact congrArg _ (issue_fault h trivial rfl)
    case tile =>
      rintro t rfl h1 h2 h3
      have hw : WaitFields (s1.core (.tile t)) f := ⟨h1, h2, h3⟩
      refine ⟨fun ht ho hfree hq => execWaitq_outside h hf hw hq ?_ hfree, fun hi => ?_⟩
      · exact (Bool.and_eq_true _ _).mpr ⟨ht, decide_eq_true ho⟩
      · have ho : waitOutside s1 t f = false := by
          refine Bool.and_eq_false_imp.2 fun ht => decide_eq_false ?_
          exact Nat.not_lt.2 (hi ht)
        exact ⟨execWaitq_met h hf hw ho, execWaitq_parks h hf hw ho, fun i => execWaitq_parks_limited h hf hw ho,
          fun hm hb hn hq => execWaitq_busy h hf hw hq hm hb hn⟩

end Sys2Proof.Machine
end

section
/-! SUPPORT. The checks of the vector instructions that compute on registers, and the proof of O16. -/

namespace Sys2Proof.Machine

open Sys2Proof

/-! ### The decode checks (R120, R204) -/

/-- No check finds a fault where each of them is met. -/
theorem VInfo.check_eq_none {i : VInfo} {c : VCfg} {vstart : Nat} (hl : i.legal = true) (hr : ∀ r ∈ i.regs, aligned c r.2 r.1)
    (hf : i.fmtOk = true) (hz : i.zeroStart = true → vstart = 0) (hw : i.wide = true → c.g < 8)
    (ha : i.apart = true → ∀ d ∈ i.regs.head?, ∀ r ∈ i.regs.tail, overlaps d.1 (c.g * d.2) r.1 (c.g * r.2) = false) :
    i.check c vstart = none := by
  have h1 : (i.regs.any fun r => decide (r.1.toNat % (c.g * r.2) ≠ 0)) = false :=
    List.any_eq_false.2 fun r h => by simpa [aligned] using hr r h
  have h2 : (i.wide && decide (c.g = 8)) = false := Bool.and_eq_false_imp.2 fun h => decide_eq_false (hw h).ne
  have h3 : (i.zeroStart && decide (vstart ≠ 0)) = false := Bool.and_eq_false_imp.2 fun h => decide_eq_false (not_not_intro (hz h))
  unfold VInfo.check
  simp only [hl, h1, h2, hf, h3, Bool.not_true, Bool.false_eq_true, if_false]
  refine if_neg fun h => ?_
  obtain ⟨hp, ho⟩ := (Bool.and_eq_true _ _).mp h
  have hs := ha hp
  cases he : i.regs with
  | nil => simp [he] at ho
  | cons d ss =>
    rw [he] at hs ho
    obtain ⟨r, hr, hov⟩ := List.any_eq_true.1 ho
    exact Bool.false_ne_true ((hs d rfl r hr).symm.trans hov)

/-- The groups of a destination and two sources, the second of which may be a scalar. -/
theorem regsB_aligned {c : VCfg} {f : VR} (hd : aligned c 1 f.vd) (h1 : aligned c 1 f.vs1) (h2 : f.s = false → aligned c 1 f.vs2) :
    ∀ r ∈ regsB f, aligned c r.2 r.1 := by
  unfold regsB
  cases hs : f.s <;> simp_all

variable {s s1 : State} {t : TileId} {x : VEntry} {v : Vec} {f : VR}

/-! ### An instruction that computes on registers -/

/-- The vector configuration of tile `t`. -/
abbrev cfgAt (s : State) (t : TileId) : VCfg := (s.tile t.val).vec.cfg

/-- The model runs the vector instruction `i` of tile `t` on registers: it reads the scalar register `r`, and has the checks `info`
and, dispatched in `s`, the effect `w`. -/
structure Computes (s : State) (t : TileId) (i : Instr) (r : Reg) (info : VCfg → VInfo) (w : VEntry → Vec → VOut) : Prop where
  exec_eq : ∀ u, exec i u = vcompute t i u
  reads : scalReg i = r
  checks : ∀ c, vinfo c i = some (info c)
  effect : ∀ scal v, vapply (vecEntry s t i scal) v = w (vecEntry s t i scal) v

/-- Such an instruction runs where its checks find no fault, and leaves what its effect gives. -/
theorem Computes.vruns {i : Instr} {r : Reg} {info : VCfg → VInfo} {w : VEntry → Vec → VOut} {P : VEntry → Vec → Vec → Prop}
    {res : VEntry → Vec → Option (Reg × Word)} (k : Computes s1 t i r info w)
    (hc : (info (cfgAt s1 t)).check (cfgAt s1 t) (s1.tile t.val).vec.vstart = none)
    (hP : ∀ v, let x := vecEntry s1 t i ((s1.core (.tile t)).reg r)
      P x v (w x v).1 ∧ (w x v).2 = res x v)
    (h : VReady s t [r] (stationWait t i) s1) : VRuns s s1 t i ((s1.core (.tile t)).reg r) P res := by
  obtain ⟨hx, rfl, hi, hv⟩ := k
  refine vruns_of h (hx s) (hi _) hc rfl fun v => ?_
  intro x
  rw [show vapply x v = w x v from hv ..]
  exact hP v

/-! ### O16 -/

/-- What an integer operation leaves in the active elements, by its value as an integer. -/
theorem vint_elements {op : Nat → Nat → Nat → Nat} {g : Nat → Nat → Int}
    (h : ∀ a b, a < 2 ^ x.cfg.bits → b < 2 ^ x.cfg.bits → op x.cfg.bits a b % 2 ^ x.cfg.bits = ofInt x.cfg.bits (g a b)) :
    Elements (x.actives v f.vm) v (vint x v f op) f.vd x.cfg.bytes fun i =>
      (ofInt x.cfg.bits (g (v.el f.vs1 x.cfg.bytes i) (opB x v f i)), {}) :=
  (vmap_elements x v f.vm f.vd _ _).congr fun i _ => by
    have hb : opB x v f i < 2 ^ x.cfg.bits := by
      unfold opB
      split
      · exact Nat.mod_lt _ (by positivity)
      · exact el_lt ..
    rw [h _ _ (el_lt ..) hb]
    exact ⟨rfl, rfl⟩

variable {w a b : Nat}

theorem ofInt_of_nat {y : Int} (h : y = (a : Nat)) : a % 2 ^ w = ofInt w y := by rw [h, ofInt_nat]

theorem ofInt_sub (hb : b < 2 ^ w) : (a + 2 ^ w - b) % 2 ^ w = ofInt w (a - b) := by
  have h : ((a + 2 ^ w - b : Nat) : Int) = (a - b : Int) + (2 ^ w : Nat) := by omega
  rw [← ofInt_nat, h]
  unfold ofInt
  rw [Int.add_emod_right]

theorem ofInt_sar : ofInt w (toInt w a / (2 ^ shAmt w b : Nat)) % 2 ^ w = ofInt w (toInt w a / 2 ^ (b % w)) := by
  rw [ofInt_mod, shAmt]
  norm_cast

theorem ofInt_min : (if toInt w a < toInt w b then a else b) % 2 ^ w = ofInt w (min (toInt w a) (toInt w b)) := by
  split
  case isTrue h => rw [min_eq_left h.le, ofInt_toInt]
  case isFalse h => rw [min_eq_right (not_lt.1 h), ofInt_toInt]

theorem ofInt_max : (if toInt w a < toInt w b then b else a) % 2 ^ w = ofInt w (max (toInt w a) (toInt w b)) := by
  split
  case isTrue h => rw [max_eq_right h.le, ofInt_toInt]
  case isFalse h => rw [max_eq_left (not_lt.1 h), ofInt_toInt]

/-- An instruction of two integer operands runs when its groups are aligned, with the value of its operation on integers. -/
theorem Computes.vruns_int {p : Instr × (Nat → Nat → Int)} {fn : Nat} {fma : Bool} {op : Nat → Nat → Nat → Nat}
    (hd : aligned (cfgAt s1 t) 1 f.vd) (h1 : aligned (cfgAt s1 t) 1 f.vs1) (h2 : f.s = false → aligned (cfgAt s1 t) 1 f.vs2)
    (k : Computes s1 t p.1 (if f.s then f.vs2 else 0) (fun _ => infoInt f fn fma) fun x v => (vint x v f op, none))
    (hop : ∀ a b, a < 2 ^ (cfgAt s1 t).bits → b < 2 ^ (cfgAt s1 t).bits →
      op (cfgAt s1 t).bits a b % 2 ^ (cfgAt s1 t).bits = ofInt (cfgAt s1 t).bits (p.2 a b))
    (h : VReady s t [if f.s then f.vs2 else 0] (stationWait t p.1) s1) :
    VRuns s s1 t p.1 ((s1.core (.tile t)).reg (if f.s then f.vs2 else 0)) (fun x v v' =>
      Elements (x.actives v f.vm) v v' f.vd (cfgAt s1 t).bytes fun i => (ofInt (cfgAt s1 t).bits (p.2 (v.el f.vs1 (cfgAt s1 t).bytes i)
        (if f.s then x.scal.toNat % 2 ^ (cfgAt s1 t).bits else v.el f.vs2 (cfgAt s1 t).bytes i)), {})) fun _ _ => none :=
  k.vruns (VInfo.check_eq_none rfl (regsB_aligned hd h1 h2) rfl nofun nofun nofun) (fun _ => ⟨vint_elements hop, rfl⟩) h

/-- Settles O16: each is dispatched past its checks, and its value is that of the operation on integers. -/
theorem vectorInteger : Obligations.VectorInteger := by
  unfold Obligations.VectorInteger
  intro s s1 t f k c w sN hd h1 h2
  rw [← List.forall_iff_forall_mem]
  refine ⟨?vadd, ?vsub, ?vmul, ?vmulh, ?vmulhu, ?vand, ?vor, ?vxor, ?vandn, ?vshl, ?vshr, ?vsar, ?vmin, ?vmax, ?vminu, ?vmaxu⟩
  case vadd => exact Computes.vruns_int hd h1 h2 ⟨fun _ => rfl, rfl, fun _ => rfl, fun _ _ => rfl⟩ fun _ _ _ _ => ofInt_of_nat (by push_cast; rfl)
  case vsub => exact Computes.vruns_int hd h1 h2 ⟨fun _ => rfl, rfl, fun _ => rfl, fun _ _ => rfl⟩ fun _ _ _ hb => ofInt_sub hb
  case vmul => exact Computes.vruns_int hd h1 h2 ⟨fun _ => rfl, rfl, fun _ => rfl, fun _ _ => rfl⟩ fun _ _ _ _ => ofInt_of_nat (by push_cast; rfl)
  case vmulh => exact Computes.vruns_int hd h1 h2 ⟨fun _ => rfl, rfl, fun _ => rfl, fun _ _ => rfl⟩ fun _ _ _ _ => ofInt_mod ..
  case vmulhu => exact Computes.vruns_int hd h1 h2 ⟨fun _ => rfl, rfl, fun _ => rfl, fun _ _ => rfl⟩ fun _ _ _ _ => ofInt_of_nat rfl
  case vand => exact Computes.vruns_int hd h1 h2 ⟨fun _ => rfl, rfl, fun _ => rfl, fun _ _ => rfl⟩ fun _ _ _ _ => ofInt_of_nat rfl
  case vor => exact Computes.vruns_int hd h1 h2 ⟨fun _ => rfl, rfl, fun _ => rfl, fun _ _ => rfl⟩ fun _ _ _ _ => ofInt_of_nat rfl
  case vxor => exact Computes.vruns_int hd h1 h2 ⟨fun _ => rfl, rfl, fun _ => rfl, fun _ _ => rfl⟩ fun _ _ _ _ => ofInt_of_nat rfl
  case vandn => exact Computes.vruns_int hd h1 h2 ⟨fun _ => rfl, rfl, fun _ => rfl, fun _ _ => rfl⟩ fun _ _ _ _ => ofInt_of_nat rfl
  case vshl => exact Computes.vruns_int hd h1 h2 ⟨fun _ => rfl, rfl, fun _ => rfl, fun _ _ => rfl⟩ fun _ _ _ _ => ofInt_of_nat (by push_cast; rfl)
  case vshr => exact Computes.vruns_int hd h1 h2 ⟨fun _ => rfl, rfl, fun _ => rfl, fun _ _ => rfl⟩ fun _ _ _ _ => ofInt_of_nat rfl
  case vsar => exact Computes.vruns_int hd h1 h2 ⟨fun _ => rfl, rfl, fun _ => rfl, fun _ _ => rfl⟩ fun _ _ _ _ => ofInt_sar
  case vmin => exact Computes.vruns_int hd h1 h2 ⟨fun _ => rfl, rfl, fun _ => rfl, fun _ _ => rfl⟩ fun _ _ _ _ => ofInt_min
  case vmax => exact Computes.vruns_int hd h1 h2 ⟨fun _ => rfl, rfl, fun _ => rfl, fun _ _ => rfl⟩ fun _ _ _ _ => ofInt_max
  case vminu => exact Computes.vruns_int hd h1 h2 ⟨fun _ => rfl, rfl, fun _ => rfl, fun _ _ => rfl⟩ fun _ _ _ _ => ofInt_of_nat (by push_cast; rfl)
  case vmaxu => exact Computes.vruns_int hd h1 h2 ⟨fun _ => rfl, rfl, fun _ => rfl, fun _ _ => rfl⟩ fun _ _ _ _ => ofInt_of_nat (by push_cast; rfl)

end Sys2Proof.Machine
end

section
/-! SUPPORT. The floating-point operations on elements, and the proof of O17. -/

namespace Sys2Proof.Machine

open Sys2Proof

variable {s s1 : State} {t : TileId} {x : VEntry} {v : Vec} {f : VR} {c : VCfg}

/-! ### O17 -/

theorem VCfg.bits_pos (c : VCfg) : 0 < c.bits := by
  unfold VCfg.bits
  positivity

/-- The format of elements of 16 bits and more is as wide as they are (R179). -/
theorem fmt_width (h : c.ew ≠ 0) : c.fmt.w = c.bits := by
  unfold VCfg.fmt VCfg.bits
  generalize c.f16 = bf
  revert h
  generalize c.ew = e
  revert e bf
  decide

/-- What a floating-point operation leaves in the active elements, by values that agree with its own. -/
theorem vfp_elements {op : Fmt → Rm → Nat → Nat → Nat × Fx} {r : Nat → Nat × Fx}
    (h : ∀ i, let y := op x.cfg.fmt (rmOf x.rm.toNat) (v.el f.vs1 x.cfg.bytes i) (opB x v f i)
      y.1 % 2 ^ x.cfg.bits = (r i).1 % 2 ^ x.cfg.bits ∧ y.2 = (r i).2) :
    Elements (x.actives v f.vm) v (vfp x v f op) f.vd x.cfg.bytes r :=
  (vmap_elements x v f.vm f.vd _ _).congr fun i _ => by
    rw [bits_bytes]
    exact h i

/-- An instruction of two floating-point operands runs when its groups are aligned, with the value of its operation. -/
theorem Computes.vruns_fp {p : Instr × (Nat → Nat → Nat × Fx)} {fn : Nat} {op : Fmt → Rm → Nat → Nat → Nat × Fx}
    (hw : (cfgAt s1 t).ew ≠ 0) (hd : aligned (cfgAt s1 t) 1 f.vd) (h1 : aligned (cfgAt s1 t) 1 f.vs1)
    (h2 : f.s = false → aligned (cfgAt s1 t) 1 f.vs2)
    (k : Computes s1 t p.1 (if f.s then f.vs2 else 0) (fun c => infoFp c f fn false false) fun x v => (vfp x v f op, none))
    (hop : ∀ a b, op (cfgAt s1 t).fmt (rmOf (s1.tile t.val).vec.csr.rm.toNat) a b = p.2 a b)
    (h : VReady s t [if f.s then f.vs2 else 0] (stationWait t p.1) s1) :
    VRuns s s1 t p.1 ((s1.core (.tile t)).reg (if f.s then f.vs2 else 0)) (fun x v v' =>
      Elements (x.actives v f.vm) v v' f.vd (cfgAt s1 t).bytes fun i => p.2 (v.el f.vs1 (cfgAt s1 t).bytes i)
        (if f.s then x.scal.toNat % 2 ^ (cfgAt s1 t).bits else v.el f.vs2 (cfgAt s1 t).bytes i)) fun _ _ => none := by
  refine k.vruns (VInfo.check_eq_none rfl (regsB_aligned hd h1 h2) (decide_eq_true hw) nofun nofun nofun) (fun v => ⟨?_, rfl⟩) h
  refine vfp_elements fun i => ?_
  rw [← hop]
  exact ⟨rfl, rfl⟩

/-- An instruction of one floating-point operand runs when its groups are aligned, with a value that agrees with its own. -/
theorem Computes.vruns_fp_one {p : Instr × (Nat → Nat × Fx)} {fn : Nat} {zero : Bool} {op : Fmt → Rm → Nat → Nat → Nat × Fx}
    (hw : (cfgAt s1 t).ew ≠ 0) (hd : aligned (cfgAt s1 t) 1 f.vd) (h1 : aligned (cfgAt s1 t) 1 f.vs1) (h2 : f.vs2 = 0) (hs : f.s = false)
    (k : Computes s1 t p.1 0 (fun c => infoFp c f fn true zero) fun x v => (vfp x v f op, none))
    (hop : ∀ a b, a < 2 ^ (cfgAt s1 t).bits → let y := op (cfgAt s1 t).fmt (rmOf (s1.tile t.val).vec.csr.rm.toNat) a b
      y.1 % 2 ^ (cfgAt s1 t).bits = (p.2 a).1 % 2 ^ (cfgAt s1 t).bits ∧ y.2 = (p.2 a).2)
    (h : VReady s t [0] (stationWait t p.1) s1) :
    VRuns s s1 t p.1 0 (fun x v v' => Elements (x.actives v f.vm) v v' f.vd (cfgAt s1 t).bytes fun i =>
      p.2 (v.el f.vs1 (cfgAt s1 t).bytes i)) fun _ _ => none := by
  have hl : (infoFp (cfgAt s1 t) f fn true zero).legal = true := by simp [infoFp, h2, hs]
  have hg : ∀ r ∈ [(f.vd, 1), (f.vs1, 1)], aligned (cfgAt s1 t) r.2 r.1 := by simp [hd, h1]
  exact k.vruns (VInfo.check_eq_none hl hg (decide_eq_true hw) nofun nofun nofun)
    (fun v => ⟨vfp_elements fun i => hop _ _ (el_lt ..), rfl⟩) h

/-- The checks of a conversion between widths. -/
theorem infoCvt_check {fn v0 : Nat} {widen : Bool} {md ms : Nat} (hm : (md, ms) = if widen then (2, 1) else (1, 2))
    (hw : c.ew = 1 ∨ c.ew = 2) (hg : c.g < 8) (hd : aligned c md f.vd) (h1 : aligned c ms f.vs1)
    (ho : overlaps f.vd (c.g * md) f.vs1 (c.g * ms) = false) : (infoCvt c f fn widen).check c v0 = none := by
  have hr : (infoCvt c f fn widen).regs = [(f.vd, md), (f.vs1, ms)] := by
    cases widen <;> cases hm <;> rfl
  refine VInfo.check_eq_none rfl ?_ (by simpa [infoCvt] using hw) nofun (fun _ => hg) ?_ <;> rw [hr]
  · simp [hd, h1]
  · simp [ho]

/-- `a` stands before `b`: it is less, or is -0 where `b` is +0 (R177). -/
abbrev fpBelow (g : Fmt) (a b : Nat) : Bool := ltVal (g.val a) (g.val b) || (eqVal (g.val a) (g.val b) && g.sign a && !g.sign b)

theorem fpMinMax_min (g : Fmt) (a b : Nat) : fpMinMax g false a b =
    if g.val a = .nan then (if g.val b = .nan then g.nan else b) else if g.val b = .nan || fpBelow g a b then a else b := by
  by_cases ha : g.val a = .nan <;> by_cases hb : g.val b = .nan
  · simp [fpMinMax, ha, hb]
  · simp [fpMinMax, ha, hb]
  · simp [fpMinMax, ha, hb]
  · have h : fpMinMax g false a b = if fpBelow g a b = false then b else a := by simp [fpMinMax, ha, hb]
    rw [h]
    cases fpBelow g a b <;> simp [ha, hb]

theorem fpMinMax_max (g : Fmt) (a b : Nat) : fpMinMax g true a b =
    if g.val a = .nan then (if g.val b = .nan then g.nan else b) else if g.val b = .nan || !fpBelow g a b then a else b := by
  by_cases ha : g.val a = .nan <;> by_cases hb : g.val b = .nan
  · simp [fpMinMax, ha, hb]
  · simp [fpMinMax, ha, hb]
  · simp [fpMinMax, ha, hb]
  · have h : fpMinMax g true a b = if fpBelow g a b = true then b else a := by simp [fpMinMax, ha, hb]
    rw [h]
    cases fpBelow g a b <;> simp [ha, hb]

/-- A sign is changed by adding the sign bit. -/
theorem fpSign_neg {g : Fmt} {w a : Nat} (hw : g.w = w) (h0 : 0 < w) (ha : a < 2 ^ w) :
    fpSign g true a % 2 ^ w = (if g.val a = .nan then g.nan else a + 2 ^ (w - 1)) % 2 ^ w := by
  subst hw
  unfold fpSign
  by_cases hn : g.val a = .nan
  · rw [if_pos hn, if_pos hn]
  · have hp : 2 ^ g.w = 2 * 2 ^ (g.w - 1) := by rw [← pow_succ', Nat.sub_add_cancel h0]
    rw [if_neg hn, if_neg hn]
    simp only [if_true, Fmt.sign, fld, pow_one, decide_eq_true_eq]
    rw [hp] at ha ⊢
    generalize 2 ^ (g.w - 1) = m at ha ⊢
    by_cases hs : a < m
    · rw [Nat.div_eq_of_lt hs, Nat.mod_eq_of_lt hs]
      simp
    · obtain ⟨d, rfl⟩ := Nat.exists_eq_add_of_le (not_lt.1 hs)
      have hd : (m + d) / m = 1 := by
        rw [Nat.div_eq_iff (by omega)]
        omega
      rw [hd, Nat.add_mod_left, Nat.mod_eq_of_lt (show d < m by omega), if_pos rfl, show m + d + m = 2 * m + d by omega,
        Nat.add_mod_left, Nat.add_zero]

theorem fpSign_abs {g : Fmt} {w a : Nat} (hw : g.w = w) :
    fpSign g false a = if g.val a = .nan then g.nan else a % 2 ^ (w - 1) := by
  subst hw
  rfl

/-- An instruction of the fused family runs when its groups are aligned, with the value of its one rounding. -/
theorem Computes.vruns_fma {i : Instr} {f : VF} {np na : Bool} {op : Nat} (hw : (cfgAt s1 t).ew ≠ 0)
    (hd : aligned (cfgAt s1 t) 1 f.vd) (h1 : aligned (cfgAt s1 t) 1 f.vs1) (h2 : f.s = false → aligned (cfgAt s1 t) 1 f.vs2)
    (h3 : aligned (cfgAt s1 t) 1 f.vs3)
    (k : Computes s1 t i (if f.s then f.vs2 else 0) (fun c => infoFma c f op) fun x v => (vfma4 x v f np na, none))
    (h : VReady s t [if f.s then f.vs2 else 0] (stationWait t i) s1) :
    VRuns s s1 t i ((s1.core (.tile t)).reg (if f.s then f.vs2 else 0)) (fun x v v' =>
      Elements (x.actives v f.vm) v v' f.vd (cfgAt s1 t).bytes fun i => fma3 (cfgAt s1 t).fmt (rmOf (s1.tile t.val).vec.csr.rm.toNat) np na
        (v.el f.vs1 (cfgAt s1 t).bytes i)
        (if f.s then x.scal.toNat % 2 ^ (cfgAt s1 t).bits else v.el f.vs2 (cfgAt s1 t).bytes i) (v.el f.vs3 (cfgAt s1 t).bytes i))
      fun _ _ => none := by
  have hg : ∀ r ∈ (infoFma (cfgAt s1 t) f op).regs, aligned (cfgAt s1 t) r.2 r.1 := by
    unfold infoFma
    cases hs : f.s <;> simp_all
  exact k.vruns (VInfo.check_eq_none rfl hg (decide_eq_true hw) nofun nofun nofun) (fun v => ⟨vmap_elements _ v f.vm f.vd _ _, rfl⟩) h

/-- A fused form by its exact product and addend: the invalid flag of the product is set, where no addend is NaN (log 15). -/
theorem fma3_eq (g : Fmt) (rm : Rm) (np na : Bool) (a b c : Nat) : fma3 g rm np na a b c =
    let neg := fun (q : Bool) (z : FVal) => if q then z.neg else z
    let p := mulVal (neg np (g.val a)) (g.val b)
    let r := addVal g rm p.1 (neg na (g.val c))
    (r.1, { r.2 with nv := if p.2 then (if g.val c = .nan then Config.fmaNanInvalid else true) else r.2.nv }) := by
  unfold fma3 fmaVal
  dsimp only
  generalize mulVal (if np = true then (g.val a).neg else g.val a) (g.val b) = p
  obtain ⟨p, nv⟩ := p
  by_cases hc : g.val c = .nan <;> cases nv <;> simp [hc]

/-- Settles O17: each is dispatched past its checks, and its value is the model's operation in the form that the statement gives it. -/
theorem vectorFloat : Obligations.VectorFloat := by
  unfold Obligations.VectorFloat
  intro s s1 t f h k c w n g rm below hw
  have hg : g.w = w := fmt_width hw
  refine ⟨?two, ?one, ?width, ?fused⟩
  case two =>
    rw [← List.forall_iff_forall_mem]
    refine ⟨?vfadd, ?vfsub, ?vfmul, ?vfdiv, ?vfmin, ?vfmax⟩ <;> intro hd h1 h2
    case vfadd => exact Computes.vruns_fp hw hd h1 h2 ⟨fun _ => rfl, rfl, fun _ => rfl, fun _ _ => rfl⟩ fun _ _ => rfl
    case vfsub => exact Computes.vruns_fp hw hd h1 h2 ⟨fun _ => rfl, rfl, fun _ => rfl, fun _ _ => rfl⟩ fun _ _ => rfl
    case vfmul => exact Computes.vruns_fp hw hd h1 h2 ⟨fun _ => rfl, rfl, fun _ => rfl, fun _ _ => rfl⟩ fun _ _ => rfl
    case vfdiv => exact Computes.vruns_fp hw hd h1 h2 ⟨fun _ => rfl, rfl, fun _ => rfl, fun _ _ => rfl⟩ fun _ _ => rfl
    case vfmin => exact Computes.vruns_fp hw hd h1 h2 ⟨fun _ => rfl, rfl, fun _ => rfl, fun _ _ => rfl⟩ fun _ _ => congrArg (·, _) (fpMinMax_min ..)
    case vfmax => exact Computes.vruns_fp hw hd h1 h2 ⟨fun _ => rfl, rfl, fun _ => rfl, fun _ _ => rfl⟩ fun _ _ => congrArg (·, _) (fpMinMax_max ..)
  case one =>
    rw [← List.forall_iff_forall_mem]
    refine ⟨?vfsqrt, ?vfneg, ?vfabs, ?vcvtFI, ?vcvtIF⟩ <;> intro hd h1 h2 hs
    case vfsqrt => exact Computes.vruns_fp_one hw hd h1 h2 hs ⟨fun _ => rfl, rfl, fun _ => rfl, fun _ _ => rfl⟩ fun _ _ _ => ⟨rfl, rfl⟩
    case vfneg =>
      exact Computes.vruns_fp_one hw hd h1 h2 hs ⟨fun _ => rfl, rfl, fun _ => rfl, fun _ _ => rfl⟩ fun _ _ ha => ⟨fpSign_neg hg (VCfg.bits_pos c) ha, rfl⟩
    case vfabs =>
      exact Computes.vruns_fp_one hw hd h1 h2 hs ⟨fun _ => rfl, rfl, fun _ => rfl, fun _ _ => rfl⟩ fun _ _ _ => ⟨congrArg (· % _) (fpSign_abs hg), rfl⟩
    case vcvtFI =>
      refine Computes.vruns_fp_one hw hd h1 h2 hs ⟨fun _ => rfl, rfl, fun _ => rfl, fun _ _ => rfl⟩ fun a _ _ => ?_
      rw [show c.fmt.w = w from hg]
      exact ⟨rfl, rfl⟩
    case vcvtIF =>
      refine Computes.vruns_fp_one hw hd h1 h2 hs ⟨fun _ => rfl, rfl, fun _ => rfl, fun _ _ => rfl⟩ fun a _ _ => ?_
      rw [show c.fmt.w = w from hg]
      exact ⟨rfl, rfl⟩
  case width =>
    intro wide hew hg8
    refine ⟨fun hd h1 hov hr => ?vfwcvt, fun hd h1 hov hr => ?vfncvt⟩
    case vfwcvt =>
      refine vruns_of hr rfl rfl (infoCvt_check rfl hew hg8 hd h1 (by simpa using hov)) rfl fun v =>
        ⟨vmap_elements _ v f.vm f.vd _ _, rfl⟩
    case vfncvt =>
      refine vruns_of hr rfl rfl (infoCvt_check rfl hew hg8 hd h1 (by simpa using hov)) rfl fun v =>
        ⟨vmap_elements _ v f.vm f.vd _ _, rfl⟩
  case fused =>
    rw [← List.forall_iff_forall_mem]
    refine ⟨?vfma, ?vfms, ?vfnma, ?vfnms⟩ <;> intro hd h1 h2 h3
    case vfma =>
      simpa only [fma3_eq] using Computes.vruns_fma (i := .vfma t h) hw hd h1 h2 h3 ⟨fun _ => rfl, rfl, fun _ => rfl, fun _ _ => rfl⟩
    case vfms =>
      simpa only [fma3_eq] using Computes.vruns_fma (i := .vfms t h) hw hd h1 h2 h3 ⟨fun _ => rfl, rfl, fun _ => rfl, fun _ _ => rfl⟩
    case vfnma =>
      simpa only [fma3_eq] using Computes.vruns_fma (i := .vfnma t h) hw hd h1 h2 h3 ⟨fun _ => rfl, rfl, fun _ => rfl, fun _ _ => rfl⟩
    case vfnms =>
      simpa only [fma3_eq] using Computes.vruns_fma (i := .vfnms t h) hw hd h1 h2 h3 ⟨fun _ => rfl, rfl, fun _ => rfl, fun _ _ => rfl⟩

end Sys2Proof.Machine
end

section
/-! SUPPORT. The compares and the mask logic, and the proof of O18. -/

namespace Sys2Proof.Machine

open Sys2Proof

variable {s s1 : State} {t : TileId} {x : VEntry} {v : Vec} {f : VR} {c : VCfg}

/-! ### O18 -/

/-- Mask m0 leaves every element from VSTART to VL - 1 active (R169, R170). -/
theorem actives_unmasked : x.actives v 0 = (List.range x.cfg.vl).filter fun i => x.vstart ≤ i := by
  unfold VEntry.actives
  refine List.filter_congr fun i hi => ?_
  have h0 : v.mask 0 i = true := rfl
  simp [VEntry.active, h0, List.mem_range.1 hi]

/-- A compare by its relation, which no NaN meets but the test for one (R183). -/
theorem fpCmp_eq {g : Fmt} {rel rel' : FVal → FVal → Bool} {nanVal quiet : Bool} {a b : Nat}
    (hn : ∀ y z, y = .nan ∨ z = .nan → rel' y z = nanVal) (hr : ∀ y z, y ≠ .nan → z ≠ .nan → rel' y z = rel y z) :
    fpCmp g rel nanVal quiet a b = (rel' (g.val a) (g.val b),
      { nv := if quiet then g.snan a || g.snan b else decide (g.val a = .nan ∨ g.val b = .nan) }) := by
  unfold fpCmp
  by_cases h : g.val a = .nan ∨ g.val b = .nan
  · simp [h, hn _ _ h]
  · rw [not_or] at h
    obtain ⟨ha, hb⟩ := h
    simp [ha, hb, hr _ _ ha hb, Fmt.snan]

/-- No NaN is equal to, or less than, anything (R183). -/
theorem eqVal_nan {y z : FVal} (h : y = .nan ∨ z = .nan) : eqVal y z = false := by
  cases y <;> cases z <;> simp_all [eqVal]

theorem ltVal_nan {y z : FVal} (h : y = .nan ∨ z = .nan) : ltVal y z = false := by
  cases y <;> cases z <;> simp_all [ltVal]

theorem infoCmp_check {fn v0 : Nat} {fp : Bool} (hm : f.vd.toNat < 8) (hw : fp = true → c.ew ≠ 0) (h1 : aligned c 1 f.vs1)
    (h2 : f.s = false → aligned c 1 f.vs2) : (infoCmp c f fn fp).check c v0 = none := by
  refine VInfo.check_eq_none (decide_eq_true hm) ?_ ?_ nofun nofun nofun
  · unfold infoCmp
    cases hs : f.s <;> simp_all
  · cases fp <;> simp_all [infoCmp]

/-- A floating-point compare runs, with the truth of its relation. -/
theorem Computes.vruns_fcmp {p : Instr × (FVal → FVal → Bool) × Bool} {fn : Nat} {rel : FVal → FVal → Bool} {nanVal : Bool}
    (hm : f.vd.toNat < 8) (hl : (cfgAt s1 t).vl ≤ 16384) (hw : (cfgAt s1 t).ew ≠ 0) (h1 : aligned (cfgAt s1 t) 1 f.vs1)
    (h2 : f.s = false → aligned (cfgAt s1 t) 1 f.vs2)
    (k : Computes s1 t p.1 (if f.s then f.vs2 else 0) (fun c => infoCmp c f fn true) fun x v => (vfcmp x v f rel nanVal p.2.2, none))
    (hn : ∀ y z, y = .nan ∨ z = .nan → p.2.1 y z = nanVal) (ho : ∀ y z, y ≠ .nan → z ≠ .nan → p.2.1 y z = rel y z)
    (h : VReady s t [if f.s then f.vs2 else 0] (stationWait t p.1) s1) :
    VRuns s s1 t p.1 ((s1.core (.tile t)).reg (if f.s then f.vs2 else 0)) (fun x v v' =>
      MaskBits (x.actives v f.vm) v v' f.vd fun i =>
        let g := (cfgAt s1 t).fmt
        let a := v.el f.vs1 (cfgAt s1 t).bytes i
        let b := if f.s then x.scal.toNat % 2 ^ (cfgAt s1 t).bits else v.el f.vs2 (cfgAt s1 t).bytes i
        (p.2.1 (g.val a) (g.val b),
          { nv := if p.2.2 then g.snan a || g.snan b else decide (g.val a = .nan ∨ g.val b = .nan) })) fun _ _ => none := by
  refine k.vruns (infoCmp_check hm (fun _ => hw) h1 h2) (fun v => ⟨?_, rfl⟩) h
  simp only [← fpCmp_eq hn ho]
  exact vmapMask_bits _ v f.vm f.vd _ hl

/-- An integer compare runs, with the truth of its relation. -/
theorem Computes.vruns_icmp {p : Instr × (Nat → Nat → Bool)} {fn : Nat} {rel : Nat → Nat → Nat → Bool} (hm : f.vd.toNat < 8)
    (hl : (cfgAt s1 t).vl ≤ 16384) (h1 : aligned (cfgAt s1 t) 1 f.vs1) (h2 : f.s = false → aligned (cfgAt s1 t) 1 f.vs2)
    (k : Computes s1 t p.1 (if f.s then f.vs2 else 0) (fun c => infoCmp c f fn false) fun x v => (vicmp x v f rel, none))
    (ho : rel (cfgAt s1 t).bits = p.2) (h : VReady s t [if f.s then f.vs2 else 0] (stationWait t p.1) s1) :
    VRuns s s1 t p.1 ((s1.core (.tile t)).reg (if f.s then f.vs2 else 0)) (fun x v v' =>
      MaskBits (x.actives v f.vm) v v' f.vd fun i => (p.2 (v.el f.vs1 (cfgAt s1 t).bytes i)
        (if f.s then x.scal.toNat % 2 ^ (cfgAt s1 t).bits else v.el f.vs2 (cfgAt s1 t).bytes i), {})) fun _ _ => none := by
  rw [← ho]
  exact k.vruns (infoCmp_check hm nofun h1 h2) (fun v => ⟨vmapMask_bits _ v f.vm f.vd _ hl, rfl⟩) h

/-- A mask operation runs on the bits from VSTART to VL - 1. -/
theorem Computes.vruns_mlogic {p : Instr × (Bool → Bool → Bool)} {fn : Nat} (hd : f.vd.toNat < 8) (hl : (cfgAt s1 t).vl ≤ 16384)
    (h1 : f.vs1.toNat < 8) (h2 : f.vs2.toNat < 8) (hm : f.vm = 0) (hs : f.s = false)
    (k : Computes s1 t p.1 0 (fun _ => infoMask f fn) fun x v => (vmlogic x v f p.2, none))
    (h : VReady s t [0] (stationWait t p.1) s1) :
    VRuns s s1 t p.1 0 (fun x v v' => MaskBits ((List.range (cfgAt s1 t).vl).filter fun i => x.vstart ≤ i) v v' f.vd fun i =>
      (p.2 (v.mask f.vs1.toNat i) (v.mask f.vs2.toNat i), {})) fun _ _ => none := by
  have hleg : (infoMask f fn).legal = true := by simp [infoMask, isMask, hd, h1, h2, hm, hs]
  refine k.vruns (VInfo.check_eq_none hleg nofun rfl nofun nofun nofun) (fun v => ?_) h
  intro x
  have hb : MaskBits (x.actives v 0) v (vmlogic x v f p.2) f.vd _ := vmapMask_bits x v 0 f.vd _ hl
  rw [actives_unmasked] at hb
  exact ⟨hb, rfl⟩

/-- Settles O18: each is dispatched past its checks, and each active bit is the truth of its relation. -/
theorem vectorMasks : Obligations.VectorMasks := by
  unfold Obligations.VectorMasks
  intro s s1 t f k c w n g sN hd hl
  refine ⟨fun h1 h2 => ⟨fun hw => ?float, ?int⟩, fun h1 h2 hm hs => ?mask⟩ <;> rw [← List.forall_iff_forall_mem]
  case float =>
    refine ⟨?vfcmpeq, ?vfcmplt, ?vfcmple, ?vfcmpun⟩
    case vfcmpeq =>
      exact Computes.vruns_fcmp hd hl hw h1 h2 ⟨fun _ => rfl, rfl, fun _ => rfl, fun _ _ => rfl⟩ (fun _ _ => eqVal_nan) fun _ _ _ _ => rfl
    case vfcmplt =>
      exact Computes.vruns_fcmp hd hl hw h1 h2 ⟨fun _ => rfl, rfl, fun _ => rfl, fun _ _ => rfl⟩ (fun _ _ => ltVal_nan) fun _ _ _ _ => rfl
    case vfcmple =>
      exact Computes.vruns_fcmp hd hl hw h1 h2 ⟨fun _ => rfl, rfl, fun _ => rfl, fun _ _ => rfl⟩ (fun _ _ h => by simp [ltVal_nan h, eqVal_nan h])
        fun _ _ _ _ => rfl
    case vfcmpun =>
      exact Computes.vruns_fcmp hd hl hw h1 h2 ⟨fun _ => rfl, rfl, fun _ => rfl, fun _ _ => rfl⟩ (fun _ _ h => by simpa using h)
        fun _ _ hy hz => by simp [hy, hz]
  case int =>
    refine ⟨?vcmpeq, ?vcmpne, ?vcmplt, ?vcmpltu, ?vcmple, ?vcmpleu⟩
    case vcmpeq => exact Computes.vruns_icmp hd hl h1 h2 ⟨fun _ => rfl, rfl, fun _ => rfl, fun _ _ => rfl⟩ rfl
    case vcmpne => exact Computes.vruns_icmp hd hl h1 h2 ⟨fun _ => rfl, rfl, fun _ => rfl, fun _ _ => rfl⟩ rfl
    case vcmplt => exact Computes.vruns_icmp hd hl h1 h2 ⟨fun _ => rfl, rfl, fun _ => rfl, fun _ _ => rfl⟩ rfl
    case vcmpltu => exact Computes.vruns_icmp hd hl h1 h2 ⟨fun _ => rfl, rfl, fun _ => rfl, fun _ _ => rfl⟩ rfl
    case vcmple => exact Computes.vruns_icmp hd hl h1 h2 ⟨fun _ => rfl, rfl, fun _ => rfl, fun _ _ => rfl⟩ rfl
    case vcmpleu => exact Computes.vruns_icmp hd hl h1 h2 ⟨fun _ => rfl, rfl, fun _ => rfl, fun _ _ => rfl⟩ rfl
  case mask =>
    refine ⟨?mand, ?mor, ?mxor, ?mandn⟩
    case mand => exact Computes.vruns_mlogic hd hl h1 h2 hm hs ⟨fun _ => rfl, rfl, fun _ => rfl, fun _ _ => rfl⟩
    case mor => exact Computes.vruns_mlogic hd hl h1 h2 hm hs ⟨fun _ => rfl, rfl, fun _ => rfl, fun _ _ => rfl⟩
    case mxor => exact Computes.vruns_mlogic hd hl h1 h2 hm hs ⟨fun _ => rfl, rfl, fun _ => rfl, fun _ _ => rfl⟩
    case mandn => exact Computes.vruns_mlogic hd hl h1 h2 hm hs ⟨fun _ => rfl, rfl, fun _ => rfl, fun _ _ => rfl⟩

end Sys2Proof.Machine
end

section
/-! SUPPORT. The instructions that give a scalar, and the proof of O19. -/

namespace Sys2Proof.Machine

open Sys2Proof

variable {s s1 : State} {t : TileId} {x : VEntry} {v : Vec} {f : VR} {c : VCfg}

/-! ### O19 -/

/-- VLMAX is a power of two (R164). -/
theorem VCfg.vlmax_eq (c : VCfg) : c.vlmax = 2 ^ Nat.log2 c.vlmax := by
  unfold VCfg.vlmax VCfg.bits VCfg.g
  generalize c.grp = g
  generalize c.ew = e
  revert g e
  decide

/-- Half of the range of a width. -/
theorem two_pow_half (c : VCfg) : 2 ^ c.bits / 2 = 2 ^ (c.bits - 1) := by
  obtain ⟨m, hm⟩ := Nat.exists_eq_succ_of_ne_zero c.bits_pos.ne'
  rw [hm, pow_succ, Nat.mul_div_cancel _ (by decide), Nat.succ_sub_one]

/-- What stands at place `i` of a reduction: the element, or where it is inactive the identity (R184). -/
abbrev redPlace (x : VEntry) (v : Vec) (f : VR) (ident i : Nat) : Nat := if x.active v f.vm i then v.el f.vs1 x.cfg.bytes i else ident

/-- A reduction is the loop of R184 over VLMAX places. -/
theorem vreduce_eq (ident : Nat) (op : Nat → Nat → Nat × Fx) :
    vreduce x v f ident op = treeAt op (redPlace x v f ident) (Nat.log2 x.cfg.vlmax) 0 := by
  have h := treeReduce_eq op (Nat.log2 x.cfg.vlmax) ((List.range x.cfg.vlmax).map (redPlace x v f ident)) (redPlace x v f ident)
    (by rw [List.length_map, List.length_range, ← VCfg.vlmax_eq]) (fun p hp => by
      rw [← VCfg.vlmax_eq] at hp
      simp [List.getD_eq_getElem?_getD, hp]) ident
  exact Prod.ext h.1 h.2

theorem infoRed_check {fn v0 : Nat} {fp : Bool} (hz : v0 = 0) (h2 : f.vs2 = 0) (hs : f.s = false) (hw : fp = true → c.ew ≠ 0)
    (h1 : aligned c 1 f.vs1) : (infoRed c f fn fp).check c v0 = none := by
  refine VInfo.check_eq_none ?_ ?_ ?_ (fun _ => hz) nofun nofun
  · simp [infoRed, h2, hs]
  · simp [infoRed, h1]
  · cases fp <;> simp_all [infoRed]

theorem redInt_eq {ident : Nat} {op : Nat → Nat → Nat} : redInt x v f ident op =
    (v, some (f.vd, BitVec.ofInt 64 (toInt x.cfg.bits
      (treeAt (fun a b => (op a b, {})) (redPlace x v f ident) (Nat.log2 x.cfg.vlmax) 0).1))) := by
  rw [redInt, vreduce_eq]

theorem redFp_eq {ident : Nat} {op : Nat → Nat → Nat × Fx} : redFp x v f ident op =
    ({ v with csr := v.csr.add (treeAt op (redPlace x v f ident) (Nat.log2 x.cfg.vlmax) 0).2 },
      some (f.vd, BitVec.ofNat 64 (treeAt op (redPlace x v f ident) (Nat.log2 x.cfg.vlmax) 0).1)) := by
  rw [redFp, vreduce_eq]

/-- An integer reduction runs, with the sign-extended value of the loop of R184. -/
theorem Computes.vruns_redInt {p : Instr × Nat × (Nat → Nat → Nat)} {fn : Nat} (hz : (s1.tile t.val).vec.vstart = 0) (h2 : f.vs2 = 0)
    (hs : f.s = false) (h1 : aligned (cfgAt s1 t) 1 f.vs1)
    (k : Computes s1 t p.1 0 (fun c => infoRed c f fn false) fun x v => redInt x v f p.2.1 p.2.2)
    (h : VReady s t [0] (stationWait t p.1) s1) :
    VRuns s s1 t p.1 0 (fun _ v v' => v' = v) fun x v => some (f.vd, BitVec.ofInt 64 (toInt (cfgAt s1 t).bits
      (treeAt (fun a b => (p.2.2 a b, {})) (fun i => if x.active v f.vm i then v.el f.vs1 (cfgAt s1 t).bytes i else p.2.1)
        (Nat.log2 (cfgAt s1 t).vlmax) 0).1)) :=
  k.vruns (infoRed_check hz h2 hs nofun h1) (fun _ => ⟨rfl, congrArg Prod.snd redInt_eq⟩) h

/-- A floating-point reduction runs, with the value and the flags of the loop of R184. -/
theorem Computes.vruns_redFp {p : Instr × Nat × (Nat → Nat → Nat × Fx)} {fn : Nat} (hw : (cfgAt s1 t).ew ≠ 0)
    (hz : (s1.tile t.val).vec.vstart = 0) (h2 : f.vs2 = 0) (hs : f.s = false) (h1 : aligned (cfgAt s1 t) 1 f.vs1)
    (k : Computes s1 t p.1 0 (fun c => infoRed c f fn true) fun x v => redFp x v f p.2.1 p.2.2)
    (h : VReady s t [0] (stationWait t p.1) s1) :
    let r := fun (x : VEntry) (v : Vec) => treeAt p.2.2
      (fun i => if x.active v f.vm i then v.el f.vs1 (cfgAt s1 t).bytes i else p.2.1) (Nat.log2 (cfgAt s1 t).vlmax) 0
    VRuns s s1 t p.1 0 (fun x v v' => v' = { v with csr := v.csr.add (r x v).2 })
      fun x v => some (f.vd, BitVec.ofNat 64 (r x v).1) :=
  k.vruns (infoRed_check hz h2 hs (fun _ => hw) h1) (fun _ => ⟨congrArg Prod.fst redFp_eq, congrArg Prod.snd redFp_eq⟩) h

/-- A count of active elements is one of elements below VL. -/
theorem length_filter_actives {vm : MaskNo} (q : Nat → Bool) :
    ((x.actives v vm).filter q).length = (List.range x.cfg.vl).countP fun i => x.active v vm i && q i := by
  rw [VEntry.actives, List.filter_filter, List.countP_eq_length_filter]
  simp only [Bool.and_comm]

/-- The first of the active elements is the first that is active of those below VL. -/
theorem find?_actives {vm : MaskNo} (q : Nat → Bool) :
    (x.actives v vm).find? q = (List.range x.cfg.vl).find? fun i => x.active v vm i && q i := by
  rw [VEntry.actives, List.find?_filter]
  simp only [Bool.decide_and, Bool.decide_eq_true]

/-- What `vfirst` writes for the element it finds (R175). -/
def firstWord : Option Nat → Word
  | some i => BitVec.ofNat 64 i
  | none => BitVec.ofInt 64 (-1)

/-- Settles O19: each is dispatched past its checks; a reduction is the loop of R184, and a count or a search over the active
elements is one over all elements below VL that tests their activity. -/
theorem vectorReductions : Obligations.VectorReductions := by
  unfold Obligations.VectorReductions
  intro s s1 t f c w n g rm places
  refine ⟨fun hz h2 hs h1 => ⟨?int, fun hw => ?float⟩, fun hz h1 => ⟨fun h => ?vpopc, fun h => ?vfirst⟩, fun hs h1 h => ?vmvXS⟩
  case int =>
    rw [← List.forall_iff_forall_mem]
    refine ⟨?vredsum, ?vredmin, ?vredmax, ?vredminu, ?vredmaxu⟩
    case vredsum => exact Computes.vruns_redInt hz h2 hs h1 ⟨fun _ => rfl, rfl, fun _ => rfl, fun _ _ => rfl⟩
    case vredmin =>
      exact Computes.vruns_redInt hz h2 hs h1 ⟨fun _ => rfl, rfl, fun _ => rfl, fun _ _ => by rw [← two_pow_half]; rfl⟩
    case vredmax =>
      exact Computes.vruns_redInt hz h2 hs h1 ⟨fun _ => rfl, rfl, fun _ => rfl, fun _ _ => by rw [← two_pow_half]; rfl⟩
    case vredminu => exact Computes.vruns_redInt hz h2 hs h1 ⟨fun _ => rfl, rfl, fun _ => rfl, fun _ _ => rfl⟩
    case vredmaxu => exact Computes.vruns_redInt hz h2 hs h1 ⟨fun _ => rfl, rfl, fun _ => rfl, fun _ _ => rfl⟩
  case float =>
    rw [← List.forall_iff_forall_mem]
    refine ⟨?vfredsum, ?vfredmin, ?vfredmax⟩
    case vfredsum => exact Computes.vruns_redFp hw hz h2 hs h1 ⟨fun _ => rfl, rfl, fun _ => rfl, fun _ _ => rfl⟩
    case vfredmin => exact Computes.vruns_redFp hw hz h2 hs h1 ⟨fun _ => rfl, rfl, fun _ => rfl, fun _ _ => rfl⟩
    case vfredmax => exact Computes.vruns_redFp hw hz h2 hs h1 ⟨fun _ => rfl, rfl, fun _ => rfl, fun _ _ => rfl⟩
  case vpopc =>
    refine vruns_of h rfl rfl (VInfo.check_eq_none (decide_eq_true h1) nofun rfl (fun _ => hz) nofun nofun) rfl fun v => ⟨rfl, ?_⟩
    exact congrArg (fun n => some (f.vd, BitVec.ofNat 64 n)) (length_filter_actives _)
  case vfirst =>
    refine vruns_of h rfl rfl (VInfo.check_eq_none (decide_eq_true h1) nofun rfl (fun _ => hz) nofun nofun) rfl fun v => ⟨rfl, ?_⟩
    exact congrArg (fun o => some (f.vd, firstWord o)) (find?_actives _)
  case vmvXS =>
    refine vruns_of h rfl rfl (VInfo.check_eq_none ?_ ?_ rfl nofun nofun nofun) rfl fun v => ⟨rfl, rfl⟩
    · simp [hs]
    · exact List.forall_mem_singleton.2 h1

end Sys2Proof.Machine
end

section
/-! SUPPORT. The moves, permutes, widening products and dot products, and the proof of O20. -/

namespace Sys2Proof.Machine

open Sys2Proof

variable {s s1 : State} {t : TileId} {x : VEntry} {v : Vec} {f : VR} {c : VCfg}

/-! ### O20 -/

/-- A destination and two sources with their groups aligned. -/
theorem three_aligned {k : Nat} {a b d : Reg} (hd : aligned c k d) (h1 : aligned c 1 a) (h2 : aligned c 1 b) :
    ∀ r ∈ [(d, k), (a, 1), (b, 1)], aligned c r.2 r.1 := by
  simp [hd, h1, h2]

/-- A destination that overlaps neither of two sources. -/
theorem three_apart {k : Nat} {a b d : Reg} (h1 : overlaps d (c.g * k) a c.g = false) (h2 : overlaps d (c.g * k) b c.g = false) :
    ∀ q ∈ some (d, k), ∀ r ∈ [(a, 1), (b, 1)], overlaps q.1 (c.g * q.2) r.1 (c.g * r.2) = false := by
  simp [h1, h2]

theorem infoSlide_check {fn v0 : Nat} (hs : f.s = false) (hd : aligned c 1 f.vd) (h1 : aligned c 1 f.vs1) (hz : v0 = 0) :
    (infoSlide f fn).check c v0 = none := by
  refine VInfo.check_eq_none ?_ ?_ rfl (fun _ => hz) nofun nofun <;> simp [infoSlide, hs, hd, h1]

theorem infoDot_check {fn v0 : Nat} (hs : f.s = false) (hd : aligned c 1 f.vd) (h1 : aligned c 1 f.vs1) (h2 : aligned c 1 f.vs2)
    (hw : c.ew = 2) : (infoDot c f fn).check c v0 = none := by
  refine VInfo.check_eq_none ?_ (three_aligned hd h1 h2) (decide_eq_true hw) nofun nofun nofun
  simp [infoDot, hs]

theorem infoWmul_check {fn v0 : Nat} {ok : Bool} (hs : f.s = false) (hd : aligned c 2 f.vd) (h1 : aligned c 1 f.vs1)
    (h2 : aligned c 1 f.vs2) (hg : c.g < 8) (o1 : overlaps f.vd (c.g * 2) f.vs1 c.g = false)
    (o2 : overlaps f.vd (c.g * 2) f.vs2 c.g = false) (hok : ok = true) : (infoWmul f fn ok).check c v0 = none := by
  refine VInfo.check_eq_none ?_ (three_aligned hd h1 h2) hok nofun (fun _ => hg) fun _ => three_apart o1 o2
  simp [infoWmul, hs]

/-- A value of the width of an element fills it. -/
theorem mod_bits_bytes (c : VCfg) (y : Nat) : y % 2 ^ c.bits % 256 ^ c.bytes = y % 256 ^ c.bytes := by
  rw [bits_bytes, Nat.mod_mod]

/-- The elements of an instruction whose mask register selects a source instead. -/
theorem vmap_unmasked {vd : Reg} {n : Nat} {g : Nat → Nat × Fx} :
    Elements ((List.range x.cfg.vl).filter fun i => x.vstart ≤ i) v (vmap x v 0 vd n g) vd n g :=
  actives_unmasked (x := x) (v := v) ▸ vmap_elements x v 0 vd n g

/-- The elements of `vslideup`: those at or above the offset (R187). -/
theorem slideup_elements {vm : MaskNo} {vd : Reg} {n k : Nat} {g : Nat → Nat} :
    Elements ((x.actives v vm).filter fun i => k ≤ i) v
      ((x.actives v vm).foldl (fun u i => if k ≤ i then u.setEl vd n i (g i) else u) v) vd n fun i => (g i, {}) := by
  have h := setEl_foldl vd n g ((x.actives v vm).filter fun i => k ≤ i) v ((actives_nodup x v vm).filter _)
  rw [List.foldl_filter] at h
  simpa only [decide_eq_true_eq] using h

/-- The terms of an integer dot product after the destination (R182). -/
theorem sum_four (a : Int) (p : Nat → Int) : a + (List.range 4).foldl (fun b j => b + p j) 0 = a + p 0 + p 1 + p 2 + p 3 := by
  rw [show List.range 4 = [0, 1, 2, 3] from rfl]
  simp only [List.foldl_cons, List.foldl_nil]
  ring

/-- Settles O20: each is dispatched past its checks, and leaves its active elements what `vmap` gives them. -/
theorem vectorMoves : Obligations.VectorMoves := by
  unfold Obligations.VectorMoves
  intro s s1 t f k c w n g rm v0 none_ hs
  have hleg : (!f.s) = true := by rw [hs]; rfl
  refine ⟨fun hd h1 hz => ⟨fun h => ?vslideup, fun h => ?vslidedown⟩, fun hd h => ?vmvVX, fun hd h => ?vid, fun hd h1 => ⟨fun h => ?vmvVV,
    fun h2 => ⟨fun hm h => ?vmerge, fun hz o1 o2 h => ?vrgather, fun hw => ⟨fun h => ?vdotI8, ?vdotF⟩⟩⟩,
    fun hd h1 h2 hg o1 o2 => ⟨fun hw => ⟨fun h => ?vwmul, fun h => ?vwmulu⟩, fun hw h => ?vfwmul⟩⟩
  case vslideup => exact vruns_of h rfl rfl (infoSlide_check hs hd h1 hz) rfl fun v => ⟨slideup_elements, rfl⟩
  case vslidedown => exact vruns_of h rfl rfl (infoSlide_check hs hd h1 hz) rfl fun v => ⟨vmap_elements _ v _ f.vd _ _, rfl⟩
  case vmvVX =>
    refine vruns_of h rfl rfl (VInfo.check_eq_none hleg (List.forall_mem_singleton.2 hd) rfl nofun nofun nofun) rfl fun v => ⟨?_, rfl⟩
    refine (vmap_elements _ v _ f.vd _ _).congr fun i _ => ⟨mod_bits_bytes c _, rfl⟩
  case vid =>
    refine vruns_of h rfl rfl (VInfo.check_eq_none hleg (List.forall_mem_singleton.2 hd) rfl nofun nofun nofun) rfl fun v => ⟨?_, rfl⟩
    refine (vmap_elements _ v _ f.vd _ _).congr fun i _ => ⟨mod_bits_bytes c _, rfl⟩
  case vmvVV =>
    exact vruns_of h rfl rfl (VInfo.check_eq_none hleg (List.forall_mem_cons.2 ⟨hd, List.forall_mem_singleton.2 h1⟩) rfl nofun nofun nofun)
      rfl fun v => ⟨vmap_elements _ v _ f.vd _ _, rfl⟩
  case vmerge =>
    exact vruns_of h rfl rfl (VInfo.check_eq_none ((Bool.and_eq_true _ _).mpr ⟨hleg, decide_eq_true hm⟩) (three_aligned hd h1 h2) rfl
      nofun nofun nofun) rfl fun v => ⟨vmap_unmasked, rfl⟩
  case vrgather =>
    exact vruns_of h rfl rfl (VInfo.check_eq_none hleg (three_aligned hd h1 h2) rfl (fun _ => hz) nofun fun _ =>
      three_apart (by simpa using o1) (by simpa using o2)) rfl fun v => ⟨vmap_elements _ v _ f.vd _ _, rfl⟩
  case vdotI8 =>
    refine vruns_of h rfl rfl (infoDot_check hs hd h1 h2 hw) rfl fun v => ⟨?_, rfl⟩
    refine (vmap_elements _ v _ f.vd _ _).congr fun i _ => ⟨?_, rfl⟩
    exact congrArg (ofInt 32 · % 256 ^ 4) (sum_four _ fun j => toInt 8 (v.el f.vs1 1 (4 * i + j)) * toInt 8 (v.el f.vs2 1 (4 * i + j)))
  case vdotF =>
    rw [← List.forall_iff_forall_mem]
    refine ⟨?vdotE4m3, ?vdotE4m3e5m2, ?vdotE5m2e4m3, ?vdotE5m2, ?vdotB16, ?vdotF16⟩ <;> intro h
    case vdotE4m3 => exact vruns_of h rfl rfl (infoDot_check hs hd h1 h2 hw) rfl fun v => ⟨vmap_elements _ v _ f.vd _ _, rfl⟩
    case vdotE4m3e5m2 => exact vruns_of h rfl rfl (infoDot_check hs hd h1 h2 hw) rfl fun v => ⟨vmap_elements _ v _ f.vd _ _, rfl⟩
    case vdotE5m2e4m3 => exact vruns_of h rfl rfl (infoDot_check hs hd h1 h2 hw) rfl fun v => ⟨vmap_elements _ v _ f.vd _ _, rfl⟩
    case vdotE5m2 => exact vruns_of h rfl rfl (infoDot_check hs hd h1 h2 hw) rfl fun v => ⟨vmap_elements _ v _ f.vd _ _, rfl⟩
    case vdotB16 => exact vruns_of h rfl rfl (infoDot_check hs hd h1 h2 hw) rfl fun v => ⟨vmap_elements _ v _ f.vd _ _, rfl⟩
    case vdotF16 => exact vruns_of h rfl rfl (infoDot_check hs hd h1 h2 hw) rfl fun v => ⟨vmap_elements _ v _ f.vd _ _, rfl⟩
  case vwmul => exact vruns_of h rfl rfl (infoWmul_check hs hd h1 h2 hg o1 o2 (decide_eq_true hw)) rfl fun v => ⟨vmap_elements _ v _ f.vd _ _, rfl⟩
  case vwmulu => exact vruns_of h rfl rfl (infoWmul_check hs hd h1 h2 hg o1 o2 (decide_eq_true hw)) rfl fun v => ⟨vmap_elements _ v _ f.vd _ _, rfl⟩
  case vfwmul => exact vruns_of h rfl rfl (infoWmul_check hs hd h1 h2 hg o1 o2 (by simpa using hw)) rfl fun v => ⟨vmap_elements _ v _ f.vd _ _, rfl⟩

end Sys2Proof.Machine
end

section
/-! SUPPORT. Vector configuration, loads, stores and their data faults, and the proof of O21. -/

namespace Sys2Proof.Machine

open Sys2Proof

variable {s u u' : State} {t : TileId} {f : VM} {x : VEntry} {i : Instr} {off : Nat} {st : Bool}

/-! ### Updates of the vector unit and the scratch -/

/-- Two updates of a tile that agree on what it holds. -/
theorem State.updTile_congr {n : Nat} {g h : Tile → Tile} (e : g (u.tile n) = h (u.tile n)) : u.updTile n g = u.updTile n h := by
  simp only [State.updTile, e]

theorem State.tile_updVec (n : Nat) (g : Vec → Vec) : (u.updVec n g).tile n = { u.tile n with vec := g (u.tile n).vec } := by
  simp [State.updVec]

/-- A machine in which an access has left the vector unit `w`, the scratch `m` and its uncorrectable bytes `bad`. -/
def accessed (u : State) (t : Nat) (w : Vec) (m : SMap Byte) (bad : List Nat) : State :=
  u.updTile t fun y => { y with vec := w, l1 := { y.l1 with scratch := m, bad := bad } }

/-- With nothing buffered, nothing is performed before a started access. -/
theorem drainAll_updVec {fadd : Nat → Nat → Nat} {g : Vec → Vec} (h : (u.core (.tile t)).sbuf = []) :
    drainAll fadd (u.updVec t.val g) (tcore t.val) = u.updVec t.val g := by
  have hs : ((u.updVec t.val g).core (tcore t.val)).sbuf = [] := by
    rw [tcore_val, State.core, State.tile_updVec]
    exact h
  rw [drainAll, hs]
  rfl

/-! ### Dispatch of a load or store (R168, R205) -/

/-- The instruction of an access. -/
abbrev accessOf (st : Bool) (t : TileId) (f : VM) : Instr := if st then .vst t f else .vld t f

/-- No element of an access of the tile's own scratch fails its check, where each is permitted (R205). -/
theorem vfirstBad_scratch (ha : x.scal = BitVec.ofNat 64 (0xFC00000000 + off))
    (hin : ∀ i ∈ x.actives (s.tile t.val).vec f.vm, off + i * x.cfg.bytes + x.cfg.bytes ≤ min 0x80000 (scratchBytes s t.val))
    (hp : ∀ i ∈ x.actives (s.tile t.val).vec f.vm, firstDenied (fun y m => permitted s (.tile t) y m (if st then rightW else rightR))
      (elAddr x.scal x.cfg.bytes i) x.cfg.bytes = none) : vfirstBad s t.val x f.vm st = none := by
  rw [vfirstBad, List.findSome?_eq_none_iff]
  intro i hi
  have h := hin i hi
  have hb : 0 < x.cfg.bytes := by
    unfold VCfg.bytes
    positivity
  rw [vcheck_scratch hb (elAddr_toNat ha rfl (by omega)) (Nat.add_assoc ..) h (hp i hi)]
  rfl

/-- Such an access is dispatched. -/
theorem vaccess_scratch (hg : aligned (s.tile t.val).vec.cfg 1 f.vt)
    (h : vfirstBad s t.val (ventry s t i (s.reg (.tile t) f.base + f.simm.signExtend 64)) f.vm st = none) :
    vaccess t i f st s = done (vpush s t (ventry s t i (s.reg (.tile t) f.base + f.simm.signExtend 64))) := by
  have h0 : ¬ f.vt.toNat % (s.tile t.val).vec.cfg.g ≠ 0 := by simpa [aligned] using hg
  exact (if_neg h0).trans (by rw [h])

theorem exec_access (st : Bool) (t : TileId) (f : VM) (s : State) : exec (accessOf st t f) s =
    .next (vissue t [f.base] (maskWait t f.vm (accessOf st t f)) (vaccess t (accessOf st t f) f st) s) := by
  cases st <;> rfl

/-! ### The start of a load or store -/

/-- An access at the front of the queue stands among those that run, once it starts (R194). -/
theorem exec_vectorStart_access (hm : vecMem x = true) (hf : fmaUnit x = false) (xs : List VEntry) (hp : u.power = .run)
    (hq : (u.tile t.val).vec.vq = x :: xs) (hb : seedBlocked u t.val x = false) :
    exec (.vectorStart t false) u = .next (u.updVec t.val fun v => { v with vq := xs, run := v.run ++ [x] }) := by
  have h : startHead u t.val false = (u.updVec t.val fun v => { v with vq := xs, run := v.run ++ [x] }, false) := by
    simp only [startHead, hq, hb, hm, patrolStep, hf, Bool.true_or, Bool.false_and, Bool.false_eq_true, if_false, if_true, State.updVec,
      State.updTile_updTile]
  show execVectorStart t false u = _
  rw [execVectorStart, if_pos hp, h]

/-! ### The effect of a started access -/

/-- The active elements of an entry cut at `vl` elements are those of the entry below `vl`. -/
theorem actives_cut {vl : Nat} {v : Vec} {vm : MaskNo} (h : vl ≤ x.cfg.vl) :
    ({ x with cfg := { x.cfg with vl := vl } } : VEntry).actives v vm = (List.range vl).filter fun i => x.active v vm i := by
  refine List.filter_congr fun i hi => ?_
  have hi := List.mem_range.1 hi
  simp only [VEntry.active, hi, hi.trans_le h]

/-- What an access of the elements `act` of a tile's own scratch leaves: a load the elements of the group at `vt`, a store their
bytes in the scratch (R201). -/
def AccessLeaves (st : Bool) (act : List Nat) (v w : Vec) (vt : Reg) (n off : Nat) (l1 : L1) (m : SMap Byte) (bad : List Nat) : Prop :=
  if st then w = v ∧ (∀ i ∈ act, readBytes m (off + i * n) n = toBytes n (v.el vt n i)) ∧
      (∀ b, (∀ i ∈ act, b < off + i * n ∨ off + i * n + n ≤ b) → aget 0 m b = aget 0 l1.scratch b)
    else m = l1.scratch ∧ bad = l1.bad ∧ Elements act v w vt n fun i => (ofBytes (readBytes l1.scratch (off + i * n) n), {})

variable {g : Vec → Vec}

theorem startOne_vld (hi : x.instr = .vld t f) (hs : (u.core (.tile t)).sbuf = []) (ha : x.scal = BitVec.ofNat 64 (0xFC00000000 + off))
    (hin : ∀ i ∈ x.actives (g (u.tile t.val).vec) f.vm, off + i * x.cfg.bytes + x.cfg.bytes ≤ min 0x80000 (scratchBytes u t.val))
    (hbad : ∀ i ∈ x.actives (g (u.tile t.val).vec) f.vm, ∀ y ∈ (u.tile t.val).l1.bad,
      ¬(off + i * x.cfg.bytes ≤ y ∧ y < off + i * x.cfg.bytes + x.cfg.bytes)) :
    ∃ w m bad, AccessLeaves false (x.actives (g (u.tile t.val).vec) f.vm) (g (u.tile t.val).vec) w f.vt x.cfg.bytes off (u.tile t.val).l1 m bad ∧
      startOne (u.updVec t.val g) t.val x = (accessed u t.val w m bad, none) := by
  have h : startOne (u.updVec t.val g) t.val x = startVld (drainAll faddF32 (u.updVec t.val g) (tcore t.val)) t.val x f := by
    unfold startOne
    rw [hi]
  refine ⟨_, _, _, ⟨rfl, rfl, setEl_foldl f.vt _ _ _ _ (actives_nodup ..)⟩, ?_⟩
  rw [h, drainAll_updVec hs, startVld_scratch ha rfl hin hbad]
  exact congrArg (·, none) (State.updTile_congr rfl)

theorem startOne_vst (hi : x.instr = .vst t f) (hs : (u.core (.tile t)).sbuf = []) (ho : (u.tile t.val).oos = false)
    (ha : x.scal = BitVec.ofNat 64 (0xFC00000000 + off))
    (hin : ∀ i ∈ x.actives (g (u.tile t.val).vec) f.vm, off + i * x.cfg.bytes + x.cfg.bytes ≤ min 0x80000 (scratchBytes u t.val)) :
    ∃ w m bad, AccessLeaves true (x.actives (g (u.tile t.val).vec) f.vm) (g (u.tile t.val).vec) w f.vt x.cfg.bytes off (u.tile t.val).l1 m bad ∧
      startOne (u.updVec t.val g) t.val x = (accessed u t.val w m bad, none) := by
  have h : startOne (u.updVec t.val g) t.val x = startVst (drainAll faddF32 (u.updVec t.val g) (tcore t.val)) t.val x f := by
    unfold startOne
    rw [hi]
  have ht := State.tile_updVec (u := u) t.val g
  have hid : (u.updVec t.val g).updTile t.val id = u.updVec t.val g := State.updTile_updTile ..
  have hsb : scratchBytes (u.updVec t.val g) t.val = scratchBytes u t.val := scratchBytes_eq (by rw [ht])
  have hst := startVst_scratch (u := u.updVec t.val g) (f := f) ha rfl hid (by rw [ht]; exact ho) (by rw [ht, hsb]; exact hin)
  rw [ht] at hst
  obtain ⟨hr, hk⟩ := elemBytes_read off x.cfg.bytes ((g (u.tile t.val).vec).el f.vt x.cfg.bytes) _ (u.tile t.val).l1.scratch
    (actives_rising x (g (u.tile t.val).vec) f.vm)
  refine ⟨_, _, badAfter (u.tile t.val).l1.bad (elemBytes off x.cfg.bytes ((g (u.tile t.val).vec).el f.vt x.cfg.bytes)
    (x.actives (g (u.tile t.val).vec) f.vm)), ⟨rfl, hr, hk⟩, ?_⟩
  rw [h, drainAll_updVec hs, hst, State.updVec, State.updTile_updTile]
  exact congrArg (·, none) (State.updTile_congr rfl)

/-- What a started access of the elements below `vl` leaves, all of them within the tile's own scratch (R201). -/
theorem startOne_access {vl : Nat} (hi : x.instr = accessOf st t f) (hs : (u.core (.tile t)).sbuf = [])
    (ho : (u.tile t.val).oos = false) (ha : x.scal = BitVec.ofNat 64 (0xFC00000000 + off)) (hl : vl ≤ x.cfg.vl) :
    let v := g (u.tile t.val).vec
    let act := (List.range vl).filter fun i => x.active v f.vm i
    let n := x.cfg.bytes
    (∀ i ∈ act, off + i * n + n ≤ min 0x80000 (scratchBytes u t.val)) →
    (st = false → ∀ i ∈ act, ∀ y ∈ (u.tile t.val).l1.bad, ¬(off + i * n ≤ y ∧ y < off + i * n + n)) →
    ∃ w m bad, AccessLeaves st act v w f.vt n off (u.tile t.val).l1 m bad ∧
      startOne (u.updVec t.val g) t.val { x with cfg := { x.cfg with vl := vl } } = (accessed u t.val w m bad, none) := by
  intro v act n
  rw [show act = ({ x with cfg := { x.cfg with vl := vl } } : VEntry).actives v f.vm from (actives_cut hl).symm]
  cases st with
  | false => exact fun hin hbad => startOne_vld hi hs ha hin (hbad rfl)
  | true => exact fun hin _ => startOne_vst hi hs ho ha hin

/-! ### The completion of a lone access -/

theorem completeRun_one (hr : (u.tile t.val).vec.run = [x])
    (h : startOne (u.updVec t.val fun v => { v with run := [] }) t.val x = (u', none)) : completeRun u t.val = (u', false) := by
  have hne : ¬ (u.tile t.val).vec.run = [] := by simp [hr]
  rw [completeRun, if_neg hne, hr]
  simp only [runStarted, h, endStarted]

/-- The failure that a data fault reports. -/
def failErr : DataFail → AccErr
  | .uncorr n => .uncorr n.toNat
  | .thermal k => .thermal k.val

theorem exec_vectorDataFault_one {e : Nat} {addr : Word} {why : DataFail} (hp : u.power = .run) (hr : (u.tile t.val).vec.run = [x])
    (hf : faultsAt u t.val e addr x = true)
    (h : startOne (u.updVec t.val fun v => { v with run := [] }) t.val { x with cfg := { x.cfg with vl := e } } = (u', none)) :
    exec (.vectorDataFault t e addr why) u = .next (dataFault u' t.val x e addr (failErr why) x.passed) := by
  have hne : ¬ (u.tile t.val).vec.run = [] := by simp [hr]
  show execVectorDataFault t e addr why u = _
  unfold execVectorDataFault
  rw [if_neg (not_not_intro hp), if_neg hne]
  simp only [hr, List.dropWhile_cons, List.takeWhile_cons, hf, Bool.not_true, Bool.false_eq_true, if_false, runStarted, failStarted, h,
    joinFault, endStarted, ne_eq, not_true, decide_false, Bool.or_false]
  cases why <;> rfl

/-- A data fault of an access notes it in TILE_VFLT (R208, R209). -/
theorem dataFault_accessed {w : Vec} {m : SMap Byte} {bad : List Nat} {e : Nat} {addr : Word} {err : AccErr} {nr : Bool}
    (hi : x.instr = accessOf st t f) : dataFault (accessed u t.val w m bad) t.val x e addr err nr =
      takeFault ((accessed u t.val { w with fltVt := f.vt, fltNr := nr, fltKind := 2, vstart := e, vq := [] } m bad).updCore (.tile t)
        fun k => { k with lc := x.lc }) (.tile t) (dataTrap err addr) x.pc := by
  have h : setFault (accessed u t.val w m bad) t.val (accessOf st t f) 2 e nr =
      accessed u t.val { w with fltVt := f.vt, fltNr := nr, fltKind := 2, vstart := e, vq := [] } m bad := by
    cases st <;> simp only [setFault, accessed, State.updVec, State.updTile_updTile] <;> rfl
  rw [dataFault, hi, h, tcore_val]

/-! ### `vcfg` (R165) -/

/-- The configuration that the immediate of `vcfg` names. -/
abbrev vcfgOf (imm : Nat) (f16 : Bool) : VCfg := { ew := BitVec.ofNat 2 imm, grp := BitVec.ofNat 2 (imm / 4), f16 := f16 }

theorem extract_config {n : Nat} (b : BitVec n) :
    b.extractLsb' 0 2 = BitVec.ofNat 2 b.toNat ∧ b.extractLsb' 2 2 = BitVec.ofNat 2 (b.toNat / 4) := by
  constructor <;> apply BitVec.eq_of_toNat_eq <;> simp [Nat.shiftRight_eq_div_pow]

/-- The effect of `vcfg`, and its fault where TILE_VSTART is not 0. -/
def vcfgEffect (t : TileId) (f : LI) (s : State) : Effect :=
  let c := vcfgOf f.imm.toNat (f.imm.getLsbD 4)
  let vl := min (if f.rs1 = 0 then c.vlmax else ((s.core (.tile t)).reg f.rs1).toNat) c.vlmax
  if (s.tile t.val).vec.vstart ≠ 0 then .error { code := cVstate }
  else done ((s.updVec t.val fun v => { v with cfg := { c with vl := vl } }).setReg (.tile t) f.rd (BitVec.ofNat 64 vl))

theorem exec_vcfg {f : LI} (hf : f.f = false) (hi : f.imm.toNat < 32) :
    exec (.vcfg t f) s = .next (issue (.tile t) [f.rs1] 4 true (vcfgEffect t f) s) := by
  obtain ⟨h0, h2⟩ := extract_config f.imm
  show execVcfg t f s = _
  simp only [execVcfg, hf, hi, h0, h2, decide_true, Bool.not_false, Bool.and_self]
  rfl

/-- Settles O21: `vcfg` by its effect; an access of the tile's own scratch meets no fault at dispatch, and a started one leaves
what `startOne_access` says, whole or cut at the element of a data fault. -/
theorem vectorMemory : Obligations.VectorMemory := by
  unfold Obligations.VectorMemory
  refine ⟨fun s s1 t f hf hi => ?cfg, fun s s1 t f off hg ha st => ?access⟩
  case cfg =>
    intro c cfg avl vl
    refine ⟨fun h hz => ?done, fun h hq hz => ?fault⟩ <;> rw [exec_vcfg hf hi]
    case done => exact congrArg _ (issue_completed h (if_neg (not_not_intro hz)))
    case fault => exact congrArg _ (issue_fault h hq (if_pos hz))
  case access =>
    intro i x fits
    have hx : x.instr = accessOf st t f := rfl
    refine ⟨fun h hin hp => ⟨?dispatch, vecEntry_mem⟩, fun u xs hp hq hb => ?start, fun u p vl => ?run⟩
    case dispatch =>
      exact (exec_access st t f s).trans (congrArg _ (vissue_dispatched h (vaccess_scratch hg (vfirstBad_scratch ha hin hp))))
    case start =>
      refine exec_vectorStart_access ?_ ?_ xs hp hq hb <;> cases st <;> rfl
    case run =>
      intro y hp hr hs ho v act mem hl _ hin hbad
      obtain ⟨w, m, bad, hleft, hone⟩ := startOne_access (x := y) (g := fun v => { v with run := [] }) hx hs ho ha hl hin hbad
      refine ⟨w, m, bad, hleft, fun hv => ?whole, fun addr why hact haddr => ?fault⟩
      case whole =>
        subst hv
        exact completeRun_one hr hone
      case fault =>
        have hf : faultsAt u t.val vl addr y = true := by
          cases st <;> exact (Bool.and_eq_true _ _).mpr ⟨hact, decide_eq_true haddr⟩
        rw [exec_vectorDataFault_one hp hr hf hone, dataFault_accessed (x := y) hx]
        cases why <;> rfl

end Sys2Proof.Machine
end

section
/-! SUPPORT. The instruments on tensor outputs: writes of TILE_NUMCTL, the end of a dump, and the proof of O24. -/

namespace Sys2Proof.Machine

open Sys2Proof

variable {s : State} {t : TileId} {h n task : Bool}

/-! ### A write of TILE_NUMCTL (R240 to R243) -/

/-- The clears of a write: of the histogram (hclr) and of the record with the numbering (nclr). -/
def numCleared (h n : Bool) (m : Numerics) : Numerics :=
  let m := if h then clearHist m else m
  if n then clearNan m else m

/-- A dump of the counters begins. -/
def dumpBegun (a : Word) (cs : List Nat) (ok : Bool) (m : Numerics) : Numerics := { m with dump := some (a, cs, ok), herr := false }

/-- The instruments change by `f`, and the stopped memory runs are marked for what the write starts. -/
def numWritten (s : State) (t : TileId) (d n : Bool) (f : Numerics → Numerics) : State :=
  s.updTile t.val fun x => { x with num := f x.num, vec := markRuns d n x.vec }

theorem numctl_dump (hd : (s.tile t.val).num.dump = none) :
    numctl s t.val true h n task = numWritten s t true n fun m =>
      numCleared h n (dumpBegun (s.tile t.val).num.histaddr (histAll (s.tile t.val).num) (dumpOk s t.val task) m) := by
  simp only [numctl, hd, Option.isSome_none, Bool.and_false, Bool.false_eq_true, if_false]
  rfl

/-- A dump while one is in progress is discarded whole (R240). -/
theorem numctl_dump_busy (hd : (s.tile t.val).num.dump ≠ none) :
    numctl s t.val true h n task = s.updTile t.val fun x => { x with num := { x.num with hlost := true } } :=
  if_pos ((Bool.true_and _).trans (Option.isSome_iff_ne_none.2 hd))

theorem numctl_clear : numctl s t.val false h n task = numWritten s t false n (numCleared h n) := by
  simp only [numctl, Bool.false_and, Bool.false_eq_true, if_false]
  rfl

theorem numOn_run (hp : s.power = .run) (ho : (s.tile t.val).oos = false) (r : State) : numOn s t r = r :=
  if_pos (by simp [hp, ho])

theorem numOn_off (hs : s.power ≠ .run ∨ (s.tile t.val).oos = true) (r : State) : numOn s t r = s := by
  refine if_neg ?_
  obtain hp | ho := hs
  · simp [hp]
  · simp [ho]

theorem exec_numctl_off (hs : s.power ≠ .run ∨ (s.tile t.val).oos = true) :
    ∀ i ∈ [Instr.hdump t h n task, .hclr t n, .nclr t], exec i s = .next s := by
  simp only [List.forall_mem_cons, List.not_mem_nil, false_imp_iff, implies_true, and_true]
  exact ⟨congrArg _ (numOn_off hs _), congrArg _ (numOn_off hs _), congrArg _ (numOn_off hs _)⟩

section On

variable (hp : s.power = .run) (ho : (s.tile t.val).oos = false)
include hp ho

theorem exec_hdump : exec (.hdump t h n task) s = .next (numctl s t.val true h n task) := congrArg _ (numOn_run hp ho _)

theorem exec_hclr : exec (.hclr t n) s = .next (numWritten s t false n (numCleared true n)) :=
  congrArg _ ((numOn_run hp ho _).trans numctl_clear)

theorem exec_nclr : exec (.nclr t) s = .next (numWritten s t false true (numCleared false true)) :=
  congrArg _ ((numOn_run hp ho _).trans numctl_clear)

end On

/-! ### The end of a dump (R241, R242, R244) -/

/-- What the write of a dump follows: the core's buffered writes and the handed drains are performed. -/
def dumpTurn (s : State) (t : TileId) : State := performHanded (drainAll faddF32 s (.tile t)) t.val

/-- No dump is in progress, and herr is its result. -/
def dumpStopped (u : State) (t : TileId) (e : Bool) : State :=
  u.updTile t.val fun x => { x with num := { x.num with dump := none, herr := e } }

/-- How many bytes a dump that fails has written, a free value (logs 1, 42). -/
def dumpCut (u : State) : Nat := (Config.freeWord u.free).toNat % 257

/-- A dump of the bytes `bs` to `a` ends, from its turn on. -/
def dumpWritten (u : State) (t : TileId) (a : Word) (bs : List Byte) : (ok failed : Bool) → State
  | false, _ => dumpStopped u t true
  | true, true => dumpStopped (agentWrite u.tick t.val a (bs.take (dumpCut u))).1 t true
  | true, false => dumpStopped (agentWrite u t.val a bs).1 t (agentWrite u t.val a bs).2.isSome

theorem exec_histogramDumpEnd_none {failed : Bool} (hd : (s.tile t.val).num.dump = none) :
    exec (.histogramDumpEnd t failed) s = .next s := by
  show execHistogramDumpEnd t failed s = _
  rw [execHistogramDumpEnd, hd]

section End

variable {a : Word} {cs : List Nat} {ok failed : Bool} (hd : (s.tile t.val).num.dump = some (a, cs, ok))
include hd

/-- A stopped memory run that began before the dump has counts of it to come (R242). -/
theorem exec_histogramDumpEnd_waits (hr : ∃ r ∈ (s.tile t.val).vec.cmemRuns, r.old = true) :
    exec (.histogramDumpEnd t failed) s = .next s := by
  show execHistogramDumpEnd t failed s = _
  simp only [execHistogramDumpEnd, hd, List.any_eq_true.2 hr, Bool.or_true, if_true]

theorem exec_histogramDumpEnd_writes (hp : s.power = .run) (hr : ∀ r ∈ (s.tile t.val).vec.cmemRuns, r.old = false) :
    exec (.histogramDumpEnd t failed) s =
      .next (dumpWritten (dumpTurn s t) t a (cs.flatMap fun c => toBytes 4 c) ok failed) := by
  have hw : ((s.tile t.val).vec.cmemRuns.any fun r => r.old) = false :=
    List.any_eq_false.2 fun r hm => Bool.eq_false_iff.1 (hr r hm)
  show execHistogramDumpEnd t failed s = _
  simp only [execHistogramDumpEnd, hd, hp, hw, ne_eq, not_true_eq_false, decide_false, Bool.or_self, Bool.false_eq_true, if_false]
  cases ok <;> cases failed <;> rfl

end End

/-- Settles O24: each write of TILE_NUMCTL by its rule, and the end of a dump by what it waits for and its three outcomes. -/
theorem instruments : Obligations.Instruments := by
  unfold Obligations.Instruments
  intro s t h n task x clears num
  refine ⟨fun hp ho => ⟨fun hd => ?begins, fun hd => ?discarded, exec_hclr hp ho, exec_nclr hp ho⟩, exec_numctl_off,
    exec_histogramDumpEnd_none, fun a cs ok hd hp => ⟨exec_histogramDumpEnd_waits hd, fun hr => ?ends⟩⟩
  case begins => exact (exec_hdump hp ho).trans (congrArg _ (numctl_dump hd))
  case discarded => exact (exec_hdump hp ho).trans (congrArg _ (numctl_dump_busy hd))
  case ends =>
    intro u bs stop
    have he : ∀ failed, exec (.histogramDumpEnd t failed) s = .next (dumpWritten u t a bs ok failed) := fun _ =>
      exec_histogramDumpEnd_writes hd hp hr
    refine ⟨fun hok => ?denied, fun hok => ?whole, fun hok => ?part⟩ <;> subst hok
    case denied => exact he h
    case whole => exact he false
    case part =>
      refine ⟨min (dumpCut u) bs.length, Nat.min_le_right _ _, ?_⟩
      rw [← List.take_eq_take_min]
      exact he true

end Sys2Proof.Machine
end

section
/-! SUPPORT. Chain registers, generator seeds, chain programs on registers and memory, one stage of F32, and the proof of O22. -/

namespace Sys2Proof.Machine

open Sys2Proof

variable {s s1 u : State} {t : TileId} {x : VEntry} {off : Nat} {st : Bool}

/-! ### The start of an entry that accesses no memory -/

/-- Such an entry completes as it starts, where no access before it still runs (R194). -/
theorem exec_vectorStart_alone {xs : List VEntry} (hm : vecMem x = false) (hp : u.power = .run) (hq : (u.tile t.val).vec.vq = x :: xs)
    (hr : (u.tile t.val).vec.run = []) (hb : seedBlocked u t.val x = false) :
    exec (.vectorStart t false) u =
      .next (patrolStep (startOne (u.updVec t.val fun v => { v with vq := xs }) t.val x).1 t.val x false) := by
  show execVectorStart t false u = _
  rw [execVectorStart, if_pos hp]
  simp only [startHead, hq, hb, hm, State.tile_updVec, hr, ne_eq, not_true, decide_false, Bool.or_self, Bool.false_eq_true, if_false]

/-! ### Dispatch of `cld` and `cst` (R264) -/

section Access

variable {f : VR}

/-- The instruction of a chain register's access. -/
abbrev chainAccessOf (st : Bool) (t : TileId) (f : VR) : Instr := if st then .cst t f else .cld t f

theorem exec_chainAccess (st : Bool) (t : TileId) (f : VR) (s : State) : exec (chainAccessOf st t f) s =
    .next (vissue t [f.vs1] (stationWait t (chainAccessOf st t f)) (chainAccess t (chainAccessOf st t f) f st) s) := by
  cases st <;> rfl

/-- An access of 64 aligned bytes of the tile's own scratch is dispatched. -/
theorem chainAccess_scratch {i : Instr} (hd : f.vd.toNat < 4) (h2 : f.vs2 = 0) (hm : f.vm = 0) (hs : f.s = false)
    (ha : (s.core (.tile t)).reg f.vs1 = BitVec.ofNat 64 (0xFC00000000 + off)) (ho : off % 64 = 0)
    (hin : off + 64 ≤ min 0x80000 (scratchBytes s t.val))
    (hp : firstDenied (fun y m => permitted s (.tile t) y m (if st then rightW else rightR)) ((s.core (.tile t)).reg f.vs1) 64 = none) :
    chainAccess t i f st s = done (vpush s t (ventry s t i ((s.core (.tile t)).reg f.vs1))) := by
  have hN := toNat_scratch ha rfl (by omega)
  have h6 : wfld ((s.core (.tile t)).reg f.vs1) 0 6 = 0 := by
    rw [wfld, hN, fld]
    omega
  simp only [chainAccess, State.reg, hd, h2, hm, hs, h6, vcheck_scratch (by decide) hN rfl hin hp, decide_true, Bool.not_false, Bool.and_self,
    Bool.not_true, Bool.false_eq_true, ne_eq, not_true, if_false]

/-! ### Completion of `cld` and `cst` -/

/-- The bytes of the number that bytes form are those bytes (R4). -/
theorem toBytes_ofBytes (bs : List Byte) : toBytes bs.length (ofBytes bs) = bs := by
  induction bs with
  | nil => rfl
  | cons b bs ih =>
    have hb := b.isLt
    have hq : (b.toNat + 256 * ofBytes bs) / 256 = ofBytes bs := by omega
    have hr : BitVec.ofNat 8 (b.toNat + 256 * ofBytes bs) = b := by
      apply BitVec.eq_of_toNat_eq
      rw [BitVec.toNat_ofNat]
      omega
    rw [List.length_cons, ofBytes, toBytes, hq, hr, ih]

variable {g : Vec → Vec}

/-- A started `cld` of the tile's own scratch loads the 64 bytes into its chain register. -/
theorem startOne_cld (hi : x.instr = .cld t f) (hd : f.vd.toNat < 4) (hs : (u.core (.tile t)).sbuf = [])
    (ha : x.scal = BitVec.ofNat 64 (0xFC00000000 + off)) (hin : off + 64 ≤ min 0x80000 (scratchBytes u t.val))
    (hbad : ∀ y ∈ (u.tile t.val).l1.bad, ¬(off ≤ y ∧ y < off + 64)) :
    startOne (u.updVec t.val g) t.val x = (u.updVec t.val fun v =>
      { g v with chains := writeBytes (g v).chains (64 * f.vd.toNat) (readBytes (u.tile t.val).l1.scratch off 64) }, none) := by
  have h : startOne (u.updVec t.val g) t.val x = startCld (drainAll faddF32 (u.updVec t.val g) (tcore t.val)) t.val x f := by
    unfold startOne
    rw [hi]
  have hl1 : ((u.updVec t.val g).tile t.val).l1 = (u.tile t.val).l1 := by rw [State.tile_updVec]
  have hread := vread_scratch (s := u.updVec t.val g) (t := t) { st := u.updVec t.val g, line := none } rfl (by decide : 0 < 64) (by decide)
    (toNat_scratch ha rfl (by omega)) rfl (by rwa [scratchBytes_eq hl1]) (by rwa [hl1])
  rw [h, drainAll_updVec hs, startCld, hread, hl1, Nat.mod_eq_of_lt hd]
  simp only [State.updVec, State.updTile_updTile]

/-- Bytes stored in the tile's own scratch as one element: they stand there, and every other byte as before. -/
theorem storeLines_scratch {bs : List Byte} {a : Word} (k : Nat) (hn : bs ≠ []) (hid : s.updTile t.val id = s)
    (ho : (s.tile t.val).oos = false) (ha : a = BitVec.ofNat 64 (0xFC00000000 + off))
    (hin : off + bs.length ≤ min 0x80000 (scratchBytes s t.val)) :
    let ps := elBytes s t.val a 0 bs
    ∃ m bad, readBytes m off bs.length = bs ∧ (∀ b, b < off ∨ off + bs.length ≤ b → aget 0 m b = aget 0 (s.tile t.val).l1.scratch b) ∧
      storeCut s t.val k ps = (ps, none) ∧ storeLines s t.val ps = accessed s t.val (s.tile t.val).vec m bad := by
  intro ps
  have hps : [0].flatMap (fun i => elBytes s t.val (elAddr a bs.length i) i (toBytes bs.length (ofBytes bs))) = ps := by
    rw [List.flatMap_singleton, toBytes_ofBytes, elAddr, Nat.zero_mul, BitVec.add_zero]
  obtain ⟨hcut, hlines⟩ := stores_scratch (fun _ => ofBytes bs) [0] k ha rfl (List.length_pos_iff.2 hn) hid ho
    (List.pairwise_singleton ..) (List.forall_mem_singleton.2 (by omega))
  obtain ⟨hread, hkeep⟩ := elemBytes_read off bs.length (fun _ => ofBytes bs) [0] (s.tile t.val).l1.scratch (List.pairwise_singleton ..)
  rw [hps] at hcut hlines
  rw [List.forall_mem_singleton, toBytes_ofBytes, Nat.zero_mul, Nat.add_zero] at hread
  simp only [List.forall_mem_singleton, Nat.zero_mul, Nat.add_zero] at hkeep
  refine ⟨_, badAfter (s.tile t.val).l1.bad (elemBytes off bs.length (fun _ => ofBytes bs) [0]), hread, hkeep, hcut, ?_⟩
  exact hlines.trans (State.updTile_congr rfl)

/-- A started `cst` to the tile's own scratch stores its chain register there. -/
theorem startOne_cst (hi : x.instr = .cst t f) (hd : f.vd.toNat < 4) (hs : (u.core (.tile t)).sbuf = [])
    (ho : (u.tile t.val).oos = false) (ha : x.scal = BitVec.ofNat 64 (0xFC00000000 + off))
    (hin : off + 64 ≤ min 0x80000 (scratchBytes u t.val)) :
    ∃ m bad, readBytes m off 64 = chainBytes (g (u.tile t.val).vec) f.vd.toNat ∧
      (∀ b, b < off ∨ off + 64 ≤ b → aget 0 m b = aget 0 (u.tile t.val).l1.scratch b) ∧
      startOne (u.updVec t.val g) t.val x = (accessed u t.val (g (u.tile t.val).vec) m bad, none) := by
  have h : startOne (u.updVec t.val g) t.val x = startCst (drainAll faddF32 (u.updVec t.val g) (tcore t.val)) t.val x f := by
    unfold startOne
    rw [hi]
  have ht := State.tile_updVec (u := u) t.val g
  have hsb : scratchBytes (u.updVec t.val g) t.val = scratchBytes u t.val := scratchBytes_eq (by rw [ht])
  have hl : (chainBytes (g (u.tile t.val).vec) f.vd.toNat).length = 64 := readBytes_length ..
  obtain ⟨m, bad, hread, hkeep, hcut, hlines⟩ := storeLines_scratch (s := u.updVec t.val g) (t := t) 1
    (List.length_pos_iff.1 (by omega) : chainBytes (g (u.tile t.val).vec) f.vd.toNat ≠ []) (State.updTile_updTile ..) (by rwa [ht]) ha
    (by rwa [hl, hsb])
  rw [hl] at hread
  rw [hl, ht] at hkeep
  refine ⟨m, bad, hread, hkeep, ?_⟩
  rw [h, drainAll_updVec hs, startCst, ht, Nat.mod_eq_of_lt hd]
  simp only [hcut, hlines]
  rw [accessed, ht, State.updVec, State.updTile_updTile]
  rfl

end Access

/-! ### `cseed` (R262) -/

/-- What key `k` reads as after the keys below `n` are written. -/
theorem aget_foldl_range {α : Type} {d : α} (h : Nat → α) (m : SMap α) {k n : Nat} (hk : k < n) :
    aget d ((List.range n).foldl (fun m k => aput m k (h k)) m) k = h k := by
  induction n with
  | zero => exact absurd hk (Nat.not_lt_zero k)
  | succ n ih =>
    rw [List.range_succ, List.foldl_concat, aget_aput]
    split
    case isTrue e => rw [e]
    case isFalse e => exact ih (by omega)

/-- Every generator of both sets is seeded. -/
theorem seedAll_generators (v : Vec) (m : Word) {j : Nat} (hj : j < 32) :
    aget 0 (seedAll v m).genV j = genSeed m (j + 1) ∧ aget 0 (seedAll v m).genD j = genSeed m (j + 33) := by
  dsimp only [seedAll]
  exact ⟨aget_foldl_range (fun j => genSeed m (j + 1)) v.genV hj, aget_foldl_range (fun j => genSeed m (j + 33)) v.genD hj⟩

theorem seedAll_frame (v : Vec) (m : Word) : seedAll v m = { v with genV := (seedAll v m).genV, genD := (seedAll v m).genD } := by
  rw [seedAll]

/-- An entry of another unit leaves the patrol where it is (R191). -/
theorem patrolStep_other {n : Nat} {mismatch : Bool} (h : fmaUnit x = false) : patrolStep s n x mismatch = s := by
  simp only [patrolStep, h, Bool.false_and, Bool.false_eq_true, if_false]

/-- The start of a `cseed` seeds the generators and changes nothing else. -/
theorem exec_vectorStart_cseed {f : VR} {xs : List VEntry} (hi : x.instr = .cseed t f) (hp : u.power = .run)
    (hq : (u.tile t.val).vec.vq = x :: xs) (hr : (u.tile t.val).vec.run = []) (hb : seedBlocked u t.val x = false) :
    exec (.vectorStart t false) u =
      .next (u.updVec t.val fun _ => seedAll { (u.tile t.val).vec with vq := xs } x.scal) := by
  have hm : vecMem x = false := by
    unfold vecMem
    rw [hi]
  have hf : fmaUnit x = false := by
    unfold fmaUnit
    rw [hi]
    rfl
  have h1 : ∀ w, (startOne w t.val x).1 = w.updVec t.val fun v => seedAll v x.scal := fun w => by
    unfold startOne
    rw [hi]
  rw [exec_vectorStart_alone hm hp hq hr hb, patrolStep_other hf, h1, State.updVec, State.updVec, State.updTile_updTile]
  exact congrArg _ (State.updTile_congr rfl)

/-! ### `cmem` (R270, R271) -/

section Memory

variable {f : VF} {n : ChainNo}

/-- The stopped run `r` is the one that a `cmem` with these registers continues at this place (R271). -/
def resumes (s : State) (t : TileId) (r : CmemRun) : Bool :=
  decide (r.pc = pcOf s (.tile t)) && r.s1 = s.reg (.tile t) 1 && r.s2 = s.reg (.tile t) 2 && r.s3 = s.reg (.tile t) 3

theorem resumes_elsewhere {r : CmemRun} (h : r.pc ≠ (s.core (.tile t)).pc) : resumes s t r = false := by
  simp only [resumes, pcOf, h, decide_false, Bool.false_and]

/-- Where none is continued, none is taken off the list of stopped runs. -/
theorem cmemRuns_kept (h : ∀ r ∈ (s.tile t.val).vec.cmemRuns, resumes s t r = false) :
    (s.updVec t.val fun v => { v with cmemRuns := v.cmemRuns.filter fun r => !resumes s t r, vstart := 0 }) =
      s.updVec t.val fun v => { v with vstart := 0 } := by
  have hf : (s.tile t.val).vec.cmemRuns.filter (fun r => !resumes s t r) = (s.tile t.val).vec.cmemRuns :=
    List.filter_eq_self.2 fun r hr => by rw [h r hr]; rfl
  refine State.updTile_congr ?_
  dsimp only
  rw [hf]

/-- The run of a `cmem` that continues none, from the registers s1, s2 and s3 and the program of its chain register. -/
abbrev wholeRun (s : State) (t : TileId) (f : VF) (n : ChainNo) : CRun × Option CStop :=
  let c : CoreId := .tile t
  let p := progOf (chainBytes (s.tile t.val).vec n.toNat)
  cmemRun t.val p f ((s.reg c 3).toNat / p.per) ((s.reg c 3).toNat / p.per)
    { st := s.updVec t.val fun v => { v with vstart := 0 }, src := s.reg c 2, dst := s.reg c 1, idx := 0, drain := 0, old := false }

/-- A `cmem` that continues no stopped run and meets no fault runs to its end. -/
theorem cmemBody_whole (hd : f.vd = 0) (h1 : f.vs1 = 0) (hm : f.vm = 0) (he : drainAll faddF32 s (.tile t) = u)
    (hnew : ∀ r ∈ (u.tile t.val).vec.cmemRuns, r.pc ≠ (u.core (.tile t)).pc)
    (hb : seedBlocked u t.val (ventry u t (.cmem t f n none) 0) = false)
    (hc : cmemCheck (u.tile t.val).vec.cfg (progOf (chainBytes (u.tile t.val).vec n.toNat)) f (u.reg (.tile t) 3).toNat = none)
    (hstop : (wholeRun u t f n).2 = none) (hall : (wholeRun u t f n).1.idx = (u.reg (.tile t) 3).toNat) :
    cmemBody t f n none s = done (cmemRegs (wholeRun u t f n).1.st t (wholeRun u t f n).1 0) := by
  have hno : ∀ r ∈ (u.tile t.val).vec.cmemRuns, resumes u t r = false := fun r hr => resumes_elsewhere (hnew r hr)
  have hfind : (u.tile t.val).vec.cmemRuns.find? (resumes u t) = none := List.find?_eq_none.2 fun r hr => Bool.eq_false_iff.1 (hno r hr)
  have hkept := cmemRuns_kept hno
  have hreg : ∀ (g : Vec → Vec) (k : Reg), (u.updVec t.val g).reg (.tile t) k = u.reg (.tile t) k := fun g k => by
    simp only [State.reg, State.core, State.tile_updVec]
  unfold resumes at hfind hkept
  unfold cmemBody
  simp only [he, hd, h1, hm, hb, hfind, hkept, hreg, Nat.zero_add, hc, hstop, hall, Nat.sub_zero, Nat.sub_self, decide_true, Bool.and_self,
    Bool.not_true, Bool.false_eq_true, if_false, if_true]

end Memory

/-! ### One F32 stage (R254, R255) -/

section Stage

variable {p : Prog} {x y : Nat} {b : CVal} {g : Word}

/-- The element x and the operand a, without modifiers, are the sources of the one stage of an F32 program. -/
def OneStageXA (p : Prog) : Prop :=
  p.nst = 0 ∧ p.wf = 0 ∧ fld (p.sts.getD 0 0) 22 4 = 0 ∧ fld (p.sts.getD 0 0) 18 4 = 0xD ∧ fld (p.sts.getD 0 0) 10 4 = 0

/-- A field of four bits that is 0 has no bit set. -/
theorem fld_bits {w : Nat} (h : fld w 10 4 = 0) : fld w 10 1 = 0 ∧ fld w 11 1 = 0 ∧ fld w 12 1 = 0 ∧ fld w 13 1 = 0 := by
  unfold fld at *
  omega

/-- An F32 pattern as a source of a stage: a NaN becomes the canonical one (R255). -/
def quieted (x : Nat) : Nat := if f32.val x = .nan then f32.nan else x

theorem val_quieted (x : Nat) : f32.val (quieted x) = f32.val x := by
  unfold quieted
  split
  case isTrue h => exact (by decide : f32.val f32.nan = .nan).trans h.symm
  case isFalse => rfl

/-- A source in F32 that no modifier changes. -/
theorem modVal_cvtCode_f32 (h : p.wf = 0) (rm : Rm) (x : Nat) : modVal p false false (cvtCode 0 0 rm x) = quieted x := by
  have hf : wfFloat p.wf = true := by rw [h]; rfl
  have hc : fmtCode (wfCode p.wf) = f32 := by rw [h]; rfl
  have hq : cvtCode 0 0 rm x = quieted x := by simp [cvtCode, quieted, isFloat, fmtCode]
  simp only [modVal, hf, hc, hq, val_quieted, Bool.false_eq_true, if_true, if_false]
  unfold quieted
  split <;> rfl

theorem srcVal_x {ts : List CVal} (h : p.wf = 0) : srcVal p { x := (0, x), a := (0, y), b := b } ts 0 = cvtCode 0 0 (rmOf p.arm) x := by
  rw [srcVal, h, if_pos rfl]
  rfl

theorem srcVal_a {ts : List CVal} (h : p.wf = 0) : srcVal p { x := (0, x), a := (0, y), b := b } ts 0xD = cvtCode 0 0 (rmOf p.arm) y := by
  rw [srcVal, h, if_neg (by decide), if_neg (by decide), if_neg (by decide), if_pos rfl]
  rfl

/-- The two sources reach the stage. -/
theorem stage_sources (h : OneStageXA p) : let w := p.sts.getD 0 0
    let i : ChainIn := { x := (0, x), a := (0, y), b := b }
    modVal p (fld w 12 1 = 1) (fld w 13 1 = 1) (srcVal p i [] (fld w 22 4)) = quieted x ∧
      modVal p (fld w 10 1 = 1) (fld w 11 1 = 1) (srcVal p i [] (fld w 18 4)) = quieted y := by
  obtain ⟨-, hf, hA, hB, hm⟩ := h
  obtain ⟨f0, f1, f2, f3⟩ := fld_bits hm
  simp only [hA, hB, f0, f1, f2, f3, zero_ne_one, decide_false, srcVal_x hf, srcVal_a hf, modVal_cvtCode_f32 hf, and_self]

theorem chainElem_single (i : ChainIn) (h : p.nst = 0) : chainElem p i g = stage p i [] 0 g := by
  simp only [chainElem, h, stages, List.getD_cons_zero]

theorem fpAdd_congr {f : Fmt} {rm : Rm} {x' y' : Nat} (hx : f.val x' = f.val x) (hy : f.val y' = f.val y) :
    fpAdd f rm x' y' = fpAdd f rm x y := by
  rw [fpAdd, fpAdd, hx, hy]

theorem fpMul_congr {f : Fmt} {rm : Rm} {x' y' : Nat} (hx : f.val x' = f.val x) (hy : f.val y' = f.val y) :
    fpMul f rm x' y' = fpMul f rm x y := by
  rw [fpMul, fpMul, hx, hy]

theorem chainElem_add (h : OneStageXA p) (hop : stOp (p.sts.getD 0 0) = 0x01) :
    chainElem p { x := (0, x), a := (0, y), b := b } g = ((0, (fpAdd f32 (rmOf p.arm) x y).1), g) := by
  obtain ⟨hx, hy⟩ := stage_sources (x := x) (y := y) (b := b) h
  obtain ⟨hn, hf, -⟩ := h
  rw [chainElem_single _ hn, ← fpAdd_congr (val_quieted x) (val_quieted y)]
  simp only [stage, hop, hx, hy, chainAdd, hf]
  rfl

theorem chainElem_mul (h : OneStageXA p) (hop : stOp (p.sts.getD 0 0) = 0x02) :
    chainElem p { x := (0, x), a := (0, y), b := b } g = ((0, (fpMul f32 (rmOf p.arm) x y).1), g) := by
  obtain ⟨hx, hy⟩ := stage_sources (x := x) (y := y) (b := b) h
  obtain ⟨hn, hf, -⟩ := h
  rw [chainElem_single _ hn, ← fpMul_congr (val_quieted x) (val_quieted y)]
  simp only [stage, hop, hx, hy, hf]
  rfl

end Stage

/-- Settles O22: an access of the tile's own scratch meets no fault at dispatch and runs as it completes; `cseed`, `vchain` and
`rownorm` run as they start; a whole `cmem` is `cmemBody_whole`; one F32 stage sees the values of its two sources. -/
theorem chains : Obligations.Chains := by
  unfold Obligations.Chains
  refine ⟨fun s s1 t f => ⟨fun hd h2 hm hs off ha ho st => ?access, fun h hd h2 hm hs => ?cseed, fun md h hc => ?rownorm⟩,
    fun s s1 t f n => ⟨fun h hc => ?vchain, fun h hd h1 hm => ?cmem⟩,
    fun p x y b g hn hf => ?stage⟩
  case access =>
    intro i x
    have hx : x.instr = chainAccessOf st t f := rfl
    refine ⟨fun h hin hp => ⟨?dispatch, vecEntry_mem⟩, fun u xs hp hq hb => ?start, fun u p hr hs hoos hin hbad => ?run⟩
    case dispatch =>
      exact (exec_chainAccess st t f s).trans (congrArg _ (vissue_dispatched h (chainAccess_scratch hd h2 hm hs ha ho hin hp)))
    case start => refine exec_vectorStart_access ?_ ?_ xs hp hq hb <;> cases st <;> rfl
    case run =>
      intro v mem
      cases st with
      | false => exact completeRun_one hr (startOne_cld hx hd hs ha hin (hbad rfl))
      | true =>
        obtain ⟨m, bad, hread, hkeep, hone⟩ := startOne_cst (g := fun v => { v with run := [] }) hx hd hs hoos ha hin
        exact ⟨m, bad, hread, hkeep, completeRun_one hr hone⟩
  case cseed =>
    intro x
    have h0 : (decide (f.vd = 0) && decide (f.vs2 = 0) && decide (f.vm = 0) && !f.s) = true := by simp [hd, h2, hm, hs]
    refine ⟨congrArg _ (vissue_dispatched h (if_pos h0)), vecEntry_mem, fun u xs hp hq hr hb => ?_⟩
    exact ⟨_, exec_vectorStart_cseed rfl hp hq hr hb, fun j hj => seedAll_generators _ _ hj, seedAll_frame _ _⟩
  case rownorm =>
    intro x
    refine ⟨congrArg _ (vissue_dispatched h ?_), vecEntry_mem, fun u xs hp hq hr hb => exec_vectorStart_alone rfl hp hq hr hb⟩
    simp only [State.reg, hc]
  case vchain =>
    intro x
    refine ⟨congrArg _ (vissue_dispatched h ?_), vecEntry_mem, fun u xs hp hq hr hb => exec_vectorStart_alone rfl hp hq hr hb⟩
    simp only [hc]
  case cmem =>
    intro s2 v p hnew hb hc r hstop hall
    exact congrArg _ (issue_finished h (cmemBody_whole hd h1 hm rfl hnew hb hc hstop hall))
  case stage =>
    intro w hA hB hm
    exact ⟨chainElem_add ⟨hn, hf, hA, hB, hm⟩, chainElem_mul ⟨hn, hf, hA, hB, hm⟩⟩

end Sys2Proof.Machine
end

section
/-! SUPPORT. The matrix array: its queue, loads, passes, drains, ramp and errors, and the proof of O23. -/

namespace Sys2Proof.Machine

open Sys2Proof

/-! ### Writes of a list of cells -/

section Cells

variable {α β : Type} [DecidableEq α] {d : α} {key : β → Nat} {val : β → α}

/-- The table with a list of cells written in turn. -/
def writeCells (d : α) (key : β → Nat) (val : β → α) (l : List β) (m : SMap α) : SMap α :=
  l.foldl (fun m b => aset d m (key b) (val b)) m

theorem aget_writeCells_other {j : Nat} : ∀ {l : List β} {m : SMap α}, (∀ b ∈ l, key b ≠ j) →
    aget d (writeCells d key val l m) j = aget d m j
  | [], _, _ => rfl
  | b :: l, m, h => by
    obtain ⟨hb, hl⟩ := List.forall_mem_cons.1 h
    exact (aget_writeCells_other hl).trans (aget_aset_ne _ _ _ _ _ hb.symm)

/-- Where no two cells of a list share a key, each reads as it was written. -/
theorem aget_writeCells_mem {b : β} : ∀ {l : List β} {m : SMap α}, l.Nodup → (∀ x ∈ l, ∀ y ∈ l, key x = key y → x = y) → b ∈ l →
    aget d (writeCells d key val l m) (key b) = val b
  | x :: l, m, hn, hi, hb => by
    obtain ⟨hx, hn⟩ := List.nodup_cons.1 hn
    show aget d (writeCells d key val l (aset d m (key x) (val x))) (key b) = _
    obtain rfl | hb := List.mem_cons.1 hb
    · refine (aget_writeCells_other fun y hy hkey => hx ?_).trans (aget_aset_self _ _ _ _)
      exact hi y (List.mem_cons_of_mem _ hy) b List.mem_cons_self hkey ▸ hy
    · exact aget_writeCells_mem hn (fun x hx y hy => hi x (List.mem_cons_of_mem _ hx) y (List.mem_cons_of_mem _ hy)) hb

/-- The pairs of `r` rows and `c` columns, row by row. -/
def rowsColumns (r c : Nat) : List (Nat × Nat) := (List.range r).product (List.range c)

theorem mem_rowsColumns {r c : Nat} {q : Nat × Nat} : q ∈ rowsColumns r c ↔ q.1 < r ∧ q.2 < c := by
  rw [← List.mem_range, ← List.mem_range (n := c)]
  exact List.pair_mem_product

theorem rowsColumns_nodup (r c : Nat) : (rowsColumns r c).Nodup := List.nodup_range.product List.nodup_range

/-- Rows and columns one after the other are the pairs of them. -/
theorem foldl_rowsColumns {γ : Type} (f : γ → Nat × Nat → γ) (a : γ) (r c : Nat) :
    (rowsColumns r c).foldl f a = (List.range r).foldl (fun a x => (List.range c).foldl (fun a y => f a (x, y)) a) a := by
  simp only [rowsColumns, List.product, List.foldl_flatMap, List.foldl_map]

end Cells

variable {s s1 : State} {t : TileId} {e : Cp0Entry} {rest : List Cp0Entry}

/-! ### Updates of the array -/

@[simp] theorem State.tile_updMtx (s : State) (n : Nat) (g : Mtx → Mtx) :
    (s.updMtx n g).tile n = { s.tile n with mtx := g (s.tile n).mtx } := by simp [State.updMtx]

@[simp] theorem State.updMtx_updMtx (s : State) (n : Nat) (g h : Mtx → Mtx) :
    (s.updMtx n g).updMtx n h = s.updMtx n fun x => h (g x) := State.updTile_updTile s n _ _

/-- Two updates of an array that agree on what it holds. -/
theorem State.updMtx_congr {n : Nat} {g h : Mtx → Mtx} (he : g (s.tile n).mtx = h (s.tile n).mtx) : s.updMtx n g = s.updMtx n h :=
  State.updTile_congr (by rw [he])

/-- With nothing handed over, performing what was handed over leaves an update of the array. -/
theorem performHanded_updMtx {g : Mtx → Mtx} (h : (g (s.tile t.val).mtx).handed = []) :
    performHanded (s.updMtx t.val g) t.val = s.updMtx t.val g := by
  rw [performHanded_none (by simpa using h)]
  exact State.updMtx_updMtx s t.val g id

/-! ### Issue (R98, R285, R287, R319) -/

theorem trackIssue_queue (x : Mtx) (i : Instr) (a w : Word) : (trackIssue x i a w).queue = x.queue := by
  cases i <;> simp only [trackIssue]
  split <;> rfl

theorem pairDrain_mtx (x : Tile) (w : Word) : (pairDrain x w).1.mtx = x.mtx := by
  unfold pairDrain
  split
  · rfl
  · split <;> rfl

/-- An instruction enters at the end of the queue. -/
theorem cp0Push_queue (u : State) (t : TileId) (i : Instr) (f : LC) (a w : Word) :
    ∃ e, ((cp0Push u t i f a w).tile t.val).mtx.queue = (u.tile t.val).mtx.queue ++ [e] ∧
      e.instr = i ∧ e.r1 = a ∧ e.r2 = w ∧ e.cfg = (u.tile t.val).mtx.cfgIssue ∧ e.rd = f.rd := by
  have hpair (b : Bool) : (if b then pairDrain (u.tile t.val) w else (u.tile t.val, none, 0)).1.mtx = (u.tile t.val).mtx := by
    cases b
    · rfl
    · exact pairDrain_mtx _ w
  unfold cp0Push
  simp only [State.tile_setTile, if_true, trackIssue_queue, hpair]
  exact ⟨_, rfl, rfl, rfl, rfl, rfl, rfl⟩

/-- The instructions of the array. -/
def cp0Instrs (t : TileId) (f : LC) : List Instr := [.mcfg t f, .mwld t f, .mpass t f, .mdrain t f, .mlda t f, .msync t f]

theorem exec_cp0 {f : LC} : ∀ i ∈ cp0Instrs t f, exec i s = cp0Issue t i f s := by
  simp only [cp0Instrs, List.forall_mem_cons, List.not_mem_nil, false_imp_iff, implies_true, and_true]
  exact ⟨rfl, rfl, rfl, rfl, rfl, rfl⟩

section Issue

variable {f : LC} {i : Instr} (hfull : (s.tile t.val).mtx.queue.length < 8) (hwait : (s.tile t.val).mtx.waiting = false)
  (h : Ready s (.tile t) [f.rs1, f.rs2] 4 s1)
include hfull hwait h

theorem cp0Issue_enters (hc : cp0Code s1 t i f (s1.reg (.tile t) f.rs1) (s1.reg (.tile t) f.rs2) = 0) :
    cp0Issue t i f s = .next (completed s1 (.tile t) 4 1 fun s =>
      cp0Push s t i f (s1.reg (.tile t) f.rs1) (s1.reg (.tile t) f.rs2)) := by
  simp only [cp0Issue, hwait, Nat.not_le.2 hfull, decide_false, Bool.or_self, Bool.false_eq_true, if_false]
  exact congrArg _ (issue_completed h (by simp only [hc]; rfl))

theorem cp0Issue_faulted {n : Nat} (hq : Quiet s1 (.tile t))
    (hc : cp0Code s1 t i f (s1.reg (.tile t) f.rs1) (s1.reg (.tile t) f.rs2) = n + 1) :
    cp0Issue t i f s = .next (faulted s1 (.tile t) { code := cCop, sub := 8 * (n + 1) }) := by
  simp only [cp0Issue, hwait, Nat.not_le.2 hfull, decide_false, Bool.or_self, Bool.false_eq_true, if_false]
  exact congrArg _ (issue_fault h hq (by simp only [hc, if_true]))

end Issue

/-- A configuration of an operand pair of R223 without rampoff meets no check (R286, R311). -/
theorem cp0Code_mcfg {f : LC} {a w : Word} (hd : f.rd = 0) (h2 : f.rs2 = 0) (hp : pairOk a = true) (hr : wbit a 11 = false) :
    cp0Code s t (.mcfg t f) f a w = 0 := by simp [cp0Code, hd, h2, hp, cfgRamp, hr]

/-! ### The end of a feed and of the ramp (R307, R308, R310) -/

theorem mtxTick_idle (hf : (s.tile t.val).mtx.feed = false) : mtxTick s t.val = s.updMtx t.val fun x => { x with wld := false } := by
  simp only [mtxTick, feedDone, hf, Bool.false_eq_true, if_false]

theorem mtxTick_more (hf : (s.tile t.val).mtx.feed = true) (hp : (s.tile t.val).mtx.passes ≠ []) :
    mtxTick s t.val = s.updMtx t.val fun x => { x with feed := false, wld := false } := by
  simp only [mtxTick, feedDone, hf, hp, if_true, if_false, State.updMtx_updMtx]

/-- An array that is not idle keeps its grant. -/
theorem idleRelease_busy (h : (s.tile t.val).mtx.ramp ≠ .idle) : idleRelease s t.val = s := by
  simp only [idleRelease, h, decide_false, Bool.false_and, Bool.false_eq_true, if_false]

/-- An array with a pass in its queue keeps its grant. -/
theorem idleRelease_queued (h : ∃ e ∈ (s.tile t.val).mtx.queue, ∃ t f, e.instr = .mpass t f) : idleRelease s t.val = s := by
  obtain ⟨e, he, t', f, hi⟩ := h
  refine if_neg fun hx => ?_
  obtain ⟨-, hnone⟩ := (Bool.and_eq_true _ _).mp hx
  exact List.any_eq_false.1 (Bool.eq_false_of_not_eq_true' hnone) e he (by rw [hi])

theorem mtxTick_last (hf : (s.tile t.val).mtx.feed = true) (hp : (s.tile t.val).mtx.passes = [])
    (hr : cfgRamp (s.tile t.val).mtx.cfg = false) :
    mtxTick s t.val = s.updMtx t.val fun x => { x with feed := false, wld := false, ramp := .down } := by
  have hend : endActive (s.updMtx t.val fun x => { x with feed := false }) t.val false =
      s.updMtx t.val fun x => { x with feed := false, ramp := .down } := by
    simp only [endActive, State.tile_updMtx, hp, ne_eq, not_true_eq_false, Bool.false_eq_true, if_false, State.updMtx_updMtx]
  simp only [mtxTick, feedDone, hf, hp, hr, if_true, hend]
  rw [idleRelease_busy (by simp), State.updMtx_updMtx]

theorem exec_rampDown (hp : s.power = .run) (hr : (s.tile t.val).mtx.ramp = .down) (hs : (s.tile t.val).mtx.passes = [])
    (hf : (s.tile t.val).mtx.feed = false) (hm : ∃ e ∈ (s.tile t.val).mtx.queue, ∃ t f, e.instr = .mpass t f) :
    exec (.rampDown t) s = .next (s.updMtx t.val fun x => { x with ramp := .idle }) := by
  show execRampDown t s = _
  simp only [execRampDown, hp, hr, hs, hf, decide_true, Bool.not_false, Bool.and_self, if_true]
  exact congrArg _ (idleRelease_queued (by simpa using hm))

theorem exec_rampDown_other (hr : (s.tile t.val).mtx.ramp ≠ .down) : exec (.rampDown t) s = .next s := by
  show execRampDown t s = _
  simp only [execRampDown, hr, decide_false, Bool.and_false, Bool.false_and, Bool.false_eq_true, if_false]

theorem exec_mtxErr (hp : s.power = .run) (ho : (s.tile t.val).oos = false) (v : Word) :
    exec (.mtxErr t v) s = .next (s.updMtx t.val mtxErrClear) := by
  show execMtxErr t v s = _
  simp only [execMtxErr, hp, ho, decide_true, Bool.not_false, Bool.and_self, if_true]

/-! ### A drain write fails (R301) -/

/-- The write holds the byte at `a`. -/
def writeHolds (a : Nat) (w : Nat × List Byte) : Bool := decide (w.1 ≤ a) && decide (a < w.1 + w.2.length)

theorem exec_drainWriteFailure (hp : s.power = .run) (why : ReadFail) {a : Word}
    (hh : (s.tile t.val).mtx.handed.any (writeHolds a.toNat) = true) :
    exec (.drainWriteFailure t why a) s = .next (recordMtx
      (performHanded (s.updMtx t.val fun x => { x with handed := x.handed.filter fun w => !writeHolds a.toNat w }) t.val) t.val
      (drainErrKind (readFail why)) (readFail why) a.toNat) := by
  show execDrainWriteFailure t why a s = _
  refine congrArg _ (if_neg fun hx => ?_)
  obtain hoff | hnone := (Bool.or_eq_true _ _).mp hx
  · exact of_decide_eq_true hoff hp
  · exact absurd (hnone.symm.trans (congrArg Bool.not hh)) (by decide)

theorem exec_drainWriteFailure_none (why : ReadFail) {a : Word}
    (hh : (s.tile t.val).mtx.handed.any (writeHolds a.toNat) = false) : exec (.drainWriteFailure t why a) s = .next s := by
  show execDrainWriteFailure t why a s = _
  exact congrArg _ (if_pos ((Bool.or_eq_true _ _).mpr (.inr (congrArg Bool.not hh))))

/-! ### Loads (R290, R297) -/

/-- Scratch whose uncorrectable bytes all lie below it reads without an error. -/
theorem badIn_clean {n a b k : Nat} (hc : ∀ y ∈ (s.tile n).l1.bad, y < a) (ha : a ≤ b) : badIn s n b k = false := by
  refine List.any_eq_false.2 fun y hy => ?_
  have hlow : ¬ b ≤ y := by have := hc y hy; omega
  simp [hlow]

@[simp] theorem badIn_updMtx {n a k : Nat} (g : Mtx → Mtx) : badIn (s.updMtx n g) n a k = badIn s n a k := by simp [badIn]

@[simp] theorem wVal_updMtx {n a k j : Nat} (g : Mtx → Mtx) (c : Word) : wVal (s.updMtx n g) n c a k j = wVal s n c a k j := by
  simp [wVal]

theorem mtxCols_le (c : Word) : mtxCols c ≤ 32 := by
  unfold mtxCols
  split <;> decide

/-- The element of the weight buffers that holds row and column `q` of buffer `b`. -/
def weightKey (b : Nat) (q : Nat × Nat) : Nat := 1024 * b + 32 * q.1 + q.2

/-- The weight buffers with a block loaded (R290). -/
def blockLoaded (s : State) (t : Nat) (e : Cp0Entry) (m : SMap (BitVec 32)) : SMap (BitVec 32) :=
  writeCells 0 (weightKey (wfld e.r2 0 1)) (fun q => BitVec.ofNat 32 (wVal s t e.cfg e.r1.toNat q.1 q.2)) (rowsColumns 32 (mtxCols e.cfg)) m

theorem blockLoaded_in {n : Nat} (m : SMap (BitVec 32)) {k j : Nat} (hk : k < 32) (hj : j < mtxCols e.cfg) :
    aget 0 (blockLoaded s n e m) (1024 * wfld e.r2 0 1 + 32 * k + j) = BitVec.ofNat 32 (wVal s n e.cfg e.r1.toNat k j) := by
  refine aget_writeCells_mem (key := weightKey (wfld e.r2 0 1)) (b := (k, j)) (rowsColumns_nodup _ _) ?_
    (mem_rowsColumns.2 ⟨hk, hj⟩)
  rintro ⟨k, j⟩ hx ⟨k', j'⟩ hy hkey
  have := mtxCols_le e.cfg
  obtain ⟨-, hj⟩ := mem_rowsColumns.1 hx
  obtain ⟨-, hj'⟩ := mem_rowsColumns.1 hy
  simp only [weightKey] at hkey hj hj'
  rw [Prod.mk.injEq]
  omega

theorem blockLoaded_other {n i : Nat} (m : SMap (BitVec 32)) (hi : i / 1024 ≠ wfld e.r2 0 1) :
    aget 0 (blockLoaded s n e m) i = aget 0 m i := by
  refine aget_writeCells_other fun q hq hkey => hi ?_
  have := mtxCols_le e.cfg
  obtain ⟨h1, h2⟩ := mem_rowsColumns.1 hq
  simp only [weightKey] at hkey
  omega

/-- An element of a block lies at or after its first byte. -/
theorem le_wAt (c : Word) (a k n : Nat) : a ≤ (wAt c a k n).1 := by
  unfold wAt
  split
  · exact Nat.le_add_right_of_le (Nat.le_add_right _ _)
  · exact Nat.le_add_right_of_le (Nat.le_add_right _ _)

/-- A block that reads without an error fills its buffer; a spare K-row that patrols takes its next shadow row (R290, R315). -/
theorem loadWeights_clean {n : Nat} (hc : ∀ y ∈ (s.tile n).l1.bad, y < e.r1.toNat) : ∃ next sh0 sh1,
    loadWeights s n e = s.updMtx n fun x => { x with
      wbuf := blockLoaded s n e x.wbuf, wfmt := aput x.wfmt (wfld e.r2 0 1) (some (BitVec.ofNat 4 (cfgW e.cfg)))
      wbad := x.wbad.filter fun i => i / 1024 ≠ wfld e.r2 0 1, nextShad := next, shad0 := sh0, shad1 := sh1 } := by
  have hrows : ((List.range 32).filter fun k => badIn s n (e.r1.toNat + k * mtxRowBytes e.cfg) (mtxRowBytes e.cfg)) = [] :=
    List.filter_eq_nil_iff.2 fun k _ => by simp [badIn_clean hc (Nat.le_add_right _ _)]
  have hcells : ((rowsColumns 32 (mtxCols e.cfg)).filter fun q =>
      badIn s n (wAt e.cfg e.r1.toNat q.1 q.2).1 (wAt e.cfg e.r1.toNat q.1 q.2).2) = [] :=
    List.filter_eq_nil_iff.2 fun q _ => by simp [badIn_clean hc (le_wAt _ _ _ _)]
  have hkeys : ((List.range 32).flatMap fun k => (List.range (mtxCols e.cfg)).map fun n => (k, n)) = rowsColumns 32 (mtxCols e.cfg) := rfl
  simp only [loadWeights, hkeys, hrows, hcells, List.foldl_nil, List.map_nil, List.append_nil, List.foldl_map]
  by_cases hp : mtxPatrols (s.tile n).mtx = true
  · exact ⟨_, _, _, State.updMtx_congr (if_pos hp)⟩
  · exact ⟨_, _, _, State.updMtx_congr (if_neg hp)⟩

/-- The accumulators with one of them loaded (R297). -/
def accLoaded (s : State) (t : Nat) (e : Cp0Entry) (m : SMap (BitVec 32)) : SMap (BitVec 32) :=
  writeCells 0 (fun j => 1024 * wfld e.r2 0 2 + j)
    (fun j => BitVec.ofNat 32 (ofBytes (readBytes (s.tile t).l1.scratch (e.r1.toNat + 4 * j) 4))) (List.range 1024) m

theorem accLoaded_in {n j : Nat} (m : SMap (BitVec 32)) (hj : j < 1024) :
    aget 0 (accLoaded s n e m) (1024 * wfld e.r2 0 2 + j) =
      BitVec.ofNat 32 (ofBytes (readBytes (s.tile n).l1.scratch (e.r1.toNat + 4 * j) 4)) :=
  aget_writeCells_mem (key := fun j => 1024 * wfld e.r2 0 2 + j) (b := j) List.nodup_range
    (fun _ _ _ _ h => Nat.add_left_cancel h) (List.mem_range.2 hj)

theorem accLoaded_other {n j : Nat} (m : SMap (BitVec 32)) (hj : j / 1024 ≠ wfld e.r2 0 2) :
    aget 0 (accLoaded s n e m) j = aget 0 m j := by
  refine aget_writeCells_other fun i hi hkey => hj ?_
  have := List.mem_range.1 hi
  omega

theorem freeAccs_nil (s : State) (n : Nat) : freeAccs s n [] = s.updMtx n id := rfl

theorem loadAcc_clean {n : Nat} (hc : ∀ y ∈ (s.tile n).l1.bad, y < e.r1.toNat) :
    loadAcc s n e = s.updMtx n fun x => { x with
      acc := accLoaded s n e x.acc, kind := aset false x.kind (wfld e.r2 0 2) (wbit e.r2 2) } := by
  have hcells : ((List.range 1024).filter fun j => badIn s n (e.r1.toNat + 4 * j) 4) = [] :=
    List.filter_eq_nil_iff.2 fun j _ => by simp [badIn_clean hc (Nat.le_add_right _ _)]
  have hrows : ((List.range 32).filter fun r => badIn s n (e.r1.toNat + 128 * r) 128) = [] :=
    List.filter_eq_nil_iff.2 fun r _ => by simp [badIn_clean hc (Nat.le_add_right _ _)]
  simp only [loadAcc, badIn_updMtx, hcells, List.map_nil, freeAccs_nil, hrows, List.foldl_nil, State.updMtx_updMtx]
  rfl

/-! ### Passes (R292, R295, R296) -/

/-- A pass updates no accumulator element twice. -/
theorem passKey_inj {w c : Word} {m m' j j' : Nat} (hj : j < mtxCols c) (hj' : j' < mtxCols c)
    (h : passKey w c m j = passKey w c m' j') : m = m' ∧ j = j' := by
  have hh : b2n (passH w) ≤ 1 := by cases passH w <;> decide
  unfold passKey at h
  unfold mtxCols at hj hj'
  split at h
  case isTrue hm =>
    rw [if_pos hm] at hj hj'
    omega
  case isFalse hm =>
    rw [if_neg hm] at hj hj'
    omega

/-- What a pass makes of the element at row and column `q`, from the accumulators `acc` (R295). -/
def passVal (s : State) (t : Nat) (e : Cp0Entry) (acc : SMap (BitVec 32)) (q : Nat × Nat) : BitVec 32 :=
  BitVec.ofNat 32 (mtxElem e.cfg (if passZ e.r2 then 0 else (aget 0 acc (passKey e.r2 e.cfg q.1 q.2)).toNat)
    (passRow s t e.cfg e.r1.toNat q.1) (wCol (s.tile t).mtx (passB e.r2) q.2))

/-- The accumulators after a pass. -/
def accPassed (s : State) (t : Nat) (e : Cp0Entry) (acc : SMap (BitVec 32)) : SMap (BitVec 32) :=
  writeCells 0 (fun q => passKey e.r2 e.cfg q.1 q.2) (passVal s t e acc) (rowsColumns (passM e.r2) (mtxCols e.cfg)) acc

theorem accPassed_in {n m j : Nat} (acc : SMap (BitVec 32)) (hm : m < passM e.r2) (hj : j < mtxCols e.cfg) :
    aget 0 (accPassed s n e acc) (passKey e.r2 e.cfg m j) = passVal s n e acc (m, j) := by
  refine aget_writeCells_mem (key := fun q => passKey e.r2 e.cfg q.1 q.2) (val := passVal s n e acc) (b := (m, j)) (rowsColumns_nodup _ _) ?_
    (mem_rowsColumns.2 ⟨hm, hj⟩)
  intro x hx y hy hkey
  obtain ⟨h1, h2⟩ := passKey_inj (mem_rowsColumns.1 hx).2 (mem_rowsColumns.1 hy).2 hkey
  exact Prod.ext h1 h2

theorem accPassed_other {n i : Nat} (acc : SMap (BitVec 32)) (hi : ∀ m < passM e.r2, ∀ j < mtxCols e.cfg, passKey e.r2 e.cfg m j ≠ i) :
    aget 0 (accPassed s n e acc) i = aget 0 acc i := by
  unfold accPassed
  refine aget_writeCells_other fun q hq => ?_
  obtain ⟨hm, hj⟩ := mem_rowsColumns.1 hq
  exact hi q.1 hm q.2 hj

/-- The kinds of the accumulators after a pass: one that starts from 0 sets them (R296). -/
def kindPassed (e : Cp0Entry) (k : SMap Bool) : SMap Bool :=
  if passZ e.r2 then (passAccs e.r2).foldl (fun m i => aset false m i (isInt8 e.cfg)) k else k

theorem feedPass_eq (s : State) (n : Nat) (e : Cp0Entry) :
    feedPass s n e = s.updMtx n fun x => { x with acc := accPassed s n e x.acc, kind := kindPassed e x.kind } := by
  simp only [feedPass, List.foldl_map, accPassed, writeCells, foldl_rowsColumns, passVal, kindPassed]

/-- A pass reads only its tile. -/
theorem accPassed_rewritten (s : State) (n : Nat) (e : Cp0Entry) : accPassed (s.updMtx n id) n e = accPassed s n e := by
  have htile : (s.updMtx n id).tile n = s.tile n := State.tile_updMtx s n id
  have hval : passVal (s.updMtx n id) n e = passVal s n e := by
    funext acc q
    simp only [passVal, passRow, htile]
  funext acc
  simp only [accPassed, hval]

/-- No element of a pass depends on a failed read where none of its lines and none of the weights has failed. -/
theorem passBad_none {x : Mtx} (hw : x.wbad = []) : passBad x e [] = [] := by
  simp [passBad, hw]

/-- A feed whose reads do not fail. -/
theorem passFeed_clean (hs : (s.tile t.val).mtx.passes = e :: rest) (hh : (s.tile t.val).mtx.handed = [])
    (hb : (s.tile t.val).l1.bad = []) (hw : (s.tile t.val).mtx.wbad = []) :
    passFeed s t.val [] false = s.updMtx t.val fun x => { x with
      acc := accPassed s t.val e x.acc, kind := kindPassed e x.kind, passes := rest, feed := true, ramp := .active, rampUp := 0 } := by
  have hperf : performHanded s t.val = s.updMtx t.val id := performHanded_none hh
  have hlines : ((List.range (passM e.r2 + 31)).filter fun j => ([] : List Nat).contains j ||
      badIn s t.val (e.r1.toNat + j * mtxLine e.cfg) (mtxLine e.cfg)) = [] :=
    List.filter_eq_nil_iff.2 fun j _ => by simp [badIn, hb]
  have hbad : passBad ((s.updMtx t.val id).tile t.val).mtx e [] = [] := passBad_none (by simpa using hw)
  simp only [passFeed, hs, hperf, badIn_updMtx, hlines, Bool.false_and, Bool.false_eq_true, if_false, hbad, freeAccs_nil, feedPass_eq,
    accPassed_rewritten, List.foldl_nil, State.updMtx_updMtx]
  rfl

section Running

variable (hp : s.power = .run) (ho : (s.tile t.val).oos = false)
include hp ho

theorem exec_passFeedStart (lines : List Nat) (mismatch : Bool) :
    exec (.passFeedStart t lines mismatch) s = .next (passFeed s t.val lines mismatch) := by
  show execPassFeedStart t lines mismatch s = _
  simp only [execPassFeedStart, hp, ho, decide_true, Bool.not_false, Bool.and_self, if_true]

theorem exec_cp0Start : exec (.cp0Start t) s = .next (cp0Start s t.val) := by
  show execCp0Start t s = _
  simp only [execCp0Start, hp, ho, decide_true, Bool.not_false, Bool.and_self, if_true]

/-- A drain at the front of the queue starts by its own event as by the queue's (R300). -/
theorem exec_drainStart {f : LC} (hq : (s.tile t.val).mtx.queue = e :: rest) (hi : e.instr = .mdrain t f) :
    exec (.drainStart t) s = .next (cp0Start s t.val) := by
  show execDrainStart t s = _
  simp only [execDrainStart, hq, hi, hp, ho, decide_true, Bool.not_false, Bool.and_self, if_true]

end Running

/-! ### The ramp as a pass starts (R307, R308) -/

/-- A pass has started, and `r` ramp-up steps come before it. -/
def passStarted (s : State) (t : Nat) (e : Cp0Entry) (rest : List Cp0Entry) (r : Nat) : State :=
  s.updMtx t fun x => { x with
    queue := rest, passes := x.passes ++ [e], rampUp := r, ramp := if r = 0 then .active else .up }

/-- Outside a ramp-down no step of one counts. -/
theorem startPass_steady {n r : Nat} (hd : (s.tile n).mtx.ramp ≠ .down)
    (hr : ∀ step, rampSteps (s.tile n).mtx (cfgRamp e.cfg) step = r) : startPass s n e rest = passStarted s n e rest r := by
  simp only [startPass, hd, if_false]
  exact State.updMtx_congr (by rw [hr])

section Ramp

variable {n : Nat}

theorem startPass_idle (ho : cfgRamp e.cfg = false) (hi : (s.tile n).mtx.ramp = .idle) :
    startPass s n e rest = passStarted s n e rest 32 :=
  startPass_steady (by simp [hi]) fun _ => by simp [rampSteps, ho, hi]

theorem startPass_up (ho : cfgRamp e.cfg = false) (hu : (s.tile n).mtx.ramp = .up) :
    startPass s n e rest = passStarted s n e rest (s.tile n).mtx.rampUp :=
  startPass_steady (by simp [hu]) fun _ => by simp [rampSteps, ho, hu]

/-- An active array, or one whose pass is of the ramp-off class, needs no ramp-up. -/
theorem startPass_unramped (h : (s.tile n).mtx.ramp = .active ∨ (cfgRamp e.cfg = true ∧ (s.tile n).mtx.ramp ≠ .down)) :
    startPass s n e rest = passStarted s n e rest 0 := by
  obtain ha | ⟨ho, hd⟩ := h
  · exact startPass_steady (by simp [ha]) fun _ => by simp [rampSteps, ha]
  · exact startPass_steady hd fun _ => if_pos ho

/-- A pass that starts in a ramp-down goes back up from the step that it has come to. -/
theorem startPass_down (ho : cfgRamp e.cfg = false) (hd : (s.tile n).mtx.ramp = .down) :
    ∃ step < 32, startPass s n e rest = passStarted s.tick n e rest (8 * (step / 8)) := by
  refine ⟨_, Nat.mod_lt (Config.freeWord s.free).toNat (by decide), ?_⟩
  simp only [startPass, hd, if_true]
  refine State.updMtx_congr ?_
  simp [rampSteps, ho, hd]

end Ramp

/-! ### The front of the queue (R289) -/

/-- With no rows in flight and nothing handed over, an instruction finds the array as it stands, with no load running. -/
theorem settled (hf : (s.tile t.val).mtx.feed = false) (hh : (s.tile t.val).mtx.handed = []) :
    performHanded (mtxTick s t.val) t.val = s.updMtx t.val fun x => { x with wld := false } := by
  rw [mtxTick_idle hf]
  exact performHanded_updMtx hh

/-- A load has left the queue and runs. -/
def loadBegun (s : State) (t : Nat) (rest : List Cp0Entry) : State := s.updMtx t fun x => { x with queue := rest, wld := true }

section Front

variable {f : LC} (hq : (s.tile t.val).mtx.queue = e :: rest)
include hq

theorem cp0Start_mcfg (hi : e.instr = .mcfg t f) :
    cp0Start s t.val = s.updMtx t.val fun x => { x with queue := rest, cfg := e.r1 &&& cfgMask } := by
  simp only [cp0Start, hq, cp0Ready, hi, Bool.not_true, Bool.false_eq_true, if_false, State.updMtx_updMtx]

/-- A pass whose grant is held starts (R310). -/
theorem cp0Start_mpass (hi : e.instr = .mpass t f) (hn : passNeed (s.tile t.val).mtx (cfgRamp e.cfg) = 0) :
    cp0Start s t.val = startPass s t.val e rest := by
  simp only [cp0Start, hq, cp0Ready, hi, Bool.not_true, Bool.false_eq_true, if_false, turnPass, hn, if_true]

variable (hf : (s.tile t.val).mtx.feed = false) (hs : (s.tile t.val).mtx.passes = [])
include hf hs

theorem cp0Start_mdrain (hi : e.instr = .mdrain t f) (hb : e.batch = none) :
    cp0Start s t.val = runDrain (s.updMtx t.val fun x => { x with queue := rest, wld := false }) t.val e := by
  simp only [cp0Start, hq, cp0Ready, hi, hs, hb, List.any_nil, Bool.not_false, Bool.and_self, Bool.not_true, Bool.false_eq_true,
    if_false, mtxTick_idle hf, State.updMtx_updMtx]

variable (hh : (s.tile t.val).mtx.handed = [])
include hh

theorem cp0Start_load :
    (e.instr = .mwld t f → cp0Start s t.val = loadWeights (loadBegun s t.val rest) t.val e) ∧
    (e.instr = .mlda t f → cp0Start s t.val = loadAcc (loadBegun s t.val rest) t.val e) := by
  refine ⟨fun hi => ?_, fun hi => ?_⟩ <;>
    simp only [cp0Start, hq, cp0Ready, hi, hs, List.any_nil, Bool.not_false, Bool.not_true, Bool.false_eq_true, if_false,
      settled hf hh, State.updMtx_updMtx, loadBegun]

theorem cp0Start_mwld (hi : e.instr = .mwld t f) (hc : ∀ y ∈ (s.tile t.val).l1.bad, y < e.r1.toNat) : ∃ next sh0 sh1,
    cp0Start s t.val = s.updMtx t.val fun x => { x with
      queue := rest, wld := true, wbuf := blockLoaded s t.val e x.wbuf
      wfmt := aput x.wfmt (wfld e.r2 0 1) (some (BitVec.ofNat 4 (cfgW e.cfg)))
      wbad := x.wbad.filter fun i => i / 1024 ≠ wfld e.r2 0 1, nextShad := next, shad0 := sh0, shad1 := sh1 } := by
  have hclean : ∀ y ∈ ((loadBegun s t.val rest).tile t.val).l1.bad, y < e.r1.toNat := by simpa [loadBegun] using hc
  obtain ⟨next, sh0, sh1, hload⟩ := loadWeights_clean hclean
  refine ⟨next, sh0, sh1, ((cp0Start_load hq hf hs hh).1 hi).trans (hload.trans ?_)⟩
  simp only [loadBegun, blockLoaded, wVal_updMtx, State.updMtx_updMtx]

theorem cp0Start_mlda (hi : e.instr = .mlda t f) (hc : ∀ y ∈ (s.tile t.val).l1.bad, y < e.r1.toNat) :
    cp0Start s t.val = s.updMtx t.val fun x => { x with
      queue := rest, wld := true, acc := accLoaded s t.val e x.acc, kind := aset false x.kind (wfld e.r2 0 2) (wbit e.r2 2) } := by
  have hclean : ∀ y ∈ ((loadBegun s t.val rest).tile t.val).l1.bad, y < e.r1.toNat := by simpa [loadBegun] using hc
  rw [(cp0Start_load hq hf hs hh).2 hi, loadAcc_clean hclean]
  simp only [loadBegun, accLoaded, State.tile_updMtx, State.updMtx_updMtx]

theorem cp0Start_msync (hi : e.instr = .msync t f) :
    cp0Start s t.val =
      let pop := s.updMtx t.val fun x => { x with queue := rest, wld := false }
      pop.setReg (.tile t) e.rd (mtxStat (pop.tile t.val).mtx) := by
  simp only [cp0Start, hq, cp0Ready, hi, hs, decide_true, Bool.not_true, Bool.false_eq_true, if_false, settled hf hh,
    State.updMtx_updMtx, tcore_val]

end Front

/-- Settles O23: each instruction by its rule at issue and at the front of the queue, a feed by `passFeed_clean`, and the ends of the
array's own work by theirs. -/
theorem matrixArray : Obligations.MatrixArray := by
  unfold Obligations.MatrixArray
  refine ⟨fun s s1 t f hfull hwait => ?issue, fun s t f hd h2 a w hp hr => cp0Code_mcfg hd h2 hp hr,
    fun s t e rest hp ho hq hh hf => ?start, fun s t e rest hp ho hs hh hb hw => ?feed, fun s t hp ho => ?time⟩
  case issue =>
    intro c a w i hi
    rw [exec_cp0 i hi]
    refine ⟨fun h hc => ⟨cp0Issue_enters hfull hwait h hc, fun u => cp0Push_queue u t i f a w⟩, fun n h hquiet hc hn => ?_⟩
    obtain ⟨k, rfl⟩ := Nat.exists_eq_succ_of_ne_zero hn
    exact cp0Issue_faulted hfull hwait h hquiet hc
  case start =>
    intro x pop
    rw [exec_cp0Start hp ho]
    refine ⟨fun f hi => congrArg _ (cp0Start_mcfg hq hi), fun f hi hs hc => ?mwld, fun f hi hs hc => ?mlda, fun f hi hn => ?mpass,
      fun f hi hb hs => ?mdrain, fun f hi hs => congrArg _ (cp0Start_msync hq hf hs hh hi)⟩
    case mwld =>
      obtain ⟨_, _, _, hu⟩ := cp0Start_mwld hq hf hs hh hi hc
      refine ⟨_, congrArg _ hu, ?_⟩
      simp only [State.tile_updMtx, aget_aput_self, true_and, and_true]
      exact ⟨fun k hk n hn => blockLoaded_in x.wbuf hk hn, fun i hi => blockLoaded_other x.wbuf hi, rfl, rfl⟩
    case mlda =>
      refine ⟨_, congrArg _ (cp0Start_mlda hq hf hs hh hi hc), ?_⟩
      simp only [State.tile_updMtx, aget_aset_self, true_and, and_true]
      exact ⟨fun j hj => accLoaded_in x.acc hj, fun j hj => accLoaded_other x.acc hj, rfl⟩
    case mpass =>
      intro go
      rw [cp0Start_mpass hq hi hn]
      refine ⟨fun hr hx => congrArg _ (startPass_idle hr hx), fun hr hx => congrArg _ (startPass_up hr hx), fun hr hx => ?_,
        fun h => congrArg _ (startPass_unramped h)⟩
      obtain ⟨step, hstep, hdown⟩ := startPass_down (rest := rest) hr hx
      exact ⟨step, hstep, congrArg _ hdown⟩
    case mdrain =>
      rw [exec_drainStart hp ho hq hi, cp0Start_mdrain hq hf hs hi hb]
      exact ⟨rfl, rfl⟩
  case feed =>
    intro x w key
    refine ⟨_, (exec_passFeedStart hp ho [] false).trans (congrArg _ (passFeed_clean hs hh hb hw)), ?_⟩
    simp only [State.tile_updMtx, true_and, and_true]
    exact ⟨fun m hm n hn => accPassed_in x.acc hm hn, fun j hj => accPassed_other x.acc hj, rfl⟩
  case time =>
    intro x
    exact ⟨mtxTick_last, mtxTick_more, exec_rampDown hp, exec_rampDown_other, exec_mtxErr hp ho,
      fun why a => ⟨exec_drainWriteFailure_none why, exec_drainWriteFailure hp why⟩⟩

end Sys2Proof.Machine
end

section
/-! SUPPORT. The mover: descriptors and their units, the queue registers, the start, the units and the end of a descriptor, and the
proof of O27. -/

namespace Sys2Proof.Machine

open Sys2Proof

/-! ### Descriptors (R357) -/

/-- Each byte of I4X data gives two: its low nibble, then its high one, sign-extended. -/
theorem expandI4_getElem? {bs : List Byte} {k : Nat} {b : Byte} (h : bs[k]? = some b) :
    (expandI4 bs)[2 * k]? = some ((b.extractLsb' 0 4).signExtend 8) ∧
      (expandI4 bs)[2 * k + 1]? = some ((b.extractLsb' 4 4).signExtend 8) := by
  induction bs generalizing k with
  | nil => simp at h
  | cons c bs ih =>
    cases k with
    | zero =>
      obtain rfl : c = b := by simpa using h
      exact ⟨rfl, rfl⟩
    | succ k =>
      rw [List.getElem?_cons_succ] at h
      exact ih h

section Unit

variable {d : Desc}

/-- The bytes of a row, an element or a unit. -/
theorem wfld_low (w : Word) : wfld w 0 32 = w.toNat % 2 ^ 32 := by simp only [wfld, fld, pow_zero, Nat.div_one]

variable (i : Nat) (bs : List Byte) (x : Int)

theorem unit_copy (h : d.type = 0) :
    d.units = wfld d.p0 32 16 + 1 ∧ unitSrc d i x = some (stepAddr d.src (toInt 32 (wfld d.p1 0 32)) i, d.p0.toNat % 2 ^ 32) ∧
      unitData d (unitDst d i x) bs = [(stepAddr d.dst (toInt 32 (wfld d.p1 32 32)) i, bs)] := by
  simp only [Desc.units, unitSrc, unitDst, unitData, h, ← wfld_low, List.map_cons, List.map_nil, and_self]

/-- Position `k` of a SKEW row lies on its diagonal; those past the row's elements are filled with zeros (R292). -/
theorem unit_skew (h : d.type = 1) :
    d.units = wfld d.p0 0 8 + 1 ∧ unitSrc d i x = some (stepAddr d.src (wfld d.p1 0 32 : Nat) i, wfld d.p0 8 8 * d.skSize) ∧
      ∀ k < 32, (unitData d (unitDst d i x) bs)[k]? =
        some (aliasAddr (d.dst.toNat + (i + k) * d.skLine + k * d.skSize),
          if k < wfld d.p0 8 8 then (bs.drop (k * d.skSize)).take d.skSize else List.replicate d.skSize 0) := by
  refine ⟨?_, ?_, fun k hk => ?_⟩
  · simp only [Desc.units, h]
  · simp only [unitSrc, h]
  · simp only [unitData, unitDst, h, List.getElem?_map, List.zip, List.getElem?_zipWith, List.getElem?_range hk, Option.map_some]

theorem unit_gather (h : d.type = 2) :
    unitSrc d i x = some (d.src + BitVec.ofInt 64 (x * d.p2.toInt), d.p0.toNat % 2 ^ 32) ∧
      unitData d (unitDst d i x) bs = [(d.dst + BitVec.ofNat 64 (i * (d.p0.toNat % 2 ^ 32)), bs)] := by
  simp only [unitSrc, unitDst, unitData, h, ← wfld_low, List.map_cons, List.map_nil, and_self]

theorem unit_scatter (h : d.type = 3) :
    unitSrc d i x = some (d.src + BitVec.ofNat 64 (i * (d.p0.toNat % 2 ^ 32)), d.p0.toNat % 2 ^ 32) ∧
      unitData d (unitDst d i x) bs = [(d.dst + BitVec.ofInt 64 (x * d.p2.toInt), bs)] := by
  simp only [unitSrc, unitDst, unitData, h, ← wfld_low, List.map_cons, List.map_nil, and_self]

theorem unit_zero (h : d.type = 4) :
    unitSrc d i x = none ∧ unitData d (unitDst d i x) bs =
      [(d.dst + BitVec.ofNat 64 (4096 * i), List.replicate (min 4096 (wfld d.p0 0 40 - 4096 * i)) 0)] := by
  simp only [unitSrc, unitDst, unitData, h, List.map_cons, List.map_nil, and_self]

theorem unit_i4x (h : d.type = 5) :
    unitSrc d i x = some (stepAddr d.src (wfld d.p1 0 32 : Nat) i, (d.p0.toNat % 2 ^ 32 + 1) / 2) ∧
      unitData d (unitDst d i x) bs =
        [(stepAddr d.dst (wfld d.p1 32 32 : Nat) i, (expandI4 bs).take (d.p0.toNat % 2 ^ 32))] := by
  simp only [unitSrc, unitDst, unitData, h, ← wfld_low, List.map_cons, List.map_nil, and_self]

end Unit

/-! ### Queue registers (R351, R352) -/

theorem qbaseWrite_eq (m : MovQ) (v : Word) :
    qbaseWrite m v = if m.state = .idle ∧ wfld v 0 4 ≤ 10 then
      { m with base := wfld v 8 32 * 256, lsz := wfld v 0 4, head := 0, tail := 0 } else m := by
  by_cases hs : m.state = .idle
  · by_cases hl : wfld v 0 4 ≤ 10
    · simp [qbaseWrite, hs, hl]
    · simp [qbaseWrite, hs, hl, Nat.not_le.mp hl]
  · simp [qbaseWrite, hs]

theorem qtailWrite_eq (m : MovQ) (v : Word) :
    qtailWrite m v = if wfld v 0 16 < 2 ^ (m.lsz + 2) then { m with tail := wfld v 0 16 } else { m with berr := true } := by
  by_cases hr : wfld v 0 16 < 2 ^ (m.lsz + 2)
  · rw [qtailWrite, ringSize, if_neg (Nat.not_le.mpr hr), if_pos hr]
  · rw [qtailWrite, ringSize, if_pos (Nat.not_lt.mp hr), if_neg hr]

theorem movOn_run {s : State} {t : TileId} (hp : s.power = .run) (ho : (s.tile t.val).oos = false) (r : State) : movOn s t r = r := by
  simp only [movOn, hp, ho, decide_true, Bool.not_false, Bool.and_self, if_true]

section Queue

variable {s u : State} {t q : Nat} {bs : List Byte}

/-- Skip and resume act only on a halted queue. -/
theorem qSkip_other (h : (s.movq t q).state ≠ .halted) : qSkip s t q = s := if_neg h
theorem qResume_other (h : (s.movq t q).state ≠ .halted) : qResume s t q = s := if_pos h

section Halted

variable (h : (s.movq t q).state = .halted)
include h

theorem qSkip_halted :
    qSkip s t q = movAdvance (writeStat s t q (3 * 2 ^ 30 + b2n (s.movq t q).late * 2 ^ 29 + b2n (s.movq t q).sigf * 2 ^ 28 +
      (s.movq t q).code * 2 ^ 16 + (s.movq t q).idx)).1 t q := if_pos h

/-- After a fault of the data the descriptor starts again at the unit that failed. -/
theorem qResume_data (hs : (s.movq t q).sigf = false) : qResume s t q = movBegin s t q none (s.movq t q).idx := by
  simp only [qResume, h, hs, ne_eq, not_true_eq_false, if_false, Bool.false_eq_true]

/-- After a fault of the signal only the completion is left. -/
theorem qResume_signal (hs : (s.movq t q).sigf = true) (hw : placeWin s t (taskQ q) (headAddr (s.movq t q)) 64 rightR 2 2 = none)
    (hr : agentRead s t (headAddr (s.movq t q)) 64 = (u, .ok bs)) :
    qResume s t q = u.updMovq t q fun m =>
      { m with state := .running, active := some ⟨bs, (descOf bs).units, false, true, [], 0⟩ } := by
  simp only [qResume, h, hs, hw, hr, ne_eq, not_true_eq_false, if_false, if_true]

end Halted

/-! ### A descriptor starts (R358 to R361) -/

/-- A descriptor is active at its first unit, its queue in state `st`. -/
def movActivated (u : State) (t q : Nat) (bs : List Byte) (st : MovState) : State :=
  u.updMovq t q fun m => { m with state := st, active := some ⟨bs, 0, false, false, [], 0⟩ }

/-- A ring outside the places and windows halts the queue with code 2. -/
theorem movBegin_place {y : Nat × Word} (hw : placeWin s t (taskQ q) (headAddr (s.movq t q)) 64 rightR 2 2 = some y)
    (want : Option Nat) (i : Nat) : movBegin s t q want i = movHalt s t q 0 2 y.2 false false none := by
  simp only [movBegin, hw]

section Read

variable (hw : placeWin s t (taskQ q) (headAddr (s.movq t q)) 64 rightR 2 2 = none)
  (hr : agentRead s t (headAddr (s.movq t q)) 64 = (u, .ok bs))
include hw hr

/-- A descriptor of another type is left to the command of its own type. -/
theorem movBegin_other {ty : Nat} (hd : (descOf bs).type ≠ ty) (hk : (descOf bs).type ≤ 5) (i : Nat) :
    movBegin s t q (some ty) i = u := by
  simp only [movBegin, hw, hr, hd, hk, ne_eq, not_false_eq_true, decide_true, Bool.and_self, if_true]

theorem movBegin_bad {ty : Nat} (hd : (descOf bs).type = ty) (hk : (descOf bs).ok = false) (i : Nat) :
    movBegin s t q (some ty) i = movHalt u t q 0 1 (headAddr (s.movq t q)) false false none := by
  simp only [movBegin, hw, hr, hd, hk, ne_eq, not_true_eq_false, decide_false, Bool.false_and, Bool.false_eq_true, if_false,
    Bool.not_false, if_true]

section Good

variable {ty : Nat} (hd : (descOf bs).type = ty) (hk : (descOf bs).ok = true)
include hd hk

theorem movBegin_small (hn : (descOf bs).total < 65536) : movBegin s t q (some ty) 0 = movActivated u t q bs .running := by
  simp only [movBegin, hw, hr, hd, hk, Nat.not_le.mpr hn, ne_eq, not_true_eq_false, decide_false, Bool.false_and, Bool.false_eq_true,
    if_false, Bool.not_true, movActivated]

/-- One that writes 65536 bytes or more waits for a grant of 2 W on its die (R361). -/
theorem movBegin_large (hn : 65536 ≤ (descOf bs).total) (hi : 0 < (descOf bs).units) :
    movBegin s t q (some ty) 0 =
      requestGrant (movActivated u t q bs .waitGrant) (.mover t q) 2 (some (dieOfTile t)) (rtTile u t) := by
  simp only [movBegin, hw, hr, hd, hk, hn, hi, ne_eq, not_true_eq_false, decide_false, decide_true, Bool.false_and, Bool.and_self,
    Bool.false_eq_true, if_false, if_true, Bool.not_true]
  rfl

end Good

end Read

/-! ### Units (R358, R359) -/

section Unit

variable {a : MovActive} {fail : Option ReadFail} (hf : (flushRel u t q).2 = true)
include hf

/-- A check or a read that fails halts the queue at its unit, once the writes of the unit before are performed. -/
theorem movUnit_halts {c : Nat} {x : Word} {e : Option AccErr}
    (hu : runUnit s t (taskQ q) (descOf a.desc) a.unit fail = (u, .error (c, x, e))) :
    movUnit s t q a fail = movHalt (flushRel u t q).1 t q a.unit c x false false e := by
  simp only [movUnit, hu, hf, if_true]

theorem movUnit_releases {ws : List (Word × List Byte)} {n : Nat}
    (hu : runUnit s t (taskQ q) (descOf a.desc) a.unit fail = (u, .ok (ws, n))) :
    movUnit s t q a fail = (flushRel u t q).1.updMovq t q fun m => { m with active := some { a with
      unit := a.unit + 1, xact := n
      released := ws.map fun w => (a.unit, (match localAddr u w.1 with | some l => l | none => w.1.toNat), w.2) } } := by
  simp only [movUnit, hu, hf, if_true] <;> rfl

end Unit

/-! ### Completion (R363) -/

section Complete

variable {d : Desc} {w : State} (hf : flushRel s t q = (u, true)) (hs : writeStat u t q (2 ^ 30) = (w, true))
include hf hs

theorem movComplete_unsigned (hd : d.sig = false) : movComplete s t q d = movAdvance w t q := by
  simp only [movComplete, hf, hs, hd, Bool.not_true, Bool.not_false, Bool.false_eq_true, if_false, if_true]

variable (hd : d.sig = true)
include hd

theorem movComplete_misaligned (ha : wfld d.sigaddr 0 3 ≠ 0) :
    movComplete s t q d = movHalt w t q 0 11 d.sigaddr false true none := by
  simp only [movComplete, hf, hs, hd, ha, ne_eq, not_false_eq_true, Bool.not_true, Bool.false_eq_true, if_false, if_true]

theorem movComplete_signals {z : State} (ha : wfld d.sigaddr 0 3 = 0)
    (hw : placeWin w t (taskQ q) d.sigaddr 8 (if d.sigadd then rightRW else rightW) 11 11 = none)
    (hz : agentSignal w t d.sigaddr d.sigadd d.sigval = (z, none)) : movComplete s t q d = movAdvance z t q := by
  simp only [movComplete, hf, hs, hd, ha, hw, hz, ne_eq, not_true_eq_false, Bool.not_true, Bool.false_eq_true, if_false]

end Complete

end Queue

/-! ### The commands -/

section Command

variable {s u : State} {t : TileId} {q : Fin 4}

theorem movStart_rests (h : (s.movq t.val q.val).state ≠ .idle ∨ (s.movq t.val q.val).head = (s.movq t.val q.val).tail) (ty : Nat) :
    movStart t q ty s = .next s := by
  obtain h | h := h
  · simp only [movStart, h, decide_false, Bool.and_false, Bool.false_and, Bool.false_eq_true, if_false]
  · simp only [movStart, h, ne_eq, not_true_eq_false, decide_false, Bool.and_false, Bool.false_eq_true, if_false]

section On

variable (hp : s.power = .run)
include hp

theorem movStart_begins (ho : (s.tile t.val).oos = false) (hi : (s.movq t.val q.val).state = .idle)
    (hne : (s.movq t.val q.val).head ≠ (s.movq t.val q.val).tail) (ty : Nat) :
    movStart t q ty s = .next (movBegin s t.val q.val (some ty) 0) := by
  simp only [movStart, hp, ho, hi, hne, ne_eq, not_false_eq_true, decide_true, Bool.not_false, Bool.and_self, if_true]

/-- What the command of a descriptor type does with an idle queue's descriptor at head. -/
theorem movStart_cases (ho : (s.tile t.val).oos = false) (ty : Nat) :
    let m := s.movq t.val q.val
    let head := headAddr m
    (m.state ≠ .idle ∨ m.head = m.tail → movStart t q ty s = .next s) ∧
    (m.state = .idle → m.head ≠ m.tail →
      (∀ y, placeWin s t.val (taskQ q.val) head 64 rightR 2 2 = some y →
        movStart t q ty s = .next (movHalt s t.val q.val 0 2 y.2 false false none)) ∧
      (∀ u bs, placeWin s t.val (taskQ q.val) head 64 rightR 2 2 = none → agentRead s t.val head 64 = (u, .ok bs) →
        let d := descOf bs
        (d.type ≠ ty → d.type ≤ 5 → movStart t q ty s = .next u) ∧
        (d.type = ty → d.ok = false → movStart t q ty s = .next (movHalt u t.val q.val 0 1 head false false none)) ∧
        (d.type = ty → d.ok = true → d.total < 65536 → movStart t q ty s = .next (movActivated u t.val q.val bs .running)) ∧
        (d.type = ty → d.ok = true → 65536 ≤ d.total → 0 < d.units → movStart t q ty s = .next
          (requestGrant (movActivated u t.val q.val bs .waitGrant) (.mover t.val q.val) 2 (some (dieOfTile t.val))
            (rtTile u t.val))))) := by
  intro m head
  refine ⟨fun h => movStart_rests h ty, fun hi hne => ?_⟩
  rw [movStart_begins hp ho hi hne ty]
  refine ⟨fun y hw => congrArg _ (movBegin_place hw _ _), fun u bs hw hr => ?_⟩
  exact ⟨fun hd hk => congrArg _ (movBegin_other hw hr hd hk 0), fun hd hk => congrArg _ (movBegin_bad hw hr hd hk 0),
    fun hd hk hn => congrArg _ (movBegin_small hw hr hd hk hn), fun hd hk hn hi => congrArg _ (movBegin_large hw hr hd hk hn hi)⟩

section Active

variable {a : MovActive} (hr : (s.movq t.val q.val).state = .running) (ha : (s.movq t.val q.val).active = some a)
include hr ha

/-- A unit waits while the other queues of its tile leave no transaction free (R358). -/
theorem execMoverUnitRead_eq (hs : a.sigOnly = false) (hu : a.unit < (descOf a.desc).units) (fail : Option ReadFail) :
    execMoverUnitRead t q fail s = .next (if xactFree s t.val q.val then movUnit s t.val q.val a fail else s) := by
  simp only [execMoverUnitRead, hr, ha, hp, hs, hu, decide_true, Bool.not_false, Bool.true_and]

theorem execDescriptorCompletion_eq (hu : (descOf a.desc).units ≤ a.unit) :
    execDescriptorCompletion t q s = .next (movComplete s t.val q.val (descOf a.desc)) := by
  simp only [execDescriptorCompletion, hr, ha, hp, hu, decide_true, Bool.or_true, Bool.and_self, if_true]

end Active

/-- A released write that fails: the bytes of the other lines are written, and the queue halts at its unit with late set. -/
theorem execMoverWriteFailure_hit {a : MovActive} {w : Nat × Nat × List Byte} {unit : Nat} {addr : Word}
    (ha : (s.movq t.val q.val).active = some a) (hw : w ∈ a.released) (hn : w.1 = unit) (hlo : w.2.1 ≤ addr.toNat)
    (hhi : addr.toNat < w.2.1 + w.2.2.length) (why : ReadFail) :
    execMoverWriteFailure t q unit why addr s =
      let keep := a.released.flatMap fun w =>
        ((linesOf w.2.1 w.2.2).filter fun p => p.1 / 128 ≠ addr.toNat / 128).map fun p => (w.1, p.1, p.2)
      .next (movHalt (performRel (s.updMovq t.val q.val fun m => { m with active := some { a with released := keep } })
        t.val q.val).1 t.val q.val unit (lateCode why) addr true false (some (readFail why))) := by
  have hit : (a.released.any fun w =>
      w.1 = unit && decide (w.2.1 ≤ addr.toNat) && decide (addr.toNat < w.2.1 + w.2.2.length)) = true :=
    List.any_eq_true.mpr ⟨w, hw, by simp only [hn, hlo, hhi, decide_true, Bool.and_self]⟩
  simp only [execMoverWriteFailure, ha, hit, hp, ne_eq, not_true_eq_false, decide_false, Bool.not_true, Bool.or_self,
    Bool.false_eq_true, if_false]

end On

theorem execMoverWriteFailure_none (ha : (s.movq t.val q.val).active = none) (unit : Nat) (why : ReadFail) (addr : Word) :
    execMoverWriteFailure t q unit why addr s = .next s := by
  simp only [execMoverWriteFailure, ha]

end Command

/-- Settles O27: a unit's addresses and data by its descriptor's type, and each command by the rule of what it does with its queue. -/
theorem mover : Obligations.Mover := by
  unfold Obligations.Mover
  refine ⟨fun bs k b h => expandI4_getElem? h, fun d i bs x => ?unit, fun s t q hp ho => ?queue⟩
  case unit =>
    exact ⟨unit_copy i bs x, unit_skew i bs x, unit_gather i bs x, unit_scatter i bs x, unit_zero i bs x, unit_i4x i bs x⟩
  case queue =>
    intro m upd head task
    have hon (r : State) : movOn s t r = r := movOn_run hp ho r
    refine ⟨fun v => ⟨?_, ?_⟩, congrArg _ (hon _), fun hs => ⟨?_, ?_⟩, fun hs => ⟨?_, fun hf => ?_, fun u bs hf hw hr => ?_⟩,
      ?start, fun a fail hr ha hso hu => ?read, fun a hr ha hu => ?complete, fun unit why addr => ⟨?_, ?failure⟩⟩
    · exact congrArg _ ((hon _).trans (congrArg upd (funext fun m => qbaseWrite_eq m v)))
    · exact congrArg _ ((hon _).trans (congrArg upd (funext fun m => qtailWrite_eq m v)))
    · exact congrArg _ ((hon _).trans (qSkip_other hs))
    · exact congrArg _ ((hon _).trans (qResume_other hs))
    · exact congrArg _ ((hon _).trans (qSkip_halted hs))
    · exact congrArg _ ((hon _).trans (qResume_data hs hf))
    · exact congrArg _ ((hon _).trans (qResume_signal hs hf hw hr))
    case start =>
      simp only [List.forall_mem_cons]
      exact ⟨movStart_cases hp ho 0, movStart_cases hp ho 1, movStart_cases hp ho 2, movStart_cases hp ho 3, movStart_cases hp ho 4,
        movStart_cases hp ho 5, List.forall_mem_nil _⟩
    case read =>
      have hgo : exec (.moverUnitRead t q fail) s = .next (if xactFree s t.val q.val then movUnit s t.val q.val a fail else s) :=
        execMoverUnitRead_eq hp hr ha hso hu fail
      rw [hgo]
      refine ⟨fun hx => congrArg _ (if_neg (Bool.eq_false_iff.mp hx)), fun u c x e hx hrun hf => congrArg _ ?_,
        fun u ws n hx hrun hf => congrArg _ ?_⟩
      · exact (if_pos hx).trans (movUnit_halts hf hrun)
      · exact (if_pos hx).trans (movUnit_releases hf hrun)
    case complete =>
      intro d adv u w hf hs
      have hgo : exec (.descriptorCompletion t q) s = .next (movComplete s t.val q.val d) := execDescriptorCompletion_eq hp hr ha hu
      rw [hgo]
      exact ⟨fun hd => congrArg _ (movComplete_unsigned hf hs hd), fun hd hm => congrArg _ (movComplete_misaligned hf hs hd hm),
        fun z hd hm hw hz => congrArg _ (movComplete_signals hf hs hd hm hw hz)⟩
    · exact fun ha => execMoverWriteFailure_none ha unit why addr
    case failure =>
      intro a w ha hw hn hlo hhi keep
      refine (execMoverWriteFailure_hit hp ha hw hn hlo hhi why).trans ?_
      cases why <;> rfl

end Sys2Proof.Machine
end

section
/-! SUPPORT. Remote reads, writes and stores, the data of remote loads and copies, the inboxes of a tile, and the proof of O29. -/

namespace Sys2Proof.Machine

open Sys2Proof

/-! ### Writes held back (R326) -/

section HoldBack

variable {s : State} (w : HeldWrite) (go : State → State)

theorem holdBack_held {u : Nat} (hc : (s.tile u).l1.change ≠ none) :
    holdBack s (some u) w go = s.updL1 u fun x => { x with held := x.held ++ [w] } := by
  rw [holdBack, if_pos (Option.isSome_iff_ne_none.mpr hc)]

theorem holdBack_passes {own : Option Nat} (hc : ∀ u, own = some u → (s.tile u).l1.change = none) : holdBack s own w go = go s := by
  cases own with
  | none => rfl
  | some u => simp only [holdBack, hc u rfl, Option.isSome_none, Bool.false_eq_true, if_false]

end HoldBack

/-! ### Remote accesses that arrive (R366, R367) -/

section Remote

variable {s u : State} {src : Gid} {addr : Word} {len l tag : Nat}

/-- An admitted access lies at its local address, outside the graph region when it writes, and in a remote window with its right. -/
theorem remoteOk_admits {w : Bool} (h : remoteOk s addr len w = some l) :
    localAddr s addr = some l ∧ (w = true → inGraphRegion s l len = false) ∧
      ∃ i < 8, (aget 0 s.gal.rwinLo i).getLsbD (b2n w) = true := by
  cases ha : localAddr s addr with
  | none => simp [remoteOk, ha] at h
  | some k =>
    simp only [remoteOk, ha] at h
    obtain ⟨hadmit, hk⟩ := Option.ite_none_right_eq_some.mp h
    simp only [Bool.and_eq_true, Bool.not_eq_true', Bool.and_eq_false_iff, List.any_eq_true, List.mem_range] at hadmit
    obtain ⟨⟨-, i, hi, ⟨hright, -⟩, -⟩, hgraph⟩ := hadmit
    obtain rfl : k = l := Option.some.inj hk
    exact ⟨rfl, fun hw => hgraph.resolve_left (by simp [hw]), i, hi, hright⟩

section Read

variable (hp : s.power = .run)
include hp

theorem execRemoteRead_refused (h : remoteOk s addr len false = none) :
    execRemoteRead src addr len tag s = .next (galSend s (.readReply src tag (.failed 6))) := by
  simp only [execRemoteRead, hp, h, ne_eq, not_true_eq_false, if_false]
  rfl

theorem execRemoteRead_data {bs : List Byte} (h : remoteOk s addr len false = some l) (hr : busRead s none l len = (u, .ok bs)) :
    execRemoteRead src addr len tag s = .next (galSend u (.readReply src tag (.data bs))) := by
  simp only [execRemoteRead, hp, h, hr, ne_eq, not_true_eq_false, if_false]

theorem execRemoteRead_failed {e : AccErr × Nat} (h : remoteOk s addr len false = some l)
    (hr : busRead s none l len = (u, .error e)) :
    execRemoteRead src addr len tag s = .next (galSend u (.readReply src tag (.failed (BitVec.ofNat 8 (accCode gRemoteWin e.1))))) := by
  simp only [execRemoteRead, hp, h, hr, ne_eq, not_true_eq_false, if_false]

/-- A remote write comes to the tile whose scratch it names. -/
theorem execRemoteWrite_eq (add : Bool) (data : List Byte) :
    execRemoteWrite src addr ⟨add, data⟩ tag s =
      .next (holdBack s ((localAddr s addr).bind (scratchOwner s)) (.remote src addr add data tag)
        (remoteWrite · src addr add data tag)) := by
  simp only [execRemoteWrite, hp, ne_eq, not_true_eq_false, if_false]

end Read

section Write

variable {add : Bool} {data : List Byte}

theorem remoteWrite_refused (h : remoteOk s addr data.length true = none) :
    remoteWrite s src addr add data tag = galSend s (.writeAck src tag false) := by
  simp only [remoteWrite, h]

theorem remoteWrite_performed (h : remoteOk s addr data.length true = some l) :
    remoteWrite s src addr add data tag =
      let r := if add then busAdd s none l data.length (ofBytes data) else busWrite s none l data
      galSend r.1 (.writeAck src tag r.2.isNone) := by
  simp only [remoteWrite, h]

end Write

end Remote

/-! ### Remote stores and loads of a core (R323, R368) -/

section Core

variable {s : State} {t : TileId}

theorem execRemoteStoreAcknowledgement_none (h : (s.tile t.val).core.remote = []) (ok : Bool) :
    execRemoteStoreAcknowledgement t ok s = .next s := by
  simp only [execRemoteStoreAcknowledgement, h]

/-- The oldest remote store retires; a refused one leaves a late store error. -/
theorem execRemoteStoreAcknowledgement_oldest {e : BufEntry} {es : List BufEntry} (h : (s.tile t.val).core.remote = e :: es)
    (ok : Bool) :
    let pop := s.updCore (.tile t) fun k => { k with remote := es }
    execRemoteStoreAcknowledgement t ok s = .next (if ok then pop else recordLate pop (.tile t) e.addr 1) := by
  simp only [execRemoteStoreAcknowledgement, h]

theorem loadArrives_none (h : (s.tile t.val).core.waitLoad = none) (r : ReadResp) : loadArrives s t r = s := by
  simp only [loadArrives, h]

section Waiting

variable {p : PendLoad} (h : (s.tile t.val).core.waitLoad = some p)
include h

/-- The data of a scalar load goes, extended, to its register, and the core goes on. -/
theorem loadArrives_register (hs : p.str = false) (bs : List Byte) :
    loadArrives s t (.data bs) =
      (addSteps ((s.updCore (.tile t) fun k => { k with waitLoad := none }).setReg (.tile t) p.rd (extend p.signed (bs.take p.size)))
        (.tile t) 1).updCore (.tile t) fun k => goNext k k.pc p.len := by
  simp only [loadArrives, h, hs, Bool.false_eq_true, if_false]

theorem loadArrives_string (hs : p.str = true) (bs : List Byte) :
    loadArrives s t (.data bs) = (s.updCore (.tile t) fun k => { k with waitLoad := none }).updCore (.tile t) fun k =>
      { k with strData := k.strData ++ [(p.addr, bs.take p.size)] } := by
  simp only [loadArrives, h, hs, if_true]

theorem loadArrives_failed (e : BitVec 8) :
    loadArrives s t (.failed e) =
      let ends := s.updCore (.tile t) fun k => { k with waitLoad := none }
      takeFault ends (.tile t) { code := cLoadBus, addr := p.addr } (ends.tile t.val).core.pc := by
  simp only [loadArrives, h]

end Waiting

theorem execRemoteReadResponse_load (hp : s.power = .run) (off : Nat) (r : ReadResp) :
    execRemoteReadResponse t none off r s = .next (loadArrives s t r) := by
  simp only [execRemoteReadResponse, hp, ne_eq, not_true_eq_false, if_false]

end Core

/-! ### The data of a `gget` (R378) -/

section Get

variable {s u : State} {t : TileId} {o : GalOp} {f : LC} {off : Nat}

/-- The tile whose scratch an operation's destination names. -/
def destOwner (s : State) (t : Nat) (o : GalOp) : Option Nat :=
  match (localAddr s (blkWord o.block 0x10)).map fun l => target s (some t) l 1 with
  | some (.scratch u _) => some u
  | _ => none

variable (h : findOp s t.val o.id = some o)
include h

theorem execRemoteReadResponse_piece (hp : s.power = .run) (hc : ∀ u, destOwner s t.val o = some u → (s.tile u).l1.change = none)
    (r : ReadResp) : execRemoteReadResponse t (some o.id) off r s = .next (getArrives s t.val o.id off r) := by
  simp only [execRemoteReadResponse, hp, h, ne_eq, not_true_eq_false, if_false, Option.bind_some]
  exact congrArg _ (holdBack_passes _ _ hc)

variable (hi : o.instr = .gget t f)
include hi

theorem getArrives_failed (e : BitVec 8) :
    getArrives s t.val o.id off (.failed e) = finishOp s t.val o.id e.toNat (unitsDone o.got (copyBytes o.block)) := by
  simp only [getArrives, h, hi]

/-- A piece that lies in the operation's bytes is written, and counted among those that arrived. -/
theorem getArrives_data {bs : List Byte} (hn : off + bs.length ≤ copyBytes o.block) (hg : o.needGrant = false ∨ o.grant = true)
    (hw : agentWrite s t.val (blkWord o.block 0x10 + BitVec.ofNat 64 off) bs = (u, none)) :
    getArrives s t.val o.id off (.data bs) = updOp u t.val o.id fun o => { o with got := (off, bs.length) :: o.got } := by
  have htakes : (decide (copyBytes o.block < off + bs.length) || (o.needGrant && !o.grant)) = false := by
    rw [decide_eq_false (Nat.not_lt.mpr hn), Bool.false_or]
    obtain hg | hg := hg
    · rw [hg, Bool.false_and]
    · rw [hg, Bool.not_true, Bool.and_false]
  simp only [getArrives, h, hi, htakes, hw, Bool.false_eq_true, if_false]

end Get

/-! ### Inboxes: reservations and registers (R392, R393, R397, R398) -/

section Inbox

variable {s : State} {t : TileId} {i : InboxNo}

section Reservation

variable {src : Gid} {req n row : Nat} {hold : List Bool} (hp : s.power = .run)
include hp

theorem execInboxReservation_refused
    (h : (s.tile t.val).oos = true ∨ (s.inbox t.val i.val).en = false ∨ 128 * (s.inbox t.val i.val).pitch < row) :
    execInboxReservation t i src req n hold row s = .next (galSend s (.refuse src req (inboxRef s t.val i.val))) := by
  have hbad : ((s.tile t.val).oos || !(s.inbox t.val i.val).en || decide (128 * (s.inbox t.val i.val).pitch < row)) = true := by
    obtain h | h | h := h
    · rw [h, Bool.true_or, Bool.true_or]
    · rw [h, Bool.not_false, Bool.or_true, Bool.true_or]
    · rw [decide_eq_true h, Bool.or_true]
  simp only [execInboxReservation, hp, hbad, ne_eq, not_true_eq_false, if_false, if_true]

/-- The slots that a reservation gets at once: none while others wait. -/
def slotsNow (x : Inbox) (n : Nat) : Nat := if x.waiters = [] then min n (inboxFree x) else 0

/-- The trips of a reservation that are left without a slot and ask to hold. -/
def tripsHeld (x : Inbox) (n : Nat) (hold : List Bool) : Nat := (((hold.take n).drop (slotsNow x n)).filter id).length

section Served

variable (ho : (s.tile t.val).oos = false) (he : (s.inbox t.val i.val).en = true) (hr : row ≤ 128 * (s.inbox t.val i.val).pitch)
include ho he hr

/-- An inbox that serves a reservation grants the slots that are free; of the trips without a slot those that hold wait, where the
queue has a place. -/
theorem execInboxReservation_served :
    execInboxReservation t i src req n hold row s = .next (
      let granted := grantSlots s t.val i.val src req (slotsNow (s.inbox t.val i.val) n)
      let wait := tripsHeld (s.inbox t.val i.val) n hold
      if 0 < wait && (s.inbox t.val i.val).waiters.length < 64 then
        granted.updInbox t.val i.val fun x => { x with waiters := x.waiters ++ [⟨src, req, wait⟩] }
      else granted) := by
  have hserves : ((s.tile t.val).oos || !(s.inbox t.val i.val).en || decide (128 * (s.inbox t.val i.val).pitch < row)) ≠ true := by
    simp only [ho, he, Nat.not_lt.mpr hr, Bool.not_true, decide_false, Bool.or_self, ne_eq, Bool.false_eq_true, not_false_eq_true]
  exact congrArg _ ((if_neg (not_not.mpr hp)).trans (if_neg hserves))

theorem execInboxReservation_grants (hw : tripsHeld (s.inbox t.val i.val) n hold = 0 ∨ 64 ≤ (s.inbox t.val i.val).waiters.length) :
    execInboxReservation t i src req n hold row s =
      .next (grantSlots s t.val i.val src req (slotsNow (s.inbox t.val i.val) n)) := by
  refine (execInboxReservation_served hp ho he hr).trans (congrArg _ (if_neg ?_))
  rw [Bool.and_eq_true, decide_eq_true_eq, decide_eq_true_eq]
  omega

theorem execInboxReservation_waits (hw : 0 < tripsHeld (s.inbox t.val i.val) n hold)
    (hl : (s.inbox t.val i.val).waiters.length < 64) :
    execInboxReservation t i src req n hold row s =
      .next ((grantSlots s t.val i.val src req (slotsNow (s.inbox t.val i.val) n)).updInbox t.val i.val fun x =>
        { x with waiters := x.waiters ++ [⟨src, req, tripsHeld (s.inbox t.val i.val) n hold⟩] }) := by
  refine (execInboxReservation_served hp ho he hr).trans (congrArg _ (if_pos ?_))
  rw [decide_eq_true hw, decide_eq_true hl, Bool.and_self]

end Served

end Reservation

/-- An inbox as a write of GAL_IBCFG leaves it: only en changes while slots are reserved (R397). -/
def ibcfgSet (v : Word) (x : Inbox) : Inbox :=
  if x.resv ≠ x.head then { x with en := v.getLsbD 63 }
  else { x with en := v.getLsbD 63, nslots := wfld v 40 12, pitch := wfld v 31 9, hdr := wfld v 16 15, rows := wfld v 0 12 }

section Registers

variable {v : Word}

theorem ibcfgWrite_enabled (hv : v.getLsbD 63 = true) :
    ibcfgWrite s t.val i.val v = serveInbox (s.updInbox t.val i.val (ibcfgSet v)) t.val i.val := if_pos hv

/-- A write that clears en refuses the waiters. -/
theorem ibcfgWrite_disabled (hv : v.getLsbD 63 = false) :
    ibcfgWrite s t.val i.val v =
      (s.inbox t.val i.val).waiters.foldl (fun s w => galSend s (.refuse w.src w.req (inboxRef s t.val i.val)))
        (s.updInbox t.val i.val fun x => { ibcfgSet v x with waiters := [] }) := if_neg (Bool.eq_false_iff.mp hv)

theorem execGalIbcfg_eq (hp : s.power = .run) : execGalIbcfg t i v s = .next (ibcfgWrite s t.val i.val v) := congrArg _ (if_pos hp)
theorem execGalIbptr_eq (hp : s.power = .run) : execGalIbptr t i v s = .next (ibptrWrite s t.val i.val v) := congrArg _ (if_pos hp)

/-- How far a write of GAL_IBPTR moves head, modulo 2^16 (R398). -/
def headMove (x : Inbox) (v : Word) : Nat := (wfld v 0 16 + 65536 - x.head % 65536) % 65536

theorem headMove_eq (x : Inbox) (v : Word) : headMove x v = (v.toNat % 65536 + 65536 - x.head % 65536) % 65536 := by
  simp only [headMove, wfld, fld, pow_zero, Nat.div_one, Nat.reducePow]

theorem ibptrWrite_moves (h : headMove (s.inbox t.val i.val) v ≤ (s.inbox t.val i.val).tail - (s.inbox t.val i.val).head) :
    ibptrWrite s t.val i.val v =
      serveInbox (s.updInbox t.val i.val fun x => { x with head := x.head + headMove (s.inbox t.val i.val) v }) t.val i.val := if_pos h

theorem ibptrWrite_discarded (h : (s.inbox t.val i.val).tail - (s.inbox t.val i.val).head < headMove (s.inbox t.val i.val) v) :
    ibptrWrite s t.val i.val v = s := if_neg (Nat.not_le.mpr h)

end Registers

/-! ### Inboxes: rows and void slots (R395, R398 to R400) -/

section Rows

variable {slot : Nat} {hdr : RowHeader} {row : List Byte}

section Arrives

variable (hp : s.power = .run)
include hp

theorem exec_rows_held (hc : (s.tile t.val).l1.change ≠ none) :
    execTokenRow t i slot hdr row s = .next (s.updL1 t.val fun x => { x with held := x.held ++ [.row i.val slot hdr row] }) ∧
    execVoidSlot t i slot s = .next (s.updL1 t.val fun x => { x with held := x.held ++ [.void i.val slot] }) := by
  simp only [execTokenRow, execVoidSlot, hp, holdBack_held _ _ hc, ne_eq, not_true_eq_false, if_false, and_self]

variable (hc : (s.tile t.val).l1.change = none)
include hc

theorem execTokenRow_eq : execTokenRow t i slot hdr row s = .next (tokenRow s t.val i.val slot hdr row) := by
  simp only [execTokenRow, hp, ne_eq, not_true_eq_false, if_false]
  exact congrArg _ (holdBack_passes _ _ fun u hu => Option.some.inj hu ▸ hc)

theorem execVoidSlot_eq : execVoidSlot t i slot s = .next (voidSlot s t.val i.val slot) := by
  simp only [execVoidSlot, hp, ne_eq, not_true_eq_false, if_false]
  exact congrArg _ (holdBack_passes _ _ fun u hu => Option.some.inj hu ▸ hc)

end Arrives

/-- A row for a slot that nobody was granted changes nothing. -/
theorem tokenRow_ungranted (h : ahas (s.inbox t.val i.val).granted slot = false) : tokenRow s t.val i.val slot hdr row = s := by
  simp only [tokenRow, h, Bool.not_false, if_true]

section Granted

variable (h : ahas (s.inbox t.val i.val).granted slot = true)
include h

theorem tokenRow_long (hn : 128 * (s.inbox t.val i.val).pitch < row.length) :
    tokenRow s t.val i.val slot hdr row = galSend s (.failure hdr.origin hdr.trip 7) := by
  simp only [tokenRow, h, hn, Bool.not_true, Bool.false_eq_true, if_false, if_true]
  rfl

theorem tokenRow_lands (hn : row.length ≤ 128 * (s.inbox t.val i.val).pitch) :
    let x := s.inbox t.val i.val
    tokenRow s t.val i.val slot hdr row = galSend (slotFilled (scratchPut (scratchPut s t.val (rowOff x slot) row)
      t.val (hdrOff x slot) (hdrBytes hdr (x.tail % 65536))) t.val i.val slot) (.headerAck hdr.origin hdr.trip) := by
  simp only [tokenRow, h, Nat.not_lt.mpr hn, Bool.not_true, Bool.false_eq_true, if_false]

end Granted

theorem voidSlot_ungranted (h : afind (s.inbox t.val i.val).granted slot = none) : voidSlot s t.val i.val slot = s := by
  simp only [voidSlot, h]

/-- A slot whose header did not come is written void 100 us after its grant. -/
theorem voidSlot_due {w : Nat} (h : afind (s.inbox t.val i.val).granted slot = some w) :
    voidSlot s t.val i.val slot = slotFilled (scratchPut (s.reach (w + 100000)) t.val (hdrOff (s.inbox t.val i.val) slot)
      (hdrBytes ⟨0, 0, 0, 0xFF, 0, 0⟩ 0)) t.val i.val slot := by
  simp only [voidSlot, h]

end Rows

end Inbox

/-- Settles O29: remote accesses by what `remoteOk` admits, each answer by the rule of what waits for it, and the inboxes by the rules
of their reservations, registers and rows. -/
theorem remoteAndInboxes : Obligations.RemoteAndInboxes := by
  unfold Obligations.RemoteAndInboxes
  intro s hp
  refine ⟨fun src addr len tag data => ?remote, fun t e es => ?store, fun t p bs => ?response, fun t i => ?inbox⟩
  case remote =>
    refine ⟨execRemoteRead_refused hp, fun l u bs h hr => execRemoteRead_data hp h hr, fun l u e h hr => ?_, fun add => ?write,
      fun l w h => remoteOk_admits h⟩
    · refine (execRemoteRead_failed hp h hr).trans ?_
      obtain ⟨_ | _ | _, _⟩ := e <;> rfl
    case write =>
      intro own
      have hgo := execRemoteWrite_eq (src := src) (addr := addr) (tag := tag) hp add data
      refine ⟨fun u hu hc => hgo.trans ?_, fun hc => ?_⟩
      · rw [show (localAddr s addr).bind (scratchOwner s) = some u from hu, holdBack_held _ _ hc]
      · rw [holdBack_passes _ _ hc] at hgo
        exact ⟨fun h => hgo.trans (congrArg _ (remoteWrite_refused h)), fun l h => hgo.trans (congrArg _ (remoteWrite_performed h))⟩
  case store =>
    exact ⟨execRemoteStoreAcknowledgement_none, fun h =>
      ⟨execRemoteStoreAcknowledgement_oldest h true, execRemoteStoreAcknowledgement_oldest h false⟩⟩
  case response =>
    refine ⟨fun h r off => ?_, fun h => ⟨fun hs => ?_, fun hs => ?_, fun e => ?_⟩, fun o f off h hi => ?get⟩
    · exact (execRemoteReadResponse_load hp off r).trans (congrArg _ (loadArrives_none h r))
    · exact (execRemoteReadResponse_load hp 0 _).trans (congrArg _ (loadArrives_register h hs bs))
    · exact (execRemoteReadResponse_load hp 0 _).trans (congrArg _ (loadArrives_string h hs bs))
    · exact (execRemoteReadResponse_load hp 0 _).trans (congrArg _ (loadArrives_failed h e))
    case get =>
      intro n hc
      have hfree : ∀ u, destOwner s t.val o = some u → (s.tile u).l1.change = none := by
        intro u hu
        unfold destOwner at hu
        split at hu
        next hd =>
          obtain rfl := Option.some.inj hu
          simpa only [hd] using hc
        next => cases hu
      have hgo (r : ReadResp) : exec (.remoteReadResponse t (some o.id) off r) s = .next (getArrives s t.val o.id off r) :=
        execRemoteReadResponse_piece h hp hfree r
      exact ⟨fun e => (hgo _).trans (congrArg _ (getArrives_failed h hi e)),
        fun u hn hg hw => (hgo _).trans (congrArg _ (getArrives_data h hi hn hg hw))⟩
  case inbox =>
    intro x here free
    refine ⟨fun src req n hold row => ⟨execInboxReservation_refused hp, fun ho he hr => ?reserve⟩, fun src req k => rfl,
      fun v => ?registers, fun slot hdr row hc => exec_rows_held hp hc, fun slot hdr row hc => ?rows⟩
    case reserve => exact ⟨execInboxReservation_grants hp ho he hr, execInboxReservation_waits hp ho he hr⟩
    case registers =>
      intro set
      refine ⟨fun hv => (execGalIbcfg_eq hp).trans (congrArg _ (ibcfgWrite_enabled hv)),
        fun hv => (execGalIbcfg_eq hp).trans (congrArg _ (ibcfgWrite_disabled hv)), ?_⟩
      rw [← headMove_eq]
      exact ⟨fun hd => (execGalIbptr_eq hp).trans (congrArg _ (ibptrWrite_moves hd)),
        fun hd => (execGalIbptr_eq hp).trans (congrArg _ (ibptrWrite_discarded hd))⟩
    case rows =>
      have hrow : exec (.tokenRow t i slot hdr row) s = .next (tokenRow s t.val i.val slot hdr row) := execTokenRow_eq hp hc
      have hvoid : exec (.voidSlot t i slot) s = .next (voidSlot s t.val i.val slot) := execVoidSlot_eq hp hc
      rw [hrow, hvoid]
      exact ⟨fun h => congrArg _ (tokenRow_ungranted h), fun h hn => congrArg _ (tokenRow_long h hn),
        fun h hn => congrArg _ (tokenRow_lands h hn), fun _ h => congrArg _ (voidSlot_ungranted h),
        fun w h => congrArg _ (voidSlot_due h)⟩

end Sys2Proof.Machine
end

section
/-! SUPPORT. Grants, trip records and fragments, the completion of sequence slots, the directory caches, and the proof of O30. -/

namespace Sys2Proof.Machine

open Sys2Proof

/-! ### Grants, repeats and the limit of a dispatch (R392 to R396) -/

section Dispatch

variable {s : State} {t : TileId} {op : Nat} {dst : InboxRef} {slots : List Nat}

theorem dispatch_absent (h : findOp s t.val op = none) :
    execInboxGrant t op dst slots s = .next s ∧ execReservationRepeat t op dst s = .next s ∧
      execDispatchTimeout t op s = .next s := by
  simp only [execInboxGrant, execReservationRepeat, execDispatchTimeout, h, and_self]

variable {o : GalOp} (hp : s.power = .run) (ho : findOp s t.val op = some o)
include hp ho

section Grant

variable {g : DispGroup} (hg : (o.groups.find? fun g => g.dst = dst) = some g)
include hg

/-- The trips that a grant leaves without a slot and that divert. -/
def diverts (s : State) (g : DispGroup) (slots : List Nat) : List TripId :=
  (g.trips.drop slots.length).filter fun id => (tripAt s id.toNat).alt ≠ 0

/-- A grant sends the rows of its group's first trips, and diverts of the rest those whose policy says so. -/
theorem execInboxGrant_eq : execInboxGrant t op dst slots s = .next (
    let sent := sendRows s t.val o dst (g.trips.zip slots)
    let rest := diverts sent g slots
    retryTrips (dispCheck (if rest = [] then sent else divert sent t.val o rest) t.val op)) := by
  simp only [execInboxGrant, ho, hg, hp, ne_eq, not_true_eq_false, if_false]
  rfl

theorem execInboxGrant_sends (hr : diverts (sendRows s t.val o dst (g.trips.zip slots)) g slots = []) :
    execInboxGrant t op dst slots s = .next (retryTrips (dispCheck (sendRows s t.val o dst (g.trips.zip slots)) t.val op)) :=
  (execInboxGrant_eq hp ho hg).trans (congrArg (fun u => Host.Outcome.next (retryTrips (dispCheck u t.val op))) (if_pos hr))

theorem execInboxGrant_diverts (hr : diverts (sendRows s t.val o dst (g.trips.zip slots)) g slots ≠ []) :
    let sent := sendRows s t.val o dst (g.trips.zip slots)
    execInboxGrant t op dst slots s =
      .next (retryTrips (dispCheck (divert sent t.val o (diverts sent g slots)) t.val op)) :=
  (execInboxGrant_eq hp ho hg).trans (congrArg (fun u => Host.Outcome.next (retryTrips (dispCheck u t.val op))) (if_neg hr))

end Grant

theorem execReservationRepeat_eq : execReservationRepeat t op dst s =
    .next (sendReserve s t.val op (dispOf s o.block).rowBytes (o.groups.filter fun g => g.dst = dst)) := by
  simp only [execReservationRepeat, ho, hp, ne_eq, not_true_eq_false, if_false]
  rfl

theorem execDispatchTimeout_eq {f : LC} (hi : o.instr = .gdispatch t f) :
    let late := updOp (s.reach o.deadline) t.val op fun o => { o with timedOut := true, waitTrips := false }
    execDispatchTimeout t op s = .next (retryTrips (dispCheck
      (((o.groups.flatMap fun g => g.trips) ++ o.sent).foldl (fun u id => failTrip u id gTimeout true) late) t.val op)) := by
  simp only [execDispatchTimeout, ho, hi, hp, ne_eq, not_true_eq_false, if_false]

end Dispatch

/-! ### Trip records (R391, R395, R406, R407) -/

section Record

variable {s : State} {n : TripId}

section Header

theorem execHeaderAcknowledgement_other (h : (tripAt s n.toNat).state ≠ .sending) :
    execHeaderAcknowledgement n s = .next s := by
  simp only [execHeaderAcknowledgement, decide_eq_true h, Bool.true_or, if_true]

theorem execHeaderAcknowledgement_opens (hp : s.power = .run) (h : (tripAt s n.toNat).state = .sending) :
    let x := tripAt s n.toNat
    let u := setTrip s n.toNat { x with state := .opened, deadline := s.mono + 2 ^ x.tmo * 1000 }
    execHeaderAcknowledgement n s = .next (dispCheck (updOp u x.tile x.op fun o => dropTrip o n) x.tile x.op) := by
  simp only [execHeaderAcknowledgement, h, hp, ne_eq, not_true_eq_false, decide_false, Bool.or_self, Bool.false_eq_true, if_false]

end Header

section Fail

@[simp] theorem slotAt_setTrip (s : State) (n m : Nat) (x : Trip) : slotAt (setTrip s n x) m = slotAt s m := rfl

/-- A slot as a failure of one of its trips leaves it: the first code stays. -/
def slotFailed (x : Slot) (code : Nat) : Slot :=
  { x with pending := x.pending - 1, failed := x.failed + 1, code := if x.code = 0 then BitVec.ofNat 8 code else x.code }

theorem slotDown_failed {code : Nat} (hc : code ≠ 0) (s : State) (n : Nat) :
    let y := slotFailed (slotAt s n) code
    slotDown s n code = writeStatus (setSlot s n y) y (pack [(y.failed % 65536, 32), (y.code.toNat, 24)]) := if_neg hc

theorem failTrip_free (h : (tripAt s n.toNat).state = .free) (code : Nat) (late : Bool) : failTrip s n code late = s := if_pos h

/-- The failure of an open trip frees its record and counts in its slot. -/
theorem failTrip_opened (h : (tripAt s n.toNat).state = .opened) {code : Nat} (hc : code ≠ 0) (late : Bool) :
    let x := tripAt s n.toNat
    let y := slotFailed (slotAt s x.slot) code
    failTrip s n code late =
      writeStatus (setSlot (setTrip s n.toNat { x with state := .free, cooling := coolUntil s x late }) x.slot y) y
        (pack [(y.failed % 65536, 32), (y.code.toNat, 24)]) := by
  simp only [failTrip, h, reduceCtorEq, if_false, slotDown_failed hc, slotAt_setTrip]

theorem execFailureNotice_eq (hp : s.power = .run) (c : Byte) :
    execFailureNotice n c s = .next (retryTrips (failTrip s n c.toNat false)) := congrArg _ (if_neg (not_not.mpr hp))

end Fail

section Expiry

theorem execTripTimeout_other (h : (tripAt s n.toNat).state ≠ .opened) : execTripTimeout n s = .next s := by
  simp only [execTripTimeout, decide_eq_true h, Bool.true_or, if_true]

theorem execTripTimeout_expires (hp : s.power = .run) (h : (tripAt s n.toNat).state = .opened) :
    execTripTimeout n s = .next (failTrip (s.reach (tripAt s n.toNat).deadline) n gTimeout true) := by
  simp only [execTripTimeout, h, hp, ne_eq, not_true_eq_false, decide_false, Bool.or_self, Bool.false_eq_true, if_false]

theorem execTripIdReuse_none (h : (tripAt s n.toNat).cooling = none) : execTripIdReuse n s = .next s := by
  simp only [execTripIdReuse, h]

theorem execTripIdReuse_cooled (hp : s.power = .run) {y : Nat} (h : (tripAt s n.toNat).cooling = some y) :
    execTripIdReuse n s =
      .next (retryTrips (setTrip (s.reach y) n.toNat { tripAt s n.toNat with cooling := none })) := by
  simp only [execTripIdReuse, h, hp, ne_eq, not_true_eq_false, if_false]

end Expiry

/-! ### Fragments (R405, R406) -/

section Fragment

variable {gen : BitVec 4} {d : Nat} {fmt : BitVec 4} {data : List Word} {chk : LineErr} (hp : s.power = .run)
include hp

/-- A fragment for no open trip, of another generation, already received or outside the row only counts. -/
theorem execFragment_stale (h : (tripAt s n.toNat).state ≠ .opened ∨ (tripAt s n.toNat).gen ≠ gen ∨ d ∈ (tripAt s n.toNat).got ∨
      (tripAt s n.toNat).nb ≤ d) :
    execFragment n gen d fmt data chk s = .next { s with gal := { s.gal with stale := sat32 s.gal.stale 1 } } := by
  have hstale : (decide ((tripAt s n.toNat).state ≠ .opened) || decide ((tripAt s n.toNat).gen ≠ gen) ||
      (tripAt s n.toNat).got.contains d || decide ((tripAt s n.toNat).nb ≤ d)) = true := by
    simpa only [Bool.or_eq_true, decide_eq_true_eq, List.contains_iff_mem, or_assoc] using h
  exact congrArg _ ((if_neg (not_not.mpr hp)).trans (if_pos hstale))

variable (ho : (tripAt s n.toNat).state = .opened) (hg : (tripAt s n.toNat).gen = gen) (hd : d ∉ (tripAt s n.toNat).got)
  (hn : d < (tripAt s n.toNat).nb)
include ho hg hd hn

/-- A good fragment is combined into its basin line. -/
theorem execFragment_good :
    let x := tripAt s n.toNat
    let a := basinAddr s x.slot + 128 * d
    execFragment n gen d fmt data chk s = .next (match combineAt s a x.weight.toNat fmt.toNat data chk with
      | (u, some e) => retryTrips (failTrip (galFail u x.tile (accCode gAddr e) a) n (accCode gAddr e) false)
      | (u, none) =>
        let v := setTrip u n.toNat { x with got := d :: x.got }
        if x.nb ≤ x.got.length + 1 then endTrip v n else v) := by
  have hgood : ¬ (decide ((tripAt s n.toNat).state ≠ .opened) || decide ((tripAt s n.toNat).gen ≠ gen) ||
      (tripAt s n.toNat).got.contains d || decide ((tripAt s n.toNat).nb ≤ d)) = true := by
    simp only [Bool.or_eq_true, decide_eq_true_eq, List.contains_iff_mem, ho, hg, hd, Nat.not_le.mpr hn, ne_eq, not_true_eq_false,
      or_self, not_false_eq_true]
  exact congrArg _ ((if_neg (not_not.mpr hp)).trans (if_neg hgood))

variable {u : State}

theorem execFragment_failed {e : AccErr}
    (hc : combineAt s (basinAddr s (tripAt s n.toNat).slot + 128 * d) (tripAt s n.toNat).weight.toNat fmt.toNat data chk = (u, some e)) :
    execFragment n gen d fmt data chk s = .next (retryTrips (failTrip
      (galFail u (tripAt s n.toNat).tile (accCode gAddr e) (basinAddr s (tripAt s n.toNat).slot + 128 * d)) n
      (accCode gAddr e) false)) := by
  simp only [execFragment_good hp ho hg hd hn, hc]

theorem execFragment_combined
    (hc : combineAt s (basinAddr s (tripAt s n.toNat).slot + 128 * d) (tripAt s n.toNat).weight.toNat fmt.toNat data chk = (u, none)) :
    let x := tripAt s n.toNat
    let v := setTrip u n.toNat { x with got := d :: x.got }
    execFragment n gen d fmt data chk s = .next (if x.nb ≤ x.got.length + 1 then endTrip v n else v) := by
  simp only [execFragment_good hp ho hg hd hn, hc]

end Fragment

end Record

/-- Pieces of one length, joined, are found again at multiples of it. -/
theorem take_drop_flatMap {α β : Type} {f : α → List β} {k : Nat} (hf : ∀ x, (f x).length = k) :
    ∀ (l : List α) (c : Nat) (h : c < l.length), ((l.flatMap f).drop (k * c)).take k = f l[c]
  | x :: xs, 0, _ => by rw [List.flatMap_cons, Nat.mul_zero, List.drop_zero, List.take_left' (hf x), List.getElem_cons_zero]
  | x :: xs, c + 1, h => by
    rw [List.flatMap_cons, Nat.mul_succ, Nat.add_comm, ← List.drop_drop, List.drop_left' (hf x), List.getElem_cons_succ]
    exact take_drop_flatMap hf xs c (Nat.lt_of_succ_lt_succ h)

/-- Each element of a combined line is weight times value plus basin, rounded once. -/
theorem combineLine_element (w fmt : Nat) (xs : List Word) (basin : List Byte) {c : Nat} (hc : c < 32) :
    ofBytes (((combineLine w fmt xs basin).drop (4 * c)).take 4) =
      (fma3 f32 .rne false false w (cvtCode fmt 0 .rne (xs.getD c 0).toNat) (ofBytes ((basin.drop (4 * c)).take 4))).1 % 2 ^ 32 := by
  have hr : c < (List.range 32).length := List.length_range ▸ hc
  rw [combineLine, take_drop_flatMap (fun _ => toBytes_length 4 _) _ c hr, ofBytes_toBytes, List.getElem_range,
    show 256 ^ 4 = 2 ^ 32 from rfl]

/-! ### Slot completion (R387, R408) -/

section Completion

variable {s : State} {n : SlotNo}

/-- The last steps of R408: status word, signal, doorbell, and the slot is free. -/
def slotEnds (u : State) (n : Nat) (x : Slot) (nan : Bool) : State :=
  let u := writeStatus u x (slotStatus n x nan)
  let u := if x.sig then madeBy x.tile (agentSignal u x.tile x.sigaddr x.sigadd x.sigval) else u
  setSlot (ringTile u x.tile x.db.toNat) n { x with state := .free }

theorem completeSlot_plain {k : Nat} (hv : (slotAt s k).cv = false) : completeSlot s k = slotEnds s k (slotAt s k) false := by
  simp only [completeSlot, slotEnds, hv, Bool.not_false, if_true]

/-- A slot with a program writes its output first. -/
theorem completeSlot_converts {k : Nat} {u : State} {bs : List Byte} (hv : (slotAt s k).cv = true)
    (hm : memRead s (basinAddr s k) (4 * (slotAt s k).h) = (u, .ok bs)) :
    let x := slotAt s k
    let r := slotConvert (progOf x.prog) bs x.h
    completeSlot s k =
      slotEnds (madeBy x.tile (agentWrite u x.tile (x.out + BitVec.ofNat 64 (x.j * x.opitch)) r.1)) k x r.2 := by
  simp only [completeSlot, slotEnds, hv, hm, Bool.not_true, Bool.false_eq_true, if_false]

theorem execSlotCompletion_other (h : (slotAt s n.val).state ≠ .opened ∨ (slotAt s n.val).pending ≠ 0) :
    execSlotCompletion n s = .next s := by
  refine congrArg _ (if_neg ?_)
  simp only [Bool.and_eq_true, decide_eq_true_eq]
  rintro ⟨⟨-, ho⟩, hz⟩
  exact h.elim (· ho) (· hz)

theorem execSlotCompletion_eq (hp : s.power = .run) (ho : (slotAt s n.val).state = .opened) (hz : (slotAt s n.val).pending = 0) :
    execSlotCompletion n s = .next (completeSlot s n.val) := by
  simp only [execSlotCompletion, hp, ho, hz, decide_true, Bool.and_self, if_true]

theorem writeStatus_written {u v : State} {x : Slot} {w : Word}
    (h : agentWrite u x.tile (x.staddr + BitVec.ofNat 64 (8 * x.j)) (toBytes 8 w.toNat) = (v, none)) : writeStatus u x w = v := by
  simp only [writeStatus, h, madeBy]

end Completion

/-! ### The directory caches (R381) -/

section Directory

variable {s : State}

/-- The entry that a write of GAL_DIRINV names, or none for every entry. -/
def dirinvOf (v : Word) : Option Nat := if v.getLsbD 20 then none else some (wfld v 0 20)

section Write

variable {v : Word} (hp : s.power = .run)
include hp

theorem execGalDirinv_first (h : s.gal.dirinv = none) :
    execGalDirinv v s = .next { s with gal := { s.gal with dirinv := some (dirinvOf v) } } := by
  simp only [execGalDirinv, hp, if_true, dirinvWrite, h]
  rfl

/-- A second invalidation of another entry makes it one of every entry (log 39). -/
theorem execGalDirinv_second {y : Option Nat} (h : s.gal.dirinv = some y) : execGalDirinv v s =
    .next { s with gal := { s.gal with dirinv := some (if dirinvOf v = y then dirinvOf v else none) } } := by
  simp only [execGalDirinv, hp, if_true, dirinvWrite, h]
  rfl

end Write

theorem execDirectoryInvalidationEnd_none (h : s.gal.dirinv = none) : execDirectoryInvalidationEnd s = .next s := by
  simp only [execDirectoryInvalidationEnd, h]

theorem execDirectoryInvalidationEnd_all (h : s.gal.dirinv = some none) :
    execDirectoryInvalidationEnd s = .next { s with gal := { s.gal with dircache := [], dirinv := none } } := by
  simp only [execDirectoryInvalidationEnd, h]

theorem execDirectoryInvalidationEnd_one {e : Nat} (h : s.gal.dirinv = some (some e)) : execDirectoryInvalidationEnd s =
    .next { s with gal := { s.gal with dircache := s.gal.dircache.filter fun p => p.1 % 2 ^ 20 ≠ e, dirinv := none } } := by
  simp only [execDirectoryInvalidationEnd, h]

end Directory

/-- Settles O30: grants by `execInboxGrant_eq`, trips by what a failure and a good fragment do, slots by `completeSlot`'s two cases,
and the directory caches by what stands in GAL_DIRINV. -/
theorem tripsAndSlots : Obligations.TripsAndSlots := by
  unfold Obligations.TripsAndSlots
  intro s hp
  refine ⟨fun t op dst slots => ?dispatch, fun n => ?trip, fun n => ?slot, fun u v x w => writeStatus_written,
    fun w fmt xs basin c => combineLine_element w fmt xs basin,
    fun v => ⟨execGalDirinv_first hp, fun y => execGalDirinv_second hp⟩, execDirectoryInvalidationEnd_none,
    execDirectoryInvalidationEnd_all, fun e => execDirectoryInvalidationEnd_one⟩
  case dispatch =>
    exact ⟨dispatch_absent, fun o g ho hg => ⟨execInboxGrant_sends hp ho hg, execInboxGrant_diverts hp ho hg⟩,
      fun o ho => execReservationRepeat_eq hp ho, fun u row g => rfl, fun o f ho hi => execDispatchTimeout_eq hp ho hi⟩
  case trip =>
    intro x slot
    refine ⟨execHeaderAcknowledgement_other, execHeaderAcknowledgement_opens hp, fun gen d fmt data chk => ?fragment,
      execFailureNotice_eq hp, execTripTimeout_other, execTripTimeout_expires hp, execTripIdReuse_none,
      fun y => execTripIdReuse_cooled hp, fun code late =>
        ⟨fun h => failTrip_free h code late, fun h hc => failTrip_opened h hc late⟩⟩
    case fragment =>
      refine ⟨execFragment_stale hp, fun ho hg hd hn => ⟨fun u e hc => execFragment_failed hp ho hg hd hn hc, fun u hc => ?_⟩⟩
      have hgo := execFragment_combined hp ho hg hd hn hc
      exact ⟨fun hl => hgo.trans (congrArg _ (if_neg (Nat.not_le.mpr hl))), fun hl => hgo.trans (congrArg _ (if_pos hl))⟩
  case slot =>
    intro x
    refine ⟨execSlotCompletion_other, fun ho hz => ?_⟩
    have hgo : exec (.slotCompletion n) s = .next (completeSlot s n.val) := execSlotCompletion_eq hp ho hz
    rw [hgo]
    exact ⟨fun hv => congrArg _ (completeSlot_plain hv), fun u bs hv hm => congrArg _ (completeSlot_converts hv hm)⟩

end Sys2Proof.Machine
end

section
/-! SUPPORT. The tree of a group, its joins, collectives and beacons, and the proof of O31. -/

namespace Sys2Proof.Machine

open Sys2Proof

/-! ### The tree and its values (R411, R414) -/

/-- The children of a rank are the ranks whose parent it is. -/
theorem mem_childrenOf {r n c : Nat} : c ∈ childrenOf r n ↔ 0 < c ∧ c < n ∧ (c - 1) / 16 = r := by
  simp only [childrenOf, List.mem_filter, List.mem_map, List.mem_range, decide_eq_true_eq]
  constructor
  · rintro ⟨⟨i, hi, rfl⟩, hn⟩
    omega
  · rintro ⟨h0, hn, hr⟩
    exact ⟨⟨c - (16 * r + 1), by omega, by omega⟩, hn⟩

section Element

variable {sh : CollShape} {a b : Nat}

section Integer

variable (hd : sh.dtype = 9)
include hd

theorem treeOp_i32_sum (hr : sh.rop = 0) : treeOp sh a b = (a + b) % 2 ^ 32 := by
  simp only [treeOp, hd, hr, if_true]

/-- An integer minimum or maximum is the operand that the order picks: the second where it is the lesser just when a maximum is
asked for. -/
theorem treeOp_i32_pick (hr : sh.rop ≠ 0) :
    treeOp sh a b = if (toInt 32 a < toInt 32 b ↔ sh.rop = 2) then b else a := by
  simp only [treeOp, hd, hr, if_true, if_false, decide_eq_true_eq, eq_iff_iff]

theorem toInt_treeOp_min (hr : sh.rop = 1) : toInt 32 (treeOp sh a b) = min (toInt 32 a) (toInt 32 b) := by
  have hpick : (toInt 32 a < toInt 32 b ↔ sh.rop = 2) ↔ ¬ toInt 32 a < toInt 32 b := iff_false_right (by rw [hr]; decide)
  rw [treeOp_i32_pick hd (by rw [hr]; decide)]
  split
  next h => rw [min_eq_right (Int.not_lt.mp (hpick.mp h))]
  next h => rw [min_eq_left (not_not.mp (mt hpick.mpr h)).le]

theorem toInt_treeOp_max (hr : sh.rop = 2) : toInt 32 (treeOp sh a b) = max (toInt 32 a) (toInt 32 b) := by
  have hpick : (toInt 32 a < toInt 32 b ↔ sh.rop = 2) ↔ toInt 32 a < toInt 32 b := iff_true_right hr
  rw [treeOp_i32_pick hd (by rw [hr]; decide)]
  split
  next h => rw [max_eq_right (hpick.mp h).le]
  next h => rw [max_eq_left (Int.not_lt.mp (mt hpick.mpr h))]

end Integer

section Float

variable (hd : sh.dtype ≠ 9)
include hd

theorem treeOp_float_sum (hr : sh.rop = 0) : treeOp sh a b = faddF32 a b := by
  simp only [treeOp, hd, hr, if_true, if_false]

theorem treeOp_float_nan (hr : sh.rop ≠ 0) (hn : f32.val a = .nan ∨ f32.val b = .nan) : treeOp sh a b = f32.nan := by
  simp only [treeOp, hd, hr, if_false, Bool.or_eq_true, decide_eq_true_eq, hn, if_true]

end Float

end Element

/-! ### Data of a collective arrives (R414, R415) -/

/-- The rank of the tree neighbour that a message names. -/
def nbrRank (x : Group) : TreeNbr → Nat
  | .parent => parentOf x.rank
  | .child r => r

def isParent : TreeNbr → Bool
  | .parent => true
  | .child _ => false

/-- The member has such a neighbour. -/
def hasNbr (x : Group) : TreeNbr → Bool
  | .parent => x.rank ≠ 0
  | .child r => (childrenOf x.rank x.members.length).contains r

theorem hasNbr_iff {x : Group} {src : TreeNbr} :
    hasNbr x src = true ↔ match src with | .parent => x.rank ≠ 0 | .child r => r ∈ childrenOf x.rank x.members.length := by
  cases src with
  | parent => exact decide_eq_true_iff
  | child r => exact List.contains_iff_mem

section Data

variable (s : State) (g : Nat) (src : TreeNbr) (sh : CollShape) (b : Nat) (bs : List Byte)

/-- Data that comes before its collective is kept. -/
def keepEarly : State :=
  s.updGroup g fun x => { x with early := x.early ++ [(if isParent src then 0 else nbrRank (s.group g) src + 1, sh, b, bs)] }

/-- What data of a known neighbour does to a joined group. -/
def dataArrives : State :=
  match (s.group g).coll with
  | some c =>
    if sh.num = c.shape.num then
      (if c.grant then settle (collTake s g (nbrRank (s.group g) src) (isParent src) sh b bs) g else keepEarly s g src sh b bs)
    else if c.shape.num < sh.num then keepEarly s g src sh b bs else s
  | none => if (s.group g).count ≤ sh.num then keepEarly s g src sh b bs else s

end Data

section Arrives

variable {s : State} {src : TreeNbr} {sh : CollShape} {b : Nat} {bs : List Byte} {c : Coll}

section Command

variable {g : GroupNo}

theorem execCollectiveData_eq (hp : s.power = .run) : execCollectiveData g src sh b bs s = .next
    (if (!(s.group g.val).joined || !hasNbr (s.group g.val) src) = true then s else dataArrives s g.val src sh b bs) := by
  cases src with
  | parent =>
    simp only [execCollectiveData, hp, ne_eq, not_true_eq_false, decide_false, Bool.false_or, if_true]
    rfl
  | child r =>
    simp only [execCollectiveData, hp, ne_eq, not_true_eq_false, decide_false, Bool.false_or, Bool.false_eq_true, if_false,
      Bool.decide_eq_true]
    rfl

theorem execCollectiveData_dropped (hp : s.power = .run)
    (h : (s.group g.val).joined = false ∨ hasNbr (s.group g.val) src = false) : execCollectiveData g src sh b bs s = .next s := by
  rw [execCollectiveData_eq hp, if_pos]
  obtain h | h := h
  · rw [h, Bool.not_false, Bool.true_or]
  · rw [h, Bool.not_false, Bool.or_true]

theorem execCollectiveData_known (hp : s.power = .run) (hj : (s.group g.val).joined = true)
    (hn : hasNbr (s.group g.val) src = true) : execCollectiveData g src sh b bs s = .next (dataArrives s g.val src sh b bs) := by
  rw [execCollectiveData_eq hp, hj, hn]
  rfl

end Command

variable {g : Nat}

theorem dataArrives_idle (hc : (s.group g).coll = none) :
    dataArrives s g src sh b bs = if (s.group g).count ≤ sh.num then keepEarly s g src sh b bs else s := by
  simp only [dataArrives, hc]

section Active

variable (hc : (s.group g).coll = some c)
include hc

theorem dataArrives_past (hn : sh.num < c.shape.num) : dataArrives s g src sh b bs = s := by
  simp only [dataArrives, hc, hn.ne, Nat.not_lt.mpr hn.le, if_false]

/-- Data of a later collective, or of one that has no grant yet, is kept. -/
theorem dataArrives_early (h : c.shape.num < sh.num ∨ sh.num = c.shape.num ∧ c.grant = false) :
    dataArrives s g src sh b bs = keepEarly s g src sh b bs := by
  obtain hn | ⟨hn, hg⟩ := h
  · simp only [dataArrives, hc, hn.ne', if_false, hn, if_true]
  · simp only [dataArrives, hc, hn, hg, if_true, Bool.false_eq_true, if_false]

theorem dataArrives_taken (hn : sh.num = c.shape.num) (hg : c.grant = true) :
    dataArrives s g src sh b bs = settle (collTake s g (nbrRank (s.group g) src) (isParent src) sh b bs) g := by
  simp only [dataArrives, hc, hn, hg, if_true]

variable {nbr : Nat} {up : Bool}

/-- Members that disagree tell each tree neighbour before the collective fails (log 90). -/
theorem collTake_mismatch (hs : sh ≠ c.shape) : collTake s g nbr up sh b bs =
    failColl ((nbrsOf (s.group g)).foldl (fun u r => galSend u (.coll (gidOf (s.group g) r) g { c.shape with dtype := 15 } 0 [])) s)
      g gMismatch 0 := by
  simp only [collTake, mismatch, hc, ne_eq, hs, not_false_eq_true, if_true]

theorem collTake_reduces (hs : sh = c.shape) (ho : sh.op ∈ [CollOp.allreduce, .reducescatter, .barrier]) :
    collTake s g nbr up sh b bs = if up then collDown s g b bs else
      collUp (updColl s g fun c => { c with kids := aput c.kids (16 * b + (nbr - 16 * (s.group g).rank - 1)) bs }) g b := by
  have hreduces : ∀ op ∈ [CollOp.allreduce, .reducescatter, .barrier], (isReduction op || decide (op = .barrier)) = true := by decide
  simp only [collTake, hc, ne_eq, hs, not_true_eq_false, if_false, if_pos (hreduces _ (hs ▸ ho))]

theorem collTake_passes (hs : sh = c.shape) (ho : sh.op ∈ [CollOp.allgather, .alltoall]) :
    collTake s g nbr up sh b bs = collPass s g b (some nbr) bs := by
  have hpasses : ∀ op ∈ [CollOp.allgather, .alltoall], (isReduction op || decide (op = .barrier)) = false := by decide
  simp only [collTake, hc, ne_eq, hs, not_true_eq_false, if_false, hpasses _ (hs ▸ ho), Bool.false_eq_true]

end Active

end Arrives

/-! ### Joins (R410) -/

section Join

variable {s : State} {g : Nat}

theorem joinStep_idle (h : (s.group g).joining = none) (up : Bool) : joinStep s g up = s := by
  simp only [joinStep, h, Option.isNone_none, if_true]

/-- A child's hash that differs ends the join. -/
theorem joinStep_differs {r : Nat} (hj : (s.group g).joining ≠ none) (hr : r ∈ childrenOf (s.group g).rank (s.group g).members.length)
    (hh : ahas (s.group g).hashes r = true) (hd : aget 0 (s.group g).hashes r ≠ (s.group g).hash) (up : Bool) :
    joinStep s g up = joinEnd s g gMismatch := by
  have hsome : ¬ (s.group g).joining.isNone = true := fun h => hj (Option.isNone_iff_eq_none.mp h)
  have hany : ((childrenOf (s.group g).rank (s.group g).members.length).any fun k =>
      ahas (s.group g).hashes k && decide (aget 0 (s.group g).hashes k ≠ (s.group g).hash)) = true :=
    List.any_eq_true.mpr ⟨r, hr, by rw [hh, decide_eq_true hd, Bool.and_self]⟩
  exact (if_neg hsome).trans (if_pos hany)

theorem execJoinHash_eq {s : State} (hp : s.power = .run) (g : GroupNo) (src : TreeNbr) (h : BitVec 512) :
    execJoinHash g src h s = .next (match src with
      | .parent => joinStep (s.updGroup g.val fun x => { x with hashes := aput x.hashes 0 h }) g.val false
      | .child r => joinStep (s.updGroup g.val fun x => { x with hashes := aput x.hashes r h }) g.val true) := by
  cases src <;> simp only [execJoinHash, hp, ne_eq, not_true_eq_false, if_false]

end Join

/-! ### Beacons and the deadline (R417, R418) -/

theorem execBeaconPeriod_eq (s : State) : execBeaconPeriod s = .next (if s.power = .run then
    s.gal.groups.foldl (fun u p => if p.2.coll.isSome then
      sendBeacon u p.1 (worstBeacon u p.1).1 (worstBeacon u p.1).2.1 (worstBeacon u p.1).2.2 else u) s
    else s) := congrArg _ (ite_not _ _ _)

/-- A beacon that is heard stands with those of the last 100 us. -/
def hear (s : State) (g : Nat) (st : BitVec 2) (cause : BitVec 3) (src : Gid) : State :=
  s.updGroup g fun x => { x with heard := ⟨st, cause, src, s.mono⟩ :: x.heard.filter fun y => decide (s.mono ≤ y.time + 100000) }

/-- A FAIL that is heard is passed on to every tree neighbour. -/
def passFail (s : State) (g : Nat) (cause : BitVec 3) (src : Gid) : State := sendBeacon (hear s g 2 cause src) g 2 cause.toNat src

/-- Data of another shape stands here for the collective that fails. -/
def oddData (s : State) (g num : Nat) (sh : CollShape) : Bool := (s.group g).early.any fun e => e.2.1.num = num && e.2.1 ≠ sh

section Beacon

variable {s : State} {g : GroupNo} {num : Nat} {st : BitVec 2} {cause : BitVec 3} {src : Gid} {c : Coll}

theorem collective_absent (h : (s.group g.val).coll = none) :
    execBeacon g num st cause src s = .next s ∧ execCollectiveTimeout g s = .next s := by
  simp only [execBeacon, execCollectiveTimeout, h, and_self]

variable (hc : (s.group g.val).coll = some c)
include hc

theorem execBeacon_other (hn : c.shape.num ≠ num) : execBeacon g num st cause src s = .next s := by
  simp only [execBeacon, hc, decide_eq_true hn, Bool.or_true, if_true]

theorem failColl_eq (code d : Nat) :
    failColl s g.val code d = finishOp (closeColl (sendBeacon s g.val 2 6 s.gid) g.val) c.tile c.op code d := by
  simp only [failColl, hc]

variable (hp : s.power = .run)
include hp

/-- A beacon of the collective in progress is heard; SLOW extends the deadline, and FAIL ends the collective after it is passed on. -/
theorem execBeacon_eq (hn : c.shape.num = num) : execBeacon g num st cause src s = .next (
    let heard := hear s g.val st cause src
    if st = 1 then updColl heard g.val fun c => { c with deadline := min (max c.deadline (s.mono + c.span)) (c.start + 16 * c.span) }
    else if st = 2 then
      let odd := oddData (passFail s g.val cause src) g.val num c.shape
      settle (finishOp (closeColl (passFail s g.val cause src) g.val) c.tile c.op (if odd then gMismatch else gPeerFail)
        (if odd then 0 else src.toNat)) g.val
    else heard) := by
  simp only [execBeacon, hc, hp, hn, ne_eq, not_true_eq_false, decide_false, Bool.or_self, Bool.false_eq_true, if_false]
  by_cases h2 : st = 2
  · subst h2
    rfl
  · simp only [h2, if_false]
    rfl

theorem execBeacon_good (hn : c.shape.num = num) : execBeacon g num 0 cause src s = .next (hear s g.val 0 cause src) :=
  execBeacon_eq hc hp hn

theorem execBeacon_slow (hn : c.shape.num = num) : execBeacon g num 1 cause src s =
    .next (updColl (hear s g.val 1 cause src) g.val fun c =>
      { c with deadline := min (max c.deadline (s.mono + c.span)) (c.start + 16 * c.span) }) :=
  execBeacon_eq hc hp hn

theorem execBeacon_peerFail (hn : c.shape.num = num) (ho : oddData (passFail s g.val cause src) g.val num c.shape = false) :
    execBeacon g num 2 cause src s =
      .next (settle (finishOp (closeColl (passFail s g.val cause src) g.val) c.tile c.op gPeerFail src.toNat) g.val) := by
  have htwo : ¬ (2 : BitVec 2) = 1 := by decide
  simp only [execBeacon_eq hc hp hn, htwo, ho, Bool.false_eq_true, if_false, if_true]

theorem execBeacon_mismatch (hn : c.shape.num = num) (ho : oddData (passFail s g.val cause src) g.val num c.shape = true) :
    execBeacon g num 2 cause src s =
      .next (settle (finishOp (closeColl (passFail s g.val cause src) g.val) c.tile c.op gMismatch 0) g.val) := by
  have htwo : ¬ (2 : BitVec 2) = 1 := by decide
  simp only [execBeacon_eq hc hp hn, htwo, ho, if_false, if_true]

theorem execCollectiveTimeout_eq :
    execCollectiveTimeout g s = .next (settle (failColl (s.reach c.deadline) g.val gTimeout 0) g.val) := by
  simp only [execCollectiveTimeout, hc, hp, ne_eq, not_true_eq_false, if_false]

end Beacon

/-- Settles O31: the tree by `mem_childrenOf`, its values by the cases of `treeOp`, data by `dataArrives` and `collTake`, and beacons
by what a beacon of the collective in progress does. -/
theorem collectives : Obligations.Collectives := by
  unfold Obligations.Collectives
  refine ⟨fun r n c => mem_childrenOf, fun sh a b _ _ => ⟨fun hd => ?integer, fun hd => ?float⟩, execBeaconPeriod_eq,
    fun s g hp => ⟨fun src sh b bs => ?data, fun h => ?join, fun num st cause src => ?beacon⟩⟩
  case integer => exact ⟨treeOp_i32_sum hd, toInt_treeOp_min hd, toInt_treeOp_max hd⟩
  case float => exact ⟨treeOp_float_sum hd, treeOp_float_nan hd⟩
  case data =>
    intro nbr up known keep
    have hknown : known ↔ hasNbr (s.group g.val) src = true := hasNbr_iff.symm
    have hnbr : nbr = nbrRank (s.group g.val) src := by cases src <;> rfl
    have hup : up = isParent src := by cases src <;> rfl
    have hkeep : keep = keepEarly s g.val src sh b bs := by cases src <;> rfl
    rw [hknown, hkeep, hnbr, hup]
    refine ⟨fun h => execCollectiveData_dropped hp (h.imp_right Bool.eq_false_iff.mpr), fun hj hn => ?_⟩
    have hgo : exec (.collectiveData g src sh b bs) s = .next (dataArrives s g.val src sh b bs) := execCollectiveData_known hp hj hn
    rw [hgo]
    refine ⟨fun hc => congrArg _ (dataArrives_idle hc), fun c hc => ⟨fun hn => congrArg _ (dataArrives_past hc hn),
      fun h => congrArg _ (dataArrives_early hc h), fun hn hg => ?_⟩⟩
    rw [dataArrives_taken hc hn hg]
    exact ⟨fun hs => congrArg (fun u => Host.Outcome.next (settle u g.val)) (collTake_mismatch hc hs),
      fun hs ho => congrArg (fun u => Host.Outcome.next (settle u g.val)) (collTake_reduces hc hs ho),
      fun hs ho => congrArg (fun u => Host.Outcome.next (settle u g.val)) (collTake_passes hc hs ho)⟩
  case join =>
    exact ⟨execJoinHash_eq hp g .parent h, fun r => execJoinHash_eq hp g (.child r) h, joinStep_idle,
      fun r up hj hr hh hd => joinStep_differs hj hr hh hd up⟩
  case beacon =>
    refine ⟨collective_absent, fun c hc => ⟨execBeacon_other hc, fun hn => ⟨?_, ?_, ?_⟩, execCollectiveTimeout_eq hc hp,
      failColl_eq hc⟩⟩
    · rintro rfl
      exact execBeacon_good hc hp hn
    · rintro rfl
      exact execBeacon_slow hc hp hn
    · rintro rfl
      exact ⟨execBeacon_peerFail hc hp hn, execBeacon_mismatch hc hp hn⟩

end Sys2Proof.Machine
end

section
/-! SUPPORT. The flit layer of a link: arrival, acknowledgement, seals, timers and replay, and the proof of O32. -/

namespace Sys2Proof.Machine

open Sys2Proof

/-! ### Updates of a link -/

@[simp] theorem State.updLink_updLink (s : State) (n : Nat) (f g : Link → Link) :
    (s.updLink n f).updLink n g = s.updLink n fun l => g (f l) := by
  simp [State.updLink, State.link]

/-- Only what an update makes of the link as it stands matters. -/
theorem State.updLink_congr {s : State} {n : Nat} {f g : Link → Link} (h : f (s.link n) = g (s.link n)) :
    s.updLink n f = s.updLink n g :=
  congrArg (fun l => ({ s with links := aput s.links n l } : State)) h

theorem linkRuns_iff {l : Link} : linkRuns l = true ↔ l.state = .up ∨ l.state = .replay := by
  simp only [linkRuns, Bool.or_eq_true, decide_eq_true_eq]

/-- Numbered flits are sent and kept while the flit layer runs and in key setup. -/
theorem flitLayerOn_iff {l : Link} : (linkRuns l || decide (l.state = .key)) = true ↔ linkRuns l = true ∨ l.state = .key := by
  rw [Bool.or_eq_true, decide_eq_true_eq]

theorem portRes_val (p : LaneNo) : portRes p.val = .port p := congrArg HoldRes.port (Fin.ofNat_val_eq_self p)

/-! ### The FEC (R427, R441) -/

section Fec

variable {s : State} {p : Nat} {i : Fin 8} {n : Nat}

theorem takeFec_corrected (h : n ≤ 15) : takeFec s p [(i, n)] = s.updLink p fun l => { l with fcorr := sat32 l.fcorr n } :=
  State.updLink_congr (if_pos h)

theorem takeFec_uncorrected (h : 15 < n) : takeFec s p [(i, n)] = s.updLink p fun l => { l with
    funcorr := sat32 l.funcorr 1
    badCw := aput l.badCw i.val (s.mono :: (aget [] l.badCw i.val).filter fun x => decide (s.mono < x + 1000000)) } :=
  State.updLink_congr (if_neg (Nat.not_le.mpr h))

end Fec

/-! ### Arrival (R432, R438) -/

/-- A flit whose CRC holds and of which the FEC corrected every codeword. -/
def Intact (f : WireFlit) : Prop := flitOk f = true ∧ ∀ e ∈ f.chk.fec, e.2 ≤ rsMax

theorem damaged_iff {f : WireFlit} : (!flitOk f || f.chk.fec.any fun e => decide (rsMax < e.2)) = true ↔ ¬ Intact f := by
  simp only [Intact, Bool.or_eq_true, Bool.not_eq_true', List.any_eq_true, decide_eq_true_eq, Classical.not_and_iff_not_or_not,
    Bool.not_eq_true, not_forall, not_le, exists_prop]

section Arrive

variable {s : State} {p : Nat} {f : WireFlit}

theorem arrive_retrain (hb : laneBad (takeFec s p f.chk.fec) ((takeFec s p f.chk.fec).link p) = true) :
    arrive s p f = (startRetrain (takeFec s p f.chk.fec) p, none) := if_pos hb

variable (hb : laneBad (takeFec s p f.chk.fec) ((takeFec s p f.chk.fec).link p) = false)
include hb

theorem arrive_damaged (hi : ¬ Intact f) :
    arrive s p f = ((takeFec s p f.chk.fec).updLink p fun l => discardFlit { l with crc := sat32 l.crc 1 }, none) :=
  (if_neg (Bool.eq_false_iff.mp hb)).trans (if_pos (damaged_iff.mpr hi))

variable (hi : Intact f)
include hi

theorem arrive_intact : arrive s p f =
    if hdrType f.hdr ≠ 2 ∧ hdrSeq f.hdr ≠ ((takeFec s p f.chk.fec).link p).rxSeq then
      ((takeFec s p f.chk.fec).updLink p discardFlit, none)
    else
      let v := takeAck (takeFec s p f.chk.fec) p f.hdr
      (if hdrNak f.hdr then takeNak v p else v, some { hdr := f.hdr, payload := f.payload }) := by
  refine (if_neg (Bool.eq_false_iff.mp hb)).trans ((if_neg fun h => damaged_iff.mp h hi).trans ?_)
  simp only [ne_eq, Bool.and_eq_true, decide_eq_true_eq]

theorem arrive_outOfOrder (ht : hdrType f.hdr ≠ 2) (hs : hdrSeq f.hdr ≠ ((takeFec s p f.chk.fec).link p).rxSeq) :
    arrive s p f = ((takeFec s p f.chk.fec).updLink p discardFlit, none) :=
  (arrive_intact hb hi).trans (if_pos ⟨ht, hs⟩)

/-- A control flit has no place in the sequence; any other is taken only in its place. -/
theorem arrive_taken (hs : hdrType f.hdr = 2 ∨ hdrSeq f.hdr = ((takeFec s p f.chk.fec).link p).rxSeq) (hn : hdrNak f.hdr = false) :
    arrive s p f = (takeAck (takeFec s p f.chk.fec) p f.hdr, some { hdr := f.hdr, payload := f.payload }) := by
  rw [arrive_intact hb hi, if_neg fun h => hs.elim h.1 h.2, hn]
  rfl

theorem arrive_nak (ht : hdrType f.hdr = 2) (hn : hdrNak f.hdr = true) :
    arrive s p f = (takeNak (takeAck (takeFec s p f.chk.fec) p f.hdr) p, some { hdr := f.hdr, payload := f.payload }) := by
  rw [arrive_intact hb hi, if_neg fun h => h.1 ht, hn]
  rfl

end Arrive

/-! ### The commands FLIT and SEAL (R432, R437, R438) -/

section Receive

variable {s : State} {p : LaneNo}

theorem execFlit_idle {hdr : Word} {payload : List Byte} {chk : FlitCheck} (hr : linkRuns (s.link p.val) = false)
    (hk : (s.link p.val).state ≠ .key) : execFlit p hdr payload chk s = .next s := by
  simp only [execFlit, hr, hk, decide_false, Bool.or_self, Bool.not_false, Bool.or_true, Bool.true_or, if_true]

theorem execSeal_idle {f : WireFlit} (hr : linkRuns (s.link p.val) = false) : execSeal p f s = .next s := by
  simp only [execSeal, hr, Bool.not_false, Bool.or_true, Bool.true_or, if_true]

variable {f : WireFlit} {u : State} {g : FlitRec} (hp : s.power = .run) (hr : linkRuns (s.link p.val) = true)
include hp hr

section Flit

variable (ht : flitOk f = false ∨ hdrType f.hdr ≠ 1)
include ht

theorem execFlit_discarded (ha : arrive s p.val f = (u, none)) : execFlit p f.hdr f.payload f.chk s = .next u := by
  have hseal : (flitOk f && decide (hdrType f.hdr = 1)) = false := by
    simpa only [Bool.and_eq_false_iff, decide_eq_false_iff_not, not_not] using ht
  simp [execFlit, hp, hr, hseal, ha]

/-- A numbered flit takes its place in the sequence, a data flit also one in its group and in the buffer. -/
theorem execFlit_accepted (ha : arrive s p.val f = (u, some g)) : execFlit p f.hdr f.payload f.chk s = .next
    (pump (if hdrType f.hdr = 2 then u else u.updLink p.val fun l =>
      acceptSeq (if hdrType f.hdr = 0 then enterBuffer { l with rxGroup := l.rxGroup ++ [g] } (hdrCls g.hdr) else l)) p.val) := by
  have hseal : (flitOk f && decide (hdrType f.hdr = 1)) = false := by
    simpa only [Bool.and_eq_false_iff, decide_eq_false_iff_not, not_not] using ht
  simp [execFlit, hp, hr, hseal, ha]

theorem execFlit_control (ha : arrive s p.val f = (u, some g)) (h2 : hdrType f.hdr = 2) :
    execFlit p f.hdr f.payload f.chk s = .next (pump u p.val) := by
  rw [execFlit_accepted hp hr ht ha, if_pos h2]

theorem execFlit_data (ha : arrive s p.val f = (u, some g)) (h0 : hdrType f.hdr = 0) : execFlit p f.hdr f.payload f.chk s = .next
    (pump (u.updLink p.val fun l => acceptSeq (enterBuffer { l with rxGroup := l.rxGroup ++ [g] } (hdrCls g.hdr))) p.val) := by
  have hnumbered : hdrType f.hdr ≠ 2 := by rw [h0]; decide
  simp only [execFlit_accepted hp hr ht ha, if_neg hnumbered, if_pos h0]

end Flit

section Seal

variable (ht : flitOk f = false ∨ hdrType f.hdr = 1)
include ht

theorem execSeal_discarded (ha : arrive s p.val f = (u, none)) : execSeal p f s = .next u := by
  have hother : (flitOk f && decide (hdrType f.hdr ≠ 1)) = false := by
    simpa only [Bool.and_eq_false_iff, decide_eq_false_iff_not, not_not] using ht
  simp only [execSeal, hp, hr, hother, ha]
  rfl

theorem execSeal_accepted (ha : arrive s p.val f = (u, some g)) : execSeal p f s = .next
    (let l := u.link p.val
     if l.rxGroup = [] then u.updLink p.val acceptSeq
     else if g.payload.take 16 = groupTag l.rxKey (groupNonce l.rxSalt l.rxSealed) l.rxGroup then sealOk u p.val
     else sealBad u p.val) := by
  have hother : (flitOk f && decide (hdrType f.hdr ≠ 1)) = false := by
    simpa only [Bool.and_eq_false_iff, decide_eq_false_iff_not, not_not] using ht
  simp only [execSeal, hp, hr, hother, ha]
  rfl

end Seal

end Receive

/-! ### Acknowledgement and credits (R438, R447) -/

section Ack

/-- How many kept flits a header acknowledges. -/
def ackCount (l : Link) (h : Word) : Nat := (wfld h 38 12 + 4096 - (l.txSeq + 4096 - l.replayBuf.length) % 4096) % 4096

/-- The credits that a header returns; a class keeps two, and one more counts as shared (log 88). -/
def giveCredits (h : Word) (l : Link) : Link :=
  let c := 2 * wfld h 30 2 + wfld h 29 1
  { l with
    credits := aput l.credits c (min 2 (aget 0 l.credits c + wfld h 24 5))
    shared := l.shared + wfld h 16 8 + (aget 0 l.credits c + wfld h 24 5 - 2) }

variable {s : State} {p : Nat} {h : Word}

/-- Kept flits are acknowledged when the header names one of them. -/
def acked (l : Link) (h : Word) : Bool := decide (0 < ackCount l h) && decide (ackCount l h ≤ l.replayBuf.length)

/-- The first kept flits have arrived: their places go to the bytes of the key setup that wait. -/
def dropAcked (n : Nat) (l : Link) : Link := sendKeys { l with replayBuf := l.replayBuf.drop n, nakCount := 0, kxReplay := false }

theorem takeAck_eq : takeAck s p h =
    let u := s.updLink p fun l =>
      if acked (s.link p) h then dropAcked (ackCount (s.link p) h) (giveCredits h l) else giveCredits h l
    if acked (s.link p) h && (s.link p).state = .replay then dropAll (setPort u p .up 0) (portRes p) else u := rfl

theorem takeAck_none (hn : ackCount (s.link p) h = 0 ∨ (s.link p).replayBuf.length < ackCount (s.link p) h) :
    takeAck s p h = s.updLink p (giveCredits h) := by
  have hacked : acked (s.link p) h = false := by
    rw [acked, ← Bool.decide_and, decide_eq_false_iff_not]
    omega
  rw [takeAck_eq, hacked]
  rfl

theorem takeAck_some (h0 : 0 < ackCount (s.link p) h) (hn : ackCount (s.link p) h ≤ (s.link p).replayBuf.length) :
    takeAck s p h =
      let u := s.updLink p fun l => dropAcked (ackCount (s.link p) h) (giveCredits h l)
      if (s.link p).state = .replay then dropAll (setPort u p .up 0) (portRes p) else u := by
  have hacked : acked (s.link p) h = true := by rw [acked, decide_eq_true h0, decide_eq_true hn, Bool.and_self]
  rw [takeAck_eq, hacked]
  simp only [if_true, Bool.true_and, decide_eq_true_eq]

end Ack

/-! ### Seals (R437) -/

section Seals

variable {s : State} {p : Nat}

/-- A group whose seal verifies goes on in order; nothing is due yet, neither new keys nor an acknowledgement. -/
theorem sealOk_eq (hk : (s.link p).rxSealed + 1 ≠ 2 ^ 32) (ha : (s.link p).unacked + 1 < 16) :
    sealOk s p = pumpAll ((openGroup (s.link p)).foldl (fun s f => forward s p f) (s.updLink p fun l => { l with
      rxGroup := [], sealFails := 0, rxSealed := l.rxSealed + 1, rxSeq := (l.rxSeq + 1) % 4096, unacked := l.unacked + 1
      nakSent := false })) := by
  refine congrArg (fun u => pumpAll ((openGroup (s.link p)).foldl (fun s f => forward s p f) u)) (State.updLink_congr ?_)
  simp only [acceptSeq, if_neg (Nat.not_le.mpr ha)]
  exact if_neg hk

/-- The open group is dropped: the sequence goes back to its first flit, and its flits give up their places. -/
def dropGroup (l : Link) (fails : Nat) : Link :=
  { l with
    rxSeq := (l.rxSeq + 4096 - l.rxGroup.length % 4096) % 4096, rxGroup := [], sealFails := fails
    occ := l.rxGroup.foldl (fun m f => aput m (hdrCls f.hdr) (aget [] m (hdrCls f.hdr)).dropLast) l.occ }

theorem sealBad_first (hf : (s.link p).sealFails = 0) :
    sealBad s p = s.updLink p fun l => { sendControl (dropGroup l 1) true with nakSent := true } := by
  simp only [sealBad, hf, State.updLink_updLink]
  refine (if_neg (by decide)).trans (State.updLink_congr ?_)
  simp only [hf]
  rfl

theorem sealBad_again (hf : 1 ≤ (s.link p).sealFails) : sealBad s p = startRetrain (s.updLink p fun l => dropGroup l 0) p := by
  simp only [sealBad, State.updLink_updLink]
  exact if_pos (Nat.succ_le_succ hf)

end Seals

/-! ### The timers (R436, R438 to R440) -/

section Timers

variable {s : State} {p : LaneNo}

theorem execSealGroupClose_idle (hr : linkRuns (s.link p.val) = false) : execSealGroupClose p s = .next s := by
  simp only [execSealGroupClose, hr, Bool.and_false, Bool.false_eq_true, if_false]

theorem execSealGroupClose_runs (hp : s.power = .run) (hr : linkRuns (s.link p.val) = true) :
    execSealGroupClose p s = .next (pump (closeGroup s p.val) p.val) := by
  simp only [execSealGroupClose, hp, hr, decide_true, Bool.and_self, if_true]

theorem closeGroup_empty {p : Nat} (hg : (s.link p).txGroup = []) : closeGroup s p = s :=
  if_pos (by rw [decide_eq_true hg, Bool.true_or])

/-- A group that closes before the last one of its keys. -/
theorem closeGroup_seals {p : Nat} (hg : (s.link p).txGroup ≠ []) (hb : (s.link p).replayBuf.length < 512)
    (hk : (s.link p).sealed + 1 ≠ 2 ^ 32) : closeGroup s p = s.updLink p fun l =>
      let tag := groupTag l.txKey (groupNonce l.txSalt l.sealed) l.txGroup
      { sendNumbered l { hdr := pack [(1, 62), (b2n l.epoch, 15)], payload := tag } with txGroup := [], sealed := l.sealed + 1 } := by
  have hopen : ¬ (decide ((s.link p).txGroup = []) || !hasRoom (s.link p)) = true := by
    rw [decide_eq_false hg, hasRoom, decide_eq_true hb]
    decide
  exact (if_neg hopen).trans (State.updLink_congr (if_neg hk))

theorem execAckTimer_idle (h : (s.link p.val).unacked = 0 ∨ linkRuns (s.link p.val) = false ∧ (s.link p.val).state ≠ .key) :
    execAckTimer p s = .next s := by
  obtain hu | ⟨hr, hk⟩ := h
  · simp only [execAckTimer, hu, ne_eq, not_true_eq_false, decide_false, Bool.and_false, Bool.false_eq_true, if_false]
  · simp only [execAckTimer, hr, hk, decide_false, Bool.or_self, Bool.and_false, Bool.false_and, Bool.false_eq_true, if_false]

theorem execAckTimer_sends (hp : s.power = .run) (h : linkRuns (s.link p.val) = true ∨ (s.link p.val).state = .key)
    (hu : (s.link p.val).unacked ≠ 0) : execAckTimer p s = .next (s.updLink p.val fun l => sendControl l false) := by
  simp only [execAckTimer, hp, flitLayerOn_iff.mpr h, ne_eq, hu, not_false_eq_true, decide_true, Bool.and_self, if_true]

end Timers

/-! ### Replay (R439, R440) -/

section Replay

/-- The kept flits are sent again, which counts. -/
def replayed (l : Link) : Link := { l.replayBuf.foldl (fun l f => putWire l false f) l with replays := sat16 l.replays 1 }

/-- A replay runs, in a port that is up or in key setup. -/
def InReplay (l : Link) : Prop := l.state = .replay ∨ l.state = .key ∧ l.kxReplay = true

section Start

variable {s : State} {p : Nat}

theorem startReplay_again (h : InReplay (s.link p)) : startReplay s p = s.updLink p replayed := by
  obtain h | ⟨h, hk⟩ := h
  · simp only [startReplay, h, reduceCtorEq, if_false, decide_false, Bool.false_and, Bool.false_eq_true]
    rfl
  · simp only [startReplay, h, hk, reduceCtorEq, if_false, Bool.not_true, Bool.and_false, Bool.false_eq_true]
    rfl

theorem startReplay_up (h : (s.link p).state = .up) : startReplay s p =
    (holdAll ((setPort s p .replay 0).updLink p fun l => { l with replayStart := s.mono }) (portRes p)).updLink p replayed := by
  simp only [startReplay, h, if_true]
  rfl

theorem startReplay_key (h : (s.link p).state = .key) (hk : (s.link p).kxReplay = false) : startReplay s p =
    (s.updLink p fun l => { l with replayStart := s.mono, kxReplay := true }).updLink p replayed := by
  simp only [startReplay, h, hk, reduceCtorEq, if_false, decide_true, Bool.not_false, Bool.and_self, if_true]
  rfl

end Start

variable {s : State} {p : LaneNo}

theorem execReplay_idle (h : (s.link p.val).replayBuf = [] ∨ linkRuns (s.link p.val) = false ∧ (s.link p.val).state ≠ .key) :
    execReplay p s = .next s := by
  obtain hb | ⟨hr, hk⟩ := h
  · simp only [execReplay, hb, decide_true, Bool.or_true, if_true]
  · simp only [execReplay, hr, hk, decide_false, Bool.or_self, Bool.not_false, Bool.or_true, Bool.true_or, if_true]

variable (hp : s.power = .run) (hb : (s.link p.val).replayBuf ≠ [])
  (hon : linkRuns (s.link p.val) = true ∨ (s.link p.val).state = .key)
include hp hb hon

theorem execReplay_on : execReplay p s = .next
    (if ((s.link p.val).state = .replay ∨ (s.link p.val).kxReplay = true) ∧ (s.link p.val).replayStart + 50000 ≤ s.mono then
      startRetrain s p.val
    else startReplay s p.val) := by
  simp only [execReplay, hp, flitLayerOn_iff.mpr hon, hb, ne_eq, not_true_eq_false, decide_false, Bool.not_true, Bool.or_self,
    Bool.false_eq_true, if_false, Bool.and_eq_true, Bool.or_eq_true, decide_eq_true_eq]

/-- A replay that has not completed in 50 us. -/
theorem execReplay_late (hr : InReplay (s.link p.val)) (ht : (s.link p.val).replayStart + 50000 ≤ s.mono) :
    execReplay p s = .next (startRetrain s p.val) := by
  rw [execReplay_on hp hb hon, if_pos ⟨hr.imp_right And.right, ht⟩]

theorem execReplay_inTime (ht : s.mono < (s.link p.val).replayStart + 50000) : execReplay p s = .next (startReplay s p.val) := by
  rw [execReplay_on hp hb hon, if_neg fun h => Nat.not_le.mpr ht h.2]

theorem execReplay_first (hs : (s.link p.val).state ≠ .replay) (hk : (s.link p.val).kxReplay = false) :
    execReplay p s = .next (startReplay s p.val) := by
  rw [execReplay_on hp hb hon, if_neg fun h => h.1.elim hs (Bool.eq_false_iff.mp hk)]

end Replay

/-! ### O32 -/

/-- Settles O32: FLIT and SEAL by what becomes of the flit on arrival, the rest by the cases of each operation. -/
theorem flitLayer : Obligations.FlitLayer := by
  unfold Obligations.FlitLayer
  intro s p hp l upd runs key
  have hruns : runs ↔ linkRuns (s.link p.val) = true := linkRuns_iff.symm
  have hidle : ¬ runs ↔ linkRuns (s.link p.val) = false := hruns.not.trans Bool.eq_false_iff.symm
  rw [hidle, hruns, ← portRes_val p]
  refine ⟨fun i n => ⟨takeFec_corrected, takeFec_uncorrected⟩, fun hdr payload chk => ?receive, rfl,
    fun h => ⟨takeAck_none, takeAck_some⟩, sealOk_eq, ⟨sealBad_first, sealBad_again⟩, ?close, ?closeEmpty, ?closeSeals,
    execAckTimer_idle, execAckTimer_sends hp, execReplay_idle, fun hb => ?replay⟩
  case receive =>
    intro f ty u intact
    have hnum : ty = 0 ∨ ty = 3 → ty ≠ 1 ∧ ty ≠ 2 := by omega
    have hctl : ty = 2 → ty ≠ 1 := by omega
    have hseal : ty = 1 → ty ≠ 2 := by omega
    refine ⟨execFlit_idle, execSeal_idle, fun hr ht hb => ?_, fun hr hb => ?_⟩
    · exact execFlit_discarded (f := f) hp hr ht (arrive_retrain hb)
    refine ⟨fun hi ht => ?_, fun hi ht => ?_, fun hi ht hs => ?_, fun hi ht hs => ?_, fun hi hn => ⟨fun ht => ?_, fun ht hs => ?_,
      fun ht hs => ?_⟩, fun hi hn ht => ?_⟩
    · exact execFlit_discarded (f := f) hp hr ht (arrive_damaged hb hi)
    · exact execSeal_discarded (f := f) hp hr ht (arrive_damaged hb hi)
    · exact execFlit_discarded (f := f) hp hr (.inr (hnum ht).1) (arrive_outOfOrder hb hi (hnum ht).2 hs)
    · exact execSeal_discarded (f := f) hp hr (.inr ht) (arrive_outOfOrder hb hi (hseal ht) hs)
    · exact execFlit_control (f := f) hp hr (.inr (hctl ht)) (arrive_taken hb hi (.inl ht) hn) ht
    · exact execFlit_data (f := f) hp hr (.inr (hnum (.inl ht)).1) (arrive_taken hb hi (.inr hs) hn) ht
    · rw [show exec (.seal p f) s = _ from execSeal_accepted hp hr (.inr ht) (arrive_taken hb hi (.inr hs) hn)]
      exact ⟨fun hg => congrArg _ (if_pos hg), fun hg hgood => congrArg _ ((if_neg hg).trans (if_pos hgood)),
        fun hg hbad => congrArg _ ((if_neg hg).trans (if_neg hbad))⟩
    · exact execFlit_control (f := f) hp hr (.inr (hctl ht)) (arrive_nak hb hi ht hn) ht
  case close =>
    exact execSealGroupClose_idle
  case closeEmpty =>
    exact fun hr hg => (execSealGroupClose_runs hp hr).trans (by rw [closeGroup_empty hg])
  case closeSeals =>
    exact fun hr hg hb hk => (execSealGroupClose_runs hp hr).trans (by rw [closeGroup_seals hg hb hk])
  case replay =>
    have hup : l.state = .up → linkRuns (s.link p.val) = true := fun h => hruns.mp (.inl h)
    have hon : InReplay l → linkRuns (s.link p.val) = true ∨ key := Or.imp (fun h => hruns.mp (.inr h)) And.left
    refine ⟨fun hr ht => execReplay_late hp hb (hon hr) hr ht, fun hr ht => ?_, fun h hk => ?_, fun h hk => ?_⟩
    · exact (execReplay_inTime hp hb (hon hr) ht).trans (congrArg _ (startReplay_again hr))
    · exact (execReplay_first hp hb (.inl (hup h)) (by rw [h]; decide) hk).trans (congrArg _ (startReplay_up h))
    · exact (execReplay_first hp hb (.inr h) (by rw [h]; decide) hk).trans (congrArg _ (startReplay_key h hk))

end Sys2Proof.Machine
end

section
/-! SUPPORT. The choice of a port, key setup, retraining, the lane decision and the route tables, and the proof of O33. -/

namespace Sys2Proof.Machine

open Sys2Proof

/-! ### The choice of a port (R444, R451) -/

section Choice

variable {s : State} {cands : List Nat} {cls : Nat} {ord : Bool}

/-- The better of two candidates; the first where they are equal. -/
def freer (s : State) (cls b q : Nat) : Nat := if freeCredits (s.link b) cls < freeCredits (s.link q) cls then q else b

theorem freer_cases (b q : Nat) : freer s cls b q = b ∨ freer s cls b q = q := (ite_eq_or_eq _ _ _).symm

theorem freeCredits_freer (b q : Nat) : freeCredits (s.link b) cls ≤ freeCredits (s.link (freer s cls b q)) cls ∧
    freeCredits (s.link q) cls ≤ freeCredits (s.link (freer s cls b q)) cls := by
  unfold freer
  split <;> omega

theorem freest_mem (p : Nat) (ps : List Nat) : ps.foldl (freer s cls) p ∈ p :: ps := by
  induction ps generalizing p with
  | nil => exact List.mem_singleton_self p
  | cons q ps ih =>
    obtain h | h := freer_cases (s := s) (cls := cls) p q
    · exact List.cons_subset_cons p (List.subset_cons_self q ps) (by simpa only [List.foldl_cons, h] using ih p)
    · exact List.mem_cons_of_mem p (by simpa only [List.foldl_cons, h] using ih q)

theorem freeCredits_le_freest (p : Nat) (ps : List Nat) :
    ∀ x ∈ p :: ps, freeCredits (s.link x) cls ≤ freeCredits (s.link (ps.foldl (freer s cls) p)) cls := by
  induction ps generalizing p with
  | nil => exact fun x hx => by rw [List.mem_singleton.mp hx]; rfl
  | cons q ps ih =>
    have hbest := ih (freer s cls p q) _ List.mem_cons_self
    obtain ⟨hp, hq⟩ := freeCredits_freer (s := s) (cls := cls) p q
    intro x hx
    obtain rfl | rfl | hx := (by simpa only [List.mem_cons] using hx : x = p ∨ x = q ∨ x ∈ ps)
    · exact hp.trans hbest
    · exact hq.trans hbest
    · exact ih _ x (List.mem_cons_of_mem _ hx)

theorem choosePort_waits (h : cands.filter (isUp s) = []) : choosePort s cands cls ord = cands.head? := by
  simp only [choosePort, h]

variable {q : Nat} {qs : List Nat} (h : cands.filter (isUp s) = q :: qs)
include h

theorem choosePort_ordered : choosePort s cands cls true = some q := by simp only [choosePort, h, if_true]

theorem choosePort_unordered : choosePort s cands cls false = some (qs.foldl (freer s cls) q) := by
  simp only [choosePort, h, Bool.false_eq_true, if_false]
  rfl

end Choice

/-! ### Widths (R443) -/

theorem narrow_spec (n : Nat) : narrow n ≤ n ∧ narrow n ∈ [0, 1, 2, 4, 8] ∧ ∀ m ∈ [1, 2, 4, 8], m ≤ n → m ≤ narrow n := by
  rw [List.forall_mem_cons, List.forall_mem_cons, List.forall_mem_cons, List.forall_mem_singleton]
  simp only [narrow, List.mem_cons, List.not_mem_nil, or_false]
  split_ifs <;> omega

/-! ### Key setup (R434, R435) -/

section KeySetup

variable {s : State} {p : LaneNo}

theorem execKeyExchange_other (hk : (s.link p.val).state ≠ .key) (m : KeyMsg) : execKeyExchange p m s = .next s := by
  simp only [execKeyExchange, hk, ne_eq, not_false_eq_true, decide_true, Bool.or_true, if_true]

variable (hp : s.power = .run) (hk : (s.link p.val).state = .key)
include hp hk

section Hello

variable {nonce : BitVec 256} {cert ev : List Byte} {pport : BitVec 8} {peer : Gid}

theorem execKeyExchange_hello_again (hh : (s.link p.val).kxHello = true) :
    execKeyExchange p (.hello nonce cert ev pport peer) s = .next s := by
  simp only [execKeyExchange, hp, hk, hh, ne_eq, not_true_eq_false, decide_false, Bool.or_self, Bool.false_eq_true, if_false, if_true]

/-- The peer's hello with what it gives, and both hellos in their places in the transcript. -/
def heardHello (s : State) (p : Nat) (nonce : BitVec 256) (cert ev : List Byte) (pport : BitVec 8) (peer : Gid) : State :=
  let u := s.updLink p fun l => takeHello l nonce cert ev pport peer
  let low := lowerSide u p
  u.updLink p fun l => addKx (addKx l low (helloBytes u p l.kxNonce)) (!low) (msgBytes (.hello nonce cert ev pport peer))

/-- The lower side answers the hello with the encapsulation key of a fresh seed. -/
def sendEncapKey (s : State) (p : Nat) : State :=
  let seed := BitVec.ofNat 512 (ofBytes (Config.freeBytes s.free 64))
  sendKey (s.tick.updLink p fun l => addKx { l with kxSeed := seed } true (Config.mlkemKey seed)) p (Config.mlkemKey seed)

theorem execKeyExchange_hello (hh : (s.link p.val).kxHello = false) :
    execKeyExchange p (.hello nonce cert ev pport peer) s = .next (
      let v := heardHello s p.val nonce cert ev pport peer
      if lowerSide (s.updLink p.val fun l => takeHello l nonce cert ev pport peer) p.val = true then sendEncapKey v p.val else v) := by
  simp only [execKeyExchange, hp, hk, hh, ne_eq, not_true_eq_false, decide_false, Bool.or_self, Bool.false_eq_true, if_false]
  rfl

end Hello

/-- The higher side answers an encapsulation key with the ciphertext and its signature. -/
def answerEncapKey (s : State) (p : Nat) (ek : List Byte) : State :=
  let k := Config.mlkemEncaps ek (BitVec.ofNat 256 (ofBytes (Config.freeBytes s.free 32)))
  let u := (s.updLink p fun l => addKx l true ek).tick.updLink p fun l => addKx { l with kxSecret := some k.2 } false k.1
  sendSignature (sendKey u p k.1) p

theorem execKeyExchange_encapKey_taken {ek : List Byte} (hh : (s.link p.val).kxHello = true) (hl : lowerSide s p.val = false)
    (hs : (s.link p.val).kxSecret = none) : execKeyExchange p (.encapKey ek) s = .next (answerEncapKey s p.val ek) := by
  simp only [execKeyExchange, hp, hk, hh, hl, hs, ne_eq, not_true_eq_false, decide_false, Bool.or_self, Bool.false_eq_true, if_false,
    Bool.not_false, Option.isNone_none, Bool.and_self, if_true]
  rfl

theorem execKeyExchange_encapKey_refused {ek : List Byte}
    (h : (s.link p.val).kxHello = false ∨ lowerSide s p.val = true ∨ (s.link p.val).kxSecret ≠ none) :
    execKeyExchange p (.encapKey ek) s = .next s := by
  have hout : ((s.link p.val).kxHello && !lowerSide s p.val && (s.link p.val).kxSecret.isNone) = false := by
    simpa only [Bool.and_eq_false_iff, Bool.not_eq_false', Option.isNone_eq_false_iff, Option.isSome_iff_ne_none, or_assoc] using h
  simp only [execKeyExchange, hp, hk, hout, ne_eq, not_true_eq_false, decide_false, Bool.or_self, Bool.false_eq_true, if_false]

/-- The lower side answers a ciphertext with its signature. -/
def answerCiphertext (s : State) (p : Nat) (ct : List Byte) : State :=
  sendSignature ((s.updLink p fun l => addKx l false ct).updLink p fun l =>
    { l with kxSecret := some (Config.mlkemDecaps l.kxSeed ct) }) p

theorem execKeyExchange_ciphertext_taken {ct : List Byte} (hh : (s.link p.val).kxHello = true) (hl : lowerSide s p.val = true)
    (hs : (s.link p.val).kxSecret = none) : execKeyExchange p (.ciphertext ct) s = .next (answerCiphertext s p.val ct) := by
  simp only [execKeyExchange, hp, hk, hh, hl, hs, ne_eq, not_true_eq_false, decide_false, Bool.or_self, Bool.false_eq_true, if_false,
    Bool.not_true, Option.isNone_none, Bool.and_self, if_true]
  rfl

theorem execKeyExchange_ciphertext_refused {ct : List Byte}
    (h : (s.link p.val).kxHello = false ∨ lowerSide s p.val = false ∨ (s.link p.val).kxSecret ≠ none) :
    execKeyExchange p (.ciphertext ct) s = .next s := by
  have hout : ((s.link p.val).kxHello && lowerSide s p.val && (s.link p.val).kxSecret.isNone) = false := by
    simpa only [Bool.and_eq_false_iff, Option.isNone_eq_false_iff, Option.isSome_iff_ne_none, or_assoc] using h
  simp only [execKeyExchange, hp, hk, hout, ne_eq, not_true_eq_false, decide_false, Bool.or_self, Bool.false_eq_true, if_false]

section Signature

variable {sig : List Byte}

theorem execKeyExchange_signature_early (hs : (s.link p.val).kxSecret = none) : execKeyExchange p (.signature sig) s = .next s := by
  simp only [execKeyExchange, hp, hk, hs, ne_eq, not_true_eq_false, decide_false, Bool.or_self, Bool.false_eq_true, if_false]

variable {ss : BitVec 256} (hs : (s.link p.val).kxSecret = some ss)
include hs

theorem execKeyExchange_signature_admitted (hc : admitCheck s (s.link p.val) sig = 0) :
    execKeyExchange p (.signature sig) s = .next (linkUp s p.val ss) := by
  simp only [execKeyExchange, hp, hk, hs, hc, ne_eq, not_true_eq_false, decide_false, Bool.or_self, Bool.false_eq_true, if_false]

theorem execKeyExchange_signature_refused {n : Nat} (hc : admitCheck s (s.link p.val) sig = n + 1) :
    execKeyExchange p (.signature sig) s = .next (failPort s p.val (n + 1)) := by
  simp only [execKeyExchange, hp, hk, hs, hc, ne_eq, not_true_eq_false, decide_false, Bool.or_self, Bool.false_eq_true, if_false]

end Signature

end KeySetup

/-! ### The checks of R435 -/

section Admit

variable {s : State} {l : Link} {sig : List Byte}

theorem admitCheck_unsigned (h : ¬ (l.peerOk = true ∧ Config.slhVerify l.peerPk (kxHash l) sig = true)) :
    admitCheck s l sig = 1 :=
  if_pos (by simpa only [Bool.not_eq_true', Bool.and_eq_false_iff, Classical.not_and_iff_not_or_not, Bool.not_eq_true] using h)

variable (h : l.peerOk = true ∧ Config.slhVerify l.peerPk (kxHash l) sig = true)
include h

theorem admitCheck_signed : admitCheck s l sig =
    if l.peerOwner ≠ ownerDigest s then 2 else if l.peerSvn < s.start.cfg.minSvn then 3
    else if l.peer ≠ l.expPeer || l.pport ≠ l.expPort then 4 else 0 :=
  if_neg (by rw [h.1, h.2]; decide)

theorem admitCheck_foreign (ho : l.peerOwner ≠ ownerDigest s) : admitCheck s l sig = 2 :=
  (admitCheck_signed h).trans (if_pos ho)

variable (ho : l.peerOwner = ownerDigest s)
include ho

theorem admitCheck_old (hv : ¬ s.start.cfg.minSvn ≤ l.peerSvn) : admitCheck s l sig = 3 :=
  (admitCheck_signed h).trans ((if_neg (not_not.mpr ho)).trans (if_pos (Nat.not_le.mp hv)))

variable (hv : s.start.cfg.minSvn ≤ l.peerSvn)
include hv

theorem admitCheck_current : admitCheck s l sig = if l.peer ≠ l.expPeer || l.pport ≠ l.expPort then 4 else 0 :=
  (admitCheck_signed h).trans ((if_neg (not_not.mpr ho)).trans (if_neg (Nat.not_lt.mpr hv)))

theorem admitCheck_misplaced (ha : ¬ (l.peer = l.expPeer ∧ l.pport = l.expPort)) : admitCheck s l sig = 4 := by
  refine (admitCheck_current h ho hv).trans (if_pos ?_)
  simpa only [Bool.or_eq_true, decide_eq_true_eq, ne_eq, Classical.not_and_iff_not_or_not] using ha

theorem admitCheck_passed (ha : l.peer = l.expPeer ∧ l.pport = l.expPort) : admitCheck s l sig = 0 := by
  refine (admitCheck_current h ho hv).trans (if_neg ?_)
  simp only [ha, ne_eq, not_true_eq_false, decide_false, Bool.or_self, Bool.false_eq_true, not_false_eq_true]

end Admit

/-! ### Retraining (R441 to R445) -/

section Retrain

variable {s : State}

theorem startRetrain_idle {p : Nat} (hr : linkRuns (s.link p) = false) (hk : (s.link p).state ≠ .key) : startRetrain s p = s := by
  simp only [startRetrain, hr, hk, decide_false, Bool.or_self, Bool.false_eq_true, if_false]

theorem startRetrain_on {p : Nat} (h : linkRuns (s.link p) = true ∨ (s.link p).state = .key) : startRetrain s p =
    holdAll ((setPort s p .retrain 0).updLink p fun x =>
      { x with retrains := sat16 x.retrains 1, retrainStart := s.mono, nakCount := 0, nakSent := false, kxReplay := false
               kxAgain := decide ((s.link p).state = .key) }) (portRes p) :=
  if_pos (flitLayerOn_iff.mpr h)

variable {p : LaneNo}

theorem execRetrain_run (hp : s.power = .run) : execRetrain p s = .next (startRetrain s p.val) := congrArg _ (if_pos hp)

theorem execLossOfSignal_own {lane : Fin 8} (hp : s.power = .run) (hl : lane.val < (s.link p.val).cwid) :
    execLossOfSignal p lane s = .next (startRetrain s p.val) := by
  simp only [execLossOfSignal, hp, hl, decide_true, Bool.and_self, if_true]

theorem execLossOfSignal_other {lane : Fin 8} (hl : (s.link p.val).cwid ≤ lane.val) : execLossOfSignal p lane s = .next s := by
  simp only [execLossOfSignal, Nat.not_lt.mpr hl, decide_false, Bool.and_false, Bool.false_eq_true, if_false]

theorem execFailedPortRetry_again (hp : s.power = .run) (h : (s.link p.val).state = .failed ∨ (s.link p.val).state = .down) :
    execFailedPortRetry p s = .next (setPort s p.val .train 0) := by
  simp only [execFailedPortRetry, hp, decide_true, Bool.true_and, Bool.or_eq_true, decide_eq_true_eq, if_pos h]

theorem execFailedPortRetry_idle (hf : (s.link p.val).state ≠ .failed) (hd : (s.link p.val).state ≠ .down) :
    execFailedPortRetry p s = .next s := by
  simp only [execFailedPortRetry, hf, hd, decide_false, Bool.or_self, Bool.and_false, Bool.false_eq_true, if_false]

end Retrain

/-! ### The spare lane and the lane decision (R442, R443) -/

section Spare

variable {s : State} {p : Nat} {spare : Bool}

/-- The octet's spare lane may serve the port. -/
def SpareFree (s : State) (p : Nat) (spare : Bool) : Prop :=
  (s.octet (p / 8)).spent = false ∧ (s.octet (p / 8)).sparePort = some p ∧ spare = true

theorem spareFree_iff : (!(s.octet (p / 8)).spent && (s.octet (p / 8)).sparePort = some p && spare) = true ↔ SpareFree s p spare := by
  simp only [SpareFree, Bool.and_eq_true, Bool.not_eq_true', decide_eq_true_eq, and_assoc]

theorem useSpare_kept {failed : List Nat} (h : ¬ SpareFree s p spare) : useSpare s p failed spare = (s, failed) := by
  cases failed with
  | nil => rfl
  | cons i is => exact if_neg (mt spareFree_iff.mp h)

theorem useSpare_taken (i : Nat) (is : List Nat) (h : SpareFree s p spare) : useSpare s p (i :: is) spare =
    (repaired (s.updOctet (p / 8) fun x =>
      { x with spent := true, sused := true, slane := BitVec.ofNat 3 (p % 8 + i),
               fail := x.fail &&& ~~~(BitVec.ofNat 8 (2 ^ (p % 8 + i))) })
      (srcPort p) (laneId (p / 8) 8) (laneId (p / 8) (p % 8 + i)) 0x09 (p / 8) (p % 8 + i) 1 0, is) :=
  if_pos (spareFree_iff.mpr h)

end Spare

section Decision

variable {s : State} {p : LaneNo} {good : BitVec 8} {spare : Bool}

/-- What the spare lane leaves: the state, and the lanes of the port that stay failed. -/
def spared (s : State) (p : Nat) (good : BitVec 8) (spare : Bool) : State × List Nat :=
  useSpare s p ((List.range (s.link p).cwid).filter fun i => !good.getLsbD i) spare

def widthLeft (s : State) (p : Nat) (good : BitVec 8) (spare : Bool) : Nat :=
  narrow ((s.link p).cwid - (spared s p good spare).2.length)

def lanesKnown (s : State) (p : Nat) (good : BitVec 8) (spare : Bool) : State :=
  (spared s p good spare).1.updLink p fun l => { l with lanes := good }

/-- The lanes that stay failed are recorded, and the port has its width. -/
def narrowed (s : State) (p : Nat) (good : BitVec 8) (spare : Bool) : State :=
  (markLanes (lanesKnown s p good spare) p (s.link p).cwid (spared s p good spare).2).updLink p fun l =>
    { l with wid := widthLeft s p good spare, badCw := [] }

/-- The retrain began over 400 us ago. -/
def RetrainLate (s : State) (l : Link) : Prop := l.state = .retrain ∧ l.retrainStart + 400000 < s.mono

theorem execRetrainEnd_idle (hr : (s.link p.val).state ≠ .retrain) (ht : (s.link p.val).state ≠ .train) :
    execRetrainEnd p good spare s = .next s := by
  simp only [execRetrainEnd, hr, ht, decide_false, Bool.or_self, Bool.not_false, Bool.or_true, if_true]

variable (hp : s.power = .run)
include hp

theorem execRetrainEnd_late (h : RetrainLate s (s.link p.val)) : execRetrainEnd p good spare s = .next (failPort s p.val 0) := by
  obtain ⟨hr, hl⟩ := h
  simp only [execRetrainEnd, hp, hr, hl, ne_eq, not_true_eq_false, decide_false, decide_true, Bool.true_or, Bool.not_true, Bool.or_self,
    Bool.false_eq_true, if_false, Bool.and_self, if_true]

variable (hs : (s.link p.val).state = .retrain ∨ (s.link p.val).state = .train) (hl : ¬ RetrainLate s (s.link p.val))
include hs hl

theorem execRetrainEnd_inTime : execRetrainEnd p good spare s = .next (
    if widthLeft s p.val good spare = 0 then failPort (lanesKnown s p.val good spare) p.val 0
    else if (s.link p.val).state = .retrain ∧ (s.link p.val).kxAgain = false then restartLink (narrowed s p.val good spare) p.val
    else dropAll (startKey (narrowed s p.val good spare) p.val) (portRes p.val)) := by
  have htrains : (decide ((s.link p.val).state = .retrain) || decide ((s.link p.val).state = .train)) = true := by
    rw [Bool.or_eq_true, decide_eq_true_eq, decide_eq_true_eq]
    exact hs
  have htime : (decide ((s.link p.val).state = .retrain) && decide ((s.link p.val).retrainStart + 400000 < s.mono)) = false := by
    rw [← Bool.decide_and]
    exact decide_eq_false hl
  simp only [execRetrainEnd, hp, htrains, htime, ne_eq, not_true_eq_false, decide_false, Bool.not_true, Bool.or_self,
    Bool.false_eq_true, if_false, Bool.and_eq_true, decide_eq_true_eq, Bool.not_eq_true']
  rfl

theorem execRetrainEnd_noLane (hw : widthLeft s p.val good spare = 0) :
    execRetrainEnd p good spare s = .next (failPort (lanesKnown s p.val good spare) p.val 0) := by
  rw [execRetrainEnd_inTime hp hs hl, if_pos hw]

theorem execRetrainEnd_restarts (hw : widthLeft s p.val good spare ≠ 0) (hr : (s.link p.val).state = .retrain)
    (ha : (s.link p.val).kxAgain = false) : execRetrainEnd p good spare s = .next (restartLink (narrowed s p.val good spare) p.val) := by
  rw [execRetrainEnd_inTime hp hs hl, if_neg hw, if_pos ⟨hr, ha⟩]

theorem execRetrainEnd_setsKeys (hw : widthLeft s p.val good spare ≠ 0)
    (h : (s.link p.val).state = .train ∨ (s.link p.val).kxAgain = true) :
    execRetrainEnd p good spare s = .next (dropAll (startKey (narrowed s p.val good spare) p.val) (portRes p.val)) := by
  have hkeys : ¬ ((s.link p.val).state = .retrain ∧ (s.link p.val).kxAgain = false) := by
    rintro ⟨hr, ha⟩
    rw [hr, ha] at h
    exact absurd h (by decide)
  rw [execRetrainEnd_inTime hp hs hl, if_neg hw, if_neg hkeys]

end Decision

/-! ### Route tables (R444, R450) -/

section Routes

theorem candidates_length_le (e : Word) : (candidates e).length ≤ 4 := by
  unfold candidates
  split
  · simp only [List.length_map, List.length_take, List.length_range]
    exact Nat.min_le_right _ _
  · exact Nat.zero_le 4

theorem candidates_lt {e : Word} {p : Nat} (h : p ∈ candidates e) : p < 256 := by
  unfold candidates at h
  split at h
  · obtain ⟨i, -, rfl⟩ := List.mem_map.mp h
    exact Nat.mod_lt _ (by decide)
  · exact absurd h List.not_mem_nil

/-- The fields of an entry: it is valid, and has its candidates and how many they are. -/
def routeFields (ps : List Nat) : List (Nat × Nat) :=
  [(1, 63), (ps.length - 1, 34)] ++ ((List.range 4).zip ps).map fun q => (q.2, 8 * q.1)

theorem toNat_pack {fs : List (Nat × Nat)} (h : fs.foldl (fun a p => a + p.1 * 2 ^ p.2) 0 < 2 ^ 64) :
    (pack fs).toNat = fs.foldl (fun a p => a + p.1 * 2 ^ p.2) 0 := by
  rw [pack, BitVec.toNat_ofNat, Nat.mod_eq_of_lt h]

/-- A sum over at most four places, each in its byte. -/
theorem foldl_places (w : Nat → Nat) {ps : List Nat} (x : Nat) (hn : ps.length ≤ 4) :
    (((List.range 4).zip ps).map fun q => (q.2, 8 * q.1)).foldl (fun a p => a + p.1 * w p.2) x =
      x + ps.getD 0 0 * w 0 + ps.getD 1 0 * w 8 + ps.getD 2 0 * w 16 + ps.getD 3 0 * w 24 := by
  have hrange : List.range 4 = [0, 1, 2, 3] := rfl
  match ps, hn with
  | [], _ | [a], _ | [a, b], _ | [a, b, c], _ | [a, b, c, d], _ => simp [hrange]

theorem toNat_pack_routeFields {ps : List Nat} (hn : ps.length ≤ 4) (hp : ∀ i, ps.getD i 0 < 256) : (pack (routeFields ps)).toNat =
    2 ^ 63 + (ps.length - 1) * 2 ^ 34 + ps.getD 0 0 + ps.getD 1 0 * 2 ^ 8 + ps.getD 2 0 * 2 ^ 16 + ps.getD 3 0 * 2 ^ 24 := by
  have hsum : (routeFields ps).foldl (fun a p => a + p.1 * 2 ^ p.2) 0 =
      2 ^ 63 + (ps.length - 1) * 2 ^ 34 + ps.getD 0 0 + ps.getD 1 0 * 2 ^ 8 + ps.getD 2 0 * 2 ^ 16 + ps.getD 3 0 * 2 ^ 24 := by
    rw [routeFields, List.foldl_append, foldl_places (2 ^ ·) _ hn, List.foldl_cons, List.foldl_cons, List.foldl_nil, Nat.zero_add,
      Nat.one_mul, pow_zero, Nat.mul_one]
  rw [toNat_pack, hsum]
  rw [hsum]
  have h0 := hp 0
  have h1 := hp 1
  have h2 := hp 2
  have h3 := hp 3
  omega

/-- The candidates of a valid entry, from its four places and its count. -/
theorem candidates_of_toNat {e : Word} {n a b c d : Nat} (hn : n < 4) (ha : a < 256) (hb : b < 256) (hc : c < 256) (hd : d < 256)
    (he : e.toNat = 2 ^ 63 + n * 2 ^ 34 + a + b * 2 ^ 8 + c * 2 ^ 16 + d * 2 ^ 24) :
    candidates e = [a, b, c, d].take (n + 1) := by
  have hvalid : wbit e 63 = true := by
    rw [wbit, BitVec.getLsbD, Nat.testBit_eq_decide_div_mod_eq, decide_eq_true_eq]
    omega
  have hcount : wfld e 34 2 = n := by
    simp only [wfld, fld]
    omega
  have hplaces : [wfld e 0 8, wfld e 8 8, wfld e 16 8, wfld e 24 8] = [a, b, c, d] := by
    simp only [wfld, fld, he, List.cons.injEq, and_true]
    omega
  rw [candidates, if_pos hvalid, hcount, List.map_take, ← hplaces]
  rfl

theorem candidates_pack_routeFields {ps : List Nat} (h0 : ps ≠ []) (hn : ps.length ≤ 4) (hp : ∀ p ∈ ps, p < 256) :
    candidates (pack (routeFields ps)) = ps := by
  have hplace : ∀ i, ps.getD i 0 < 256 := fun i => by
    rw [List.getD_eq_getElem?_getD]
    cases hi : ps[i]? with
    | none => decide
    | some p => exact hp p (List.mem_of_getElem? hi)
  have hlen := List.length_pos_iff.mpr h0
  rw [candidates_of_toNat (by omega) (hplace 0) (hplace 1) (hplace 2) (hplace 3) (toNat_pack_routeFields hn hplace)]
  match ps, hn with
  | [a], _ | [a, b], _ | [a, b, c], _ | [a, b, c, d], _ => rfl

theorem candidates_entryWithout (s : State) (e : Word) :
    candidates (entryWithout s e) = (candidates e).filter fun q => (s.link q).state ≠ .failed := by
  cases hk : (candidates e).filter fun q => (s.link q).state ≠ .failed with
  | nil =>
    simp only [entryWithout, hk]
    rfl
  | cons q qs =>
    have hsub : ∀ x ∈ q :: qs, x ∈ candidates e := fun x hx => (List.mem_filter.mp (hk ▸ hx)).1
    have hentry : entryWithout s e = pack (routeFields (q :: qs)) := by
      simp only [entryWithout, hk]
      rfl
    rw [hentry]
    exact candidates_pack_routeFields (List.cons_ne_nil q qs) (hk ▸ (List.length_filter_le _ _).trans (candidates_length_le e))
      fun x hx => candidates_lt (hsub x hx)

theorem execRouteTableRebuild_idleQueues {s : State} (hp : s.power = .run)
    (hq : ∀ q ∈ s.links, q.2.state = .failed → q.2.txq = []) : execRouteTableRebuild s = .next (pumpAll { s with gal := { s.gal with
      grpTab := s.gal.grpCfg.map fun q => (q.1, entryWithout s q.2)
      memTab := s.gal.memCfg.map fun q => (q.1, entryWithout s q.2) } }) := by
  have hnone : (s.links.filter fun q => q.2.state = .failed && q.2.txq ≠ []) = [] := by
    refine List.filter_eq_nil_iff.mpr fun q h => ?_
    rw [Bool.and_eq_true, decide_eq_true_eq, decide_eq_true_eq]
    exact fun hw => hw.2 (hq q h hw.1)
  simp only [execRouteTableRebuild, hp, ne_eq, not_true_eq_false, if_false, hnone, List.foldl_nil]

end Routes

/-! ### O33 -/

/-- Settles O33: the choice by induction over the candidates, key setup by its messages and the checks of R435, the lane decision
by its cases, and the tables by reading back the entries that are written. -/
theorem linkSetup : Obligations.LinkSetup := by
  unfold Obligations.LinkSetup
  refine ⟨fun s cands cls ord => ⟨choosePort_waits, fun q qs hup => ⟨?_, ?_⟩⟩, narrow_spec, fun s p hp => ?_⟩
  · rintro rfl
    exact choosePort_ordered hup
  · rintro rfl
    rw [hup]
    exact ⟨_, choosePort_unordered hup, freest_mem q qs, freeCredits_le_freest q qs⟩
  intro l upd runs hold
  have hruns : runs ↔ linkRuns (s.link p.val) = true := linkRuns_iff.symm
  have hidle : ¬ runs ↔ linkRuns (s.link p.val) = false := hruns.not.trans Bool.eq_false_iff.symm
  have hhold : hold = portRes p.val := (portRes_val p).symm
  rw [hidle, hruns, hhold]
  refine ⟨execKeyExchange_other, fun hk => ⟨fun nonce cert ev pport peer => ?hello,
      fun ek => ⟨execKeyExchange_encapKey_taken hp hk, execKeyExchange_encapKey_refused hp hk⟩,
      fun ct => ⟨execKeyExchange_ciphertext_taken hp hk, execKeyExchange_ciphertext_refused hp hk⟩, fun sig => ?signature⟩,
    execRetrain_run hp, fun lane => ⟨execLossOfSignal_own hp, execLossOfSignal_other⟩, startRetrain_idle, startRetrain_on,
    fun failed spare => ⟨useSpare_kept, ?spare⟩, fun good spare => ⟨execRetrainEnd_idle, execRetrainEnd_late hp, fun hs hl =>
      ⟨execRetrainEnd_noLane hp hs hl, execRetrainEnd_restarts hp hs hl, execRetrainEnd_setsKeys hp hs hl⟩⟩,
    execFailedPortRetry_again hp, execFailedPortRetry_idle, execRouteTableRebuild_idleQueues hp, candidates_entryWithout s⟩
  case hello =>
    refine ⟨execKeyExchange_hello_again hp hk, fun hh hlow => ?_, fun hh hlow => ?_⟩
    · exact (execKeyExchange_hello hp hk hh).trans (congrArg _ (if_neg (Bool.eq_false_iff.mp hlow)))
    · exact (execKeyExchange_hello hp hk hh).trans (congrArg _ (if_pos hlow))
  case signature =>
    refine ⟨execKeyExchange_signature_early hp hk, fun ss hss => ⟨fun h => ?_, fun h ho => ?_, fun h ho hv => ?_,
      fun h ho hv ha => ?_, fun h ho hv ha => ?_⟩⟩
    · exact execKeyExchange_signature_refused hp hk hss (admitCheck_unsigned h)
    · exact execKeyExchange_signature_refused hp hk hss (admitCheck_foreign h ho)
    · exact execKeyExchange_signature_refused hp hk hss (admitCheck_old h ho hv)
    · exact execKeyExchange_signature_refused hp hk hss (admitCheck_misplaced h ho hv ha)
    · exact execKeyExchange_signature_admitted hp hk hss (admitCheck_passed h ho hv ha)
  case spare =>
    rintro i is rfl
    exact useSpare_taken i is

end Sys2Proof.Machine
end

/-! ### What every operation keeps -/

section
namespace Sys2Proof.Machine
open Sys2Proof

/-- From `σ` to `s` the queue, the serial number and the blown pin bits stand, the rollback counter has not fallen and stays at
most 64, and memory in canonical form and VCOREs of 550 mV or more stay so (R591, R608, R623, R651). -/
structure Keeps (σ s : State) : Prop where
  pending : s.pending = σ.pending
  serial : s.sec.serial = σ.sec.serial
  rollback : σ.sec.rollback ≤ 64 → σ.sec.rollback ≤ s.sec.rollback ∧ s.sec.rollback ≤ 64
  pin : ∀ i, (ownerSlot σ i).pin = true → (ownerSlot s i).pin = true
  mem : Memory.wf σ.mem = true → Memory.wf s.mem = true
  die0 : 550 ≤ σ.lamp.die0.vcore → 550 ≤ s.lamp.die0.vcore
  die1 : 550 ≤ σ.lamp.die1.vcore → 550 ≤ s.lamp.die1.vcore

/-- The fields of which `Keeps` speaks. -/
def kept (s : State) := (s.pending, s.mem, s.sec.serial, s.sec.rollback, s.sec.owners, s.lamp.die0.vcore, s.lamp.die1.vcore)

/-- `Keeps` of the state that an optional result holds. -/
def KeepsOpt (σ : State) : Option State → Prop
  | none => True
  | some t => Keeps σ t

/-- `Keeps` of the state that a register read returns, if it returns one. -/
def KeepsRead {α : Type} (σ : State) : Option (State × α) → Prop
  | none => True
  | some p => Keeps σ p.1

/-- `Keeps` of the state after an instruction's effect; a fault has none. -/
def KeepsEff (σ : State) : Effect → Prop
  | .error _ => True
  | .ok d => Keeps σ d.st

/-- The outcome is a next state, which keeps what `Keeps` says. -/
def Completes (σ : State) : Host.Outcome State Fault Refusal → Prop
  | .next t => Keeps σ t
  | _ => False

variable {σ s t : State} {α β : Type}

theorem Keeps.refl (s : State) : Keeps s s := ⟨rfl, rfl, fun h => ⟨le_rfl, h⟩, fun _ => id, id, id, id⟩

/-- An update of other fields. -/
theorem Keeps.frame (h : Keeps σ s) (e : kept t = kept s) : Keeps σ t := by
  obtain ⟨hp, hs, hr, hn, hm, h0, h1⟩ := h
  simp only [kept, Prod.mk.injEq] at e
  obtain ⟨ep, em, es, er, eo, e0, e1⟩ := e
  exact ⟨ep.trans hp, es.trans hs, er ▸ hr, by simpa only [ownerSlot, eo] using hn, em ▸ hm, e0 ▸ h0, e1 ▸ h1⟩

theorem Keeps.fields {free mono time power gid degraded memMib pacesum map errs memK1 memK2 tiles svcs memStacks gal links octets
    fe host start pins rep tu} (h : Keeps σ s) : Keeps σ { s with
      free := free, mono := mono, time := time, power := power, gid := gid, degraded := degraded, memMib := memMib, pacesum := pacesum
      map := map, errs := errs, memK1 := memK1, memK2 := memK2, tiles := tiles, svcs := svcs, memStacks := memStacks, gal := gal
      links := links, octets := octets, fe := fe, host := host, start := start, pins := pins, rep := rep, tu := tu } := h.frame rfl

/-- Bytes are written to memory, and other fields are updated. -/
theorem Keeps.writes {free mono time power gid degraded memMib pacesum map errs memK1 memK2 tiles svcs memStacks gal links octets
    fe host start pins rep tu a bs} (h : Keeps σ s) : Keeps σ { s with
      free := free, mono := mono, time := time, power := power, gid := gid, degraded := degraded, memMib := memMib, pacesum := pacesum
      map := map, mem := writeBytes s.mem a bs, errs := errs, memK1 := memK1, memK2 := memK2, tiles := tiles, svcs := svcs
      memStacks := memStacks, gal := gal, links := links, octets := octets, fe := fe, host := host, start := start, pins := pins
      rep := rep, tu := tu } :=
  { h with mem := fun hm => wf_writeBytes _ _ _ (h.mem hm) }

theorem Keeps.ite {c : Prop} {_ : Decidable c} (hs : Keeps σ s) (ht : Keeps σ t) : Keeps σ (if c then s else t) := by
  split
  · exact hs
  · exact ht

theorem Keeps.ite₁ {c : Prop} {_ : Decidable c} {p q : State × α} (hp : Keeps σ p.1) (hq : Keeps σ q.1) :
    Keeps σ (if c then p else q).1 := by
  split
  · exact hp
  · exact hq

theorem KeepsEff.ite {c : Prop} {_ : Decidable c} {r q : Effect} (hr : KeepsEff σ r) (hq : KeepsEff σ q) :
    KeepsEff σ (if c then r else q) := by
  split
  · exact hr
  · exact hq

theorem KeepsRead.ite {c : Prop} {_ : Decidable c} {r q : Option (State × α)} (hr : KeepsRead σ r) (hq : KeepsRead σ q) :
    KeepsRead σ (if c then r else q) := by
  split
  · exact hr
  · exact hq

theorem Keeps.pair {x : α} (h : Keeps σ s) : Keeps σ (s, x).1 := h

theorem Completes.next (h : Keeps σ s) : Completes σ (.next s) := h

theorem Completes.next_of {o : Host.Outcome State Fault Refusal} (h : Completes σ o) : ∃ t, o = .next t ∧ Keeps σ t := by
  match o, h with
  | .next t, h => exact ⟨t, rfl, h⟩

theorem KeepsOpt.some (h : Keeps σ s) : KeepsOpt σ (Option.some s) := h

theorem KeepsRead.some {p : State × α} (h : Keeps σ p.1) : KeepsRead σ (Option.some p) := h

theorem KeepsEff.ok {d : Done} (h : Keeps σ d.st) : KeepsEff σ (.ok d) := h

theorem Keeps.of {p : State × α} {x : α} (h : Keeps σ p.1) (e : p = (t, x)) : Keeps σ t := by
  subst e; exact h

theorem KeepsOpt.of {r : Option State} (h : KeepsOpt σ r) (e : r = Option.some t) : Keeps σ t := by
  subst e; exact h

theorem KeepsRead.of {r : Option (State × α)} {x : α} (h : KeepsRead σ r) (e : r = Option.some (t, x)) : Keeps σ t := by
  subst e; exact h

theorem KeepsEff.of {r : Effect} {d : Done} (h : KeepsEff σ r) (e : r = .ok d) : Keeps σ d.st := by
  subst e; exact h

/-- A fold over any value that holds a state. -/
theorem Keeps.fold {δ : Type} (g : δ → State) {f : δ → β → δ} {l : List β} {p : δ} (h : Keeps σ (g p))
    (hf : ∀ q x, Keeps σ (g q) → Keeps σ (g (f q x))) : Keeps σ (g (l.foldl f p)) := by
  induction l generalizing p with
  | nil => exact h
  | cons x l ih => exact ih (hf p x h)

theorem Keeps.foldl {f : State → β → State} {l : List β} (h : Keeps σ s) (hf : ∀ t x, Keeps σ t → Keeps σ (f t x)) :
    Keeps σ (l.foldl f s) := h.fold id hf

theorem Keeps.foldl₁ {f : State × α → β → State × α} {l : List β} {p : State × α} (h : Keeps σ p.1)
    (hf : ∀ q x, Keeps σ q.1 → Keeps σ (f q x).1) : Keeps σ (l.foldl f p).1 := h.fold Prod.fst hf

theorem Keeps.setTile {n t'} (h : Keeps σ s) : Keeps σ (State.setTile s n t') :=
  h.fields

theorem Keeps.updTile {n f} (h : Keeps σ s) : Keeps σ (State.updTile s n f) :=
  h.setTile

theorem Keeps.setSvc {n t'} (h : Keeps σ s) : Keeps σ (State.setSvc s n t') :=
  h.fields

theorem Keeps.setCore {c k} (h : Keeps σ s) : Keeps σ (State.setCore s c k) := by
  unfold Machine.State.setCore
  split
  · exact h.setTile
  · exact h.setSvc

theorem Keeps.updCore {c f} (h : Keeps σ s) : Keeps σ (State.updCore s c f) :=
  h.setCore

theorem Keeps.updStack {n f} (h : Keeps σ s) : Keeps σ (State.updStack s n f) :=
  h.fields

theorem Keeps.updLink {p f} (h : Keeps σ s) : Keeps σ (State.updLink s p f) :=
  h.fields

theorem Keeps.updOctet {o f} (h : Keeps σ s) : Keeps σ (State.updOctet s o f) :=
  h.fields

theorem Keeps.updQueue {q f} (h : Keeps σ s) : Keeps σ (State.updQueue s q f) :=
  h.fields

theorem Keeps.updFeTile {t' f} (h : Keeps σ s) : Keeps σ (State.updFeTile s t' f) :=
  h.fields

theorem Keeps.setReg {c r v} (h : Keeps σ s) : Keeps σ (State.setReg s c r v) :=
  h.updCore

theorem Keeps.tick (h : Keeps σ s) : Keeps σ (State.tick s) :=
  h.fields

/-- A change of a die keeps a VCORE of 550 mV or more where its function does. -/
theorem Keeps.updDie {d f} (h : Keeps σ s) (hf : ∀ x : DiePower, 550 ≤ x.vcore → 550 ≤ (f x).vcore) :
    Keeps σ (State.updDie s d f) := by
  cases d with
  | c0 => exact { h with die0 := fun h0 => hf _ (h.die0 h0) }
  | c1 => exact { h with die1 := fun h1 => hf _ (h.die1 h1) }

/-- A VCORE that follows its target and the asks is at least 550 mV (R651). -/
theorem Keeps.setVcore {d} {f : DiePower → DiePower} (h : Keeps σ s) : Keeps σ (s.updDie d fun x => setVcore (f x)) :=
  h.updDie fun _ _ => le_max_left _ _

theorem Keeps.logEntry {src code cls detail} (h : Keeps σ s) : Keeps σ (logEntry s src code cls detail) :=
  Keeps.ite h.fields h.fields

theorem Keeps.requestSound {x} (h : Keeps σ s) : Keeps σ (requestSound s x) :=
  Keeps.ite h.fields (Keeps.ite h h.fields)

theorem Keeps.corrError {x} (h : Keeps σ s) : Keeps σ (corrError s x) :=
  h.logEntry.fields.requestSound

theorem Keeps.contError {src code detail} (h : Keeps σ s) : Keeps σ (contError s src code detail) :=
  h.logEntry.fields

theorem Keeps.patrolMismatch {x} (h : Keeps σ s) : Keeps σ (patrolMismatch s x) :=
  h.logEntry.requestSound

theorem Keeps.strikeBurst {u xs} (h : Keeps σ s) : Keeps σ (strikeBurst s u xs) :=
  h.fields

theorem Keeps.clearErrs {l} (h : Keeps σ s) : Keeps σ (clearErrs s l) :=
  h.fields

theorem Keeps.setSliceSet {p ls} (h : Keeps σ s) : Keeps σ (setSliceSet s p ls) :=
  h.updStack

theorem Keeps.writeBackLine {e} (h : Keeps σ s) : Keeps σ (writeBackLine s e) :=
  Keeps.ite (Keeps.ite (h.clearErrs.foldl fun _ _ h1 => h1.strikeBurst) h.clearErrs) h

theorem Keeps.sliceTouch {p l dirty full} (h : Keeps σ s) : Keeps σ (sliceTouch s p l dirty full) := by
  unfold Machine.sliceTouch
  dsimp only
  split
  · exact h.setSliceSet
  · split
    · exact h.setSliceSet
    · split
      · exact h.writeBackLine.setSliceSet
      · exact Keeps.ite h.clearErrs h

theorem Keeps.readBurst {p u} (h : Keeps σ s) : Keeps σ (readBurst s p u) := by
  unfold Machine.readBurst
  dsimp only
  split
  · exact Keeps.ite h h.writes
  · exact Keeps.ite h.updStack.corrError h.updStack.corrError.writes
  · exact h

theorem Keeps.readBursts {p l} (h : Keeps σ s) : Keeps σ (readBursts s p l) :=
  h.foldl fun _ _ h1 => h1.readBurst

theorem Keeps.noteUncorr {p l} (h : Keeps σ s) : Keeps σ (noteUncorr s p l) := by
  unfold Machine.noteUncorr
  split
  · exact h.requestSound
  · exact h.updStack.requestSound

theorem Keeps.lineRead {l bg} (h : Keeps σ s) : Keeps σ (lineRead s l bg).1 := by
  unfold Machine.lineRead
  split
  · exact h
  · split
    · exact h
    · split
      · exact h.noteUncorr
      · exact Keeps.ite (Keeps.ite h h.readBursts) ((Keeps.ite h h.readBursts).sliceTouch)

theorem Keeps.restoreLine {p l} (h : Keeps σ s) : Keeps σ (restoreLine s p l) := by
  unfold Machine.restoreLine
  split
  · exact h.updStack.contError.requestSound
  · exact h.readBursts.clearErrs

theorem Keeps.carryLines {f} (h : Keeps σ s) : Keeps σ (carryLines s f) := by
  unfold Machine.carryLines
  refine Keeps.foldl h (fun u x h1 => ?_)
  split
  · exact Keeps.ite h1.restoreLine h1
  · exact h1

theorem Keeps.strikeLine {l e} (h : Keeps σ s) : Keeps σ (strikeLine s l e) := by
  unfold Machine.strikeLine
  dsimp only
  split
  · split
    · exact h.strikeBurst.strikeBurst.setSliceSet
    · exact h.strikeBurst.strikeBurst
  · exact h.strikeBurst.strikeBurst

theorem Keeps.memRead {a n} (h : Keeps σ s) : Keeps σ (memRead s a n).1 := by
  unfold Machine.memRead
  dsimp only
  split
  · refine Keeps.foldl₁ h (fun u x h1 => ?_)
    split
    · exact h1
    · exact h1.lineRead
  · refine Keeps.foldl₁ h (fun u x h1 => ?_)
    split
    · exact h1
    · exact h1.lineRead

theorem Keeps.nearWrite {p a bs} (h : Keeps σ s) : Keeps σ (nearWrite s p a bs) :=
  h.writes.sliceTouch

theorem Keeps.lineWrite {a bs} (h : Keeps σ s) : Keeps σ (lineWrite s a bs).1 := by
  unfold Machine.lineWrite
  dsimp only
  split
  · exact h
  · split
    · exact h
    · split
      · exact Keeps.ite (Keeps.clearErrs (Keeps.writes (Keeps.updStack h))) (Keeps.sliceTouch (Keeps.writes (Keeps.updStack h)))
      · split
        next e => exact h.lineRead.of e
        next e => exact h.lineRead.of e
        next e => exact (h.lineRead.of e).updStack.nearWrite

theorem Keeps.memWrite {a bs} (h : Keeps σ s) : Keeps σ (memWrite s a bs).1 := by
  unfold Machine.memWrite
  refine Keeps.foldl₁ h (fun u x h1 => ?_)
  split
  next e4 => exact h1.lineWrite.of e4

theorem Keeps.scratchWrite {t' off bs} (h : Keeps σ s) : Keeps σ (scratchWrite s t' off bs) :=
  h.updTile

theorem Keeps.busRead {own a n} (h : Keeps σ s) : Keeps σ (busRead s own a n).1 := by
  unfold Machine.busRead
  split
  · exact h.memRead
  · exact h
  · exact h

theorem Keeps.busWrite {own a bs} (h : Keeps σ s) : Keeps σ (busWrite s own a bs).1 := by
  unfold Machine.busWrite
  split
  · exact h.memWrite
  · exact h.scratchWrite
  · exact h

theorem Keeps.busAdd {own a n v} (h : Keeps σ s) : Keeps σ (busAdd s own a n v).1 := by
  unfold Machine.busAdd
  split
  next e4 => exact h.busRead.of e4
  next e4 => exact (h.busRead.of e4).busWrite

theorem Keeps.recordLate {c addr kind} (h : Keeps σ s) : Keeps σ (recordLate s c addr kind) :=
  h.updCore

theorem Keeps.ringTile {t' b} (h : Keeps σ s) : Keeps σ (ringTile s t' b) :=
  h.updTile

theorem Keeps.ringHost {b} (h : Keeps σ s) : Keeps σ (ringHost s b) :=
  h.fields

theorem Keeps.askDrain {t'} (h : Keeps σ s) : Keeps σ (askDrain s t') := by
  unfold Machine.askDrain
  exact h.updTile.updFeTile

theorem Keeps.failQueueCmd {q code detail fa fr fv} (h : Keeps σ s) : Keeps σ (failQueueCmd s q code detail fa fr fv) := by
  unfold Machine.failQueueCmd
  split
  · exact h
  · exact Keeps.ite h (h.updQueue.foldl fun _ _ h1 => h1.askDrain)

theorem Keeps.failPtask {i code detail fa fr fv} (h : Keeps σ s) : Keeps σ (failPtask s i code detail fa fr fv) := by
  unfold Machine.failPtask
  split
  · exact h
  · exact Keeps.ite h (h.fields.foldl fun _ _ h1 => h1.askDrain)

theorem Keeps.failTile {t' code detail fa fr fv} (h : Keeps σ s) : Keeps σ (failTile s t' code detail fa fr fv) := by
  unfold Machine.failTile
  split
  · exact h.failPtask
  · split
    · exact h.failQueueCmd
    · exact h

theorem Keeps.engineFail {t' e addr} (h : Keeps σ s) : Keeps σ (engineFail s t' e addr) := by
  unfold Machine.engineFail
  split
  · exact h.contError.failTile
  · exact h.failTile
  · exact h

theorem Keeps.haltWith {c addr pc cause} (h : Keeps σ s) : Keeps σ (haltWith s c addr pc cause) := by
  unfold Machine.haltWith
  split
  · exact h
  · exact h.failTile

theorem Keeps.haltReport {c} (h : Keeps σ s) : Keeps σ (haltReport s c) :=
  h.haltWith

theorem Keeps.galSend {m} (h : Keeps σ s) : Keeps σ (galSend s m) := by
  unfold Machine.galSend
  dsimp only
  split
  · exact h.fields
  · split
    · exact h
    · exact h.tick.fields.updLink

theorem Keeps.updL1 {t' f} (h : Keeps σ s) : Keeps σ (State.updL1 s t' f) :=
  h.updTile

theorem Keeps.victimWrite {t' e} (h : Keeps σ s) : Keeps σ (victimWrite s t' e) := by
  unfold Machine.victimWrite
  dsimp only
  split
  · split
    next e4 => exact Keeps.ite (((h.lineWrite.of e4).strikeLine).recordLate) (h.lineWrite.of e4)
    next e5 => exact (h.lineWrite.of e5).recordLate
  · exact h

theorem Keeps.l1Install {t' e} (h : Keeps σ s) : Keeps σ (l1Install s t' e) := by
  unfold Machine.l1Install
  refine Keeps.updL1 ?_
  split
  · exact h.victimWrite
  · exact h

theorem Keeps.fillReturn {t' m} (h : Keeps σ s) : Keeps σ (fillReturn s t' m) := by
  unfold Machine.fillReturn
  dsimp only
  split
  · exact h
  · split
    next e5 => exact (h.lineRead.of e5).contError
    next e6 => exact h.lineRead.of e6
    next e4 => exact (h.lineRead.of e4).l1Install

theorem Keeps.missTake {t' l} (h : Keeps σ s) : Keeps σ (missTake s t' l) := by
  unfold Machine.missTake
  dsimp only
  split
  · exact h.updL1
  · split
    · exact Keeps.ite h.updL1.fillReturn h
    · exact h

theorem Keeps.l1Demand {t' l} (h : Keeps σ s) : Keeps σ (l1Demand s t' l).1 := by
  unfold Machine.l1Demand
  dsimp only
  split
  · split
    next e6 => exact h.missTake.lineRead.of e6
    next e5 => exact (h.missTake.lineRead.of e5).l1Install
  · split
    · split
      · exact h.requestSound
      · split
        next e10 => exact h.updL1.corrError.missTake.lineRead.of e10
        next e9 => exact (h.updL1.corrError.missTake.lineRead.of e9).l1Install
    · exact Keeps.pair h.updL1

theorem Keeps.l1Write {t' a bs full} (h : Keeps σ s) : Keeps σ (l1Write s t' a bs full).1 := by
  unfold Machine.l1Write
  dsimp only
  split
  · split
    · split
      · split
        · exact h.updL1.lineWrite
        · split
          · exact Keeps.pair h.updL1
          · exact h.updL1.l1Install
      · split
        · exact h.updL1.lineWrite
        · split
          · exact Keeps.pair h.updL1
          · exact h.updL1.l1Install
    · exact Keeps.pair h.updL1.updL1
  · split
    next e5 => exact h.updL1.l1Demand.of e5
    next e5 => exact Keeps.pair ((h.updL1.l1Demand.of e5).updL1)

theorem Keeps.l1WriteBack {t' l} (h : Keeps σ s) : Keeps σ (l1WriteBack s t' l) := by
  unfold Machine.l1WriteBack
  split
  · exact h
  · exact Keeps.ite h.victimWrite.updL1 h

theorem Keeps.l1Flush {t' l} (h : Keeps σ s) : Keeps σ (l1Flush s t' l) := by
  unfold Machine.l1Flush
  split
  · exact h
  · exact h.l1WriteBack.updL1

theorem Keeps.pfAccess {t' key l miss} (h : Keeps σ s) : Keeps σ (pfAccess s t' key l miss) := by
  unfold Machine.pfAccess
  dsimp only
  split
  · exact h
  · split
    · exact Keeps.ite h.updL1 h
    · exact h.updL1

theorem Keeps.dcLoad {n l} (h : Keeps σ s) : Keeps σ (dcLoad s n l).1 := by
  unfold Machine.dcLoad
  dsimp only
  split
  · exact h.setSvc
  · split
    next e6 => exact h.lineRead.of e6
    next e5 => exact (h.lineRead.of e5).setSvc

theorem Keeps.dcStore {n a bs} (h : Keeps σ s) : Keeps σ (dcStore s n a bs) :=
  h.setSvc

theorem Keeps.dcDrop {n l} (h : Keeps σ s) : Keeps σ (dcDrop s n l) :=
  h.setSvc

theorem Keeps.portRead {c a n} (h : Keeps σ s) : Keeps σ (portRead s c a n).1 := by
  unfold Machine.portRead
  split
  · split
    · split
      · split
        next e11 => exact h.l1Demand.of e11
        next e11 => exact h.l1Demand.of e11
      · split
        next e11 => exact h.dcLoad.of e11
        next e11 => exact h.dcLoad.of e11
    · split
      next e7 => exact h.lineRead.of e7
      next e8 => exact h.lineRead.of e8
  · split
    · exact h
    · dsimp only
      split
      · exact h.requestSound
      · exact h
  · exact h

theorem Keeps.coreRead {c a n} (h : Keeps σ s) : Keeps σ (coreRead s c a n).1 := by
  unfold Machine.coreRead
  split
  next e4 => exact h.portRead.of e4
  next e4 => exact h.portRead.of e4

theorem Keeps.portWrite {c a bs full} (h : Keeps σ s) : Keeps σ (portWrite s c a bs full).1 := by
  unfold Machine.portWrite
  split
  · split
    · exact Keeps.ite₁ h.l1Write h.lineWrite
    · exact h.lineWrite
  · exact h.scratchWrite
  · exact h

theorem Keeps.amoAt {fadd c a n op src cmp} (h : Keeps σ s) : Keeps σ (amoAt fadd s c a n op src cmp).1 := by
  unfold Machine.amoAt
  split
  · dsimp only
    split
    next e7 =>
      refine Keeps.of ?_ e7
      refine Keeps.lineRead ?_
      split
      · exact h.l1Flush
      · exact h.dcDrop
    next e6 =>
      split
      · refine Keeps.nearWrite ?_
        refine Keeps.of ?_ e6
        refine Keeps.lineRead ?_
        split
        · exact h.l1Flush
        · exact h.dcDrop
      · refine Keeps.of ?_ e6
        refine Keeps.lineRead ?_
        split
        · exact h.l1Flush
        · exact h.dcDrop
  · split
    · exact h
    · exact h.scratchWrite
  · exact h

theorem Keeps.lineZero {a} (h : Keeps σ s) : Keeps σ (lineZero s a).1 := by
  unfold Machine.lineZero
  split
  · exact h
  · exact Keeps.pair h.updStack.lineWrite.updStack

theorem Keeps.dczAt {c a} (h : Keeps σ s) : Keeps σ (dczAt s c a).1 := by
  unfold Machine.dczAt
  dsimp only
  split
  · split
    · split
      · split
        · exact h
        · exact h.updL1.l1Install
      · exact h.lineZero
    · exact h.lineZero
  · exact h.scratchWrite
  · exact h

theorem Keeps.performEntry {fadd c e} (h : Keeps σ s) : Keeps σ (performEntry fadd s c e) := by
  unfold Machine.performEntry
  dsimp only
  split
  · split
    · exact h.dczAt
    · exact h.dczAt.recordLate
  · split
    · exact h.amoAt
    · exact h.amoAt.recordLate
  · exact h.recordLate
  · split
    · refine Keeps.foldl₁ h (fun u x h1 => ?_)
      split
      · exact h1
      · split
        next e9 => exact h1.portWrite.of e9
        next e10 => exact h1.portWrite.of e10
    · refine Keeps.recordLate ?_
      refine Keeps.foldl₁ h (fun u x h1 => ?_)
      split
      · exact h1
      · split
        next e10 => exact h1.portWrite.of e10
        next e11 => exact h1.portWrite.of e11

theorem Keeps.drainOne {fadd c} (h : Keeps σ s) : Keeps σ (drainOne fadd s c) := by
  unfold Machine.drainOne
  split
  · exact h
  · dsimp only
    split
    · split
      · exact Keeps.ite h.updCore.recordLate h.updCore.updCore.galSend
      · exact h.updCore.performEntry
    · exact h.updCore.performEntry

theorem Keeps.drainN {fadd c} : ∀ {n s}, Keeps σ s → Keeps σ (drainN fadd n s c)
  | 0, _, h => h
  | _ + 1, _, h => h.drainOne.drainN

theorem Keeps.drainAll {fadd c} (h : Keeps σ s) : Keeps σ (drainAll fadd s c) :=
  h.drainN

theorem Keeps.bufferWrite {fadd c e} (h : Keeps σ s) : Keeps σ (bufferWrite fadd s c e) := by
  unfold Machine.bufferWrite
  dsimp only
  split
  · exact (Keeps.ite h.drainOne h).updCore
  · split
    · exact (Keeps.ite h.drainOne h).updCore
    · split
      · exact Keeps.ite h.dcStore.setCore.drainN h.dcStore.setCore
      · split
        · exact ((Keeps.ite h.dcStore.drainOne h.dcStore).updCore).drainAll
        · exact (Keeps.ite h.dcStore.drainOne h.dcStore).updCore

theorem Keeps.coreLoad {c a n} (h : Keeps σ s) : Keeps σ (coreLoad s c a n).1 :=
  (Keeps.ite h.drainAll h).coreRead

theorem Keeps.addSteps {c work} (h : Keeps σ s) : Keeps σ (addSteps s c work) :=
  h.updCore

theorem Keeps.addStall {c} (h : Keeps σ s) : Keeps σ (addStall s c) :=
  h.updCore.tick

theorem Keeps.writeFrame {c a bs} (h : Keeps σ s) : Keeps σ (writeFrame s c a bs) := by
  unfold Machine.writeFrame
  dsimp only
  split
  · split
    · exact h.drainAll.recordLate
    · split
      next e5 => exact h.drainAll.portWrite.of e5
      next e6 => exact (h.drainAll.portWrite.of e6).recordLate
  · split
    · exact h.recordLate
    · split
      next e5 => exact h.portWrite.of e5
      next e6 => exact (h.portWrite.of e6).recordLate

theorem Keeps.enterBackstop {c code t' epc} (h : Keeps σ s) : Keeps σ (enterBackstop s c code t' epc) := by
  unfold Machine.enterBackstop
  exact h.addSteps.updCore

theorem Keeps.enterLevel {c level t' epc} (h : Keeps σ s) : Keeps σ (enterLevel s c level t' epc) := by
  unfold Machine.enterLevel
  dsimp only
  split
  · exact h.writeFrame.addSteps.updCore
  · exact h.enterBackstop

theorem Keeps.firmwareReport {c t' epc} (h : Keeps σ s) : Keeps σ (firmwareReport s c t' epc) := by
  unfold Machine.firmwareReport
  split
  · exact h
  · exact Keeps.ite (Keeps.ite h.updTile (Keeps.ite h.updTile.failTile h.updTile.failTile)) h.updTile.failTile

theorem Keeps.takeFault {c t' epc} (h : Keeps σ s) : Keeps σ (takeFault s c t' epc) := by
  unfold Machine.takeFault
  dsimp only
  split
  · exact ((Keeps.ite h.contError h).updCore).haltReport
  · split
    · exact (Keeps.ite h.contError h).enterBackstop
    · exact Keeps.ite (((Keeps.ite h.contError h).enterLevel).firmwareReport) ((Keeps.ite h.contError h).enterLevel)

theorem Keeps.takeInterrupt {c l epc} (h : Keeps σ s) : Keeps σ (takeInterrupt s c l epc) := by
  unfold Machine.takeInterrupt
  dsimp only
  split
  · split
    · split
      · exact h.updCore.enterLevel.failTile
      · exact h.updCore.enterLevel
    · exact h.updCore.enterLevel
  · split
    · split
      · exact h.updCore.enterLevel.failTile
      · exact h.updCore.enterLevel
    · exact h.updCore.enterLevel

theorem Keeps.icPut {c key d} (h : Keeps σ s) : Keeps σ (icPut s c key d) :=
  Keeps.ite h.updCore h.updCore.tick

theorem Keeps.dataLine {c l} (h : Keeps σ s) : Keeps σ (dataLine s c l).1 := by
  unfold Machine.dataLine
  split
  · exact h.portRead
  · exact h.coreRead

theorem Keeps.icLine {c l} (h : Keeps σ s) : Keeps σ (icLine s c l).1 := by
  unfold Machine.icLine
  split
  · exact h
  · split
    next e6 => exact h.dataLine.of e6
    next e6 => exact (h.dataLine.of e6).icPut

theorem Keeps.fetchSpans {c ps} (h : Keeps σ s) : Keeps σ (fetchSpans c ps s).1 := by
  induction ps generalizing s with
  | nil => exact h
  | cons p ps ih =>
    unfold Machine.fetchSpans
    split
    · exact h
    · split
      next e => exact h.icLine.of e
      next e =>
        split
        next e' => exact (ih (h.icLine.of e)).of e'
        next e' => exact (ih (h.icLine.of e)).of e'

theorem Keeps.fetch {c n} (h : Keeps σ s) : Keeps σ (fetch s c n).1 := by
  unfold Machine.fetch
  dsimp only
  split
  · exact h
  · split
    next e5 => exact h.fetchSpans.of e5
    next e5 => exact Keeps.pair (((h.fetchSpans.of e5).fetchSpans).updCore)

theorem Keeps.iflRange {c a n} (h : Keeps σ s) : Keeps σ (iflRange s c a n) :=
  h.updCore

theorem Keeps.iflAll {c} (h : Keeps σ s) : Keeps σ (iflAll s c) :=
  h.updCore

theorem Keeps.stallBy {c n} (h : Keeps σ s) : Keeps σ (stallBy s c n) :=
  h.updCore

theorem Keeps.prep {c ks n} (h : Keeps σ s) : Keeps σ (prep s c ks n).1 := by
  unfold Machine.prep
  dsimp only
  split
  · exact Keeps.ite h.fetch.addStall h.fetch
  · exact (Keeps.ite h.fetch.addStall h.fetch).stallBy

theorem Keeps.updVec {t' f} (h : Keeps σ s) : Keeps σ (State.updVec s t' f) :=
  h.updTile

theorem Keeps.ofBuf {α : Type} {p : LineBuf × α} {b : LineBuf} {x : α} (h : Keeps σ p.1.st) (e : p = (b, x)) :
    Keeps σ b.st := by
  subst e; exact h

theorem Keeps.vreadSpan {b t' a m} (h : Keeps σ b.st) : Keeps σ (vreadSpan b t' a m).1.st := by
  have hr : ∀ {x n t r}, Machine.portRead b.st (tcore t') x n = (t, r) → Keeps σ t := fun e => h.portRead.of e
  unfold Machine.vreadSpan
  split
  · exact h
  · split
    · split
      · split
        · exact h
        · split
          next e => exact hr e
          next e => exact hr e
      · split
        next e => exact hr e
        next e => exact hr e
    · split
      next e => exact hr e
      next e => exact hr e

theorem Keeps.vread {b t' a n} (h : Keeps σ b.st) : Keeps σ (vread b t' a n).1.st := by
  refine Keeps.fold (fun r : LineBuf × Except (Word × AccErr) (List Byte) => r.1.st) h (fun q x hq => ?_)
  split
  · exact hq
  · split
    next e => exact hq.vreadSpan.ofBuf e
    next e => exact hq.vreadSpan.ofBuf e

theorem Keeps.storeLines {t' ps} (h : Keeps σ s) : Keeps σ (storeLines s t' ps) := by
  unfold Machine.storeLines
  refine Keeps.foldl h (fun u x h1 => ?_)
  split
  · exact h1
  · exact Keeps.ite h1.portWrite (h1.foldl fun _ _ h2 => h2.portWrite)

theorem Keeps.setFault {t' i kind e nr} (h : Keeps σ s) : Keeps σ (setFault s t' i kind e nr) := by
  unfold Machine.setFault
  exact h.updVec

theorem Keeps.dataFault {t' x e a err nr} (h : Keeps σ s) : Keeps σ (dataFault s t' x e a err nr) :=
  h.setFault.updCore.takeFault

theorem Keeps.vldNote {t' x f} (h : Keeps σ s) : Keeps σ (vldNote s t' x f) := by
  unfold Machine.vldNote
  split
  · exact h
  · split
    · exact h
    · split
      · exact Keeps.ite h.pfAccess h
      · exact h

theorem Keeps.vldElem {t' x f acc i} (h : Keeps σ acc.1.st) : Keeps σ (vldElem t' x f acc i).1.st := by
  unfold Machine.vldElem
  split
  · exact h
  · split
    next e =>
      dsimp only
      exact (h.vread.ofBuf e).updVec
    next e => exact h.vread.ofBuf e

theorem Keeps.startVld {t' x f} (h : Keeps σ s) : Keeps σ (startVld s t' x f).1 :=
  h.vldNote.fold (p := (⟨_, none⟩, none)) (fun r : LineBuf × Option (Nat × Word × AccErr) => r.1.st) fun _ _ hq => hq.vldElem

theorem Keeps.startVst {t' x f} (h : Keeps σ s) : Keeps σ (startVst s t' x f).1 :=
  h.storeLines

theorem Keeps.startCld {t' x f} (h : Keeps σ s) : Keeps σ (startCld s t' x f).1 := by
  have hb : Keeps σ (Machine.vread { st := s, line := none } t' x.scal 64).1.st := Keeps.vread h
  unfold Machine.startCld
  split
  next e => exact Keeps.pair (hb.ofBuf e).updVec
  next e => exact hb.ofBuf e

theorem Keeps.startCst {t' x f} (h : Keeps σ s) : Keeps σ (startCst s t' x f).1 := by
  unfold Machine.startCst
  dsimp only
  split
  · exact h
  · exact h.storeLines

theorem Keeps.startVchain {t' x f n} (h : Keeps σ s) : Keeps σ (startVchain s t' x f n) :=
  h.updTile

theorem Keeps.startRownorm {t' x f md} (h : Keeps σ s) : Keeps σ (startRownorm s t' x f md) :=
  h.updTile

theorem Keeps.patrolStep {t' x mismatch} (h : Keeps σ s) : Keeps σ (patrolStep s t' x mismatch) :=
  Keeps.ite ((Keeps.ite h.patrolMismatch h).updVec) h

theorem Keeps.startOne {t' x} (h : Keeps σ s) : Keeps σ (startOne s t' x).1 := by
  unfold Machine.startOne
  split
  · exact h.drainAll.startVld
  · exact h.drainAll.startVst
  · exact h.drainAll.startCld
  · exact h.drainAll.startCst
  · exact Keeps.pair h.updVec
  · exact h.startVchain
  · exact h.startRownorm
  · dsimp only
    split
    · exact h.updVec.setReg.updCore.tick
    · exact h.updVec

theorem Keeps.startHead {t' mismatch} (h : Keeps σ s) : Keeps σ (startHead s t' mismatch).1 := by
  unfold Machine.startHead
  split
  · exact h
  · exact Keeps.ite₁ h (Keeps.ite₁ h.updVec.updVec.patrolStep h.updVec.startOne.patrolStep)

theorem Keeps.startN {n t'} (h : Keeps σ s) : Keeps σ (startN n s t').1 := by
  induction n generalizing s with
  | zero => exact h
  | succ n ih =>
    unfold Machine.startN
    split
    next e => exact h.startHead.of e
    next e => exact ih (h.startHead.of e)

theorem Keeps.laterFault {t' a} (h : Keeps σ s) : Keeps σ (laterFault s t' a) :=
  h.contError

theorem Keeps.joinFault {t' f g} (h : Keeps σ s) : Keeps σ (joinFault s t' f g).1 := by
  unfold Machine.joinFault
  split
  · exact h
  · exact h.laterFault

theorem Keeps.runStarted {t' xs f} (h : Keeps σ s) : Keeps σ (runStarted t' xs s f).1 := by
  induction xs generalizing s f with
  | nil => exact h
  | cons x xs ih =>
    unfold Machine.runStarted
    split
    next e => exact ih (h.startOne.of e)
    next e => exact ih (h.startOne.of e).joinFault

theorem Keeps.endStarted {t' r} (h : Keeps σ r.1) : Keeps σ (endStarted t' r).1 := by
  unfold Machine.endStarted
  split
  · exact h
  · exact h.dataFault

theorem Keeps.completeRun {t'} (h : Keeps σ s) : Keeps σ (completeRun s t').1 :=
  Keeps.ite₁ h h.updVec.runStarted.endStarted

theorem Keeps.startAll {t'} (h : Keeps σ s) : Keeps σ (startAll s t').1 :=
  h.startN.completeRun

theorem Keeps.done (h : Keeps σ s) : KeepsEff σ (done s) :=
  h

theorem Keeps.doneOcc {n} (h : Keeps σ s) : KeepsEff σ (doneOcc s n) :=
  h

theorem Keeps.memFault {c t'} (h : Keeps σ s) : KeepsEff σ (memFault s c t') :=
  h

theorem Keeps.issueFault {c t' pc} (h : Keeps σ s) : Keeps σ (issueFault s c t' pc) := by
  unfold Machine.issueFault
  split
  · exact Keeps.ite h.startAll h.startAll.takeFault
  · exact h.takeFault

theorem Keeps.issueFrom {c ks len legal body} (h : Keeps σ s) (hbody : ∀ t, Keeps σ t → KeepsEff σ (body t)) :
    Keeps σ (issueFrom c ks len legal body s) := by
  unfold Machine.issueFrom
  split
  next e => exact (h.prep.of e).issueFault
  next e =>
    have hp := h.prep.of e
    dsimp only
    split
    · exact hp.issueFault
    · split
      · exact hp.issueFault
      next e' =>
        have hd := (hbody _ hp).of e'
        split
        · exact hd.addSteps.updCore
        · exact Keeps.ite hp.issueFault hd.addSteps.updCore
        · exact hd.addSteps
        · exact hd.takeFault

theorem Keeps.waitStall {c} (h : Keeps σ s) : Keeps σ (waitStall s c) :=
  Keeps.ite h.addStall h

theorem Keeps.waitAt {c} (h : Keeps σ s) : KeepsEff σ (waitAt s c) :=
  h.addStall

theorem Keeps.olderRun {c sync} (h : Keeps σ s) : Keeps σ (olderRun s c sync).1 := by
  unfold Machine.olderRun
  split
  · exact h
  · exact Keeps.ite₁ h.startAll h.startN

theorem Keeps.olderStop {c} (h : Keeps σ s) : Keeps σ (olderStop s c) := by
  unfold Machine.olderStop
  split
  · exact Keeps.ite h h.addStall
  · exact h

theorem Keeps.issue {c rs len legal body xs sync} (h : Keeps σ s) (hbody : ∀ t, Keeps σ t → KeepsEff σ (body t)) :
    Keeps σ (issue c rs len legal body s xs sync) :=
  Keeps.ite h.waitStall (Keeps.ite h.olderRun.olderStop (h.olderRun.issueFrom hbody))

theorem Keeps.vissue {t' rs wait body} (h : Keeps σ s) (hbody : ∀ t, Keeps σ t → KeepsEff σ (body t)) :
    Keeps σ (vissue t' rs wait body s) :=
  Keeps.ite h.waitStall (Keeps.ite (Keeps.ite h.startAll.olderStop (h.startAll.issueFrom hbody)) (h.issueFrom hbody))

theorem Keeps.loadOwe {c rd hit} (h : Keeps σ s) : Keeps σ (loadOwe s c rd hit) :=
  Keeps.ite h.updCore h.updCore.tick

theorem Keeps.drainWait {c} (h : Keeps σ s) : Keeps σ (drainWait s c) :=
  (Keeps.ite h h.addStall).drainAll

theorem Keeps.bufferStall {c} (h : Keeps σ s) : Keeps σ (bufferStall s c) :=
  Keeps.ite h.addStall h

theorem Keeps.markPassed {c} (h : Keeps σ s) : Keeps σ (markPassed s c) := by
  unfold Machine.markPassed
  split
  · exact Keeps.ite h h.updVec
  · exact h

theorem Keeps.aluRun {c len legal args res m} (h : Keeps σ s) : Keeps σ (aluRun c len legal args res s m) :=
  h.issue (fun _ h1 => h1.markPassed.updCore.done)

theorem Keeps.execMov {c rd rs} (h : Keeps σ s) : Completes σ (execMov c rd rs s) :=
  h.aluRun

theorem Keeps.execMovi {c rd imm} (h : Keeps σ s) : Completes σ (execMovi c rd imm s) :=
  h.aluRun

theorem Keeps.execAdd {c f} (h : Keeps σ s) : Completes σ (execAdd c f s) :=
  h.aluRun

theorem Keeps.execSub {c f} (h : Keeps σ s) : Completes σ (execSub c f s) :=
  h.aluRun

theorem Keeps.execAdc {c f} (h : Keeps σ s) : Completes σ (execAdc c f s) :=
  h.aluRun

theorem Keeps.execSbc {c f} (h : Keeps σ s) : Completes σ (execSbc c f s) :=
  h.aluRun

theorem Keeps.execAndR {c f} (h : Keeps σ s) : Completes σ (execAndR c f s) :=
  h.aluRun

theorem Keeps.execOrR {c f} (h : Keeps σ s) : Completes σ (execOrR c f s) :=
  h.aluRun

theorem Keeps.execXorR {c f} (h : Keeps σ s) : Completes σ (execXorR c f s) :=
  h.aluRun

theorem Keeps.execAndn {c f} (h : Keeps σ s) : Completes σ (execAndn c f s) :=
  h.aluRun

theorem Keeps.execShl {c f} (h : Keeps σ s) : Completes σ (execShl c f s) :=
  h.aluRun

theorem Keeps.execShr {c f} (h : Keeps σ s) : Completes σ (execShr c f s) :=
  h.aluRun

theorem Keeps.execSar {c f} (h : Keeps σ s) : Completes σ (execSar c f s) :=
  h.aluRun

theorem Keeps.execRol {c f} (h : Keeps σ s) : Completes σ (execRol c f s) :=
  h.aluRun

theorem Keeps.execCmp {c rd rs} (h : Keeps σ s) : Completes σ (execCmp c rd rs s) :=
  h.aluRun

theorem Keeps.execCmpi {c rd imm} (h : Keeps σ s) : Completes σ (execCmpi c rd imm s) :=
  h.aluRun

theorem Keeps.execMul {c f} (h : Keeps σ s) : Completes σ (execMul c f s) :=
  h.aluRun

theorem Keeps.execMulh {c f} (h : Keeps σ s) : Completes σ (execMulh c f s) :=
  h.aluRun

theorem Keeps.execMulhu {c f} (h : Keeps σ s) : Completes σ (execMulhu c f s) :=
  h.aluRun

theorem Keeps.execDiv {c f} (h : Keeps σ s) : Completes σ (execDiv c f s) :=
  h.aluRun

theorem Keeps.execDivu {c f} (h : Keeps σ s) : Completes σ (execDivu c f s) :=
  h.aluRun

theorem Keeps.execRem {c f} (h : Keeps σ s) : Completes σ (execRem c f s) :=
  h.aluRun

theorem Keeps.execRemu {c f} (h : Keeps σ s) : Completes σ (execRemu c f s) :=
  h.aluRun

theorem Keeps.execSlt {c f} (h : Keeps σ s) : Completes σ (execSlt c f s) :=
  h.aluRun

theorem Keeps.execSltu {c f} (h : Keeps σ s) : Completes σ (execSltu c f s) :=
  h.aluRun

theorem Keeps.execMinR {c f} (h : Keeps σ s) : Completes σ (execMinR c f s) :=
  h.aluRun

theorem Keeps.execMaxR {c f} (h : Keeps σ s) : Completes σ (execMaxR c f s) :=
  h.aluRun

theorem Keeps.execMinu {c f} (h : Keeps σ s) : Completes σ (execMinu c f s) :=
  h.aluRun

theorem Keeps.execMaxu {c f} (h : Keeps σ s) : Completes σ (execMaxu c f s) :=
  h.aluRun

theorem Keeps.execClz {c f} (h : Keeps σ s) : Completes σ (execClz c f s) :=
  h.aluRun

theorem Keeps.execCtz {c f} (h : Keeps σ s) : Completes σ (execCtz c f s) :=
  h.aluRun

theorem Keeps.execPopc {c f} (h : Keeps σ s) : Completes σ (execPopc c f s) :=
  h.aluRun

theorem Keeps.execBswap {c f} (h : Keeps σ s) : Completes σ (execBswap c f s) :=
  h.aluRun

theorem Keeps.execSext {c n f} (h : Keeps σ s) : Completes σ (execSext c n f s) :=
  h.aluRun

theorem Keeps.execZextW {c f} (h : Keeps σ s) : Completes σ (execZextW c f s) :=
  h.aluRun

theorem Keeps.execAddi {c f} (h : Keeps σ s) : Completes σ (execAddi c f s) :=
  h.aluRun

theorem Keeps.execAndi {c f} (h : Keeps σ s) : Completes σ (execAndi c f s) :=
  h.aluRun

theorem Keeps.execOri {c f} (h : Keeps σ s) : Completes σ (execOri c f s) :=
  h.aluRun

theorem Keeps.execXori {c f} (h : Keeps σ s) : Completes σ (execXori c f s) :=
  h.aluRun

theorem Keeps.execShli {c f} (h : Keeps σ s) : Completes σ (execShli c f s) :=
  h.aluRun

theorem Keeps.execShri {c f} (h : Keeps σ s) : Completes σ (execShri c f s) :=
  h.aluRun

theorem Keeps.execSari {c f} (h : Keeps σ s) : Completes σ (execSari c f s) :=
  h.aluRun

theorem Keeps.execRoli {c f} (h : Keeps σ s) : Completes σ (execRoli c f s) :=
  h.aluRun

theorem Keeps.execSlti {c f} (h : Keeps σ s) : Completes σ (execSlti c f s) :=
  h.aluRun

theorem Keeps.execSltiu {c f} (h : Keeps σ s) : Completes σ (execSltiu c f s) :=
  h.aluRun

theorem Keeps.execLui {c rd imm} (h : Keeps σ s) : Completes σ (execLui c rd imm s) :=
  h.aluRun

theorem Keeps.execLsh {c rd imm} (h : Keeps σ s) : Completes σ (execLsh c rd imm s) :=
  h.aluRun

theorem Keeps.srWrite {c n w} (h : Keeps σ s) : KeepsOpt σ (srWrite s c n w) := by
  unfold Machine.srWrite
  split
  · trivial
  · refine KeepsOpt.some ?_
    split
    · exact Keeps.ite h.setCore.updVec h.setCore
    · exact h.setCore

theorem Keeps.hashFault (_ : Keeps σ s) : KeepsEff σ (hashFault s) := trivial

theorem Keeps.hashRun {c rs body} (h : Keeps σ s) (hbody : ∀ t, Keeps σ t → KeepsEff σ (body t)) :
    Keeps σ (hashRun c rs body s) := h.issue hbody

theorem Keeps.updHash {c f} (h : Keeps σ s) : Keeps σ (State.updHash s c f) :=
  h.updCore

theorem Keeps.hashBusy {c n} (h : Keeps σ s) : Keeps σ (hashBusy s c n) :=
  Keeps.ite h h.updCore

theorem Keeps.absorbed {c bs} (h : Keeps σ s) : Keeps σ (absorbed s c bs) :=
  h.hashBusy.updHash

theorem Keeps.hashRead {c a n} (h : Keeps σ s) : Keeps σ (hashRead s c a n).1 := by
  unfold Machine.hashRead
  split
  · exact h
  · refine Keeps.foldl₁ h (fun u x h1 => ?_)
    split
    · exact h1
    · split
      · exact h1
      · split
        next e12 => exact h1.coreLoad.of e12
        next e12 => exact h1.coreLoad.of e12

theorem Keeps.hashWrite {c a bs} (h : Keeps σ s) : Keeps σ (hashWrite s c a bs) := by
  unfold Machine.hashWrite
  refine Keeps.foldl₁ h (fun u x h1 => ?_)
  dsimp only
  split
  · exact h1.recordLate
  · exact h1.bufferWrite

theorem Keeps.execHinit {c f} (h : Keeps σ s) : Completes σ (execHinit c f s) := by
  unfold Machine.execHinit
  refine Completes.next ?_
  refine Keeps.hashRun h (fun u h1 => ?_)
  dsimp only
  split
  · exact h1.updHash.done
  · split
    · exact h1.updHash.done
    · exact h1.hashFault

theorem Keeps.execHabs {c f} (h : Keeps σ s) : Completes σ (execHabs c f s) := by
  unfold Machine.execHabs
  refine Completes.next ?_
  refine Keeps.hashRun h (fun u h1 => ?_)
  split
  · exact h1.hashFault
  · exact h1.absorbed.done

theorem Keeps.execHabsm {c f} (h : Keeps σ s) : Completes σ (execHabsm c f s) := by
  unfold Machine.execHabsm
  refine Completes.next ?_
  refine Keeps.hashRun h (fun u h1 => ?_)
  split
  · exact h1.hashFault
  · split
    next e5 => exact (h1.hashRead.of e5).memFault
    next e5 => exact ((h1.hashRead.of e5).absorbed).done

theorem Keeps.execHfin {c x1} (h : Keeps σ s) : Completes σ (execHfin c x1 s) :=
  h.hashRun (fun _ h1 => h1.hashBusy.updHash.done)

theorem Keeps.execHsqz {c f} (h : Keeps σ s) : Completes σ (execHsqz c f s) :=
  h.hashRun (fun _ h1 => h1.hashBusy.updHash.setReg.updCore.done)

theorem Keeps.execHsave {c f} (h : Keeps σ s) : Completes σ (execHsave c f s) := by
  unfold Machine.execHsave
  refine Completes.next ?_
  refine Keeps.hashRun h (fun u h1 => ?_)
  dsimp only
  split
  · trivial
  · exact h1.hashWrite.done

theorem Keeps.execHrest {c f} (h : Keeps σ s) : Completes σ (execHrest c f s) := by
  unfold Machine.execHrest
  refine Completes.next ?_
  refine Keeps.hashRun h (fun u h1 => ?_)
  split
  next e4 => exact (h1.hashRead.of e4).memFault
  next e4 => exact ((h1.hashRead.of e4).updHash).done

theorem Keeps.agentRead {t' a n} (h : Keeps σ s) : Keeps σ (agentRead s t' a n).1 := by
  unfold Machine.agentRead
  split
  · exact h
  · refine Keeps.busRead ?_
    split
    · exact h.foldl fun _ _ h1 => h1.l1WriteBack
    · exact h

theorem Keeps.agentFlush {t' l n} (h : Keeps σ s) : Keeps σ (agentFlush s t' l n) := by
  unfold Machine.agentFlush
  split
  · exact h.foldl fun _ _ h1 => h1.l1Flush
  · exact h

theorem Keeps.fillFail {t' e} (h : Keeps σ s) : Keeps σ (fillFail s t' e).1 := by
  unfold Machine.fillFail
  split
  · split
    · exact Keeps.pair h.engineFail
    · exact h
  · exact Keeps.pair h.engineFail
  · exact h

theorem Keeps.agentWrite {t' a bs} (h : Keeps σ s) : Keeps σ (agentWrite s t' a bs).1 := by
  unfold Machine.agentWrite
  split
  · exact h
  · exact Keeps.ite₁ h h.agentFlush.busWrite.fillFail

theorem Keeps.agentSignal {t' a add v} (h : Keeps σ s) : Keeps σ (agentSignal s t' a add v).1 := by
  unfold Machine.agentSignal
  split
  · exact h
  · exact Keeps.ite₁ h.agentFlush ((Keeps.ite₁ h.agentFlush.busAdd h.agentFlush.busWrite).fillFail)

theorem Keeps.pass {n} (h : Keeps σ s) : Keeps σ (State.pass s n) :=
  Keeps.ite h.fields (Keeps.ite h.tick.fields h.tick.fields)

theorem Keeps.reach {d} (h : Keeps σ s) : Keeps σ (State.reach s d) :=
  h.pass

theorem Keeps.recordMtx {t' kind e addr} (h : Keeps σ s) : Keeps σ (recordMtx s t' kind e addr) := by
  unfold Machine.recordMtx
  dsimp only
  split
  · exact h.updTile.failTile
  · exact h.updTile.engineFail

theorem Keeps.performHanded {t'} (h : Keeps σ s) : Keeps σ (performHanded s t') := by
  unfold Machine.performHanded
  refine Keeps.foldl (Keeps.updTile h) (fun u x h1 => ?_)
  split
  next e3 => exact h1.portWrite.of e3
  next e4 => exact (h1.portWrite.of e4).recordMtx

theorem Keeps.idle (h : Keeps σ s) : Keeps σ (idle s) :=
  Keeps.ite ((h.pass.foldl fun _ _ h1 => h1.drainOne).foldl fun _ _ h1 => h1.performHanded) h

theorem Keeps.tellHolder {x1} (h : Keeps σ s) : Keeps σ (tellHolder s x1) := by
  unfold Machine.tellHolder
  split
  · exact h.updTile
  · exact h.updTile
  · exact h.updTile
  · exact h.fields

theorem Keeps.issueGrant {r} (h : Keeps σ s) : Keeps σ (issueGrant s r) :=
  Keeps.tellHolder (Keeps.frame h rfl)

theorem Keeps.requestGrant {h' w d rt} (h : Keeps σ s) : Keeps σ (requestGrant s h' w d rt) := by
  unfold Machine.requestGrant
  dsimp only
  split
  · exact h.issueGrant
  · split
    · exact h.frame rfl
    · exact h.frame rfl

theorem Keeps.releaseGrant {h'} (h : Keeps σ s) : Keeps σ (releaseGrant s h') :=
  h.frame rfl

theorem Keeps.updTaskq {k f} (h : Keeps σ s) : Keeps σ (State.updTaskq s k f) :=
  h.fields

theorem Keeps.updInbox {t' i f} (h : Keeps σ s) : Keeps σ (State.updInbox s t' i f) :=
  h.fields

theorem Keeps.waitResult {t' sel tq off late} (h : Keeps σ s) : Keeps σ (waitResult s t' sel tq off late).1 := by
  unfold Machine.waitResult
  dsimp only
  split
  · exact h.updTaskq.scratchWrite
  · exact h

theorem Keeps.unpark {t'} (h : Keeps σ s) : Keeps σ (unpark s t') :=
  Keeps.ite h.updTaskq h

theorem Keeps.wake {t' p late} (h : Keeps σ s) : Keeps σ (wake s t' p late) := by
  unfold Machine.wake
  exact h.unpark.waitResult.setReg.updCore

theorem Keeps.wakeCheck {t'} (h : Keeps σ s) : Keeps σ (wakeCheck s t') := by
  unfold Machine.wakeCheck
  split
  · exact Keeps.ite h.wake h
  · exact h

theorem Keeps.serveTaskq {k} (h : Keeps σ s) : Keeps σ (serveTaskq s k) :=
  h.foldl fun _ _ h1 => Keeps.ite h1 h1.wakeCheck

theorem Keeps.pushTaskq {k e} (h : Keeps σ s) : Keeps σ (pushTaskq s k e) :=
  Keeps.ite h.updTaskq.serveTaskq (Keeps.ite h.updTaskq h.updTaskq)

theorem Keeps.galFail {t' code addr} (h : Keeps σ s) : Keeps σ (galFail s t' code addr) :=
  Keeps.ite h.engineFail (Keeps.ite h.engineFail h)

theorem Keeps.madeBy {t' r} (h : Keeps σ r.1) : Keeps σ (madeBy t' r) := by
  unfold Machine.madeBy
  split
  · exact h.engineFail
  · exact h

theorem Keeps.opSignal {t' i bs} (h : Keeps σ s) : Keeps σ (opSignal s t' i bs) :=
  Keeps.ite h (Keeps.ite h.galSend h.agentSignal.madeBy)

theorem Keeps.writeEnd {t' i a bs signal code detail} (h : Keeps σ s) : Keeps σ (writeEnd s t' i a bs signal code detail) :=
  (Keeps.ite h.agentWrite.madeBy.opSignal h.agentWrite.madeBy).galFail

theorem Keeps.updPort {t' f} (h : Keeps σ s) : Keeps σ (State.updPort s t' f) :=
  h.updTile

theorem Keeps.updOp {t' id f} (h : Keeps σ s) : Keeps σ (updOp s t' id f) :=
  h.updPort

theorem Keeps.endOp {t' id signal code detail} (h : Keeps σ s) : Keeps σ (endOp s t' id signal code detail) := by
  unfold Machine.endOp
  split
  · exact h
  · exact h.updPort.releaseGrant.writeEnd

theorem Keeps.finishOp {t' id code detail} (h : Keeps σ s) : Keeps σ (finishOp s t' id code detail) :=
  h.endOp

theorem Keeps.openOp {t' e bs deadline needGrant} (h : Keeps σ s) : Keeps σ (openOp s t' e bs deadline needGrant).1 :=
  Keeps.pair h.updPort

theorem Keeps.refuseOp {t' e bs code detail} (h : Keeps σ s) : Keeps σ (refuseOp s t' e bs code detail) :=
  h.writeEnd

theorem Keeps.copyMove {t' o} (h : Keeps σ s) : Keeps σ (copyMove s t' o) := by
  unfold Machine.copyMove
  dsimp only
  split
  · split
    next e8 => exact (h.agentRead.of e8).finishOp
    next e8 =>
      split
      · exact Keeps.ite ((h.agentRead.of e8).galSend) ((h.agentRead.of e8).finishOp)
      · split
        · exact (h.agentRead.of e8).finishOp
        · split
          next e14 => exact (((h.agentRead.of e8).agentWrite).of e14).finishOp
          next e13 => exact (((h.agentRead.of e8).agentWrite).of e13).updOp
  · split
    · exact Keeps.ite h.galSend h.finishOp
    · split
      next e9 => exact (h.agentRead.of e9).finishOp
      next e9 =>
        split
        · exact (h.agentRead.of e9).finishOp
        · split
          next e14 => exact (((h.agentRead.of e9).agentWrite).of e14).finishOp
          next e13 => exact (((h.agentRead.of e9).agentWrite).of e13).updOp
  · exact h

theorem Keeps.copyStart {t' e bs get} (h : Keeps σ s) : Keeps σ (copyStart s t' e bs get) := by
  unfold Machine.copyStart
  dsimp only
  split
  · exact h.refuseOp
  · split
    · exact h.refuseOp
    · split
      · exact h.refuseOp
      · split
        · exact h.refuseOp
        · split
          · split
            · exact h.refuseOp
            · split
              · exact h.refuseOp
              · split
                · exact Keeps.ite (Keeps.ite h.openOp.requestGrant h.openOp) ((Keeps.ite h.openOp.requestGrant h.openOp).copyMove)
                · exact Keeps.ite h.openOp.requestGrant h.openOp
          · split
            · exact h.refuseOp
            · split
              · exact h.refuseOp
              · split
                · exact Keeps.ite (Keeps.ite h.openOp.requestGrant h.openOp) ((Keeps.ite h.openOp.requestGrant h.openOp).copyMove)
                · exact Keeps.ite h.openOp.requestGrant h.openOp

theorem Keeps.copyGranted {t' id} (h : Keeps σ s) : Keeps σ (copyGranted s t' id) := by
  unfold Machine.copyGranted
  split
  · exact h.copyMove
  · exact h

theorem Keeps.execRemoteRead {src addr len tag} (h : Keeps σ s) : Completes σ (execRemoteRead src addr len tag s) := by
  unfold Machine.execRemoteRead
  refine Completes.next ?_
  split
  · exact h
  · split
    · exact h.galSend
    · split
      next e8 => exact (h.busRead.of e8).galSend
      next e8 => exact (h.busRead.of e8).galSend

theorem Keeps.holdBack {t' w go} (h : Keeps σ s) (hgo : ∀ t, Keeps σ t → Keeps σ (go t)) : Keeps σ (holdBack s t' w go) := by
  unfold Machine.holdBack
  split
  · exact Keeps.ite h.updL1 (hgo _ h)
  · exact hgo _ h

theorem Keeps.remoteWrite {src addr add data tag} (h : Keeps σ s) : Keeps σ (remoteWrite s src addr add data tag) := by
  unfold Machine.remoteWrite
  split
  · exact h.galSend
  · exact (Keeps.ite₁ h.busAdd h.busWrite).galSend

theorem Keeps.execRemoteWrite {src addr data tag} (h : Keeps σ s) : Completes σ (execRemoteWrite src addr data tag s) :=
  Keeps.ite h (h.holdBack (fun _ h1 => h1.remoteWrite))

theorem Keeps.execRemoteStoreAcknowledgement {t' ok} (h : Keeps σ s) : Completes σ (execRemoteStoreAcknowledgement t' ok s) := by
  unfold Machine.execRemoteStoreAcknowledgement
  refine Completes.next ?_
  split
  · exact h
  · exact Keeps.ite h.updCore h.updCore.recordLate

theorem Keeps.loadArrives {t' res} (h : Keeps σ s) : Keeps σ (loadArrives s t' res) := by
  unfold Machine.loadArrives
  split
  · exact h
  · dsimp only
    split
    · exact Keeps.ite h.updCore.updCore h.updCore.setReg.addSteps.updCore
    · exact h.updCore.takeFault

theorem Keeps.getArrives {t' op off res} (h : Keeps σ s) : Keeps σ (getArrives s t' op off res) := by
  unfold Machine.getArrives
  split
  · exact h
  · split
    · dsimp only
      split
      · split
        · exact h
        · split
          next e13 => exact (h.agentWrite.of e13).updOp
          next e14 => exact (h.agentWrite.of e14).finishOp
      · exact h.finishOp
    · exact h

theorem Keeps.execRemoteReadResponse {t' op off res} (h : Keeps σ s) : Completes σ (execRemoteReadResponse t' op off res s) := by
  unfold Machine.execRemoteReadResponse
  refine Completes.next ?_
  split
  · exact h
  · split
    · exact h.loadArrives
    · exact h.holdBack (fun _ h1 => h1.getArrives)

theorem Keeps.setSlot {n x} (h : Keeps σ s) : Keeps σ (setSlot s n x) :=
  h.fields

theorem Keeps.clearSlot {a t' j} (h : Keeps σ s) : Keeps σ (clearSlot a t' j s).1 := by
  unfold Machine.clearSlot
  dsimp only
  split
  next e4 => exact h.agentWrite.of e4
  next e3 =>
    split
    · exact h.agentWrite.of e3
    · split
      · exact h.agentWrite.of e3
      · split
        next e9 => exact ((h.agentWrite.of e3).memWrite).of e9
        next e8 => exact ((h.agentWrite.of e3).memWrite).of e8

theorem Keeps.armSlot {bs a prog t' acc j} (h : Keeps σ acc.1) : Keeps σ (armSlot bs a prog t' acc j).1 := by
  unfold Machine.armSlot
  dsimp only
  split
  · exact h
  · split
    next e5 => exact h.clearSlot.of e5
    next e4 => exact (h.clearSlot.of e4).setSlot

theorem Keeps.armStart {t' e bs} (h : Keeps σ s) : Keeps σ (armStart s t' e bs) := by
  unfold Machine.armStart
  extract_lets a stop fetch
  have hf : Keeps σ fetch.1 := by
    refine Keeps.ite₁ h (Keeps.ite₁ h ?_)
    split
    next er => exact h.agentRead.of er
    next er => exact h.agentRead.of er
  clear_value fetch
  have hstop : ∀ {u c d}, Keeps σ u → Keeps σ (stop u c d) := fun hu => hu.writeEnd
  refine Keeps.ite (hstop h) (Keeps.ite (hstop h) ?_)
  split
  · exact hstop hf
  · split
    · exact hstop hf
    · split
      · exact hstop hf
      · exact hstop (Keeps.foldl₁ hf fun _ _ hu => hu.armSlot)

theorem Keeps.writeStatus {x w} (h : Keeps σ s) : Keeps σ (writeStatus s x w) :=
  h.agentWrite.madeBy

theorem Keeps.completeSlot {n} (h : Keeps σ s) : Keeps σ (completeSlot s n) := by
  unfold Machine.completeSlot
  refine Keeps.setSlot ?_
  refine Keeps.ringTile ?_
  split
  · refine Keeps.madeBy ?_
    refine Keeps.agentSignal ?_
    refine Keeps.writeStatus ?_
    split
    · exact h
    · split
      next e21 => exact (h.memRead.of e21).galFail
      next e21 => exact ((h.memRead.of e21).agentWrite).madeBy
  · refine Keeps.writeStatus ?_
    split
    · exact h
    · split
      next e15 => exact (h.memRead.of e15).galFail
      next e15 => exact ((h.memRead.of e15).agentWrite).madeBy

theorem Keeps.execSlotCompletion {slot} (h : Keeps σ s) : Completes σ (execSlotCompletion slot s) :=
  Keeps.ite h.completeSlot h

theorem Keeps.combineAt {a weight fmt xs err} (h : Keeps σ s) : Keeps σ (combineAt s a weight fmt xs err).1 := by
  unfold Machine.combineAt
  split
  next e4 => exact h.strikeLine.memRead.of e4
  next e4 =>
    split
    · exact h.strikeLine.memRead.of e4
    · split
      · exact (h.strikeLine.memRead.of e4).nearWrite
      · exact h.strikeLine.memRead.of e4

theorem Keeps.lookup {die e} (h : Keeps σ s) : Keeps σ (lookup s die e).1 := by
  unfold Machine.lookup
  dsimp only
  split
  · exact h
  · split
    next e6 => exact h.memRead.of e6
    next e6 => exact (h.memRead.of e6).fields

theorem Keeps.execGalDirinv {v} (h : Keeps σ s) : Completes σ (execGalDirinv v s) :=
  Keeps.ite h.fields h

theorem Keeps.execDirectoryInvalidationEnd (h : Keeps σ s) : Completes σ (execDirectoryInvalidationEnd s) := by
  unfold Machine.execDirectoryInvalidationEnd
  refine Completes.next ?_
  split
  · exact h
  · exact h.fields

theorem Keeps.grantSlots {t' i src req k} (h : Keeps σ s) : Keeps σ (grantSlots s t' i src req k) :=
  h.updInbox.galSend

theorem Keeps.serveWaiters {n t' i} (h : Keeps σ s) : Keeps σ (serveWaiters n s t' i) := by
  induction n generalizing s with
  | zero => exact h
  | succ n ih =>
    unfold Machine.serveWaiters
    dsimp only
    split
    · exact h
    · exact Keeps.ite h (ih h.updInbox.grantSlots)

theorem Keeps.serveInbox {t' i} (h : Keeps σ s) : Keeps σ (serveInbox s t' i) :=
  h.serveWaiters

theorem Keeps.execInboxReservation {t' i src req n hold rowBytes} (h : Keeps σ s) :
    Completes σ (execInboxReservation t' i src req n hold rowBytes s) :=
  Keeps.ite h (Keeps.ite h.galSend (Keeps.ite h.grantSlots.updInbox h.grantSlots))

theorem Keeps.ibcfgWrite {t' i v} (h : Keeps σ s) : Keeps σ (ibcfgWrite s t' i v) :=
  Keeps.ite h.updInbox.serveInbox (h.updInbox.foldl fun _ _ h1 => h1.galSend)

theorem Keeps.ibptrWrite {t' i v} (h : Keeps σ s) : Keeps σ (ibptrWrite s t' i v) :=
  Keeps.ite h.updInbox.serveInbox h

theorem Keeps.execGalIbcfg {t' i v} (h : Keeps σ s) : Completes σ (execGalIbcfg t' i v s) :=
  Keeps.ite h.ibcfgWrite h

theorem Keeps.execGalIbptr {t' i v} (h : Keeps σ s) : Completes σ (execGalIbptr t' i v s) :=
  Keeps.ite h.ibptrWrite h

theorem Keeps.slotFilled {t' i j} (h : Keeps σ s) : Keeps σ (slotFilled s t' i j) :=
  Keeps.ite h.updInbox h.updInbox.wakeCheck

theorem Keeps.scratchPut {t' off bs} (h : Keeps σ s) : Keeps σ (scratchPut s t' off bs) :=
  Keeps.ite h.scratchWrite h

theorem Keeps.tokenRow {t' i slot hdr row} (h : Keeps σ s) : Keeps σ (tokenRow s t' i slot hdr row) :=
  Keeps.ite h (Keeps.ite h.galSend h.scratchPut.scratchPut.slotFilled.galSend)

theorem Keeps.execTokenRow {t' i slot hdr row} (h : Keeps σ s) : Completes σ (execTokenRow t' i slot hdr row s) :=
  Keeps.ite h (h.holdBack (fun _ h1 => h1.tokenRow))

theorem Keeps.voidSlot {t' i slot} (h : Keeps σ s) : Keeps σ (voidSlot s t' i slot) := by
  unfold Machine.voidSlot
  dsimp only
  split
  · exact h
  · exact h.reach.scratchPut.slotFilled

theorem Keeps.execVoidSlot {t' i slot} (h : Keeps σ s) : Completes σ (execVoidSlot t' i slot s) :=
  Keeps.ite h (h.holdBack (fun _ h1 => h1.voidSlot))

theorem Keeps.gatherStart {t' e bs} (h : Keeps σ s) : Keeps σ (gatherStart s t' e bs) := by
  unfold Machine.gatherStart
  extract_lets ctl p0 skew nmax dst pitch hl i x stop bad
  have hstop : ∀ {u c d}, Keeps σ u → Keeps σ (stop u c d) := fun hu => hu.refuseOp
  refine Keeps.ite (hstop h) ?_
  split
  · exact hstop h.requestSound
  next rows upTo _ =>
    refine Keeps.ite (hstop h) ?_
    split
    · exact hstop h
    · split
      · exact hstop h
      · refine Keeps.ite (hstop h) ?_
        extract_lets src
        split
        · exact hstop h
        · split
          next ef =>
            refine hstop (Keeps.of (Keeps.foldl₁ h fun q y hq => Keeps.ite₁ hq ?_) ef)
            split
            next ew => exact hq.agentWrite.of ew
            next ew => exact Keeps.foldl (hq.agentWrite.of ew) fun _ _ hv => hv.scratchWrite
          next u ef =>
            have hu : Keeps σ u := by
              refine Keeps.of (Keeps.foldl₁ h fun q y hq => Keeps.ite₁ hq ?_) ef
              split
              next ew => exact hq.agentWrite.of ew
              next ew => exact Keeps.foldl (hq.agentWrite.of ew) fun _ _ hv => hv.scratchWrite
            exact hstop (Keeps.ite hu.updInbox.serveInbox hu)

theorem Keeps.returnStart {t' e} (h : Keeps σ s) : Keeps σ (returnStart s t' e) := by
  unfold Machine.returnStart
  split
  · exact h
  · dsimp only
    split
    next e7 => exact ((h.agentRead.of e7).updPort).galFail
    next e7 => exact Keeps.ite ((h.agentRead.of e7).updPort) (((h.agentRead.of e7).updPort).foldl fun _ _ h1 => h1.galSend)

theorem Keeps.sendDrain {t' b d fmt rows} (h : Keeps σ s) : Keeps σ (sendDrain s t' b d fmt rows) := by
  unfold Machine.sendDrain
  exact (Keeps.ite (h.foldl fun _ _ h1 => h1.galSend) h).updPort

theorem Keeps.setTrip {n x} (h : Keeps σ s) : Keeps σ (setTrip s n x) :=
  h.fields

theorem Keeps.reserveTrip {t' op d e} (h : Keeps σ s) : Keeps σ (reserveTrip s t' op d e).1 := by
  unfold Machine.reserveTrip
  dsimp only
  split
  · exact h.tick
  · exact h.tick.setTrip

theorem Keeps.dispCheck {t' op} (h : Keeps σ s) : Keeps σ (dispCheck s t' op) := by
  unfold Machine.dispCheck
  split
  · exact h
  · split
    · exact Keeps.ite h.finishOp h
    · exact h

theorem Keeps.slotDown {n code} (h : Keeps σ s) : Keeps σ (slotDown s n code) :=
  Keeps.ite h.setSlot h.setSlot.writeStatus

theorem Keeps.failTrip {id code expired} (h : Keeps σ s) : Keeps σ (failTrip s id code expired) :=
  Keeps.ite h (Keeps.ite h.setTrip.slotDown.updOp.dispCheck h.setTrip.slotDown)

theorem Keeps.sendReserve {t' op row gs} (h : Keeps σ s) : Keeps σ (sendReserve s t' op row gs) :=
  h.foldl fun _ _ h1 => Keeps.ite h1.galSend (h1.foldl fun _ _ h2 => h2.failTrip)

theorem Keeps.lookupTrips {ids alt} (h : Keeps σ s) : Keeps σ (lookupTrips s ids alt).1 := by
  unfold Machine.lookupTrips
  refine Keeps.foldl₁ h (fun u x h1 => ?_)
  dsimp only
  split
  next e4 => exact ((h1.lookup.of e4).galFail).failTrip
  next e5 => exact (h1.lookup.of e5).setTrip

theorem Keeps.dispSend {t' op d bs} (h : Keeps σ s) : Keeps σ (dispSend s t' op d bs) := by
  unfold Machine.dispSend
  refine Keeps.dispCheck ?_
  refine Keeps.foldl ?_ (fun _ _ h1 => Keeps.ite h1 (Keeps.completeSlot h1))
  refine Keeps.sendReserve ?_
  refine Keeps.updOp ?_
  refine Keeps.lookupTrips ?_
  refine Keeps.updOp ?_
  refine Keeps.foldl₁ (Keeps.foldl h fun _ _ h1 => Keeps.setSlot h1) (fun u x h1 => ?_)
  split
  next e4 => exact h1.reserveTrip.of e4
  next e3 => exact h1.reserveTrip.of e3

theorem Keeps.dispTry {t' o} (h : Keeps σ s) : Keeps σ (dispTry s t' o) := by
  unfold Machine.dispTry
  dsimp only
  split
  next e4 => exact (h.agentRead.of e4).finishOp
  next e4 =>
    split
    · exact (h.agentRead.of e4).finishOp
    · exact Keeps.ite ((h.agentRead.of e4).dispSend) (((h.agentRead.of e4).updOp).fields)

theorem Keeps.dispStart {t' e bs} (h : Keeps σ s) : Keeps σ (dispStart s t' e bs) := by
  unfold Machine.dispStart
  dsimp only
  split
  · exact h.refuseOp
  · split
    · exact h.refuseOp
    · split
      · exact h.refuseOp
      · split
        · exact h.openOp.dispTry
        · exact h.openOp

theorem Keeps.retryN {n} (h : Keeps σ s) : Keeps σ (retryN n s) := by
  induction n generalizing s with
  | zero => exact h
  | succ n ih =>
    unfold Machine.retryN
    split
    · exact h
    · dsimp only
      split
      · exact ih h.fields
      · exact Keeps.ite (ih h.fields) (Keeps.ite (ih (Keeps.dispSend h.fields)) h)

theorem Keeps.retryTrips (h : Keeps σ s) : Keeps σ (retryTrips s) :=
  h.retryN

theorem Keeps.sendRows {t' o dst rs} (h : Keeps σ s) : Keeps σ (sendRows s t' o dst rs) := by
  induction rs generalizing s with
  | nil => exact h
  | cons r rs ih =>
    unfold Machine.sendRows
    dsimp only
    split
    next e => exact ih (h.agentRead.of e).galFail.failTrip
    next e =>
      split
      · exact ih (h.agentRead.of e).failTrip
      · exact ih (h.agentRead.of e).setTrip.updOp.galSend

theorem Keeps.divert {t' o ids} (h : Keeps σ s) : Keeps σ (divert s t' o ids) :=
  (((h.foldl fun _ _ h1 => h1.setTrip).lookupTrips).updOp).sendReserve

theorem Keeps.execInboxGrant {t' op dst slots} (h : Keeps σ s) : Completes σ (execInboxGrant t' op dst slots s) := by
  unfold Machine.execInboxGrant
  refine Completes.next ?_
  split
  · exact h
  · split
    · exact h
    · exact Keeps.ite h (((Keeps.ite h.sendRows h.sendRows.divert).dispCheck).retryTrips)

theorem Keeps.execReservationRepeat {t' op dst} (h : Keeps σ s) : Completes σ (execReservationRepeat t' op dst s) := by
  unfold Machine.execReservationRepeat
  refine Completes.next ?_
  split
  · exact h
  · exact Keeps.ite h h.sendReserve

theorem Keeps.execHeaderAcknowledgement {trip} (h : Keeps σ s) : Completes σ (execHeaderAcknowledgement trip s) :=
  Keeps.ite h h.setTrip.updOp.dispCheck

theorem Keeps.execDispatchTimeout {t' op} (h : Keeps σ s) : Completes σ (execDispatchTimeout t' op s) := by
  unfold Machine.execDispatchTimeout
  refine Completes.next ?_
  split
  · exact h
  · split
    · exact Keeps.ite h (((h.reach.updOp.foldl fun _ _ h1 => h1.failTrip).dispCheck).retryTrips)
    · exact h

theorem Keeps.endTrip {id} (h : Keeps σ s) : Keeps σ (endTrip s id) :=
  h.setTrip.slotDown.retryTrips

theorem Keeps.execFragment {trip gen d fmt data err} (h : Keeps σ s) : Completes σ (execFragment trip gen d fmt data err s) := by
  unfold Machine.execFragment
  refine Completes.next ?_
  dsimp only
  split
  · exact h
  · split
    · exact h.fields
    · split
      next e9 => exact (((h.combineAt.of e9).galFail).failTrip).retryTrips
      next e8 => exact Keeps.ite (((h.combineAt.of e8).setTrip).endTrip) ((h.combineAt.of e8).setTrip)

theorem Keeps.execFailureNotice {trip code} (h : Keeps σ s) : Completes σ (execFailureNotice trip code s) :=
  Keeps.ite h h.failTrip.retryTrips

theorem Keeps.execTripTimeout {trip} (h : Keeps σ s) : Completes σ (execTripTimeout trip s) :=
  Keeps.ite h h.reach.failTrip

theorem Keeps.execTripIdReuse {trip} (h : Keeps σ s) : Completes σ (execTripIdReuse trip s) := by
  unfold Machine.execTripIdReuse
  refine Completes.next ?_
  dsimp only
  split
  · exact h
  · exact Keeps.ite h h.reach.setTrip.retryTrips

theorem Keeps.updGroup {g f} (h : Keeps σ s) : Keeps σ (State.updGroup s g f) :=
  h.fields

theorem Keeps.beaconOf {g num st cause src} (h : Keeps σ s) : Keeps σ (beaconOf s g num st cause src) :=
  h.foldl fun _ _ h1 => h1.galSend

theorem Keeps.sendBeacon {g st cause src} (h : Keeps σ s) : Keeps σ (sendBeacon s g st cause src) := by
  unfold Machine.sendBeacon
  split
  · exact h
  · exact h.beaconOf

theorem Keeps.sendFails (h : Keeps σ s) : Keeps σ (sendFails s) :=
  h.foldl fun _ _ h1 => Keeps.ite h1.sendBeacon h1

theorem Keeps.closeColl {g} (h : Keeps σ s) : Keeps σ (closeColl s g) :=
  h.updGroup.releaseGrant

theorem Keeps.updColl {g f} (h : Keeps σ s) : Keeps σ (updColl s g f) :=
  h.updGroup

theorem Keeps.failColl {g code detail} (h : Keeps σ s) : Keeps σ (failColl s g code detail) := by
  unfold Machine.failColl
  split
  · exact h
  · exact h.sendBeacon.closeColl.finishOp

theorem Keeps.ownBlock {c b} (h : Keeps σ s) : Keeps σ (ownBlock s c b).1 := by
  unfold Machine.ownBlock
  split
  next e4 => exact h.agentRead.of e4
  next e4 =>
    dsimp only
    split
    · exact (h.agentRead.of e4).failColl
    · exact h.agentRead.of e4

theorem Keeps.deliver {g c b bs} (h : Keeps σ s) : Keeps σ (deliver s g c b bs) := by
  unfold Machine.deliver
  split
  next e3 => exact h.agentWrite.of e3
  next e4 => exact (h.agentWrite.of e4).failColl

theorem Keeps.gotBlock {g b} (h : Keeps σ s) : Keeps σ (gotBlock s g b) :=
  h.updColl

theorem Keeps.sendColl {g r sh b bs} (h : Keeps σ s) : Keeps σ (sendColl s g r sh b bs) :=
  Keeps.ite h (Keeps.ite h.galSend h.failColl)

theorem Keeps.mismatch {g} (h : Keeps σ s) : Keeps σ (mismatch s g) := by
  unfold Machine.mismatch
  split
  · exact h
  · exact (h.foldl fun _ _ h1 => h1.galSend).failColl

theorem Keeps.collDown {g b v} (h : Keeps σ s) : Keeps σ (collDown s g b v) := by
  unfold Machine.collDown
  dsimp only
  split
  · exact h
  · split
    · exact ((h.foldl fun _ _ h1 => h1.sendColl).deliver).gotBlock
    · exact (h.foldl fun _ _ h1 => h1.sendColl).gotBlock
    · split
      · exact h.deliver.gotBlock
      · split
        · exact h.sendColl.gotBlock
        · exact h
    · exact h

theorem Keeps.collUp {g b} (h : Keeps σ s) : Keeps σ (collUp s g b) := by
  unfold Machine.collUp
  extract_lets x
  split
  · exact h
  next c _ =>
    refine Keeps.ite h ?_
    extract_lets own
    have ho : Keeps σ own.1 := by
      refine Keeps.ite₁ h ?_
      split
      next e => exact h.ownBlock.of e
      next e => exact h.ownBlock.of e
    clear_value own
    split
    · exact ho
    · exact Keeps.ite (Keeps.collDown (Keeps.updColl ho)) (Keeps.sendColl (Keeps.updColl ho))

theorem Keeps.collPass {g id from_ bs} (h : Keeps σ s) : Keeps σ (collPass s g id from_ bs) := by
  unfold Machine.collPass
  dsimp only
  split
  · exact h
  · split
    · exact ((h.foldl fun _ _ h1 => h1.sendColl).deliver).gotBlock
    · exact Keeps.ite h.deliver.gotBlock h.sendColl.gotBlock
    · exact h

theorem Keeps.collTake {g nbr parent sh b bs} (h : Keeps σ s) : Keeps σ (collTake s g nbr parent sh b bs) := by
  unfold Machine.collTake
  split
  · exact h
  · exact Keeps.ite h.mismatch (Keeps.ite (Keeps.ite h.collDown h.updColl.collUp) h.collPass)

theorem Keeps.collGo {g} (h : Keeps σ s) : Keeps σ (collGo s g) := by
  unfold Machine.collGo
  dsimp only
  split
  · exact h
  · refine Keeps.foldl ?_ (fun _ _ h1 => Keeps.collTake h1)
    refine Keeps.updGroup ?_
    split
    · dsimp only
      split
      next e9 => exact (h.ownBlock.of e9).collPass
      next e8 => exact h.ownBlock.of e8
    · refine Keeps.foldl h (fun u x h1 => ?_)
      split
      · exact h1
      · split
        next e12 => exact (h1.ownBlock.of e12).collPass
        next e11 => exact h1.ownBlock.of e11
    · exact h.foldl fun _ _ h1 => h1.collUp

theorem Keeps.collBegin {g t' op} (h : Keeps σ s) : Keeps σ (collBegin s g t' op) := by
  unfold Machine.collBegin
  split
  · exact h
  · dsimp only
    split
    · split
      · exact (Keeps.ite h.updGroup.requestGrant.sendBeacon h.updGroup.requestGrant).collGo
      · exact Keeps.ite h.updGroup.requestGrant.sendBeacon h.updGroup.requestGrant
    · exact Keeps.ite h.updGroup.requestGrant.sendBeacon h.updGroup.requestGrant

theorem Keeps.collRefused {g t' op code} (h : Keeps σ s) : Keeps σ (collRefused s g t' op code) :=
  h.beaconOf.updGroup.endOp

theorem Keeps.collSettle {n g} (h : Keeps σ s) : Keeps σ (collSettle n s g) := by
  induction n generalizing s with
  | zero => exact h
  | succ n ih =>
    unfold Machine.collSettle
    dsimp only
    split
    · exact Keeps.ite (ih h.closeColl.finishOp) h
    · split
      · exact h
      · exact ih (Keeps.ite h.updGroup.collBegin h.updGroup.collRefused)

theorem Keeps.settle {g} (h : Keeps σ s) : Keeps σ (settle s g) :=
  h.collSettle

theorem Keeps.collStart {t' e bs} (h : Keeps σ s) : Keeps σ (collStart s t' e bs) := by
  unfold Machine.collStart
  dsimp only
  split
  · exact h.refuseOp
  · exact h.openOp.updGroup.settle

theorem Keeps.collGranted {g} (h : Keeps σ s) : Keeps σ (collGranted s g) :=
  h.collGo.settle

theorem Keeps.execCollectiveData {g src shape block data} (h : Keeps σ s) :
    Completes σ (execCollectiveData g src shape block data s) := by
  unfold Machine.execCollectiveData
  refine Completes.next ?_
  dsimp only
  split
  · split
    · split
      · exact h
      · split
        · exact Keeps.ite (Keeps.ite h.collTake.settle h.updGroup) (Keeps.ite h.updGroup h)
        · exact Keeps.ite h.updGroup h
    · split
      · exact h
      · split
        · exact Keeps.ite (Keeps.ite h.collTake.settle h.updGroup) (Keeps.ite h.updGroup h)
        · exact Keeps.ite h.updGroup h
  · split
    · split
      · exact h
      · split
        · exact Keeps.ite (Keeps.ite h.collTake.settle h.updGroup) (Keeps.ite h.updGroup h)
        · exact Keeps.ite h.updGroup h
    · split
      · exact h
      · split
        · exact Keeps.ite (Keeps.ite h.collTake.settle h.updGroup) (Keeps.ite h.updGroup h)
        · exact Keeps.ite h.updGroup h

theorem Keeps.joinEnd {g code} (h : Keeps σ s) : Keeps σ (joinEnd s g code) := by
  unfold Machine.joinEnd
  split
  · exact h
  · exact (Keeps.ite h.updGroup h.updGroup).finishOp

theorem Keeps.joinStep {g up} (h : Keeps σ s) : Keeps σ (joinStep s g up) := by
  unfold Machine.joinStep
  dsimp only
  split
  · exact h
  · split
    · exact h.joinEnd
    · split
      · exact h
      · split
        · exact (h.foldl fun _ _ h1 => Keeps.ite h1 (Keeps.ite h1.galSend h1.joinEnd)).joinEnd
        · split
          · exact Keeps.ite (Keeps.ite h.galSend h.joinEnd) h
          · split
            · exact (Keeps.ite (Keeps.ite h.galSend h.joinEnd) h).joinEnd
            · refine Keeps.joinEnd (Keeps.foldl ?_ fun _ _ hu => Keeps.ite hu (Keeps.ite hu.galSend hu.joinEnd))
              exact Keeps.ite (Keeps.ite h.galSend h.joinEnd) h

theorem Keeps.joinStart {t' e bs} (h : Keeps σ s) : Keeps σ (joinStart s t' e bs) := by
  unfold Machine.joinStart
  dsimp only
  split
  · exact h.refuseOp
  · split
    · exact h.refuseOp
    · split
      · exact h.refuseOp
      · split
        · exact h.refuseOp
        · split
          · exact h.updGroup.refuseOp
          · split
            · exact h.refuseOp
            · split
              next e13 => exact (h.agentRead.of e13).refuseOp
              next e13 => exact Keeps.ite ((h.agentRead.of e13).refuseOp) ((((h.agentRead.of e13).openOp).updGroup).joinStep)

theorem Keeps.execJoinHash {g src hash} (h : Keeps σ s) : Completes σ (execJoinHash g src hash s) := by
  unfold Machine.execJoinHash
  refine Completes.next ?_
  split
  · exact h
  · split
    exact h.updGroup.joinStep

theorem Keeps.execBeaconPeriod (h : Keeps σ s) : Completes σ (execBeaconPeriod s) := by
  unfold Machine.execBeaconPeriod
  refine Completes.next ?_
  split
  · exact h
  · refine Keeps.foldl h (fun _ _ h1 => Keeps.ite (Keeps.sendBeacon h1) h1)

theorem Keeps.execBeacon {g num st cause src} (h : Keeps σ s) : Completes σ (execBeacon g num st cause src s) := by
  unfold Machine.execBeacon
  refine Completes.next ?_
  split
  · exact h
  · split
    · exact h
    · exact Keeps.ite h.updGroup.updColl (Keeps.ite h.updGroup.sendBeacon.closeColl.finishOp.settle h.updGroup)

theorem Keeps.execCollectiveTimeout {g} (h : Keeps σ s) : Completes σ (execCollectiveTimeout g s) := by
  unfold Machine.execCollectiveTimeout
  refine Completes.next ?_
  split
  · exact h
  · exact Keeps.ite h h.reach.failColl.settle

theorem Keeps.beaconStart {e} (h : Keeps σ s) : Keeps σ (beaconStart s e) :=
  Keeps.ite h (Keeps.ite h.updGroup.sendBeacon h.updGroup)

theorem Keeps.cp1Issue {t' i f func ref shape state} (h : Keeps σ s) : Keeps σ (cp1Issue t' i f func ref shape state s) := by
  unfold Machine.cp1Issue
  split
  · exact h.waitStall
  · refine Keeps.issue h (fun u h1 => ?_)
    split
    · exact h1.updPort.done
    · trivial

theorem Keeps.blockIssue {t' i f} (h : Keeps σ s) : Completes σ (blockIssue t' i f s) :=
  h.cp1Issue

theorem Keeps.execGput {t' f} (h : Keeps σ s) : Completes σ (execGput t' f s) :=
  h.blockIssue

theorem Keeps.execGget {t' f} (h : Keeps σ s) : Completes σ (execGget t' f s) :=
  h.blockIssue

theorem Keeps.execGdispatch {t' f} (h : Keeps σ s) : Completes σ (execGdispatch t' f s) :=
  h.blockIssue

theorem Keeps.execGarm {t' f} (h : Keeps σ s) : Completes σ (execGarm t' f s) :=
  h.blockIssue

theorem Keeps.execGibgat {t' f} (h : Keeps σ s) : Completes σ (execGibgat t' f s) :=
  h.blockIssue

theorem Keeps.execGallreduce {t' f} (h : Keeps σ s) : Completes σ (execGallreduce t' f s) :=
  h.blockIssue

theorem Keeps.execGreducescatter {t' f} (h : Keeps σ s) : Completes σ (execGreducescatter t' f s) :=
  h.blockIssue

theorem Keeps.execGallgather {t' f} (h : Keeps σ s) : Completes σ (execGallgather t' f s) :=
  h.blockIssue

theorem Keeps.execGalltoall {t' f} (h : Keeps σ s) : Completes σ (execGalltoall t' f s) :=
  h.blockIssue

theorem Keeps.execGbarrier {t' f} (h : Keeps σ s) : Completes σ (execGbarrier t' f s) :=
  h.blockIssue

theorem Keeps.execGjoin {t' f} (h : Keeps σ s) : Completes σ (execGjoin t' f s) :=
  h.blockIssue

theorem Keeps.execGreturn {t' f} (h : Keeps σ s) : Completes σ (execGreturn t' f s) :=
  h.cp1Issue

theorem Keeps.execGbeacon {t' f} (h : Keeps σ s) : Completes σ (execGbeacon t' f s) :=
  h.cp1Issue

theorem Keeps.execGsync {t' f} (h : Keeps σ s) : Completes σ (execGsync t' f s) :=
  h.cp1Issue

theorem Keeps.opStart {t' e} (h : Keeps σ s) : Keeps σ (opStart s t' e) := by
  unfold Machine.opStart
  split
  next e4 => exact (h.agentRead.of e4).galFail
  next e4 =>
    split
    · exact (h.agentRead.of e4).copyStart
    · exact (h.agentRead.of e4).copyStart
    · exact (h.agentRead.of e4).dispStart
    · exact (h.agentRead.of e4).armStart
    · exact (h.agentRead.of e4).gatherStart
    · exact (h.agentRead.of e4).joinStart
    · exact (h.agentRead.of e4).collStart

theorem Keeps.cp1Start {t'} (h : Keeps σ s) : Keeps σ (cp1Start s t') := by
  unfold Machine.cp1Start
  split
  · exact h
  · dsimp only
    split
    · exact h.drainAll
    · split
      · exact Keeps.ite h.drainAll.updPort.setReg h.drainAll
      · exact h.drainAll.updPort.returnStart
      · exact h.drainAll.updPort.beaconStart
      · exact Keeps.ite h.drainAll h.drainAll.updPort.opStart

theorem Keeps.execCp1Start {t'} (h : Keeps σ s) : Completes σ (execCp1Start t' s) :=
  Keeps.ite h.cp1Start h

theorem Keeps.opEnd {t' o res} (h : Keeps σ s) : Keeps σ (opEnd s t' o res) := by
  unfold Machine.opEnd
  dsimp only
  split
  · exact Keeps.ite h.finishOp h
  · exact h.finishOp
  · exact Keeps.ite h.finishOp h
  · exact h.finishOp
  · exact h
  · exact h.joinEnd
  · split
    · exact Keeps.ite h.failColl.settle h
    · exact h
  · exact h

theorem Keeps.execOperationEnd {t' op res} (h : Keeps σ s) : Completes σ (execOperationEnd t' op res s) := by
  unfold Machine.execOperationEnd
  refine Completes.next ?_
  split
  · exact h
  · exact Keeps.ite h.opEnd h

theorem Keeps.execGalleryOperationTimeout {t' op} (h : Keeps σ s) : Completes σ (execGalleryOperationTimeout t' op s) := by
  unfold Machine.execGalleryOperationTimeout
  refine Completes.next ?_
  split
  · exact h
  · split
    · exact h
    · dsimp only
      split
      · exact h.reach.tick.finishOp
      · exact h.reach.finishOp
      · exact h.reach.joinEnd
      · exact h.reach

theorem Keeps.portReset {t'} (h : Keeps σ s) : Keeps σ (portReset s t') :=
  h.updPort

theorem Keeps.grantTaken {x1} (h : Keeps σ s) : Keeps σ (grantTaken s x1) := by
  unfold Machine.grantTaken
  split
  · exact h.copyGranted
  · exact h.collGranted
  · exact h

theorem Keeps.extendDigest {n d} (h : Keeps σ s) : Keeps σ (extendDigest s n d) :=
  h.frame rfl

theorem Keeps.extendMr {n x} (h : Keeps σ s) : Keeps σ (extendMr s n x) :=
  h.extendDigest

theorem Keeps.journal {src x kind unit loc repl aux} (h : Keeps σ s) : Keeps σ (journal s src x kind unit loc repl aux) :=
  Keeps.ite h.extendMr.logEntry.fields h.extendMr.fields

theorem Keeps.repaired {src spare x kind unit loc repl aux} (h : Keeps σ s) :
    Keeps σ (repaired s src spare x kind unit loc repl aux) :=
  h.journal.logEntry

theorem Keeps.lostStruct {src x kind unit loc aux} (h : Keeps σ s) : Keeps σ (lostStruct s src x kind unit loc aux) :=
  h.journal.logEntry.fields

theorem Keeps.execJournalDeviceWriteEnd (h : Keeps σ s) : Completes σ (execJournalDeviceWriteEnd s) := by
  unfold Machine.execJournalDeviceWriteEnd
  refine Completes.next ?_
  split
  · exact h
  · dsimp only
    split
    · exact h
    · exact h.fields
    · exact h.fields

theorem Keeps.holdAll {r} (h : Keeps σ s) : Keeps σ (holdAll s r) :=
  h.tick.fields

theorem Keeps.dropAll {r} (h : Keeps σ s) : Keeps σ (dropAll s r) :=
  h.fields

theorem Keeps.failMsg {x1} (h : Keeps σ s) : Keeps σ (failMsg s x1) := by
  unfold Machine.failMsg
  split
  · exact h.updCore.recordLate
  · exact h.loadArrives
  · exact h.tick.finishOp
  · split
    · exact h.finishOp
    · exact h
  · split
    · split
      · exact (h.foldl fun _ _ h1 => h1.failTrip).retryTrips
      · exact h
    · exact h
  · exact h.failTrip.retryTrips
  · exact h.failColl
  · exact h.joinEnd
  · exact h

theorem Keeps.setPort {p st check} (h : Keeps σ s) : Keeps σ (setPort s p st check) :=
  Keeps.ite h h.logEntry.updLink

theorem Keeps.closeGroup {p} (h : Keeps σ s) : Keeps σ (closeGroup s p) :=
  Keeps.ite h h.updLink

theorem Keeps.leaveBuffer {inp cls} (h : Keeps σ s) : Keeps σ (leaveBuffer s inp cls) :=
  Keeps.ite h h.updLink

theorem Keeps.sendData {p i turn} (h : Keeps σ s) : Keeps σ (sendData s p i turn) := by
  unfold Machine.sendData
  split
  · exact h
  · exact h.updLink.leaveBuffer

theorem Keeps.pumpN {n p} (h : Keeps σ s) : Keeps σ (pumpN n s p) := by
  induction n generalizing s with
  | zero => exact h
  | succ n ih =>
    have hg : Keeps σ (if (s.link p).txGroup.length = 64 then Machine.closeGroup s p else s) := Keeps.ite h.closeGroup h
    unfold Machine.pumpN
    revert hg
    dsimp only
    generalize (if (s.link p).txGroup.length = 64 then Machine.closeGroup s p else s) = u
    intro hg
    split
    · exact hg
    · split
      · exact hg.closeGroup
      · exact ih hg.sendData

theorem Keeps.pump {p} (h : Keeps σ s) : Keeps σ (pump s p) :=
  h.pumpN

theorem Keeps.pumpAll (h : Keeps σ s) : Keeps σ (pumpAll s) :=
  h.foldl fun _ _ h1 => h1.pump

theorem Keeps.failPacket {pkt own} (h : Keeps σ s) : Keeps σ (failPacket s pkt own) := by
  unfold Machine.failPacket
  split
  · exact h.failMsg
  · exact h.galSend

theorem Keeps.unreach {f} (h : Keeps σ s) : Keeps σ (unreach s f) :=
  h.failPacket

theorem Keeps.forward {inp f} (h : Keeps σ s) : Keeps σ (forward s inp f) := by
  unfold Machine.forward
  dsimp only
  split
  · split
    · exact h.updLink.leaveBuffer
    · exact h.updLink.updLink
    · exact (Keeps.ite h.updLink.leaveBuffer.fields h.updLink.leaveBuffer).unreach
  · split
    · exact h.updLink
    · exact h.leaveBuffer

theorem Keeps.startRetrain {p} (h : Keeps σ s) : Keeps σ (startRetrain s p) :=
  Keeps.ite h.setPort.updLink.holdAll h

theorem Keeps.startReplay {p} (h : Keeps σ s) : Keeps σ (startReplay s p) := by
  unfold Machine.startReplay
  exact (Keeps.ite h.setPort.updLink.holdAll (Keeps.ite h.updLink h)).updLink

theorem Keeps.failPort {p check} (h : Keeps σ s) : Keeps σ (failPort s p check) :=
  ((((h.setPort.foldl fun _ _ h1 => h1.leaveBuffer).foldl fun _ _ h1 => h1.updLink).updLink).foldl fun _ _ h1 => h1.failPacket).dropAll

theorem Keeps.sendKey {p bs} (h : Keeps σ s) : Keeps σ (sendKey s p bs) :=
  h.updLink

theorem Keeps.startKey {p} (h : Keeps σ s) : Keeps σ (startKey s p) :=
  h.tick.setPort.updLink.sendKey

theorem Keeps.sendSignature {p} (h : Keeps σ s) : Keeps σ (sendSignature s p) :=
  h.sendKey

theorem Keeps.linkUp {p ss} (h : Keeps σ s) : Keeps σ (linkUp s p ss) :=
  h.setPort.updLink.pump

theorem Keeps.execKeyExchange {p m} (h : Keeps σ s) : Completes σ (execKeyExchange p m s) := by
  unfold Machine.execKeyExchange
  refine Completes.next ?_
  dsimp only
  split
  · exact h
  · split
    · exact Keeps.ite h (Keeps.ite h.updLink.updLink.tick.updLink.sendKey h.updLink.updLink)
    · exact Keeps.ite h.updLink.tick.updLink.sendKey.sendSignature h
    · exact Keeps.ite h.updLink.updLink.sendSignature h
    · split
      · exact h
      · split
        · exact h.linkUp
        · exact h.failPort

theorem Keeps.takeAck {p h'} (h : Keeps σ s) : Keeps σ (takeAck s p h') :=
  Keeps.ite h.updLink.setPort.dropAll h.updLink

theorem Keeps.takeNak {p} (h : Keeps σ s) : Keeps σ (takeNak s p) :=
  Keeps.ite h.updLink (Keeps.ite h.updLink.startRetrain h.updLink.startReplay)

theorem Keeps.takeFec {p fec} (h : Keeps σ s) : Keeps σ (takeFec s p fec) :=
  h.updLink

theorem Keeps.arrive {p f} (h : Keeps σ s) : Keeps σ (arrive s p f).1 := by
  unfold Machine.arrive
  dsimp only
  split
  · exact h.takeFec.startRetrain
  · split
    · exact Keeps.pair h.takeFec.updLink
    · exact Keeps.ite₁ h.takeFec.updLink (Keeps.ite h.takeFec.takeAck.takeNak h.takeFec.takeAck)

theorem Keeps.execFlit {p hdr payload chk} (h : Keeps σ s) : Completes σ (execFlit p hdr payload chk s) := by
  unfold Machine.execFlit
  refine Completes.next ?_
  dsimp only
  split
  · exact h
  · split
    next e7 => exact h.arrive.of e7
    next e8 => exact (Keeps.ite (h.arrive.of e8) ((h.arrive.of e8).updLink)).pump

theorem Keeps.sealOk {p} (h : Keeps σ s) : Keeps σ (sealOk s p) :=
  (h.updLink.foldl fun _ _ h1 => h1.forward).pumpAll

theorem Keeps.sealBad {p} (h : Keeps σ s) : Keeps σ (sealBad s p) :=
  Keeps.ite h.updLink.updLink.startRetrain h.updLink.updLink

theorem Keeps.execSeal {p f} (h : Keeps σ s) : Completes σ (execSeal p f s) := by
  unfold Machine.execSeal
  refine Completes.next ?_
  dsimp only
  split
  · exact h
  · split
    next e7 => exact h.arrive.of e7
    next e8 => exact Keeps.ite ((h.arrive.of e8).updLink) (Keeps.ite ((h.arrive.of e8).sealOk) ((h.arrive.of e8).sealBad))

theorem Keeps.execSealGroupClose {p} (h : Keeps σ s) : Completes σ (execSealGroupClose p s) :=
  Keeps.ite h.closeGroup.pump h

theorem Keeps.execAckTimer {p} (h : Keeps σ s) : Completes σ (execAckTimer p s) :=
  Keeps.ite h.updLink h

theorem Keeps.execReplay {p} (h : Keeps σ s) : Completes σ (execReplay p s) :=
  Keeps.ite h (Keeps.ite h.startRetrain h.startReplay)

theorem Keeps.execLossOfSignal {p lane} (h : Keeps σ s) : Completes σ (execLossOfSignal p lane s) :=
  Keeps.ite h.startRetrain h

theorem Keeps.execRetrain {p} (h : Keeps σ s) : Completes σ (execRetrain p s) :=
  Keeps.ite h.startRetrain h

theorem Keeps.useSpare {p failed spareGood} (h : Keeps σ s) : Keeps σ (useSpare s p failed spareGood).1 := by
  unfold Machine.useSpare
  dsimp only
  split
  · exact h
  · exact Keeps.ite₁ h.updOctet.repaired h

theorem Keeps.markLanes {p w failed} (h : Keeps σ s) : Keeps σ (markLanes s p w failed) :=
  h.updOctet.foldl fun _ _ h1 => h1.lostStruct

theorem Keeps.restartLink {p} (h : Keeps σ s) : Keeps σ (restartLink s p) :=
  h.setPort.updLink.pump.dropAll

theorem Keeps.execRetrainEnd {p good spareGood} (h : Keeps σ s) : Completes σ (execRetrainEnd p good spareGood s) := by
  unfold Machine.execRetrainEnd
  refine Completes.next ?_
  dsimp only
  split
  · exact h
  · split
    · exact h.failPort
    · split
      · exact h.useSpare.updLink.failPort
      · split
        · exact h.useSpare.updLink.markLanes.updLink.restartLink
        · exact h.useSpare.updLink.markLanes.updLink.startKey.dropAll

theorem Keeps.execFailedPortRetry {p} (h : Keeps σ s) : Completes σ (execFailedPortRetry p s) :=
  Keeps.ite h.setPort h

theorem Keeps.rerouteQueue {q} (h : Keeps σ s) : Keeps σ (rerouteQueue s q) := by
  unfold Machine.rerouteQueue
  refine Keeps.foldl₁ h (fun u x h1 => ?_)
  dsimp only
  split
  · split
    · exact Keeps.pair h1.updLink.updLink
    · exact h1.updLink.leaveBuffer
    · exact h1.updLink.leaveBuffer.unreach
  · split
    · exact Keeps.pair h1.updLink
    · exact h1.leaveBuffer

theorem Keeps.execRouteTableRebuild (h : Keeps σ s) : Completes σ (execRouteTableRebuild s) :=
  Keeps.ite h ((h.fields.foldl fun _ _ h1 => h1.updLink.rerouteQueue).pumpAll)

theorem Keeps.failBeacons {cause} (h : Keeps σ s) : Keeps σ (failBeacons s cause) := by
  unfold Machine.failBeacons
  refine Keeps.foldl h (fun _ _ h1 => Keeps.ite (Keeps.sendBeacon h1) h1)

theorem Keeps.goFatal {cause} (h : Keeps σ s) : Keeps σ (goFatal s cause) :=
  Keeps.fields (Keeps.failBeacons (Keeps.frame (Keeps.logEntry h) rfl))

theorem Keeps.execFatal {cause} (h : Keeps σ s) : Completes σ (execFatal cause s) :=
  Keeps.ite h.goFatal h

theorem Keeps.jumpTo {a} (h : Keeps σ s) : KeepsEff σ (jumpTo s a) :=
  h

theorem Keeps.execBcc {c f} (h : Keeps σ s) : Completes σ (execBcc c f s) := by
  unfold Machine.execBcc
  refine Completes.next ?_
  refine Keeps.issue h (fun u h1 => ?_)
  split
  · exact h1.jumpTo
  · exact h1.done

theorem Keeps.execBr {c imm} (h : Keeps σ s) : Completes σ (execBr c imm s) :=
  h.issue (fun _ h1 => h1.jumpTo)

theorem Keeps.execJal {c imm} (h : Keeps σ s) : Completes σ (execJal c imm s) :=
  h.issue (fun _ h1 => h1.setReg.jumpTo)

theorem Keeps.execJalr {c f} (h : Keeps σ s) : Completes σ (execJalr c f s) := by
  unfold Machine.execJalr
  refine Completes.next ?_
  split <;> exact h.issue (fun _ h1 => h1.setReg.jumpTo)

theorem Keeps.execJr {c rs} (h : Keeps σ s) : Completes σ (execJr c rs s) :=
  h.issue (fun _ h1 => h1.jumpTo)

theorem Keeps.execRet {c rs} (h : Keeps σ s) : Completes σ (execRet c rs s) :=
  h.issue (fun _ h1 => h1.jumpTo)

theorem Keeps.execNop {c rs} (h : Keeps σ s) : Completes σ (execNop c rs s) :=
  h.issue (fun _ h1 => h1.done)

theorem Keeps.lengthAt {c a} (h : Keeps σ s) : Keeps σ (lengthAt s c a).1 := by
  unfold Machine.lengthAt
  split
  · exact h
  · split
    next e7 => exact h.icLine.of e7
    next e7 => exact h.icLine.of e7

theorem Keeps.execZloop {c lp rs off} (h : Keeps σ s) : Completes σ (execZloop c lp rs off s) := by
  unfold Machine.execZloop
  refine Completes.next ?_
  refine Keeps.issue h (fun u h1 => ?_)
  dsimp only
  split
  · exact h1.updCore.lengthAt.jumpTo
  · exact h1.updCore.done

theorem Keeps.execIfl {c f} (h : Keeps σ s) : Completes σ (execIfl c f s) := by
  unfold Machine.execIfl
  refine Completes.next ?_
  split
  · exact h.issue (fun _ h1 => h1.drainAll.iflAll.doneOcc)
  · exact h.issue (fun _ h1 => h1.drainAll.iflRange.doneOcc)

theorem KeepsEff.needKernel {s c e} (h : KeepsEff σ e) : KeepsEff σ (needKernel s c e) := by
  unfold Machine.needKernel
  split
  · exact h
  · trivial

theorem Keeps.mtsrRun {c n rs f} (h : Keeps σ s) : Keeps σ (mtsrRun c n rs f s) := by
  unfold Machine.mtsrRun
  refine Keeps.issue h (fun u h1 => ?_)
  split
  · trivial
  · split
    next e5 => exact (h1.srWrite.of e5).doneOcc
    · trivial

theorem Keeps.execMfsr {c rd sr f} (h : Keeps σ s) : Completes σ (execMfsr c rd sr f s) := by
  unfold Machine.execMfsr
  refine Completes.next ?_
  refine Keeps.issue h (fun u h1 => ?_)
  split
  · trivial
  · exact h1.setReg.done

theorem Keeps.execMtsr {c sr rs f} (h : Keeps σ s) : Completes σ (execMtsr c sr rs f s) :=
  h.mtsrRun

theorem Keeps.execTileT0arm {c rs} (h : Keeps σ s) : Completes σ (execTileT0arm c rs s) :=
  h.mtsrRun

theorem Keeps.execTileT0can {c rs} (h : Keeps σ s) : Completes σ (execTileT0can c rs s) :=
  h.mtsrRun

theorem Keeps.execTileProf {c rs} (h : Keeps σ s) : Completes σ (execTileProf c rs s) :=
  h.mtsrRun

theorem Keeps.execTileT1ctl {c rs} (h : Keeps σ s) : Completes σ (execTileT1ctl c rs s) :=
  h.mtsrRun

theorem Keeps.execTileLsecnt {c rs} (h : Keeps σ s) : Completes σ (execTileLsecnt c rs s) :=
  h.mtsrRun

theorem Keeps.execMset {c f} (h : Keeps σ s) : Completes σ (execMset c f s) :=
  Completes.next <| h.issue fun _ hu => KeepsEff.ite trivial (KeepsEff.needKernel hu.updCore.setReg.doneOcc)

theorem Keeps.execTrap {c f} (h : Keeps σ s) : Completes σ (execTrap c f s) :=
  h.issue (fun _ h1 => h1)

theorem Keeps.eretRead {c} (h : Keeps σ s) : Keeps σ (eretRead s c).1 := by
  unfold Machine.eretRead
  split
  · exact h
  · exact h
  · split
    next e7 => exact h.coreLoad.of e7
    next e7 => exact h.coreLoad.of e7

theorem Keeps.eretState {c bs} (h : Keeps σ s) : Keeps σ (eretState s c bs) := by
  unfold Machine.eretState
  dsimp only
  split
  · exact h.updCore.updVec
  · exact h.updCore

theorem Keeps.eretFail {c} (h : Keeps σ s) : Keeps σ (eretFail s c) :=
  Keeps.ite h.updCore.haltReport h.enterBackstop

theorem Keeps.execEret {c f} (h : Keeps σ s) : Completes σ (execEret c f s) := by
  unfold Machine.execEret
  refine Completes.next ?_
  refine Keeps.issue h (fun u4 h4 => ?_)
  refine KeepsEff.needKernel ?_
  split
  next e13 => exact (h4.eretRead.of e13).eretState
  next e13 =>
    split
    · exact h4.eretFail
    · exact (h4.eretRead.of e13).memFault

theorem Keeps.execHalt {c f} (h : Keeps σ s) : Completes σ (execHalt c f s) :=
  h.issue (fun _ k1 => k1.updCore.haltReport.done.needKernel)

theorem Keeps.discardVec {t'} (h : Keeps σ s) : Keeps σ (discardVec s t').1 := by
  unfold Machine.discardVec
  split
  · exact h
  · exact Keeps.pair h.updVec.updCore

theorem Keeps.execInterrupt {c} (h : Keeps σ s) : Completes σ (execInterrupt c s) := by
  unfold Machine.execInterrupt
  refine Completes.next ?_
  split
  · exact h
  · split
    · exact h
    · split
      · exact Keeps.ite h.unpark.completeRun h.unpark.completeRun.discardVec.takeInterrupt
      · exact h.updCore.takeInterrupt

theorem Keeps.mirrorWrite {t' n v} (h : Keeps σ s) : Keeps σ (mirrorWrite s t' n v) := by
  unfold Machine.mirrorWrite
  dsimp only
  split
  · split
    · split
      next e6 => exact h.srWrite.of e6
      · exact h
    · exact h
  · split
    · split
      next e6 => exact h.srWrite.of e6
      · exact h
    · exact h
  · split
    · split
      next e6 => exact h.srWrite.of e6
      · exact h
    · exact h
  · split
    · split
      next e8 => exact h.srWrite.of e8
      · exact h
    · exact h

theorem Keeps.execSystemRegisterMirrorWrite {t' sr v} (h : Keeps σ s) : Completes σ (execSystemRegisterMirrorWrite t' sr v s) :=
  Keeps.ite h.mirrorWrite h

theorem Keeps.execProf {c} (h : Keeps σ s) : Completes σ (execProf c s) :=
  Keeps.ite (Keeps.ite h.setCore h.setCore) h

theorem Keeps.execWdog {c} (h : Keeps σ s) : Completes σ (execWdog c s) :=
  Keeps.ite (Keeps.ite h.reach.setCore.haltWith h.reach.setCore) h

theorem Keeps.execPaceWindow {counts} (h : Keeps σ s) : Completes σ (execPaceWindow counts s) :=
  Keeps.ite ((h.foldl fun _ _ h1 => h1.updTile).fields) h

theorem Keeps.tcorr {t'} (h : Keeps σ s) : Keeps σ (tcorr s t') :=
  h.updTile

theorem Keeps.tileOn {t' r} (h : Keeps σ s) (hr : Keeps σ r) : Keeps σ (tileOn s t' r) := Keeps.ite hr h

theorem Keeps.execTilePaceClr {t' v} (h : Keeps σ s) : Completes σ (execTilePaceClr t' v s) :=
  h.tileOn h.updTile

theorem Keeps.execTileTcorrCtl {t' x1} (h : Keeps σ s) : Completes σ (execTileTcorrCtl t' x1 s) :=
  h.tileOn h.tcorr

theorem Keeps.execLineFill {t' mr err} (h : Keeps σ s) : Completes σ (execLineFill t' mr err s) := by
  unfold Machine.execLineFill
  refine Completes.next ?_
  split
  · exact h
  · exact Keeps.ite h h.updL1.strikeLine.fillReturn

theorem Keeps.prefetchRun {t' st} (h : Keeps σ s) : Keeps σ (prefetchRun s t' st) := by
  unfold Machine.prefetchRun
  dsimp only
  split
  · exact h
  · split
    · exact h
    · split
      · exact h.updL1
      · split
        · exact h.updL1
        · exact h.updL1.updL1

theorem Keeps.execPrefetch {t' st} (h : Keeps σ s) : Completes σ (execPrefetch t' st s) :=
  Keeps.ite h.prefetchRun h

theorem Keeps.l1cfgWrite {t' v} (h : Keeps σ s) : Keeps σ (l1cfgWrite s t' v) :=
  Keeps.ite h (Keeps.ite h.updL1 h.updL1)

theorem Keeps.execTileL1cfg {t' v task} (h : Keeps σ s) : Completes σ (execTileL1cfg t' v task s) :=
  Keeps.ite h (h.tileOn h.l1cfgWrite)

theorem Keeps.growScratch {t' n} (h : Keeps σ s) : Keeps σ (growScratch s t' n) := by
  unfold Machine.growScratch
  exact (h.foldl fun _ _ h1 => h1.victimWrite).updL1

theorem Keeps.shrinkScratch {t' n} (h : Keeps σ s) : Keeps σ (shrinkScratch s t' n) :=
  h.updL1

theorem Keeps.releaseHeld {t' x2} (h : Keeps σ s) : Keeps σ (releaseHeld t' s x2) := by
  unfold Machine.releaseHeld
  split
  · exact h.tokenRow
  · exact h.voidSlot
  · exact h.remoteWrite
  · exact h.getArrives

theorem Keeps.splitChange {t' n} (h : Keeps σ s) : Keeps σ (splitChange s t' n) :=
  ((Keeps.ite h.performHanded.growScratch h.performHanded.shrinkScratch).updL1).foldl fun _ _ h1 => h1.releaseHeld

theorem Keeps.execWaySplitChange {t'} (h : Keeps σ s) : Completes σ (execWaySplitChange t' s) := by
  unfold Machine.execWaySplitChange
  refine Completes.next ?_
  split
  · exact h
  · exact Keeps.ite h.splitChange h

theorem Keeps.fenceRun {c f} (h : Keeps σ s) : Keeps σ (fenceRun c f s) := by
  unfold Machine.fenceRun
  refine Keeps.issue h (fun u h1 => ?_)
  dsimp only
  split
  · exact h1.drainWait.doneOcc
  · exact h1.drainWait.waitAt

theorem Keeps.execFence {c f} (h : Keeps σ s) : Completes σ (execFence c f s) :=
  h.fenceRun

theorem Keeps.execFenceW {c f} (h : Keeps σ s) : Completes σ (execFenceW c f s) :=
  h.fenceRun

theorem Keeps.execDcz {c f} (h : Keeps σ s) : Completes σ (execDcz c f s) := by
  unfold Machine.execDcz
  refine Completes.next ?_
  refine Keeps.issue h (fun u h1 => ?_)
  dsimp only
  split
  · trivial
  · split
    · trivial
    · exact h1.bufferStall.bufferWrite.done

theorem Keeps.dcRange {inval c f} (h : Keeps σ s) : Keeps σ (dcRange inval c f s) := by
  refine h.issue fun u hu => KeepsEff.ite trivial ?_
  split
  · trivial
  · refine KeepsEff.ite trivial (Keeps.doneOcc (Keeps.foldl (Keeps.ite hu.drainWait.addStall hu.drainWait) fun v x hv => ?_))
    split
    · dsimp only
      split
      · exact Keeps.ite hv.l1Flush hv.l1WriteBack
      · exact Keeps.ite hv.dcDrop hv
    · exact hv

theorem Keeps.execDcwb {c f} (h : Keeps σ s) : Completes σ (execDcwb c f s) :=
  h.dcRange

theorem Keeps.execDcinv {c f} (h : Keeps σ s) : Completes σ (execDcinv c f s) :=
  h.dcRange

theorem Keeps.amoRun {op c n sext f} (h : Keeps σ s) : Keeps σ (amoRun op c n sext f s) := by
  unfold Machine.amoRun
  refine Keeps.issue h (fun u h1 => ?_)
  dsimp only
  split
  · trivial
  · split
    · trivial
    · split
      · trivial
      · split
        · trivial
        · split
          · exact h1.bufferStall.bufferWrite.done
          · split
            next e12 => exact (h1.drainWait.amoAt.of e12).memFault
            next e12 => exact (((h1.drainWait.amoAt.of e12).setReg).loadOwe).done

theorem Keeps.execAmoadd {c d f} (h : Keeps σ s) : Completes σ (execAmoadd c d f s) :=
  h.amoRun

theorem Keeps.execAmoswap {c d f} (h : Keeps σ s) : Completes σ (execAmoswap c d f s) :=
  h.amoRun

theorem Keeps.execAmocas {c d f} (h : Keeps σ s) : Completes σ (execAmocas c d f s) :=
  h.amoRun

theorem Keeps.execAmomin {c d f} (h : Keeps σ s) : Completes σ (execAmomin c d f s) :=
  h.amoRun

theorem Keeps.execAmomax {c d f} (h : Keeps σ s) : Completes σ (execAmomax c d f s) :=
  h.amoRun

theorem Keeps.execAmofaddF32 {c f} (h : Keeps σ s) : Completes σ (execAmofaddF32 c f s) :=
  h.amoRun

theorem Keeps.execMergingBufferDrain {n} (h : Keeps σ s) : Completes σ (execMergingBufferDrain n s) :=
  Keeps.ite h.drainOne h

theorem Keeps.runUnit {t' task d i fail} (h : Keeps σ s) : Keeps σ (runUnit s t' task d i fail).1 := by
  unfold Machine.runUnit
  extract_lets indexed e
  split
  next u ix eu =>
    have hu : Keeps σ u := by
      refine Keeps.of (Keeps.ite₁ h ?_) eu
      split
      · exact h
      · split
        next er => exact h.agentRead.of er
        next er => exact h.agentRead.of er
    split
    · exact hu
    · extract_lets src dst sbad
      clear_value sbad src
      cases sbad with
      | some q => exact hu
      | none =>
        dsimp only
        split
        · exact hu
        · split
          · exact hu
          · split
            · exact hu
            · exact hu
            · exact hu
            · split
              next er => exact hu.agentRead.of er
              next er => exact hu.agentRead.of er

theorem Keeps.updMovq {t' q f} (h : Keeps σ s) : Keeps σ (State.updMovq s t' q f) :=
  h.updTile

theorem Keeps.performRel {t' q} (h : Keeps σ s) : Keeps σ (performRel s t' q).1 := by
  unfold Machine.performRel
  refine Keeps.foldl₁ (Keeps.updMovq h) (fun u x h1 => ?_)
  split
  next e4 => exact h1.agentWrite.of e4

theorem Keeps.writeStat {t' q stat} (h : Keeps σ s) : Keeps σ (writeStat s t' q stat).1 := by
  unfold Machine.writeStat
  dsimp only
  split
  · exact h
  · split
    next e4 => exact h.agentWrite.of e4
    next e5 => exact h.agentWrite.of e5

theorem Keeps.movHalt {t' q i code addr late sigf e} (h : Keeps σ s) : Keeps σ (movHalt s t' q i code addr late sigf e) := by
  unfold Machine.movHalt
  dsimp only
  split
  · exact h.writeStat.releaseGrant.updMovq.engineFail
  · exact h.writeStat.releaseGrant.updMovq

theorem Keeps.flushRel {t' q} (h : Keeps σ s) : Keeps σ (flushRel s t' q).1 := by
  unfold Machine.flushRel
  split
  next e3 => exact h.performRel.of e3
  next e6 => exact Keeps.pair ((h.performRel.of e6).movHalt)

theorem Keeps.movBegin {t' q want i} (h : Keeps σ s) : Keeps σ (movBegin s t' q want i) := by
  unfold Machine.movBegin
  dsimp only
  split
  · exact h.movHalt
  · split
    next e6 => exact (h.agentRead.of e6).movHalt
    next e6 =>
      split
      · split
        · exact h.agentRead.of e6
        · split
          · exact (h.agentRead.of e6).movHalt
          · exact Keeps.ite (((h.agentRead.of e6).updMovq).requestGrant) ((h.agentRead.of e6).updMovq)
      · split
        · exact h.agentRead.of e6
        · split
          · exact (h.agentRead.of e6).movHalt
          · exact Keeps.ite (((h.agentRead.of e6).updMovq).requestGrant) ((h.agentRead.of e6).updMovq)

theorem Keeps.movStart {t' q ty} (h : Keeps σ s) : Completes σ (movStart t' q ty s) :=
  Keeps.ite h.movBegin h

theorem Keeps.execCopy {t' q} (h : Keeps σ s) : Completes σ (execCopy t' q s) :=
  h.movStart

theorem Keeps.execSkew {t' q} (h : Keeps σ s) : Completes σ (execSkew t' q s) :=
  h.movStart

theorem Keeps.execGather {t' q} (h : Keeps σ s) : Completes σ (execGather t' q s) :=
  h.movStart

theorem Keeps.execScatter {t' q} (h : Keeps σ s) : Completes σ (execScatter t' q s) :=
  h.movStart

theorem Keeps.execZero {t' q} (h : Keeps σ s) : Completes σ (execZero t' q s) :=
  h.movStart

theorem Keeps.execI4x {t' q} (h : Keeps σ s) : Completes σ (execI4x t' q s) :=
  h.movStart

theorem Keeps.movUnit {t' q a fail} (h : Keeps σ s) : Keeps σ (movUnit s t' q a fail) := by
  unfold Machine.movUnit
  dsimp only
  split
  next e6 => exact Keeps.ite (((h.runUnit.of e6).flushRel).movHalt) ((h.runUnit.of e6).flushRel)
  next e4 => exact Keeps.ite (((h.runUnit.of e4).flushRel).updMovq) ((h.runUnit.of e4).flushRel)

theorem Keeps.execMoverUnitRead {t' q fail} (h : Keeps σ s) : Completes σ (execMoverUnitRead t' q fail s) := by
  unfold Machine.execMoverUnitRead
  refine Completes.next ?_
  dsimp only
  split
  · exact Keeps.ite h.movUnit h
  · exact h

theorem Keeps.movAdvance {t' q} (h : Keeps σ s) : Keeps σ (movAdvance s t' q) :=
  h.releaseGrant.updMovq

theorem Keeps.movComplete {t' q d} (h : Keeps σ s) : Keeps σ (movComplete s t' q d) := by
  unfold Machine.movComplete
  dsimp only
  split
  · exact h.flushRel
  next e1 =>
    split
    next e4 => exact (h.flushRel.writeStat.of e4).movHalt
    next e4 =>
      split
      · exact (h.flushRel.writeStat.of e4).movAdvance
      · split
        · exact (h.flushRel.writeStat.of e4).movHalt
        · split
          · exact (h.flushRel.writeStat.of e4).movHalt
          · split
            next e11 => exact (((h.flushRel.writeStat.of e4).agentSignal).of e11).movAdvance
            next e12 => exact (((h.flushRel.writeStat.of e4).agentSignal).of e12).movHalt

theorem Keeps.execDescriptorCompletion {t' q} (h : Keeps σ s) : Completes σ (execDescriptorCompletion t' q s) := by
  unfold Machine.execDescriptorCompletion
  refine Completes.next ?_
  dsimp only
  split
  · exact Keeps.ite h.movComplete h
  · exact h

theorem Keeps.execMoverWriteFailure {t' q unit why addr} (h : Keeps σ s) :
    Completes σ (execMoverWriteFailure t' q unit why addr s) := by
  unfold Machine.execMoverWriteFailure
  refine Completes.next ?_
  split
  · exact h
  · exact Keeps.ite h h.updMovq.performRel.movHalt

theorem Keeps.qReset {t' q} (h : Keeps σ s) : Keeps σ (qReset s t' q) :=
  h.performRel.releaseGrant.updMovq

theorem Keeps.qSkip {t' q} (h : Keeps σ s) : Keeps σ (qSkip s t' q) :=
  Keeps.ite h.writeStat.movAdvance h

theorem Keeps.qResume {t' q} (h : Keeps σ s) : Keeps σ (qResume s t' q) := by
  unfold Machine.qResume
  dsimp only
  split
  · exact h
  · split
    · split
      · exact h.movHalt
      · split
        next e8 => exact (h.agentRead.of e8).movHalt
        next e8 => exact (h.agentRead.of e8).updMovq
    · exact h.movBegin

theorem Keeps.qctlWrite {t' q v} (h : Keeps σ s) : Keeps σ (qctlWrite s t' q v) := by
  unfold Machine.qctlWrite
  split
  · exact h.qResume
  · exact h.qSkip
  · exact h.qReset
  · exact h

theorem Keeps.movOn {t' r} (h : Keeps σ s) (hr : Keeps σ r) : Keeps σ (movOn s t' r) := Keeps.ite hr h

theorem Keeps.execMovQbase {t' q v} (h : Keeps σ s) : Completes σ (execMovQbase t' q v s) :=
  h.movOn h.updMovq

theorem Keeps.execMovQtail {t' q v} (h : Keeps σ s) : Completes σ (execMovQtail t' q v s) :=
  h.movOn h.updMovq

theorem Keeps.execMovQctlReset {t' q} (h : Keeps σ s) : Completes σ (execMovQctlReset t' q s) :=
  h.movOn h.qReset

theorem Keeps.execMovQctlSkip {t' q} (h : Keeps σ s) : Completes σ (execMovQctlSkip t' q s) :=
  h.movOn h.qSkip

theorem Keeps.execMovQctlResume {t' q} (h : Keeps σ s) : Completes σ (execMovQctlResume t' q s) :=
  h.movOn h.qResume

theorem Keeps.movReset {t'} (h : Keeps σ s) : Keeps σ (movReset s t') := by
  unfold Machine.movReset
  exact Keeps.updTile (Keeps.foldl h fun _ _ hu => hu.qReset)

theorem Keeps.updMtx {t' f} (h : Keeps σ s) : Keeps σ (State.updMtx s t' f) :=
  h.updTile

theorem Keeps.cp0Push {t' i f a w} (h : Keeps σ s) : Keeps σ (cp0Push s t' i f a w) :=
  h.setTile

theorem Keeps.cp0Issue {t' i f} (h : Keeps σ s) : Completes σ (cp0Issue t' i f s) := by
  unfold Machine.cp0Issue
  refine Completes.next ?_
  dsimp only
  split
  · exact h.waitStall
  · refine Keeps.issue h (fun u5 h5 => ?_)
    split
    · exact h5.cp0Push.done
    · trivial

theorem Keeps.execMcfg {t' f} (h : Keeps σ s) : Completes σ (execMcfg t' f s) :=
  h.cp0Issue

theorem Keeps.execMwld {t' f} (h : Keeps σ s) : Completes σ (execMwld t' f s) :=
  h.cp0Issue

theorem Keeps.execMpass {t' f} (h : Keeps σ s) : Completes σ (execMpass t' f s) :=
  h.cp0Issue

theorem Keeps.execMdrain {t' f} (h : Keeps σ s) : Completes σ (execMdrain t' f s) :=
  h.cp0Issue

theorem Keeps.execMlda {t' f} (h : Keeps σ s) : Completes σ (execMlda t' f s) :=
  h.cp0Issue

theorem Keeps.execMsync {t' f} (h : Keeps σ s) : Completes σ (execMsync t' f s) :=
  h.cp0Issue

theorem Keeps.execMtxErr {t' x1} (h : Keeps σ s) : Completes σ (execMtxErr t' x1 s) :=
  Keeps.ite h.updMtx h

theorem Keeps.feedErr {t' off n} (h : Keeps σ s) : Keeps σ (feedErr s t' off n) := by
  unfold Machine.feedErr
  exact h.recordMtx

theorem Keeps.loadWeights {t' e} (h : Keeps σ s) : Keeps σ (loadWeights s t' e) :=
  h.updMtx.foldl fun _ _ h1 => h1.feedErr

theorem Keeps.freeAccs {t' keys} (h : Keeps σ s) : Keeps σ (freeAccs s t' keys) :=
  h.updMtx.fields

theorem Keeps.loadAcc {t' e} (h : Keeps σ s) : Keeps σ (loadAcc s t' e) :=
  h.updMtx.freeAccs.foldl fun _ _ h1 => h1.feedErr

theorem Keeps.feedPass {t' e} (h : Keeps σ s) : Keeps σ (feedPass s t' e) := by
  unfold Machine.feedPass
  exact h.updMtx

theorem Keeps.endActive {t' rampoff} (h : Keeps σ s) : Keeps σ (endActive s t' rampoff) :=
  Keeps.ite h.updMtx (Keeps.ite h.updMtx h.updMtx)

theorem Keeps.idleRelease {t'} (h : Keeps σ s) : Keeps σ (idleRelease s t') :=
  Keeps.ite h.releaseGrant.updMtx h

theorem Keeps.passFeed {t' badLines mismatch} (h : Keeps σ s) : Keeps σ (passFeed s t' badLines mismatch) := by
  unfold Machine.passFeed
  split
  · exact h
  · exact ((((Keeps.ite h.performHanded.patrolMismatch h.performHanded).feedPass).freeAccs).foldl fun _ _ h1 => h1.feedErr).updMtx

theorem Keeps.feedDone {t'} (h : Keeps σ s) : Keeps σ (feedDone s t') :=
  Keeps.ite (Keeps.ite h.updMtx.endActive.idleRelease h.updMtx) h

theorem Keeps.mtxTick {t'} (h : Keeps σ s) : Keeps σ (mtxTick s t') :=
  h.feedDone.updMtx

theorem Keeps.execPassFeedStart {t' badLines mismatch} (h : Keeps σ s) : Completes σ (execPassFeedStart t' badLines mismatch s) :=
  Keeps.ite h.passFeed h

theorem Keeps.execRampDown {t'} (h : Keeps σ s) : Completes σ (execRampDown t' s) :=
  Keeps.ite h.updMtx.idleRelease h

theorem Keeps.runDrain {t' e} (h : Keeps σ s) : Keeps σ (runDrain s t' e) := by
  unfold Machine.runDrain
  split
  · dsimp only
    split
    · exact h.updTile.updVec
    · split
      · exact h.updTile
      · exact h.updTile.sendDrain
    · exact h.updTile.updMtx

theorem Keeps.startPass {t' e rest} (h : Keeps σ s) : Keeps σ (startPass s t' e rest) := by
  unfold Machine.startPass
  exact (Keeps.ite h.tick h).updMtx

theorem Keeps.turnPass {t' e rest} (h : Keeps σ s) : Keeps σ (turnPass s t' e rest) :=
  Keeps.ite h.startPass (Keeps.ite h (Keeps.ite h.updMtx.requestGrant.startPass h.updMtx.requestGrant))

theorem Keeps.cp0Start {t'} (h : Keeps σ s) : Keeps σ (cp0Start s t') := by
  unfold Machine.cp0Start
  split
  · exact h
  · split
    · exact h
    · dsimp only
      split
      · exact h.updMtx.updMtx
      · exact h.mtxTick.performHanded.updMtx.updMtx.loadWeights
      · exact h.mtxTick.performHanded.updMtx.updMtx.loadAcc
      · exact h.turnPass
      · exact h.mtxTick.updMtx.runDrain
      · exact h.mtxTick.performHanded.updMtx.setReg

theorem Keeps.execCp0Start {t'} (h : Keeps σ s) : Completes σ (execCp0Start t' s) :=
  Keeps.ite h.cp0Start h

theorem Keeps.execDrainStart {t'} (h : Keeps σ s) : Completes σ (execDrainStart t' s) := by
  unfold Machine.execDrainStart
  refine Completes.next ?_
  split
  · split
    · exact Keeps.ite h.cp0Start h
    · exact h
  · exact h

theorem Keeps.execDrainWriteFailure {t' why addr} (h : Keeps σ s) : Completes σ (execDrainWriteFailure t' why addr s) :=
  Keeps.ite h h.updMtx.performHanded.recordMtx

theorem Keeps.mtxReset {t'} (h : Keeps σ s) : Keeps σ (mtxReset s t') := by
  unfold Machine.mtxReset
  exact h.performHanded.releaseGrant.updMtx

theorem Keeps.execRefresh {k ch bank} (h : Keeps σ s) : Completes σ (execRefresh k ch bank s) :=
  Keeps.ite h.updStack h

theorem Keeps.scrubLine {l} (h : Keeps σ s) : Keeps σ (scrubLine s l) := by
  unfold Machine.scrubLine
  split
  · split
    · exact Keeps.ite h.noteUncorr.contError h
    · exact h.restoreLine
  · exact h

theorem Keeps.execScrub {line err} (h : Keeps σ s) : Completes σ (execScrub line err s) :=
  Keeps.ite h.strikeLine.scrubLine h

theorem Keeps.setBand {k b t'} (h : Keeps σ s) : Keeps σ (setBand s k b t') :=
  Keeps.ite h h.logEntry.updStack

theorem Keeps.thermal {k t'} (h : Keeps σ s) : Keeps σ (thermal s k t') := by
  unfold Machine.thermal
  dsimp only
  split
  · exact h.updStack.goFatal
  · exact Keeps.ite h.updStack.setBand (Keeps.ite h.updStack.setBand.updStack.sendFails h.updStack.setBand.updStack)

theorem Keeps.execThermalReading {k temp} (h : Keeps σ s) : Completes σ (execThermalReading k temp s) :=
  Keeps.ite h.thermal h

theorem Keeps.resumeStack {k} (h : Keeps σ s) : Keeps σ (resumeStack s k) := by
  unfold Machine.resumeStack
  exact (h.setBand.foldl fun _ _ h1 => h1.writeBackLine).updStack

theorem Keeps.execStackRetrain {k} (h : Keeps σ s) : Completes σ (execStackRetrain k s) :=
  Keeps.ite h.resumeStack h

theorem Keeps.channelCopied {k ch j} (h : Keeps σ s) : Keeps σ (channelCopied s k ch j) :=
  h.carryLines.updStack.repaired

theorem Keeps.execChannelCopy {k} (h : Keeps σ s) : Completes σ (execChannelCopy k s) := by
  unfold Machine.execChannelCopy
  refine Completes.next ?_
  split
  · exact Keeps.ite h.channelCopied h
  · exact h

/-- What is left of a table in canonical form is in canonical form. -/
theorem canon_filter {α : Type} [DecidableEq α] {d : α} {m : SMap α} (f : Nat × α → Bool) (h : canon d m = true) :
    canon d (m.filter f) = true := by
  rw [canon_iff_pairwise] at *
  exact ⟨h.1.filter _, fun p hp => h.2 p (List.mem_filter.1 hp).1⟩

/-- Bytes leave memory. -/
theorem Keeps.filter (h : Keeps σ s) (em : ∃ f : Nat × Byte → Bool, t.mem = s.mem.filter f)
    (e : kept t = kept { s with mem := t.mem }) : Keeps σ t :=
  Keeps.frame (s := { s with mem := t.mem }) { h with mem := fun hm => em.elim fun f ef => ef ▸ canon_filter f (h.mem hm) } e

theorem Keeps.foldStart {k ch} (h : Keeps σ s) : Keeps σ (foldStart s k ch) := by
  have hl : Keeps σ (Machine.lostStruct s (srcStack k) (chanId k (physChan s k ch)) 0x08 k ch s.rep.folds.length) := h.lostStruct
  unfold Machine.foldStart
  dsimp only
  refine Keeps.updStack ?_
  exact hl.filter ⟨_, rfl⟩ (by simp only [kept])

theorem Keeps.execFold {k ch} (h : Keeps σ s) : Completes σ (execFold k ch s) :=
  Keeps.ite h.foldStart h

theorem Keeps.execFoldMoveCompletion {k} (h : Keeps σ s) : Completes σ (execFoldMoveCompletion k s) := by
  unfold Machine.execFoldMoveCompletion
  refine Completes.next ?_
  split
  · exact Keeps.ite (((h.foldl fun _ _ h1 => h1.foldl fun _ _ h2 => h2.writeBackLine).carryLines).updStack) h
  · exact h

theorem Keeps.endWait {c} (h : Keeps σ s) : Keeps σ (endWait s c) :=
  Keeps.ite h.addStall h

theorem Keeps.tileReset {t'} (h : Keeps σ s) : Keeps σ (tileReset s t') := by
  unfold Machine.tileReset
  exact Keeps.updTile h.endWait.unpark.drainAll.mtxReset.movReset.portReset

theorem Keeps.killReset {t'} (h : Keeps σ s) : Keeps σ (killReset s t') :=
  h.tileReset.updL1

theorem Keeps.feRead {q a n onBus} (h : Keeps σ s) : Keeps σ (feRead s q a n onBus).1 := by
  unfold Machine.feRead
  split
  next e4 => exact h.busRead.of e4
  next e4 => exact h.busRead.of e4
  next e5 => exact (h.busRead.of e5).contError
  next e5 => exact h.busRead.of e5

theorem Keeps.handleEntry {q h' bad} (h : Keeps σ s) : Keeps σ (handleEntry s q h' bad).1 := by
  unfold Machine.handleEntry
  split
  · exact h
  · split
    next e5 => exact h.feRead.of e5
    next e5 => exact Keeps.ite₁ (h.feRead.of e5) (h.feRead.of e5)

theorem Keeps.relocate {q ref n need field} (h : Keeps σ s) : Keeps σ (relocate s q ref n need field).1 := by
  unfold Machine.relocate
  dsimp only
  split
  · exact h
  · split
    next e5 => exact h.handleEntry.of e5
    next e5 => exact Keeps.ite₁ (h.handleEntry.of e5) (Keeps.ite₁ (h.handleEntry.of e5) (h.handleEntry.of e5))

theorem Keeps.relocWords {q map field i ws} (h : Keeps σ s) : Keeps σ (relocWords s q map field i ws).1 := by
  induction ws generalizing s i with
  | nil => exact h
  | cons w ws ih =>
    have hr : Keeps σ (if wbit map i then Machine.relocate s q w 0 0 (field + 8 * i) else (s, .ok w)).1 := Keeps.ite₁ h.relocate h
    unfold Machine.relocWords
    dsimp only
    split
    next e => exact hr.of e
    next e =>
      split
      next e' => exact (ih (hr.of e)).of e'
      next e' => exact (ih (hr.of e)).of e'

theorem Keeps.kernelWin {q i w} (h : Keeps σ s) : Keeps σ (kernelWin s q i w).1 := by
  unfold Machine.kernelWin
  dsimp only
  split
  · exact h
  · split
    next e5 => exact h.handleEntry.of e5
    next e5 => exact Keeps.ite₁ (h.handleEntry.of e5) (Keeps.ite₁ (h.handleEntry.of e5) (h.handleEntry.of e5))

theorem Keeps.kernelWins {q d is} (h : Keeps σ s) : Keeps σ (kernelWins s q d is).1 := by
  induction is generalizing s with
  | nil => exact h
  | cons i is ih =>
    unfold Machine.kernelWins
    split
    next e => exact h.kernelWin.of e
    next e =>
      split
      next e' => exact (ih (h.kernelWin.of e)).of e'
      next e' => exact (ih (h.kernelWin.of e)).of e'

theorem Keeps.kernelArgs {q d} (h : Keeps σ s) : Keeps σ (kernelArgs s q d).1 := by
  unfold Machine.kernelArgs
  dsimp only
  split
  · exact h
  next e1 =>
    split
    next e5 => exact h.relocate.of e5
    next e5 =>
      split
      next e9 => exact ((h.relocate.of e5).feRead).of e9
      next e9 =>
        split
        next e13 => exact ((((h.relocate.of e5).feRead).of e9).relocWords).of e13
        next e13 => exact ((((h.relocate.of e5).feRead).of e9).relocWords).of e13

theorem Keeps.kernelOf {q persist set d} (h : Keeps σ s) : Keeps σ (kernelOf s q persist set d).1 := by
  unfold Machine.kernelOf
  split
  · exact h
  · split
    next e6 => exact h.relocate.of e6
    next e6 =>
      split
      next e10 => exact ((h.relocate.of e6).kernelArgs).of e10
      next e10 =>
        dsimp only
        split
        next e14 => exact ((((h.relocate.of e6).kernelArgs).of e10).relocate).of e14
        next e14 =>
          split
          next e18 => exact ((((((h.relocate.of e6).kernelArgs).of e10).relocate).of e14).kernelWins).of e18
          next e18 =>
            split
            · exact ((((((h.relocate.of e6).kernelArgs).of e10).relocate).of e14).kernelWins).of e18
            · split <;> exact ((((((h.relocate.of e6).kernelArgs).of e10).relocate).of e14).kernelWins).of e18

theorem Keeps.launchKernel {q bs} (h : Keeps σ s) : Keeps σ (launchKernel s q bs).1 := by
  unfold Machine.launchKernel
  dsimp only
  split
  · exact h
  next e1 =>
    split
    · exact h
    · split
      next e7 => exact h.relocate.of e7
      next e7 =>
        split
        · exact h.relocate.of e7
        · split
          next e12 => exact ((h.relocate.of e7).feRead).of e12
          next e12 => exact (((h.relocate.of e7).feRead).of e12).kernelOf

theorem Keeps.setCmd {q c st} (h : Keeps σ s) : Keeps σ (setCmd s q c st) :=
  h.updQueue

theorem Keeps.holdTile {q persist t'} (h : Keeps σ s) : Keeps σ (holdTile s q persist t') :=
  h.updFeTile

theorem Keeps.freeTile {t'} (h : Keeps σ s) : Keeps σ (freeTile s t') :=
  h.updFeTile

theorem Keeps.reclaimTile {q t'} (h : Keeps σ s) : Keeps σ (reclaimTile s q t') :=
  Keeps.ite h.updTile.updFeTile.wakeCheck h

theorem Keeps.prepareTile {k t'} (h : Keeps σ s) : Keeps σ (prepareTile s k t') :=
  h.tileReset.foldl fun _ _ h1 => Keeps.ite h1.ibcfgWrite h1

theorem Keeps.persistInboxes {k t'} (h : Keeps σ s) : Keeps σ (persistInboxes s k t') :=
  h.foldl fun _ _ h1 => h1.ibptrWrite.ibcfgWrite

theorem Keeps.startTile {k j t'} (h : Keeps σ s) : Keeps σ (startTile s k j t') := by
  unfold Machine.startTile
  exact ((Keeps.ite ((Keeps.ite h.updL1 h.splitChange).persistInboxes) (Keeps.ite h.updL1 h.splitChange)).scratchWrite).updTile

theorem Keeps.startKernel {k} (h : Keeps σ s) : Keeps σ (startKernel s k) :=
  h.foldl fun _ _ h1 => h1.startTile

theorem Keeps.writeCmdStat {c state code detail} (h : Keeps σ s) : Keeps σ (writeCmdStat s c state code detail).1 := by
  unfold Machine.writeCmdStat
  split
  · exact h
  · split
    next e4 => exact h.memWrite.of e4
    next e5 => exact h.memWrite.of e5

theorem Keeps.failQueue {q c} (h : Keeps σ s) : Keeps σ (failQueue s q c) :=
  h.updQueue.ringHost

theorem Keeps.closeCmd {q c failed} (h : Keeps σ s) : Keeps σ (closeCmd s q c failed) := by
  unfold Machine.closeCmd
  dsimp only
  split
  · exact h.fields
  · exact Keeps.ite h.fields (Keeps.ite ((h.foldl fun _ _ h1 => Keeps.ite h1.updFeTile h1).fields) h)

theorem Keeps.endFailed {q c} (h : Keeps σ s) : Keeps σ (endFailed s q c) :=
  Keeps.ite h.closeCmd.updQueue h.closeCmd.writeCmdStat.failQueue.updQueue

theorem Keeps.endDone {q c} (h : Keeps σ s) : Keeps σ (endDone s q c) := by
  unfold Machine.endDone
  split
  next e3 => exact (h.writeCmdStat.of e3).endFailed
  next e3 => exact (Keeps.ite (((h.writeCmdStat.of e3).closeCmd).ringHost) ((h.writeCmdStat.of e3).closeCmd)).updQueue

theorem Keeps.endTask {p} (h : Keeps σ s) : Keeps σ (endTask s p) := by
  unfold Machine.endTask
  dsimp only
  split
  · exact Keeps.ite h.fields h.writeCmdStat.failQueue
  · split
    next e4 => exact (h.writeCmdStat.of e4).failQueue
    next e4 => exact Keeps.ite ((h.writeCmdStat.of e4).ringHost) (h.writeCmdStat.of e4)

theorem Keeps.failNow {q f} (h : Keeps σ s) : Keeps σ (failNow s q f) := by
  unfold Machine.failNow
  split
  · exact h
  · dsimp only
    split
    · exact (Keeps.ite ((h.foldl fun _ _ h1 => h1.freeTile).setCmd) h).failQueueCmd
    · split
      · exact ((Keeps.ite ((h.foldl fun _ _ h1 => h1.freeTile).setCmd) h).failQueueCmd).endFailed
      · exact (Keeps.ite ((h.foldl fun _ _ h1 => h1.freeTile).setCmd) h).failQueueCmd

theorem Keeps.updGraph {g f} (h : Keeps σ s) : Keeps σ (State.updGraph s g f) :=
  h.fields

theorem Keeps.nextRec {q c i} (h : Keeps σ s) : Keeps σ (nextRec s q c i).1 := by
  unfold Machine.nextRec
  dsimp only
  split
  · exact h
  · split
    next e5 => exact h.feRead.of e5
    next e5 => exact h.feRead.of e5

theorem Keeps.gdefRun {q bs} (h : Keeps σ s) : Keeps σ (gdefRun s q bs).1 := by
  unfold Machine.gdefRun
  dsimp only
  split
  · exact h
  next e1 =>
    split
    · exact Keeps.ite₁ h.fields h
    · split
      · exact h
      · split
        · exact h
        · split
          next e8 => exact h.relocate.of e8
          next e8 =>
            split
            next e12 => exact ((h.relocate.of e8).feRead).of e12
            next e12 =>
              split
              · exact ((h.relocate.of e8).feRead).of e12
              · split
                next e18 => exact ((((h.relocate.of e8).feRead).of e12).memWrite).of e18
                next e17 => exact Keeps.pair ((((((h.relocate.of e8).feRead).of e12).memWrite).of e17).updGraph)

theorem Keeps.readFence {q c} (h : Keeps σ s) : Keeps σ (readFence s q c).1 := by
  unfold Machine.readFence
  split
  next e4 => exact h.feRead.of e4
  next e4 => exact h.feRead.of e4

theorem Keeps.fenceRef {q bs need} (h : Keeps σ s) : Keeps σ (fenceRef s q bs need).1 := by
  unfold Machine.fenceRef
  split
  next e4 => exact h.relocate.of e4
  next e4 => exact Keeps.ite₁ (h.relocate.of e4) (h.relocate.of e4)

theorem Keeps.signalRun {q bs} (h : Keeps σ s) : Keeps σ (signalRun s q bs).1 := by
  unfold Machine.signalRun
  split
  next e4 => exact h.fenceRef.of e4
  next e4 =>
    dsimp only
    split
    next e7 =>
      exact (Keeps.ite₁ (h.fenceRef.of e4) (Keeps.ite₁ ((h.fenceRef.of e4).busAdd) ((h.fenceRef.of e4).busWrite))).of e7
    next e9 =>
      exact ((Keeps.ite₁ (h.fenceRef.of e4) (Keeps.ite₁ ((h.fenceRef.of e4).busAdd) ((h.fenceRef.of e4).busWrite))).of e9).contError
    next e9 =>
      exact (Keeps.ite₁ (h.fenceRef.of e4) (Keeps.ite₁ ((h.fenceRef.of e4).busAdd) ((h.fenceRef.of e4).busWrite))).of e9

theorem Keeps.pstopRun {c} (h : Keeps σ s) : Keeps σ (pstopRun s c).1 := by
  unfold Machine.pstopRun
  dsimp only
  split
  · exact h
  · split
    · exact h
    · exact h.foldl fun _ _ h1 => h1.askDrain.wakeCheck

theorem Keeps.reserveRun {q c} (h : Keeps σ s) : Keeps σ (reserveRun s q c).1 := by
  unfold Machine.reserveRun
  dsimp only
  split
  · exact h
  · split
    · exact h
    · split
      · exact h
      · split
        · exact h
        · split <;> exact (h.foldl fun _ _ h1 => Keeps.ite h1.updFeTile h1).fields

theorem Keeps.patchRun {q c} (h : Keeps σ s) : Keeps σ (patchRun s q c).1 := by
  unfold Machine.patchRun
  dsimp only
  split
  · exact h
  next e1 =>
    split
    · exact h
    · split
      next e6 => exact h.relocate.of e6
      next e6 =>
        split
        next e10 => exact ((h.relocate.of e6).feRead).of e10
        next e10 =>
          split
          · exact ((h.relocate.of e6).feRead).of e10
          · exact Keeps.pair ((((h.relocate.of e6).feRead).of e10).updGraph)

theorem Keeps.enqRun {q c} (h : Keeps σ s) : Keeps σ (enqRun s q c).1 := by
  unfold Machine.enqRun
  split
  next e4 => exact h.relocWords.of e4
  next e4 => exact h.relocWords.of e4

theorem Keeps.opBegin {q c} (h : Keeps σ s) : Keeps σ (opBegin s q c).1 := by
  unfold Machine.opBegin
  split
  · exact h
  · split
    · exact h
    · split
      next e8 => exact h.launchKernel.of e8
      next e8 => exact h.launchKernel.of e8
    · split
      next e8 => exact h.launchKernel.of e8
      next e8 => exact h.launchKernel.of e8
    · exact h.pstopRun
    · exact h.enqRun
    · split
      next e8 => exact h.fenceRef.of e8
      next e8 =>
        dsimp only
        split
        next e12 => exact ((h.fenceRef.of e8).readFence).of e12
        next e12 => exact Keeps.ite₁ (((h.fenceRef.of e8).readFence).of e12) (((h.fenceRef.of e8).readFence).of e12)
    · exact h.signalRun
    · exact h.gdefRun
    · exact Keeps.ite₁ h h
    · exact h.patchRun
    · exact h.reserveRun

theorem Keeps.goLaunch {q c k} (h : Keeps σ s) : KeepsRead σ (goLaunch s q c k) := by
  unfold Machine.goLaunch
  dsimp only
  split
  · split
    · exact h.startKernel
    · trivial
  · split
    · exact h
    · split
      · exact h.foldl fun _ _ h1 => h1.holdTile.prepareTile
      · split
        · exact h.foldl fun _ _ h1 => h1.reclaimTile
        · trivial
  · trivial

theorem Keeps.goReserve {q c} (h : Keeps σ s) : KeepsRead σ (goReserve s q c) := by
  unfold Machine.goReserve
  dsimp only
  split
  · exact h
  · split
    · exact h
    · split
      · split
        · exact h.foldl fun _ _ h1 => h1.reclaimTile
        · split
          · trivial
          · exact h
      · split
        · trivial
        · exact h.foldl fun _ _ h1 => h1.updFeTile

theorem Keeps.goPatch {q c} (h : Keeps σ s) : KeepsRead σ (goPatch s q c) := by
  unfold Machine.goPatch
  dsimp only
  split
  · trivial
  · split
    next e4 => exact h.memWrite.of e4
    next e5 => exact h.memWrite.of e5

theorem Keeps.goGraph {q c} (h : Keeps σ s) : KeepsRead σ (goGraph s q c) := by
  unfold Machine.goGraph
  dsimp only
  split
  · trivial
  · split
    · exact h
    · split
      next e6 => exact h.updGraph.nextRec.of e6
      next e7 => exact Keeps.pair ((h.updGraph.nextRec.of e7).updGraph)

theorem Keeps.advance {q c} (h : Keeps σ s) : KeepsRead σ (advance s q c) := by
  unfold Machine.advance
  split
  · exact h.goLaunch
  · split
    · split
      · exact h
      · split
        · exact h
        · trivial
    · split
      · trivial
      · split
        · dsimp only
          split
          · exact h.pushTaskq
          · trivial
        · split
          · exact h.goGraph
          · split
            · exact h.goPatch
            · split
              · exact h.goReserve
              · trivial

theorem Keeps.applyOut {n q c o} (h : Keeps σ s) : Keeps σ (applyOut n s q c o) := by
  induction n generalizing s c o with
  | zero => exact h
  | succ n ih =>
    unfold Machine.applyOut
    split
    · exact h.failNow
    · exact h.setCmd
    · exact ih h.setCmd.opBegin
    · split
      · exact h.endDone
      · split
        next e => exact (h.nextRec.of e).endDone
        next e => exact ih (h.nextRec.of e)

theorem Keeps.settleOne (h : Keeps σ s) : KeepsOpt σ (settleOne s) := by
  cases e : Machine.settleOne s with
  | none => trivial
  | some u =>
    obtain ⟨p, -, hp⟩ := List.exists_of_findSome?_eq_some e
    obtain ⟨r, hr, rfl⟩ := Option.map_eq_some_iff.1 hp
    exact (h.advance.of hr).applyOut

theorem Keeps.settleN {n} (h : Keeps σ s) : Keeps σ (settleN n s) := by
  induction n generalizing s with
  | zero => exact h
  | succ n ih =>
    unfold Machine.settleN
    split
    · exact h
    next e => exact ih (h.settleOne.of e)

theorem Keeps.wakeAsked (h : Keeps σ s) : Keeps σ (wakeAsked s) :=
  h.foldl fun _ _ h1 => Keeps.ite h1 h1.wakeCheck

theorem Keeps.feSettle (h : Keeps σ s) : Keeps σ (feSettle s) :=
  h.wakeAsked.settleN

theorem Keeps.finishQueue {q} (h : Keeps σ s) : Keeps σ (finishQueue s q) := by
  unfold Machine.finishQueue
  split
  · exact h
  · exact Keeps.ite h (Keeps.ite h.endFailed h.applyOut)

theorem Keeps.finishTasks (h : Keeps σ s) : Keeps σ (finishTasks s) :=
  h.fields.foldl fun _ _ h1 => h1.endTask

theorem Keeps.tileGone {t' killed} (h : Keeps σ s) : Keeps σ (tileGone s t' killed) := by
  unfold Machine.tileGone
  dsimp only
  split
  · exact h.freeTile.fields.finishTasks
  · split
    · exact h.freeTile
    · exact h.freeTile.updQueue.finishQueue

theorem Keeps.writesPerformed (h : Keeps σ s) : Keeps σ (writesPerformed s) :=
  ((h.foldl fun _ _ h1 => h1.updQueue.finishQueue).fields).finishTasks

theorem Keeps.taskStarted {q} (h : Keeps σ s) : Keeps σ (taskStarted s q) := by
  unfold Machine.taskStarted
  split
  · exact h
  · split
    · exact h
    · exact Keeps.ite h.writeCmdStat.fields.updQueue h

theorem Keeps.firstWaitq {t'} (h : Keeps σ s) : Keeps σ (firstWaitq s t') := by
  unfold Machine.firstWaitq
  split
  · exact h
  · split
    · exact h
    · exact Keeps.ite h.setCmd.taskStarted h

theorem Keeps.startCmd {q c} (h : Keeps σ s) : Keeps σ (startCmd s q c) :=
  h.fields.setCmd.opBegin.applyOut.feSettle

theorem Keeps.startRow {op q} (h : Keeps σ s) : Keeps σ (startRow op q s) := by
  unfold Machine.startRow
  dsimp only
  split
  · exact h
  · split
    next e => exact Keeps.ite h (h.memRead.of e).startCmd
    next e =>
      refine Keeps.failNow (Keeps.setCmd ?_)
      split
      · exact (h.memRead.of e).contError
      · exact h.memRead.of e

theorem Keeps.execNopCommand {q} (h : Keeps σ s) : Completes σ (execNopCommand q s) :=
  h.startRow

theorem Keeps.execLaunch {q} (h : Keeps σ s) : Completes σ (execLaunch q s) :=
  h.startRow

theorem Keeps.execPersist {q} (h : Keeps σ s) : Completes σ (execPersist q s) :=
  h.startRow

theorem Keeps.execPstop {q} (h : Keeps σ s) : Completes σ (execPstop q s) :=
  h.startRow

theorem Keeps.execEnq {q} (h : Keeps σ s) : Completes σ (execEnq q s) :=
  h.startRow

theorem Keeps.execWait {q} (h : Keeps σ s) : Completes σ (execWait q s) :=
  h.startRow

theorem Keeps.execSignal {q} (h : Keeps σ s) : Completes σ (execSignal q s) :=
  h.startRow

theorem Keeps.execGdef {q} (h : Keeps σ s) : Completes σ (execGdef q s) :=
  h.startRow

theorem Keeps.execGraphLaunch {q} (h : Keeps σ s) : Completes σ (execGraphLaunch q s) :=
  h.startRow

theorem Keeps.execPatch {q} (h : Keeps σ s) : Completes σ (execPatch q s) :=
  h.startRow

theorem Keeps.execReserve {q} (h : Keeps σ s) : Completes σ (execReserve q s) :=
  h.startRow

theorem Keeps.execCommandTimeout {q} (h : Keeps σ s) : Completes σ (execCommandTimeout q s) := by
  unfold Machine.execCommandTimeout
  refine Completes.next ?_
  split
  · exact h
  · exact Keeps.ite h (((Keeps.ite h.reach.setCmd h.reach).failNow).feSettle)

theorem Keeps.fenceAgain {q c final} (h : Keeps σ s) : Keeps σ (fenceAgain s q c final) := by
  unfold Machine.fenceAgain
  split
  next e4 => exact ((h.readFence.of e4).failNow).feSettle
  next e4 =>
    split
    · exact ((h.readFence.of e4).applyOut).feSettle
    · exact Keeps.ite (((h.readFence.of e4).failNow).feSettle) ((h.readFence.of e4).setCmd)

theorem Keeps.execFenceReread {q} (h : Keeps σ s) : Completes σ (execFenceReread q s) := by
  unfold Machine.execFenceReread
  refine Completes.next ?_
  split
  · exact h
  · exact Keeps.ite h.fenceAgain h

theorem Keeps.execWaitTimeout {q} (h : Keeps σ s) : Completes σ (execWaitTimeout q s) := by
  unfold Machine.execWaitTimeout
  refine Completes.next ?_
  split
  · exact h
  · exact Keeps.ite h.reach.fenceAgain h

theorem Keeps.writeBackAll {t'} (h : Keeps σ s) : Keeps σ (writeBackAll s t') :=
  h.foldl fun _ _ h1 => h1.l1WriteBack

theorem Keeps.lateFails {t'} (h : Keeps σ s) : Keeps σ (lateFails s t') :=
  Keeps.ite h.failTile h

theorem Keeps.execTileEnd {t'} (h : Keeps σ s) : Completes σ (execTileEnd t' s) := by
  unfold Machine.execTileEnd
  refine Completes.next ?_
  dsimp only
  split
  · exact h
  · exact Keeps.ite h.drainAll.performHanded h.drainAll.performHanded.writeBackAll.lateFails.updTile.tileGone.feSettle

theorem Keeps.killTile {t'} (h : Keeps σ s) : Keeps σ (killTile s t') := by
  unfold Machine.killTile
  exact Keeps.ite h.killReset.updFeTile.requestSound h.killReset.updFeTile.requestSound.tileGone

theorem Keeps.killCmd {c} (h : Keeps σ s) : Keeps σ (killCmd s c) :=
  Keeps.ite (h.reach.foldl fun _ _ hu => hu.killTile) h

theorem Keeps.killStopped {c} (h : Keeps σ s) : Keeps σ (killStopped s c) :=
  Keeps.ite (h.reach.foldl fun _ _ hu => hu.failTile.killTile) h

theorem Keeps.execKill {q} (h : Keeps σ s) : Completes σ (execKill q s) := by
  unfold Machine.execKill
  refine Completes.next ?_
  split
  · exact h
  · refine Keeps.feSettle ?_
    split
    · exact ((h.foldl fun _ _ h1 => h1.killCmd).killCmd).killStopped
    · exact h.foldl fun _ _ h1 => h1.killCmd

theorem Keeps.execCommandReplay {q} (h : Keeps σ s) : Completes σ (execCommandReplay q s) := by
  unfold Machine.execCommandReplay
  refine Completes.next ?_
  dsimp only
  split
  · exact h
  · split
    · exact h.updQueue.startCmd
    · split
      · exact h
      · exact Keeps.ite h h.fields.startCmd

theorem Keeps.pauseHeld {r} (h : Keeps σ s) : Keeps σ (pauseHeld s r) := by
  unfold Machine.pauseHeld
  split
  · exact Keeps.ite h.updTile h
  · exact h

theorem Keeps.execHoldReport {r} (h : Keeps σ s) : Completes σ (execHoldReport r s) :=
  Keeps.ite h h.pauseHeld.holdAll

theorem Keeps.execOutcomeReport {r fail} (h : Keeps σ s) : Completes σ (execOutcomeReport r fail s) := by
  unfold Machine.execOutcomeReport
  refine Completes.next ?_
  split
  · exact h
  · dsimp only
    split
    · exact h.dropAll
    · exact ((h.dropAll.foldl fun _ _ h1 => h1.failPtask).foldl fun _ _ h1 => h1.failNow).feSettle

theorem Keeps.qAbort {q} (h : Keeps σ s) : Keeps σ (qAbort s q) := by
  unfold Machine.qAbort
  dsimp only
  split
  · exact Keeps.ite h.setCmd h.setCmd.failNow
  · split
    · exact h.endFailed
    · exact h

theorem Keeps.feQctl {q v} (h : Keeps σ s) : Keeps σ (feQctl s q v) := by
  unfold Machine.feQctl
  split
  · exact h.updQueue
  · exact h.updQueue
  · exact h.qAbort.feSettle
  · exact h

theorem Keeps.feOn {r} (h : Keeps σ s) (hr : Keeps σ r) : Keeps σ (feOn s r) := Keeps.ite hr h

theorem Keeps.execFeQtail {q v} (h : Keeps σ s) : Completes σ (execFeQtail q v s) :=
  h.feOn h.updQueue

theorem Keeps.execFeQbase {q v} (h : Keeps σ s) : Completes σ (execFeQbase q v s) :=
  h.feOn h.updQueue

theorem Keeps.execFeQctlAbort {q} (h : Keeps σ s) : Completes σ (execFeQctlAbort q s) :=
  h.feOn h.feQctl

theorem Keeps.execFeQctlSkip {q} (h : Keeps σ s) : Completes σ (execFeQctlSkip q s) :=
  h.feOn h.feQctl

theorem Keeps.execFeQctlResume {q} (h : Keeps σ s) : Completes σ (execFeQctlResume q s) :=
  h.feOn h.feQctl

theorem Keeps.waitsnap (h : Keeps σ s) : Keeps σ (waitsnap s).1 := by
  unfold Machine.waitsnap
  refine Keeps.foldl h (fun _ _ h1 => Keeps.updQueue h1)

theorem Keeps.execFeWaitsnap (h : Keeps σ s) : Completes σ (execFeWaitsnap s) :=
  h.feOn h.waitsnap

theorem Keeps.tqPush {k v} (h : Keeps σ s) : Keeps σ (tqPush s k v) := by
  unfold Machine.tqPush
  split
  next e4 => exact ((h.memRead.of e4).pushTaskq).feSettle
  next e4 => exact h.memRead.of e4

theorem Keeps.execFeTqpush {k v} (h : Keeps σ s) : Completes σ (execFeTqpush k v s) :=
  h.feOn h.tqPush

theorem Keeps.waitqRun {t' f} (h : Keeps σ s) : KeepsEff σ (waitqRun t' f s) := by
  unfold Machine.waitqRun
  dsimp only
  split
  · trivial
  · split
    · trivial
    · split
      · trivial
      · split
        · exact h.waitResult.setReg.firstWaitq.feSettle.doneOcc
        · split
          · exact KeepsEff.ok (Keeps.feSettle (Keeps.firstWaitq (Keeps.updCore (Keeps.ite h.updTaskq h))))
          · split
            · trivial
            · exact KeepsEff.ok (Keeps.feSettle (Keeps.firstWaitq (Keeps.updCore (Keeps.ite h.updCore.updTaskq h.updCore))))

theorem Keeps.execWaitq {c f} (h : Keeps σ s) : Completes σ (execWaitq c f s) := by
  unfold Machine.execWaitq
  refine Completes.next ?_
  split
  · exact h.issue (fun _ h1 => h1.done)
  · exact h.issue (fun _ h1 => h1.waitqRun)

theorem Keeps.execTimer0EntryExpiry {c i} (h : Keeps σ s) : Completes σ (execTimer0EntryExpiry c i s) := by
  unfold Machine.execTimer0EntryExpiry
  refine Completes.next ?_
  dsimp only
  split
  · exact h
  · split
    · exact h.reach.updCore
    · split
      · exact h.reach.wake
      · exact h.reach

theorem Keeps.tickStep (h : Keeps σ s) : Keeps σ (tickStep s) :=
  Keeps.ite h.idle.writesPerformed.feSettle h

theorem Keeps.updMbox {m f} (h : Keeps σ s) : Keeps σ (State.updMbox s m f) := by
  unfold Machine.State.updMbox
  split <;> exact h.fields

theorem Keeps.notifyModule {x} (h : Keeps σ s) : Keeps σ (notifyModule s x) :=
  Keeps.ite h h.ringTile

theorem Keeps.notifyReceiver {m} (h : Keeps σ s) : Keeps σ (notifyReceiver s m) := by
  unfold Machine.notifyReceiver
  split
  · exact Keeps.ite h.notifyModule h.ringHost
  · exact h

theorem Keeps.notifySender {m} (h : Keeps σ s) : Keeps σ (notifySender s m) := by
  unfold Machine.notifySender
  split
  · exact Keeps.ite h.ringHost h.notifyModule
  · exact h

theorem Keeps.mbDataWrite {m i v} (h : Keeps σ s) : Keeps σ (mbDataWrite s m i v) :=
  h.updMbox

theorem Keeps.mbSendWrite {m} (h : Keeps σ s) : Keeps σ (mbSendWrite s m) :=
  Keeps.ite h.updMbox h.updMbox.notifyReceiver

theorem Keeps.mbAckWrite {m code} (h : Keeps σ s) : Keeps σ (mbAckWrite s m code) :=
  Keeps.ite h (Keeps.ite h.updMbox h.updMbox.notifySender)

theorem Keeps.mbStatWrite {m v} (h : Keeps σ s) : Keeps σ (mbStatWrite s m v) :=
  h.updMbox

theorem Keeps.mbCfgWrite {m v} (h : Keeps σ s) : Keeps σ (mbCfgWrite s m v) :=
  h.updMbox

theorem Keeps.execMbData {m i v} (h : Keeps σ s) : Completes σ (execMbData m i v s) :=
  h.feOn h.mbDataWrite

theorem Keeps.execMbSend {m x1} (h : Keeps σ s) : Completes σ (execMbSend m x1 s) :=
  h.feOn h.mbSendWrite

theorem Keeps.execMbAck {m v} (h : Keeps σ s) : Completes σ (execMbAck m v s) :=
  h.feOn h.mbAckWrite

theorem Keeps.bellsFell (h : Keeps σ s) : Keeps σ (bellsFell s) :=
  h.fields

theorem Keeps.dbSet {d v} (h : Keeps σ s) : Keeps σ (dbSet s d v) := by
  unfold Machine.dbSet
  dsimp only
  split
  · exact h.updTile
  · exact h.fields

theorem Keeps.dbClear {d v} (h : Keeps σ s) : Keeps σ (dbClear s d v) := by
  unfold Machine.dbClear
  dsimp only
  split
  · exact h.updTile
  · exact h.fields.bellsFell

theorem Keeps.dbMaskWrite {d v} (h : Keeps σ s) : Keeps σ (dbMaskWrite s d v) := by
  unfold Machine.dbMaskWrite
  dsimp only
  split
  · exact h.updTile
  · exact h.fields.bellsFell

theorem Keeps.execDbset {d v} (h : Keeps σ s) : Completes σ (execDbset d v s) :=
  h.feOn h.dbSet

theorem Keeps.execDb {d v} (h : Keeps σ s) : Completes σ (execDb d v s) :=
  h.feOn h.dbClear

theorem Keeps.execDbMask {d v} (h : Keeps σ s) : Completes σ (execDbMask d v s) :=
  h.feOn h.dbMaskWrite

theorem Keeps.updHport {p f} (h : Keeps σ s) : Keeps σ (State.updHport s p f) :=
  h.fields

theorem Keeps.updSess {i f} (h : Keeps σ s) : Keeps σ (State.updSess s i f) :=
  h.fields

theorem Keeps.hostSend {m} (h : Keeps σ s) : Keeps σ (hostSend s m) :=
  h.fields

theorem Keeps.execEthernetFrame {p f} (h : Keeps σ s) : Completes σ (execEthernetFrame p f s) :=
  Keeps.ite h.updHport h

theorem Keeps.execNeighborDiscovery {p m} (h : Keeps σ s) : Completes σ (execNeighborDiscovery p m s) := by
  unfold Machine.execNeighborDiscovery
  refine Completes.next ?_
  split
  · exact h
  · split
    · exact Keeps.ite h.updHport.hostSend h
    · exact h.updHport
    · exact Keeps.ite h.updHport.hostSend h
    · exact Keeps.ite h.updHport h

theorem Keeps.execEchoRequest {p v6 src data} (h : Keeps σ s) : Completes σ (execEchoRequest p v6 src data s) :=
  Keeps.ite h h.updHport.hostSend

theorem Keeps.resolve {p a} (h : Keeps σ s) : Keeps σ (resolve s p a) := by
  unfold Machine.resolve
  split
  · exact h
  · exact Keeps.ite h h.hostSend

theorem Keeps.execLldpTimer {p} (h : Keeps σ s) : Completes σ (execLldpTimer p s) :=
  Keeps.ite h h.reach.updHport.hostSend

theorem Keeps.sealOut {i p dst t' body} (h : Keeps σ s) : Keeps σ (sealOut s i p dst t' body) :=
  h.updSess.hostSend

theorem Keeps.endSess {i} (h : Keeps σ s) : Keeps σ (endSess s i) :=
  h.updSess.fields

theorem Keeps.closeSess {i reason} (h : Keeps σ s) : Keeps σ (closeSess s i reason) := by
  unfold Machine.closeSess
  refine Keeps.endSess ?_
  split
  · exact h.sealOut
  · exact h

theorem Keeps.sendOn {i p probe content again} (h : Keeps σ s) : Keeps σ (sendOn s i p probe content again) :=
  Keeps.ite h.closeSess h.sealOut.updSess

theorem Keeps.sendBest {i content again} (h : Keeps σ s) : Keeps σ (sendBest s i content again) := by
  unfold Machine.sendBest
  split
  · exact h.sendOn
  · exact h.updSess

theorem Keeps.flushWaiting {i} (h : Keeps σ s) : Keeps σ (flushWaiting s i) := by
  unfold Machine.flushWaiting
  split
  · exact h
  · exact h.updSess.foldl fun _ _ h1 => h1.sendBest

theorem Keeps.resendLost {i lost} (h : Keeps σ s) : Keeps σ (resendLost s i lost) :=
  h.updSess.foldl fun _ _ h1 => h1.sendBest

theorem Keeps.failover {i} (h : Keeps σ s) : Keeps σ (failover s i) :=
  Keeps.ite h.updSess.flushWaiting.resendLost h

theorem Keeps.pathDown {i p} (h : Keeps σ s) : Keeps σ (pathDown s i p) :=
  h.updSess.failover

theorem Keeps.portState {p} (h : Keeps σ s) : Keeps σ (portState s p) := by
  unfold Machine.portState
  split
  · exact h.foldl fun _ _ h1 => Keeps.ite h1.updSess.resolve.flushWaiting h1
  · exact h.foldl fun _ _ h1 => Keeps.ite h1.pathDown h1

theorem Keeps.execAutoNegotiation {p peer} (h : Keeps σ s) : Completes σ (execAutoNegotiation p peer s) :=
  Keeps.ite h h.updHport.portState

theorem Keeps.ezTake {i t' h' body tag ce} (h : Keeps σ s) : Keeps σ (ezTake s i t' h' body tag ce).1 := by
  unfold Machine.ezTake
  dsimp only
  split
  · exact h
  · split
    · exact h.fields
    · split
      · exact h.fields
      · exact Keeps.pair h.updSess

theorem Keeps.pnCheck {i pn} (h : Keeps σ s) : Keeps σ (pnCheck s i pn) :=
  Keeps.ite h.closeSess h

theorem Keeps.plainOut {p dst t' sid body} (h : Keeps σ s) : Keeps σ (plainOut s p dst t' sid body) :=
  h.hostSend

theorem Keeps.hsRefused (h : Keeps σ s) : Keeps σ (hsRefused s) :=
  h.fields

theorem Keeps.sendHelloR {p dst hsid msg} (h : Keeps σ s) : Keeps σ (sendHelloR s p dst hsid msg) :=
  h.foldl fun _ _ h1 => h1.plainOut

theorem Keeps.openHandshake {p i hsid events h'} (h : Keeps σ s) : Keeps σ (openHandshake s p i hsid events h') :=
  h.tick.tick.updSess.fields.resolve.sendHelloR

theorem Keeps.execHelloI {p hsid events h'} (h : Keeps σ s) : Completes σ (execHelloI p hsid events h' s) := by
  unfold Machine.execHelloI
  refine Completes.next ?_
  split
  · exact h
  · split
    · exact h.hsRefused.plainOut
    · exact Keeps.ite h.hsRefused.plainOut h.openHandshake

theorem Keeps.finishPkt {hs k} (h : Keeps σ s) : Keeps σ (finishPkt hs s k) := by
  unfold Machine.finishPkt
  split
  · exact h
  · split
    · exact h
    · split
      next e7 => exact h.ezTake.of e7
      next e8 =>
        split
        · exact h.ezTake.of e8
        · exact (h.ezTake.of e8).fields

theorem Keeps.establish {h'} (h : Keeps σ s) : Keeps σ (establish s h') :=
  h.sealOut.updSess.foldl fun _ _ h1 => h1.resolve

theorem Keeps.execFinishI {hs pkts} (h : Keeps σ s) : Completes σ (execFinishI hs pkts s) := by
  unfold Machine.execFinishI
  refine Completes.next ?_
  split
  · exact h
  · dsimp only
    split
    · exact h.foldl fun _ _ h1 => h1.finishPkt
    · split
      · exact h.foldl fun _ _ h1 => h1.finishPkt
      · split
        · exact ((h.foldl fun _ _ h1 => h1.finishPkt).fields).establish
        · exact ((((h.foldl fun _ _ h1 => h1.finishPkt).fields).hsRefused).sealOut).endSess

theorem Keeps.execHandshakeTimeout {hs} (h : Keeps σ s) : Completes σ (execHandshakeTimeout hs s) := by
  unfold Machine.execHandshakeTimeout
  refine Completes.next ?_
  split
  · exact h
  · exact Keeps.ite h h.reach.endSess

theorem Keeps.execClose {i k} (h : Keeps σ s) : Completes σ (execClose i k s) := by
  unfold Machine.execClose
  refine Completes.next ?_
  split
  · exact h
  · split
    next e4 => exact h.ezTake.of e4
    next e5 => exact Keeps.ite ((h.ezTake.of e5).endSess) (h.ezTake.of e5)

theorem Keeps.execSessionIdle {i} (h : Keeps σ s) : Completes σ (execSessionIdle i s) :=
  Keeps.ite h h.reach.fields.closeSess

theorem Keeps.sendAck {i} (h : Keeps σ s) : Keeps σ (sendAck s i) := by
  unfold Machine.sendAck
  dsimp only
  split
  · exact h
  · exact Keeps.ite h.closeSess h.sealOut.updSess

theorem Keeps.dataIn {i now m} (h : Keeps σ s) : Keeps σ (dataIn s i now m) :=
  Keeps.ite h.updSess.sendAck h.updSess

theorem Keeps.opTaken {i} (h : Keeps σ s) : Keeps σ (opTaken s i) :=
  h.updSess

theorem Keeps.reply {i m} (h : Keeps σ s) : Keeps σ (reply s i m) :=
  h.updSess.foldl fun _ _ h1 => h1.sendBest

theorem Keeps.skipBad {n i} (h : Keeps σ s) : Keeps σ (skipBad n s i) := by
  induction n generalizing s with
  | zero => exact h
  | succ n ih =>
    unfold Machine.skipBad
    split
    · exact h
    · exact Keeps.ite h (ih (Keeps.ite h.opTaken h.opTaken.reply))

theorem Keeps.nextOps {i} (h : Keeps σ s) : Keeps σ (nextOps s i) :=
  h.skipBad

theorem Keeps.execData {i p hdr body tag ce} (h : Keeps σ s) : Completes σ (execData i p hdr body tag ce s) := by
  unfold Machine.execData
  refine Completes.next ?_
  split
  · exact h
  · split
    next e4 => exact h.ezTake.of e4
    next e5 => exact Keeps.ite h ((((h.ezTake.of e5).dataIn).nextOps).pnCheck)

theorem Keeps.execEzoriAckDelay {i} (h : Keeps σ s) : Completes σ (execEzoriAckDelay i s) :=
  Keeps.ite h.sendAck h

theorem Keeps.ackIn {i a} (h : Keeps σ s) : Keeps σ (ackIn s i a) :=
  h.fields.updSess.flushWaiting.resendLost

theorem Keeps.execAck {i p hdr body tag ce} (h : Keeps σ s) : Completes σ (execAck i p hdr body tag ce s) := by
  unfold Machine.execAck
  refine Completes.next ?_
  split
  · exact h
  · split
    next e4 => exact h.ezTake.of e4
    next e5 =>
      refine Keeps.pnCheck ?_
      split
      · exact (h.ezTake.of e5).ackIn
      · exact h.ezTake.of e5

theorem Keeps.execProbe {i k} (h : Keeps σ s) : Completes σ (execProbe i k s) := by
  unfold Machine.execProbe
  refine Completes.next ?_
  split
  · exact h
  · split
    next e4 => exact h.ezTake.of e4
    next e5 => exact ((h.ezTake.of e5).dataIn).pnCheck

theorem Keeps.execProbeTimer {i} (h : Keeps σ s) : Completes σ (execProbeTimer i s) :=
  Keeps.ite h (h.reach.updSess.foldl fun _ _ h1 => h1.sendOn)

theorem Keeps.execRetransmissionTimeout {i pn} (h : Keeps σ s) : Completes σ (execRetransmissionTimeout i pn s) := by
  unfold Machine.execRetransmissionTimeout
  refine Completes.next ?_
  split
  · exact h
  · split
    · exact h
    · dsimp only
      split
      · exact Keeps.ite h.reach.updSess.pathDown.resendLost h.reach.updSess.pathDown
      · exact Keeps.ite h.reach.updSess.resendLost h.reach.updSess

theorem Keeps.execRateUpdate {i p minRtt} (h : Keeps σ s) : Completes σ (execRateUpdate i p minRtt s) :=
  Keeps.ite h.updSess h

theorem Keeps.execEvent {i status} (h : Keeps σ s) : Completes σ (execEvent i status s) :=
  Keeps.ite h (Keeps.ite (Keeps.ite h h.updSess.reply) (Keeps.ite h (((Keeps.ite h h.reach).updSess).reply)))

theorem Keeps.switchGens (h : Keeps σ s) : Keeps σ (switchGens s) :=
  Keeps.ite (h.foldl fun _ _ h1 => h1.logEntry) ((h.foldl fun _ _ h1 => h1.logEntry).fields)

theorem Keeps.execReferenceClockLoss {r} (h : Keeps σ s) : Completes σ (execReferenceClockLoss r s) :=
  Keeps.ite h.fields (Keeps.ite h.fields.goFatal (Keeps.ite h.fields.switchGens h.fields))

theorem Keeps.execReferenceClockReturn {r} (h : Keeps σ s) : Completes σ (execReferenceClockReturn r s) :=
  h.fields

theorem Keeps.servo {err} (h : Keeps σ s) : Keeps σ (servo s err) :=
  Keeps.ite h.fields.logEntry.fields h.fields.fields

theorem Keeps.execPpsEdge (h : Keeps σ s) : Completes σ (execPpsEdge s) :=
  Keeps.ite h (Keeps.ite h.fields.fields.servo h.fields)

theorem Keeps.execPpsLost (h : Keeps σ s) : Completes σ (execPpsLost s) :=
  Keeps.ite h h.logEntry.fields

theorem Keeps.execPtpEventMessage {p err} (h : Keeps σ s) : Completes σ (execPtpEventMessage p err s) :=
  Keeps.ite h (Keeps.ite (Keeps.ite h.fields h.fields.servo) h.fields.servo)

theorem Keeps.execPtpSourceLoss (h : Keeps σ s) : Completes σ (execPtpSourceLoss s) :=
  Keeps.ite h h.fields

theorem Keeps.timestatWrite {v} (h : Keeps σ s) : Keeps σ (timestatWrite s v) :=
  h.fields

theorem Keeps.refstatWrite {v} (h : Keeps σ s) : Keeps σ (refstatWrite s v) :=
  h.fields

theorem Keeps.hostOp {i xid q f} (h : Keeps σ s) (hf : ∀ t, Keeps σ t → Keeps σ (f t).1) : Keeps σ (hostOp s i xid q f) :=
  Keeps.ite (hf _ h.opTaken).reply.nextOps h

theorem Keeps.doorbellOp {q tail} (h : Keeps σ s) : Keeps σ (doorbellOp s q tail).1 := by
  unfold Machine.doorbellOp
  split
  · exact h
  · split
    · exact h
    · exact Keeps.pair h.updQueue

theorem Keeps.execDoorbell {i xid q tail} (h : Keeps σ s) : Completes σ (execDoorbell i xid q tail s) := by
  unfold Machine.execDoorbell
  refine Completes.next ?_
  refine Keeps.hostOp h (fun _ k1 => Keeps.doorbellOp k1)

theorem Keeps.mailboxSendOp {m data} (h : Keeps σ s) : Keeps σ (mailboxSendOp s m data).1 :=
  Keeps.ite₁ h ((h.foldl fun _ _ h1 => h1.mbDataWrite).mbSendWrite)

theorem Keeps.execMailboxSend {i xid m data} (h : Keeps σ s) : Completes σ (execMailboxSend i xid m data s) := by
  unfold Machine.execMailboxSend
  refine Completes.next ?_
  refine Keeps.hostOp h (fun _ k1 => Keeps.mailboxSendOp k1)

theorem Keeps.mailboxAckOp {m code} (h : Keeps σ s) : Keeps σ (mailboxAckOp s m code).1 :=
  Keeps.ite₁ h (Keeps.ite₁ h.mbAckWrite h)

theorem Keeps.execMailboxAck {i xid m code} (h : Keeps σ s) : Completes σ (execMailboxAck i xid m code s) := by
  unfold Machine.execMailboxAck
  refine Completes.next ?_
  refine Keeps.hostOp h (fun _ k1 => Keeps.mailboxAckOp k1)

theorem Keeps.featAccept {vec} (h : Keeps σ s) : Keeps σ (featAccept s vec) :=
  h.fields

theorem Keeps.execFeatQuery {i xid} (h : Keeps σ s) : Completes σ (execFeatQuery i xid s) := by
  unfold Machine.execFeatQuery
  refine Completes.next ?_
  refine Keeps.hostOp h (fun _ k1 => k1)

theorem Keeps.execFeatAccept {i xid vec} (h : Keeps σ s) : Completes σ (execFeatAccept i xid vec s) := by
  unfold Machine.execFeatAccept
  refine Completes.next ?_
  refine Keeps.hostOp h (fun _ k1 => Keeps.featAccept k1)

theorem Keeps.execLogRead {i xid first count} (h : Keeps σ s) : Completes σ (execLogRead i xid first count s) := by
  unfold Machine.execLogRead
  refine Completes.next ?_
  refine Keeps.hostOp h (fun _ k1 => Keeps.ite₁ k1 k1)

theorem Keeps.execAttest {i xid nonce} (h : Keeps σ s) : Completes σ (execAttest i xid nonce s) := by
  unfold Machine.execAttest
  refine Completes.next ?_
  refine Keeps.hostOp h (fun _ k1 => k1)

theorem Keeps.numctl {t' dump hclr nclr task} (h : Keeps σ s) : Keeps σ (numctl s t' dump hclr nclr task) :=
  Keeps.ite h.updTile h.updTile

theorem Keeps.numOn {t' r} (h : Keeps σ s) (hr : Keeps σ r) : Keeps σ (numOn s t' r) := Keeps.ite hr h

theorem Keeps.execHdump {t' hclr nclr task} (h : Keeps σ s) : Completes σ (execHdump t' hclr nclr task s) :=
  h.numOn h.numctl

theorem Keeps.execHclr {t' nclr} (h : Keeps σ s) : Completes σ (execHclr t' nclr s) :=
  h.numOn h.numctl

theorem Keeps.execNclr {t'} (h : Keeps σ s) : Completes σ (execNclr t' s) :=
  h.numOn h.numctl

theorem Keeps.execHistogramDumpEnd {t' failed} (h : Keeps σ s) : Completes σ (execHistogramDumpEnd t' failed s) := by
  unfold Machine.execHistogramDumpEnd
  refine Completes.next ?_
  split
  · exact h
  · split
    · exact h
    · dsimp only
      split
      · exact h.drainAll.performHanded.updTile
      · exact Keeps.ite h.drainAll.performHanded.tick.agentWrite.updTile h.drainAll.performHanded.agentWrite.updTile

theorem Keeps.putRecord {r} (h : Keeps σ s) : Keeps σ (putRecord s r) :=
  h.fields

theorem Keeps.dropRecords {p} (h : Keeps σ s) : Keeps σ (dropRecords s p) :=
  h.fields

theorem Keeps.tested {x pass} (h : Keeps σ s) : Keeps σ (tested s x pass).1 := by
  unfold Machine.tested
  dsimp only
  split
  · split
    · exact Keeps.pair h.logEntry.dropRecords
    · exact h.logEntry.putRecord
  · exact Keeps.pair h.logEntry.dropRecords

theorem Keeps.patrolStop {t' spare} (h : Keeps σ s) : Keeps σ (patrolStop s t' spare) :=
  Keeps.ite h.logEntry h

theorem Keeps.repairTile {t' pace} (h : Keeps σ s) : Keeps σ (repairTile s t' pace) :=
  Keeps.ite h.lostStruct.updTile h.fields.updTile.dropRecords.repaired

theorem Keeps.repairLane {t' l} (h : Keeps σ s) : Keeps σ (repairLane s t' l).1 := by
  unfold Machine.repairLane
  exact Keeps.ite₁ h (Keeps.pair (Keeps.updTile h.patrolStop.repaired))

theorem Keeps.repairRow {t' r} (h : Keeps σ s) : Keeps σ (repairRow s t' r).1 := by
  unfold Machine.repairRow
  dsimp only
  split
  · exact Keeps.pair h.updTile
  · exact Keeps.pair h.updTile.patrolStop.repaired.tick.tick.updTile

theorem Keeps.repairL1 {t' b r} (h : Keeps σ s) : Keeps σ (repairL1 s t' b r).1 :=
  Keeps.ite₁ h h.updL1.repaired

theorem Keeps.emptyWay {k ch w} (h : Keeps σ s) : Keeps σ (emptyWay s k ch w) := by
  unfold Machine.emptyWay
  exact (h.foldl fun _ _ h1 => Keeps.ite h1.writeBackLine.contError h1.writeBackLine).updStack

theorem Keeps.repairWay {k ch w} (h : Keeps σ s) : Keeps σ (repairWay s k ch w) :=
  Keeps.ite h.emptyWay.updStack.repaired h.emptyWay.journal.logEntry.updStack.updStack

theorem Keeps.repairMem {x k ch b r} (h : Keeps σ s) : Keeps σ (repairMem s x k ch b r) := by
  unfold Machine.repairMem
  dsimp only
  split
  · exact h.carryLines.updStack.repaired
  · split
    · exact h.fields
    · split
      · exact h.updStack
      · exact Keeps.ite h.fields h

theorem Keeps.repairOf {x pace} (h : Keeps σ s) : Keeps σ (repairOf s x pace).1 := by
  unfold Machine.repairOf
  dsimp only
  split
  · exact Keeps.ite₁ h.repairLane h.repairLane.repairTile
  · exact Keeps.ite₁ h.repairRow h.repairRow.repairTile
  · exact Keeps.ite₁ h.repairL1 h.repairL1.repairTile
  · exact h.repairTile
  · exact h.repairWay
  · exact h.repairMem
  · exact h

theorem Keeps.retireSpare {x} (h : Keeps σ s) : Keeps σ (retireSpare s x) := by
  unfold Machine.retireSpare
  split
  · exact h.logEntry.updTile
  · split
    · exact h
    · exact h.logEntry.updTile
  · exact h

theorem Keeps.engineFails {t'} (h : Keeps σ s) : Keeps σ (engineFails s t') := by
  unfold Machine.engineFails
  split
  · exact h
  · exact h.logEntry.failTile

theorem Keeps.leaveReset {t'} (h : Keeps σ s) : Keeps σ (leaveReset s t') := by
  unfold Machine.leaveReset
  exact Keeps.ite h.tileReset.tileGone h.tileReset

theorem Keeps.soundTaken {x} (h : Keeps σ s) : Keeps σ (soundTaken s x) := by
  unfold Machine.soundTaken
  split <;> exact h.fields

theorem Keeps.release {x} (h : Keeps σ s) : Keeps σ (release s x) := by
  unfold Machine.release
  split
  · exact Keeps.ite h.updTile h
  · exact h

theorem Keeps.soundRun {x res} (h : Keeps σ s) : Keeps σ (soundRun s x res) := by
  unfold Machine.soundRun
  extract_lets u killed r q whole engine v
  have hu : Keeps σ u := h.soundTaken
  have hr : Keeps σ r.1 := hu.tested
  have hv : Keeps σ v := Keeps.ite₁ hr.repairOf hr
  refine Keeps.ite hu.retireSpare.release ?_
  split
  · exact hv
  next t' _ =>
    have hw : Keeps σ (if engine && !killed then Machine.engineFails v t' else v) := Keeps.ite hv.engineFails hv
    exact Keeps.release (Keeps.ite hw.leaveReset hw)

theorem Keeps.execSounding {x res} (h : Keeps σ s) : Completes σ (execSounding x res s) :=
  Keeps.ite h.soundRun.feSettle h

theorem Keeps.releaseRecord {a} (h : Keeps σ s) : Keeps σ (releaseRecord s a).1 := by
  unfold Machine.releaseRecord
  split
  · split
    next e5 => exact h.memRead.of e5
    next e5 => exact h.memRead.of e5
  · exact h

/-- New owner slots that keep each pin bit that is set (R608). -/
theorem Keeps.owners (h : Keeps σ s) (ho : ∀ i, (ownerSlot s i).pin = true → (ownerSlot t i).pin = true) (hp : t.pending = s.pending)
    (hm : t.mem = s.mem) (hl : t.lamp = s.lamp) (hs : t.sec.serial = s.sec.serial) (hr : t.sec.rollback = s.sec.rollback) :
    Keeps σ t where
  pending := hp.trans h.pending
  serial := hs.trans h.serial
  rollback := hr ▸ h.rollback
  pin i hi := ho i (h.pin i hi)
  mem := hm ▸ h.mem
  die0 := hl ▸ h.die0
  die1 := hl ▸ h.die1

/-- A slot that is written with its own pin bit leaves every pin bit. -/
theorem pin_aput {o : SMap OwnerSlot} {i : Nat} {x : OwnerSlot} (hx : x.pin = (aget {} o i).pin) (j : Nat) :
    (aget {} (aput o i x) j).pin = (aget {} o j).pin := by
  rw [aget_aput]
  split
  next e => exact hx.trans (e ▸ rfl)
  · rfl

/-- Two slots that are written with their own pin bits leave every pin bit. -/
theorem pin_aput_aput {o : SMap OwnerSlot} {i k : Nat} {x y : OwnerSlot} (hx : x.pin = (aget {} o i).pin) (hy : y.pin = (aget {} o k).pin)
    (j : Nat) : (aget {} (aput (aput o i x) k y) j).pin = (aget {} o j).pin :=
  (pin_aput (hy.trans (pin_aput hx k).symm) j).trans (pin_aput hx j)

theorem Keeps.cutRelease (h : Keeps σ s) : Keeps σ (cutRelease s) := by
  unfold Machine.cutRelease
  split
  · exact h
  · dsimp only
    have ht : Keeps σ s.tick := h.tick
    split
    · refine Keeps.ite (ht.owners ?_ rfl rfl rfl rfl rfl) ht
      intro j hj
      simp only [ownerSlot] at hj ⊢
      split
      · rw [pin_aput_aput (by rfl) (by rfl)]; exact hj
      · rw [pin_aput (by rfl)]; exact hj
    · exact ht

theorem Keeps.lostState {ph} (h : Keeps σ s) : Keeps σ (lostState s ph) where
  pending := h.cutRelease.pending
  serial := h.cutRelease.serial
  rollback := h.cutRelease.rollback
  pin := h.cutRelease.pin
  mem _ := rfl
  die0 _ := le_of_lt (by decide : 550 < 750)
  die1 _ := le_of_lt (by decide : 550 < 750)

theorem Keeps.railsDown (h : Keeps σ s) : Keeps σ (railsDown s) :=
  h.lostState

/-- An owner that is admitted has its pin bit set, and the others keep theirs. -/
theorem pin_admitOwner {d : BitVec 256} {o : SMap OwnerSlot} (e : admitOwner s d = some o) (i : Nat)
    (hi : (ownerSlot s i).pin = true) : (aget {} o i).pin = true := by
  have hw : ∀ {j}, some (aput s.sec.owners j { digest := d, pin := true, rel := false }) = some o → (aget {} o i).pin = true := by
    intro j hj
    obtain rfl := Option.some.inj hj
    rw [aget_aput]
    split
    · rfl
    · exact hi
  unfold admitOwner at e
  dsimp only at e
  split at e
  · split at e
    · exact hw e
    · cases e
  · split at e
    · split at e
      · exact Option.some.inj e ▸ hi
      · cases e
    · split at e
      · split at e
        · exact hw e
        · cases e
      · split at e
        · exact hw e
        · cases e

theorem Keeps.attempt {img f} (h : Keeps σ s) : Keeps σ (attempt s img f).1 := by
  cases img with
  | none => exact h
  | some i =>
    unfold Machine.attempt
    dsimp only
    refine Keeps.ite₁ h (Keeps.ite₁ h (Keeps.ite₁ h ?_))
    split
    · exact h
    next o e => exact Keeps.pair (h.owners (pin_admitOwner (Option.ite_none_left_eq_some.1 e).2) rfl rfl rfl rfl rfl)

theorem Keeps.applyEntry {e} (h : Keeps σ s) : Keeps σ (applyEntry s e) := by
  unfold Machine.applyEntry
  dsimp only
  generalize hu : (if (isLeft e && decide (e.kind ≠ 5) && decide (e.kind ≠ 15)) = true then _ else s) = u
  have h' : Keeps σ u := hu ▸ Keeps.ite h.fields h
  refine Keeps.ite (Keeps.ite (Keeps.updTile h'.fields) (Keeps.updTile h'.fields)) (Keeps.ite h'.updTile (Keeps.ite h'.updTile
    (Keeps.ite h'.updL1 (Keeps.ite h'.updStack (Keeps.ite h'.updStack (Keeps.ite h'.updStack (Keeps.ite (Keeps.updStack h'.fields)
      (Keeps.ite h'.updOctet h'))))))))

theorem Keeps.applyTrims (h : Keeps σ s) : Keeps σ (applyTrims s) :=
  h.foldl fun _ _ h1 => h1.tick.tick.updTile

theorem Keeps.extendFree {n} (h : Keeps σ s) : Keeps σ (extendFree s n) :=
  h.tick.frame rfl

theorem Keeps.atStart {dur f} (h : Keeps σ s) (hf : ∀ t, Keeps σ t → Keeps σ (f t)) : Keeps σ (atStart s dur f) :=
  (hf _ h.tick.fields).fields

theorem Keeps.startEntry {dur src code detail} (h : Keeps σ s) : Keeps σ (startEntry s dur src code detail) :=
  h.atStart (fun _ h1 => h1.logEntry)

theorem Keeps.restartEntry {dur cause} (h : Keeps σ s) : Keeps σ (restartEntry s dur cause) :=
  h.startEntry

theorem Keeps.startGens {dur} (h : Keeps σ s) : Keeps σ (startGens s dur) :=
  Keeps.ite h ((h.foldl fun _ _ h1 => h1.startEntry).fields)

theorem Keeps.drawKeys (h : Keeps σ s) : Keeps σ (drawKeys s) :=
  h.tick.tick.fields

theorem Keeps.freshState {img slot attempts ocode dur} (h : Keeps σ s) : Keeps σ (freshState s img slot attempts ocode dur) where
  pending := h.pending
  serial := h.serial
  rollback := h.rollback
  pin := h.pin
  mem _ := rfl
  die0 _ := le_of_lt (by decide : 550 < 750)
  die1 _ := le_of_lt (by decide : 550 < 750)

theorem Keeps.measureJournal (h : Keeps σ s) : Keeps σ (measureJournal s) :=
  h.foldl fun _ _ h1 => h1.extendMr

theorem Keeps.measureStart {img} (h : Keeps σ s) : Keeps σ (measureStart s img) := by
  unfold Machine.measureStart
  refine Keeps.extendFree ?_
  split
  · exact Keeps.ite h.extendDigest.extendFree.extendFree.extendFree h.extendDigest.extendFree.extendMr.extendMr
  · exact Keeps.ite h.extendDigest.extendMr.extendFree.extendFree h.extendDigest.extendMr.extendMr.extendMr

/-- A fuse counter that rises and does not pass 64. -/
theorem Keeps.raised {n : Nat} (h : Keeps σ s) (hn : s.sec.rollback ≤ n) (h64 : n ≤ 64) (hp : t.pending = s.pending)
    (hm : t.mem = s.mem) (hl : t.lamp = s.lamp) (hs : t.sec.serial = s.sec.serial) (ho : t.sec.owners = s.sec.owners)
    (hr : t.sec.rollback = n) : Keeps σ t where
  pending := hp.trans h.pending
  serial := hs.trans h.serial
  rollback hb := by
    rw [hr]
    exact ⟨(h.rollback hb).1.trans hn, h64⟩
  pin i hi := by
    unfold ownerSlot
    rw [ho]
    exact h.pin i hi
  mem := hm ▸ h.mem
  die0 := hl ▸ h.die0
  die1 := hl ▸ h.die1

theorem Keeps.raiseRollback {img fail} (h : Keeps σ s) : Keeps σ (raiseRollback s img fail) := by
  unfold Machine.raiseRollback
  split
  next e =>
    have hlt : s.sec.rollback < min 64 img.svn := of_decide_eq_true (Bool.and_eq_true_iff.1 e).2
    dsimp only
    split
    · have hw := Nat.mod_lt (Config.freeWord (s.free + 1)).toNat (Nat.sub_pos_of_lt hlt)
      exact Keeps.extendFree (Keeps.logEntry (h.raised (Nat.le_add_right _ _) (by omega) rfl rfl rfl rfl rfl rfl))
    · exact Keeps.extendFree (h.raised hlt.le (Nat.min_le_left _ _) rfl rfl rfl rfl rfl rfl)
  · exact h

theorem Keeps.spareFails {src id} (h : Keeps σ s) : Keeps σ (spareFails s src id) :=
  h.logEntry

theorem Keeps.dropSpare {x1} (h : Keeps σ s) : Keeps σ (dropSpare s x1) := by
  unfold Machine.dropSpare
  split
  · exact Keeps.ite h h.spareFails.fields
  · exact Keeps.ite h h.spareFails.updTile
  · exact Keeps.ite h h.spareFails.updTile
  · exact Keeps.ite h h.spareFails.updL1
  · exact Keeps.ite h h.spareFails.updStack
  · exact Keeps.ite h h.spareFails.updStack
  · exact Keeps.ite h h.spareFails.updStack

theorem Keeps.replaceChannel {p} (h : Keeps σ s) : Keeps σ (replaceChannel s p) := by
  unfold Machine.replaceChannel
  dsimp only
  split
  · exact h.channelCopied
  · exact Keeps.ite h (Keeps.ite h.foldStart h.fields)

theorem Keeps.foundBad {p} (h : Keeps σ s) : Keeps σ (foundBad s p) :=
  h.logEntry.repairOf

theorem Keeps.startFindings {r} (h : Keeps σ s) : Keeps σ (startFindings s r) :=
  Keeps.foldl
    (Keeps.foldl
      (Keeps.foldl h fun _ _ hu => hu.atStart fun _ hv => hv.dropSpare)
      fun _ _ hu => hu.atStart fun _ hv => hv.replaceChannel)
    fun _ _ hu => hu.atStart fun _ hv => hv.foundBad

theorem Keeps.bootState {img slot attempts ocode r cause} (h : Keeps σ s) :
    Keeps σ (bootState s img slot attempts ocode r cause) := by
  unfold Machine.bootState
  extract_lets u v x y z
  have hv : Keeps σ v := h.freshState.drawKeys.startGens.measureStart
  have hx : Keeps σ x := (hv.measureJournal.foldl fun _ _ hu => hu.applyEntry).applyTrims
  have hy : Keeps σ y := hx.startFindings
  have hz : Keeps σ z := by
    dsimp only [z]
    split
    · exact hy.restartEntry
    · exact hy
  exact hz.raiseRollback

theorem Keeps.failStart {code attempts other} (h : Keeps σ s) : Keeps σ (failStart s code attempts other) :=
  h.tick.fields

theorem Keeps.takeNvm {r} (h : Keeps σ s) : Keeps σ (takeNvm s r) := by
  unfold Machine.takeNvm
  dsimp only
  split
  · exact h.fields
  · split <;> exact h.fields

theorem Keeps.startSeq {r cause} (h : Keeps σ s) : Keeps σ (startSeq s r cause) := by
  unfold Machine.startSeq
  extract_lets u img fail common finish
  have hu : Keeps σ u := h.takeNvm
  have hfin : ∀ {v slot n c}, Keeps σ v → Keeps σ (finish v slot n c) := by
    intro v slot n c hv
    dsimp only [finish]
    split
    · exact hv
    · refine Keeps.ite (Keeps.failStart ?_) hv.bootState
      split
      · exact hv.restartEntry
      · exact hv
  refine Keeps.ite hu.failStart (Keeps.ite hu.failStart ?_)
  split
  next e => exact hfin (hu.attempt.of e)
  next e =>
    split
    next e' => exact hfin (Keeps.attempt (hu.attempt.of e) |>.of e')
    next e' => exact Keeps.failStart (Keeps.attempt (hu.attempt.of e) |>.of e')

theorem Keeps.cutWrite (h : Keeps σ s) : Keeps σ (cutWrite s) := by
  unfold Machine.cutWrite
  dsimp only
  split
  · exact h.tick
  · exact Keeps.ite h.tick (Keeps.ite h.tick.fields h.tick.fields)

theorem Keeps.startUp {r} (h : Keeps σ s) : Keeps σ (startUp s r) :=
  Keeps.ite h (Keeps.ite h.fields h.startSeq)

theorem Keeps.execPowerGood {r} (h : Keeps σ s) : Completes σ (execPowerGood r s) :=
  Keeps.ite h.startUp h

theorem Keeps.execRestart {r} (h : Keeps σ s) : Completes σ (execRestart r s) :=
  Keeps.ite h.cutWrite.lostState.fields.startSeq h

theorem Keeps.execModuleReset (h : Keeps σ s) : Completes σ (execModuleReset s) := by
  unfold Machine.execModuleReset
  refine Completes.next ?_
  split
  · exact h.fields
  · exact h.fields
  · exact h
  · exact h.fields.cutWrite.lostState.fields

theorem Keeps.execResetRelease {r} (h : Keeps σ s) : Completes σ (execResetRelease r s) :=
  Keeps.ite h (Keeps.ite h.fields.startSeq h.fields)

theorem Keeps.execPowerFail (h : Keeps σ s) : Completes σ (execPowerFail s) :=
  Keeps.ite h (h.frame rfl)

theorem Keeps.execRailRemoval (h : Keeps σ s) : Completes σ (execRailRemoval s) :=
  Keeps.ite h.railsDown h

theorem Keeps.execOvervoltage (h : Keeps σ s) : Completes σ (execOvervoltage s) :=
  Keeps.ite h h.cutWrite.railsDown

theorem Keeps.execInputReturn {r} (h : Keeps σ s) : Completes σ (execInputReturn r s) :=
  Keeps.ite h.railsDown.startUp h

theorem Keeps.execThermtripLatchRelease (h : Keeps σ s) : Completes σ (execThermtripLatchRelease s) :=
  Keeps.ite h.fields h

theorem Keeps.execEntropyTestFailure (h : Keeps σ s) : Completes σ (execEntropyTestFailure s) := by
  refine Completes.next ?_
  dsimp only
  split
  · exact h
  · split
    · exact Keeps.goFatal (h.frame rfl)
    · exact h.frame rfl

theorem Keeps.execDrbgReseed (h : Keeps σ s) : Completes σ (execDrbgReseed s) :=
  Keeps.ite h (h.frame rfl)

theorem Keeps.releaseRun {addr sigOk} (h : Keeps σ s) : Keeps σ (releaseRun s addr sigOk) := by
  have hr : Keeps σ (Machine.releaseRecord s (8 * wfld addr 3 37)).1 := h.releaseRecord
  unfold Machine.releaseRun
  dsimp only
  split
  · split
    · refine Keeps.extendFree (hr.owners ?_ rfl rfl rfl rfl rfl)
      intro j hj
      simp only [ownerSlot] at hj ⊢
      rw [pin_aput_aput (by rfl) (by rfl)]
      exact hj
    · exact hr.frame rfl
  · exact hr.frame rfl

theorem Keeps.relctlWrite {v} (h : Keeps σ s) : Keeps σ (relctlWrite s v) :=
  Keeps.ite h (h.frame rfl)

theorem Keeps.execRelease {addr sigOk} (h : Keeps σ s) : Completes σ (execRelease addr sigOk s) := by
  unfold Machine.execRelease
  refine Completes.next ?_
  split
  · exact h
  · split <;> exact h.releaseRun

theorem Keeps.execBypass (h : Keeps σ s) : Completes σ (execBypass s) :=
  Keeps.ite h.fields h

theorem Keeps.execIdcode (h : Keeps σ s) : Completes σ (execIdcode s) :=
  Keeps.ite h.fields h

theorem Keeps.execSamplePreload {pins preload} (h : Keeps σ s) : Completes σ (execSamplePreload pins preload s) :=
  Keeps.ite h.fields h

theorem Keeps.execExtest (h : Keeps σ s) : Completes σ (execExtest s) :=
  Keeps.ite h.fields h

theorem Keeps.execTapReset (h : Keeps σ s) : Completes σ (execTapReset s) :=
  Keeps.ite h.fields h

/-- The request at the front, and the throttle without it. -/
theorem Keeps.frontReq {r l} (h : Keeps σ s) (e : frontReq s.lamp = some (r, l)) : Keeps σ { s with lamp := l } := by
  unfold Machine.frontReq at e
  split at e
  · cases e; exact h.frame rfl
  · cases e; exact h.frame rfl
  · cases e

theorem Keeps.execLampGrant (h : Keeps σ s) : Completes σ (execLampGrant s) := by
  refine Completes.next ?_
  split
  next e => exact Keeps.ite (Keeps.grantTaken (Keeps.issueGrant (h.frontReq e))) h
  · exact h

theorem Keeps.execLampLineMove (h : Keeps σ s) : Completes σ (execLampLineMove s) := by
  unfold Machine.execLampLineMove
  refine Completes.next ?_
  split
  · exact Keeps.ite h (h.reach.frame rfl)
  · exact h

theorem Keeps.throttleEntry {d begins} (h : Keeps σ s) : Keeps σ (throttleEntry s d begins) :=
  h.logEntry

theorem Keeps.lampCfgWrite {v} (h : Keeps σ s) : Keeps σ (lampCfgWrite s v) :=
  Keeps.ite (h.frame rfl) h

theorem Keeps.execLampCfg {v} (h : Keeps σ s) : Completes σ (execLampCfg v s) :=
  Keeps.ite h.lampCfgWrite h

theorem Keeps.lampDieWrite {d v} (h : Keeps σ s) : Keeps σ (lampDieWrite s d v) :=
  Keeps.ite h.setVcore h

theorem Keeps.execLampDie {d v} (h : Keeps σ s) : Completes σ (execLampDie d v s) :=
  Keeps.ite h.lampDieWrite h

theorem Keeps.execJunctionTemperature {d tj} (h : Keeps σ s) : Completes σ (execJunctionTemperature d tj s) := by
  refine Completes.next (Keeps.ite h ?_)
  dsimp only
  have hu : Keeps σ (s.updDie d fun x => { x with tj := tj % 256, tjmax := max x.tjmax (tj % 256) }) := h.updDie fun _ hx => hx
  generalize s.updDie d _ = u at hu ⊢
  refine Keeps.ite (Keeps.railsDown hu.fields) ?_
  split
  · exact Keeps.ite hu (Keeps.throttleEntry (hu.updDie fun _ hx => hx))
  · exact Keeps.ite (Keeps.throttleEntry (hu.updDie fun _ hx => hx)) hu
  · exact hu

theorem Keeps.pwrCause {d on} (h : Keeps σ s) : Keeps σ (pwrCause s d on) := by
  refine Keeps.throttleEntry (h.updDie fun x hx => ?_)
  split
  · exact hx
  · exact hx

theorem Keeps.execInputPower {x} (h : Keeps σ s) : Completes σ (execInputPower x s) := by
  refine Completes.next ?_
  dsimp only
  split
  · exact h
  · split
    · exact Keeps.ite (h.frame rfl) (Keeps.pwrCause (Keeps.pwrCause (h.frame rfl)))
    · exact Keeps.ite (Keeps.pwrCause (Keeps.pwrCause (h.frame rfl))) (h.frame rfl)
    · exact h.frame rfl

theorem Keeps.execDieCurrent {d amps} (h : Keeps σ s) : Completes σ (execDieCurrent d amps s) := by
  refine Completes.next (Keeps.ite h ?_)
  dsimp only
  have hu : Keeps σ (s.updDie d fun x => { x with imeas := amps % 2 ^ 12 }) := h.updDie fun _ hx => hx
  generalize s.updDie d _ = u at hu ⊢
  split
  · exact Keeps.ite hu (Keeps.ite hu.setVcore hu.setVcore.throttleEntry)
  · exact Keeps.ite (Keeps.throttleEntry (hu.updDie fun _ hx => hx)) hu
  · exact hu

theorem Keeps.execThrottleStep {d} (h : Keeps σ s) : Completes σ (execThrottleStep d s) := by
  unfold Machine.execThrottleStep
  refine Completes.next ?_
  dsimp only
  split
  · exact h
  · exact Keeps.ite h h.reach.setVcore

theorem Keeps.lampCntClear (h : Keeps σ s) : Keeps σ (lampCntClear s) :=
  h.frame rfl

theorem Keeps.ro {w} (h : Keeps σ s) : KeepsRead σ (ro s w) :=
  h

theorem Keeps.modRead {o} (h : Keeps σ s) : KeepsRead σ (modRead s o) := by
  unfold Machine.modRead
  split
  · exact h.ro
  · split
    · exact h.ro
    · split
      · exact h.ro
      · split
        · exact h.ro
        · split
          · exact h.ro
          · exact h.ro
          · exact h.ro
          · exact h.ro
          · exact h.ro
          · exact h.ro
          · exact h.ro
          · exact h.ro
          · exact h.ro
          · exact h.ro
          · exact h.ro
          · exact h.ro
          · exact h.ro
          · trivial

theorem Keeps.movqRead {t' q o} (h : Keeps σ s) : KeepsRead σ (movqRead s t' q o) := by
  unfold Machine.movqRead
  dsimp only
  split
  · exact h.ro
  · exact h.ro
  · exact h.ro
  · exact h.ro
  · exact h.ro
  · exact h.ro
  · trivial

theorem Keeps.tileRead {t' o} (h : Keeps σ s) : KeepsRead σ (tileRead s t' o) := by
  unfold Machine.tileRead
  dsimp only
  split
  · split
    · exact h.ro
    · trivial
  · split
    · exact h.movqRead
    · split
      · exact h.ro
      · exact h.ro
      · exact h.ro
      · exact h.ro
      · exact h.ro
      · exact h.ro
      · exact h.ro
      · exact h.ro
      · exact h.ro
      · exact h.ro
      · exact h.ro
      · exact h.ro
      · exact h.ro
      · exact h.ro
      · exact h.ro
      · exact h.ro
      · exact h.ro
      · exact h.ro
      · exact h.ro
      · exact h.ro
      · trivial

theorem Keeps.feqRead {q o} (h : Keeps σ s) : KeepsRead σ (feqRead s q o) := by
  unfold Machine.feqRead
  dsimp only
  split
  · exact h.ro
  · exact h.ro
  · exact h.ro
  · exact h.ro
  · exact h.ro
  · exact h.ro
  · exact h.ro
  · exact h.ro
  · trivial

theorem Keeps.feBlockRead {o} (h : Keeps σ s) : KeepsRead σ (feBlockRead s o) := by
  unfold Machine.feBlockRead
  split
  · exact h.waitsnap
  · split
    · exact h.ro
    · split
      · exact h.ro
      · split
        · exact h.feqRead
        · split
          · exact h.ro
          · split
            · exact h.ro
            · split
              · split
                · exact h.ro
                · exact h.ro
                · trivial
              · split
                · exact h.ro
                · split
                  · exact h.ro
                  · split
                    · exact h.ro
                    · trivial

theorem Keeps.galRead {o} (h : Keeps σ s) : KeepsRead σ (galRead s o) := by
  unfold Machine.galRead
  split
  · dsimp only
    split <;> exact h.ro
  · split
    · dsimp only
      split
      · exact h.ro
      · split
        · exact h.ro
        · trivial
    · split
      · dsimp only
        split
        · exact h.ro
        · exact h.ro
        · exact h.ro
        · trivial
      · split
        · split
          · exact h.ro
          · trivial
        · split
          · split
            · exact h.ro
            · trivial
          · split
            · split
              · exact h.ro
              · trivial
            · split
              · exact h.ro
              · exact h.ro
              · exact h.ro
              · exact h.ro
              · exact h.ro
              · exact h.ro
              · exact h.ro
              · exact h.ro
              · exact h.ro
              · exact h.ro
              · trivial

theorem Keeps.hostRead {o} (h : Keeps σ s) : KeepsRead σ (hostRead s o) := by
  unfold Machine.hostRead
  split
  · split
    · exact h.ro
    · exact h.ro
    · trivial
  · split
    · exact h.ro
    · split
      · split
        · exact h.ro
        · trivial
      · trivial

theorem Keeps.lampRead {o} (h : Keeps σ s) : KeepsRead σ (lampRead s o) := by
  unfold Machine.lampRead
  split
  · exact h.ro
  · exact h.ro
  · exact h.ro
  · exact h.ro
  · exact h.ro
  · exact h.ro
  · exact h.ro
  · exact h.ro
  · trivial

theorem Keeps.repRead {o} (h : Keeps σ s) : KeepsRead σ (repRead s o) := by
  unfold Machine.repRead
  split
  · exact h.ro
  · split
    · exact h.ro
    · split
      · exact h.ro
      · split
        · exact h.ro
        · split
          · exact h.ro
          · split
            · exact h.ro
            · exact h.ro
            · exact h.ro
            · trivial

theorem Keeps.secRead {o} (h : Keeps σ s) : KeepsRead σ (secRead s o) := by
  unfold Machine.secRead
  split
  · exact h.ro
  · split
    · exact h.ro
    · split
      · exact h.ro
      · split
        · exact h.ro
        · split
          · exact h.ro
          · exact h.ro
          · exact h.ro
          · trivial

theorem Keeps.mbRead {m hmb r} (h : Keeps σ s) : KeepsRead σ (mbRead s m hmb r) := by
  unfold Machine.mbRead
  split
  · exact h.ro
  · split
    · exact h.ro
    · exact h.ro
    · exact h.ro
    · split
      · exact h.ro
      · trivial
    · trivial

theorem Keeps.dbRead {d r} (h : Keeps σ s) : KeepsRead σ (dbRead s d r) := by
  unfold Machine.dbRead
  dsimp only
  split
  · exact h.ro
  · exact h.ro
  · exact h.ro
  · trivial

theorem Keeps.mbBlockRead {o} (h : Keeps σ s) : KeepsRead σ (mbBlockRead s o) := by
  unfold Machine.mbBlockRead
  split
  · exact h.mbRead
  split
  · exact h.mbRead
  split
  · exact h.dbRead
  split
  · generalize o - 0x30000 = x
    exact h.dbRead
  · trivial

theorem Keeps.blockRead {l} (h : Keeps σ s) : KeepsRead σ (blockRead s l) := by
  unfold Machine.blockRead
  dsimp only
  split
  · exact h.modRead
  · exact h.tileRead
  · exact h.feBlockRead
  · split
    · exact h.ro
    · exact h.ro
    · trivial
  · exact h.galRead
  · exact h.hostRead
  · exact h.lampRead
  · exact h.repRead
  · exact h.secRead
  · exact h.mbBlockRead
  · trivial

theorem Keeps.regRead {l n} (h : Keeps σ s) : Keeps σ (regRead s l n).1 := by
  unfold Machine.regRead
  split
  · exact h
  · exact h
  · split
    · exact h
    · split
      next e9 => exact h.blockRead.of e9
      · exact h.tick

theorem Keeps.modWrite {o v} (h : Keeps σ s) : Keeps σ (modWrite s o v) := by
  unfold Machine.modWrite
  split
  · exact h.timestatWrite
  · exact h.refstatWrite
  · exact h

theorem Keeps.movqWrite {t' q o v} (h : Keeps σ s) : Keeps σ (movqWrite s t' q o v) := by
  unfold Machine.movqWrite
  split
  · exact h.updMovq
  · exact h.updMovq
  · exact h.qctlWrite
  · exact h.updMovq
  · exact h

theorem Keeps.tileWrite {t' o v task} (h : Keeps σ s) : Keeps σ (tileWrite s t' o v task) := by
  unfold Machine.tileWrite
  split
  · exact h.mirrorWrite
  · split
    · exact h.movqWrite
    · split
      · exact h.updTile
      · exact h.tcorr
      · exact h.numctl
      · exact h.updTile
      · exact h.updTile
      · exact h.updTile
      · exact Keeps.ite h h.l1cfgWrite
      · exact h.updL1
      · exact h

theorem Keeps.feqWrite {q o v} (h : Keeps σ s) : Keeps σ (feqWrite s q o v) := by
  unfold Machine.feqWrite
  split
  · exact h.updQueue
  · exact h.updQueue
  · exact h.updQueue
  · exact h.feQctl
  · exact h.updQueue
  · exact h

theorem Keeps.grbaseWrite {v} (h : Keeps σ s) : Keeps σ (grbaseWrite s v) :=
  Keeps.ite h h.fields

theorem Keeps.tqClear {c} (h : Keeps σ s) : Keeps σ (tqClear s c) :=
  h.fields

theorem Keeps.feBlockWrite {o v} (h : Keeps σ s) : Keeps σ (feBlockWrite s o v) := by
  unfold Machine.feBlockWrite
  split
  · exact h.fields
  · split
    · exact h.grbaseWrite
    · split
      · exact h.feqWrite
      · split
        · split
          · exact h.tqPush
          · exact h.tqClear
          · exact h
        · exact h

theorem Keeps.galWrite {o v gsvc} (h : Keeps σ s) : Keeps σ (galWrite s o v gsvc) := by
  unfold Machine.galWrite
  dsimp only
  split
  · exact Keeps.ite h.fields h.fields
  · split
    · exact Keeps.ite (Keeps.ite h.ibcfgWrite h.ibptrWrite) (Keeps.ite h.updPort h)
    · split
      · exact Keeps.ite h.updLink h
      · split
        · exact Keeps.ite h.fields h
        · split
          · exact Keeps.ite h.fields h
          · split
            · exact h.fields
            · exact h.fields
            · exact h.fields
            · exact Keeps.ite h h.fields
            · exact h.fields
            · exact h.fields
            · exact h.fields
            · exact h.fields
            · exact h

theorem Keeps.hostWrite {o} (h : Keeps σ s) : Keeps σ (hostWrite s o) :=
  Keeps.ite h.updHport (Keeps.ite h.fields h)

theorem Keeps.lampWrite {o v} (h : Keeps σ s) : Keeps σ (lampWrite s o v) := by
  unfold Machine.lampWrite
  split
  · exact h.lampCfgWrite
  · exact h.lampCntClear
  · exact h.lampDieWrite
  · exact h.lampDieWrite
  · exact h

theorem Keeps.repWrite {o} (h : Keeps σ s) : Keeps σ (repWrite s o) :=
  Keeps.ite h.fields h

theorem Keeps.secWrite {o v} (h : Keeps σ s) : Keeps σ (secWrite s o v) :=
  Keeps.ite h.relctlWrite h

theorem Keeps.mbWrite {m hmb r v} (h : Keeps σ s) : Keeps σ (mbWrite s m hmb r v) := by
  unfold Machine.mbWrite
  split
  · exact h.mbDataWrite
  · split
    · exact h.mbSendWrite
    · exact h.mbStatWrite
    · exact h.mbAckWrite
    · exact Keeps.ite h.mbCfgWrite h
    · exact h

theorem Keeps.dbWrite {d r v} (h : Keeps σ s) : Keeps σ (dbWrite s d r v) := by
  unfold Machine.dbWrite
  split
  · exact h.dbClear
  · exact h.dbSet
  · exact h.dbMaskWrite
  · exact h

theorem Keeps.mbBlockWrite {o v} (h : Keeps σ s) : Keeps σ (mbBlockWrite s o v) :=
  Keeps.ite h.mbWrite (Keeps.ite h.mbWrite (Keeps.ite h.dbWrite (Keeps.ite h.dbWrite h)))

theorem Keeps.blockWrite {l v task gsvc} (h : Keeps σ s) : Keeps σ (blockWrite s l v task gsvc) := by
  unfold Machine.blockWrite
  dsimp only
  split
  · exact h.modWrite
  · exact h.tileWrite
  · exact h.feBlockWrite
  · exact Keeps.ite h.updStack h
  · exact h.galWrite
  · exact h.hostWrite
  · exact h.lampWrite
  · exact h.repWrite
  · exact h.secWrite
  · exact h.mbBlockWrite
  · exact h

theorem Keeps.regWrite {l bs task gsvc} (h : Keeps σ s) : KeepsOpt σ (regWrite s l bs task gsvc) := by
  unfold Machine.regWrite
  split
  · exact h.updTile
  · split
    · exact h
    · trivial
  · split
    · trivial
    · exact h.blockWrite

theorem KeepsOpt.getD {r : Option State} (hr : KeepsOpt σ r) (h : Keeps σ s) : Keeps σ (r.getD s) := by
  cases r with
  | none => exact h
  | some _ => exact hr

theorem Keeps.execRegisterWrite {addr v} (h : Keeps σ s) : Completes σ (execRegisterWrite addr v s) := by
  refine Completes.next ?_
  split
  · exact h
  · split
    · exact h
    · exact Keeps.ite (h.regWrite.getD h) h

theorem Keeps.halfRead {c whole a n} (h : Keeps σ s) : Keeps σ (halfRead s c whole a n).1 := by
  unfold Machine.halfRead
  split
  · exact h
  · split
    · split
      · split
        next e11 => exact h.regRead.of e11
        next e10 => exact h.regRead.of e10
      · exact h
    · exact h.coreLoad

theorem Keeps.loadJoin {a n x bs r} (h : Keeps σ r.1) : Keeps σ (loadJoin a n x bs r).1 := by
  unfold Machine.loadJoin
  split
  · exact h
  · exact h

theorem Keeps.loadPart {c a n acc p} (h : Keeps σ acc.1) : Keeps σ (loadPart c a n acc p).1 := by
  unfold Machine.loadPart
  split
  · exact h
  · exact h.halfRead.loadJoin

theorem Keeps.pfNote {c a n} (h : Keeps σ s) : Keeps σ (pfNote s c a n) := by
  unfold Machine.pfNote
  split
  · exact h.pfAccess
  · exact h

theorem Keeps.dataRead {c a n} (h : Keeps σ s) : Keeps σ (dataRead s c a n).1 :=
  h.pfNote.foldl₁ fun _ _ k1 => k1.loadPart

theorem Keeps.remoteLoad {c p} (h : Keeps σ s) : Keeps σ (remoteLoad s c p) := by
  unfold Machine.remoteLoad
  split
  · exact h
  · exact h.drainAll.updCore.galSend

theorem Keeps.loadBody {c len x} (h : Keeps σ s) : KeepsEff σ (loadBody c len x s) := by
  unfold Machine.loadBody
  split
  · trivial
  · split
    · split
      · trivial
      · exact h.remoteLoad
    · dsimp only
      split
      next e7 => exact (h.dataRead.of e7).memFault
      next e7 => exact (((h.dataRead.of e7).setReg).loadOwe).done

theorem Keeps.execLd {c f} (h : Keeps σ s) : Completes σ (execLd c f s) :=
  h.issue (fun _ h1 => h1.loadBody)

theorem Keeps.execLdspD {c rd imm} (h : Keeps σ s) : Completes σ (execLdspD c rd imm s) :=
  h.issue (fun _ h1 => h1.loadBody)

theorem Keeps.storeReady {c a n} (h : Keeps σ s) : Keeps σ (storeReady s c a n).1 :=
  Keeps.ite₁ h.drainWait h

theorem Keeps.claimSplit {c r} (h : Keeps σ s) : Keeps σ (claimSplit s c r) :=
  Keeps.ite h.updL1 h

theorem Keeps.halfWrite {c whole aligned a bs} (h : Keeps σ s) : Keeps σ (halfWrite s c whole aligned a bs) := by
  unfold Machine.halfWrite
  split
  · exact h.bufferWrite
  · split
    · split
      next e =>
        split at e
        · exact (h.regWrite.of e).claimSplit
        · cases e
      · exact h.recordLate
    · exact h.bufferWrite

theorem Keeps.dataWrite {c a bs} (h : Keeps σ s) : Keeps σ (dataWrite s c a bs) :=
  h.foldl₁ fun _ _ h1 => h1.halfWrite

theorem Keeps.storeBody {c x} (h : Keeps σ s) : KeepsEff σ (storeBody c x s) := by
  unfold Machine.storeBody
  split
  · trivial
  · split
    next e5 => exact (h.storeReady.of e5).waitAt
    next e5 => exact (((h.storeReady.of e5).bufferStall).dataWrite).done

theorem Keeps.execSt {c f} (h : Keeps σ s) : Completes σ (execSt c f s) :=
  h.issue (fun _ h1 => h1.storeBody)

theorem Keeps.execStspD {c rd imm} (h : Keeps σ s) : Completes σ (execStspD c rd imm s) :=
  h.issue (fun _ h1 => h1.storeBody)

theorem Keeps.strLoad {c a n} (h : Keeps σ s) : Keeps σ (strLoad s c a n).1 := by
  unfold Machine.strLoad
  split
  · split
    · exact h
    · exact Keeps.ite₁ h h.remoteLoad
  · split
    next e5 => exact h.dataRead.of e5
    next e5 => exact h.dataRead.of e5

theorem Keeps.strNext {op n c} (h : Keeps σ s) : Keeps σ (strNext op n s c) :=
  h.updCore

theorem Keeps.strStore {op n c bs} (h : Keeps σ s) : Keeps σ (strStore op n s c bs).1 :=
  h.dataWrite.strNext

theorem Keeps.strElem {op n c} (h : Keeps σ s) : Keeps σ (strElem op n s c).1 := by
  unfold Machine.strElem
  split
  · exact h
  · dsimp only
    split
    · split
      next e7 => exact h.storeReady.of e7
      next e7 => exact (h.storeReady.of e7).strStore
    · split
      next e7 => exact h.storeReady.of e7
      next e7 =>
        split
        next e11 => exact ((h.storeReady.of e7).strLoad).of e11
        next e11 => exact (((h.storeReady.of e7).strLoad).of e11).strStore
    · split
      next e8 => exact h.strLoad.of e8
      next e8 =>
        split
        next e12 => exact ((h.strLoad.of e8).strLoad).of e12
        next e12 =>
          split
          · exact (((h.strLoad.of e8).strLoad).of e12).strNext
          · exact Keeps.pair ((((h.strLoad.of e8).strLoad).of e12).updCore)

theorem Keeps.strRun {op n c fuel k} (h : Keeps σ s) : Keeps σ (strRun op n c fuel s k).1 := by
  induction fuel generalizing s k with
  | zero => exact h
  | succ fuel ih =>
    unfold Machine.strRun
    split
    · exact h
    · split
      next e => exact ih (h.strElem.of e)
      next e => exact h.strElem.of e

theorem Keeps.strFlags {op c f} (h : Keeps σ s) : Keeps σ (strFlags op s c f) :=
  Keeps.ite h.updCore h

theorem Keeps.strBody {op f c} (h : Keeps σ s) : KeepsEff σ (strBody op f c s) := by
  unfold Machine.strBody
  dsimp only
  split
  next e5 => exact (h.strRun.of e5).memFault
  next e4 => exact (h.strRun.of e4).addStall
  next e5 => exact ((h.strRun.of e5).strFlags).doneOcc
  next e4 =>
    split
    · exact h.strRun.of e4
    · exact ((h.strRun.of e4).strFlags).doneOcc

theorem Keeps.strInstr {op c f} (h : Keeps σ s) : Keeps σ (strInstr op c f s) :=
  h.issue (fun _ h1 => h1.strBody)

theorem Keeps.execSmov {c f} (h : Keeps σ s) : Completes σ (execSmov c f s) :=
  h.strInstr

theorem Keeps.execSset {c f} (h : Keeps σ s) : Completes σ (execSset c f s) :=
  h.strInstr

theorem Keeps.execScmp {c f} (h : Keeps σ s) : Completes σ (execScmp c f s) :=
  h.strInstr

theorem Keeps.lateDrain {n c} (h : Keeps σ s) : KeepsOpt σ (lateDrain n s c) := by
  induction n generalizing s with
  | zero => trivial
  | succ n ih =>
    unfold Machine.lateDrain
    dsimp only
    split
    · exact h.drainOne
    · exact ih h.drainOne

theorem Keeps.execLateStore {c victim} (h : Keeps σ s) : Completes σ (execLateStore c victim s) := by
  refine Completes.next ?_
  dsimp only
  split
  · exact h
  · split
    · exact h.updCore.lateDrain.getD h
    · split
      · exact h
      · split
        · exact h
        · exact Keeps.ite h.updCore.victimWrite.updL1 h

theorem Keeps.memWriteTo {a bs} (h : Keeps σ s) : Keeps σ (memWriteTo s a bs).1 := by
  unfold Machine.memWriteTo
  refine Keeps.foldl₁ h (fun u x h1 => ?_)
  split
  · exact h1
  · exact h1.lineWrite

theorem Keeps.hostWriteOp {addr data} (h : Keeps σ s) : Keeps σ (hostWriteOp s addr data).1 := by
  unfold Machine.hostWriteOp
  split
  · exact h
  · split
    · exact h
    · split
      · exact h
      · split
        next e8 => exact h.memWriteTo.of e8
        next e9 => exact h.memWriteTo.of e9
    · split
      next e7 => exact h.busWrite.of e7
      next e8 => exact h.busWrite.of e8
    · split
      next e7 => exact h.regWrite.of e7
      · exact h

theorem Keeps.hostReadOp {addr len} (h : Keeps σ s) : Keeps σ (hostReadOp s addr len).1 := by
  unfold Machine.hostReadOp
  split
  · exact h
  · split
    · exact h
    · split
      next e8 => exact h.memRead.of e8
      next e8 => exact h.memRead.of e8
    · split
      next e8 => exact h.busRead.of e8
      next e8 => exact h.busRead.of e8
    · split
      next e8 => exact h.regRead.of e8
      next e7 => exact h.regRead.of e7

theorem Keeps.execWrite {i xid addr data cmpl} (h : Keeps σ s) : Completes σ (execWrite i xid addr data cmpl s) := by
  unfold Machine.execWrite
  refine Completes.next ?_
  split
  · refine Keeps.hostOp h (fun _ k1 => Keeps.hostWriteOp k1)
  · exact Keeps.ite h.opTaken.hostWriteOp.nextOps h

theorem Keeps.execRead {i xid addr len} (h : Keeps σ s) : Completes σ (execRead i xid addr len s) := by
  unfold Machine.execRead
  refine Completes.next ?_
  refine Keeps.hostOp h (fun u4 h4 => ?_)
  split
  next e10 => exact h4.hostReadOp.of e10
  next e10 => exact h4.hostReadOp.of e10

theorem Keeps.vpush {t' x} (h : Keeps σ s) : Keeps σ (vpush s t' x) :=
  h.updVec

theorem Keeps.vcompute {t' i} (h : Keeps σ s) : Completes σ (vcompute t' i s) := by
  refine Completes.next (h.vissue fun u hu => ?_)
  dsimp only
  split
  · trivial
  · split
    · trivial
    · exact hu.vpush.done

theorem Keeps.execVfadd {t' f} (h : Keeps σ s) : Completes σ (execVfadd t' f s) :=
  h.vcompute

theorem Keeps.execVfsub {t' f} (h : Keeps σ s) : Completes σ (execVfsub t' f s) :=
  h.vcompute

theorem Keeps.execVfmul {t' f} (h : Keeps σ s) : Completes σ (execVfmul t' f s) :=
  h.vcompute

theorem Keeps.execVfdiv {t' f} (h : Keeps σ s) : Completes σ (execVfdiv t' f s) :=
  h.vcompute

theorem Keeps.execVfmin {t' f} (h : Keeps σ s) : Completes σ (execVfmin t' f s) :=
  h.vcompute

theorem Keeps.execVfmax {t' f} (h : Keeps σ s) : Completes σ (execVfmax t' f s) :=
  h.vcompute

theorem Keeps.execVfsqrt {t' f} (h : Keeps σ s) : Completes σ (execVfsqrt t' f s) :=
  h.vcompute

theorem Keeps.execVfneg {t' f} (h : Keeps σ s) : Completes σ (execVfneg t' f s) :=
  h.vcompute

theorem Keeps.execVfabs {t' f} (h : Keeps σ s) : Completes σ (execVfabs t' f s) :=
  h.vcompute

theorem Keeps.execVcvtFI {t' f} (h : Keeps σ s) : Completes σ (execVcvtFI t' f s) :=
  h.vcompute

theorem Keeps.execVcvtIF {t' f} (h : Keeps σ s) : Completes σ (execVcvtIF t' f s) :=
  h.vcompute

theorem Keeps.execVfwcvt {t' f} (h : Keeps σ s) : Completes σ (execVfwcvt t' f s) :=
  h.vcompute

theorem Keeps.execVfncvt {t' f} (h : Keeps σ s) : Completes σ (execVfncvt t' f s) :=
  h.vcompute

theorem Keeps.execVfma {t' f} (h : Keeps σ s) : Completes σ (execVfma t' f s) :=
  h.vcompute

theorem Keeps.execVfms {t' f} (h : Keeps σ s) : Completes σ (execVfms t' f s) :=
  h.vcompute

theorem Keeps.execVfnma {t' f} (h : Keeps σ s) : Completes σ (execVfnma t' f s) :=
  h.vcompute

theorem Keeps.execVfnms {t' f} (h : Keeps σ s) : Completes σ (execVfnms t' f s) :=
  h.vcompute

theorem Keeps.execVadd {t' f} (h : Keeps σ s) : Completes σ (execVadd t' f s) :=
  h.vcompute

theorem Keeps.execVsub {t' f} (h : Keeps σ s) : Completes σ (execVsub t' f s) :=
  h.vcompute

theorem Keeps.execVmul {t' f} (h : Keeps σ s) : Completes σ (execVmul t' f s) :=
  h.vcompute

theorem Keeps.execVmulh {t' f} (h : Keeps σ s) : Completes σ (execVmulh t' f s) :=
  h.vcompute

theorem Keeps.execVmulhu {t' f} (h : Keeps σ s) : Completes σ (execVmulhu t' f s) :=
  h.vcompute

theorem Keeps.execVand {t' f} (h : Keeps σ s) : Completes σ (execVand t' f s) :=
  h.vcompute

theorem Keeps.execVor {t' f} (h : Keeps σ s) : Completes σ (execVor t' f s) :=
  h.vcompute

theorem Keeps.execVxor {t' f} (h : Keeps σ s) : Completes σ (execVxor t' f s) :=
  h.vcompute

theorem Keeps.execVandn {t' f} (h : Keeps σ s) : Completes σ (execVandn t' f s) :=
  h.vcompute

theorem Keeps.execVshl {t' f} (h : Keeps σ s) : Completes σ (execVshl t' f s) :=
  h.vcompute

theorem Keeps.execVshr {t' f} (h : Keeps σ s) : Completes σ (execVshr t' f s) :=
  h.vcompute

theorem Keeps.execVsar {t' f} (h : Keeps σ s) : Completes σ (execVsar t' f s) :=
  h.vcompute

theorem Keeps.execVmin {t' f} (h : Keeps σ s) : Completes σ (execVmin t' f s) :=
  h.vcompute

theorem Keeps.execVmax {t' f} (h : Keeps σ s) : Completes σ (execVmax t' f s) :=
  h.vcompute

theorem Keeps.execVminu {t' f} (h : Keeps σ s) : Completes σ (execVminu t' f s) :=
  h.vcompute

theorem Keeps.execVmaxu {t' f} (h : Keeps σ s) : Completes σ (execVmaxu t' f s) :=
  h.vcompute

theorem Keeps.execVfcmpeq {t' f} (h : Keeps σ s) : Completes σ (execVfcmpeq t' f s) :=
  h.vcompute

theorem Keeps.execVfcmplt {t' f} (h : Keeps σ s) : Completes σ (execVfcmplt t' f s) :=
  h.vcompute

theorem Keeps.execVfcmple {t' f} (h : Keeps σ s) : Completes σ (execVfcmple t' f s) :=
  h.vcompute

theorem Keeps.execVfcmpun {t' f} (h : Keeps σ s) : Completes σ (execVfcmpun t' f s) :=
  h.vcompute

theorem Keeps.execVcmpeq {t' f} (h : Keeps σ s) : Completes σ (execVcmpeq t' f s) :=
  h.vcompute

theorem Keeps.execVcmpne {t' f} (h : Keeps σ s) : Completes σ (execVcmpne t' f s) :=
  h.vcompute

theorem Keeps.execVcmplt {t' f} (h : Keeps σ s) : Completes σ (execVcmplt t' f s) :=
  h.vcompute

theorem Keeps.execVcmpltu {t' f} (h : Keeps σ s) : Completes σ (execVcmpltu t' f s) :=
  h.vcompute

theorem Keeps.execVcmple {t' f} (h : Keeps σ s) : Completes σ (execVcmple t' f s) :=
  h.vcompute

theorem Keeps.execVcmpleu {t' f} (h : Keeps σ s) : Completes σ (execVcmpleu t' f s) :=
  h.vcompute

theorem Keeps.execMand {t' f} (h : Keeps σ s) : Completes σ (execMand t' f s) :=
  h.vcompute

theorem Keeps.execMor {t' f} (h : Keeps σ s) : Completes σ (execMor t' f s) :=
  h.vcompute

theorem Keeps.execMxor {t' f} (h : Keeps σ s) : Completes σ (execMxor t' f s) :=
  h.vcompute

theorem Keeps.execMandn {t' f} (h : Keeps σ s) : Completes σ (execMandn t' f s) :=
  h.vcompute

theorem Keeps.execVpopc {t' f} (h : Keeps σ s) : Completes σ (execVpopc t' f s) :=
  h.vcompute

theorem Keeps.execVfirst {t' f} (h : Keeps σ s) : Completes σ (execVfirst t' f s) :=
  h.vcompute

theorem Keeps.execVredsum {t' f} (h : Keeps σ s) : Completes σ (execVredsum t' f s) :=
  h.vcompute

theorem Keeps.execVredmin {t' f} (h : Keeps σ s) : Completes σ (execVredmin t' f s) :=
  h.vcompute

theorem Keeps.execVredmax {t' f} (h : Keeps σ s) : Completes σ (execVredmax t' f s) :=
  h.vcompute

theorem Keeps.execVredminu {t' f} (h : Keeps σ s) : Completes σ (execVredminu t' f s) :=
  h.vcompute

theorem Keeps.execVredmaxu {t' f} (h : Keeps σ s) : Completes σ (execVredmaxu t' f s) :=
  h.vcompute

theorem Keeps.execVfredsum {t' f} (h : Keeps σ s) : Completes σ (execVfredsum t' f s) :=
  h.vcompute

theorem Keeps.execVfredmin {t' f} (h : Keeps σ s) : Completes σ (execVfredmin t' f s) :=
  h.vcompute

theorem Keeps.execVfredmax {t' f} (h : Keeps σ s) : Completes σ (execVfredmax t' f s) :=
  h.vcompute

theorem Keeps.execVslideup {t' f} (h : Keeps σ s) : Completes σ (execVslideup t' f s) :=
  h.vcompute

theorem Keeps.execVslidedown {t' f} (h : Keeps σ s) : Completes σ (execVslidedown t' f s) :=
  h.vcompute

theorem Keeps.execVrgather {t' f} (h : Keeps σ s) : Completes σ (execVrgather t' f s) :=
  h.vcompute

theorem Keeps.execVmerge {t' f} (h : Keeps σ s) : Completes σ (execVmerge t' f s) :=
  h.vcompute

theorem Keeps.execVwmul {t' f} (h : Keeps σ s) : Completes σ (execVwmul t' f s) :=
  h.vcompute

theorem Keeps.execVwmulu {t' f} (h : Keeps σ s) : Completes σ (execVwmulu t' f s) :=
  h.vcompute

theorem Keeps.execVfwmul {t' f} (h : Keeps σ s) : Completes σ (execVfwmul t' f s) :=
  h.vcompute

theorem Keeps.execVdotI8 {t' f} (h : Keeps σ s) : Completes σ (execVdotI8 t' f s) :=
  h.vcompute

theorem Keeps.execVdotE4m3 {t' f} (h : Keeps σ s) : Completes σ (execVdotE4m3 t' f s) :=
  h.vcompute

theorem Keeps.execVdotE4m3e5m2 {t' f} (h : Keeps σ s) : Completes σ (execVdotE4m3e5m2 t' f s) :=
  h.vcompute

theorem Keeps.execVdotE5m2e4m3 {t' f} (h : Keeps σ s) : Completes σ (execVdotE5m2e4m3 t' f s) :=
  h.vcompute

theorem Keeps.execVdotE5m2 {t' f} (h : Keeps σ s) : Completes σ (execVdotE5m2 t' f s) :=
  h.vcompute

theorem Keeps.execVdotB16 {t' f} (h : Keeps σ s) : Completes σ (execVdotB16 t' f s) :=
  h.vcompute

theorem Keeps.execVdotF16 {t' f} (h : Keeps σ s) : Completes σ (execVdotF16 t' f s) :=
  h.vcompute

theorem Keeps.execVmvVV {t' f} (h : Keeps σ s) : Completes σ (execVmvVV t' f s) :=
  h.vcompute

theorem Keeps.execVmvVX {t' f} (h : Keeps σ s) : Completes σ (execVmvVX t' f s) :=
  h.vcompute

theorem Keeps.execVmvXS {t' f} (h : Keeps σ s) : Completes σ (execVmvXS t' f s) :=
  h.vcompute

theorem Keeps.execVid {t' f} (h : Keeps σ s) : Completes σ (execVid t' f s) :=
  h.vcompute

theorem Keeps.execVcfg {t' f} (h : Keeps σ s) : Completes σ (execVcfg t' f s) := by
  unfold Machine.execVcfg
  refine Completes.next ?_
  refine Keeps.issue h (fun u h1 => ?_)
  dsimp only
  split
  · trivial
  · exact h1.updVec.setReg.done

theorem Keeps.vaccess {t' i f store} (h : Keeps σ s) : KeepsEff σ (vaccess t' i f store s) := by
  unfold Machine.vaccess
  dsimp only
  split
  · trivial
  · split
    · exact h.vpush.done
    · split
      · exact h.startAll
      · split
        · exact h.startAll.waitAt
        · split
          · exact h.startAll.vpush.startAll
          · exact h.startAll.vpush.startAll.setFault

theorem Keeps.execVld {t' f} (h : Keeps σ s) : Completes σ (execVld t' f s) :=
  h.vissue (fun _ h1 => h1.vaccess)

theorem Keeps.execVst {t' f} (h : Keeps σ s) : Completes σ (execVst t' f s) :=
  h.vissue (fun _ h1 => h1.vaccess)

theorem Keeps.execVectorStart {t' mismatch} (h : Keeps σ s) : Completes σ (execVectorStart t' mismatch s) :=
  Keeps.ite h.startHead h

theorem Keeps.failStarted {t' x younger e addr err f} (h : Keeps σ s) : Keeps σ (failStarted s t' x younger e addr err f).1 := by
  unfold Machine.failStarted
  dsimp only
  split
  next e6 => exact (h.startOne.of e6).joinFault
  next e3 => exact (h.startOne.of e3).joinFault

theorem Keeps.execVectorDataFault {t' e addr why} (h : Keeps σ s) : Completes σ (execVectorDataFault t' e addr why s) := by
  unfold Machine.execVectorDataFault
  refine Completes.next ?_
  split
  · exact h
  · dsimp only
    split
    · exact h
    · exact (((((Keeps.ite₁ h.startHead h).updVec).runStarted).failStarted).runStarted).endStarted

theorem Keeps.chainAccess {t' i f store} (h : Keeps σ s) : KeepsEff σ (chainAccess t' i f store s) := by
  unfold Machine.chainAccess
  dsimp only
  split
  · trivial
  · split
    · trivial
    · split
      · trivial
      · exact h.vpush.done

theorem Keeps.execCld {t' f} (h : Keeps σ s) : Completes σ (execCld t' f s) :=
  h.vissue (fun _ h1 => h1.chainAccess)

theorem Keeps.execCst {t' f} (h : Keeps σ s) : Completes σ (execCst t' f s) :=
  h.vissue (fun _ h1 => h1.chainAccess)

theorem Keeps.execCseed {t' f} (h : Keeps σ s) : Completes σ (execCseed t' f s) := by
  refine Completes.next (h.vissue fun u hu => ?_)
  split
  · exact hu.vpush.done
  · trivial

theorem Keeps.execVchain {t' f n} (h : Keeps σ s) : Completes σ (execVchain t' f n s) := by
  unfold Machine.execVchain
  refine Completes.next ?_
  refine Keeps.vissue h (fun u h1 => ?_)
  dsimp only
  split
  · trivial
  · exact h1.vpush.done

theorem Keeps.execRownorm {t' f md} (h : Keeps σ s) : Completes σ (execRownorm t' f md s) := by
  unfold Machine.execRownorm
  refine Completes.next ?_
  refine Keeps.vissue h (fun u h1 => ?_)
  dsimp only
  split
  · trivial
  · exact h1.vpush.done

theorem Keeps.cmemRead {b t' p src j} (h : Keeps σ b.st) : Keeps σ (cmemRead b t' p src j).1.st := by
  refine Keeps.fold (fun r : LineBuf × Except (Word × AccErr) (List Nat) => r.1.st) h (fun q x hq => ?_)
  split
  · exact hq
  · split
    next e => exact hq.vread.ofBuf e
    next e => exact hq.vread.ofBuf e

theorem Keeps.cmemStep {r t' p f xs} (h : Keeps σ r.st) : Keeps σ (cmemStep r t' p f xs).1.st := h.setTile

theorem Keeps.cmemChunk {t' p f src n j b r os} (h : Keeps σ b.st) : Keeps σ (cmemChunk t' p f src n j b r os).1.st := by
  induction n generalizing j b r os with
  | zero => exact h
  | succ n ih =>
    unfold Machine.cmemChunk
    split
    next e => exact h.cmemRead.ofBuf e
    next e => exact ih (Keeps.cmemStep (h.cmemRead.ofBuf e))

theorem Keeps.cmemRun {t' p f fuel n r} (h : Keeps σ r.st) : Keeps σ (cmemRun t' p f fuel n r).1.st := by
  induction fuel generalizing n r with
  | zero => exact h
  | succ fuel ih =>
    unfold Machine.cmemRun
    dsimp only
    split
    · exact h
    · split
      · exact Keeps.storeLines (Keeps.cmemChunk h)
      · split
        · exact Keeps.storeLines (Keeps.cmemChunk h)
        · split
          · exact Keeps.storeLines (Keeps.cmemChunk h)
          · exact ih (Keeps.storeLines (Keeps.cmemChunk h))

theorem Keeps.cmemRegs {t' r left} (h : Keeps σ s) : Keeps σ (cmemRegs s t' r left) :=
  h.setReg.setReg.setReg

theorem Keeps.cmemBody {t' f n upTo} (h : Keeps σ s) : KeepsEff σ (cmemBody t' f n upTo s) := by
  unfold Machine.cmemBody
  extract_lets c u v p pc count mine cont base
  have hu : Keeps σ u := h.drainAll
  split
  · trivial
  · split
    · exact hu.waitAt
    · split
      · trivial
      next unit stop w r0 outs _ _ _ _ =>
        have hw : Keeps σ w := hu.updVec
        have hq : Keeps σ (Machine.cmemRun t'.val p f outs outs r0).1.st := Keeps.cmemRun hw
        generalize Machine.cmemRun t'.val p f outs outs r0 = q at hq ⊢
        obtain ⟨r, e⟩ := q
        have hz : Keeps σ (Machine.cmemRegs r.st t' r (count - (r.idx - base))) := Keeps.cmemRegs hq
        dsimp only
        generalize Machine.cmemRegs r.st t' r (count - (r.idx - base)) = z at hz ⊢
        have hs : ∀ k, Keeps σ (Machine.setFault z t'.val (.cmem t' f n upTo) k 0) := fun _ => hz.setFault
        split
        · exact hs 1
        · exact hs 2
        · refine KeepsEff.ite hz.done ?_
          apply KeepsEff.ok
          dsimp only
          exact hz.updVec

theorem Keeps.execCmem {t' f n upTo} (h : Keeps σ s) : Completes σ (execCmem t' f n upTo s) :=
  h.issue (fun _ h1 => h1.cmemBody)

theorem Keeps.exec {i} (h : Keeps σ s) : Completes σ (exec i s) := by
  unfold Machine.exec
  split
  · exact h.execMov
  · exact h.execMovi
  · exact h.execAdd
  · exact h.execSub
  · exact h.execAdc
  · exact h.execSbc
  · exact h.execAndR
  · exact h.execOrR
  · exact h.execXorR
  · exact h.execAndn
  · exact h.execShl
  · exact h.execShr
  · exact h.execSar
  · exact h.execRol
  · exact h.execCmp
  · exact h.execCmpi
  · exact h.execMul
  · exact h.execMulh
  · exact h.execMulhu
  · exact h.execDiv
  · exact h.execDivu
  · exact h.execRem
  · exact h.execRemu
  · exact h.execSlt
  · exact h.execSltu
  · exact h.execMinR
  · exact h.execMaxR
  · exact h.execMinu
  · exact h.execMaxu
  · exact h.execClz
  · exact h.execCtz
  · exact h.execPopc
  · exact h.execBswap
  · exact h.execSext
  · exact h.execZextW
  · exact h.execAddi
  · exact h.execAndi
  · exact h.execOri
  · exact h.execXori
  · exact h.execShli
  · exact h.execShri
  · exact h.execSari
  · exact h.execRoli
  · exact h.execSlti
  · exact h.execSltiu
  · exact h.execLui
  · exact h.execLsh
  · exact h.execLd
  · exact h.execSt
  · exact h.execLdspD
  · exact h.execStspD
  · exact h.execLineFill
  · exact h.execPrefetch
  · exact h.execLateStore
  · exact h.execBcc
  · exact h.execBr
  · exact h.execJal
  · exact h.execJalr
  · exact h.execJr
  · exact h.execRet
  · exact h.execNop
  · exact h.execZloop
  · exact h.execSmov
  · exact h.execSset
  · exact h.execScmp
  · exact h.execIfl
  · exact h.execMfsr
  · exact h.execMtsr
  · exact h.execMset
  · exact h.execTrap
  · exact h.execEret
  · exact h.execHalt
  · exact h.execWaitq
  · exact h.execInterrupt
  · exact h.execSystemRegisterMirrorWrite
  · exact h.execTileT0arm
  · exact h.execTileT0can
  · exact h.execTimer0EntryExpiry
  · exact h.execProf
  · exact h.execTileProf
  · exact h.execWdog
  · exact h.execTileT1ctl
  · exact h.execTileLsecnt
  · exact h.execPaceWindow
  · exact h.execTilePaceClr
  · exact h.execTileTcorrCtl
  · exact h.execReferenceClockLoss
  · exact h.execPpsEdge
  · exact h.execPpsLost
  · exact h.execPtpEventMessage
  · exact h.execHinit
  · exact h.execHabs
  · exact h.execHabsm
  · exact h.execHfin
  · exact h.execHsqz
  · exact h.execHsave
  · exact h.execHrest
  · exact h.execVcfg
  · exact h.execVectorStart
  · exact h.execVectorDataFault
  · exact h.execVld
  · exact h.execVst
  · exact h.execVfadd
  · exact h.execVfsub
  · exact h.execVfmul
  · exact h.execVfdiv
  · exact h.execVfmin
  · exact h.execVfmax
  · exact h.execVfsqrt
  · exact h.execVfneg
  · exact h.execVfabs
  · exact h.execVcvtFI
  · exact h.execVcvtIF
  · exact h.execVfwcvt
  · exact h.execVfncvt
  · exact h.execVfma
  · exact h.execVfms
  · exact h.execVfnma
  · exact h.execVfnms
  · exact h.execVadd
  · exact h.execVsub
  · exact h.execVmul
  · exact h.execVmulh
  · exact h.execVmulhu
  · exact h.execVand
  · exact h.execVor
  · exact h.execVxor
  · exact h.execVandn
  · exact h.execVshl
  · exact h.execVshr
  · exact h.execVsar
  · exact h.execVmin
  · exact h.execVmax
  · exact h.execVminu
  · exact h.execVmaxu
  · exact h.execVfcmpeq
  · exact h.execVfcmplt
  · exact h.execVfcmple
  · exact h.execVfcmpun
  · exact h.execVcmpeq
  · exact h.execVcmpne
  · exact h.execVcmplt
  · exact h.execVcmpltu
  · exact h.execVcmple
  · exact h.execVcmpleu
  · exact h.execMand
  · exact h.execMor
  · exact h.execMxor
  · exact h.execMandn
  · exact h.execVpopc
  · exact h.execVfirst
  · exact h.execVredsum
  · exact h.execVredmin
  · exact h.execVredmax
  · exact h.execVredminu
  · exact h.execVredmaxu
  · exact h.execVfredsum
  · exact h.execVfredmin
  · exact h.execVfredmax
  · exact h.execVslideup
  · exact h.execVslidedown
  · exact h.execVrgather
  · exact h.execVmerge
  · exact h.execVwmul
  · exact h.execVwmulu
  · exact h.execVfwmul
  · exact h.execVdotI8
  · exact h.execVdotE4m3
  · exact h.execVdotE4m3e5m2
  · exact h.execVdotE5m2e4m3
  · exact h.execVdotE5m2
  · exact h.execVdotB16
  · exact h.execVdotF16
  · exact h.execVmvVV
  · exact h.execVmvVX
  · exact h.execVmvXS
  · exact h.execVid
  · exact h.execCld
  · exact h.execCst
  · exact h.execCseed
  · exact h.execVchain
  · exact h.execCmem
  · exact h.execRownorm
  · exact h.execMcfg
  · exact h.execMwld
  · exact h.execMpass
  · exact h.execMdrain
  · exact h.execMlda
  · exact h.execMsync
  · exact h.execCp0Start
  · exact h.execPassFeedStart
  · exact h.execDrainStart
  · exact h.execRampDown
  · exact h.execDrainWriteFailure
  · exact h.execMtxErr
  · exact h.execHdump
  · exact h.execHclr
  · exact h.execNclr
  · exact h.execHistogramDumpEnd
  · exact h.execTileL1cfg
  · exact h.execWaySplitChange
  · exact h.execFence
  · exact h.execFenceW
  · exact h.execDcz
  · exact h.execDcwb
  · exact h.execDcinv
  · exact h.execAmoadd
  · exact h.execAmoswap
  · exact h.execAmocas
  · exact h.execAmomin
  · exact h.execAmomax
  · exact h.execAmofaddF32
  · exact h.execMergingBufferDrain
  · exact h.execMovQbase
  · exact h.execMovQtail
  · exact h.execMovQctlReset
  · exact h.execMovQctlSkip
  · exact h.execMovQctlResume
  · exact h.execCopy
  · exact h.execSkew
  · exact h.execGather
  · exact h.execScatter
  · exact h.execZero
  · exact h.execI4x
  · exact h.execMoverUnitRead
  · exact h.execDescriptorCompletion
  · exact h.execGput
  · exact h.execGget
  · exact h.execGdispatch
  · exact h.execGreturn
  · exact h.execGarm
  · exact h.execGibgat
  · exact h.execGallreduce
  · exact h.execGreducescatter
  · exact h.execGallgather
  · exact h.execGalltoall
  · exact h.execGbarrier
  · exact h.execGjoin
  · exact h.execGbeacon
  · exact h.execGsync
  · exact h.execCp1Start
  · exact h.execOperationEnd
  · exact h.execRemoteRead
  · exact h.execRemoteWrite
  · exact h.execRemoteStoreAcknowledgement
  · exact h.execInboxReservation
  · exact h.execInboxGrant
  · exact h.execReservationRepeat
  · exact h.execTokenRow
  · exact h.execHeaderAcknowledgement
  · exact h.execVoidSlot
  · exact h.execDispatchTimeout
  · exact h.execFragment
  · exact h.execFailureNotice
  · exact h.execTripTimeout
  · exact h.execSlotCompletion
  · exact h.execGalIbcfg
  · exact h.execGalIbptr
  · exact h.execGalDirinv
  · exact h.execDirectoryInvalidationEnd
  · exact h.execCollectiveData
  · exact h.execJoinHash
  · exact h.execBeaconPeriod
  · exact h.execBeacon
  · exact h.execCollectiveTimeout
  · exact h.execFlit
  · exact h.execSeal
  · exact h.execSealGroupClose
  · exact h.execAckTimer
  · exact h.execReplay
  · exact h.execKeyExchange
  · exact h.execLossOfSignal
  · exact h.execRetrain
  · exact h.execRetrainEnd
  · exact h.execFailedPortRetry
  · exact h.execRouteTableRebuild
  · exact h.execRefresh
  · exact h.execScrub
  · exact h.execThermalReading
  · exact h.execStackRetrain
  · exact h.execChannelCopy
  · exact h.execFold
  · exact h.execNopCommand
  · exact h.execLaunch
  · exact h.execPersist
  · exact h.execPstop
  · exact h.execEnq
  · exact h.execWait
  · exact h.execFenceReread
  · exact h.execWaitTimeout
  · exact h.execSignal
  · exact h.execGdef
  · exact h.execGraphLaunch
  · exact h.execPatch
  · exact h.execReserve
  · exact h.execTileEnd
  · exact h.execCommandTimeout
  · exact h.execKill
  · exact h.execCommandReplay
  · exact h.execHoldReport
  · exact h.execOutcomeReport
  · exact h.execFeQtail
  · exact h.execFeQbase
  · exact h.execFeQctlAbort
  · exact h.execFeQctlSkip
  · exact h.execFeQctlResume
  · exact h.execFeWaitsnap
  · exact h.execFeTqpush
  · exact h.execEthernetFrame
  · exact h.execAutoNegotiation
  · exact h.execNeighborDiscovery
  · exact h.execEchoRequest
  · exact h.execLldpTimer
  · exact h.execHelloI
  · exact h.execFinishI
  · exact h.execHandshakeTimeout
  · exact h.execData
  · exact h.execAck
  · exact h.execClose
  · exact h.execProbe
  · exact h.execProbeTimer
  · exact h.execSessionIdle
  · exact h.execEzoriAckDelay
  · exact h.execRetransmissionTimeout
  · exact h.execRateUpdate
  · exact h.execWrite
  · exact h.execRead
  · exact h.execDoorbell
  · exact h.execMailboxSend
  · exact h.execMailboxAck
  · exact h.execEvent
  · exact h.execAttest
  · exact h.execLogRead
  · exact h.execFeatQuery
  · exact h.execFeatAccept
  · exact h.execMbData
  · exact h.execMbSend
  · exact h.execMbAck
  · exact h.execDbset
  · exact h.execDb
  · exact h.execDbMask
  · exact h.execPowerGood
  · exact h.execRestart
  · exact h.execRelease
  · exact h.execEntropyTestFailure
  · exact h.execDrbgReseed
  · exact h.execBypass
  · exact h.execIdcode
  · exact h.execSamplePreload
  · exact h.execExtest
  · exact h.execTapReset
  · exact h.execPowerFail
  · exact h.execRailRemoval
  · exact h.execOvervoltage
  · exact h.execLampGrant
  · exact h.execLampLineMove
  · exact h.execLampCfg
  · exact h.execLampDie
  · exact h.execJunctionTemperature
  · exact h.execInputPower
  · exact h.execDieCurrent
  · exact h.execThrottleStep
  · exact h.execSounding
  · exact h.execFatal
  · exact h.execModuleReset
  · exact h.execResetRelease
  · exact h.execRegisterWrite
  · exact h.execRemoteReadResponse
  · exact h.execMoverWriteFailure
  · exact h.execFoldMoveCompletion
  · exact h.execInputReturn
  · exact h.execThermtripLatchRelease
  · exact h.execReferenceClockReturn
  · exact h.execPtpSourceLoss
  · exact h.execGalleryOperationTimeout
  · exact h.execTripIdReuse
  · exact h.execJournalDeviceWriteEnd

theorem Keeps.fetchInstr {c} (h : Keeps σ s) : Keeps σ (fetchInstr s c).1 := by
  unfold Machine.fetchInstr
  split
  next e4 => exact h.prep.of e4
  next e4 =>
    dsimp only
    split
    · exact h.prep.of e4
    · split
      next e9 => exact ((h.prep.of e4).prep).of e9
      next e9 => exact Keeps.ite₁ ((((h.prep.of e4).prep).of e9).prep) (((h.prep.of e4).prep).of e9)

theorem Keeps.issueIllegal {c len} (h : Keeps σ s) : Keeps σ (issueIllegal c len s) :=
  h.issue (fun _ h1 => h1.done)

theorem Keeps.issueFunc10 {c n} (h : Keeps σ s) : Keeps σ (issueFunc10 c n s) := by
  unfold Machine.issueFunc10
  refine Keeps.issue h (fun u h1 => ?_)
  split
  · exact h1.hashFault
  · trivial

theorem Keeps.runBytes {c bs} (h : Keeps σ s) : Completes σ (runBytes c bs s) := by
  unfold Machine.runBytes
  split
  · exact h.exec
  · exact h.issueFunc10
  · exact h.issueIllegal

theorem Keeps.runCore {c} (h : Keeps σ s) : Completes σ (runCore c s) := by
  unfold Machine.runCore
  split
  · exact h
  · split
    · exact h.execInterrupt
    · split
      · exact h.addStall
      · split
        next e7 => exact (h.fetchInstr.of e7).issue (fun _ h1 => h1.done)
        next e7 =>
          split
          · exact h
          · exact (h.fetchInstr.of e7).runBytes

theorem Keeps.runCores {cs s} (h : Keeps σ s) : Completes σ (runCores cs s) := by
  induction cs generalizing s with
  | nil => exact h
  | cons c cs ih =>
    obtain ⟨u, e, hu⟩ := (h.runCore (c := c)).next_of
    simp only [Machine.runCores, e]
    exact ih hu

theorem Keeps.tileTick {t'} (h : Keeps σ s) : Keeps σ (tileTick s t') :=
  Keeps.ite ((Keeps.ite h.mtxTick h).completeRun) (Keeps.ite h.mtxTick h)

theorem Keeps.blockTick (h : Keeps σ s) : Completes σ (Machine.tick s) := by
  have ht : Keeps σ (Machine.tickStep s) := h.tickStep
  unfold Machine.tick
  dsimp only
  split
  · obtain ⟨u, e, hu⟩ := ((ht.foldl fun _ _ hu => hu.tileTick).runCores
      (cs := coresOf ((Machine.tickStep s).tiles.map (·.1) |>.foldl Machine.tileTick (Machine.tickStep s)))).next_of
    rw [e]
    exact hu.pumpAll
  · exact ht

theorem step_completes (s : State) : ∃ t, step s = .next t ∧ Keeps { s with pending := s.pending.tail } t := by
  have h : Keeps { s with pending := s.pending.tail } { s with pending := s.pending.tail } := Keeps.refl _
  unfold step
  split
  next e => exact (Keeps.frame (t := s) h (by simp only [kept, e, List.tail])).blockTick.next_of
  next i rest e =>
    rw [e] at h ⊢
    exact h.exec.next_of

/-! ### O45 and O47 to O49 -/

/-- Settles O45: `exec` completes in every state, since it completes from `s` to what keeps `s`. -/
theorem everyCommandCompletes : Obligations.EveryCommandCompletes := fun _ s =>
  let ⟨t, e, _⟩ := (Keeps.refl s).exec.next_of
  ⟨t, e⟩

/-- Settles O47, by evaluation of the reset state. -/
theorem resetMeetsInvariant : Obligations.ResetMeetsInvariant :=
  ⟨rfl, by decide, by decide, by decide⟩

/-- What `Keeps` says of memory, the rollback counter and the dies is what `Inv` asks. -/
theorem Keeps.inv (h : Keeps σ s) (hi : Inv σ) : Inv s := by
  obtain ⟨hm, hr, h0, h1⟩ := hi
  exact ⟨h.mem hm, (h.rollback hr).2, h.die0 h0, h.die1 h1⟩

/-- A step that answers `t` keeps, from the state without its front command. -/
theorem keeps_of_step (e : step s = .next t) : Keeps { s with pending := s.pending.tail } t := by
  obtain ⟨u, eu, h⟩ := step_completes s
  cases eu.symm.trans e
  exact h

/-- Settles O48: a step keeps memory's form, the counter's bound and the dies' VCOREs. -/
theorem stepKeepsInvariant : Obligations.StepKeepsInvariant := fun _ _ hi e => (keeps_of_step e).inv hi

/-- Settles O49: a step keeps the queue's rest, the serial number and the fuses. -/
theorem noCommandRestores : Obligations.NoCommandRestores := by
  intro s t hr e
  have h := keeps_of_step e
  exact ⟨h.pending, h.serial, (h.rollback hr).1, h.pin⟩

end Sys2Proof.Machine
end

/-! ### Mailboxes and doorbells (O41) -/

section
namespace Sys2Proof.Machine
open Sys2Proof

variable {s : State} {m : MbId}

theorem collide_full {x : Mailbox} (h : x.full = true) : collide x = { x with rcoll := true, scoll := true } := if_pos h

theorem collide_empty {x : Mailbox} (h : x.full = false) : collide x = x := if_neg (Bool.eq_false_iff.1 h)

/-- An update of a mailbox is one of its present contents. -/
theorem updMbox_congr {f g : Mailbox → Mailbox} (h : f (s.mbox m) = g (s.mbox m)) : s.updMbox m f = s.updMbox m g := by
  cases m with
  | hmb n => simp only [State.updMbox, h]
  | tmb t => simp only [State.updMbox, h]

/-- A content write takes the word, with the collision marked at a full mailbox (R576). -/
theorem mbDataWrite_eq (i : Nat) (v : Word) : mbDataWrite s m i v = s.updMbox m fun x =>
    if x.full = true then { x with rcoll := true, scoll := true, data := aset 0 x.data i v }
    else { x with data := aset 0 x.data i v } := by
  refine congrArg (s.updMbox m) (funext fun x => ?_)
  split
  next h => rw [collide_full h]
  next h => rw [collide_empty (Bool.eq_false_iff.2 h)]

/-- A send to a full mailbox only marks the collision. -/
theorem mbSendWrite_full (h : (s.mbox m).full = true) :
    mbSendWrite s m = s.updMbox m fun _ => { s.mbox m with rcoll := true, scoll := true } :=
  (if_pos h).trans (updMbox_congr (collide_full h))

theorem mbSendWrite_empty (h : (s.mbox m).full = false) :
    mbSendWrite s m = notifyReceiver (s.updMbox m fun x => { x with full := true }) m := if_neg (Bool.eq_false_iff.1 h)

theorem mbAckWrite_empty (code : BitVec 16) (h : (s.mbox m).full = false) : mbAckWrite s m code = s := by
  simp [mbAckWrite, h]

theorem mbAckWrite_full (code : BitVec 16) (h : (s.mbox m).full = true) : mbAckWrite s m code =
    let u := s.updMbox m fun x => { x with full := false, code := code, ackv := true }
    if (s.mbox m).ackv = true then u else notifySender u m := by
  simp [mbAckWrite, h]

/-- Settles O41: off, each command does nothing; running, it makes its register write. -/
theorem mailboxesAndDoorbells : Obligations.MailboxesAndDoorbells := by
  unfold Obligations.MailboxesAndDoorbells
  have on : ∀ {s u : State}, s.power = .run → feOn s u = u := fun h => if_pos h
  have off : ∀ {s u : State}, s.power ≠ .run → Host.Outcome.next (feOn s u) = (.next s : Result) := fun h => congrArg _ (if_neg h)
  refine ⟨fun s m i d v h => ⟨off h, off h, off h, off h, off h, off h⟩, fun s m i v h => ⟨?_,
    fun hf => ?_, fun hf => ?_, fun hf => ?_,
    fun hf => ?_⟩, fun s v h => ⟨fun t => ⟨?_, ?_, ?_⟩, ?_, ?_, ?_⟩⟩
  · exact congrArg _ ((on h).trans (mbDataWrite_eq i.val v))
  · exact congrArg _ ((on h).trans (mbSendWrite_full hf))
  · exact congrArg _ ((on h).trans (mbSendWrite_empty hf))
  · exact congrArg _ ((on h).trans (mbAckWrite_empty _ hf))
  · exact congrArg _ ((on h).trans (mbAckWrite_full _ hf))
  all_goals exact congrArg Host.Outcome.next (on h)

end Sys2Proof.Machine
end

/-! ### What is sealed opens (O53) -/

section
namespace Sys2Proof.Machine
open Sys2Proof

/-- A ciphertext is as long as its content. -/
theorem length_gcmStream {key : List Byte} (n bs : List Byte) (h : key.length = 32) : (gcmStream key n bs).length = bs.length :=
  (gcmStreamAt_twice _ n (roundKeys_last key h) bs.length 0 bs le_rfl).2

/-- A packet with another tag does not open. -/
theorem ezOpen_badTag {key salt : List Byte} {h : EzHeader} {ct tag : List Byte}
    (ht : tag ≠ gcmTag key (ezNonce salt h.pn.toNat) (ezHdrBytes h) ct) : ezOpen key salt h ct tag = none := if_neg ht.symm

/-- The header of a session's packet holds the packet number. -/
theorem ownHdr_pn {t p : Nat} {sid : BitVec 32} {n : Nat} (h : n < 2 ^ 64) : (ownHdr t p true sid n).pn.toNat = n :=
  (BitVec.toNat_ofNat n 64).trans (Nat.mod_eq_of_lt h)

/-- Settles O53: the stream cipher is its own inverse, and the tag is the one that `ezOpen` asks for. -/
theorem sealedPacketsOpen : Obligations.SealedPacketsOpen := by
  unfold Obligations.SealedPacketsOpen
  refine ⟨fun key salt h bs hk => ⟨ezOpen_sealed key salt h bs hk, length_gcmStream _ bs hk, fun tag ht => ezOpen_badTag ht⟩,
    fun s i p t dst bs hk hpn => ?_⟩
  have hn := ownHdr_pn (t := t) (p := p) (sid := (s.sess i).hsid) hpn
  have ho := ezOpen_sealed (s.sess i).txKey (s.sess i).txSalt (ownHdr t p true (s.sess i).hsid (s.sess i).txPn) bs hk
  rw [hn] at ho
  exact ⟨ho, hn, rfl⟩

end Sys2Proof.Machine
end

/-! ### Power, reset, release and the test access port (O42) -/

section
namespace Sys2Proof.Machine
open Sys2Proof

variable {s : State}

/-! #### What a loss of power leaves -/

/-- The owner slots after a release that is cut short: unchanged without one, and in any case with every pin bit and every slot but
the one in force and the next as they were (R626, log 70). -/
def CutOwners (s : State) (o : SMap OwnerSlot) : Prop :=
  let c := (slotInForce s).getD 0
  (s.sec.relBusy = none → o = s.sec.owners) ∧
  (∀ j, j ≠ c → nextSlot s c ≠ some j → aget {} o j = aget {} s.sec.owners j) ∧
  ∀ j, (aget {} o j).pin = (aget {} s.sec.owners j).pin

theorem CutOwners.refl (s : State) : CutOwners s s.sec.owners := ⟨fun _ => rfl, fun _ _ _ => rfl, fun _ => rfl⟩

/-- A release in progress that writes the digest of the next slot. -/
theorem CutOwners.digest {i : Nat} {x : OwnerSlot} (hb : s.sec.relBusy ≠ none) (hi : nextSlot s ((slotInForce s).getD 0) = some i)
    (hx : x.pin = (aget {} s.sec.owners i).pin) : CutOwners s (aput s.sec.owners i x) := by
  refine ⟨fun h => absurd h hb, fun j _ hj => ?_, pin_aput hx⟩
  rw [aget_aput, if_neg]
  rintro rfl
  exact hj hi

/-- A release in progress that writes the rel bit of the slot in force as well. -/
theorem CutOwners.rel {i : Nat} {x y : OwnerSlot} (hb : s.sec.relBusy ≠ none) (hi : nextSlot s ((slotInForce s).getD 0) = some i)
    (hx : x.pin = (aget {} s.sec.owners i).pin) (hy : y.pin = (aget {} s.sec.owners ((slotInForce s).getD 0)).pin) :
    CutOwners s (aput (aput s.sec.owners i x) ((slotInForce s).getD 0) y) := by
  obtain ⟨_, hd, _⟩ := CutOwners.digest hb hi hx
  refine ⟨fun h => absurd h hb, fun j hc hj => ?_, pin_aput_aput hx hy⟩
  rw [aget_aput, if_neg hc]
  exact hd j hc hj

/-- A release that is cut short changes the owner slots, and uses a free word. -/
theorem cutRelease_spec (s : State) :
    ∃ f o, cutRelease s = { s with free := f, sec := { s.sec with owners := o } } ∧ CutOwners s o := by
  unfold cutRelease
  split
  · exact ⟨s.free, _, rfl, CutOwners.refl s⟩
  next a hb =>
    have hb : s.sec.relBusy ≠ none := by rw [hb]; exact Option.some_ne_none a
    dsimp only
    split
    next b i _ hi =>
      split
      · refine ⟨_, _, rfl, ?_⟩
        split
        · exact CutOwners.rel hb hi rfl rfl
        · exact CutOwners.digest hb hi rfl
      · exact ⟨_, _, rfl, CutOwners.refl s⟩
    · exact ⟨_, _, rfl, CutOwners.refl s⟩

/-- A journal write that is cut short ends in the journal or not at all. -/
theorem cutWrite_spec (s : State) : ∃ f st, cutWrite s = { s with free := f, start := st } := by
  unfold cutWrite
  dsimp only
  split
  · exact ⟨_, _, rfl⟩
  · split
    · exact ⟨_, _, rfl⟩
    · split
      · exact ⟨_, _, rfl⟩
      · exact ⟨_, _, rfl⟩

/-- What a loss of power leaves and loses (R640, R702). -/
theorem lostState_spec (s : State) (ph : PowerPhase) :
    let k := lostState s ph
    k.power = ph ∧ k.mem = [] ∧ k.tiles = [] ∧ k.pending = s.pending ∧ k.sec.rollback = s.sec.rollback ∧
    CutOwners s k.sec.owners ∧ k.start.j0 = s.start.j0 ∧ k.start.j1 = s.start.j1 ∧ k.pins.thermtrip = s.pins.thermtrip := by
  obtain ⟨f, o, e, ho⟩ := cutRelease_spec s
  unfold lostState
  rw [e]
  exact ⟨rfl, rfl, rfl, rfl, rfl, ho, rfl, rfl, rfl⟩

/-! #### Power and RESET_N -/

/-- RESET_N holds a module with rails, whatever its journal writes. -/
theorem exec_moduleReset_up (h : s.power = .run ∨ s.power = .fatal ∨ s.power = .startFailed) :
    ∃ u, exec .moduleReset s = .next u ∧ u.power = .held ∧ u.pins.reset = true ∧ u.mem = [] ∧ u.pending = s.pending ∧
      (s.sec.relBusy = none → u.sec.owners = s.sec.owners) ∧ u.sec.rollback = s.sec.rollback := by
  obtain ⟨f, st, e⟩ := cutWrite_spec { s with pins := { s.pins with reset := true } }
  obtain ⟨hp, hm, _, hq, hr, ⟨ho, _⟩, _⟩ :=
    lostState_spec { s with pins := { s.pins with reset := true }, free := f, start := st } .held
  refine ⟨{ lostState (cutWrite { s with pins := { s.pins with reset := true } }) .held with
    pins := { s.pins with reset := true, bootfail := false, ready := false, extest := s.pins.tap = .extest } }, ?_, ?_⟩
  · rcases h with h | h | h <;> simp only [exec, execModuleReset, h]
  · rw [e]
    exact ⟨hp, rfl, hm, hq, ho, hr⟩

/-! #### The release and the boundary register -/

/-- A record outside module memory cannot be read. -/
theorem releaseRun_unread {a : Word} {ok : Bool} (h : memTop s < 8 * wfld a 3 37 + 64) :
    releaseRun s a ok = { s with sec := { s.sec with relBusy := none, relCode := 1 } } := by
  have hr : releaseRecord s (8 * wfld a 3 37) = (s, none) := if_neg (Nat.not_le.2 h)
  unfold releaseRun
  rw [hr]
  rfl

theorem testBit_threeBits : ∀ a b c : Bool, let n := b2n a + 2 * b2n b + 4 * b2n c
    n.testBit 0 = a ∧ n.testBit 1 = b ∧ n.testBit 2 = c := by decide

/-- The word of the boundary register: the captured pins below, the three outputs above. -/
theorem sampled_bits (pins : BitVec 31) (a b c : Bool) :
    let u := BitVec.ofNat 31 (pins.toNat % 2 ^ 28 + (b2n a + 2 * b2n b + 4 * b2n c) * 2 ^ 28)
    (∀ k < 28, u.getLsbD k = pins.getLsbD k) ∧ u.getLsbD 28 = a ∧ u.getLsbD 29 = b ∧ u.getLsbD 30 = c := by
  have hbit : ∀ k, k < 31 → (BitVec.ofNat 31 (pins.toNat % 2 ^ 28 + (b2n a + 2 * b2n b + 4 * b2n c) * 2 ^ 28)).getLsbD k =
      if k < 28 then (pins.toNat % 2 ^ 28).testBit k else (b2n a + 2 * b2n b + 4 * b2n c).testBit (k - 28) := by
    intro k hk
    rw [BitVec.getLsbD_ofNat, decide_eq_true hk, Bool.true_and, Nat.add_comm, Nat.mul_comm,
      Nat.testBit_two_pow_mul_add _ (Nat.mod_lt _ (by decide))]
  obtain ⟨h0, h1, h2⟩ := testBit_threeBits a b c
  refine ⟨fun k hk => ?_, ?_, ?_, ?_⟩
  · rw [hbit k (by omega), if_pos hk, Nat.testBit_mod_two_pow, decide_eq_true hk, Bool.true_and]
    rfl
  · exact (hbit 28 (by decide)).trans h0
  · exact (hbit 29 (by decide)).trans h1
  · exact (hbit 30 (by decide)).trans h2

/-! #### O42 -/

/-- A command of which the guard holds. -/
theorem next_pos {p : Prop} [Decidable p] {a b : State} (h : p) : (.next (if p then a else b) : Result) = .next a :=
  congrArg _ (if_pos h)

/-- A command of which the guard fails. -/
theorem next_neg {p : Prop} [Decidable p] {a b : State} (h : ¬ p) : (.next (if p then a else b) : Result) = .next b :=
  congrArg _ (if_neg h)

/-- Power-fail has no effect without rails, and in power-fail. -/
theorem exec_powerFail_down (h : s.power = .off ∨ s.power = .failing) : exec .powerFail s = .next s :=
  next_pos (by simpa using h)

theorem exec_powerFail_up (h : s.power ≠ .off) (h' : s.power ≠ .failing) : exec .powerFail s = .next
    { s with power := .failing, lamp := { s.lamp with stopped := true }, pins := { s.pins with ready := false } } :=
  next_neg (by simpa using ⟨h, h'⟩)

/-- RESET_N at a module without rails, or in power-fail. -/
theorem exec_moduleReset_down (h : s.power = .off ∨ s.power = .failing) :
    exec .moduleReset s = .next { s with pins := { s.pins with reset := true } } := by
  rcases h with h | h <;> simp only [exec, execModuleReset, h]

theorem exec_moduleReset_held (h : s.power = .held) : exec .moduleReset s = .next s := by
  simp only [exec, execModuleReset, h]

/-- A start from a return of the input, with neither the latch set nor RESET_N asserted. -/
theorem exec_inputReturn_starts {r : StartResult} (h : s.power = .failing) (ht : s.pins.thermtrip = false)
    (hr : s.pins.reset = false) : exec (.inputReturn r) s = .next (startSeq (lostState s .off) r none) := by
  have hk : (lostState s .off).pins.thermtrip = false ∧ (lostState s .off).pins.reset = false := by
    obtain ⟨f, o, e, _⟩ := cutRelease_spec s
    unfold lostState
    rw [e]
    exact ⟨ht, hr⟩
  have hs : startUp (lostState s .off) r = startSeq (lostState s .off) r none := by
    unfold startUp
    rw [if_neg (by rw [hk.1]; decide), if_neg (by rw [hk.2]; decide)]
  exact (next_pos h).trans (congrArg _ hs)

/-- Settles O42: each command by its guards, what a loss of power leaves by `lostState_spec`. -/
theorem powerAndSecurity : Obligations.PowerAndSecurity := by
  unfold Obligations.PowerAndSecurity
  refine ⟨fun s r => ⟨next_neg, next_pos, next_neg, next_pos, exec_powerFail_down, exec_powerFail_up,
      fun h => ⟨next_neg h, next_neg h⟩, fun h => ⟨next_pos h, exec_inputReturn_starts h⟩, fun h => ⟨next_pos h, next_pos h⟩,
      fun h => ⟨next_neg h, next_neg h⟩, exec_moduleReset_down, exec_moduleReset_held, exec_moduleReset_up, fun h => ?_, fun h => ?_,
      fun ph => ?_⟩,
    fun s => ⟨fun h => ⟨next_pos h, next_pos h, fun a ok => next_pos h⟩,
      fun h => ⟨⟨fun hf => ?_, fun hf => ?_⟩, next_neg (not_not.2 h), fun a ok => ?_⟩⟩,
    fun s pins pre => ⟨fun h => ?_, fun h => ?_⟩⟩
  · exact next_pos (by rw [h]; rfl)
  · exact next_neg (by rw [h]; decide)
  · obtain ⟨hp, hm, ht, hq, hr, ⟨hn, hj, hpin⟩, h0, h1, hl⟩ := lostState_spec s ph
    exact ⟨hp, hm, ht, hq, hr, hn, hj, hpin, h0, h1, hl⟩
  · exact (next_neg (not_not.2 h)).trans (next_neg (Nat.not_le.2 hf))
  · exact (next_neg (not_not.2 h)).trans (next_pos hf)
  · have hw : exec (.release a ok) s = .next (releaseRun s (s.sec.relBusy.getD a) ok) := by
      refine (next_neg (not_not.2 h)).trans ?_
      cases s.sec.relBusy <;> rfl
    exact ⟨hw, fun hm => hw.trans (congrArg _ (releaseRun_unread hm))⟩
  · have ht : ¬ tapOn s = true := by simp [tapOn, h]
    exact ⟨next_neg ht, next_neg ht, next_neg ht, next_neg ht, next_neg ht⟩
  · have ht : tapOn s = true := by simp [tapOn, h]
    exact ⟨next_pos ht, next_pos ht, next_pos ht, next_pos ht, _, next_pos ht, sampled_bits pins _ _ _⟩

end Sys2Proof.Machine
end

/-! ### Stacked memory's own events (O34) -/

section
namespace Sys2Proof.Machine
open Sys2Proof

variable {s : State}

/-! #### Scrub -/

/-- What stands in a table after a write stood there before, or is what was written. -/
theorem mem_of_mem_aput {α : Type} {m : SMap α} {i : Nat} {v : α} {p : Nat × α} (h : p ∈ aput m i v) : p = (i, v) ∨ p ∈ m := by
  induction m with
  | nil => exact Or.inl (List.mem_singleton.1 h)
  | cons q m ih =>
    unfold aput at h
    split_ifs at h
    · exact List.mem_cons.1 h
    · exact (List.mem_cons.1 h).imp_right (List.mem_cons_of_mem _)
    · rcases List.mem_cons.1 h with rfl | h
      · exact Or.inr List.mem_cons_self
      · exact (ih h).imp_right (List.mem_cons_of_mem _)

/-- The struck pins of a burst that is written in full are none, and those of another burst stay. -/
theorem aget_cleared (m : SMap PinErr) (u j : Nat) :
    aget [] (if aget [] m u = [] then m else adel m u) j = if j = u then [] else aget [] m j := by
  by_cases h : j = u
  · rw [if_pos h, h]
    split
    next hm => exact hm
    · exact aget_adel_self _ _ _
  · rw [if_neg h]
    split
    · rfl
    · exact aget_adel_ne _ _ _ _ h

/-- A line that is written in full is clean. -/
theorem lineHealth_clearErrs (s : State) (l : Nat) : lineHealth (clearErrs s l) l = .clean := by
  have h0 : burstErr (clearErrs s l) (2 * l) = [] :=
    (aget_cleared _ (2 * l + 1) (2 * l)).trans ((if_neg (by omega)).trans ((aget_cleared _ _ _).trans (if_pos rfl)))
  have h1 : burstErr (clearErrs s l) (2 * l + 1) = [] := (aget_cleared _ _ _).trans (if_pos rfl)
  unfold lineHealth
  simp only [burstsOf, List.map, h0, h1]
  decide

/-- An uncorrectable line is counted, logged and sounded. -/
theorem restoreLine_uncorrectable {p : Place} {l : Nat} (h : lineHealth s l = .uncorrectable) : restoreLine s p l =
    requestSound (contError (s.updStack p.stack fun k => { k with uncorr := sat32 k.uncorr 1 }) (srcStack p.stack) 0x03 (l * 128))
      (rowOf p) := by
  simp only [restoreLine, h]

/-- Any other line is read and written as corrected. -/
theorem restoreLine_corrected {p : Place} {l : Nat} (h : lineHealth s l ≠ .uncorrectable) :
    restoreLine s p l = clearErrs (readBursts s p l) l := by
  unfold restoreLine
  split
  · contradiction
  · rfl

theorem exec_scrub (hp : s.power = .run) (l : Nat) (err : LineErr) :
    exec (.scrub l err) s = .next (scrubLine (strikeLine s l err) l) := congrArg _ (if_pos hp)

/-- A line out of service is not scrubbed. -/
theorem scrubLine_out {l : Nat} (h : lineErr s l ≠ none) : scrubLine s l = s := by
  unfold scrubLine
  split
  next e _ => exact absurd e h
  · rfl

/-- A line that a slice holds is served from the slice. -/
theorem scrubLine_held {l : Nat} {p : Place} {e : SliceLine} (hp : place s (l * 128) = some p) (hl : lineErr s l = none)
    (he : sliceLine s p l = some e) : scrubLine s l =
      if e.bad then contError (requestSound s (wayOf p e.way)) (srcStack p.stack) 0x03 (l * 128) else s := by
  simp only [scrubLine, hp, hl, he, noteUncorr]

/-- A line that no slice holds is restored. -/
theorem scrubLine_unheld {l : Nat} {p : Place} (hp : place s (l * 128) = some p) (hl : lineErr s l = none)
    (he : sliceLine s p l = none) : scrubLine s l = restoreLine s p l := by
  simp only [scrubLine, hp, hl, he]

/-! #### Bands -/

theorem nextBand_critical {t : Nat} (h : 105 < t) (b : Band) : nextBand b t = .critical := if_pos h

theorem nextBand_stays (t : Nat) : nextBand .critical t = .critical := by
  unfold nextBand
  split <;> rfl

/-- Above 95 every stack that is not Critical is Hot. -/
theorem nextBand_hot {t : Nat} (h : t ≤ 105) (h' : 95 < t) {b : Band} (hb : b ≠ .critical) : nextBand b t = .hot := by
  unfold nextBand
  rw [if_neg (Nat.not_lt.2 h)]
  cases b with
  | critical => exact absurd rfl hb
  | normal => exact if_pos h'
  | warm => exact if_pos h'
  | hot => exact (if_neg (by omega)).trans (if_neg (by omega))

/-- Up to 95 each band has its own bounds (R491). -/
theorem nextBand_cool {t : Nat} (h : t ≤ 95) : nextBand .normal t = (if 85 < t then .warm else .normal) ∧
    nextBand .warm t = (if t ≤ 82 then .normal else .warm) ∧
    nextBand .hot t = (if 92 < t then .hot else if 82 < t then .warm else .normal) := by
  unfold nextBand
  simp only [if_neg (show ¬ 105 < t by omega), if_neg (show ¬ 95 < t by omega), true_and]
  rcases Nat.lt_or_ge 92 t with h2 | h2
  · rw [if_pos h2, if_neg (by omega), if_neg (by omega)]
  · rw [if_neg (Nat.not_lt.2 h2), if_pos h2]
    rcases Nat.lt_or_ge 82 t with h3 | h3
    · rw [if_pos h3, if_neg (Nat.not_le.2 h3)]
    · rw [if_neg (Nat.not_lt.2 h3), if_pos h3]

/-! #### Folds -/

/-- What leaves with the memory above the top. -/
def belowTop (s : State) : State := { s with
  mem := s.mem.filter fun c => decide (c.1 < memTop s)
  errs := s.errs.filter fun (p : Nat × PinErr) => decide (p.1 < memTop s / 64)
  memStacks := s.memStacks.map fun (p : Nat × Stack) => (p.1, dropLines (memTop s / 128) p.2) }

/-- The memory that a fold takes out of service, and its place in the table of folds. -/
def foldTaken (s : State) (k ch : Nat) : State := { s with
  memMib := s.memMib - 384
  rep := { s.rep with folds := s.rep.folds ++ [(k, ch)], foldDue := s.rep.foldDue.filter (· ≠ (k, ch)) } }

/-- A fold takes 384 MiB out of service, loses what stood there, and begins its move. -/
theorem foldStart_eq (s : State) (k ch : Nat) : foldStart s k ch =
    (belowTop (foldTaken (lostStruct s (srcStack k) (chanId k (physChan s k ch)) 0x08 k ch s.rep.folds.length) k ch)).updStack k
      fun x => { x with copy := some (.fold ch), chan := x.chan - 1 } := rfl

/-- Nothing stands at or above the top of memory. -/
def BelowTop (s : State) : Prop :=
  (∀ c ∈ s.mem, c.1 < memTop s) ∧ (∀ p ∈ s.errs, p.1 < memTop s / 64) ∧
  ∀ q ∈ s.memStacks, ∀ sl ∈ q.2.slices, ∀ r ∈ sl.2.sets, ∀ e ∈ r.2, e.line < memTop s / 128

/-- A stack without the lines from `l` on holds none of them. -/
theorem line_lt_of_dropLines {l : Nat} {x : Stack} {sl : Nat × Slice} (hs : sl ∈ (dropLines l x).slices) {r : Nat × List SliceLine}
    (hr : r ∈ sl.2.sets) {e : SliceLine} (he : e ∈ r.2) : e.line < l := by
  obtain ⟨q, _, rfl⟩ := List.mem_map.1 hs
  obtain ⟨w, _, rfl⟩ := List.mem_map.1 hr
  exact of_decide_eq_true (List.mem_filter.1 he).2

theorem belowTop_spec (s : State) : BelowTop (belowTop s) := by
  refine ⟨fun c hc => of_decide_eq_true (List.mem_filter.1 hc).2, fun p hp => of_decide_eq_true (List.mem_filter.1 hp).2,
    fun q hq sl hs r hr e he => ?_⟩
  obtain ⟨p, _, rfl⟩ := List.mem_map.1 hq
  exact line_lt_of_dropLines hs hr he

/-- What a fold leaves (R497): 384 MiB less, and nothing at or above the new top. -/
theorem foldStart_spec (s : State) (k ch : Nat) : let u := foldStart s k ch
    u.memMib = (lostStruct s (srcStack k) (chanId k (physChan s k ch)) 0x08 k ch s.rep.folds.length).memMib - 384 ∧
    (∀ c ∈ u.mem, c.1 < memTop u) ∧ (∀ p ∈ u.errs, p.1 < memTop u / 64) ∧ (u.stack k).copy = some (.fold ch) ∧
    ∀ q ∈ u.memStacks, q.1 ≠ k → ∀ sl ∈ q.2.slices, ∀ r ∈ sl.2.sets, ∀ e ∈ r.2, e.line < memTop u / 128 := by
  rw [foldStart_eq]
  generalize hu : foldTaken _ k ch = u
  obtain ⟨hm, he, hk⟩ := belowTop_spec u
  refine ⟨?_, hm, he, ?_, fun q hq hne => ?_⟩
  · rw [State.updStack_memMib, ← hu]
    rfl
  · rw [State.stack_updStack, if_pos rfl]
  · rcases mem_of_mem_aput hq with rfl | hq
    · exact absurd rfl hne
    · exact hk q hq

/-! #### Readings, copies and O34 -/

/-- A reading up to 115 sets the band, and then what a Critical stack does (R491 to R493). -/
theorem thermal_eq {k t : Nat} (ht : t < 256) (h : t ≤ 115) : thermal s k t =
    let b := nextBand (s.stack k).band t
    let u := setBand (s.updStack k fun x => { x with temp := t }) k b t
    if b ≠ .critical then u
    else if !(s.stack k).stopped then sendFails (u.updStack k fun x => { x with stopped := true, retraining := false })
    else u.updStack k fun x => { x with retraining := if 105 < t then false else if t ≤ 102 then true else x.retraining } := by
  unfold thermal
  rw [Nat.mod_eq_of_lt ht]
  exact if_neg (Nat.not_lt.2 h)

/-- A reading above 115 is fatal. -/
theorem thermal_fatal {k t : Nat} (ht : t < 256) (h : 115 < t) :
    thermal s k t = goFatal (s.updStack k fun x => { x with temp := t }) fStackHeat := by
  unfold thermal
  rw [Nat.mod_eq_of_lt ht]
  exact if_pos h

/-- Settles O34: the bands by their bounds, each command by its cases, the fold by what it leaves. -/
theorem stackedMemory : Obligations.StackedMemory := by
  unfold Obligations.StackedMemory
  refine ⟨fun t => ⟨nextBand_critical, nextBand_stays t, fun h => ⟨fun h' b hb => nextBand_hot h h' hb, nextBand_cool⟩⟩,
    fun s k hp => ⟨fun ch bank => ⟨fun h => next_pos (by simp [hp, h]), fun h => next_neg (by simp [h])⟩, fun l err p => ?scrub,
      fun t ht => ?reading, fun h => ?_, fun h h' => ?_, fun h => ?_, fun ch j h => ?_, fun ch h => ?_,
      fun ch => ⟨fun h => ?_, fun hd hc hl => ?_⟩⟩⟩
  case scrub =>
    have hr := exec_scrub hp l err
    intro u r
    refine ⟨fun h => hr.trans (congrArg _ (scrubLine_out h)), fun hpl hle =>
      ⟨fun e he => ⟨fun hb => ?_, fun hb => ?_⟩, fun he => ⟨fun hh => ?_, fun hh => ?_⟩⟩⟩
    · exact hr.trans (congrArg _ ((scrubLine_held hpl hle he).trans (if_neg (by rw [hb]; decide))))
    · exact hr.trans (congrArg _ ((scrubLine_held hpl hle he).trans (if_pos hb)))
    · exact hr.trans (congrArg _ ((scrubLine_unheld hpl hle he).trans (restoreLine_uncorrectable hh)))
    · exact ⟨_, hr.trans (congrArg _ ((scrubLine_unheld hpl hle he).trans (restoreLine_corrected hh))), rfl, lineHealth_clearErrs _ l⟩
  case reading =>
    have hr : exec (.thermalReading k t) s = .next (thermal s k.val t) := next_pos hp
    intro u b
    refine ⟨fun h => hr.trans (congrArg _ (thermal_fatal ht h)), fun h hb => ?_, fun h hb hs => ?_, fun h hb hs => ?_⟩
    all_goals refine hr.trans (congrArg _ ((thermal_eq ht h).trans ?_))
    · exact if_pos hb
    · exact (if_neg (not_not.2 hb)).trans (if_pos (by rw [hs]; rfl))
    · exact (if_neg (not_not.2 hb)).trans (if_neg (by rw [hs]; decide))
  · exact next_neg (by rcases h with h | h <;> simp [h])
  · exact next_pos (by simp [hp, h, h'])
  · simp only [exec, execChannelCopy, execFoldMoveCompletion, h, and_self]
  · simp only [exec, execChannelCopy, execFoldMoveCompletion, h, hp, if_true, true_and]
    rfl
  · simp only [exec, execChannelCopy, execFoldMoveCompletion, h, hp, if_true, true_and]
  · exact next_neg (by simp [hp]; tauto)
  · exact ⟨_, next_pos (by simp [hp, hd, hc, hl]), foldStart_spec s k.val ch.val⟩

end Sys2Proof.Machine
end

/-! ### Commands of a ring (O36) -/

section
namespace Sys2Proof.Machine
open Sys2Proof

variable {s : State}

/-! #### The record at the head -/

/-- A queue has a command ready (R503). -/
theorem cmdReady_iff {x : FeQueue} : cmdReady x = true ↔
    x.state = .idle ∧ x.cmd = none ∧ x.replay = none ∧ x.en = true ∧ x.head ≠ x.tail := by
  simp [cmdReady, and_assoc]

/-- A normal queue does not give way when no real-time queue of its core is ready (R502). -/
theorem rtFirst_eq_false_iff {q : Nat} : rtFirst s q = false ↔
    (8 ≤ q → ∀ p ∈ s.fe.queues, p.1 < 8 → Config.feCore p.1 = Config.feCore q → ¬ cmdReady p.2 = true) := by
  simp only [rtFirst, Bool.and_eq_false_imp, decide_eq_true_eq, List.any_eq_false, Bool.and_eq_true, not_and]
  exact forall_congr' fun _ => forall₂_congr fun p _ => ⟨fun h h8 hc hr => h ⟨h8, hr⟩ hc, fun h hr hc => h hr.1 hc hr.2⟩

/-- The state in which a row acts. -/
def RowReady (s : State) (q : Nat) : Prop := s.power = .run ∧ cmdReady (s.queue q) = true ∧ rtFirst s q = false

theorem not_rowReady {q : Nat} (h : ¬ RowReady s q) (op : Nat) : startRow op q s = s := by
  refine if_pos ?_
  by_contra hn
  simp only [ne_eq, Bool.or_eq_true, not_or, decide_eq_true_eq, not_not, Bool.not_eq_true', Bool.not_eq_false] at hn
  exact h ⟨hn.1.1, hn.1.2, Bool.eq_false_iff.2 hn.2⟩

theorem startRow_ready {q : Nat} (h : RowReady s q) (op : Nat) : startRow op q s =
    let x := s.queue q
    let a := x.base + 64 * x.head
    let c : Cmd :=
      { bytes := List.replicate 64 0, addr := a, seq := 0, start := s.mono, limit := x.dtmo.toNat * 1000, feat := s.start.featAct }
    match memRead s a 64 with
    | (s', .ok bs) =>
      if recOp bs ≠ op && (recMasks (recOp bs)).isSome then s
      else startCmd s' q { c with bytes := bs, limit := recLimit x.dtmo.toNat bs }
    | (s', .error (e, at_)) =>
      let s' := match e with | .uncorr _ => contError s' (srcFe q) 0x02 at_ | _ => s'
      failNow (setCmd s' q c .running) q (feWriteFail fRing e) := by
  obtain ⟨hp, hc, hr⟩ := h
  exact if_neg (by simp [hp, hc, hr])

/-- A record of the row's opcode, or of an opcode without a row, begins. -/
theorem startRow_begins {op q : Nat} {s' : State} {bs : List Byte} (h : RowReady s q)
    (hm : memRead s ((s.queue q).base + 64 * (s.queue q).head) 64 = (s', .ok bs)) (ho : recOp bs = op ∨ recMasks (recOp bs) = none) :
    startRow op q s = startCmd s' q
      { bytes := bs, addr := (s.queue q).base + 64 * (s.queue q).head, seq := 0, start := s.mono
        limit := recLimit (s.queue q).dtmo.toNat bs, feat := s.start.featAct } := by
  rw [startRow_ready h]
  dsimp only
  rw [hm]
  refine if_neg ?_
  rcases ho with ho | ho <;> simp [ho]

/-- A record of another row's opcode is left to its row. -/
theorem startRow_other {op q : Nat} {s' : State} {bs : List Byte} (h : RowReady s q)
    (hm : memRead s ((s.queue q).base + 64 * (s.queue q).head) 64 = (s', .ok bs)) (ho : recOp bs ≠ op)
    (hl : recMasks (recOp bs) ≠ none) : startRow op q s = s := by
  rw [startRow_ready h]
  dsimp only
  rw [hm]
  exact if_pos (by simpa [ho] using Option.isSome_iff_ne_none.2 hl)

/-- A record that lies nowhere fails with RING. -/
theorem startRow_bus {op q a : Nat} {s' : State} (h : RowReady s q)
    (hm : memRead s ((s.queue q).base + 64 * (s.queue q).head) 64 = (s', .error (.bus, a))) :
    startRow op q s = failNow (setCmd s' q
      { bytes := List.replicate 64 0, addr := (s.queue q).base + 64 * (s.queue q).head, seq := 0, start := s.mono
        limit := (s.queue q).dtmo.toNat * 1000, feat := s.start.featAct } .running) q { code := 2 } := by
  rw [startRow_ready h]
  dsimp only
  rw [hm]
  rfl

/-! #### A record begins -/

variable {q : Nat} {c : Cmd}

/-- The state in which a command's record begins, and the command. -/
def begun (s : State) (q : Nat) (c : Cmd) : State :=
  setCmd { s with fe := { s.fe with nextSeq := s.fe.nextSeq + 1 } } q { c with seq := s.fe.nextSeq } .running

def placed (s : State) (c : Cmd) : Cmd := { c with seq := s.fe.nextSeq }

theorem startCmd_fails {w : State} {f : Fail} (h : opBegin (begun s q c) q (placed s c) = (w, .fail f)) :
    startCmd s q c = feSettle (failNow w q f) := by
  change feSettle (applyOut outSteps (opBegin (begun s q c) q (placed s c)).1 q (placed s c) (opBegin (begun s q c) q (placed s c)).2) = _
  rw [h]
  rfl

theorem startCmd_keeps {w : State} {d : Cmd} {st : QState} (h : opBegin (begun s q c) q (placed s c) = (w, .keep d st)) :
    startCmd s q c = feSettle (setCmd w q d st) := by
  change feSettle (applyOut outSteps (opBegin (begun s q c) q (placed s c)).1 q (placed s c) (opBegin (begun s q c) q (placed s c)).2) = _
  rw [h]
  rfl

theorem startCmd_ends {w : State} (hs : c.sub = []) (h : opBegin (begun s q c) q (placed s c) = (w, .done)) :
    startCmd s q c = feSettle (endDone w q (placed s c)) := by
  change feSettle (applyOut outSteps (opBegin (begun s q c) q (placed s c)).1 q (placed s c) (opBegin (begun s q c) q (placed s c)).2) = _
  rw [h]
  exact congrArg feSettle (if_pos hs)

/-- What a record of a listed opcode without a fault in it comes to (R511). -/
theorem opBegin_malformed {o : Nat} (h : recErr c.feat c.record = some o) : opBegin s q c = (s, .fail (fDesc o)) := by
  simp only [opBegin, h]

section Begins

variable (he : recErr c.feat c.record = none)
include he

theorem opBegin_nop (ho : c.op = 0) : opBegin s q c = (s, .done) := by simp only [opBegin, he, ho]

theorem opBegin_launch {w : State} {k : Kernel} (ho : c.op = 1 ∨ c.op = 2) (hk : launchKernel s q c.record = (w, .ok k)) :
    opBegin s q c = (w, .keep { c with kern := some k } .waiting) := by
  rcases ho with ho | ho <;> simp only [opBegin, he, ho, hk]

theorem opBegin_pstop (ho : c.op = 3) (hs : setOk (recSet c.record) false = true) (hu : setOut s (recSet c.record) = none) :
    let ts := (setTiles (recSet c.record)).filter fun t => (s.feTile t).state = .persistent
    opBegin s q c = (ts.foldl (fun s t => wakeCheck (askDrain s t) t) s,
      .keep { c with phase := .running, failAt := s.mono, ready := ts } .running) := by
  simp [opBegin, he, ho, pstopRun, hs, hu]

theorem opBegin_enq {w : State} {ws : List Word} (ho : c.op = 4)
    (hw : relocWords s q (BitVec.ofNat 64 (wfld (blkWord c.record 0x10) 8 4)) 0x20 0 (wordsOf ((c.record.drop 0x20).take 32)) =
      (w, .ok ws)) : opBegin s q c = (w, .keep { c with body := bytesOf ws } .waiting) := by
  simp only [opBegin, he, ho, enqRun, hw]

theorem opBegin_wait {w y : State} {f v : Word} (ho : c.op = 5) (hf : fenceRef s q c.record rightR = (w, .ok f))
    (hv : readFence w q { c with ref := f, phase := .watching } = (y, .ok v)) : opBegin s q c =
      if (blkWord c.record 0x18).toNat ≤ v.toNat then (y, .done)
      else (y, .keep { c with ref := f, phase := .watching, fv := v } .inWait) := by
  simp only [opBegin, he, ho, hf, hv, fenceMet, decide_eq_true_eq]
  rfl

theorem opBegin_signal {w y : State} {f : Word} (ho : c.op = 6) (hf : fenceRef s q c.record rightW = (w, .ok f))
    (hg : inGraphRegion w f.toNat 8 = false)
    (hw : (if wbit (blkWord c.record 0x20) 0 then busAdd w none f.toNat 8 (blkWord c.record 0x18).toNat
      else busWrite w none f.toNat (toBytes 8 (blkWord c.record 0x18).toNat)) = (y, none)) : opBegin s q c = (y, .done) := by
  simp [opBegin, he, ho, signalRun, hf, hg, hw]

theorem opBegin_gdef_undefine (ho : c.op = 7) (hr : (s.graph (wfld (blkWord c.record 0x10) 0 8)).run = 0)
    (hp : (s.graph (wfld (blkWord c.record 0x10) 0 8)).pend = []) (hu : wbit (blkWord c.record 0x10) 31 = true)
    (hd : (s.graph (wfld (blkWord c.record 0x10) 0 8)).defined = true) :
    opBegin s q c = ({ s with fe := { s.fe with graphs := adel s.fe.graphs (wfld (blkWord c.record 0x10) 0 8) } }, .done) := by
  simp [opBegin, he, ho, gdefRun, hr, hp, hu, hd]

theorem opBegin_graphLaunch (ho : c.op = 8) (hd : (s.graph (wfld (blkWord c.bytes 0x10) 0 8)).defined = true) :
    opBegin s q c = (s, .keep c .waiting) := by
  simp only [opBegin, he, ho, hd, if_true]

theorem opBegin_gdef_define {w y z : State} {f : Word} {src : List Byte} (ho : c.op = 7)
    (hr : (s.graph (wfld (blkWord c.record 0x10) 0 8)).run = 0) (hp : (s.graph (wfld (blkWord c.record 0x10) 0 8)).pend = [])
    (hu : wbit (blkWord c.record 0x10) 31 = false) (hz : s.fe.grsize ≠ 0)
    (hfit : wfld (blkWord c.record 0x20) 0 32 + (wfld (blkWord c.record 0x10) 16 12 + 1) ≤ s.fe.grsize * 16384)
    (hfree : ∀ p ∈ s.fe.graphs, p.1 ≠ wfld (blkWord c.record 0x10) 0 8 → p.2.defined = true →
      wfld (blkWord c.record 0x20) 0 32 + (wfld (blkWord c.record 0x10) 16 12 + 1) ≤ p.2.off ∨
        p.2.off + p.2.cnt + 1 ≤ wfld (blkWord c.record 0x20) 0 32)
    (hf : relocate s q (blkWord c.record 0x18) (64 * (wfld (blkWord c.record 0x10) 16 12 + 1)) rightR 0x18 = (w, .ok f))
    (hs : feRead w q f.toNat (64 * (wfld (blkWord c.record 0x10) 16 12 + 1)) (refFail (blkWord c.record 0x18) 0x18) = (y, .ok src))
    (hg : ∀ i < wfld (blkWord c.record 0x10) 16 12 + 1, graphRec ((src.drop (64 * i)).take 64) = true)
    (hw : memWrite y (y.fe.grbase + 64 * wfld (blkWord c.record 0x20) 0 32) src = (z, none)) :
    opBegin s q c = (z.updGraph (wfld (blkWord c.record 0x10) 0 8) fun x => { x with
      defined := true, cnt := wfld (blkWord c.record 0x10) 16 12, off := wfld (blkWord c.record 0x20) 0 32 }, .done) := by
  have hover : (s.fe.graphs.any fun p => p.1 ≠ wfld (blkWord c.record 0x10) 0 8 && p.2.defined &&
      decide (p.2.off < wfld (blkWord c.record 0x20) 0 32 + (wfld (blkWord c.record 0x10) 16 12 + 1)) &&
      decide (wfld (blkWord c.record 0x20) 0 32 < p.2.off + p.2.cnt + 1)) = false := by
    rw [List.any_eq_false]
    intro p hp' hn
    simp only [Bool.and_eq_true, decide_eq_true_eq] at hn
    obtain ⟨⟨⟨hne, hd⟩, h1⟩, h2⟩ := hn
    have := hfree p hp' hne hd
    omega
  have hall : ((List.range (wfld (blkWord c.record 0x10) 16 12 + 1)).find? fun i => !graphRec ((src.drop (64 * i)).take 64)) = none := by
    rw [List.find?_eq_none]
    intro i hi
    simp [hg i (List.mem_range.1 hi)]
  have hfit' : ¬ s.fe.grsize * 16384 < wfld (blkWord c.record 0x20) 0 32 + (wfld (blkWord c.record 0x10) 16 12 + 1) := Nat.not_lt.2 hfit
  simp only [opBegin, he, ho, gdefRun, hr, hp, hu, hz, hfit', hover, hf, hs, hall, hw, ne_eq, not_true, decide_false, Bool.or_self,
    Bool.false_eq_true, if_false, Nat.add_sub_cancel]

theorem opBegin_patch {w y : State} {f : Word} {bs : List Byte} (ho : c.op = 9)
    (hd : (s.graph (wfld (blkWord c.bytes 0x10) 0 8)).defined = true)
    (hi : wfld (blkWord c.bytes 0x10) 16 12 ≤ (s.graph (wfld (blkWord c.bytes 0x10) 0 8)).cnt)
    (hf : relocate s q (blkWord c.bytes 0x18) 64 rightR 0x18 = (w, .ok f))
    (hr : feRead w q f.toNat 64 (refFail (blkWord c.bytes 0x18) 0x18) = (y, .ok bs)) (hg : graphRec bs = true) :
    opBegin s q c = (y.updGraph (wfld (blkWord c.bytes 0x10) 0 8) fun x => { x with pend := x.pend ++ [q] },
      .keep { c with body := bs } .waiting) := by
  simp [opBegin, he, ho, patchRun, hd, Nat.not_lt.2 hi, hf, hr, hg]

/-- The reservation of queue `q` beyond the tiles of its new set is given up (R532). -/
def givenUp (s : State) (q : Nat) (set : Nat × Nat) : State := s.fe.tiles.foldl (fun s p =>
  if p.2.rsv = some q && !(setTiles set).contains p.1 then s.updFeTile p.1 fun f => { f with rsv := none } else s) s

theorem opBegin_reserve (ho : c.op = 10) (hq : q < 8) (hs : setOk (recSet c.record) true = true)
    (hu : setOut s (recSet c.record) = none)
    (hr : ∀ t ∈ setTiles (recSet c.record), (s.feTile t).rsv = none ∨ (s.feTile t).rsv = some q) :
    opBegin s q c = let w := givenUp s q (recSet c.record)
      if (recSet c.record).2 = 0 then ({ w with fe := { w.fe with rsv := adel w.fe.rsv q } }, .done)
      else
        let r : Rsv := ⟨true, wbit (blkWord c.record 0x10) 0, (recSet c.record).1, (recSet c.record).2⟩
        ({ w with fe := { w.fe with rsv := aput w.fe.rsv q r } }, .keep c .waiting) := by
  simp only [opBegin, he, ho, reserveRun, Nat.not_le.2 hq, hs, hu, if_false, Bool.not_true, Bool.false_eq_true]
  refine if_neg ?_
  rw [Bool.not_eq_true, List.any_eq_false]
  intro t ht
  rcases hr t ht with h | h <;> simp [h]

end Begins

/-! #### O36 -/

/-- The row of each opcode starts the record at the head. -/
theorem exec_row {op : Nat} {row : QueueNo → Instr} (h : (op, row) ∈ [(0, Instr.nopCommand), (1, .launch), (2, .persist),
    (3, .pstop), (4, .enq), (5, .wait), (6, .signal), (7, .gdef), (8, .graphLaunch), (9, .patch), (10, .reserve)]) (s : State) (q : QueueNo) :
    exec (row q) s = .next (startRow op q.val s) := by
  simp only [List.mem_cons, List.not_mem_nil, or_false, Prod.mk.injEq] at h
  rcases h with ⟨rfl, rfl⟩ | ⟨rfl, rfl⟩ | ⟨rfl, rfl⟩ | ⟨rfl, rfl⟩ | ⟨rfl, rfl⟩ | ⟨rfl, rfl⟩ | ⟨rfl, rfl⟩ | ⟨rfl, rfl⟩ |
    ⟨rfl, rfl⟩ | ⟨rfl, rfl⟩ | ⟨rfl, rfl⟩ <;> rfl

/-- Settles O36: the head of the queue by `startRow`, each opcode by what its record comes to. -/
theorem ringCommands : Obligations.RingCommands := by
  unfold Obligations.RingCommands
  refine ⟨fun s q => ?_, fun s q c hs => ?_⟩
  · intro x a has ready op row hmem
    have hr : ready ↔ RowReady s q.val := by
      have hh : ∀ y, has y ↔ cmdReady y = true := fun y => cmdReady_iff.symm
      simp only [ready, RowReady, rtFirst_eq_false_iff, hh]
      rfl
    rw [hr, exec_row hmem]
    exact ⟨fun h => congrArg _ (not_rowReady h op), fun h s' bs hm => ⟨fun ho => congrArg _ (startRow_begins h hm ho),
      fun ho hl => congrArg _ (startRow_other h hm ho hl)⟩, fun h s' at_ hm => congrArg _ (startRow_bus h hm)⟩
  · have hrec : (placed s c).record = c.bytes := if_pos hs
    have hop : (placed s c).op = recOp c.bytes := congrArg recOp hrec
    intro d u set g
    refine ⟨fun o ho => startCmd_fails (opBegin_malformed (by rw [hrec]; exact ho)), fun he => ?_⟩
    have he : recErr (placed s c).feat (placed s c).record = none := by rw [hrec]; exact he
    refine ⟨fun ho => ?_, fun ho w k hk => ?_, fun ho h1 h2 => ?_, fun ho w ws hw => ?_, fun ho w f y v hf hv => ?_,
      fun ho w f y hf hg hw => ?_, fun ho hrun hpend => ⟨fun hu hd => ?_, fun hu hz hfit hfree w f y src z hf hr hg hw => ?_⟩,
      fun ho hd => ?_, fun ho hd hi w f y bs hf hr hg => ?_, fun ho hq h1 h2 hr => ⟨fun h0 => ?_, fun h0 => ?_⟩⟩
    all_goals rw [← hop] at ho
    · exact startCmd_ends hs (opBegin_nop he ho)
    · exact startCmd_keeps (opBegin_launch he ho (by rw [hrec]; exact hk))
    · have h := opBegin_pstop (s := u) (q := q) he ho (by rw [hrec]; exact h1) (by rw [hrec]; exact h2)
      rw [hrec] at h
      exact startCmd_keeps h
    · exact startCmd_keeps (opBegin_enq he ho (by rw [hrec]; exact hw))
    · have h := opBegin_wait he ho (by rw [hrec]; exact hf) hv
      rw [hrec] at h
      exact ⟨fun hm => startCmd_ends hs (h.trans (if_pos hm)), fun hm => startCmd_keeps (h.trans (if_neg (Nat.not_le.2 hm)))⟩
    · exact startCmd_ends hs (opBegin_signal he ho (by rw [hrec]; exact hf) hg (by rw [hrec]; exact hw))
    · have h := opBegin_gdef_undefine (s := u) (q := q) he ho
      rw [hrec] at h
      exact startCmd_ends hs (h hrun hpend hu hd)
    · have h := opBegin_gdef_define (s := u) (q := q) (w := w) (y := y) (z := z) (f := f) (src := src) he ho
      rw [hrec] at h
      exact startCmd_ends hs (h hrun hpend hu hz hfit hfree hf hr hg hw)
    · exact startCmd_keeps (opBegin_graphLaunch he ho hd)
    · exact startCmd_keeps (opBegin_patch he ho hd hi hf hr hg)
    all_goals
      have h := opBegin_reserve (s := u) (q := q) he ho hq
      rw [hrec] at h
    · exact startCmd_ends hs ((h h1 h2 hr).trans (if_pos h0))
    · exact startCmd_keeps ((h h1 h2 hr).trans (if_neg h0))

end Sys2Proof.Machine
end

/-! ### How commands end, and the queue registers (O37) -/

section
namespace Sys2Proof.Machine
open Sys2Proof

variable {s : State}

/-! #### The end of a tile -/

theorem exec_tileEnd_idle {t : TileId} (h : s.power ≠ .run ∨ (s.tile t.val).ending = none ∨ (s.feTile t.val).own = none ∨
    (s.feTile t.val).state = .killed ∨ (s.feTile t.val).state = .idle) : exec (.tileEnd t) s = .next s :=
  next_pos (by simpa [or_assoc] using h)

/-- The buffered writes of an ending tile are performed, and then it waits for its engines. -/
theorem exec_tileEnd {t : TileId} (hp : s.power = .run) (he : (s.tile t.val).ending ≠ none) (ho : (s.feTile t.val).own ≠ none)
    (hk : (s.feTile t.val).state ≠ .killed) (hi : (s.feTile t.val).state ≠ .idle) : exec (.tileEnd t) s =
      let u := performHanded (drainAll faddF32 s (tcore t.val)) t.val
      .next (if !enginesDone (u.tile t.val) then u
        else feSettle (tileGone
          ((lateFails (writeBackAll u t.val) t.val).updTile t.val fun x => { x with ending := none, core := { x.core with run := .idle } })
          t.val false)) :=
  next_neg (by simp [hp, he, ho, hk, hi])

/-! #### Time limits and watched fences -/

variable {q : QueueNo} {c : Cmd}

theorem clockDue_iff {d : Nat} : clockDue s c d = true ↔ c.holds = [] ∨ d ≤ s.mono := by simp [clockDue]

theorem exec_commandTimeout (hc : (s.queue q.val).cmd = some c) : exec (.commandTimeout q) s =
    let inner := subDeadline s c
    let outer := outerDeadline s c
    let d := min inner outer
    .next (if s.power ≠ .run || c.phase = .failing || (c.phase = .watching && inner ≤ outer) || !clockDue s c d then s
      else
        let s := s.reach d
        let s := if outer < inner then setCmd s q.val { c with sub := [] } .running else s
        feSettle (failNow s q.val { code := 7, detail := BitVec.ofNat 16 (firstLeft s c) })) := by
  simp only [exec, execCommandTimeout, hc]

theorem exec_fenceReread (hc : (s.queue q.val).cmd = some c) : exec (.fenceReread q) s =
    .next (if s.power = .run && c.phase = .watching then fenceAgain s q.val c false else s) := by
  simp only [exec, execFenceReread, hc]

theorem exec_waitTimeout (hc : (s.queue q.val).cmd = some c) : exec (.waitTimeout q) s =
    .next (if s.power = .run && c.phase = .watching && decide (subDeadline s c ≤ outerDeadline s c) && clockDue s c (subDeadline s c)
      then fenceAgain (s.reach (subDeadline s c)) q.val c true else s) := by
  simp only [exec, execWaitTimeout, hc]

theorem exec_timers_none (hc : (s.queue q.val).cmd = none) : exec (.commandTimeout q) s = .next s ∧
    exec (.fenceReread q) s = .next s ∧ exec (.waitTimeout q) s = .next s := by
  simp only [exec, execCommandTimeout, execFenceReread, execWaitTimeout, hc, and_self]

/-- A fence that is read again decides its WAIT (R526, R527). -/
theorem fenceAgain_read {n : Nat} {u : State} {v : Word} {final : Bool} (h : readFence s n c = (u, .ok v)) : fenceAgain s n c final =
    if (blkWord c.record 0x18).toNat ≤ v.toNat then feSettle (applyOut outSteps u n c .done)
    else if final then feSettle (failNow u n { code := 8, fa := c.ref, fr := blkWord c.record 0x18, fv := v })
    else setCmd u n { c with fv := v } .inWait := by
  simp only [fenceAgain, h, fenceMet, decide_eq_true_eq]

/-! #### KILL -/

/-- KILL of a queue without persistent tasks acts on its active command. -/
theorem exec_kill (hp : s.power = .run) (ht : ∀ p ∈ s.fe.ptasks, p.queue ≠ q.val) (hc : (s.queue q.val).cmd = some c) :
    exec (.kill q) s = .next (feSettle (killStopped (killCmd s c) c)) := by
  have hf : (s.fe.ptasks.filter fun p => p.queue = q.val) = [] := List.filter_eq_nil_iff.2 fun p h => by simpa using ht p h
  have hr : exec (.kill q) s = .next (feSettle (match (s.queue q.val).cmd with
      | some c => killStopped (killCmd s c) c
      | none => s)) := by
    refine (next_neg (not_not.2 hp)).trans ?_
    rw [hf]
    rfl
  rw [hr, hc]

theorem killStopped_other (h : c.phase ≠ .running ∨ c.op ≠ 3) : killStopped s c = s := by
  refine if_neg ?_
  rcases h with h | h <;> simp [h]

theorem killCmd_going (h : c.phase ≠ .failing) : killCmd s c = s := if_neg (by simp [h])

theorem killCmd_failing (h : c.phase = .failing) (hd : c.holds = [] ∨ windowEnd s c ≤ s.mono) : killCmd s c =
    (c.tiles.filter fun t => (s.feTile t).state ≠ .killed).foldl killTile (s.reach (windowEnd s c)) :=
  if_pos (by rw [clockDue_iff.2 hd, h]; rfl)

/-! #### Holds -/

/-- Before it is marked, a held tile may pause, which leaves memory, the queues and the free words. -/
theorem pauseHeld_kept (s : State) (r : HoldRes) : (pauseHeld s r).free = s.free ∧ (pauseHeld s r).mem = s.mem ∧
    (pauseHeld s r).fe.queues = s.fe.queues := by
  unfold pauseHeld
  split
  · split
    · exact ⟨rfl, rfl, rfl⟩
    · exact ⟨rfl, rfl, rfl⟩
  · exact ⟨rfl, rfl, rfl⟩

theorem exec_holdReport {r : HoldRes} (hp : s.power = .run) : ∃ u, exec (.holdReport r) s = .next u ∧ u.free = s.free + 1 ∧
    u.mem = s.mem ∧ u.fe.queues = s.fe.queues.map fun p =>
      (p.1, { p.2 with cmd := p.2.cmd.map (holdCmd (pauseHeld s r) r ((Config.freeWord s.free).getLsbD p.1)) }) := by
  obtain ⟨hf, hm, hq⟩ := pauseHeld_kept s r
  refine ⟨holdAll (pauseHeld s r) r, next_neg (not_not.2 hp), ?_, hm, ?_⟩
  · exact congrArg (· + 1) hf
  · rw [← hf, ← hq]
    rfl

/-! #### Queue registers -/

theorem qTail_eq (x : FeQueue) (v : Word) : qTail x v = if x.en = false then x
    else if 2 ^ (x.lsz + 2) ≤ wfld v 0 16 then { x with berr := true } else { x with tail := wfld v 0 16 } := by
  unfold qTail feRing
  by_cases h : x.en = false
  · rw [if_pos h, if_pos (by simp [h])]
  · rw [if_neg h, if_neg (by simpa using h)]

theorem qBase_eq (x : FeQueue) (v : Word) : qBase x v = if (x.state = .idle ∨ x.state = .halted) ∧ wfld v 0 4 ≤ 10 then
    { x with base := wfld v 8 32 * 256, lsz := wfld v 0 4, head := 0, tail := 0 } else x := by
  unfold qBase
  by_cases h : (x.state = .idle ∨ x.state = .halted) ∧ wfld v 0 4 ≤ 10
  · rw [if_pos h, if_neg]
    obtain ⟨h, hv⟩ := h
    rcases h with h | h <;> simp [h, hv]
  · rw [if_neg h, if_pos]
    simp only [not_and_or, not_or, Nat.not_le] at h
    simpa using h

theorem qSkipCmd_eq (x : FeQueue) : qSkipCmd x = if x.state ≠ .halted then x
    else if x.head = x.tail then { x with state := .idle } else { x with state := .idle, head := (x.head + 1) % 2 ^ (x.lsz + 2) } := by
  unfold qSkipCmd feRing
  by_cases h : x.state = .halted
  · rw [if_pos h, if_neg (not_not.2 h)]
    split
    · rfl
    · rfl
  · rw [if_neg h, if_pos h]

theorem qAbort_none {n : Nat} (hc : (s.queue n).cmd = none) (hr : (s.queue n).replay = none) : qAbort s n = s := by
  simp only [qAbort, hc, hr]

theorem qAbort_active {n : Nat} (hc : (s.queue n).cmd = some c) (hf : c.phase ≠ .failing) : qAbort s n =
    failNow (setCmd s n { c with halt := true, sub := [] } (s.queue n).state) n { code := 16 } := by
  simp only [qAbort, hc, if_neg hf]

/-- Settles O37: each command by its guard, each queue register by what it makes of the queue. -/
theorem commandEnds : Obligations.CommandEnds := by
  unfold Obligations.CommandEnds
  refine ⟨fun s t => ⟨exec_tileEnd_idle, fun hp he ho hk hi => ⟨fun h => ?_, fun h => ?_⟩⟩,
    fun s q => ⟨exec_timers_none, fun c hc => ?timers⟩,
    fun s q => ⟨fun h => next_pos h, fun hp ht c hc => ?kill, fun h => ?_, fun hp hd c hc => ?_⟩,
    fun s r fail => ⟨fun h => ?_, fun hp => ?_, ?_, fun hp => ?_⟩, fun s q k v => ⟨fun h => ?_, fun hp => ?registers⟩⟩
  case timers =>
    intro inner outer d
    refine ⟨fun h => ?_, fun hp hf hw hd hi => ?_, fun h => ⟨?_, ?_⟩, fun hp hw u v hv => ⟨fun hm => ?_, fun hm => ?_⟩,
      fun hp hw hi hd u v hv => ⟨fun hm => ?_, fun hm => ?_⟩⟩
    · rw [exec_commandTimeout hc]
      refine congrArg _ (if_pos ?_)
      simp only [Bool.or_eq_true, Bool.and_eq_true, decide_eq_true_eq, Bool.not_eq_true', Bool.eq_false_iff, ne_eq, clockDue_iff]
      rcases h with h | h | h | ⟨hh, hd⟩
      · exact .inl (.inl (.inl h))
      · exact .inl (.inl (.inr h))
      · exact .inl (.inr h)
      · exact .inr (not_or.2 ⟨hh, Nat.not_le.2 hd⟩)
    · rw [exec_commandTimeout hc]
      refine congrArg _ ((if_neg ?_).trans ?_)
      · simp only [hp, hf, hw, ne_eq, not_true, decide_false, Bool.false_and, Bool.or_self, Bool.false_or, Bool.not_eq_true',
          Bool.not_eq_false]
        exact clockDue_iff.2 hd
      · dsimp only
        rw [if_neg (Nat.not_lt.2 hi)]
    · rw [exec_fenceReread hc]
      exact congrArg _ (if_neg (by rcases h with h | h <;> simp [h]))
    · rw [exec_waitTimeout hc]
      exact congrArg _ (if_neg (by rcases h with h | h <;> simp [h]))
    · rw [exec_fenceReread hc, if_pos (by simp [hp, hw]), fenceAgain_read hv, if_pos hm]
    · rw [exec_fenceReread hc, if_pos (by simp [hp, hw]), fenceAgain_read hv, if_neg (Nat.not_le.2 hm)]
      rfl
    · rw [exec_waitTimeout hc, if_pos, fenceAgain_read hv, if_pos hm]
      simp only [hp, hw, decide_true, Bool.and_self, Bool.true_and, Bool.and_eq_true, decide_eq_true_eq]
      exact ⟨hi, clockDue_iff.2 hd⟩
    · rw [exec_waitTimeout hc, if_pos, fenceAgain_read hv, if_neg (Nat.not_le.2 hm)]
      · rfl
      · simp only [hp, hw, decide_true, Bool.and_self, Bool.true_and, Bool.and_eq_true, decide_eq_true_eq]
        exact ⟨hi, clockDue_iff.2 hd⟩
  case kill =>
    rw [exec_kill hp ht hc]
    refine ⟨fun hf ho => ?_, fun hf hd => ?_⟩
    · rw [killCmd_going hf, killStopped_other (.inr ho)]
    · rw [killStopped_other (.inl (by rw [hf]; decide)), killCmd_failing hf hd]
  case registers =>
    have on : ∀ u : State, (.next (feOn s u) : Result) = .next u := fun u => next_pos hp
    refine ⟨?_, ?_, ?_, ?_, fun hc hr => ?_, fun c hc hf => ?_, ?_, fun u bs hm => ?_, fun u e hm => ?_⟩
    · exact (on _).trans (congrArg _ (congrArg _ (funext fun x => qTail_eq x v)))
    · exact (on _).trans (congrArg _ (congrArg _ (funext fun x => qBase_eq x v)))
    · exact on _
    · exact (on _).trans (congrArg _ (congrArg (s.updQueue q.val) (funext fun x => qSkipCmd_eq x)))
    · exact (on _).trans (congrArg _ (congrArg feSettle (qAbort_none hc hr)))
    · exact (on _).trans (congrArg _ (congrArg feSettle (qAbort_active hc hf)))
    · exact on _
    · refine (on _).trans (congrArg _ ?_)
      simp only [tqPush, hm]
    · refine (on _).trans (congrArg _ ?_)
      simp only [tqPush, hm]
  · exact (exec_tileEnd hp he ho hk hi).trans (congrArg _ (if_pos (by rw [h]; rfl)))
  · exact (exec_tileEnd hp he ho hk hi).trans (congrArg _ (if_neg (by rw [h]; decide)))
  · exact next_pos (by simpa using h)
  · refine (next_neg (by simp [hp, hd])).trans ?_
    simp only [hc]
    rfl
  · exact ⟨next_pos h, next_pos h⟩
  · exact exec_holdReport hp
  · intro p c b
    simp [usesRes]
  · exact next_neg (not_not.2 hp)
  · exact ⟨next_neg h, next_neg h, next_neg h, next_neg h, next_neg h, next_neg h, next_neg h⟩

end Sys2Proof.Machine
end

/-! ### Host ports and handshakes (O38) -/

section
namespace Sys2Proof.Machine
open Sys2Proof

variable {s : State}

/-! #### Frames and negotiation -/

/-- A frame counts at most once (R557). -/
theorem frameCount_eq (x : HostPort) (f : Frame) : frameCount x f =
    if f.fcsOk = false ∨ x.mtu < f.ipLen then { x with fcs := sat16 x.fcs 1 }
    else if f.proto = .macControl then x
    else if frameOther x f = true then { x with other := sat16 x.other 1 }
    else if (f.proto = .ezori ∨ f.proto = .ptp) ∧ f.csumOk = false then { x with csum := sat16 x.csum 1 }
    else if f.proto = .ezori ∧ f.ce = true then { x with ce := sat16 x.ce 1 }
    else x := by
  have hbad : frameBad x f = true ↔ f.fcsOk = false ∨ x.mtu < f.ipLen := by simp [frameBad]
  have hudp : isUdp f = true ↔ f.proto = .ezori ∨ f.proto = .ptp := by cases h : f.proto <;> simp [isUdp, h]
  simp only [frameCount, hbad, Bool.and_eq_true, hudp, Bool.not_eq_true', decide_eq_true_eq]

theorem portUp_iff {p : Nat} : portUp s p = true ↔ (s.hport p).state = 3 := decide_eq_true_iff

/-- The test with which the events of a port begin. -/
theorem portIdle_iff {p : Nat} : (decide (s.power ≠ .run) || !portUp s p) = true ↔ s.power ≠ .run ∨ (s.hport p).state ≠ 3 := by
  simp [portUp]

/-- Negotiation of a port for 200GBASE-CR4, which also trains as 100GBASE-CR4 (R547). -/
theorem negotiated_one (peer : NegPeer) : negotiated 1 peer =
    if peer.offers.contains 1 then (1, if peer.trained then 3 else 1)
    else if peer.offers.contains 4 then (4, if peer.trained then 3 else 1) else (1, 1) := by
  have ho : offers 1 = [1, 4] := rfl
  unfold negotiated
  rw [if_neg (by decide), if_neg (by decide), ho]
  cases h1 : peer.offers.contains 1 with
  | true => simp only [List.find?, h1]; rfl
  | false => cases h4 : peer.offers.contains 4 <;> simp only [List.find?, h1, h4] <;> rfl

theorem negotiated_fixed {cfg : BitVec 4} (peer : NegPeer) (h : cfg = 3 ∨ cfg = 6) :
    negotiated cfg peer = (cfg, if peer.trained then 3 else 1) := by
  rcases h with rfl | rfl <;> rfl

/-! #### Neighbours -/

/-- The newest neighbour leads a cache of at most 256 (R550). -/
theorem learn_newest (x : HostPort) (a : BitVec 128) (mac : BitVec 48) :
    (learn x a mac).nbrs.head? = some (a, mac) ∧ (learn x a mac).nbrs.length ≤ 256 :=
  ⟨rfl, List.length_take_le _ _⟩

theorem exec_neighborDiscovery {p : PortNo} (hp : s.power = .run) (hu : (s.hport p.val).state = 3) (m : NdMsg) :
    exec (.neighborDiscovery p m) s = .next (match m with
      | .solicit target src mac =>
        if target = (s.hport p.val).addr6 then hostSend (s.updHport p.val fun x => learn x src mac) (.advert p.val src) else s
      | .advert a mac => s.updHport p.val fun x => learn x a mac
      | .arpRequest target src mac =>
        if (s.hport p.val).v4 && target = (s.hport p.val).addr4 then
          hostSend (s.updHport p.val fun x => learn x (v4Key src) mac) (.arp p.val src) else s
      | .arpReply a mac => if (s.hport p.val).v4 then s.updHport p.val fun x => learn x (v4Key a) mac else s) :=
  next_neg (by simp [hp, portUp, hu])

/-! #### Handshakes -/

variable {hs : Nat}

theorem findHs_none (h : ∀ h ∈ s.host.handshakes, h.id ≠ hs) : findHs s hs = none :=
  List.find?_eq_none.2 fun x hx => by simpa using h x hx

/-- Packets of a handshake that is not held change nothing. -/
theorem finishPkts_none (h : ∀ h ∈ s.host.handshakes, h.id ≠ hs) (pkts : List EzPacket) : pkts.foldl (finishPkt hs) s = s := by
  induction pkts with
  | nil => rfl
  | cons k pkts ih =>
    have hk : finishPkt hs s k = s := by simp only [finishPkt, findHs_none h]
    rw [List.foldl_cons, hk, ih]

section Finish

variable {k : EzPacket} {h : Handshake} (hf : findHs s hs = some h)
include hf

theorem finishPkt_down (hu : (s.hport k.port.val).state ≠ 3) : finishPkt hs s k = s := by
  have hp : portUp s k.port.val = false := decide_eq_false hu
  simp [finishPkt, hf, hp]

theorem finishPkt_discarded {u : State} (hu : (s.hport k.port.val).state = 3)
    (ht : ezTake s h.sess 2 k.hdr k.body k.tag k.ce = (u, none)) : finishPkt hs s k = u := by
  have hp : portUp s k.port.val = true := portUp_iff.2 hu
  simp [finishPkt, hf, hp, tFinishI, ht]

/-- A piece of FINISH_I is kept, and the first one names the port (R560, R567). -/
theorem finishPkt_kept {u : State} {bs : List Byte} (hu : (s.hport k.port.val).state = 3)
    (ht : ezTake s h.sess 2 k.hdr k.body k.tag k.ce = (u, some bs)) (h12 : 12 ≤ bs.length) (h2 : beAt bs 0 1 = 2)
    (h0 : beAt bs 1 3 = 0) : finishPkt hs s k = { u with host := { u.host with handshakes := u.host.handshakes.map fun h =>
      if h.id = hs then
        { h with frags := h.frags ++ [(beAt bs 4 4, beAt bs 8 4, bs.drop 12)], port := if h.frags = [] then k.port.val else h.port }
      else h } } := by
  have hp : portUp s k.port.val = true := portUp_iff.2 hu
  simp [finishPkt, hf, hp, tFinishI, ht, parseFrag, h12, h2, h0]

end Finish

theorem exec_handshakeTimeout {h : Handshake} (hp : s.power = .run) (hf : findHs s hs = some h) :
    exec (.handshakeTimeout hs) s = .next (endSess (s.reach (h.start + 10000000000)) h.sess) := by
  simp [exec, execHandshakeTimeout, hf, hp]

/-- FINISH_I: the pieces that are there, and then the signature of the owner (R561). -/
theorem exec_finishI {pkts : List EzPacket} (hp : s.power = .run) : exec (.finishI hs pkts) s =
    let u := pkts.foldl (finishPkt hs) s
    .next (match findHs u hs with
      | none => u
      | some h => match wholeFrags h.frags with
        | none => u
        | some sig =>
          let v := { u with host := { u.host with handshakes := u.host.handshakes.filter fun x => x.id ≠ hs } }
          if Config.ownerVerify v.start.cfg.ownerAlg v.start.cfg.ownerKey (finishHash h.h1) sig then establish v h
          else endSess (sealOut (hsRefused v) h.sess h.port h.src tClose (beBytes 4 1)) h.sess) :=
  next_neg (not_not.2 hp)

/-- Searches for next hops send frames, and change nothing else. -/
theorem resolvePeers_spec (f : State → Nat → BitVec 128) (ps : List (Nat × Path)) : ∀ s : State, ∃ w,
    ps.foldl (fun s p => resolve s p.1 (f s p.1)) s = { s with host := { s.host with out := s.host.out ++ w } } := by
  induction ps with
  | nil => exact fun s => ⟨[], by rw [List.append_nil]; rfl⟩
  | cons p ps ih =>
    intro s
    obtain ⟨w, -, hw⟩ := resolve_spec s p.1 (f s p.1)
    obtain ⟨v, hv⟩ := ih (resolve s p.1 (f s p.1))
    refine ⟨w ++ v, ?_⟩
    rw [List.foldl_cons, hv, hw, List.append_assoc]

/-- The session of an accepted FINISH_I before its next hops are searched: FINISH_R has left (R560, R567). -/
def establishedAt (v : State) (h : Handshake) : State :=
  (sealOut v h.sess h.port h.src tFinishR (fragBytes tFinishR 4 (0, zeros 4))).updSess h.sess fun x =>
    { { x with
        state := .established, ev := h.events, net := netOf h.port, lastRx := v.mono, sinceAck := 0, seenDb := hostBells v
        seenSt := wfld (modStatus v) 1 3 } with
      paths := ((netPorts x false ++ netPorts x true).filter (portUp v)).foldl (fun m p => aput m p { up := true }) [] }

theorem establish_eq (v : State) (h : Handshake) : establish v h =
    ((establishedAt v h).sess h.sess).paths.foldl (fun s p => resolve s p.1 (peerOf (s.sess h.sess) p.1).addr) (establishedAt v h) := rfl

/-- An established session, and FINISH_R (R560, R567). -/
theorem establish_spec (v : State) (h : Handshake) : let t := establish v h
    (t.sess h.sess).state = .established ∧ (t.sess h.sess).net = decide (4 ≤ h.port) ∧ (t.sess h.sess).ev = h.events ∧
    (t.sess h.sess).txPn = (v.sess h.sess).txPn + 1 ∧ (t.sess h.sess).lastRx = v.mono ∧
    ∃ w, t.host.out = v.host.out ++
      [.ez (sealedPkt v h.sess h.port h.src 3 (beBytes 1 3 ++ zeros 3 ++ beBytes 4 4 ++ zeros 4 ++ zeros 4))] ++ w := by
  intro t
  obtain ⟨w, hw⟩ := resolvePeers_spec (fun s p => (peerOf (s.sess h.sess) p).addr) ((establishedAt v h).sess h.sess).paths
    (establishedAt v h)
  have ht : t = _ := (establish_eq v h).trans hw
  have hs : t.sess h.sess = (establishedAt v h).sess h.sess := by rw [ht]; rfl
  have ho : t.host.out = (establishedAt v h).host.out ++ w := by rw [ht]
  rw [hs, ho]
  rw [establishedAt, sess_updSess, sealOut_sess]
  exact ⟨rfl, rfl, rfl, rfl, rfl, w, rfl⟩

/-! #### HELLO_I -/

theorem freeSession_none (h : ∀ i < 256, (s.sess i).state ≠ .free) :
    (List.range 256).find? (fun i => (s.sess i).state = .free) = none :=
  List.find?_eq_none.2 fun i hi => by simpa using h i (List.mem_range.1 hi)

/-- The lowest free session is the one that is taken (R561). -/
theorem freeSession_some {i : Nat} (hi : i < 256) (hf : (s.sess i).state = .free) (hl : ∀ j < i, (s.sess j).state ≠ .free) :
    (List.range 256).find? (fun i => (s.sess i).state = .free) = some i := by
  refine List.find?_range_eq_some.2 ⟨by simpa using hf, List.mem_range.2 hi, fun j hj => by simpa using hl j hj⟩

section HelloI

variable {p : PortNo} {hsid : BitVec 32} {ev : Bool} {h : HostHello}

theorem exec_helloI (hp : s.power = .run) (hu : (s.hport p.val).state = 3) (h8 : h.eps.length ≤ 8) :
    exec (.helloI p hsid ev h) s = .next (match (List.range 256).find? fun i => (s.sess i).state = .free with
      | none => plainOut (hsRefused s) p.val h.src tClose hsid (beBytes 4 2)
      | some i =>
        if 16 ≤ s.host.handshakes.length then plainOut (hsRefused s) p.val h.src tClose hsid (beBytes 4 2)
        else openHandshake s p.val i hsid ev h) :=
  next_neg (by simp [hp, portUp, hu, h8])

/-- HELLO_R leaves in pieces, and nothing else changes. -/
theorem sendHelloR_eq (p : Nat) (dst : HostEp) (msg : List Byte) : sendHelloR s p dst hsid msg = { s with host := { s.host with
    out := s.host.out ++ (cut ((s.hport p).mtu - 84) msg).map fun q =>
      .ez (packetOf s 0 p dst (ownHdr 1 p false hsid 0) (fragBytes 1 msg.length q) []) } } := by
  have h := plainOuts_spec p dst tHelloR hsid ((cut ((s.hport p).mtu - 84) msg).map (fragBytes tHelloR msg.length)) s
  rw [List.foldl_map, List.map_map] at h
  exact h

/-- The state that holds a handshake, two values of entropy later. -/
def helloHeld (s : State) (i : Nat) (x : Session) (hs : Handshake) : State :=
  let u := s.tick.tick.updSess i fun _ => x
  { u with host := { u.host with handshakes := u.host.handshakes ++ [hs], nextHs := u.host.nextHs + 1 } }

/-- The session and the handshake are held, and HELLO_R leaves behind at most one search for its next hop (R560). -/
theorem helloHeld_sent (i p : Nat) (x : Session) (hs : Handshake) (dst : HostEp) (msg : List Byte) :
    let t := sendHelloR (resolve (helloHeld s i x hs) p dst.addr) p dst hsid msg
    t.sess i = x ∧ t.host.handshakes = s.host.handshakes ++ [hs] ∧ t.host.nextHs = s.host.nextHs + 1 ∧
    ∃ w, w.length ≤ 1 ∧ t.host.out = s.host.out ++ w ++ (cut ((s.hport p).mtu - 84) msg).map fun q =>
      .ez (packetOf s 0 p dst (ownHdr 1 p false hsid 0) (fragBytes 1 msg.length q) []) := by
  intro t
  obtain ⟨w, hl, hw⟩ := resolve_spec (helloHeld s i x hs) p dst.addr
  have ht : t = _ := (sendHelloR_eq p dst msg).trans (by rw [hw])
  have hx : (helloHeld s i x hs).sess i = x := sess_updSess s.tick.tick i fun _ => x
  rw [ht]
  exact ⟨hx, rfl, rfl, w, hl, rfl⟩

end HelloI

/-! #### The obligation -/

theorem exec_autoNegotiation {p : PortNo} {peer : NegPeer} {cfg : BitVec 4} (hp : s.power = .run)
    (hc : cfg = match s.start.cfg.eth.find? fun e => e.1 = p.val with | some e => e.2.pmd | none => 0) :
    exec (.autoNegotiation p peer) s = .next (portState (s.updHport p.val fun x =>
      { x with pmd := (negotiated cfg peer).1, state := (negotiated cfg peer).2 }) p.val) := by
  subst hc
  exact next_neg (not_not.2 hp)

/-- An echo request that the port serves is answered while fewer than 100 were in its second (R550). -/
theorem exec_echoRequest {p : PortNo} {v6 : Bool} {src : BitVec 128} {data : List Byte} (hp : s.power = .run)
    (hu : (s.hport p.val).state = 3) (hv : v6 = true ∨ (s.hport p.val).v4 = true) :
    let now := s.mono / 1000000000
    let n := if (s.hport p.val).echoSec = now then (s.hport p.val).echoes else 0
    (100 ≤ n → exec (.echoRequest p v6 src data) s = .next s) ∧
    (n < 100 → exec (.echoRequest p v6 src data) s = .next (hostSend
      (s.updHport p.val fun x => { x with echoSec := now, echoes := n + 1 }) (.echo p.val v6 src data))) := by
  intro now n
  have hv' : (!v6 && !(s.hport p.val).v4) = false := by rcases hv with h | h <;> simp [h]
  constructor
  · intro hn
    exact next_pos (by simp only [Bool.or_eq_true, decide_eq_true_eq]; exact .inr hn)
  · intro hn
    refine next_neg ?_
    simp only [Bool.or_eq_true, decide_eq_true_eq, hv', hp, portUp_iff.2 hu]
    simpa using hn

/-- On a port that is not up the neighbours' frames and the timer of LLDP change nothing. -/
theorem exec_hostPort_down {p : PortNo} (h : s.power ≠ .run ∨ (s.hport p.val).state ≠ 3) (m : NdMsg) (v6 : Bool) (src : BitVec 128)
    (data : List Byte) : exec (.neighborDiscovery p m) s = .next s ∧ exec (.echoRequest p v6 src data) s = .next s ∧
      exec (.lldpTimer p) s = .next s := by
  have hb := portIdle_iff.2 h
  exact ⟨next_pos hb, next_pos (by rw [hb]; rfl), next_pos hb⟩

/-- Settles O38, part by part: frames, negotiation, neighbours, HELLO_I, FINISH_I and its packets, and the session that follows. -/
theorem hostPortsAndHandshakes : Obligations.HostPortsAndHandshakes := by
  refine ⟨fun s p f => ⟨fun h => ?_, fun hp hu => ?_⟩, fun s p peer => ⟨next_pos, fun hp cfg hc => ?_⟩,
    fun s p => ⟨fun h m v6 src data => exec_hostPort_down h m v6 src data, fun hp hu => ?_⟩,
    fun s p hsid ev h => ⟨fun h0 => ?_, fun hp hu h8 => ⟨fun h0 => ?_, fun i hi hf hl h16 => ?_⟩⟩,
    fun s hs pkts => ⟨fun hp => ⟨next_pos hp, ?_⟩, fun hp => ?_⟩,
    fun s hs k h hf => ⟨finishPkt_down hf, fun hu => ⟨fun u => finishPkt_discarded hf hu, fun u bs => finishPkt_kept hf hu⟩⟩,
    establish_spec⟩
  · exact next_neg (by simpa [portUp, imp_iff_not_or] using h)
  · exact (next_pos (by simp [hp, portUp, hu])).trans (by simp only [frameCount_eq])
  · refine ⟨negotiated cfg peer, exec_autoNegotiation hp hc, ?_, negotiated_fixed peer, ?_⟩
    · rintro rfl; rfl
    · rintro rfl; exact negotiated_one peer
  · refine ⟨fun src mac => ?_, fun tgt src mac hne => ?_, fun a mac => exec_neighborDiscovery hp hu _, fun tgt src mac => ?_,
      fun a mac => exec_neighborDiscovery hp hu _, learn_newest _, fun src data v6 hv => exec_echoRequest hp hu hv, ?_⟩
    · exact (exec_neighborDiscovery hp hu _).trans (congrArg _ (if_pos rfl))
    · exact (exec_neighborDiscovery hp hu _).trans (congrArg _ (if_neg hne))
    · rw [exec_neighborDiscovery hp hu]
      simp only [Bool.and_eq_true, decide_eq_true_eq]; rfl
    · exact next_neg (by simp [hp, portUp, hu])
  · exact next_pos (by rw [Bool.or_eq_true, portIdle_iff, decide_eq_true_iff]; exact or_assoc.2 h0)
  · rw [exec_helloI hp hu h8]
    rcases h0 with h0 | h0
    · rw [freeSession_none h0]; rfl
    · cases (List.range 256).find? fun i => (s.sess i).state = .free with
      | none => rfl
      | some i => exact congrArg _ (if_pos h0)
  · rw [exec_helloI hp hu h8, freeSession_some hi hf hl]
    exact ⟨_, congrArg _ (if_neg (Nat.not_le.2 h16)), helloHeld_sent i p.val _ _ h.src _⟩
  · simp only [exec, execHandshakeTimeout]
    cases findHs s hs with
    | none => rfl
    | some h => exact congrArg _ (if_pos hp)
  · refine ⟨fun hn => ⟨?_, finishPkts_none hn pkts⟩, fun h hf => exec_handshakeTimeout hp hf, fun hn => ?_,
      fun h hf => ⟨fun hw => ?_, fun sig hw => ⟨fun hg => ?_, fun hg => ?_⟩⟩⟩
    · simp only [exec, execHandshakeTimeout, findHs_none hn]
    · rw [exec_finishI hp]; simp only [findHs_none hn]
    · rw [exec_finishI hp]; simp only [show findHs _ hs = some h from hf, hw]
    · rw [exec_finishI hp]; simp only [show findHs _ hs = some h from hf, hw]; exact congrArg _ (if_pos hg)
    · rw [exec_finishI hp]; simp only [show findHs _ hs = some h from hf, hw]
      exact congrArg _ (if_neg (Bool.eq_false_iff.1 hg))

end Sys2Proof.Machine
end

/-! ### The operations of Ezori (O40) -/

section
namespace Sys2Proof.Machine
open Sys2Proof

variable {s : State}

/-! #### An operation -/

theorem isLive_iff {i : Nat} : isLive s i = true ↔ s.power = .run ∧ (s.sess i).state = .established := by
  simp [isLive]

theorem not_isLive {i : Nat} (h : s.power ≠ .run ∨ (s.sess i).state ≠ .established) : isLive s i = false := by
  rcases h with h | h <;> simp [isLive, h]

/-- An operation that its session does not ask for, or cannot, changes nothing. -/
theorem hostOp_idle {i : Nat} {xid : Word} {q : HostReq} (f : State → State × HostMsg)
    (h : isLive s i = false ∨ ¬ asks (s.sess i) xid q = true) : hostOp s i xid q f = s := by
  refine if_neg ?_
  rcases h with h | h <;> simp [h]

/-- An operation that its session asks for acts, and is answered (R565). -/
theorem hostOp_asked {i : Nat} {xid : Word} {q : HostReq} (f : State → State × HostMsg) (hl : isLive s i = true)
    (h : asks (s.sess i) xid q = true) :
    hostOp s i xid q f = nextOps (reply (f (opTaken s i)).1 i (f (opTaken s i)).2) i :=
  if_pos (by rw [hl, h]; rfl)

theorem hostOp_gives {i : Nat} {xid : Word} {q : HostReq} {f : State → State × HostMsg} (hl : isLive s i = true)
    (h : asks (s.sess i) xid q = true) {u : State} {m : HostMsg} (hf : f (opTaken s i) = (u, m)) :
    hostOp s i xid q f = nextOps (reply u i m) i := by
  rw [hostOp_asked f hl h, hf]

/-- An operation that is answered with a status. -/
theorem hostOp_status {i : Nat} {xid : Word} {q : HostReq} {op : BitVec 8} {g : State → State × HStatus} (hl : isLive s i = true)
    (h : asks (s.sess i) xid q = true) {u : State} {st : HStatus} (hg : g (opTaken s i) = (u, st)) :
    hostOp s i xid q (fun s => ((g s).1, .resp op xid (g s).2 [])) = nextOps (reply u i (.resp op xid st [])) i :=
  hostOp_gives hl h (by rw [hg])

/-! #### WRITE and READ -/

theorem exec_write_idle {i : SessNo} {xid a : Word} {bs : List Byte} {cm : Bool}
    (h : isLive s i.val = false ∨ ¬ asks (s.sess i.val) xid (.write a bs cm) = true) : exec (.write i xid a bs cm) s = .next s := by
  refine congrArg Host.Outcome.next ?_
  cases cm with
  | true => exact (if_pos rfl).trans (hostOp_idle _ h)
  | false => exact (if_neg Bool.false_ne_true).trans (if_neg (by rcases h with h | h <;> simp [h]))

/-- A WRITE is answered when it asks for that. -/
theorem exec_write_asked {i : SessNo} {xid a : Word} {bs : List Byte} {cm : Bool} (hl : isLive s i.val = true)
    (h : asks (s.sess i.val) xid (.write a bs cm) = true) {u : State} {st : HStatus}
    (hw : hostWriteOp (opTaken s i.val) a bs = (u, st)) : exec (.write i xid a bs cm) s =
      .next (if cm then nextOps (reply u i.val (.resp 1 xid st [])) i.val else nextOps u i.val) := by
  refine congrArg Host.Outcome.next ?_
  cases cm with
  | true =>
    refine (if_pos rfl).trans ((hostOp_asked _ hl h).trans ?_)
    rw [hw]
    rfl
  | false =>
    refine (if_neg Bool.false_ne_true).trans ((if_pos (by rw [hl, h]; rfl)).trans ?_)
    rw [hw]
    rfl

theorem hostWriteOp_badop {a : Word} {bs : List Byte} (h : bs = [] ∨ writeMax s < bs.length) : hostWriteOp s a bs = (s, .badop) :=
  if_pos (by simpa using h)

/-- A WRITE of a permitted length goes to the place of its address (R571). -/
theorem hostWriteOp_place {a : Word} {bs : List Byte} (hb : bs ≠ []) (hm : bs.length ≤ writeMax s) : hostWriteOp s a bs =
    match hostPlace s a with
    | .fail st => (s, st)
    | .mem a =>
      if inGraphRegion s a bs.length then (s, .graph)
      else match memWriteTo s a bs with
        | (s, none) => (s, .ok)
        | (s, some e) => (s, hostErr e)
    | .scratch a => match busWrite s none a bs with
      | (s, none) => (s, .ok)
      | (s, some e) => (s, hostErr e.1)
    | .reg a => match regWrite s a bs false false with
      | some s => (s, .ok)
      | none => (s, .align) :=
  if_neg (by simp [hb, Nat.not_lt.2 hm])

theorem hostPlace_nowhere {a : Word} (h : localAddr s a = none) : hostPlace s a = .fail .addr := by
  simp only [hostPlace, h]

theorem hostPlace_mem {a : Word} {l : Nat} (h : localAddr s a = some l) (hl : l < 0xF000000000) (hm : l < memTop s) :
    hostPlace s a = .mem l := by
  simp only [hostPlace, h, if_pos hl, if_pos hm]

theorem hostPlace_above {a : Word} {l : Nat} (h : localAddr s a = some l) (hl : l < 0xF000000000) (hm : memTop s ≤ l) :
    hostPlace s a = .fail .addr := by
  simp only [hostPlace, h, if_pos hl, if_neg (Nat.not_lt.2 hm)]

section Write

variable {a : Word} {bs : List Byte} (hb : bs ≠ []) (hm : bs.length ≤ writeMax s)
include hb hm

theorem hostWriteOp_fail {st : HStatus} (h : hostPlace s a = .fail st) : hostWriteOp s a bs = (s, st) := by
  rw [hostWriteOp_place hb hm, h]

theorem hostWriteOp_mem {l : Nat} {u : State} (h : hostPlace s a = .mem l) (hg : inGraphRegion s l bs.length = false)
    (hw : memWriteTo s l bs = (u, none)) : hostWriteOp s a bs = (u, .ok) := by
  simp [hostWriteOp_place hb hm, h, hg, hw]

theorem hostWriteOp_reg {l : Nat} {u : State} (h : hostPlace s a = .reg l) (hw : regWrite s l bs false false = some u) :
    hostWriteOp s a bs = (u, .ok) := by
  simp [hostWriteOp_place hb hm, h, hw]

end Write

/-- A READ is answered with what it reads. -/
theorem exec_read_ok {i : SessNo} {xid a : Word} {n : Nat} (hl : isLive s i.val = true)
    (h : asks (s.sess i.val) xid (.read a n) = true) {u : State} {bs : List Byte}
    (hr : hostReadOp (opTaken s i.val) a n = (u, .ok bs)) :
    exec (.read i xid a n) s = .next (nextOps (reply u i.val (.resp 2 xid .ok bs)) i.val) := by
  refine congrArg Host.Outcome.next ((hostOp_asked _ hl h).trans ?_)
  rw [hr]

/-- A READ that fails is answered with the reason. -/
theorem exec_read_error {i : SessNo} {xid a : Word} {n : Nat} (hl : isLive s i.val = true)
    (h : asks (s.sess i.val) xid (.read a n) = true) {u : State} {st : HStatus}
    (hr : hostReadOp (opTaken s i.val) a n = (u, .error st)) :
    exec (.read i xid a n) s = .next (nextOps (reply u i.val (.resp 2 xid st [])) i.val) := by
  refine congrArg Host.Outcome.next ((hostOp_asked _ hl h).trans ?_)
  rw [hr]

theorem hostReadOp_badop {a : Word} {n : Nat} (h : n = 0 ∨ 1048576 < n) : hostReadOp s a n = (s, .error .badop) :=
  if_pos (by simpa using h)

theorem hostReadOp_place {a : Word} {n : Nat} (h0 : 0 < n) (hn : n ≤ 1048576) : hostReadOp s a n =
    match hostPlace s a with
    | .fail st => (s, .error st)
    | .mem a => match memRead s a n with
      | (s, .ok bs) => (s, .ok bs)
      | (s, .error e) => (s, .error (hostErr e.1))
    | .scratch a => match busRead s none a n with
      | (s, .ok bs) => (s, .ok bs)
      | (s, .error e) => (s, .error (hostErr e.1))
    | .reg a => match regRead s a n with
      | (s, some bs) => (s, .ok bs)
      | (s, none) => (s, .error .align) :=
  if_neg (by
    rw [Bool.or_eq_true, decide_eq_true_eq, decide_eq_true_eq, not_or]
    exact ⟨h0.ne', Nat.not_lt.2 hn⟩)

section Read

variable {a : Word} {n : Nat} (h0 : 0 < n) (hn : n ≤ 1048576)
include h0 hn

theorem hostReadOp_fail {st : HStatus} (h : hostPlace s a = .fail st) : hostReadOp s a n = (s, .error st) := by
  rw [hostReadOp_place h0 hn, h]

theorem hostReadOp_mem {l : Nat} {u : State} {bs : List Byte} (h : hostPlace s a = .mem l) (hr : memRead s l n = (u, .ok bs)) :
    hostReadOp s a n = (u, .ok bs) := by
  simp only [hostReadOp_place h0 hn, h, hr]

theorem hostReadOp_reg {l : Nat} {u : State} {bs : List Byte} (h : hostPlace s a = .reg l) (hr : regRead s l n = (u, some bs)) :
    hostReadOp s a n = (u, .ok bs) := by
  simp only [hostReadOp_place h0 hn, h, hr]

end Read

/-! #### Messages -/

/-- With no path up, a content waits (R568). -/
theorem sendBest_waits {i : Nat} {c : List Byte} {again : Bool} (h : bestPath s (s.sess i) = none) :
    sendBest s i c again = s.updSess i fun x => { x with waiting := x.waiting ++ [c] } := by
  simp only [sendBest, h]

/-- While no path is up, the contents of a message wait in turn (R568). -/
theorem sendBests_wait {i : Nat} (again : Bool) (cs : List (List Byte)) : ∀ {s : State}, bestPath s (s.sess i) = none →
    (cs.foldl (fun s c => sendBest s i c again) s).host.out = s.host.out ∧
    ((cs.foldl (fun s c => sendBest s i c again) s).sess i).waiting = (s.sess i).waiting ++ cs := by
  induction cs with
  | nil => exact fun _ => ⟨rfl, (List.append_nil _).symm⟩
  | cons c cs ih =>
    intro s h
    rw [List.foldl_cons, sendBest_waits h]
    obtain ⟨ho, hw⟩ := ih (s := s.updSess i fun x => { x with waiting := x.waiting ++ [c] })
      (by rw [sess_updSess]; exact (bestPath_congr rfl rfl rfl rfl).trans h)
    refine ⟨ho, hw.trans ?_⟩
    rw [sess_updSess, List.append_assoc]
    rfl

/-- A message counts, and its packets leave on the best path or wait. -/
theorem reply_none {i : Nat} (m : HostMsg) (h : bestPath s (s.sess i) = none) : (reply s i m).host.out = s.host.out ∧
    ((reply s i m).sess i).waiting = (s.sess i).waiting ++ msgContents (pieceMax s (s.sess i)) (s.sess i).txMsn m := by
  obtain ⟨ho, hw⟩ := sendBests_wait false (msgContents (pieceMax s (s.sess i)) (s.sess i).txMsn m)
    (s := s.updSess i fun x => { x with txMsn := x.txMsn + 1 }) (i := i)
    (by rw [sess_updSess]; exact (bestPath_congr rfl rfl rfl rfl).trans h)
  refine ⟨ho, hw.trans ?_⟩
  rw [sess_updSess]

theorem reply_one {i p : Nat} {c : List Byte} (m : HostMsg) (h : bestPath s (s.sess i) = some p)
    (hc : msgContents (pieceMax s (s.sess i)) (s.sess i).txMsn m = [c]) (hpn : (s.sess i).txPn < 2 ^ 48) :
    let u := s.updSess i fun x => { x with txMsn := x.txMsn + 1 }
    (reply s i m).host.out = s.host.out ++ [.ez (sealedPkt u i p (peerOf (u.sess i) p) 4 c)] := by
  intro u
  have hp : bestPath u (u.sess i) = some p := by
    rw [sess_updSess]
    exact (bestPath_congr rfl rfl rfl rfl).trans h
  have hs := sendBest_spec u i c false (by rw [sess_updSess]; exact hpn)
  simp only [hp] at hs
  have hr : reply s i m = sendBest u i c false := by
    unfold reply
    dsimp only
    rw [hc]
    rfl
  rw [hr]
  exact hs.2

/-- A message that is no request is passed over (R569). -/
theorem nextOps_passes {i n : Nat} {m : MsgIn} (hm : nextMsg (s.sess i) = some m) (hr : reqOf m = none)
    (hn : (s.sess i).pieces.length = n + 1) : nextOps s i =
      skipBad n (if m.response then opTaken s i else reply (opTaken s i) i (.resp m.op m.xid .badop [])) i := by
  rw [nextOps, hn, skipBad, hm]
  exact if_neg (by rw [hr]; decide)

/-! #### Events -/

theorem exec_event_idle {i : SessNo} {st : Bool} (h : isLive s i.val = false ∨ (s.sess i.val).ev = false ∨
    s.start.featAct.getLsbD 20 = false) : exec (.event i st) s = .next s :=
  next_pos (by simpa only [Bool.or_eq_true, Bool.not_eq_true', or_assoc] using h)

theorem exec_event_status {i : SessNo} (hl : isLive s i.val = true) (he : (s.sess i.val).ev = true)
    (hf : s.start.featAct.getLsbD 20 = true) : exec (.event i true) s = .next (if wfld (modStatus s) 1 3 = (s.sess i.val).seenSt then s
      else reply (s.updSess i.val fun x => { x with seenSt := wfld (modStatus s) 1 3 }) i.val (.event 2 (modStatus s))) :=
  (next_neg (by simp [hl, he, hf])).trans (next_pos rfl)

theorem exec_event_bell {i : SessNo} (hl : isLive s i.val = true) (he : (s.sess i.val).ev = true)
    (hf : s.start.featAct.getLsbD 20 = true) : exec (.event i false) s = .next (
      if hostBells s &&& ~~~(s.sess i.val).seenDb = 0 then s
      else
        let u := if (s.sess i.val).lastEvent = 0 then s else s.reach ((s.sess i.val).lastEvent + 2000)
        reply (u.updSess i.val fun x => { x with seenDb := hostBells s, lastEvent := u.mono }) i.val
          (.event 1 ((hostBells s).zeroExtend 64))) :=
  (next_neg (by simp [hl, he, hf])).trans (next_neg Bool.false_ne_true)

/-! #### O40 -/

theorem doorbellOp_busy {q : BitVec 8} (tl : BitVec 16) (hq : q.toNat < 64) (he : (s.queue q.toNat).en = false) :
    doorbellOp s q tl = (s, .busy) := (if_neg (Nat.not_le.2 hq)).trans (if_pos (by rw [he]; rfl))

theorem doorbellOp_ok {q : BitVec 8} (tl : BitVec 16) (hq : q.toNat < 64) (he : (s.queue q.toNat).en = true) :
    doorbellOp s q tl = (s.updQueue q.toNat fun x => qTail x (tl.zeroExtend 64), .ok) :=
  (if_neg (Nat.not_le.2 hq)).trans (if_neg (by rw [he]; decide))

theorem logEntries_length (s : State) (first : BitVec 32) (n : Nat) : (logEntries s first n).length ≤ n :=
  (List.length_filterMap_le _ _).trans (by rw [List.length_range]; exact Nat.min_le_left _ _)

/-- Settles O40: each operation by what its session asks for. -/
theorem ezoriOperations : Obligations.EzoriOperations := by
  unfold Obligations.EzoriOperations
  refine ⟨fun s i h xid a bs cm n q tl m ws code st nonce first vec => ?inert, fun s i xid hp hs => ?asked, fun s i hp hs => ?event,
    fun s i m => ⟨reply_none m, fun p c hb hc hpn => reply_one m hb hc hpn⟩, fun s i n m hm hr hn => nextOps_passes hm hr hn⟩
  case inert =>
    have hl := not_isLive h
    exact ⟨exec_write_idle (.inl hl), congrArg _ (hostOp_idle _ (.inl hl)), congrArg _ (hostOp_idle _ (.inl hl)),
      congrArg _ (hostOp_idle _ (.inl hl)), congrArg _ (hostOp_idle _ (.inl hl)), exec_event_idle (.inl hl),
      congrArg _ (hostOp_idle _ (.inl hl)), congrArg _ (hostOp_idle _ (.inl hl)), congrArg _ (hostOp_idle _ (.inl hl)),
      congrArg _ (hostOp_idle _ (.inl hl))⟩
  case asked =>
    intro o asked ans ran
    have hl : isLive s i.val = true := isLive_iff.2 ⟨hp, hs⟩
    refine ⟨fun a bs cm n q tl m ws code nonce first vec => ⟨fun h => exec_write_idle (.inr h),
        fun h => congrArg _ (hostOp_idle _ (.inr h)),
        fun h => congrArg _ (hostOp_idle _ (.inr h)), fun h => congrArg _ (hostOp_idle _ (.inr h)),
        fun h => congrArg _ (hostOp_idle _ (.inr h)), fun h => congrArg _ (hostOp_idle _ (.inr h)),
        fun h => congrArg _ (hostOp_idle _ (.inr h)), fun h => congrArg _ (hostOp_idle _ (.inr h)),
        fun h => congrArg _ (hostOp_idle _ (.inr h))⟩,
      fun a bs cm h => ⟨fun hb => ?_, fun hb hm => ⟨fun ha => ?_, fun l u ha hlt hm' hg hw => ?_, fun l ha hlt hm' => ?_,
        fun l u hpl hw => ?_⟩⟩,
      fun a n h => ⟨fun hn => ?_, fun h0 hn => ⟨fun ha => ?_, fun l u bs ha hlt hm' hr => ?_, fun l u bs hpl hr => ?_⟩⟩,
      fun q tl h => ⟨fun hq => ?_, fun hq he => ?_, fun hq he => ?_⟩, fun m ws h => ⟨fun hm => ?_, fun hm hw => ?_⟩,
      fun m code h => ⟨fun hm => ?_, fun h8 h16 => ?_⟩, fun nonce h => ?_,
      fun first n h => ⟨fun hn => ?_, fun h0 hn => ?_⟩, fun h => ?_, fun vec h => ?_⟩
    · exact exec_write_asked hl h (hostWriteOp_badop hb)
    · exact exec_write_asked hl h (hostWriteOp_fail hb hm (hostPlace_nowhere ha))
    · exact exec_write_asked hl h (hostWriteOp_mem hb hm (hostPlace_mem ha hlt hm') hg hw)
    · exact exec_write_asked hl h (hostWriteOp_fail hb hm (hostPlace_above ha hlt hm'))
    · exact exec_write_asked hl h (hostWriteOp_reg hb hm hpl hw)
    · exact exec_read_error hl h (hostReadOp_badop hn)
    · exact exec_read_error hl h (hostReadOp_fail h0 hn (hostPlace_nowhere ha))
    · exact exec_read_ok hl h (hostReadOp_mem h0 hn (hostPlace_mem ha hlt hm') hr)
    · exact exec_read_ok hl h (hostReadOp_reg h0 hn hpl hr)
    · exact congrArg _ (hostOp_status hl h (if_pos hq))
    · exact congrArg _ (hostOp_status hl h (doorbellOp_busy tl hq he))
    · exact congrArg _ (hostOp_status hl h (doorbellOp_ok tl hq he))
    · exact congrArg _ (hostOp_status hl h (if_pos (by simpa using hm)))
    · exact congrArg _ (hostOp_status hl h (if_neg (by simp [hw, hm])))
    · exact congrArg _ (hostOp_status hl h (if_pos (by simpa using hm)))
    · have hb : mailboxAckOp o m code =
          if (o.mbox (.hmb (Fin.ofNat 16 m.toNat))).full then (mbAckWrite o (.hmb (Fin.ofNat 16 m.toNat)) code, .ok) else (o, .busy) :=
        if_neg (by simp [h8, h16])
      split
      next hf => exact congrArg _ (hostOp_status hl h (hb.trans (if_pos hf)))
      next hf => exact congrArg _ (hostOp_status hl h (hb.trans (if_neg hf)))
    · exact congrArg _ (hostOp_asked _ hl h)
    · exact congrArg _ (hostOp_gives hl h (if_pos (by simpa using hn)))
    · refine ⟨_, logEntries_length o first n, congrArg _ (hostOp_gives hl h (if_neg ?_))⟩
      rw [Bool.or_eq_true, decide_eq_true_eq, decide_eq_true_eq, not_or]
      exact ⟨h0.ne', Nat.not_lt.2 hn⟩
    · exact congrArg _ (hostOp_asked _ hl h)
    · exact congrArg _ (hostOp_asked _ hl h)
  case event =>
    have hl : isLive s i.val = true := isLive_iff.2 ⟨hp, hs⟩
    refine ⟨fun st h => exec_event_idle (.inr h), fun he hf => ⟨⟨fun h => ?_, fun h => ?_⟩, fun h => ?_, fun h => ?_⟩⟩
    · exact (exec_event_status hl he hf).trans (next_pos h)
    · exact (exec_event_status hl he hf).trans (next_neg h)
    · exact (exec_event_bell hl he hf).trans (next_pos h)
    · exact (exec_event_bell hl he hf).trans (next_neg h)

end Sys2Proof.Machine
end

/-! ### Packets of a session (O39) -/

section
namespace Sys2Proof.Machine
open Sys2Proof

variable {s : State}

/-! #### Acceptance -/

theorem ezHdrOk_iff {h : EzHeader} {t sid : Nat} : ezHdrOk h t sid = true ↔
    h.ver = 1 ∧ h.ptype.toNat = t ∧ h.flags = 1 ∧ h.rsv = 0 ∧ h.rsv2 = 0 ∧ h.sid.toNat = sid := by
  simp [ezHdrOk, and_assoc]

theorem pnStale_iff {x : Session} {pn : Nat} : pnStale x pn = true ↔ pn < x.rxCum ∨ pn ∈ x.rxSeen ∨ pn + 65536 ≤ x.rxHigh := by
  simp [pnStale, or_assoc]

theorem ezOpen_bad {key salt : List Byte} {h : EzHeader} {b tag : List Byte}
    (ht : gcmTag key (ezNonce salt h.pn.toNat) (ezHdrBytes h) b ≠ tag) : ezOpen key salt h b tag = none := if_neg ht

theorem ezOpen_good {key salt : List Byte} {h : EzHeader} {b tag : List Byte}
    (ht : gcmTag key (ezNonce salt h.pn.toNat) (ezHdrBytes h) b = tag) :
    ezOpen key salt h b tag = some (gcmStream key (ezNonce salt h.pn.toNat) b) := if_pos ht

/-! #### Packets that are taken -/

section Taken

variable {i : SessNo} {p : PortNo} {hdr : EzHeader} {b tag : List Byte} {ce : Bool} {k : EzPacket} {u : State} {bs : List Byte}

/-- The test with which the packets of a session begin. -/
theorem packetIdle_iff {i p : Nat} : (!isLive s i || !portUp s p) = true ↔
    (s.power ≠ .run ∨ (s.sess i).state ≠ .established) ∨ (s.hport p).state ≠ 3 := by
  rw [Bool.or_eq_true, Bool.not_eq_true', Bool.not_eq_true', ← Bool.not_eq_true, ← Bool.not_eq_true, isLive_iff, portUp_iff,
    not_and_or]

theorem exec_packets_idle (h : (s.power ≠ .run ∨ (s.sess i.val).state ≠ .established) ∨ (s.hport p.val).state ≠ 3) :
    exec (.data i p hdr b tag ce) s = .next s ∧ exec (.ack i p hdr b tag ce) s = .next s :=
  ⟨next_pos (packetIdle_iff.2 h), next_pos (packetIdle_iff.2 h)⟩

theorem exec_probe_idle (h : (s.power ≠ .run ∨ (s.sess i.val).state ≠ .established) ∨ (s.hport k.port.val).state ≠ 3) :
    exec (.probe i k) s = .next s := next_pos (packetIdle_iff.2 h)

/-- Numbers below the last keep the session open (R559). -/
theorem pnCheck_below {pn : Nat} (i : Nat) (h : pn + 1 < 2 ^ 48) : pnCheck s i pn = s := if_neg (Nat.not_le.2 h)

section Up

variable (hl : isLive s i.val = true) (hu : (s.hport p.val).state = 3)
include hl hu

theorem packetLive : ¬ (!isLive s i.val || !portUp s p.val) = true := by simp [hl, portUp_iff.2 hu]

theorem exec_data_none (h : ezTake s i.val 4 hdr b tag ce = (u, none)) : exec (.data i p hdr b tag ce) s = .next u :=
  (next_neg (packetLive hl hu)).trans (by rw [show tData = 4 from rfl, h])

theorem exec_data_full (h : ezTake s i.val 4 hdr b tag ce = (u, some bs))
    (hr : 2 ^ 21 < heldBytes (s.sess i.val) + (bs.length - 24)) : exec (.data i p hdr b tag ce) s = .next s :=
  (next_neg (packetLive hl hu)).trans (by rw [show tData = 4 from rfl, h]; exact congrArg _ (if_pos hr))

theorem exec_data_room (h : ezTake s i.val 4 hdr b tag ce = (u, some bs))
    (hr : heldBytes (s.sess i.val) + (bs.length - 24) ≤ 2 ^ 21) (hpn : hdr.pn.toNat + 1 < 2 ^ 48) :
    exec (.data i p hdr b tag ce) s = .next (nextOps (dataIn u i.val
      (decide ((s.sess i.val).rxHigh + 1 < hdr.pn.toNat) || ce) (parsePiece bs)) i.val) :=
  (next_neg (packetLive hl hu)).trans (by
    rw [show tData = 4 from rfl, h]
    exact congrArg _ ((if_neg (Nat.not_lt.2 hr)).trans (pnCheck_below _ hpn)))

theorem exec_ack_none (h : ezTake s i.val 5 hdr b tag ce = (u, none)) : exec (.ack i p hdr b tag ce) s = .next u :=
  (next_neg (packetLive hl hu)).trans (by rw [show tAck = 5 from rfl, h])

theorem exec_ack_some (h : ezTake s i.val 5 hdr b tag ce = (u, some bs)) (hpn : hdr.pn.toNat + 1 < 2 ^ 48) :
    exec (.ack i p hdr b tag ce) s = .next (match parseAck bs with | some a => ackIn u i.val a | none => u) :=
  (next_neg (packetLive hl hu)).trans (by rw [show tAck = 5 from rfl, h]; exact congrArg _ (pnCheck_below _ hpn))

end Up

theorem exec_probe_none (hl : isLive s i.val = true) (hu : (s.hport k.port.val).state = 3)
    (h : ezTake s i.val 7 k.hdr k.body k.tag k.ce = (u, none)) : exec (.probe i k) s = .next u :=
  (next_neg (packetLive hl hu)).trans (by rw [show tProbe = 7 from rfl, h])

theorem exec_probe_some (hl : isLive s i.val = true) (hu : (s.hport k.port.val).state = 3)
    (h : ezTake s i.val 7 k.hdr k.body k.tag k.ce = (u, some bs)) (hpn : k.hdr.pn.toNat + 1 < 2 ^ 48) :
    exec (.probe i k) s = .next (dataIn u i.val (decide ((s.sess i.val).rxHigh + 1 < k.hdr.pn.toNat) || k.ce) none) :=
  (next_neg (packetLive hl hu)).trans (by rw [show tProbe = 7 from rfl, h]; exact congrArg _ (pnCheck_below _ hpn))

/-- The test with which CLOSE begins. -/
theorem closeIdle_iff : (decide (s.power ≠ .run) || decide ((s.sess i.val).state = .free) || !portUp s k.port.val) = true ↔
    s.power ≠ .run ∨ (s.sess i.val).state = .free ∨ (s.hport k.port.val).state ≠ 3 := by
  simp [portUp, or_assoc]

theorem exec_close_idle (h : s.power ≠ .run ∨ (s.sess i.val).state = .free ∨ (s.hport k.port.val).state ≠ 3) :
    exec (.close i k) s = .next s := next_pos (closeIdle_iff.2 h)

section Close

variable (hc : ¬ (s.power ≠ .run ∨ (s.sess i.val).state = .free ∨ (s.hport k.port.val).state ≠ 3))
include hc

theorem exec_close_none (h : ezTake s i.val 6 k.hdr k.body k.tag k.ce = (u, none)) : exec (.close i k) s = .next u :=
  (next_neg (mt closeIdle_iff.1 hc)).trans (by rw [show tClose = 6 from rfl, h])

theorem exec_close_some (h : ezTake s i.val 6 k.hdr k.body k.tag k.ce = (u, some bs)) :
    exec (.close i k) s = .next (if bs.length = 4 then endSess u i.val else u) :=
  (next_neg (mt closeIdle_iff.1 hc)).trans (by rw [show tClose = 6 from rfl, h])

end Close

end Taken

/-- A session that ends keeps only its generation, and the others stay (R562). -/
theorem endSess_spec (s : State) (i : Nat) : (endSess s i).sess i = { gen := (s.sess i).gen } ∧
    (∀ j, j ≠ i → (endSess s i).sess j = s.sess j) ∧ (endSess s i).host.out = s.host.out :=
  ⟨sess_updSess s i fun x => { gen := x.gen }, fun _ hj => sess_updSess_ne s hj fun x => { gen := x.gen }, rfl⟩

/-! #### The reorder buffer -/

section DataIn

variable {i : Nat} {now : Bool} {m : MsgPiece}

/-- The state after a packet that leaves these pieces: acknowledged at once, or not (R564). -/
def dataDone (s : State) (i : Nat) (now : Bool) (ps : List MsgPiece) : State :=
  let u := s.updSess i fun x => { x with sinceAck := x.sinceAck + 1, pieces := ps }
  if now = true ∨ 4 ≤ (s.sess i).sinceAck + 1 then sendAck u i else u

theorem sendAck_if (u : State) : (if now || decide (4 ≤ (u.sess i).sinceAck) then sendAck u i else u) =
    if now = true ∨ 4 ≤ (u.sess i).sinceAck then sendAck u i else u := by
  simp only [Bool.or_eq_true, decide_eq_true_eq]

theorem dataIn_eq (o : Option MsgPiece) (ps : List MsgPiece) (h : (match o with
      | none => (s.sess i).pieces
      | some m =>
        if decide (m.msn.toNat < (s.sess i).nextMsn) || (s.sess i).pieces.any fun q => q.msn = m.msn && q.offset = m.offset
        then (s.sess i).pieces else (s.sess i).pieces ++ [m]) = ps) : dataIn s i now o = dataDone s i now ps := by
  subst h
  refine (sendAck_if _).trans ?_
  rw [sess_updSess]
  rfl

/-- The piece is held already, or its message has started (R563). -/
theorem pieceHeld_iff : (decide (m.msn.toNat < (s.sess i).nextMsn) ||
      (s.sess i).pieces.any fun q => q.msn = m.msn && q.offset = m.offset) = true ↔
    m.msn.toNat < (s.sess i).nextMsn ∨ ∃ q ∈ (s.sess i).pieces, q.msn = m.msn ∧ q.offset = m.offset := by
  simp

theorem dataIn_none : dataIn s i now none = dataDone s i now (s.sess i).pieces := dataIn_eq none _ rfl

theorem dataIn_held (h : m.msn.toNat < (s.sess i).nextMsn ∨ ∃ q ∈ (s.sess i).pieces, q.msn = m.msn ∧ q.offset = m.offset) :
    dataIn s i now (some m) = dataDone s i now (s.sess i).pieces := dataIn_eq (some m) _ (if_pos (pieceHeld_iff.2 h))

theorem dataIn_new (h : ¬ (m.msn.toNat < (s.sess i).nextMsn ∨ ∃ q ∈ (s.sess i).pieces, q.msn = m.msn ∧ q.offset = m.offset)) :
    dataIn s i now (some m) = dataDone s i now ((s.sess i).pieces ++ [m]) := dataIn_eq (some m) _ (if_neg (mt pieceHeld_iff.1 h))

end DataIn

/-! #### Timers -/

section Timers

variable {i : SessNo} {pn : Nat} {p : PortNo} {rtt : Nat}

theorem exec_timers_idle (h : isLive s i.val = false) : exec (.probeTimer i) s = .next s ∧ exec (.sessionIdle i) s = .next s ∧
    exec (.ezoriAckDelay i) s = .next s ∧ exec (.retransmissionTimeout i pn) s = .next s ∧ exec (.rateUpdate i p rtt) s = .next s := by
  have hn : (!isLive s i.val) = true := by rw [h]; rfl
  exact ⟨next_pos hn, next_pos hn, next_neg (by simp [h]), next_pos hn, next_neg (by simp [h])⟩

theorem exec_ackDelay_none (h : (s.sess i.val).sinceAck = 0) : exec (.ezoriAckDelay i) s = .next s :=
  next_neg (by simp [h])

section Live

variable (hl : isLive s i.val = true)
include hl

theorem notIdle : ¬ (!isLive s i.val) = true := by simp [hl]

theorem exec_probeTimer : let x := s.sess i.val
    let down := (netPorts x false ++ netPorts x true).filter fun p => portUp s p && !(aget {} x.paths p).up
    let quiet := max x.lastRx x.lastTx + 1000000000
    let u := s.reach (if down = [] then quiet else x.lastProbe + 100000000)
    let v := u.updSess i.val fun x => { x with lastProbe := u.mono }
    exec (.probeTimer i) s = .next ((down ++ (if quiet ≤ u.mono then (bestPath v x).toList else [])).foldl
      (fun s p => sendOn s i.val p true [] false) v) := next_neg (notIdle hl)

theorem exec_sessionIdle : let u := s.reach ((s.sess i.val).lastRx + 30000000000)
    exec (.sessionIdle i) s = .next (closeSess { u with host := { u.host with idle := sat16 u.host.idle 1 } } i.val 3) :=
  next_neg (notIdle hl)

theorem exec_ackDelay_owed (h : (s.sess i.val).sinceAck ≠ 0) : exec (.ezoriAckDelay i) s = .next (sendAck s i.val) :=
  next_pos (by simp [hl, h])

/-- A path after an expiry of its retransmission timer (R564). -/
def expired (s : State) (i : Nat) (e : Sent) : State :=
  (s.reach (e.at_ + rto (aget {} (s.sess i).paths e.port))).updSess i fun x =>
    updPath x e.port fun p => { p with expiries := p.expiries + 1 }

theorem exec_retransmission_none (h : ∀ e ∈ (s.sess i.val).inFlight, e.pn ≠ pn) :
    exec (.retransmissionTimeout i pn) s = .next s := by
  refine (next_neg (notIdle hl)).trans ?_
  have hf : (s.sess i.val).inFlight.find? (fun e => e.pn = pn) = none := List.find?_eq_none.2 fun e he => by simpa using h e he
  rw [hf]

theorem exec_retransmission {e : Sent} (h : (s.sess i.val).inFlight.find? (fun e => e.pn = pn) = some e) :
    exec (.retransmissionTimeout i pn) s = .next (
      let u := if 3 ≤ (aget {} ((expired s i.val e).sess i.val).paths e.port).expiries
        then pathDown (expired s i.val e) i.val e.port else expired s i.val e
      if (u.sess i.val).inFlight.contains e then resendLost u i.val [e] else u) := by
  refine (next_neg (notIdle hl)).trans ?_
  rw [h]; rfl

end Live

theorem reach_sess (d j : Nat) : (s.reach d).sess j = s.sess j := by unfold State.sess; rw [reach_host]

theorem expired_sess (e : Sent) : (expired s i.val e).sess i.val =
    updPath (s.sess i.val) e.port fun p => { p with expiries := p.expiries + 1 } := by
  rw [expired, sess_updSess, reach_sess]

theorem updPath_path (x : Session) (q : Nat) (f : Path → Path) : aget {} (updPath x q f).paths q = f (aget {} x.paths q) :=
  aget_aput_self _ _ _ _

theorem expired_expiries (e : Sent) : (aget {} ((expired s i.val e).sess i.val).paths e.port).expiries =
    (aget {} (s.sess i.val).paths e.port).expiries + 1 := by
  rw [expired_sess, updPath_path]

/-- The rate of a path stays between 0.1 Gb/s and its line rate, and its counts restart (R566). -/
theorem rateStep_spec (pmd : BitVec 4) (x : Path) : let y := rateStep (lineRate pmd) rtt x
    1 / 10 ≤ y.rate ∧ y.rate ≤ (if 4 ≤ pmd.toNat then 100 else 200) ∧ y.acked = 0 ∧ y.marked = 0 := by
  have hl : (1 / 10 : Rat) ≤ lineRate pmd := by unfold lineRate; split <;> norm_num
  exact ⟨le_max_left _ _, max_le hl (min_le_left _ _), rfl, rfl⟩

theorem contains_of_find {e : Sent} {l : List Sent} (h : l.find? (fun e => e.pn = pn) = some e) : l.contains e = true :=
  List.contains_iff_mem.2 (List.mem_of_find?_eq_some h)

/-- Fewer than three expiries in a row leave the path up (R568). -/
theorem exec_retransmission_few (hl : isLive s i.val = true) {e : Sent}
    (h : (s.sess i.val).inFlight.find? (fun e => e.pn = pn) = some e) (hx : (aget {} (s.sess i.val).paths e.port).expiries < 2) :
    exec (.retransmissionTimeout i pn) s = .next (resendLost (expired s i.val e) i.val [e]) := by
  have h3 : ¬ 3 ≤ (aget {} ((expired s i.val e).sess i.val).paths e.port).expiries := by rw [expired_expiries]; omega
  have hc : ((expired s i.val e).sess i.val).inFlight.contains e = true := by
    rw [expired_sess]; exact contains_of_find h
  rw [exec_retransmission hl h, if_neg h3]
  exact congrArg _ (if_pos hc)

/-- The third expiry in a row takes the path down (R568). -/
theorem exec_retransmission_third (hl : isLive s i.val = true) {e : Sent}
    (h : (s.sess i.val).inFlight.find? (fun e => e.pn = pn) = some e) (hx : 2 ≤ (aget {} (s.sess i.val).paths e.port).expiries) :
    let v := pathDown (expired s i.val e) i.val e.port
    exec (.retransmissionTimeout i pn) s = .next (if (v.sess i.val).inFlight.contains e then resendLost v i.val [e] else v) := by
  have h3 : 3 ≤ (aget {} ((expired s i.val e).sess i.val).paths e.port).expiries := by rw [expired_expiries]; omega
  rw [exec_retransmission hl h, if_pos h3]

theorem exec_rateUpdate (hl : isLive s i.val = true) (h : ahas (s.sess i.val).paths p.val = true) :
    exec (.rateUpdate i p rtt) s = .next (s.updSess i.val fun x => updPath x p.val fun _ =>
      rateStep (lineRate (s.hport p.val).pmd) rtt (aget {} (s.sess i.val).paths p.val)) := next_pos (by simp [hl, h])

end Timers

/-! #### The obligation -/

/-- Settles O39, part by part: acceptance, sessions that are not established, CLOSE, the end of a session, the reorder buffer, and the
packets and timers of an established session. -/
theorem sessionPackets : Obligations.SessionPackets := by
  refine ⟨fun s i t h b tag ce => ?_, fun s i hx p hdr b tag ce k pn rtt => ?_,
    fun s i k => ⟨exec_close_idle, fun hp hf hu => ⟨fun u => exec_close_none (by simp [hp, hf, hu]),
      fun u bs => exec_close_some (by simp [hp, hf, hu])⟩⟩,
    endSess_spec, fun s i now m => ⟨dataIn_none, dataIn_held, dataIn_new⟩, fun s i hp hx => ?_⟩
  · obtain ⟨hbad, hgood⟩ := ezTake_spec s i t h b tag ce
    refine ⟨fun hg => hbad (Bool.eq_false_iff.2 (mt ezHdrOk_iff.1 hg)), fun hg ht => ?_, fun hg ht hs => ?_, fun hg ht hs => ?_⟩
    · exact (hgood (ezHdrOk_iff.2 hg)).1 (ezOpen_bad ht)
    · exact ((hgood (ezHdrOk_iff.2 hg)).2 _ (ezOpen_good ht)).1 (pnStale_iff.2 hs)
    · exact ((hgood (ezHdrOk_iff.2 hg)).2 _ (ezOpen_good ht)).2 (Bool.eq_false_iff.2 (mt pnStale_iff.1 hs))
  · obtain ⟨hdata, hack⟩ := exec_packets_idle (p := p) (hdr := hdr) (b := b) (tag := tag) (ce := ce) (.inl hx)
    exact ⟨hdata, hack, exec_probe_idle (.inl hx), exec_timers_idle (not_isLive hx)⟩
  · have hl : isLive s i.val = true := isLive_iff.2 ⟨hp, hx⟩
    refine ⟨fun p hdr b tag ce hu => exec_packets_idle (.inr hu), fun k hu => exec_probe_idle (.inr hu),
      fun p hdr b tag ce hu => ⟨fun u => exec_data_none hl hu, fun u => exec_ack_none hl hu,
        fun u bs ht => ⟨exec_data_full hl hu ht, exec_data_room hl hu ht⟩, fun u bs ht hpn => ⟨fun ha => ?_, fun a ha => ?_⟩⟩,
      fun k hu => ⟨fun u => exec_probe_none hl hu, fun u bs => exec_probe_some hl hu⟩, exec_probeTimer hl, exec_sessionIdle hl,
      exec_ackDelay_owed hl, exec_ackDelay_none, fun pn => exec_retransmission_none hl,
      fun pn e he => ⟨exec_retransmission_few hl he, exec_retransmission_third hl he⟩, fun p rtt h => next_neg (by simp [h]),
      fun p rtt h => ⟨_, exec_rateUpdate hl h, rateStep_spec _ _⟩⟩
    · rw [exec_ack_some hl hu ht hpn, ha]
    · rw [exec_ack_some hl hu ht hpn, ha]

end Sys2Proof.Machine
end

/-! ### Packets and timers of an established session have their effects (O50) -/

section
namespace Sys2Proof.Machine
open Sys2Proof

variable {s : State}

/-! #### What leaves the fields of a session -/

/-- The time is at least what it was, and the start and the ports stay. -/
theorem reach_kept (d : Nat) : s.mono ≤ (s.reach d).mono ∧ (s.reach d).start = s.start := by
  unfold State.reach State.pass
  dsimp only
  split_ifs <;> exact ⟨Nat.le_add_right _ _, rfl⟩

/-- An acknowledgement that is owed changes only its counts (R564). -/
theorem sendAck_kept (i : Nat) (h : (s.sess i).txPn < 2 ^ 48) : ∃ n d a,
    (sendAck s i).sess i = { s.sess i with txPn := n, lastTx := d, sinceAck := a } := by
  have hs := sendAck_spec s i h
  cases hb : bestPath s (s.sess i) with
  | none => simp only [hb] at hs; exact ⟨_, _, _, by rw [hs]⟩
  | some p => simp only [hb] at hs; exact ⟨_, _, _, hs.1⟩

/-- Beyond the pieces, DATA and PROBE change what an acknowledgement changes (R564). -/
theorem dataDone_kept (i : Nat) (now : Bool) (ps : List MsgPiece) (h : (s.sess i).txPn < 2 ^ 48) : ∃ n d a,
    (dataDone s i now ps).sess i = { s.sess i with pieces := ps, txPn := n, lastTx := d, sinceAck := a } := by
  unfold dataDone
  dsimp only
  split
  · obtain ⟨n, d, a, hk⟩ := sendAck_kept (s := s.updSess i fun x => { x with sinceAck := x.sinceAck + 1, pieces := ps }) i
      (by rw [sess_updSess]; exact h)
    exact ⟨n, d, a, by rw [hk, sess_updSess]⟩
  · exact ⟨_, _, _, sess_updSess s i _⟩

/-- After a piece of a message that has not started, the buffer holds it (R563). -/
theorem dataIn_holds {i : Nat} {now : Bool} (o : Option MsgPiece) (h : (s.sess i).txPn < 2 ^ 48) : ∃ ps n d a,
    (dataIn s i now o).sess i = { s.sess i with pieces := ps, txPn := n, lastTx := d, sinceAck := a } ∧
    ∀ m, o = some m → (s.sess i).nextMsn ≤ m.msn.toNat → ∃ q ∈ ps, q.msn = m.msn ∧ q.offset = m.offset := by
  cases o with
  | none =>
    obtain ⟨n, d, a, hk⟩ := dataDone_kept i now (s.sess i).pieces h
    exact ⟨_, n, d, a, dataIn_none ▸ hk, nofun⟩
  | some m =>
    by_cases hm : m.msn.toNat < (s.sess i).nextMsn ∨ ∃ q ∈ (s.sess i).pieces, q.msn = m.msn ∧ q.offset = m.offset
    · obtain ⟨n, d, a, hk⟩ := dataDone_kept i now (s.sess i).pieces h
      refine ⟨_, n, d, a, dataIn_held hm ▸ hk, ?_⟩
      rintro _ ⟨⟩ hn
      exact hm.resolve_left (Nat.not_lt.2 hn)
    · obtain ⟨n, d, a, hk⟩ := dataDone_kept i now ((s.sess i).pieces ++ [m]) h
      refine ⟨_, n, d, a, dataIn_new hm ▸ hk, ?_⟩
      rintro _ ⟨⟩ -
      exact ⟨m, List.mem_append_right _ (List.mem_singleton_self m), rfl, rfl⟩

/-! #### Contents that leave in turn -/

/-- What at most `n` contents that leave or wait do to session `i` (R564, R567). -/
structure Resent (i n : Nat) (s t : State) : Prop where
  window : (t.sess i).window = (s.sess i).window
  peerCe : (t.sess i).peerCe = (s.sess i).peerCe
  lastRx : (t.sess i).lastRx = (s.sess i).lastRx
  le : (s.sess i).txPn ≤ (t.sess i).txPn
  pn : (t.sess i).txPn ≤ (s.sess i).txPn + n
  flight : ∀ e ∈ (t.sess i).inFlight, e ∈ (s.sess i).inFlight ∨ (s.sess i).txPn ≤ e.pn

theorem Resent.refl (i n : Nat) (s : State) : Resent i n s s :=
  ⟨rfl, rfl, rfl, Nat.le_refl _, Nat.le_add_right _ _, fun _ h => .inl h⟩

theorem Resent.trans {i m n : Nat} {t u : State} (h : Resent i m s t) (k : Resent i n t u) : Resent i (m + n) s u where
  window := k.window.trans h.window
  peerCe := k.peerCe.trans h.peerCe
  lastRx := k.lastRx.trans h.lastRx
  le := h.le.trans k.le
  pn := by have := h.pn; have := k.pn; omega
  flight := fun e he => (k.flight e he).elim (h.flight e) fun hn => .inr (h.le.trans hn)

theorem Resent.mono {i m n : Nat} {t : State} (h : Resent i m s t) (hn : m ≤ n) : Resent i n s t :=
  { h with pn := h.pn.trans (Nat.add_le_add_left hn _) }

/-- A change of the session that keeps these fields, and puts nothing in flight. -/
theorem Resent.of_updSess {i : Nat} {f : Session → Session} (hw : (f (s.sess i)).window = (s.sess i).window)
    (hc : (f (s.sess i)).peerCe = (s.sess i).peerCe) (hr : (f (s.sess i)).lastRx = (s.sess i).lastRx)
    (hn : (f (s.sess i)).txPn = (s.sess i).txPn) (hf : (f (s.sess i)).inFlight ⊆ (s.sess i).inFlight) :
    Resent i 0 s (s.updSess i f) := by
  constructor <;> rw [sess_updSess]
  exacts [hw, hc, hr, hn.ge, hn.le, fun e he => .inl (hf he)]

theorem sendBest_resent {i : Nat} (c : List Byte) (again : Bool) (h : (s.sess i).txPn < 2 ^ 48) :
    Resent i 1 s (sendBest s i c again) := by
  have hs := sendBest_spec s i c again h
  cases hb : bestPath s (s.sess i) with
  | none => rw [sendBest_waits hb]; exact (Resent.of_updSess rfl rfl rfl rfl (List.Subset.refl _)).trans (.refl i 1 _)
  | some p =>
    simp only [hb] at hs
    constructor <;> rw [hs.1]
    · exact Nat.le_succ _
    · exact fun e he => (List.mem_append.1 he).imp_right fun h1 => by rw [List.mem_singleton.1 h1]

theorem sendBests_resent {α : Type} (f : α → List Byte) {i : Nat} (again : Bool) (cs : List α) : ∀ {s : State},
    (s.sess i).txPn + cs.length ≤ 2 ^ 48 → Resent i cs.length s (cs.foldl (fun s c => sendBest s i (f c) again) s) := by
  induction cs with
  | nil => exact fun _ => .refl i 0 _
  | cons c cs ih =>
    intro s h
    rw [List.length_cons] at h ⊢
    have h1 := sendBest_resent (f c) again (show (s.sess i).txPn < 2 ^ 48 by omega)
    have h2 := ih (s := sendBest s i (f c) again) (by have := h1.pn; omega)
    rw [Nat.add_comm]
    exact h1.trans h2

theorem flushWaiting_resent {i : Nat} (h : (s.sess i).txPn + (s.sess i).waiting.length ≤ 2 ^ 48) :
    Resent i (s.sess i).waiting.length s (flushWaiting s i) := by
  unfold flushWaiting
  split
  · exact .refl i _ s
  · have h0 : Resent i 0 s (s.updSess i fun x => { x with waiting := [] }) :=
      .of_updSess rfl rfl rfl rfl (List.Subset.refl _)
    have h1 := sendBests_resent (s := s.updSess i fun x => { x with waiting := [] }) (i := i) id true (s.sess i).waiting
      (by rw [sess_updSess]; exact h)
    exact (h0.trans h1).mono (Nat.zero_add _).le

theorem resendLost_resent {i : Nat} {lost : List Sent} (h : (s.sess i).txPn + lost.length ≤ 2 ^ 48) :
    Resent i lost.length s (resendLost s i lost) := by
  have h0 : Resent i 0 s (s.updSess i fun x => { x with inFlight := x.inFlight.filter fun e => !lost.contains e }) :=
    .of_updSess rfl rfl rfl rfl (List.filter_subset_self _)
  have hl : (lost.filter fun e => !e.probe).length ≤ lost.length := List.length_filter_le _ _
  have h1 := sendBests_resent (s := s.updSess i fun x => { x with inFlight := x.inFlight.filter fun e => !lost.contains e }) (i := i)
    Sent.content true (lost.filter fun e => !e.probe) (by rw [sess_updSess]; show (s.sess i).txPn + _ ≤ _; omega)
  exact (h0.trans h1).mono (by omega)

/-- What acknowledged packets tell changes only the paths. -/
theorem updPaths_kept (f : Sent → Path → Path) (l : List Sent) : ∀ x : Session, ∃ ps,
    l.foldl (fun x e => updPath x e.port (f e)) x = { x with paths := ps } := by
  induction l with
  | nil => exact fun x => ⟨x.paths, rfl⟩
  | cons e l ih => exact fun x => (ih (updPath x e.port (f e))).imp fun _ h => h

/-- The session as an acknowledgement leaves it before anything is sent again: only its paths are left open here. -/
def ackedSess (x : Session) (a : AckIn) (ps : List (Nat × Path)) : Session :=
  { x with window := a.win, peerCe := a.ce, inFlight := x.inFlight.filter fun e => !ackedBy a.cum a.ranges e.pn, paths := ps }

theorem ackIn_eq (s : State) (i : Nat) (a : AckIn) : ∃ ps lost, lost.length ≤ (s.sess i).inFlight.length ∧ ackIn s i a =
    resendLost (flushWaiting ({ s with free := s.free + 8 }.updSess i fun _ => ackedSess (s.sess i) a ps) i) i lost := by
  have hlost (f g : Sent → Bool) : (((s.sess i).inFlight.filter f).filter g).length ≤ (s.sess i).inFlight.length :=
    (List.length_filter_le _ _).trans (List.length_filter_le _ _)
  obtain ⟨ps, hps⟩ := updPaths_kept (fun e => pathAcked s.mono s.free (portUp s e.port) e)
    ((s.sess i).inFlight.filter fun e => ackedBy a.cum a.ranges e.pn) (ackedSess (s.sess i) a (s.sess i).paths)
  unfold ackIn
  dsimp only
  unfold ackedSess at hps
  dsimp only at hps
  rw [hps]
  cases (s.sess i).inFlight.filter fun e => ackedBy a.cum a.ranges e.pn with
  | nil => exact ⟨_, _, hlost _ _, rfl⟩
  | cons e l => exact ⟨_, _, hlost _ _, rfl⟩

/-- An acknowledgement takes the peer's window, and nothing that it acknowledges stays in flight (R563, R564). -/
theorem ackIn_spec {i : Nat} (a : AckIn) (h : (s.sess i).txPn + (s.sess i).waiting.length + (s.sess i).inFlight.length < 2 ^ 48) :
    let t := ackIn s i a
    (t.sess i).window = a.win ∧ (t.sess i).peerCe = a.ce ∧ (t.sess i).lastRx = (s.sess i).lastRx ∧
    ∀ e ∈ (t.sess i).inFlight, ackedBy a.cum a.ranges e.pn = false ∨ (s.sess i).txPn ≤ e.pn := by
  intro t
  obtain ⟨ps, lost, hl, ht⟩ := ackIn_eq s i a
  let y := { s with free := s.free + 8 }.updSess i fun _ => ackedSess (s.sess i) a ps
  have hy : y.sess i = ackedSess (s.sess i) a ps := sess_updSess _ i _
  have h1 : Resent i (s.sess i).waiting.length y (flushWaiting y i) := by
    have := flushWaiting_resent (s := y) (i := i) (by rw [hy]; show (s.sess i).txPn + (s.sess i).waiting.length ≤ _; omega)
    rw [hy] at this
    exact this
  have hn : ((flushWaiting y i).sess i).txPn ≤ (s.sess i).txPn + (s.sess i).waiting.length := by
    have := h1.pn
    rwa [hy] at this
  have h2 := h1.trans (resendLost_resent (s := flushWaiting y i) (i := i) (lost := lost) (by omega))
  rw [← show t = resendLost (flushWaiting y i) i lost from ht] at h2
  obtain ⟨hw, hc, hr, -, -, hf⟩ := h2
  rw [hy] at hw hc hr hf
  refine ⟨hw, hc, hr, fun e he => (hf e he).imp_left fun h => ?_⟩
  simpa using (List.mem_filter.1 h).2

/-! #### Probes -/

/-- Probes leave in turn, each under the next number, and are in flight (R559, R568). -/
theorem sendProbes_spec {i : Nat} (on : List Nat) : ∀ {s : State}, (s.sess i).txPn + on.length ≤ 2 ^ 48 →
    let t := on.foldl (fun s p => sendOn s i p true [] false) s
    (t.sess i).txPn = (s.sess i).txPn + on.length ∧
    (t.sess i).inFlight = (s.sess i).inFlight ++ (on.zipIdx (s.sess i).txPn).map (fun q =>
      { pn := q.2, content := [], port := q.1, at_ := s.mono, again := false, probe := true }) ∧
    ∃ ks : List OutPacket, t.host.out = s.host.out ++ ks.map .ez ∧ ks.map (fun k => k.port) = on ∧ ∀ k ∈ ks, k.hdr.ptype = 7 := by
  induction on with
  | nil => exact fun _ => ⟨rfl, (List.append_nil _).symm, [], (List.append_nil _).symm, rfl, nofun⟩
  | cons p on ih =>
    intro s h
    rw [List.length_cons] at h
    obtain ⟨hs, ho, hm, -⟩ := sendOn_spec s i p true [] false (by omega)
    obtain ⟨hn, hf, ks, hk, hp, ht⟩ := ih (s := sendOn s i p true [] false) (by rw [hs]; show (s.sess i).txPn + 1 + _ ≤ _; omega)
    rw [hs] at hn hf
    rw [hm] at hf
    refine ⟨hn.trans (Nat.add_right_comm _ _ _), ?_, sealedPkt s i p (peerOf (s.sess i) p) 7 [] :: ks, ?_, ?_, ?_⟩
    · rw [List.zipIdx_cons, List.map_cons, List.append_cons]
      exact hf
    · rw [List.map_cons, List.append_cons]
      exact hk.trans (congrArg (· ++ _) ho)
    · exact congrArg (p :: ·) hp
    · rintro k (_ | ⟨_, hk⟩)
      · rfl
      · exact ht k hk

/-! #### The nine commands -/

section Nine

variable {i : SessNo}

/-- A packet that the session accepts, in the terms of its keys and numbers (R558, R559). -/
theorem ezTake_accepts {i t : Nat} {h : EzHeader} {b tag bs : List Byte} (ce : Bool)
    (hh : ezHdrOk h t ((s.sess i).gen * 256 + i) = true) (ho : ezOpen (s.sess i).rxKey (s.sess i).rxSalt h b tag = some bs)
    (hs : pnStale (s.sess i) h.pn.toNat = false) : ezTake s i t h b tag ce =
      (s.updSess i fun x => { acceptPn s x h.pn.toNat with ceCount := x.ceCount + b2n ce }, some bs) :=
  (((ezTake_spec s i t h b tag ce).2 hh).2 bs ho).2 hs

/-- What DATA or a PROBE that is accepted leaves (R563, R564). -/
theorem dataIn_accepted {i pn : Nat} {now : Bool} (ce : Bool) (o : Option MsgPiece) (h : (s.sess i).txPn < 2 ^ 48) :
    let u := dataIn (s.updSess i fun x => { acceptPn s x pn with ceCount := x.ceCount + b2n ce }) i now o
    pnStale (u.sess i) pn = true ∧
    (∀ m, o = some m → (s.sess i).nextMsn ≤ m.msn.toNat → ∃ q ∈ (u.sess i).pieces, q.msn = m.msn ∧ q.offset = m.offset) ∧
    (u.sess i).ceCount = (s.sess i).ceCount + b2n ce ∧ (u.sess i).lastRx = s.mono := by
  intro u
  obtain ⟨ps, n, d, a, hk, hm⟩ := dataIn_holds (now := now) o
    (s := s.updSess i fun x => { acceptPn s x pn with ceCount := x.ceCount + b2n ce }) (i := i) (by rw [sess_updSess]; exact h)
  rw [sess_updSess] at hk hm
  rw [hk]
  exact ⟨acceptPn_stale s (s.sess i) pn ((s.sess i).ceCount + b2n ce), hm, rfl, rfl⟩

/-- An expiry, in the session of the path: the content is sent again on the best path under a new number (R564). -/
theorem resend_one {j q : Nat} {e : Sent} (hq : bestPath s (s.sess j) = some q) (he : e.probe = false)
    (hn : (s.sess j).txPn < 2 ^ 48) : let t := resendLost s j [e]
    (t.sess j).paths = (s.sess j).paths ∧
    (t.sess j).inFlight = ((s.sess j).inFlight.filter fun f => f ≠ e) ++
      [{ pn := (s.sess j).txPn, content := e.content, port := q, at_ := s.mono, again := true, probe := false }] ∧
    t.host.out = s.host.out ++ [.ez (sealedPkt s j q (peerOf (s.sess j) q) 4 e.content)] := by
  intro t
  let y := s.updSess j fun x => { x with inFlight := x.inFlight.filter fun f => !([e] : List Sent).contains f }
  have hy : y.sess j = _ := sess_updSess s j _
  have ht : t = sendBest y j e.content true := by
    show List.foldl _ y (List.filter _ [e]) = _
    rw [List.filter_cons, he]
    rfl
  have hb : bestPath y (y.sess j) = some q := by rw [hy]; exact (bestPath_congr rfl rfl rfl rfl).trans hq
  have hs := sendBest_spec y j e.content true (by rw [hy]; exact hn)
  simp only [hb] at hs
  obtain ⟨h1, h2⟩ := hs
  have hk (d : HostEp) : sealedPkt y j q d 4 e.content = sealedPkt s j q d 4 e.content :=
    sealedPkt_congr (s := y) (u := s) (i := j) (by rw [hy]) (by rw [hy]) (by rw [hy]) (by rw [hy]) rfl rfl q d 4 _
  have hf : ((s.sess j).inFlight.filter fun f => !([e] : List Sent).contains f) = (s.sess j).inFlight.filter fun f => f ≠ e :=
    List.filter_congr fun f _ => by simp
  rw [ht, h1, h2, hk, hy, ← hf]
  exact ⟨rfl, rfl, rfl⟩

/-- The first expiries of a path, and the content sent again (R564). -/
theorem exec_retransmission_again (hl : isLive s i.val = true) {pn q : Nat} {e : Sent}
    (hf : (s.sess i.val).inFlight.find? (fun e => e.pn = pn) = some e) (hx : (aget {} (s.sess i.val).paths e.port).expiries < 2)
    (hq : bestPath s (updPath (s.sess i.val) e.port fun p => { p with expiries := p.expiries + 1 }) = some q)
    (he : e.probe = false) (hn : (s.sess i.val).txPn < 2 ^ 48) :
    ∃ t v, exec (.retransmissionTimeout i pn) s = .next t ∧ s.mono ≤ v ∧
      (aget {} (t.sess i.val).paths e.port).expiries = (aget {} (s.sess i.val).paths e.port).expiries + 1 ∧
      (t.sess i.val).inFlight = ((s.sess i.val).inFlight.filter fun f => f ≠ e) ++
        [{ pn := (s.sess i.val).txPn, content := e.content, port := q, at_ := v, again := true, probe := false }] ∧
      t.host.out = s.host.out ++ [.ez (sealedPkt s i.val q (peerOf (s.sess i.val) q) 4 e.content)] := by
  have hy := expired_sess (s := s) (i := i) e
  have hh : (expired s i.val e).host.ports = s.host.ports := by unfold expired State.updSess; rw [reach_host]
  have ho : (expired s i.val e).host.out = s.host.out := by unfold expired State.updSess; rw [reach_host]
  obtain ⟨hm, hst⟩ := reach_kept (s := s) (e.at_ + rto (aget {} (s.sess i.val).paths e.port))
  obtain ⟨hp, hfl, hout⟩ := resend_one (s := expired s i.val e) (j := i.val) (q := q) (e := e)
    (by rw [hy]; exact (bestPath_congr hh rfl rfl rfl).trans hq) he (by rw [hy]; exact hn)
  have hk (d : HostEp) : sealedPkt (expired s i.val e) i.val q d 4 e.content = sealedPkt s i.val q d 4 e.content :=
    sealedPkt_congr (s := expired s i.val e) (u := s) (i := i.val) (by rw [hy]; rfl) (by rw [hy]; rfl) (by rw [hy]; rfl) (by rw [hy]; rfl)
      hh hst q d 4 _
  refine ⟨_, _, exec_retransmission_few hl hf hx, hm, ?_, ?_, ?_⟩
  · rw [hp, expired_expiries]
  · rw [hfl, hy]; rfl
  · rw [hout, ho, hk, hy]; rfl

end Nine

/-- Settles O50, command by command. -/
theorem sessionCommandsComplete : Obligations.SessionCommandsComplete := by
  intro s i hp hx x opens
  have hl : isLive s i.val = true := isLive_iff.2 ⟨hp, hx⟩
  refine ⟨fun p hdr b tag ce bs hu ⟨hh, ho, hs, hpn⟩ hr hn => ?data, fun p hdr b tag ce bs a hu ⟨hh, ho, hs, hpn⟩ ha hn => ?ack,
    fun k bs hu ⟨hh, ho, hs, _⟩ h4 => ?close, fun k bs hu ⟨hh, ho, hs, hpn⟩ hn => ?probe, ?probes, ?idle,
    fun p h0 hn hb => ?owed, fun pn e q hf hxp hq he hn => ?again, fun p rtt h => ?rate⟩
  case data =>
    obtain ⟨h1, h2, h3, h4⟩ := dataIn_accepted (i := i.val) (pn := hdr.pn.toNat)
      (now := decide (x.rxHigh + 1 < hdr.pn.toNat) || ce) ce (parsePiece bs) hn
    exact ⟨_, exec_data_room hl hu (ezTake_accepts ce hh ho hs) hr hpn, h1, h2, h3, h4⟩
  case ack =>
    let y := s.updSess i.val fun x => { acceptPn s x hdr.pn.toNat with ceCount := x.ceCount + b2n ce }
    have hy : y.sess i.val = { acceptPn s x hdr.pn.toNat with ceCount := x.ceCount + b2n ce } := sess_updSess s i.val _
    have hk := ackIn_spec (s := y) (i := i.val) a (by rw [hy]; exact hn)
    rw [hy] at hk
    exact ⟨_, (exec_ack_some hl hu (ezTake_accepts ce hh ho hs) hpn).trans (by rw [ha]), hk⟩
  case close =>
    have hc : ¬ (s.power ≠ .run ∨ (s.sess i.val).state = .free ∨ (s.hport k.port.val).state ≠ 3) := by simp [hp, hx, hu]
    refine ⟨_, (exec_close_some hc (ezTake_accepts k.ce hh ho hs)).trans (congrArg _ (if_pos h4)), ?_⟩
    rw [(endSess_spec _ _).1, sess_updSess]
    rfl
  case probe =>
    obtain ⟨h1, -, -, h4⟩ := dataIn_accepted (i := i.val) (pn := k.hdr.pn.toNat)
      (now := decide (x.rxHigh + 1 < k.hdr.pn.toNat) || k.ce) k.ce none hn
    exact ⟨_, exec_probe_some hl hu (ezTake_accepts k.ce hh ho hs) hpn, h4, h1⟩
  case probes =>
    intro down quiet u on hn
    let v := u.updSess i.val fun x => { x with lastProbe := u.mono }
    have hv : v.sess i.val = { x with lastProbe := u.mono } := (sess_updSess u i.val _).trans (by rw [reach_sess])
    have hh : u.host = s.host := reach_host s _
    have hb : bestPath v x = bestPath s x := bestPath_congr (congrArg (·.ports) hh) rfl rfl rfl
    have ho : v.host.out = s.host.out := congrArg (·.out) hh
    obtain ⟨h1, h2, h3⟩ := sendProbes_spec (s := v) (i := i.val) on (by rw [hv]; exact hn)
    rw [hv] at h1 h2
    rw [ho] at h3
    exact ⟨_, (exec_probeTimer hl).trans (by rw [hb]), h1, h2, h3⟩
  case idle =>
    intro u v
    have hv : ({ u with host := { u.host with idle := sat16 u.host.idle 1 } } : State) = v := by
      show _ = ({ u with host := { u.host with idle := sat16 s.host.idle 1 } } : State)
      rw [show u.host = s.host from reach_host s _]
    have hx : v.sess i.val = x := reach_sess _ _
    have hb : bestPath v (v.sess i.val) = bestPath s x := by
      rw [hx]; exact bestPath_congr (congrArg (·.ports) (reach_host s _)) rfl rfl rfl
    have ho : v.host.out = s.host.out := congrArg (·.out) (reach_host s _)
    obtain ⟨h1, h2, h3⟩ := closeSess_spec v i.val 3
    rw [hb, hx, ho] at h2
    refine ⟨_, (exec_sessionIdle hl).trans (by rw [hv]), h1.trans (by rw [hx]), h3, fun p hp => ?_, fun hn => ?_⟩
    · rw [h2, hp]
    · rw [h2, hn, List.append_nil]
  case owed =>
    have hs := sendAck_spec s i.val hn
    simp only [show bestPath s (s.sess i.val) = some p from hb] at hs
    exact ⟨_, exec_ackDelay_owed hl h0, hs.1, hs.2⟩
  case again =>
    refine exec_retransmission_again hl hf hxp ?_ he hn
    rw [sess_updSess] at hq
    exact hq
  case rate =>
    refine ⟨_, exec_rateUpdate hl h, ?_⟩
    rw [sess_updSess, updPath_path]
    rfl

end Sys2Proof.Machine
end

/-! ### The start sequence (O54) -/

section
namespace Sys2Proof.Machine
open Sys2Proof

variable {s : State}

/-! #### The choice of the image -/

section Choice

variable {r : StartResult} {cause : Option Nat}

/-- The image of a slot after what equipment outside has written (R582): false is A. -/
def imageOf (n : State) (b : Bool) : Option Image := if b then n.start.imgB else n.start.imgA

/-- What an attempt with the image of a slot finds. -/
def failOf (r : StartResult) (b : Bool) : Option (BitVec 8) := if b then r.failB else r.failA

theorem noRefs {n : State} (h : ¬ (n.tu.ref0 = true ∨ n.tu.ref1 = true)) : (!n.tu.ref0 && !n.tu.ref1) = true := by
  simpa [not_or] using h

theorem startSeq_noRef (h : ¬ ((takeNvm s r).tu.ref0 = true ∨ (takeNvm s r).tu.ref1 = true)) :
    startSeq s r cause = failStart (takeNvm s r) 11 1 0 := if_pos (noRefs h)

section Refs

variable (h : (takeNvm s r).tu.ref0 = true ∨ (takeNvm s r).tu.ref1 = true)
include h

theorem someRef : ¬ (!(takeNvm s r).tu.ref0 && !(takeNvm s r).tu.ref1) = true := by
  rcases h with h | h <;> simp [h]

theorem startSeq_common {c : BitVec 8} (hr : r.common = some c) (hc : c = 10 ∨ c = 11) :
    startSeq s r cause = failStart (takeNvm s r) c.toNat 1 0 := by
  refine (if_neg (someRef h)).trans ?_
  rw [hr]
  rcases hc with rfl | rfl <;> rfl

/-- The attempts of a start whose common checks hold (R586). -/
theorem startSeq_attempts (hr : r.common = none) : startSeq s r cause =
    (let n := takeNvm s r
     let b := firstSlot n
     let finish := fun (s : State) (slot : Bool) (attempts other : Nat) => match imageOf n slot with
       | none => s
       | some i => bootState s i slot attempts other r cause
     match attempt n (imageOf n b) (failOf r b) with
     | (s, none) => finish s b 1 0
     | (s, some c) => match attempt s (imageOf n !b) (failOf r !b) with
       | (s, none) => finish s (!b) 2 c
       | (s, some d) => failStart s d 2 c) := by
  refine (if_neg (someRef h)).trans ?_
  rw [hr]
  rfl

theorem startSeq_first (hr : r.common = none) {u : State} {i : Image} (b : Bool) (hb : firstSlot (takeNvm s r) = b)
    (ha : attempt (takeNvm s r) (imageOf (takeNvm s r) b) (failOf r b) = (u, none)) (hi : imageOf (takeNvm s r) b = some i) :
    startSeq s r cause = bootState u i b 1 0 r cause := by
  subst hb
  rw [startSeq_attempts h hr]
  simp only [ha]
  simp only [hi]

theorem startSeq_second (hr : r.common = none) {u v : State} {c : Nat} {i : Image} (b : Bool) (hb : firstSlot (takeNvm s r) = b)
    (ha : attempt (takeNvm s r) (imageOf (takeNvm s r) b) (failOf r b) = (u, some c))
    (hv : attempt u (imageOf (takeNvm s r) !b) (failOf r !b) = (v, none)) (hi : imageOf (takeNvm s r) (!b) = some i) :
    startSeq s r cause = bootState v i (!b) 2 c r cause := by
  subst hb
  rw [startSeq_attempts h hr]
  simp only [ha, hv]
  simp only [hi]

theorem startSeq_neither (hr : r.common = none) {u v : State} {c d : Nat} (b : Bool) (hb : firstSlot (takeNvm s r) = b)
    (ha : attempt (takeNvm s r) (imageOf (takeNvm s r) b) (failOf r b) = (u, some c))
    (hv : attempt u (imageOf (takeNvm s r) !b) (failOf r !b) = (v, some d)) : startSeq s r cause = failStart v d 2 c := by
  subst hb
  rw [startSeq_attempts h hr]
  simp only [ha, hv]

end Refs

end Choice

/-! #### An attempt -/

section Attempt

variable {i : Image}

theorem attempt_failed {c : BitVec 8} (hc : c = 1 ∨ c = 2 ∨ c = 3 ∨ c = 8) : attempt s (some i) (some c) = (s, some c.toNat) := by
  rcases hc with rfl | rfl | rfl | rfl <;> rfl

theorem attempt_rollback (h : i.svn < s.sec.rollback) : attempt s (some i) none = (s, some 4) := if_pos h

section Number

variable (h : s.sec.rollback ≤ i.svn)
include h

theorem attempt_cfg (hc : s.start.cfgBad = true ∨ cfgOk s.start.cfg = false) : attempt s (some i) none = (s, some 5) :=
  (if_neg (Nat.not_lt.2 h)).trans (if_pos (by rcases hc with hc | hc <;> simp [hc]))

theorem attempt_owner (hb : s.start.cfgBad = false) (hc : cfgOk s.start.cfg = true) : attempt s (some i) none =
    (match admitOwner s s.start.cfg.owner with
      | none => (s, some 6)
      | some o => ({ s with sec := { s.sec with owners := o } }, none)) :=
  (if_neg (Nat.not_lt.2 h)).trans (if_neg (by simp [hb, hc]))

end Number

end Attempt

/-! #### A failed start -/

theorem failStart_spec (s : State) (code attempts other : Nat) : let t := failStart s code attempts other
    t.power = .startFailed ∧ t.pins.bootfail = true ∧ t.pins.ready = false ∧ t.mem = s.mem ∧ t.sec = s.sec ∧
    (jHeld s < jSlots → ∃ e, t.start.jpend = s.start.jpend ++ [(e, false)] ∧ e.kind = 0x0F ∧ e.loc = BitVec.ofNat 64 code ∧
      e.repl = BitVec.ofNat 32 attempts ∧ e.aux = BitVec.ofNat 32 other) ∧
    (jSlots ≤ jHeld s → t.start.jpend = s.start.jpend) :=
  ⟨rfl, rfl, rfl, rfl, rfl, fun h => ⟨_, if_neg (Nat.not_le.2 h), rfl, rfl, rfl, rfl⟩, fun h => if_pos h⟩

/-! #### A start that reaches ready -/

/-- A state after measurements of registers other than MR0, which draw free values (R618). -/
def Measured (s t : State) : Prop := ∃ n mr cnt, t = { s with free := n, sec := { s.sec with mr := mr, mrcnt := cnt } } ∧
  aget 0 mr 0 = aget 0 s.sec.mr 0 ∧ aget 0 cnt 0 = aget 0 s.sec.mrcnt 0

theorem Measured.refl (s : State) : Measured s s := ⟨s.free, s.sec.mr, s.sec.mrcnt, rfl, rfl, rfl⟩

theorem Measured.trans {t u : State} (h : Measured s t) (k : Measured t u) : Measured s u := by
  obtain ⟨n, mr, cnt, rfl, h1, h2⟩ := h
  obtain ⟨n', mr', cnt', rfl, k1, k2⟩ := k
  exact ⟨n', mr', cnt', rfl, k1.trans h1, k2.trans h2⟩

theorem extendDigest_measured {k : Nat} (hk : 0 ≠ k) (d : BitVec 512) : Measured s (extendDigest s k d) :=
  ⟨s.free, _, _, rfl, aget_aput_ne _ _ _ _ _ hk, aget_aput_ne _ _ _ _ _ hk⟩

theorem extendMr_measured {k : Nat} (hk : 0 ≠ k) (x : List Byte) : Measured s (extendMr s k x) := extendDigest_measured hk _

theorem extendFree_measured {k : Nat} (hk : 0 ≠ k) : Measured s (extendFree s k) :=
  ⟨s.free + 1, _, _, rfl, aget_aput_ne _ _ _ _ _ hk, aget_aput_ne _ _ _ _ _ hk⟩

/-- After MR0 has taken the ROM's digest, the start extends other registers only (R618). -/
theorem measureStart_measured (i : Image) : Measured (extendDigest s 0 s.sec.romdig) (measureStart s i) := by
  have h1 (u : State) : Measured u (if i.head = [] then extendFree u 1 else extendMr u 1 i.head) := by
    split
    · exact extendFree_measured (by decide)
    · exact extendMr_measured (by decide) _
  have h23 (u : State) : Measured u (if u.start.region = [] then extendFree (extendFree u 2) 3
      else extendMr (extendMr u 2 (measuredConfig u.start.region)) 3 (measuredRoute u.start.region)) := by
    split
    · exact (extendFree_measured (by decide)).trans (extendFree_measured (by decide))
    · exact (extendMr_measured (by decide) _).trans (extendMr_measured (by decide) _)
  exact ((h1 _).trans (h23 _)).trans (extendFree_measured (by decide))

/-- A log entry changes the drip log only. -/
theorem logEntry_rep (s : State) (src : BitVec 16) (code cls detail : Nat) :
    ∃ rep, logEntry s src code cls detail = { s with rep := rep } := by
  unfold logEntry
  dsimp only
  split <;> exact ⟨_, rfl⟩

/-- What the raise of the rollback counter leaves (R591): the counter is `k`. -/
def Raised (k : Nat) (s t : State) : Prop := ∃ rep, Measured { s with rep := rep, sec := { s.sec with rollback := k } } t

theorem Measured.of_free (n : Nat) : Measured s { s with free := n } := ⟨n, s.sec.mr, s.sec.mrcnt, rfl, rfl, rfl⟩

/-- A fuse write that fails leaves the counter below the number that it was to reach (R591, log 69). -/
theorem raise_fails {m : Nat} (h : s.sec.rollback < m) (w detail : Nat) : let k := s.sec.rollback + w % (m - s.sec.rollback)
    k < m ∧ Raised k s (extendFree (logEntry { s.tick.tick with sec := { s.sec with rollback := k } } srcOchre 0x51 0 detail) 5) := by
  intro k
  have hw : w % (m - s.sec.rollback) < m - s.sec.rollback := Nat.mod_lt _ (Nat.sub_pos_of_lt h)
  obtain ⟨rep, hr⟩ := logEntry_rep { s.tick.tick with sec := { s.sec with rollback := k } } srcOchre 0x51 0 detail
  refine ⟨by omega, rep, ?_⟩
  rw [hr]
  exact (Measured.of_free (s.free + 1 + 1)).trans (extendFree_measured (by decide))

theorem raiseRollback_spec (s : State) (i : Image) (fail : Bool) : ∃ k,
    Raised k s (raiseRollback s i fail) ∧ s.sec.rollback ≤ k ∧ k ≤ max s.sec.rollback (min 64 i.svn) ∧
    (i.commit = true → fail = false → k = max s.sec.rollback (min 64 i.svn)) ∧ (i.commit = false → k = s.sec.rollback) := by
  unfold raiseRollback
  split
  next h =>
    obtain ⟨hc, hlt⟩ : i.commit = true ∧ s.sec.rollback < min 64 i.svn := by simpa using h
    cases fail with
    | true =>
      obtain ⟨hk, hr⟩ := raise_fails hlt (Config.freeWord (s.free + 1)).toNat (Config.freeWord s.free).toNat
      exact ⟨_, hr, Nat.le_add_right _ _, le_max_of_le_right hk.le, nofun, fun h => by simp [hc] at h⟩
    | false =>
      exact ⟨min 64 i.svn, ⟨s.rep, extendFree_measured (by decide)⟩, hlt.le, le_max_right _ _, fun _ _ => (max_eq_right hlt.le).symm,
        fun h => by simp [hc] at h⟩
  next h =>
    have hc : i.commit = true → ¬ s.sec.rollback < min 64 i.svn := fun hc hlt => h (by simp [hc]; omega)
    exact ⟨_, ⟨s.rep, Measured.refl s⟩, Nat.le_refl _, le_max_left _ _, fun ht _ => (max_eq_left (Nat.not_lt.1 (hc ht))).symm,
      fun _ => rfl⟩

theorem measureJournal_empty (h : s.start.j0 = []) : measureJournal s = s := by
  simp only [measureJournal, h, List.zip_nil_left, List.foldl_nil]

theorem applyTrims_empty (h : s.tiles = []) : applyTrims s = s := by
  simp only [applyTrims, h, List.filter_nil, List.foldl_nil]

/-- An empty journal is applied to a module without tiles in use. -/
theorem applyJournal_empty (h0 : s.start.j0 = []) (ht : s.tiles = []) :
    applyTrims (s.start.j0.foldl applyEntry (measureJournal s)) = s := by
  rw [measureJournal_empty h0, h0, List.foldl_nil, applyTrims_empty ht]

theorem startFindings_none {r : StartResult} (hb : r.badSpares = []) (hc : r.chans = []) (hf : r.found = []) :
    startFindings s r = s := by
  simp only [startFindings, hb, hc, hf, List.foldl_nil]

section Boot

variable {i : Image} {slot : Bool} {attempts ocode : Nat} {r : StartResult}

/-- The keys of the memory differ (R487). -/
theorem drawKeys_ne (s : State) : (drawKeys s).memK1 ≠ (drawKeys s).memK2 := by
  have hne (k1 k2 : BitVec 256) : k1 ≠ if k2 = k1 then k1 + 1 else k2 := by
    by_cases h : k2 = k1
    · rw [if_pos h]
      intro h1
      exact absurd (add_left_cancel ((BitVec.add_zero k1).trans h1)) (by decide)
    · rw [if_neg h]
      exact Ne.symm h
  exact hne _ _

/-- The module when the registers at ready are measured, with nothing found and an empty journal (R592). -/
def readyState (s : State) (i : Image) (slot : Bool) (attempts ocode : Nat) (dur : BitVec 16) : State :=
  drawKeys (freshState s i slot attempts ocode dur)

theorem bootState_eq (hb : r.badSpares = []) (hc : r.chans = []) (hf : r.found = []) (h0 : s.start.j0 = []) (h1 : s.start.j1 = [])
    (hr : s.tu.ref0 = true) : bootState s i slot attempts ocode r none =
      raiseRollback (measureStart (readyState s i slot attempts ocode r.dur) i) i r.fuseFail := by
  have hg : startGens (readyState s i slot attempts ocode r.dur) r.dur.toNat = readyState s i slot attempts ocode r.dur := if_pos hr
  have hj : jUnion s = [] := by simp [jUnion, h0, h1]
  obtain ⟨n, mr, cnt, hm, -, -⟩ := measureStart_measured (s := readyState s i slot attempts ocode r.dur) i
  have hj0 : (measureStart (readyState s i slot attempts ocode r.dur) i).start.j0 = [] := by rw [hm]; exact hj
  have ht : (measureStart (readyState s i slot attempts ocode r.dur) i).tiles = [] := by rw [hm]; rfl
  unfold bootState
  dsimp only
  rw [show drawKeys (freshState s i slot attempts ocode r.dur) = readyState s i slot attempts ocode r.dur from rfl, hg,
    applyJournal_empty hj0 ht, startFindings_none hb hc hf]

/-- What a start that finds nothing leaves (R487, R591, R592, R618). -/
theorem bootState_spec (hb : r.badSpares = []) (hc : r.chans = []) (hf : r.found = []) (h0 : s.start.j0 = []) (h1 : s.start.j1 = [])
    (hr : s.tu.ref0 = true) : ∃ k, s.sec.rollback ≤ k ∧ k ≤ max s.sec.rollback (min 64 i.svn) ∧
      (i.commit = true → r.fuseFail = false → k = max s.sec.rollback (min 64 i.svn)) ∧ (i.commit = false → k = s.sec.rollback) ∧
      ∃ rep n mr cnt, aget 0 mr 0 = shake256 (bytes512 0 ++ bytes512 s.sec.romdig) ∧ aget 0 cnt 0 = 1 ∧
        bootState s i slot attempts ocode r none = { readyState s i slot attempts ocode r.dur with
          free := n, rep := rep
          sec := { (readyState s i slot attempts ocode r.dur).sec with mr := mr, mrcnt := cnt, rollback := k } } := by
  rw [bootState_eq hb hc hf h0 h1 hr]
  obtain ⟨n, mr, cnt, hm, hmr, hcnt⟩ := measureStart_measured (s := readyState s i slot attempts ocode r.dur) i
  obtain ⟨k, ⟨rep, n', mr', cnt', ht, hmr', hcnt'⟩, h1, h2, h3, h4⟩ := raiseRollback_spec
    (measureStart (readyState s i slot attempts ocode r.dur) i) i r.fuseFail
  rw [hm] at hmr' hcnt' h1 h2 h3 h4
  refine ⟨k, h1, h2, h3, h4, rep, n', mr', cnt', hmr'.trans (hmr.trans (aget_aput_self _ _ _ _)),
    hcnt'.trans (hcnt.trans (aget_aput_self _ _ _ _)), ?_⟩
  rw [ht, hm]
  rfl

end Boot

/-- Settles O54: the choice of the image, an attempt, a failed start, and a start that reaches ready. -/
theorem startSequence : Obligations.StartSequence := by
  refine ⟨fun s r cause => ?_, fun s i f => ?_, failStart_spec, fun s i slot attempts ocode r hb hc hf h0 h1 hr => ?_⟩
  · intro n first img bad refs
    exact ⟨startSeq_noRef, fun h c hr hc => startSeq_common h hr hc, fun h hr =>
      ⟨fun u i ha hi => startSeq_first h hr first rfl ha hi, fun u c v i ha hv hi => startSeq_second h hr first rfl ha hv hi,
        fun u c v d ha hv => startSeq_neither h hr first rfl ha hv⟩⟩
  · refine ⟨rfl, fun c hc => attempt_failed hc, ?_, ?_, ?_⟩
    · rintro rfl h; exact attempt_rollback h
    · rintro rfl h hc; exact attempt_cfg h hc
    · rintro rfl h hb hc
      exact ⟨fun ho => by rw [attempt_owner h hb hc, ho], fun o ho => by rw [attempt_owner h hb hc, ho]⟩
  · obtain ⟨k, hk1, hk2, hk3, hk4, rep, n, mr, cnt, hmr, hcnt, ht⟩ := bootState_spec (i := i) (slot := slot) (attempts := attempts)
      (ocode := ocode) hb hc hf h0 h1 hr
    intro t c
    rw [show t = _ from ht]
    exact ⟨rfl, rfl, rfl, rfl, drawKeys_ne _, rfl, rfl, rfl, rfl, rfl, rfl, rfl, rfl, rfl, hmr, hcnt, hk1, hk2, hk3, hk4⟩

end Sys2Proof.Machine
end
